-- ==== Sys2Proof/Word.lean ====
section
/-! DEFINITION. The byte, and a bank: a fixed number of like things addressed by number (the 32 channels, the 4
contexts, the 512 message records). -/
namespace Sys2Proof

/-- One byte of a cell, of a sample or of the message memory (00_scope.md, Conventions). -/
abbrev Byte := BitVec 8

/-- `n` like things, numbered 0 to n - 1. -/
structure Bank (n : Nat) (α : Type) where
  items : List α
  size_eq : items.length = n
deriving DecidableEq, Repr

def Bank.get {n : Nat} {α : Type} (b : Bank n α) (i : Fin n) : α :=
  b.items.get (i.cast b.size_eq.symm)

def Bank.set {n : Nat} {α : Type} (b : Bank n α) (i : Fin n) (a : α) : Bank n α :=
  ⟨b.items.set i.val a, by simpa using b.size_eq⟩

def Bank.replicate (n : Nat) {α : Type} (a : α) : Bank n α :=
  ⟨List.replicate n a, by simp⟩

def Bank.map {n : Nat} {α β : Type} (b : Bank n α) (f : α → β) : Bank n β :=
  ⟨b.items.map f, by simpa using b.size_eq⟩

def Bank.modify {n : Nat} {α : Type} (b : Bank n α) (i : Fin n) (f : α → α) : Bank n α :=
  b.set i (f (b.get i))

end Sys2Proof
end

