-- ==== Sys2Proof/Syntax.lean ====
section
/-! DEFINITION. The commands: one constructor for each row of spec/opcode_table.json, with its operands. -/
namespace Sys2Proof

/-- A context number 0..3 (00_scope.md). -/
abbrev ContextId := Fin 4
/-- A trunk channel number 0..31 (00_scope.md). -/
abbrev Channel := Fin 32
/-- A message handle 0..511 (R106). -/
abbrev Handle := Fin 512
/-- A DTMF digit by its code: 0..9, 10 for `*`, 11 for `#`, 12..15 for A..D (12, Codes). -/
abbrev Digit := Fin 16

/-- How the sending of a cell ended at this station (R25, R31): a dominant acknowledge bit, a recessive one, or a
send error before it. -/
inductive SendResult where
  | ack | noAck | sendError
deriving DecidableEq, Repr

/-- How a cell of another station ended on the wire: whether a guard bit was wrong or the cell broke off (R25), and the
level read at its acknowledge bit when this station does not drive it, `true` for dominant (R23). -/
structure CellEnd where
  guardError : Bool
  acknowledged : Bool
deriving DecidableEq, Repr

/-- One frequency the detector found in a block: tenths of a hertz, and tenths of a dBm0 (R86, R88; DESIGN CHOICE, log
entry 25). -/
structure ToneLine where
  freq : Nat
  level : Int
deriving DecidableEq, Repr

/-- What the detector measured over one block of 128 samples (R85 to R88; DESIGN CHOICE, log entry 25): the
frequencies found, the power between 300 Hz and 660 Hz and the whole power in one unit, and the block's level in
tenths of a dBm0. -/
structure Measurement where
  lines : List ToneLine
  bandPower : Nat
  totalPower : Nat
  level : Int
deriving DecidableEq, Repr

/-- An operation of the Message Store Controller that writes the message memory (chapter 7), for a loss of power that cuts
it (R102). An open is for a local context or, with a station, for a peer's; the other operations on an OPEN message are
its writer's. -/
inductive StoreOp where
  | create (number limit : Nat)
  | remove (number : Nat)
  | openMessage (mailbox : Nat) (kind : Fin 3) (station : Option (Fin 8)) (context : ContextId)
  | append (h : Handle) (block : List Byte) (samples : Nat)
  | endPage (h : Handle) (damaged : Bool)
  | rollBack (h : Handle)
  | close (h : Handle) (reason : Byte)
  | mark (h : Handle) (mark : Byte)
  | leave (h : Handle) (station : Fin 8) (context : Nat)
  | scan
deriving DecidableEq, Repr

/-- The straps read at power-on: the station number and the store size (R37). -/
structure Straps where
  station : Fin 8
  storeSize : Fin 4
deriving DecidableEq, Repr

/-- A loss of power: the operations of the store that the command which it cut was to make in turn, none where it fell
between two commands, and how many of their writes were done by then (R102; DESIGN CHOICE, log entry 66). -/
structure PowerLoss where
  ops : List StoreOp
  writes : Nat
deriving DecidableEq, Repr

/-- The commands of the table. The commands of a cell kind hand the oldest cell of the receive queue to its owner
(R27) and carry no operand of their own. -/
inductive Instr where
  | powerOn (straps : Straps) (loss : PowerLoss)
  | restart (freeLineBetween : Bool)
  | frameWordSearch (position : Fin 2176) (window : Byte)
  | frameWordVerify (window : Byte)
  | frameWordAligned (frame : Fin 8) (window : Byte)
  | tickCountLimit
  | highwayFrame (frame : Fin 8) (rx : List Byte) (rxSig : Byte) (back : List Byte) (backSig : Byte)
  | superframeBoundary (ticks : Nat)
  | localStationTimeCount
  | minuteClockStep
  | holdPeriodExpiry
  | lineFree (others : List Byte)
  | cellReceived (bytes : List Byte) (ending : CellEnd)
  | cellOutcome (r : SendResult)
  | claimOutcome (r : SendResult)
  | releaseOutcome (r : SendResult)
  | depositCellUndelivered (sendError : Bool)
  | fetchOpenUndelivered (sendError : Bool)
  | roomAppeared
  | configure
  | setTime
  | statusQueryStation
  | statusQueryContext
  | statusQueryMap
  | statusQueryMailbox
  | statusQueryMessage
  | statusQueryFaults
  | faultClear
  | mboxCreate
  | mboxRemove
  | outdial
  | play
  | record
  | stop
  | faxReceive
  | faxSend
  | dataConnect
  | dataTx
  | drop
  | mboxQuery
  | msgMarkHeard
  | msgMarkUnheard
  | msgMarkDelete
  | answer
  | claim
  | release
  | dispute
  | depositOpen
  | depositAccept
  | depositRefuse
  | depositData
  | blockTaken
  | depositRollback
  | depositClose
  | depositClosed
  | fetchOpen
  | fetchGrant
  | fetchRefuse
  | fetchBlock
  | fetchData
  | fetchClose
  | bidTimerExpiry (k : ContextId)
  | blockTimerExpiry (c : Channel)
  | addressTimerExpiry (k : ContextId)
  | answerDelayExpiry (k : ContextId)
  | discriminationTimerExpiry (k : ContextId)
  | seizureGuardExpiry (k : ContextId)
  | dialPhaseEnd (k : ContextId)
  | dialToneWaitExpiry (k : ContextId)
  | progressTimerExpiry (k : ContextId)
  | letGo (k : ContextId)
  | clearingTimeExpiry (k : ContextId)
  | beepTimerExpiry (k : ContextId)
  | idleTimerExpiry (k : ContextId)
  | detectorBlockEnd (k : ContextId) (m : Measurement)
  | slotFillTimeout (k : ContextId)
  | assemblyTimeout (h : Handle)
  | depositSilenceClose (h : Handle)
  | depositReplyTimerExpiry (k : ContextId)
  | fetchReplyTimerExpiry (k : ContextId)
  | fetchKeepalive (k : ContextId)
  | readerSilenceDrop (h : Handle) (station : Fin 8) (context : Nat)
  | startUpScanEnd
  | controlFrameBadCheck (k : ContextId)
  | capability (k : ContextId) (rate : Byte)
  | mode (k : ContextId) (rate : Byte)
  | trainGood (k : ContextId)
  | trainBad (k : ContextId)
  | pageEnd (k : ContextId) (last : Bool)
  | pageGood (k : ContextId)
  | pageRetrain (k : ContextId)
  | pageBad (k : ContextId)
  | disconnect (k : ContextId)
  | faxFrameReceived (k : ContextId) (good : Bool) (number : Byte) (data : List Byte)
  | controlFrameSent (k : ContextId)
  | sendTrainingEnd (k : ContextId)
  | pageLastFrameSent (k : ContextId)
  | faxWaitTimerExpiry (k : ContextId)
  | noiseReading (k : ContextId) (r : BitVec 12)
  | shiftEnded (k : ContextId)
  | shiftFailed (k : ContextId)
  | trainingFailed (k : ContextId)
  | trainingTimerExpiry (k : ContextId)
  | farEndShiftRequest (k : ContextId) (rate : Byte)
  | remoteTraining (k : ContextId)
  | dataBlockReceived (k : ContextId) (sequence : BitVec 4) (data : List Byte)
  | linkBlockBadCheck (k : ContextId)
  | ackReceived (k : ContextId) (n : BitVec 4)
  | holdReceived (k : ContextId) (n : BitVec 4)
  | resendTimerExpiry (k : ContextId)
  | remoteHoldExpiry (k : ContextId)
  | unownedCellDiscarded
deriving DecidableEq, Repr

end Sys2Proof
end

