-- ==== Sys2Proof/Decode.lean ====
section
/-! DEFINITION. The command a word of spec/opcode_table.json spells. The table gives none of its rows any bits, so no
word spells a command. -/
namespace Sys2Proof

/-- The table's rows have neither "fixed" nor "fields" (spec/98_reader.md: n_rows_with_fixed 0, n_rows_with_fields 0).
-/
def decodeTableWord (_nbits _w : Nat) : Option Instr := none

end Sys2Proof
end

