-- ==== Sys2Proof/Machine/Bytes.lean ====
section
/-! DEFINITION. Byte order, the cell check, and lists of bytes of a fixed length. -/
namespace Sys2Proof.Machine

/-- Byte order of the spec: most significant byte first (00_scope.md, Byte order). -/
def be1 (n : Nat) : List Byte := [BitVec.ofNat 8 n]
def be2 (n : Nat) : List Byte := [BitVec.ofNat 8 (n / 256), BitVec.ofNat 8 n]
def be3 (n : Nat) : List Byte := [BitVec.ofNat 8 (n / 65536), BitVec.ofNat 8 (n / 256), BitVec.ofNat 8 n]

/-- A field whose value is absent or not known is sent as all ones (R175). -/
def beOpt1 : Option Nat → List Byte
  | some n => be1 n
  | none => [0xFF]
def beOpt2 : Option Nat → List Byte
  | some n => be2 n
  | none => [0xFF, 0xFF]
def beOpt3 : Option Nat → List Byte
  | some n => be3 n
  | none => [0xFF, 0xFF, 0xFF]

/-- The number carried by bytes, most significant first. -/
def ofBytes (bs : List Byte) : Nat := bs.foldl (fun n b => n * 256 + b.toNat) 0

/-- The field of `width` bytes at place `at` of a payload. -/
def field (payload : List Byte) (pos width : Nat) : Nat := ofBytes ((payload.drop pos).take width)

/-- The byte at a place of a payload. -/
def byteAt (payload : List Byte) (i : Nat) : Byte := payload.getD i 0

/-- A list of exactly n bytes: cut, or completed with `fill`. -/
def fitTo (n : Nat) (fill : Byte) (bs : List Byte) : List Byte :=
  bs.take n ++ List.replicate (n - bs.length) fill

/-- One bit through the CRC register of polynomial x^16 + x^12 + x^5 + 1 (R22). -/
def crcBit (reg : BitVec 16) (bit : Bool) : BitVec 16 :=
  if (reg.msb != bit) then (reg <<< 1) ^^^ 0x1021 else reg <<< 1

/-- One byte through the register, most significant bit first. -/
def crcByte (reg : BitVec 16) (b : Byte) : BitVec 16 :=
  [7, 6, 5, 4, 3, 2, 1, 0].foldl (fun r i => crcBit r (b.getLsbD i)) reg

/-- The check of R22: preset to all ones, no final inversion. -/
def crc16 (bytes : List Byte) : BitVec 16 := bytes.foldl crcByte 0xFFFF

end Sys2Proof.Machine
end

