-- ==== Sys2Proof/Config.lean ====
section
/-! DEFINITION. What an implementation fixes and the spec leaves open: free values, with no body, so that nothing
can be proved of them. -/
namespace Sys2Proof

/-- The phase with which a sine of a tone begins, in the units of an angle, which R81 and R139 do not state. The arguments
are the value of the free-value counter at the tone's first sample, and the sine's place in the tone (DESIGN CHOICE, log
entry 7). -/
opaque Config.tonePhase : Nat → Nat → Nat

/-- Which of the code bytes next to a linear value is sent for it, which R81 and R139 do not state. The argument is the
free-value counter of the state (DESIGN CHOICE, log entry 7). -/
opaque Config.toneRounding : Nat → Nat

/-- The sample the Data Pump supplies for one frame while it sends, of which the spec states nothing (chapter 11). The
argument is the free-value counter of the state (DESIGN CHOICE, log entry 7). -/
opaque Config.pumpSample : Nat → Byte

/-- A byte of a fax block beyond its valid byte count, which R154 and R155 do not state (DESIGN CHOICE, log entry 8). -/
opaque Config.freeByte : Nat → Byte

end Sys2Proof
end

