-- ==== Sys2Proof/Machine/State.lean ====
section
/-! DEFINITION. The state of one PD448 as the spec gives it, block by block, its values at reset, and the two reason
types of the host's interface. -/
namespace Sys2Proof.Machine

/-- The spec describes no condition that stops the part: what it calls faults are entries of the fault record (R46),
which are state. No command raises a fault, so the type has no constructor; that is safe (DEDUCED, log entry 36). -/
inductive Fault where
deriving DecidableEq, Repr

/-- Why a command has no outcome. -/
inductive Refusal where
  /-- Raised by `exec` alone, for a command the model gives no meaning; safe. No command of the table is refused. -/
  | notModelled (mnemonic : String)
deriving DecidableEq, Repr

/-! ### The highway (chapter 1) -/

/-- A 2-bit line code (R2). -/
inductive LineCode where
  | idle | seize | answer | blocked
deriving DecidableEq, Repr

/-- Progress of frame alignment with what each state holds (R5, R6, R7). -/
inductive AlignState where
  | search
  | verify (candidate : Nat) (goodWords : Nat) (expected : Fin 8)
  | aligned (position : Nat)
deriving DecidableEq, Repr

/-- What the HWI keeps for one channel (R13, R14, R16). -/
structure HwiChannel where
  enable : Bool
  aside : Bool
  driving : Bool
  mismatches : Nat
deriving DecidableEq, Repr

/-- Highway Interface (chapter 1, table of HWI state). -/
structure Hwi where
  bitCounter : Nat
  align : AlignState
  errors : Nat
  lastAligned : Option Nat
  tickCount : Option Nat
  prevTiming : Option Nat
  localCount : Nat
  hold : Option Nat
  channels : Bank 32 HwiChannel
  rxCodes : Bank 32 LineCode
  txCodes : Bank 32 LineCode
deriving DecidableEq, Repr

/-! ### The control line (chapter 2) -/

/-- A cell: the header fields and the payload (12, The cell header). -/
structure Cell where
  prio : BitVec 3
  src : BitVec 4
  dst : BitVec 4
  kind : Byte
  tag : Byte
  payload : List Byte
deriving DecidableEq, Repr

/-- A cell of the transmit queue: its check computed once (R22), whether it is in transmission (R28), whether a
restart left its outcome to nobody (R36), and the serial of the deposit or fetch record it serves (DESIGN CHOICE, log
entry 35). -/
structure TxCell where
  cell : Cell
  check : BitVec 16
  sending : Bool
  orphan : Bool
  serial : Nat
deriving DecidableEq, Repr

inductive LineState where
  | joining | busy | free
deriving DecidableEq, Repr

/-- The producers of stream cells (R28, R29). -/
inductive StreamProducer where
  | deposit (k : ContextId)
  | fetchData
  | dataRx (k : ContextId)
deriving DecidableEq, Repr

/-- Control Line Controller (chapter 2, table of CLC state). -/
structure Clc where
  tx : List TxCell
  rx : List Cell
  line : LineState
  run : Nat
  badCheck : Nat
  undelivered : Nat
  held : List StreamProducer
deriving DecidableEq, Repr

/-! ### Configuration and faults (chapter 3) -/

/-- The configuration record (R40). -/
structure ConfigRecord where
  groupSize : Nat
  huntSet : BitVec 32
  outdialSet : BitVec 32
  pulseSet : BitVec 32
  settleCount : Nat
  timingThreshold : Nat
  answerDelay : Nat
  addressDigits : Nat
  defaultMailbox : Nat
  quietThreshold : Nat
  silenceBlocks : Nat
  maxBlocks : Nat
  rateMin : Nat
  rateMax : Nat
  errorBurst : Nat
  toneLength : Nat
  gapLength : Nat
  faxMaxRate : Nat
  faxAllowed : Bool
  dataAllowed : Bool
deriving DecidableEq, Repr

inductive FaultKind where
  | contention | highwayLost | timingStep | storeInconsistent | disputeLost
deriving DecidableEq, Repr

/-- An entry of the fault record (R46). -/
structure FaultEntry where
  kind : FaultKind
  subject : Nat
  stamp : BitVec 24
  clockSet : Bool
deriving DecidableEq, Repr

inductive StationState where
  | starting | unconfigured | active
deriving DecidableEq, Repr

/-- Configuration and Fault Unit (chapter 3). The configuration state is LOCKED exactly when `config` holds a record.
`stationTime` counts superframes of station time (R10). -/
structure Cfu where
  station : Fin 8
  storeSize : Fin 4
  state : StationState
  alignSeen : Bool
  config : Option ConfigRecord
  minute : BitVec 24
  subMinute : Nat
  clockSet : Bool
  faults : List FaultEntry
  overflow : Nat
  lostReports : Nat
  stationTime : Nat
deriving DecidableEq, Repr

/-! ### Trunk channels (chapter 4) -/

inductive View where
  | free
  | self (k : ContextId)
  | peer (p : Fin 8)
  | unknown
  | blocked
deriving DecidableEq, Repr

/-- Settling of one direction of one channel (R50). -/
structure Settling where
  settled : LineCode
  candidate : Option LineCode
  run : Nat
deriving DecidableEq, Repr

/-- An entry of the channel map (R52); the settled transmit code is the observed transmit code. -/
structure MapEntry where
  view : View
  blockTimer : Option Nat
  rx : Settling
  tx : Settling
  stale : Nat
deriving DecidableEq, Repr

/-- The purpose of a claim and the direction of a call. -/
inductive Direction where
  | incoming | outgoing
deriving DecidableEq, Repr

/-- Why a CLAIM in transmission is to be withdrawn (R30): a bid cut short (R59), an outgoing claim interrupted (R64),
a DROP (R84), a loss of alignment (R16). -/
inductive WithdrawReason where
  | cutShort | interrupted | dropped | alignmentLost
deriving DecidableEq, Repr

/-- A bid record (R57, R63): without a timer, its CLAIM is in the transmit queue. -/
structure Bid where
  channel : Channel
  direction : Direction
  timer : Option Nat
  withdrawal : Option WithdrawReason
deriving DecidableEq, Repr

/-- Trunk Channel Monitor (chapter 4). -/
structure Tcm where
  map : Bank 32 MapEntry
  bids : Bank 4 (Option Bid)
deriving DecidableEq, Repr

/-! ### Contexts, detector and dial generator (chapter 5) -/

inductive CtxState where
  | free | claiming | addressing | answering | discriminating | seized | dialling | progress | connected | clearing
deriving DecidableEq, Repr

/-- The purpose of an OUTDIAL with its argument (R77). -/
inductive CallPurpose where
  | plain
  | play (home handle : Nat)
  | faxSend (home handle : Nat)
  | data (min max : Nat)
deriving DecidableEq, Repr

/-- An outgoing request carried by a context (R77). -/
structure Outgoing where
  dial : List Byte
  purpose : CallPurpose
  choiceRetried : Bool
  glareRetried : Bool
  tag : Byte
deriving DecidableEq, Repr

/-- The phase within a dial character (R80); `off` when no character is current. -/
inductive DialPhase where
  | off | tone | gap | break | make | pause | wait
deriving DecidableEq, Repr

structure Dgn where
  dial : List Byte
  pos : Nat
  phase : DialPhase
  left : Nat
  pulses : Nat
deriving DecidableEq, Repr

/-- The tone a context sends (R81, R139): the number of the free value its phases are, and the samples sent so far. A tone
that has sent none has no phase yet (DESIGN CHOICE, log entry 7). -/
structure ToneRun where
  phase : Nat
  sent : Nat
deriving DecidableEq, Repr

/-- A context's tone detector (chapter 5, table before R85). `levelSum` is 128 times the last block level. -/
structure Detector where
  gathered : List Byte
  digitRun : Option (Digit × Nat)
  armed : Bool
  absent : Nat
  progressOn : Bool
  progressRun : Nat
  lastOn : Nat
  busyCycles : Nat
  reorderCycles : Nat
  ringback : Bool
  dialReported : Bool
  faxRun : Nat
  faxReported : Bool
  modemRun : Nat
  modemReported : Bool
  levelSum : Nat
  stopped : Bool
deriving DecidableEq, Repr

/-! ### Voice coding (chapter 6) -/

inductive MsgKind where
  | voice | fax | greeting
deriving DecidableEq, Repr

/-- A slot of a playback or source buffer (R97). `left` counts down the 10 ms allowance in superframes. -/
inductive Slot where
  | empty
  | requested (index : Nat)
  | arriving (index : Nat) (parts : List (Nat × List Byte)) (left : Nat)
  | ready (index : Nat) (block : List Byte)
deriving DecidableEq, Repr

structure Buffer where
  a : Slot
  b : Slot
deriving DecidableEq, Repr

inductive PlayMark where
  | off | playing | underrun | ended
deriving DecidableEq, Repr

/-- Where a playback or a fax send reads its blocks: a local handle, or the context's fetch. -/
inductive Source where
  | here (handle : Nat)
  | fetched
deriving DecidableEq, Repr

/-- A context's voice codec (chapter 6, table of VCD state). -/
structure Vcd where
  encPredictor : Int
  encIndex : Nat
  build : List Byte
  pendingNibble : Option (BitVec 4)
  startPredictor : Int
  startIndex : Nat
  largest : Nat
  sequence : Nat
  recording : Bool
  decPredictor : Int
  decIndex : Nat
  buffer : Buffer
  current : Option (Nat × Nat)
  position : Nat
  length : Nat
  mark : PlayMark
  source : Option Source
  kind : Option MsgKind
  blocks : Nat
deriving DecidableEq, Repr

/-! ### The message store (chapter 7) -/

inductive MsgState where
  | opened | closed | deleting
deriving DecidableEq, Repr

/-- The writer of an OPEN message: a local context, or a peer's context (R106). -/
inductive Writer where
  | here (k : ContextId)
  | peer (station : Fin 8) (context : Nat)
deriving DecidableEq, Repr

/-- An entry of a reader list (R106). -/
structure Reader where
  station : Fin 8
  context : Nat
  lastActivity : Nat
deriving DecidableEq, Repr

/-- A message record that is not FREE (R106). -/
structure Msg where
  state : MsgState
  kind : MsgKind
  mailbox : Nat
  first : Option Nat
  last : Option Nat
  count : Nat
  length : Nat
  pageMark : Nat
  heard : Bool
  truncated : Bool
  gaps : Bool
  damaged : Bool
  stamp : Option (BitVec 24)
  writer : Option Writer
  readers : List Reader
deriving DecidableEq, Repr

/-- A mailbox record (R107). -/
structure Mbx where
  number : Nat
  limit : Nat
  list : List Nat
  openCount : Nat
  greeting : Option Nat
  greetingOpen : Bool
deriving DecidableEq, Repr

inductive StoreState where
  | scanning | ready
deriving DecidableEq, Repr

/-- Message Store Controller (chapter 7). A message record is absent from `msgs` when it is FREE. A block not listed
in `links` has the link entry END. `mem` holds the data blocks, byte i of block n at address 512 n + i; the directory
blocks are held as the three tables (R102; DESIGN CHOICE, log entry 66). -/
structure Msc where
  state : StoreState
  freeList : List Nat
  links : List (Nat × Nat)
  msgs : Bank 512 (Option Msg)
  mbxs : List Mbx
  lowMark : Bool
  claimed : List Nat
  mem : List Host.Cell
deriving DecidableEq, Repr

/-! ### Remote mailbox access (chapter 8) -/

/-- An assembly of a deposit (chapter 8, table of deposit list fields). -/
structure Assembly where
  parts : List (Nat × List Byte)
  pageEnd : Bool
  damaged : Bool
  started : Nat
deriving DecidableEq, Repr

/-- A deposit list entry; its assembly is for the expected sequence. `lastWritten` and `lastPage` are the sequence and
the fax page number of the last block written (R126, R130). -/
structure DepositEntry where
  handle : Nat
  station : Fin 8
  context : Nat
  kind : MsgKind
  expected : Nat
  assembly : Option Assembly
  lastHeard : Nat
  lastWritten : Option Nat
  lastPage : Option Nat
deriving DecidableEq, Repr

/-- A pending block list entry (R133). -/
structure PendingBlock where
  station : Fin 8
  context : Nat
  handle : Nat
  index : Nat
  block : List Byte
  nextPart : Nat
deriving DecidableEq, Repr

inductive DepositState where
  | opening | streaming | closing
deriving DecidableEq, Repr

/-- An item of an outbound deposit's block buffer: a finished block, or a rollback that waits behind the blocks of its
page (R125, R155). -/
inductive DepItem where
  | block (sequence : Nat) (bytes : List Byte) (pageEnd damaged : Bool)
  | rollback (page : Nat)
deriving DecidableEq, Repr

/-- The close a session has asked of its deposit: the reason, and for VOICE and GREETING the last block's sequence
number and sample count (R130). -/
structure CloseAsk where
  reason : Byte
  last : Option (Nat × Nat)
deriving DecidableEq, Repr

/-- An outbound deposit record (chapter 8). `toOffer` holds the parts cut and not yet queued (R125). -/
structure OutDeposit where
  home : Nat
  mailbox : Nat
  kind : MsgKind
  handle : Option Nat
  state : DepositState
  buffer : List DepItem
  outstanding : List Nat
  toOffer : List Cell
  timer : Option Nat
  close : Option CloseAsk
  closeSent : Bool
  nextSequence : Nat
  serial : Nat
deriving DecidableEq, Repr

inductive FetchState where
  | opening | opened
deriving DecidableEq, Repr

/-- A fetch record (chapter 8). `mailbox` is set for a greeting, `handle` once asked by number or granted. -/
structure Fetch where
  home : Nat
  mailbox : Option Nat
  handle : Option Nat
  state : FetchState
  pending : List Nat
  timer : Option Nat
  keepalive : Nat
  serial : Nat
deriving DecidableEq, Repr

/-- A cell refused at the transmit queue whose producer is still to be told UNDELIVERED (R29; DEDUCED, log entry 9). -/
structure Notice where
  context : ContextId
  kind : Byte
  serial : Nat
deriving DecidableEq, Repr

/-- Remote Access Unit (chapter 8). -/
structure Rau where
  deposits : List DepositEntry
  pendingBlocks : List PendingBlock
  outbound : Bank 4 (Option OutDeposit)
  fetches : Bank 4 (Option Fetch)
  serial : Nat
  notices : List Notice
deriving DecidableEq, Repr

/-! ### Voice sessions (chapter 9) -/

inductive Activity where
  | none | playing | beeping | recording | waiting
deriving DecidableEq, Repr

inductive Script where
  | none | answer | outdialPlay
deriving DecidableEq, Repr

inductive ScriptStep where
  | greeting | beep | record
deriving DecidableEq, Repr

inductive PlayTarget where
  | message (home handle : Nat)
  | greeting (mailbox : Nat)
deriving DecidableEq, Repr

/-- Where the blocks of a recording or a fax receive go: a local handle, or the outbound deposit record of that
serial. -/
inductive RecTarget where
  | here (handle : Nat)
  | outbound (serial : Nat)
deriving DecidableEq, Repr

/-- The voice part of a context's activity record (chapter 9, table). -/
structure Voice where
  activity : Activity
  script : Script
  step : Option ScriptStep
  target : Option PlayTarget
  start : Nat
  recMailbox : Option Nat
  recKind : MsgKind
  maxBlocks : Nat
  handedOn : Nat
  quietRun : Nat
  recTarget : Option RecTarget
  depositWait : Bool
  beep : Option Nat
  idle : Option Nat
deriving DecidableEq, Repr

/-! ### Fax sessions (chapter 10) -/

inductive FaxRole where
  | receive | send
deriving DecidableEq, Repr

/-- The phases of a receive and of a send (chapter 10, phase tables). -/
inductive FaxPhase where
  | off | opening | awaitMode | training | awaitPage | page
  | awaitCapability | sendTraining | awaitTrainVerdict | sending | awaitPageVerdict | disconnecting
deriving DecidableEq, Repr

/-- A context's fax controller (chapter 10, table of FXC state). -/
structure Fax where
  role : Option FaxRole
  phase : FaxPhase
  mailbox : Nat
  rate : Nat
  badTrainings : Nat
  pagesDone : Nat
  frames : Nat
  bad : Nat
  expected : Nat
  build : List Byte
  resend : Bool
  target : Option RecTarget
  source : Option Source
  granted : Bool
  blocks : Nat
  buffer : Buffer
  sendBlock : Nat
  sendOffset : Nat
  pageStart : Nat
  pageEnd : Option (Nat × Bool)
  frame : List Byte
  frameNumber : Nat
  framesOut : List (Nat × List Byte)
  wait : Option Nat
  keptCapability : Option Nat
  keptVerdict : Option Bool
  trainingBegun : Bool
  result : Option Byte
deriving DecidableEq, Repr

/-! ### Data sessions (chapter 11) -/

inductive DataPhase where
  | training | up | shifting | retraining
deriving DecidableEq, Repr

inductive DataMode where
  | answer | originate
deriving DecidableEq, Repr

/-- Reasons of a shift or a retrain (R165, R166). -/
inductive RateReason where
  | fallback | stepUp | burst | farEnd | timing | return | ceiling | remote
deriving DecidableEq, Repr

/-- A context's quality monitor (chapter 11, table of the QMN items). Q and the training readings serve fax trainings
too. -/
structure Qmn where
  phase : Option DataPhase
  mode : DataMode
  min : Nat
  max : Nat
  rate : Nat
  target : Nat
  reason : RateReason
  quality : Option Nat
  readings : Nat
  fallback : Nat
  stepUp : Nat
  windowReadings : Nat
  errors : Nat
  retrains : Nat
  timer : Option Nat
deriving DecidableEq, Repr

/-- A DATA link block waiting for its acknowledgement (R170). -/
structure LinkBlock where
  sequence : BitVec 4
  bytes : List Byte
  resends : Nat
deriving DecidableEq, Repr

/-- A link block handed to the pump (chapter 11, The block link). -/
inductive LinkFrame where
  | data (sequence : BitVec 4) (bytes : List Byte)
  | ack (n : BitVec 4)
  | hold (n : BitVec 4)
deriving DecidableEq, Repr

/-- A context's link controller (chapter 11, table of the LKC items). `rxHeld` is the length of a DATA_RX kept for want
of room (R174); `linkOut` is what has been handed to the pump, oldest first (DESIGN CHOICE, log entry 28). -/
structure Lkc where
  sendBuffer : List Byte
  rxBuffer : List Byte
  outstanding : List LinkBlock
  nextSequence : BitVec 4
  resend : Option Nat
  remoteHold : Option Nat
  expected : BitVec 4
  holdSent : Bool
  flowStop : Bool
  rxHeld : Option Nat
  linkOut : List LinkFrame
deriving DecidableEq, Repr

/-- A control frame of the fax protocol (chapter 10). -/
inductive ControlFrame where
  | capability (rate : Nat)
  | mode (rate : Nat)
  | trainGood
  | trainBad
  | pageEnd (last : Bool)
  | pageGood
  | pageRetrain
  | pageBad
  | disconnect
deriving DecidableEq, Repr

/-- What the part has last asked of the Data Pump: nothing, to train at a rate as the sending or the receiving end of a
fax, to train a data modem, to shift, or to carry on at the trained rate. -/
inductive PumpState where
  | off
  | control
  | trainingReceive (rate : Nat)
  | trainingSend (rate : Nat)
  | trainingData (rate : Nat) (mode : DataMode)
  | shifting (rate : Nat)
  | running (rate : Nat)
deriving DecidableEq, Repr

/-- A context's data pump, as far as the spec says what is asked of it; `control` holds the control frames handed over
and not yet reported gone out, oldest first (R150). -/
structure Pump where
  state : PumpState
  control : List ControlFrame
deriving DecidableEq, Repr

/-! ### A context and the whole station -/

inductive SessionKind where
  | none | voice | fax | data
deriving DecidableEq, Repr

/-- A context record with the parts its detector, dial generator, codec and session units keep for it (R70). `txCode`
and `txSample` are what it supplies (R71): the line code as it stands, and the sample produced for the latest frame. -/
structure Context where
  state : CtxState
  channel : Option Channel
  held : Bool
  direction : Option Direction
  mailbox : Option Nat
  announced : Bool
  digits : List Digit
  session : SessionKind
  requestTag : Option Byte
  outgoing : Option Outgoing
  outdialDone : Bool
  timer : Option Nat
  clearing : Nat
  txCode : LineCode
  txSample : Byte
  tone : ToneRun
  detector : Detector
  dgn : Dgn
  vcd : Vcd
  voice : Voice
  fax : Fax
  qmn : Qmn
  lkc : Lkc
  pump : Pump
deriving DecidableEq, Repr

/-- The station. `free` is the counter of free values (DESIGN CHOICE, log entry 7); `pending` is the queue of waiting
commands. -/
structure State where
  hwi : Hwi
  clc : Clc
  cfu : Cfu
  tcm : Tcm
  ctx : Bank 4 Context
  msc : Msc
  rau : Rau
  free : Nat
  pending : List Instr
deriving DecidableEq, Repr

/-! ### Reset values -/

/-- R19. -/
def HwiChannel.reset : HwiChannel :=
  { enable := false, aside := false, driving := false, mismatches := 0 }

/-- R19: SEARCH, counter 0, last aligned and previous count absent, tick count idle, no hold, no drive. The codes read
in the current superframe stand at IDLE (DESIGN CHOICE, log entry 5). -/
def Hwi.reset : Hwi :=
  { bitCounter := 0, align := .search, errors := 0, lastAligned := none, tickCount := none, prevTiming := none, localCount := 0,
    hold := none, channels := .replicate 32 .reset, rxCodes := .replicate 32 .idle, txCodes := .replicate 32 .idle }

/-- R36. -/
def Clc.reset : Clc :=
  { tx := [], rx := [], line := .joining, run := 0, badCheck := 0, undelivered := 0, held := [] }

/-- R43, with the straps as read (R37). -/
def Cfu.reset (station : Fin 8) (storeSize : Fin 4) : Cfu :=
  { station, storeSize, state := .starting, alignSeen := false, config := none, minute := 0, subMinute := 0,
    clockSet := false, faults := [], overflow := 0, lostReports := 0, stationTime := 0 }

/-- R69. -/
def Settling.reset : Settling := { settled := .idle, candidate := none, run := 0 }

/-- R69. -/
def MapEntry.reset : MapEntry := { view := .unknown, blockTimer := none, rx := .reset, tx := .reset, stale := 0 }

/-- R69. -/
def Tcm.reset : Tcm := { map := .replicate 32 .reset, bids := .replicate 4 none }

/-- R70, and R86: the detector starts armed. -/
def Detector.reset : Detector :=
  { gathered := [], digitRun := none, armed := true, absent := 0, progressOn := false, progressRun := 0, lastOn := 0,
    busyCycles := 0, reorderCycles := 0, ringback := false, dialReported := false, faxRun := 0, faxReported := false,
    modemRun := 0, modemReported := false, levelSum := 0, stopped := false }

def ToneRun.reset : ToneRun := { phase := 0, sent := 0 }

def Dgn.reset : Dgn := { dial := [], pos := 0, phase := .off, left := 0, pulses := 0 }

def Buffer.reset : Buffer := { a := .empty, b := .empty }

/-- R101. -/
def Vcd.reset : Vcd :=
  { encPredictor := 0, encIndex := 0, build := [], pendingNibble := none, startPredictor := 0, startIndex := 0,
    largest := 0, sequence := 0, recording := false, decPredictor := 0, decIndex := 0, buffer := .reset,
    current := none, position := 0, length := 0, mark := .off, source := none, kind := none, blocks := 0 }

/-- Chapter 9, after the table: activity and script none, every other item absent, 0 or clear. -/
def Voice.reset : Voice :=
  { activity := .none, script := .none, step := none, target := none, start := 0, recMailbox := none,
    recKind := .voice, maxBlocks := 0, handedOn := 0, quietRun := 0, recTarget := none, depositWait := false,
    beep := none, idle := none }

/-- Chapter 10, after the table: role and phase absent, every count 0, buffers empty, targets and timers absent. -/
def Fax.reset : Fax :=
  { role := none, phase := .off, mailbox := 0, rate := 0, badTrainings := 0, pagesDone := 0, frames := 0, bad := 0,
    expected := 0, build := [], resend := false, target := none, source := none, granted := false, blocks := 0,
    buffer := .reset, sendBlock := 0, sendOffset := 0, pageStart := 0, pageEnd := none, frame := [],
    frameNumber := 0, framesOut := [], wait := none, keptCapability := none, keptVerdict := none,
    trainingBegun := false, result := none }

/-- Chapter 11, after the table: Q absent, every count 0, every timer absent. The mode, the bounds, the rate index, the
target and the reason are the model's (DESIGN CHOICE, log entry 79). -/
def Qmn.reset : Qmn :=
  { phase := none, mode := .answer, min := 0, max := 0, rate := 0, target := 0, reason := .fallback, quality := none,
    readings := 0, fallback := 0, stepUp := 0, windowReadings := 0, errors := 0, retrains := 0, timer := none }

/-- Chapter 11, after the table: buffers and list empty, sequences 0, flow mark GO, timers absent. -/
def Lkc.reset : Lkc :=
  { sendBuffer := [], rxBuffer := [], outstanding := [], nextSequence := 0, resend := none, remoteHold := none,
    expected := 0, holdSent := false, flowStop := false, rxHeld := none, linkOut := [] }

def Pump.reset : Pump := { state := .off, control := [] }

/-- The record of a FREE context (R70). Its line code and sample are IDLE and 80h (DESIGN CHOICE, log entry 5). -/
def Context.reset : Context :=
  { state := .free, channel := none, held := false, direction := none, mailbox := none, announced := false,
    digits := [], session := .none, requestTag := none, outgoing := none, outdialDone := false, timer := none,
    clearing := 0, txCode := .idle, txSample := 0x80, tone := .reset, detector := .reset, dgn := .reset, vcd := .reset,
    voice := .reset, fax := .reset, qmn := .reset, lkc := .reset, pump := .reset }

/-- The store of a part whose memory has never been written: SCANNING (R121) over an empty directory (DESIGN CHOICE,
log entry 5). -/
def Msc.reset : Msc :=
  { state := .scanning, freeList := [], links := [], msgs := .replicate 512 none, mbxs := [], lowMark := false,
    claimed := [], mem := [] }

/-- R137. -/
def Rau.reset : Rau :=
  { deposits := [], pendingBlocks := [], outbound := .replicate 4 none, fetches := .replicate 4 none, serial := 0,
    notices := [] }

/-- The station right after power-on with its straps at station 0 and store size 0, over an empty message memory
(DESIGN CHOICE, log entries 4 and 5). -/
def State.reset : State :=
  { hwi := .reset, clc := .reset, cfu := .reset 0 0, tcm := .reset, ctx := .replicate 4 .reset, msc := .reset,
    rau := .reset, free := 0, pending := [] }

end Sys2Proof.Machine
end

