-- ==== Sys2Proof/Machine/Ops.lean ====
section
/-! DEFINITION. The named updates of the state, one for each block, and the small helpers every family uses. -/
namespace Sys2Proof.Machine

def State.modHwi (f : Hwi → Hwi) (s : State) : State := { s with hwi := f s.hwi }
def State.modClc (f : Clc → Clc) (s : State) : State := { s with clc := f s.clc }
def State.modCfu (f : Cfu → Cfu) (s : State) : State := { s with cfu := f s.cfu }
def State.modTcm (f : Tcm → Tcm) (s : State) : State := { s with tcm := f s.tcm }
def State.modMsc (f : Msc → Msc) (s : State) : State := { s with msc := f s.msc }
def State.modRau (f : Rau → Rau) (s : State) : State := { s with rau := f s.rau }
def State.modCtx (k : ContextId) (f : Context → Context) (s : State) : State := { s with ctx := s.ctx.modify k f }

/-- Context k. -/
def State.at (s : State) (k : ContextId) : Context := s.ctx.get k
/-- The map entry of channel c. -/
def State.entry (s : State) (c : Channel) : MapEntry := s.tcm.map.get c
def State.modEntry (c : Channel) (f : MapEntry → MapEntry) (s : State) : State :=
  s.modTcm fun t => { t with map := t.map.modify c f }
def State.modChannel (c : Channel) (f : HwiChannel → HwiChannel) (s : State) : State :=
  s.modHwi fun h => { h with channels := h.channels.modify c f }
def State.bid (s : State) (k : ContextId) : Option Bid := s.tcm.bids.get k
def State.setBid (k : ContextId) (b : Option Bid) (s : State) : State :=
  s.modTcm fun t => { t with bids := t.bids.set k b }
def State.outbound (s : State) (k : ContextId) : Option OutDeposit := s.rau.outbound.get k
def State.setOutbound (k : ContextId) (d : Option OutDeposit) (s : State) : State :=
  s.modRau fun r => { r with outbound := r.outbound.set k d }
def State.fetch (s : State) (k : ContextId) : Option Fetch := s.rau.fetches.get k
def State.setFetch (k : ContextId) (f : Option Fetch) (s : State) : State :=
  s.modRau fun r => { r with fetches := r.fetches.set k f }
def State.msg (s : State) (h : Handle) : Option Msg := s.msc.msgs.get h
def State.setMsg (h : Handle) (m : Option Msg) (s : State) : State :=
  s.modMsc fun x => { x with msgs := x.msgs.set h m }

def State.modVoice (k : ContextId) (f : Voice → Voice) (s : State) : State :=
  s.modCtx k fun x => { x with voice := f x.voice }
def State.modVcd (k : ContextId) (f : Vcd → Vcd) (s : State) : State :=
  s.modCtx k fun x => { x with vcd := f x.vcd }
def State.modFax (k : ContextId) (f : Fax → Fax) (s : State) : State :=
  s.modCtx k fun x => { x with fax := f x.fax }
def State.modQmn (k : ContextId) (f : Qmn → Qmn) (s : State) : State :=
  s.modCtx k fun x => { x with qmn := f x.qmn }
def State.modLkc (k : ContextId) (f : Lkc → Lkc) (s : State) : State :=
  s.modCtx k fun x => { x with lkc := f x.lkc }
def State.modPump (k : ContextId) (f : Pump → Pump) (s : State) : State :=
  s.modCtx k fun x => { x with pump := f x.pump }
def State.modDetector (k : ContextId) (f : Detector → Detector) (s : State) : State :=
  s.modCtx k fun x => { x with detector := f x.detector }
def State.modDgn (k : ContextId) (f : Dgn → Dgn) (s : State) : State :=
  s.modCtx k fun x => { x with dgn := f x.dgn }

/-- The four contexts in ascending order. -/
def contextIds : List ContextId := [0, 1, 2, 3]

/-- The 32 channels in ascending order (R51). -/
def channelIds : List Channel :=
  [0, 1, 2, 3, 4, 5, 6, 7, 8, 9, 10, 11, 12, 13, 14, 15,
   16, 17, 18, 19, 20, 21, 22, 23, 24, 25, 26, 27, 28, 29, 30, 31]

/-- Do something for each member of a list in turn. -/
def forEach {α : Type} (xs : List α) (f : α → State → State) (s : State) : State :=
  xs.foldl (fun t x => f x t) s

/-- A counter that stops at the top of its range (00_scope.md, Numbers). -/
def satAdd (cap n d : Nat) : Nat := min cap (n + d)

/-- The outcome of a command that has its effect: the part goes on. -/
abbrev goOn (s : State) : Host.Outcome State Fault Refusal := .next s

/-- A command whose moment has not come changes nothing (DESIGN CHOICE, log entry 2). -/
def whenDue (due : Bool) (effect : State) (s : State) : Host.Outcome State Fault Refusal :=
  .next (if due then effect else s)

/-- Whether the HWI is ALIGNED (R7). -/
def isAligned (s : State) : Bool :=
  match s.hwi.align with
  | .aligned _ => true
  | _ => false

/-- Whether a boundary or a frame gives session time: ALIGNED, and after the first superframe boundary, at which the
tick count started (R9, R11). -/
def givesSessionTime (s : State) : Bool := isAligned s && s.hwi.tickCount.isSome

/-- A context holds the channel whose view names it (R52). -/
def holds (s : State) (k : ContextId) (c : Channel) : Bool := (s.entry c).view == .self k

/-- The context, if any, that holds a channel. -/
def holderOf (s : State) (c : Channel) : Option ContextId :=
  match (s.entry c).view with
  | .self k => some k
  | _ => none

/-- Whether a context holds a channel at this moment. -/
def holdsAny (s : State) (k : ContextId) : Bool :=
  match (s.at k).channel with
  | some c => holds s k c
  | none => false

/-- The context that is CLAIMING a channel. -/
def claimerOf (s : State) (c : Channel) : Option ContextId :=
  contextIds.find? fun k =>
    (s.at k).state == .claiming && (match s.bid k with | some b => b.channel == c | none => false)

/-- The context that is CLEARING on a channel, before or after letting it go. -/
def clearerOf (s : State) (c : Channel) : Option ContextId :=
  contextIds.find? fun k => (s.at k).state == .clearing && (s.at k).channel == some c

/-- The lowest-numbered FREE context (R57, R66, R77). -/
def freeContext? (s : State) : Option ContextId := contextIds.find? fun k => (s.at k).state == .free

/-- Whether a channel is in a configured set (R40; bit c is channel c). -/
def inSet (set : BitVec 32) (c : Channel) : Bool := set.getLsbD c.val

/-- The line settle count: the configured one, or 8 before a configuration is accepted (R41). -/
def settleCount (s : State) : Nat :=
  match s.cfu.config with
  | some g => g.settleCount
  | none => 8

/-- The timing threshold: the configured one, or 16 before a configuration is accepted (R11, R41). -/
def timingThreshold (s : State) : Nat :=
  match s.cfu.config with
  | some g => g.timingThreshold
  | none => 16

/-- The home of mailbox m is station m mod N (R122). -/
def homeOf (g : ConfigRecord) (m : Nat) : Nat := m % g.groupSize

/-- The number of data blocks and directory blocks, by the store-size straps (R37). -/
def storeBlocks (s : State) : Nat := 1024 * 2 ^ s.cfu.storeSize.val

/-- A handle number as a handle of the message table, when it is one. -/
def handle? (h : Nat) : Option Handle := if p : h < 512 then some ⟨h, p⟩ else none

/-- The message record of a handle number; none when the number is above 511 or the record is FREE. -/
def State.msgAt (s : State) (h : Nat) : Option Msg :=
  match handle? h with
  | some i => s.msg i
  | none => none

def State.setMsgAt (h : Nat) (m : Option Msg) (s : State) : State :=
  match handle? h with
  | some i => s.setMsg i m
  | none => s

/-- A context number carried in a byte, when it is 0..3. -/
def contextOf (n : Nat) : Option ContextId := if p : n < 4 then some ⟨n, p⟩ else none

/-- A channel number carried in a byte, when it is 0..31. -/
def channelOf (n : Nat) : Option Channel := if p : n < 32 then some ⟨n, p⟩ else none

end Sys2Proof.Machine
end

