-- ==== Sys2Proof/Machine/Operands.lean ====
section
/-! DEFINITION. Cell kinds, their lengths and priorities, the codes of chapter 12, and the values that cells carry. -/
namespace Sys2Proof.Machine

/-! ### Kinds (R33) -/

def kindClaim : Byte := 0x01
def kindRelease : Byte := 0x02
def kindDispute : Byte := 0x03
def kindDepositOpen : Byte := 0x10
def kindDepositAccept : Byte := 0x11
def kindDepositRefuse : Byte := 0x12
def kindDepositData : Byte := 0x13
def kindBlockTaken : Byte := 0x14
def kindDepositRollback : Byte := 0x15
def kindDepositClose : Byte := 0x16
def kindDepositClosed : Byte := 0x17
def kindFetchOpen : Byte := 0x18
def kindFetchGrant : Byte := 0x19
def kindFetchRefuse : Byte := 0x1A
def kindFetchBlock : Byte := 0x1B
def kindFetchData : Byte := 0x1C
def kindFetchClose : Byte := 0x1D
def kindMsgMark : Byte := 0x1E
def kindMboxQuery : Byte := 0x1F
def kindMboxList : Byte := 0x20
def kindAnswer : Byte := 0x28
def kindStatusReply : Byte := 0x29
def kindEvent : Byte := 0x2A
def kindDataRx : Byte := 0x2B
def kindConfigure : Byte := 0x30
def kindRestart : Byte := 0x31
def kindSetTime : Byte := 0x32
def kindStatusQuery : Byte := 0x33
def kindFaultClear : Byte := 0x34
def kindMboxCreate : Byte := 0x35
def kindMboxRemove : Byte := 0x36
def kindOutdial : Byte := 0x37
def kindPlay : Byte := 0x38
def kindRecord : Byte := 0x39
def kindStop : Byte := 0x3A
def kindFaxReceive : Byte := 0x3B
def kindFaxSend : Byte := 0x3C
def kindDataConnect : Byte := 0x3D
def kindDataTx : Byte := 0x3E
def kindDrop : Byte := 0x3F

/-- The kinds of the kinds table that a block of a station takes (R33, last column). -/
def ownedKinds : List Byte :=
  [kindClaim, kindRelease, kindDispute, kindDepositOpen, kindDepositAccept, kindDepositRefuse, kindDepositData,
   kindBlockTaken, kindDepositRollback, kindDepositClose, kindDepositClosed, kindFetchOpen, kindFetchGrant,
   kindFetchRefuse, kindFetchBlock, kindFetchData, kindFetchClose, kindMsgMark, kindMboxQuery, kindAnswer,
   kindConfigure, kindRestart, kindSetTime, kindStatusQuery, kindFaultClear, kindMboxCreate, kindMboxRemove,
   kindOutdial, kindPlay, kindRecord, kindStop, kindFaxReceive, kindFaxSend, kindDataConnect, kindDataTx, kindDrop]

/-- The least and greatest payload length a kind allows (12, Payloads; R175). -/
def lengthsOf (kind : Byte) : Nat × Nat :=
  if kind = kindClaim then (2, 2) else if kind = kindRelease then (1, 1) else if kind = kindDispute then (1, 1)
  else if kind = kindDepositOpen then (3, 3) else if kind = kindDepositAccept then (2, 2)
  else if kind = kindDepositRefuse then (3, 3) else if kind = kindDepositData then (69, 69)
  else if kind = kindBlockTaken then (4, 4) else if kind = kindDepositRollback then (4, 4)
  else if kind = kindDepositClose then (7, 7) else if kind = kindDepositClosed then (6, 6)
  else if kind = kindFetchOpen then (4, 4) else if kind = kindFetchGrant then (8, 8)
  else if kind = kindFetchRefuse then (3, 3) else if kind = kindFetchBlock then (4, 4)
  else if kind = kindFetchData then (69, 69) else if kind = kindFetchClose then (2, 2)
  else if kind = kindMsgMark then (3, 3) else if kind = kindMboxQuery then (2, 2)
  else if kind = kindMboxList then (8, 72) else if kind = kindAnswer then (4, 4)
  else if kind = kindStatusReply then (3, 72) else if kind = kindEvent then (1, 8)
  else if kind = kindDataRx then (1, 64) else if kind = kindConfigure then (30, 30)
  else if kind = kindRestart then (0, 0) else if kind = kindSetTime then (3, 3)
  else if kind = kindStatusQuery then (3, 3) else if kind = kindFaultClear then (2, 2)
  else if kind = kindMboxCreate then (3, 3) else if kind = kindMboxRemove then (2, 2)
  else if kind = kindOutdial then (4, 72) else if kind = kindPlay then (7, 7) else if kind = kindRecord then (6, 6)
  else if kind = kindStop then (1, 1) else if kind = kindFaxReceive then (3, 3) else if kind = kindFaxSend then (4, 4)
  else if kind = kindDataConnect then (4, 4) else if kind = kindDataTx then (2, 65) else if kind = kindDrop then (1, 1)
  else (0, 72)

def lengthAllowed (kind : Byte) (n : Nat) : Bool := (lengthsOf kind).1 ≤ n && n ≤ (lengthsOf kind).2

/-- The stream kinds of R28. -/
def isStreamKind (kind : Byte) : Bool := kind == kindDepositData || kind == kindFetchData || kind == kindDataRx

/-! ### Destinations and sources (R24, R26) -/

def gateway : BitVec 4 := 15
def allStations : BitVec 4 := 14
def ownAddress (s : State) : BitVec 4 := BitVec.ofNat 4 s.cfu.station.val

/-- The destination nibble of a home station. A home above 7, which only an OUTDIAL's unchecked message address can
name, is addressed at 13, which names no station (R26; DEDUCED, log entry 24). -/
def homeAddress (home : Nat) : BitVec 4 := if home < 8 then BitVec.ofNat 4 home else 13

/-- The station a source nibble names, when it names one. -/
def stationOf (src : BitVec 4) : Option (Fin 8) := if p : src.toNat < 8 then some ⟨src.toNat, p⟩ else none

/-! ### Result codes and causes (R34 and 12, Codes) -/

def codeOk : Byte := 0
def codeNotConfigured : Byte := 1
def codeConfigLocked : Byte := 2
def codeBadField : Byte := 3
def codeNoContext : Byte := 4
def codeNoChannel : Byte := 5
def codeBadDigits : Byte := 6
def codeNotHome : Byte := 7
def codeTableFull : Byte := 8
def codeMailboxFull : Byte := 9
def codeNoSuch : Byte := 10
def codeBusy : Byte := 11
def codeNotOpen : Byte := 12
def codeStoreBusy : Byte := 13
def codeStoreFull : Byte := 14
def codeFarEndClear : Byte := 16
def codeLocalDrop : Byte := 17
def codeNoDialTone : Byte := 18
/-- BUSY as a call end cause, which CALL_ENDED and OUTDIAL_DONE carry (12, Codes). -/
def codeCallBusy : Byte := 19
def codeNoAnswer : Byte := 20
def codeReorder : Byte := 21
def codeBlocked : Byte := 22
def codeGlare : Byte := 23
def codeLostClaim : Byte := 24
def codeContention : Byte := 25
def codeHighwayLost : Byte := 26
def codeLineQuality : Byte := 27
def codeLinkFailed : Byte := 28
def codeFaxFailed : Byte := 29
def codeIdleTimeout : Byte := 30
def codeRestart : Byte := 31
def codeEnd : Byte := 32
def codeStopped : Byte := 33
def codeDigit : Byte := 34
def codeHomeSilent : Byte := 35
def codeClosed : Byte := 36
def codeEmpty : Byte := 37
def codeClosedByHome : Byte := 38

/-! ### Close reasons (12, Codes) -/

def reasonSilence : Byte := 0
def reasonFarEndClear : Byte := 1
def reasonDigit : Byte := 2
def reasonMaxLength : Byte := 3
def reasonStoreFull : Byte := 4
def reasonWriterLost : Byte := 5
def reasonPagesDone : Byte := 6
def reasonStopped : Byte := 7

/-! ### Line codes, kinds and flags as numbers -/

/-- R2. -/
def LineCode.ofBits (b : BitVec 2) : LineCode :=
  if b = 0b00 then .idle else if b = 0b10 then .seize else if b = 0b11 then .answer else .blocked

def LineCode.toBits : LineCode → BitVec 2
  | .idle => 0b00
  | .seize => 0b10
  | .answer => 0b11
  | .blocked => 0b01

/-- The code field of channel c in its signalling slot: the upper bit is bit 7 - 2 (c mod 4) (R2). -/
def codeField (slot : Byte) (c : Channel) : LineCode :=
  LineCode.ofBits (slot.extractLsb' (6 - 2 * (c.val % 4)) 2)

/-- 12, Codes: message kind. -/
def MsgKind.code : MsgKind → Nat
  | .voice => 0
  | .fax => 1
  | .greeting => 2

def msgKindOf (n : Nat) : Option MsgKind :=
  match n with
  | 0 => some .voice
  | 1 => some .fax
  | 2 => some .greeting
  | _ => none

/-- 12, Codes: message state. -/
def MsgState.code : MsgState → Nat
  | .opened => 1
  | .closed => 2
  | .deleting => 3

/-- 12, Codes: fault kind, with bit 7 set when the clock was set at the stamp. -/
def FaultKind.code : FaultKind → Nat
  | .contention => 1
  | .highwayLost => 2
  | .timingStep => 3
  | .storeInconsistent => 4
  | .disputeLost => 5

def faultKindByte (kind : FaultKind) (clockSet : Bool) : Nat := kind.code + if clockSet then 128 else 0

/-- 12, Codes: rate reason; a retrain's other reasons are reported as FALLBACK (R167). -/
def RateReason.code : RateReason → Nat
  | .stepUp => 1
  | .burst => 2
  | .farEnd => 3
  | _ => 0

/-! ### Dial characters and digits -/

/-- Characters of the dial set (R77): 0..9, `*`, `#`, A..D, `,` and W, by their character codes. -/
def isDialChar (b : Byte) : Bool :=
  (0x30 ≤ b.toNat && b.toNat ≤ 0x39) || b == 0x2A || b == 0x23 || (0x41 ≤ b.toNat && b.toNat ≤ 0x44)
    || b == 0x2C || b == 0x57

/-- A dial character that is a digit 0..9, with its number of pulses: 0 gives 10 (R80). -/
def pulsesOf (b : Byte) : Option Nat :=
  if 0x30 ≤ b.toNat && b.toNat ≤ 0x39 then some (if b = 0x30 then 10 else b.toNat - 0x30) else none

def charComma : Byte := 0x2C
def charW : Byte := 0x57

/-! ### The configuration request (R40 and 12, Configuration and status) -/

/-- Bring a value into a range by clamping (R40). -/
def clampTo (lo hi n : Nat) : Nat := if n < lo then lo else if hi < n then hi else n

/-- Clamp a pair of rate bounds to 0..11 and exchange them when min exceeds max (R40, R77, R169). -/
def rateBounds (lo hi : Nat) : Nat × Nat :=
  let a := clampTo 0 11 lo
  let b := clampTo 0 11 hi
  if b < a then (b, a) else (a, b)

/-- Whether a field of the refused kind is out of range (R40, step 2). -/
def configureRefused (station : Fin 8) (p : List Byte) : Bool :=
  let n := field p 0 1
  n < 1 || 8 < n || n ≤ station.val || 3 < field p 16 1 || 999 < field p 17 2

/-- The record a CONFIGURE payload gives once its numeric fields are brought into range (R40, step 3). -/
def configureRecord (p : List Byte) : ConfigRecord :=
  let rates := rateBounds (field p 23 1) (field p 24 1)
  { groupSize := field p 0 1
    huntSet := BitVec.ofNat 32 (field p 1 4)
    outdialSet := BitVec.ofNat 32 (field p 5 4)
    pulseSet := BitVec.ofNat 32 (field p 9 4)
    settleCount := clampTo 2 120 (field p 13 1)
    timingThreshold := clampTo 8 64 (field p 14 1 / 8 * 8)
    answerDelay := clampTo 0 80 (field p 15 1)
    addressDigits := field p 16 1
    defaultMailbox := field p 17 2
    quietThreshold := clampTo 0 47 (field p 19 1)
    silenceBlocks := clampTo 4 255 (field p 20 1)
    maxBlocks := clampTo 8 4095 (field p 21 2)
    rateMin := rates.1
    rateMax := rates.2
    errorBurst := clampTo 1 255 (field p 25 1)
    toneLength := clampTo 50 150 (field p 26 1 / 10 * 10)
    gapLength := clampTo 50 150 (field p 27 1 / 10 * 10)
    faxMaxRate := clampTo 0 5 (field p 28 1)
    faxAllowed := (byteAt p 29).getLsbD 0
    dataAllowed := (byteAt p 29).getLsbD 1 }

end Sys2Proof.Machine
end

