-- ==== Sys2Proof/Machine/Flags.lean ====
section
/-! DEFINITION. Flag bytes: message flags, block header flags, and the header of a stored block. -/
namespace Sys2Proof.Machine

/-- 12, Codes: message flags, bit 0 HEARD, bit 1 TRUNCATED, bit 2 GAPS, bit 3 DAMAGED. -/
def Msg.flags (m : Msg) : Nat :=
  (if m.heard then 1 else 0) + (if m.truncated then 2 else 0) + (if m.gaps then 4 else 0) + (if m.damaged then 8 else 0)

/-- 12, Store block headers: bit 7 of byte 3 is QUIET for voice and greeting, PAGE_END for fax. -/
def headerFlags (top gap : Bool) : Byte := (if top then 0x80 else 0) ||| (if gap then 0x40 else 0)

/-- A 4-byte header of a voice or greeting block (R94): the predictor in two's complement, the index, the flags. -/
def voiceHeader (predictor : Int) (index : Nat) (quiet gap : Bool) : List Byte :=
  let p : BitVec 16 := BitVec.ofInt 16 predictor
  [p.extractLsb' 8 8, p.extractLsb' 0 8, BitVec.ofNat 8 index, headerFlags quiet gap]

/-- A 4-byte header of a fax block (R103). -/
def faxHeader (valid page : Nat) (pageEnd gap : Bool) : List Byte :=
  be2 valid ++ [BitVec.ofNat 8 page, headerFlags pageEnd gap]

/-- QUIET of a voice or greeting block, PAGE_END of a fax block. -/
def blockTopFlag (block : List Byte) : Bool := (byteAt block 3).getLsbD 7
def blockGap (block : List Byte) : Bool := (byteAt block 3).getLsbD 6

/-- A block with its GAP flag set. -/
def withGap (block : List Byte) : List Byte := block.set 3 (byteAt block 3 ||| 0x40)

/-- The predictor and index a decoder loads from a header, brought into their ranges (R98). -/
def headerPredictor (block : List Byte) : Int :=
  let p : Int := (BitVec.ofNat 16 (field block 0 2)).toInt
  if p < -8191 then -8191 else if 8191 < p then 8191 else p
def headerIndex (block : List Byte) : Nat := min 47 (byteAt block 2).toNat

/-- The valid byte count of a fax block; above 508 it is taken as 508 (R159). -/
def faxValid (block : List Byte) : Nat := min 508 (field block 0 2)

end Sys2Proof.Machine
end

