-- ==== Sys2Proof/Machine/Clc.lean ====
section
/-! DEFINITION. The transmit queue: building cells, offering them, refusing them, events, answers and faults
(R22, R28, R29, R34, R35, R46, R48). -/
namespace Sys2Proof.Machine

/-! ### Events (R35 and 12, Event fields) -/

inductive Event where
  | highway (state : Nat)
  | timingStep
  | fault (kind : FaultKind) (clockSet : Bool) (subject : Nat)
  | callArrived (c : Channel) (mailbox : Option Nat)
  | callEnded (cause : Byte)
  | flow (go : Bool)
  | callType (kind : Nat)
  | digit (d : Digit)
  | outdialDone (result tag : Byte)
  | playDone (result : Byte) (position : Nat)
  | recordDone (home : Nat) (handle blocks : Option Nat) (result : Byte) (flags : Option Nat)
  | faxPage (page verdict : Nat)
  | faxDone (pages : Nat) (result : Byte)
  | dataUp (rate : Nat)
  | dataRate (rate : Nat) (reason : RateReason)
  | dataLost (bytes : Nat)
  | messageStored (mailbox handle : Nat) (kind : MsgKind)
  | storeLow (freeCount : Nat)
  | storeOk (freeCount : Nat)
deriving DecidableEq, Repr

/-- The level at which an event is queued (R35). -/
def Event.level : Event → BitVec 3
  | .highway _ => 0
  | .timingStep => 0
  | .fault _ _ _ => 1
  | .callArrived _ _ => 2
  | .callEnded _ => 2
  | .flow _ => 2
  | .callType _ => 3
  | .digit _ => 3
  | .outdialDone _ _ => 3
  | .playDone _ _ => 3
  | .recordDone _ _ _ _ _ => 3
  | .faxPage _ _ => 3
  | .faxDone _ _ => 3
  | .dataUp _ => 3
  | .dataRate _ _ => 3
  | .dataLost _ => 3
  | .messageStored _ _ _ => 3
  | .storeLow _ => 6
  | .storeOk _ => 6

/-- The payload of an event: its code and its fields (12, Event fields). -/
def Event.payload : Event → List Byte
  | .highway n => [0x01] ++ be1 n
  | .timingStep => [0x02]
  | .fault kind clockSet subject => [0x03] ++ be1 (faultKindByte kind clockSet) ++ be2 subject
  | .callArrived c mailbox => [0x04] ++ be1 c.val ++ beOpt2 mailbox
  | .callEnded cause => [0x05, cause]
  | .flow go => [0x06] ++ be1 (if go then 1 else 0)
  | .callType kind => [0x07] ++ be1 kind
  | .digit d => [0x08] ++ be1 d.val
  | .outdialDone result tag => [0x09, result, tag]
  | .playDone result position => [0x0A, result] ++ be3 position
  | .recordDone home handle blocks result flags =>
      [0x0B] ++ be1 home ++ beOpt2 handle ++ beOpt2 blocks ++ [result] ++ beOpt1 flags
  | .faxPage page verdict => [0x0C] ++ be2 page ++ be1 verdict
  | .faxDone pages result => [0x0D] ++ be2 pages ++ [result]
  | .dataUp rate => [0x0E] ++ be1 rate
  | .dataRate rate reason => [0x0F] ++ be1 rate ++ be1 reason.code
  | .dataLost bytes => [0x10] ++ be1 bytes
  | .messageStored mailbox handle kind => [0x11] ++ be2 mailbox ++ be2 handle ++ be1 kind.code
  | .storeLow n => [0x12] ++ be2 n
  | .storeOk n => [0x13] ++ be2 n

/-- An event's tag: the context it concerns, or FFh for none (R35). -/
def contextTag : Option ContextId → Byte
  | some k => BitVec.ofNat 8 k.val
  | none => 0xFF

/-! ### Bytes of a cell and its check -/

/-- The arbitration byte: priority in bits 7..5, source in bits 4..1, 0 in bit 0 (R24). -/
def arbitrationByte (c : Cell) : Byte := c.prio ++ c.src ++ (0 : BitVec 1)

/-- Bytes 0 to the last payload byte (12, The cell header). -/
def cellBytes (c : Cell) : List Byte :=
  [arbitrationByte c, c.dst ++ (0 : BitVec 4), c.kind, c.tag, BitVec.ofNat 8 c.payload.length] ++ c.payload

/-- The check a sender computes once, when the cell is placed in its queue (R22). -/
def cellCheck (c : Cell) : BitVec 16 := crc16 (cellBytes c)

/-! ### The transmit queue (R28) -/

/-- A new cell joins behind every cell of its own or a lower priority number. -/
def insertByPriority (x : TxCell) : List TxCell → List TxCell
  | [] => [x]
  | y :: ys => if y.cell.prio ≤ x.cell.prio then y :: insertByPriority x ys else x :: y :: ys

/-- Whether two cells are CLAIMs for one channel. -/
def sameClaim (a b : Cell) : Bool :=
  a.kind == kindClaim && b.kind == kindClaim && byteAt a.payload 0 == byteAt b.payload 0

/-- Whether the queue takes a cell: fewer than 24 cells, fewer than 16 stream cells for a stream cell, and no CLAIM of
the same channel for a CLAIM. -/
def queueTakes (q : List TxCell) (c : Cell) : Bool :=
  q.length < 24
    && (!isStreamKind c.kind || (q.filter fun x => isStreamKind x.cell.kind).length < 16)
    && (!(c.kind == kindClaim) || !(q.any fun x => sameClaim x.cell c))

def freshTx (c : Cell) (serial : Nat) : TxCell :=
  { cell := c, check := cellCheck c, sending := false, orphan := false, serial }

/-- Put a cell into the queue at its place. -/
def enqueue (c : Cell) (serial : Nat) (s : State) : State :=
  s.modClc fun l => { l with tx := insertByPriority (freshTx c serial) l.tx }

/-- A cell of this station. -/
def ownCell (s : State) (prio : BitVec 3) (dst : BitVec 4) (kind tag : Byte) (payload : List Byte) : Cell :=
  { prio, src := ownAddress s, dst, kind, tag, payload }

def countUndelivered (s : State) : State :=
  s.modClc fun l => { l with undelivered := satAdd 65535 l.undelivered 1 }

def countBadCheck (s : State) : State :=
  s.modClc fun l => { l with badCheck := satAdd 65535 l.badCheck 1 }

/-- R48. -/
def countLostReport (s : State) : State :=
  s.modCfu fun u => { u with lostReports := satAdd 255 u.lostReports 1 }

/-- Offer a report (EVENT, ANSWER, STATUS_REPLY): refused, it is dropped and counted as lost (R29, R48). -/
def offerReport (c : Cell) (s : State) : State :=
  if queueTakes s.clc.tx c then enqueue c 0 s else countLostReport s

/-- Offer a cell of any other kind: refused, it is dropped and counted undelivered, and a deposit or fetch record whose
rules act on UNDELIVERED is to be told (R29; DEDUCED, log entry 9). -/
def offerOther (c : Cell) (serial : Nat) (tellTo : Option ContextId) (s : State) : State :=
  if queueTakes s.clc.tx c then enqueue c serial s
  else
    let s := countUndelivered s
    match tellTo with
    | some k => s.modRau fun r => { r with notices := r.notices ++ [{ context := k, kind := c.kind, serial }] }
    | none => s

/-- Offer a stream cell: refused, its producer keeps it and is held (R29). Answers whether it was queued. -/
def offerStream (p : StreamProducer) (c : Cell) (s : State) : State × Bool :=
  if queueTakes s.clc.tx c then (enqueue c 0 s, true)
  else (s.modClc fun l => { l with held := if p ∈ l.held then l.held else l.held ++ [p] }, false)

/-- Offer a CLAIM: refused, the cell is abandoned (R29, R58). Answers whether it was queued. -/
def offerClaim (c : Channel) (purpose : Direction) (s : State) : State × Bool :=
  let cell := ownCell s 1 allStations kindClaim 0xFF
    (be1 c.val ++ be1 (match purpose with | .incoming => 0 | .outgoing => 1))
  if queueTakes s.clc.tx cell then (enqueue cell 0 s, true) else (s, false)

/-- Queue an event for the gateway (R35). -/
def sendEvent (k : Option ContextId) (e : Event) (s : State) : State :=
  offerReport (ownCell s e.level gateway kindEvent (contextTag k) e.payload) s

/-- Queue an ANSWER at priority 3: the request's kind, the result, and two bytes that are FFh but for OUTDIAL and
RESTART (R34 and 12, Payloads). -/
def sendAnswerWith (request : Cell) (result third fourth : Byte) (s : State) : State :=
  offerReport (ownCell s 3 request.src kindAnswer request.tag [request.kind, result, third, fourth]) s

/-- An ANSWER whose third and fourth byte are FFh; that of a refused RESTART too (DESIGN CHOICE, log entry 72). -/
def sendAnswer (request : Cell) (result : Byte) (s : State) : State := sendAnswerWith request result 0xFF 0xFF s

/-- Queue a RELEASE for a channel (R67, R18). -/
def sendRelease (c : Channel) (s : State) : State :=
  offerOther (ownCell s 2 allStations kindRelease 0xFF (be1 c.val)) 0 none s

/-- Queue a DISPUTE for a channel to a peer (R61). -/
def sendDispute (c : Channel) (p : BitVec 4) (s : State) : State :=
  offerOther (ownCell s 1 p kindDispute 0xFF (be1 c.val)) 0 none s

/-! ### The cells of the queue -/

/-- The cell in transmission, if any. -/
def inTransmission (s : State) : Option TxCell := s.clc.tx.find? (·.sending)

/-- Take the cell in transmission out of the queue. -/
def removeSending (s : State) : State :=
  s.modClc fun l => { l with tx := l.tx.filter fun x => !x.sending }

/-- Whether a queued cell is this station's CLAIM for a channel. -/
def isClaimFor (c : Channel) (x : TxCell) : Bool :=
  x.cell.kind == kindClaim && byteAt x.cell.payload 0 == BitVec.ofNat 8 c.val

/-! ### The fault record (R46) -/

/-- Write a fault: a new entry and a FAULT event, or the overflow count when the record is full. -/
def writeFault (kind : FaultKind) (subject : Nat) (s : State) : State :=
  if s.cfu.faults.length < 8 then
    let entry : FaultEntry := { kind, subject, stamp := s.cfu.minute, clockSet := s.cfu.clockSet }
    sendEvent none (.fault kind s.cfu.clockSet subject)
      (s.modCfu fun u => { u with faults := u.faults ++ [entry] })
  else s.modCfu fun u => { u with overflow := satAdd 255 u.overflow 1 }

end Sys2Proof.Machine
end

