-- ==== Sys2Proof/Machine/Memory.lean ====
section
/-! DEFINITION. The message memory as a canonical list of byte cells, the link table, and the chains (R102, R105). -/
namespace Sys2Proof.Machine

/-- What a byte of message memory that nothing has written reads as (DESIGN CHOICE, log entry 5). -/
def Memory.unlisted : Byte := 0

/-- The canonical form: addresses strictly rising, and no listed byte equal to what an unlisted address reads as. -/
abbrev Memory.wf (m : List Host.Cell) : Prop :=
  m.Pairwise (fun a b => a.1 < b.1) ∧ ∀ c ∈ m, c.2 ≠ Memory.unlisted

def Memory.readByte (m : List Host.Cell) (a : Nat) : Byte :=
  match m.find? (fun c => c.1 == a) with
  | some c => c.2
  | none => Memory.unlisted

/-- The cells of a run of bytes written at an address. -/
def Memory.cellsAt (a : Nat) : List Byte → List Host.Cell
  | [] => []
  | b :: bs => if b = Memory.unlisted then Memory.cellsAt (a + 1) bs else (a, b) :: Memory.cellsAt (a + 1) bs

/-- Write a run of bytes at an address. -/
def Memory.write (a : Nat) (bs : List Byte) (m : List Host.Cell) : List Host.Cell :=
  m.filter (fun c => c.1 < a) ++ Memory.cellsAt a bs ++ m.filter (fun c => a + bs.length ≤ c.1)

/-- The bytes of block n: 512n to 512n + 511 (R102). -/
def Memory.readBlock (m : List Host.Cell) (n : Nat) : List Byte :=
  (List.range 512).map fun i => Memory.readByte m (512 * n + i)

/-- Write a block, header and payload exactly as handed over (R103). -/
def Memory.writeBlock (n : Nat) (block : List Byte) (m : List Host.Cell) : List Host.Cell :=
  Memory.write (512 * n) (fitTo 512 Memory.unlisted block) m

/-! ### The link table -/

/-- The link entry of a block: the next block, or END when absent. -/
def Links.next (l : List (Nat × Nat)) (n : Nat) : Option Nat := (l.find? fun e => e.1 == n).map (·.2)

/-- Set the link entry of a block. -/
def Links.set (n : Nat) (v : Option Nat) (l : List (Nat × Nat)) : List (Nat × Nat) :=
  l.filter (fun e => e.1 < n) ++ v.toList.map (fun x => (n, x)) ++ l.filter (fun e => n < e.1)

/-- The first `count` blocks reached from a block by the links (R105). -/
def Links.follow (l : List (Nat × Nat)) : Nat → Option Nat → List Nat
  | 0, _ => []
  | _ + 1, none => []
  | n + 1, some b => b :: Links.follow l n (Links.next l b)

/-- The chain of a message (R105). -/
def chainOf (s : State) (m : Msg) : List Nat := Links.follow s.msc.links m.count m.first

/-- The contents of a data block. -/
def blockAt (s : State) (n : Nat) : List Byte := Memory.readBlock s.msc.mem n

end Sys2Proof.Machine
end

