-- ==== Sys2Proof/Machine/Store.lean ====
section
/-! DEFINITION. The operations of the Message Store Controller (chapter 7), each taken whole. -/
namespace Sys2Proof.Machine

/-! ### The free list and the level reports (R104, R118) -/

def freeCount (s : State) : Nat := s.msc.freeList.length

/-- R118: examine the free count. -/
def examineLevel (s : State) : State :=
  let n := freeCount s
  if !s.msc.lowMark && n < 64 then (sendEvent none (.storeLow n) s).modMsc fun x => { x with lowMark := true }
  else if s.msc.lowMark && 128 < n then (sendEvent none (.storeOk n) s).modMsc fun x => { x with lowMark := false }
  else s

/-- Blocks freed by one operation join the tail of the free list together, and the free count is then examined
(R104, R118; DESIGN CHOICE, log entry 21). -/
def freeBlocks (bs : List Nat) (s : State) : State :=
  if bs = [] then s else examineLevel (s.modMsc fun x => { x with freeList := x.freeList ++ bs })

/-- The block at the head of the free list leaves it (R104). -/
def takeFreeBlock (s : State) : State :=
  examineLevel (s.modMsc fun x => { x with freeList := x.freeList.tail })

def setLink (n : Nat) (v : Option Nat) (s : State) : State :=
  s.modMsc fun x => { x with links := Links.set n v x.links }

/-- A data block is written whole (R102, R103). -/
def writeData (n : Nat) (block : List Byte) (s : State) : State :=
  s.modMsc fun x => { x with mem := Memory.writeBlock n block x.mem }

/-! ### Mailbox records (R107, R108, R109) -/

def mailbox? (s : State) (m : Nat) : Option Mbx := s.msc.mbxs.find? fun x => x.number == m

def modMailbox (m : Nat) (f : Mbx → Mbx) (s : State) : State :=
  s.modMsc fun x => { x with mbxs := x.mbxs.map fun b => if b.number = m then f b else b }

def freshMailbox (number limit : Nat) : Mbx :=
  { number, limit, list := [], openCount := 0, greeting := none, greetingOpen := false }

/-- Whether the home of a mailbox is this station, by the configured group size (R122). -/
def isHome (s : State) (m : Nat) : Bool :=
  match s.cfu.config with
  | some g => homeOf g m == s.cfu.station.val
  | none => false

/-! ### Freeing and deleting a message -/

/-- The record becomes FREE and its blocks join the free list in chain order (R106). -/
def freeMessage (h : Nat) (s : State) : State :=
  match s.msgAt h with
  | some m => freeBlocks (chainOf s m) (s.setMsgAt h none)
  | none => s

/-- Take a handle out of its mailbox's list or greeting field (R117). -/
def unlistMessage (mailbox h : Nat) (s : State) : State :=
  modMailbox mailbox (fun b => { b with
    list := b.list.filter (· != h)
    greeting := if b.greeting = some h then none else b.greeting }) s

/-- The record's change at a delete (R117). -/
def deleteRecord (h : Nat) (s : State) : State :=
  match s.msgAt h with
  | none => s
  | some m => if m.readers = [] then freeMessage h s else s.setMsgAt h (some { m with state := .deleting })

/-- The delete of R117: the record's change, then the mailbox's. -/
def deleteMessage (h : Nat) (s : State) : State :=
  match s.msgAt h with
  | none => s
  | some m => unlistMessage m.mailbox h (deleteRecord h s)

/-! ### Creating and removing a mailbox (R108, R109) -/

/-- The result of an MBOX_CREATE, in the order of R108. -/
def createResult (s : State) (number limit : Nat) : Byte :=
  if 999 < number || limit < 1 || 32 < limit then codeBadField
  else if !isHome s number then codeNotHome
  else if (mailbox? s number).isSome then codeBusy
  else if 64 ≤ s.msc.mbxs.length then codeTableFull
  else codeOk

/-- A mailbox record is made (R108). -/
def addMailbox (number limit : Nat) (s : State) : State :=
  s.modMsc fun x => { x with mbxs := x.mbxs ++ [freshMailbox number limit] }

/-- The result of an MBOX_REMOVE, in the order of R109. -/
def removeResult (s : State) (number : Nat) : Byte :=
  if 999 < number then codeBadField
  else if !isHome s number then codeNotHome
  else match mailbox? s number with
    | none => codeNoSuch
    | some b => if 0 < b.openCount || b.greetingOpen then codeBusy else codeOk

/-- A mailbox record is removed (R109). -/
def eraseMailbox (number : Nat) (s : State) : State :=
  s.modMsc fun x => { x with mbxs := x.mbxs.filter fun y => y.number != number }

/-- R109: the messages of the list in order, the greeting, then the record. -/
def dropMailbox (number : Nat) (s : State) : State :=
  match mailbox? s number with
  | none => s
  | some b =>
    let s := forEach (b.list ++ b.greeting.toList) deleteMessage s
    eraseMailbox number s

/-! ### Writing a message (R110, R111, R112) -/

/-- The refusal of an open for writing, in the order of R110, or none. -/
def openRefusal (s : State) (mailbox : Nat) (kind : Option MsgKind) : Option Byte :=
  if 999 < mailbox || kind.isNone then some codeBadField
  else if s.msc.state = .scanning then some codeStoreBusy
  else if s.cfu.config.isNone then some codeNotConfigured
  else if !isHome s mailbox then some codeNotHome
  else match mailbox? s mailbox with
    | none => some codeNoSuch
    | some b =>
      if kind = some .greeting && b.greetingOpen then some codeBusy
      else if kind != some .greeting && b.limit ≤ b.list.length + b.openCount then some codeMailboxFull
      else if !(s.msc.msgs.items.any (·.isNone)) then some codeTableFull
      else if freeCount s = 0 then some codeStoreFull
      else none

/-- The lowest-numbered FREE record. -/
def lowestFree (s : State) : Nat := s.msc.msgs.items.findIdx (·.isNone)

def freshMsg (kind : MsgKind) (mailbox : Nat) (w : Writer) : Msg :=
  { state := .opened, kind, mailbox, first := none, last := none, count := 0, length := 0, pageMark := 0,
    heard := false, truncated := false, gaps := false, damaged := false, stamp := none, writer := some w,
    readers := [] }

/-- A mailbox's open count or greeting-open mark at an open or a close. -/
def countOpen (kind : MsgKind) (b : Mbx) : Mbx :=
  if kind = .greeting then { b with greetingOpen := true } else { b with openCount := b.openCount + 1 }
def uncountOpen (kind : MsgKind) (b : Mbx) : Mbx :=
  if kind = .greeting then { b with greetingOpen := false } else { b with openCount := b.openCount - 1 }

/-- R110: an open for writing; the handle, or the refusal. -/
def openForWriting (mailbox : Nat) (kind : Option MsgKind) (w : Writer) (s : State) : State × Except Byte Nat :=
  match openRefusal s mailbox kind, kind with
  | some cause, _ => (s, .error cause)
  | none, none => (s, .error codeBadField)
  | none, some k =>
    let h := lowestFree s
    (modMailbox mailbox (countOpen k) (s.setMsgAt h (some (freshMsg k mailbox w))), .ok h)

/-- The record of a handle while it is OPEN under a writer (R111) and the store is not SCANNING (R121). -/
def openUnder (s : State) (h : Nat) (w : Writer) : Option Msg :=
  (s.msgAt h).filter fun m => s.msc.state == .ready && m.state == .opened && m.writer == some w

/-- The refusal of an append, a page end, a rollback or a close that does not find its message: STORE_BUSY while
SCANNING (R121), NOT_OPEN otherwise (R111). -/
def writeRefusal (s : State) : Byte := if s.msc.state = .scanning then codeStoreBusy else codeNotOpen

/-- What a close reports: CLOSED or EMPTY, the kept block count, and the message's flags, 0 when EMPTY (R113, R114,
R146). -/
structure CloseReport where
  result : Byte
  blocks : Nat
  flags : Nat
deriving DecidableEq, Repr

/-- The record of a message of which the first n blocks of its chain are kept (R112, R113). -/
def cutRecord (m : Msg) (chain : List Nat) (n : Nat) : Msg :=
  { m with count := n, first := if n = 0 then none else m.first, last := (chain.take n).getLast? }

/-- Keep the first n blocks of a message's chain; the rest are freed in chain order (R112, R113). -/
def cutChain (h n : Nat) (s : State) : State :=
  match s.msgAt h with
  | none => s
  | some m =>
    let chain := chainOf s m
    let s := s.setMsgAt h (some (cutRecord m chain n))
    let s := match (chain.take n).getLast? with
      | some b => setLink b none s
      | none => s
    freeBlocks (chain.drop n) s

/-- The number of blocks at the end of the chain whose QUIET flag is set (R113). -/
def quietTail (s : State) (m : Msg) : Nat :=
  ((chainOf s m).reverse.takeWhile fun b => blockTopFlag (blockAt s b)).length

/-- Whether a close with a reason trims (R113). -/
def trims (reason : Byte) : Bool := reason == reasonSilence || reason == reasonFarEndClear

/-- The blocks a close keeps (R113). -/
def keptCount (s : State) (m : Msg) (reason : Byte) : Nat :=
  if m.kind = .fax then (if m.length = 0 then 0 else m.pageMark)
  else if trims reason then
    let t := quietTail s m
    if t = m.count then 0 else if 2 ≤ t then m.count - (t - 1) else m.count
  else m.count

/-- The discard of an empty message (R113). -/
def discardMessage (h : Nat) (m : Msg) (s : State) : State :=
  modMailbox m.mailbox (uncountOpen m.kind) (freeMessage h s)

/-- Whether a kept message is marked TRUNCATED at its close (R114). -/
def truncates (kind : MsgKind) (reason : Byte) : Bool :=
  reason == reasonStoreFull || reason == reasonWriterLost || (kind == .fax && reason != reasonPagesDone)

/-- The mailbox record of a message that it takes (R114). -/
def fileIn (h : Nat) (kind : MsgKind) (b : Mbx) : Mbx :=
  if kind = .greeting then { b with greeting := some h, greetingOpen := false }
  else { b with list := b.list ++ [h], openCount := b.openCount - 1 }

/-- A mailbox takes a closed message: into its list, or as its greeting in place of the old one (R114). -/
def fileMessage (h : Nat) (m : Msg) (s : State) : State :=
  if m.kind = .greeting then
    let s := match (mailbox? s m.mailbox).bind (·.greeting) with
      | some old => deleteMessage old s
      | none => s
    modMailbox m.mailbox (fileIn h m.kind) s
  else modMailbox m.mailbox (fileIn h m.kind) s

/-- The record of a message that a close keeps: its length after the trim, and its TRUNCATED flag (R113, R114). -/
def keptRecord (m : Msg) (keep : Nat) (reason : Byte) : Msg :=
  { m with length := if m.kind != .fax && keep < m.count then 1016 * keep else m.length
           truncated := m.truncated || truncates m.kind reason }

/-- The record becomes CLOSED (R114). -/
def closeRecord (h : Nat) (s : State) : State :=
  match s.msgAt h with
  | some x => s.setMsgAt h (some { x with state := .closed, stamp := some s.cfu.minute, writer := none })
  | none => s

/-- The close of an OPEN message with a reason (R113, R114). An EMPTY close reports 0 blocks by R113. Its flags of 0 are
those that R146 gives a RECORD_DONE; what a DEPOSIT_CLOSED with EMPTY carries for the flags of a message whose record is
gone, no rule says, and the same 0 is taken for it (DESIGN CHOICE, log entry 92). -/
def closeMessage (h : Nat) (reason : Byte) (s : State) : State × CloseReport :=
  match s.msgAt h with
  | none => (s, { result := codeEmpty, blocks := 0, flags := 0 })
  | some m =>
    let keep := keptCount s m reason
    if keep = 0 then (discardMessage h m s, { result := codeEmpty, blocks := 0, flags := 0 })
    else
      let m' := keptRecord m keep reason
      let s := if keep < m.count then cutChain h keep (s.setMsgAt h (some m')) else s.setMsgAt h (some m')
      let s := closeRecord h (fileMessage h m' s)
      (sendEvent none (.messageStored m.mailbox h m.kind) s,
        { result := codeClosed, blocks := keep, flags := m'.flags })

/-- A close asked by a writer: its report, or the refusal (R111, R113, R121). -/
def closeBy (h : Nat) (w : Writer) (reason : Byte) (s : State) : State × Except Byte CloseReport :=
  match openUnder s h w with
  | some _ => let r := closeMessage h reason s; (r.1, .ok r.2)
  | none => (s, .error (writeRefusal s))

/-- The outcome of an append (R111, R121). -/
inductive AppendResult where
  | taken
  | refused (cause : Byte)
  | storeFull (report : CloseReport)
deriving DecidableEq, Repr

/-- The length after an append of `samples` samples as block number `count` (R111); a FAX length stands. -/
def lengthAfter (m : Msg) (samples : Nat) : Nat :=
  if m.kind = .fax then m.length else 1016 * m.count + samples

/-- The record after an append of block b (R111). -/
def appendRecord (m : Msg) (b : Nat) (block : List Byte) (samples : Nat) : Msg :=
  { m with
    first := if m.first.isNone then some b else m.first
    last := some b
    count := m.count + 1
    length := lengthAfter m samples
    gaps := m.gaps || blockGap block }

/-- R111: append one finished block for its writer. -/
def appendBlock (h : Nat) (w : Writer) (block : List Byte) (samples : Nat) (s : State) : State × AppendResult :=
  match openUnder s h w with
  | none => (s, .refused (writeRefusal s))
  | some m =>
    match s.msc.freeList with
    | [] => let r := closeMessage h reasonStoreFull s; (r.1, .storeFull r.2)
    | b :: _ =>
      let s := takeFreeBlock s
      let s := writeData b block s
      let s := setLink b none s
      let s := match m.last with
        | some l => setLink l (some b) s
        | none => s
      (s.setMsgAt h (some (appendRecord m b block samples)), .taken)

/-- R112: a page end of a FAX message, with its result: OK, BAD_FIELD for a VOICE or GREETING message, or the refusal
of R111 and R121. -/
def endPage (h : Nat) (w : Writer) (damaged : Bool) (s : State) : State × Byte :=
  match openUnder s h w with
  | some m =>
    if m.kind = .fax then
      (s.setMsgAt h (some { m with length := satAdd 65535 m.length 1, pageMark := m.count,
                                   damaged := m.damaged || damaged }), codeOk)
    else (s, codeBadField)
  | none => (s, writeRefusal s)

/-- R112: a rollback of a FAX message to its page mark, with its result as for a page end. -/
def rollBack (h : Nat) (w : Writer) (s : State) : State × Byte :=
  match openUnder s h w with
  | some m =>
    if m.kind = .fax then (if m.count = m.pageMark then s else cutChain h m.pageMark s, codeOk) else (s, codeBadField)
  | none => (s, writeRefusal s)

/-! ### Readers and marks (R115, R116, R117) -/

def isReader (station : Fin 8) (context : Nat) (r : Reader) : Bool := r.station == station && r.context == context

def hasReader (m : Msg) (station : Fin 8) (context : Nat) : Bool := m.readers.any (isReader station context)

/-- Set a reader's last activity to the station time. -/
def touchReader (h : Nat) (station : Fin 8) (context : Nat) (s : State) : State :=
  match s.msgAt h with
  | some m =>
    let touch (r : Reader) : Reader :=
      if isReader station context r then { r with lastActivity := s.cfu.stationTime } else r
    s.setMsgAt h (some { m with readers := m.readers.map touch })
  | none => s

/-- What a read open returns. -/
structure ReadGrant where
  handle : Nat
  kind : MsgKind
  length : Nat
  blocks : Nat
deriving DecidableEq, Repr

def grantOf (h : Nat) (m : Msg) : ReadGrant := { handle := h, kind := m.kind, length := m.length, blocks := m.count }

/-- R115, steps 2 to 6, for the handle named or found. -/
def readOpenHandle (h : Nat) (station : Fin 8) (context : Nat) (s : State) : State × Except Byte ReadGrant :=
  match s.msgAt h with
  | none => (s, .error codeNoSuch)
  | some m =>
    if m.state = .deleting && !hasReader m station context then (s, .error codeNoSuch)
    else if m.state = .opened then (s, .error codeNotOpen)
    else if hasReader m station context then (touchReader h station context s, .ok (grantOf h m))
    else if 8 ≤ m.readers.length then (s, .error codeBusy)
    else
      (s.setMsgAt h (some { m with readers :=
        m.readers ++ [{ station, context, lastActivity := s.cfu.stationTime }] }), .ok (grantOf h m))

/-- R115: a read open naming a handle, or a mailbox and GREETING. Every open of a play target is this one, a session's here
(R142) and a peer's (R132). A greeting OPEN for re-recording, which R138 has refused, is one whose own record is OPEN; while
another greeting is recorded, the one in the greeting field is still CLOSED and is granted (DEDUCED, log entry 57). -/
def readOpen (what : PlayTarget) (station : Fin 8) (context : Nat) (s : State) : State × Except Byte ReadGrant :=
  if s.msc.state = .scanning then (s, .error codeStoreBusy)
  else if s.cfu.config.isNone then (s, .error codeNotConfigured)
  else match what with
    | .message _ h => readOpenHandle h station context s
    | .greeting m =>
      match (mailbox? s m).bind (·.greeting) with
      | some h => readOpenHandle h station context s
      | none => (s, .error codeNoSuch)

/-- R105, R115: a reader's read of block b. -/
def readBlockFor (h : Nat) (station : Fin 8) (context : Nat) (b : Nat) (s : State) :
    State × Except Byte (List Byte) :=
  if s.msc.state = .scanning then (s, .error codeStoreBusy)
  else match s.msgAt h with
    | none => (s, .error codeNotOpen)
    | some m =>
      if !hasReader m station context then (s, .error codeNotOpen)
      else if m.count ≤ b then (s, .error codeNoSuch)
      else (touchReader h station context s, .ok (blockAt s ((chainOf s m).getD b 0)))

/-- R116: a reader leaves. -/
def leaveMessage (h : Nat) (station : Fin 8) (context : Nat) (s : State) : State :=
  match s.msgAt h with
  | none => s
  | some m =>
    if hasReader m station context then
      let rest := m.readers.filter fun r => !isReader station context r
      let s := s.setMsgAt h (some { m with readers := rest })
      if m.state = .deleting && rest = [] then freeMessage h s else s
    else s

inductive Mark where
  | heard | unheard | delete
deriving DecidableEq, Repr

/-- 12, Codes: mark. -/
def markOf (b : Byte) : Option Mark :=
  if b = 0 then some .heard else if b = 1 then some .unheard else if b = 2 then some .delete else none

/-- R117: check and apply a mark; the result. -/
def markMessage (h : Nat) (mark : Option Mark) (s : State) : State × Byte :=
  if 511 < h then (s, codeBadField)
  else match mark with
    | none => (s, codeBadField)
    | some k =>
      if s.msc.state = .scanning then (s, codeStoreBusy)
      else if s.cfu.config.isNone then (s, codeNotConfigured)
      else match s.msgAt h with
        | none => (s, codeNoSuch)
        | some m =>
          if m.state = .deleting then (s, codeNoSuch)
          else if m.state = .opened then (s, codeBusy)
          else (match k with
            | .heard => s.setMsgAt h (some { m with heard := true })
            | .unheard => s.setMsgAt h (some { m with heard := false })
            | .delete => deleteMessage h s, codeOk)

/-! ### The start-up scan (R119, R120, R121) -/

/-- How the walk of a chain ends: whole, or broken at a block. -/
inductive Walk where
  | whole
  | broken (block : Nat)
deriving DecidableEq, Repr

/-- The walk of a CLOSED record's chain: `left` blocks of its count are still to be claimed, the next of them `b`;
answers the blocks claimed in this walk too, the latest first (R119). -/
def walkChain (links : List (Nat × Nat)) (size : Nat) (last : Option Nat) (claimed : List Nat) :
    Nat → Nat → List Nat → Walk × List Nat
  | 0, b, mine => (.broken b, mine)
  | n + 1, b, mine =>
    if b < 80 || size ≤ b || b ∈ claimed || b ∈ mine then (.broken b, mine)
    else match n, Links.next links b with
      | 0, next => if last = some b && next.isNone then (.whole, b :: mine) else (.broken b, b :: mine)
      | _ + 1, none => (.broken b, b :: mine)
      | m + 1, some next => walkChain links size last claimed (m + 1) next (b :: mine)

/-- The scan's work on one message record (R119; the subject where the count is 0 DEDUCED, log entry 91). -/
def scanRecord (h : Nat) (s : State) : State :=
  match s.msgAt h with
  | none => s
  | some m =>
    if m.state = .closed then
      match m.first with
      | none => writeFault .storeInconsistent 0 (s.setMsgAt h none)
      | some b =>
        if m.count = 0 then writeFault .storeInconsistent b (s.setMsgAt h none)
        else
          match walkChain s.msc.links (storeBlocks s) m.last s.msc.claimed m.count b [] with
          | (.whole, mine) => s.modMsc fun x => { x with claimed := mine ++ x.claimed }
          | (.broken at_, _) => writeFault .storeInconsistent at_ (s.setMsgAt h none)
    else s.setMsgAt h none

/-- The working state on entry to SCANNING (R119, R121). -/
def enterScanning (s : State) : State :=
  s.modMsc fun x => { x with
    state := .scanning, freeList := [], lowMark := false, claimed := []
    msgs := x.msgs.map fun m => m.map fun r => { r with readers := [] } }

/-- R119: entry to SCANNING and the records in ascending handle order (DESIGN CHOICE, log entry 29). -/
def beginScan (s : State) : State := forEach (List.range 512) scanRecord (enterScanning s)

/-- Whether the scan keeps a list entry or a greeting of a mailbox (R120). -/
def keepsEntry (s : State) (mailbox : Nat) (greeting : Bool) (h : Nat) : Bool :=
  match s.msgAt h with
  | some m => m.state == .closed && m.mailbox == mailbox && ((m.kind == .greeting) == greeting)
  | none => false

/-- Keep the first of each number. -/
def keepFirst : List Nat → List Nat
  | [] => []
  | x :: xs => x :: (keepFirst xs).filter (· != x)

/-- The scan's work on one mailbox record (R120). -/
def scanMailbox (s : State) (b : Mbx) : Mbx :=
  { b with
    openCount := 0
    greetingOpen := false
    list := keepFirst (b.list.filter (keepsEntry s b.number false))
    greeting := b.greeting.filter (keepsEntry s b.number true) }

/-- The data blocks the scan marks leave unclaimed, in ascending order (R120). -/
def unclaimedBlocks (s : State) : List Nat :=
  (List.range' 80 (storeBlocks s - 80)).filter fun n => !(s.msc.claimed.contains n)

/-- R120: the mailboxes, the free list, READY, and the level report. -/
def finishScan (s : State) : State :=
  let s := s.modMsc fun x => { x with mbxs := x.mbxs.map (scanMailbox s) }
  let free := unclaimedBlocks s
  examineLevel (s.modMsc fun x => { x with freeList := free, state := .ready })

end Sys2Proof.Machine
end

