-- ==== Sys2Proof/Machine/Remote.lean ====
section
/-! DEFINITION. The Remote Access Unit (chapter 8): the depositor, the reader and the home, without what a session does
with an outcome. -/
namespace Sys2Proof.Machine

/-! ### Shared -/

/-- A timer of 2 s (R124, R125, R132, R134). -/
def twoSeconds : Nat := 2000
/-- The keep-alive interval (R134). -/
def keepaliveTime : Nat := 5000

/-- A new serial number for a deposit or fetch record (DESIGN CHOICE, log entry 35). -/
def newSerial (s : State) : State × Nat := (s.modRau fun r => { r with serial := r.serial + 1 }, s.rau.serial + 1)

def isHeld (p : StreamProducer) (s : State) : Bool := s.clc.held.contains p

/-- A producer with nothing left to offer leaves the held set. -/
def releaseHeld (p : StreamProducer) (s : State) : State :=
  s.modClc fun l => { l with held := l.held.filter (· != p) }

/-- The tag that names a context. -/
def tagOf (k : ContextId) : Byte := BitVec.ofNat 8 k.val

/-- Part p of a block: bytes 64p to 64p + 63 (R125). -/
def partOf (block : List Byte) (p : Nat) : List Byte := (block.drop (64 * p)).take 64

/-- The part numbers of a block. -/
def partIds : List Nat := [0, 1, 2, 3, 4, 5, 6, 7]

/-- Whether (a - b) modulo 65536 lies in 0..32767 (R128). -/
def notAfter (b a : Nat) : Bool := (a + 65536 - b) % 65536 < 32768

/-- Whether a sequence lies below the expected one: (n - expected) modulo 65536 in 32768..65535 (R126). -/
def isBelow (n expected : Nat) : Bool := 32768 ≤ (n + 65536 - expected) % 65536

/-- A cell of the deposit and fetch protocols, at priority 4 (R33). -/
def protocolCell (s : State) (dst : BitVec 4) (kind tag : Byte) (payload : List Byte) : Cell :=
  ownCell s 4 dst kind tag payload

def stationAddress (p : Fin 8) : BitVec 4 := BitVec.ofNat 4 p.val

/-! ### Depositor (R124, R125, R128, R130) -/

/-- The bytes of the part byte: part number, page-end mark, damaged mark (12, Payloads). -/
def partByte (p : Nat) (pageEnd damaged : Bool) : Byte :=
  BitVec.ofNat 8 (p % 8) ||| (if pageEnd then 0x80 else 0) ||| (if damaged then 0x40 else 0)

/-- The DEPOSIT_DATA cells of a block (R125, step 3). -/
def depositParts (s : State) (k : ContextId) (d : OutDeposit) (sequence : Nat) (block : List Byte)
    (pageEnd damaged : Bool) : List Cell :=
  partIds.map fun p =>
    protocolCell s (homeAddress d.home) kindDepositData (tagOf k)
      (beOpt2 d.handle ++ be2 sequence ++ [partByte p pageEnd damaged] ++ partOf block p)

/-- R124: take an outbound deposit record and queue DEPOSIT_OPEN. Answers the record's serial. -/
def startDeposit (k : ContextId) (home mailbox : Nat) (kind : MsgKind) (s : State) : State × Nat :=
  let (s, serial) := newSerial s
  let s := s.setOutbound k (some {
    home, mailbox, kind, handle := none, state := .opening, buffer := [], outstanding := [], toOffer := [],
    timer := some twoSeconds, close := none, closeSent := false, nextSequence := 0, serial })
  (offerOther (protocolCell s (homeAddress home) kindDepositOpen (tagOf k) (be2 mailbox ++ be1 kind.code))
    serial (some k) s, serial)

/-- Queue a DEPOSIT_CLOSE (R130, R131). -/
def closeCell (s : State) (home : BitVec 4) (tag : Byte) (handle : Option Nat) (ask : CloseAsk) : Cell :=
  protocolCell s home kindDepositClose tag
    (beOpt2 handle ++ [ask.reason] ++ beOpt2 (ask.last.map (·.1)) ++ beOpt2 (ask.last.map (·.2)))

/-- One move of a STREAMING or CLOSING deposit: a block leaves the buffer, else a part is offered, else a rollback is
queued, else the close is queued; none when nothing can move (R125, R130, R155). -/
def depositMove (k : ContextId) (s : State) : Option State :=
  match s.outbound k with
  | none => none
  | some d =>
    if d.state = .opening then none
    else match d.buffer, d.toOffer with
      | .block sequence bytes pageEnd damaged :: rest, cells =>
        if d.outstanding.length < 2 then
          some (s.setOutbound k (some { d with
            buffer := rest
            outstanding := d.outstanding ++ [sequence]
            toOffer := cells ++ depositParts s k d sequence bytes pageEnd damaged
            timer := if d.outstanding = [] && d.state = .streaming then some twoSeconds else d.timer }))
        else offerFirst d cells
      | .rollback page :: rest, [] =>
        some (offerOther (protocolCell s (homeAddress d.home) kindDepositRollback (tagOf k)
            (beOpt2 d.handle ++ be2 page)) d.serial (some k)
          (s.setOutbound k (some { d with buffer := rest })))
      | .rollback _ :: _, cells => offerFirst d cells
      | [], [] =>
        match d.state, d.close, d.closeSent with
        | .closing, some ask, false =>
          some (offerOther (closeCell s (homeAddress d.home) (tagOf k) d.handle ask) d.serial (some k)
            (s.setOutbound k (some { d with closeSent := true })))
        | _, _, _ => none
      | [], cells => offerFirst d cells
where
  /-- Offer the part that stands first, unless the producer is held (R29). -/
  offerFirst (d : OutDeposit) (cells : List Cell) : Option State :=
    match cells with
    | [] => none
    | c :: rest =>
      if isHeld (.deposit k) s then none
      else
        let r := offerStream (.deposit k) c s
        if r.2 then some (r.1.setOutbound k (some { d with toOffer := rest })) else some r.1

/-- Do every move that can be done, at most `fuel` of them. -/
def depositMoves (k : ContextId) : Nat → State → State
  | 0, s => s
  | n + 1, s =>
    match depositMove k s with
    | some t => depositMoves k n t
    | none => s

/-- R125: send what the window, the queue and the buffer allow. Sixteen parts, three blocks, their rollbacks and the
close are the most that one call can move. -/
def pumpDeposit (k : ContextId) (s : State) : State := depositMoves k 64 s

/-- A block joins the buffer; when three blocks stand there the oldest is dropped first (R125). -/
def joinBuffer (x : DepItem) (buffer : List DepItem) : List DepItem :=
  let isBlock (i : DepItem) : Bool := match i with
    | .block _ _ _ _ => true
    | .rollback _ => false
  (if 3 ≤ (buffer.filter isBlock).length then buffer.eraseP isBlock else buffer) ++ [x]

/-- The outbound deposit record of a serial number, for a context. -/
def outboundOf (s : State) (k : ContextId) (serial : Nat) : Option OutDeposit :=
  (s.outbound k).filter fun d => d.serial == serial

/-- A session hands on a finished block: a voice block with its own sequence number, a fax block to be numbered by the
record (R125). -/
def handToDeposit (k : ContextId) (serial : Nat) (sequence : Option Nat) (block : List Byte)
    (pageEnd damaged : Bool) (s : State) : State :=
  match outboundOf s k serial with
  | none => s
  | some d =>
    let n := sequence.getD d.nextSequence
    pumpDeposit k (s.setOutbound k (some { d with
      buffer := joinBuffer (.block (n % 65536) block pageEnd damaged) d.buffer
      nextSequence := (n + 1) % 65536 }))

/-- A fax receive asks the rollback of a page (R155). -/
def askRollback (k : ContextId) (serial page : Nat) (s : State) : State :=
  match outboundOf s k serial with
  | none => s
  | some d => pumpDeposit k (s.setOutbound k (some { d with buffer := d.buffer ++ [.rollback page] }))

/-- R130: a session gives its deposit the close. -/
def askClose (k : ContextId) (serial : Nat) (ask : CloseAsk) (s : State) : State :=
  match outboundOf s k serial with
  | none => s
  | some d =>
    pumpDeposit k (s.setOutbound k (some
      (if d.state = .opening then { d with close := some ask }
       else { d with close := some ask, state := .closing, timer := some twoSeconds })))

/-- How an outbound deposit record ended (R124, R127, R128, R130, R131). -/
inductive DepositOutcome where
  | refused (cause : Byte)
  | storeFull
  | homeSilent
  | closed (result : Byte) (blocks flags : Nat)
deriving DecidableEq, Repr

/-- The record is free again; a held part is dropped. -/
def freeDeposit (k : ContextId) (s : State) : State := releaseHeld (.deposit k) (s.setOutbound k none)

/-- A DEPOSIT_ACCEPT: the record in OPENING takes the handle; without one, the home is told to close (R124, R131). One
that names a handle above 511 is discarded (R175). -/
def takeAccept (k : Option ContextId) (c : Cell) (s : State) : State :=
  let handle := field c.payload 0 2
  let stray := offerOther (closeCell s c.src c.tag (some handle) { reason := reasonStopped, last := none }) 0 none s
  if 511 < handle then s
  else match k with
  | none => stray
  | some k =>
    match s.outbound k with
    | some d =>
      if d.state = .opening && homeAddress d.home == c.src then
        pumpDeposit k (s.setOutbound k (some
          (if d.close.isSome then { d with handle := some handle, state := .closing, timer := some twoSeconds }
           else { d with handle := some handle, state := .streaming, timer := none })))
      else stray
    | none => stray

/-- Whether a cell from a home belongs to a record that has its handle (R122). -/
def namesDeposit (d : OutDeposit) (c : Cell) (handle : Nat) : Bool :=
  homeAddress d.home == c.src && d.handle == some handle

/-- R128: BLOCK_TAKEN at the depositor. In CLOSING the reply timer runs on from the 2 s of R130 (DEDUCED from R130, R131 and
R144, log entry 16). -/
def takeBlockTaken (k : ContextId) (c : Cell) (s : State) : State :=
  match s.outbound k with
  | none => s
  | some d =>
    if namesDeposit d c (field c.payload 0 2) then
      let q := field c.payload 2 2
      let rest := d.outstanding.filter fun x => !notAfter x q
      let timer := if d.state = .closing then d.timer else if rest = [] then none else some twoSeconds
      pumpDeposit k (s.setOutbound k (some { d with outstanding := rest, timer }))
    else s

/-- What a DEPOSIT_REFUSE makes of the record: an ending, or nothing (R124, R128, R130). The refusal of an open carries
no handle (R123); one that names a handle answers a close, and in OPENING it is discarded (R131; DEDUCED, log entry
55). -/
def refuseEnds (d : OutDeposit) (c : Cell) : Option DepositOutcome :=
  let cause := byteAt c.payload 0
  if d.state = .opening then
    (if homeAddress d.home == c.src && field c.payload 1 2 == 65535 then some (.refused cause) else none)
  else if namesDeposit d c (field c.payload 1 2) then
    if cause = codeStoreFull then some .storeFull
    else if cause = codeNotOpen && d.state = .closing then some .homeSilent
    else none
  else none

/-- What a DEPOSIT_CLOSED makes of the record (R127, R130); bits 7..4 of its flags are ignored (R175). -/
def closedEnds (d : OutDeposit) (c : Cell) : Option DepositOutcome :=
  if d.state != .opening && namesDeposit d c (field c.payload 0 2) then
    some (.closed (byteAt c.payload 2) (field c.payload 3 2) (field c.payload 5 1 % 16))
  else none

/-! ### Reader (R132, R134) -/

/-- A cell to the home for a fetch puts the keep-alive off (R134). -/
def sendForFetch (k : ContextId) (c : Cell) (serial : Nat) (tell : Bool) (s : State) : State :=
  let s := match s.fetch k with
    | some f => s.setFetch k (some { f with keepalive := keepaliveTime })
    | none => s
  offerOther c serial (if tell then some k else none) s

def fetchOpenCell (s : State) (k : ContextId) (home : Nat) (handle mailbox : Option Nat) : Cell :=
  protocolCell s (homeAddress home) kindFetchOpen (tagOf k) (beOpt2 handle ++ beOpt2 mailbox)

/-- R132: ask for a fetch. -/
def startFetch (k : ContextId) (home : Nat) (handle mailbox : Option Nat) (s : State) : State :=
  let (s, serial) := newSerial s
  let s := s.setFetch k (some {
    home, mailbox, handle, state := .opening, pending := [], timer := some twoSeconds,
    keepalive := keepaliveTime, serial })
  sendForFetch k (fetchOpenCell s k home handle mailbox) serial true s

/-- The end of a fetch: FETCH_CLOSE for the handle, when one is known, and the record is absent (R134; DEDUCED, log
entry 38). -/
def endFetch (k : ContextId) (s : State) : State :=
  match s.fetch k with
  | none => s
  | some f =>
    let s := match f.handle with
      | some h => offerOther (protocolCell s (homeAddress f.home) kindFetchClose (tagOf k) (be2 h)) 0 none s
      | none => s
    s.setFetch k none

/-- Ask for a block (R134). -/
def fetchAsk (k : ContextId) (index : Nat) (s : State) : State :=
  match s.fetch k with
  | none => s
  | some f =>
    let s := s.setFetch k (some { f with
      pending := f.pending ++ [index]
      timer := if f.pending = [] then some twoSeconds else f.timer })
    sendForFetch k (protocolCell s (homeAddress f.home) kindFetchBlock (tagOf k) (beOpt2 f.handle ++ be2 index))
      f.serial false s

/-- A block asked for is complete, or is no longer asked for (R134). -/
def fetchSettle (k : ContextId) (index : Nat) (s : State) : State :=
  match s.fetch k with
  | none => s
  | some f =>
    let rest := f.pending.filter (· != index)
    s.setFetch k (some { f with pending := rest, timer := if rest = [] then none else f.timer })

/-- Whether a FETCH_DATA is for an OPEN fetch and a block it waits for. -/
def fetchWants (s : State) (k : ContextId) (c : Cell) : Bool :=
  match s.fetch k with
  | some f => f.state == .opened && homeAddress f.home == c.src && f.handle == some (field c.payload 0 2)
      && f.pending.contains (field c.payload 2 2)
  | none => false

/-- The reply timer restarts on each part taken (R134). -/
def fetchHeard (k : ContextId) (s : State) : State :=
  match s.fetch k with
  | some f => s.setFetch k (some { f with timer := some twoSeconds })
  | none => s

/-- How a fetch ended at the reader (R132, R134). -/
inductive FetchOutcome where
  | refused (cause : Byte)
  | noSuch
  | homeSilent
deriving DecidableEq, Repr

/-- What a FETCH_REFUSE makes of the record (R132, R134). In OPENING it ends the fetch with its cause whatever handle it
names, one above 511 included, since an OUTDIAL may ask for such a handle and R115 answers it NO_SUCH; only then is the
cell not discarded by R175 (DEDUCED, log entry 41). -/
def fetchRefuseEnds (f : Fetch) (c : Cell) : Option FetchOutcome :=
  let cause := byteAt c.payload 0
  if homeAddress f.home != c.src then none
  else if f.state = .opening then some (.refused cause)
  else if f.handle == some (field c.payload 1 2) then
    some (if cause = codeNoSuch then .noSuch else .homeSilent)
  else none

/-- What a FETCH_GRANT finds (R132). -/
inductive GrantFinds where
  | opening
  | same
  | stray
deriving DecidableEq, Repr

def grantFinds (s : State) (k : Option ContextId) (c : Cell) : GrantFinds :=
  match k.bind s.fetch with
  | none => .stray
  | some f =>
    if homeAddress f.home != c.src then .stray
    else if f.state = .opening then .opening
    else if f.handle == some (field c.payload 0 2) then .same
    else .stray

/-- A grant in OPENING opens the record (R132). -/
def openFetch (k : ContextId) (handle : Nat) (s : State) : State :=
  match s.fetch k with
  | some f => s.setFetch k (some { f with state := .opened, handle := some handle, timer := none })
  | none => s

/-! ### Home: deposits (R123, R126 to R131) -/

def depositEntry? (s : State) (h : Nat) : Option DepositEntry := s.rau.deposits.find? fun e => e.handle == h

/-- The entry a depositor's cell names (R126). -/
def entryOf (s : State) (h : Nat) (station : Fin 8) (context : Nat) : Option DepositEntry :=
  (depositEntry? s h).filter fun e => e.station == station && e.context == context

def modDeposit (h : Nat) (f : DepositEntry → DepositEntry) (s : State) : State :=
  s.modRau fun r => { r with deposits := r.deposits.map fun e => if e.handle = h then f e else e }

def removeDeposit (h : Nat) (s : State) : State :=
  s.modRau fun r => { r with deposits := r.deposits.filter fun e => e.handle != h }

def heardDepositor (h : Nat) (s : State) : State := modDeposit h (fun e => { e with lastHeard := s.cfu.stationTime }) s

/-- A cell to the depositor of an entry. -/
def toDepositor (e : DepositEntry) (kind : Byte) (payload : List Byte) (s : State) : State :=
  offerOther (protocolCell s (stationAddress e.station) kind (BitVec.ofNat 8 e.context) payload) 0 none s

def sendDepositRefuse (dst : BitVec 4) (tag cause : Byte) (handle : Option Nat) (s : State) : State :=
  offerOther (protocolCell s dst kindDepositRefuse tag ([cause] ++ beOpt2 handle)) 0 none s

/-- The fill of a missing part: 80h for VOICE and GREETING, 00h for FAX (R126). -/
def fillByte (kind : MsgKind) : Byte := if kind = .fax then 0 else 0x80

/-- The header made anew when part 0 was missing (R126). -/
def gapHeader (e : DepositEntry) (pageEnd : Bool) : List Byte :=
  if e.kind = .fax then faxHeader 508 (e.lastPage.getD 1) pageEnd true else voiceHeader 0 0 false true

/-- The 512 bytes an assembly is written as (R126). -/
def assembled (e : DepositEntry) (a : Assembly) : List Byte :=
  let piece (p : Nat) : List Byte :=
    match a.parts.find? fun x => x.1 == p with
    | some x => fitTo 64 (fillByte e.kind) x.2
    | none => List.replicate 64 (fillByte e.kind)
  let body := partIds.flatMap piece
  let whole := partIds.all fun p => a.parts.any fun x => x.1 == p
  let hasHeader := a.parts.any fun x => x.1 == 0
  if whole then body
  else if hasHeader then withGap body
  else gapHeader e a.pageEnd ++ body.drop 4

/-- A whole block of fill for a sequence that never came (R127). -/
def gapBlock (e : DepositEntry) : List Byte := gapHeader e false ++ List.replicate 508 (fillByte e.kind)

/-- The home writes one block of a deposit for the expected sequence: the append, the page end of a PAGE_END block,
the advance and BLOCK_TAKEN; on STORE_FULL the refusal and the end of the entry (R126, R128, R129). -/
def writeDeposited (h : Nat) (block : List Byte) (damaged : Bool) (s : State) : State :=
  match depositEntry? s h with
  | none => s
  | some e =>
    let w : Writer := .peer e.station e.context
    match appendBlock h w block 1016 s with
    | (s, .storeFull _) =>
      removeDeposit h (sendDepositRefuse (stationAddress e.station) (BitVec.ofNat 8 e.context) codeStoreFull (some h) s)
    | (s, .refused _) => removeDeposit h s
    | (s, .taken) =>
      let s := if e.kind = .fax && blockTopFlag block then (endPage h w damaged s).1 else s
      let s := modDeposit h (fun e => { e with
        expected := (e.expected + 1) % 65536
        assembly := none
        lastWritten := some e.expected
        lastPage := if e.kind = .fax then some (byteAt block 2).toNat else e.lastPage }) s
      toDepositor e kindBlockTaken (be2 h ++ be2 e.expected) s

/-- Write the assembly of an entry, if any (R126). -/
def writeAssembly (h : Nat) (s : State) : State :=
  match depositEntry? s h with
  | none => s
  | some e =>
    match e.assembly with
    | none => s
    | some a => writeDeposited h (assembled e a) a.damaged s

/-- Write n gap blocks, stopping when the entry ends (R127, R128). -/
def writeGaps (h : Nat) : Nat → State → State
  | 0, s => s
  | n + 1, s =>
    match depositEntry? s h with
    | none => s
    | some e => writeGaps h n (writeDeposited h (gapBlock e) false s)

/-- Close an entry's message, tell its depositor when asked to, and remove the entry (R123, R127, R130, R131). The
DEPOSIT_CLOSED of a message found empty carries flags of 0, which no rule gives it (DESIGN CHOICE, log entry 92). -/
def closeEntry (h : Nat) (reason : Byte) (tell : Bool) (s : State) : State :=
  match depositEntry? s h with
  | none => s
  | some e =>
    let r := closeBy h (.peer e.station e.context) reason s
    let s := match r.2, tell with
      | .ok report, true =>
        toDepositor e kindDepositClosed (be2 h ++ [report.result] ++ be2 report.blocks ++ be1 report.flags) r.1
      | _, _ => r.1
    removeDeposit h s

/-- The home's silence close: the assembly, then the close with WRITER_LOST (R131). -/
def silenceClose (h : Nat) (tell : Bool) (s : State) : State :=
  closeEntry h reasonWriterLost tell (writeAssembly h s)

/-- R123: a DEPOSIT_OPEN at the home. -/
def takeDepositOpen (station : Fin 8) (c : Cell) (s : State) : State :=
  let context := c.tag.toNat
  let mailbox := field c.payload 0 2
  let s := match s.rau.deposits.find? fun e => e.station == station && e.context == context with
    | some e => silenceClose e.handle false s
    | none => s
  if s.msc.state = .ready && s.cfu.config.isSome && 8 ≤ s.rau.deposits.length then
    sendDepositRefuse c.src c.tag codeBusy none s
  else
    match openForWriting mailbox (msgKindOf (field c.payload 2 1)) (.peer station context) s with
    | (s, .error cause) => sendDepositRefuse c.src c.tag cause none s
    | (s, .ok h) =>
      let entry : DepositEntry :=
        { handle := h, station, context, kind := (msgKindOf (field c.payload 2 1)).getD .voice, expected := 0,
          assembly := none, lastHeard := s.cfu.stationTime, lastWritten := none, lastPage := none }
      let s := s.modRau fun r => { r with deposits := r.deposits ++ [entry] }
      toDepositor entry kindDepositAccept (be2 h) s

/-- Whether the cells of R137 are taken: READY and LOCKED. -/
def homeTakes (s : State) : Bool := s.msc.state == .ready && s.cfu.config.isSome

/-- Place a part of the expected sequence into the assembly (R126). -/
def placePart (h : Nat) (partNo : Nat) (pageEnd damaged : Bool) (bytes : List Byte) (s : State) : State :=
  match depositEntry? s h with
  | none => s
  | some e =>
    let a : Assembly := e.assembly.getD { parts := [], pageEnd := false, damaged := false, started := 0 }
    if a.parts.any fun x => x.1 == partNo then s
    else
      let a : Assembly := { parts := a.parts ++ [(partNo, bytes)], pageEnd := a.pageEnd || pageEnd,
                            damaged := a.damaged || damaged, started := s.cfu.stationTime }
      let s := modDeposit h (fun e => { e with assembly := some a }) s
      if partNo = 7 then writeAssembly h s else s

/-- R126, R127: a DEPOSIT_DATA at the home. -/
def takeDepositData (station : Fin 8) (c : Cell) (s : State) : State :=
  let h := field c.payload 0 2
  let n := field c.payload 2 2
  let pb := byteAt c.payload 4
  let place := placePart h (pb.toNat % 8) (pb.getLsbD 7) (pb.getLsbD 6) (c.payload.drop 5)
  match entryOf s h station c.tag.toNat with
  | none => s
  | some e =>
    let s := heardDepositor h s
    if n = e.expected then place s
    else if isBelow n e.expected then s
    else
      let s := writeAssembly h s
      match depositEntry? s h with
      | none => s
      | some e =>
        let j := (n + 65536 - e.expected) % 65536
        if j ≤ 8 then place (writeGaps h j s)
        else closeEntry h reasonWriterLost true s

/-- R129: a DEPOSIT_ROLLBACK at the home. -/
def takeRollback (station : Fin 8) (c : Cell) (s : State) : State :=
  let h := field c.payload 0 2
  match entryOf s h station c.tag.toNat with
  | none => s
  | some e =>
    let s := heardDepositor h s
    match s.msgAt h with
    | none => s
    | some m =>
      if e.kind = .fax && field c.payload 2 2 = m.length + 1 then
        let s := writeAssembly h s
        (rollBack h (.peer e.station e.context) s).1
      else s

/-- R130, step 2: the last block's sample count sets the length. -/
def setLastSamples (h lastSequence samples : Nat) (s : State) : State :=
  match depositEntry? s h, s.msgAt h with
  | some e, some m =>
    if e.kind != .fax && e.lastWritten == some lastSequence && 0 < m.count then
      s.setMsgAt h (some { m with length := 1016 * (m.count - 1) + samples })
    else s
  | _, _ => s

/-- R130: a DEPOSIT_CLOSE at the home. -/
def takeDepositClose (station : Fin 8) (c : Cell) (s : State) : State :=
  let h := field c.payload 0 2
  match entryOf s h station c.tag.toNat with
  | none => sendDepositRefuse c.src c.tag codeNotOpen (some h) s
  | some _ =>
    let s := writeAssembly h (heardDepositor h s)
    let s := setLastSamples h (field c.payload 3 2) (field c.payload 5 2) s
    closeEntry h (byteAt c.payload 2) true s

/-! ### Home: fetches (R132, R133, R135) -/

def sendFetchRefuse (c : Cell) (cause : Byte) (handle : Nat) (s : State) : State :=
  offerOther (protocolCell s c.src kindFetchRefuse c.tag ([cause] ++ be2 handle)) 0 none s

/-- R115, R132: a FETCH_OPEN at the home. Handle FFFFh asks for the greeting of the mailbox (12, Payloads). -/
def takeFetchOpen (station : Fin 8) (c : Cell) (s : State) : State :=
  let h := field c.payload 0 2
  let what : PlayTarget := if h = 65535 then .greeting (field c.payload 2 2) else .message s.cfu.station.val h
  match readOpen what station c.tag.toNat s with
  | (s, .error cause) => sendFetchRefuse c cause h s
  | (s, .ok g) =>
    offerOther (protocolCell s c.src kindFetchGrant c.tag
      (be2 g.handle ++ be1 g.kind.code ++ be3 g.length ++ be2 g.blocks)) 0 none s

def isForReader (station : Fin 8) (context : Nat) (x : PendingBlock) : Bool :=
  x.station == station && x.context == context

/-- Offer the next part of the oldest pending block, unless held; none when nothing can be offered (R133). -/
def fetchMove (s : State) : Option State :=
  match s.rau.pendingBlocks with
  | [] => none
  | x :: rest =>
    if isHeld .fetchData s then none
    else
      let c := protocolCell s (stationAddress x.station) kindFetchData (BitVec.ofNat 8 x.context)
        (be2 x.handle ++ be2 x.index ++ be1 x.nextPart ++ partOf x.block x.nextPart)
      let r := offerStream .fetchData c s
      if r.2 then
        some (r.1.modRau fun u => { u with
          pendingBlocks := if x.nextPart = 7 then rest else { x with nextPart := x.nextPart + 1 } :: rest })
      else some r.1

def fetchMoves : Nat → State → State
  | 0, s => s
  | n + 1, s =>
    match fetchMove s with
    | some t => fetchMoves n t
    | none => s

/-- R133: serve the pending block list. The queue takes at most 16 stream cells, so 32 moves are enough. -/
def pumpFetchData (s : State) : State := fetchMoves 32 s

/-- Take entries out of the pending block list. When the one being served goes, a part of it that was held is dropped
and the next entry is served (R134). -/
def dropPending (keep : PendingBlock → Bool) (s : State) : State :=
  let old := s.rau.pendingBlocks
  let new := old.filter keep
  let s := s.modRau fun r => { r with pendingBlocks := new }
  if new.head? = old.head? then s else pumpFetchData (releaseHeld .fetchData s)

/-- The number of entries a reader has. -/
def pendingOf (s : State) (station : Fin 8) (context : Nat) : Nat :=
  (s.rau.pendingBlocks.filter (isForReader station context)).length

/-- The older entry of a reader that has not begun to be queued is removed when the reader has two (R133). The two are
counted by station and context, over all messages (DESIGN CHOICE, log entry 87). -/
def makeRoomFor (station : Fin 8) (context : Nat) (s : State) : State :=
  if pendingOf s station context < 2 then s
  else
    let old := s.rau.pendingBlocks
    let new := old.eraseP fun x => isForReader station context x && x.nextPart == 0
    let s := s.modRau fun r => { r with pendingBlocks := new }
    if new.head? = old.head? then s else releaseHeld .fetchData s

/-- R133: a FETCH_BLOCK at the home. -/
def takeFetchBlock (station : Fin 8) (c : Cell) (s : State) : State :=
  let h := field c.payload 0 2
  let b := field c.payload 2 2
  let context := c.tag.toNat
  match readBlockFor h station context b s with
  | (s, .error cause) => sendFetchRefuse c cause h s
  | (s, .ok block) =>
    let s := makeRoomFor station context s
    pumpFetchData (s.modRau fun r => { r with
      pendingBlocks := r.pendingBlocks ++ [{ station, context, handle := h, index := b, block, nextPart := 0 }] })

/-- A remote reader leaves: the reader list, and its pending blocks for the message it leaves (R134, R135). A reader of
two messages keeps its pending blocks of the other (DEDUCED, log entry 56). -/
def dropReader (h : Nat) (station : Fin 8) (context : Nat) (s : State) : State :=
  dropPending (fun x => !(isForReader station context x && x.handle == h)) (leaveMessage h station context s)

/-! ### Home: mailbox lists (R136) -/

/-- The kind and flags byte of an MBOX_LIST entry (12, Payloads). -/
def listEntry (s : State) (h : Nat) : List Byte :=
  match s.msgAt h with
  | some m => be2 h ++ be1 (m.kind.code * 64 + m.flags) ++ be2 m.count ++ beOpt3 (m.stamp.map (·.toNat))
  | none => be2 h ++ [0xFF] ++ [0xFF, 0xFF] ++ [0xFF, 0xFF, 0xFF]

/-- The parts of a list, eight handles each; an empty list is one part. -/
def listParts : Nat → List Nat → List (List Nat)
  | 0, _ => []
  | n + 1, hs => hs.take 8 :: (if hs.length ≤ 8 then [] else listParts n (hs.drop 8))

/-- Send the MBOX_LIST cells of a mailbox (R136). -/
def sendMailboxList (request : Cell) (b : Mbx) (s : State) : State :=
  let parts := listParts 4 b.list
  forEach parts.zipIdx (fun x t =>
    offerOther (protocolCell t request.src kindMboxList request.tag
      (be2 b.number ++ be1 b.limit ++ be1 b.openCount ++ beOpt2 b.greeting ++ be1 x.2 ++ be1 parts.length
        ++ x.1.flatMap (listEntry t))) 0 none t) s

end Sys2Proof.Machine
end

