-- ==== Sys2Proof/Machine/Codec.lean ====
section
/-! DEFINITION. The arithmetic of the Voice Codec, its blocks, and the two-slot buffer it shares with the fax send
(R89 to R98). -/
namespace Sys2Proof.Machine

/-! ### μ-law (R89, R90) -/

/-- R89: the linear value of a code byte. -/
def expand (b : Byte) : Int :=
  let s := (b.extractLsb' 4 3).toNat
  let t := (b.extractLsb' 0 4).toNat
  let m : Int := (2 * t + 33) * 2 ^ s - 33
  if b.getLsbD 7 then -m else m

/-- The one segment for which 32 × 2^s ≤ m < 64 × 2^s, for m in 33..8064 (R90). -/
def segmentOf (m : Nat) : Nat :=
  if m < 64 then 0 else if m < 128 then 1 else if m < 256 then 2 else if m < 512 then 3
  else if m < 1024 then 4 else if m < 2048 then 5 else if m < 4096 then 6 else 7

/-- R90: the code byte of a linear value. -/
def compress (v : Int) : Byte :=
  let m := min 8031 v.natAbs + 33
  let s := segmentOf m
  let t := m / 2 ^ (s + 1) - 16
  (if v < 0 then 0x80 else 0) ||| BitVec.ofNat 8 (s * 16 + t)

/-! ### The adaptive coder (R91, R92, R93) -/

/-- R91: the step size of an index. -/
def stepSize (i : Nat) : Nat := (16 + 2 * (i % 8)) * 2 ^ (i / 8)

/-- R91: the index adjustment after a code of magnitude k. -/
def adjust : Nat → Int
  | 0 => -1
  | 1 => -1
  | 2 => 0
  | 3 => 1
  | 4 => 2
  | 5 => 3
  | 6 => 5
  | _ => 7

def clampPredictor (p : Int) : Int := if p < -8191 then -8191 else if 8191 < p then 8191 else p
def clampIndex (i : Int) : Nat := if i < 0 then 0 else if 47 < i then 47 else i.toNat

/-- R92, steps 7 to 9: the predictor and the index after a code. -/
def applyCode (p : Int) (i : Nat) (code : BitVec 4) : Int × Nat :=
  let q := stepSize i
  let bit (n weight : Nat) : Nat := if code.getLsbD n then weight else 0
  let delta : Int := (q / 8 + bit 2 q + bit 1 (q / 2) + bit 0 (q / 4) : Nat)
  let k := (code.extractLsb' 0 3).toNat
  (clampPredictor (if code.getLsbD 3 then p - delta else p + delta), clampIndex (i + adjust k))

/-- R92, steps 1 to 6: the code of a linear sample. -/
def codeFor (p : Int) (i : Nat) (x : Int) : BitVec 4 :=
  let q := stepSize i
  let m := (x - p).natAbs
  let b2 := q ≤ m
  let m := if b2 then m - q else m
  let b1 := q / 2 ≤ m
  let m := if b1 then m - q / 2 else m
  let b0 := q / 4 ≤ m
  (if x - p < 0 then 8 else 0) ||| (if b2 then 4 else 0) ||| (if b1 then 2 else 0) ||| (if b0 then 1 else 0)

/-! ### Recording (R94, R95, R96) -/

/-- A block the encoder hands on: its number, its bytes, its sample count, its quiet flag. -/
structure Finished where
  sequence : Nat
  block : List Byte
  samples : Nat
  quiet : Bool
deriving DecidableEq, Repr

/-- The samples in the block in build. -/
def Vcd.built (v : Vcd) : Nat := 2 * v.build.length + (if v.pendingNibble.isSome then 1 else 0)

/-- R96: the recording mark turns on. -/
def Vcd.startRecording (v : Vcd) : Vcd :=
  { v with encPredictor := 0, encIndex := 0, build := [], pendingNibble := none, sequence := 0, recording := true }

/-- The block in build as a finished block (R94, R95, R96). -/
def Vcd.finish (v : Vcd) (threshold : Nat) : Vcd × Finished :=
  let quiet : Bool := v.largest ≤ threshold
  let codes := v.build ++ (v.pendingNibble.map fun n => n ++ (0 : BitVec 4)).toList
  ({ v with build := [], pendingNibble := none, sequence := v.sequence + 1 },
    { sequence := v.sequence
      block := voiceHeader v.startPredictor v.startIndex quiet false ++ fitTo 508 0 codes
      samples := v.built
      quiet })

/-- R94: the encoder takes one received sample; the finished block, when this sample completes one. -/
def Vcd.encode (v : Vcd) (threshold : Nat) (sample : Byte) : Vcd × Option Finished :=
  let v := if v.built = 0 then
      { v with startPredictor := v.encPredictor, startIndex := v.encIndex, largest := v.encIndex }
    else v
  let code := codeFor v.encPredictor v.encIndex (expand sample)
  let next := applyCode v.encPredictor v.encIndex code
  let v := { v with encPredictor := next.1, encIndex := next.2, largest := max v.largest next.2 }
  let v := match v.pendingNibble with
    | none => { v with pendingNibble := some code }
    | some high => { v with build := v.build ++ [high ++ code], pendingNibble := none }
  if 1016 ≤ v.built then let r := v.finish threshold; (r.1, some r.2) else (v, none)

/-- R96: the recording mark turns off; the partial block, when one holds a sample. -/
def Vcd.stopRecording (v : Vcd) (threshold : Nat) : Vcd × Option Finished :=
  let v := { v with recording := false }
  if v.built = 0 then (v, none) else let r := v.finish threshold; (r.1, some r.2)

/-! ### The buffer (R97) -/

def Slot.index : Slot → Option Nat
  | .empty => none
  | .requested i => some i
  | .arriving i _ _ => some i
  | .ready i _ => some i

/-- The 10 ms allowance in superframes (R97). -/
def slotAllowance : Nat := 10

/-- The 512 bytes of a slot completed with fill; a missing part 0 gives the header made anew (R97, R159). -/
def completeParts (fill : Byte) (header : List Byte) (parts : List (Nat × List Byte)) : List Byte :=
  let piece (p : Nat) : List Byte :=
    match parts.find? fun x => x.1 == p with
    | some x => fitTo 64 fill x.2
    | none => List.replicate 64 fill
  let body := partIds.flatMap piece
  if parts.any fun x => x.1 == 0 then body else header ++ body.drop 4

/-- R97: a part arrives for a slot. One that comes when the slot is READY is discarded, and so is one that an ARRIVING slot
has (DESIGN CHOICE, log entry 82). -/
def Slot.place (s : Slot) (index part : Nat) (bytes : List Byte) : Slot :=
  let add (parts : List (Nat × List Byte)) (left : Nat) : Slot :=
    let parts := if parts.any fun x => x.1 == part then parts else parts ++ [(part, bytes)]
    if partIds.all fun p => parts.any fun x => x.1 == p then .ready index (completeParts 0 [] parts)
    else .arriving index parts left
  match s with
  | .requested i => if i = index then add [] slotAllowance else s
  | .arriving i parts left => if i = index then add parts left else s
  | _ => s

/-- Complete a slot that is ARRIVING. -/
def Slot.fill (s : Slot) (fill : Byte) (header : List Byte) : Slot :=
  match s with
  | .arriving i parts _ => .ready i (completeParts fill header parts)
  | _ => s

/-- One superframe of the allowance (R97). -/
def Slot.tick (s : Slot) : Slot :=
  match s with
  | .arriving i parts left => .arriving i parts (left - 1)
  | _ => s

def Buffer.map (f : Slot → Slot) (b : Buffer) : Buffer := { a := f b.a, b := f b.b }

/-- The slot that holds a block index. -/
def Buffer.find (b : Buffer) (index : Nat) : Slot :=
  if b.a.index = some index then b.a else if b.b.index = some index then b.b else .empty

/-- The slot of a block index becomes EMPTY. -/
def Buffer.drop (b : Buffer) (index : Nat) : Buffer := b.map fun s => if s.index = some index then .empty else s

/-- Put a slot where an EMPTY one stands. -/
def Buffer.put (b : Buffer) (s : Slot) : Buffer :=
  if b.a = .empty then { b with a := s } else if b.b = .empty then { b with b := s } else b

/-- The next index to ask for: the one needed, when the buffer is empty, or the one after the highest in it. -/
def Buffer.next (b : Buffer) (needed : Nat) : Nat :=
  match b.a.index, b.b.index with
  | none, none => needed
  | some x, none => x + 1
  | none, some y => y + 1
  | some x, some y => max x y + 1

def Buffer.hasRoom (b : Buffer) : Bool := b.a == .empty || b.b == .empty

/-- Ask a source for a block: a local read makes the slot READY at once, a fetch leaves it REQUESTED (R97). A held reader
sends no FETCH_BLOCK, so its slot stays EMPTY until the return (R135; DEDUCED, log entry 67). -/
def askBlock (k : ContextId) (source : Source) (index : Nat) (s : State) : State × Slot :=
  match source with
  | .here h =>
    match readBlockFor h s.cfu.station k.val index s with
    | (s, .ok block) => (s, .ready index block)
    | (s, .error _) => (s, .empty)
  | .fetched => if (s.at k).held then (s, .empty) else (fetchAsk k index s, .requested index)

/-- Ask for the next block into an EMPTY slot, when the message has one; twice fills both slots (R97, R99). -/
def askNext (k : ContextId) (source : Source) (blocks needed : Nat) (b : Buffer) (s : State) : State × Buffer :=
  let n := b.next needed
  if b.hasRoom && n < blocks then let r := askBlock k source n s; (r.1, b.put r.2) else (s, b)

def fillBuffer (k : ContextId) (source : Source) (blocks needed : Nat) (b : Buffer) (s : State) : State × Buffer :=
  let r := askNext k source blocks needed b s
  askNext k source blocks needed r.2 r.1

end Sys2Proof.Machine
end

