-- ==== Sys2Proof/Machine/Session.lean ====
section
/-! DEFINITION. What stops and winds down inside a session: playback, recording, fax and data, and the events that
report it (R101, R145, R146, R149, R156, R161, R169). -/
namespace Sys2Proof.Machine

/-- The accepted configuration, or one with every field at its least value (DESIGN CHOICE, log entry 33). -/
def configOf (s : State) : ConfigRecord :=
  s.cfu.config.getD
    { groupSize := 1, huntSet := 0, outdialSet := 0, pulseSet := 0, settleCount := 8, timingThreshold := 16,
      answerDelay := 0, addressDigits := 0, defaultMailbox := 0, quietThreshold := 0, silenceBlocks := 4, maxBlocks := 8,
      rateMin := 0, rateMax := 0, errorBurst := 1, toneLength := 50, gapLength := 50, faxMaxRate := 0,
      faxAllowed := false, dataAllowed := false }

/-- The home of a mailbox by the configured group size (R122). -/
def homeStation (s : State) (mailbox : Nat) : Nat := homeOf (configOf s) mailbox

def ownNumber (s : State) : Nat := s.cfu.station.val

/-! ### Playback (R100, R101) -/

/-- The reader leaves the message it reads, at home as R116, elsewhere by FETCH_CLOSE (R134). A fetch that has not
been granted yet is ended too. -/
def leaveSource (k : ContextId) (source : Option Source) (s : State) : State :=
  match source with
  | some (.here h) => leaveMessage h s.cfu.station k.val s
  | _ => endFetch k s

/-- The playback stops or ends: the slots are emptied, the decoder stands ENDED, the counter keeps its value, and the
reader leaves (R100, R101). No rule says what the current block is from then on; it becomes none at once (DESIGN CHOICE,
log entry 54). -/
def stopPlayback (k : ContextId) (s : State) : State :=
  let source := (s.at k).vcd.source
  let s := s.modVcd k fun v => { v with buffer := .reset, mark := .ended, source := none, current := none }
  leaveSource k source s

def sendPlayDone (k : ContextId) (result : Byte) (s : State) : State :=
  sendEvent (some k) (.playDone result (s.at k).vcd.position) s

/-! ### Recording (R144, R145, R146) -/

def sendRecordDone (k : ContextId) (home : Nat) (handle blocks : Option Nat) (result : Byte) (flags : Option Nat)
    (s : State) : State :=
  sendEvent (some k) (.recordDone home handle blocks result flags) s

/-- The RECORD_DONE of a local close (R146): a message found empty names no handle. -/
def reportClose (k : ContextId) (h : Nat) (result : Byte) (r : CloseReport) (s : State) : State :=
  sendRecordDone k (ownNumber s) (if r.result = codeEmpty then none else some h) (some r.blocks) result (some r.flags) s

/-- The block counts of a recording (R144). -/
def Voice.countBlock (v : Voice) (quiet : Bool) : Voice :=
  { v with handedOn := satAdd 4095 v.handedOn 1, quietRun := if quiet then satAdd 255 v.quietRun 1 else 0 }

/-- A finished block goes to the record target and is counted; the store's own close, when the append failed (R111,
R144). -/
def handOn (k : ContextId) (f : Finished) (s : State) : State × Option (Nat × CloseReport) :=
  let target := (s.at k).voice.recTarget
  let s := s.modVoice k fun v => v.countBlock f.quiet
  match target with
  | some (.here h) =>
    match appendBlock h (.here k) f.block f.samples s with
    | (s, .storeFull r) => (s, some (h, r))
    | (s, _) => (s, none)
  | some (.outbound serial) => (handToDeposit k serial (some f.sequence) f.block false false s, none)
  | none => (s, none)

/-- A recording no longer runs: its mark is off and it has no target. The record target and the deposit wait end here, and
the record mailbox, kind, max blocks, blocks handed on and quiet run stand (DESIGN CHOICE, log entry 89). -/
def dropRecording (k : ContextId) (s : State) : State :=
  (s.modVcd k fun v => { v with recording := false, build := [], pendingNibble := none }).modVoice k fun v =>
    { v with activity := .none, recTarget := none, depositWait := false }

/-- The recording's target has ended by itself: the block in build is finished and its quiet flag counted (R96), and
since the store path cannot take it, it is lost. -/
def abandonRecording (k : ContextId) (s : State) : State :=
  let r := (s.at k).vcd.stopRecording (configOf s).quietThreshold
  let s := s.modVcd k fun _ => r.1
  dropRecording k (match r.2 with
    | none => s
    | some f => s.modVoice k fun v => v.countBlock f.quiet)

/-- The last block handed on: its number and its sample count (R130). -/
def lastHanded (v : Vcd) (f : Option Finished) : Option (Nat × Nat) :=
  match f with
  | some f => some (f.sequence, f.samples)
  | none => if v.sequence = 0 then none else some (v.sequence - 1, 1016)

/-- Pass the close to the record target (R145), with the RECORD_DONE of what is known at once (R146). -/
def closeRecording (k : ContextId) (reason : Byte) (last : Option (Nat × Nat)) (s : State) : State :=
  let v := (s.at k).voice
  match v.recTarget with
  | some (.here h) =>
    match closeBy h (.here k) reason s with
    | (s, .ok r) => reportClose k h r.result r s
    | (s, .error _) => s
  | some (.outbound serial) => askClose k serial { reason, last } s
  | none =>
    if v.depositWait then
      sendRecordDone k (homeStation s (v.recMailbox.getD 0)) none (some 0) codeEmpty (some 0) s
    else s

/-- R145, R146: the recording ends with a reason. The partial block is handed on first; when its append fails the
store has closed the message. -/
def finishRecording (k : ContextId) (reason : Byte) (s : State) : State :=
  let r := (s.at k).vcd.stopRecording (configOf s).quietThreshold
  let s := s.modVcd k fun _ => r.1
  let last := lastHanded r.1 r.2
  let done := match r.2 with
    | none => (s, none)
    | some f => handOn k f s
  dropRecording k (match done with
    | (s, some (h, report)) => reportClose k h codeStoreFull report s
    | (s, none) => closeRecording k reason last s)

/-! ### Fax (R155, R156, R161) -/

/-- Ask the close of a receive's target (R155, R156, R161); the receive then has none. -/
def closeFaxTarget (k : ContextId) (reason : Byte) (s : State) : State :=
  let target := (s.at k).fax.target
  let s := s.modFax k fun f => { f with target := none, build := [] }
  match target with
  | some (.here h) => (closeBy h (.here k) reason s).1
  | some (.outbound serial) => askClose k serial { reason, last := none } s
  | none => s

/-- A send's reader leaves the message (R160, R161). -/
def leaveFaxSource (k : ContextId) (s : State) : State :=
  let f := (s.at k).fax
  if f.role = some .send then
    leaveSource k f.source (s.modFax k fun f => { f with source := none, buffer := .reset })
  else s

def sendFaxDone (k : ContextId) (result : Byte) (s : State) : State :=
  sendEvent (some k) (.faxDone (s.at k).fax.pagesDone result) s

/-- A fax session is over: its controller and the pump stand as at reset. -/
def clearFax (k : ContextId) (s : State) : State :=
  (s.modFax k fun _ => .reset).modPump k fun _ => .reset

/-- R161: the call ends while a fax session runs. The MESSAGE_STORED of a close here, the cells of a close elsewhere and a
FETCH_CLOSE are queued before the FAX_DONE (DESIGN CHOICE, log entry 85). -/
def windDownFax (k : ContextId) (cause : Byte) (s : State) : State :=
  let f := (s.at k).fax
  let s := closeFaxTarget k (if cause = codeFarEndClear then reasonFarEndClear else reasonStopped) s
  let s := leaveFaxSource k s
  clearFax k (sendFaxDone k (f.result.getD codeStopped) s)

/-! ### Data (R169) -/

/-- A data session is over: the pump stops, the buffers and a held DATA_RX are discarded, and nothing is reported
(R169). -/
def stopData (k : ContextId) (s : State) : State :=
  releaseHeld (.dataRx k)
    (((s.modQmn k fun _ => .reset).modLkc k fun _ => .reset).modPump k fun _ => .reset)

/-! ### The end of a call (R73 step 2, R149) -/

/-- The voice part of a winding down (R149). -/
def windDownVoice (k : ContextId) (cause : Byte) (s : State) : State :=
  match (s.at k).voice.activity with
  | .playing => sendPlayDone k codeStopped (stopPlayback k s)
  | .recording =>
    finishRecording k (if cause = codeFarEndClear then reasonFarEndClear else reasonStopped) s
  | _ => s

/-- R149: a greeting or beep of the answer script stops without a report. -/
def stopGreeting (k : ContextId) (s : State) : State :=
  match (s.at k).voice.activity with
  | .playing => stopPlayback k s
  | _ => s

/-- R73, step 2. -/
def windDown (k : ContextId) (cause : Byte) (s : State) : State :=
  match (s.at k).state, (s.at k).session with
  | .discriminating, _ => stopGreeting k s
  | .connected, .voice => windDownVoice k cause s
  | .connected, .fax => windDownFax k cause s
  | .connected, .data => stopData k s
  | _, _ => s

end Sys2Proof.Machine
end

