-- ==== Sys2Proof/Machine/Call.lean ====
section
/-! DEFINITION. Holding and leaving a channel, the views of the map, and the end of a call (R52, R55, R67, R68, R70,
R73). -/
namespace Sys2Proof.Machine

/-! ### Views and drives (R13, R52) -/

/-- A change of view sets the stale count to 0; the block timer is set as given (R52). -/
def setView (c : Channel) (v : View) (timer : Option Nat) (s : State) : State :=
  s.modEntry c fun e => { e with view := v, blockTimer := timer, stale := if e.view = v then e.stale else 0 }

/-- The HWI's record of a channel when no context holds it: the enable is clear and the drive has ended (R13). -/
def endDrive (c : Channel) (s : State) : State := s.modChannel c fun _ => .reset

/-- Set a channel's drive enable; while the station is not ALIGNED it is kept aside (R13, R16, R60). -/
def enableDrive (c : Channel) (s : State) : State :=
  s.modChannel c fun h => if isAligned s then { h with enable := true } else { h with aside := true }

/-- A context becomes FREE: its record and all that its helpers keep for it are cleared (R70). -/
def freeContext (k : ContextId) (s : State) : State :=
  releaseHeld (.dataRx k) (s.modCtx k fun _ => .reset)

/-- Set a context's state timer. -/
def setTimer (k : ContextId) (t : Option Nat) (s : State) : State := s.modCtx k fun x => { x with timer := t }

/-! ### Clearing (R67, R68) -/

/-- The clearing time of 2 s. -/
def clearingTime : Nat := 2000

/-- R67, steps 1 and 2: the context drives IDLE, queues RELEASE and starts its clearing time. Its session is over
(DEDUCED, log entry 19), and its outgoing request is dropped (DESIGN CHOICE, log entry 73). Its codec keeps what it
holds until the context is FREE (R101). -/
def enterClearing (k : ContextId) (s : State) : State :=
  let channel := (s.at k).channel
  let s := s.modCtx k fun x => { x with
    state := .clearing, session := .none, timer := some clearingTime, clearing := 0, txCode := .idle
    outgoing := none, dgn := .reset, voice := .reset, fax := .reset, qmn := .reset, lkc := .reset, pump := .reset }
  match channel with
  | some c => sendRelease c s
  | none => s

/-- A context in CLEARING lets go of its channel at the eighth superframe (R67), and becomes FREE when the far end
already shows IDLE or BLOCKED (R68). -/
def letGo (k : ContextId) (c : Channel) (s : State) : State :=
  let code := (s.entry c).rx.settled
  let s := endDrive c s
  match code with
  | .blocked => freeContext k (setView c .blocked none s)
  | .idle => freeContext k (setView c .free none s)
  | _ => setView c .free none s

/-! ### The end of a call (R73) -/

/-- Step 1: an incoming call not announced yet is announced with the mailbox "none". -/
def announceUnknown (k : ContextId) (s : State) : State :=
  let x := s.at k
  match x.direction, x.announced, x.channel with
  | some .incoming, false, some c =>
    (sendEvent (some k) (.callArrived c none) s).modCtx k fun x => { x with announced := true }
  | _, _, _ => s

/-- Queue OUTDIAL_DONE for the outgoing request of a context, once (R73 step 3, R78, R81). -/
def outdialDone (k : ContextId) (result : Byte) (s : State) : State :=
  let x := s.at k
  match x.outgoing, x.outdialDone with
  | some o, false =>
    (sendEvent (some k) (.outdialDone result o.tag) s).modCtx k fun x => { x with outdialDone := true }
  | _, _ => s

/-- Step 5: how the channel is left. -/
def leaveChannel (k : ContextId) (cause : Byte) (s : State) : State :=
  if cause = codeLostClaim || cause = codeContention then freeContext k s
  else if cause = codeHighwayLost then
    match (s.at k).channel with
    | some c => freeContext k (setView c .unknown none (endDrive c (sendRelease c s)))
    | none => freeContext k s
  else enterClearing k s

/-- Whether a context has a call to end: it holds a channel and has not ended its call (R73). -/
def inCall (x : Context) : Bool :=
  match x.state with
  | .free => false
  | .claiming => false
  | .clearing => false
  | _ => true

/-- R73: a context that holds a channel ends its call with a cause. -/
def endCall (k : ContextId) (cause : Byte) (s : State) : State :=
  if inCall (s.at k) then
    leaveChannel k cause
      (sendEvent (some k) (.callEnded cause)
        (outdialDone k cause (windDown k cause (announceUnknown k s))))
  else s

end Sys2Proof.Machine
end

