-- ==== Sys2Proof/Machine/Tone.lean ====
section
/-! DEFINITION. The tones a context sends: their level, their sine, and the code byte of a sample (R81, R89, R139). -/
namespace Sys2Proof.Machine

/-! ### Sine waves in whole numbers

Angles are counted in units of a 327,680,000th of a turn, so that a tenth of a hertz is 4096 units in each of the 8000
samples of a second. Sines and linear values are scaled by powers of two; the error of a linear value is below a
thousandth (DESIGN CHOICE, log entry 7). -/

/-- The units of one turn. -/
def turn : Nat := 80000 * 4096

/-- The sine of an angle of the first quarter, 2^30 standing for 1: its series, up to the thirteenth power. -/
def quarterSine (a : Nat) : Nat :=
  let x := a * 6746518852 / turn
  let square := x * x / 2 ^ 30
  x * ([6, 20, 42, 72, 110, 156].foldr (fun d rest => 2 ^ 30 - square * rest / (2 ^ 30 * d)) (2 ^ 30)) / 2 ^ 30

/-- The sine of an angle, 2^30 standing for 1. -/
def sine (a : Nat) : Int :=
  let a := a % turn
  let quarter := turn / 4
  if a < quarter then quarterSine a
  else if a < 2 * quarter then quarterSine (2 * quarter - a)
  else if a < 3 * quarter then -(quarterSine (a - 2 * quarter) : Int)
  else -(quarterSine (4 * quarter - a) : Int)

/-- The peak linear value of a sine at a level of at most 0 dBm0, 2^16 standing for 1: 5666 at 0 dBm0, and the 200th root
of 10 less for each tenth of a decibel (R89). -/
def tonePeak (level : Int) : Nat :=
  5666 * (Nat.repeat (fun p => p * 278252959295809 / 2 ^ 48) (-level).toNat (2 ^ 48)) / 2 ^ 32

/-- The linear value of a tone at its sample n, 2^16 standing for 1: the sum of its sines, each at its frequency and its
level, from the phases with which the tone began (R81, R89, R139). -/
def toneWave (phase : Nat → Nat) (tone : List ToneLine) (n : Nat) : Int :=
  (tone.zipIdx.map fun x => (tonePeak x.1.level : Int) * sine (phase x.2 + 4096 * x.1.freq * n) / 2 ^ 30).sum

/-! ### Code bytes -/

def allCodes : List Byte := (List.range 256).map (BitVec.ofNat 8)

/-- The code bytes to which a linear value, 2^16 standing for 1, may be rounded: those that expand to the nearest value
not above it or to the nearest value not below it (R89). -/
def roundings (v : Int) : List Byte :=
  let values := allCodes.map expand
  let below := (values.filter fun x => decide (65536 * x ≤ v)).foldl max (-8031)
  let above := (values.filter fun x => decide (v ≤ 65536 * x)).foldl min 8031
  allCodes.filter fun c => expand c == below || expand c == above

/-- One of the roundings of a linear value. -/
def roundedBy (choice : Nat) (v : Int) : Byte :=
  let codes := roundings v
  codes.getD (choice % codes.length) 0x80

/-! ### The tone of a context -/

/-- A tone begins: its first sample takes new phases. -/
def startTone (k : ContextId) (s : State) : State := s.modCtx k fun x => { x with tone := .reset }

/-- The next sample of the tone that a context sends (R81, R139). The phases with which a tone begins and the rounding of
each sample are free values (DESIGN CHOICE, log entry 7). -/
def takeToneSample (k : ContextId) (tone : List ToneLine) (s : State) : State × Byte :=
  let x := (s.at k).tone
  let run : ToneRun := if x.sent = 0 then { phase := s.free, sent := 0 } else x
  let sample := roundedBy (Config.toneRounding s.free) (toneWave (Config.tonePhase run.phase) tone run.sent)
  ({ s.modCtx k fun x => { x with tone := { run with sent := run.sent + 1 } } with free := s.free + 1 }, sample)

end Sys2Proof.Machine
end

