-- ==== Sys2Proof/Machine/Voice.lean ====
section
/-! DEFINITION. Voice sessions: waiting, the answer script, playback and recording from their beginning to their end,
and a frame of the codec (R97 to R100, R138 to R149). -/
namespace Sys2Proof.Machine

/-! ### Waiting (R147) -/

/-- The idle timer of 20 s. -/
def idleTime : Nat := 20000
/-- The beep of 500 ms (R139). -/
def beepTime : Nat := 500
/-- The beep is a tone of 1400 Hz at −10 dBm0 (R139). -/
def beepTone : List ToneLine := [{ freq := 14000, level := -100 }]

/-- R147: the context takes WAITING, which belongs to no script. Of the items of the voice record it clears the script, its
step, the play target and the beep, and leaves the rest as the activity before left them (DESIGN CHOICE, log entry 89). -/
def enterWaiting (k : ContextId) (s : State) : State :=
  s.modVoice k fun v => { v with activity := .waiting, script := .none, step := none, target := none, beep := none,
                                 idle := some idleTime }

/-- What follows a recording that ended by itself: under the answer script the call ends (R140), otherwise the context
waits (DEDUCED, log entry 17). -/
def recordingOver (k : ContextId) (s : State) : State :=
  if (s.at k).voice.script = .answer then endCall k codeLocalDrop s else enterWaiting k s

/-! ### Recording (R144, R145) -/

/-- Ask for a deposit and turn the recording mark on (R144). -/
def beginDeposit (k : ContextId) (s : State) : State :=
  let v := (s.at k).voice
  let mailbox := v.recMailbox.getD 0
  let r := startDeposit k (homeStation s mailbox) mailbox v.recKind s
  (r.1.modVoice k fun v => { v with recTarget := some (.outbound r.2), depositWait := false }).modVcd k
    Vcd.startRecording

/-- R144: RECORDING begins. The block sequence and the block in build are cleared here already, also where the recording
mark does not turn on (DESIGN CHOICE, log entry 75). -/
def startRecording (k : ContextId) (mailbox : Nat) (kind : MsgKind) (maxBlocks : Nat) (s : State) : State :=
  let s := s.modVoice k fun v => { v with
    activity := .recording, target := none, recMailbox := some mailbox, recKind := kind, maxBlocks, handedOn := 0
    quietRun := 0, recTarget := none, depositWait := false, beep := none, idle := none }
  let s := s.modVcd k fun v => { v with sequence := 0, build := [], pendingNibble := none }
  if homeStation s mailbox = ownNumber s then
    match openForWriting mailbox (some kind) (.here k) s with
    | (s, .ok h) => (s.modVoice k fun v => { v with recTarget := some (.here h) }).modVcd k Vcd.startRecording
    | (s, .error cause) =>
      recordingOver k (dropRecording k (sendRecordDone k (ownNumber s) none (some 0) cause (some 0) s))
  else if (s.outbound k).isSome then s.modVoice k fun v => { v with depositWait := true }
  else beginDeposit k s

/-- A frame of session time at the encoder (R94), and the ends of a recording that fall on a finished block (R145). -/
def encodeFrame (k : ContextId) (sample : Byte) (s : State) : State :=
  if (s.at k).vcd.recording then
    let r := (s.at k).vcd.encode (configOf s).quietThreshold sample
    let s := s.modVcd k fun _ => r.1
    match r.2 with
    | none => s
    | some f =>
      match handOn k f s with
      | (s, some (h, report)) => recordingOver k (dropRecording k (reportClose k h codeStoreFull report s))
      | (s, none) =>
        let v := (s.at k).voice
        if (configOf s).silenceBlocks ≤ v.quietRun then recordingOver k (finishRecording k reasonSilence s)
        else if v.maxBlocks ≤ v.handedOn then recordingOver k (finishRecording k reasonMaxLength s)
        else s
  else s

/-- The RECORD_DONE of a deposit's outcome (R146). `asked` says whether its DEPOSIT_CLOSE was sent. -/
def reportDeposit (k : ContextId) (d : OutDeposit) (o : DepositOutcome) (s : State) : State :=
  match o with
  | .refused cause => sendRecordDone k d.home none (some 0) cause (some 0) s
  | .storeFull => sendRecordDone k d.home d.handle none codeStoreFull none s
  | .homeSilent => sendRecordDone k d.home d.handle none codeHomeSilent none s
  | .closed result blocks flags =>
    if d.closeSent && result = codeEmpty then sendRecordDone k d.home none (some 0) codeEmpty (some 0) s
    else sendRecordDone k d.home d.handle (some blocks) result (some flags) s

/-- A voice deposit's outcome reaches its recording: RECORD_DONE, and the end of the recording when it still runs
(R146). -/
def recordingDepositEnded (k : ContextId) (d : OutDeposit) (o : DepositOutcome) (s : State) : State :=
  let v := (s.at k).voice
  let running := v.activity = .recording && v.recTarget = some (.outbound d.serial)
  let s := reportDeposit k d o s
  if running then recordingOver k (abandonRecording k s) else s

/-! ### The answer script (R138, R139) -/

/-- R139: the beep step. -/
def startBeep (k : ContextId) (s : State) : State :=
  startTone k (s.modVoice k fun v => { v with
    activity := .beeping, step := some .beep, target := none, beep := some beepTime })

def inGreeting (v : Voice) : Bool := v.script == .answer && v.step == some .greeting

/-- What follows the end of a playback that was not replaced, once its reader has left (R138, R142, R148; that order is a
DESIGN CHOICE, log entry 74). A playback that ended before it began leaves the playback mark at UNDERRUN, as `beginPlay`
set it (DESIGN CHOICE, log entry 53). The play target goes absent here, and the play start stands (DESIGN CHOICE, log
entry 89). -/
def playbackOver (k : ContextId) (result : Byte) (s : State) : State :=
  let v := (s.at k).voice
  let s := s.modVoice k fun v => { v with activity := .none, target := none }
  if inGreeting v then startBeep k s
  else
    let s := sendPlayDone k result s
    if v.script = .outdialPlay && result != codeDigit then endCall k codeLocalDrop s else enterWaiting k s

/-- R76: discrimination ends with the decision VOICE, and the script's recording step begins (R139). -/
def discriminationEnds (k : ContextId) (s : State) : State :=
  let s := sendEvent (some k) (.callType 0) s
  let s := s.modCtx k fun x => { x with state := .connected, session := .voice, timer := none }
  let s := s.modVoice k fun v => { v with step := some .record }
  startRecording k ((s.at k).mailbox.getD 0) .voice (configOf s).maxBlocks s

/-- The beep has ended: the script waits for discrimination to end (R139, R76). -/
def beepEnds (k : ContextId) (s : State) : State :=
  let s := s.modVoice k fun v => { v with activity := .none, step := some .record, beep := none }
  if (s.at k).timer.isNone then discriminationEnds k s else s

/-! ### Playback (R97 to R100, R142) -/

/-- Load a block into the decoder (R98). -/
def loadBlock (k : ContextId) (b : Nat) (block : List Byte) (s : State) : State :=
  s.modVcd k fun v => { v with
    decPredictor := headerPredictor block, decIndex := headerIndex block, current := some (b, 0), mark := .playing }

/-- The header taken for a slot whose part 0 is missing in a playback (R97). -/
def playHeader : List Byte := voiceHeader 0 0 false false

/-- R98: the decoder moves to block b. -/
def moveDecoder (k : ContextId) (b : Nat) (s : State) : State :=
  match (s.at k).vcd.buffer.find b with
  | .ready _ block => loadBlock k b block s
  | .arriving i parts left =>
    let slot := (Slot.arriving i parts left).fill 0x80 playHeader
    let s := s.modVcd k fun v => { v with buffer := v.buffer.map fun x => if x.index = some b then slot else x }
    match slot with
    | .ready _ block => loadBlock k b block (fetchSettle k b s)
    | _ => s
  | _ => s.modVcd k fun v => { v with current := some (b, 0), mark := .underrun }

/-- Fill the EMPTY slots of a playback, from the block the decoder needs (R97). -/
def refillPlayback (k : ContextId) (needed : Nat) (s : State) : State :=
  let v := (s.at k).vcd
  match v.source with
  | none => s
  | some source =>
    let r := fillBuffer k source v.blocks needed v.buffer s
    r.1.modVcd k fun v => { v with buffer := r.2 }

/-- A VOICE message played to its end is marked HEARD (R100). -/
def markHeard (k : ContextId) (s : State) : State :=
  let v := (s.at k).vcd
  if v.kind = some .voice then
    match v.source with
    | some (.here h) => (markMessage h (some .heard) s).1
    | _ =>
      match s.fetch k with
      | some f =>
        offerOther (protocolCell s (homeAddress f.home) kindMsgMark (tagOf k) (beOpt2 f.handle ++ be1 0)) 0 none s
      | none => s
  else s

/-- R100: the position counter has reached the message length. For a fetched message the MSG_MARK of a VOICE message is
queued first, then FETCH_CLOSE, then PLAY_DONE (DESIGN CHOICE, log entry 74). -/
def playbackReachesEnd (k : ContextId) (s : State) : State :=
  playbackOver k codeEnd (stopPlayback k (markHeard k s))

/-- R99: the playback begins at its start position, rounded down to a block. -/
def beginDecoding (k : ContextId) (source : Source) (kind : MsgKind) (length blocks : Nat) (s : State) : State :=
  let b := min (s.at k).voice.start length / 1016
  let s := s.modVcd k fun v => { v with
    source := some source, kind := some kind, blocks, length, position := 1016 * b, buffer := .reset, current := none }
  if 1016 * b = length then playbackReachesEnd k s else moveDecoder k b (refillPlayback k b s)

/-- R142, R138: the open of a play target is granted. A kind that is not played ends the playback before it begins, with
the mark as `beginPlay` set it (DESIGN CHOICE, log entry 53). -/
def playGranted (k : ContextId) (source : Source) (kind : Option MsgKind) (length blocks : Nat) (s : State) : State :=
  let greeting := inGreeting (s.at k).voice
  match kind with
  | some .greeting => beginDecoding k source .greeting length blocks s
  | some .voice =>
    if greeting then playbackOver k codeNoSuch (leaveSource k (some source) s)
    else beginDecoding k source .voice length blocks s
  | _ => playbackOver k codeNoSuch (leaveSource k (some source) s)

/-- R142: PLAYING begins by opening the play target, with the decoder waiting in UNDERRUN. When the open is refused at
once the mark stays there, which no rule settles (DESIGN CHOICE, log entry 53). The message length and the position are 0
until the grant gives them, and stay 0 when the open is refused, and the codec has no source, kind or blocks of the
playback before (R99 speaks of the grant alone; DESIGN CHOICE, log entry 88). -/
def beginPlay (k : ContextId) (target : PlayTarget) (start : Nat) (s : State) : State :=
  let s := s.modVoice k fun v => { v with activity := .playing, target := some target, start, beep := none, idle := none }
  let s := s.modVcd k fun v => { v with
    buffer := .reset, current := none, position := 0, length := 0, mark := .underrun, source := none, kind := none
    blocks := 0 }
  let home := match target with
    | .message home _ => home
    | .greeting m => homeStation s m
  if home = ownNumber s then
    match readOpen target s.cfu.station k.val s with
    | (s, .ok g) => playGranted k (.here g.handle) (some g.kind) g.length g.blocks s
    | (s, .error _) => playbackOver k codeNoSuch s
  else
    match target with
    | .message _ h => startFetch k home (some h) none s
    | .greeting m => startFetch k home none (some m) s

/-- A fetch has ended by itself: its playback ends with the result that gives (R142). -/
def playFetchEnded (k : ContextId) (o : FetchOutcome) (s : State) : State :=
  let result := match o with
    | .homeSilent => codeHomeSilent
    | _ => codeNoSuch
  playbackOver k result (stopPlayback k s)

/-- The code at a nibble position of a block: the earlier sample of each pair in the high nibble (R94, R98). -/
def codeAt (block : List Byte) (n : Nat) : BitVec 4 :=
  let b := byteAt block (4 + n / 2)
  if n % 2 = 0 then b.extractLsb' 4 4 else b.extractLsb' 0 4

/-- The current block of the decoder, when its slot is READY. -/
def currentBlock (v : Vcd) : Option (Nat × Nat × List Byte) :=
  match v.current with
  | none => none
  | some (b, n) =>
    match v.buffer.find b with
    | .ready _ block => some (b, n, block)
    | _ => none

/-- A frame of session time at the decoder in PLAYING: one code (R93, R98). Answers the state with the sample. -/
def decodeFrame (k : ContextId) (s : State) : State × Byte :=
  let v := (s.at k).vcd
  match v.mark, currentBlock v with
  | .playing, some (b, n, block) =>
    let r := applyCode v.decPredictor v.decIndex (codeAt block n)
    (s.modVcd k fun v => { v with
      decPredictor := r.1, decIndex := r.2, current := some (b, n + 1), position := v.position + 1 }, compress r.1)
  | _, _ => (s, 0x80)

/-- What a decoded code completes: the playback, or the block (R98, R100). -/
def afterDecode (k : ContextId) (s : State) : State :=
  let v := (s.at k).vcd
  match v.mark, v.current with
  | .playing, some (b, n) =>
    if v.length ≤ v.position then playbackReachesEnd k s
    else if 1016 ≤ n then
      moveDecoder k (b + 1)
        (refillPlayback k (b + 1) (s.modVcd k fun v => { v with buffer := v.buffer.drop b }))
    else s
  | _, _ => s

/-- A slot of a playback has become READY: a decoder in UNDERRUN for it goes on (R98). While the held mark is set the
decoder stands, and goes on at the return (R101). -/
def resumeDecoder (k : ContextId) (s : State) : State :=
  let v := (s.at k).vcd
  match (s.at k).held, v.mark, v.current with
  | false, .underrun, some (b, _) =>
    match v.buffer.find b with
    | .ready _ block => loadBlock k b block s
    | _ => s
  | _, _, _ => s

/-- The return of a held playback: a fetch asks for the blocks it did not ask for, and a decoder whose block has come goes
on (R101, R135; DEDUCED, log entry 67). -/
def resumePlayback (k : ContextId) (s : State) : State :=
  let v := (s.at k).vcd
  resumeDecoder k (match v.source, v.current with
    | some .fetched, some (b, _) => refillPlayback k b s
    | _, _ => s)

/-! ### Replacement (R141) -/

/-- R141: the current activity is ended for a replacement, with its own report, and the script is none. The play target
goes absent with it, and the items of a recording other than its target stand (DESIGN CHOICE, log entry 89). -/
def endActivity (k : ContextId) (s : State) : State :=
  let s := match (s.at k).voice.activity with
    | .playing => sendPlayDone k codeStopped (stopPlayback k s)
    | .recording => finishRecording k reasonStopped s
    | _ => s
  s.modVoice k fun v => { v with activity := .none, script := .none, step := none, target := none, beep := none,
                                 idle := none }

end Sys2Proof.Machine
end

