-- ==== Sys2Proof/Machine/Fax.lean ====
section
/-! DEFINITION. Fax sessions: receive, send, trainings, pages and their ends (chapter 10). -/
namespace Sys2Proof.Machine

/-- The 6 s wait of a phase. -/
def faxWait : Nat := 6000

/-- Hand a control frame to the pump (R150). -/
def sendControl (k : ContextId) (f : ControlFrame) (s : State) : State :=
  s.modPump k fun p => { p with control := p.control ++ [f] }

def setPump (k : ContextId) (p : PumpState) (s : State) : State := s.modPump k fun x => { x with state := p }

def enterPhase (k : ContextId) (phase : FaxPhase) (wait : Option Nat) (s : State) : State :=
  s.modFax k fun f => { f with phase, wait }

/-- The pump counts as trained: the context's tone detector stops for the rest of the call (R85, R153, R158, R167). -/
def pumpTrained (k : ContextId) (s : State) : State := s.modDetector k fun d => { d with stopped := true }

/-- FAX_PAGE for a page judged (R155, R160). -/
def sendFaxPage (k : ContextId) (page verdict : Nat) (s : State) : State := sendEvent (some k) (.faxPage page verdict) s

/-- 12, Codes: page verdict. -/
def verdictGood : Nat := 0
def verdictRetrain : Nat := 1
def verdictBad : Nat := 2

/-! ### The end of a session by its own rules (R156, R160, R161) -/

/-- The reader leaves, then FAX_DONE, and the end of the call (R160, R161). A FETCH_CLOSE is queued before the FAX_DONE,
and so is what closing the message brought (DESIGN CHOICE, log entry 85). -/
def faxSessionEnds (k : ContextId) (result : Byte) (s : State) : State :=
  let s := leaveFaxSource k s
  let s := sendFaxDone k result s
  let s := (clearFax k s).modCtx k fun x => { x with session := .none }
  endCall k (if result = codeOk then codeLocalDrop else codeFaxFailed) s

/-- Send DISCONNECT and enter DISCONNECTING with the result fixed (R155, R156, R160). -/
def sendDisconnect (k : ContextId) (result : Byte) (s : State) : State :=
  enterPhase k .disconnecting none
    (sendControl k .disconnect (s.modFax k fun f => { f with result := some result, build := [] }))

/-- A receive ends before its DISCONNECTING: the close, then DISCONNECT or the end at once (R156). -/
def endReceive (k : ContextId) (frame : Bool) (close : Option Byte) (result : Byte) (s : State) : State :=
  let s := match close with
    | some reason => closeFaxTarget k reason s
    | none => s.modFax k fun f => { f with target := none, build := [] }
  if frame then sendDisconnect k result s else faxSessionEnds k result s

/-- A send ends: DISCONNECT when its first training has begun, else at once (R157, R160). -/
def endSend (k : ContextId) (result : Byte) (s : State) : State :=
  if (s.at k).fax.trainingBegun then sendDisconnect k result s else faxSessionEnds k result s

/-! ### Receive (R152 to R155) -/

/-- The target is opened or asked for: CAPABILITY goes out (R152). -/
def awaitMode (k : ContextId) (s : State) : State := enterPhase k .awaitMode (some faxWait) s

def sendCapability (k : ContextId) (s : State) : State :=
  awaitMode k (sendControl k (.capability (configOf s).faxMaxRate) s)

/-- Ask for the deposit of a receive (R152). -/
def beginFaxDeposit (k : ContextId) (s : State) : State :=
  let mailbox := (s.at k).fax.mailbox
  let r := startDeposit k (homeStation s mailbox) mailbox .fax s
  sendCapability k (r.1.modFax k fun f => { f with target := some (.outbound r.2) })

/-- A fax session takes the context from its voice or discrimination part. -/
def enterFaxSession (k : ContextId) (role : FaxRole) (s : State) : State :=
  setPump k .control
    (s.modCtx k fun x => { x with
      state := .connected, session := .fax, timer := none, voice := .reset, fax := { Fax.reset with role := some role } })

/-- R152: a fax receive into a mailbox. -/
def startFaxReceive (k : ContextId) (mailbox : Nat) (s : State) : State :=
  let s := (enterFaxSession k .receive s).modFax k fun f => { f with mailbox, rate := (configOf s).faxMaxRate }
  if homeStation s mailbox = ownNumber s then
    match openForWriting mailbox (some .fax) (.here k) s with
    | (s, .ok h) => sendCapability k (s.modFax k fun f => { f with target := some (.here h) })
    | (s, .error cause) => faxSessionEnds k cause s
  else if (s.outbound k).isSome then enterPhase k .opening none s
  else beginFaxDeposit k s

/-- A TRAIN_BAD and what follows it (R153). -/
def trainBadSent (k : ContextId) (s : State) : State :=
  let s := (sendControl k .trainBad s).modFax k fun f => { f with badTrainings := f.badTrainings + 1 }
  if 4 ≤ (s.at k).fax.badTrainings then endReceive k true (some reasonStopped) codeFaxFailed s
  else awaitMode k (setPump k .control s)

/-- R153: a MODE taken in AWAIT_MODE or AWAIT_PAGE. -/
def takeMode (k : ContextId) (rate : Nat) (s : State) : State :=
  if (configOf s).faxMaxRate < rate then trainBadSent k s
  else
    let s := s.modFax k fun f => { f with rate }
    let s := s.modQmn k fun q => { q with readings := 0 }
    enterPhase k .training none (setPump k (.trainingReceive rate) s)

/-- The highest index below `n` whose threshold bears Q; index 0 always does (R162). -/
def ceilingBelow (q : Nat) : List (Nat × Nat) → Nat
  | [] => 0
  | (index, level) :: rest => if q ≤ 16 * level then index else ceilingBelow q rest

/-- The thresholds L_k of R162, the highest index first. -/
def rateLevels : List (Nat × Nat) :=
  [(11, 52), (10, 76), (9, 110), (8, 160), (7, 230), (6, 330), (5, 480), (4, 700), (3, 1000), (2, 1500), (1, 2400),
   (0, 4095)]

/-- R162: the ceiling over indices 0..11. -/
def ceilingOf (q : Nat) : Nat := ceilingBelow q rateLevels
/-- R153: the ceiling over indices 0..5. -/
def faxCeilingOf (q : Nat) : Nat := ceilingBelow q (rateLevels.drop 6)

/-- R162: Q moves by an eighth of the difference, truncated toward zero; the first reading of a training sets it. -/
def moveQuality (q : Option Nat) (first : Bool) (r : Nat) : Nat :=
  match q, first with
  | some q, false => ((q : Int) + Int.tdiv ((16 * r : Nat) - (q : Int)) 8).toNat
  | _, _ => 16 * r

/-- R162: a reading of a training moves Q and is counted. -/
def Qmn.trainingStep (q : Qmn) (r : Nat) : Qmn :=
  { q with quality := some (moveQuality q.quality (q.readings == 0) r), readings := q.readings + 1 }

/-- A reading of a fax training the part receives (R153). -/
def faxReading (k : ContextId) (r : Nat) (s : State) : State :=
  let s := s.modQmn k fun q => q.trainingStep r
  let x := s.at k
  if x.qmn.readings < 24 then s
  else if x.fax.rate ≤ faxCeilingOf (x.qmn.quality.getD 0) then
    let s := (sendControl k .trainGood s).modFax k fun f => { f with badTrainings := 0 }
    enterPhase k .awaitPage (some faxWait) (pumpTrained k (setPump k (.running x.fax.rate) s))
  else trainBadSent k s

/-- The next n free bytes (DESIGN CHOICE, log entry 8). -/
def takeFreeBytes (n : Nat) (s : State) : State × List Byte :=
  ({ s with free := s.free + n }, (List.range n).map fun i => Config.freeByte (s.free + i))

/-- Hand a fax block on to the store target (R154, R155); the payload beyond the valid bytes is not stated. Answers
whether a local append failed. -/
def handFaxBlock (k : ContextId) (payload : List Byte) (pageEnd : Bool) (s : State) : State × Bool :=
  let f := (s.at k).fax
  let r := takeFreeBytes (508 - payload.length) s
  let block := faxHeader payload.length (f.pagesDone + 1) pageEnd false ++ payload ++ r.2
  match f.target with
  | some (.here h) =>
    match appendBlock h (.here k) block 0 r.1 with
    | (s, .storeFull _) => (s, true)
    | (s, _) => (s, false)
  | some (.outbound serial) => (handToDeposit k serial none block pageEnd (0 < f.bad) r.1, false)
  | none => (r.1, false)

/-- A local append has failed with STORE_FULL (R156). -/
def faxStoreFull (k : ContextId) (s : State) : State := endReceive k true none codeStoreFull s

/-- The bytes of a good frame join the block in build (R154). -/
def buildPage (k : ContextId) (data : List Byte) (s : State) : State :=
  let all := (s.at k).fax.build ++ data
  if all.length ≤ 508 then s.modFax k fun f => { f with build := all }
  else
    match handFaxBlock k (all.take 508) false s with
    | (s, true) => faxStoreFull k s
    | (s, false) => s.modFax k fun f => { f with build := all.drop 508 }

/-- R151, R154: a fax frame taken in AWAIT_PAGE or PAGE. A repeat is discarded and does not restart the wait (DESIGN
CHOICE, log entry 84). -/
def takeFaxFrame (k : ContextId) (good : Bool) (number : Nat) (data : List Byte) (s : State) : State :=
  let begun := s.modFax k fun f =>
    if f.phase = .awaitPage then { f with frames := 0, bad := 0, expected := 0, build := [] } else f
  let d := (number + 256 - (begun.at k).fax.expected) % 256
  if good && 128 ≤ d then s
  else
    let s := enterPhase k .page (some faxWait) begun
    if good then
      buildPage k data (s.modFax k fun f => { f with
        frames := satAdd 65535 f.frames (d + 1), bad := satAdd 65535 f.bad d, expected := (number + 1) % 256 })
    else
      s.modFax k fun f => { f with
        frames := satAdd 65535 f.frames 1, bad := satAdd 65535 f.bad 1, expected := (f.expected + 1) % 256 }

/-- R155: the verdict on a page. -/
def pageVerdict (frames bad : Nat) : Nat :=
  if 16 * bad ≤ frames then verdictGood else if 4 * bad ≤ frames then verdictRetrain else verdictBad

/-- A kept page: its last block, the page end, pages done (R155). Answers whether a local append failed. -/
def keepPage (k : ContextId) (s : State) : State × Bool :=
  let f := (s.at k).fax
  match handFaxBlock k f.build true s with
  | (s, true) => (s, true)
  | (s, false) =>
    let s := match f.target with
      | some (.here h) => (endPage h (.here k) (0 < f.bad) s).1
      | _ => s
    (s.modFax k fun f => { f with build := [], pagesDone := satAdd 65535 f.pagesDone 1 }, false)

/-- A page rolled back (R155). -/
def undoPage (k : ContextId) (s : State) : State :=
  let f := (s.at k).fax
  let s := s.modFax k fun f => { f with build := [] }
  match f.target with
  | some (.here h) => (rollBack h (.here k) s).1
  | some (.outbound serial) => askRollback k serial (f.pagesDone + 1) s
  | none => s

/-- What follows a verdict (R155). -/
def afterVerdict (k : ContextId) (verdict : Nat) (last : Bool) (s : State) : State :=
  if verdict = verdictBad then awaitMode k (setPump k .control s)
  else if last then sendDisconnect k codeOk (closeFaxTarget k reasonPagesDone s)
  else if verdict = verdictGood then enterPhase k .awaitPage (some faxWait) s
  else awaitMode k (setPump k .control s)

/-- The control frame of a verdict. -/
def verdictFrame (verdict : Nat) : ControlFrame :=
  if verdict = verdictGood then .pageGood else if verdict = verdictRetrain then .pageRetrain else .pageBad

/-- R155: a PAGE_END taken in AWAIT_PAGE or PAGE. -/
def takePageEnd (k : ContextId) (last : Bool) (s : State) : State :=
  let s := s.modFax k fun f =>
    if f.phase = .awaitPage then { f with frames := 0, bad := 0, expected := 0, build := [] } else f
  let f := (s.at k).fax
  let page := f.pagesDone + 1
  let verdict := pageVerdict f.frames f.bad
  let done := if verdict = verdictBad then (undoPage k s, false) else keepPage k s
  match done with
  | (s, true) => faxStoreFull k s
  | (s, false) => afterVerdict k verdict last (sendFaxPage k page verdict (sendControl k (verdictFrame verdict) s))

/-! ### Send (R157 to R160) -/

/-- MODE goes out and the pump trains as the sending end (R157, R158, R160). -/
def trainSend (k : ContextId) (s : State) : State :=
  let rate := (s.at k).fax.rate
  let s := (sendControl k (.mode rate) s).modFax k fun f => { f with trainingBegun := true, keptVerdict := none }
  enterPhase k .sendTraining none (setPump k (.trainingSend rate) s)

/-- R157: a CAPABILITY taken once the open has been granted. -/
def takeCapability (k : ContextId) (c : Nat) (s : State) : State :=
  trainSend k (s.modFax k fun f =>
    { f with rate := min (min c 5) (configOf s).faxMaxRate, keptCapability := none })

/-- Ask for the block at an index when it is not in the source buffer and the message has it (R159). -/
def askFaxBlock (k : ContextId) (index : Nat) (s : State) : State :=
  let f := (s.at k).fax
  match f.source with
  | none => s
  | some source =>
    if f.blocks ≤ index || !f.buffer.hasRoom || (f.buffer.find index).index = some index then s
    else
      let r := askBlock k source index s
      r.1.modFax k fun f => { f with buffer := f.buffer.put r.2 }

/-- The source buffer for a page that begins at a block: a slot that holds a needed block is kept as it stands, the
others are emptied, and what is missing is asked for (R159, R160). -/
def bufferFrom (k : ContextId) (b : Nat) (s : State) : State :=
  let f := (s.at k).fax
  let keeps (x : Slot) : Bool := x.index == some b || x.index == some (b + 1)
  let s := forEach ([f.buffer.a, f.buffer.b].filter fun x => !keeps x)
    (fun x t => match x.index with
      | some i => fetchSettle k i t
      | none => t) s
  let s := s.modFax k fun f => { f with buffer := f.buffer.map fun x => if keeps x then x else .empty }
  askFaxBlock k (b + 1) (askFaxBlock k b s)

/-- Cut whole frames of 256 bytes from the data in hand. -/
def cutFrames : Nat → Nat → List Byte → List (Nat × List Byte) × Nat × List Byte
  | 0, n, data => ([], n, data)
  | fuel + 1, n, data =>
    if data.length < 256 then ([], n, data)
    else
      let r := cutFrames fuel ((n + 1) % 256) (data.drop 256)
      ((n, data.take 256) :: r.1, r.2)

/-- The data of one READY block joins the frames; at the page's end the last frame is completed with 00h (R159). -/
def feedBlock (k : ContextId) (b : Nat) (block : List Byte) (s : State) : State :=
  let f := (s.at k).fax
  let data := f.frame ++ (block.drop 4).take (faxValid block)
  let ends := blockTopFlag block || f.blocks ≤ b + 1
  let data := if ends && data.length % 256 != 0 then fitTo ((data.length / 256 + 1) * 256) 0 data else data
  let r := cutFrames 4 f.frameNumber data
  let s := s.modFax k fun f => { f with
    framesOut := f.framesOut ++ r.1, frameNumber := r.2.1, frame := r.2.2
    buffer := f.buffer.drop b, sendBlock := b + 1, sendOffset := 0
    pageEnd := if ends then some (b, f.blocks ≤ b + 1) else none }
  let x := (s.at k).fax
  match x.source with
  | none => s
  | some source =>
    let r := fillBuffer k source x.blocks (b + 1) x.buffer s
    r.1.modFax k fun f => { f with buffer := r.2 }

/-- Feed every block that is READY until the page ends or a block is awaited. -/
def feedPage (k : ContextId) : Nat → State → State
  | 0, s => s
  | n + 1, s =>
    let f := (s.at k).fax
    match f.phase, f.pageEnd, f.buffer.find f.sendBlock with
    | .sending, none, .ready b block => feedPage k n (feedBlock k b block s)
    | _, _, _ => s

/-- Feed the page: at most as many blocks stand in it as in the message. While the context is held the pump sends nothing
(R150), so its blocks wait for the return (DEDUCED, log entry 67). -/
def feed (k : ContextId) (s : State) : State :=
  if (s.at k).held then s else feedPage k ((s.at k).fax.blocks + 1) s

/-- The block that an empty source buffer needs first: the next of the page being sent, or the first of the page that is to
be sent (R159). -/
def faxNeeds (f : Fax) : Nat :=
  if f.phase = .sending || f.phase = .awaitPageVerdict then f.sendBlock else f.pageStart

/-- The return of a held fax session: a send asks for the blocks it did not ask for, and its page goes on (R135, R150;
DEDUCED, log entry 67). -/
def resumeFax (k : ContextId) (s : State) : State :=
  let f := (s.at k).fax
  match f.source with
  | some .fetched =>
    let r := fillBuffer k .fetched f.blocks (faxNeeds f) f.buffer s
    feed k (r.1.modFax k fun f => { f with buffer := r.2 })
  | _ => s

/-- R158, R159: SENDING the page that stands at page start. -/
def sendPage (k : ContextId) (s : State) : State :=
  let s := s.modFax k fun f => { f with
    sendBlock := f.pageStart, sendOffset := 0, pageEnd := none, frame := [], frameNumber := 0, framesOut := [] }
  let start := (s.at k).fax.pageStart
  feed k (bufferFrom k start (enterPhase k .sending none s))

/-- R157: the open of a send is granted. -/
def faxGranted (k : ContextId) (source : Source) (kind : Option MsgKind) (blocks : Nat) (s : State) : State :=
  if kind = some .fax then
    let s := s.modFax k fun f => { f with source := some source, granted := true, blocks }
    let s := bufferFrom k 0 s
    match (s.at k).fax.keptCapability with
    | some c => takeCapability k c s
    | none => s
  else endSend k codeNoSuch (leaveSource k (some source) s)

/-- R157: a fax send of a message address. -/
def startFaxSend (k : ContextId) (home handle : Nat) (s : State) : State :=
  let s := enterPhase k .awaitCapability (some faxWait) (enterFaxSession k .send s)
  if home = ownNumber s then
    match readOpen (.message home handle) s.cfu.station k.val s with
    | (s, .ok g) => faxGranted k (.here g.handle) (some g.kind) g.blocks s
    | (s, .error _) => endSend k codeNoSuch s
  else startFetch k home (some handle) none s

/-- A fetch has ended by itself under a fax send (R157, R160); nothing changes once DISCONNECT is being sent (R156). -/
def faxFetchEnded (k : ContextId) (o : FetchOutcome) (s : State) : State :=
  let s := endFetch k s
  if (s.at k).fax.phase = .disconnecting then s
  else
    let s := s.modFax k fun f => { f with source := none }
    endSend k (match o with
      | .homeSilent => codeHomeSilent
      | _ => codeNoSuch) s

/-- R158: a training verdict taken at or after the training's end. -/
def takeTrainVerdict (k : ContextId) (good : Bool) (s : State) : State :=
  if good then
    let s := s.modFax k fun f => { f with badTrainings := 0 }
    sendPage k (pumpTrained k (setPump k (.running (s.at k).fax.rate) s))
  else
    let s := s.modFax k fun f => { f with badTrainings := f.badTrainings + 1 }
    let f := (s.at k).fax
    if 4 ≤ f.badTrainings || f.rate = 0 then endSend k codeFaxFailed s
    else trainSend k (s.modFax k fun f => { f with rate := f.rate - 1 })

/-- R158: the pump reports the end of a training sent. -/
def sendTrainingOver (k : ContextId) (s : State) : State :=
  let kept := (s.at k).fax.keptVerdict
  let s := enterPhase k .awaitTrainVerdict (some faxWait) (s.modFax k fun f => { f with keptVerdict := none })
  match kept with
  | some good => takeTrainVerdict k good s
  | none => s

/-- R159: the page's last frame has gone out. -/
def pageSent (k : ContextId) (last : Bool) (s : State) : State :=
  enterPhase k .awaitPageVerdict (some faxWait) (sendControl k (.pageEnd last) s)

/-- A page acknowledged as kept (R160). -/
def pageKept (k : ContextId) (verdict : Nat) (s : State) : State :=
  let f := (s.at k).fax
  let endBlock := (f.pageEnd.map (·.1)).getD f.pageStart
  (sendFaxPage k (f.pagesDone + 1) verdict s).modFax k fun f => { f with
    pagesDone := satAdd 65535 f.pagesDone 1, resend := false, pageStart := endBlock + 1 }

/-- R160: PAGE_GOOD. -/
def takePageGood (k : ContextId) (s : State) : State :=
  let last := ((s.at k).fax.pageEnd.map (·.2)).getD true
  let s := pageKept k verdictGood s
  if last then sendDisconnect k codeOk s else sendPage k s

/-- R160: PAGE_RETRAIN. -/
def takePageRetrain (k : ContextId) (s : State) : State :=
  let last := ((s.at k).fax.pageEnd.map (·.2)).getD true
  let s := pageKept k verdictRetrain s
  if last then sendDisconnect k codeOk s
  else trainSend k (s.modFax k fun f => { f with rate := f.rate - 1 })

/-- R160: PAGE_BAD. -/
def takePageBad (k : ContextId) (s : State) : State :=
  let f := (s.at k).fax
  let s := sendFaxPage k (f.pagesDone + 1) verdictBad s
  if f.resend || f.rate = 0 then endSend k codeFaxFailed (s.modFax k fun f => { f with resend := true })
  else trainSend k (s.modFax k fun f => { f with resend := true, rate := f.rate - 1 })

/-! ### What reaches a fax session from elsewhere -/

/-- R150: a DISCONNECT from the far machine, before the session's own ending. -/
def takeDisconnect (k : ContextId) (s : State) : State :=
  let f := (s.at k).fax
  if f.role = some .receive then endReceive k false (some reasonStopped) codeFaxFailed s
  else faxSessionEnds k codeFaxFailed s

/-- The wait timer of a phase has run out (R156, R160). -/
def faxWaitOver (k : ContextId) (s : State) : State :=
  let f := (s.at k).fax
  let s := s.modFax k fun f => { f with wait := none }
  if f.role = some .receive then endReceive k true (some reasonStopped) codeFaxFailed s
  else endSend k codeFaxFailed s

/-- A receive's deposit has ended (R152, R156). In a hold too the receive ends at the cell or the end itself, as the
table of R156 has it (DESIGN CHOICE, log entry 76). -/
def faxDepositEnded (k : ContextId) (d : OutDeposit) (o : DepositOutcome) (s : State) : State :=
  let x := s.at k
  if x.session = .fax && x.fax.target = some (.outbound d.serial) && x.fax.phase != .disconnecting then
    endReceive k true none (match o with
      | .refused cause => cause
      | .storeFull => codeStoreFull
      | .homeSilent => codeHomeSilent
      | .closed _ _ _ => codeClosedByHome) s
  else s

end Sys2Proof.Machine
end

