-- ==== Sys2Proof/Machine/Data.lean ====
section
/-! DEFINITION. Data sessions: the quality monitor, shifts and retrains, the block link and the gateway byte flow
(chapter 11). -/
namespace Sys2Proof.Machine

/-! ### Link blocks and the byte flow (R170 to R174) -/

/-- The resend timer of 1.5 s and the remote hold of 30 s. -/
def resendTime : Nat := 1500
def remoteHoldTime : Nat := 30000

/-- Hand a link block to the pump. -/
def sendLink (k : ContextId) (f : LinkFrame) (s : State) : State :=
  s.modLkc k fun l => { l with linkOut := l.linkOut ++ [f] }

/-- Link blocks move only while the session is UP and the context is not held (R170). -/
def linkMoves (x : Context) : Bool := x.qmn.phase == some .up && !x.held

/-- R173: the flow mark follows the fill of the send buffer. -/
def checkFlow (k : ContextId) (s : State) : State :=
  let l := (s.at k).lkc
  if !l.flowStop && 768 ≤ l.sendBuffer.length then
    (sendEvent (some k) (.flow false) s).modLkc k fun l => { l with flowStop := true }
  else if l.flowStop && l.sendBuffer.length ≤ 256 then
    (sendEvent (some k) (.flow true) s).modLkc k fun l => { l with flowStop := false }
  else s

/-- R170: a new DATA block from the head of the send buffer, when one may be made. -/
def makeBlock (k : ContextId) (s : State) : State :=
  let l := (s.at k).lkc
  if linkMoves (s.at k) && l.remoteHold.isNone && l.outstanding.length < 6 && l.sendBuffer != [] then
    let bytes := l.sendBuffer.take 64
    let s := s.modLkc k fun l => { l with
      sendBuffer := l.sendBuffer.drop 64
      outstanding := l.outstanding ++ [{ sequence := l.nextSequence, bytes, resends := 0 }]
      nextSequence := l.nextSequence + 1
      resend := if l.outstanding = [] then some resendTime else l.resend }
    checkFlow k (sendLink k (.data l.nextSequence bytes) s)
  else s

/-- Make every block the outstanding list has room for: six at most. -/
def pumpLink (k : ContextId) (s : State) : State := forEach [1, 2, 3, 4, 5, 6] (fun _ t => makeBlock k t) s

/-- R172: after a HOLD, ACK once the free room has risen to 64 bytes. -/
def releaseRemote (k : ContextId) (s : State) : State :=
  let l := (s.at k).lkc
  if linkMoves (s.at k) && l.holdSent && l.rxBuffer.length + 64 ≤ 1024 then
    (sendLink k (.ack l.expected) s).modLkc k fun l => { l with holdSent := false }
  else s

/-- R174: offer the bytes at the head of the receive buffer as one DATA_RX; refused, it is kept. -/
def offerDataRx (k : ContextId) (n : Nat) (s : State) : State × Bool :=
  let bytes := (s.at k).lkc.rxBuffer.take n
  match offerStream (.dataRx k) (ownCell s 5 gateway kindDataRx (tagOf k) bytes) s with
  | (s, true) => (s.modLkc k fun l => { l with rxBuffer := l.rxBuffer.drop n, rxHeld := none }, true)
  | (s, false) => (s.modLkc k fun l => { l with rxHeld := some n }, false)

def offerAll (k : ContextId) : Nat → State → State
  | 0, s => s
  | n + 1, s =>
    let l := (s.at k).lkc
    if l.rxBuffer = [] || l.rxHeld.isSome then s
    else
      match offerDataRx k (min 64 l.rxBuffer.length) s with
      | (s, true) => offerAll k n s
      | (s, false) => s

/-- R174: pass on the receive buffer, at most 17 cells. -/
def pumpRx (k : ContextId) (s : State) : State := releaseRemote k (offerAll k 17 s)

/-- Room has appeared for a DATA_RX that was held (R29, R174). -/
def reofferRx (k : ContextId) (s : State) : State :=
  match (s.at k).lkc.rxHeld with
  | none => s
  | some n =>
    match offerDataRx k n s with
    | (s, true) => pumpRx k s
    | (s, false) => s

/-- R165: every outstanding block again in order, with the resend timer restarted. -/
def resendAll (k : ContextId) (s : State) : State :=
  let out := (s.at k).lkc.outstanding
  let s := forEach out (fun b t => sendLink k (.data b.sequence b.bytes) t) s
  s.modLkc k fun l => { l with resend := if l.outstanding = [] then none else some resendTime }

/-- The end of a remote hold: the resend timer restarts when blocks remain (R171). -/
def endRemoteHold (l : Lkc) : Lkc :=
  if l.remoteHold.isSome then
    { l with remoteHold := none, resend := if l.outstanding = [] then l.resend else some resendTime }
  else l

/-- R170: how many blocks an ACK(n) removes, or none when it is discarded. -/
def ackCount (l : Lkc) (n : BitVec 4) : Option Nat :=
  match l.outstanding with
  | [] => if n = l.nextSequence then some 0 else none
  | b :: _ =>
    let d := (n - b.sequence).toNat
    if d ≤ l.outstanding.length then some d else none

/-- R170: the blocks acknowledged leave the list. -/
def ackBlocks (l : Lkc) (d : Nat) : Lkc :=
  if d = 0 then l
  else
    let rest := l.outstanding.drop d
    { l with outstanding := rest, resend := if rest = [] then none else some resendTime }

/-- R170, R171: an ACK from the remote modem. -/
def takeAck (k : ContextId) (n : BitVec 4) (s : State) : State :=
  match ackCount (s.at k).lkc n with
  | none => s
  | some d => pumpLink k (s.modLkc k fun l => endRemoteHold (ackBlocks l d))

/-- R171: a HOLD from the remote modem, first taken as an ACK by R170, which lets the blocks go that it makes room for, and
then stopping new blocks (DEDUCED, log entry 39). -/
def takeHold (k : ContextId) (n : BitVec 4) (s : State) : State :=
  let s := match ackCount (s.at k).lkc n with
    | some d => pumpLink k (s.modLkc k fun l => ackBlocks l d)
    | none => s
  s.modLkc k fun l => { l with resend := none, remoteHold := some (l.remoteHold.getD remoteHoldTime) }

/-- R172: a DATA block with a good check. -/
def takeLinkData (k : ContextId) (sequence : BitVec 4) (data : List Byte) (s : State) : State :=
  let l := (s.at k).lkc
  if sequence != l.expected then sendLink k (.ack l.expected) s
  else if l.rxBuffer.length + data.length ≤ 1024 then
    let s := s.modLkc k fun l => { l with
      rxBuffer := l.rxBuffer ++ data, expected := l.expected + 1, holdSent := false }
    pumpRx k (sendLink k (.ack (l.expected + 1)) s)
  else (sendLink k (.hold l.expected) s).modLkc k fun l => { l with holdSent := true }

/-! ### The session (R163 to R169) -/

/-- The training timer of 10 s. -/
def trainingTime : Nat := 10000

/-- The counts that every shift and training sets to 0 (R163, R164). -/
def Qmn.clearCounts (q : Qmn) : Qmn := { q with fallback := 0, stepUp := 0, windowReadings := 0, errors := 0 }

/-- R169: a data session begins. -/
def startData (k : ContextId) (mode : DataMode) (bounds : Nat × Nat) (s : State) : State :=
  s.modCtx k fun x => { x with
    state := .connected, session := .data, timer := none, voice := .reset, lkc := .reset
    qmn := { Qmn.reset with
      phase := some .training, mode, min := bounds.1, max := bounds.2, rate := bounds.2, target := bounds.2
      timer := some trainingTime }
    pump := { state := .trainingData bounds.2 mode, control := [] } }

/-- A data session ends by its own rules (R169). -/
def dataEnds (k : ContextId) (cause : Byte) (s : State) : State := endCall k cause s

/-- R166: a retrain begins, unless four have begun already. -/
def retrain (k : ContextId) (target : Nat) (reason : RateReason) (s : State) : State :=
  let q := (s.at k).qmn
  if 4 ≤ q.retrains then dataEnds k codeLineQuality s
  else
    let s := s.modQmn k fun q => { q.clearCounts with
      phase := some .retraining, target, reason, readings := 0, retrains := q.retrains + 1, timer := some trainingTime }
    setPump k (.trainingData target q.mode) s

/-- R166: a training in flight begins again from its start. -/
def trainAgain (k : ContextId) (s : State) : State :=
  s.modQmn k fun q => { q with readings := 0, timer := some trainingTime }

/-- R166: a retrain asked for TIMING, RETURN or REMOTE in any phase. -/
def askRetrain (k : ContextId) (reason : RateReason) (s : State) : State :=
  let q := (s.at k).qmn
  match q.phase with
  | some .training => trainAgain k s
  | some .retraining => trainAgain k s
  | some .up => retrain k q.rate reason s
  | some .shifting => retrain k q.target reason s
  | none => s

/-- R165: a shift begins. -/
def beginShift (k : ContextId) (target : Nat) (reason : RateReason) (s : State) : State :=
  let s := s.modQmn k fun q => { q.clearCounts with phase := some .shifting, target, reason }
  setPump k (.shifting target) s

/-- The session is UP at its target: the link sends again and resumes (R165, R167). -/
def comeUp (k : ContextId) (s : State) : State :=
  let s := s.modQmn k fun q => { q.clearCounts with phase := some .up, rate := q.target, timer := none }
  setPump k (.running (s.at k).qmn.rate) s

/-- The link resumes at the end of a shift or training, which is where a shift or retrain ends the remote hold (R171;
DEDUCED, log entry 90): the outstanding blocks again, new blocks, then the ACK owed after a HOLD (R165, R172; DESIGN
CHOICE, log entry 78). -/
def resumeLink (k : ContextId) (s : State) : State :=
  releaseRemote k (pumpLink k (resendAll k (s.modLkc k endRemoteHold)))

/-- R165: the pump reports the shift ended. -/
def shiftOver (k : ContextId) (s : State) : State :=
  let q := (s.at k).qmn
  resumeLink k (sendEvent (some k) (.dataRate q.target q.reason) (comeUp k s))

/-- R167: a training has ended at its sixteenth reading. The pump counts as trained, which stops the tone detector (R85), at
the first UP by whatever training, also one that a CEILING retrain led to, although DATA_UP is told after the first
training alone (DESIGN CHOICE, log entry 18). -/
def trainingOver (k : ContextId) (s : State) : State :=
  let q := (s.at k).qmn
  let ceiling := ceilingOf (q.quality.getD 0)
  if ceiling < q.min then dataEnds k codeLineQuality s
  else if ceiling < q.target then retrain k (max q.min ceiling) .ceiling s
  else
    let s := pumpTrained k (comeUp k s)
    let s := if q.phase = some .training then sendEvent (some k) (.dataUp q.target) s
      else if q.target != q.rate then
        sendEvent (some k) (.dataRate q.target (if q.reason = .burst then .burst else .fallback)) s
      else s
    resumeLink k s

/-- The fallback count after a reading: readings in a row whose ceiling lies below k (R163). -/
def Qmn.fallbackAfter (q : Qmn) (ceiling : Nat) : Nat := if ceiling < q.rate then q.fallback + 1 else 0

/-- The step-up count after a reading: readings in a row whose ceiling lies two above k, with k below max (R163). -/
def Qmn.stepUpAfter (q : Qmn) (ceiling : Nat) : Nat :=
  if q.rate + 2 ≤ ceiling && q.rate < q.max then q.stepUp + 1 else 0

/-- R163: what a reading taken while UP decides once the error window has been examined. -/
def judgeRate (k : ContextId) (s : State) : State :=
  let q := (s.at k).qmn
  let ceiling := ceilingOf (q.quality.getD 0)
  let s := s.modQmn k fun q => { q with fallback := q.fallbackAfter ceiling, stepUp := q.stepUpAfter ceiling }
  if 3 ≤ q.fallbackAfter ceiling then
    if ceiling < q.min then dataEnds k codeLineQuality s else beginShift k (max ceiling q.min) .fallback s
  else if 64 ≤ q.stepUpAfter ceiling then beginShift k (q.rate + 1) .stepUp s
  else s

/-- R162, R164: a reading taken while UP moves Q and the error window, which begins anew at its sixteenth reading. -/
def Qmn.windowStep (q : Qmn) (r : Nat) : Qmn :=
  { q with
    quality := some (moveQuality q.quality false r)
    windowReadings := if 16 ≤ q.windowReadings + 1 then 0 else q.windowReadings + 1
    errors := if 16 ≤ q.windowReadings + 1 then 0 else q.errors }

/-- R162 to R164: a reading of a data session. -/
def dataReading (k : ContextId) (r : Nat) (s : State) : State :=
  let q := (s.at k).qmn
  if q.phase = some .up then
    let s := s.modQmn k fun q => q.windowStep r
    if 16 ≤ q.windowReadings + 1 && (configOf s).errorBurst ≤ q.errors then
      retrain k (max q.min (q.rate - 2)) .burst s
    else judgeRate k s
  else
    let s := s.modQmn k fun q => q.trainingStep r
    if 16 ≤ (s.at k).qmn.readings then trainingOver k s else s

/-- R168: a far-end shift request taken while UP. -/
def takeShiftRequest (k : ContextId) (j : Nat) (s : State) : State :=
  let q := (s.at k).qmn
  if q.min ≤ j && j ≤ q.max then beginShift k j .farEnd s else dataEnds k codeLineQuality s

/-- Every data session of the station retrains (R8, R11, R17), in ascending order of the contexts (DESIGN CHOICE, log entry
80). -/
def retrainAll (reason : RateReason) (s : State) : State :=
  forEach contextIds (fun k t =>
    if (t.at k).state = .connected && (t.at k).session = .data then askRetrain k reason t else t) s

/-- The oldest block's resend count is incremented (R170). -/
def bumpOldest : List LinkBlock → List LinkBlock
  | [] => []
  | b :: rest => { b with resends := b.resends + 1 } :: rest

/-- R170: the resend timer has run out. -/
def resendOver (k : ContextId) (s : State) : State :=
  let s := (resendAll k s).modLkc k fun l => { l with outstanding := bumpOldest l.outstanding }
  match (s.at k).lkc.outstanding with
  | b :: _ => if 10 ≤ b.resends then dataEnds k codeLinkFailed s else s
  | [] => s

/-- R173: the bytes of a DATA_TX join the send buffer; DATA_LOST and FLOW as they fall due. -/
def takeTx (k : ContextId) (bytes : List Byte) (s : State) : State :=
  let room := 1024 - (s.at k).lkc.sendBuffer.length
  let s := s.modLkc k fun l => { l with sendBuffer := l.sendBuffer ++ bytes.take room }
  let lost := bytes.length - room
  checkFlow k (if 0 < lost then sendEvent (some k) (.dataLost lost) s else s)

end Sys2Proof.Machine
end

