-- ==== Sys2Proof/Machine/Dial.lean ====
section
/-! DEFINITION. The incoming call up to its kind, the outgoing call from its seizure to its answer, and the Dial
Generator (R74 to R83). -/
namespace Sys2Proof.Machine

/-! ### The incoming call (R74, R75, R76) -/

def addressTime : Nat := 4000
def discriminationTime : Nat := 4000

/-- R76: a context enters DISCRIMINATING with ANSWER on the line, and the answer script starts (R138). -/
def enterDiscriminating (k : ContextId) (s : State) : State :=
  let s := s.modCtx k fun x => { x with
    state := .discriminating, txCode := .answer, timer := some discriminationTime
    detector := { x.detector with faxRun := 0, faxReported := false, modemRun := 0, modemReported := false }
    voice := { Voice.reset with script := .answer, step := some .greeting } }
  beginPlay k (.greeting ((s.at k).mailbox.getD 0)) 0 s

/-- R75: a context enters ANSWERING; an answer delay of 0 is over at once. -/
def enterAnswering (k : ContextId) (s : State) : State :=
  let delay := 100 * (configOf s).answerDelay
  let s := s.modCtx k fun x => { x with state := .answering, timer := some delay }
  if delay = 0 then enterDiscriminating k s else s

/-- R74: collection ends with a mailbox. -/
def collectionEnds (k : ContextId) (mailbox : Nat) (s : State) : State :=
  let s := s.modCtx k fun x => { x with mailbox := some mailbox }
  let s := match (s.at k).channel with
    | some c => sendEvent (some k) (.callArrived c (some mailbox)) s
    | none => s
  enterAnswering k (s.modCtx k fun x => { x with announced := true })

/-- R74: a context enters ADDRESSING with SEIZE on the line. -/
def enterAddressing (k : ContextId) (s : State) : State :=
  let s := s.modCtx k fun x => { x with
    state := .addressing, direction := some .incoming, txCode := .seize, timer := some addressTime, digits := [] }
  if (configOf s).addressDigits = 0 then collectionEnds k (configOf s).defaultMailbox s else s

/-- The decimal value of address digits. -/
def digitsValue (ds : List Digit) : Nat := ds.foldl (fun n d => 10 * n + d.val) 0

/-- R74: an address digit. -/
def takeAddressDigit (k : ContextId) (d : Digit) (s : State) : State :=
  if 10 ≤ d.val then collectionEnds k (configOf s).defaultMailbox s
  else
    let s := s.modCtx k fun x => { x with digits := x.digits ++ [d] }
    let ds := (s.at k).digits
    if (configOf s).addressDigits ≤ ds.length then collectionEnds k (digitsValue ds) s else s

/-- R76: the decision FAX. -/
def decideFax (k : ContextId) (s : State) : State :=
  let s := sendEvent (some k) (.callType 1) (stopGreeting k s)
  startFaxReceive k ((s.at k).mailbox.getD 0) s

/-- R76: the decision DATA. -/
def decideData (k : ContextId) (s : State) : State :=
  let s := sendEvent (some k) (.callType 2) (stopGreeting k s)
  startData k .answer ((configOf s).rateMin, (configOf s).rateMax) s

/-- R76: the decision VOICE on a digit. -/
def decideVoice (k : ContextId) (d : Digit) (s : State) : State :=
  let s := sendEvent (some k) (.callType 0) (stopGreeting k s)
  let s := sendEvent (some k) (.digit d) s
  enterWaiting k (s.modCtx k fun x => { x with state := .connected, session := .voice, timer := none })

/-! ### The Dial Generator (R80, R81, R82) -/

/-- The nominal frequencies of R81 in tenths of a hertz. -/
def lowGroup : List Nat := [6970, 7700, 8520, 9410]
def highGroup : List Nat := [12090, 13360, 14770, 16330]

/-- The digits of the table of R81, row by row, by their codes. -/
def digitTable : List Digit := [1, 2, 3, 12, 4, 5, 6, 13, 7, 8, 9, 14, 10, 0, 11, 15]

/-- The digit that a dial character stands for, by its code; none for `,` and W (R77 and 12, Codes). -/
def charDigit (ch : Byte) : Option Nat :=
  if 0x30 ≤ ch.toNat && ch.toNat ≤ 0x39 then some (ch.toNat - 0x30)
  else if ch = 0x2A then some 10
  else if ch = 0x23 then some 11
  else if 0x41 ≤ ch.toNat && ch.toNat ≤ 0x44 then some (ch.toNat - 0x41 + 12)
  else none

/-- The DTMF tone of a digit: its low-group frequency at −8 dBm0 and its high-group frequency at −6 dBm0 (R81). -/
def dtmfTone (d : Nat) : List ToneLine :=
  let i := digitTable.findIdx fun x => x.val == d
  [{ freq := lowGroup.getD (i / 4) 0, level := -80 }, { freq := highGroup.getD (i % 4) 0, level := -60 }]

/-- The tone the Dial Generator sends for its current character (R80, R81). -/
def dialTone (d : Dgn) : List ToneLine :=
  match (d.dial[d.pos]?).bind charDigit with
  | some x => dtmfTone x
  | none => []

/-- Durations in superframes. -/
def seizureGuard : Nat := 200
def breakTime : Nat := 60
def makeTime : Nat := 40
def interdigitTime : Nat := 700
def commaTime : Nat := 2000
def dialToneWait : Nat := 5000
def progressTime : Nat := 45000

/-- R83: the dial string has been sent. -/
def enterProgress (k : ContextId) (s : State) : State :=
  s.modCtx k fun x => { x with state := .progress, txCode := .seize, timer := some progressTime, dgn := .reset }

/-- Whether a channel is dialled by pulses (R40, R80). -/
def dialsByPulses (s : State) (k : ContextId) : Bool :=
  match (s.at k).channel with
  | some c => inSet (configOf s).pulseSet c
  | none => false

/-- Set the phase of the current character and its time. -/
def dialPhase (k : ContextId) (phase : DialPhase) (left : Nat) (code : LineCode) (s : State) : State :=
  (s.modDgn k fun d => { d with phase, left }).modCtx k fun x => { x with txCode := code }

/-- R82: whether dial tone is already present. -/
def dialTonePresent (d : Detector) : Bool := d.progressOn && 50 ≤ d.progressRun

/-- Start characters until one takes time; at the end of the string the context enters PROGRESS (R80). `n` bounds the
characters looked at. A comma stands in the phase gap (DESIGN CHOICE, log entry 86). -/
def startCharacters (k : ContextId) : Nat → State → State
  | 0, s => enterProgress k s
  | n + 1, s =>
    let d := (s.at k).dgn
    match d.dial.drop d.pos with
    | [] => enterProgress k s
    | ch :: _ =>
      let skip := startCharacters k n (s.modDgn k fun d => { d with pos := d.pos + 1 })
      if ch = charComma then dialPhase k .gap commaTime .seize s
      else if ch = charW then
        if dialTonePresent (s.at k).detector then skip
        else setTimer k (some dialToneWait) (dialPhase k .wait 0 .seize s)
      else if dialsByPulses s k then
        match pulsesOf ch with
        | some pulses => dialPhase k .break breakTime .idle (s.modDgn k fun d => { d with pulses })
        | none => skip
      else startTone k (dialPhase k .tone (configOf s).toneLength .seize s)

/-- Start the character at the current position. -/
def startCharacter (k : ContextId) (s : State) : State :=
  startCharacters k ((s.at k).dgn.dial.length + 1) s

/-- The current character has ended. -/
def nextCharacter (k : ContextId) (s : State) : State :=
  startCharacter k (setTimer k none (s.modDgn k fun d => { d with pos := d.pos + 1 }))

/-- R79: the guard has run out: the Dial Generator is loaded and starts. -/
def enterDialling (k : ContextId) (s : State) : State :=
  let dial := ((s.at k).outgoing.map (·.dial)).getD []
  startCharacter k (s.modCtx k fun x => { x with
    state := .dialling, timer := none, dgn := { Dgn.reset with dial } })

/-- R80: the time of a phase has run out. -/
def phaseOver (k : ContextId) (s : State) : State :=
  let d := (s.at k).dgn
  match d.phase with
  | .tone => dialPhase k .gap (configOf s).gapLength .seize s
  | .gap => nextCharacter k s
  | .break => dialPhase k .make makeTime .seize (s.modDgn k fun d => { d with pulses := d.pulses - 1 })
  | .make =>
    if 0 < d.pulses then dialPhase k .break breakTime .idle s else dialPhase k .pause interdigitTime .seize s
  | .pause => nextCharacter k s
  | .wait => s
  | .off => s

/-- R82: a DIAL_TONE report while W is current. -/
def takeDialTone (k : ContextId) (s : State) : State :=
  if (s.at k).dgn.phase = .wait then nextCharacter k s else s

/-! ### The called party answers (R81) -/

/-- R81: the Dial Generator stops, the context is CONNECTED, and the session of the purpose begins. -/
def answered (k : ContextId) (s : State) : State :=
  let purpose := ((s.at k).outgoing.map (·.purpose)).getD .plain
  let s := s.modCtx k fun x => { x with state := .connected, timer := none, txCode := .seize, dgn := .reset }
  let s := outdialDone k codeOk s
  match purpose with
  | .plain => enterWaiting k (s.modCtx k fun x => { x with session := .voice })
  | .play home handle =>
    let s := s.modCtx k fun x => { x with session := .voice, voice := { x.voice with script := .outdialPlay } }
    beginPlay k (.message home handle) 0 s
  | .faxSend home handle => startFaxSend k home handle s
  | .data lo hi => startData k .originate (lo, hi) s

end Sys2Proof.Machine
end

