-- ==== Sys2Proof/Machine/Trunk.lean ====
section
/-! DEFINITION. The Trunk Channel Monitor: bids, outgoing choice, withdrawal, glare, the outcome of a CLAIM, settled
changes, and the cells of peers (chapter 4). -/
namespace Sys2Proof.Machine

/-! ### Outgoing choice (R63, R64, R66) -/

/-- Whether some context is CLAIMING or CLEARING on a channel. -/
def channelBusy (s : State) (c : Channel) : Bool := (claimerOf s c).isSome || (clearerOf s c).isSome

/-- R63: whether a channel can be taken for an outgoing call. -/
def canTake (s : State) (c : Channel) : Bool :=
  inSet (configOf s).outdialSet c && (s.entry c).view == .free && (s.entry c).rx.settled == .idle
    && !channelBusy s c && isAligned s

/-- R63: choose a channel for a context that carries an outgoing request, reserve the context and offer the CLAIM.
Answers whether the choice succeeded; when it fails the context is left as it stands. -/
def chooseFor (k : ContextId) (s : State) : State × Bool :=
  match channelIds.find? (canTake s) with
  | none => (s, false)
  | some c =>
    match offerClaim c .outgoing s with
    | (s, false) => (s, false)
    | (s, true) =>
      ((s.modCtx k fun x => { x with state := .claiming, direction := some .outgoing }).setBid k
        (some { channel := c, direction := .outgoing, timer := none, withdrawal := none }), true)

/-- The request of an outgoing context could not be placed: OUTDIAL_DONE with the result, and the context is FREE
(R78). -/
def outdialFails (k : ContextId) (result : Byte) (s : State) : State := freeContext k (outdialDone k result s)

/-- R64: one more choice for a context whose CLAIM was withdrawn. A request in its glare retry ends with GLARE (R66,
R78). -/
def chooseAgain (k : ContextId) (s : State) : State :=
  match (s.at k).outgoing with
  | none => freeContext k s
  | some o =>
    let failed := if o.glareRetried then codeGlare else codeNoChannel
    if o.choiceRetried then outdialFails k failed s
    else
      let s := s.modCtx k fun x => { x with outgoing := some { o with choiceRetried := true } }
      match chooseFor k s with
      | (s, true) => s
      | (s, false) => outdialFails k failed s

/-! ### Bids (R57, R58) -/

/-- The number of contexts that are not FREE. -/
def busyContexts (s : State) : Nat := (contextIds.filter fun k => (s.at k).state != .free).length

/-- R57: the delay of a bid. -/
def bidDelay (g : ConfigRecord) (station : Nat) (busy : Nat) (c : Channel) : Nat :=
  4 * ((c.val + 8 * g.groupSize - station) % g.groupSize) + 8 * busy

/-- Whether a channel can be bid on (R57). While the station is not ALIGNED no bid starts, at the entry to ACTIVE and
after a lost arbitration as little as on a settled change (R16, R38; DEDUCED, log entry 58). -/
def canBid (s : State) (c : Channel) : Bool :=
  s.cfu.state == .active && isAligned s && inSet (configOf s).huntSet c && !channelBusy s c
    && ((s.entry c).view == .free || ((s.entry c).view == .unknown && (s.entry c).tx.settled == .idle))

/-- R58: the bid timer has run out: the CLAIM is offered, and refused it ends the bid. -/
def offerBid (k : ContextId) (c : Channel) (s : State) : State :=
  match offerClaim c .incoming s with
  | (s, true) => s.setBid k (some { channel := c, direction := .incoming, timer := none, withdrawal := none })
  | (s, false) => freeContext k (s.setBid k none)

/-- R57: examine a channel for a bid. The direction of the context is IN from its reservation on (DESIGN CHOICE, log entry
81). -/
def examineBid (c : Channel) (s : State) : State :=
  if canBid s c then
    match freeContext? s with
    | none => s
    | some k =>
      let delay := bidDelay (configOf s) (ownNumber s) (busyContexts s) c
      let s := s.modCtx k fun x => { x with state := .claiming, direction := some .incoming }
      let s := s.setBid k (some { channel := c, direction := .incoming, timer := some delay, withdrawal := none })
      if delay = 0 then offerBid k c s else s
  else s

/-- R38: on entry to ACTIVE each channel of the hunt set that stands in SEIZE is examined, in ascending order. When the
station is not ALIGNED at that moment no bid starts (R16; DEDUCED, log entry 58). -/
def examineHuntSet (s : State) : State :=
  forEach channelIds (fun c t => if (t.entry c).rx.settled = .seize then examineBid c t else t) s

/-! ### Withdrawal (R30) -/

/-- What follows a withdrawal that was taken (R59, R64, R84, R16). -/
def withdrawalTaken (k : ContextId) (b : Bid) (reason : WithdrawReason) (s : State) : State :=
  let s := s.setBid k none
  match b.direction, reason with
  | .incoming, _ => freeContext k s
  | .outgoing, .dropped => outdialFails k codeLocalDrop s
  | .outgoing, .alignmentLost => outdialFails k codeHighwayLost s
  | .outgoing, .cutShort => chooseAgain k s
  | .outgoing, .interrupted => chooseAgain k s

/-- The reason that stands when two withdrawals are asked of one CLAIM in transmission (DEDUCED, log entry 34). -/
def strongerReason (old new : WithdrawReason) : WithdrawReason :=
  match old, new with
  | .dropped, _ => .dropped
  | _, .dropped => .dropped
  | .alignmentLost, _ => .alignmentLost
  | _, .alignmentLost => .alignmentLost
  | _, r => r

/-- R30: withdraw a bid or its CLAIM. A CLAIM in transmission is marked, and decides when it loses arbitration or ends
on the line. -/
def withdraw (k : ContextId) (reason : WithdrawReason) (s : State) : State :=
  match s.bid k with
  | none => s
  | some b =>
    if s.clc.tx.any fun x => x.sending && !x.orphan && isClaimFor b.channel x then
      s.setBid k (some { b with withdrawal := some (match b.withdrawal with
        | some old => strongerReason old reason
        | none => reason) })
    else
      withdrawalTaken k b reason
        (s.modClc fun l => { l with tx := l.tx.filter fun x => x.orphan || !isClaimFor b.channel x })

/-- The CLAIM in transmission has lost arbitration: a withdrawal that waited for it is taken, and a CLAIM left by a
restart is removed; any other cell stays in the queue (R24, R30, R36). -/
def arbitrationLost (s : State) : State :=
  match inTransmission s with
  | none => s
  | some x =>
    if x.orphan then removeSending s
    else
      let stays (s : State) : State :=
        s.modClc fun l => { l with tx := l.tx.map fun y => { y with sending := false } }
      let claimer := if x.cell.kind = kindClaim then
          (channelOf (byteAt x.cell.payload 0).toNat).bind (claimerOf s)
        else none
      match claimer with
      | none => stays s
      | some k =>
        match s.bid k with
        | none => stays s
        | some b =>
          match b.withdrawal with
          | none => stays s
          | some reason =>
            let s := withdrawalTaken k b reason (removeSending s)
            if b.direction = .outgoing && (s.entry b.channel).rx.settled = .seize then
              examineBid b.channel s
            else s

/-! ### Glare (R65, R66, R78) -/

/-- R66: the outgoing request of a context that met glare moves to the lowest-numbered FREE context for one more
choice; when it cannot, OUTDIAL_DONE with GLARE names the context that carries it (R78). -/
def retryElsewhere (k : ContextId) (o : Outgoing) (s : State) : State :=
  let give (s : State) : State := (sendEvent (some k) (.outdialDone codeGlare o.tag) s).modCtx k fun x =>
    { x with outdialDone := true }
  if o.glareRetried then give s
  else
    match freeContext? s with
    | none => give s
    | some j =>
      let moved := { o with glareRetried := true, choiceRetried := false }
      let s := s.modCtx j fun x => { x with outgoing := some moved, requestTag := some o.tag }
      match chooseFor j s with
      | (s, true) => s
      | (s, false) => outdialFails j codeGlare s

/-- R65: glare. The context keeps the channel as an incoming call, and its request is handed back. -/
def glare (k : ContextId) (s : State) : State :=
  let o := (s.at k).outgoing
  let s := s.modCtx k fun x => { x with direction := some .incoming, outgoing := none, requestTag := none }
  let s := enterAddressing k s
  match o with
  | some o => retryElsewhere k o s
  | none => s

/-! ### Settled receive codes at a context (R72) -/

/-- R72: what a context that holds its channel does on a code. -/
def lineCode (k : ContextId) (code : LineCode) (s : State) : State :=
  let x := s.at k
  match code with
  | .blocked => endCall k codeBlocked s
  | .idle => if x.state = .seized then s else endCall k codeFarEndClear s
  | .seize =>
    if x.state = .seized then glare k s
    else if x.state = .connected && x.direction = some .outgoing then endCall k codeFarEndClear s
    else s
  | .answer =>
    if x.state = .seized || x.state = .dialling || x.state = .progress then answered k s else s

/-- R60, R65, R79, R84: the CLAIM has been on the line: the context holds the channel. -/
def claimSent (k : ContextId) (b : Bid) (s : State) : State :=
  let c := b.channel
  let s := setView c (.self k) none s
  let s := s.setBid k none
  let s := s.modCtx k fun x => { x with
    state := if b.direction = .incoming then .addressing else .seized
    channel := some c, txCode := .seize, held := !isAligned s }
  let s := enableDrive c s
  if b.withdrawal = some .dropped then endCall k codeLocalDrop s
  else
    let s := match b.direction with
      | .incoming => enterAddressing k s
      | .outgoing => setTimer k (some seizureGuard) s
    if holds s k c then lineCode k (s.entry c).rx.settled s else s

/-! ### Settling (R50, R51, R55, R56) -/

/-- R50: a delivered code; the new record and whether it settled. -/
def Settling.deliver (count : Nat) (code : LineCode) (x : Settling) : Settling × Bool :=
  if code = x.settled then ({ x with candidate := none, run := 0 }, false)
  else
    let run := if x.candidate = some code then x.run + 1 else 1
    if count ≤ run then ({ settled := code, candidate := none, run := 0 }, true)
    else ({ x with candidate := some code, run }, false)

/-- R41: a run that has already reached the new settle count settles at once. -/
def Settling.recount (count : Nat) (x : Settling) : Settling × Bool :=
  match x.candidate with
  | some code => if count ≤ x.run then ({ settled := code, candidate := none, run := 0 }, true) else (x, false)
  | none => (x, false)

/-- R55: the view after a settled receive change from `old` to `code`. -/
def viewAfterChange (c : Channel) (code : LineCode) (s : State) : State :=
  let e := s.entry c
  let isSelf : Bool := match e.view with
    | .self _ => true
    | _ => false
  if code = .blocked then (if isSelf then s else setView c .blocked none s)
  else if e.view = .blocked then
    match e.blockTimer with
    | none => setView c .unknown none s
    | some _ => if code = .idle then setView c .unknown none s else s
  else s

/-- R59, R64: a settled receive change reaches a CLAIMING context. -/
def codeAtClaimer (k : ContextId) (code : LineCode) (s : State) : State :=
  match s.bid k with
  | none => s
  | some b =>
    match b.direction with
    | .incoming => if code = .seize then s else withdraw k .cutShort s
    | .outgoing => if code = .idle then s else withdraw k .interrupted s

/-- R68: a settled receive change reaches a context that has let go. -/
def codeAtClearer (k : ContextId) (code : LineCode) (s : State) : State :=
  if holdsAny s k then s
  else if code = .idle || code = .blocked then freeContext k s
  else s

/-- R51, step 2: the change is reported to the context that holds, is CLAIMING or is CLEARING on the channel. -/
def reportChange (c : Channel) (code : LineCode) (s : State) : State :=
  match holderOf s c with
  | some k => if (s.at k).state = .clearing then s else lineCode k code s
  | none =>
    match claimerOf s c with
    | some k => codeAtClaimer k code s
    | none =>
      match clearerOf s c with
      | some k => codeAtClearer k code s
      | none => s

/-- R51, steps 1 to 3 for a receive change. -/
def receiveChange (c : Channel) (code : LineCode) (s : State) : State :=
  let s := reportChange c code (viewAfterChange c code s)
  if code = .seize then examineBid c s else s

/-- R51 for one channel: the transmit direction, then the receive direction. -/
def settleWith (f g : Settling → Settling × Bool) (c : Channel) (s : State) : State :=
  let tx := f (s.entry c).tx
  let s := s.modEntry c fun e => { e with tx := tx.1 }
  let rx := g (s.entry c).rx
  let s := s.modEntry c fun e => { e with rx := rx.1 }
  if rx.2 then receiveChange c rx.1.settled s else s

/-- R50, R51: the codes of a superframe are delivered. -/
def deliverCodes (s : State) : State :=
  let count := settleCount s
  forEach channelIds (fun c t =>
    settleWith (Settling.deliver count (s.hwi.txCodes.get c)) (Settling.deliver count (s.hwi.rxCodes.get c)) c t) s

/-- R41: the new settle count is applied to every channel and direction. A run that has reached it settles at once, when
the station is not ALIGNED too, where R50 speaks of the changes that delivered codes make (DEDUCED, log entry 59). -/
def applySettleCount (s : State) : State :=
  let count := settleCount s
  forEach channelIds (fun c t => settleWith (Settling.recount count) (Settling.recount count) c t) s

/-- R55: one superframe of the block timers; BLOCK_TIMER_EXPIRY follows at 0. -/
def tickBlockTimer (e : MapEntry) : MapEntry := { e with blockTimer := e.blockTimer.map (· - 1) }

/-- R56: stale repair of one channel. It runs after the settled changes of the same boundary, so the boundary at which a code
settles already counts, and the view changes at the fifteenth boundary after it; the rule's last sentence and the worked
sequence speak of sixteen superframes (DESIGN CHOICE, log entry 68). -/
def repairEntry (e : MapEntry) : MapEntry :=
  match e.view with
  | .free =>
    if e.tx.settled = .idle then { e with stale := 0 }
    else if 15 ≤ e.stale then { e with view := .unknown, stale := 0 }
    else { e with stale := e.stale + 1 }
  | .self _ => { e with stale := 0 }
  | .blocked => { e with stale := 0 }
  | _ =>
    if e.tx.settled != .idle || e.tx.candidate.isSome then { e with stale := 0 }
    else if 15 ≤ e.stale then { e with view := .free, stale := 0 }
    else { e with stale := e.stale + 1 }

/-! ### Cells of peers (R53, R54, R61, R62) -/

/-- R53: a CLAIM from a peer. -/
def takeClaim (p : Fin 8) (c : Channel) (s : State) : State :=
  match holderOf s c with
  | some k =>
    if (s.at k).state = .clearing then freeContext k (setView c (.peer p) none (endDrive c s))
    else sendDispute c (stationAddress p) s
  | none =>
    let s := setView c (.peer p) none s
    match claimerOf s c with
    | some k => withdraw k (match (s.at k).direction with
        | some .outgoing => .interrupted
        | _ => .cutShort) s
    | none =>
      match clearerOf s c with
      | some k => freeContext k (endDrive c s)
      | none => s

/-- R54: a RELEASE from a peer. -/
def takeRelease (p : Fin 8) (c : Channel) (s : State) : State :=
  if (s.entry c).view = .peer p then setView c .free none s else s

/-- R62: a DISPUTE. -/
def takeDispute (q : Fin 8) (c : Channel) (s : State) : State :=
  let yieldTo (s : State) : State := setView c (.peer q) none (endDrive c s)
  match holderOf s c with
  | some k =>
    if (s.at k).state = .clearing then freeContext k (yieldTo s)
    else endCall k codeLostClaim (writeFault .disputeLost c.val (yieldTo s))
  | none =>
    match clearerOf s c with
    | some k => freeContext k (yieldTo s)
    | none => s

/-! ### Contention (R15) -/

/-- R15: contention on a channel. -/
def contention (c : Channel) (s : State) : State :=
  let holder := holderOf s c
  let s := setView c .unknown none (writeFault .contention c.val (endDrive c s))
  match holder with
  | none => s
  | some k =>
    if (s.at k).state = .clearing then
      -- the context waits for the far end to go idle without driving (R15, R68)
      (let code := (s.entry c).rx.settled
       if code = .idle || code = .blocked then freeContext k s else s)
    else endCall k codeContention s

end Sys2Proof.Machine
end

