-- ==== Sys2Proof/Machine/Highway.lean ====
section
/-! DEFINITION. The Highway Interface: alignment, loss and return, the timing monitor, frames, superframe boundaries, and
session and station time (chapter 1). -/
namespace Sys2Proof.Machine

/-! ### Frame words (R1, R4, R5, R6, R7) -/

/-- Bits 4..0 of a window are the alignment code 10110 (R1). -/
def hasAlignCode (w : Byte) : Bool := w.extractLsb' 0 5 == 0b10110
/-- The frame number in bits 7..5 of a window (R1). -/
def frameNumber (w : Byte) : Fin 8 := ⟨(w.extractLsb' 5 3).toNat, (w.extractLsb' 5 3).isLt⟩
/-- A frame word that carries number f. -/
def isFrameWord (w : Byte) (f : Fin 8) : Bool := hasAlignCode w && frameNumber w == f
/-- R4: the boundary position placed by a frame word of number f whose first bit is at counter value b. -/
def positionOf (b : Nat) (f : Fin 8) : Nat := (b + 4352 - 256 - 272 * f.val) % 2176
/-- R4: the counter value at the first bit of the frame word of frame f. -/
def frameWordPlace (p : Nat) (f : Fin 8) : Nat := (p + 272 * f.val + 256) % 2176
/-- The counter after the eight bits of a window whose first bit is at b (DESIGN CHOICE, log entry 6). -/
def afterWindow (b : Nat) : Nat := (b + 8) % 2176

def nextFrame (f : Fin 8) : Fin 8 := f + 1

/-! ### Entry to ACTIVE (R38) -/

def enterActive (s : State) : State := examineHuntSet (s.modCfu fun u => { u with state := .active })

/-- R38: STARTING ends when alignment has been seen and the store is READY. -/
def leaveStarting (s : State) : State :=
  if s.cfu.state = .starting && s.cfu.alignSeen && s.msc.state = .ready then
    match s.cfu.config with
    | some _ => enterActive s
    | none => s.modCfu fun u => { u with state := .unconfigured }
  else s

/-! ### Loss and return (R8, R16, R17, R18) -/

/-- R16: a context at a loss of alignment. The control frame that was crossing its line is lost, and nobody is told of
its end (R150; DEDUCED, log entry 60). -/
def holdContext (k : ContextId) (s : State) : State :=
  match (s.at k).state with
  | .free => s
  | .claiming => withdraw k .alignmentLost s
  | _ => s.modCtx k fun x => { x with held := true, pump := { x.pump with control := x.pump.control.tail } }

/-- R16: every drive is withdrawn, and the enables are kept aside. -/
def withdrawDrives (s : State) : State :=
  s.modHwi fun h => { h with channels := h.channels.map fun c =>
    { enable := false, aside := c.enable || c.aside, driving := false, mismatches := 0 } }

/-- The hold period of 500 ms in superframes (R16). -/
def holdPeriod : Nat := 500

/-- R16: the HWI leaves ALIGNED, and its contexts are held or withdraw in ascending order (DESIGN CHOICE, log entry 80).
The tick count is idle and the previous count absent from the loss on, where R8 names the next entry to ALIGNED only
(DESIGN CHOICE, log entry 61). -/
def loseAlignment (s : State) : State :=
  let s := s.modHwi fun h => { h with align := .search, tickCount := none, prevTiming := none, localCount := 0 }
  let s := forEach contextIds holdContext (withdrawDrives s)
  (sendEvent none (.highway 0) s).modHwi fun h => { h with hold := some holdPeriod }

/-- What a context that was held does on the return: a data session retrains, a playback and a fax send go on (R17, R101,
R150). -/
def resumeContext (k : ContextId) (s : State) : State :=
  if (s.at k).state = .connected && (s.at k).session = .data then askRetrain k .return s
  else resumeFax k (resumePlayback k s)

/-- R17: every held context resumes, in ascending order of the contexts (DESIGN CHOICE, log entry 80). -/
def resumeHeld (s : State) : State :=
  let wasHeld := contextIds.filter fun k => (s.at k).held
  let s := s.modHwi fun h => { h with
    hold := none
    channels := h.channels.map fun c => { c with enable := c.enable || c.aside, aside := false } }
  let s := forEach wasHeld (fun k t => t.modCtx k fun x => { x with held := false }) s
  forEach wasHeld resumeContext s

/-- R8: whether the position differs from the last aligned one. -/
def boundaryMoved (p : Nat) (s : State) : Bool :=
  match s.hwi.lastAligned with
  | some q => q != p
  | none => false

/-- R8, R11: ALIGNED at a position, with the timing measurement to begin anew. -/
def alignAt (p : Nat) (s : State) : State :=
  s.modHwi fun h => { h with
    align := .aligned p, errors := 0, prevTiming := none, tickCount := none, lastAligned := some p, localCount := 0 }

/-- R38: STARTING takes note of the first entry to ALIGNED. -/
def noteAlignment (s : State) : State :=
  if s.cfu.state = .starting then s.modCfu fun u => { u with alignSeen := true } else s

/-- R8, R17, R38: the HWI enters ALIGNED at a position. -/
def enterAligned (p : Nat) (s : State) : State :=
  let moved := boundaryMoved p s
  let s := resumeHeld (sendEvent none (.highway (if moved then 2 else 1)) (alignAt p s))
  leaveStarting (noteAlignment (if moved then retrainAll .timing s else s))

/-- R18: what a held context does at the expiry of the hold. -/
def holdExpires (k : ContextId) (s : State) : State :=
  let x := s.at k
  if x.held then
    if x.state = .clearing then
      freeContext k (match x.channel with
        | some c => if holds s k c then setView c .unknown none (endDrive c s) else setView c .unknown none s
        | none => s)
    else endCall k codeHighwayLost s
  else s

/-- R18: the number of calls the expiry ends. -/
def heldCalls (s : State) : Nat :=
  (contextIds.filter fun k => (s.at k).held && (s.at k).state != .clearing).length

/-! ### A frame (R9, R13, R14) -/

/-- Whether the Data Pump of a fax session sends: a control frame that is on its way, a training as the sending end, or
a page (R150, R158, R159; DEDUCED, log entry 62). -/
def faxPumpSends (x : Context) : Bool :=
  x.pump.control != [] || x.fax.phase == .sendTraining || x.fax.phase == .sending

/-- The next sample of the Data Pump; 80h while it sends nothing (R71; DESIGN CHOICE, log entry 7). -/
def takePumpSample (sends : Bool) (s : State) : State × Byte :=
  if sends then ({ s with free := s.free + 1 }, Config.pumpSample s.free) else (s, 0x80)

/-- The transmit sample a context supplies for a frame (R71). A tone source supplies a sample of its tone, the Data Pump
a free value while it sends; a source that has nothing to send supplies 80h. -/
def supplySample (k : ContextId) (session : Bool) (s : State) : State × Byte :=
  let x := s.at k
  match x.state with
  | .dialling => if x.dgn.phase = .tone then takeToneSample k (dialTone x.dgn) s else (s, 0x80)
  | .discriminating =>
    match x.voice.activity with
    | .playing => if session then decodeFrame k s else (s, 0x80)
    | .beeping => takeToneSample k beepTone s
    | _ => (s, 0x80)
  | .connected =>
    match x.session with
    | .voice => if x.voice.activity = .playing && session then decodeFrame k s else (s, 0x80)
    | .fax => takePumpSample (faxPumpSends x) s
    | .data => takePumpSample (x.pump.state != .off) s
    | .none => (s, 0x80)
  | _ => (s, 0x80)

/-- R9, R71: the context that holds a channel supplies its sample. -/
def transmitFrame (session : Bool) (k : ContextId) (s : State) : State :=
  if holdsAny s k && !(s.at k).held then
    let r := supplySample k session s
    r.1.modCtx k fun x => { x with txSample := r.2 }
  else s

/-- R14: one frame of readback of a channel whose drive has been in effect since the boundary. -/
def readBack (f : Fin 8) (back : List Byte) (backSig : Byte) (c : Channel) (s : State) : State :=
  match holderOf s c with
  | none => s
  | some k =>
    let x := s.at k
    let differs : Bool := back.getD c.val 0 != x.txSample
      || (c.val / 4 == f.val && codeField backSig c != x.txCode)
    s.modChannel c fun h => if h.driving && differs then { h with mismatches := h.mismatches + 1 } else h

/-- R2, R9: the codes of the four channels whose field a frame carries. -/
def readCodes (f : Fin 8) (rxSig backSig : Byte) (s : State) : State :=
  let here := channelIds.filter fun c => c.val / 4 == f.val
  forEach here (fun c t => t.modHwi fun h => { h with
    rxCodes := h.rxCodes.set c (codeField rxSig c), txCodes := h.txCodes.set c (codeField backSig c) }) s

/-- Whether a context's detector is active (R85). -/
def detectorActive (s : State) (k : ContextId) : Bool :=
  let x := s.at k
  holdsAny s k && inCall x && !x.held && !x.detector.stopped

/-- R9: the sample of a held channel goes to its context: the encoder in a frame of session time, and the detector. -/
def receiveFrame (session : Bool) (rx : List Byte) (k : ContextId) (s : State) : State :=
  match (s.at k).channel with
  | none => s
  | some c =>
    if holds s k c && !(s.at k).held then
      let sample := rx.getD c.val 0
      let s := if detectorActive s k then s.modDetector k fun d => { d with gathered := d.gathered ++ [sample] } else s
      if session then encodeFrame k sample s else s
    else s

/-- What a decoded code completes, once the frame has been sent. -/
def settleDecoder (session : Bool) (k : ContextId) (s : State) : State :=
  if session && holdsAny s k && !(s.at k).held && (s.at k).voice.activity = .playing then afterDecode k s else s

/-- The counter at the end of a frame (R4; DESIGN CHOICE, log entry 6). -/
def afterFrame (f : Fin 8) (s : State) : State :=
  match s.hwi.align with
  | .aligned p => s.modHwi fun h => { h with bitCounter := (p + 272 * (f.val + 1)) % 2176 }
  | _ => s

/-- R9: one frame of the highway. The order of the work within it is the model's: the samples sent, the readback, the
codes read, what a decoded code completes, and the samples received (DESIGN CHOICE, log entry 63). Each sample is handed
over in its own frame, so a loss of alignment later in the superframe takes none back (DEDUCED, log entry 64). -/
def highwayFrame (f : Fin 8) (rx : List Byte) (rxSig : Byte) (back : List Byte) (backSig : Byte) (s : State) : State :=
  let session := givesSessionTime s
  let s := forEach contextIds (transmitFrame session) s
  let s := forEach channelIds (readBack f back backSig) s
  let s := readCodes f rxSig backSig s
  let s := forEach contextIds (settleDecoder session) s
  afterFrame f (forEach contextIds (receiveFrame session rx) s)

/-! ### Station time and session time (R9, R10, R44, R70) -/

def tickTimer (t : Option Nat) : Option Nat := t.map (· - 1)

/-- One superframe of station time: the clock, the hold period, and the timers of the Remote Access Unit (R10). -/
def stationTick (s : State) : State :=
  let s := s.modCfu fun u => { u with stationTime := u.stationTime + 1, subMinute := u.subMinute + 1 }
  let s := s.modHwi fun h => { h with hold := tickTimer h.hold }
  s.modRau fun r => { r with
    outbound := r.outbound.map fun d => d.map fun d => { d with timer := tickTimer d.timer }
    fetches := r.fetches.map fun f => f.map fun f =>
      { f with timer := tickTimer f.timer, keepalive := f.keepalive - 1 } }

/-- One superframe of session time of a context (R70). -/
def tickContext (x : Context) : Context :=
  let linked := linkMoves x
  { x with
    timer := tickTimer x.timer
    clearing := if x.state = .clearing then min 8 (x.clearing + 1) else x.clearing
    dgn := { x.dgn with left := x.dgn.left - 1 }
    vcd := { x.vcd with buffer := x.vcd.buffer.map Slot.tick }
    voice := { x.voice with beep := tickTimer x.voice.beep, idle := tickTimer x.voice.idle }
    fax := { x.fax with wait := tickTimer x.fax.wait, buffer := x.fax.buffer.map Slot.tick }
    qmn := { x.qmn with timer := tickTimer x.qmn.timer }
    lkc := { x.lkc with
      resend := if linked then tickTimer x.lkc.resend else x.lkc.resend
      remoteHold := if linked then tickTimer x.lkc.remoteHold else x.lkc.remoteHold } }

/-- One superframe of session time: every timer of a call and the bid timers (R9, R58, R70). -/
def sessionTick (s : State) : State :=
  let s := { s with ctx := s.ctx.map fun x => if x.held then x else tickContext x }
  s.modTcm fun t => { t with bids := t.bids.map fun b => b.map fun b => { b with timer := tickTimer b.timer } }

/-! ### The superframe boundary (R9, R11, R13, R14, R51, R55, R56) -/

/-- R11: the measured count against the previous one. -/
def measureTiming (measured : Nat) (s : State) : State :=
  let s' := s.modHwi fun h => { h with prevTiming := some measured }
  match s.hwi.prevTiming with
  | none => s'
  | some old =>
    let d := max measured old - min measured old
    if d ≤ timingThreshold s then s'
    else
      let s := sendEvent none .timingStep s'
      retrainAll .timing (writeFault .timingStep (min 255 d) s)

/-- R14, R15: the mismatch counts are examined in channel order and set to 0. -/
def checkReadback (c : Channel) (s : State) : State :=
  let n := (s.hwi.channels.get c).mismatches
  let s := s.modChannel c fun h => { h with mismatches := 0 }
  if 2 ≤ n then contention c s else s

/-- R13: an enable set by a context takes effect. -/
def takeEffect (s : State) : State :=
  s.modHwi fun h => { h with channels := h.channels.map fun c => { c with driving := c.enable, mismatches := 0 } }

/-- A bid whose delay was 0 has been offered already; no other work of the boundary is done by expiry. -/
def sessionBoundary (measured : Nat) (s : State) : State :=
  let s := measureTiming measured s
  let s := forEach channelIds checkReadback s
  let s := sessionTick s
  let s := deliverCodes s
  s.modTcm fun t => { t with map := t.map.map fun e => repairEntry (tickBlockTimer e) }

/-- What every boundary ends with: the tick count begins anew, one superframe of station time, and the enables. -/
def boundaryPassed (s : State) : State := takeEffect (stationTick (s.modHwi fun h => { h with tickCount := some 0 }))

/-- R9: a superframe boundary while ALIGNED, `ticks` reference ticks after those already counted. When the tick count
reaches 32767 within them, alignment is lost at that tick, before the boundary (R12). -/
def superframeBoundary (ticks : Nat) (s : State) : State :=
  match s.hwi.tickCount with
  | none => boundaryPassed s
  | some n => if 32767 ≤ n + ticks then loseAlignment s else boundaryPassed (sessionBoundary (n + ticks) s)

/-! ### The reference tick (R10, R11, R12; DESIGN CHOICE, log entry 1) -/

/-- 24,576 ticks of the local count give one superframe of station time (R10). -/
def localTick (s : State) : State :=
  if 24575 ≤ s.hwi.localCount then stationTick (s.modHwi fun h => { h with localCount := 0 })
  else s.modHwi fun h => { h with localCount := h.localCount + 1 }

/-- One tick of the reference. -/
def referenceTick (s : State) : State :=
  match s.hwi.align with
  | .aligned _ =>
    match s.hwi.tickCount with
    | none => s
    | some n => if 32766 ≤ n then loseAlignment s else s.modHwi fun h => { h with tickCount := some (n + 1) }
  | _ => localTick s

end Sys2Proof.Machine
end

