-- ==== Sys2Proof/Machine/Detector.lean ====
section
/-! DEFINITION. The Tone Detector Bank and what a context does with its reports (R85 to R88, R143, R147). -/
namespace Sys2Proof.Machine

/-! ### What is present in a block (R86, R87, R88) -/

/-- Within 2 % of nominal. -/
def withinTwoPercent (nominal freq : Nat) : Bool := 50 * (max nominal freq - min nominal freq) ≤ nominal

/-- The place of a frequency in a group, when its level is −30 dBm0 or above. -/
def groupPlace (group : List Nat) (x : ToneLine) : Option Nat :=
  if -300 ≤ x.level then group.findIdx? fun n => withinTwoPercent n x.freq else none

/-- The digit a pair of frequencies makes in a block, by R86. -/
def pairDigit (lines : List ToneLine) (a b : ToneLine) : Option Digit :=
  match groupPlace lowGroup a, groupPlace highGroup b with
  | some i, some j =>
    let weaker := min a.level b.level
    let others := (lines.erase a).erase b
    if max a.level b.level - weaker ≤ 60 && others.all (fun x => x.level < weaker) then digitTable[4 * i + j]?
    else none
  | _, _ => none

/-- R86: the digit present in a block. -/
def digitIn (m : Measurement) : Option Digit :=
  (m.lines.flatMap fun a => m.lines.filterMap fun b => pairDigit m.lines a b).head?

/-- R87: whether a call-progress tone is present. -/
def progressIn (m : Measurement) : Bool := 3 * m.totalPower ≤ 4 * m.bandPower && -350 ≤ m.level

/-- R88: whether a calling tone is present. -/
def toneIn (nominal tolerance : Nat) (m : Measurement) : Bool :=
  m.lines.any fun x => max nominal x.freq - min nominal x.freq ≤ tolerance && -400 ≤ x.level

/-! ### Runs (R86, R87, R88) -/

/-- R86: the digit run, the absent run and arming; a report when the run reaches the report length while armed.
A block with a digit ends the absent run (DEDUCED, log entry 52). -/
def digitStep (digit : Option Digit) (length : Nat) (d : Detector) : Detector × Option Digit :=
  match digit with
  | none =>
    let absent := min 2 (d.absent + 1)
    ({ d with digitRun := none, absent, armed := d.armed || absent == 2 }, none)
  | some x =>
    let n := match d.digitRun with
      | some (y, n) => if y = x then min 4 (n + 1) else 1
      | none => 1
    let d := { d with digitRun := some (x, n), absent := 0 }
    if d.armed && length ≤ n then ({ d with armed := false }, some x) else (d, none)

inductive Report where
  | digit (d : Digit)
  | dialTone
  | busy
  | reorder
  | ringback
  | faxCall
  | modemCall
  | energy (active : Bool)
deriving DecidableEq, Repr

def within (lo hi n : Nat) : Bool := lo ≤ n && n ≤ hi

/-- One cadence at the end of an OFF run: the cycles completed, and whether two in a row make a report. -/
def cadence (lo hi on off cycles : Nat) : Nat × Bool :=
  if within lo hi on && within lo hi off then (if 1 ≤ cycles then (0, true) else (cycles + 1, false)) else (0, false)

/-- R87: one block of the progress-tone run. -/
def progressStep (present : Bool) (d : Detector) : Detector × List Report :=
  if present then
    if d.progressOn then
      let run := min 255 (d.progressRun + 1)
      let report : Bool := 50 ≤ run && !d.dialReported
      ({ d with progressRun := run, dialReported := d.dialReported || report }, if report then [.dialTone] else [])
    else
      let b := cadence 24 36 d.lastOn d.progressRun d.busyCycles
      let r := cadence 11 19 d.lastOn d.progressRun d.reorderCycles
      ({ d with progressOn := true, progressRun := 1, dialReported := false, ringback := false
                busyCycles := b.1, reorderCycles := r.1 },
        (if b.2 then [Report.busy] else []) ++ (if r.2 then [Report.reorder] else []))
  else if d.progressOn then
    ({ d with progressOn := false, progressRun := 1, lastOn := d.progressRun, ringback := 50 ≤ d.progressRun
              busyCycles := if within 24 36 d.progressRun then d.busyCycles else 0
              reorderCycles := if within 11 19 d.progressRun then d.reorderCycles else 0 }, [])
  else
    let run := min 255 (d.progressRun + 1)
    let report : Bool := d.ringback && 100 ≤ run
    ({ d with progressRun := run, ringback := d.ringback && !report }, if report then [.ringback] else [])

/-- R88: one block of a calling-tone run: the run, its reported mark, and whether it is reported now. -/
def toneStep (present : Bool) (run : Nat) (reported : Bool) : Nat × Bool × Bool :=
  if present then
    let run := min 25 (run + 1)
    let report : Bool := run == 25 && !reported
    (run, reported || report, report)
  else (0, false, false)

/-- The report length: 4 blocks while PLAYING or BEEPING, else 3 (R86). -/
def reportLength (x : Context) : Nat :=
  if x.voice.activity = .playing || x.voice.activity = .beeping then 4 else 3

/-- 128 times the mean of the absolute linear values of a block (R88). -/
def blockSum (samples : List Byte) : Nat := samples.foldl (fun n b => n + (expand b).natAbs) 0

/-- The samples of a detector block (R85). -/
def detectorBlock : Nat := 128

/-- R85: the end of a block: the runs and the reports, in one order (DESIGN CHOICE, log entry 25). -/
def detectorStep (length : Nat) (m : Measurement) (d : Detector) : Detector × List Report :=
  let sum := blockSum (d.gathered.take detectorBlock)
  let d := { d with gathered := d.gathered.drop detectorBlock, levelSum := sum }
  let r1 := digitStep (digitIn m) length d
  let r2 := progressStep (progressIn m) r1.1
  let f := toneStep (toneIn 11000 380 m) r2.1.faxRun r2.1.faxReported
  let t := toneStep (toneIn 13000 260 m) r2.1.modemRun r2.1.modemReported
  ({ r2.1 with faxRun := f.1, faxReported := f.2.1, modemRun := t.1, modemReported := t.2.1 },
    (r1.2.map Report.digit).toList ++ r2.2 ++ (if f.2.2 then [Report.faxCall] else [])
      ++ (if t.2.2 then [Report.modemCall] else []) ++ [.energy (64 * detectorBlock < sum)])

/-! ### Reports at the context (R85) -/

/-- R143: a digit in a voice session. -/
def digitInSession (k : ContextId) (d : Digit) (s : State) : State :=
  let s := sendEvent (some k) (.digit d) s
  match (s.at k).voice.activity with
  | .playing => playbackOver k codeDigit (stopPlayback k s)
  | .recording => enterWaiting k (finishRecording k reasonDigit s)
  | .waiting => s.modVoice k fun v => { v with idle := some idleTime }
  | _ => s

/-- R85: a DIGIT report by the state of the context. -/
def takeDigit (k : ContextId) (d : Digit) (s : State) : State :=
  let x := s.at k
  match x.state with
  | .addressing => takeAddressDigit k d s
  | .discriminating => decideVoice k d s
  | .connected => if x.session = .voice then digitInSession k d s else s
  | _ => s

/-- R83: a BUSY or REORDER report. -/
def takeTone (k : ContextId) (cause : Byte) (s : State) : State :=
  match (s.at k).state with
  | .dialling => endCall k cause s
  | .progress => endCall k cause s
  | _ => s

/-- R85: a report by the state of the context. `listening` says that the context was DISCRIMINATING when the block
ended. -/
def takeReport (k : ContextId) (listening : Bool) (r : Report) (s : State) : State :=
  let x := s.at k
  match r with
  | .digit d => takeDigit k d s
  | .dialTone => if x.state = .dialling then takeDialTone k s else s
  | .busy => takeTone k codeCallBusy s
  | .reorder => takeTone k codeReorder s
  | .ringback => s
  | .faxCall =>
    if listening && x.state = .discriminating && (configOf s).faxAllowed then decideFax k s else s
  | .modemCall =>
    if listening && x.state = .discriminating && (configOf s).dataAllowed then decideData k s else s
  | .energy active =>
    if active && x.state = .connected && x.session = .voice && x.voice.activity = .waiting then
      s.modVoice k fun v => { v with idle := some idleTime }
    else s

/-- R85: the end of a detector block of a context. -/
def detectorBlockEnds (k : ContextId) (m : Measurement) (s : State) : State :=
  let x := s.at k
  let r := detectorStep (reportLength x) m x.detector
  forEach r.2 (takeReport k (x.state == .discriminating)) (s.modDetector k fun _ => r.1)

end Sys2Proof.Machine
end

