-- ==== Sys2Proof/Machine/Station.lean ====
section
/-! DEFINITION. The Configuration and Fault Unit: power-on, restart, configuration, the clock, status replies and the
clearing of faults (chapter 3). -/
namespace Sys2Proof.Machine

/-! ### Power-on and restart (R19, R36, R42, R43) -/

/-- Every block at its power-on values over the message memory as it stands, with the scan begun (R43, R119). -/
def powerOn (station : Fin 8) (storeSize : Fin 4) (s : State) : State :=
  beginScan { State.reset with
    cfu := .reset station storeSize
    msc := { Msc.reset with links := s.msc.links, msgs := s.msc.msgs, mbxs := s.msc.mbxs, mem := s.msc.mem }
    free := s.free
    pending := s.pending }

/-- The contexts that hold a channel (R42). -/
def holdingContexts (s : State) : Nat := (contextIds.filter fun k => holdsAny s k).length

/-- A FREE line between the queueing of the ANSWER and the flush: the head of the queue, the ANSWER or another cell,
begins its transmission (R23, R36; DESIGN CHOICE, log entry 15). -/
def headGoesOut (s : State) : State :=
  match s.clc.tx with
  | [] => s
  | y :: rest =>
    if s.clc.line != .joining && (inTransmission s).isNone then
      s.modClc fun l => { l with tx := { y with sending := true } :: rest }
    else s

/-- R36: what the control line controller does at a restart. -/
def flushLine (s : State) : State :=
  s.modClc fun l => { Clc.reset with
    tx := (l.tx.filter fun x => x.sending).map fun x => { x with orphan := true } }

/-- R19: what the highway interface keeps at a restart. -/
def restartHighway (s : State) : State :=
  s.modHwi fun h => { h with channels := .replicate 32 .reset, prevTiming := none, hold := none }

/-- R42, steps 2 to 8. -/
def restartStation (s : State) : State :=
  let s := restartHighway { flushLine s with ctx := .replicate 4 .reset, tcm := .reset, rau := .reset }
  let s := beginScan s
  s.modCfu fun u => { u with state := .starting, alignSeen := isAligned s }

/-- R42: a RESTART addressed to this station by its own number; to all stations it is BAD_FIELD. R42 gives the third and the
fourth byte of the ANSWER for the OK alone; the BAD_FIELD carries FFh in both (DESIGN CHOICE, log entry 72). -/
def restart (x : Cell) (freeLineBetween : Bool) (s : State) : State :=
  if x.dst = allStations then sendAnswer x codeBadField s
  else
    let s := sendAnswerWith x codeOk codeRestart (BitVec.ofNat 8 (holdingContexts s)) s
    restartStation (if freeLineBetween then headGoesOut s else s)

/-! ### Configuration and clock (R40, R41, R44) -/

/-- R40, R41, R38: a CONFIGURE. -/
def configure (x : Cell) (s : State) : State :=
  if s.cfu.config.isSome then sendAnswer x codeConfigLocked s
  else if configureRefused s.cfu.station x.payload then sendAnswer x codeBadField s
  else
    let s := s.modCfu fun u => { u with config := some (configureRecord x.payload) }
    let s := applySettleCount (sendAnswer x codeOk s)
    if s.cfu.state = .unconfigured then enterActive s else s

/-- R44: a SET_TIME. -/
def setClock (x : Cell) (s : State) : State :=
  sendAnswer x codeOk (s.modCfu fun u => { u with
    minute := BitVec.ofNat 24 (field x.payload 0 3), subMinute := 0, clockSet := true })

/-! ### Status replies (R45 and 12, Configuration and status) -/

def boolByte (b : Bool) : List Byte := [if b then 1 else 0]

def sendStatus (x : Cell) (selector : Nat) (number : Option Nat) (contents : List Byte) (s : State) : State :=
  offerReport (ownCell s 6 gateway kindStatusReply x.tag (be1 selector ++ beOpt2 number ++ contents)) s

/-- A reply about an absent object: the smallest length, all ones (12, Configuration and status). -/
def sendAbsent (x : Cell) (selector length : Nat) (s : State) : State :=
  sendStatus x selector (some (field x.payload 1 2)) (List.replicate (length - 3) 0xFF) s

def StationState.code : StationState → Nat
  | .starting => 0
  | .unconfigured => 1
  | .active => 2

def AlignState.code : AlignState → Nat
  | .search => 0
  | .verify _ _ _ => 1
  | .aligned _ => 2

def CtxState.code : CtxState → Nat
  | .free => 0
  | .claiming => 1
  | .addressing => 2
  | .answering => 3
  | .discriminating => 4
  | .seized => 5
  | .dialling => 6
  | .progress => 7
  | .connected => 8
  | .clearing => 9

def SessionKind.code : SessionKind → Nat
  | .none => 0
  | .voice => 1
  | .fax => 2
  | .data => 3

def Activity.code : Activity → Nat
  | .none => 0
  | .playing => 1
  | .beeping => 2
  | .recording => 3
  | .waiting => 4

def isReady (s : State) : Bool := s.msc.state == .ready

/-- STATION. -/
def stationContents (s : State) : List Byte :=
  be1 s.cfu.station.val ++ be1 s.cfu.storeSize.val ++ be1 s.cfu.state.code ++ boolByte s.cfu.config.isSome
    ++ beOpt1 (s.cfu.config.map (·.groupSize)) ++ be1 s.hwi.align.code ++ boolByte (isReady s)
    ++ beOpt2 (if isReady s then some (freeCount s) else none) ++ be2 s.clc.badCheck ++ be2 s.clc.undelivered
    ++ be1 s.cfu.lostReports ++ be1 s.cfu.faults.length ++ be1 s.cfu.overflow ++ be3 s.cfu.minute.toNat
    ++ boolByte s.cfu.clockSet

/-- CONTEXT. -/
def contextContents (x : Context) : List Byte :=
  be1 x.state.code ++ boolByte x.held ++ beOpt1 (x.channel.map (·.val)) ++ be1 x.session.code
    ++ (if x.session = .fax || x.session = .data then [0xFF] else be1 x.voice.activity.code)

/-- An entry of MAP. -/
def viewContents (v : View) : List Byte :=
  match v with
  | .free => [0, 0xFF]
  | .self k => [1, BitVec.ofNat 8 k.val]
  | .peer p => [2, BitVec.ofNat 8 p.val]
  | .unknown => [3, 0xFF]
  | .blocked => [4, 0xFF]

def mapContents (s : State) : List Byte := channelIds.flatMap fun c => viewContents (s.entry c).view

/-- MAILBOX. -/
def mailboxContents (b : Mbx) : List Byte :=
  be1 b.limit ++ be1 b.openCount ++ beOpt2 b.greeting ++ boolByte b.greetingOpen ++ b.list.flatMap be2

def writerByte (s : State) : Writer → Nat
  | .here k => 16 * s.cfu.station.val + k.val
  | .peer p context => 16 * p.val + context % 16

/-- MESSAGE. The page mark is a field of a FAX message while OPEN (R106). -/
def messageContents (s : State) (m : Msg) : List Byte :=
  be1 m.state.code ++ be1 m.kind.code ++ be2 m.mailbox ++ be2 m.count ++ be3 m.length
    ++ beOpt2 (if m.kind = .fax && m.state = .opened then some m.pageMark else none) ++ be1 m.flags
    ++ beOpt3 (m.stamp.map (·.toNat)) ++ beOpt1 (m.writer.map (writerByte s)) ++ be1 m.readers.length

/-- FAULTS. -/
def faultContents (s : State) : List Byte :=
  be1 s.cfu.overflow
    ++ s.cfu.faults.flatMap fun f => be1 (faultKindByte f.kind f.clockSet) ++ be2 f.subject ++ be3 f.stamp.toNat

def queryStation (x : Cell) (s : State) : State := sendStatus x 0 none (stationContents s) s

def queryContext (x : Cell) (s : State) : State :=
  match contextOf (field x.payload 1 2) with
  | some k => sendStatus x 1 (some k.val) (contextContents (s.at k)) s
  | none => sendAbsent x 1 8 s

def queryMap (x : Cell) (s : State) : State := sendStatus x 2 none (mapContents s) s

def queryMailbox (x : Cell) (s : State) : State :=
  let n := field x.payload 1 2
  match if isReady s then mailbox? s n else none with
  | some b => sendStatus x 3 (some n) (mailboxContents b) s
  | none => sendAbsent x 3 8 s

def queryMessage (x : Cell) (s : State) : State :=
  let h := field x.payload 1 2
  match if isReady s then s.msgAt h else none with
  | some m => sendStatus x 4 (some h) (messageContents s m) s
  | none => sendAbsent x 4 20 s

def queryFaults (x : Cell) (s : State) : State := sendStatus x 5 none (faultContents s) s

/-! ### FAULT_CLEAR (R47) -/

/-- The entries whose position is not in the set; position p is bit p - 1. -/
def keptFaults (positions : Byte) (faults : List FaultEntry) : List FaultEntry :=
  (faults.zipIdx.filter fun x => !positions.getLsbD x.2).map (·.1)

def clearFaults (x : Cell) (s : State) : State :=
  let counts := (byteAt x.payload 1).getLsbD 0
  sendAnswer x codeOk (s.modCfu fun u => { u with
    faults := keptFaults (byteAt x.payload 0) u.faults
    overflow := if counts then 0 else u.overflow
    lostReports := if counts then 0 else u.lostReports })

end Sys2Proof.Machine
end

