-- ==== Sys2Proof/Machine/Line.lean ====
section
/-! DEFINITION. The Control Line Controller on the wire: a free line, arbitration, cells received, the outcome of a cell
sent, what undelivered cells end, and the handing over of received cells (R23 to R31). -/
namespace Sys2Proof.Machine

/-! ### The ends of deposits and fetches at their sessions (R124, R134) -/

/-- A recording or a fax receive that waited for the context's earlier deposit now asks for its own (R144, R152). -/
def afterDeposit (k : ContextId) (s : State) : State :=
  let x := s.at k
  if (s.outbound k).isSome then s
  else if x.voice.depositWait && x.voice.activity = .recording then beginDeposit k s
  else if x.session = .fax && x.fax.phase = .opening then beginFaxDeposit k s
  else s

/-- An outbound deposit record ends and hands its outcome to the session that asked for it (R124). -/
def depositEnds (k : ContextId) (d : OutDeposit) (o : DepositOutcome) (s : State) : State :=
  let s := freeDeposit k s
  afterDeposit k (if d.kind = .fax then faxDepositEnded k d o s else recordingDepositEnded k d o s)

/-- Whether a context's fetch serves a playback. -/
def fetchPlays (x : Context) : Bool :=
  x.voice.activity == .playing && (x.state == .discriminating || x.session == .voice)

/-- A fetch ends by itself: its session is told (R134, R142, R157). -/
def fetchEnds (k : ContextId) (o : FetchOutcome) (s : State) : State :=
  let x := s.at k
  if fetchPlays x then playFetchEnded k o s
  else if x.session = .fax && x.fax.role = some .send then faxFetchEnded k o s
  else endFetch k s

/-- What an UNDELIVERED deposit or fetch cell of a record ends (R124, R131, R132, R134). -/
def undelivered (k : ContextId) (kind : Byte) (serial : Nat) (s : State) : State :=
  if kind = kindFetchOpen then
    match s.fetch k with
    | some f => if f.serial = serial && f.state = .opening then fetchEnds k .homeSilent s else s
    | none => s
  else if kind = kindDepositOpen || kind = kindDepositClose || kind = kindDepositRollback then
    match outboundOf s k serial with
    | some d => depositEnds k d .homeSilent s
    | none => s
  else s

/-- Tell the producers of cells refused at the transmit queue UNDELIVERED, oldest first (R29; DEDUCED, log entry 9). -/
def settleNotices : Nat → State → State
  | 0, s => s
  | n + 1, s =>
    match s.rau.notices with
    | [] => s
    | x :: rest =>
      settleNotices n (undelivered x.context x.kind x.serial (s.modRau fun r => { r with notices := rest }))

/-- Every notice is told before a command is over; sixty-four are more than any command can cause (DEDUCED, log entry
9). -/
def settle (s : State) : State := (settleNotices 64 s).modRau fun r => { r with notices := [] }

/-- A command that has its effect when its moment has come, with every notice it causes told. -/
def act (due : Bool) (effect s : State) : Host.Outcome State Fault Refusal := whenDue due (settle effect) s

/-! ### A free line and arbitration (R23, R24) -/

/-- R23, R24: the line falls FREE. The head of the queue is sent; another contender of lower arbitration byte wins. -/
def lineFalls (others : List Byte) (s : State) : State :=
  match s.clc.tx with
  | [] =>
    if others = [] then s.modClc fun l => { l with line := .free, run := 12 }
    else s.modClc fun l => { l with line := .busy, run := 0 }
  | x :: rest =>
    let s := s.modClc fun l => { l with line := .busy, run := 0, tx := { x with sending := true } :: rest }
    if others.any fun b => b < arbitrationByte x.cell then arbitrationLost s else s

/-! ### Cells received (R25, R26) -/

/-- A cell read from the wire: a framing error, a bad check, or its fields (R25, R26). -/
inductive Reading where
  | framing
  | badCheck
  | good (c : Cell)
deriving DecidableEq, Repr

def readCell (bytes : List Byte) (guardError : Bool) : Reading :=
  let first := byteAt bytes 0
  let n := (byteAt bytes 4).toNat
  if guardError || first.getLsbD 0 || 72 < n || bytes.length != n + 7 then .framing
  else if (crc16 (bytes.take (5 + n))).toNat != field bytes (5 + n) 2 then .badCheck
  else
    .good { prio := first.extractLsb' 5 3, src := first.extractLsb' 1 4, dst := (byteAt bytes 1).extractLsb' 4 4,
            kind := byteAt bytes 2, tag := byteAt bytes 3, payload := (bytes.drop 5).take n }

/-- R26: whether a cell read is accepted. -/
def accepts (s : State) (c : Cell) : Bool :=
  (c.dst == ownAddress s || c.dst == allStations) && s.clc.rx.length < 16

/-- The recessive run after an acknowledge bit: 0 when it was dominant, 1 when it was recessive (R23; DESIGN CHOICE,
log entry 14). -/
def runOf (acknowledged : Bool) : Nat := if acknowledged then 0 else 1

/-- R25, R26: a cell that another station sends is read to its end. A station that accepts it acknowledges it; for any
other cell the acknowledge bit is what the other stations make it. -/
def receiveCell (bytes : List Byte) (ending : CellEnd) (s : State) : State :=
  let after (ack : Bool) (s : State) : State := s.modClc fun l => { l with line := .busy, run := runOf ack }
  match readCell bytes ending.guardError with
  | .framing => after ending.acknowledged (countBadCheck s)
  | .badCheck => after ending.acknowledged (countBadCheck s)
  | .good c =>
    if accepts s c then after true (s.modClc fun l => { l with rx := l.rx ++ [c] }) else after ending.acknowledged s

/-- Whether a cell on the wire can be read: none of ours is in transmission, or a lower arbitration byte shows that ours
has lost (R24; DESIGN CHOICE, log entry 13). Otherwise the wire carries ours. -/
def outbids (bytes : List Byte) (s : State) : Bool :=
  match inTransmission s with
  | none => true
  | some x => byteAt bytes 0 < arbitrationByte x.cell

/-- Another station's cell on the wire. In JOINING nothing is received and only the bits are counted, but a cell left in
transmission by a restart can still lose arbitration to it (R23, R36). -/
def cellArrives (bytes : List Byte) (ending : CellEnd) (s : State) : State :=
  if outbids bytes s then
    let s := arbitrationLost s
    if s.clc.line = .joining then s.modClc fun l => { l with run := runOf ending.acknowledged }
    else receiveCell bytes ending s
  else s

/-! ### The outcome of a cell sent (R31, R36) -/

/-- R31: whether a cell is DELIVERED. -/
def delivered (s : State) (x : TxCell) (r : SendResult) : Bool :=
  match r with
  | .ack => true
  | .noAck => x.cell.kind == kindClaim && (s.cfu.config.map (·.groupSize)) == some 1
  | .sendError => false

/-- R31: the outcome is told to the producer of the cell. -/
def tellProducer (x : TxCell) (ok : Bool) (s : State) : State :=
  if x.cell.kind = kindClaim then
    match (channelOf (byteAt x.cell.payload 0).toNat).bind (claimerOf s) with
    | none => s
    | some k =>
      match s.bid k with
      | some b => claimSent k b s
      | none => s
  else if ok then s
  else
    match contextOf x.cell.tag.toNat with
    | some k => undelivered k x.cell.kind x.serial s
    | none => s

/-- The recessive run after the last bit of a cell sent. A send error is a bit sent recessive and read dominant, since a
driven bit is dominant for every station (R20, R23, R25; DESIGN CHOICE, log entry 14). -/
def runAfter : SendResult → Nat
  | .ack => runOf true
  | .noAck => runOf false
  | .sendError => 0

/-- R31: the outcome of the cell in transmission. -/
def cellDecided (x : TxCell) (r : SendResult) (s : State) : State :=
  let s := (removeSending s).modClc fun l => { l with
    line := if l.line = .joining then .joining else .busy, run := runAfter r }
  if x.orphan then s
  else
    let ok := delivered s x r
    tellProducer x ok (if ok then s else countUndelivered s)

/-- The outcome of the cell in transmission, when it is of a kind that the command speaks of (DESIGN CHOICE, log entry
12). -/
def decideCell (kinds : Byte → Bool) (r : SendResult) (s : State) : Host.Outcome State Fault Refusal :=
  match inTransmission s with
  | none => .next s
  | some x => act (kinds x.cell.kind) (cellDecided x r s) s

/-! ### Handing over (R27) -/

/-- The oldest cell of the receive queue leaves it. -/
def popCell (s : State) : State := s.modClc fun l => { l with rx := l.rx.tail }

/-- Hand the oldest cell over when `due` says that the command speaks of it. -/
def handOver (due : Cell → Bool) (effect : Cell → State → State) (s : State) : Host.Outcome State Fault Refusal :=
  match s.clc.rx with
  | [] => .next s
  | c :: _ => act (due c) (effect c (popCell s)) s

/-- A gateway request: the source and length checks of R27, then its owner. -/
def requestOwner (owner : Cell → State → State) (c : Cell) (s : State) : State :=
  if c.src != gateway then s
  else if !lengthAllowed c.kind c.payload.length then sendAnswer c codeBadField s
  else owner c s

/-- A request that only an ACTIVE station hands to its owner (R39). -/
def whenActive (owner : Cell → State → State) (c : Cell) (s : State) : State :=
  if s.cfu.state = .active then owner c s else sendAnswer c codeNotConfigured s

/-- Hand over a gateway request of a kind. -/
def handRequest (kind : Byte) (owner : Cell → State → State) (s : State) : Host.Outcome State Fault Refusal :=
  handOver (fun c => c.kind == kind) (requestOwner owner) s

/-- A cell of a peer: the source and length checks of R27, then its owner. -/
def peerOwner (owner : Fin 8 → Cell → State → State) (c : Cell) (s : State) : State :=
  match stationOf c.src with
  | none => s
  | some p => if lengthAllowed c.kind c.payload.length then owner p c s else s

/-- Hand over a peer's cell of a kind. -/
def handPeer (kind : Byte) (owner : Fin 8 → Cell → State → State) (s : State) : Host.Outcome State Fault Refusal :=
  handOver (fun c => c.kind == kind) (peerOwner owner) s

end Sys2Proof.Machine
end

