-- ==== Sys2Proof/Machine/PowerLoss.lean ====
section
/-! DEFINITION. A loss of power between two writes of the store: the earlier write is done and the later is not (R102).
-/
namespace Sys2Proof.Machine

/-- A station whose power goes once so many more writes into the message memory are done. -/
structure Cut where
  left : Nat
  s : State

/-- One write into a data block or into the directory, whole or not at all (R102). -/
def Cut.write (w : State → State) (c : Cut) : Cut :=
  match c.left with
  | 0 => c
  | n + 1 => { left := n, s := w c.s }

/-- A change of the working state alone, which does not outlast the power. -/
def Cut.work (w : State → State) (c : Cut) : Cut := { c with s := w c.s }

/-- An operation for each element in turn. -/
def cutEach {α : Type} (xs : List α) (f : α → Cut → Cut) (c : Cut) : Cut := xs.foldl (fun c x => f x c) c

/-! ### The operations, write by write

Each follows its operation in Machine/Store.lean, with the writes in the order that its rule gives, or in that
operation's where the rule gives none (DESIGN CHOICE, log entry 66). -/

/-- R117: the record's change, then the mailbox's. -/
def cutDelete (h : Nat) (c : Cut) : Cut :=
  match c.s.msgAt h with
  | none => c
  | some m => (c.write (deleteRecord h)).write (unlistMessage m.mailbox h)

/-- R109: the messages of the list in order, the greeting, then the record. -/
def cutRemove (number : Nat) (c : Cut) : Cut :=
  match mailbox? c.s number with
  | none => c
  | some b => (cutEach (b.list ++ b.greeting.toList) cutDelete c).write (eraseMailbox number)

/-- R110: the record, then the mailbox's count of it. -/
def cutOpen (mailbox : Nat) (kind : Option MsgKind) (w : Writer) (c : Cut) : Cut :=
  match openRefusal c.s mailbox kind, kind with
  | none, some k =>
    let h := lowestFree c.s
    (c.write fun s => s.setMsgAt h (some (freshMsg k mailbox w))).write (modMailbox mailbox (countOpen k))
  | _, _ => c

/-- R112, R113: the record that keeps n blocks, then the link entry of its new last block. -/
def cutShorten (h n : Nat) (c : Cut) : Cut :=
  match c.s.msgAt h with
  | none => c
  | some m =>
    let chain := chainOf c.s m
    let c := c.write fun s => s.setMsgAt h (some (cutRecord m chain n))
    let c := match (chain.take n).getLast? with
      | some b => c.write (setLink b none)
      | none => c
    c.work (freeBlocks (chain.drop n))

/-- R114, step 1: the mailbox's list, or the delete of its old greeting and then its greeting. -/
def cutFile (h : Nat) (m : Msg) (c : Cut) : Cut :=
  let c := if m.kind = .greeting then
      match (mailbox? c.s m.mailbox).bind (·.greeting) with
      | some old => cutDelete old c
      | none => c
    else c
  c.write (modMailbox m.mailbox (fileIn h m.kind))

/-- R113, R114: the discard of an empty message, or what is kept of it, its mailbox, and the record. -/
def cutClose (h : Nat) (reason : Byte) (c : Cut) : Cut :=
  match c.s.msgAt h with
  | none => c
  | some m =>
    let keep := keptCount c.s m reason
    if keep = 0 then (c.write (freeMessage h)).write (modMailbox m.mailbox (uncountOpen m.kind))
    else
      let m' := keptRecord m keep reason
      let c := if m' = m then c else c.write fun s => s.setMsgAt h (some m')
      let c := if keep < m.count then cutShorten h keep c else c
      (cutFile h m' c).write (closeRecord h)

/-- An OPEN message of a READY store, with its writer (R111). -/
def openRecord (s : State) (h : Nat) : Option (Msg × Writer) :=
  (s.msgAt h).bind fun m => m.writer.bind fun w => (openUnder s h w).map fun m => (m, w)

/-- R111: the block, its link entry, the link entry of the last block so far, then the record. -/
def cutAppend (h : Nat) (block : List Byte) (samples : Nat) (c : Cut) : Cut :=
  match openRecord c.s h, c.s.msc.freeList with
  | none, _ => c
  | some _, [] => cutClose h reasonStoreFull c
  | some (m, _), b :: _ =>
    let c := ((c.work takeFreeBlock).write (writeData b block)).write (setLink b none)
    let c := match m.last with
      | some l => c.write (setLink l (some b))
      | none => c
    c.write fun s => s.setMsgAt h (some (appendRecord m b block samples))

/-- R112: a rollback of a FAX message. -/
def cutRollBack (h : Nat) (c : Cut) : Cut :=
  match openRecord c.s h with
  | some (m, _) => if m.kind = .fax && m.count != m.pageMark then cutShorten h m.pageMark c else c
  | none => c

/-- R117: a mark; HEARD and UNHEARD are one write. -/
def cutMark (h : Nat) (mark : Option Mark) (c : Cut) : Cut :=
  if (markMessage h mark c.s).2 = codeOk then
    if mark = some .delete then cutDelete h c else c.write fun s => (markMessage h mark s).1
  else c

/-- R119: the scan's work on one record, a write where the record becomes FREE. -/
def cutScanRecord (h : Nat) (c : Cut) : Cut :=
  if (scanRecord h c.s).msgAt h = c.s.msgAt h then c.work (scanRecord h) else c.write (scanRecord h)

/-- R120: the scan's work on one mailbox, a write where it changes the record. -/
def cutScanMailbox (number : Nat) (c : Cut) : Cut :=
  match mailbox? c.s number with
  | some b => if scanMailbox c.s b = b then c else c.write fun s => modMailbox number (scanMailbox s) s
  | none => c

/-- R119, R120: the records in ascending handle order, then the mailboxes. -/
def cutScan (c : Cut) : Cut :=
  let c := cutEach (List.range 512) cutScanRecord (c.work enterScanning)
  cutEach (c.s.msc.mbxs.map (·.number)) cutScanMailbox c

/-- An operation, write by write. -/
def cutOp : StoreOp → Cut → Cut
  | .create number limit, c => if createResult c.s number limit = codeOk then c.write (addMailbox number limit) else c
  | .remove number, c => if removeResult c.s number = codeOk then cutRemove number c else c
  | .openMessage mailbox kind station context, c =>
    cutOpen mailbox (msgKindOf kind.val) (match station with
      | some p => .peer p context.val
      | none => .here context) c
  | .append h block samples, c => cutAppend h.val block samples c
  | .endPage h damaged, c => match openRecord c.s h.val with
    | some (_, w) => c.write fun s => (endPage h.val w damaged s).1
    | none => c
  | .rollBack h, c => cutRollBack h.val c
  | .close h reason, c => if (openRecord c.s h.val).isSome then cutClose h.val reason c else c
  | .mark h mark, c => cutMark h.val (markOf mark) c
  | .leave h station context, c => c.write (leaveMessage h.val station context)
  | .scan, c => cutScan c

/-- The station as it stands when its power goes: the operations in turn, up to as many writes as were done (R102). -/
def interrupted (loss : PowerLoss) (s : State) : State :=
  (cutEach loss.ops cutOp { left := loss.writes, s }).s

end Sys2Proof.Machine
end

