-- ==== Sys2Proof/Machine/HighwayCommands.lean ====
section
/-! DEFINITION. The commands of the highway, of the part's clocks, of power-on and of the control line. -/
namespace Sys2Proof.Machine

/-! ### Power-on, clocks and alignment -/

/-- POWER_ON (R43), over the message memory as the loss of power left it (R102). -/
def execPowerOn (straps : Straps) (loss : PowerLoss) (s : State) : Host.Outcome State Fault Refusal :=
  goOn (powerOn straps.station straps.storeSize (interrupted loss s))

/-- FRAME_WORD_SEARCH: a window examined in SEARCH, whose first bit is at a counter value (R5). -/
def execFrameWordSearch (position : Fin 2176) (window : Byte) (s : State) : Host.Outcome State Fault Refusal :=
  act (s.hwi.align == .search)
    (let f := frameNumber window
     s.modHwi fun h => { h with
       bitCounter := afterWindow position.val
       align := if hasAlignCode window then .verify (positionOf position.val f) 1 (nextFrame f) else .search }) s

/-- The counter value at the window that VERIFY reads: one frame after the last good word (R6). -/
def verifyPlace (p : Nat) (f : Fin 8) : Nat := frameWordPlace p f

/-- R6: a window in VERIFY. -/
def verifyWindow (p n : Nat) (f : Fin 8) (window : Byte) (s : State) : State :=
  let s := s.modHwi fun h => { h with bitCounter := afterWindow (verifyPlace p f) }
  if isFrameWord window f then
    if n + 1 < 3 then s.modHwi fun h => { h with align := .verify p (n + 1) (nextFrame f) } else enterAligned p s
  else s.modHwi fun h => { h with align := .search }

/-- FRAME_WORD_VERIFY (R6). -/
def execFrameWordVerify (window : Byte) (s : State) : Host.Outcome State Fault Refusal :=
  match s.hwi.align with
  | .verify p n f => act true (verifyWindow p n f window s) s
  | _ => goOn s

/-- R7: a window in ALIGNED at the frame-word place of frame f. The fourth bad word brings the error count to 4, where it
stands until the next entry to ALIGNED (DESIGN CHOICE, log entry 61). -/
def alignedWindow (p : Nat) (f : Fin 8) (window : Byte) (s : State) : State :=
  let errors := s.hwi.errors + 1
  let s := s.modHwi fun h => { h with bitCounter := afterWindow (frameWordPlace p f) }
  if isFrameWord window f then s.modHwi fun h => { h with errors := 0 }
  else if errors < 4 then s.modHwi fun h => { h with errors }
  else loseAlignment (s.modHwi fun h => { h with align := .search, errors := 4 })

/-- FRAME_WORD_ALIGNED (R7). -/
def execFrameWordAligned (frame : Fin 8) (window : Byte) (s : State) : Host.Outcome State Fault Refusal :=
  match s.hwi.align with
  | .aligned p => act true (alignedWindow p frame window s) s
  | _ => goOn s

/-- TICK_COUNT_LIMIT: the tick count reaches 32767 without a boundary (R12). -/
def execTickCountLimit (s : State) : Host.Outcome State Fault Refusal :=
  act (givesSessionTime s) (loseAlignment s) s

/-- HIGHWAY_FRAME: one frame while ALIGNED (R9). -/
def execHighwayFrame (frame : Fin 8) (rx : List Byte) (rxSig : Byte) (back : List Byte) (backSig : Byte) (s : State) :
    Host.Outcome State Fault Refusal :=
  act (isAligned s) (highwayFrame frame rx rxSig back backSig s) s

/-- SUPERFRAME_BOUNDARY (R9). -/
def execSuperframeBoundary (ticks : Nat) (s : State) : Host.Outcome State Fault Refusal :=
  act (isAligned s) (superframeBoundary ticks s) s

/-- LOCAL_STATION_TIME_COUNT: the local count reaches 24,576 (R10). -/
def execLocalStationTimeCount (s : State) : Host.Outcome State Fault Refusal :=
  act (!isAligned s) (stationTick (s.modHwi fun h => { h with localCount := 0 })) s

/-- MINUTE_CLOCK_STEP: the sub-minute count reaches 60000 (R44). -/
def execMinuteClockStep (s : State) : Host.Outcome State Fault Refusal :=
  act (60000 ≤ s.cfu.subMinute)
    (s.modCfu fun u => { u with subMinute := u.subMinute - 60000, minute := u.minute + 1 }) s

/-- R18: the hold period has run out. The fault HIGHWAY_LOST is written, with its event, after the calls have ended, an
order that no rule gives (DESIGN CHOICE, log entry 65). The contexts go in ascending order (DESIGN CHOICE, log entry
80). -/
def holdRunsOut (s : State) : State :=
  let calls := heldCalls s
  let s := s.modHwi fun h => { h with
    hold := none, channels := h.channels.map fun c => { c with aside := false } }
  writeFault .highwayLost calls (forEach contextIds holdExpires s)

/-- HOLD_PERIOD_EXPIRY (R18). -/
def execHoldPeriodExpiry (s : State) : Host.Outcome State Fault Refusal :=
  act (s.hwi.hold == some 0 && !isAligned s) (holdRunsOut s) s

/-- START_UP_SCAN_END (R120, R38). -/
def execStartUpScanEnd (s : State) : Host.Outcome State Fault Refusal :=
  act (s.msc.state == .scanning) (leaveStarting (finishScan s)) s

/-! ### The control line -/

/-- LINE_FREE (R23, R24): `others` are the arbitration bytes of the other senders. -/
def execLineFree (others : List Byte) (s : State) : Host.Outcome State Fault Refusal :=
  act (inTransmission s).isNone (lineFalls others s) s

/-- CELL_RECEIVED (R23, R25, R26). -/
def execCellReceived (bytes : List Byte) (ending : CellEnd) (s : State) : Host.Outcome State Fault Refusal :=
  act true (cellArrives bytes ending s) s

/-- CELL_OUTCOME (R31). -/
def execCellOutcome (r : SendResult) (s : State) : Host.Outcome State Fault Refusal :=
  decideCell (fun _ => true) r s

/-- CLAIM_OUTCOME: the outcome of this station's CLAIM (R31, R60). -/
def execClaimOutcome (r : SendResult) (s : State) : Host.Outcome State Fault Refusal :=
  decideCell (fun kind => kind == kindClaim) r s

/-- RELEASE_OUTCOME: the outcome of this station's RELEASE changes no view (R31, R54). -/
def execReleaseOutcome (r : SendResult) (s : State) : Host.Outcome State Fault Refusal :=
  decideCell (fun kind => kind == kindRelease) r s

/-- How a cell becomes UNDELIVERED on the line. -/
def undeliveredBy (sendError : Bool) : SendResult := if sendError then .sendError else .noAck

/-- DEPOSIT_CELL_UNDELIVERED: a DEPOSIT_OPEN, DEPOSIT_CLOSE or DEPOSIT_ROLLBACK (R124, R131). -/
def execDepositCellUndelivered (sendError : Bool) (s : State) : Host.Outcome State Fault Refusal :=
  decideCell (fun kind => kind == kindDepositOpen || kind == kindDepositClose || kind == kindDepositRollback)
    (undeliveredBy sendError) s

/-- FETCH_OPEN_UNDELIVERED (R132, R134). -/
def execFetchOpenUndelivered (sendError : Bool) (s : State) : Host.Outcome State Fault Refusal :=
  decideCell (fun kind => kind == kindFetchOpen) (undeliveredBy sendError) s

/-- A held producer offers its cell again (R29). -/
def offerAgain (p : StreamProducer) (s : State) : State :=
  match p with
  | .deposit k => pumpDeposit k s
  | .fetchData => pumpFetchData s
  | .dataRx k => reofferRx k s

/-- ROOM_APPEARED: the held set is emptied, and each producer offers again (R29; DESIGN CHOICE, log entry 11). -/
def execRoomAppeared (s : State) : Host.Outcome State Fault Refusal :=
  act (s.clc.held != [])
    (forEach s.clc.held offerAgain (s.modClc fun l => { l with held := [] })) s

end Sys2Proof.Machine
end

