-- ==== Sys2Proof/Machine/PeerCommands.lean ====
section
/-! DEFINITION. The commands that hand a peer's cell to its owner: answers, claims, deposits and fetches. -/
namespace Sys2Proof.Machine

/-! ### Answers and cells with no owner (R27, R136) -/

/-- ANSWER: the Remote Access Unit takes the ANSWER to this station's MSG_MARK and acts no further on it (R136). -/
def execAnswer (s : State) : Host.Outcome State Fault Refusal := handPeer kindAnswer (fun _ _ t => t) s

/-- UNOWNED_CELL_DISCARDED: an accepted cell of a kind that no block of a station takes (R27, R33). -/
def execUnownedCellDiscarded (s : State) : Host.Outcome State Fault Refusal :=
  handOver (fun c => !ownedKinds.contains c.kind) (fun _ t => t) s

/-! ### Channels (R53, R54, R61, R62) -/

/-- The channel in byte 0 of a CLAIM, RELEASE or DISPUTE; a channel above 31 makes the TCM discard the cell (R175). -/
def withChannel (owner : Fin 8 → Channel → State → State) (p : Fin 8) (c : Cell) (s : State) : State :=
  match channelOf (field c.payload 0 1) with
  | some ch => owner p ch s
  | none => s

/-- A CLAIM whose purpose is above 1 is discarded (R175). -/
def claimOwner (p : Fin 8) (c : Cell) (s : State) : State :=
  if field c.payload 1 1 ≤ 1 then withChannel takeClaim p c s else s

/-- CLAIM (R53, R61). -/
def execClaim (s : State) : Host.Outcome State Fault Refusal := handPeer kindClaim claimOwner s

/-- RELEASE (R54). -/
def execRelease (s : State) : Host.Outcome State Fault Refusal := handPeer kindRelease (withChannel takeRelease) s

/-- DISPUTE (R62). -/
def execDispute (s : State) : Host.Outcome State Fault Refusal := handPeer kindDispute (withChannel takeDispute) s

/-! ### Deposits at the home (R123, R126 to R130, R137) -/

/-- A cell that a home takes only while READY and LOCKED (R137). -/
def atHome (owner : Fin 8 → Cell → State → State) (p : Fin 8) (c : Cell) (s : State) : State :=
  if homeTakes s then owner p c s else s

/-- DEPOSIT_OPEN (R123). -/
def execDepositOpen (s : State) : Host.Outcome State Fault Refusal := handPeer kindDepositOpen takeDepositOpen s

/-- DEPOSIT_DATA (R126, R127). -/
def execDepositData (s : State) : Host.Outcome State Fault Refusal := handPeer kindDepositData (atHome takeDepositData) s

/-- DEPOSIT_ROLLBACK (R129). -/
def execDepositRollback (s : State) : Host.Outcome State Fault Refusal :=
  handPeer kindDepositRollback (atHome takeRollback) s

/-- DEPOSIT_CLOSE (R130). -/
def execDepositClose (s : State) : Host.Outcome State Fault Refusal :=
  handPeer kindDepositClose (atHome takeDepositClose) s

/-! ### Deposits at the depositor (R124, R127, R128, R130, R131) -/

/-- The outbound deposit record of the context that a cell's tag names, ended when the cell ends it. -/
def endsDeposit (ends : OutDeposit → Cell → Option DepositOutcome) (_ : Fin 8) (c : Cell) (s : State) : State :=
  match contextOf c.tag.toNat with
  | none => s
  | some k =>
    match s.outbound k with
    | none => s
    | some d =>
      match ends d c with
      | some o => depositEnds k d o s
      | none => s

/-- DEPOSIT_ACCEPT (R124, R131). -/
def execDepositAccept (s : State) : Host.Outcome State Fault Refusal :=
  handPeer kindDepositAccept (fun _ c t => takeAccept (contextOf c.tag.toNat) c t) s

/-- DEPOSIT_REFUSE (R124, R128, R130). -/
def execDepositRefuse (s : State) : Host.Outcome State Fault Refusal := handPeer kindDepositRefuse (endsDeposit refuseEnds) s

/-- BLOCK_TAKEN (R128). -/
def execBlockTaken (s : State) : Host.Outcome State Fault Refusal :=
  handPeer kindBlockTaken (fun _ c t =>
    match contextOf c.tag.toNat with
    | some k => takeBlockTaken k c t
    | none => t) s

/-- DEPOSIT_CLOSED (R127, R130). -/
def execDepositClosed (s : State) : Host.Outcome State Fault Refusal := handPeer kindDepositClosed (endsDeposit closedEnds) s

/-! ### Fetches at the home (R132, R133, R134, R137) -/

/-- FETCH_OPEN (R132). -/
def execFetchOpen (s : State) : Host.Outcome State Fault Refusal := handPeer kindFetchOpen takeFetchOpen s

/-- FETCH_BLOCK (R133). -/
def execFetchBlock (s : State) : Host.Outcome State Fault Refusal := handPeer kindFetchBlock (atHome takeFetchBlock) s

/-- A FETCH_CLOSE for a reader that is not in the list changes nothing (R134). -/
def takeFetchClose (p : Fin 8) (c : Cell) (s : State) : State :=
  let h := field c.payload 0 2
  match s.msgAt h with
  | none => s
  | some m => if hasReader m p c.tag.toNat then dropReader h p c.tag.toNat s else s

/-- FETCH_CLOSE (R134). -/
def execFetchClose (s : State) : Host.Outcome State Fault Refusal := handPeer kindFetchClose (atHome takeFetchClose) s

/-! ### Fetches at the reader (R97, R132, R134) -/

/-- The session that asked for a fetch is given the kind, the length and the block count (R132). -/
def grantSession (k : ContextId) (c : Cell) (s : State) : State :=
  let x := s.at k
  let kind := msgKindOf (field c.payload 2 1)
  if fetchPlays x then playGranted k .fetched kind (field c.payload 3 3) (field c.payload 6 2) s
  else if x.session = .fax && x.fax.role = some .send then
    (if x.fax.phase = .disconnecting then endFetch k s else faxGranted k .fetched kind (field c.payload 6 2) s)
  else endFetch k s

/-- R132: a FETCH_GRANT at the reader. One that names a handle above 511 is discarded (R175). -/
def takeGrant (_ : Fin 8) (c : Cell) (s : State) : State :=
  let handle := field c.payload 0 2
  if 511 < handle then s
  else match contextOf c.tag.toNat, grantFinds s (contextOf c.tag.toNat) c with
  | some k, .opening => grantSession k c (openFetch k handle s)
  | _, .same => s
  | _, _ => offerOther (protocolCell s c.src kindFetchClose c.tag (beOpt2 (some handle))) 0 none s

/-- FETCH_GRANT (R132). -/
def execFetchGrant (s : State) : Host.Outcome State Fault Refusal := handPeer kindFetchGrant takeGrant s

/-- R132, R134: a FETCH_REFUSE at the reader. -/
def takeFetchRefuse (_ : Fin 8) (c : Cell) (s : State) : State :=
  match contextOf c.tag.toNat with
  | none => s
  | some k =>
    match s.fetch k with
    | none => s
    | some f =>
      match fetchRefuseEnds f c with
      | some o => fetchEnds k o s
      | none => s

/-- FETCH_REFUSE (R132, R134). -/
def execFetchRefuse (s : State) : Host.Outcome State Fault Refusal := handPeer kindFetchRefuse takeFetchRefuse s

def Slot.isReady : Slot → Bool
  | .ready _ _ => true
  | _ => false

/-- A part joins the slot of a fax send; a block that becomes READY feeds the page (R159). -/
def placeFaxPart (k : ContextId) (index part : Nat) (bytes : List Byte) (s : State) : State :=
  let s := s.modFax k fun f => { f with buffer := f.buffer.map fun x => x.place index part bytes }
  if ((s.at k).fax.buffer.find index).isReady then feed k (fetchSettle k index s) else s

/-- A part joins the slot of a playback; a decoder that stands in UNDERRUN for the block goes on (R97, R98). -/
def placePlayPart (k : ContextId) (index part : Nat) (bytes : List Byte) (s : State) : State :=
  let s := s.modVcd k fun v => { v with buffer := v.buffer.map fun x => x.place index part bytes }
  if ((s.at k).vcd.buffer.find index).isReady then resumeDecoder k (fetchSettle k index s) else s

/-- R97, R134: a FETCH_DATA at the reader; the part number is bits 2..0 of the part byte (R175). -/
def takeFetchData (_ : Fin 8) (c : Cell) (s : State) : State :=
  match contextOf c.tag.toNat with
  | none => s
  | some k =>
    if fetchWants s k c then
      let index := field c.payload 2 2
      let part := field c.payload 4 1 % 8
      let bytes := c.payload.drop 5
      let s := fetchHeard k s
      if (s.at k).session = .fax then placeFaxPart k index part bytes s else placePlayPart k index part bytes s
    else s

/-- FETCH_DATA (R97, R134). -/
def execFetchData (s : State) : Host.Outcome State Fault Refusal := handPeer kindFetchData takeFetchData s

end Sys2Proof.Machine
end

