-- ==== Sys2Proof/Machine/PumpCommands.lean ====
section
/-! DEFINITION. The commands of the Data Pump: control frames and fax frames, readings, trainings and shifts, and link
blocks. A pump reports nothing while its context is held (R150, R162, R170). -/
namespace Sys2Proof.Machine

/-- Whether the pump of a context serves a session of a kind (R150, R170). -/
def pumpServes (s : State) (k : ContextId) (kind : SessionKind) : Bool :=
  (s.at k).state == .connected && (s.at k).session == kind && !(s.at k).held

/-- Whether a fax session of a role stands in a phase. -/
def faxIn (s : State) (k : ContextId) (role : FaxRole) (phase : FaxPhase) : Bool :=
  pumpServes s k .fax && (s.at k).fax.role == some role && (s.at k).fax.phase == phase

/-- Whether a data session stands in a phase. -/
def dataIn (s : State) (k : ContextId) (phase : DataPhase) : Bool :=
  pumpServes s k .data && (s.at k).qmn.phase == some phase

/-! ### Control frames taken (R150) -/

/-- CONTROL_FRAME_BAD_CHECK: the frame is discarded and the wait of the phase goes on (R150). -/
def execControlFrameBadCheck (_ : ContextId) (s : State) : Host.Outcome State Fault Refusal := goOn s

/-- CAPABILITY: taken once the open has been granted, and kept until then (R157); a later one replaces the one kept (DESIGN
CHOICE, log entry 70). -/
def execCapability (k : ContextId) (rate : Byte) (s : State) : Host.Outcome State Fault Refusal :=
  act (faxIn s k .send .awaitCapability)
    (if (s.at k).fax.granted then takeCapability k rate.toNat s
     else s.modFax k fun f => { f with keptCapability := some rate.toNat }) s

/-- MODE (R153). -/
def execMode (k : ContextId) (rate : Byte) (s : State) : Host.Outcome State Fault Refusal :=
  act (faxIn s k .receive .awaitMode || faxIn s k .receive .awaitPage) (takeMode k rate.toNat s) s

/-- A training verdict, kept when it arrives before the training's end (R158); a later one replaces the one kept (DESIGN
CHOICE, log entry 70). -/
def trainVerdict (k : ContextId) (good : Bool) (s : State) : Host.Outcome State Fault Refusal :=
  act (faxIn s k .send .awaitTrainVerdict || faxIn s k .send .sendTraining)
    (if (s.at k).fax.phase = .sendTraining then s.modFax k fun f => { f with keptVerdict := some good }
     else takeTrainVerdict k good s) s

/-- TRAIN_GOOD (R158). -/
def execTrainGood (k : ContextId) (s : State) : Host.Outcome State Fault Refusal := trainVerdict k true s
/-- TRAIN_BAD (R158). -/
def execTrainBad (k : ContextId) (s : State) : Host.Outcome State Fault Refusal := trainVerdict k false s

/-- Whether a page stands before the receiver (R154, R155). -/
def receivesPage (s : State) (k : ContextId) : Bool := faxIn s k .receive .awaitPage || faxIn s k .receive .page

/-- PAGE_END (R155). -/
def execPageEnd (k : ContextId) (last : Bool) (s : State) : Host.Outcome State Fault Refusal :=
  act (receivesPage s k) (takePageEnd k last s) s

/-- PAGE_GOOD (R160). -/
def execPageGood (k : ContextId) (s : State) : Host.Outcome State Fault Refusal :=
  act (faxIn s k .send .awaitPageVerdict) (takePageGood k s) s
/-- PAGE_RETRAIN (R160). -/
def execPageRetrain (k : ContextId) (s : State) : Host.Outcome State Fault Refusal :=
  act (faxIn s k .send .awaitPageVerdict) (takePageRetrain k s) s
/-- PAGE_BAD (R160). -/
def execPageBad (k : ContextId) (s : State) : Host.Outcome State Fault Refusal :=
  act (faxIn s k .send .awaitPageVerdict) (takePageBad k s) s

/-- DISCONNECT from the far machine, in any phase before the session's own ending (R150). -/
def execDisconnect (k : ContextId) (s : State) : Host.Outcome State Fault Refusal :=
  act (pumpServes s k .fax && (s.at k).fax.phase != .off && (s.at k).fax.phase != .disconnecting) (takeDisconnect k s) s

/-! ### Frames and their ends -/

/-- FAX_FRAME_RECEIVED (R151, R154). -/
def execFaxFrameReceived (k : ContextId) (good : Bool) (number : Byte) (data : List Byte) (s : State) :
    Host.Outcome State Fault Refusal :=
  act (receivesPage s k) (takeFaxFrame k good number.toNat data s) s

/-- R150, R161: the oldest control frame has gone out; a DISCONNECT ends the session. -/
def controlSent (k : ContextId) (s : State) : State :=
  let f := (s.at k).fax
  let sent := (s.at k).pump.control.head?
  let s := s.modPump k fun p => { p with control := p.control.tail }
  if sent = some .disconnect && f.phase = .disconnecting then faxSessionEnds k (f.result.getD codeFaxFailed) s else s

/-- CONTROL_FRAME_SENT (R150). -/
def execControlFrameSent (k : ContextId) (s : State) : Host.Outcome State Fault Refusal :=
  act (pumpServes s k .fax && (s.at k).pump.control != []) (controlSent k s) s

/-- SEND_TRAINING_END (R158). -/
def execSendTrainingEnd (k : ContextId) (s : State) : Host.Outcome State Fault Refusal :=
  act (faxIn s k .send .sendTraining) (sendTrainingOver k s) s

/-- PAGE_LAST_FRAME_SENT (R159). A page without data has no frame; it too stays in SENDING until this command, which then
says that the pump has nothing left of it to send (DESIGN CHOICE, log entry 69). -/
def execPageLastFrameSent (k : ContextId) (s : State) : Host.Outcome State Fault Refusal :=
  act (faxIn s k .send .sending && (s.at k).fax.pageEnd.isSome)
    (pageSent k (((s.at k).fax.pageEnd.map (·.2)).getD true) s) s

/-- FAX_WAIT_TIMER_EXPIRY (R156, R160). -/
def execFaxWaitTimerExpiry (k : ContextId) (s : State) : Host.Outcome State Fault Refusal :=
  act (pumpServes s k .fax && (s.at k).fax.wait == some 0) (faxWaitOver k s) s

/-! ### Readings, trainings and shifts -/

/-- Whether a data session takes readings (R162). -/
def takesReadings (s : State) (k : ContextId) : Bool := dataIn s k .training || dataIn s k .retraining || dataIn s k .up

/-- NOISE_READING (R153, R162). -/
def execNoiseReading (k : ContextId) (r : BitVec 12) (s : State) : Host.Outcome State Fault Refusal :=
  act (faxIn s k .receive .training || takesReadings s k)
    (if (s.at k).session = .fax then faxReading k r.toNat s else dataReading k r.toNat s) s

/-- SHIFT_ENDED (R165). -/
def execShiftEnded (k : ContextId) (s : State) : Host.Outcome State Fault Refusal :=
  act (dataIn s k .shifting) (shiftOver k s) s

/-- SHIFT_FAILED: the shift becomes a retrain with its target and reason TIMING (R165). -/
def execShiftFailed (k : ContextId) (s : State) : Host.Outcome State Fault Refusal :=
  act (dataIn s k .shifting) (askRetrain k .timing s) s

/-- Whether a data session is in a training (R167). -/
def inTraining (s : State) (k : ContextId) : Bool := dataIn s k .training || dataIn s k .retraining

/-- TRAINING_FAILED (R167). -/
def execTrainingFailed (k : ContextId) (s : State) : Host.Outcome State Fault Refusal :=
  act (inTraining s k) (dataEnds k codeLinkFailed s) s

/-- TRAINING_TIMER_EXPIRY (R167). -/
def execTrainingTimerExpiry (k : ContextId) (s : State) : Host.Outcome State Fault Refusal :=
  act (inTraining s k && (s.at k).qmn.timer == some 0) (dataEnds k codeLinkFailed s) s

/-- FAR_END_SHIFT_REQUEST (R168). -/
def execFarEndShiftRequest (k : ContextId) (rate : Byte) (s : State) : Host.Outcome State Fault Refusal :=
  act (dataIn s k .up) (takeShiftRequest k rate.toNat s) s

/-- REMOTE_TRAINING (R166). -/
def execRemoteTraining (k : ContextId) (s : State) : Host.Outcome State Fault Refusal :=
  act (pumpServes s k .data) (askRetrain k .remote s) s

/-! ### Link blocks (R170 to R172) -/

/-- Whether link blocks move on a context's data session (R170). -/
def linkServes (s : State) (k : ContextId) : Bool := dataIn s k .up

/-- DATA_BLOCK_RECEIVED (R172). -/
def execDataBlockReceived (k : ContextId) (sequence : BitVec 4) (data : List Byte) (s : State) :
    Host.Outcome State Fault Refusal :=
  act (linkServes s k) (takeLinkData k sequence data s) s

/-- LINK_BLOCK_BAD_CHECK (R164, R172). One that comes while UP before the first reading of a window counts in that
window (DESIGN CHOICE, log entry 77). -/
def execLinkBlockBadCheck (k : ContextId) (s : State) : Host.Outcome State Fault Refusal :=
  act (linkServes s k) (s.modQmn k fun q => { q with errors := satAdd 255 q.errors 1 }) s

/-- ACK_RECEIVED (R170, R171). -/
def execAckReceived (k : ContextId) (n : BitVec 4) (s : State) : Host.Outcome State Fault Refusal :=
  act (linkServes s k) (takeAck k n s) s

/-- HOLD_RECEIVED (R171). -/
def execHoldReceived (k : ContextId) (n : BitVec 4) (s : State) : Host.Outcome State Fault Refusal :=
  act (linkServes s k) (takeHold k n s) s

/-- RESEND_TIMER_EXPIRY (R170). -/
def execResendTimerExpiry (k : ContextId) (s : State) : Host.Outcome State Fault Refusal :=
  act (linkServes s k && (s.at k).lkc.resend == some 0) (resendOver k s) s

/-- REMOTE_HOLD_EXPIRY (R171). -/
def execRemoteHoldExpiry (k : ContextId) (s : State) : Host.Outcome State Fault Refusal :=
  act (linkServes s k && (s.at k).lkc.remoteHold == some 0) (dataEnds k codeLinkFailed s) s

end Sys2Proof.Machine
end

