-- ==== Sys2Proof/Machine/RequestCommands.lean ====
section
/-! DEFINITION. The commands that hand a gateway request, a mark or a mailbox query to its owner. -/
namespace Sys2Proof.Machine

/-! ### Station requests (chapter 3) -/

/-- CONFIGURE (R40). -/
def execConfigure (s : State) : Host.Outcome State Fault Refusal := handRequest kindConfigure configure s

/-- RESTART (R42). -/
def execRestart (freeLineBetween : Bool) (s : State) : Host.Outcome State Fault Refusal :=
  handRequest kindRestart (fun c s => restart c freeLineBetween s) s

/-- SET_TIME (R44). -/
def execSetTime (s : State) : Host.Outcome State Fault Refusal := handRequest kindSetTime setClock s

/-- Hand over a STATUS_QUERY of a selector; one whose selector or length is not allowed is answered BAD_FIELD by any of
the six commands (R45; DESIGN CHOICE, log entry 30). -/
def handQuery (selector : Nat) (owner : Cell → State → State) (s : State) : Host.Outcome State Fault Refusal :=
  handOver
    (fun c => c.kind == kindStatusQuery
      && (!lengthAllowed c.kind c.payload.length || 5 < field c.payload 0 1 || field c.payload 0 1 == selector))
    (requestOwner fun c s => if 5 < field c.payload 0 1 then sendAnswer c codeBadField s else owner c s) s

/-- STATUS_QUERY with selector STATION (R45). -/
def execStatusQueryStation (s : State) : Host.Outcome State Fault Refusal := handQuery 0 queryStation s
/-- STATUS_QUERY with selector CONTEXT (R45). -/
def execStatusQueryContext (s : State) : Host.Outcome State Fault Refusal := handQuery 1 queryContext s
/-- STATUS_QUERY with selector MAP (R45). -/
def execStatusQueryMap (s : State) : Host.Outcome State Fault Refusal := handQuery 2 queryMap s
/-- STATUS_QUERY with selector MAILBOX (R45). -/
def execStatusQueryMailbox (s : State) : Host.Outcome State Fault Refusal := handQuery 3 queryMailbox s
/-- STATUS_QUERY with selector MESSAGE (R45). -/
def execStatusQueryMessage (s : State) : Host.Outcome State Fault Refusal := handQuery 4 queryMessage s
/-- STATUS_QUERY with selector FAULTS (R45). -/
def execStatusQueryFaults (s : State) : Host.Outcome State Fault Refusal := handQuery 5 queryFaults s

/-- FAULT_CLEAR (R47). -/
def execFaultClear (s : State) : Host.Outcome State Fault Refusal := handRequest kindFaultClear clearFaults s

/-! ### Mailboxes (R108, R109, R136) -/

/-- R108. -/
def createMailbox (c : Cell) (s : State) : State :=
  let number := field c.payload 0 2
  let limit := field c.payload 2 1
  let result := createResult s number limit
  sendAnswer c result
    (if result = codeOk then addMailbox number limit s else s)

/-- MBOX_CREATE (R108). -/
def execMboxCreate (s : State) : Host.Outcome State Fault Refusal :=
  handRequest kindMboxCreate (whenActive createMailbox) s

/-- R109: the checks, the deletes, then the ANSWER, so that it follows a STORE_OK that a delete causes (DESIGN CHOICE, log
entry 83). -/
def removeMailbox (c : Cell) (s : State) : State :=
  let number := field c.payload 0 2
  let result := removeResult s number
  sendAnswer c result (if result = codeOk then dropMailbox number s else s)

/-- MBOX_REMOVE (R109). -/
def execMboxRemove (s : State) : Host.Outcome State Fault Refusal :=
  handRequest kindMboxRemove (whenActive removeMailbox) s

/-- R136: the answer to an MBOX_QUERY, in the order of its table. -/
def queryList (c : Cell) (s : State) : State :=
  let number := field c.payload 0 2
  if 999 < number then sendAnswer c codeBadField s
  else if s.msc.state = .scanning then sendAnswer c codeStoreBusy s
  else if s.cfu.config.isNone then sendAnswer c codeNotConfigured s
  else if !isHome s number then sendAnswer c codeNotHome s
  else match mailbox? s number with
    | none => sendAnswer c codeNoSuch s
    | some b => sendMailboxList c b s

/-- MBOX_QUERY (R136). -/
def execMboxQuery (s : State) : Host.Outcome State Fault Refusal := handRequest kindMboxQuery queryList s

/-- R117, R136: a MSG_MARK from the gateway or a peer, with its ANSWER after a STORE_OK that a delete causes (DESIGN CHOICE,
log entry 83). -/
def takeMark (c : Cell) (s : State) : State :=
  if c.src != gateway && (stationOf c.src).isNone then s
  else if !lengthAllowed c.kind c.payload.length then sendAnswer c codeBadField s
  else
    let r := markMessage (field c.payload 0 2) (markOf (byteAt c.payload 2)) s
    sendAnswer c r.2 r.1

/-- Hand over a MSG_MARK of a mark; one whose mark or length is not allowed is answered by any of the three commands
(DESIGN CHOICE, log entry 30). -/
def handMark (mark : Mark) (s : State) : Host.Outcome State Fault Refusal :=
  handOver
    (fun c => c.kind == kindMsgMark
      && (!lengthAllowed c.kind c.payload.length || (markOf (byteAt c.payload 2)).isNone
        || markOf (byteAt c.payload 2) == some mark))
    takeMark s

/-- MSG_MARK with mark HEARD (R117). -/
def execMsgMarkHeard (s : State) : Host.Outcome State Fault Refusal := handMark .heard s
/-- MSG_MARK with mark UNHEARD (R117). -/
def execMsgMarkUnheard (s : State) : Host.Outcome State Fault Refusal := handMark .unheard s
/-- MSG_MARK with mark DELETE (R117). -/
def execMsgMarkDelete (s : State) : Host.Outcome State Fault Refusal := handMark .delete s

/-! ### OUTDIAL and DROP (R77, R84) -/

/-- The purpose of an OUTDIAL with its argument (12, Payloads). -/
def purposeOf (p : List Byte) : Option CallPurpose :=
  match field p 0 1 with
  | 0 => some .plain
  | 1 => some (.play (field p 1 1) (field p 2 2))
  | 2 => some (.faxSend (field p 1 1) (field p 2 2))
  | 3 => let b := rateBounds (field p 1 1) (field p 2 1); some (.data b.1 b.2)
  | _ => none

/-- R77, step 1. -/
def badDigits (dial : List Byte) : Bool := dial == [] || 24 < dial.length || !(dial.all isDialChar)

/-- R77: an OUTDIAL in an ACTIVE station. -/
def takeOutdial (c : Cell) (s : State) : State :=
  let dial := c.payload.drop 4
  if badDigits dial then sendAnswer c codeBadDigits s
  else match purposeOf c.payload with
    | none => sendAnswer c codeBadField s
    | some purpose =>
      match freeContext? s with
      | none => sendAnswer c codeNoContext s
      | some k =>
        match chooseFor k s with
        | (s, false) => sendAnswer c codeNoChannel s
        | (s, true) =>
          sendAnswerWith c codeOk (BitVec.ofNat 8 k.val) 0xFF (s.modCtx k fun x => { x with
            requestTag := some c.tag, outdialDone := false
            outgoing := some { dial, purpose, choiceRetried := false, glareRetried := false, tag := c.tag } })

/-- OUTDIAL (R77). -/
def execOutdial (s : State) : Host.Outcome State Fault Refusal := handRequest kindOutdial (whenActive takeOutdial) s

/-- R84: a DROP by the state of the named context. -/
def takeDrop (c : Cell) (s : State) : State :=
  match contextOf (field c.payload 0 1) with
  | none => sendAnswer c codeBadField s
  | some k =>
    match (s.at k).state with
    | .free => sendAnswer c codeNoContext s
    | .claiming => withdraw k .dropped (sendAnswer c codeOk s)
    | .clearing => sendAnswer c codeOk s
    | _ => endCall k codeLocalDrop (sendAnswer c codeOk s)

/-- DROP (R84). -/
def execDrop (s : State) : Host.Outcome State Fault Refusal := handRequest kindDrop (whenActive takeDrop) s

/-! ### Session requests (R141, R152, R157, R169, R173) -/

/-- Whether a context is CONNECTED with session kind VOICE (R141). -/
def inVoice (x : Context) : Bool := x.state == .connected && x.session == .voice

/-- R141: the checks of a session request, the end of the current activity, the ANSWER OK, and the new activity. -/
def sessionRequest (badField : Bool) (begin_ : ContextId → State → State) (c : Cell) (s : State) : State :=
  match contextOf (field c.payload 0 1) with
  | none => sendAnswer c codeBadField s
  | some k =>
    if badField then sendAnswer c codeBadField s
    else if !inVoice (s.at k) then sendAnswer c codeNoContext s
    else
      let s := (endActivity k s).modCtx k fun x => { x with requestTag := some c.tag }
      begin_ k (sendAnswer c codeOk s)

/-- R141: PLAY. -/
def takePlay (c : Cell) (s : State) : State :=
  let home := field c.payload 1 1
  let handle := field c.payload 2 2
  sessionRequest (511 < handle || 7 < home)
    (fun k s => beginPlay k (.message home handle) (field c.payload 4 3) s) c s

/-- PLAY (R141, R142). -/
def execPlay (s : State) : Host.Outcome State Fault Refusal := handRequest kindPlay (whenActive takePlay) s

/-- R141: the max block count a RECORD gives. -/
def recordBlocks (s : State) (n : Nat) : Nat := if n = 0 then (configOf s).maxBlocks else min 4095 n

/-- R141: RECORD. -/
def takeRecord (c : Cell) (s : State) : State :=
  let mailbox := field c.payload 1 2
  let kind : MsgKind := if (byteAt c.payload 5).getLsbD 0 then .greeting else .voice
  sessionRequest (999 < mailbox)
    (fun k s => startRecording k mailbox kind (recordBlocks s (field c.payload 3 2)) s) c s

/-- RECORD (R141, R144). -/
def execRecord (s : State) : Host.Outcome State Fault Refusal := handRequest kindRecord (whenActive takeRecord) s

/-- STOP (R141, R147). -/
def execStop (s : State) : Host.Outcome State Fault Refusal :=
  handRequest kindStop (whenActive (sessionRequest false enterWaiting)) s

/-- R152: FAX_RECEIVE. -/
def takeFaxReceive (c : Cell) (s : State) : State :=
  let mailbox := field c.payload 1 2
  sessionRequest (999 < mailbox) (fun k s => startFaxReceive k mailbox s) c s

/-- FAX_RECEIVE (R152). -/
def execFaxReceive (s : State) : Host.Outcome State Fault Refusal :=
  handRequest kindFaxReceive (whenActive takeFaxReceive) s

/-- R157: FAX_SEND. -/
def takeFaxSend (c : Cell) (s : State) : State :=
  let home := field c.payload 1 1
  let handle := field c.payload 2 2
  sessionRequest (511 < handle || 7 < home) (fun k s => startFaxSend k home handle s) c s

/-- FAX_SEND (R157). -/
def execFaxSend (s : State) : Host.Outcome State Fault Refusal := handRequest kindFaxSend (whenActive takeFaxSend) s

/-- R169: the bounds of a DATA_CONNECT; FFh and FFh take the configured ones. -/
def connectBounds (s : State) (lo hi : Nat) : Nat × Nat :=
  if lo = 255 && hi = 255 then ((configOf s).rateMin, (configOf s).rateMax) else rateBounds lo hi

/-- R169: DATA_CONNECT. -/
def takeDataConnect (c : Cell) (s : State) : State :=
  let mode := field c.payload 1 1
  sessionRequest (1 < mode)
    (fun k s => startData k (if mode = 0 then .answer else .originate)
      (connectBounds s (field c.payload 2 1) (field c.payload 3 1)) s) c s

/-- DATA_CONNECT (R169). -/
def execDataConnect (s : State) : Host.Outcome State Fault Refusal :=
  handRequest kindDataConnect (whenActive takeDataConnect) s

/-- R173: DATA_TX. FLOW(STOP) is queued before the ANSWER, as DATA_LOST is (DESIGN CHOICE, log entry 71). -/
def takeDataTx (c : Cell) (s : State) : State :=
  match contextOf (field c.payload 0 1) with
  | none => sendAnswer c codeBadField s
  | some k =>
    let x := s.at k
    if x.state = .connected && x.session = .data then
      pumpLink k (sendAnswer c codeOk (takeTx k (c.payload.drop 1) s))
    else sendAnswer c codeNoContext s

/-- DATA_TX (R173). -/
def execDataTx (s : State) : Host.Outcome State Fault Refusal := handRequest kindDataTx (whenActive takeDataTx) s

end Sys2Proof.Machine
end

