-- ==== Sys2Proof/Machine/TimerCommands.lean ====
section
/-! DEFINITION. The commands of the timers that run out: calls, dialling, voice, buffers, deposits, fetches and
readers. A timer stands at `some 0` from the superframe in which it runs out. -/
namespace Sys2Proof.Machine

/-- Whether a context's time runs and it stands in a state (R70). -/
def standsIn (s : State) (k : ContextId) (state : CtxState) : Bool := (s.at k).state == state && !(s.at k).held

/-- Whether a context stands in a state whose timer has run out. -/
def timerOut (s : State) (k : ContextId) (state : CtxState) : Bool := standsIn s k state && (s.at k).timer == some 0

/-! ### Channels -/

/-- Whether a bid's delay has run out (R58). -/
def bidDue (s : State) (k : ContextId) : Bool :=
  match s.bid k with
  | some b => b.timer == some 0
  | none => false

/-- BID_TIMER_EXPIRY (R58). -/
def execBidTimerExpiry (k : ContextId) (s : State) : Host.Outcome State Fault Refusal :=
  act (bidDue s k)
    (match s.bid k with
     | some b => offerBid k b.channel s
     | none => s) s

/-- BLOCK_TIMER_EXPIRY (R55). -/
def execBlockTimerExpiry (c : Channel) (s : State) : Host.Outcome State Fault Refusal :=
  act ((s.entry c).view == .blocked && (s.entry c).blockTimer == some 0) (setView c .unknown none s) s

/-! ### Calls -/

/-- ADDRESS_TIMER_EXPIRY (R74). -/
def execAddressTimerExpiry (k : ContextId) (s : State) : Host.Outcome State Fault Refusal :=
  act (timerOut s k .addressing) (collectionEnds k (configOf s).defaultMailbox s) s

/-- ANSWER_DELAY_EXPIRY (R75). -/
def execAnswerDelayExpiry (k : ContextId) (s : State) : Host.Outcome State Fault Refusal :=
  act (timerOut s k .answering) (enterDiscriminating k s) s

/-- R76: at the end of the 4 s the decision VOICE falls once the greeting and the beep have ended. -/
def discriminationTimeOver (k : ContextId) (s : State) : State :=
  if (s.at k).voice.step = some .record then discriminationEnds k s else setTimer k none s

/-- DISCRIMINATION_TIMER_EXPIRY (R76). -/
def execDiscriminationTimerExpiry (k : ContextId) (s : State) : Host.Outcome State Fault Refusal :=
  act (timerOut s k .discriminating) (discriminationTimeOver k s) s

/-- SEIZURE_GUARD_EXPIRY (R79). -/
def execSeizureGuardExpiry (k : ContextId) (s : State) : Host.Outcome State Fault Refusal :=
  act (timerOut s k .seized) (enterDialling k s) s

/-- Whether a phase of the Dial Generator takes a time of its own (R80). -/
def DialPhase.timed : DialPhase → Bool
  | .wait => false
  | .off => false
  | _ => true

/-- DIAL_PHASE_END (R80). -/
def execDialPhaseEnd (k : ContextId) (s : State) : Host.Outcome State Fault Refusal :=
  act (standsIn s k .dialling && (s.at k).dgn.left == 0 && (s.at k).dgn.phase.timed) (phaseOver k s) s

/-- DIAL_TONE_WAIT_EXPIRY (R82). -/
def execDialToneWaitExpiry (k : ContextId) (s : State) : Host.Outcome State Fault Refusal :=
  act (timerOut s k .dialling && (s.at k).dgn.phase == .wait) (endCall k codeNoDialTone s) s

/-- PROGRESS_TIMER_EXPIRY (R83). -/
def execProgressTimerExpiry (k : ContextId) (s : State) : Host.Outcome State Fault Refusal :=
  act (timerOut s k .progress) (endCall k codeNoAnswer s) s

/-! ### Clearing -/

/-- LET_GO: the eighth superframe of CLEARING (R67). -/
def execLetGo (k : ContextId) (s : State) : Host.Outcome State Fault Refusal :=
  act (standsIn s k .clearing && (s.at k).clearing == 8 && holdsAny s k)
    (match (s.at k).channel with
     | some c => letGo k c s
     | none => s) s

/-- The 10 s for which a channel that did not clear is BLOCKED (R68). -/
def blockTime : Nat := 10000

/-- R68: the clearing time has run out after the context let go. -/
def clearingOver (k : ContextId) (s : State) : State :=
  freeContext k (match (s.at k).channel with
    | some c => if (s.entry c).view = .free then setView c .blocked (some blockTime) s else s
    | none => s)

/-- CLEARING_TIME_EXPIRY (R68). -/
def execClearingTimeExpiry (k : ContextId) (s : State) : Host.Outcome State Fault Refusal :=
  act (timerOut s k .clearing && !holdsAny s k) (clearingOver k s) s

/-! ### Voice -/

/-- BEEP_TIMER_EXPIRY (R139). -/
def execBeepTimerExpiry (k : ContextId) (s : State) : Host.Outcome State Fault Refusal :=
  act (standsIn s k .discriminating && (s.at k).voice.activity == .beeping && (s.at k).voice.beep == some 0)
    (beepEnds k s) s

/-- IDLE_TIMER_EXPIRY (R147). -/
def execIdleTimerExpiry (k : ContextId) (s : State) : Host.Outcome State Fault Refusal :=
  act (standsIn s k .connected && (s.at k).session == .voice && (s.at k).voice.activity == .waiting
      && (s.at k).voice.idle == some 0)
    (endCall k codeIdleTimeout s) s

/-- DETECTOR_BLOCK_END (R85). -/
def execDetectorBlockEnd (k : ContextId) (m : Measurement) (s : State) : Host.Outcome State Fault Refusal :=
  act (detectorActive s k && detectorBlock ≤ (s.at k).detector.gathered.length) (detectorBlockEnds k m s) s

/-! ### Buffers (R97, R159) -/

/-- Whether a slot's 10 ms have run out. -/
def Slot.late : Slot → Bool
  | .arriving _ _ left => left == 0
  | _ => false

/-- The block whose slot is late while the decoder stands in UNDERRUN for it (R97). -/
def latePlayBlock (x : Context) : Option Nat :=
  match x.vcd.mark, x.vcd.current with
  | .underrun, some (b, _) => if (x.vcd.buffer.find b).late then some b else none
  | _, _ => none

/-- The block whose slot is late while a page that is being sent waits for it (R159). -/
def lateFaxBlock (x : Context) : Option Nat :=
  if x.session = .fax && x.fax.phase = .sending && x.fax.pageEnd.isNone && (x.fax.buffer.find x.fax.sendBlock).late then
    some x.fax.sendBlock
  else none

/-- R97: the late slot of a playback is completed, and the decoder goes on. -/
def fillPlaySlot (k : ContextId) (b : Nat) (s : State) : State :=
  resumeDecoder k (fetchSettle k b (s.modVcd k fun v => { v with
    buffer := v.buffer.map fun x => if x.index = some b then x.fill 0x80 playHeader else x }))

/-- The header taken for a slot whose part 0 is missing in a fax send (R159). -/
def faxSendHeader : List Byte := faxHeader 508 0 false false

/-- R159: the late slot of a fax send is completed, and the page goes on. -/
def fillFaxSlot (k : ContextId) (b : Nat) (s : State) : State :=
  feed k (fetchSettle k b (s.modFax k fun f => { f with
    buffer := f.buffer.map fun x => if x.index = some b then x.fill 0 faxSendHeader else x }))

/-- SLOT_FILL_TIMEOUT (R97, R159). -/
def execSlotFillTimeout (k : ContextId) (s : State) : Host.Outcome State Fault Refusal :=
  act (!(s.at k).held)
    (match lateFaxBlock (s.at k), latePlayBlock (s.at k) with
     | some b, _ => fillFaxSlot k b s
     | none, some b => fillPlaySlot k b s
     | none, none => s) s

/-! ### Deposits, fetches and readers (R126, R131, R134, R135) -/

/-- Whether `time` superframes of station time have passed since a moment. -/
def passed (s : State) (since time : Nat) : Bool := since + time ≤ s.cfu.stationTime

/-- The 50 ms of R126, the 2 s of R131, and the 10 s of R135, in superframes. -/
def assemblyTime : Nat := 50
def silenceTime : Nat := 2000
def readerTime : Nat := 10000

/-- Whether the assembly of a deposit has waited 50 ms for a further part (R126). -/
def assemblyDue (s : State) (h : Handle) : Bool :=
  match (depositEntry? s h.val).bind (·.assembly) with
  | some a => passed s a.started assemblyTime
  | none => false

/-- ASSEMBLY_TIMEOUT (R126). -/
def execAssemblyTimeout (h : Handle) (s : State) : Host.Outcome State Fault Refusal :=
  act (assemblyDue s h) (writeAssembly h.val s) s

/-- Whether a depositor has been silent for 2 s (R131). -/
def silenceDue (s : State) (h : Handle) : Bool :=
  match depositEntry? s h.val with
  | some e => passed s e.lastHeard silenceTime
  | none => false

/-- DEPOSIT_SILENCE_CLOSE (R131). -/
def execDepositSilenceClose (h : Handle) (s : State) : Host.Outcome State Fault Refusal :=
  act (silenceDue s h) (silenceClose h.val true s) s

/-- DEPOSIT_REPLY_TIMER_EXPIRY (R131). -/
def execDepositReplyTimerExpiry (k : ContextId) (s : State) : Host.Outcome State Fault Refusal :=
  match s.outbound k with
  | some d => act (d.timer == some 0) (depositEnds k d .homeSilent s) s
  | none => goOn s

/-- FETCH_REPLY_TIMER_EXPIRY (R132, R134). -/
def execFetchReplyTimerExpiry (k : ContextId) (s : State) : Host.Outcome State Fault Refusal :=
  match s.fetch k with
  | some f => act (f.timer == some 0) (fetchEnds k .homeSilent s) s
  | none => goOn s

/-- R134: the keep-alive of an OPEN fetch; its UNDELIVERED outcome ends nothing. -/
def sendKeepalive (k : ContextId) (f : Fetch) (s : State) : State :=
  sendForFetch k (fetchOpenCell s k f.home f.handle none) f.serial false s

/-- FETCH_KEEPALIVE (R134). -/
def execFetchKeepalive (k : ContextId) (s : State) : Host.Outcome State Fault Refusal :=
  match s.fetch k with
  | some f => act (f.state == .opened && f.keepalive == 0) (sendKeepalive k f s) s
  | none => goOn s

/-- Whether a remote reader of a message has been silent for 10 s (R135). -/
def readerDue (s : State) (h : Handle) (station : Fin 8) (context : Nat) : Bool :=
  match s.msg h with
  | some m =>
    station != s.cfu.station
      && m.readers.any fun r => isReader station context r && passed s r.lastActivity readerTime
  | none => false

/-- READER_SILENCE_DROP (R135). -/
def execReaderSilenceDrop (h : Handle) (station : Fin 8) (context : Nat) (s : State) :
    Host.Outcome State Fault Refusal :=
  act (readerDue s h station context) (dropReader h.val station context s) s

end Sys2Proof.Machine
end

