-- ==== Sys2Proof/Machine/Dispatch.lean ====
section
/-! DEFINITION. The dispatch: one arm for each command, one meaning for each arm. -/
namespace Sys2Proof.Machine

/-- The effect of a command on everything but the queue. -/
def exec (i : Instr) (s : State) : Host.Outcome State Fault Refusal :=
  match i with
  | .powerOn straps loss => Sys2Proof.Machine.execPowerOn straps loss s
  | .restart freeLineBetween => Sys2Proof.Machine.execRestart freeLineBetween s
  | .frameWordSearch position window => Sys2Proof.Machine.execFrameWordSearch position window s
  | .frameWordVerify window => Sys2Proof.Machine.execFrameWordVerify window s
  | .frameWordAligned frame window => Sys2Proof.Machine.execFrameWordAligned frame window s
  | .tickCountLimit => Sys2Proof.Machine.execTickCountLimit s
  | .highwayFrame frame rx rxSig back backSig => Sys2Proof.Machine.execHighwayFrame frame rx rxSig back backSig s
  | .superframeBoundary ticks => Sys2Proof.Machine.execSuperframeBoundary ticks s
  | .localStationTimeCount => Sys2Proof.Machine.execLocalStationTimeCount s
  | .minuteClockStep => Sys2Proof.Machine.execMinuteClockStep s
  | .holdPeriodExpiry => Sys2Proof.Machine.execHoldPeriodExpiry s
  | .lineFree others => Sys2Proof.Machine.execLineFree others s
  | .cellReceived bytes ending => Sys2Proof.Machine.execCellReceived bytes ending s
  | .cellOutcome r => Sys2Proof.Machine.execCellOutcome r s
  | .claimOutcome r => Sys2Proof.Machine.execClaimOutcome r s
  | .releaseOutcome r => Sys2Proof.Machine.execReleaseOutcome r s
  | .depositCellUndelivered sendError => Sys2Proof.Machine.execDepositCellUndelivered sendError s
  | .fetchOpenUndelivered sendError => Sys2Proof.Machine.execFetchOpenUndelivered sendError s
  | .roomAppeared => Sys2Proof.Machine.execRoomAppeared s
  | .configure => Sys2Proof.Machine.execConfigure s
  | .setTime => Sys2Proof.Machine.execSetTime s
  | .statusQueryStation => Sys2Proof.Machine.execStatusQueryStation s
  | .statusQueryContext => Sys2Proof.Machine.execStatusQueryContext s
  | .statusQueryMap => Sys2Proof.Machine.execStatusQueryMap s
  | .statusQueryMailbox => Sys2Proof.Machine.execStatusQueryMailbox s
  | .statusQueryMessage => Sys2Proof.Machine.execStatusQueryMessage s
  | .statusQueryFaults => Sys2Proof.Machine.execStatusQueryFaults s
  | .faultClear => Sys2Proof.Machine.execFaultClear s
  | .mboxCreate => Sys2Proof.Machine.execMboxCreate s
  | .mboxRemove => Sys2Proof.Machine.execMboxRemove s
  | .outdial => Sys2Proof.Machine.execOutdial s
  | .play => Sys2Proof.Machine.execPlay s
  | .record => Sys2Proof.Machine.execRecord s
  | .stop => Sys2Proof.Machine.execStop s
  | .faxReceive => Sys2Proof.Machine.execFaxReceive s
  | .faxSend => Sys2Proof.Machine.execFaxSend s
  | .dataConnect => Sys2Proof.Machine.execDataConnect s
  | .dataTx => Sys2Proof.Machine.execDataTx s
  | .drop => Sys2Proof.Machine.execDrop s
  | .mboxQuery => Sys2Proof.Machine.execMboxQuery s
  | .msgMarkHeard => Sys2Proof.Machine.execMsgMarkHeard s
  | .msgMarkUnheard => Sys2Proof.Machine.execMsgMarkUnheard s
  | .msgMarkDelete => Sys2Proof.Machine.execMsgMarkDelete s
  | .answer => Sys2Proof.Machine.execAnswer s
  | .claim => Sys2Proof.Machine.execClaim s
  | .release => Sys2Proof.Machine.execRelease s
  | .dispute => Sys2Proof.Machine.execDispute s
  | .depositOpen => Sys2Proof.Machine.execDepositOpen s
  | .depositAccept => Sys2Proof.Machine.execDepositAccept s
  | .depositRefuse => Sys2Proof.Machine.execDepositRefuse s
  | .depositData => Sys2Proof.Machine.execDepositData s
  | .blockTaken => Sys2Proof.Machine.execBlockTaken s
  | .depositRollback => Sys2Proof.Machine.execDepositRollback s
  | .depositClose => Sys2Proof.Machine.execDepositClose s
  | .depositClosed => Sys2Proof.Machine.execDepositClosed s
  | .fetchOpen => Sys2Proof.Machine.execFetchOpen s
  | .fetchGrant => Sys2Proof.Machine.execFetchGrant s
  | .fetchRefuse => Sys2Proof.Machine.execFetchRefuse s
  | .fetchBlock => Sys2Proof.Machine.execFetchBlock s
  | .fetchData => Sys2Proof.Machine.execFetchData s
  | .fetchClose => Sys2Proof.Machine.execFetchClose s
  | .bidTimerExpiry k => Sys2Proof.Machine.execBidTimerExpiry k s
  | .blockTimerExpiry c => Sys2Proof.Machine.execBlockTimerExpiry c s
  | .addressTimerExpiry k => Sys2Proof.Machine.execAddressTimerExpiry k s
  | .answerDelayExpiry k => Sys2Proof.Machine.execAnswerDelayExpiry k s
  | .discriminationTimerExpiry k => Sys2Proof.Machine.execDiscriminationTimerExpiry k s
  | .seizureGuardExpiry k => Sys2Proof.Machine.execSeizureGuardExpiry k s
  | .dialPhaseEnd k => Sys2Proof.Machine.execDialPhaseEnd k s
  | .dialToneWaitExpiry k => Sys2Proof.Machine.execDialToneWaitExpiry k s
  | .progressTimerExpiry k => Sys2Proof.Machine.execProgressTimerExpiry k s
  | .letGo k => Sys2Proof.Machine.execLetGo k s
  | .clearingTimeExpiry k => Sys2Proof.Machine.execClearingTimeExpiry k s
  | .beepTimerExpiry k => Sys2Proof.Machine.execBeepTimerExpiry k s
  | .idleTimerExpiry k => Sys2Proof.Machine.execIdleTimerExpiry k s
  | .detectorBlockEnd k m => Sys2Proof.Machine.execDetectorBlockEnd k m s
  | .slotFillTimeout k => Sys2Proof.Machine.execSlotFillTimeout k s
  | .assemblyTimeout h => Sys2Proof.Machine.execAssemblyTimeout h s
  | .depositSilenceClose h => Sys2Proof.Machine.execDepositSilenceClose h s
  | .depositReplyTimerExpiry k => Sys2Proof.Machine.execDepositReplyTimerExpiry k s
  | .fetchReplyTimerExpiry k => Sys2Proof.Machine.execFetchReplyTimerExpiry k s
  | .fetchKeepalive k => Sys2Proof.Machine.execFetchKeepalive k s
  | .readerSilenceDrop h station context => Sys2Proof.Machine.execReaderSilenceDrop h station context s
  | .startUpScanEnd => Sys2Proof.Machine.execStartUpScanEnd s
  | .controlFrameBadCheck k => Sys2Proof.Machine.execControlFrameBadCheck k s
  | .capability k rate => Sys2Proof.Machine.execCapability k rate s
  | .mode k rate => Sys2Proof.Machine.execMode k rate s
  | .trainGood k => Sys2Proof.Machine.execTrainGood k s
  | .trainBad k => Sys2Proof.Machine.execTrainBad k s
  | .pageEnd k last => Sys2Proof.Machine.execPageEnd k last s
  | .pageGood k => Sys2Proof.Machine.execPageGood k s
  | .pageRetrain k => Sys2Proof.Machine.execPageRetrain k s
  | .pageBad k => Sys2Proof.Machine.execPageBad k s
  | .disconnect k => Sys2Proof.Machine.execDisconnect k s
  | .faxFrameReceived k good number data => Sys2Proof.Machine.execFaxFrameReceived k good number data s
  | .controlFrameSent k => Sys2Proof.Machine.execControlFrameSent k s
  | .sendTrainingEnd k => Sys2Proof.Machine.execSendTrainingEnd k s
  | .pageLastFrameSent k => Sys2Proof.Machine.execPageLastFrameSent k s
  | .faxWaitTimerExpiry k => Sys2Proof.Machine.execFaxWaitTimerExpiry k s
  | .noiseReading k r => Sys2Proof.Machine.execNoiseReading k r s
  | .shiftEnded k => Sys2Proof.Machine.execShiftEnded k s
  | .shiftFailed k => Sys2Proof.Machine.execShiftFailed k s
  | .trainingFailed k => Sys2Proof.Machine.execTrainingFailed k s
  | .trainingTimerExpiry k => Sys2Proof.Machine.execTrainingTimerExpiry k s
  | .farEndShiftRequest k rate => Sys2Proof.Machine.execFarEndShiftRequest k rate s
  | .remoteTraining k => Sys2Proof.Machine.execRemoteTraining k s
  | .dataBlockReceived k sequence data => Sys2Proof.Machine.execDataBlockReceived k sequence data s
  | .linkBlockBadCheck k => Sys2Proof.Machine.execLinkBlockBadCheck k s
  | .ackReceived k n => Sys2Proof.Machine.execAckReceived k n s
  | .holdReceived k n => Sys2Proof.Machine.execHoldReceived k n s
  | .resendTimerExpiry k => Sys2Proof.Machine.execResendTimerExpiry k s
  | .remoteHoldExpiry k => Sys2Proof.Machine.execRemoteHoldExpiry k s
  | .unownedCellDiscarded => Sys2Proof.Machine.execUnownedCellDiscarded s

end Sys2Proof.Machine
end

