-- ==== Sys2Proof/Machine/Step.lean ====
section
/-! DEFINITION. One step: the command at the front of the queue, or a tick of the reference when none waits. -/
namespace Sys2Proof.Machine

/-- What the part does with no command waiting: one tick of its reference (R10, R11, R12; DESIGN CHOICE, log entry 1).
-/
def idle (s : State) : State := settle (referenceTick s)

/-- Take the command at the front of the queue and do it over the rest of the queue. -/
def step (s : State) : Host.Outcome State Fault Refusal :=
  match s.pending with
  | [] => .next (idle s)
  | c :: rest => exec c { s with pending := rest }

/-- The state with the command that a word spells put at the front of its queue. -/
def State.withFetchWord (s : State) (nbits w : Nat) : State :=
  match Sys2Proof.decodeTableWord nbits w with
  | some c => { s with pending := c :: s.pending }
  | none => s

end Sys2Proof.Machine
end

