-- ==== Sys2Proof/Safety.lean ====
section
/-! DEFINITION. What counts as a sound state: the registers, counts, queues and buffers that are bounded here inside the
range that their table or rule gives them. The whole is decidable. Also the situations and the sorting of commands that
statements speak of. -/
namespace Sys2Proof.Machine

/-! ### The highway (chapter 1, table of HWI state) -/

/-- Places and counts of the alignment states, beside the consecutive error count (R4 to R7). -/
def AlignState.inRange (errors : Nat) : AlignState → Bool
  | .search => errors ≤ 4
  | .verify p n _ => p < 2176 && 1 ≤ n && n ≤ 2 && errors ≤ 4
  | .aligned p => p < 2176 && errors ≤ 3

abbrev Hwi.InRange (h : Hwi) : Prop :=
  h.bitCounter < 2176 ∧ h.align.inRange h.errors = true ∧ (∀ n ∈ h.tickCount, n ≤ 32766) ∧ (∀ n ∈ h.prevTiming, n ≤ 32767)
    ∧ h.localCount ≤ 24575 ∧ (∀ n ∈ h.hold, n ≤ 500)

/-! ### The control line (chapter 2, table of CLC state; R28, R58) -/

/-- The transmit queue: 24 cells at most, 16 stream cells among them at most, no two CLAIMs for one channel, in
ascending priority number, and one cell at most in transmission. -/
abbrev TxQueue.InRange (q : List TxCell) : Prop :=
  q.length ≤ 24 ∧ (q.filter fun x => isStreamKind x.cell.kind).length ≤ 16
    ∧ q.Pairwise (fun a b => sameClaim a.cell b.cell = false) ∧ q.Pairwise (fun a b => a.cell.prio ≤ b.cell.prio)
    ∧ (q.filter fun x => x.sending).length ≤ 1

abbrev Clc.InRange (l : Clc) : Prop :=
  TxQueue.InRange l.tx ∧ l.rx.length ≤ 16 ∧ l.badCheck ≤ 65535 ∧ l.undelivered ≤ 65535

/-! ### Configuration and faults (R40, R46, R48) -/

/-- The ranges of R40. -/
abbrev ConfigRecord.InRange (g : ConfigRecord) : Prop :=
  (1 ≤ g.groupSize ∧ g.groupSize ≤ 8) ∧ (2 ≤ g.settleCount ∧ g.settleCount ≤ 120)
    ∧ (8 ≤ g.timingThreshold ∧ g.timingThreshold ≤ 64) ∧ g.answerDelay ≤ 80 ∧ g.addressDigits ≤ 3
    ∧ g.defaultMailbox ≤ 999 ∧ g.quietThreshold ≤ 47 ∧ (4 ≤ g.silenceBlocks ∧ g.silenceBlocks ≤ 255)
    ∧ (8 ≤ g.maxBlocks ∧ g.maxBlocks ≤ 4095) ∧ (g.rateMin ≤ g.rateMax ∧ g.rateMax ≤ 11)
    ∧ (1 ≤ g.errorBurst ∧ g.errorBurst ≤ 255) ∧ (50 ≤ g.toneLength ∧ g.toneLength ≤ 150)
    ∧ (50 ≤ g.gapLength ∧ g.gapLength ≤ 150) ∧ g.faxMaxRate ≤ 5

abbrev Cfu.InRange (u : Cfu) : Prop :=
  u.faults.length ≤ 8 ∧ u.overflow ≤ 255 ∧ u.lostReports ≤ 255
    ∧ ∀ g ∈ u.config, g.InRange ∧ u.station.val < g.groupSize

/-! ### Trunk channels (chapter 4, table of the map; R55, R56) -/

abbrev MapEntry.InRange (e : MapEntry) : Prop := e.stale ≤ 15 ∧ ∀ n ∈ e.blockTimer, n ≤ 10000

abbrev Tcm.InRange (t : Tcm) : Prop := ∀ c, (t.map.get c).InRange

/-! ### Contexts (R77, R91, R92, R150, R162, R166, R170, R172, R173) -/

/-- The bounds of a data purpose are in order and inside 0..11 (R77). -/
def CallPurpose.inRange : CallPurpose → Bool
  | .data lo hi => lo ≤ hi && hi ≤ 11
  | _ => true

/-- Predictors and step indices (R91, R92), and the block in build. -/
abbrev Vcd.InRange (v : Vcd) : Prop :=
  (-8191 ≤ v.encPredictor ∧ v.encPredictor ≤ 8191) ∧ v.encIndex ≤ 47
    ∧ (-8191 ≤ v.decPredictor ∧ v.decPredictor ≤ 8191) ∧ v.decIndex ≤ 47

/-- The rate index and its target within the bounds, the quality figure, and the counts (R162, R164, R166). -/
abbrev Qmn.InRange (q : Qmn) : Prop :=
  q.max ≤ 11 ∧ (q.min ≤ q.rate ∧ q.rate ≤ q.max) ∧ (q.min ≤ q.target ∧ q.target ≤ q.max)
    ∧ (∀ n ∈ q.quality, n ≤ 65520) ∧ q.errors ≤ 255 ∧ q.retrains ≤ 4

/-- Whether the sequence numbers of an outstanding list are consecutive modulo 16 and end before the next one (R170). -/
def consecutive : List LinkBlock → BitVec 4 → Bool
  | [], _ => true
  | [b], next => b.sequence + 1 == next
  | b :: c :: rest, next => b.sequence + 1 == c.sequence && consecutive (c :: rest) next

abbrev Lkc.InRange (l : Lkc) : Prop :=
  l.sendBuffer.length ≤ 1024 ∧ l.rxBuffer.length ≤ 1024 ∧ l.outstanding.length ≤ 6
    ∧ consecutive l.outstanding l.nextSequence = true

abbrev Context.InRange (x : Context) : Prop :=
  x.vcd.InRange ∧ x.fax.rate ≤ 5 ∧ x.qmn.InRange ∧ x.lkc.InRange ∧ ∀ o ∈ x.outgoing, o.purpose.inRange = true

/-! ### The store and the Remote Access Unit (R102, R107, R123) -/

/-- The memory and the link table in canonical form, 64 mailboxes at most. -/
abbrev Msc.InRange (m : Msc) : Prop :=
  Memory.wf m.mem ∧ m.links.Pairwise (fun a b => a.1 < b.1) ∧ m.mbxs.length ≤ 64

abbrev Rau.InRange (r : Rau) : Prop := r.deposits.length ≤ 8

/-! ### The station -/

/-- Every part of the station inside the ranges above. -/
abbrev State.InRange (s : State) : Prop :=
  s.hwi.InRange ∧ s.clc.InRange ∧ s.cfu.InRange ∧ s.tcm.InRange ∧ (∀ k, (s.ctx.get k).InRange) ∧ s.msc.InRange
    ∧ s.rau.InRange

/-- No producer is still to be told UNDELIVERED: what holds between two commands (DEDUCED, log entry 9). -/
abbrev State.Quiet (s : State) : Prop := s.rau.notices = []

/-! ### Boundaries (R9, R11, R12, R14) -/

/-- A superframe boundary that gives session time, reached before the limit of R12, with no channel at the limit of
read-back mismatches. -/
abbrev State.BoundaryAt (s : State) (ticks m : Nat) : Prop :=
  isAligned s = true ∧ s.hwi.tickCount = some m ∧ m + ticks < 32767 ∧ ∀ c, (s.hwi.channels.get c).mismatches < 2

/-- The measured count steps by no more than the timing threshold (R11). -/
abbrev State.TimingHolds (s : State) (measured : Nat) : Prop :=
  ∀ old ∈ s.hwi.prevTiming, max measured old - min measured old ≤ timingThreshold s

/-- The codes read in a superframe are the settled ones on every channel. -/
abbrev State.CodesStand (s : State) : Prop :=
  ∀ c, s.hwi.rxCodes.get c = (s.entry c).rx.settled ∧ s.hwi.txCodes.get c = (s.entry c).tx.settled

/-- At a boundary with nothing else to do, the receive code of one channel settles at a new code (R50). -/
abbrev State.SettlesAlone (s : State) (ticks : Nat) (ch : Channel) (code : LineCode) : Prop :=
  (∃ m ∈ s.hwi.tickCount, s.BoundaryAt ticks m ∧ s.TimingHolds (m + ticks))
    ∧ (∀ c, s.hwi.txCodes.get c = (s.entry c).tx.settled)
    ∧ (∀ c, c ≠ ch → s.hwi.rxCodes.get c = (s.entry c).rx.settled)
    ∧ s.hwi.rxCodes.get ch = code ∧ code ≠ (s.entry ch).rx.settled ∧ (s.entry ch).rx.candidate = some code
    ∧ settleCount s ≤ (s.entry ch).rx.run + 1

/-! ### The cells a command hands over (R27) -/

/-- The oldest cell of the receive queue, of a kind, with a length that the kind allows. -/
abbrev Received (s : State) (c : Cell) (kind : Byte) : Prop :=
  s.clc.rx.head? = some c ∧ c.kind = kind ∧ lengthAllowed c.kind c.payload.length = true

/-- A gateway request stands at the head of the receive queue. -/
abbrev Asked (s : State) (c : Cell) (kind : Byte) : Prop := Received s c kind ∧ c.src = gateway

/-- A gateway request stands at the head of the receive queue of an ACTIVE station (R39). -/
abbrev AskedActive (s : State) (c : Cell) (kind : Byte) : Prop := Asked s c kind ∧ s.cfu.state = .active

/-- A cell of a peer stands at the head of the receive queue. -/
abbrev FromPeer (s : State) (c : Cell) (kind : Byte) (p : Fin 8) : Prop :=
  Received s c kind ∧ stationOf c.src = some p

/-! ### The context a command concerns -/

/-- The context that a timer, a detector block or a report of the Data Pump belongs to. -/
def subject : Instr → Option ContextId
  | .bidTimerExpiry k | .addressTimerExpiry k | .answerDelayExpiry k | .discriminationTimerExpiry k
  | .seizureGuardExpiry k | .dialPhaseEnd k | .dialToneWaitExpiry k | .progressTimerExpiry k | .letGo k
  | .clearingTimeExpiry k | .beepTimerExpiry k | .idleTimerExpiry k | .detectorBlockEnd k _
  | .slotFillTimeout k | .depositReplyTimerExpiry k | .fetchReplyTimerExpiry k | .fetchKeepalive k
  | .controlFrameBadCheck k | .capability k _ | .mode k _ | .trainGood k | .trainBad k | .pageEnd k _
  | .pageGood k | .pageRetrain k | .pageBad k | .disconnect k | .faxFrameReceived k _ _ _ | .controlFrameSent k
  | .sendTrainingEnd k | .pageLastFrameSent k | .faxWaitTimerExpiry k | .noiseReading k _ | .shiftEnded k
  | .shiftFailed k | .trainingFailed k | .trainingTimerExpiry k | .farEndShiftRequest k _ | .remoteTraining k
  | .dataBlockReceived k _ _ | .linkBlockBadCheck k | .ackReceived k _ | .holdReceived k _
  | .resendTimerExpiry k | .remoteHoldExpiry k => some k
  | .powerOn _ _ | .restart _ | .frameWordSearch _ _ | .frameWordVerify _ | .frameWordAligned _ _
  | .tickCountLimit | .highwayFrame _ _ _ _ _ | .superframeBoundary _ | .localStationTimeCount
  | .minuteClockStep | .holdPeriodExpiry | .lineFree _ | .cellReceived _ _ | .cellOutcome _ | .claimOutcome _
  | .releaseOutcome _ | .depositCellUndelivered _ | .fetchOpenUndelivered _ | .roomAppeared | .configure
  | .setTime | .statusQueryStation | .statusQueryContext | .statusQueryMap | .statusQueryMailbox
  | .statusQueryMessage | .statusQueryFaults | .faultClear | .mboxCreate | .mboxRemove | .outdial | .play
  | .record | .stop | .faxReceive | .faxSend | .dataConnect | .dataTx | .drop | .mboxQuery | .msgMarkHeard
  | .msgMarkUnheard | .msgMarkDelete | .answer | .claim | .release | .dispute | .depositOpen | .depositAccept
  | .depositRefuse | .depositData | .blockTaken | .depositRollback | .depositClose | .depositClosed
  | .fetchOpen | .fetchGrant | .fetchRefuse | .fetchBlock | .fetchData | .fetchClose | .blockTimerExpiry _
  | .assemblyTimeout _ | .depositSilenceClose _ | .readerSilenceDrop _ _ _ | .startUpScanEnd
  | .unownedCellDiscarded => none

/-! ### Where a command comes from -/

/-- What brings a command about: the start of the part, the highway and the time it gives, the wire of the control
line, a cell handed over from the receive queue, or the station itself and its Data Pump. -/
inductive Cause where
  | start
  | highway
  | line
  | received
  | inner
deriving DecidableEq, Repr

def cause : Instr → Cause
  | .powerOn _ _ | .restart _ => .start
  | .frameWordSearch _ _ | .frameWordVerify _ | .frameWordAligned _ _ | .tickCountLimit | .highwayFrame _ _ _ _ _
  | .superframeBoundary _ | .localStationTimeCount | .holdPeriodExpiry => .highway
  | .lineFree _ | .cellReceived _ _ | .cellOutcome _ | .claimOutcome _ | .releaseOutcome _
  | .depositCellUndelivered _ | .fetchOpenUndelivered _ => .line
  | .configure | .setTime | .statusQueryStation | .statusQueryContext | .statusQueryMap | .statusQueryMailbox
  | .statusQueryMessage | .statusQueryFaults | .faultClear | .mboxCreate | .mboxRemove | .outdial | .play
  | .record | .stop | .faxReceive | .faxSend | .dataConnect | .dataTx | .drop | .mboxQuery | .msgMarkHeard
  | .msgMarkUnheard | .msgMarkDelete | .answer | .claim | .release | .dispute | .depositOpen | .depositAccept
  | .depositRefuse | .depositData | .blockTaken | .depositRollback | .depositClose | .depositClosed
  | .fetchOpen | .fetchGrant | .fetchRefuse | .fetchBlock | .fetchData | .fetchClose
  | .unownedCellDiscarded => .received
  | .roomAppeared | .minuteClockStep | .startUpScanEnd | .blockTimerExpiry _ | .assemblyTimeout _
  | .depositSilenceClose _ | .readerSilenceDrop _ _ _ | .bidTimerExpiry _ | .addressTimerExpiry _
  | .answerDelayExpiry _ | .discriminationTimerExpiry _ | .seizureGuardExpiry _ | .dialPhaseEnd _
  | .dialToneWaitExpiry _ | .progressTimerExpiry _ | .letGo _ | .clearingTimeExpiry _ | .beepTimerExpiry _
  | .idleTimerExpiry _ | .detectorBlockEnd _ _ | .slotFillTimeout _ | .depositReplyTimerExpiry _
  | .fetchReplyTimerExpiry _ | .fetchKeepalive _ | .controlFrameBadCheck _ | .capability _ _ | .mode _ _
  | .trainGood _ | .trainBad _ | .pageEnd _ _ | .pageGood _ | .pageRetrain _ | .pageBad _ | .disconnect _
  | .faxFrameReceived _ _ _ _ | .controlFrameSent _ | .sendTrainingEnd _ | .pageLastFrameSent _
  | .faxWaitTimerExpiry _ | .noiseReading _ _ | .shiftEnded _ | .shiftFailed _ | .trainingFailed _
  | .trainingTimerExpiry _ | .farEndShiftRequest _ _ | .remoteTraining _ | .dataBlockReceived _ _ _
  | .linkBlockBadCheck _ | .ackReceived _ _ | .holdReceived _ _ | .resendTimerExpiry _
  | .remoteHoldExpiry _ => .inner

end Sys2Proof.Machine
end

