-- ==== Sys2Proof/Certificates/Slice0/Obligations.lean ====
section
/-! DEFINITION. What is claimed of the station, for the provers. -/
open Sys2Proof Sys2Proof.Machine

/-! ### The machine -/

/-- The model's queue of waiting commands, first in, first out (log entry 10): a step runs the command at the front over
the rest of the queue. -/
def Obligations.StepRunsFrontCommand : Prop :=
  ∀ (s : State) (c : Instr) (rest : List Instr), s.pending = c :: rest → step s = exec c { s with pending := rest }

/-- With no command waiting a step is one tick of the reference (log entry 1): the tick count while ALIGNED, idle before
the first boundary (R11) and ending ALIGNED at 32767 (R12), and the local count otherwise, which gives a superframe of
station time at 24,576 (R10). -/
def Obligations.IdleStepTicksTheReference : Prop :=
  ∀ s : State, s.pending = [] → s.Quiet →
    (∀ p, s.hwi.align = .aligned p → s.hwi.tickCount = none → step s = .next s)
    ∧ (∀ p n, s.hwi.align = .aligned p → s.hwi.tickCount = some n → n + 1 < 32767 →
        step s = .next { s with hwi := { s.hwi with tickCount := some (n + 1) } })
    ∧ (∀ p n, s.hwi.align = .aligned p → s.hwi.tickCount = some n → 32767 ≤ n + 1 → ∃ t, step s = .next t
        ∧ t.hwi.align = .search ∧ t.hwi.hold = some 500)
    ∧ (isAligned s = false → s.hwi.localCount + 1 < 24576 →
        step s = .next { s with hwi := { s.hwi with localCount := s.hwi.localCount + 1 } })
    ∧ (isAligned s = false → 24576 ≤ s.hwi.localCount + 1 → ∃ t, step s = .next t
        ∧ t.hwi.localCount = 0 ∧ t.cfu.stationTime = s.cfu.stationTime + 1)

/-- The state at reset lies inside every range, with no command waiting and no notice to tell. -/
def Obligations.ResetStateInRange : Prop :=
  State.reset.InRange ∧ State.reset.Quiet ∧ State.reset.pending = []

/-- Every step keeps what `State.InRange` bounds inside the range its table or rule gives it: the alignment and its
counts, the two cell queues, the fault record, the configuration, the stale counts and block timers, the codec's
predictors and indices, the fax and data rates, the quality figure and its counts, the link buffers and their
outstanding list, the tables of mailboxes and of deposits, and the memory and the link table in their canonical form.
It speaks of no other field. -/
def Obligations.EveryStepKeepsRanges : Prop :=
  ∀ s t : State, s.InRange → step s = .next t → t.InRange

/-- No notice of a refused cell outlives the command that caused it (log entry 9). -/
def Obligations.EveryStepTellsItsNotices : Prop :=
  ∀ s t : State, s.Quiet → step s = .next t → t.Quiet

/-- What a command leaves alone, by what brings it about. After the start, only the highway and the time it gives move
the alignment and the counts of the highway interface, only the wire moves the line and the count of bad checks, only a
cell handed over leaves the receive queue and only a cell received joins it; an accepted configuration stands until
POWER_ON; only SET_TIME and the clock's own commands move the clock; only CONFIGURE, alignment and the end of the scan
move the state of the station; and only POWER_ON and FAULT_CLEAR take a fault entry away. -/
def Obligations.CommandsWriteOnlyTheirRegisters : Prop :=
  ∀ (c : Instr) (s t : State), exec c s = .next t →
    (cause c ≠ .start → cause c ≠ .highway → t.hwi = { s.hwi with channels := t.hwi.channels })
    ∧ (cause c ≠ .start → cause c ≠ .line →
        t.clc.line = s.clc.line ∧ t.clc.run = s.clc.run ∧ t.clc.badCheck = s.clc.badCheck)
    ∧ ((cause c = .received → t.clc.rx = s.clc.rx ∨ t.clc.rx = s.clc.rx.tail)
        ∧ (cause c = .line → t.clc.rx = s.clc.rx ∨ ∃ x b g, c = .cellReceived b g ∧ t.clc.rx = s.clc.rx ++ [x])
        ∧ (cause c = .highway ∨ cause c = .inner → t.clc.rx = s.clc.rx))
    ∧ ((∀ straps loss, c ≠ .powerOn straps loss) → (c ≠ .configure ∨ s.cfu.config.isSome = true) →
        t.cfu.config = s.cfu.config)
    ∧ (cause c ≠ .start → c ∉ [.setTime, .minuteClockStep, .localStationTimeCount] →
        (∀ n, c ≠ .superframeBoundary n) →
        t.cfu.minute = s.cfu.minute ∧ t.cfu.subMinute = s.cfu.subMinute ∧ t.cfu.clockSet = s.cfu.clockSet
          ∧ t.cfu.stationTime = s.cfu.stationTime)
    ∧ (cause c ≠ .start → c ∉ [.configure, .startUpScanEnd] → (∀ w, c ≠ .frameWordVerify w) →
        t.cfu.state = s.cfu.state ∧ t.cfu.alignSeen = s.cfu.alignSeen)
    ∧ ((∀ straps loss, c ≠ .powerOn straps loss) → c ≠ .faultClear → s.cfu.faults <+: t.cfu.faults)

/-- Every command is carried out in every state (log entry 36): it answers a next state, leaves the queue of waiting
commands to the step, and reads the straps again only at POWER_ON (R37). -/
def Obligations.EveryCommandIsCarriedOut : Prop :=
  ∀ (c : Instr) (s : State), ∃ t, exec c s = .next t ∧ t.pending = s.pending
    ∧ ((∀ straps loss, c ≠ .powerOn straps loss) →
        t.cfu.station = s.cfu.station ∧ t.cfu.storeSize = s.cfu.storeSize)

/-- A timer, a detector block or a report of the Data Pump of one context leaves the records of the other three
contexts exactly as they stand, whatever it ends, sends or is refused. -/
def Obligations.ContextCommandsLeaveOtherContexts : Prop :=
  ∀ (c : Instr) (k : ContextId) (s t : State), subject c = some k → s.Quiet → exec c s = .next t →
    ∀ j, j ≠ k → t.at j = s.at j

/-! ### Power-on, restart and the highway -/

/-- POWER_ON gives every block its values after power-on, keeps the message memory, and begins the start-up scan: only
CLOSED records are kept, with empty reader lists. Over a message table with no record nothing is queued and no fault is
written. With one record alone in the table, CLOSED, the scan keeps it when its chain of as many blocks as it counts
runs from its first block to its last through data blocks of the store, none twice, to END; otherwise the message is
discarded with one STORE_INCONSISTENT fault, whose subject is the first block of the walk that is out of bounds or
claimed already, that ends the count without being the last with END, or that has END before it, the first block when
the count is 0, and 0 without one. A loss of power before the first write changes nothing of the memory. One within an
append, a delete or the close of a greeting leaves the earlier writes done and the later not: the block, its link entry,
the link entry of the last block; the record, then the mailbox; the old greeting's delete, the mailbox, then the record.
The model's choice: that the walk of the records is done at once, how the loss is told, and the subject where the count
is 0 (log entries 29, 66 and 91). -/
def Obligations.PowerOnSetsEveryBlock : Prop :=
  ∀ (station : Fin 8) (storeSize : Fin 4) (loss : PowerLoss) (s : State),
    let u := interrupted loss s
    ∃ t, exec (.powerOn { station, storeSize } loss) s = .next t
    ∧ (t.hwi.align = .search ∧ t.hwi.errors = 0 ∧ t.hwi.bitCounter = 0 ∧ t.hwi.lastAligned = none ∧ t.hwi.prevTiming = none
        ∧ t.hwi.tickCount = none ∧ t.hwi.localCount = 0 ∧ t.hwi.hold = none)
    ∧ (∀ c, (t.hwi.channels.get c).enable = false ∧ (t.hwi.channels.get c).driving = false
        ∧ (t.hwi.channels.get c).mismatches = 0)
    ∧ (t.clc.rx = [] ∧ t.clc.line = .joining ∧ t.clc.run = 0 ∧ t.clc.badCheck = 0 ∧ t.clc.undelivered = 0
        ∧ t.clc.held = [])
    ∧ (t.cfu.station = station ∧ t.cfu.storeSize = storeSize ∧ t.cfu.state = .starting ∧ t.cfu.alignSeen = false
        ∧ t.cfu.config = none ∧ t.cfu.minute = 0 ∧ t.cfu.subMinute = 0 ∧ t.cfu.clockSet = false)
    ∧ (∀ c, t.entry c = { view := .unknown, blockTimer := none, rx := .reset, tx := .reset, stale := 0 })
    ∧ (∀ c, (t.entry c).rx.settled = .idle ∧ (t.entry c).rx.candidate = none ∧ (t.entry c).rx.run = 0
        ∧ (t.entry c).tx.settled = .idle ∧ (t.entry c).tx.candidate = none ∧ (t.entry c).tx.run = 0)
    ∧ (∀ k, t.at k = Context.reset ∧ t.bid k = none ∧ t.outbound k = none ∧ t.fetch k = none)
    ∧ (t.rau.deposits = [] ∧ t.rau.pendingBlocks = [])
    ∧ (t.msc.state = .scanning ∧ t.msc.freeList = [] ∧ t.msc.lowMark = false ∧ t.msc.mem = u.msc.mem
        ∧ t.msc.links = u.msc.links ∧ t.msc.mbxs = u.msc.mbxs)
    ∧ (∀ h m, t.msg h = some m → m.state = .closed ∧ ∃ m0, u.msg h = some m0 ∧ m = { m0 with readers := [] })
    ∧ ((∀ h, u.msg h = none) →
        t.clc.tx = [] ∧ t.cfu.faults = [] ∧ t.cfu.overflow = 0 ∧ t.cfu.lostReports = 0)
    ∧ (∀ h m, (∀ j, j ≠ h → u.msg j = none) → u.msg h = some m → m.state = .closed →
        let isChain (path : List Nat) : Prop := path ≠ [] ∧ path.length = m.count ∧ path.head? = m.first
          ∧ path.getLast? = m.last ∧ path.Nodup ∧ (∀ b ∈ path, 80 ≤ b ∧ b < 1024 * 2 ^ storeSize.val)
          ∧ (∀ i b, path[i]? = some b → Links.next u.msc.links b = path[i + 1]?)
        let breaksAt (b : Nat) : Prop := ∃ good : List Nat, (good ++ [b]).head? = m.first ∧ good.Nodup
          ∧ (∀ a ∈ good, 80 ≤ a ∧ a < 1024 * 2 ^ storeSize.val)
          ∧ (∀ i a, good[i]? = some a → Links.next u.msc.links a = (good ++ [b])[i + 1]?)
          ∧ (m.count = 0 ∧ good = [] ∨ good.length < m.count
            ∧ (b < 80 ∨ 1024 * 2 ^ storeSize.val ≤ b ∨ b ∈ good
              ∨ if good.length + 1 = m.count then m.last ≠ some b ∨ Links.next u.msc.links b ≠ none
                else Links.next u.msc.links b = none))
        (∀ path, isChain path → t.msg h = some { m with readers := [] } ∧ t.cfu.faults = [] ∧ t.clc.tx = []
          ∧ ∀ b, b ∈ t.msc.claimed ↔ b ∈ path)
        ∧ ((∀ path, ¬ isChain path) → t.msg h = none ∧ t.msc.claimed = []
          ∧ ∃ subject, (if m.first = none then subject = 0 else breaksAt subject)
            ∧ t.cfu.faults = [{ kind := .storeInconsistent, subject, stamp := 0, clockSet := false }]))
    ∧ (loss.ops = [] ∨ loss.writes = 0 →
        exec (.powerOn { station, storeSize } loss) s = exec (.powerOn { station, storeSize } { ops := [], writes := 0 }) s)
    ∧ (s.msc.state = .ready → ∀ (h : Handle) (m : Msg), s.msg h = some m →
        let only (op : StoreOp) : Prop := loss.ops = [op]
        (∀ block samples b rest l w, only (.append h block samples) → m.state = .opened → m.writer = some w →
            s.msc.freeList = b :: rest → m.last = some l →
          t.msg h = none ∧ t.msc.mbxs = s.msc.mbxs
          ∧ t.msc.mem = (if loss.writes = 0 then s.msc.mem else Memory.writeBlock b block s.msc.mem)
          ∧ t.msc.links = (let ended := Links.set b none s.msc.links
              if loss.writes ≤ 1 then s.msc.links else if loss.writes = 2 then ended else Links.set l (some b) ended))
        ∧ (only (.mark h 2) → s.cfu.config.isSome = true → m.state = .closed → m.readers = [] → 0 < loss.writes →
          t.msg h = none ∧ t.msc.mem = s.msc.mem ∧ t.msc.links = s.msc.links
          ∧ t.msc.mbxs = (if loss.writes = 1 then s.msc.mbxs else s.msc.mbxs.map fun x =>
              if x.number = m.mailbox then { x with
                list := x.list.filter (· ≠ h.val), greeting := x.greeting.filter (· ≠ h.val) } else x))
        ∧ ∀ (reason : Byte) (w : Writer) (box : Mbx) (old : Handle) (o : Msg), only (.close h reason) →
          reason ∉ [reasonSilence, reasonFarEndClear, reasonStoreFull, reasonWriterLost] → m.state = .opened →
          m.writer = some w → m.kind = .greeting → 0 < m.count → s.msc.mbxs.find? (·.number = m.mailbox) = some box →
          box.greeting = some old.val → old ≠ h → s.msg old = some o → o.state = .closed → o.readers = [] →
          o.mailbox = m.mailbox → 0 < loss.writes →
          let unlisted := s.msc.mbxs.map fun x => if x.number = m.mailbox then { x with
            list := x.list.filter (· ≠ old.val), greeting := x.greeting.filter (· ≠ old.val) } else x
          t.msg old = none ∧ t.msc.mem = s.msc.mem ∧ t.msc.links = s.msc.links
          ∧ (loss.writes ≤ 3 → t.msg h = none)
          ∧ (4 ≤ loss.writes → u.msg h = some { m with
              state := .closed, stamp := some s.cfu.minute, writer := none })
          ∧ t.msc.mbxs = (if loss.writes = 1 then s.msc.mbxs else if loss.writes = 2 then unlisted
              else unlisted.map fun x => if x.number = m.mailbox then
                { x with greeting := some h.val, greetingOpen := false } else x))

/-- RESTART, addressed to this station by its own number, keeps the alignment and its counts, the configuration, the
clock, the fault entries, the mailboxes and the blocks; and resets the channels, the contexts, the control line and the
deposits and fetches. The ANSWER, with the number of contexts that held a channel, is queued before the flush; every
cell is flushed but the one in transmission, which is the head of the queue when a FREE line came between, and whose
outcome is told to nobody. The overflow and lost-report counts stand. Addressed to all stations it is answered
BAD_FIELD. The model's choice: the operand of RESTART, that the walk of the records is done at once, and the unused
bytes of that BAD_FIELD (log entries 15, 29 and 72). -/
def Obligations.RestartKeepsAlignmentAndMemory : Prop :=
  ∀ (b : Bool) (s : State) (c : Cell), s.Quiet → Asked s c kindRestart →
    (c.dst = allStations → exec (.restart b) s = .next (sendAnswer c codeBadField (popCell s)))
    ∧ (c.dst ≠ allStations → ∃ t, exec (.restart b) s = .next t
        ∧ t.hwi = { s.hwi with channels := .replicate 32 .reset, prevTiming := none, hold := none }
        ∧ t.tcm = Tcm.reset ∧ (∀ k, t.at k = Context.reset) ∧ t.rau = Rau.reset
        ∧ (t.clc.rx = [] ∧ t.clc.line = .joining ∧ t.clc.run = 0 ∧ t.clc.badCheck = 0 ∧ t.clc.undelivered = 0
            ∧ t.clc.held = [] ∧ ∀ x ∈ t.clc.tx, x.sending = true → x.orphan = true)
        ∧ (let answer := ownCell s 3 c.src kindAnswer c.tag [kindRestart, codeOk, codeRestart,
              BitVec.ofNat 8 (contextIds.filter fun k => holdsAny s k).length]
           let queued := if s.clc.tx.length < 24 then insertByPriority (freshTx answer 0) s.clc.tx else s.clc.tx
           let started := if b = true ∧ s.clc.line ≠ .joining ∧ ∀ x ∈ queued, x.sending = false then
              (queued.take 1).map (fun x => { x with sending := true }) ++ queued.drop 1 else queued
           let kept := (started.filter (·.sending)).map fun x => { x with orphan := true }
           t.clc.tx.filter (·.sending) = kept
            ∧ (∀ x ∈ t.clc.tx, x.sending = false → x.cell.kind = kindEvent ∧ x.orphan = false)
            ∧ ((∀ h, s.msg h = none) → t.clc.tx = kept ∧ t.cfu.faults = s.cfu.faults ∧ t.cfu.overflow = s.cfu.overflow
              ∧ t.cfu.lostReports = (if s.clc.tx.length < 24 then s.cfu.lostReports
                  else min 255 (s.cfu.lostReports + 1))))
        ∧ (t.cfu.state = .starting ∧ t.cfu.alignSeen = isAligned s ∧ t.cfu.config = s.cfu.config
            ∧ t.cfu.minute = s.cfu.minute ∧ t.cfu.subMinute = s.cfu.subMinute ∧ t.cfu.clockSet = s.cfu.clockSet
            ∧ t.cfu.stationTime = s.cfu.stationTime ∧ s.cfu.faults <+: t.cfu.faults)
        ∧ (t.msc.state = .scanning ∧ t.msc.freeList = [] ∧ t.msc.lowMark = false ∧ t.msc.mem = s.msc.mem
            ∧ t.msc.links = s.msc.links ∧ t.msc.mbxs = s.msc.mbxs)
        ∧ ∀ h m, t.msg h = some m → m.state = .closed ∧ ∃ m0, s.msg h = some m0 ∧ m = { m0 with readers := [] })

/-- R5: a window of SEARCH that carries 10110 makes VERIFY of the position (b - 256 - 272 f) mod 2176 with one good word
and f + 1 expected, any other window leaves SEARCH, and outside SEARCH no such window is examined. -/
def Obligations.SearchRecordsTheCandidate : Prop :=
  ∀ (b : Fin 2176) (w : Byte) (s : State), s.Quiet →
    (s.hwi.align = .search → ∃ t, exec (.frameWordSearch b w) s = .next t
      ∧ t = { s with hwi := { s.hwi with bitCounter := t.hwi.bitCounter, align := t.hwi.align } }
      ∧ (w.toNat % 32 = 0b10110 → ∃ p f, t.hwi.align = .verify p 1 f
          ∧ (p : Int) = ((b.val : Int) - 256 - 272 * ((w.toNat / 32 : Nat) : Int)) % 2176
          ∧ f.val = (w.toNat / 32 + 1) % 8)
      ∧ (w.toNat % 32 ≠ 0b10110 → t.hwi.align = .search))
    ∧ (s.hwi.align ≠ .search → exec (.frameWordSearch b w) s = .next s)

/-- R6 and R7: the windows of VERIFY and of ALIGNED. In VERIFY a good word below the third advances the count and the
number, and any other window returns to SEARCH; in ALIGNED a good word clears the error count and a bad one short of
the fourth adds to it. The frame word of number f reads 32 f + 22. The model's choice: where the bit counter stands
after a command (log entry 6). -/
def Obligations.FrameWordsAreCounted : Prop :=
  ∀ (w : Byte) (s : State), s.Quiet →
    (∀ p n f, s.hwi.align = .verify p n f →
      (w.toNat = 32 * f.val + 22 → n + 1 < 3 → exec (.frameWordVerify w) s = .next { s with hwi := { s.hwi with
          bitCounter := (p + 272 * f.val + 256 + 8) % 2176, align := .verify p (n + 1) (f + 1) } })
      ∧ (w.toNat ≠ 32 * f.val + 22 → exec (.frameWordVerify w) s = .next { s with hwi := { s.hwi with
          bitCounter := (p + 272 * f.val + 256 + 8) % 2176, align := .search } }))
    ∧ (∀ p (f : Fin 8), s.hwi.align = .aligned p →
      (w.toNat = 32 * f.val + 22 → exec (.frameWordAligned f w) s = .next { s with hwi := { s.hwi with
          bitCounter := (p + 272 * f.val + 256 + 8) % 2176, errors := 0 } })
      ∧ (w.toNat ≠ 32 * f.val + 22 → s.hwi.errors + 1 < 4 → exec (.frameWordAligned f w) s = .next { s with
          hwi := { s.hwi with
            bitCounter := (p + 272 * f.val + 256 + 8) % 2176, errors := s.hwi.errors + 1 } }))

/-- R6, R8, R17, R97, R101, R132, R134 and R135: the third good word enters ALIGNED at the candidate position, reports
MOVED when the last aligned position differs and ALIGNED otherwise, restores the enables kept aside and resumes every
held context, whose decoder takes the block it waited for if that came during the hold; here in a station that is not
STARTING and carries no data session, and first where no held fetch has a block left to ask for. A held playback whose
fetch was granted during the hold asks for its first two blocks on the return. The model's choice: where the bit
counter stands after a command, the serial numbers, and that a held reader asks on the return (log entries 6, 35 and
67). -/
def Obligations.AlignmentResumesHeldCalls : Prop :=
  ∀ (w : Byte) (s : State) (p n : Nat) (f : Fin 8), s.Quiet → s.hwi.align = .verify p n f → 3 ≤ n + 1 →
    w.toNat = 32 * f.val + 22 → s.cfu.state ≠ .starting → (∀ k, (s.at k).session ≠ .data) →
    let moved := s.hwi.lastAligned.isSome ∧ s.hwi.lastAligned ≠ some p
    let resumed (v : Vcd) : Vcd := match v.mark, v.current with
      | .underrun, some (b, _) => match v.buffer.find b with
        | .ready _ block => { v with
            decPredictor := headerPredictor block, decIndex := headerIndex block, current := some (b, 0), mark := .playing }
        | _ => v
      | _, _ => v
    let aligned : Hwi := { s.hwi with
      bitCounter := (p + 272 * f.val + 256 + 8) % 2176, align := .aligned p, errors := 0, lastAligned := some p
      tickCount := none, prevTiming := none, localCount := 0, hold := none
      channels := s.hwi.channels.map fun c => { c with enable := c.enable || c.aside, aside := false } }
    let reported := sendEvent none (.highway (if moved then 2 else 1)) s
    let asked (source : Option Source) (b : Buffer) (blocks needed : Nat) : Prop :=
      source = some .fetched → b.hasRoom = false ∨ blocks ≤ b.next needed
    ((∀ k, (s.at k).held = true → (s.at k).fax.phase ≠ .sending
        ∧ asked (s.at k).fax.source (s.at k).fax.buffer (s.at k).fax.blocks (faxNeeds (s.at k).fax)
        ∧ ∀ b n, (s.at k).vcd.current = some (b, n) → asked (s.at k).vcd.source (s.at k).vcd.buffer (s.at k).vcd.blocks b) →
      exec (.frameWordVerify w) s = .next { reported with
        hwi := aligned
        ctx := s.ctx.map fun x => if x.held then { x with held := false, vcd := resumed x.vcd } else x })
    ∧ ∀ (k : ContextId) (r : Fetch) (h b n : Nat), (s.at k).held = true → (∀ j, j ≠ k → (s.at j).held = false) →
      (s.at k).fax.source = none → (s.at k).vcd.source = some .fetched → (s.at k).vcd.current = some (b, n) →
      (s.at k).vcd.mark = .underrun → (s.at k).vcd.buffer = Buffer.reset → b + 1 < (s.at k).vcd.blocks →
      s.fetch k = some r → r.handle = some h → r.pending = [] → s.clc.tx.length ≤ 21 →
      let ask (i : Nat) : TxCell :=
        freshTx (ownCell s 4 (homeAddress r.home) kindFetchBlock (tagOf k) (be2 h ++ be2 i)) r.serial
      exec (.frameWordVerify w) s = .next { reported with
        hwi := aligned
        clc := { reported.clc with tx := insertByPriority (ask (b + 1)) (insertByPriority (ask b) reported.clc.tx) }
        rau := { s.rau with fetches := s.rau.fetches.set k (some
          { r with pending := [b, b + 1], timer := some 2000, keepalive := 5000 }) }
        ctx := s.ctx.modify k fun x => { x with
          held := false, vcd := { x.vcd with buffer := { a := .requested b, b := .requested (b + 1) } } } }

/-- R7, R12, R16, R18 and R150: the fourth bad frame word, and the tick count at its limit, lose alignment: every drive
ends with its enable kept aside, every context in a call is held, HIGHWAY(LOST) is queued and the hold period starts at
500 ms, here with no context CLAIMING. When the hold period runs out with the station not ALIGNED, every held context
becomes FREE with its record cleared, the others stand as they are, a channel held so far is shown UNKNOWN, and one
HIGHWAY_LOST fault is written, whose subject is the number of calls the expiry ended. The model's choice: where the bit
counter stands after a command, that a control frame crossing its line is forgotten, that the tick count and the
previous count are absent from the loss on while the error count stands, at 4 after the fourth bad word, and that the
fault is written last (log entries 6, 60, 61 and 65). -/
def Obligations.CallsAreHeldUntilTheHoldExpires : Prop :=
  (∀ s : State, s.Quiet → (∀ k, (s.at k).state ≠ .claiming) →
    let lost (counter errors : Nat) : State := { sendEvent none (.highway 0) s with
      hwi := { s.hwi with
        bitCounter := counter, align := .search, errors, tickCount := none, prevTiming := none, localCount := 0
        hold := some 500
        channels := s.hwi.channels.map fun c =>
          { enable := false, aside := c.enable || c.aside, driving := false, mismatches := 0 } }
      ctx := s.ctx.map fun x => if x.state = .free then x else { x with
        held := true, pump := { x.pump with control := x.pump.control.tail } } }
    (isAligned s = true → s.hwi.tickCount.isSome = true → exec .tickCountLimit s = .next (lost s.hwi.bitCounter s.hwi.errors))
    ∧ (∀ p (f : Fin 8) (w : Byte), s.hwi.align = .aligned p → 4 ≤ s.hwi.errors + 1 → w.toNat ≠ 32 * f.val + 22 →
        exec (.frameWordAligned f w) s = .next (lost ((p + 272 * f.val + 256 + 8) % 2176) 4)))
  ∧ ∀ s : State, s.Quiet → s.hwi.hold = some 0 → isAligned s = false →
    (∀ k, (s.at k).held = true → (s.at k).state ≠ .free ∧ (s.at k).state ≠ .claiming) →
    ∃ t, exec .holdPeriodExpiry s = .next t ∧ t.hwi.hold = none
      ∧ (∀ k, (s.at k).held = true → t.at k = Context.reset)
      ∧ (∀ k, (s.at k).held = false → t.at k = s.at k)
      ∧ (∀ k c, (s.at k).held = true → (s.at k).channel = some c → holds s k c = true → (t.entry c).view = .unknown)
      ∧ (s.cfu.faults.length < 8 → t.cfu.faults = s.cfu.faults ++ [{
          kind := .highwayLost, stamp := s.cfu.minute, clockSet := s.cfu.clockSet
          subject := (contextIds.filter fun k => (s.at k).held && (s.at k).state != .clearing).length }])

/-- R2, R9, R14, R71, R81, R85, R89 and R139: a frame while ALIGNED in a station that records nothing and plays
nothing. It reads the codes of its four channels on both lines, hands each active detector the sample of its context's
channel, counts a mismatch of a driven channel whose sample or code is read back otherwise than its context sent it,
and changes nothing else but the transmit samples, the tones, the bit counter and the counter of free values. A context
that sends a DTMF tone or the beep sends a code byte next to the sum of its sines at its next sample: the two
frequencies of the character at -8 and -6 dBm0, or 1400 Hz at -10 dBm0, from phases that stand while the tone lasts.
The model's choice: where the bit counter stands after a command, the phases and the rounding, and the order within a
frame (log entries 6, 7 and 63). -/
def Obligations.FrameReadsCodesAndSamples : Prop :=
  ∀ (f : Fin 8) (rx : List Byte) (rxSig : Byte) (back : List Byte) (backSig : Byte) (s : State) (p : Nat),
    s.Quiet → s.hwi.align = .aligned p →
    (∀ k, (s.at k).vcd.recording = false ∧ (s.at k).voice.activity ≠ .playing) →
    let field (slot : Byte) (c : Channel) : LineCode := LineCode.ofBits (BitVec.ofNat 2 (slot.toNat / 4 ^ (3 - c.val % 4)))
    ∃ t, exec (.highwayFrame f rx rxSig back backSig) s = .next t
      ∧ (∀ c, t.hwi.rxCodes.get c = if c.val / 4 = f.val then field rxSig c else s.hwi.rxCodes.get c)
      ∧ (∀ c, t.hwi.txCodes.get c = if c.val / 4 = f.val then field backSig c else s.hwi.txCodes.get c)
      ∧ t.hwi.align = s.hwi.align ∧ t.hwi.bitCounter = (p + 272 * (f.val + 1)) % 2176
      ∧ (∀ k c, detectorActive s k = true → (s.at k).channel = some c →
          (t.at k).detector.gathered = (s.at k).detector.gathered ++ [rx.getD c.val 0])
      ∧ (∀ k, detectorActive s k = false → (t.at k).detector = (s.at k).detector)
      ∧ (∀ k, t.at k = { s.at k with
            detector := (t.at k).detector, txSample := (t.at k).txSample, tone := (t.at k).tone })
      ∧ (∀ k c, (s.at k).channel = some c → (s.entry c).view = .self k → (s.at k).held = false →
          let x := s.at k
          let sends (tone : List ToneLine) : Prop := (t.at k).tone.sent = x.tone.sent + 1
            ∧ (x.tone.sent ≠ 0 → (t.at k).tone.phase = x.tone.phase)
            ∧ (t.at k).txSample ∈ roundings (toneWave (Config.tonePhase (t.at k).tone.phase) tone x.tone.sent)
          (x.state = .discriminating → x.voice.activity = .beeping → sends [{ freq := 14000, level := -100 }])
          ∧ ∀ i j : Fin 4, x.state = .dialling → x.dgn.phase = .tone →
              let keys : List (List Byte) := [[0x31, 0x32, 0x33, 0x41], [0x34, 0x35, 0x36, 0x42],
                [0x37, 0x38, 0x39, 0x43], [0x2A, 0x30, 0x23, 0x44]]
              x.dgn.dial[x.dgn.pos]? = (keys.getD i.val []).getD j.val 0 →
              sends [{ freq := [6970, 7700, 8520, 9410].getD i.val 0, level := -80 },
                { freq := [12090, 13360, 14770, 16330].getD j.val 0, level := -60 }])
      ∧ (∀ c, (t.hwi.channels.get c) = { s.hwi.channels.get c with
            mismatches := (s.hwi.channels.get c).mismatches + (if ∃ k, (s.entry c).view = .self k
              ∧ (s.hwi.channels.get c).driving = true ∧ (back.getD c.val 0 ≠ (t.at k).txSample
                ∨ (c.val / 4 = f.val ∧ field backSig c ≠ (s.at k).txCode)) then 1 else 0) })
      ∧ t = { s with
          hwi := { s.hwi with
            bitCounter := t.hwi.bitCounter, rxCodes := t.hwi.rxCodes, txCodes := t.hwi.txCodes
            channels := t.hwi.channels }
          ctx := t.ctx, free := t.free }

/-- R89 to R98 and R145: the voice codec. Every code byte but 80h is the compression of its expansion. A code moves the
predictor and the index by the sums of R92; the encoder makes the code of R92, takes the same move, and packs the
earlier code of a pair in the high nibble. The 1016th sample of a block finishes it with its start state and the quiet
flag, and a recording that ends with samples in build finishes a partial block filled with 00h. A frame of session time
at a context that plays a READY block, alone in the station and short of the block's and the message's end, decodes one
code, the high nibble first, and sends the compressed predictor. A frame that finishes a block of a VOICE recording
here, alone in the station, appends it, and ends the recording with SILENCE, with MAX_LENGTH or with the store full.
The model's choice: that the context waits after a gateway recording ended so, and the order within a frame (log
entries 17 and 63). -/
def Obligations.VoiceCodesMoveThePredictor : Prop :=
  (∀ b : Byte, compress (expand b) = (if b = 0x80 then 0 else b) ∧ (expand b).natAbs ≤ 8031)
  ∧ (∀ (p : Int) (i : Nat) (code : BitVec 4),
      let q := (16 + 2 * (i % 8)) * 2 ^ (i / 8)
      let c := code.toNat
      let delta : Int := q / 8 + (if c / 4 % 2 = 1 then q else 0) + (if c / 2 % 2 = 1 then q / 2 else 0)
        + (if c % 2 = 1 then q / 4 else 0)
      let shift : Int := [-1, -1, 0, 1, 2, 3, 5, 7].getD (c % 8) 0
      applyCode p i code = (max (-8191) (min 8191 (if 8 ≤ c then p - delta else p + delta)),
        (max 0 (min 47 ((i : Int) + shift))).toNat))
  ∧ (∀ (v : Vcd) (threshold : Nat) (sample : Byte), v.built + 1 < 1016 →
      let q := (16 + 2 * (v.encIndex % 8)) * 2 ^ (v.encIndex / 8)
      let d := expand sample - v.encPredictor
      let b2 := if q ≤ d.natAbs then 1 else 0
      let m := d.natAbs - b2 * q
      let b1 := if q / 2 ≤ m then 1 else 0
      let b0 := if q / 4 ≤ m - b1 * (q / 2) then 1 else 0
      let code : BitVec 4 := BitVec.ofNat 4 ((if d < 0 then 8 else 0) + 4 * b2 + 2 * b1 + b0)
      let w := (v.encode threshold sample).1
      (w.encPredictor, w.encIndex) = applyCode v.encPredictor v.encIndex code
        ∧ (v.encode threshold sample).2 = none
        ∧ (v.built = 0 → w.startPredictor = v.encPredictor ∧ w.startIndex = v.encIndex
            ∧ w.largest = max v.encIndex w.encIndex)
        ∧ (v.built ≠ 0 → w.startPredictor = v.startPredictor ∧ w.startIndex = v.startIndex
            ∧ w.largest = max v.largest w.encIndex)
        ∧ (v.pendingNibble = none → w.build = v.build ∧ w.pendingNibble = some code)
        ∧ (∀ high, v.pendingNibble = some high → w.pendingNibble = none
            ∧ w.build = v.build ++ [BitVec.ofNat 8 (16 * high.toNat + code.toNat)]))
  ∧ (∀ (v : Vcd) (threshold : Nat),
      let header (quiet : Bool) : List Byte :=
        [(BitVec.ofInt 16 v.startPredictor).extractLsb' 8 8, (BitVec.ofInt 16 v.startPredictor).extractLsb' 0 8,
         BitVec.ofNat 8 v.startIndex, if quiet then 0x80 else 0]
      let partly := v.build ++ (v.pendingNibble.map fun n => BitVec.ofNat 8 (16 * n.toNat)).toList
      (∀ sample, v.built = 1015 → ∃ last, v.encode threshold sample = ({ v with
          encPredictor := (v.encode threshold sample).1.encPredictor, encIndex := (v.encode threshold sample).1.encIndex
          largest := max v.largest (v.encode threshold sample).1.encIndex, build := [], pendingNibble := none
          sequence := v.sequence + 1 },
        some { sequence := v.sequence, samples := 1016
               quiet := decide (max v.largest (v.encode threshold sample).1.encIndex ≤ threshold)
               block := header (max v.largest (v.encode threshold sample).1.encIndex ≤ threshold) ++ v.build ++ [last] }))
      ∧ (v.built = 0 → v.stopRecording threshold = ({ v with recording := false }, none))
      ∧ (0 < v.built → v.built ≤ 1015 → v.stopRecording threshold = ({ v with
          recording := false, build := [], pendingNibble := none, sequence := v.sequence + 1 },
        some { sequence := v.sequence, samples := v.built, quiet := decide (v.largest ≤ threshold)
               block := header (v.largest ≤ threshold) ++ partly ++ List.replicate (508 - partly.length) 0 })))
  ∧ (∀ (f : Fin 8) (rx : List Byte) (rxSig : Byte) (back : List Byte) (backSig : Byte) (s : State) (k : ContextId)
    (c : Channel) (h b : Nat) (rest : List Nat) (m : Msg) (g : ConfigRecord) (fin : Finished),
    s.Quiet → s.cfu.config = some g → givesSessionTime s = true → (∀ j, j ≠ k → (s.at j).channel = none) →
    (s.at k).state = .connected → (s.at k).session = .voice → (s.at k).voice.activity = .recording →
    (s.at k).voice.script = .none → (s.at k).held = false → (s.at k).channel = some c → holds s k c = true →
    (s.at k).vcd.recording = true → (s.at k).voice.recTarget = some (.here h) →
    openUnder s h (.here k) = some m → m.kind = .voice →
    ((s.at k).vcd.encode g.quietThreshold (rx.getD c.val 0)).2 = some fin →
    let v := (s.at k).voice
    let quiet := if fin.quiet then min 255 (v.quietRun + 1) else 0
    let handed := min 4095 (v.handedOn + 1)
    let ended (t : State) : Prop := (t.at k).voice.activity = .waiting ∧ (t.at k).voice.idle = some 20000
      ∧ (t.at k).voice.recTarget = none ∧ (t.at k).vcd.recording = false ∧ ∀ x, t.msgAt h = some x → x.state ≠ .opened
    (s.msc.freeList = b :: rest → (∀ l ∈ m.last, l ≠ b) →
      (quiet < g.silenceBlocks → handed < v.maxBlocks → ∃ t, exec (.highwayFrame f rx rxSig back backSig) s = .next t
        ∧ (t.at k).voice = { v with quietRun := quiet, handedOn := handed } ∧ (t.at k).vcd.recording = true
        ∧ blockAt t b = fin.block ∧ ∃ x, t.msgAt h = some x ∧ x.state = .opened ∧ x.count = m.count + 1
            ∧ x.last = some b ∧ x.length = 1016 * m.count + fin.samples)
      ∧ (g.silenceBlocks ≤ quiet → ∃ t, exec (.highwayFrame f rx rxSig back backSig) s = .next t ∧ ended t)
      ∧ (quiet < g.silenceBlocks → v.maxBlocks ≤ handed → ∃ t, exec (.highwayFrame f rx rxSig back backSig) s = .next t
        ∧ ended t ∧ ∃ x, t.msgAt h = some x ∧ x.state = .closed ∧ x.count = m.count + 1 ∧ x.truncated = m.truncated))
    ∧ (s.msc.freeList = [] → ∃ t, exec (.highwayFrame f rx rxSig back backSig) s = .next t ∧ ended t
        ∧ ∀ x, t.msgAt h = some x → x.truncated = true ∧ x.count = m.count))
  ∧ ∀ (f : Fin 8) (rx : List Byte) (rxSig : Byte) (back : List Byte) (backSig : Byte) (s : State) (k : ContextId)
    (c : Channel) (b n : Nat) (block : List Byte),
    s.Quiet → givesSessionTime s = true → (∀ j, j ≠ k → (s.at j).channel = none) →
    (s.at k).state = .connected → (s.at k).session = .voice → (s.at k).voice.activity = .playing →
    (s.at k).held = false → (s.at k).channel = some c → holds s k c = true → (s.at k).vcd.recording = false →
    (s.at k).vcd.mark = .playing → (s.at k).vcd.current = some (b, n) →
    (s.at k).vcd.buffer.find b = .ready b block → n + 1 < 1016 → (s.at k).vcd.position + 1 < (s.at k).vcd.length →
    let v := (s.at k).vcd
    let byte := byteAt block (4 + n / 2)
    let code : BitVec 4 := BitVec.ofNat 4 (if n % 2 = 0 then byte.toNat / 16 else byte.toNat)
    let moved := applyCode v.decPredictor v.decIndex code
    ∃ t, exec (.highwayFrame f rx rxSig back backSig) s = .next t
      ∧ (t.at k).vcd = { v with
          decPredictor := moved.1, decIndex := moved.2, current := some (b, n + 1), position := v.position + 1 }
      ∧ (t.at k).txSample = compress moved.1

/-- R9 to R15, R44, R56 and R70: a superframe boundary. The first after the entry to ALIGNED gives station time alone
and starts the tick count; a later one whose measured count steps by no more than the threshold, with no contention and
no code that moves a run, gives session time to every context that is not held, stores the measured count and repairs
the map too. A larger step is reported and written as a TIMING_STEP fault. Two mismatches of the read-back of a channel
in a call are contention: the context is FREE at once, the channel is UNKNOWN and no longer driven, and the fault is
written. A tick count that reaches 32767 loses alignment. Away from ALIGNED the local count gives station time. The
model's choice: the tick counts of a command, the order within a boundary, and that the sub-minute count goes on past
60000 until the minute steps (log entries 1, 3 and 26). -/
def Obligations.BoundaryCountsTime : Prop :=
  ∀ (ticks : Nat) (s : State), s.Quiet →
    (isAligned s = true → s.hwi.tickCount = none → exec (.superframeBoundary ticks) s = .next { s with
      hwi := { s.hwi with
        tickCount := some 0, hold := s.hwi.hold.map (· - 1)
        channels := s.hwi.channels.map fun c => { c with driving := c.enable, mismatches := 0 } }
      cfu := { s.cfu with stationTime := s.cfu.stationTime + 1, subMinute := s.cfu.subMinute + 1 }
      rau := { s.rau with
        outbound := s.rau.outbound.map fun d => d.map fun d => { d with timer := d.timer.map (· - 1) }
        fetches := s.rau.fetches.map fun f => f.map fun f =>
          { f with timer := f.timer.map (· - 1), keepalive := f.keepalive - 1 } } })
    ∧ (∀ m, s.BoundaryAt ticks m → s.TimingHolds (m + ticks) → s.CodesStand →
        let slot (x : Slot) : Slot := match x with
          | .arriving i parts left => .arriving i parts (left - 1)
          | x => x
        let down (t : Option Nat) : Option Nat := t.map (· - 1)
        ∃ t, exec (.superframeBoundary ticks) s = .next t
          ∧ t.hwi = { s.hwi with
              tickCount := some 0, prevTiming := some (m + ticks), hold := down s.hwi.hold, channels := t.hwi.channels }
          ∧ (∀ c, t.hwi.channels.get c =
              { s.hwi.channels.get c with driving := (s.hwi.channels.get c).enable, mismatches := 0 })
          ∧ (∀ k, let x := s.at k
              let linked := x.qmn.phase = some .up
              t.at k = if x.held = true then x else { x with
                timer := down x.timer
                clearing := if x.state = .clearing then min 8 (x.clearing + 1) else x.clearing
                dgn := { x.dgn with left := x.dgn.left - 1 }
                vcd := { x.vcd with buffer := { a := slot x.vcd.buffer.a, b := slot x.vcd.buffer.b } }
                voice := { x.voice with beep := down x.voice.beep, idle := down x.voice.idle }
                fax := { x.fax with
                  wait := down x.fax.wait, buffer := { a := slot x.fax.buffer.a, b := slot x.fax.buffer.b } }
                qmn := { x.qmn with timer := down x.qmn.timer }
                lkc := { x.lkc with
                  resend := if linked then down x.lkc.resend else x.lkc.resend
                  remoteHold := if linked then down x.lkc.remoteHold else x.lkc.remoteHold } })
          ∧ (∀ k, t.bid k = (s.bid k).map fun b => { b with timer := down b.timer })
          ∧ (∀ c, let e := s.entry c
              let ready (x : Settling) : Settling := { x with candidate := none, run := 0 }
              let others : Prop := e.view = .unknown ∨ ∃ p, e.view = .peer p
              let stale : Prop := (e.view = .free ∧ e.tx.settled ≠ .idle) ∨ (others ∧ e.tx.settled = .idle)
              t.entry c = {
                view := if stale ∧ 15 ≤ e.stale then (if e.view = .free then .unknown else .free) else e.view
                blockTimer := down e.blockTimer, rx := ready e.rx, tx := ready e.tx
                stale := if stale ∧ e.stale < 15 then e.stale + 1 else 0 })
          ∧ t.rau = { s.rau with
              outbound := s.rau.outbound.map fun d => d.map fun d => { d with timer := down d.timer }
              fetches := s.rau.fetches.map fun f => f.map fun f =>
                { f with timer := down f.timer, keepalive := f.keepalive - 1 } }
          ∧ t.cfu = { s.cfu with stationTime := s.cfu.stationTime + 1, subMinute := s.cfu.subMinute + 1 }
          ∧ t.clc = s.clc ∧ t.msc = s.msc)
    ∧ (∀ m old, s.BoundaryAt ticks m → s.hwi.prevTiming = some old → s.CodesStand →
        timingThreshold s < max (m + ticks) old - min (m + ticks) old → (∀ k, (s.at k).session ≠ .data) →
        s.cfu.faults.length < 8 →
        let step := min 255 (max (m + ticks) old - min (m + ticks) old)
        ∃ t, exec (.superframeBoundary ticks) s = .next t ∧ t.hwi.prevTiming = some (m + ticks)
          ∧ t.cfu.faults = s.cfu.faults ++ [
              { kind := .timingStep, subject := step, stamp := s.cfu.minute, clockSet := s.cfu.clockSet }]
          ∧ t.clc = (sendEvent none (.fault .timingStep s.cfu.clockSet step) (sendEvent none .timingStep s)).clc)
    ∧ (∀ m (ch : Channel) (k : ContextId), isAligned s = true → s.hwi.tickCount = some m → m + ticks < 32767 →
        s.TimingHolds (m + ticks) → s.CodesStand → (∀ c, c ≠ ch → (s.hwi.channels.get c).mismatches < 2) →
        2 ≤ (s.hwi.channels.get ch).mismatches → (s.entry ch).view = .self k →
        (s.at k).state ∈ [.addressing, .answering, .discriminating, .seized, .dialling, .progress, .connected] →
        s.cfu.faults.length < 8 →
        ∃ t, exec (.superframeBoundary ticks) s = .next t ∧ t.at k = Context.reset ∧ (t.entry ch).view = .unknown
          ∧ t.hwi.channels.get ch = HwiChannel.reset
          ∧ t.cfu.faults = s.cfu.faults ++ [
              { kind := .contention, subject := ch.val, stamp := s.cfu.minute, clockSet := s.cfu.clockSet }])
    ∧ (∀ m, isAligned s = true → s.hwi.tickCount = some m → 32767 ≤ m + ticks →
        ∃ t, exec (.superframeBoundary ticks) s = .next t ∧ t.hwi.align = .search ∧ t.hwi.hold = some 500
          ∧ t.cfu.stationTime = s.cfu.stationTime)
    ∧ (isAligned s = false → ∃ t, exec .localStationTimeCount s = .next t
        ∧ t.hwi = { s.hwi with localCount := 0, hold := s.hwi.hold.map (· - 1) }
        ∧ t.cfu = { s.cfu with stationTime := s.cfu.stationTime + 1, subMinute := s.cfu.subMinute + 1 }
        ∧ t.clc = s.clc ∧ t.tcm = s.tcm ∧ t.ctx = s.ctx ∧ t.msc = s.msc)

/-- R120 and R38: the start-up scan ends with the free list in ascending order of the data blocks it left unclaimed,
each mailbox cut to exactly the CLOSED messages of its own that it listed, the low mark of the store level, and STARTING
left when alignment has been seen. The model's choice: when the store level is examined (log entry 21). -/
def Obligations.ScanEndMakesTheStoreReady : Prop :=
  ∀ s : State, s.Quiet → s.msc.state = .scanning → ∃ t, exec .startUpScanEnd s = .next t
    ∧ t.msc.state = .ready
    ∧ t.msc.freeList = (List.range (1024 * 2 ^ s.cfu.storeSize.val)).filter fun n =>
        decide (80 ≤ n) && !s.msc.claimed.contains n
    ∧ t.msc.freeList.Pairwise (· < ·)
    ∧ t.msc.lowMark = (if s.msc.lowMark then decide (t.msc.freeList.length ≤ 128) else decide (t.msc.freeList.length < 64))
    ∧ t.msc.mbxs = s.msc.mbxs.map (scanMailbox s)
    ∧ (∀ b ∈ t.msc.mbxs, b.openCount = 0 ∧ b.greetingOpen = false ∧ b.list.Nodup ∧ ∀ h ∈ b.list, ∃ m,
        t.msgAt h = some m ∧ m.state = .closed ∧ m.mailbox = b.number ∧ m.kind ≠ .greeting)
    ∧ (∀ old ∈ s.msc.mbxs, ∃ b ∈ t.msc.mbxs, b.number = old.number ∧ b.limit = old.limit
        ∧ (∀ h, h ∈ b.list ↔ h ∈ old.list ∧ ∃ m, s.msgAt h = some m ∧ m.state = .closed ∧ m.mailbox = old.number
            ∧ m.kind ≠ .greeting)
        ∧ ∀ h, b.greeting = some h ↔ old.greeting = some h ∧ ∃ m, s.msgAt h = some m ∧ m.state = .closed
            ∧ m.mailbox = old.number ∧ m.kind = .greeting)
    ∧ t.cfu.state = (if s.cfu.state = .starting ∧ s.cfu.alignSeen = true
        then (if s.cfu.config.isSome then .active else .unconfigured) else s.cfu.state)
    ∧ t.msc.mem = s.msc.mem ∧ t.msc.links = s.msc.links ∧ t.msc.msgs = s.msc.msgs

/-! ### The control line -/

/-- R23 and R24: the line falls FREE. An empty queue leaves it FREE, or BUSY when another station sends; otherwise the
head of the queue is sent, and when another arbitration byte is lower it loses and stays where it is. The model's
choice: the arbitration operand and the run of recessive bits (log entries 13 and 14). -/
def Obligations.FreeLineStartsTheHead : Prop :=
  ∀ (others : List Byte) (s : State), s.Quiet → (∀ x ∈ s.clc.tx, x.sending = false) →
    (s.clc.tx = [] → exec (.lineFree others) s = .next { s with clc := { s.clc with
        line := if others = [] then .free else .busy, run := if others = [] then 12 else 0 } })
    ∧ (∀ x rest, s.clc.tx = x :: rest → (∀ b ∈ others, ¬ b < arbitrationByte x.cell) →
        exec (.lineFree others) s = .next { s with clc := { s.clc with
          line := .busy, run := 0, tx := { x with sending := true } :: rest } })
    ∧ (∀ x rest b, s.clc.tx = x :: rest → b ∈ others → b < arbitrationByte x.cell → x.orphan = false →
        (x.cell.kind ≠ kindClaim ∨ ∀ k d, s.bid k = some d → d.withdrawal = none) →
        exec (.lineFree others) s = .next { s with clc := { s.clc with line := .busy, run := 0 } })

/-- R21, R22 and R25: a cell of up to 72 payload bytes, sent with its check, is read back whole, field by field; the
same bytes with any other check, or with a guard error, are not a cell. -/
def Obligations.WireCellReadsBack : Prop :=
  ∀ c : Cell, c.payload.length ≤ 72 →
    readCell (cellBytes c ++ be2 (cellCheck c).toNat) false = .good c
    ∧ (∀ x : BitVec 16, x ≠ cellCheck c → readCell (cellBytes c ++ be2 x.toNat) false = .badCheck)
    ∧ ∀ bytes, readCell bytes true = .framing

/-- R23, R25, R26 and R36: a cell on the line while no cell of this station is in transmission. A good cell for this
station or for all joins the receive queue while fewer than 16 cells stand there, and is otherwise not accepted and not
counted; a bad check and a framing error are counted; a station that is JOINING takes nothing but counts the bits. A
cell left in transmission by a restart is removed when it loses arbitration. The model's choice: the arbitration operand
and the run of recessive bits (log entries 13 and 14). -/
def Obligations.ReceivedCellsAreJudged : Prop :=
  ∀ (c : Cell) (s : State) (ack : Bool), s.Quiet → c.payload.length ≤ 72 →
    let wire (check : BitVec 16) : List Byte := cellBytes c ++ be2 check.toNat
    let good : CellEnd := { guardError := false, acknowledged := ack }
    let bad : CellEnd := { guardError := true, acknowledged := ack }
    let run := if ack then 0 else 1
    let counted : State := { s with clc := { s.clc with
      line := .busy, run, badCheck := min 65535 (s.clc.badCheck + 1) } }
    (s.clc.line ≠ .joining → (∀ x ∈ s.clc.tx, x.sending = false) →
      ((c.dst = ownAddress s ∨ c.dst = allStations) → s.clc.rx.length < 16 →
        exec (.cellReceived (wire (cellCheck c)) good) s = .next { s with clc := { s.clc with
          line := .busy, run := 0, rx := s.clc.rx ++ [c] } })
      ∧ ((c.dst ≠ ownAddress s ∧ c.dst ≠ allStations) ∨ 16 ≤ s.clc.rx.length →
        exec (.cellReceived (wire (cellCheck c)) good) s = .next { s with clc := { s.clc with line := .busy, run } })
      ∧ (∀ x, x ≠ cellCheck c → exec (.cellReceived (wire x) good) s = .next counted)
      ∧ (∀ bytes, exec (.cellReceived bytes bad) s = .next counted))
    ∧ (s.clc.line = .joining → (∀ x ∈ s.clc.tx, x.sending = false) → ∀ bytes e, exec (.cellReceived bytes e) s =
        .next { s with clc := { s.clc with run := if e.acknowledged then 0 else 1 } })
    ∧ (∀ x bytes e, s.clc.line = .joining → inTransmission s = some x → x.orphan = true →
        (byteAt bytes 0 < arbitrationByte x.cell → exec (.cellReceived bytes e) s = .next { s with clc := { s.clc with
          run := if e.acknowledged then 0 else 1, tx := s.clc.tx.filter fun y => !y.sending } })
        ∧ (¬ byteAt bytes 0 < arbitrationByte x.cell → exec (.cellReceived bytes e) s = .next s))

/-- R28, R29 and R48: what the transmit queue takes, where a cell joins, and what becomes of a report that is refused.
The model's choice: the serial numbers (log entry 35). -/
def Obligations.QueueKeepsPriorityThenAge : Prop :=
  (∀ (x : TxCell) (q : List TxCell), q.Pairwise (fun a b => a.cell.prio ≤ b.cell.prio) →
    insertByPriority x q = q.filter (fun y => decide (y.cell.prio ≤ x.cell.prio)) ++
      x :: q.filter (fun y => decide (x.cell.prio < y.cell.prio))
    ∧ (insertByPriority x q).Pairwise (fun a b => a.cell.prio ≤ b.cell.prio))
  ∧ (∀ (q : List TxCell) (c : Cell), queueTakes q c = true ↔ q.length < 24
      ∧ (c.kind ∈ [kindDepositData, kindFetchData, kindDataRx] → (q.filter fun x => isStreamKind x.cell.kind).length < 16)
      ∧ (c.kind = kindClaim → ∀ x ∈ q, x.cell.kind = kindClaim → byteAt x.cell.payload 0 ≠ byteAt c.payload 0))
  ∧ (∀ (s : State) (k : Option ContextId) (e : Event),
      let cell := ownCell s e.level gateway kindEvent (contextTag k) e.payload
      sendEvent k e s = if s.clc.tx.length < 24
        then { s with clc := { s.clc with tx := insertByPriority (freshTx cell 0) s.clc.tx } }
        else { s with cfu := { s.cfu with lostReports := min 255 (s.cfu.lostReports + 1) } })

/-- R23, R25, R31, R36, R54, R101, R124, R131, R132, R134, R142, R146 and R157: the outcome of a cell other than a CLAIM
takes it out of the queue and counts it unless it was acknowledged; one that a restart left on the line only leaves it.
Nothing else follows for a RELEASE and for a cell that no record waits for. An UNDELIVERED deposit cell ends its record
with HOME_SILENT, which is reported, and its recording with it where that still runs. An UNDELIVERED FETCH_OPEN ends its
fetch with HOME_SILENT: a playback is reported and waits, a greeting gives way to the beep, and a fax send that has not
trained ends its session. The model's choice: the held producers told by a command of their own, the outcome commands,
the run of recessive bits, that the context waits after a recording ended so, that no session is left in CLEARING, the
address of a home above 7, the serial numbers, that a FETCH_CLOSE is sent for the handle asked for, before the PLAY_DONE
or FAX_DONE, and that the playback mark stands ENDED after a fetch that ends before its grant (log entries 11, 12, 14,
17, 19, 24, 35, 38, 53, 74 and 85). -/
def Obligations.OutcomeRemovesTheCell : Prop :=
  (∀ (s : State) (x : TxCell) (r : SendResult), s.Quiet → inTransmission s = some x → x.orphan = true →
    exec (.cellOutcome r) s = .next { s with clc := { s.clc with
      tx := s.clc.tx.filter fun y => !y.sending
      line := if s.clc.line = .joining then .joining else .busy, run := if r = .noAck then 1 else 0 } })
  ∧ ∀ (s : State) (x : TxCell), s.Quiet → inTransmission s = some x → x.orphan = false →
    let decided (r : SendResult) : Clc := { s.clc with
      tx := s.clc.tx.filter fun y => !y.sending
      line := if s.clc.line = .joining then .joining else .busy, run := if r = .noAck then 1 else 0
      undelivered := if r = .ack then s.clc.undelivered else min 65535 (s.clc.undelivered + 1) }
    let waited : List Byte := [kindDepositOpen, kindDepositClose, kindDepositRollback, kindFetchOpen]
    (∀ r, x.cell.kind ≠ kindClaim → (r = .ack ∨ x.cell.kind ∉ waited) →
      exec (.cellOutcome r) s = .next { s with clc := decided r })
    ∧ (∀ r, x.cell.kind = kindRelease → exec (.releaseOutcome r) s = .next { s with clc := decided r })
    ∧ (∀ e k d, x.cell.kind ∈ [kindDepositOpen, kindDepositClose, kindDepositRollback] →
        contextOf x.cell.tag.toNat = some k → s.outbound k = some d → d.serial = x.serial → d.kind ≠ .fax →
        (s.at k).session ≠ .fax →
        let reported : State := sendEvent (some k) (.recordDone d.home d.handle none codeHomeSilent none) { s with
          clc := { decided (undeliveredBy e) with held := s.clc.held.filter (· != .deposit k) }
          rau := { s.rau with outbound := s.rau.outbound.set k none } }
        ((s.at k).voice.activity ≠ .recording → exec (.depositCellUndelivered e) s = .next reported)
        ∧ ((s.at k).voice.activity = .recording → (s.at k).voice.recTarget = some (.outbound d.serial) →
            (s.at k).voice.script ≠ .answer → ∃ t, exec (.depositCellUndelivered e) s = .next t
            ∧ (t.at k).voice.activity = .waiting ∧ (t.at k).voice.idle = some 20000 ∧ (t.at k).voice.recTarget = none
            ∧ (t.at k).vcd.recording = false ∧ (t.at k).vcd.build = [] ∧ t = { reported with ctx := t.ctx }))
    ∧ ∀ e k f, x.cell.kind = kindFetchOpen → contextOf x.cell.tag.toNat = some k → s.fetch k = some f →
        f.serial = x.serial → f.state = .opening →
        let gone : State := { s with
          clc := decided (undeliveredBy e), rau := { s.rau with fetches := s.rau.fetches.set k none } }
        let closed (n : Nat) : State :=
          offerOther (ownCell s 4 (homeAddress f.home) kindFetchClose (tagOf k) (be2 n)) 0 none gone
        (∀ n, (s.at k).state = .connected → (s.at k).session = .voice → (s.at k).voice.activity = .playing →
          (s.at k).voice.script = .none → (s.at k).vcd.source = none → f.handle = some n →
          ∃ t, exec (.fetchOpenUndelivered e) s = .next t ∧ (t.at k).voice.activity = .waiting
            ∧ (t.at k).voice.idle = some 20000 ∧ (t.at k).vcd.mark = .ended
            ∧ t = { sendEvent (some k) (.playDone codeHomeSilent (s.at k).vcd.position) (closed n) with ctx := t.ctx })
        ∧ ((s.at k).state = .discriminating → (s.at k).voice.activity = .playing → (s.at k).voice.script = .answer →
          (s.at k).voice.step = some .greeting → (s.at k).vcd.source = none → f.handle = none →
          ∃ t, exec (.fetchOpenUndelivered e) s = .next t ∧ (t.at k).voice.activity = .beeping
            ∧ (t.at k).voice.step = some .beep ∧ (t.at k).voice.beep = some 500 ∧ (t.at k).vcd.mark = .ended
            ∧ t = { gone with ctx := t.ctx })
        ∧ (∀ n ch, (s.at k).state = .connected → (s.at k).session = .fax → (s.at k).voice.activity = .none →
          (s.at k).fax.role = some .send → (s.at k).fax.phase = .awaitCapability →
          (s.at k).fax.trainingBegun = false → f.handle = some n → (s.at k).channel = some ch →
          (s.at k).direction = some .incoming → (s.at k).announced = true → (s.at k).outgoing = none →
          ∃ t, exec (.fetchOpenUndelivered e) s = .next t ∧ (t.at k).state = .clearing ∧ (t.at k).session = .none
            ∧ (t.at k).fax = Fax.reset ∧ (t.at k).timer = some 2000
            ∧ t = { sendRelease ch (sendEvent (some k) (.callEnded codeFaxFailed)
                (sendEvent (some k) (.faxDone (s.at k).fax.pagesDone codeHomeSilent) (closed n))) with ctx := t.ctx })

/-- R31, R60, R74 and R79: the outcome of this station's CLAIM gives its context the channel, acknowledged or not: an
incoming bid whose far end still shows SEIZE enters ADDRESSING and waits 4 s for digits, an outgoing claim whose far
end shows IDLE enters SEIZED with the guard of 200 ms. The view is SELF and the drive is enabled. The model's choice:
the outcome commands and the order of what a claim's end does (log entries 12 and 42). -/
def Obligations.ClaimOutcomeTakesTheChannel : Prop :=
  ∀ (s : State) (x : TxCell) (c : Channel) (k : ContextId) (b : Bid) (g : ConfigRecord) (r : SendResult),
    s.Quiet → isAligned s = true → s.cfu.config = some g → 0 < g.addressDigits →
    inTransmission s = some x → x.orphan = false → x.cell.kind = kindClaim → byteAt x.cell.payload 0 = BitVec.ofNat 8 c.val →
    claimerOf s c = some k → s.bid k = some b → b.channel = c → b.withdrawal = none →
    (s.entry c).rx.settled = (if b.direction = .incoming then .seize else .idle) →
    ∃ t, exec (.claimOutcome r) s = .next t
      ∧ t.at k = { s.at k with
          state := if b.direction = .incoming then .addressing else .seized
          direction := if b.direction = .incoming then some .incoming else (s.at k).direction
          digits := if b.direction = .incoming then [] else (s.at k).digits
          timer := some (if b.direction = .incoming then 4000 else 200)
          channel := some c, txCode := .seize, held := false }
      ∧ (∀ j, j ≠ k → t.at j = s.at j)
      ∧ (t.entry c).view = .self k ∧ (t.entry c).blockTimer = none
      ∧ (∀ d, d ≠ c → t.entry d = s.entry d) ∧ t.bid k = none
      ∧ t.hwi.channels.get c = { s.hwi.channels.get c with enable := true }
      ∧ t.clc.tx = s.clc.tx.filter (fun y => !y.sending)
      ∧ t.clc.undelivered = (if r = .ack ∨ (r = .noAck ∧ g.groupSize = 1) then s.clc.undelivered
          else min 65535 (s.clc.undelivered + 1))
      ∧ t.cfu = s.cfu ∧ t.msc = s.msc ∧ t.rau = s.rau

/-- R27, R33 and R136: an ANSWER of a peer, an accepted cell of a kind that no block of a station takes, and a request
whose source is not the gateway leave the receive queue and change nothing else. -/
def Obligations.DiscardedCellsOnlyLeaveTheQueue : Prop :=
  ∀ (s : State) (c : Cell), s.Quiet → s.clc.rx.head? = some c →
    let popped : State := { s with clc := { s.clc with rx := s.clc.rx.tail } }
    (∀ p, FromPeer s c kindAnswer p → exec .answer s = .next popped)
    ∧ (c.kind ∉ ownedKinds → exec .unownedCellDiscarded s = .next popped)
    ∧ (∀ owner, c.src ≠ gateway → handRequest c.kind owner s = .next popped)

/-- R29, R125, R133 and R174: when room has appeared the held set is emptied and its producers offer again, here the one
that was held. The parts that a deposit of this station has cut, and the parts of the pending block list in its order,
are queued at priority 4 as far as the queue takes them; the first that is refused is held again and the rest wait behind
it. When every part of an entry is queued the entry leaves the list and the next begins. A DATA_RX that holds the whole
receive buffer is queued at priority 5 and the buffer is empty; refused once more, it is held again. -/
def Obligations.RoomAppearedOffersAgain : Prop :=
  ∀ (s : State), s.Quiet →
    let fill (cells : List Cell) : List TxCell := cells.foldl (fun q c => insertByPriority (freshTx c 0) q) s.clc.tx
    let takes (taken left : List Cell) : Prop :=
      (∀ i c, taken[i]? = some c → queueTakes (fill (taken.take i)) c = true)
      ∧ ∀ c, left.head? = some c → queueTakes (fill taken) c = false
    (∀ (k : ContextId) (d : OutDeposit) (taken left : List Cell), s.clc.held = [.deposit k] → s.outbound k = some d →
      d.state ≠ .opening → d.toOffer = taken ++ left → takes taken left →
      (∀ n bytes e g more, d.buffer = .block n bytes e g :: more → 2 ≤ d.outstanding.length) →
      (left = [] → (∀ page more, d.buffer ≠ .rollback page :: more)
        ∧ (d.buffer = [] → d.state = .closing → d.close = none ∨ d.closeSent = true)) →
      exec .roomAppeared s = .next { s.setOutbound k (some { d with toOffer := left }) with
        clc := { s.clc with held := if left = [] then [] else [.deposit k], tx := fill taken } })
    ∧ (s.clc.held = [.fetchData] → (∀ y ∈ s.rau.pendingBlocks, y.nextPart < 8) →
      let parts (y : PendingBlock) : List Cell := (List.range' y.nextPart (8 - y.nextPart)).map fun p =>
        ownCell s 4 (BitVec.ofNat 4 y.station.val) kindFetchData (BitVec.ofNat 8 y.context)
          (be2 y.handle ++ be2 y.index ++ be1 p ++ (y.block.drop (64 * p)).take 64)
      let served (held : List StreamProducer) (taken : List Cell) (list : List PendingBlock) : State := { s with
        clc := { s.clc with held, tx := fill taken }, rau := { s.rau with pendingBlocks := list } }
      (takes (s.rau.pendingBlocks.flatMap parts) [] →
        exec .roomAppeared s = .next (served [] (s.rau.pendingBlocks.flatMap parts) []))
      ∧ ∀ done x rest n, s.rau.pendingBlocks = done ++ x :: rest → x.nextPart + n < 8 →
          let taken := done.flatMap parts ++ (parts x).take n
          takes taken ((parts x).drop n) →
          exec .roomAppeared s = .next (served [.fetchData] taken ({ x with nextPart := x.nextPart + n } :: rest)))
    ∧ ∀ (k : ContextId), s.clc.held = [.dataRx k] →
      (s.at k).lkc.rxHeld = some (s.at k).lkc.rxBuffer.length → (s.at k).lkc.holdSent = false →
      let cell := ownCell s 5 gateway kindDataRx (tagOf k) (s.at k).lkc.rxBuffer
      (queueTakes s.clc.tx cell = true → exec .roomAppeared s = .next { s with
          clc := { s.clc with held := [], tx := insertByPriority (freshTx cell 0) s.clc.tx }
          ctx := s.ctx.modify k fun x => { x with lkc := { x.lkc with rxBuffer := [], rxHeld := none } } })
      ∧ (queueTakes s.clc.tx cell = false → exec .roomAppeared s = .next s)

/-! ### Station requests -/

/-- R40: the three answers of CONFIGURE in the order of its checks, and the record that an accepted one gives, every
field brought into its range. The accepted record is shown in a station that is STARTING and counts no run that has
already reached the new settle count; an UNCONFIGURED station becomes ACTIVE (R38), here with no channel in SEIZE or
not ALIGNED, where no bid starts. The model's choice: the order of an acceptance's effects, and that no bid starts away
from ALIGNED (log entries 31 and 58). -/
def Obligations.ConfigureAnswersByItsChecks : Prop :=
  ∀ (s : State) (c : Cell), s.Quiet → Asked s c kindConfigure →
    let p := c.payload
    let refused : Prop := field p 0 1 < 1 ∨ 8 < field p 0 1 ∨ field p 0 1 ≤ s.cfu.station.val
      ∨ 3 < field p 16 1 ∨ 999 < field p 17 2
    let lo := min 11 (field p 23 1)
    let hi := min 11 (field p 24 1)
    let g : ConfigRecord :=
      { groupSize := field p 0 1, huntSet := BitVec.ofNat 32 (field p 1 4), outdialSet := BitVec.ofNat 32 (field p 5 4)
        pulseSet := BitVec.ofNat 32 (field p 9 4), settleCount := max 2 (min 120 (field p 13 1))
        timingThreshold := max 8 (min 64 (8 * (field p 14 1 / 8))), answerDelay := min 80 (field p 15 1)
        addressDigits := field p 16 1, defaultMailbox := field p 17 2, quietThreshold := min 47 (field p 19 1)
        silenceBlocks := max 4 (field p 20 1), maxBlocks := max 8 (min 4095 (field p 21 2))
        rateMin := min lo hi, rateMax := max lo hi, errorBurst := max 1 (field p 25 1)
        toneLength := max 50 (min 150 (10 * (field p 26 1 / 10))), gapLength := max 50 (min 150 (10 * (field p 27 1 / 10)))
        faxMaxRate := min 5 (field p 28 1), faxAllowed := (byteAt p 29).getLsbD 0
        dataAllowed := (byteAt p 29).getLsbD 1 }
    (s.cfu.config.isSome = true → exec .configure s = .next (sendAnswer c codeConfigLocked (popCell s)))
    ∧ (s.cfu.config = none → refused → exec .configure s = .next (sendAnswer c codeBadField (popCell s)))
    ∧ (s.cfu.config = none → ¬ refused →
        (∀ ch, (s.entry ch).rx.run < g.settleCount ∧ (s.entry ch).tx.run < g.settleCount) →
        (s.cfu.state = .unconfigured → isAligned s = true → ∀ ch, (s.entry ch).rx.settled ≠ .seize) →
        ∃ t, exec .configure s = .next t ∧ t.cfu.config = some g
          ∧ t.cfu.state = (if s.cfu.state = .unconfigured then .active else s.cfu.state)
          ∧ t = { sendAnswer c codeOk (popCell s) with cfu := { (sendAnswer c codeOk (popCell s)).cfu with
              config := t.cfu.config, state := t.cfu.state } })

/-- R44: SET_TIME sets the minute clock and starts the minute anew, and the minute clock steps, from 16777215 to 0,
when the sub-minute count has reached 60000. The model's choice: the command that steps the minute (log entry 26). -/
def Obligations.ClockIsSetAndSteps : Prop :=
  ∀ s : State, s.Quiet →
    (∀ c, Asked s c kindSetTime → exec .setTime s = .next (sendAnswer c codeOk { popCell s with
      cfu := { s.cfu with minute := BitVec.ofNat 24 (field c.payload 0 3), subMinute := 0, clockSet := true } }))
    ∧ (60000 ≤ s.cfu.subMinute → ∃ m : BitVec 24, m.toNat = (s.cfu.minute.toNat + 1) % 16777216
        ∧ exec .minuteClockStep s = .next { s with
            cfu := { s.cfu with minute := m, subMinute := s.cfu.subMinute - 60000 } })
    ∧ (s.cfu.subMinute < 60000 → exec .minuteClockStep s = .next s)

/-- R45: each STATUS_QUERY is answered at level 6 by one STATUS_REPLY with the query's tag that carries what its
selector asks for as it stands, all ones for an object that is absent; a selector above 5 is answered BAD_FIELD. The
model's choice: that a selector or mark out of range is taken by any of its commands (log entry 30). -/
def Obligations.StatusQueriesReplyTheState : Prop :=
  ∀ (s : State) (c : Cell), s.Quiet → Asked s c kindStatusQuery →
    let number := field c.payload 1 2
    let bool (b : Bool) : List Byte := [if b then 1 else 0]
    let reply (selector : Byte) (n : Option Nat) (contents : List Byte) : Host.Outcome State Fault Refusal :=
      .next (offerReport (ownCell s 6 gateway kindStatusReply c.tag ([selector] ++ beOpt2 n ++ contents)) (popCell s))
    (field c.payload 0 1 = 0 → exec .statusQueryStation s = reply 0 none
      (be1 s.cfu.station.val ++ be1 s.cfu.storeSize.val ++ be1 s.cfu.state.code ++ bool s.cfu.config.isSome
        ++ beOpt1 (s.cfu.config.map (·.groupSize)) ++ be1 s.hwi.align.code ++ bool (isReady s)
        ++ (if isReady s then be2 s.msc.freeList.length else [0xFF, 0xFF]) ++ be2 s.clc.badCheck
        ++ be2 s.clc.undelivered ++ be1 s.cfu.lostReports ++ be1 s.cfu.faults.length ++ be1 s.cfu.overflow
        ++ be3 s.cfu.minute.toNat ++ bool s.cfu.clockSet))
    ∧ (field c.payload 0 1 = 1 →
        (∀ k : ContextId, number = k.val → exec .statusQueryContext s = reply 1 (some number)
          (be1 (s.at k).state.code ++ bool (s.at k).held ++ beOpt1 ((s.at k).channel.map (·.val))
            ++ be1 (s.at k).session.code ++ (if (s.at k).session = .fax ∨ (s.at k).session = .data then [0xFF]
              else be1 (s.at k).voice.activity.code)))
        ∧ (3 < number → exec .statusQueryContext s = reply 1 (some number) (List.replicate 5 0xFF)))
    ∧ (field c.payload 0 1 = 2 →
        exec .statusQueryMap s = reply 2 none (channelIds.flatMap fun ch => viewContents (s.entry ch).view))
    ∧ (field c.payload 0 1 = 3 →
        (∀ b, s.msc.state = .ready → mailbox? s number = some b → exec .statusQueryMailbox s = reply 3 (some number)
          (be1 b.limit ++ be1 b.openCount ++ beOpt2 b.greeting ++ bool b.greetingOpen ++ b.list.flatMap be2))
        ∧ (s.msc.state = .scanning ∨ mailbox? s number = none →
          exec .statusQueryMailbox s = reply 3 (some number) (List.replicate 5 0xFF)))
    ∧ (field c.payload 0 1 = 4 →
        (∀ m, s.msc.state = .ready → s.msgAt number = some m → exec .statusQueryMessage s = reply 4 (some number)
          (be1 m.state.code ++ be1 m.kind.code ++ be2 m.mailbox ++ be2 m.count ++ be3 m.length
            ++ beOpt2 (if m.kind = .fax ∧ m.state = .opened then some m.pageMark else none) ++ be1 m.flags
            ++ beOpt3 (m.stamp.map (·.toNat)) ++ beOpt1 (m.writer.map (writerByte s)) ++ be1 m.readers.length))
        ∧ (s.msc.state = .scanning ∨ s.msgAt number = none →
          exec .statusQueryMessage s = reply 4 (some number) (List.replicate 17 0xFF)))
    ∧ (field c.payload 0 1 = 5 → exec .statusQueryFaults s = reply 5 none (be1 s.cfu.overflow
        ++ s.cfu.faults.flatMap fun f => be1 (faultKindByte f.kind f.clockSet) ++ be2 f.subject ++ be3 f.stamp.toNat))
    ∧ (5 < field c.payload 0 1 → ∀ i ∈ [Instr.statusQueryStation, .statusQueryContext, .statusQueryMap,
        .statusQueryMailbox, .statusQueryMessage, .statusQueryFaults],
        exec i s = .next (sendAnswer c codeBadField (popCell s)))

/-- R47: FAULT_CLEAR removes the entries at the positions of its set, position p being bit p - 1, sets both counts to 0
with the counts flag, and then answers OK; an ANSWER refused at a full queue is counted in the count just cleared. -/
def Obligations.FaultClearRemovesPositions : Prop :=
  ∀ (s : State) (c : Cell), s.Quiet → Asked s c kindFaultClear →
    let positions := byteAt c.payload 0
    let counts := (byteAt c.payload 1).getLsbD 0
    ∃ t, exec .faultClear s = .next t
      ∧ t.cfu.faults = (s.cfu.faults.zipIdx.filter fun x => !positions.getLsbD x.2).map (·.1)
      ∧ t.cfu.overflow = (if counts then 0 else s.cfu.overflow)
      ∧ t.cfu.lostReports = (if s.clc.tx.length < 24 then (if counts then 0 else s.cfu.lostReports)
          else if counts then 1 else min 255 (s.cfu.lostReports + 1))
      ∧ t.clc = { s.clc with
          rx := s.clc.rx.tail
          tx := if s.clc.tx.length < 24 then insertByPriority (freshTx (ownCell s 3 gateway kindAnswer c.tag
            [kindFaultClear, codeOk, 0xFF, 0xFF]) 0) s.clc.tx else s.clc.tx }
      ∧ t = { s with
          clc := t.clc
          cfu := { s.cfu with
            faults := t.cfu.faults, overflow := t.cfu.overflow, lostReports := t.cfu.lostReports } }

/-! ### Mailboxes and marks -/

/-- R108: MBOX_CREATE in the order of its checks. -/
def Obligations.MailboxCreateChecksInOrder : Prop :=
  ∀ (s : State) (c : Cell) (g : ConfigRecord), s.Quiet → AskedActive s c kindMboxCreate → s.cfu.config = some g →
    let m := field c.payload 0 2
    let limit := field c.payload 2 1
    exec .mboxCreate s = .next (
      if 999 < m ∨ limit < 1 ∨ 32 < limit then sendAnswer c codeBadField (popCell s)
      else if m % g.groupSize ≠ s.cfu.station.val then sendAnswer c codeNotHome (popCell s)
      else if ∃ b ∈ s.msc.mbxs, b.number = m then sendAnswer c codeBusy (popCell s)
      else if 64 ≤ s.msc.mbxs.length then sendAnswer c codeTableFull (popCell s)
      else sendAnswer c codeOk { popCell s with msc := { s.msc with mbxs := s.msc.mbxs ++ [
        { number := m, limit, list := [], openCount := 0, greeting := none, greetingOpen := false }] } })

/-- R109 and R136: MBOX_REMOVE in the order of its checks, with every message of the mailbox FREE, or DELETING while
it has readers, and no record left; and MBOX_QUERY in the order of its checks, with the one cell of a list of up to
eight messages. The model's choice: that parts of a list are numbered from 0 (log entry 40). -/
def Obligations.MailboxRemoveAndQuery : Prop :=
  ∀ (s : State) (c : Cell) (g : ConfigRecord), s.Quiet → s.cfu.config = some g →
    let m := field c.payload 0 2
    let answer (code : Byte) : Host.Outcome State Fault Refusal := .next (sendAnswer c code (popCell s))
    (AskedActive s c kindMboxRemove →
      (999 < m → exec .mboxRemove s = answer codeBadField)
      ∧ (m ≤ 999 → m % g.groupSize ≠ s.cfu.station.val → exec .mboxRemove s = answer codeNotHome)
      ∧ (m ≤ 999 → m % g.groupSize = s.cfu.station.val →
          (mailbox? s m = none → exec .mboxRemove s = answer codeNoSuch)
          ∧ ∀ b, mailbox? s m = some b →
            (0 < b.openCount ∨ b.greetingOpen = true → exec .mboxRemove s = answer codeBusy)
            ∧ (b.openCount = 0 → b.greetingOpen = false → ∃ t, exec .mboxRemove s = .next t
                ∧ (∀ x ∈ t.msc.mbxs, x.number ≠ m)
                ∧ (∀ h x, h ∈ b.list ++ b.greeting.toList → s.msgAt h = some x →
                    t.msgAt h = if x.readers = [] then none else some { x with state := .deleting })
                ∧ (∀ h, h ∉ b.list ++ b.greeting.toList → t.msgAt h = s.msgAt h)
                ∧ t.msc.mem = s.msc.mem ∧ t.msc.links = s.msc.links ∧ t.ctx = s.ctx ∧ t.tcm = s.tcm)))
    ∧ (Asked s c kindMboxQuery →
      (999 < m → exec .mboxQuery s = answer codeBadField)
      ∧ (m ≤ 999 → s.msc.state = .scanning → exec .mboxQuery s = answer codeStoreBusy)
      ∧ (m ≤ 999 → s.msc.state = .ready → m % g.groupSize ≠ s.cfu.station.val → exec .mboxQuery s = answer codeNotHome)
      ∧ (m ≤ 999 → s.msc.state = .ready → m % g.groupSize = s.cfu.station.val →
          (mailbox? s m = none → exec .mboxQuery s = answer codeNoSuch)
          ∧ ∀ b, mailbox? s m = some b → b.list.length ≤ 8 → exec .mboxQuery s = .next
              (offerOther (ownCell s 4 gateway kindMboxList c.tag (be2 b.number ++ be1 b.limit ++ be1 b.openCount
                ++ beOpt2 b.greeting ++ [0, 1] ++ b.list.flatMap (listEntry s))) 0 none (popCell s))))

/-- R117 and R136: MSG_MARK from the gateway or a peer, in the order of its checks, answered to its source with its tag:
HEARD and UNHEARD write the HEARD flag alone; DELETE frees a message without readers and its blocks, marks one with
readers DELETING, and takes the handle out of its mailbox. The model's choice: that a selector or mark out of range is
taken by any of its commands, and that the STORE_OK that the blocks of a delete cause is queued before the ANSWER (log
entries 30 and 83). -/
def Obligations.MarksApply : Prop :=
  ∀ (s : State) (c : Cell), s.Quiet → Received s c kindMsgMark → (c.src = gateway ∨ (stationOf c.src).isSome = true) →
    let h := field c.payload 0 2
    let checked (ok : Msg → State) : Host.Outcome State Fault Refusal := .next (
      if 511 < h then sendAnswer c codeBadField (popCell s)
      else if s.msc.state = .scanning then sendAnswer c codeStoreBusy (popCell s)
      else if s.cfu.config = none then sendAnswer c codeNotConfigured (popCell s)
      else match s.msgAt h with
        | none => sendAnswer c codeNoSuch (popCell s)
        | some m =>
          if m.state = .deleting then sendAnswer c codeNoSuch (popCell s)
          else if m.state = .opened then sendAnswer c codeBusy (popCell s)
          else sendAnswer c codeOk (ok m))
    (byteAt c.payload 2 = 0 → exec .msgMarkHeard s = checked fun m => (popCell s).setMsgAt h (some { m with heard := true }))
    ∧ (byteAt c.payload 2 = 1 →
        exec .msgMarkUnheard s = checked fun m => (popCell s).setMsgAt h (some { m with heard := false }))
    ∧ (byteAt c.payload 2 = 2 → exec .msgMarkDelete s = checked fun _ => deleteMessage h (popCell s))
    ∧ (2 < (byteAt c.payload 2).toNat → ∀ i ∈ [Instr.msgMarkHeard, .msgMarkUnheard, .msgMarkDelete],
        exec i s = .next (sendAnswer c codeBadField (popCell s)))
    ∧ (∀ (u : State) (m : Msg), u.msgAt h = some m →
        let t := deleteMessage h u
        t.msgAt h = (if m.readers = [] then none else some { m with state := .deleting })
        ∧ (∀ j, j ≠ h → t.msgAt j = u.msgAt j)
        ∧ t.msc.freeList = u.msc.freeList ++ (if m.readers = [] then chainOf u m else [])
        ∧ t.msc.mbxs = u.msc.mbxs.map (fun b => if b.number = m.mailbox
            then { b with list := b.list.filter (· != h), greeting := b.greeting.filter (· != h) } else b)
        ∧ t.msc.mem = u.msc.mem ∧ t.msc.links = u.msc.links ∧ t.ctx = u.ctx)

/-! ### Calls and sessions asked for by the gateway -/

/-- R63, R77 and R78: OUTDIAL in the order of its checks. When it is taken, the lowest-numbered FREE context is CLAIMING
the lowest channel that can be taken, its CLAIM stands in the transmit queue without a bid timer, it carries the
request, and the ANSWER carries its number. -/
def Obligations.OutdialClaimsTheLowestChannel : Prop :=
  ∀ (s : State) (c : Cell), s.Quiet → AskedActive s c kindOutdial →
    let p := c.payload
    let dial := p.drop 4
    let lo := min 11 (field p 1 1)
    let hi := min 11 (field p 2 1)
    let purpose : CallPurpose :=
      if field p 0 1 = 0 then .plain else if field p 0 1 = 1 then .play (field p 1 1) (field p 2 2)
      else if field p 0 1 = 2 then .faxSend (field p 1 1) (field p 2 2) else .data (min lo hi) (max lo hi)
    let goodDigits : Prop := dial ≠ [] ∧ dial.length ≤ 24
      ∧ ∀ b ∈ dial, b.toNat ∈ "0123456789*#ABCD,W".toList.map (fun x => x.toNat)
    let takeable (ch : Channel) : Prop := inSet (configOf s).outdialSet ch = true ∧ (s.entry ch).view = .free
      ∧ (s.entry ch).rx.settled = .idle ∧ isAligned s = true ∧ claimerOf s ch = none ∧ clearerOf s ch = none
    let claim (ch : Channel) : Cell := ownCell s 1 allStations kindClaim 0xFF (be1 ch.val ++ be1 1)
    let answer (code : Byte) : Host.Outcome State Fault Refusal := .next (sendAnswer c code (popCell s))
    (¬ goodDigits → exec .outdial s = answer codeBadDigits)
    ∧ (goodDigits → 3 < field p 0 1 → exec .outdial s = answer codeBadField)
    ∧ (goodDigits → field p 0 1 ≤ 3 →
        ((∀ k, (s.at k).state ≠ .free) → exec .outdial s = answer codeNoContext)
        ∧ ∀ k, (s.at k).state = .free → (∀ j, j < k → (s.at j).state ≠ .free) →
          ((∀ ch, ¬ takeable ch) → exec .outdial s = answer codeNoChannel)
          ∧ ∀ ch, takeable ch → (∀ d, d < ch → ¬ takeable d) →
            (queueTakes s.clc.tx (claim ch) = false → exec .outdial s = answer codeNoChannel)
            ∧ (queueTakes s.clc.tx (claim ch) = true → exec .outdial s = .next
                (sendAnswerWith c codeOk (BitVec.ofNat 8 k.val) 0xFF { s with
                  clc := { s.clc with rx := s.clc.rx.tail, tx := insertByPriority (freshTx (claim ch) 0) s.clc.tx }
                  tcm := { s.tcm with bids := s.tcm.bids.set k (some
                    { channel := ch, direction := .outgoing, timer := none, withdrawal := none }) }
                  ctx := s.ctx.modify k fun x => { x with
                    state := .claiming, direction := some .outgoing, requestTag := some c.tag, outdialDone := false
                    outgoing := some
                      { dial, purpose, choiceRetried := false, glareRetried := false, tag := c.tag } } })))

/-- R84, R30 and R67: DROP by the state of the context it names. A claim that is not on the line is withdrawn and its
context is FREE, with OUTDIAL_DONE(LOCAL_DROP) for an outgoing one; a claim on the line is marked; a context in a call
enters CLEARING, with IDLE on its line and a clearing time of 2 s. The model's choice: that no session is left in
CLEARING, that a DROP replaces an earlier withdrawal's reason, and that a CLAIM left by a restart is not withdrawn (log
entries 19, 34 and 51). -/
def Obligations.DropByState : Prop :=
  ∀ (s : State) (c : Cell), s.Quiet → AskedActive s c kindDrop →
    let ok := sendAnswer c codeOk (popCell s)
    (3 < field c.payload 0 1 → exec .drop s = .next (sendAnswer c codeBadField (popCell s)))
    ∧ ∀ k : ContextId, field c.payload 0 1 = k.val →
      ((s.at k).state = .free → exec .drop s = .next (sendAnswer c codeNoContext (popCell s)))
      ∧ ((s.at k).state = .clearing → exec .drop s = .next ok)
      ∧ (∀ b, (s.at k).state = .claiming → s.bid k = some b →
          let onLine : Prop := ∃ x ∈ s.clc.tx, x.sending = true ∧ x.orphan = false ∧ isClaimFor b.channel x = true
          let cut : State := { ok with
            clc := { ok.clc with tx := ok.clc.tx.filter fun x => x.orphan || !isClaimFor b.channel x }
            tcm := { s.tcm with bids := s.tcm.bids.set k none } }
          let freed (u : State) : State := { u with
            clc := { u.clc with held := u.clc.held.filter (· != .dataRx k) }
            ctx := s.ctx.set k Context.reset }
          (¬ onLine → b.direction = .incoming → exec .drop s = .next (freed cut))
          ∧ (∀ o, ¬ onLine → b.direction = .outgoing → (s.at k).outgoing = some o → (s.at k).outdialDone = false →
              exec .drop s = .next (freed (sendEvent (some k) (.outdialDone codeLocalDrop o.tag) cut)))
          ∧ (onLine → exec .drop s = .next { ok with tcm := { s.tcm with
              bids := s.tcm.bids.set k (some { b with withdrawal := some .dropped }) } }))
      ∧ ((s.at k).state ∈ [.addressing, .answering, .discriminating, .seized, .dialling, .progress, .connected] →
          ∃ t, exec .drop s = .next t ∧ (t.at k).state = .clearing ∧ (t.at k).session = .none
            ∧ (t.at k).txCode = .idle ∧ (t.at k).timer = some 2000 ∧ (t.at k).clearing = 0
            ∧ (t.at k).channel = (s.at k).channel ∧ ∀ j, j ≠ k → t.at j = s.at j)

/-- R39, R141, R152, R157, R169 and R173: what a station that is not ACTIVE answers to eleven requests, and the first
two checks of the requests that name a context, in their order. -/
def Obligations.SessionRequestsAreChecked : Prop :=
  ∀ (s : State) (c : Cell), s.Quiet →
    let p := c.payload
    let answer (code : Byte) : Host.Outcome State Fault Refusal := .next (sendAnswer c code (popCell s))
    (s.cfu.state ≠ .active → ∀ x ∈ [(kindMboxCreate, Instr.mboxCreate), (kindMboxRemove, .mboxRemove),
        (kindOutdial, .outdial), (kindPlay, .play), (kindRecord, .record), (kindStop, .stop),
        (kindFaxReceive, .faxReceive), (kindFaxSend, .faxSend), (kindDataConnect, .dataConnect), (kindDataTx, .dataTx),
        (kindDrop, .drop)],
      Asked s c x.1 → exec x.2 s = answer codeNotConfigured)
    ∧ (∀ x ∈ [(kindPlay, Instr.play), (kindRecord, .record), (kindStop, .stop), (kindFaxReceive, .faxReceive),
        (kindFaxSend, .faxSend), (kindDataConnect, .dataConnect)], AskedActive s c x.1 →
      let bad : Prop := 3 < field p 0 1
        ∨ (x.1 ∈ [kindPlay, kindFaxSend] ∧ (511 < field p 2 2 ∨ 7 < field p 1 1))
        ∨ (x.1 ∈ [kindRecord, kindFaxReceive] ∧ 999 < field p 1 2) ∨ (x.1 = kindDataConnect ∧ 1 < field p 1 1)
      (bad → exec x.2 s = answer codeBadField)
      ∧ ∀ k : ContextId, ¬ bad → field p 0 1 = k.val → ((s.at k).state ≠ .connected ∨ (s.at k).session ≠ .voice) →
        exec x.2 s = answer codeNoContext)
    ∧ (AskedActive s c kindDataTx →
      (3 < field p 0 1 → exec .dataTx s = answer codeBadField)
      ∧ ∀ k : ContextId, field p 0 1 = k.val → ((s.at k).state ≠ .connected ∨ (s.at k).session ≠ .data) →
        exec .dataTx s = answer codeNoContext)

/-- R101, R141, R143, R144 and R147: STOP and RECORD for a context in a voice session. STOP leaves it WAITING with 20 s
on its idle timer whatever it did before, and its decoder ENDED with EMPTY slots. RECORD, here from WAITING and with
room in the queue, opens a message of the home here and turns the recording mark on; or reports the refusal and waits;
or asks another home for a deposit. The model's choice: that the context waits after a refused open, the serial
numbers, and that the decoder has no current block after a stop (log entries 17, 35 and 54). -/
def Obligations.StopWaitsAndRecordOpens : Prop :=
  ∀ (s : State) (c : Cell) (k : ContextId) (g : ConfigRecord), s.Quiet → s.cfu.config = some g →
    field c.payload 0 1 = k.val → (s.at k).state = .connected → (s.at k).session = .voice →
    let x := s.at k
    (AskedActive s c kindStop → ∃ t, exec .stop s = .next t
      ∧ (t.at k).voice.activity = .waiting ∧ (t.at k).voice.idle = some 20000 ∧ (t.at k).voice.script = .none
      ∧ (t.at k).requestTag = some c.tag ∧ (t.at k).state = .connected ∧ (t.at k).session = .voice
      ∧ (x.voice.activity = .playing → (t.at k).vcd =
          { x.vcd with buffer := .reset, mark := .ended, source := none, current := none })
      ∧ (x.voice.activity = .recording → (t.at k).vcd.recording = false ∧ (t.at k).voice.recTarget = none)
      ∧ (x.voice.activity ∉ [.playing, .recording] → t = { sendAnswer c codeOk (popCell s) with ctx := t.ctx })
      ∧ ∀ j, j ≠ k → t.at j = s.at j)
    ∧ (AskedActive s c kindRecord → x.voice.activity = .waiting → s.clc.tx.length < 23 →
      let mailbox := field c.payload 1 2
      let kind : MsgKind := if (byteAt c.payload 5).getLsbD 0 then .greeting else .voice
      let blocks := if field c.payload 3 2 = 0 then g.maxBlocks else min 4095 (field c.payload 3 2)
      let ok := sendAnswer c codeOk (popCell s)
      (∀ code, mailbox ≤ 999 → mailbox % g.groupSize = s.cfu.station.val → openRefusal s mailbox (some kind) = some code →
        ∃ t, exec .record s = .next t ∧ (t.at k).voice.activity = .waiting ∧ (t.at k).voice.idle = some 20000
          ∧ (t.at k).vcd.recording = false ∧ t.msc = s.msc
          ∧ t.clc = (sendEvent (some k) (.recordDone s.cfu.station.val none (some 0) code (some 0)) ok).clc)
      ∧ (mailbox ≤ 999 → mailbox % g.groupSize = s.cfu.station.val → openRefusal s mailbox (some kind) = none →
        ∃ t h, exec .record s = .next t ∧ (s.msgAt h = none ∧ ∀ j, j < h → s.msgAt j ≠ none)
          ∧ (t.at k).voice.activity = .recording ∧ (t.at k).voice.recTarget = some (.here h)
          ∧ (t.at k).voice.maxBlocks = blocks ∧ (t.at k).voice.handedOn = 0 ∧ (t.at k).voice.quietRun = 0
          ∧ (t.at k).vcd.recording = true ∧ (t.at k).vcd.sequence = 0 ∧ (t.at k).vcd.encPredictor = 0
          ∧ (t.at k).vcd.encIndex = 0
          ∧ t.msgAt h = some { state := .opened, kind, mailbox, first := none, last := none, count := 0, length := 0
                               pageMark := 0, heard := false, truncated := false, gaps := false, damaged := false
                               stamp := none, writer := some (.here k), readers := [] }
          ∧ t.msc.mbxs = s.msc.mbxs.map (fun b => if b.number = mailbox then (if kind = .greeting
              then { b with greetingOpen := true } else { b with openCount := b.openCount + 1 }) else b)
          ∧ t.clc = ok.clc)
      ∧ (mailbox ≤ 999 → mailbox % g.groupSize ≠ s.cfu.station.val → s.outbound k = none →
        ∃ t, exec .record s = .next t
          ∧ (t.at k).voice.activity = .recording ∧ (t.at k).vcd.recording = true
          ∧ (t.at k).voice.recTarget = some (.outbound (s.rau.serial + 1)) ∧ (t.at k).voice.maxBlocks = blocks
          ∧ t.outbound k = some { home := mailbox % g.groupSize, mailbox, kind, handle := none, state := .opening
                                  buffer := [], outstanding := [], toOffer := [], timer := some 2000, close := none
                                  closeSent := false, nextSequence := 0, serial := s.rau.serial + 1 }
          ∧ t.clc.tx = insertByPriority (freshTx (ownCell s 4 (homeAddress (mailbox % g.groupSize)) kindDepositOpen
              (tagOf k) (be2 mailbox ++ be1 kind.code)) (s.rau.serial + 1)) ok.clc.tx
          ∧ t.msc = s.msc))

/-- R97, R98, R99, R115, R132, R141 and R142: PLAY from WAITING, with room in the queue: a message at another home is
asked for by FETCH_OPEN; a handle that is FREE here is reported NO_SUCH and the context waits; a CLOSED VOICE message
here with room in its reader list gives its blocks at once, and the decoder stands PLAYING at the block that holds the
start position. The model's choice: the serial numbers (log entry 35). -/
def Obligations.PlayOpensItsTarget : Prop :=
  ∀ (s : State) (c : Cell) (k : ContextId), s.Quiet → AskedActive s c kindPlay → s.cfu.config.isSome = true →
    field c.payload 0 1 = k.val → (s.at k).state = .connected → (s.at k).session = .voice →
    (s.at k).voice.activity = .waiting → s.clc.tx.length < 23 →
    let home := field c.payload 1 1
    let handle := field c.payload 2 2
    let start := field c.payload 4 3
    let ok := sendAnswer c codeOk (popCell s)
    home ≤ 7 → handle ≤ 511 →
    (home ≠ s.cfu.station.val → ∃ t, exec .play s = .next t
      ∧ (t.at k).voice.activity = .playing ∧ (t.at k).voice.target = some (.message home handle)
      ∧ (t.at k).voice.start = start ∧ (t.at k).voice.idle = none ∧ (t.at k).vcd.mark = .underrun
      ∧ (t.at k).vcd.buffer = .reset ∧ (t.at k).vcd.position = 0
      ∧ t.fetch k = some { home, mailbox := none, handle := some handle, state := .opening, pending := []
                           timer := some 2000, keepalive := 5000, serial := s.rau.serial + 1 }
      ∧ t.clc.tx = insertByPriority (freshTx (ownCell s 4 (homeAddress home) kindFetchOpen (tagOf k)
          (be2 handle ++ [0xFF, 0xFF])) (s.rau.serial + 1)) ok.clc.tx)
    ∧ (home = s.cfu.station.val → s.msgAt handle = none → ∃ t, exec .play s = .next t
      ∧ (t.at k).voice.activity = .waiting ∧ (t.at k).voice.idle = some 20000 ∧ t.msc = s.msc ∧ t.rau = s.rau
      ∧ t.clc = (sendEvent (some k) (.playDone codeNoSuch 0) ok).clc)
    ∧ (∀ m, home = s.cfu.station.val → s.msc.state = .ready → s.msgAt handle = some m → m.state = .closed →
        m.kind = .voice → m.readers = [] → 1016 * (min start m.length / 1016) < m.length →
        min start m.length / 1016 < m.count →
      let b := min start m.length / 1016
      let block := blockAt s ((chainOf s m).getD b 0)
      ∃ t, exec .play s = .next t
        ∧ (t.at k).voice.activity = .playing ∧ (t.at k).vcd.mark = .playing ∧ (t.at k).vcd.current = some (b, 0)
        ∧ (t.at k).vcd.position = 1016 * b ∧ (t.at k).vcd.length = m.length
        ∧ (t.at k).vcd.buffer.find b = .ready b block
        ∧ (t.at k).vcd.decPredictor = headerPredictor block ∧ (t.at k).vcd.decIndex = headerIndex block
        ∧ t.msgAt handle = some { m with readers := [
            { station := s.cfu.station, context := k.val, lastActivity := s.cfu.stationTime }] }
        ∧ t.clc = ok.clc ∧ t.rau = s.rau)

/-- R150, R152, R157, R163, R169 and R173: the fax and data requests of a context that is WAITING in a voice session,
with room in the queue; and DATA_TX of a data session still TRAINING, whose bytes join the send buffer up to 1024, the
rest being lost and reported, with FLOW(STOP) at 768. The model's choice: that the first training is at the highest
rate, held as the session's rate too, the list of what is handed to the pump, the serial numbers, that FLOW(STOP) is
queued before the ANSWER, and the reason of the cleared record of the Quality Monitor (log entries 18, 28, 35, 71 and
79). -/
def Obligations.FaxAndDataRequestsBegin : Prop :=
  ∀ (s : State) (c : Cell) (k : ContextId) (g : ConfigRecord), s.Quiet → s.cfu.config = some g →
    field c.payload 0 1 = k.val → (s.at k).state = .connected →
    let ok := sendAnswer c codeOk (popCell s)
    ((s.at k).session = .voice → (s.at k).voice.activity = .waiting → s.clc.tx.length < 23 →
      (AskedActive s c kindFaxReceive →
        let mailbox := field c.payload 1 2
        mailbox ≤ 999 → mailbox % g.groupSize = s.cfu.station.val → openRefusal s mailbox (some .fax) = none →
        ∃ t h, exec .faxReceive s = .next t ∧ (s.msgAt h = none ∧ ∀ j, j < h → s.msgAt j ≠ none)
          ∧ (t.at k).session = .fax ∧ (t.at k).requestTag = some c.tag
          ∧ (t.at k).fax = { Fax.reset with
              role := some .receive, phase := .awaitMode, mailbox, rate := g.faxMaxRate, target := some (.here h)
              wait := some 6000 }
          ∧ (t.at k).pump.control = (s.at k).pump.control ++ [.capability g.faxMaxRate]
          ∧ (∃ m, t.msgAt h = some m ∧ m.state = .opened ∧ m.kind = .fax ∧ m.mailbox = mailbox
              ∧ m.writer = some (.here k) ∧ m.count = 0)
          ∧ t.clc = ok.clc)
      ∧ (AskedActive s c kindFaxSend →
        let home := field c.payload 1 1
        let handle := field c.payload 2 2
        home ≤ 7 → handle ≤ 511 → home ≠ s.cfu.station.val → ∃ t, exec .faxSend s = .next t
          ∧ (t.at k).session = .fax ∧ (t.at k).requestTag = some c.tag
          ∧ (t.at k).fax = { Fax.reset with role := some .send, phase := .awaitCapability, wait := some 6000 }
          ∧ t.fetch k = some { home, mailbox := none, handle := some handle, state := .opening, pending := []
                               timer := some 2000, keepalive := 5000, serial := s.rau.serial + 1 }
          ∧ t.clc.tx = insertByPriority (freshTx (ownCell s 4 (homeAddress home) kindFetchOpen (tagOf k)
              (be2 handle ++ [0xFF, 0xFF])) (s.rau.serial + 1)) ok.clc.tx)
      ∧ (AskedActive s c kindDataConnect →
        let lo := field c.payload 2 1
        let hi := field c.payload 3 1
        let whole : Prop := lo = 255 ∧ hi = 255
        let least := if whole then g.rateMin else min (min 11 lo) (min 11 hi)
        let most := if whole then g.rateMax else max (min 11 lo) (min 11 hi)
        let mode : DataMode := if field c.payload 1 1 = 0 then .answer else .originate
        field c.payload 1 1 ≤ 1 → exec .dataConnect s = .next { ok with ctx := s.ctx.modify k fun x => { x with
          session := .data, requestTag := some c.tag, timer := none, voice := .reset, lkc := .reset
          qmn := { Qmn.reset with
            phase := some .training, mode, min := least, max := most, rate := most, target := most
            timer := some 10000 }
          pump := { state := .trainingData most mode, control := [] } } }))
    ∧ ((s.at k).session = .data → (s.at k).qmn.phase = some .training → (s.at k).lkc.flowStop = false →
        AskedActive s c kindDataTx →
        let bytes := c.payload.drop 1
        let held := (s.at k).lkc.sendBuffer
        let room := 1024 - held.length
        let all := held ++ bytes.take room
        let lost (u : State) : State :=
          if room < bytes.length then sendEvent (some k) (.dataLost (bytes.length - room)) u else u
        let stop (u : State) : State := if 768 ≤ all.length then sendEvent (some k) (.flow false) u else u
        exec .dataTx s = .next { sendAnswer c codeOk (stop (lost (popCell s))) with
          ctx := s.ctx.modify k fun x => { x with lkc := { x.lkc with
            sendBuffer := all, flowStop := decide (768 ≤ all.length) } } })

/-! ### Cells of peers -/

/-- R53, R59, R61, R64, R68 and R175: a CLAIM of a peer by what this station has on the channel. -/
def Obligations.PeerClaimByStanding : Prop :=
  ∀ (s : State) (c : Cell) (p : Fin 8) (ch : Channel), s.Quiet → FromPeer s c kindClaim p → field c.payload 0 1 = ch.val →
    let named (t : State) : Prop := (t.entry ch).view = .peer p ∧ (t.entry ch).blockTimer = none
      ∧ ∀ d, d ≠ ch → t.entry d = s.entry d
    (1 < field c.payload 1 1 → exec .claim s = .next (popCell s))
    ∧ (field c.payload 1 1 ≤ 1 →
      (holderOf s ch = none → claimerOf s ch = none → clearerOf s ch = none → ∃ t, exec .claim s = .next t ∧ named t
        ∧ t = { popCell s with tcm := t.tcm } ∧ t.tcm.bids = s.tcm.bids)
      ∧ (∀ k b, holderOf s ch = none → claimerOf s ch = some k → s.bid k = some b →
          (b.direction = .incoming ∨ ∃ o, (s.at k).outgoing = some o ∧ o.choiceRetried = true) →
          (∀ x ∈ s.clc.tx, x.sending = true → x.orphan = false → isClaimFor b.channel x = false) →
          ∃ t, exec .claim s = .next t ∧ named t ∧ t.bid k = none ∧ t.at k = Context.reset
            ∧ (∀ x ∈ t.clc.tx, x.orphan = true ∨ isClaimFor b.channel x = false) ∧ ∀ j, j ≠ k → t.at j = s.at j)
      ∧ (∀ k, (holderOf s ch = some k ∧ (s.at k).state = .clearing)
            ∨ (holderOf s ch = none ∧ claimerOf s ch = none ∧ clearerOf s ch = some k) →
          ∃ t, exec .claim s = .next t ∧ named t ∧ t.at k = Context.reset
            ∧ t.hwi.channels.get ch = HwiChannel.reset ∧ t.clc.tx = s.clc.tx ∧ ∀ j, j ≠ k → t.at j = s.at j)
      ∧ (∀ k, holderOf s ch = some k → (s.at k).state ≠ .clearing → exec .claim s = .next
          (sendDispute ch (BitVec.ofNat 4 p.val) (popCell s))))

/-- R54: a RELEASE makes the view FREE where it names the sender as holder and changes nothing else; the station's own
release makes it FREE when its context lets go, and the outcome of its RELEASE cell changes no view. -/
def Obligations.PeerReleaseFreesItsOwnView : Prop :=
  (∀ (s : State) (c : Cell) (p : Fin 8) (ch : Channel), s.Quiet → FromPeer s c kindRelease p →
    field c.payload 0 1 = ch.val →
    ((s.entry ch).view = .peer p → exec .release s = .next { popCell s with tcm := { s.tcm with
        map := s.tcm.map.modify ch fun e => { e with view := .free, blockTimer := none, stale := 0 } } })
    ∧ ((s.entry ch).view ≠ .peer p → exec .release s = .next (popCell s)))
  ∧ (∀ (s : State) (k : ContextId) (ch : Channel), s.Quiet → (s.at k).state = .clearing → (s.at k).held = false →
    (s.at k).clearing = 8 → (s.at k).channel = some ch → (s.entry ch).view = .self k →
    (s.entry ch).rx.settled ≠ .blocked → ∃ t, exec (.letGo k) s = .next t ∧ (t.entry ch).view = .free)
  ∧ ∀ (s t : State) (x : TxCell) (r : SendResult), s.Quiet → inTransmission s = some x → x.cell.kind = kindRelease →
    exec (.releaseOutcome r) s = .next t → ∀ ch, (t.entry ch).view = (s.entry ch).view

/-- R62 and R68: a DISPUTE for a channel whose context is in a call ends that call at once, without CLEARING, and
writes a fault; for one that is CLEARING it ends the clearing, with no fault; otherwise it changes nothing. -/
def Obligations.DisputeYieldsTheChannel : Prop :=
  ∀ (s : State) (c : Cell) (q : Fin 8) (ch : Channel), s.Quiet → FromPeer s c kindDispute q →
    field c.payload 0 1 = ch.val →
    (holderOf s ch = none → clearerOf s ch = none → exec .dispute s = .next (popCell s))
    ∧ (∀ k, (holderOf s ch = some k ∧ (s.at k).state ∈ [.addressing, .answering, .discriminating, .seized, .dialling,
          .progress, .connected, .clearing]) ∨ (holderOf s ch = none ∧ clearerOf s ch = some k) →
        ∃ t, exec .dispute s = .next t ∧ t.at k = Context.reset ∧ (∀ j, j ≠ k → t.at j = s.at j)
          ∧ (t.entry ch).view = .peer q ∧ (t.entry ch).blockTimer = none ∧ t.hwi.channels.get ch = HwiChannel.reset
          ∧ ((s.at k).state = .clearing → t.cfu = s.cfu ∧ t.clc.tx = s.clc.tx)
          ∧ ((s.at k).state ≠ .clearing → s.cfu.faults.length < 8 → t.cfu.faults = s.cfu.faults ++ [
              { kind := .disputeLost, subject := ch.val, stamp := s.cfu.minute, clockSet := s.cfu.clockSet }]))

/-- R106, R110, R113, R114, R123, R128 and R130: the checks of an open for writing in their order, and DEPOSIT_OPEN and
DEPOSIT_CLOSE at the home. An open of a depositor that has no entry is refused with BUSY at eight entries, refused with
the store's cause, or accepted with the lowest FREE handle. A close of its sender's entry, here with no part waiting,
first sets the length when it names the last block. It keeps every block, the blocks up to the page mark of a FAX
message, or, for SILENCE and FAR_END_CLEAR, the blocks that the trim leaves. A message with none is discarded, and any
other is CLOSED into its mailbox, a GREETING in place of the old one. The model's choice: the opens of a context number
above 3, NOT_OPEN for an entry of another depositor, a handle above 511 taken as one that names no entry, and the flags
of 0 that a DEPOSIT_CLOSED with EMPTY carries (log entries 23, 37, 41 and 92). -/
def Obligations.DepositsOpenAndCloseAtTheHome : Prop :=
  (∀ (s : State) (mailbox : Nat) (kind : Option MsgKind),
    let refusal := openRefusal s mailbox kind
    (999 < mailbox ∨ kind = none → refusal = some codeBadField)
    ∧ ∀ k, mailbox ≤ 999 → kind = some k →
      (s.msc.state = .scanning → refusal = some codeStoreBusy)
      ∧ (s.msc.state = .ready → s.cfu.config = none → refusal = some codeNotConfigured)
      ∧ ∀ g, s.msc.state = .ready → s.cfu.config = some g →
        (mailbox % g.groupSize ≠ s.cfu.station.val → refusal = some codeNotHome)
        ∧ (mailbox % g.groupSize = s.cfu.station.val →
          ((∀ b ∈ s.msc.mbxs, b.number ≠ mailbox) → refusal = some codeNoSuch)
          ∧ ∀ b, mailbox? s mailbox = some b →
            let taken : Prop := k = .greeting ∧ b.greetingOpen = true
            let full : Prop := k ≠ .greeting ∧ b.limit ≤ b.list.length + b.openCount
            (taken → refusal = some codeBusy) ∧ (full → refusal = some codeMailboxFull)
            ∧ (¬ taken → ¬ full → (∀ h, h ≤ 511 → s.msgAt h ≠ none) → refusal = some codeTableFull)
            ∧ ∀ h, ¬ taken → ¬ full → h ≤ 511 → s.msgAt h = none →
                refusal = if s.msc.freeList = [] then some codeStoreFull else none))
  ∧ ∀ (s : State) (c : Cell) (p : Fin 8), s.Quiet → s.msc.state = .ready → s.cfu.config.isSome = true →
    let tell (kind : Byte) (payload : List Byte) (u : State) : State :=
      offerOther (ownCell s 4 (BitVec.ofNat 4 p.val) kind c.tag payload) 0 none u
    (FromPeer s c kindDepositOpen p → (∀ e ∈ s.rau.deposits, e.station = p → e.context ≠ c.tag.toNat) →
      let mailbox := field c.payload 0 2
      let kind := msgKindOf (field c.payload 2 1)
      (8 ≤ s.rau.deposits.length →
        exec .depositOpen s = .next (tell kindDepositRefuse [codeBusy, 0xFF, 0xFF] (popCell s)))
      ∧ (∀ code, s.rau.deposits.length < 8 → openRefusal s mailbox kind = some code →
          exec .depositOpen s = .next (tell kindDepositRefuse [code, 0xFF, 0xFF] (popCell s)))
      ∧ (∀ k, s.rau.deposits.length < 8 → openRefusal s mailbox kind = none → kind = some k →
          ∃ t h, exec .depositOpen s = .next t ∧ (s.msgAt h = none ∧ ∀ j, j < h → s.msgAt j ≠ none)
            ∧ (∃ m, t.msgAt h = some m ∧ m.state = .opened ∧ m.kind = k ∧ m.mailbox = mailbox ∧ m.count = 0
                ∧ m.writer = some (.peer p c.tag.toNat) ∧ m.readers = [])
            ∧ t.rau.deposits = s.rau.deposits ++ [{ handle := h, station := p, context := c.tag.toNat, kind := k
                                                    expected := 0, assembly := none, lastHeard := s.cfu.stationTime
                                                    lastWritten := none, lastPage := none }]
            ∧ t.clc = (tell kindDepositAccept (be2 h) (popCell s)).clc ∧ t.ctx = s.ctx))
    ∧ (FromPeer s c kindDepositClose p →
      let h := field c.payload 0 2
      (entryOf s h p c.tag.toNat = none →
        exec .depositClose s = .next (tell kindDepositRefuse ([codeNotOpen] ++ be2 h) (popCell s)))
      ∧ (∀ e m, entryOf s h p c.tag.toNat = some e → openUnder s h (.peer p c.tag.toNat) = some m →
          e.assembly = none → m.kind = e.kind → m.pageMark ≤ m.count →
          let reason := byteAt c.payload 2
          let chain := chainOf s m
          let quiet := (chain.reverse.takeWhile fun b => (byteAt (blockAt s b) 3).getLsbD 7).length
          let trim : Prop := reason = reasonSilence ∨ reason = reasonFarEndClear
          let keep := if m.kind = .fax then (if m.length = 0 then 0 else m.pageMark)
            else if trim ∧ quiet = m.count then 0 else if trim ∧ 2 ≤ quiet then m.count - (quiet - 1) else m.count
          let named := if m.kind ≠ .fax ∧ e.lastWritten = some (field c.payload 3 2)
            then 1016 * (m.count - 1) + field c.payload 5 2 else m.length
          let closed : Msg := { m with
            state := .closed, stamp := some s.cfu.minute, writer := none, count := keep
            last := if keep = m.count then m.last else (chain.take keep).getLast?
            length := if m.kind ≠ .fax ∧ keep < m.count then 1016 * keep else named
            truncated := m.truncated || reason == reasonStoreFull || reason == reasonWriterLost
              || (m.kind == .fax && reason != reasonPagesDone) }
          let inMailbox (f : Mbx → Mbx) : List Mbx := s.msc.mbxs.map fun b => if b.number = m.mailbox then f b else b
          let report : List Byte := be2 h ++ [codeClosed] ++ be2 keep ++ be1 closed.flags
          (keep = 0 → ∃ t, exec .depositClose s = .next t ∧ t.msgAt h = none
            ∧ t.rau.deposits = s.rau.deposits.filter (fun x => x.handle != h)
            ∧ t.msc.mbxs = inMailbox (fun b => if m.kind = .greeting
                then { b with greetingOpen := false } else { b with openCount := b.openCount - 1 })
            ∧ t.msc.freeList = s.msc.freeList ++ chain
            ∧ t.clc = (tell kindDepositClosed (be2 h ++ [codeEmpty, 0, 0, 0]) (freeBlocks chain (popCell s))).clc)
          ∧ (0 < keep → m.kind ≠ .greeting → ∃ t, exec .depositClose s = .next t ∧ t.msgAt h = some closed
            ∧ t.rau.deposits = s.rau.deposits.filter (fun x => x.handle != h)
            ∧ t.msc.mbxs = inMailbox (fun b => { b with list := b.list ++ [h], openCount := b.openCount - 1 })
            ∧ t.msc.freeList = s.msc.freeList ++ (if keep = m.count then [] else chain.drop keep)
            ∧ t.clc = (tell kindDepositClosed report (sendEvent none (.messageStored m.mailbox h m.kind)
                (if keep = m.count then popCell s else freeBlocks (chain.drop keep) (popCell s)))).clc)
          ∧ (∀ b, 0 < keep → keep = m.count → m.kind = .greeting → mailbox? s m.mailbox = some b → b.greeting ≠ some h →
            ∃ t, exec .depositClose s = .next t ∧ t.msgAt h = some closed
            ∧ t.rau.deposits = s.rau.deposits.filter (fun x => x.handle != h)
            ∧ (∃ b', mailbox? t m.mailbox = some b' ∧ b'.greeting = some h ∧ b'.greetingOpen = false)
            ∧ (b.greeting = none → t.msc.freeList = s.msc.freeList)
            ∧ (∀ old o, b.greeting = some old → s.msgAt old = some o →
                (o.readers = [] → t.msgAt old = none ∧ t.msc.freeList = s.msc.freeList ++ chainOf s o)
                ∧ (o.readers ≠ [] → t.msgAt old = some { o with state := .deleting }
                    ∧ t.msc.freeList = s.msc.freeList))
            ∧ (s.clc.tx.length ≤ 20 → ∃ y ∈ t.clc.tx, y.cell =
                ownCell s 4 (BitVec.ofNat 4 p.val) kindDepositClosed c.tag report))))

/-- R111, R112, R126, R128 and R129: DEPOSIT_DATA and DEPOSIT_ROLLBACK at the home, for the entry of their sender. A
part below 7 of the expected sequence joins the assembly; part 7 completes it, and the block is written to the free
block at the head of the list, linked last, counted and acknowledged. A part of a sequence written already is only
noted. A rollback of the page in progress frees the blocks after the page mark, and one of any other page frees none.
-/
def Obligations.DepositsAreWrittenAtTheHome : Prop :=
  ∀ (s : State) (c : Cell) (p : Fin 8) (e : DepositEntry) (m : Msg), s.Quiet →
    s.msc.state = .ready → s.cfu.config.isSome = true →
    let h := field c.payload 0 2
    let heard (f : DepositEntry → DepositEntry) : Rau := { s.rau with
      deposits := s.rau.deposits.map fun x =>
        if x.handle = h then f { x with lastHeard := s.cfu.stationTime } else x }
    entryOf s h p c.tag.toNat = some e → openUnder s h (.peer p c.tag.toNat) = some m →
    (FromPeer s c kindDepositData p →
      let n := field c.payload 2 2
      let mark := byteAt c.payload 4
      let part := mark.toNat % 8
      let old := e.assembly.getD { parts := [], pageEnd := false, damaged := false, started := 0 }
      (n = e.expected → part < 7 → (∀ x ∈ old.parts, x.1 ≠ part) → exec .depositData s = .next { popCell s with
        rau := heard fun x => { x with
          assembly := some {
            parts := old.parts ++ [(part, c.payload.drop 5)], pageEnd := old.pageEnd || mark.getLsbD 7
            damaged := old.damaged || mark.getLsbD 6, started := s.cfu.stationTime } } })
      ∧ (32768 ≤ (n + 65536 - e.expected) % 65536 → exec .depositData s = .next { popCell s with rau := heard id })
      ∧ (∀ (b : Nat) (rest : List Nat) (pieces : List (List Byte)), n = e.expected → part = 7 → e.kind ≠ .fax → m.kind = e.kind →
          old.parts = pieces.zipIdx.map (fun x => (x.2, x.1)) → pieces.length = 7 → (∀ x ∈ pieces, x.length = 64) →
          s.msc.freeList = b :: rest → (∀ l ∈ m.last, l ≠ b) → s.clc.tx.length < 23 →
          let block := pieces.flatten ++ c.payload.drop 5
          ∃ t, exec .depositData s = .next t ∧ t.msc.freeList = rest ∧ blockAt t b = block
            ∧ Links.next t.msc.links b = none ∧ (∀ l ∈ m.last, Links.next t.msc.links l = some b)
            ∧ t.msgAt h = some { m with
                first := if m.first = none then some b else m.first, last := some b, count := m.count + 1
                length := 1016 * m.count + 1016, gaps := m.gaps || (byteAt block 3).getLsbD 6 }
            ∧ t.rau = heard (fun x => { x with
                expected := (x.expected + 1) % 65536, assembly := none, lastWritten := some x.expected
                lastPage := if x.kind = .fax then some (byteAt block 2).toNat else x.lastPage })
            ∧ ∃ y ∈ t.clc.tx, y.cell = ownCell s 4 (BitVec.ofNat 4 p.val) kindBlockTaken c.tag
                (be2 h ++ be2 e.expected)))
    ∧ (FromPeer s c kindDepositRollback p → e.assembly = none →
      (e.kind ≠ .fax ∨ field c.payload 2 2 ≠ m.length + 1 →
        exec .depositRollback s = .next { popCell s with rau := heard id })
      ∧ (e.kind = .fax → m.kind = .fax → field c.payload 2 2 = m.length + 1 → m.count ≠ m.pageMark →
        ∃ t, exec .depositRollback s = .next t
          ∧ t.msc.freeList = s.msc.freeList ++ (chainOf s m).drop m.pageMark
          ∧ (∃ m', t.msgAt h = some m' ∧ m'.count = m.pageMark ∧ m'.length = m.length ∧ m'.state = .opened
              ∧ m'.last = ((chainOf s m).take m.pageMark).getLast?)
          ∧ t.rau = heard id))

/-- R96, R124, R125, R128, R130, R131, R140, R146 and R156: the replies of a home at the depositor. DEPOSIT_ACCEPT of a
record in OPENING gives it the handle and makes it STREAMING, and CLOSING when its close is asked already; a block that
waits goes out in eight parts, and the DEPOSIT_CLOSE when none waits. One that finds no record draws a DEPOSIT_CLOSE
with STOPPED. BLOCK_TAKEN takes sequences off the outstanding list, and with none left the timer of a STREAMING record
stops. DEPOSIT_REFUSE of the open, STORE_FULL later, and DEPOSIT_CLOSED end the record: for a recording they are
reported, one that still runs ends with its block in build, and a fax receive disconnects with the result. The model's
choice: that the timer of CLOSING runs on, that the context waits after a gateway recording ended so, that no session is
left in CLEARING, the list of what is handed to the pump, the serial numbers, a handle above 511 discarded, that an
EMPTY which was asked for is reported with no handle, a refusal that names a handle discarded in OPENING, and that a fax
receive ends at the reply in a hold too (log entries 16, 17, 19, 28, 35, 41, 47, 55 and 76). -/
def Obligations.DepositorTakesReplies : Prop :=
  ∀ (s : State) (c : Cell) (p : Fin 8) (k : ContextId), s.Quiet → c.tag.toNat = k.val →
    let x := s.at k
    let handle := field c.payload 0 2
    let cell (kind : Byte) (payload : List Byte) : Cell := ownCell s 4 (BitVec.ofNat 4 p.val) kind c.tag payload
    let setOut (d : Option OutDeposit) : State := { popCell s with rau := { s.rau with outbound := s.rau.outbound.set k d } }
    let freed : State := { setOut none with clc := { (popCell s).clc with held := s.clc.held.filter (· != .deposit k) } }
    (FromPeer s c kindDepositAccept p →
      (511 < handle → exec .depositAccept s = .next (popCell s))
      ∧ (handle ≤ 511 → s.outbound k = none → exec .depositAccept s = .next
        (offerOther (cell kindDepositClose (be2 handle ++ [reasonStopped, 0xFF, 0xFF, 0xFF, 0xFF])) 0 none (popCell s))))
    ∧ ∀ d, s.outbound k = some d → d.home = p.val →
      let ends (i : Instr) (e : Event) (result : Byte) : Prop :=
        (d.kind ≠ .fax → x.session ≠ .fax → x.voice.activity ≠ .recording →
          exec i s = .next (sendEvent (some k) e freed))
        ∧ (d.kind ≠ .fax → x.state = .connected → x.session = .voice → x.voice.activity = .recording →
          x.voice.recTarget = some (.outbound d.serial) → ∃ t, exec i s = .next t
          ∧ (x.voice.script ≠ .answer → (t.at k).voice.activity = .waiting ∧ (t.at k).voice.idle = some 20000
              ∧ (t.at k).voice.recTarget = none ∧ (t.at k).vcd.recording = false ∧ (t.at k).vcd.build = []
              ∧ t = { sendEvent (some k) e freed with ctx := t.ctx })
          ∧ (x.voice.script = .answer → (t.at k).state = .clearing ∧ (t.at k).timer = some 2000
              ∧ (t.at k).voice = Voice.reset ∧ (t.at k).vcd.recording = false))
        ∧ (d.kind = .fax → x.session = .fax → x.fax.target = some (.outbound d.serial) →
          x.fax.phase ≠ .disconnecting → x.voice.activity ≠ .recording →
          exec i s = .next { freed with ctx := s.ctx.modify k fun x => { x with
            fax := { x.fax with
              target := none, build := [], result := some result, phase := .disconnecting, wait := none }
            pump := { x.pump with control := x.pump.control ++ [.disconnect] } } })
        ∧ (d.kind = .fax → x.voice.activity ≠ .recording → x.session ≠ .fax ∨ x.fax.phase = .disconnecting →
          exec i s = .next freed)
      (FromPeer s c kindDepositAccept p → handle ≤ 511 → d.state = .opening → d.toOffer = [] →
        (d.close = none → d.buffer = [] → exec .depositAccept s = .next (setOut (some
          { d with handle := some handle, state := .streaming, timer := none })))
        ∧ (∀ n bytes pageEnd damaged, d.close = none → d.buffer = [.block n bytes pageEnd damaged] →
            d.outstanding = [] → StreamProducer.deposit k ∉ s.clc.held → s.clc.tx.length ≤ 16 →
            (s.clc.tx.filter fun y => isStreamKind y.cell.kind).length ≤ 8 →
          ∃ t, exec .depositAccept s = .next t
          ∧ t.outbound k = some { d with
              handle := some handle, state := .streaming, buffer := [], outstanding := [n], timer := some 2000 }
          ∧ t.clc.tx.length = s.clc.tx.length + 8
          ∧ ∀ q, q < 8 → ∃ y ∈ t.clc.tx, y.cell = cell kindDepositData
              (be2 handle ++ be2 n ++ [partByte q pageEnd damaged] ++ (bytes.drop (64 * q)).take 64))
        ∧ (∀ ask, d.close = some ask → d.closeSent = false → d.buffer = [] → s.clc.tx.length < 24 →
          let close := cell kindDepositClose
            (be2 handle ++ [ask.reason] ++ beOpt2 (ask.last.map (·.1)) ++ beOpt2 (ask.last.map (·.2)))
          exec .depositAccept s = .next { setOut (some
              { d with handle := some handle, state := .closing, timer := some 2000, closeSent := true }) with
            clc := { (popCell s).clc with tx := insertByPriority (freshTx close d.serial) s.clc.tx } }))
      ∧ (FromPeer s c kindDepositRefuse p → d.state = .opening →
        (field c.payload 1 2 ≠ 65535 → exec .depositRefuse s = .next (popCell s))
        ∧ (field c.payload 1 2 = 65535 → ends .depositRefuse
            (.recordDone d.home none (some 0) (byteAt c.payload 0) (some 0)) (byteAt c.payload 0)))
      ∧ (FromPeer s c kindDepositRefuse p → d.state ≠ .opening → d.handle = some (field c.payload 1 2) →
          byteAt c.payload 0 = codeStoreFull →
          ends .depositRefuse (.recordDone d.home d.handle none codeStoreFull none) codeStoreFull)
      ∧ (FromPeer s c kindBlockTaken p → d.handle = some handle → d.buffer = [] → d.toOffer = [] →
          let rest := d.outstanding.filter fun x => decide (32768 ≤ (field c.payload 2 2 + 65536 - x) % 65536)
          (d.state = .streaming → exec .blockTaken s = .next (setOut (some
            { d with outstanding := rest, timer := if rest = [] then none else some 2000 })))
          ∧ (d.state = .closing → d.closeSent = true →
            exec .blockTaken s = .next (setOut (some { d with outstanding := rest }))))
      ∧ (FromPeer s c kindDepositClosed p → d.state ≠ .opening → d.handle = some handle →
          let result := byteAt c.payload 2
          ends .depositClosed (if d.closeSent = true ∧ result = codeEmpty
              then .recordDone d.home none (some 0) codeEmpty (some 0)
              else .recordDone d.home d.handle (some (field c.payload 3 2)) result (some (field c.payload 5 1 % 16)))
            codeClosedByHome)

/-- R115, R116, R132, R133 and R134: the fetch cells at the home. FETCH_OPEN of a CLOSED message, or of the greeting of
a mailbox, with room in its reader list is granted and adds the reader, whether or not another greeting is OPEN for that
mailbox; of a FREE handle, or of a greeting where there is none, it is refused NO_SUCH, and of one whose record is OPEN
NOT_OPEN. FETCH_BLOCK of a station that is no reader is refused NOT_OPEN, of an index not below the block count NO_SUCH,
and is otherwise served in eight parts, here by an empty pending list and a queue with room for them. FETCH_CLOSE removes
its reader. The model's choice: a handle above 511 names no message, and that R138 has only a greeting refused whose own
record is OPEN (log entries 41 and 57). -/
def Obligations.HomeServesFetches : Prop :=
  ∀ (s : State) (c : Cell) (p : Fin 8), s.Quiet → s.msc.state = .ready → s.cfu.config.isSome = true →
    let h := field c.payload 0 2
    let cell (kind : Byte) (payload : List Byte) : Cell := ownCell s 4 c.src kind c.tag payload
    let refuse (code : Byte) : State := offerOther (cell kindFetchRefuse ([code] ++ be2 h)) 0 none (popCell s)
    let mine (r : Reader) : Prop := r.station = p ∧ r.context = c.tag.toNat
    (FromPeer s c kindFetchOpen p → h = 65535 →
      let box := mailbox? s (field c.payload 2 2)
      (box.bind (·.greeting) = none → exec .fetchOpen s = .next (refuse codeNoSuch))
      ∧ ∀ b g m, box = some b → b.greeting = some g → s.msgAt g = some m →
        (m.state = .opened → exec .fetchOpen s = .next (refuse codeNotOpen))
        ∧ (m.state = .closed → (∀ r ∈ m.readers, ¬ mine r) → m.readers.length < 8 → ∃ t, exec .fetchOpen s = .next t
          ∧ t.msgAt g = some { m with readers := m.readers ++
              [{ station := p, context := c.tag.toNat, lastActivity := s.cfu.stationTime }] }
          ∧ t.clc = (offerOther (cell kindFetchGrant (be2 g ++ be1 m.kind.code ++ be3 m.length ++ be2 m.count)) 0 none
              (popCell s)).clc ∧ t.rau = s.rau ∧ t.ctx = s.ctx))
    ∧ (FromPeer s c kindFetchOpen p → h ≤ 511 →
      (s.msgAt h = none → exec .fetchOpen s = .next (refuse codeNoSuch))
      ∧ (∀ m, s.msgAt h = some m → m.state = .opened → exec .fetchOpen s = .next (refuse codeNotOpen))
      ∧ ∀ m, s.msgAt h = some m → m.state = .closed → (∀ r ∈ m.readers, ¬ mine r) → m.readers.length < 8 →
        ∃ t, exec .fetchOpen s = .next t ∧ t.msgAt h = some { m with readers := m.readers ++
            [{ station := p, context := c.tag.toNat, lastActivity := s.cfu.stationTime }] }
          ∧ t.clc = (offerOther (cell kindFetchGrant (be2 h ++ be1 m.kind.code ++ be3 m.length ++ be2 m.count)) 0 none
              (popCell s)).clc ∧ t.rau = s.rau ∧ t.ctx = s.ctx)
    ∧ (FromPeer s c kindFetchBlock p →
      (∀ m, (s.msgAt h = none ∨ (s.msgAt h = some m ∧ ∀ r ∈ m.readers, ¬ mine r)) →
        exec .fetchBlock s = .next (refuse codeNotOpen))
      ∧ (∀ m, s.msgAt h = some m → (∃ r ∈ m.readers, mine r) →
        (m.count ≤ field c.payload 2 2 → exec .fetchBlock s = .next (refuse codeNoSuch))
        ∧ (field c.payload 2 2 < m.count → s.rau.pendingBlocks = [] → s.clc.held = [] → s.clc.tx.length ≤ 16 →
            (s.clc.tx.filter fun x => isStreamKind x.cell.kind).length ≤ 8 →
            let block := blockAt s ((chainOf s m).getD (field c.payload 2 2) 0)
            ∃ t, exec .fetchBlock s = .next t ∧ t.rau.pendingBlocks = [] ∧ t.clc.tx.length = s.clc.tx.length + 8
              ∧ (∀ n, n < 8 → ∃ x ∈ t.clc.tx, x.cell = ownCell s 4 (BitVec.ofNat 4 p.val) kindFetchData c.tag
                  (be2 h ++ be2 (field c.payload 2 2) ++ be1 n ++ (block.drop (64 * n)).take 64))
              ∧ t.msgAt h = some { m with readers := m.readers.map fun r =>
                  if r.station = p ∧ r.context = c.tag.toNat then { r with lastActivity := s.cfu.stationTime } else r })))
    ∧ (FromPeer s c kindFetchClose p →
      (∀ m, (s.msgAt h = none ∨ (s.msgAt h = some m ∧ ∀ r ∈ m.readers, ¬ mine r)) →
        exec .fetchClose s = .next (popCell s))
      ∧ ∀ m, s.msgAt h = some m → (∃ r ∈ m.readers, mine r) → s.rau.pendingBlocks = [] →
        let rest := m.readers.filter fun r => !(r.station == p && r.context == c.tag.toNat)
        ∃ t, exec .fetchClose s = .next t
          ∧ t.msgAt h = (if m.state = .deleting ∧ rest = [] then none else some { m with readers := rest })
          ∧ t.msc.freeList = s.msc.freeList ++ (if m.state = .deleting ∧ rest = [] then chainOf s m else [])
          ∧ t.rau = s.rau ∧ t.ctx = s.ctx)

/-- R97, R98, R101, R132, R134, R135, R142, R150 and R159: the fetch cells at the reader, for a context that plays a
message of another home from its start. FETCH_GRANT opens the record and the first two blocks are asked for, but none
while the context is held; a grant of an OPEN record changes nothing, and a grant that finds no record draws
FETCH_CLOSE. FETCH_REFUSE in OPENING ends the playback with NO_SUCH. The first part of FETCH_DATA joins its slot, and
the part that completes the block sets the decoder going, but not while the context is held; a block that completes in a
held fax send stays in its slot, and no further one is asked for. The model's choice: the serial numbers, the
FETCH_CLOSE after a refusal in OPENING, which goes before the PLAY_DONE, a handle above 511 discarded, and that a held
reader asks on the return (log entries 35, 38, 41, 67 and 74). -/
def Obligations.ReaderTakesReplies : Prop :=
  ∀ (s : State) (c : Cell) (p : Fin 8) (k : ContextId), s.Quiet → c.tag.toNat = k.val →
    let h := field c.payload 0 2
    let cell (kind : Byte) (payload : List Byte) : Cell := ownCell s 4 (BitVec.ofNat 4 p.val) kind c.tag payload
    (FromPeer s c kindFetchGrant p →
      (511 < h → exec .fetchGrant s = .next (popCell s))
      ∧ (h ≤ 511 → s.fetch k = none →
        exec .fetchGrant s = .next (offerOther (cell kindFetchClose (be2 h)) 0 none (popCell s))))
    ∧ (∀ (f : Fetch) (other : Slot) (pieces : List (List Byte)) (left : Nat), s.fetch k = some f → f.home = p.val →
      f.state = .opened → f.handle = some h → (s.at k).session = .fax → (s.at k).held = true →
      FromPeer s c kindFetchData p →
      let index := field c.payload 2 2
      index ∈ f.pending → field c.payload 4 1 % 8 = 7 → pieces.length = 7 → (∀ x ∈ pieces, x.length = 64) →
      (s.at k).fax.buffer = { a := .arriving index (pieces.zipIdx.map fun x => (x.2, x.1)) left, b := other } →
      other.index ≠ some index →
      let rest := f.pending.filter (· != index)
      exec .fetchData s = .next { popCell s with
        rau := { s.rau with fetches := s.rau.fetches.set k (some
          { f with pending := rest, timer := if rest = [] then none else some 2000 }) }
        ctx := s.ctx.modify k fun x => { x with fax := { x.fax with
          buffer := { a := .ready index (pieces.flatten ++ c.payload.drop 5), b := other } } } })
    ∧ ∀ f, s.fetch k = some f → f.home = p.val → (s.at k).state = .connected → (s.at k).session = .voice →
      (s.at k).voice.activity = .playing → (s.at k).voice.script = .none →
      (FromPeer s c kindFetchGrant p → f.state = .opened → f.handle = some h → exec .fetchGrant s = .next (popCell s))
      ∧ (FromPeer s c kindFetchGrant p → f.state = .opening → f.pending = [] → h ≤ 511 → (s.at k).voice.start < 1016 →
          field c.payload 2 1 = 0 → 0 < field c.payload 3 3 → (s.at k).voice.start ≤ field c.payload 3 3 →
          1 < field c.payload 6 2 → s.clc.tx.length ≤ 22 → ∃ t, exec .fetchGrant s = .next t
            ∧ (t.at k).vcd.mark = .underrun ∧ (t.at k).vcd.current = some (0, 0) ∧ (t.at k).vcd.position = 0
            ∧ (t.at k).vcd.length = field c.payload 3 3
            ∧ ((s.at k).held = false → t.fetch k = some { f with
                state := .opened, handle := some h, pending := [0, 1], timer := some 2000, keepalive := 5000 }
              ∧ (t.at k).vcd.buffer = { a := .requested 0, b := .requested 1 }
              ∧ t.clc.tx = insertByPriority (freshTx (cell kindFetchBlock (be2 h ++ be2 1)) f.serial)
                (insertByPriority (freshTx (cell kindFetchBlock (be2 h ++ be2 0)) f.serial) s.clc.tx))
            ∧ ((s.at k).held = true →
              t.fetch k = some { f with state := .opened, handle := some h, timer := none }
              ∧ (t.at k).vcd.buffer = Buffer.reset ∧ t.clc.tx = s.clc.tx))
      ∧ (∀ n, FromPeer s c kindFetchRefuse p → f.state = .opening → f.handle = some n → (s.at k).vcd.source = none →
          ∃ t, exec .fetchRefuse s = .next t ∧ t.fetch k = none
            ∧ (t.at k).voice.activity = .waiting ∧ (t.at k).voice.idle = some 20000
            ∧ t.clc = (sendEvent (some k) (.playDone codeNoSuch (s.at k).vcd.position)
                (offerOther (cell kindFetchClose (be2 n)) 0 none (popCell s))).clc)
      ∧ (FromPeer s c kindFetchData p → f.state = .opened → f.handle = some h →
          let index := field c.payload 2 2
          let part := field c.payload 4 1 % 8
          index ∈ f.pending →
          (∀ other, (s.at k).vcd.buffer = { a := .requested index, b := other } → other.index ≠ some index →
            exec .fetchData s = .next { popCell s with
              rau := { s.rau with fetches := s.rau.fetches.set k (some { f with timer := some 2000 }) }
              ctx := s.ctx.modify k fun x => { x with vcd := { x.vcd with
                buffer := { a := .arriving index [(part, c.payload.drop 5)] 10, b := other } } } })
          ∧ (∀ (other : Slot) (pieces : List (List Byte)) (left n : Nat), (s.at k).vcd.buffer =
                { a := .arriving index (pieces.zipIdx.map fun x => (x.2, x.1)) left, b := other } →
              other.index ≠ some index → pieces.length = 7 → (∀ x ∈ pieces, x.length = 64) → part = 7 →
              (s.at k).vcd.mark = .underrun → (s.at k).vcd.current = some (index, n) →
              let block := pieces.flatten ++ c.payload.drop 5
              let rest := f.pending.filter (· != index)
              let taken (a : Vcd → Vcd) : State := { popCell s with
                rau := { s.rau with fetches := s.rau.fetches.set k (some
                  { f with pending := rest, timer := if rest = [] then none else some 2000 }) }
                ctx := s.ctx.modify k fun x => { x with
                  vcd := a { x.vcd with buffer := { a := .ready index block, b := other } } } }
              ((s.at k).held = false → exec .fetchData s = .next (taken fun v => { v with
                mark := .playing, current := some (index, 0), decPredictor := headerPredictor block
                decIndex := headerIndex block }))
              ∧ ((s.at k).held = true → exec .fetchData s = .next (taken id))))

/-! ### Timers -/

/-- R55, R58, R67 and R68: the timers of a channel. A bid whose delay is over offers its CLAIM, or ends when the queue
refuses it. A block timer that runs out makes the view UNKNOWN. At the eighth superframe of CLEARING the context lets
go, and is FREE when the far end is idle or blocked. A clearing time that runs out frees the context, and a channel
shown FREE is blocked for 10 s. -/
def Obligations.ChannelTimersAct : Prop :=
  ∀ (s : State) (k : ContextId) (ch : Channel), s.Quiet →
    let viewed (v : View) (timer : Option Nat) : Tcm := { s.tcm with map := s.tcm.map.modify ch fun e =>
      { e with view := v, blockTimer := timer, stale := if e.view = v then e.stale else 0 } }
    let dropped : Clc := { s.clc with held := s.clc.held.filter (· != .dataRx k) }
    (∀ b, s.bid k = some b → b.timer = some 0 → b.channel = ch →
      let claim := ownCell s 1 allStations kindClaim 0xFF (be1 ch.val ++ be1 0)
      (queueTakes s.clc.tx claim = true → exec (.bidTimerExpiry k) s = .next { s with
        clc := { s.clc with tx := insertByPriority (freshTx claim 0) s.clc.tx }
        tcm := { s.tcm with bids := s.tcm.bids.set k (some
          { channel := ch, direction := .incoming, timer := none, withdrawal := none }) } })
      ∧ (queueTakes s.clc.tx claim = false → exec (.bidTimerExpiry k) s = .next { s with
        clc := dropped, tcm := { s.tcm with bids := s.tcm.bids.set k none }, ctx := s.ctx.set k Context.reset }))
    ∧ ((s.entry ch).view = .blocked → (s.entry ch).blockTimer = some 0 →
        exec (.blockTimerExpiry ch) s = .next { s with tcm := viewed .unknown none })
    ∧ ((s.at k).state = .clearing → (s.at k).held = false → (s.at k).channel = some ch →
      ((s.at k).clearing = 8 → (s.entry ch).view = .self k →
        let gone : State := { s with hwi := { s.hwi with channels := s.hwi.channels.set ch HwiChannel.reset } }
        let code := (s.entry ch).rx.settled
        (code = .blocked → exec (.letGo k) s = .next { gone with
          tcm := viewed .blocked none, ctx := s.ctx.set k Context.reset, clc := dropped })
        ∧ (code = .idle → exec (.letGo k) s = .next { gone with
          tcm := viewed .free none, ctx := s.ctx.set k Context.reset, clc := dropped })
        ∧ (code ≠ .blocked → code ≠ .idle → exec (.letGo k) s = .next { gone with tcm := viewed .free none }))
      ∧ ((s.at k).timer = some 0 → (s.entry ch).view ≠ .self k →
        ((s.entry ch).view = .free → exec (.clearingTimeExpiry k) s = .next { s with
          tcm := viewed .blocked (some 10000), ctx := s.ctx.set k Context.reset, clc := dropped })
        ∧ ((s.entry ch).view ≠ .free → exec (.clearingTimeExpiry k) s = .next { s with
          ctx := s.ctx.set k Context.reset, clc := dropped })))

/-- R74, R75, R76, R138, R139 and R144: the timers of an incoming call. The address timer ends collection with the
default mailbox, which CALL_ARRIVED carries. The answer delay puts ANSWER on the line and begins the greeting, or the
beep when there is none or its record is OPEN. The end of the 4 s is noted while the greeting or the beep runs; with both
over it decides VOICE, and so does the end of the beep when the 4 s are over: CALL_TYPE(VOICE), and the recording of the
script, here into a mailbox of this home. The model's choice: that R138 has only a greeting refused whose own record is
OPEN, so a CLOSED one is played while another is recorded (log entry 57). -/
def Obligations.IncomingCallTimersAct : Prop :=
  ∀ (s : State) (k : ContextId) (ch : Channel) (g : ConfigRecord), s.Quiet → s.cfu.config = some g →
    (s.at k).held = false → (s.at k).channel = some ch →
    let mb := (s.at k).mailbox.getD 0
    let decided (t : State) : Prop := (t.at k).state = .connected ∧ (t.at k).session = .voice ∧ (t.at k).timer = none
      ∧ (t.at k).voice.activity = .recording ∧ (t.at k).voice.script = .answer ∧ (t.at k).voice.maxBlocks = g.maxBlocks
      ∧ (t.at k).vcd.recording = true ∧ (∃ h, (t.at k).voice.recTarget = some (.here h) ∧ s.msgAt h = none
          ∧ ∃ m, t.msgAt h = some m ∧ m.kind = .voice ∧ m.mailbox = mb ∧ m.writer = some (.here k))
      ∧ t.clc = (sendEvent (some k) (.callType 0) s).clc
    ((s.at k).state = .addressing → (s.at k).timer = some 0 →
      (0 < g.answerDelay → exec (.addressTimerExpiry k) s = .next
        { sendEvent (some k) (.callArrived ch (some g.defaultMailbox)) s with
          ctx := s.ctx.modify k fun x => { x with
            state := .answering, mailbox := some g.defaultMailbox, announced := true
            timer := some (100 * g.answerDelay) } })
      ∧ (g.answerDelay = 0 → ∃ t, exec (.addressTimerExpiry k) s = .next t
          ∧ (t.at k).state = .discriminating ∧ (t.at k).mailbox = some g.defaultMailbox ∧ (t.at k).announced = true
          ∧ (t.at k).txCode = .answer ∧ (t.at k).timer = some 4000))
    ∧ ((s.at k).state = .answering → (s.at k).timer = some 0 →
      let answers (t : State) : Prop := (t.at k).state = .discriminating ∧ (t.at k).txCode = .answer
        ∧ (t.at k).timer = some 4000
      let beeps : Prop := ∃ t, exec (.answerDelayExpiry k) s = .next t ∧ answers t
        ∧ (t.at k).detector.faxRun = 0 ∧ (t.at k).detector.modemRun = 0 ∧ (t.at k).voice.script = .answer
        ∧ (t.at k).voice.activity = .beeping ∧ (t.at k).voice.step = some .beep ∧ (t.at k).voice.beep = some 500
        ∧ t = { s with ctx := t.ctx }
      mb % g.groupSize = s.cfu.station.val →
        ((∀ b, mailbox? s mb = some b → b.greeting = none) → beeps)
        ∧ (∀ b h m, mailbox? s mb = some b → b.greeting = some h → s.msgAt h = some m → m.state = .opened → beeps)
        ∧ (∀ b h m, s.msc.state = .ready → mailbox? s mb = some b → b.greeting = some h → s.msgAt h = some m →
            m.state = .closed → m.kind = .greeting → m.readers = [] → 0 < m.length → 0 < m.count →
          ∃ t, exec (.answerDelayExpiry k) s = .next t ∧ answers t
            ∧ (t.at k).voice.activity = .playing ∧ (t.at k).voice.step = some .greeting
            ∧ (t.at k).vcd.mark = .playing ∧ (t.at k).vcd.current = some (0, 0) ∧ t.clc = s.clc))
    ∧ ((s.at k).state = .discriminating → (s.at k).timer = some 0 →
      ((s.at k).voice.step ≠ some .record →
        exec (.discriminationTimerExpiry k) s = .next { s with ctx := s.ctx.modify k fun x => { x with timer := none } })
      ∧ ((s.at k).voice.step = some .record → (s.at k).voice.script = .answer → mb % g.groupSize = s.cfu.station.val →
        (openRefusal s mb (some .voice) = none → ∃ t, exec (.discriminationTimerExpiry k) s = .next t ∧ decided t)
        ∧ (∀ code, openRefusal s mb (some .voice) = some code → ∃ t, exec (.discriminationTimerExpiry k) s = .next t
          ∧ (t.at k).state = .clearing ∧ (t.at k).txCode = .idle ∧ (t.at k).timer = some 2000 ∧ t.msc = s.msc)))
    ∧ ((s.at k).state = .discriminating → (s.at k).voice.activity = .beeping → (s.at k).voice.beep = some 0 →
      (∀ n, (s.at k).timer = some n → exec (.beepTimerExpiry k) s = .next { s with ctx := s.ctx.modify k fun x =>
        { x with voice := { x.voice with activity := .none, step := some .record, beep := none } } })
      ∧ ((s.at k).timer = none → (s.at k).voice.script = .answer → mb % g.groupSize = s.cfu.station.val →
          openRefusal s mb (some .voice) = none → ∃ t, exec (.beepTimerExpiry k) s = .next t ∧ decided t))

/-- R79, R80, R82 and R83: the guard's end starts the first character, and the end of a timed phase the next phase or
the next character: a tone and its gap, a break of 60 ms with IDLE and a make of 40 ms with SEIZE for each pulse, the
interdigit pause of 700 ms, 2 s for a comma, a wait of at most 5 s for W, and PROGRESS for 45 s after the last. The
model's choice: that a comma stands in the phase gap (log entry 86). -/
def Obligations.DialTimersAct : Prop :=
  ∀ (s : State) (k : ContextId) (ch : Channel) (g : ConfigRecord) (o : Outgoing), s.Quiet → s.cfu.config = some g →
    (s.at k).held = false → (s.at k).channel = some ch → (s.at k).outgoing = some o →
    let x := s.at k
    let pulse := inSet g.pulseSet ch
    let begins (d : Byte) (t : State) : Prop := (t.at k).state = .dialling ∧ t = { s with ctx := t.ctx }
      ∧ (d.toNat = 0x2C → (t.at k).dgn.phase = .gap ∧ (t.at k).dgn.left = 2000 ∧ (t.at k).txCode = .seize)
      ∧ (d.toNat = 0x57 → x.detector.progressOn = false → (t.at k).dgn.phase = .wait ∧ (t.at k).timer = some 5000
          ∧ (t.at k).txCode = .seize)
      ∧ (d.toNat ≠ 0x2C → d.toNat ≠ 0x57 → pulse = false →
          (t.at k).dgn.phase = .tone ∧ (t.at k).dgn.left = g.toneLength ∧ (t.at k).txCode = .seize)
      ∧ (0x30 ≤ d.toNat → d.toNat ≤ 0x39 → pulse = true → (t.at k).dgn.phase = .break ∧ (t.at k).dgn.left = 60
          ∧ (t.at k).dgn.pulses = (if d.toNat = 0x30 then 10 else d.toNat - 0x30) ∧ (t.at k).txCode = .idle)
    let phase (p : DialPhase) (left : Nat) (code : LineCode) (pulses : Nat) : Host.Outcome State Fault Refusal :=
      .next { s with ctx := s.ctx.modify k fun x => { x with
        txCode := code, dgn := { x.dgn with phase := p, left, pulses } } }
    let progress (t : State) : Prop := t = { s with ctx := t.ctx } ∧ t.at k = { x with
      state := .progress, txCode := .seize, timer := some 45000, dgn := Dgn.reset }
    (x.state = .seized → x.timer = some 0 →
      (∀ d rest, o.dial = d :: rest → ∃ t, exec (.seizureGuardExpiry k) s = .next t
        ∧ (isDialChar d = true → (d.toNat = 0x57 → x.detector.progressOn = false) →
            (pulse = true → d.toNat ∈ [0x2C, 0x57] ∨ (0x30 ≤ d.toNat ∧ d.toNat ≤ 0x39)) →
            begins d t ∧ (t.at k).dgn.dial = o.dial ∧ (t.at k).dgn.pos = 0))
      ∧ (pulse = true → (∀ d ∈ o.dial, d.toNat ∈ [0x2A, 0x23, 0x41, 0x42, 0x43, 0x44]) →
          ∃ t, exec (.seizureGuardExpiry k) s = .next t ∧ progress t))
    ∧ (x.state = .dialling → x.dgn.left = 0 →
      (x.dgn.phase = .tone → exec (.dialPhaseEnd k) s = phase .gap g.gapLength .seize x.dgn.pulses)
      ∧ (x.dgn.phase = .break → exec (.dialPhaseEnd k) s = phase .make 40 .seize (x.dgn.pulses - 1))
      ∧ (x.dgn.phase = .make → 0 < x.dgn.pulses → exec (.dialPhaseEnd k) s = phase .break 60 .idle x.dgn.pulses)
      ∧ (x.dgn.phase = .make → x.dgn.pulses = 0 → exec (.dialPhaseEnd k) s = phase .pause 700 .seize 0)
      ∧ (x.dgn.phase ∈ [.gap, .pause] →
        (x.dgn.dial.length ≤ x.dgn.pos + 1 → ∃ t, exec (.dialPhaseEnd k) s = .next t ∧ progress t)
        ∧ (∀ d rest, x.dgn.dial.drop (x.dgn.pos + 1) = d :: rest → isDialChar d = true →
            (d.toNat = 0x57 → x.detector.progressOn = false) →
            (pulse = true → d.toNat ∈ [0x2C, 0x57] ∨ (0x30 ≤ d.toNat ∧ d.toNat ≤ 0x39)) →
            ∃ t, exec (.dialPhaseEnd k) s = .next t ∧ begins d t ∧ (t.at k).dgn.pos = x.dgn.pos + 1)))

/-- R67, R73, R82, R83 and R147: the waits that end a call. The context enters CLEARING with IDLE on its line and 2 s to
clear; the request that is still open is reported first with the same cause, then the call, and RELEASE is queued. The
model's choice: that no session and no outgoing request is left in CLEARING (log entries 19 and 73). -/
def Obligations.CallEndingTimersAct : Prop :=
  ∀ (s : State) (k : ContextId), s.Quiet → (s.at k).held = false →
    let x := s.at k
    let ended (cause : Byte) (t : State) : Prop := (∀ j, j ≠ k → t.at j = s.at j)
      ∧ (t.at k).state = .clearing ∧ (t.at k).session = .none ∧ (t.at k).txCode = .idle ∧ (t.at k).timer = some 2000
      ∧ (t.at k).clearing = 0 ∧ (t.at k).outgoing = none ∧ (t.at k).channel = x.channel
      ∧ (∀ o ch, x.direction = some .outgoing → x.outgoing = some o → x.outdialDone = false → x.channel = some ch →
          t.clc = (sendRelease ch (sendEvent (some k) (.callEnded cause)
            (sendEvent (some k) (.outdialDone cause o.tag) s))).clc)
      ∧ (∀ ch, x.direction = some .incoming → x.announced = true → x.outgoing = none → x.channel = some ch →
          t.clc = (sendRelease ch (sendEvent (some k) (.callEnded cause) s)).clc)
      ∧ t.tcm = s.tcm ∧ t.hwi = s.hwi ∧ t.msc = s.msc ∧ t.rau = s.rau
    (x.state = .dialling → x.timer = some 0 → x.dgn.phase = .wait →
      ∃ t, exec (.dialToneWaitExpiry k) s = .next t ∧ ended codeNoDialTone t)
    ∧ (x.state = .progress → x.timer = some 0 → ∃ t, exec (.progressTimerExpiry k) s = .next t ∧ ended codeNoAnswer t)
    ∧ (x.state = .connected → x.session = .voice → x.voice.activity = .waiting → x.voice.idle = some 0 →
      ∃ t, exec (.idleTimerExpiry k) s = .next t ∧ ended codeIdleTimeout t)

/-- R76, R83, R85, R86, R87 and R88: the detector's reports. A digit is reported in the third block of its run while the
detector is armed, not again while it goes on, and not after one block without it; two blocks without a digit arm the
detector again. A call-progress tone gives DIAL_TONE at its fiftieth block, BUSY and REORDER at the end of the second
cycle in a row, and RINGBACK at the hundredth block of the silence after a long tone; a calling tone is reported at its
twenty-fifth block, once. At the context, ANSWERING changes its detector alone, an ADDRESSING context adds the digit,
BUSY in PROGRESS ends the call, and MODEM_CALL in DISCRIMINATING decides DATA. The model's choice: the units of a
measurement and the order of the reports of a block, the first training at the highest rate, and the reason of the
cleared record of the Quality Monitor (log entries 18, 25 and 79). -/
def Obligations.DetectorReportsDigits : Prop :=
  (∀ (d : Detector) (x : Digit), d.armed = true → d.digitRun = none →
    let one := digitStep (some x) 3 d
    let two := digitStep (some x) 3 one.1
    let three := digitStep (some x) 3 two.1
    let more := digitStep (some x) 3 three.1
    let gap := digitStep none 3 more.1
    let again := digitStep (some x) 3 (digitStep (some x) 3 (digitStep (some x) 3 gap.1).1).1
    one.2 = none ∧ two.2 = none ∧ three.2 = some x ∧ more.2 = none ∧ gap.2 = none ∧ again.2 = none
      ∧ (digitStep none 3 gap.1).1.armed = true)
  ∧ (∀ m : Measurement, (progressIn m = true ↔ 3 * m.totalPower ≤ 4 * m.bandPower ∧ -350 ≤ m.level)
      ∧ (toneIn 11000 380 m = true ↔ ∃ x ∈ m.lines, 10620 ≤ x.freq ∧ x.freq ≤ 11380 ∧ -400 ≤ x.level)
      ∧ (toneIn 13000 260 m = true ↔ ∃ x ∈ m.lines, 12740 ≤ x.freq ∧ x.freq ≤ 13260 ∧ -400 ≤ x.level))
  ∧ (∀ d : Detector,
      let on := progressStep true d
      let off := progressStep false d
      let cycle (lo hi : Nat) : Prop :=
        lo ≤ d.lastOn ∧ d.lastOn ≤ hi ∧ lo ≤ d.progressRun ∧ d.progressRun ≤ hi
      (d.progressOn = true → on.1.progressRun = min 255 (d.progressRun + 1)
        ∧ on.2 = (if 49 ≤ d.progressRun ∧ d.dialReported = false then [.dialTone] else [])
        ∧ (49 ≤ d.progressRun → on.1.dialReported = true)
        ∧ off.2 = [] ∧ off.1.progressOn = false ∧ off.1.progressRun = 1 ∧ off.1.lastOn = d.progressRun
        ∧ (off.1.ringback = true ↔ 50 ≤ d.progressRun))
      ∧ (d.progressOn = false → on.1.progressOn = true ∧ on.1.progressRun = 1 ∧ on.1.dialReported = false
        ∧ (Report.busy ∈ on.2 ↔ cycle 24 36 ∧ 1 ≤ d.busyCycles)
        ∧ (Report.reorder ∈ on.2 ↔ cycle 11 19 ∧ 1 ≤ d.reorderCycles)
        ∧ on.1.busyCycles = (if cycle 24 36 ∧ d.busyCycles = 0 then 1 else 0)
        ∧ on.1.reorderCycles = (if cycle 11 19 ∧ d.reorderCycles = 0 then 1 else 0)
        ∧ off.1.progressRun = min 255 (d.progressRun + 1)
        ∧ off.2 = if d.ringback = true ∧ 99 ≤ d.progressRun then [.ringback] else []))
  ∧ (∀ (n : Nat) (reported : Bool), (toneStep false n reported) = (0, false, false)
      ∧ (toneStep true n reported).1 = min 25 (n + 1)
      ∧ ((toneStep true n reported).2.2 = true ↔ 24 ≤ n ∧ reported = false)
      ∧ (24 ≤ n → (toneStep true n reported).2.1 = true))
  ∧ ∀ (s : State) (k : ContextId) (m : Measurement) (ch : Channel), s.Quiet → (s.at k).held = false →
    (s.at k).channel = some ch → (s.entry ch).view = .self k → (s.at k).detector.stopped = false →
    128 ≤ (s.at k).detector.gathered.length →
    let d := (s.at k).detector
    let heard := (detectorStep 3 m d).1
    ((s.at k).state = .answering → (s.at k).voice.activity = .none → exec (.detectorBlockEnd k m) s = .next { s with
      ctx := s.ctx.modify k fun x => { x with detector := heard } })
    ∧ (∀ d : Digit, (s.at k).state = .addressing → (s.at k).voice.activity = .none → d.val < 10 → digitIn m = some d →
        (s.at k).detector.armed = true →
        (s.at k).detector.digitRun = some (d, 2) → (s.at k).digits.length + 1 < (configOf s).addressDigits →
        exec (.detectorBlockEnd k m) s = .next { s with
          ctx := s.ctx.modify k fun x => { x with detector := heard, digits := x.digits ++ [d] } })
    ∧ (∀ o : Outgoing, (s.at k).state = .progress → progressIn m = true → d.progressOn = false → 24 ≤ d.lastOn →
        d.lastOn ≤ 36 → 24 ≤ d.progressRun → d.progressRun ≤ 36 → d.busyCycles = 1 →
        (s.at k).direction = some .outgoing → (s.at k).outgoing = some o → (s.at k).outdialDone = false →
        ∃ t, exec (.detectorBlockEnd k m) s = .next t ∧ (t.at k).state = .clearing ∧ (t.at k).txCode = .idle
        ∧ (t.at k).timer = some 2000 ∧ (∀ j, j ≠ k → t.at j = s.at j)
        ∧ t.clc = (sendRelease ch (sendEvent (some k) (.callEnded codeCallBusy)
            (sendEvent (some k) (.outdialDone codeCallBusy o.tag) s))).clc)
    ∧ (∀ g : ConfigRecord, s.cfu.config = some g → g.dataAllowed = true → (s.at k).state = .discriminating →
        (s.at k).voice.activity = .beeping → digitIn m = none → toneIn 13000 260 m = true → d.modemRun = 24 →
        d.modemReported = false → (toneIn 11000 380 m = false ∨ g.faxAllowed = false) →
        ∃ t, exec (.detectorBlockEnd k m) s = .next t ∧ (t.at k).state = .connected ∧ (t.at k).session = .data
        ∧ (t.at k).voice = Voice.reset ∧ (t.at k).timer = none
        ∧ (t.at k).qmn = { Qmn.reset with
            phase := some .training, mode := .answer, min := g.rateMin, max := g.rateMax, rate := g.rateMax
            target := g.rateMax, timer := some 10000 }
        ∧ (t.at k).pump = { state := .trainingData g.rateMax .answer, control := [] }
        ∧ t = { sendEvent (some k) (.callType 2) s with ctx := t.ctx })

/-- R97, R98 and R159: a slot whose 10 ms are over with one part come. The parts that are missing are 80h for a
playback, whose decoder goes on from the block with predictor and index 0, and 00h for a fax send, whose next frame of
256 bytes is cut from the block's 508. The model's choice: when an ARRIVING slot becomes READY, and that a fax page is
cut into frames as its blocks come (log entries 22 and 46). -/
def Obligations.LateSlotsAreFilled : Prop :=
  ∀ (s : State) (k : ContextId) (b q : Nat) (bytes : List Byte) (other : Slot), s.Quiet → (s.at k).held = false →
    1 ≤ q → q < 8 → bytes.length = 64 →
    let filled (fill : Byte) (header block : List Byte) : Prop := block.length = 512 ∧ block.take 4 = header
      ∧ (block.drop (64 * q)).take 64 = bytes
      ∧ ∀ i, 4 ≤ i → i < 512 → i / 64 ≠ q → block.getD i 0 = fill
    (∀ n, (s.at k).session = .voice → (s.at k).vcd.mark = .underrun → (s.at k).vcd.current = some (b, n) →
      (s.at k).vcd.buffer = { a := .arriving b [(q, bytes)] 0, b := other } →
      ∃ t block, exec (.slotFillTimeout k) s = .next t ∧ filled 0x80 [0, 0, 0, 0] block
        ∧ (t.at k).vcd.buffer.a = .ready b block ∧ (t.at k).vcd.mark = .playing ∧ (t.at k).vcd.current = some (b, 0)
        ∧ (t.at k).vcd.decPredictor = 0 ∧ (t.at k).vcd.decIndex = 0 ∧ t.clc = s.clc)
    ∧ ((s.at k).session = .fax → (s.at k).fax.phase = .sending → (s.at k).fax.pageEnd = none →
      (s.at k).fax.sendBlock = b → (s.at k).fax.frame = [] → b + 1 < (s.at k).fax.blocks →
      (s.at k).fax.buffer = { a := .arriving b [(q, bytes)] 0, b := .requested (b + 1) } →
      ∃ t block, exec (.slotFillTimeout k) s = .next t ∧ filled 0 [0x01, 0xFC, 0, 0] block
        ∧ (t.at k).fax.sendBlock = b + 1 ∧ (t.at k).fax.phase = .sending ∧ (t.at k).fax.pageEnd = none
        ∧ (t.at k).fax.framesOut = (s.at k).fax.framesOut ++ [((s.at k).fax.frameNumber, (block.drop 4).take 256)]
        ∧ (t.at k).fax.frameNumber = ((s.at k).fax.frameNumber + 1) % 256 ∧ (t.at k).fax.frame = block.drop 260)

/-- R113, R114, R116, R126, R131 and R135: the home's waits. 50 ms after the last part the assembly of a VOICE deposit,
here of its first part alone, is written with 80h and the GAP flag; 2 s of silence close a deposit with WRITER_LOST;
10 s of silence drop a reader of another station. The model's choice: the flags of 0 that a DEPOSIT_CLOSED with EMPTY
carries (log entry 92). -/
def Obligations.HomeWaitsEnd : Prop :=
  ∀ (s : State) (h : Handle) (m : Msg), s.Quiet → s.msc.state = .ready → s.msgAt h.val = some m →
    let cell (p : Fin 8) (context : Nat) (kind : Byte) (payload : List Byte) : Cell :=
      ownCell s 4 (BitVec.ofNat 4 p.val) kind (BitVec.ofNat 8 context) payload
    (∀ e, depositEntry? s h.val = some e → m.state = .opened → m.writer = some (.peer e.station e.context) →
      m.kind = .voice → e.kind = .voice →
      (∀ bytes a b rest, e.assembly = some a → a.parts = [(0, bytes)] → bytes.length = 64 →
          a.started + 50 ≤ s.cfu.stationTime → s.msc.freeList = b :: rest → (∀ l ∈ m.last, l ≠ b) →
          s.clc.tx.length < 23 → ∃ t block, exec (.assemblyTimeout h) s = .next t
          ∧ block = bytes.set 3 (byteAt bytes 3 ||| 0x40) ++ List.replicate 448 0x80 ∧ blockAt t b = block
          ∧ t.msc.freeList = rest
          ∧ t.msgAt h.val = some { m with
              first := if m.first = none then some b else m.first, last := some b, count := m.count + 1
              length := 1016 * m.count + 1016, gaps := true }
          ∧ (∃ e', depositEntry? t h.val = some e' ∧ e'.expected = (e.expected + 1) % 65536 ∧ e'.assembly = none
              ∧ e'.lastWritten = some e.expected)
          ∧ ∃ y ∈ t.clc.tx, y.cell = cell e.station e.context kindBlockTaken (be2 h.val ++ be2 e.expected))
      ∧ (e.assembly = none → e.lastHeard + 2000 ≤ s.cfu.stationTime →
        (m.count = 0 → ∃ t, exec (.depositSilenceClose h) s = .next t ∧ t.msgAt h.val = none
          ∧ t.rau.deposits = s.rau.deposits.filter (fun x => x.handle != h.val)
          ∧ t.clc = (offerOther (cell e.station e.context kindDepositClosed
              (be2 h.val ++ [codeEmpty, 0, 0, 0])) 0 none s).clc)
        ∧ (0 < m.count → ∃ t, exec (.depositSilenceClose h) s = .next t
          ∧ t.msgAt h.val = some { m with
              state := .closed, stamp := some s.cfu.minute, writer := none, truncated := true }
          ∧ t.rau.deposits = s.rau.deposits.filter (fun x => x.handle != h.val)
          ∧ t.msc.mbxs = s.msc.mbxs.map (fun b => if b.number = m.mailbox
              then { b with list := b.list ++ [h.val], openCount := b.openCount - 1 } else b)
          ∧ t.clc = (offerOther (cell e.station e.context kindDepositClosed
              (be2 h.val ++ [codeClosed] ++ be2 m.count ++ be1 { m with truncated := true }.flags)) 0 none
              (sendEvent none (.messageStored m.mailbox h.val .voice) s)).clc)))
    ∧ (∀ (p : Fin 8) (context : Nat) (r : Reader), r ∈ m.readers → r.station = p → r.context = context →
        r.lastActivity + 10000 ≤ s.cfu.stationTime →
        (p = s.cfu.station → exec (.readerSilenceDrop h p context) s = .next s)
        ∧ (p ≠ s.cfu.station → s.rau.pendingBlocks = [] →
          let rest := m.readers.filter fun r => !(r.station == p && r.context == context)
          ∃ t, exec (.readerSilenceDrop h p context) s = .next t
            ∧ t.msgAt h.val = (if m.state = .deleting ∧ rest = [] then none else some { m with readers := rest })
            ∧ t.msc.freeList = s.msc.freeList ++ (if m.state = .deleting ∧ rest = [] then chainOf s m else [])
            ∧ t.rau = s.rau ∧ t.ctx = s.ctx))

/-- R101, R131, R134, R142 and R146: the reply timers at the depositor and the reader, and the keep-alive. A deposit
that is no fax and whose recording is over ends with HOME_SILENT, which is reported; a recording that still runs ends
with its deposit; a fetch of a playback ends it with HOME_SILENT, tells the home to close, and the context waits. An
OPEN fetch is asked for again after 5 s. The model's choice: that the context waits after a recording ended so, the
serial numbers, that a fetch ended in OPENING sends FETCH_CLOSE for the handle it knows, before the PLAY_DONE, and
leaves the playback mark ENDED, and a home above 7 (log entries 17, 24, 35, 38, 53 and 74). -/
def Obligations.PeerReplyTimersAct : Prop :=
  ∀ (s : State) (k : ContextId), s.Quiet →
    (∀ d, s.outbound k = some d → d.timer = some 0 → d.kind ≠ .fax → (s.at k).session ≠ .fax →
      (s.at k).voice.depositWait = false →
      ((s.at k).voice.activity ≠ .recording → exec (.depositReplyTimerExpiry k) s = .next
        (sendEvent (some k) (.recordDone d.home d.handle none codeHomeSilent none) { s with
          clc := { s.clc with held := s.clc.held.filter (· != .deposit k) }
          rau := { s.rau with outbound := s.rau.outbound.set k none } }))
      ∧ ((s.at k).voice.activity = .recording → (s.at k).voice.recTarget = some (.outbound d.serial) →
          (s.at k).voice.script = .none → ∃ t, exec (.depositReplyTimerExpiry k) s = .next t
          ∧ t.outbound k = none ∧ (t.at k).voice.activity = .waiting ∧ (t.at k).voice.idle = some 20000
          ∧ (t.at k).vcd.recording = false ∧ (t.at k).voice.recTarget = none))
    ∧ (∀ f, s.fetch k = some f →
      (f.timer = some 0 → (s.at k).state = .connected → (s.at k).session = .voice → (s.at k).voice.activity = .playing →
        (s.at k).voice.script = .none → (∀ h, (s.at k).vcd.source ≠ some (.here h)) →
        ∀ h, f.handle = some h → ∃ t, exec (.fetchReplyTimerExpiry k) s = .next t ∧ t.fetch k = none
          ∧ (t.at k).voice.activity = .waiting ∧ (t.at k).voice.idle = some 20000 ∧ (t.at k).vcd.mark = .ended
          ∧ t.clc = (sendEvent (some k) (.playDone codeHomeSilent (s.at k).vcd.position)
              (offerOther (ownCell s 4 (homeAddress f.home) kindFetchClose (tagOf k) (be2 h)) 0 none s)).clc)
      ∧ (f.state = .opened → f.keepalive = 0 → ∀ h, f.handle = some h → exec (.fetchKeepalive k) s = .next
          (offerOther (ownCell s 4 (homeAddress f.home) kindFetchOpen (tagOf k) (be2 h ++ [0xFF, 0xFF])) f.serial none
            { s with rau := { s.rau with fetches := s.rau.fetches.set k (some { f with keepalive := 5000 }) } })))

/-! ### Fax sessions -/

/-- R112, R150 to R156 and R162: the commands of a fax receive into a message here. MODE trains, or draws TRAIN_BAD
above the fax max rate; a fourth bad training disconnects. The 24th reading of a training that bears the rate draws
TRAIN_GOOD. A frame counts itself and those missing before it, and its bytes fill blocks of 508. PAGE_END judges the
page: kept, its last block is written with PAGE_END and the page is ended, and the last page closes the message; bad,
its blocks are freed. A control frame with a bad check changes nothing. The model's choice: that what is handed to the
pump is kept as a list, and that a repeated frame does not restart the wait (log entries 28 and 84). -/
def Obligations.FaxReceiveCommandsAct : Prop :=
  ∀ (s : State) (k : ContextId) (g : ConfigRecord), s.Quiet → s.cfu.config = some g → (s.at k).state = .connected →
    (s.at k).session = .fax → (s.at k).held = false → (s.at k).voice.activity = .none →
    (s.at k).fax.role = some .receive →
    let f := (s.at k).fax
    let control := (s.at k).pump.control
    let changed (a : Fax → Fax) (b : Pump → Pump) : Host.Outcome State Fault Refusal :=
      .next { s with ctx := s.ctx.modify k fun x => { x with fax := a x.fax, pump := b x.pump } }
    let frames := if f.phase = .awaitPage then 0 else f.frames
    let bad := if f.phase = .awaitPage then 0 else f.bad
    let expected := if f.phase = .awaitPage then 0 else f.expected
    let build := if f.phase = .awaitPage then [] else f.build
    let page := BitVec.ofNat 8 (f.pagesDone + 1)
    exec (.controlFrameBadCheck k) s = .next s
    ∧ (∀ rate : Byte, f.phase ∈ [.awaitMode, .awaitPage] →
      (rate.toNat ≤ g.faxMaxRate → exec (.mode k rate) s = .next { s with ctx := s.ctx.modify k fun x => { x with
        fax := { x.fax with rate := rate.toNat, phase := .training, wait := none }
        qmn := { x.qmn with readings := 0 }, pump := { x.pump with state := .trainingReceive rate.toNat } } })
      ∧ (g.faxMaxRate < rate.toNat → f.badTrainings < 3 → exec (.mode k rate) s = changed
          (fun f => { f with badTrainings := f.badTrainings + 1, phase := .awaitMode, wait := some 6000 })
          (fun p => { state := .control, control := p.control ++ [.trainBad] }))
      ∧ (g.faxMaxRate < rate.toNat → 3 ≤ f.badTrainings → ∃ t, exec (.mode k rate) s = .next t
          ∧ (t.at k).fax.phase = .disconnecting ∧ (t.at k).fax.result = some codeFaxFailed ∧ (t.at k).fax.target = none
          ∧ (t.at k).pump.control = control ++ [.trainBad, .disconnect]))
    ∧ (∀ (r : BitVec 12) (q : Nat), f.phase = .training → q = moveQuality (s.at k).qmn.quality
        (decide ((s.at k).qmn.readings = 0)) r.toNat →
      ((s.at k).qmn.readings + 1 < 24 → exec (.noiseReading k r) s = .next { s with ctx := s.ctx.modify k fun x =>
        { x with qmn := { x.qmn with quality := some q, readings := x.qmn.readings + 1 } } })
      ∧ (24 ≤ (s.at k).qmn.readings + 1 → f.rate ≤ faxCeilingOf q → ∃ t, exec (.noiseReading k r) s = .next t
          ∧ (t.at k).fax = { f with badTrainings := 0, phase := .awaitPage, wait := some 6000 }
          ∧ (t.at k).pump = { state := .running f.rate, control := control ++ [.trainGood] }
          ∧ (t.at k).detector.stopped = true ∧ t = { s with ctx := t.ctx }))
    ∧ (f.phase ∈ [.awaitPage, .page] →
      (∀ (n : Byte) (data : List Byte), exec (.faxFrameReceived k false n data) s = changed (fun f => { f with
        phase := .page, wait := some 6000, frames := min 65535 (frames + 1), bad := min 65535 (bad + 1)
        expected := (expected + 1) % 256, build }) id)
      ∧ (∀ (n : Byte) (data : List Byte),
        let d := (n.toNat + 256 - expected) % 256
        (128 ≤ d → exec (.faxFrameReceived k true n data) s = .next s)
        ∧ (d < 128 → build.length + data.length ≤ 508 → exec (.faxFrameReceived k true n data) s = changed
            (fun f => { f with
              phase := .page, wait := some 6000, frames := min 65535 (frames + d + 1), bad := min 65535 (bad + d)
              expected := (n.toNat + 1) % 256, build := build ++ data }) id)
        ∧ (∀ h m b rest, d < 128 → 508 < build.length + data.length → f.target = some (.here h) →
            openUnder s h (.here k) = some m → m.kind = .fax → s.msc.freeList = b :: rest → (∀ l ∈ m.last, l ≠ b) →
            ∃ t, exec (.faxFrameReceived k true n data) s = .next t
              ∧ blockAt t b = [0x01, 0xFC, page, 0] ++ (build ++ data).take 508 ∧ t.msc.freeList = rest
              ∧ t.msgAt h = some { m with
                  first := if m.first = none then some b else m.first, last := some b, count := m.count + 1 }
              ∧ (t.at k).fax.build = (build ++ data).drop 508 ∧ (t.at k).fax.phase = .page))
      ∧ (∀ (last : Bool) (h : Nat) (m : Msg), f.target = some (.here h) → openUnder s h (.here k) = some m →
          m.kind = .fax → build.length ≤ 508 →
        let verdict := if 16 * bad ≤ frames then 0 else if 4 * bad ≤ frames then 1 else 2
        let event := ownCell s 3 gateway kindEvent (contextTag (some k)) (Event.faxPage (f.pagesDone + 1) verdict).payload
        (∀ b rest, 4 * bad ≤ frames → s.msc.freeList = b :: rest → (∀ l ∈ m.last, l ≠ b) →
          ∃ t, exec (.pageEnd k last) s = .next t
          ∧ (blockAt t b).take (4 + build.length) = be2 build.length ++ [page, 0x80] ++ build
          ∧ (s.clc.tx.length < 22 → ∃ y ∈ t.clc.tx, y.cell = event)
          ∧ (t.at k).fax.pagesDone = min 65535 (f.pagesDone + 1) ∧ (t.at k).fax.build = []
          ∧ (last = false → (t.at k).fax.phase = (if 16 * bad ≤ frames then .awaitPage else .awaitMode)
              ∧ (t.at k).fax.wait = some 6000
              ∧ (t.at k).pump.control = control ++ [if 16 * bad ≤ frames then .pageGood else .pageRetrain]
              ∧ t.msgAt h = some { m with
                  first := if m.first = none then some b else m.first, last := some b, count := m.count + 1
                  length := min 65535 (m.length + 1), pageMark := m.count + 1, damaged := m.damaged || decide (0 < bad) })
          ∧ (last = true → (t.at k).fax.phase = .disconnecting ∧ (t.at k).fax.result = some codeOk
              ∧ (t.at k).pump.control
                  = control ++ [if 16 * bad ≤ frames then .pageGood else .pageRetrain, .disconnect]
              ∧ ∃ m', t.msgAt h = some m' ∧ m'.state = .closed ∧ m'.count = m.count + 1 ∧ m'.truncated = m.truncated))
        ∧ (frames < 4 * bad → ∃ t, exec (.pageEnd k last) s = .next t
          ∧ (t.at k).fax.phase = .awaitMode ∧ (t.at k).fax.wait = some 6000 ∧ (t.at k).fax.build = []
          ∧ (t.at k).fax.pagesDone = f.pagesDone ∧ (t.at k).pump.control = control ++ [.pageBad]
          ∧ (s.clc.tx.length < 22 → ∃ y ∈ t.clc.tx, y.cell = event)
          ∧ (m.pageMark ≤ m.count → ∃ m', t.msgAt h = some m' ∧ m'.count = m.pageMark ∧ m'.length = m.length)
          ∧ (m.count ≠ m.pageMark →
              t.msc.freeList = s.msc.freeList ++ (chainOf s m).drop m.pageMark))))

/-- R150, R157, R158, R159, R160 and R161: the commands of a fax send, and the ends of a fax session. A CAPABILITY
waits for the grant and then trains at the smaller rate; a verdict waits for the training's end; TRAIN_BAD and
PAGE_BAD lower the rate and train again, or disconnect; PAGE_RETRAIN lowers it too; the last page kept disconnects.
The session is over when its DISCONNECT has gone out, when the far machine disconnects, and when a send's wait runs
out before training. The model's choice: that no session is left in CLEARING, that what is handed to the pump is kept
as a list, when a page of no frames ends, and that a later CAPABILITY or verdict replaces the one kept (log entries 19,
28, 69 and 70). -/
def Obligations.FaxSendCommandsAct : Prop :=
  ∀ (s : State) (k : ContextId) (g : ConfigRecord), s.Quiet → s.cfu.config = some g → (s.at k).state = .connected →
    (s.at k).session = .fax → (s.at k).held = false → (s.at k).voice.activity = .none →
    let f := (s.at k).fax
    let control := (s.at k).pump.control
    let changed (u : State) (a : Fax → Fax) (b : Pump → Pump) : Host.Outcome State Fault Refusal :=
      .next { u with ctx := s.ctx.modify k fun x => { x with fax := a x.fax, pump := b x.pump } }
    let trains (u : State) (rate : Nat) (a : Fax → Fax) : Host.Outcome State Fault Refusal :=
      changed u (fun f => { a f with rate, trainingBegun := true, keptVerdict := none, phase := .sendTraining, wait := none })
        (fun p => { state := .trainingSend rate, control := p.control ++ [.mode rate] })
    let disconnects (u : State) (result : Byte) (a : Fax → Fax) : Host.Outcome State Fault Refusal :=
      changed u (fun f => { a f with result := some result, build := [], phase := .disconnecting, wait := none })
        (fun p => { p with control := p.control ++ [.disconnect] })
    let judged (verdict : Nat) : State := sendEvent (some k) (.faxPage (f.pagesDone + 1) verdict) s
    let isOver (result : Byte) (t : State) : Prop := (t.at k).state = .clearing ∧ (t.at k).session = .none
      ∧ (t.at k).fax = Fax.reset ∧ (t.at k).pump = Pump.reset ∧ (t.at k).timer = some 2000
      ∧ (∀ ch, f.target = none → f.source = none → s.fetch k = none → (s.at k).direction = some .incoming →
          (s.at k).announced = true → (s.at k).outgoing = none → (s.at k).channel = some ch →
          t.clc = (sendRelease ch (sendEvent (some k) (.callEnded (if result = codeOk then codeLocalDrop else codeFaxFailed))
            (sendEvent (some k) (.faxDone f.pagesDone result) s))).clc)
    (f.role = some .send →
      (∀ c : Byte, f.phase = .awaitCapability →
        (f.granted = false → exec (.capability k c) s = changed s (fun f => { f with keptCapability := some c.toNat }) id)
        ∧ (f.granted = true → exec (.capability k c) s =
            trains s (min (min c.toNat 5) g.faxMaxRate) (fun f => { f with keptCapability := none })))
      ∧ (f.phase = .sendTraining →
        exec (.trainGood k) s = changed s (fun f => { f with keptVerdict := some true }) id
        ∧ exec (.trainBad k) s = changed s (fun f => { f with keptVerdict := some false }) id
        ∧ (f.keptVerdict = none → exec (.sendTrainingEnd k) s = changed s
            (fun f => { f with phase := .awaitTrainVerdict, wait := some 6000 }) id)
        ∧ (f.keptVerdict = some true → ∃ t, exec (.sendTrainingEnd k) s = .next t ∧ (t.at k).fax.phase = .sending
            ∧ (t.at k).fax.badTrainings = 0 ∧ (t.at k).detector.stopped = true ∧ (t.at k).pump.state = .running f.rate)
        ∧ (f.keptVerdict = some false → f.badTrainings < 3 → 0 < f.rate → exec (.sendTrainingEnd k) s =
            trains s (f.rate - 1) (fun f => { f with badTrainings := f.badTrainings + 1 })))
      ∧ (f.phase = .awaitTrainVerdict →
        (∃ t, exec (.trainGood k) s = .next t ∧ (t.at k).fax.phase = .sending ∧ (t.at k).fax.badTrainings = 0
          ∧ (t.at k).detector.stopped = true ∧ (t.at k).pump.state = .running f.rate)
        ∧ (f.badTrainings < 3 → 0 < f.rate → exec (.trainBad k) s =
            trains s (f.rate - 1) (fun f => { f with badTrainings := f.badTrainings + 1 }))
        ∧ ((3 ≤ f.badTrainings ∨ f.rate = 0) → f.trainingBegun = true → exec (.trainBad k) s =
            disconnects s codeFaxFailed (fun f => { f with badTrainings := f.badTrainings + 1 })))
      ∧ (∀ (b : Nat) (last : Bool), f.pageEnd = some (b, last) →
        (f.phase = .sending → exec (.pageLastFrameSent k) s = changed s
          (fun f => { f with phase := .awaitPageVerdict, wait := some 6000 })
          (fun p => { p with control := p.control ++ [.pageEnd last] }))
        ∧ (f.phase = .awaitPageVerdict →
          let kept (f : Fax) : Fax :=
            { f with pagesDone := min 65535 (f.pagesDone + 1), resend := false, pageStart := b + 1 }
          (last = true → exec (.pageGood k) s = disconnects (judged 0) codeOk kept
            ∧ exec (.pageRetrain k) s = disconnects (judged 1) codeOk kept)
          ∧ (last = false → (∃ t, exec (.pageGood k) s = .next t ∧ (t.at k).fax.phase = .sending
              ∧ (t.at k).fax.pagesDone = min 65535 (f.pagesDone + 1) ∧ (t.at k).fax.pageStart = b + 1
              ∧ (t.at k).fax.resend = false)
            ∧ exec (.pageRetrain k) s = trains (judged 1) (f.rate - 1) kept)
          ∧ (f.resend = false → 0 < f.rate →
              exec (.pageBad k) s = trains (judged 2) (f.rate - 1) (fun f => { f with resend := true }))
          ∧ ((f.resend = true ∨ f.rate = 0) → f.trainingBegun = true →
              exec (.pageBad k) s = disconnects (judged 2) codeFaxFailed (fun f => { f with resend := true }))))
      ∧ (f.wait = some 0 →
        (f.trainingBegun = true → exec (.faxWaitTimerExpiry k) s = disconnects s codeFaxFailed id)
        ∧ (f.trainingBegun = false → ∃ t, exec (.faxWaitTimerExpiry k) s = .next t ∧ isOver codeFaxFailed t)))
    ∧ (f.role = some .receive → f.wait = some 0 → ∃ t, exec (.faxWaitTimerExpiry k) s = .next t
        ∧ (t.at k).fax.phase = .disconnecting ∧ (t.at k).fax.result = some codeFaxFailed ∧ (t.at k).fax.target = none
        ∧ (t.at k).pump.control = control ++ [.disconnect])
    ∧ (f.phase ≠ .off → f.phase ≠ .disconnecting → ∃ t, exec (.disconnect k) s = .next t ∧ isOver codeFaxFailed t)
    ∧ (∀ x rest, control = x :: rest →
      (x ≠ .disconnect ∨ f.phase ≠ .disconnecting →
        exec (.controlFrameSent k) s = changed s id (fun p => { p with control := rest }))
      ∧ (∀ result, x = .disconnect → f.phase = .disconnecting → f.result = some result →
        ∃ t, exec (.controlFrameSent k) s = .next t ∧ isOver result t))

/-! ### Data sessions -/

/-- R162 to R168: readings, trainings and shifts of a data session, here with nothing outstanding and nothing to send.
The ceiling is the highest index whose threshold bears Q. The sixteenth reading of a training brings the session UP at
its target, retrains lower, or ends it; three readings in a row below the rate shift down, 64 well above it shift up, an
error burst retrains two lower; a shift ended is UP and ends a remote hold, failed it retrains; the fifth retrain ends
the session with LINE_QUALITY. The model's choice: that DATA_UP is told only when the first training itself reaches UP
while the tone detector stops at any, that no session is left in CLEARING, that what is handed to the pump is kept as a
list, the cleared record of the Quality Monitor, and that a remote hold ends with the shift and not as it begins (log
entries 18, 19, 28, 79 and 90). -/
def Obligations.ReadingsAndTrainingsAct : Prop :=
  (∀ q, q ≤ 65520 →
    let level (i : Nat) : Nat := [4095, 2400, 1500, 1000, 700, 480, 330, 230, 160, 110, 76, 52].getD i 0
    ceilingOf q ≤ 11 ∧ q ≤ 16 * level (ceilingOf q) ∧ ∀ j, ceilingOf q < j → j ≤ 11 → 16 * level j < q)
  ∧ (∀ q r : Nat, moveQuality (some q) true r = 16 * r
      ∧ (q ≤ 16 * r → moveQuality (some q) false r = q + (16 * r - q) / 8)
      ∧ (16 * r ≤ q → moveQuality (some q) false r = q - (q - 16 * r) / 8))
  ∧ ∀ (s : State) (k : ContextId) (g : ConfigRecord), s.Quiet → s.cfu.config = some g → (s.at k).state = .connected →
    (s.at k).session = .data → (s.at k).held = false → (s.at k).lkc.outstanding = [] → (s.at k).lkc.sendBuffer = [] →
    (s.at k).lkc.holdSent = false →
    let q := (s.at k).qmn
    let changed (u : State) (a : Qmn → Qmn) (p : PumpState) : State := { u with
      ctx := s.ctx.modify k fun x => { x with qmn := a x.qmn, pump := { x.pump with state := p } } }
    let clear (q : Qmn) : Qmn := { q with fallback := 0, stepUp := 0, windowReadings := 0, errors := 0 }
    let retrains (a : Qmn → Qmn) (target : Nat) (reason : RateReason) : Host.Outcome State Fault Refusal :=
      .next (changed s (fun q => { clear (a q) with
        phase := some .retraining, target, reason, readings := 0, retrains := q.retrains + 1, timer := some 10000 })
        (.trainingData target q.mode))
    let ended (cause : Byte) (t : State) : Prop := (t.at k).state = .clearing ∧ (t.at k).session = .none
      ∧ (t.at k).qmn = Qmn.reset ∧ (t.at k).lkc = Lkc.reset ∧ (t.at k).pump = Pump.reset ∧ (t.at k).timer = some 2000
      ∧ ∀ ch, (s.at k).direction = some .incoming → (s.at k).announced = true → (s.at k).outgoing = none →
          (s.at k).channel = some ch → t.clc.tx = (sendRelease ch (sendEvent (some k) (.callEnded cause) s)).clc.tx
    (∀ (r : BitVec 12), q.phase ∈ [some .training, some .retraining] →
      let quality := moveQuality q.quality (decide (q.readings = 0)) r.toNat
      (q.readings + 1 < 16 → exec (.noiseReading k r) s = .next { s with ctx := s.ctx.modify k fun x =>
        { x with qmn := { x.qmn with quality := some quality, readings := x.qmn.readings + 1 } } })
      ∧ (16 ≤ q.readings + 1 →
        (q.target ≤ ceilingOf quality → q.min ≤ q.target → ∃ t, exec (.noiseReading k r) s = .next t
          ∧ (t.at k).qmn.phase = some .up ∧ (t.at k).qmn.rate = q.target ∧ (t.at k).qmn.timer = none
          ∧ (t.at k).detector.stopped = true ∧ (t.at k).pump.state = .running q.target
          ∧ (q.phase = some .training → t.clc = (sendEvent (some k) (.dataUp q.target) s).clc)
          ∧ (q.phase = some .retraining → t.clc = if q.target = q.rate then s.clc
              else (sendEvent (some k) (.dataRate q.target (if q.reason = .burst then .burst else .fallback)) s).clc))
        ∧ (q.min ≤ ceilingOf quality → ceilingOf quality < q.target → q.retrains < 4 → exec (.noiseReading k r) s =
            retrains (fun q => { q with quality := some quality }) (ceilingOf quality) .ceiling)
        ∧ (ceilingOf quality < q.min → ∃ t, exec (.noiseReading k r) s = .next t ∧ ended codeLineQuality t)))
    ∧ (∀ (r : BitVec 12), q.phase = some .up →
      let quality := moveQuality q.quality false r.toNat
      let whole : Prop := 16 ≤ q.windowReadings + 1
      let fallback := if ceilingOf quality < q.rate then q.fallback + 1 else 0
      let stepUp := if q.rate + 2 ≤ ceilingOf quality ∧ q.rate < q.max then q.stepUp + 1 else 0
      (¬ (whole ∧ g.errorBurst ≤ q.errors) →
        (fallback < 3 → stepUp < 64 → exec (.noiseReading k r) s = .next { s with ctx := s.ctx.modify k fun x =>
          { x with qmn := { x.qmn with
            quality := some quality, windowReadings := if whole then 0 else q.windowReadings + 1
            errors := if whole then 0 else q.errors, fallback, stepUp } } })
        ∧ (3 ≤ fallback → q.min ≤ ceilingOf quality → exec (.noiseReading k r) s = .next (changed s (fun q => { clear q with
            quality := some quality, phase := some .shifting, target := ceilingOf quality, reason := .fallback })
            (.shifting (ceilingOf quality))))
        ∧ (fallback < 3 → 64 ≤ stepUp → exec (.noiseReading k r) s = .next (changed s (fun q => { clear q with
            quality := some quality, phase := some .shifting, target := q.rate + 1, reason := .stepUp })
            (.shifting (q.rate + 1))))
        ∧ (3 ≤ fallback → ceilingOf quality < q.min →
            ∃ t, exec (.noiseReading k r) s = .next t ∧ ended codeLineQuality t))
      ∧ (whole → g.errorBurst ≤ q.errors → q.retrains < 4 → exec (.noiseReading k r) s =
          retrains (fun q => { q with quality := some quality }) (max q.min (q.rate - 2)) .burst))
    ∧ (q.phase = some .shifting →
      (exec (.shiftEnded k) s = .next { sendEvent (some k) (.dataRate q.target q.reason) s with
        ctx := s.ctx.modify k fun x => { x with
          qmn := { clear x.qmn with phase := some .up, rate := q.target, timer := none }
          lkc := { x.lkc with resend := none, remoteHold := none }
          pump := { x.pump with state := .running q.target } } })
      ∧ (q.retrains < 4 → exec (.shiftFailed k) s = retrains id q.target .timing)
      ∧ (4 ≤ q.retrains → ∃ t, exec (.shiftFailed k) s = .next t ∧ ended codeLineQuality t))
    ∧ (q.phase ∈ [some .training, some .retraining] →
      (∃ t, exec (.trainingFailed k) s = .next t ∧ ended codeLinkFailed t)
      ∧ (q.timer = some 0 → ∃ t, exec (.trainingTimerExpiry k) s = .next t ∧ ended codeLinkFailed t)
      ∧ exec (.remoteTraining k) s = .next { s with ctx := s.ctx.modify k fun x =>
          { x with qmn := { x.qmn with readings := 0, timer := some 10000 } } })
    ∧ (q.phase = some .up →
      (∀ j : Byte, (q.min ≤ j.toNat ∧ j.toNat ≤ q.max → exec (.farEndShiftRequest k j) s = .next (changed s
          (fun q => { clear q with phase := some .shifting, target := j.toNat, reason := .farEnd }) (.shifting j.toNat)))
        ∧ (j.toNat < q.min ∨ q.max < j.toNat →
            ∃ t, exec (.farEndShiftRequest k j) s = .next t ∧ ended codeLineQuality t))
      ∧ (q.retrains < 4 → exec (.remoteTraining k) s = retrains id q.rate .remote))

/-- R164, R170, R171, R172 and R174: link blocks of a session that is UP. A DATA block of the expected sequence is
acknowledged and passed on as DATA_RX, here into an empty buffer and a queue with room; one of another sequence draws
ACK of the expected one, and one without room HOLD. ACK removes blocks up to its number and ends a remote hold, HOLD
removes them, lets a block go that there is room for, and stops new blocks and the resends for at most 30 s, a resend
sends every outstanding block again, and the tenth of one block ends the session, as does a remote hold that runs out.
The model's choice: that no session is left in CLEARING, that what is handed to the pump is kept as a list, how a HOLD
acknowledges, that a bad block before the first reading of a window counts in it, and the cleared record of the Quality
Monitor (log entries 19, 28, 39, 77 and 79). -/
def Obligations.LinkBlocksMove : Prop :=
  ∀ (s : State) (k : ContextId), s.Quiet → (s.at k).state = .connected → (s.at k).session = .data →
    (s.at k).held = false → (s.at k).qmn.phase = some .up →
    let l := (s.at k).lkc
    let changed (u : State) (a : Lkc → Lkc) : Host.Outcome State Fault Refusal :=
      .next { u with ctx := s.ctx.modify k fun x => { x with lkc := a x.lkc } }
    let ended (t : State) : Prop := (t.at k).state = .clearing ∧ (t.at k).session = .none ∧ (t.at k).lkc = Lkc.reset
      ∧ (t.at k).qmn = Qmn.reset ∧ (t.at k).timer = some 2000
    let away (n : BitVec 4) : Nat := match l.outstanding with
      | [] => 0
      | b :: _ => (n - b.sequence).toNat
    (∀ (n : BitVec 4) (data : List Byte),
      (n ≠ l.expected → exec (.dataBlockReceived k n data) s = changed s
        (fun l => { l with linkOut := l.linkOut ++ [.ack l.expected] }))
      ∧ (n = l.expected → 1024 < l.rxBuffer.length + data.length → exec (.dataBlockReceived k n data) s = changed s
        (fun l => { l with linkOut := l.linkOut ++ [.hold l.expected], holdSent := true }))
      ∧ (n = l.expected → l.rxBuffer = [] → l.rxHeld = none → 1 ≤ data.length → data.length ≤ 64 →
        let cell := ownCell s 5 gateway kindDataRx (tagOf k) data
        queueTakes s.clc.tx cell = true → exec (.dataBlockReceived k n data) s = changed
          { s with clc := { s.clc with tx := insertByPriority (freshTx cell 0) s.clc.tx } }
          (fun l => { l with
            expected := l.expected + 1, holdSent := false, linkOut := l.linkOut ++ [.ack (l.expected + 1)] })))
    ∧ exec (.linkBlockBadCheck k) s = .next { s with ctx := s.ctx.modify k fun x =>
        { x with qmn := { x.qmn with errors := min 255 (x.qmn.errors + 1) } } }
    ∧ (∀ n : BitVec 4, l.outstanding ≠ [] →
      (l.outstanding.length < away n → exec (.ackReceived k n) s = .next s)
      ∧ (away n ≤ l.outstanding.length → l.remoteHold = none → l.sendBuffer = [] →
        let rest := l.outstanding.drop (away n)
        exec (.ackReceived k n) s = changed s (fun l => { l with
          outstanding := rest, resend := if away n = 0 then l.resend else if rest = [] then none else some 1500 }))
      ∧ (away n ≤ l.outstanding.length → l.remoteHold ≠ none → l.sendBuffer = [] →
        let rest := l.outstanding.drop (away n)
        exec (.ackReceived k n) s = changed s (fun l => { l with
          outstanding := rest, remoteHold := none, resend := if rest = [] then none else some 1500 })))
    ∧ (l.outstanding = [] → l.remoteHold ≠ none → l.sendBuffer = [] →
        exec (.ackReceived k l.nextSequence) s = changed s (fun l => { l with remoteHold := none }))
    ∧ (l.outstanding = [] → l.remoteHold = none → l.flowStop = false → 1 ≤ l.sendBuffer.length →
        l.sendBuffer.length ≤ 64 → exec (.ackReceived k l.nextSequence) s = changed s (fun l => { l with
          sendBuffer := [], outstanding := [{ sequence := l.nextSequence, bytes := l.sendBuffer, resends := 0 }]
          nextSequence := l.nextSequence + 1, resend := some 1500
          linkOut := l.linkOut ++ [.data l.nextSequence l.sendBuffer] }))
    ∧ (∀ n : BitVec 4, l.sendBuffer = [] ∨ l.remoteHold ≠ none ∨ l.outstanding.length < away n →
      exec (.holdReceived k n) s = changed s (fun l => { l with
        outstanding := if away n ≤ l.outstanding.length then l.outstanding.drop (away n) else l.outstanding
        resend := none, remoteHold := some (l.remoteHold.getD 30000) }))
    ∧ (l.outstanding = [] → l.remoteHold = none → l.flowStop = false → 1 ≤ l.sendBuffer.length →
        l.sendBuffer.length ≤ 64 → exec (.holdReceived k l.nextSequence) s = changed s (fun l => { l with
          sendBuffer := [], outstanding := [{ sequence := l.nextSequence, bytes := l.sendBuffer, resends := 0 }]
          nextSequence := l.nextSequence + 1, resend := none, remoteHold := some 30000
          linkOut := l.linkOut ++ [.data l.nextSequence l.sendBuffer] }))
    ∧ (∀ b rest, l.resend = some 0 → l.outstanding = b :: rest →
      (b.resends + 1 < 10 → exec (.resendTimerExpiry k) s = changed s (fun l => { l with
        linkOut := l.linkOut ++ l.outstanding.map (fun x => .data x.sequence x.bytes)
        outstanding := { b with resends := b.resends + 1 } :: rest, resend := some 1500 }))
      ∧ (10 ≤ b.resends + 1 → ∃ t, exec (.resendTimerExpiry k) s = .next t ∧ ended t))
    ∧ (l.remoteHold = some 0 → ∃ t, exec (.remoteHoldExpiry k) s = .next t ∧ ended t)

/-! ### Line codes -/

/-- R50, R51, R57, R65, R66, R72 and R81: how a delivered code moves the settled code, the candidate and the run of one
direction; every channel and direction moves so at each boundary that gives session time, by the settle count of the
configuration or 8 without one, and away from ALIGNED none does. Then what a receive code that settles alone does. SEIZE
on a free channel of the hunt set starts a bid of the lowest FREE context with its delay. At a context that holds the
channel it acts by the table of R72: the call ends, glare takes the channel as an incoming call and moves the request to
the lowest FREE context, or the call is answered and the session of its purpose begins. The model's choice: the ticks a
boundary carries, the order within a boundary, the first training at the highest rate, no session in CLEARING, the
context that reports GLARE, no bid away from ALIGNED, the reason of the cleared record of the Quality Monitor, and the
direction IN from the start of a bid (log entries 1, 3, 18, 19, 43, 58, 79 and 81). -/
def Obligations.CodesSettleAtBoundaries : Prop :=
  (∀ (count : Nat) (code : LineCode) (x : Settling),
    let y := (x.deliver count code).1
    (code = x.settled → y = { x with candidate := none, run := 0 })
    ∧ (code ≠ x.settled →
      let run := if x.candidate = some code then x.run + 1 else 1
      (run < count → y = { x with candidate := some code, run })
      ∧ (count ≤ run → y = { settled := code, candidate := none, run := 0 }))
    ∧ ((x.deliver count code).2 = true ↔ y.settled ≠ x.settled))
  ∧ (∀ (s t : State) (ticks m : Nat), s.Quiet → isAligned s = true → s.hwi.tickCount = some m → m + ticks < 32767 →
    exec (.superframeBoundary ticks) s = .next t →
    let count := (s.cfu.config.map (·.settleCount)).getD 8
    ∀ c, (t.entry c).rx = ((s.entry c).rx.deliver count (s.hwi.rxCodes.get c)).1
      ∧ (t.entry c).tx = ((s.entry c).tx.deliver count (s.hwi.txCodes.get c)).1)
  ∧ (∀ (s : State) (ticks : Nat), isAligned s = false → exec (.superframeBoundary ticks) s = .next s)
  ∧ ∀ (s : State) (ticks : Nat) (ch : Channel) (code : LineCode) (g : ConfigRecord), s.Quiet →
    s.SettlesAlone ticks ch code → s.cfu.config = some g →
    let ticked (j : ContextId) : Context := if (s.at j).held then s.at j else tickContext (s.at j)
    (code = .seize → holderOf s ch = none → claimerOf s ch = none → clearerOf s ch = none →
      let open_ : Prop := (s.entry ch).view = .free
        ∨ ((s.entry ch).view = .unknown ∧ (s.entry ch).tx.settled = .idle)
      (∀ k, s.cfu.state = .active → inSet g.huntSet ch = true → open_ → (s.at k).state = .free →
          (∀ j, j < k → (s.at j).state ≠ .free) →
        let busy := (contextIds.filter fun j => (s.at j).state != .free).length
        let delay := 4 * ((ch.val + 8 * g.groupSize - s.cfu.station.val) % g.groupSize) + 8 * busy
        let claim := ownCell s 1 allStations kindClaim 0xFF (be1 ch.val ++ be1 0)
        0 < delay ∨ queueTakes s.clc.tx claim = true → ∃ t, exec (.superframeBoundary ticks) s = .next t
          ∧ (t.at k).state = .claiming ∧ (t.at k).direction = some .incoming ∧ (∀ j, j ≠ k → t.at j = ticked j)
          ∧ t.bid k = some { channel := ch, direction := .incoming, timer := if delay = 0 then none else some delay
                             withdrawal := none }
          ∧ t.clc.tx = if delay = 0 then insertByPriority (freshTx claim 0) s.clc.tx else s.clc.tx)
      ∧ ((s.cfu.state ≠ .active ∨ inSet g.huntSet ch = false ∨ (∀ j, (s.at j).state ≠ .free)
            ∨ ∃ p, (s.entry ch).view = .peer p) → (s.entry ch).view ≠ .blocked →
        ∃ t, exec (.superframeBoundary ticks) s = .next t ∧ (∀ j, t.at j = ticked j) ∧ t.clc = s.clc))
    ∧ ∀ k, (s.entry ch).view = .self k → (s.at k).channel = some ch → (s.at k).held = false →
      let x := s.at k
      let stands : Prop := ∃ t, exec (.superframeBoundary ticks) s = .next t ∧ (∀ j, t.at j = ticked j) ∧ t.clc = s.clc
      let ends (cause : Byte) : Prop := ∃ t, exec (.superframeBoundary ticks) s = .next t
        ∧ (∀ j, j ≠ k → t.at j = ticked j) ∧ (t.at k).state = .clearing ∧ (t.at k).session = .none
        ∧ (t.at k).txCode = .idle ∧ (t.at k).timer = some 2000 ∧ (t.at k).clearing = 0
        ∧ (t.at k).channel = some ch
        ∧ (x.state ∈ [.addressing, .answering] → x.direction = some .incoming → x.outgoing = none →
            t.clc = (sendRelease ch (sendEvent (some k) (.callEnded cause)
              (if x.announced then s else sendEvent (some k) (.callArrived ch none) s))).clc)
        ∧ (∀ o, x.state ∈ [.seized, .dialling, .progress] → x.direction = some .outgoing → x.outgoing = some o →
            x.outdialDone = false → t.clc = (sendRelease ch (sendEvent (some k) (.callEnded cause)
              (sendEvent (some k) (.outdialDone cause o.tag) s))).clc)
      let incoming : Prop := x.state ∈ [.addressing, .answering, .discriminating]
        ∨ (x.state = .connected ∧ x.direction = some .incoming)
      let outgoing : Prop := x.state = .connected ∧ x.direction = some .outgoing
      (incoming ∨ outgoing ∨ x.state ∈ [.seized, .dialling, .progress] → code = .blocked → ends codeBlocked)
      ∧ (incoming ∨ outgoing ∨ x.state ∈ [.dialling, .progress] → code = .idle → ends codeFarEndClear)
      ∧ (outgoing → code = .seize → ends codeFarEndClear)
      ∧ ((x.state = .seized ∧ code = .idle) ∨ (incoming ∧ code ∈ [.seize, .answer]) ∨ (outgoing ∧ code = .answer)
          ∨ (x.state ∈ [.dialling, .progress] ∧ code = .seize) ∨ x.state = .clearing → stands)
      ∧ (∀ o, x.state = .seized → code = .seize → x.outgoing = some o → x.outdialDone = false → 0 < g.addressDigits →
        let takeable (c : Channel) : Prop := inSet g.outdialSet c = true ∧ (s.entry c).view = .free
          ∧ (s.entry c).rx.settled = .idle ∧ claimerOf s c = none ∧ clearerOf s c = none
        let claim (c : Channel) : Cell := ownCell s 1 allStations kindClaim 0xFF (be1 c.val ++ be1 1)
        ∃ t, exec (.superframeBoundary ticks) s = .next t
          ∧ (t.at k).state = .addressing ∧ (t.at k).direction = some .incoming ∧ (t.at k).outgoing = none
          ∧ (t.at k).txCode = .seize ∧ (t.at k).timer = some 4000 ∧ (t.entry ch).view = .self k
          ∧ (o.glareRetried = true ∨ (∀ j, (s.at j).state ≠ .free) → (∀ j, j ≠ k → t.at j = ticked j)
              ∧ t.clc = (sendEvent (some k) (.outdialDone codeGlare o.tag) s).clc)
          ∧ ∀ j, o.glareRetried = false → s.at j = Context.reset → (∀ i, i < j → (s.at i).state ≠ .free) →
            (∀ c, takeable c → (∀ b, b < c → ¬ takeable b) → queueTakes s.clc.tx (claim c) = true →
              (t.at j).state = .claiming ∧ (t.at j).direction = some .outgoing
              ∧ (t.at j).outgoing = some { o with glareRetried := true, choiceRetried := false }
              ∧ (t.at j).requestTag = some o.tag
              ∧ t.bid j = some { channel := c, direction := .outgoing, timer := none, withdrawal := none }
              ∧ t.clc.tx = insertByPriority (freshTx (claim c) 0) s.clc.tx)
            ∧ ((∀ c, ¬ takeable c) → t.at j = Context.reset
              ∧ t.clc.tx = (sendEvent (some j) (.outdialDone codeGlare o.tag) s).clc.tx))
      ∧ (∀ o, x.state ∈ [.seized, .dialling, .progress] → code = .answer → x.outgoing = some o →
          x.outdialDone = false → s.clc.tx.length ≤ 21 →
          (∀ home h, o.purpose = .play home h ∨ o.purpose = .faxSend home h → home ≠ s.cfu.station.val) →
        ∃ t, exec (.superframeBoundary ticks) s = .next t ∧ (∀ j, j ≠ k → t.at j = ticked j)
          ∧ (t.at k).state = .connected ∧ (t.at k).txCode = .seize ∧ (t.at k).timer = none
          ∧ (t.at k).dgn = Dgn.reset ∧ (t.at k).outdialDone = true
          ∧ (∃ y ∈ t.clc.tx, y.cell = ownCell s 3 gateway kindEvent (contextTag (some k))
              (Event.outdialDone codeOk o.tag).payload)
          ∧ (o.purpose = .plain → (t.at k).session = .voice ∧ (t.at k).voice.activity = .waiting
              ∧ (t.at k).voice.idle = some 20000)
          ∧ (∀ home h, o.purpose = .play home h → (t.at k).session = .voice
              ∧ (t.at k).voice.activity = .playing ∧ (t.at k).voice.script = .outdialPlay
              ∧ ∃ f, t.fetch k = some f ∧ f.state = .opening ∧ f.home = home ∧ f.handle = some h)
          ∧ (∀ home h, o.purpose = .faxSend home h → (t.at k).session = .fax
              ∧ (t.at k).fax = { Fax.reset with role := some .send, phase := .awaitCapability, wait := some 6000 }
              ∧ ∃ f, t.fetch k = some f ∧ f.state = .opening ∧ f.home = home ∧ f.handle = some h)
          ∧ (∀ lo hi, o.purpose = .data lo hi → (t.at k).session = .data ∧ (t.at k).pump =
                { state := .trainingData hi .originate, control := [] }
              ∧ (t.at k).qmn = { Qmn.reset with
                  phase := some .training, mode := .originate, min := lo, max := hi, rate := hi, target := hi
                  timer := some 10000 }))
end

