-- ==== Sys2Proof/Laws/Bank.lean ====
section
/-! SUPPORT. Reading a bank after a write. -/
namespace Sys2Proof

variable {n : Nat} {α β : Type}

theorem Bank.ext_items {a b : Bank n α} (h : a.items = b.items) : a = b := by
  cases a; cases b; simp_all

theorem Bank.get_eq (b : Bank n α) (i : Fin n) : b.get i = b.items[i.val]'(by rw [b.size_eq]; exact i.isLt) := rfl

@[simp] theorem Bank.get_set (b : Bank n α) (i : Fin n) (a : α) : (b.set i a).get i = a := by
  simp [Bank.get_eq, Bank.set]

@[simp] theorem Bank.get_set_ne (b : Bank n α) (i j : Fin n) (a : α) (h : j ≠ i) : (b.set i a).get j = b.get j := by
  have h' : i.val ≠ j.val := fun e => h (Fin.ext e.symm)
  simp [Bank.get_eq, Bank.set, h']

@[simp] theorem Bank.get_replicate (i : Fin n) (a : α) : (Bank.replicate n a).get i = a := by
  simp [Bank.get, Bank.replicate]

@[simp] theorem Bank.get_map (b : Bank n α) (f : α → β) (i : Fin n) : (b.map f).get i = f (b.get i) := by
  simp [Bank.get_eq, Bank.map]

@[simp] theorem Bank.get_modify (b : Bank n α) (i : Fin n) (f : α → α) : (b.modify i f).get i = f (b.get i) := by
  simp [Bank.modify]

@[simp] theorem Bank.get_modify_ne (b : Bank n α) (i j : Fin n) (f : α → α) (h : j ≠ i) :
    (b.modify i f).get j = b.get j := by
  simp [Bank.modify, h]

@[simp] theorem Bank.set_get (b : Bank n α) (i : Fin n) : b.set i (b.get i) = b := by
  apply Bank.ext_items
  simp [Bank.get, Bank.set]

/-- Two banks that read alike everywhere are equal. -/
theorem Bank.ext_get {a b : Bank n α} (h : ∀ i, a.get i = b.get i) : a = b := by
  apply Bank.ext_items
  apply List.ext_getElem (by rw [a.size_eq, b.size_eq])
  intro i h1 h2
  have := h ⟨i, by rw [← a.size_eq]; exact h1⟩
  simpa [Bank.get] using this

end Sys2Proof
end

