-- ==== Sys2Proof/Laws/State.lean ====
section
/-! SUPPORT. One lemma for each field of each update of the state, and for each reading of it. -/
namespace Sys2Proof.Machine

section
variable (s : State) (k j : ContextId) (c d : Channel) (h i : Handle)

@[simp] theorem modHwi_hwi (f : Hwi → Hwi) : (s.modHwi f).hwi = f s.hwi := rfl
@[simp] theorem modHwi_clc (f : Hwi → Hwi) : (s.modHwi f).clc = s.clc := rfl
@[simp] theorem modHwi_cfu (f : Hwi → Hwi) : (s.modHwi f).cfu = s.cfu := rfl
@[simp] theorem modHwi_tcm (f : Hwi → Hwi) : (s.modHwi f).tcm = s.tcm := rfl
@[simp] theorem modHwi_ctx (f : Hwi → Hwi) : (s.modHwi f).ctx = s.ctx := rfl
@[simp] theorem modHwi_msc (f : Hwi → Hwi) : (s.modHwi f).msc = s.msc := rfl
@[simp] theorem modHwi_rau (f : Hwi → Hwi) : (s.modHwi f).rau = s.rau := rfl
@[simp] theorem modHwi_free (f : Hwi → Hwi) : (s.modHwi f).free = s.free := rfl
@[simp] theorem modHwi_pending (f : Hwi → Hwi) : (s.modHwi f).pending = s.pending := rfl

@[simp] theorem modClc_hwi (f : Clc → Clc) : (s.modClc f).hwi = s.hwi := rfl
@[simp] theorem modClc_clc (f : Clc → Clc) : (s.modClc f).clc = f s.clc := rfl
@[simp] theorem modClc_cfu (f : Clc → Clc) : (s.modClc f).cfu = s.cfu := rfl
@[simp] theorem modClc_tcm (f : Clc → Clc) : (s.modClc f).tcm = s.tcm := rfl
@[simp] theorem modClc_ctx (f : Clc → Clc) : (s.modClc f).ctx = s.ctx := rfl
@[simp] theorem modClc_msc (f : Clc → Clc) : (s.modClc f).msc = s.msc := rfl
@[simp] theorem modClc_rau (f : Clc → Clc) : (s.modClc f).rau = s.rau := rfl
@[simp] theorem modClc_free (f : Clc → Clc) : (s.modClc f).free = s.free := rfl
@[simp] theorem modClc_pending (f : Clc → Clc) : (s.modClc f).pending = s.pending := rfl

@[simp] theorem modCfu_hwi (f : Cfu → Cfu) : (s.modCfu f).hwi = s.hwi := rfl
@[simp] theorem modCfu_clc (f : Cfu → Cfu) : (s.modCfu f).clc = s.clc := rfl
@[simp] theorem modCfu_cfu (f : Cfu → Cfu) : (s.modCfu f).cfu = f s.cfu := rfl
@[simp] theorem modCfu_tcm (f : Cfu → Cfu) : (s.modCfu f).tcm = s.tcm := rfl
@[simp] theorem modCfu_ctx (f : Cfu → Cfu) : (s.modCfu f).ctx = s.ctx := rfl
@[simp] theorem modCfu_msc (f : Cfu → Cfu) : (s.modCfu f).msc = s.msc := rfl
@[simp] theorem modCfu_rau (f : Cfu → Cfu) : (s.modCfu f).rau = s.rau := rfl
@[simp] theorem modCfu_free (f : Cfu → Cfu) : (s.modCfu f).free = s.free := rfl
@[simp] theorem modCfu_pending (f : Cfu → Cfu) : (s.modCfu f).pending = s.pending := rfl

@[simp] theorem modTcm_hwi (f : Tcm → Tcm) : (s.modTcm f).hwi = s.hwi := rfl
@[simp] theorem modTcm_clc (f : Tcm → Tcm) : (s.modTcm f).clc = s.clc := rfl
@[simp] theorem modTcm_cfu (f : Tcm → Tcm) : (s.modTcm f).cfu = s.cfu := rfl
@[simp] theorem modTcm_tcm (f : Tcm → Tcm) : (s.modTcm f).tcm = f s.tcm := rfl
@[simp] theorem modTcm_ctx (f : Tcm → Tcm) : (s.modTcm f).ctx = s.ctx := rfl
@[simp] theorem modTcm_msc (f : Tcm → Tcm) : (s.modTcm f).msc = s.msc := rfl
@[simp] theorem modTcm_rau (f : Tcm → Tcm) : (s.modTcm f).rau = s.rau := rfl
@[simp] theorem modTcm_free (f : Tcm → Tcm) : (s.modTcm f).free = s.free := rfl
@[simp] theorem modTcm_pending (f : Tcm → Tcm) : (s.modTcm f).pending = s.pending := rfl

@[simp] theorem modMsc_hwi (f : Msc → Msc) : (s.modMsc f).hwi = s.hwi := rfl
@[simp] theorem modMsc_clc (f : Msc → Msc) : (s.modMsc f).clc = s.clc := rfl
@[simp] theorem modMsc_cfu (f : Msc → Msc) : (s.modMsc f).cfu = s.cfu := rfl
@[simp] theorem modMsc_tcm (f : Msc → Msc) : (s.modMsc f).tcm = s.tcm := rfl
@[simp] theorem modMsc_ctx (f : Msc → Msc) : (s.modMsc f).ctx = s.ctx := rfl
@[simp] theorem modMsc_msc (f : Msc → Msc) : (s.modMsc f).msc = f s.msc := rfl
@[simp] theorem modMsc_rau (f : Msc → Msc) : (s.modMsc f).rau = s.rau := rfl
@[simp] theorem modMsc_free (f : Msc → Msc) : (s.modMsc f).free = s.free := rfl
@[simp] theorem modMsc_pending (f : Msc → Msc) : (s.modMsc f).pending = s.pending := rfl

@[simp] theorem modRau_hwi (f : Rau → Rau) : (s.modRau f).hwi = s.hwi := rfl
@[simp] theorem modRau_clc (f : Rau → Rau) : (s.modRau f).clc = s.clc := rfl
@[simp] theorem modRau_cfu (f : Rau → Rau) : (s.modRau f).cfu = s.cfu := rfl
@[simp] theorem modRau_tcm (f : Rau → Rau) : (s.modRau f).tcm = s.tcm := rfl
@[simp] theorem modRau_ctx (f : Rau → Rau) : (s.modRau f).ctx = s.ctx := rfl
@[simp] theorem modRau_msc (f : Rau → Rau) : (s.modRau f).msc = s.msc := rfl
@[simp] theorem modRau_rau (f : Rau → Rau) : (s.modRau f).rau = f s.rau := rfl
@[simp] theorem modRau_free (f : Rau → Rau) : (s.modRau f).free = s.free := rfl
@[simp] theorem modRau_pending (f : Rau → Rau) : (s.modRau f).pending = s.pending := rfl

@[simp] theorem modCtx_hwi (f : Context → Context) : (s.modCtx k f).hwi = s.hwi := rfl
@[simp] theorem modCtx_clc (f : Context → Context) : (s.modCtx k f).clc = s.clc := rfl
@[simp] theorem modCtx_cfu (f : Context → Context) : (s.modCtx k f).cfu = s.cfu := rfl
@[simp] theorem modCtx_tcm (f : Context → Context) : (s.modCtx k f).tcm = s.tcm := rfl
@[simp] theorem modCtx_msc (f : Context → Context) : (s.modCtx k f).msc = s.msc := rfl
@[simp] theorem modCtx_rau (f : Context → Context) : (s.modCtx k f).rau = s.rau := rfl
@[simp] theorem modCtx_free (f : Context → Context) : (s.modCtx k f).free = s.free := rfl
@[simp] theorem modCtx_pending (f : Context → Context) : (s.modCtx k f).pending = s.pending := rfl
@[simp] theorem modCtx_ctx (f : Context → Context) : (s.modCtx k f).ctx = s.ctx.modify k f := rfl

@[simp] theorem modVoice_hwi (f : Voice → Voice) : (s.modVoice k f).hwi = s.hwi := rfl
@[simp] theorem modVoice_clc (f : Voice → Voice) : (s.modVoice k f).clc = s.clc := rfl
@[simp] theorem modVoice_cfu (f : Voice → Voice) : (s.modVoice k f).cfu = s.cfu := rfl
@[simp] theorem modVoice_tcm (f : Voice → Voice) : (s.modVoice k f).tcm = s.tcm := rfl
@[simp] theorem modVoice_msc (f : Voice → Voice) : (s.modVoice k f).msc = s.msc := rfl
@[simp] theorem modVoice_rau (f : Voice → Voice) : (s.modVoice k f).rau = s.rau := rfl
@[simp] theorem modVoice_free (f : Voice → Voice) : (s.modVoice k f).free = s.free := rfl
@[simp] theorem modVoice_pending (f : Voice → Voice) : (s.modVoice k f).pending = s.pending := rfl

@[simp] theorem modVcd_hwi (f : Vcd → Vcd) : (s.modVcd k f).hwi = s.hwi := rfl
@[simp] theorem modVcd_clc (f : Vcd → Vcd) : (s.modVcd k f).clc = s.clc := rfl
@[simp] theorem modVcd_cfu (f : Vcd → Vcd) : (s.modVcd k f).cfu = s.cfu := rfl
@[simp] theorem modVcd_tcm (f : Vcd → Vcd) : (s.modVcd k f).tcm = s.tcm := rfl
@[simp] theorem modVcd_msc (f : Vcd → Vcd) : (s.modVcd k f).msc = s.msc := rfl
@[simp] theorem modVcd_rau (f : Vcd → Vcd) : (s.modVcd k f).rau = s.rau := rfl
@[simp] theorem modVcd_free (f : Vcd → Vcd) : (s.modVcd k f).free = s.free := rfl
@[simp] theorem modVcd_pending (f : Vcd → Vcd) : (s.modVcd k f).pending = s.pending := rfl

@[simp] theorem modFax_hwi (f : Fax → Fax) : (s.modFax k f).hwi = s.hwi := rfl
@[simp] theorem modFax_clc (f : Fax → Fax) : (s.modFax k f).clc = s.clc := rfl
@[simp] theorem modFax_cfu (f : Fax → Fax) : (s.modFax k f).cfu = s.cfu := rfl
@[simp] theorem modFax_tcm (f : Fax → Fax) : (s.modFax k f).tcm = s.tcm := rfl
@[simp] theorem modFax_msc (f : Fax → Fax) : (s.modFax k f).msc = s.msc := rfl
@[simp] theorem modFax_rau (f : Fax → Fax) : (s.modFax k f).rau = s.rau := rfl
@[simp] theorem modFax_free (f : Fax → Fax) : (s.modFax k f).free = s.free := rfl
@[simp] theorem modFax_pending (f : Fax → Fax) : (s.modFax k f).pending = s.pending := rfl

@[simp] theorem modQmn_hwi (f : Qmn → Qmn) : (s.modQmn k f).hwi = s.hwi := rfl
@[simp] theorem modQmn_clc (f : Qmn → Qmn) : (s.modQmn k f).clc = s.clc := rfl
@[simp] theorem modQmn_cfu (f : Qmn → Qmn) : (s.modQmn k f).cfu = s.cfu := rfl
@[simp] theorem modQmn_tcm (f : Qmn → Qmn) : (s.modQmn k f).tcm = s.tcm := rfl
@[simp] theorem modQmn_msc (f : Qmn → Qmn) : (s.modQmn k f).msc = s.msc := rfl
@[simp] theorem modQmn_rau (f : Qmn → Qmn) : (s.modQmn k f).rau = s.rau := rfl
@[simp] theorem modQmn_free (f : Qmn → Qmn) : (s.modQmn k f).free = s.free := rfl
@[simp] theorem modQmn_pending (f : Qmn → Qmn) : (s.modQmn k f).pending = s.pending := rfl

@[simp] theorem modLkc_hwi (f : Lkc → Lkc) : (s.modLkc k f).hwi = s.hwi := rfl
@[simp] theorem modLkc_clc (f : Lkc → Lkc) : (s.modLkc k f).clc = s.clc := rfl
@[simp] theorem modLkc_cfu (f : Lkc → Lkc) : (s.modLkc k f).cfu = s.cfu := rfl
@[simp] theorem modLkc_tcm (f : Lkc → Lkc) : (s.modLkc k f).tcm = s.tcm := rfl
@[simp] theorem modLkc_msc (f : Lkc → Lkc) : (s.modLkc k f).msc = s.msc := rfl
@[simp] theorem modLkc_rau (f : Lkc → Lkc) : (s.modLkc k f).rau = s.rau := rfl
@[simp] theorem modLkc_free (f : Lkc → Lkc) : (s.modLkc k f).free = s.free := rfl
@[simp] theorem modLkc_pending (f : Lkc → Lkc) : (s.modLkc k f).pending = s.pending := rfl

@[simp] theorem modPump_hwi (f : Pump → Pump) : (s.modPump k f).hwi = s.hwi := rfl
@[simp] theorem modPump_clc (f : Pump → Pump) : (s.modPump k f).clc = s.clc := rfl
@[simp] theorem modPump_cfu (f : Pump → Pump) : (s.modPump k f).cfu = s.cfu := rfl
@[simp] theorem modPump_tcm (f : Pump → Pump) : (s.modPump k f).tcm = s.tcm := rfl
@[simp] theorem modPump_msc (f : Pump → Pump) : (s.modPump k f).msc = s.msc := rfl
@[simp] theorem modPump_rau (f : Pump → Pump) : (s.modPump k f).rau = s.rau := rfl
@[simp] theorem modPump_free (f : Pump → Pump) : (s.modPump k f).free = s.free := rfl
@[simp] theorem modPump_pending (f : Pump → Pump) : (s.modPump k f).pending = s.pending := rfl

@[simp] theorem modDetector_hwi (f : Detector → Detector) : (s.modDetector k f).hwi = s.hwi := rfl
@[simp] theorem modDetector_clc (f : Detector → Detector) : (s.modDetector k f).clc = s.clc := rfl
@[simp] theorem modDetector_cfu (f : Detector → Detector) : (s.modDetector k f).cfu = s.cfu := rfl
@[simp] theorem modDetector_tcm (f : Detector → Detector) : (s.modDetector k f).tcm = s.tcm := rfl
@[simp] theorem modDetector_msc (f : Detector → Detector) : (s.modDetector k f).msc = s.msc := rfl
@[simp] theorem modDetector_rau (f : Detector → Detector) : (s.modDetector k f).rau = s.rau := rfl
@[simp] theorem modDetector_free (f : Detector → Detector) : (s.modDetector k f).free = s.free := rfl
@[simp] theorem modDetector_pending (f : Detector → Detector) : (s.modDetector k f).pending = s.pending := rfl

@[simp] theorem modDgn_hwi (f : Dgn → Dgn) : (s.modDgn k f).hwi = s.hwi := rfl
@[simp] theorem modDgn_clc (f : Dgn → Dgn) : (s.modDgn k f).clc = s.clc := rfl
@[simp] theorem modDgn_cfu (f : Dgn → Dgn) : (s.modDgn k f).cfu = s.cfu := rfl
@[simp] theorem modDgn_tcm (f : Dgn → Dgn) : (s.modDgn k f).tcm = s.tcm := rfl
@[simp] theorem modDgn_msc (f : Dgn → Dgn) : (s.modDgn k f).msc = s.msc := rfl
@[simp] theorem modDgn_rau (f : Dgn → Dgn) : (s.modDgn k f).rau = s.rau := rfl
@[simp] theorem modDgn_free (f : Dgn → Dgn) : (s.modDgn k f).free = s.free := rfl
@[simp] theorem modDgn_pending (f : Dgn → Dgn) : (s.modDgn k f).pending = s.pending := rfl

@[simp] theorem modEntry_hwi (f : MapEntry → MapEntry) : (s.modEntry c f).hwi = s.hwi := rfl
@[simp] theorem modEntry_clc (f : MapEntry → MapEntry) : (s.modEntry c f).clc = s.clc := rfl
@[simp] theorem modEntry_cfu (f : MapEntry → MapEntry) : (s.modEntry c f).cfu = s.cfu := rfl
@[simp] theorem modEntry_ctx (f : MapEntry → MapEntry) : (s.modEntry c f).ctx = s.ctx := rfl
@[simp] theorem modEntry_msc (f : MapEntry → MapEntry) : (s.modEntry c f).msc = s.msc := rfl
@[simp] theorem modEntry_rau (f : MapEntry → MapEntry) : (s.modEntry c f).rau = s.rau := rfl
@[simp] theorem modEntry_free (f : MapEntry → MapEntry) : (s.modEntry c f).free = s.free := rfl
@[simp] theorem modEntry_pending (f : MapEntry → MapEntry) : (s.modEntry c f).pending = s.pending := rfl

@[simp] theorem setBid_hwi (f : Option Bid) : (s.setBid k f).hwi = s.hwi := rfl
@[simp] theorem setBid_clc (f : Option Bid) : (s.setBid k f).clc = s.clc := rfl
@[simp] theorem setBid_cfu (f : Option Bid) : (s.setBid k f).cfu = s.cfu := rfl
@[simp] theorem setBid_ctx (f : Option Bid) : (s.setBid k f).ctx = s.ctx := rfl
@[simp] theorem setBid_msc (f : Option Bid) : (s.setBid k f).msc = s.msc := rfl
@[simp] theorem setBid_rau (f : Option Bid) : (s.setBid k f).rau = s.rau := rfl
@[simp] theorem setBid_free (f : Option Bid) : (s.setBid k f).free = s.free := rfl
@[simp] theorem setBid_pending (f : Option Bid) : (s.setBid k f).pending = s.pending := rfl

@[simp] theorem modChannel_clc (f : HwiChannel → HwiChannel) : (s.modChannel c f).clc = s.clc := rfl
@[simp] theorem modChannel_cfu (f : HwiChannel → HwiChannel) : (s.modChannel c f).cfu = s.cfu := rfl
@[simp] theorem modChannel_tcm (f : HwiChannel → HwiChannel) : (s.modChannel c f).tcm = s.tcm := rfl
@[simp] theorem modChannel_ctx (f : HwiChannel → HwiChannel) : (s.modChannel c f).ctx = s.ctx := rfl
@[simp] theorem modChannel_msc (f : HwiChannel → HwiChannel) : (s.modChannel c f).msc = s.msc := rfl
@[simp] theorem modChannel_rau (f : HwiChannel → HwiChannel) : (s.modChannel c f).rau = s.rau := rfl
@[simp] theorem modChannel_free (f : HwiChannel → HwiChannel) : (s.modChannel c f).free = s.free := rfl
@[simp] theorem modChannel_pending (f : HwiChannel → HwiChannel) : (s.modChannel c f).pending = s.pending := rfl

@[simp] theorem setOutbound_hwi (f : Option OutDeposit) : (s.setOutbound k f).hwi = s.hwi := rfl
@[simp] theorem setOutbound_clc (f : Option OutDeposit) : (s.setOutbound k f).clc = s.clc := rfl
@[simp] theorem setOutbound_cfu (f : Option OutDeposit) : (s.setOutbound k f).cfu = s.cfu := rfl
@[simp] theorem setOutbound_tcm (f : Option OutDeposit) : (s.setOutbound k f).tcm = s.tcm := rfl
@[simp] theorem setOutbound_ctx (f : Option OutDeposit) : (s.setOutbound k f).ctx = s.ctx := rfl
@[simp] theorem setOutbound_msc (f : Option OutDeposit) : (s.setOutbound k f).msc = s.msc := rfl
@[simp] theorem setOutbound_free (f : Option OutDeposit) : (s.setOutbound k f).free = s.free := rfl
@[simp] theorem setOutbound_pending (f : Option OutDeposit) : (s.setOutbound k f).pending = s.pending := rfl

@[simp] theorem setFetch_hwi (f : Option Fetch) : (s.setFetch k f).hwi = s.hwi := rfl
@[simp] theorem setFetch_clc (f : Option Fetch) : (s.setFetch k f).clc = s.clc := rfl
@[simp] theorem setFetch_cfu (f : Option Fetch) : (s.setFetch k f).cfu = s.cfu := rfl
@[simp] theorem setFetch_tcm (f : Option Fetch) : (s.setFetch k f).tcm = s.tcm := rfl
@[simp] theorem setFetch_ctx (f : Option Fetch) : (s.setFetch k f).ctx = s.ctx := rfl
@[simp] theorem setFetch_msc (f : Option Fetch) : (s.setFetch k f).msc = s.msc := rfl
@[simp] theorem setFetch_free (f : Option Fetch) : (s.setFetch k f).free = s.free := rfl
@[simp] theorem setFetch_pending (f : Option Fetch) : (s.setFetch k f).pending = s.pending := rfl

@[simp] theorem setMsg_hwi (f : Option Msg) : (s.setMsg h f).hwi = s.hwi := rfl
@[simp] theorem setMsg_clc (f : Option Msg) : (s.setMsg h f).clc = s.clc := rfl
@[simp] theorem setMsg_cfu (f : Option Msg) : (s.setMsg h f).cfu = s.cfu := rfl
@[simp] theorem setMsg_tcm (f : Option Msg) : (s.setMsg h f).tcm = s.tcm := rfl
@[simp] theorem setMsg_ctx (f : Option Msg) : (s.setMsg h f).ctx = s.ctx := rfl
@[simp] theorem setMsg_rau (f : Option Msg) : (s.setMsg h f).rau = s.rau := rfl
@[simp] theorem setMsg_free (f : Option Msg) : (s.setMsg h f).free = s.free := rfl
@[simp] theorem setMsg_pending (f : Option Msg) : (s.setMsg h f).pending = s.pending := rfl

@[simp] theorem at_modHwi (f : Hwi → Hwi) : (s.modHwi f).at k = s.at k := rfl
@[simp] theorem at_modClc (f : Clc → Clc) : (s.modClc f).at k = s.at k := rfl
@[simp] theorem at_modCfu (f : Cfu → Cfu) : (s.modCfu f).at k = s.at k := rfl
@[simp] theorem at_modTcm (f : Tcm → Tcm) : (s.modTcm f).at k = s.at k := rfl
@[simp] theorem at_modMsc (f : Msc → Msc) : (s.modMsc f).at k = s.at k := rfl
@[simp] theorem at_modRau (f : Rau → Rau) : (s.modRau f).at k = s.at k := rfl
@[simp] theorem at_modEntry (f : MapEntry → MapEntry) : (s.modEntry d f).at k = s.at k := rfl
@[simp] theorem at_setBid (f : Option Bid) : (s.setBid j f).at k = s.at k := rfl
@[simp] theorem at_modChannel (f : HwiChannel → HwiChannel) : (s.modChannel d f).at k = s.at k := rfl
@[simp] theorem at_setOutbound (f : Option OutDeposit) : (s.setOutbound j f).at k = s.at k := rfl
@[simp] theorem at_setFetch (f : Option Fetch) : (s.setFetch j f).at k = s.at k := rfl
@[simp] theorem at_setMsg (f : Option Msg) : (s.setMsg i f).at k = s.at k := rfl

@[simp] theorem entry_modHwi (f : Hwi → Hwi) : (s.modHwi f).entry c = s.entry c := rfl
@[simp] theorem entry_modClc (f : Clc → Clc) : (s.modClc f).entry c = s.entry c := rfl
@[simp] theorem entry_modCfu (f : Cfu → Cfu) : (s.modCfu f).entry c = s.entry c := rfl
@[simp] theorem entry_modMsc (f : Msc → Msc) : (s.modMsc f).entry c = s.entry c := rfl
@[simp] theorem entry_modRau (f : Rau → Rau) : (s.modRau f).entry c = s.entry c := rfl
@[simp] theorem entry_modCtx (f : Context → Context) : (s.modCtx j f).entry c = s.entry c := rfl
@[simp] theorem entry_modVoice (f : Voice → Voice) : (s.modVoice j f).entry c = s.entry c := rfl
@[simp] theorem entry_modVcd (f : Vcd → Vcd) : (s.modVcd j f).entry c = s.entry c := rfl
@[simp] theorem entry_modFax (f : Fax → Fax) : (s.modFax j f).entry c = s.entry c := rfl
@[simp] theorem entry_modQmn (f : Qmn → Qmn) : (s.modQmn j f).entry c = s.entry c := rfl
@[simp] theorem entry_modLkc (f : Lkc → Lkc) : (s.modLkc j f).entry c = s.entry c := rfl
@[simp] theorem entry_modPump (f : Pump → Pump) : (s.modPump j f).entry c = s.entry c := rfl
@[simp] theorem entry_modDetector (f : Detector → Detector) : (s.modDetector j f).entry c = s.entry c := rfl
@[simp] theorem entry_modDgn (f : Dgn → Dgn) : (s.modDgn j f).entry c = s.entry c := rfl
@[simp] theorem entry_modChannel (f : HwiChannel → HwiChannel) : (s.modChannel d f).entry c = s.entry c := rfl
@[simp] theorem entry_setOutbound (f : Option OutDeposit) : (s.setOutbound j f).entry c = s.entry c := rfl
@[simp] theorem entry_setFetch (f : Option Fetch) : (s.setFetch j f).entry c = s.entry c := rfl
@[simp] theorem entry_setMsg (f : Option Msg) : (s.setMsg i f).entry c = s.entry c := rfl

@[simp] theorem bid_modHwi (f : Hwi → Hwi) : (s.modHwi f).bid k = s.bid k := rfl
@[simp] theorem bid_modClc (f : Clc → Clc) : (s.modClc f).bid k = s.bid k := rfl
@[simp] theorem bid_modCfu (f : Cfu → Cfu) : (s.modCfu f).bid k = s.bid k := rfl
@[simp] theorem bid_modMsc (f : Msc → Msc) : (s.modMsc f).bid k = s.bid k := rfl
@[simp] theorem bid_modRau (f : Rau → Rau) : (s.modRau f).bid k = s.bid k := rfl
@[simp] theorem bid_modCtx (f : Context → Context) : (s.modCtx j f).bid k = s.bid k := rfl
@[simp] theorem bid_modVoice (f : Voice → Voice) : (s.modVoice j f).bid k = s.bid k := rfl
@[simp] theorem bid_modVcd (f : Vcd → Vcd) : (s.modVcd j f).bid k = s.bid k := rfl
@[simp] theorem bid_modFax (f : Fax → Fax) : (s.modFax j f).bid k = s.bid k := rfl
@[simp] theorem bid_modQmn (f : Qmn → Qmn) : (s.modQmn j f).bid k = s.bid k := rfl
@[simp] theorem bid_modLkc (f : Lkc → Lkc) : (s.modLkc j f).bid k = s.bid k := rfl
@[simp] theorem bid_modPump (f : Pump → Pump) : (s.modPump j f).bid k = s.bid k := rfl
@[simp] theorem bid_modDetector (f : Detector → Detector) : (s.modDetector j f).bid k = s.bid k := rfl
@[simp] theorem bid_modDgn (f : Dgn → Dgn) : (s.modDgn j f).bid k = s.bid k := rfl
@[simp] theorem bid_modChannel (f : HwiChannel → HwiChannel) : (s.modChannel d f).bid k = s.bid k := rfl
@[simp] theorem bid_setOutbound (f : Option OutDeposit) : (s.setOutbound j f).bid k = s.bid k := rfl
@[simp] theorem bid_setFetch (f : Option Fetch) : (s.setFetch j f).bid k = s.bid k := rfl
@[simp] theorem bid_setMsg (f : Option Msg) : (s.setMsg i f).bid k = s.bid k := rfl

@[simp] theorem outbound_modHwi (f : Hwi → Hwi) : (s.modHwi f).outbound k = s.outbound k := rfl
@[simp] theorem outbound_modClc (f : Clc → Clc) : (s.modClc f).outbound k = s.outbound k := rfl
@[simp] theorem outbound_modCfu (f : Cfu → Cfu) : (s.modCfu f).outbound k = s.outbound k := rfl
@[simp] theorem outbound_modTcm (f : Tcm → Tcm) : (s.modTcm f).outbound k = s.outbound k := rfl
@[simp] theorem outbound_modMsc (f : Msc → Msc) : (s.modMsc f).outbound k = s.outbound k := rfl
@[simp] theorem outbound_modCtx (f : Context → Context) : (s.modCtx j f).outbound k = s.outbound k := rfl
@[simp] theorem outbound_modVoice (f : Voice → Voice) : (s.modVoice j f).outbound k = s.outbound k := rfl
@[simp] theorem outbound_modVcd (f : Vcd → Vcd) : (s.modVcd j f).outbound k = s.outbound k := rfl
@[simp] theorem outbound_modFax (f : Fax → Fax) : (s.modFax j f).outbound k = s.outbound k := rfl
@[simp] theorem outbound_modQmn (f : Qmn → Qmn) : (s.modQmn j f).outbound k = s.outbound k := rfl
@[simp] theorem outbound_modLkc (f : Lkc → Lkc) : (s.modLkc j f).outbound k = s.outbound k := rfl
@[simp] theorem outbound_modPump (f : Pump → Pump) : (s.modPump j f).outbound k = s.outbound k := rfl
@[simp] theorem outbound_modDetector (f : Detector → Detector) : (s.modDetector j f).outbound k = s.outbound k := rfl
@[simp] theorem outbound_modDgn (f : Dgn → Dgn) : (s.modDgn j f).outbound k = s.outbound k := rfl
@[simp] theorem outbound_modEntry (f : MapEntry → MapEntry) : (s.modEntry d f).outbound k = s.outbound k := rfl
@[simp] theorem outbound_setBid (f : Option Bid) : (s.setBid j f).outbound k = s.outbound k := rfl
@[simp] theorem outbound_modChannel (f : HwiChannel → HwiChannel) : (s.modChannel d f).outbound k = s.outbound k := rfl
@[simp] theorem outbound_setMsg (f : Option Msg) : (s.setMsg i f).outbound k = s.outbound k := rfl

@[simp] theorem fetch_modHwi (f : Hwi → Hwi) : (s.modHwi f).fetch k = s.fetch k := rfl
@[simp] theorem fetch_modClc (f : Clc → Clc) : (s.modClc f).fetch k = s.fetch k := rfl
@[simp] theorem fetch_modCfu (f : Cfu → Cfu) : (s.modCfu f).fetch k = s.fetch k := rfl
@[simp] theorem fetch_modTcm (f : Tcm → Tcm) : (s.modTcm f).fetch k = s.fetch k := rfl
@[simp] theorem fetch_modMsc (f : Msc → Msc) : (s.modMsc f).fetch k = s.fetch k := rfl
@[simp] theorem fetch_modCtx (f : Context → Context) : (s.modCtx j f).fetch k = s.fetch k := rfl
@[simp] theorem fetch_modVoice (f : Voice → Voice) : (s.modVoice j f).fetch k = s.fetch k := rfl
@[simp] theorem fetch_modVcd (f : Vcd → Vcd) : (s.modVcd j f).fetch k = s.fetch k := rfl
@[simp] theorem fetch_modFax (f : Fax → Fax) : (s.modFax j f).fetch k = s.fetch k := rfl
@[simp] theorem fetch_modQmn (f : Qmn → Qmn) : (s.modQmn j f).fetch k = s.fetch k := rfl
@[simp] theorem fetch_modLkc (f : Lkc → Lkc) : (s.modLkc j f).fetch k = s.fetch k := rfl
@[simp] theorem fetch_modPump (f : Pump → Pump) : (s.modPump j f).fetch k = s.fetch k := rfl
@[simp] theorem fetch_modDetector (f : Detector → Detector) : (s.modDetector j f).fetch k = s.fetch k := rfl
@[simp] theorem fetch_modDgn (f : Dgn → Dgn) : (s.modDgn j f).fetch k = s.fetch k := rfl
@[simp] theorem fetch_modEntry (f : MapEntry → MapEntry) : (s.modEntry d f).fetch k = s.fetch k := rfl
@[simp] theorem fetch_setBid (f : Option Bid) : (s.setBid j f).fetch k = s.fetch k := rfl
@[simp] theorem fetch_modChannel (f : HwiChannel → HwiChannel) : (s.modChannel d f).fetch k = s.fetch k := rfl
@[simp] theorem fetch_setMsg (f : Option Msg) : (s.setMsg i f).fetch k = s.fetch k := rfl

@[simp] theorem msg_modHwi (f : Hwi → Hwi) : (s.modHwi f).msg h = s.msg h := rfl
@[simp] theorem msg_modClc (f : Clc → Clc) : (s.modClc f).msg h = s.msg h := rfl
@[simp] theorem msg_modCfu (f : Cfu → Cfu) : (s.modCfu f).msg h = s.msg h := rfl
@[simp] theorem msg_modTcm (f : Tcm → Tcm) : (s.modTcm f).msg h = s.msg h := rfl
@[simp] theorem msg_modRau (f : Rau → Rau) : (s.modRau f).msg h = s.msg h := rfl
@[simp] theorem msg_modCtx (f : Context → Context) : (s.modCtx j f).msg h = s.msg h := rfl
@[simp] theorem msg_modVoice (f : Voice → Voice) : (s.modVoice j f).msg h = s.msg h := rfl
@[simp] theorem msg_modVcd (f : Vcd → Vcd) : (s.modVcd j f).msg h = s.msg h := rfl
@[simp] theorem msg_modFax (f : Fax → Fax) : (s.modFax j f).msg h = s.msg h := rfl
@[simp] theorem msg_modQmn (f : Qmn → Qmn) : (s.modQmn j f).msg h = s.msg h := rfl
@[simp] theorem msg_modLkc (f : Lkc → Lkc) : (s.modLkc j f).msg h = s.msg h := rfl
@[simp] theorem msg_modPump (f : Pump → Pump) : (s.modPump j f).msg h = s.msg h := rfl
@[simp] theorem msg_modDetector (f : Detector → Detector) : (s.modDetector j f).msg h = s.msg h := rfl
@[simp] theorem msg_modDgn (f : Dgn → Dgn) : (s.modDgn j f).msg h = s.msg h := rfl
@[simp] theorem msg_modEntry (f : MapEntry → MapEntry) : (s.modEntry d f).msg h = s.msg h := rfl
@[simp] theorem msg_setBid (f : Option Bid) : (s.setBid j f).msg h = s.msg h := rfl
@[simp] theorem msg_modChannel (f : HwiChannel → HwiChannel) : (s.modChannel d f).msg h = s.msg h := rfl
@[simp] theorem msg_setOutbound (f : Option OutDeposit) : (s.setOutbound j f).msg h = s.msg h := rfl
@[simp] theorem msg_setFetch (f : Option Fetch) : (s.setFetch j f).msg h = s.msg h := rfl

@[simp] theorem entry_setBid (b : Option Bid) : (s.setBid k b).entry c = s.entry c := rfl
@[simp] theorem bid_modEntry (f : MapEntry → MapEntry) : (s.modEntry c f).bid k = s.bid k := rfl
@[simp] theorem outbound_setFetch (f : Option Fetch) : (s.setFetch j f).outbound k = s.outbound k := rfl
@[simp] theorem fetch_setOutbound (d : Option OutDeposit) : (s.setOutbound j d).fetch k = s.fetch k := rfl

/-! A write and a reading of the same bank. -/

@[simp] theorem at_modCtx (f : Context → Context) : (s.modCtx k f).at k = f (s.at k) := by
  simp [State.modCtx, State.at]
@[simp] theorem at_modCtx_ne (f : Context → Context) (e : j ≠ k) : (s.modCtx k f).at j = s.at j := by
  simp [State.modCtx, State.at, e]
@[simp] theorem entry_modEntry (f : MapEntry → MapEntry) : (s.modEntry c f).entry c = f (s.entry c) := by
  simp [State.modEntry, State.entry]
@[simp] theorem entry_modEntry_ne (f : MapEntry → MapEntry) (e : d ≠ c) : (s.modEntry c f).entry d = s.entry d := by
  simp [State.modEntry, State.entry, e]
@[simp] theorem bid_setBid (b : Option Bid) : (s.setBid k b).bid k = b := by simp [State.setBid, State.bid]
@[simp] theorem bid_setBid_ne (b : Option Bid) (e : j ≠ k) : (s.setBid k b).bid j = s.bid j := by
  simp [State.setBid, State.bid, e]
@[simp] theorem outbound_setOutbound (d : Option OutDeposit) : (s.setOutbound k d).outbound k = d := by
  simp [State.setOutbound, State.outbound]
@[simp] theorem outbound_setOutbound_ne (d : Option OutDeposit) (e : j ≠ k) :
    (s.setOutbound k d).outbound j = s.outbound j := by simp [State.setOutbound, State.outbound, e]
@[simp] theorem fetch_setFetch (f : Option Fetch) : (s.setFetch k f).fetch k = f := by
  simp [State.setFetch, State.fetch]
@[simp] theorem fetch_setFetch_ne (f : Option Fetch) (e : j ≠ k) : (s.setFetch k f).fetch j = s.fetch j := by
  simp [State.setFetch, State.fetch, e]
@[simp] theorem msg_setMsg (m : Option Msg) : (s.setMsg h m).msg h = m := by simp [State.setMsg, State.msg]
@[simp] theorem msg_setMsg_ne (m : Option Msg) (e : i ≠ h) : (s.setMsg h m).msg i = s.msg i := by
  simp [State.setMsg, State.msg, e]
@[simp] theorem at_modVoice (f : Voice → Voice) : (s.modVoice k f).at k = { s.at k with voice := f (s.at k).voice } := by
  simp [State.modVoice]
@[simp] theorem at_modVoice_ne (f : Voice → Voice) (e : j ≠ k) : (s.modVoice k f).at j = s.at j := by
  simp [State.modVoice, e]
@[simp] theorem at_modVcd (f : Vcd → Vcd) : (s.modVcd k f).at k = { s.at k with vcd := f (s.at k).vcd } := by
  simp [State.modVcd]
@[simp] theorem at_modVcd_ne (f : Vcd → Vcd) (e : j ≠ k) : (s.modVcd k f).at j = s.at j := by
  simp [State.modVcd, e]
@[simp] theorem at_modFax (f : Fax → Fax) : (s.modFax k f).at k = { s.at k with fax := f (s.at k).fax } := by
  simp [State.modFax]
@[simp] theorem at_modFax_ne (f : Fax → Fax) (e : j ≠ k) : (s.modFax k f).at j = s.at j := by
  simp [State.modFax, e]
@[simp] theorem at_modQmn (f : Qmn → Qmn) : (s.modQmn k f).at k = { s.at k with qmn := f (s.at k).qmn } := by
  simp [State.modQmn]
@[simp] theorem at_modQmn_ne (f : Qmn → Qmn) (e : j ≠ k) : (s.modQmn k f).at j = s.at j := by
  simp [State.modQmn, e]
@[simp] theorem at_modLkc (f : Lkc → Lkc) : (s.modLkc k f).at k = { s.at k with lkc := f (s.at k).lkc } := by
  simp [State.modLkc]
@[simp] theorem at_modLkc_ne (f : Lkc → Lkc) (e : j ≠ k) : (s.modLkc k f).at j = s.at j := by
  simp [State.modLkc, e]
@[simp] theorem at_modPump (f : Pump → Pump) : (s.modPump k f).at k = { s.at k with pump := f (s.at k).pump } := by
  simp [State.modPump]
@[simp] theorem at_modPump_ne (f : Pump → Pump) (e : j ≠ k) : (s.modPump k f).at j = s.at j := by
  simp [State.modPump, e]
@[simp] theorem at_modDetector (f : Detector → Detector) : (s.modDetector k f).at k = { s.at k with detector := f (s.at k).detector } := by
  simp [State.modDetector]
@[simp] theorem at_modDetector_ne (f : Detector → Detector) (e : j ≠ k) : (s.modDetector k f).at j = s.at j := by
  simp [State.modDetector, e]
@[simp] theorem at_modDgn (f : Dgn → Dgn) : (s.modDgn k f).at k = { s.at k with dgn := f (s.at k).dgn } := by
  simp [State.modDgn]
@[simp] theorem at_modDgn_ne (f : Dgn → Dgn) (e : j ≠ k) : (s.modDgn k f).at j = s.at j := by
  simp [State.modDgn, e]

end

end Sys2Proof.Machine
end

