-- ==== Sys2Proof/Laws/Apart.lean ====
section
/-! SUPPORT. What an operation about one context leaves alone: the records of the other contexts, and what their
deposits and fetches are still to be told. -/
namespace Sys2Proof.Machine

/-- What stands between a state and a later one that only concerns context k. -/
structure Apart (k : ContextId) (s t : State) : Prop where
  ctx : ∀ j, j ≠ k → t.at j = s.at j
  notices : (∀ x ∈ s.rau.notices, x.context = k) → ∀ x ∈ t.rau.notices, x.context = k

namespace Apart

variable {k : ContextId} {s0 s t : State}

theorem refl (k : ContextId) (s : State) : Apart k s s := ⟨fun _ _ => rfl, fun h => h⟩

theorem trans (h : Apart k s0 s) (g : Apart k s t) : Apart k s0 t :=
  ⟨fun j e => (g.ctx j e).trans (h.ctx j e), fun n => g.notices (h.notices n)⟩

/-- Nobody is told of a cell that no record waits for. -/
theorem nobody : ∀ j ∈ (none : Option ContextId), j = k := fun _ h => nomatch h

theorem own : ∀ j ∈ some k, j = k := fun _ h => (Option.some.inj h).symm

/-- The state of a pair that an operation answers. -/
theorem of_eq {α : Type} {p : State × α} {a : α} (e : p = (t, a)) (h : Apart k s0 p.1) : Apart k s0 t := by
  subst e; exact h

/-- A fold of operations that concern only the context. -/
theorem forEach {α : Type} {xs : List α} {f : α → State → State} (h : Apart k s0 s)
    (hf : ∀ x t, Apart k s0 t → Apart k s0 (f x t)) : Apart k s0 (Machine.forEach xs f s) := by
  unfold Machine.forEach
  induction xs generalizing s with
  | nil => exact h
  | cons x xs ih => exact ih (hf x s h)

theorem modHwi {f : Hwi → Hwi} (h : Apart k s0 s) : Apart k s0 (s.modHwi f) := h.trans ⟨fun _ _ => rfl, fun h => h⟩
theorem modClc {f : Clc → Clc} (h : Apart k s0 s) : Apart k s0 (s.modClc f) := h.trans ⟨fun _ _ => rfl, fun h => h⟩
theorem modCfu {f : Cfu → Cfu} (h : Apart k s0 s) : Apart k s0 (s.modCfu f) := h.trans ⟨fun _ _ => rfl, fun h => h⟩
theorem modTcm {f : Tcm → Tcm} (h : Apart k s0 s) : Apart k s0 (s.modTcm f) := h.trans ⟨fun _ _ => rfl, fun h => h⟩
theorem modMsc {f : Msc → Msc} (h : Apart k s0 s) : Apart k s0 (s.modMsc f) := h.trans ⟨fun _ _ => rfl, fun h => h⟩
theorem modRau {f : Rau → Rau} (h : Apart k s0 s) (hf : (f s.rau).notices = s.rau.notices) : Apart k s0 (s.modRau f) :=
  h.trans ⟨fun _ _ => rfl, fun h => by simpa [hf] using h⟩
theorem modCtx {f : Context → Context} (h : Apart k s0 s) : Apart k s0 (s.modCtx k f) :=
  h.trans ⟨fun _ e => Bank.get_modify_ne _ _ _ _ e, fun h => h⟩
theorem modVoice {f : Voice → Voice} (h : Apart k s0 s) : Apart k s0 (s.modVoice k f) := h.modCtx
theorem modVcd {f : Vcd → Vcd} (h : Apart k s0 s) : Apart k s0 (s.modVcd k f) := h.modCtx
theorem modFax {f : Fax → Fax} (h : Apart k s0 s) : Apart k s0 (s.modFax k f) := h.modCtx
theorem modQmn {f : Qmn → Qmn} (h : Apart k s0 s) : Apart k s0 (s.modQmn k f) := h.modCtx
theorem modLkc {f : Lkc → Lkc} (h : Apart k s0 s) : Apart k s0 (s.modLkc k f) := h.modCtx
theorem modPump {f : Pump → Pump} (h : Apart k s0 s) : Apart k s0 (s.modPump k f) := h.modCtx
theorem modDetector {f : Detector → Detector} (h : Apart k s0 s) : Apart k s0 (s.modDetector k f) := h.modCtx
theorem modDgn {f : Dgn → Dgn} (h : Apart k s0 s) : Apart k s0 (s.modDgn k f) := h.modCtx
theorem modEntry {c : Channel} {f : MapEntry → MapEntry} (h : Apart k s0 s) : Apart k s0 (s.modEntry c f) := h.trans ⟨fun _ _ => rfl, fun h => h⟩
theorem setBid {b : Option Bid} (h : Apart k s0 s) : Apart k s0 (s.setBid k b) := h.trans ⟨fun _ _ => rfl, fun h => h⟩
theorem modChannel {c : Channel} {f : HwiChannel → HwiChannel} (h : Apart k s0 s) : Apart k s0 (s.modChannel c f) := h.trans ⟨fun _ _ => rfl, fun h => h⟩
theorem setOutbound {d : Option OutDeposit} (h : Apart k s0 s) : Apart k s0 (s.setOutbound k d) := h.trans ⟨fun _ _ => rfl, fun h => h⟩
theorem setFetch {f : Option Fetch} (h : Apart k s0 s) : Apart k s0 (s.setFetch k f) := h.trans ⟨fun _ _ => rfl, fun h => h⟩
theorem setMsg {i : Handle} {m : Option Msg} (h : Apart k s0 s) : Apart k s0 (s.setMsg i m) := h.trans ⟨fun _ _ => rfl, fun h => h⟩
theorem setMsgAt {i : Nat} {m : Option Msg} (h : Apart k s0 s) : Apart k s0 (s.setMsgAt i m) := by
  unfold State.setMsgAt
  split
  · exact h.setMsg
  · exact h

end Apart

end Sys2Proof.Machine
end

