-- ==== Sys2Proof/Laws/ApartSession.lean ====
section
/-! SUPPORT. What the operations about one context leave alone. -/
namespace Sys2Proof.Machine

/-! ### Machine/Clc.lean -/

theorem apart_enqueue {s0 s : State} {i : ContextId} {c : Cell} {serial : Nat} (kp : Apart i s0 s) :
    Apart i s0 (enqueue c serial s) :=
  kp.modClc

theorem apart_countUndelivered {s0 s : State} {i : ContextId} (kp : Apart i s0 s) : Apart i s0 (countUndelivered s) :=
  kp.modClc

theorem apart_countBadCheck {s0 s : State} {i : ContextId} (kp : Apart i s0 s) : Apart i s0 (countBadCheck s) :=
  kp.modClc

theorem apart_countLostReport {s0 s : State} {i : ContextId} (kp : Apart i s0 s) : Apart i s0 (countLostReport s) :=
  kp.modCfu

theorem apart_offerReport {s0 s : State} {i : ContextId} {c : Cell} (kp : Apart i s0 s) :
    Apart i s0 (offerReport c s) := by
  unfold offerReport
  try dsimp only
  repeat' (first
    | with_reducible assumption | with_reducible apply apart_countLostReport | with_reducible apply apart_enqueue
    | exact Apart.nobody | exact Apart.own | (refine Apart.of_eq ‹_ = (_, _)› ?_) | (dsimp only) | split)

/-- A refused cell is told to no other context (R29). -/
theorem apart_offerOther {i : ContextId} {s0 s : State} {c : Cell} {serial : Nat} {tellTo : Option ContextId}
    (kp : Apart i s0 s) (ht : ∀ j ∈ tellTo, j = i) : Apart i s0 (offerOther c serial tellTo s) := by
  unfold offerOther
  split
  · exact apart_enqueue kp
  · dsimp only
    split
    · next j =>
      refine (apart_countUndelivered kp).trans ⟨fun _ _ => rfl, fun h x hx => ?_⟩
      simp only [modRau_rau, List.mem_append, List.mem_singleton] at hx
      rcases hx with hx | rfl
      · exact h x hx
      · exact ht j rfl
    · exact apart_countUndelivered kp

theorem apart_offerStream {s0 s : State} {i : ContextId} {p : StreamProducer} {c : Cell} (kp : Apart i s0 s) :
    Apart i s0 (offerStream p c s).1 := by
  unfold offerStream
  try dsimp only
  repeat' (first
    | with_reducible assumption | with_reducible apply apart_enqueue | with_reducible apply Apart.modClc
    | exact Apart.nobody | exact Apart.own | (refine Apart.of_eq ‹_ = (_, _)› ?_) | (dsimp only) | split)

theorem apart_sendEvent {s0 s : State} {i : ContextId} {k : Option ContextId} {e : Event} (kp : Apart i s0 s) :
    Apart i s0 (sendEvent k e s) := by
  unfold sendEvent
  try dsimp only
  repeat' (first
    | with_reducible assumption | with_reducible apply apart_offerReport)

theorem apart_sendAnswerWith {s0 s : State} {i : ContextId} {request : Cell} {result : Byte} {third : Byte} {fourth : Byte} (kp : Apart i s0 s) :
    Apart i s0 (sendAnswerWith request result third fourth s) := by
  unfold sendAnswerWith
  try dsimp only
  repeat' (first
    | with_reducible assumption | with_reducible apply apart_offerReport)

theorem apart_sendAnswer {s0 s : State} {i : ContextId} {request : Cell} {result : Byte} (kp : Apart i s0 s) :
    Apart i s0 (sendAnswer request result s) := by
  unfold sendAnswer
  try dsimp only
  repeat' (first
    | with_reducible assumption | with_reducible apply apart_sendAnswerWith)

theorem apart_sendRelease {s0 s : State} {i : ContextId} {c : Channel} (kp : Apart i s0 s) :
    Apart i s0 (sendRelease c s) := by
  unfold sendRelease
  try dsimp only
  repeat' (first
    | with_reducible assumption | with_reducible apply apart_offerOther | exact Apart.nobody)

theorem apart_writeFault {s0 s : State} {i : ContextId} {kind : FaultKind} {subject : Nat} (kp : Apart i s0 s) :
    Apart i s0 (writeFault kind subject s) := by
  unfold writeFault
  try dsimp only
  repeat' (first
    | with_reducible assumption | with_reducible apply apart_sendEvent | with_reducible apply Apart.modCfu
    | exact Apart.nobody | exact Apart.own | (refine Apart.of_eq ‹_ = (_, _)› ?_) | (dsimp only) | split)

/-! ### Machine/Store.lean -/

theorem apart_examineLevel {s0 s : State} {i : ContextId} (kp : Apart i s0 s) :
    Apart i s0 (examineLevel s) := by
  unfold examineLevel
  try dsimp only
  repeat' (first
    | with_reducible assumption | with_reducible apply apart_sendEvent | with_reducible apply Apart.modMsc
    | exact Apart.nobody | exact Apart.own | (refine Apart.of_eq ‹_ = (_, _)› ?_) | (dsimp only) | split)

theorem apart_freeBlocks {s0 s : State} {i : ContextId} {bs : List Nat} (kp : Apart i s0 s) :
    Apart i s0 (freeBlocks bs s) := by
  unfold freeBlocks
  try dsimp only
  repeat' (first
    | with_reducible assumption | with_reducible apply apart_examineLevel | with_reducible apply Apart.modMsc
    | exact Apart.nobody | exact Apart.own | (refine Apart.of_eq ‹_ = (_, _)› ?_) | (dsimp only) | split)

theorem apart_takeFreeBlock {s0 s : State} {i : ContextId} (kp : Apart i s0 s) :
    Apart i s0 (takeFreeBlock s) := by
  unfold takeFreeBlock
  try dsimp only
  repeat' (first
    | with_reducible assumption | with_reducible apply apart_examineLevel | with_reducible apply Apart.modMsc)

theorem apart_setLink {s0 s : State} {i : ContextId} {n : Nat} {v : Option Nat} (kp : Apart i s0 s) :
    Apart i s0 (setLink n v s) :=
  kp.modMsc

theorem apart_modMailbox {s0 s : State} {i : ContextId} {m : Nat} {f : Mbx → Mbx} (kp : Apart i s0 s) :
    Apart i s0 (modMailbox m f s) := by
  unfold modMailbox
  try dsimp only
  repeat' (first
    | with_reducible assumption | with_reducible apply Apart.modMsc)

theorem apart_freeMessage {s0 s : State} {i : ContextId} {h : Nat} (kp : Apart i s0 s) :
    Apart i s0 (freeMessage h s) := by
  unfold freeMessage
  try dsimp only
  repeat' (first
    | with_reducible assumption | with_reducible apply apart_freeBlocks | with_reducible apply Apart.setMsgAt
    | exact Apart.nobody | exact Apart.own | (refine Apart.of_eq ‹_ = (_, _)› ?_) | (dsimp only) | split)

theorem apart_unlistMessage {s0 s : State} {i : ContextId} {mailbox : Nat} {h : Nat} (kp : Apart i s0 s) :
    Apart i s0 (unlistMessage mailbox h s) := by
  unfold unlistMessage
  try dsimp only
  repeat' (first
    | with_reducible assumption | with_reducible apply apart_modMailbox)

theorem apart_deleteRecord {s0 s : State} {i : ContextId} {h : Nat} (kp : Apart i s0 s) :
    Apart i s0 (deleteRecord h s) := by
  unfold deleteRecord
  try dsimp only
  repeat' (first
    | with_reducible assumption | with_reducible apply apart_freeMessage
    | with_reducible apply Apart.setMsgAt | exact Apart.nobody | exact Apart.own
    | (refine Apart.of_eq ‹_ = (_, _)› ?_) | (dsimp only) | split)

theorem apart_deleteMessage {s0 s : State} {i : ContextId} {h : Nat} (kp : Apart i s0 s) :
    Apart i s0 (deleteMessage h s) := by
  unfold deleteMessage
  try dsimp only
  repeat' (first
    | with_reducible assumption | with_reducible apply apart_deleteRecord | with_reducible apply apart_unlistMessage | with_reducible apply apart_freeMessage
    | with_reducible apply Apart.setMsgAt | exact Apart.nobody | exact Apart.own
    | (refine Apart.of_eq ‹_ = (_, _)› ?_) | (dsimp only) | split)

theorem apart_openForWriting {s0 s : State} {i : ContextId} {mailbox : Nat} {kind : Option MsgKind} {w : Writer} (kp : Apart i s0 s) :
    Apart i s0 (openForWriting mailbox kind w s).1 := by
  unfold openForWriting
  try dsimp only
  repeat' (first
    | with_reducible assumption | with_reducible apply apart_modMailbox | with_reducible apply Apart.setMsgAt
    | exact Apart.nobody | exact Apart.own | (refine Apart.of_eq ‹_ = (_, _)› ?_) | (dsimp only) | split)

theorem apart_cutChain {s0 s : State} {i : ContextId} {h : Nat} {n : Nat} (kp : Apart i s0 s) :
    Apart i s0 (cutChain h n s) := by
  unfold cutChain
  try dsimp only
  repeat' (first
    | with_reducible assumption | with_reducible apply apart_setLink | with_reducible apply apart_freeBlocks
    | with_reducible apply Apart.setMsgAt | exact Apart.nobody | exact Apart.own
    | (refine Apart.of_eq ‹_ = (_, _)› ?_) | (dsimp only) | split)

theorem apart_discardMessage {s0 s : State} {i : ContextId} {h : Nat} {m : Msg} (kp : Apart i s0 s) :
    Apart i s0 (discardMessage h m s) := by
  unfold discardMessage
  try dsimp only
  repeat' (first
    | with_reducible assumption | with_reducible apply apart_freeMessage | with_reducible apply apart_modMailbox)

theorem apart_fileMessage {s0 s : State} {i : ContextId} {h : Nat} {m : Msg} (kp : Apart i s0 s) :
    Apart i s0 (fileMessage h m s) := by
  unfold fileMessage
  try dsimp only
  repeat' (first
    | with_reducible assumption | with_reducible apply apart_deleteMessage | with_reducible apply apart_modMailbox
    | exact Apart.nobody | exact Apart.own | (refine Apart.of_eq ‹_ = (_, _)› ?_) | (dsimp only) | split)

theorem apart_closeRecord {s0 s : State} {i : ContextId} {h : Nat} (kp : Apart i s0 s) :
    Apart i s0 (closeRecord h s) := by
  unfold closeRecord
  try dsimp only
  repeat' (first
    | with_reducible assumption | with_reducible apply Apart.setMsgAt | exact Apart.nobody
    | exact Apart.own | (refine Apart.of_eq ‹_ = (_, _)› ?_) | (dsimp only) | split)

theorem apart_closeMessage {s0 s : State} {i : ContextId} {h : Nat} {reason : Byte} (kp : Apart i s0 s) :
    Apart i s0 (closeMessage h reason s).1 := by
  unfold closeMessage
  try dsimp only
  repeat' (first
    | with_reducible assumption | with_reducible apply apart_closeRecord | with_reducible apply apart_fileMessage
    | with_reducible apply apart_discardMessage | with_reducible apply apart_cutChain
    | with_reducible apply apart_sendEvent | with_reducible apply Apart.setMsgAt | exact Apart.nobody
    | exact Apart.own | (refine Apart.of_eq ‹_ = (_, _)› ?_) | (dsimp only) | split)

theorem apart_closeBy {s0 s : State} {i : ContextId} {h : Nat} {w : Writer} {reason : Byte} (kp : Apart i s0 s) :
    Apart i s0 (closeBy h w reason s).1 := by
  unfold closeBy
  try dsimp only
  repeat' (first
    | with_reducible assumption | with_reducible apply apart_closeMessage | exact Apart.nobody | exact Apart.own
    | (refine Apart.of_eq ‹_ = (_, _)› ?_) | (dsimp only) | split)

theorem apart_writeData {s0 s : State} {i : ContextId} {n : Nat} {block : List Byte} (kp : Apart i s0 s) :
    Apart i s0 (writeData n block s) := by
  unfold writeData
  try dsimp only
  repeat' (first
    | with_reducible assumption | with_reducible apply Apart.modMsc
    | with_reducible apply Apart.setMsgAt | exact Apart.nobody | exact Apart.own
    | (refine Apart.of_eq ‹_ = (_, _)› ?_) | (dsimp only) | split)

theorem apart_appendBlock {s0 s : State} {i : ContextId} {h : Nat} {w : Writer} {block : List Byte} {samples : Nat} (kp : Apart i s0 s) :
    Apart i s0 (appendBlock h w block samples s).1 := by
  unfold appendBlock
  try dsimp only
  repeat' (first
    | with_reducible assumption | with_reducible apply apart_writeData | with_reducible apply apart_closeMessage | with_reducible apply apart_setLink
    | with_reducible apply apart_takeFreeBlock | with_reducible apply Apart.modMsc
    | with_reducible apply Apart.setMsgAt | exact Apart.nobody | exact Apart.own
    | (refine Apart.of_eq ‹_ = (_, _)› ?_) | (dsimp only) | split)

theorem apart_endPage {s0 s : State} {i : ContextId} {h : Nat} {w : Writer} {damaged : Bool} (kp : Apart i s0 s) :
    Apart i s0 (endPage h w damaged s).1 := by
  unfold endPage
  try dsimp only
  repeat' (first
    | with_reducible assumption | with_reducible apply Apart.setMsgAt | exact Apart.nobody | exact Apart.own
    | (refine Apart.of_eq ‹_ = (_, _)› ?_) | (dsimp only) | split)

theorem apart_rollBack {s0 s : State} {i : ContextId} {h : Nat} {w : Writer} (kp : Apart i s0 s) :
    Apart i s0 (rollBack h w s).1 := by
  unfold rollBack
  try dsimp only
  repeat' (first
    | with_reducible assumption | with_reducible apply apart_cutChain | exact Apart.nobody | exact Apart.own
    | (refine Apart.of_eq ‹_ = (_, _)› ?_) | (dsimp only) | split)

theorem apart_touchReader {s0 s : State} {i : ContextId} {h : Nat} {station : Fin 8} {context : Nat} (kp : Apart i s0 s) :
    Apart i s0 (touchReader h station context s) := by
  unfold touchReader
  try dsimp only
  repeat' (first
    | with_reducible assumption | with_reducible apply Apart.setMsgAt | exact Apart.nobody | exact Apart.own
    | (refine Apart.of_eq ‹_ = (_, _)› ?_) | (dsimp only) | split)

theorem apart_readOpenHandle {s0 s : State} {i : ContextId} {h : Nat} {station : Fin 8} {context : Nat} (kp : Apart i s0 s) :
    Apart i s0 (readOpenHandle h station context s).1 := by
  unfold readOpenHandle
  try dsimp only
  repeat' (first
    | with_reducible assumption | with_reducible apply apart_touchReader | with_reducible apply Apart.setMsgAt
    | exact Apart.nobody | exact Apart.own | (refine Apart.of_eq ‹_ = (_, _)› ?_) | (dsimp only) | split)

theorem apart_readOpen {s0 s : State} {i : ContextId} {what : PlayTarget} {station : Fin 8} {context : Nat} (kp : Apart i s0 s) :
    Apart i s0 (readOpen what station context s).1 := by
  unfold readOpen
  try dsimp only
  repeat' (first
    | with_reducible assumption | with_reducible apply apart_readOpenHandle | exact Apart.nobody | exact Apart.own
    | (refine Apart.of_eq ‹_ = (_, _)› ?_) | (dsimp only) | split)

theorem apart_readBlockFor {s0 s : State} {i : ContextId} {h : Nat} {station : Fin 8} {context : Nat} {b : Nat} (kp : Apart i s0 s) :
    Apart i s0 (readBlockFor h station context b s).1 := by
  unfold readBlockFor
  try dsimp only
  repeat' (first
    | with_reducible assumption | with_reducible apply apart_touchReader | exact Apart.nobody | exact Apart.own
    | (refine Apart.of_eq ‹_ = (_, _)› ?_) | (dsimp only) | split)

theorem apart_leaveMessage {s0 s : State} {i : ContextId} {h : Nat} {station : Fin 8} {context : Nat} (kp : Apart i s0 s) :
    Apart i s0 (leaveMessage h station context s) := by
  unfold leaveMessage
  try dsimp only
  repeat' (first
    | with_reducible assumption | with_reducible apply apart_freeMessage | with_reducible apply Apart.setMsgAt
    | exact Apart.nobody | exact Apart.own | (refine Apart.of_eq ‹_ = (_, _)› ?_) | (dsimp only) | split)

theorem apart_markMessage {s0 s : State} {i : ContextId} {h : Nat} {mark : Option Mark} (kp : Apart i s0 s) :
    Apart i s0 (markMessage h mark s).1 := by
  unfold markMessage
  try dsimp only
  repeat' (first
    | with_reducible assumption | with_reducible apply apart_deleteMessage | with_reducible apply Apart.setMsgAt
    | exact Apart.nobody | exact Apart.own | (refine Apart.of_eq ‹_ = (_, _)› ?_) | (dsimp only) | split)

/-! ### Machine/Remote.lean -/

theorem apart_newSerial {i : ContextId} {s0 s : State} (kp : Apart i s0 s) : Apart i s0 (newSerial s).1 :=
  kp.trans ⟨fun _ _ => rfl, fun h => h⟩

theorem apart_releaseHeld {s0 s : State} {i : ContextId} {p : StreamProducer} (kp : Apart i s0 s) :
    Apart i s0 (releaseHeld p s) :=
  kp.modClc

theorem apart_startDeposit {s0 s : State} {k : ContextId} {home : Nat} {mailbox : Nat} {kind : MsgKind} (kp : Apart k s0 s) :
    Apart k s0 (startDeposit k home mailbox kind s).1 := by
  unfold startDeposit
  try dsimp only
  repeat' (first
    | with_reducible assumption | with_reducible apply apart_newSerial | with_reducible apply apart_offerOther
    | with_reducible apply Apart.setOutbound | exact Apart.nobody | exact Apart.own)

theorem apart_offerFirst {s0 s t : State} {k : ContextId} {d : OutDeposit} {cells : List Cell} (kp : Apart k s0 s)
    (e : depositMove.offerFirst k s d cells = some t) : Apart k s0 t := by
  unfold depositMove.offerFirst at e
  split at e
  · cases e
  · split at e
    · cases e
    · dsimp only at e
      split at e
      · cases e
        exact (apart_offerStream kp).setOutbound
      · cases e
        exact apart_offerStream kp

theorem apart_depositMove {s0 s t : State} {k : ContextId} (kp : Apart k s0 s) (e : depositMove k s = some t) :
    Apart k s0 t := by
  unfold depositMove at e
  repeat' split at e
  all_goals first
    | cases e; done
    | exact apart_offerFirst kp e
    | (cases e; exact kp.setOutbound)
    | (cases e; exact apart_offerOther kp.setOutbound Apart.own)

theorem apart_depositMoves {s0 s : State} {k : ContextId} {n : Nat} (kp : Apart k s0 s) :
    Apart k s0 (depositMoves k n s) := by
  induction n generalizing s with
  | zero => exact kp
  | succ n ih =>
    unfold depositMoves
    split
    · next e => exact ih (apart_depositMove kp e)
    · exact kp

theorem apart_pumpDeposit {s0 s : State} {k : ContextId} (kp : Apart k s0 s) :
    Apart k s0 (pumpDeposit k s) := by
  unfold pumpDeposit
  try dsimp only
  repeat' (first
    | with_reducible assumption | with_reducible apply apart_depositMoves)

theorem apart_handToDeposit {s0 s : State} {k : ContextId} {serial : Nat} {sequence : Option Nat} {block : List Byte} {pageEnd : Bool} {damaged : Bool} (kp : Apart k s0 s) :
    Apart k s0 (handToDeposit k serial sequence block pageEnd damaged s) := by
  unfold handToDeposit
  try dsimp only
  repeat' (first
    | with_reducible assumption | with_reducible apply apart_pumpDeposit | with_reducible apply Apart.setOutbound
    | exact Apart.nobody | exact Apart.own | (refine Apart.of_eq ‹_ = (_, _)› ?_) | (dsimp only) | split)

theorem apart_askRollback {s0 s : State} {k : ContextId} {serial : Nat} {page : Nat} (kp : Apart k s0 s) :
    Apart k s0 (askRollback k serial page s) := by
  unfold askRollback
  try dsimp only
  repeat' (first
    | with_reducible assumption | with_reducible apply apart_pumpDeposit | with_reducible apply Apart.setOutbound
    | exact Apart.nobody | exact Apart.own | (refine Apart.of_eq ‹_ = (_, _)› ?_) | (dsimp only) | split)

theorem apart_askClose {s0 s : State} {k : ContextId} {serial : Nat} {ask : CloseAsk} (kp : Apart k s0 s) :
    Apart k s0 (askClose k serial ask s) := by
  unfold askClose
  try dsimp only
  repeat' (first
    | with_reducible assumption | with_reducible apply apart_pumpDeposit | with_reducible apply Apart.setOutbound
    | exact Apart.nobody | exact Apart.own | (refine Apart.of_eq ‹_ = (_, _)› ?_) | (dsimp only) | split)

theorem apart_freeDeposit {s0 s : State} {k : ContextId} (kp : Apart k s0 s) :
    Apart k s0 (freeDeposit k s) := by
  unfold freeDeposit
  try dsimp only
  repeat' (first
    | with_reducible assumption | with_reducible apply apart_releaseHeld | with_reducible apply Apart.setOutbound)

theorem apart_sendForFetch {s0 s : State} {k : ContextId} {c : Cell} {serial : Nat} {tell : Bool} (kp : Apart k s0 s) :
    Apart k s0 (sendForFetch k c serial tell s) := by
  unfold sendForFetch
  try dsimp only
  repeat' (first
    | with_reducible assumption | with_reducible apply apart_offerOther | with_reducible apply Apart.setFetch
    | exact Apart.nobody | exact Apart.own | (refine Apart.of_eq ‹_ = (_, _)› ?_) | (dsimp only) | split)

theorem apart_startFetch {s0 s : State} {k : ContextId} {home : Nat} {handle : Option Nat} {mailbox : Option Nat} (kp : Apart k s0 s) :
    Apart k s0 (startFetch k home handle mailbox s) := by
  unfold startFetch
  try dsimp only
  repeat' (first
    | with_reducible assumption | with_reducible apply apart_sendForFetch | with_reducible apply apart_newSerial
    | with_reducible apply Apart.setFetch)

theorem apart_endFetch {s0 s : State} {k : ContextId} (kp : Apart k s0 s) :
    Apart k s0 (endFetch k s) := by
  unfold endFetch
  try dsimp only
  repeat' (first
    | with_reducible assumption | with_reducible apply apart_offerOther | with_reducible apply Apart.setFetch
    | exact Apart.nobody | exact Apart.own | (refine Apart.of_eq ‹_ = (_, _)› ?_) | (dsimp only) | split)

theorem apart_fetchAsk {s0 s : State} {k : ContextId} {index : Nat} (kp : Apart k s0 s) :
    Apart k s0 (fetchAsk k index s) := by
  unfold fetchAsk
  try dsimp only
  repeat' (first
    | with_reducible assumption | with_reducible apply apart_sendForFetch | with_reducible apply Apart.setFetch
    | exact Apart.nobody | exact Apart.own | (refine Apart.of_eq ‹_ = (_, _)› ?_) | (dsimp only) | split)

theorem apart_fetchSettle {s0 s : State} {k : ContextId} {index : Nat} (kp : Apart k s0 s) :
    Apart k s0 (fetchSettle k index s) := by
  unfold fetchSettle
  try dsimp only
  repeat' (first
    | with_reducible assumption | with_reducible apply Apart.setFetch | exact Apart.nobody | exact Apart.own
    | (refine Apart.of_eq ‹_ = (_, _)› ?_) | (dsimp only) | split)

/-! ### Machine/Codec.lean -/

theorem apart_askBlock {s0 s : State} {k : ContextId} {source : Source} {index : Nat} (kp : Apart k s0 s) :
    Apart k s0 (askBlock k source index s).1 := by
  unfold askBlock
  try dsimp only
  repeat' (first
    | with_reducible assumption | with_reducible apply apart_fetchAsk | with_reducible apply apart_readBlockFor
    | exact Apart.nobody | exact Apart.own | (refine Apart.of_eq ‹_ = (_, _)› ?_) | (dsimp only) | split)

theorem apart_askNext {s0 s : State} {k : ContextId} {source : Source} {blocks : Nat} {needed : Nat} {b : Buffer} (kp : Apart k s0 s) :
    Apart k s0 (askNext k source blocks needed b s).1 := by
  unfold askNext
  try dsimp only
  repeat' (first
    | with_reducible assumption | with_reducible apply apart_askBlock | exact Apart.nobody | exact Apart.own
    | (refine Apart.of_eq ‹_ = (_, _)› ?_) | (dsimp only) | split)

theorem apart_fillBuffer {s0 s : State} {k : ContextId} {source : Source} {blocks : Nat} {needed : Nat} {b : Buffer} (kp : Apart k s0 s) :
    Apart k s0 (fillBuffer k source blocks needed b s).1 := by
  unfold fillBuffer
  try dsimp only
  repeat' (first
    | with_reducible assumption | with_reducible apply apart_askNext)

/-! ### Machine/Session.lean -/

theorem apart_leaveSource {s0 s : State} {k : ContextId} {source : Option Source} (kp : Apart k s0 s) :
    Apart k s0 (leaveSource k source s) := by
  unfold leaveSource
  try dsimp only
  repeat' (first
    | with_reducible assumption | with_reducible apply apart_endFetch | with_reducible apply apart_leaveMessage
    | exact Apart.nobody | exact Apart.own | (refine Apart.of_eq ‹_ = (_, _)› ?_) | (dsimp only) | split)

theorem apart_stopPlayback {s0 s : State} {k : ContextId} (kp : Apart k s0 s) :
    Apart k s0 (stopPlayback k s) := by
  unfold stopPlayback
  try dsimp only
  repeat' (first
    | with_reducible assumption | with_reducible apply apart_leaveSource | with_reducible apply Apart.modVcd)

theorem apart_sendPlayDone {s0 s : State} {k : ContextId} {result : Byte} (kp : Apart k s0 s) :
    Apart k s0 (sendPlayDone k result s) := by
  unfold sendPlayDone
  try dsimp only
  repeat' (first
    | with_reducible assumption | with_reducible apply apart_sendEvent)

theorem apart_sendRecordDone {s0 s : State} {k : ContextId} {home : Nat} {handle : Option Nat} {blocks : Option Nat} {result : Byte} {flags : Option Nat} (kp : Apart k s0 s) :
    Apart k s0 (sendRecordDone k home handle blocks result flags s) := by
  unfold sendRecordDone
  try dsimp only
  repeat' (first
    | with_reducible assumption | with_reducible apply apart_sendEvent)

theorem apart_reportClose {s0 s : State} {k : ContextId} {h : Nat} {result : Byte} {r : CloseReport} (kp : Apart k s0 s) :
    Apart k s0 (reportClose k h result r s) := by
  unfold reportClose
  try dsimp only
  repeat' (first
    | with_reducible assumption | with_reducible apply apart_sendRecordDone)

theorem apart_handOn {s0 s : State} {k : ContextId} {f : Finished} (kp : Apart k s0 s) :
    Apart k s0 (handOn k f s).1 := by
  unfold handOn
  try dsimp only
  repeat' (first
    | with_reducible assumption | with_reducible apply apart_handToDeposit | with_reducible apply apart_appendBlock
    | with_reducible apply Apart.modVoice | exact Apart.nobody | exact Apart.own
    | (refine Apart.of_eq ‹_ = (_, _)› ?_) | (dsimp only) | split)

theorem apart_dropRecording {s0 s : State} {k : ContextId} (kp : Apart k s0 s) :
    Apart k s0 (dropRecording k s) := by
  unfold dropRecording
  try dsimp only
  repeat' (first
    | with_reducible assumption | with_reducible apply Apart.modVoice | with_reducible apply Apart.modVcd)

theorem apart_abandonRecording {s0 s : State} {k : ContextId} (kp : Apart k s0 s) :
    Apart k s0 (abandonRecording k s) := by
  unfold abandonRecording
  try dsimp only
  repeat' (first
    | with_reducible assumption | with_reducible apply apart_dropRecording | with_reducible apply Apart.modVoice
    | with_reducible apply Apart.modVcd | (dsimp only) | split)

theorem apart_closeRecording {s0 s : State} {k : ContextId} {reason : Byte} {last : Option (Nat × Nat)} (kp : Apart k s0 s) :
    Apart k s0 (closeRecording k reason last s) := by
  unfold closeRecording
  try dsimp only
  repeat' (first
    | with_reducible assumption | with_reducible apply apart_reportClose
    | with_reducible apply apart_sendRecordDone | with_reducible apply apart_askClose
    | with_reducible apply apart_closeBy | exact Apart.nobody | exact Apart.own
    | (refine Apart.of_eq ‹_ = (_, _)› ?_) | (dsimp only) | split)

theorem apart_finishRecording {s0 s : State} {k : ContextId} {reason : Byte} (kp : Apart k s0 s) :
    Apart k s0 (finishRecording k reason s) := by
  unfold finishRecording
  try dsimp only
  repeat' (first
    | with_reducible assumption | with_reducible apply apart_closeRecording
    | with_reducible apply apart_dropRecording | with_reducible apply apart_handOn
    | with_reducible apply apart_reportClose | with_reducible apply Apart.modVcd | exact Apart.nobody
    | exact Apart.own | (refine Apart.of_eq ‹_ = (_, _)› ?_) | (dsimp only) | split)

theorem apart_closeFaxTarget {s0 s : State} {k : ContextId} {reason : Byte} (kp : Apart k s0 s) :
    Apart k s0 (closeFaxTarget k reason s) := by
  unfold closeFaxTarget
  try dsimp only
  repeat' (first
    | with_reducible assumption | with_reducible apply apart_askClose | with_reducible apply apart_closeBy
    | with_reducible apply Apart.modFax | exact Apart.nobody | exact Apart.own
    | (refine Apart.of_eq ‹_ = (_, _)› ?_) | (dsimp only) | split)

theorem apart_leaveFaxSource {s0 s : State} {k : ContextId} (kp : Apart k s0 s) :
    Apart k s0 (leaveFaxSource k s) := by
  unfold leaveFaxSource
  try dsimp only
  repeat' (first
    | with_reducible assumption | with_reducible apply apart_leaveSource | with_reducible apply Apart.modFax
    | exact Apart.nobody | exact Apart.own | (refine Apart.of_eq ‹_ = (_, _)› ?_) | (dsimp only) | split)

theorem apart_sendFaxDone {s0 s : State} {k : ContextId} {result : Byte} (kp : Apart k s0 s) :
    Apart k s0 (sendFaxDone k result s) := by
  unfold sendFaxDone
  try dsimp only
  repeat' (first
    | with_reducible assumption | with_reducible apply apart_sendEvent)

theorem apart_clearFax {s0 s : State} {k : ContextId} (kp : Apart k s0 s) :
    Apart k s0 (clearFax k s) := by
  unfold clearFax
  try dsimp only
  repeat' (first
    | with_reducible assumption | with_reducible apply Apart.modFax | with_reducible apply Apart.modPump)

theorem apart_windDownFax {s0 s : State} {k : ContextId} {cause : Byte} (kp : Apart k s0 s) :
    Apart k s0 (windDownFax k cause s) := by
  unfold windDownFax
  try dsimp only
  repeat' (first
    | with_reducible assumption | with_reducible apply apart_clearFax | with_reducible apply apart_sendFaxDone
    | with_reducible apply apart_leaveFaxSource | with_reducible apply apart_closeFaxTarget)

theorem apart_stopData {s0 s : State} {k : ContextId} (kp : Apart k s0 s) :
    Apart k s0 (stopData k s) := by
  unfold stopData
  try dsimp only
  repeat' (first
    | with_reducible assumption | with_reducible apply apart_releaseHeld | with_reducible apply Apart.modQmn
    | with_reducible apply Apart.modLkc | with_reducible apply Apart.modPump)

theorem apart_windDownVoice {s0 s : State} {k : ContextId} {cause : Byte} (kp : Apart k s0 s) :
    Apart k s0 (windDownVoice k cause s) := by
  unfold windDownVoice
  try dsimp only
  repeat' (first
    | with_reducible assumption | with_reducible apply apart_finishRecording
    | with_reducible apply apart_sendPlayDone | with_reducible apply apart_stopPlayback | exact Apart.nobody
    | exact Apart.own | (refine Apart.of_eq ‹_ = (_, _)› ?_) | (dsimp only) | split)

theorem apart_stopGreeting {s0 s : State} {k : ContextId} (kp : Apart k s0 s) :
    Apart k s0 (stopGreeting k s) := by
  unfold stopGreeting
  try dsimp only
  repeat' (first
    | with_reducible assumption | with_reducible apply apart_stopPlayback | exact Apart.nobody | exact Apart.own
    | (refine Apart.of_eq ‹_ = (_, _)› ?_) | (dsimp only) | split)

theorem apart_windDown {s0 s : State} {k : ContextId} {cause : Byte} (kp : Apart k s0 s) :
    Apart k s0 (windDown k cause s) := by
  unfold windDown
  try dsimp only
  repeat' (first
    | with_reducible assumption | with_reducible apply apart_stopGreeting
    | with_reducible apply apart_windDownVoice | with_reducible apply apart_stopData
    | with_reducible apply apart_windDownFax | exact Apart.nobody | exact Apart.own
    | (refine Apart.of_eq ‹_ = (_, _)› ?_) | (dsimp only) | split)

/-! ### Machine/Call.lean -/

theorem apart_setView {s0 s : State} {i : ContextId} {c : Channel} {v : View} {timer : Option Nat} (kp : Apart i s0 s) :
    Apart i s0 (setView c v timer s) := by
  unfold setView
  try dsimp only
  repeat' (first
    | with_reducible assumption | with_reducible apply Apart.modEntry)

theorem apart_endDrive {s0 s : State} {i : ContextId} {c : Channel} (kp : Apart i s0 s) : Apart i s0 (endDrive c s) :=
  kp.modChannel

theorem apart_enableDrive {s0 s : State} {i : ContextId} {c : Channel} (kp : Apart i s0 s) :
    Apart i s0 (enableDrive c s) := by
  unfold enableDrive
  try dsimp only
  repeat' (first
    | with_reducible assumption | with_reducible apply Apart.modChannel)

theorem apart_freeContext {s0 s : State} {k : ContextId} (kp : Apart k s0 s) :
    Apart k s0 (freeContext k s) := by
  unfold freeContext
  try dsimp only
  repeat' (first
    | with_reducible assumption | with_reducible apply apart_releaseHeld | with_reducible apply Apart.modCtx)

theorem apart_setTimer {s0 s : State} {k : ContextId} {t : Option Nat} (kp : Apart k s0 s) :
    Apart k s0 (setTimer k t s) :=
  kp.modCtx

theorem apart_enterClearing {s0 s : State} {k : ContextId} (kp : Apart k s0 s) :
    Apart k s0 (enterClearing k s) := by
  unfold enterClearing
  try dsimp only
  repeat' (first
    | with_reducible assumption | with_reducible apply apart_sendRelease | with_reducible apply Apart.modCtx
    | exact Apart.nobody | exact Apart.own | (refine Apart.of_eq ‹_ = (_, _)› ?_) | (dsimp only) | split)

theorem apart_letGo {s0 s : State} {k : ContextId} {c : Channel} (kp : Apart k s0 s) :
    Apart k s0 (letGo k c s) := by
  unfold letGo
  try dsimp only
  repeat' (first
    | with_reducible assumption | with_reducible apply apart_freeContext | with_reducible apply apart_endDrive
    | with_reducible apply apart_setView | exact Apart.nobody | exact Apart.own
    | (refine Apart.of_eq ‹_ = (_, _)› ?_) | (dsimp only) | split)

theorem apart_announceUnknown {s0 s : State} {k : ContextId} (kp : Apart k s0 s) :
    Apart k s0 (announceUnknown k s) := by
  unfold announceUnknown
  try dsimp only
  repeat' (first
    | with_reducible assumption | with_reducible apply apart_sendEvent | with_reducible apply Apart.modCtx
    | exact Apart.nobody | exact Apart.own | (refine Apart.of_eq ‹_ = (_, _)› ?_) | (dsimp only) | split)

theorem apart_outdialDone {s0 s : State} {k : ContextId} {result : Byte} (kp : Apart k s0 s) :
    Apart k s0 (outdialDone k result s) := by
  unfold outdialDone
  try dsimp only
  repeat' (first
    | with_reducible assumption | with_reducible apply apart_sendEvent | with_reducible apply Apart.modCtx
    | exact Apart.nobody | exact Apart.own | (refine Apart.of_eq ‹_ = (_, _)› ?_) | (dsimp only) | split)

theorem apart_leaveChannel {s0 s : State} {k : ContextId} {cause : Byte} (kp : Apart k s0 s) :
    Apart k s0 (leaveChannel k cause s) := by
  unfold leaveChannel
  try dsimp only
  repeat' (first
    | with_reducible assumption | with_reducible apply apart_enterClearing | with_reducible apply apart_freeContext
    | with_reducible apply apart_endDrive | with_reducible apply apart_setView
    | with_reducible apply apart_sendRelease | exact Apart.nobody | exact Apart.own
    | (refine Apart.of_eq ‹_ = (_, _)› ?_) | (dsimp only) | split)

theorem apart_endCall {s0 s : State} {k : ContextId} {cause : Byte} (kp : Apart k s0 s) :
    Apart k s0 (endCall k cause s) := by
  unfold endCall
  try dsimp only
  repeat' (first
    | with_reducible assumption | with_reducible apply apart_leaveChannel | with_reducible apply apart_outdialDone
    | with_reducible apply apart_announceUnknown | with_reducible apply apart_windDown
    | with_reducible apply apart_sendEvent | exact Apart.nobody | exact Apart.own
    | (refine Apart.of_eq ‹_ = (_, _)› ?_) | (dsimp only) | split)

end Sys2Proof.Machine
end

