-- ==== Sys2Proof/Laws/ApartCall.lean ====
section
/-! SUPPORT. What the operations about one context leave alone. -/
namespace Sys2Proof.Machine

/-! ### Machine/Voice.lean -/

theorem apart_enterWaiting {s0 s : State} {k : ContextId} (kp : Apart k s0 s) : Apart k s0 (enterWaiting k s) :=
  kp.modVoice

theorem apart_recordingOver {s0 s : State} {k : ContextId} (kp : Apart k s0 s) :
    Apart k s0 (recordingOver k s) := by
  unfold recordingOver
  try dsimp only
  repeat' (first
    | with_reducible assumption | with_reducible apply apart_enterWaiting | with_reducible apply apart_endCall
    | exact Apart.nobody | exact Apart.own | (refine Apart.of_eq ‹_ = (_, _)› ?_) | (dsimp only) | split)

theorem apart_beginDeposit {s0 s : State} {k : ContextId} (kp : Apart k s0 s) :
    Apart k s0 (beginDeposit k s) := by
  unfold beginDeposit
  try dsimp only
  repeat' (first
    | with_reducible assumption | with_reducible apply apart_startDeposit | with_reducible apply Apart.modVoice
    | with_reducible apply Apart.modVcd)

theorem apart_startRecording {s0 s : State} {k : ContextId} {mailbox : Nat} {kind : MsgKind} {maxBlocks : Nat} (kp : Apart k s0 s) :
    Apart k s0 (startRecording k mailbox kind maxBlocks s) := by
  unfold startRecording
  try dsimp only
  repeat' (first
    | with_reducible assumption | with_reducible apply apart_beginDeposit
    | with_reducible apply apart_recordingOver | with_reducible apply apart_abandonRecording | with_reducible apply apart_dropRecording
    | with_reducible apply apart_sendRecordDone | with_reducible apply apart_openForWriting
    | with_reducible apply Apart.modVoice | with_reducible apply Apart.modVcd | exact Apart.nobody
    | exact Apart.own | (refine Apart.of_eq ‹_ = (_, _)› ?_) | (dsimp only) | split)

theorem apart_encodeFrame {s0 s : State} {k : ContextId} {sample : Byte} (kp : Apart k s0 s) :
    Apart k s0 (encodeFrame k sample s) := by
  unfold encodeFrame
  try dsimp only
  repeat' (first
    | with_reducible assumption | with_reducible apply apart_recordingOver
    | with_reducible apply apart_finishRecording | with_reducible apply apart_dropRecording
    | with_reducible apply apart_handOn | with_reducible apply apart_reportClose
    | with_reducible apply Apart.modVcd | exact Apart.nobody | exact Apart.own
    | (refine Apart.of_eq ‹_ = (_, _)› ?_) | (dsimp only) | split)

theorem apart_reportDeposit {s0 s : State} {k : ContextId} {d : OutDeposit} {o : DepositOutcome} (kp : Apart k s0 s) :
    Apart k s0 (reportDeposit k d o s) := by
  unfold reportDeposit
  try dsimp only
  repeat' (first
    | with_reducible assumption | with_reducible apply apart_sendRecordDone | exact Apart.nobody | exact Apart.own
    | (refine Apart.of_eq ‹_ = (_, _)› ?_) | (dsimp only) | split)

theorem apart_recordingDepositEnded {s0 s : State} {k : ContextId} {d : OutDeposit} {o : DepositOutcome} (kp : Apart k s0 s) :
    Apart k s0 (recordingDepositEnded k d o s) := by
  unfold recordingDepositEnded
  try dsimp only
  repeat' (first
    | with_reducible assumption | with_reducible apply apart_reportDeposit
    | with_reducible apply apart_recordingOver | with_reducible apply apart_abandonRecording | with_reducible apply apart_dropRecording | exact Apart.nobody
    | exact Apart.own | (refine Apart.of_eq ‹_ = (_, _)› ?_) | (dsimp only) | split)

theorem apart_startBeep {s0 s : State} {k : ContextId} (kp : Apart k s0 s) : Apart k s0 (startBeep k s) :=
  kp.modVoice.modCtx

theorem apart_playbackOver {s0 s : State} {k : ContextId} {result : Byte} (kp : Apart k s0 s) :
    Apart k s0 (playbackOver k result s) := by
  unfold playbackOver
  try dsimp only
  repeat' (first
    | with_reducible assumption | with_reducible apply apart_startBeep | with_reducible apply apart_enterWaiting
    | with_reducible apply apart_endCall | with_reducible apply apart_sendPlayDone
    | with_reducible apply Apart.modVoice | exact Apart.nobody | exact Apart.own
    | (refine Apart.of_eq ‹_ = (_, _)› ?_) | (dsimp only) | split)

theorem apart_discriminationEnds {s0 s : State} {k : ContextId} (kp : Apart k s0 s) :
    Apart k s0 (discriminationEnds k s) := by
  unfold discriminationEnds
  try dsimp only
  repeat' (first
    | with_reducible assumption | with_reducible apply apart_startRecording | with_reducible apply apart_sendEvent
    | with_reducible apply Apart.modCtx | with_reducible apply Apart.modVoice)

theorem apart_beepEnds {s0 s : State} {k : ContextId} (kp : Apart k s0 s) :
    Apart k s0 (beepEnds k s) := by
  unfold beepEnds
  try dsimp only
  repeat' (first
    | with_reducible assumption | with_reducible apply apart_discriminationEnds
    | with_reducible apply Apart.modVoice | exact Apart.nobody | exact Apart.own
    | (refine Apart.of_eq ‹_ = (_, _)› ?_) | (dsimp only) | split)

theorem apart_loadBlock {s0 s : State} {k : ContextId} {b : Nat} {block : List Byte} (kp : Apart k s0 s) :
    Apart k s0 (loadBlock k b block s) :=
  kp.modVcd

theorem apart_moveDecoder {s0 s : State} {k : ContextId} {b : Nat} (kp : Apart k s0 s) :
    Apart k s0 (moveDecoder k b s) := by
  unfold moveDecoder
  try dsimp only
  repeat' (first
    | with_reducible assumption | with_reducible apply apart_loadBlock | with_reducible apply apart_fetchSettle
    | with_reducible apply Apart.modVcd | exact Apart.nobody | exact Apart.own
    | (refine Apart.of_eq ‹_ = (_, _)› ?_) | (dsimp only) | split)

theorem apart_refillPlayback {s0 s : State} {k : ContextId} {needed : Nat} (kp : Apart k s0 s) :
    Apart k s0 (refillPlayback k needed s) := by
  unfold refillPlayback
  try dsimp only
  repeat' (first
    | with_reducible assumption | with_reducible apply apart_fillBuffer | with_reducible apply Apart.modVcd
    | exact Apart.nobody | exact Apart.own | (refine Apart.of_eq ‹_ = (_, _)› ?_) | (dsimp only) | split)

theorem apart_markHeard {s0 s : State} {k : ContextId} (kp : Apart k s0 s) :
    Apart k s0 (markHeard k s) := by
  unfold markHeard
  try dsimp only
  repeat' (first
    | with_reducible assumption | with_reducible apply apart_markMessage | with_reducible apply apart_offerOther
    | exact Apart.nobody | exact Apart.own | (refine Apart.of_eq ‹_ = (_, _)› ?_) | (dsimp only) | split)

theorem apart_playbackReachesEnd {s0 s : State} {k : ContextId} (kp : Apart k s0 s) :
    Apart k s0 (playbackReachesEnd k s) := by
  unfold playbackReachesEnd
  try dsimp only
  repeat' (first
    | with_reducible assumption | with_reducible apply apart_markHeard | with_reducible apply apart_playbackOver
    | with_reducible apply apart_stopPlayback)

theorem apart_beginDecoding {s0 s : State} {k : ContextId} {source : Source} {kind : MsgKind} {length : Nat} {blocks : Nat} (kp : Apart k s0 s) :
    Apart k s0 (beginDecoding k source kind length blocks s) := by
  unfold beginDecoding
  try dsimp only
  repeat' (first
    | with_reducible assumption | with_reducible apply apart_playbackReachesEnd
    | with_reducible apply apart_refillPlayback | with_reducible apply apart_moveDecoder
    | with_reducible apply Apart.modVcd | exact Apart.nobody | exact Apart.own
    | (refine Apart.of_eq ‹_ = (_, _)› ?_) | (dsimp only) | split)

theorem apart_playGranted {s0 s : State} {k : ContextId} {source : Source} {kind : Option MsgKind} {length : Nat} {blocks : Nat} (kp : Apart k s0 s) :
    Apart k s0 (playGranted k source kind length blocks s) := by
  unfold playGranted
  try dsimp only
  repeat' (first
    | with_reducible assumption | with_reducible apply apart_beginDecoding
    | with_reducible apply apart_playbackOver | with_reducible apply apart_leaveSource | exact Apart.nobody
    | exact Apart.own | (refine Apart.of_eq ‹_ = (_, _)› ?_) | (dsimp only) | split)

theorem apart_beginPlay {s0 s : State} {k : ContextId} {target : PlayTarget} {start : Nat} (kp : Apart k s0 s) :
    Apart k s0 (beginPlay k target start s) := by
  unfold beginPlay
  try dsimp only
  repeat' (first
    | with_reducible assumption | with_reducible apply apart_playGranted | with_reducible apply apart_playbackOver
    | with_reducible apply apart_startFetch | with_reducible apply apart_readOpen
    | with_reducible apply Apart.modVoice | with_reducible apply Apart.modVcd | exact Apart.nobody
    | exact Apart.own | (refine Apart.of_eq ‹_ = (_, _)› ?_) | (dsimp only) | split)

theorem apart_playFetchEnded {s0 s : State} {k : ContextId} {o : FetchOutcome} (kp : Apart k s0 s) :
    Apart k s0 (playFetchEnded k o s) := by
  unfold playFetchEnded
  try dsimp only
  repeat' (first
    | with_reducible assumption | with_reducible apply apart_playbackOver | with_reducible apply apart_stopPlayback)

theorem apart_decodeFrame {s0 s : State} {k : ContextId} (kp : Apart k s0 s) :
    Apart k s0 (decodeFrame k s).1 := by
  unfold decodeFrame
  try dsimp only
  repeat' (first
    | with_reducible assumption | with_reducible apply Apart.modVcd | exact Apart.nobody | exact Apart.own
    | (refine Apart.of_eq ‹_ = (_, _)› ?_) | (dsimp only) | split)

theorem apart_afterDecode {s0 s : State} {k : ContextId} (kp : Apart k s0 s) :
    Apart k s0 (afterDecode k s) := by
  unfold afterDecode
  try dsimp only
  repeat' (first
    | with_reducible assumption | with_reducible apply apart_playbackReachesEnd
    | with_reducible apply apart_refillPlayback | with_reducible apply apart_moveDecoder
    | with_reducible apply Apart.modVcd | exact Apart.nobody | exact Apart.own
    | (refine Apart.of_eq ‹_ = (_, _)› ?_) | (dsimp only) | split)

theorem apart_resumeDecoder {s0 s : State} {k : ContextId} (kp : Apart k s0 s) :
    Apart k s0 (resumeDecoder k s) := by
  unfold resumeDecoder
  try dsimp only
  repeat' (first
    | with_reducible assumption | with_reducible apply apart_loadBlock | exact Apart.nobody | exact Apart.own
    | (refine Apart.of_eq ‹_ = (_, _)› ?_) | (dsimp only) | split)

theorem apart_endActivity {s0 s : State} {k : ContextId} (kp : Apart k s0 s) :
    Apart k s0 (endActivity k s) := by
  unfold endActivity
  try dsimp only
  repeat' (first
    | with_reducible assumption | with_reducible apply apart_finishRecording
    | with_reducible apply apart_sendPlayDone | with_reducible apply apart_stopPlayback
    | with_reducible apply Apart.modVoice | exact Apart.nobody | exact Apart.own
    | (refine Apart.of_eq ‹_ = (_, _)› ?_) | (dsimp only) | split)

/-! ### Machine/Fax.lean -/

theorem apart_sendControl {s0 s : State} {k : ContextId} {f : ControlFrame} (kp : Apart k s0 s) :
    Apart k s0 (sendControl k f s) :=
  kp.modPump

theorem apart_setPump {s0 s : State} {k : ContextId} {p : PumpState} (kp : Apart k s0 s) :
    Apart k s0 (setPump k p s) :=
  kp.modPump

theorem apart_enterPhase {s0 s : State} {k : ContextId} {phase : FaxPhase} {wait : Option Nat} (kp : Apart k s0 s) :
    Apart k s0 (enterPhase k phase wait s) :=
  kp.modFax

theorem apart_pumpTrained {s0 s : State} {k : ContextId} (kp : Apart k s0 s) : Apart k s0 (pumpTrained k s) :=
  kp.modDetector

theorem apart_sendFaxPage {s0 s : State} {k : ContextId} {page : Nat} {verdict : Nat} (kp : Apart k s0 s) :
    Apart k s0 (sendFaxPage k page verdict s) := by
  unfold sendFaxPage
  try dsimp only
  repeat' (first
    | with_reducible assumption | with_reducible apply apart_sendEvent)

theorem apart_faxSessionEnds {s0 s : State} {k : ContextId} {result : Byte} (kp : Apart k s0 s) :
    Apart k s0 (faxSessionEnds k result s) := by
  unfold faxSessionEnds
  try dsimp only
  repeat' (first
    | with_reducible assumption | with_reducible apply apart_endCall | with_reducible apply apart_clearFax
    | with_reducible apply apart_sendFaxDone | with_reducible apply apart_leaveFaxSource
    | with_reducible apply Apart.modCtx)

theorem apart_sendDisconnect {s0 s : State} {k : ContextId} {result : Byte} (kp : Apart k s0 s) :
    Apart k s0 (sendDisconnect k result s) := by
  unfold sendDisconnect
  try dsimp only
  repeat' (first
    | with_reducible assumption | with_reducible apply apart_enterPhase | with_reducible apply apart_sendControl
    | with_reducible apply Apart.modFax)

theorem apart_endReceive {s0 s : State} {k : ContextId} {frame : Bool} {close : Option Byte} {result : Byte} (kp : Apart k s0 s) :
    Apart k s0 (endReceive k frame close result s) := by
  unfold endReceive
  try dsimp only
  repeat' (first
    | with_reducible assumption | with_reducible apply apart_sendDisconnect
    | with_reducible apply apart_faxSessionEnds | with_reducible apply apart_closeFaxTarget
    | with_reducible apply Apart.modFax | exact Apart.nobody | exact Apart.own
    | (refine Apart.of_eq ‹_ = (_, _)› ?_) | (dsimp only) | split)

theorem apart_endSend {s0 s : State} {k : ContextId} {result : Byte} (kp : Apart k s0 s) :
    Apart k s0 (endSend k result s) := by
  unfold endSend
  try dsimp only
  repeat' (first
    | with_reducible assumption | with_reducible apply apart_sendDisconnect
    | with_reducible apply apart_faxSessionEnds | exact Apart.nobody | exact Apart.own
    | (refine Apart.of_eq ‹_ = (_, _)› ?_) | (dsimp only) | split)

theorem apart_awaitMode {s0 s : State} {k : ContextId} (kp : Apart k s0 s) :
    Apart k s0 (awaitMode k s) := by
  unfold awaitMode
  try dsimp only
  repeat' (first
    | with_reducible assumption | with_reducible apply apart_enterPhase)

theorem apart_sendCapability {s0 s : State} {k : ContextId} (kp : Apart k s0 s) :
    Apart k s0 (sendCapability k s) := by
  unfold sendCapability
  try dsimp only
  repeat' (first
    | with_reducible assumption | with_reducible apply apart_awaitMode | with_reducible apply apart_sendControl)

theorem apart_beginFaxDeposit {s0 s : State} {k : ContextId} (kp : Apart k s0 s) :
    Apart k s0 (beginFaxDeposit k s) := by
  unfold beginFaxDeposit
  try dsimp only
  repeat' (first
    | with_reducible assumption | with_reducible apply apart_sendCapability
    | with_reducible apply apart_startDeposit | with_reducible apply Apart.modFax)

theorem apart_enterFaxSession {s0 s : State} {k : ContextId} {role : FaxRole} (kp : Apart k s0 s) :
    Apart k s0 (enterFaxSession k role s) := by
  unfold enterFaxSession
  try dsimp only
  repeat' (first
    | with_reducible assumption | with_reducible apply apart_setPump | with_reducible apply Apart.modCtx)

theorem apart_startFaxReceive {s0 s : State} {k : ContextId} {mailbox : Nat} (kp : Apart k s0 s) :
    Apart k s0 (startFaxReceive k mailbox s) := by
  unfold startFaxReceive
  try dsimp only
  repeat' (first
    | with_reducible assumption | with_reducible apply apart_enterFaxSession
    | with_reducible apply apart_beginFaxDeposit | with_reducible apply apart_sendCapability
    | with_reducible apply apart_faxSessionEnds | with_reducible apply apart_enterPhase
    | with_reducible apply apart_openForWriting | with_reducible apply Apart.modFax | exact Apart.nobody
    | exact Apart.own | (refine Apart.of_eq ‹_ = (_, _)› ?_) | (dsimp only) | split)

theorem apart_trainBadSent {s0 s : State} {k : ContextId} (kp : Apart k s0 s) :
    Apart k s0 (trainBadSent k s) := by
  unfold trainBadSent
  try dsimp only
  repeat' (first
    | with_reducible assumption | with_reducible apply apart_awaitMode | with_reducible apply apart_endReceive
    | with_reducible apply apart_setPump | with_reducible apply apart_sendControl
    | with_reducible apply Apart.modFax | exact Apart.nobody | exact Apart.own
    | (refine Apart.of_eq ‹_ = (_, _)› ?_) | (dsimp only) | split)

theorem apart_takeMode {s0 s : State} {k : ContextId} {rate : Nat} (kp : Apart k s0 s) :
    Apart k s0 (takeMode k rate s) := by
  unfold takeMode
  try dsimp only
  repeat' (first
    | with_reducible assumption | with_reducible apply apart_trainBadSent | with_reducible apply apart_enterPhase
    | with_reducible apply apart_setPump | with_reducible apply Apart.modFax | with_reducible apply Apart.modQmn
    | exact Apart.nobody | exact Apart.own | (refine Apart.of_eq ‹_ = (_, _)› ?_) | (dsimp only) | split)

theorem apart_faxReading {s0 s : State} {k : ContextId} {r : Nat} (kp : Apart k s0 s) :
    Apart k s0 (faxReading k r s) := by
  unfold faxReading
  try dsimp only
  repeat' (first
    | with_reducible assumption | with_reducible apply apart_trainBadSent | with_reducible apply apart_pumpTrained
    | with_reducible apply apart_enterPhase | with_reducible apply apart_setPump
    | with_reducible apply apart_sendControl | with_reducible apply Apart.modFax
    | with_reducible apply Apart.modQmn | exact Apart.nobody | exact Apart.own
    | (refine Apart.of_eq ‹_ = (_, _)› ?_) | (dsimp only) | split)

theorem apart_takeFreeBytes {i : ContextId} {s0 s : State} {n : Nat} (kp : Apart i s0 s) :
    Apart i s0 (takeFreeBytes n s).1 := kp.trans ⟨fun _ _ => rfl, fun h => h⟩

theorem apart_handFaxBlock {s0 s : State} {k : ContextId} {payload : List Byte} {pageEnd : Bool} (kp : Apart k s0 s) :
    Apart k s0 (handFaxBlock k payload pageEnd s).1 := by
  unfold handFaxBlock
  try dsimp only
  repeat' (first
    | with_reducible assumption | with_reducible apply apart_takeFreeBytes
    | with_reducible apply apart_handToDeposit | with_reducible apply apart_appendBlock | exact Apart.nobody
    | exact Apart.own | (refine Apart.of_eq ‹_ = (_, _)› ?_) | (dsimp only) | split)

theorem apart_faxStoreFull {s0 s : State} {k : ContextId} (kp : Apart k s0 s) :
    Apart k s0 (faxStoreFull k s) := by
  unfold faxStoreFull
  try dsimp only
  repeat' (first
    | with_reducible assumption | with_reducible apply apart_endReceive)

theorem apart_buildPage {s0 s : State} {k : ContextId} {data : List Byte} (kp : Apart k s0 s) :
    Apart k s0 (buildPage k data s) := by
  unfold buildPage
  try dsimp only
  repeat' (first
    | with_reducible assumption | with_reducible apply apart_faxStoreFull | with_reducible apply apart_handFaxBlock
    | with_reducible apply Apart.modFax | exact Apart.nobody | exact Apart.own
    | (refine Apart.of_eq ‹_ = (_, _)› ?_) | (dsimp only) | split)

theorem apart_takeFaxFrame {s0 s : State} {k : ContextId} {good : Bool} {number : Nat} {data : List Byte} (kp : Apart k s0 s) :
    Apart k s0 (takeFaxFrame k good number data s) := by
  unfold takeFaxFrame
  try dsimp only
  repeat' (first
    | with_reducible assumption | with_reducible apply apart_buildPage | with_reducible apply apart_enterPhase
    | with_reducible apply Apart.modFax | exact Apart.nobody | exact Apart.own
    | (refine Apart.of_eq ‹_ = (_, _)› ?_) | (dsimp only) | split)

theorem apart_keepPage {s0 s : State} {k : ContextId} (kp : Apart k s0 s) :
    Apart k s0 (keepPage k s).1 := by
  unfold keepPage
  try dsimp only
  repeat' (first
    | with_reducible assumption | with_reducible apply apart_handFaxBlock | with_reducible apply apart_endPage
    | with_reducible apply Apart.modFax | exact Apart.nobody | exact Apart.own
    | (refine Apart.of_eq ‹_ = (_, _)› ?_) | (dsimp only) | split)

theorem apart_undoPage {s0 s : State} {k : ContextId} (kp : Apart k s0 s) :
    Apart k s0 (undoPage k s) := by
  unfold undoPage
  try dsimp only
  repeat' (first
    | with_reducible assumption | with_reducible apply apart_askRollback | with_reducible apply apart_rollBack
    | with_reducible apply Apart.modFax | exact Apart.nobody | exact Apart.own
    | (refine Apart.of_eq ‹_ = (_, _)› ?_) | (dsimp only) | split)

theorem apart_afterVerdict {s0 s : State} {k : ContextId} {verdict : Nat} {last : Bool} (kp : Apart k s0 s) :
    Apart k s0 (afterVerdict k verdict last s) := by
  unfold afterVerdict
  try dsimp only
  repeat' (first
    | with_reducible assumption | with_reducible apply apart_awaitMode | with_reducible apply apart_sendDisconnect
    | with_reducible apply apart_enterPhase | with_reducible apply apart_setPump
    | with_reducible apply apart_closeFaxTarget | exact Apart.nobody | exact Apart.own
    | (refine Apart.of_eq ‹_ = (_, _)› ?_) | (dsimp only) | split)

theorem apart_takePageEnd {s0 s : State} {k : ContextId} {last : Bool} (kp : Apart k s0 s) :
    Apart k s0 (takePageEnd k last s) := by
  unfold takePageEnd
  try dsimp only
  repeat' (first
    | with_reducible assumption | with_reducible apply apart_afterVerdict | with_reducible apply apart_undoPage
    | with_reducible apply apart_keepPage | with_reducible apply apart_faxStoreFull
    | with_reducible apply apart_sendFaxPage | with_reducible apply apart_sendControl
    | with_reducible apply Apart.modFax | exact Apart.nobody | exact Apart.own
    | (refine Apart.of_eq ‹_ = (_, _)› ?_) | (dsimp only) | split)

theorem apart_trainSend {s0 s : State} {k : ContextId} (kp : Apart k s0 s) :
    Apart k s0 (trainSend k s) := by
  unfold trainSend
  try dsimp only
  repeat' (first
    | with_reducible assumption | with_reducible apply apart_enterPhase | with_reducible apply apart_setPump
    | with_reducible apply apart_sendControl | with_reducible apply Apart.modFax)

theorem apart_takeCapability {s0 s : State} {k : ContextId} {c : Nat} (kp : Apart k s0 s) :
    Apart k s0 (takeCapability k c s) := by
  unfold takeCapability
  try dsimp only
  repeat' (first
    | with_reducible assumption | with_reducible apply apart_trainSend | with_reducible apply Apart.modFax)

theorem apart_askFaxBlock {s0 s : State} {k : ContextId} {index : Nat} (kp : Apart k s0 s) :
    Apart k s0 (askFaxBlock k index s) := by
  unfold askFaxBlock
  try dsimp only
  repeat' (first
    | with_reducible assumption | with_reducible apply apart_askBlock | with_reducible apply Apart.modFax
    | exact Apart.nobody | exact Apart.own | (refine Apart.of_eq ‹_ = (_, _)› ?_) | (dsimp only) | split)

theorem apart_bufferFrom {s0 s : State} {k : ContextId} {b : Nat} (kp : Apart k s0 s) :
    Apart k s0 (bufferFrom k b s) := by
  unfold bufferFrom
  try dsimp only
  repeat' (first
    | with_reducible assumption | with_reducible apply apart_askFaxBlock | with_reducible apply apart_fetchSettle
    | with_reducible apply Apart.modFax | (refine Apart.forEach ?_ (fun _ _ _ => ?_)) | exact Apart.nobody
    | exact Apart.own | (refine Apart.of_eq ‹_ = (_, _)› ?_) | (dsimp only) | split)

theorem apart_feedBlock {s0 s : State} {k : ContextId} {b : Nat} {block : List Byte} (kp : Apart k s0 s) :
    Apart k s0 (feedBlock k b block s) := by
  unfold feedBlock
  try dsimp only
  repeat' (first
    | with_reducible assumption | with_reducible apply apart_fillBuffer | with_reducible apply Apart.modFax
    | exact Apart.nobody | exact Apart.own | (refine Apart.of_eq ‹_ = (_, _)› ?_) | (dsimp only) | split)

theorem apart_feedPage {s0 s : State} {k : ContextId} {n : Nat} (kp : Apart k s0 s) : Apart k s0 (feedPage k n s) := by
  induction n generalizing s with
  | zero => exact kp
  | succ n ih =>
    unfold feedPage
    dsimp only
    split
    · exact ih (apart_feedBlock kp)
    · exact kp

theorem apart_feed {s0 s : State} {k : ContextId} (kp : Apart k s0 s) :
    Apart k s0 (feed k s) := by
  unfold feed
  try dsimp only
  repeat' (first
    | with_reducible assumption | with_reducible apply apart_feedPage | split)

theorem apart_sendPage {s0 s : State} {k : ContextId} (kp : Apart k s0 s) :
    Apart k s0 (sendPage k s) := by
  unfold sendPage
  try dsimp only
  repeat' (first
    | with_reducible assumption | with_reducible apply apart_feed | with_reducible apply apart_bufferFrom
    | with_reducible apply apart_enterPhase | with_reducible apply Apart.modFax)

theorem apart_faxGranted {s0 s : State} {k : ContextId} {source : Source} {kind : Option MsgKind} {blocks : Nat} (kp : Apart k s0 s) :
    Apart k s0 (faxGranted k source kind blocks s) := by
  unfold faxGranted
  try dsimp only
  repeat' (first
    | with_reducible assumption | with_reducible apply apart_bufferFrom | with_reducible apply apart_takeCapability
    | with_reducible apply apart_endSend | with_reducible apply apart_leaveSource
    | with_reducible apply Apart.modFax | exact Apart.nobody | exact Apart.own
    | (refine Apart.of_eq ‹_ = (_, _)› ?_) | (dsimp only) | split)

theorem apart_startFaxSend {s0 s : State} {k : ContextId} {home : Nat} {handle : Nat} (kp : Apart k s0 s) :
    Apart k s0 (startFaxSend k home handle s) := by
  unfold startFaxSend
  try dsimp only
  repeat' (first
    | with_reducible assumption | with_reducible apply apart_faxGranted
    | with_reducible apply apart_enterFaxSession | with_reducible apply apart_endSend
    | with_reducible apply apart_enterPhase | with_reducible apply apart_startFetch
    | with_reducible apply apart_readOpen | exact Apart.nobody | exact Apart.own
    | (refine Apart.of_eq ‹_ = (_, _)› ?_) | (dsimp only) | split)

theorem apart_faxFetchEnded {s0 s : State} {k : ContextId} {o : FetchOutcome} (kp : Apart k s0 s) :
    Apart k s0 (faxFetchEnded k o s) := by
  unfold faxFetchEnded
  try dsimp only
  repeat' (first
    | with_reducible assumption | with_reducible apply apart_endSend | with_reducible apply apart_endFetch
    | with_reducible apply Apart.modFax | exact Apart.nobody | exact Apart.own
    | (refine Apart.of_eq ‹_ = (_, _)› ?_) | (dsimp only) | split)

theorem apart_takeTrainVerdict {s0 s : State} {k : ContextId} {good : Bool} (kp : Apart k s0 s) :
    Apart k s0 (takeTrainVerdict k good s) := by
  unfold takeTrainVerdict
  try dsimp only
  repeat' (first
    | with_reducible assumption | with_reducible apply apart_sendPage | with_reducible apply apart_trainSend
    | with_reducible apply apart_endSend | with_reducible apply apart_pumpTrained
    | with_reducible apply apart_setPump | with_reducible apply Apart.modFax | exact Apart.nobody | exact Apart.own
    | (refine Apart.of_eq ‹_ = (_, _)› ?_) | (dsimp only) | split)

theorem apart_sendTrainingOver {s0 s : State} {k : ContextId} (kp : Apart k s0 s) :
    Apart k s0 (sendTrainingOver k s) := by
  unfold sendTrainingOver
  try dsimp only
  repeat' (first
    | with_reducible assumption | with_reducible apply apart_takeTrainVerdict
    | with_reducible apply apart_enterPhase | with_reducible apply Apart.modFax | exact Apart.nobody
    | exact Apart.own | (refine Apart.of_eq ‹_ = (_, _)› ?_) | (dsimp only) | split)

theorem apart_pageSent {s0 s : State} {k : ContextId} {last : Bool} (kp : Apart k s0 s) :
    Apart k s0 (pageSent k last s) := by
  unfold pageSent
  try dsimp only
  repeat' (first
    | with_reducible assumption | with_reducible apply apart_enterPhase | with_reducible apply apart_sendControl)

theorem apart_pageKept {s0 s : State} {k : ContextId} {verdict : Nat} (kp : Apart k s0 s) :
    Apart k s0 (pageKept k verdict s) := by
  unfold pageKept
  try dsimp only
  repeat' (first
    | with_reducible assumption | with_reducible apply apart_sendFaxPage | with_reducible apply Apart.modFax)

theorem apart_takePageGood {s0 s : State} {k : ContextId} (kp : Apart k s0 s) :
    Apart k s0 (takePageGood k s) := by
  unfold takePageGood
  try dsimp only
  repeat' (first
    | with_reducible assumption | with_reducible apply apart_pageKept | with_reducible apply apart_sendPage
    | with_reducible apply apart_sendDisconnect | exact Apart.nobody | exact Apart.own
    | (refine Apart.of_eq ‹_ = (_, _)› ?_) | (dsimp only) | split)

theorem apart_takePageRetrain {s0 s : State} {k : ContextId} (kp : Apart k s0 s) :
    Apart k s0 (takePageRetrain k s) := by
  unfold takePageRetrain
  try dsimp only
  repeat' (first
    | with_reducible assumption | with_reducible apply apart_pageKept | with_reducible apply apart_trainSend
    | with_reducible apply apart_sendDisconnect | with_reducible apply Apart.modFax | exact Apart.nobody
    | exact Apart.own | (refine Apart.of_eq ‹_ = (_, _)› ?_) | (dsimp only) | split)

theorem apart_takePageBad {s0 s : State} {k : ContextId} (kp : Apart k s0 s) :
    Apart k s0 (takePageBad k s) := by
  unfold takePageBad
  try dsimp only
  repeat' (first
    | with_reducible assumption | with_reducible apply apart_trainSend | with_reducible apply apart_endSend
    | with_reducible apply apart_sendFaxPage | with_reducible apply Apart.modFax | exact Apart.nobody
    | exact Apart.own | (refine Apart.of_eq ‹_ = (_, _)› ?_) | (dsimp only) | split)

theorem apart_takeDisconnect {s0 s : State} {k : ContextId} (kp : Apart k s0 s) :
    Apart k s0 (takeDisconnect k s) := by
  unfold takeDisconnect
  try dsimp only
  repeat' (first
    | with_reducible assumption | with_reducible apply apart_endReceive | with_reducible apply apart_faxSessionEnds
    | exact Apart.nobody | exact Apart.own | (refine Apart.of_eq ‹_ = (_, _)› ?_) | (dsimp only) | split)

theorem apart_faxWaitOver {s0 s : State} {k : ContextId} (kp : Apart k s0 s) :
    Apart k s0 (faxWaitOver k s) := by
  unfold faxWaitOver
  try dsimp only
  repeat' (first
    | with_reducible assumption | with_reducible apply apart_endSend | with_reducible apply apart_endReceive
    | with_reducible apply Apart.modFax | exact Apart.nobody | exact Apart.own
    | (refine Apart.of_eq ‹_ = (_, _)› ?_) | (dsimp only) | split)

theorem apart_faxDepositEnded {s0 s : State} {k : ContextId} {d : OutDeposit} {o : DepositOutcome} (kp : Apart k s0 s) :
    Apart k s0 (faxDepositEnded k d o s) := by
  unfold faxDepositEnded
  try dsimp only
  repeat' (first
    | with_reducible assumption | with_reducible apply apart_endReceive | exact Apart.nobody | exact Apart.own
    | (refine Apart.of_eq ‹_ = (_, _)› ?_) | (dsimp only) | split)

/-! ### Machine/Data.lean -/

theorem apart_sendLink {s0 s : State} {k : ContextId} {f : LinkFrame} (kp : Apart k s0 s) :
    Apart k s0 (sendLink k f s) :=
  kp.modLkc

theorem apart_checkFlow {s0 s : State} {k : ContextId} (kp : Apart k s0 s) :
    Apart k s0 (checkFlow k s) := by
  unfold checkFlow
  try dsimp only
  repeat' (first
    | with_reducible assumption | with_reducible apply apart_sendEvent | with_reducible apply Apart.modLkc
    | exact Apart.nobody | exact Apart.own | (refine Apart.of_eq ‹_ = (_, _)› ?_) | (dsimp only) | split)

theorem apart_makeBlock {s0 s : State} {k : ContextId} (kp : Apart k s0 s) :
    Apart k s0 (makeBlock k s) := by
  unfold makeBlock
  try dsimp only
  repeat' (first
    | with_reducible assumption | with_reducible apply apart_checkFlow | with_reducible apply apart_sendLink
    | with_reducible apply Apart.modLkc | exact Apart.nobody | exact Apart.own
    | (refine Apart.of_eq ‹_ = (_, _)› ?_) | (dsimp only) | split)

theorem apart_pumpLink {s0 s : State} {k : ContextId} (kp : Apart k s0 s) :
    Apart k s0 (pumpLink k s) := by
  unfold pumpLink
  try dsimp only
  repeat' (first
    | with_reducible assumption | with_reducible apply apart_makeBlock
    | (refine Apart.forEach ?_ (fun _ _ _ => ?_)))

theorem apart_releaseRemote {s0 s : State} {k : ContextId} (kp : Apart k s0 s) :
    Apart k s0 (releaseRemote k s) := by
  unfold releaseRemote
  try dsimp only
  repeat' (first
    | with_reducible assumption | with_reducible apply apart_sendLink | with_reducible apply Apart.modLkc
    | exact Apart.nobody | exact Apart.own | (refine Apart.of_eq ‹_ = (_, _)› ?_) | (dsimp only) | split)

theorem apart_offerDataRx {s0 s : State} {k : ContextId} {n : Nat} (kp : Apart k s0 s) :
    Apart k s0 (offerDataRx k n s).1 := by
  unfold offerDataRx
  try dsimp only
  repeat' (first
    | with_reducible assumption | with_reducible apply apart_offerStream | with_reducible apply Apart.modLkc
    | exact Apart.nobody | exact Apart.own | (refine Apart.of_eq ‹_ = (_, _)› ?_) | (dsimp only) | split)

theorem apart_offerAll {s0 s : State} {k : ContextId} {n : Nat} (kp : Apart k s0 s) : Apart k s0 (offerAll k n s) := by
  induction n generalizing s with
  | zero => exact kp
  | succ n ih =>
    unfold offerAll
    dsimp only
    split
    · exact kp
    · split
      · next e => exact ih (Apart.of_eq e (apart_offerDataRx kp))
      · next e => exact Apart.of_eq e (apart_offerDataRx kp)

theorem apart_pumpRx {s0 s : State} {k : ContextId} (kp : Apart k s0 s) :
    Apart k s0 (pumpRx k s) := by
  unfold pumpRx
  try dsimp only
  repeat' (first
    | with_reducible assumption | with_reducible apply apart_offerAll | with_reducible apply apart_releaseRemote)

theorem apart_reofferRx {s0 s : State} {k : ContextId} (kp : Apart k s0 s) :
    Apart k s0 (reofferRx k s) := by
  unfold reofferRx
  try dsimp only
  repeat' (first
    | with_reducible assumption | with_reducible apply apart_pumpRx | with_reducible apply apart_offerDataRx
    | exact Apart.nobody | exact Apart.own | (refine Apart.of_eq ‹_ = (_, _)› ?_) | (dsimp only) | split)

theorem apart_resendAll {s0 s : State} {k : ContextId} (kp : Apart k s0 s) :
    Apart k s0 (resendAll k s) := by
  unfold resendAll
  try dsimp only
  repeat' (first
    | with_reducible assumption | with_reducible apply apart_sendLink | with_reducible apply Apart.modLkc
    | (refine Apart.forEach ?_ (fun _ _ _ => ?_)))

theorem apart_takeAck {s0 s : State} {k : ContextId} {n : BitVec 4} (kp : Apart k s0 s) :
    Apart k s0 (takeAck k n s) := by
  unfold takeAck
  try dsimp only
  repeat' (first
    | with_reducible assumption | with_reducible apply apart_pumpLink | with_reducible apply Apart.modLkc
    | exact Apart.nobody | exact Apart.own | (refine Apart.of_eq ‹_ = (_, _)› ?_) | (dsimp only) | split)

theorem apart_takeHold {s0 s : State} {k : ContextId} {n : BitVec 4} (kp : Apart k s0 s) :
    Apart k s0 (takeHold k n s) := by
  unfold takeHold
  try dsimp only
  repeat' (first
    | with_reducible assumption | with_reducible apply apart_pumpLink | with_reducible apply Apart.modLkc | split)

theorem apart_takeLinkData {s0 s : State} {k : ContextId} {sequence : BitVec 4} {data : List Byte} (kp : Apart k s0 s) :
    Apart k s0 (takeLinkData k sequence data s) := by
  unfold takeLinkData
  try dsimp only
  repeat' (first
    | with_reducible assumption | with_reducible apply apart_pumpRx | with_reducible apply apart_sendLink
    | with_reducible apply Apart.modLkc | exact Apart.nobody | exact Apart.own
    | (refine Apart.of_eq ‹_ = (_, _)› ?_) | (dsimp only) | split)

theorem apart_startData {s0 s : State} {k : ContextId} {mode : DataMode} {bounds : Nat × Nat} (kp : Apart k s0 s) :
    Apart k s0 (startData k mode bounds s) :=
  kp.modCtx

theorem apart_dataEnds {s0 s : State} {k : ContextId} {cause : Byte} (kp : Apart k s0 s) :
    Apart k s0 (dataEnds k cause s) := by
  unfold dataEnds
  try dsimp only
  repeat' (first
    | with_reducible assumption | with_reducible apply apart_endCall)

theorem apart_retrain {s0 s : State} {k : ContextId} {target : Nat} {reason : RateReason} (kp : Apart k s0 s) :
    Apart k s0 (retrain k target reason s) := by
  unfold retrain
  try dsimp only
  repeat' (first
    | with_reducible assumption | with_reducible apply apart_dataEnds
    | with_reducible apply apart_setPump | with_reducible apply Apart.modQmn | exact Apart.nobody | exact Apart.own
    | (refine Apart.of_eq ‹_ = (_, _)› ?_) | (dsimp only) | split)

theorem apart_trainAgain {s0 s : State} {k : ContextId} (kp : Apart k s0 s) : Apart k s0 (trainAgain k s) :=
  kp.modQmn

theorem apart_askRetrain {s0 s : State} {k : ContextId} {reason : RateReason} (kp : Apart k s0 s) :
    Apart k s0 (askRetrain k reason s) := by
  unfold askRetrain
  try dsimp only
  repeat' (first
    | with_reducible assumption | with_reducible apply apart_trainAgain | with_reducible apply apart_retrain
    | exact Apart.nobody | exact Apart.own | (refine Apart.of_eq ‹_ = (_, _)› ?_) | (dsimp only) | split)

theorem apart_beginShift {s0 s : State} {k : ContextId} {target : Nat} {reason : RateReason} (kp : Apart k s0 s) :
    Apart k s0 (beginShift k target reason s) := by
  unfold beginShift
  try dsimp only
  repeat' (first
    | with_reducible assumption | with_reducible apply apart_setPump
    | with_reducible apply Apart.modQmn)

theorem apart_comeUp {s0 s : State} {k : ContextId} (kp : Apart k s0 s) :
    Apart k s0 (comeUp k s) := by
  unfold comeUp
  try dsimp only
  repeat' (first
    | with_reducible assumption | with_reducible apply apart_setPump | with_reducible apply Apart.modQmn)

theorem apart_resumeLink {s0 s : State} {k : ContextId} (kp : Apart k s0 s) :
    Apart k s0 (resumeLink k s) := by
  unfold resumeLink
  exact apart_releaseRemote (apart_pumpLink (apart_resendAll kp.modLkc))

theorem apart_shiftOver {s0 s : State} {k : ContextId} (kp : Apart k s0 s) :
    Apart k s0 (shiftOver k s) := by
  unfold shiftOver
  try dsimp only
  repeat' (first
    | with_reducible assumption | with_reducible apply apart_resumeLink | with_reducible apply apart_comeUp
    | with_reducible apply apart_sendEvent)

theorem apart_trainingOver {s0 s : State} {k : ContextId} (kp : Apart k s0 s) :
    Apart k s0 (trainingOver k s) := by
  unfold trainingOver
  try dsimp only
  repeat' (first
    | with_reducible assumption | with_reducible apply apart_resumeLink | with_reducible apply apart_comeUp
    | with_reducible apply apart_retrain | with_reducible apply apart_dataEnds
    | with_reducible apply apart_pumpTrained | with_reducible apply apart_sendEvent | exact Apart.nobody
    | exact Apart.own | (refine Apart.of_eq ‹_ = (_, _)› ?_) | (dsimp only) | split)

theorem apart_judgeRate {s0 s : State} {k : ContextId} (kp : Apart k s0 s) :
    Apart k s0 (judgeRate k s) := by
  unfold judgeRate
  try dsimp only
  repeat' (first
    | with_reducible assumption | with_reducible apply apart_beginShift | with_reducible apply apart_dataEnds
    | with_reducible apply Apart.modQmn | exact Apart.nobody | exact Apart.own
    | (refine Apart.of_eq ‹_ = (_, _)› ?_) | (dsimp only) | split)

theorem apart_dataReading {s0 s : State} {k : ContextId} {r : Nat} (kp : Apart k s0 s) :
    Apart k s0 (dataReading k r s) := by
  unfold dataReading
  try dsimp only
  repeat' (first
    | with_reducible assumption | with_reducible apply apart_judgeRate | with_reducible apply apart_trainingOver
    | with_reducible apply apart_retrain | with_reducible apply Apart.modQmn | exact Apart.nobody | exact Apart.own
    | (refine Apart.of_eq ‹_ = (_, _)› ?_) | (dsimp only) | split)

theorem apart_takeShiftRequest {s0 s : State} {k : ContextId} {j : Nat} (kp : Apart k s0 s) :
    Apart k s0 (takeShiftRequest k j s) := by
  unfold takeShiftRequest
  try dsimp only
  repeat' (first
    | with_reducible assumption | with_reducible apply apart_beginShift | with_reducible apply apart_dataEnds
    | exact Apart.nobody | exact Apart.own | (refine Apart.of_eq ‹_ = (_, _)› ?_) | (dsimp only) | split)

theorem apart_resendOver {s0 s : State} {k : ContextId} (kp : Apart k s0 s) :
    Apart k s0 (resendOver k s) := by
  unfold resendOver
  try dsimp only
  repeat' (first
    | with_reducible assumption | with_reducible apply apart_dataEnds | with_reducible apply apart_resendAll
    | with_reducible apply Apart.modLkc | exact Apart.nobody | exact Apart.own
    | (refine Apart.of_eq ‹_ = (_, _)› ?_) | (dsimp only) | split)

theorem apart_takeTx {s0 s : State} {k : ContextId} {bytes : List Byte} (kp : Apart k s0 s) :
    Apart k s0 (takeTx k bytes s) := by
  unfold takeTx
  try dsimp only
  repeat' (first
    | with_reducible assumption | with_reducible apply apart_checkFlow | with_reducible apply apart_sendEvent
    | with_reducible apply Apart.modLkc | exact Apart.nobody | exact Apart.own
    | (refine Apart.of_eq ‹_ = (_, _)› ?_) | (dsimp only) | split)

/-! ### Machine/Dial.lean -/

theorem apart_enterDiscriminating {s0 s : State} {k : ContextId} (kp : Apart k s0 s) :
    Apart k s0 (enterDiscriminating k s) := by
  unfold enterDiscriminating
  try dsimp only
  repeat' (first
    | with_reducible assumption | with_reducible apply apart_beginPlay | with_reducible apply Apart.modCtx)

theorem apart_enterAnswering {s0 s : State} {k : ContextId} (kp : Apart k s0 s) :
    Apart k s0 (enterAnswering k s) := by
  unfold enterAnswering
  try dsimp only
  repeat' (first
    | with_reducible assumption | with_reducible apply apart_enterDiscriminating
    | with_reducible apply Apart.modCtx | exact Apart.nobody | exact Apart.own
    | (refine Apart.of_eq ‹_ = (_, _)› ?_) | (dsimp only) | split)

theorem apart_collectionEnds {s0 s : State} {k : ContextId} {mailbox : Nat} (kp : Apart k s0 s) :
    Apart k s0 (collectionEnds k mailbox s) := by
  unfold collectionEnds
  try dsimp only
  repeat' (first
    | with_reducible assumption | with_reducible apply apart_enterAnswering | with_reducible apply apart_sendEvent
    | with_reducible apply Apart.modCtx | exact Apart.nobody | exact Apart.own
    | (refine Apart.of_eq ‹_ = (_, _)› ?_) | (dsimp only) | split)

theorem apart_enterAddressing {s0 s : State} {k : ContextId} (kp : Apart k s0 s) :
    Apart k s0 (enterAddressing k s) := by
  unfold enterAddressing
  try dsimp only
  repeat' (first
    | with_reducible assumption | with_reducible apply apart_collectionEnds | with_reducible apply Apart.modCtx
    | exact Apart.nobody | exact Apart.own | (refine Apart.of_eq ‹_ = (_, _)› ?_) | (dsimp only) | split)

theorem apart_takeAddressDigit {s0 s : State} {k : ContextId} {d : Digit} (kp : Apart k s0 s) :
    Apart k s0 (takeAddressDigit k d s) := by
  unfold takeAddressDigit
  try dsimp only
  repeat' (first
    | with_reducible assumption | with_reducible apply apart_collectionEnds | with_reducible apply Apart.modCtx
    | exact Apart.nobody | exact Apart.own | (refine Apart.of_eq ‹_ = (_, _)› ?_) | (dsimp only) | split)

theorem apart_decideFax {s0 s : State} {k : ContextId} (kp : Apart k s0 s) :
    Apart k s0 (decideFax k s) := by
  unfold decideFax
  try dsimp only
  repeat' (first
    | with_reducible assumption | with_reducible apply apart_startFaxReceive
    | with_reducible apply apart_stopGreeting | with_reducible apply apart_sendEvent)

theorem apart_decideData {s0 s : State} {k : ContextId} (kp : Apart k s0 s) :
    Apart k s0 (decideData k s) := by
  unfold decideData
  try dsimp only
  repeat' (first
    | with_reducible assumption | with_reducible apply apart_startData | with_reducible apply apart_stopGreeting
    | with_reducible apply apart_sendEvent)

theorem apart_decideVoice {s0 s : State} {k : ContextId} {d : Digit} (kp : Apart k s0 s) :
    Apart k s0 (decideVoice k d s) := by
  unfold decideVoice
  try dsimp only
  repeat' (first
    | with_reducible assumption | with_reducible apply apart_enterWaiting | with_reducible apply apart_stopGreeting
    | with_reducible apply apart_sendEvent | with_reducible apply Apart.modCtx)

theorem apart_enterProgress {s0 s : State} {k : ContextId} (kp : Apart k s0 s) : Apart k s0 (enterProgress k s) :=
  kp.modCtx

theorem apart_dialPhase {s0 s : State} {k : ContextId} {phase : DialPhase} {left : Nat} {code : LineCode} (kp : Apart k s0 s) :
    Apart k s0 (dialPhase k phase left code s) := by
  unfold dialPhase
  try dsimp only
  repeat' (first
    | with_reducible assumption | with_reducible apply Apart.modCtx | with_reducible apply Apart.modDgn)

theorem apart_startCharacters {s0 s : State} {k : ContextId} {n : Nat} (kp : Apart k s0 s) :
    Apart k s0 (startCharacters k n s) := by
  induction n generalizing s with
  | zero => exact apart_enterProgress kp
  | succ n ih =>
    unfold startCharacters
    dsimp only
    have k1 := ih (kp.modDgn (f := fun d => { d with pos := d.pos + 1 }))
    split
    · exact apart_enterProgress kp
    · split
      · exact apart_dialPhase kp
      · split
        · split
          · exact k1
          · exact apart_setTimer (apart_dialPhase kp)
        · split
          · split
            · exact apart_dialPhase kp.modDgn
            · exact k1
          · exact (apart_dialPhase kp).modCtx

theorem apart_startCharacter {s0 s : State} {k : ContextId} (kp : Apart k s0 s) :
    Apart k s0 (startCharacter k s) := by
  unfold startCharacter
  try dsimp only
  repeat' (first
    | with_reducible assumption | with_reducible apply apart_startCharacters)

theorem apart_nextCharacter {s0 s : State} {k : ContextId} (kp : Apart k s0 s) :
    Apart k s0 (nextCharacter k s) := by
  unfold nextCharacter
  try dsimp only
  repeat' (first
    | with_reducible assumption | with_reducible apply apart_startCharacter | with_reducible apply apart_setTimer
    | with_reducible apply Apart.modDgn)

theorem apart_enterDialling {s0 s : State} {k : ContextId} (kp : Apart k s0 s) :
    Apart k s0 (enterDialling k s) := by
  unfold enterDialling
  try dsimp only
  repeat' (first
    | with_reducible assumption | with_reducible apply apart_startCharacter | with_reducible apply Apart.modCtx)

theorem apart_phaseOver {s0 s : State} {k : ContextId} (kp : Apart k s0 s) :
    Apart k s0 (phaseOver k s) := by
  unfold phaseOver
  try dsimp only
  repeat' (first
    | with_reducible assumption | with_reducible apply apart_nextCharacter | with_reducible apply apart_dialPhase
    | with_reducible apply Apart.modDgn | exact Apart.nobody | exact Apart.own
    | (refine Apart.of_eq ‹_ = (_, _)› ?_) | (dsimp only) | split)

theorem apart_takeDialTone {s0 s : State} {k : ContextId} (kp : Apart k s0 s) :
    Apart k s0 (takeDialTone k s) := by
  unfold takeDialTone
  try dsimp only
  repeat' (first
    | with_reducible assumption | with_reducible apply apart_nextCharacter | exact Apart.nobody | exact Apart.own
    | (refine Apart.of_eq ‹_ = (_, _)› ?_) | (dsimp only) | split)

theorem apart_answered {s0 s : State} {k : ContextId} (kp : Apart k s0 s) :
    Apart k s0 (answered k s) := by
  unfold answered
  try dsimp only
  repeat' (first
    | with_reducible assumption | with_reducible apply apart_startData | with_reducible apply apart_startFaxSend
    | with_reducible apply apart_beginPlay | with_reducible apply apart_enterWaiting
    | with_reducible apply apart_outdialDone | with_reducible apply Apart.modCtx | exact Apart.nobody
    | exact Apart.own | (refine Apart.of_eq ‹_ = (_, _)› ?_) | (dsimp only) | split)

/-! ### Machine/Detector.lean -/

theorem apart_digitInSession {s0 s : State} {k : ContextId} {d : Digit} (kp : Apart k s0 s) :
    Apart k s0 (digitInSession k d s) := by
  unfold digitInSession
  try dsimp only
  repeat' (first
    | with_reducible assumption | with_reducible apply apart_playbackOver | with_reducible apply apart_enterWaiting
    | with_reducible apply apart_finishRecording | with_reducible apply apart_stopPlayback
    | with_reducible apply apart_sendEvent | with_reducible apply Apart.modVoice | exact Apart.nobody
    | exact Apart.own | (refine Apart.of_eq ‹_ = (_, _)› ?_) | (dsimp only) | split)

theorem apart_takeDigit {s0 s : State} {k : ContextId} {d : Digit} (kp : Apart k s0 s) :
    Apart k s0 (takeDigit k d s) := by
  unfold takeDigit
  try dsimp only
  repeat' (first
    | with_reducible assumption | with_reducible apply apart_digitInSession
    | with_reducible apply apart_decideVoice | with_reducible apply apart_takeAddressDigit | exact Apart.nobody
    | exact Apart.own | (refine Apart.of_eq ‹_ = (_, _)› ?_) | (dsimp only) | split)

theorem apart_takeTone {s0 s : State} {k : ContextId} {cause : Byte} (kp : Apart k s0 s) :
    Apart k s0 (takeTone k cause s) := by
  unfold takeTone
  try dsimp only
  repeat' (first
    | with_reducible assumption | with_reducible apply apart_endCall | exact Apart.nobody | exact Apart.own
    | (refine Apart.of_eq ‹_ = (_, _)› ?_) | (dsimp only) | split)

theorem apart_takeReport {s0 s : State} {k : ContextId} {listening : Bool} {r : Report} (kp : Apart k s0 s) :
    Apart k s0 (takeReport k listening r s) := by
  unfold takeReport
  try dsimp only
  repeat' (first
    | with_reducible assumption | with_reducible apply apart_takeTone | with_reducible apply apart_takeDigit
    | with_reducible apply apart_takeDialTone | with_reducible apply apart_decideData
    | with_reducible apply apart_decideFax | with_reducible apply Apart.modVoice | exact Apart.nobody
    | exact Apart.own | (refine Apart.of_eq ‹_ = (_, _)› ?_) | (dsimp only) | split)

theorem apart_detectorBlockEnds {s0 s : State} {k : ContextId} {m : Measurement} (kp : Apart k s0 s) :
    Apart k s0 (detectorBlockEnds k m s) := by
  unfold detectorBlockEnds
  try dsimp only
  repeat' (first
    | with_reducible assumption | with_reducible apply apart_takeReport | with_reducible apply Apart.modDetector
    | (refine Apart.forEach ?_ (fun _ _ _ => ?_)))

/-! ### Machine/Line.lean -/

theorem apart_afterDeposit {s0 s : State} {k : ContextId} (kp : Apart k s0 s) :
    Apart k s0 (afterDeposit k s) := by
  unfold afterDeposit
  try dsimp only
  repeat' (first
    | with_reducible assumption | with_reducible apply apart_beginFaxDeposit
    | with_reducible apply apart_beginDeposit | exact Apart.nobody | exact Apart.own
    | (refine Apart.of_eq ‹_ = (_, _)› ?_) | (dsimp only) | split)

theorem apart_depositEnds {s0 s : State} {k : ContextId} {d : OutDeposit} {o : DepositOutcome} (kp : Apart k s0 s) :
    Apart k s0 (depositEnds k d o s) := by
  unfold depositEnds
  try dsimp only
  repeat' (first
    | with_reducible assumption | with_reducible apply apart_afterDeposit
    | with_reducible apply apart_faxDepositEnded | with_reducible apply apart_recordingDepositEnded
    | with_reducible apply apart_freeDeposit | exact Apart.nobody | exact Apart.own
    | (refine Apart.of_eq ‹_ = (_, _)› ?_) | (dsimp only) | split)

theorem apart_fetchEnds {s0 s : State} {k : ContextId} {o : FetchOutcome} (kp : Apart k s0 s) :
    Apart k s0 (fetchEnds k o s) := by
  unfold fetchEnds
  try dsimp only
  repeat' (first
    | with_reducible assumption | with_reducible apply apart_faxFetchEnded
    | with_reducible apply apart_playFetchEnded | with_reducible apply apart_endFetch | exact Apart.nobody
    | exact Apart.own | (refine Apart.of_eq ‹_ = (_, _)› ?_) | (dsimp only) | split)

/-! ### Telling the notices -/

theorem apart_undelivered {s0 s : State} {k : ContextId} {kind : Byte} {serial : Nat} (kp : Apart k s0 s) :
    Apart k s0 (undelivered k kind serial s) := by
  unfold undelivered
  repeat' (first
    | with_reducible assumption | with_reducible apply apart_fetchEnds | with_reducible apply apart_depositEnds
    | split)

theorem apart_settleNotices {s0 s : State} {k : ContextId} {n : Nat} (h : ∀ x ∈ s.rau.notices, x.context = k)
    (kp : Apart k s0 s) : Apart k s0 (settleNotices n s) := by
  induction n generalizing s with
  | zero => exact kp
  | succ n ih =>
    unfold settleNotices
    split
    · exact kp
    · next x rest e =>
      have hr : ∀ y ∈ rest, y.context = k := fun y hy => h y (by rw [e]; exact List.mem_cons_of_mem _ hy)
      have hx : x.context = k := h x (by rw [e]; exact List.mem_cons_self)
      rw [hx]
      have k1 : Apart k s0 (s.modRau fun r => { r with notices := rest }) := kp.trans ⟨fun _ _ => rfl, fun _ => hr⟩
      exact ih ((apart_undelivered (Apart.refl k _)).notices hr) (apart_undelivered k1)

/-- A command about one context, with every notice it causes told, leaves the other contexts alone. -/
theorem apart_settle {s t : State} {k : ContextId} (h : s.Quiet) (kp : Apart k s t) : Apart k s (settle t) := by
  have hn : ∀ x ∈ t.rau.notices, x.context = k := kp.notices fun x hx => by rw [h] at hx; cases hx
  exact (apart_settleNotices hn kp).trans ⟨fun _ _ => rfl, fun _ _ hx => nomatch hx⟩

end Sys2Proof.Machine
end

