-- ==== Sys2Proof/Laws/Memory.lean ====
section
/-! SUPPORT. The message memory keeps its canonical form, and a byte reads as it was written. -/
namespace Sys2Proof.Machine

/-- The cells of a run of bytes stand inside the run. -/
theorem Memory.cellsAt_bounds (bs : List Byte) (a : Nat) :
    ∀ c ∈ Memory.cellsAt a bs, a ≤ c.1 ∧ c.1 < a + bs.length := by
  induction bs generalizing a with
  | nil => simp [Memory.cellsAt]
  | cons b bs ih =>
    intro c hc
    have key : ∀ c ∈ Memory.cellsAt (a + 1) bs, a ≤ c.1 ∧ c.1 < a + (b :: bs).length := fun c hc => by
      have := ih (a + 1) c hc
      simp only [List.length_cons]
      omega
    unfold Memory.cellsAt at hc
    split at hc
    · exact key c hc
    · rcases List.mem_cons.1 hc with rfl | hc
      · simp
      · exact key c hc

/-- The cells of a run of bytes are in canonical form. -/
theorem Memory.cellsAt_wf (bs : List Byte) (a : Nat) : Memory.wf (Memory.cellsAt a bs) := by
  induction bs generalizing a with
  | nil => exact ⟨List.Pairwise.nil, by simp [Memory.cellsAt]⟩
  | cons b bs ih =>
    unfold Memory.cellsAt
    split
    · exact ih (a + 1)
    · refine ⟨List.pairwise_cons.2 ⟨fun c hc => ?_, (ih (a + 1)).1⟩, fun c hc => ?_⟩
      · have := Memory.cellsAt_bounds bs (a + 1) c hc
        simp only
        omega
      · rcases List.mem_cons.1 hc with rfl | hc
        · assumption
        · exact (ih (a + 1)).2 c hc

/-- A write keeps the canonical form. -/
theorem Memory.write_wf (a : Nat) (bs : List Byte) {m : List Host.Cell} (h : Memory.wf m) :
    Memory.wf (Memory.write a bs m) := by
  have hb := Memory.cellsAt_bounds bs a
  have hc := Memory.cellsAt_wf bs a
  refine ⟨?_, fun c hm => ?_⟩
  · refine List.pairwise_append.2 ⟨List.pairwise_append.2 ⟨h.1.filter _, hc.1, fun x hx y hy => ?_⟩,
      h.1.filter _, fun x hx y hy => ?_⟩
    · have hx := (List.mem_filter.1 hx).2
      have := hb y hy
      simp only [decide_eq_true_eq] at hx
      omega
    · have hy := (List.mem_filter.1 hy).2
      simp only [decide_eq_true_eq] at hy
      rcases List.mem_append.1 hx with hx | hx
      · have hx := (List.mem_filter.1 hx).2
        simp only [decide_eq_true_eq] at hx
        omega
      · have := hb x hx
        omega
  · rcases List.mem_append.1 hm with hm | hm
    · rcases List.mem_append.1 hm with hm | hm
      · exact h.2 c (List.mem_filter.1 hm).1
      · exact hc.2 c hm
    · exact h.2 c (List.mem_filter.1 hm).1

/-- A write of a block keeps the canonical form. -/
theorem Memory.writeBlock_wf (n : Nat) (block : List Byte) {m : List Host.Cell} (h : Memory.wf m) :
    Memory.wf (Memory.writeBlock n block m) := Memory.write_wf _ _ h

/-- The memory at reset is in canonical form. -/
theorem Memory.reset_wf : Memory.wf State.reset.msc.mem := by decide

theorem Memory.find_cellsAt (bs : List Byte) (a x : Nat) :
    ((Memory.cellsAt a bs).find? fun c => c.1 == x).map (·.2)
      = if a ≤ x ∧ x < a + bs.length ∧ bs.getD (x - a) Memory.unlisted ≠ Memory.unlisted
        then some (bs.getD (x - a) Memory.unlisted) else none := by
  induction bs generalizing a with
  | nil => simp [Memory.cellsAt]
  | cons b bs ih =>
    have step := ih (a + 1)
    unfold Memory.cellsAt
    rcases Nat.lt_trichotomy x a with h | h | h
    · have e1 : ¬ a ≤ x := by omega
      have e2 : ¬ a + 1 ≤ x := by omega
      split
      · simp [step, e1, e2]
      · have : (a == x) = false := by simp; omega
        simp [this, step, e1, e2]
    · subst h
      have e2 : ¬ x + 1 ≤ x := by omega
      split
      · next hb => simp [step, hb]
      · next hb => simp [hb]
    · have e : x - a = (x - (a + 1)) + 1 := by omega
      have e1 : a ≤ x := by omega
      have e2 : a + 1 ≤ x := by omega
      have e3 : x < a + 1 + bs.length ↔ x < a + (bs.length + 1) := by omega
      split
      · simp [step, e, e1, e2, e3]
      · have : (a == x) = false := by simp; omega
        simp [this, step, e, e1, e2, e3]

theorem Memory.readByte_eq (m : List Host.Cell) (x : Nat) :
    Memory.readByte m x = ((m.find? fun c => c.1 == x).map (·.2)).getD Memory.unlisted := by
  unfold Memory.readByte
  cases m.find? fun c => c.1 == x <;> rfl

theorem Memory.find_filter (m : List Host.Cell) (p : Host.Cell → Bool) (x : Nat)
    (hp : ∀ c : Host.Cell, c.1 = x → p c = true) :
    ((m.filter p).find? fun c => c.1 == x) = m.find? fun c => c.1 == x := by
  induction m with
  | nil => rfl
  | cons c m ih =>
    by_cases hx : c.1 = x
    · simp [hp c hx, hx]
    · by_cases h : p c <;> simp [h, hx, ih]

theorem Memory.find_filter_none (m : List Host.Cell) (p : Host.Cell → Bool) (x : Nat)
    (hp : ∀ c : Host.Cell, c.1 = x → p c = false) :
    ((m.filter p).find? fun c => c.1 == x) = none := by
  simp only [List.find?_eq_none, List.mem_filter, beq_iff_eq]
  rintro c ⟨-, hc⟩ hx
  simp [hp c hx] at hc

/-- A byte inside the run written reads as it was written. -/
theorem Memory.readByte_write_inside (a : Nat) (bs : List Byte) (m : List Host.Cell) (x : Nat)
    (h1 : a ≤ x) (h2 : x < a + bs.length) :
    Memory.readByte (Memory.write a bs m) x = bs.getD (x - a) Memory.unlisted := by
  have f1 := Memory.find_filter_none m (fun c => decide (c.1 < a)) x (by intro c hc; simp; omega)
  have f2 := Memory.find_filter_none m (fun c => decide (a + bs.length ≤ c.1)) x (by intro c hc; simp; omega)
  have f3 := Memory.find_cellsAt bs a x
  rw [Memory.readByte_eq]
  simp only [Memory.write, List.find?_append, f1, f2, Option.none_or, Option.or_none, f3]
  by_cases hb : bs.getD (x - a) Memory.unlisted = Memory.unlisted
  · rw [if_neg (by simp only [hb]; simp)]
    exact hb.symm
  · rw [if_pos ⟨h1, h2, hb⟩]
    rfl

/-- A byte outside the run written reads as before. -/
theorem Memory.readByte_write_outside (a : Nat) (bs : List Byte) (m : List Host.Cell) (x : Nat)
    (h : x < a ∨ a + bs.length ≤ x) :
    Memory.readByte (Memory.write a bs m) x = Memory.readByte m x := by
  have f3 : ((Memory.cellsAt a bs).find? fun c => c.1 == x) = none := by
    simp only [List.find?_eq_none, beq_iff_eq]
    intro c hc hx
    have := Memory.cellsAt_bounds bs a c hc
    omega
  rw [Memory.readByte_eq, Memory.readByte_eq]
  rcases h with h | h
  · have f1 := Memory.find_filter m (fun c => decide (c.1 < a)) x (by intro c hc; simp; omega)
    have f2 := Memory.find_filter_none m (fun c => decide (a + bs.length ≤ c.1)) x (by intro c hc; simp; omega)
    simp [Memory.write, List.find?_append, f1, f2, f3]
  · have f1 := Memory.find_filter_none m (fun c => decide (c.1 < a)) x (by intro c hc; simp; omega)
    have f2 := Memory.find_filter m (fun c => decide (a + bs.length ≤ c.1)) x (by intro c hc; simp; omega)
    simp [Memory.write, List.find?_append, f1, f2, f3]

/-! ### The link table -/

/-- The canonical form of the link table: block numbers strictly rising. -/
abbrev Links.wf (l : List (Nat × Nat)) : Prop := l.Pairwise fun a b => a.1 < b.1

/-- Setting a link keeps the canonical form. -/
theorem Links.set_wf (n : Nat) (v : Option Nat) {l : List (Nat × Nat)} (h : Links.wf l) : Links.wf (Links.set n v l) := by
  unfold Links.set
  refine List.pairwise_append.2 ⟨List.pairwise_append.2 ⟨h.filter _, ?_, ?_⟩, h.filter _, ?_⟩
  · cases v <;> simp
  · intro x hx y hy
    have hx := (List.mem_filter.1 hx).2
    cases v <;> simp_all
  · intro x hx y hy
    have hy := (List.mem_filter.1 hy).2
    rcases List.mem_append.1 hx with hx | hx
    · have hx := (List.mem_filter.1 hx).2
      simp_all
      omega
    · cases v <;> simp_all

/-- A link that has been set reads as it was set. -/
theorem Links.next_set (n : Nat) (v : Option Nat) (l : List (Nat × Nat)) : Links.next (Links.set n v l) n = v := by
  have f1 : (l.filter fun e => decide (e.1 < n)).find? (fun e => e.1 == n) = none := by
    simp only [List.find?_eq_none, List.mem_filter]; rintro e ⟨-, he⟩; simp at *; omega
  have f2 : (l.filter fun e => decide (n < e.1)).find? (fun e => e.1 == n) = none := by
    simp only [List.find?_eq_none, List.mem_filter]; rintro e ⟨-, he⟩; simp at *; omega
  cases v <;> simp [Links.next, Links.set, List.find?_append, f1, f2]

/-- Every other link stands. -/
theorem Links.next_set_ne (n m : Nat) (v : Option Nat) (l : List (Nat × Nat)) (h : m ≠ n) :
    Links.next (Links.set n v l) m = Links.next l m := by
  have f3 : (v.toList.map fun x => (n, x)).find? (fun e => e.1 == m) = none := by
    cases v
    · rfl
    · simp [Ne.symm h]
  induction l with
  | nil => simp only [Links.next, Links.set, List.filter_nil, List.nil_append, List.append_nil, f3]; rfl
  | cons e l ih =>
    simp only [Links.next, Links.set, List.find?_append, f3, Option.or_none] at *
    by_cases he : e.1 = m
    · rcases Nat.lt_or_gt_of_ne h with hm | hm
      · simp [List.filter_cons, he, hm]
      · have : ¬ m < n := by omega
        have none' : (l.filter fun e => decide (e.1 < n)).find? (fun e => e.1 == m) = none := by
          simp only [List.find?_eq_none, List.mem_filter]; rintro e ⟨-, he⟩; simp at *; omega
        simp [he, hm, this, none']
    · by_cases h1 : e.1 < n <;> by_cases h2 : n < e.1 <;>
        simp_all

end Sys2Proof.Machine
end

