-- ==== Sys2Proof/Laws/Settle.lean ====
section
/-! SUPPORT. What queueing a cell leaves alone, and that a quiet state has no notice to tell. -/
namespace Sys2Proof.Machine

/-- A state with no notice has nothing to settle (log entry 9). -/
theorem settle_quiet {s : State} (h : s.Quiet) : settle s = s := by
  have e : settleNotices 64 s = s := by
    unfold settleNotices
    rw [h]
  unfold settle
  rw [e]
  obtain ⟨hwi, clc, cfu, tcm, ctx, msc, rau, free, pending⟩ := s
  obtain ⟨deposits, blocks, outbound, fetches, serial, notices⟩ := rau
  cases h
  rfl

section
variable (s : State) (k : Option ContextId) (c : Cell) (n : Nat) (e : Event)

@[simp] theorem enqueue_hwi : (enqueue c n s).hwi = s.hwi := rfl
@[simp] theorem enqueue_cfu : (enqueue c n s).cfu = s.cfu := rfl
@[simp] theorem enqueue_tcm : (enqueue c n s).tcm = s.tcm := rfl
@[simp] theorem enqueue_ctx : (enqueue c n s).ctx = s.ctx := rfl
@[simp] theorem enqueue_msc : (enqueue c n s).msc = s.msc := rfl
@[simp] theorem enqueue_rau : (enqueue c n s).rau = s.rau := rfl
@[simp] theorem enqueue_free : (enqueue c n s).free = s.free := rfl
@[simp] theorem enqueue_pending : (enqueue c n s).pending = s.pending := rfl

@[simp] theorem countUndelivered_hwi : (countUndelivered s).hwi = s.hwi := rfl
@[simp] theorem countUndelivered_cfu : (countUndelivered s).cfu = s.cfu := rfl
@[simp] theorem countUndelivered_tcm : (countUndelivered s).tcm = s.tcm := rfl
@[simp] theorem countUndelivered_ctx : (countUndelivered s).ctx = s.ctx := rfl
@[simp] theorem countUndelivered_msc : (countUndelivered s).msc = s.msc := rfl
@[simp] theorem countUndelivered_rau : (countUndelivered s).rau = s.rau := rfl
@[simp] theorem countUndelivered_free : (countUndelivered s).free = s.free := rfl
@[simp] theorem countUndelivered_pending : (countUndelivered s).pending = s.pending := rfl

@[simp] theorem countLostReport_hwi : (countLostReport s).hwi = s.hwi := rfl
@[simp] theorem countLostReport_clc : (countLostReport s).clc = s.clc := rfl
@[simp] theorem countLostReport_tcm : (countLostReport s).tcm = s.tcm := rfl
@[simp] theorem countLostReport_ctx : (countLostReport s).ctx = s.ctx := rfl
@[simp] theorem countLostReport_msc : (countLostReport s).msc = s.msc := rfl
@[simp] theorem countLostReport_rau : (countLostReport s).rau = s.rau := rfl
@[simp] theorem countLostReport_free : (countLostReport s).free = s.free := rfl
@[simp] theorem countLostReport_pending : (countLostReport s).pending = s.pending := rfl

@[simp] theorem offerReport_hwi : (offerReport c s).hwi = s.hwi := by unfold offerReport; split <;> rfl
@[simp] theorem offerReport_tcm : (offerReport c s).tcm = s.tcm := by unfold offerReport; split <;> rfl
@[simp] theorem offerReport_ctx : (offerReport c s).ctx = s.ctx := by unfold offerReport; split <;> rfl
@[simp] theorem offerReport_msc : (offerReport c s).msc = s.msc := by unfold offerReport; split <;> rfl
@[simp] theorem offerReport_rau : (offerReport c s).rau = s.rau := by unfold offerReport; split <;> rfl
@[simp] theorem offerReport_free : (offerReport c s).free = s.free := by unfold offerReport; split <;> rfl
@[simp] theorem offerReport_pending : (offerReport c s).pending = s.pending := by unfold offerReport; split <;> rfl

@[simp] theorem offerOther_hwi : (offerOther c n none s).hwi = s.hwi := by unfold offerOther; split <;> rfl
@[simp] theorem offerOther_cfu : (offerOther c n none s).cfu = s.cfu := by unfold offerOther; split <;> rfl
@[simp] theorem offerOther_tcm : (offerOther c n none s).tcm = s.tcm := by unfold offerOther; split <;> rfl
@[simp] theorem offerOther_ctx : (offerOther c n none s).ctx = s.ctx := by unfold offerOther; split <;> rfl
@[simp] theorem offerOther_msc : (offerOther c n none s).msc = s.msc := by unfold offerOther; split <;> rfl
@[simp] theorem offerOther_rau : (offerOther c n none s).rau = s.rau := by unfold offerOther; split <;> rfl
@[simp] theorem offerOther_free : (offerOther c n none s).free = s.free := by unfold offerOther; split <;> rfl
@[simp] theorem offerOther_pending : (offerOther c n none s).pending = s.pending := by unfold offerOther; split <;> rfl

@[simp] theorem sendEvent_hwi : (sendEvent k e s).hwi = s.hwi := by unfold sendEvent; simp
@[simp] theorem sendEvent_tcm : (sendEvent k e s).tcm = s.tcm := by unfold sendEvent; simp
@[simp] theorem sendEvent_ctx : (sendEvent k e s).ctx = s.ctx := by unfold sendEvent; simp
@[simp] theorem sendEvent_msc : (sendEvent k e s).msc = s.msc := by unfold sendEvent; simp
@[simp] theorem sendEvent_rau : (sendEvent k e s).rau = s.rau := by unfold sendEvent; simp
@[simp] theorem sendEvent_free : (sendEvent k e s).free = s.free := by unfold sendEvent; simp
@[simp] theorem sendEvent_pending : (sendEvent k e s).pending = s.pending := by unfold sendEvent; simp

@[simp] theorem sendAnswerWith_hwi (r x y : Byte) : (sendAnswerWith c r x y s).hwi = s.hwi := by unfold sendAnswerWith; simp
@[simp] theorem sendAnswerWith_tcm (r x y : Byte) : (sendAnswerWith c r x y s).tcm = s.tcm := by unfold sendAnswerWith; simp
@[simp] theorem sendAnswerWith_ctx (r x y : Byte) : (sendAnswerWith c r x y s).ctx = s.ctx := by unfold sendAnswerWith; simp
@[simp] theorem sendAnswerWith_msc (r x y : Byte) : (sendAnswerWith c r x y s).msc = s.msc := by unfold sendAnswerWith; simp
@[simp] theorem sendAnswerWith_rau (r x y : Byte) : (sendAnswerWith c r x y s).rau = s.rau := by unfold sendAnswerWith; simp
@[simp] theorem sendAnswerWith_free (r x y : Byte) : (sendAnswerWith c r x y s).free = s.free := by unfold sendAnswerWith; simp
@[simp] theorem sendAnswerWith_pending (r x y : Byte) : (sendAnswerWith c r x y s).pending = s.pending := by unfold sendAnswerWith; simp

@[simp] theorem sendAnswer_hwi (r : Byte) : (sendAnswer c r s).hwi = s.hwi := by unfold sendAnswer; simp
@[simp] theorem sendAnswer_tcm (r : Byte) : (sendAnswer c r s).tcm = s.tcm := by unfold sendAnswer; simp
@[simp] theorem sendAnswer_ctx (r : Byte) : (sendAnswer c r s).ctx = s.ctx := by unfold sendAnswer; simp
@[simp] theorem sendAnswer_msc (r : Byte) : (sendAnswer c r s).msc = s.msc := by unfold sendAnswer; simp
@[simp] theorem sendAnswer_rau (r : Byte) : (sendAnswer c r s).rau = s.rau := by unfold sendAnswer; simp
@[simp] theorem sendAnswer_free (r : Byte) : (sendAnswer c r s).free = s.free := by unfold sendAnswer; simp
@[simp] theorem sendAnswer_pending (r : Byte) : (sendAnswer c r s).pending = s.pending := by unfold sendAnswer; simp

@[simp] theorem sendRelease_hwi (ch : Channel) : (sendRelease ch s).hwi = s.hwi := by unfold sendRelease; simp
@[simp] theorem sendRelease_cfu (ch : Channel) : (sendRelease ch s).cfu = s.cfu := by unfold sendRelease; simp
@[simp] theorem sendRelease_tcm (ch : Channel) : (sendRelease ch s).tcm = s.tcm := by unfold sendRelease; simp
@[simp] theorem sendRelease_ctx (ch : Channel) : (sendRelease ch s).ctx = s.ctx := by unfold sendRelease; simp
@[simp] theorem sendRelease_msc (ch : Channel) : (sendRelease ch s).msc = s.msc := by unfold sendRelease; simp
@[simp] theorem sendRelease_rau (ch : Channel) : (sendRelease ch s).rau = s.rau := by unfold sendRelease; simp
@[simp] theorem sendRelease_free (ch : Channel) : (sendRelease ch s).free = s.free := by unfold sendRelease; simp
@[simp] theorem sendRelease_pending (ch : Channel) : (sendRelease ch s).pending = s.pending := by unfold sendRelease; simp

@[simp] theorem sendDispute_hwi (ch : Channel) (p : BitVec 4) : (sendDispute ch p s).hwi = s.hwi := by unfold sendDispute; simp
@[simp] theorem sendDispute_cfu (ch : Channel) (p : BitVec 4) : (sendDispute ch p s).cfu = s.cfu := by unfold sendDispute; simp
@[simp] theorem sendDispute_tcm (ch : Channel) (p : BitVec 4) : (sendDispute ch p s).tcm = s.tcm := by unfold sendDispute; simp
@[simp] theorem sendDispute_ctx (ch : Channel) (p : BitVec 4) : (sendDispute ch p s).ctx = s.ctx := by unfold sendDispute; simp
@[simp] theorem sendDispute_msc (ch : Channel) (p : BitVec 4) : (sendDispute ch p s).msc = s.msc := by unfold sendDispute; simp
@[simp] theorem sendDispute_rau (ch : Channel) (p : BitVec 4) : (sendDispute ch p s).rau = s.rau := by unfold sendDispute; simp
@[simp] theorem sendDispute_free (ch : Channel) (p : BitVec 4) : (sendDispute ch p s).free = s.free := by unfold sendDispute; simp
@[simp] theorem sendDispute_pending (ch : Channel) (p : BitVec 4) : (sendDispute ch p s).pending = s.pending := by unfold sendDispute; simp

@[simp] theorem popCell_hwi : (popCell s).hwi = s.hwi := rfl
@[simp] theorem popCell_cfu : (popCell s).cfu = s.cfu := rfl
@[simp] theorem popCell_tcm : (popCell s).tcm = s.tcm := rfl
@[simp] theorem popCell_ctx : (popCell s).ctx = s.ctx := rfl
@[simp] theorem popCell_msc : (popCell s).msc = s.msc := rfl
@[simp] theorem popCell_rau : (popCell s).rau = s.rau := rfl
@[simp] theorem popCell_free : (popCell s).free = s.free := rfl
@[simp] theorem popCell_pending : (popCell s).pending = s.pending := rfl

/-- What a report does: it joins the queue, or it is counted as lost (R29, R48). -/
theorem offerReport_clc : (offerReport c s).clc =
    if queueTakes s.clc.tx c then { s.clc with tx := insertByPriority (freshTx c 0) s.clc.tx } else s.clc := by
  unfold offerReport; split <;> rfl

theorem offerReport_cfu : (offerReport c s).cfu =
    if queueTakes s.clc.tx c then s.cfu else { s.cfu with lostReports := min 255 (s.cfu.lostReports + 1) } := by
  unfold offerReport; split <;> rfl

/-- An event depends on the transmit queue and the configuration unit alone. -/
theorem sendEvent_congr {s t : State} (h1 : s.clc = t.clc) (h2 : s.cfu = t.cfu) :
    (sendEvent k e s).clc = (sendEvent k e t).clc ∧ (sendEvent k e s).cfu = (sendEvent k e t).cfu := by
  simp [sendEvent, offerReport_clc, offerReport_cfu, ownCell, ownAddress, h1, h2]

/-- An ANSWER depends on the transmit queue and the configuration unit alone. -/
theorem sendAnswerWith_congr {s t : State} (r x y : Byte) (h1 : s.clc = t.clc) (h2 : s.cfu = t.cfu) :
    (sendAnswerWith c r x y s).clc = (sendAnswerWith c r x y t).clc
      ∧ (sendAnswerWith c r x y s).cfu = (sendAnswerWith c r x y t).cfu := by
  simp [sendAnswerWith, offerReport_clc, offerReport_cfu, ownCell, ownAddress, h1, h2]

end

/-- Two stations with equal blocks are equal. -/
theorem State.eq_of_blocks {s t : State} (h1 : s.hwi = t.hwi) (h2 : s.clc = t.clc) (h3 : s.cfu = t.cfu)
    (h4 : s.tcm = t.tcm) (h5 : s.ctx = t.ctx) (h6 : s.msc = t.msc) (h7 : s.rau = t.rau) (h8 : s.free = t.free)
    (h9 : s.pending = t.pending) : s = t := by
  cases s
  cases t
  simp_all

end Sys2Proof.Machine
end

