-- ==== Sys2Proof/Laws/Kept.lean ====
section
/-! SUPPORT. What every operation of a running station keeps: the queue of commands, the straps, a locked
configuration, and the ranges. One lemma for each shared operation says so once. -/
namespace Sys2Proof.Machine

theorem Vcd.inRange_reset : Vcd.reset.InRange := by decide
theorem Qmn.inRange_reset : Qmn.reset.InRange := by decide
theorem Lkc.inRange_reset : Lkc.reset.InRange := by decide
theorem Context.inRange_reset : Context.reset.InRange := by decide

/-- What stands between a state and a later one. -/
structure Kept (s t : State) : Prop where
  pending : t.pending = s.pending
  station : t.cfu.station = s.cfu.station
  storeSize : t.cfu.storeSize = s.cfu.storeSize
  config : ∀ g, s.cfu.config = some g → t.cfu.config = some g
  range : s.InRange → t.InRange

namespace Kept

variable {s0 s t : State}

theorem refl (s : State) : Kept s s := ⟨rfl, rfl, rfl, fun _ h => h, fun h => h⟩

theorem trans (h : Kept s0 s) (g : Kept s t) : Kept s0 t :=
  ⟨g.pending.trans h.pending, g.station.trans h.station, g.storeSize.trans h.storeSize,
    fun c hc => g.config c (h.config c hc), fun hr => g.range (h.range hr)⟩

/-- The state of a pair that an operation answers. -/
theorem of_eq {α : Type} {p : State × α} {a : α} (e : p = (t, a)) (h : Kept s0 p.1) : Kept s0 t := by
  subst e; exact h

theorem ite {p : Prop} [Decidable p] (h : Kept s0 s) (g : Kept s0 t) : Kept s0 (if p then s else t) := by
  split <;> assumption

/-- A fold of operations that keep. -/
theorem forEach {α : Type} {xs : List α} {f : α → State → State} (h : Kept s0 s)
    (hf : ∀ x t, Kept s0 t → Kept s0 (f x t)) : Kept s0 (Machine.forEach xs f s) := by
  unfold Machine.forEach
  induction xs generalizing s with
  | nil => exact h
  | cons x xs ih => exact ih (hf x s h)

/-! ### The updates -/

theorem modHwi {f : Hwi → Hwi} (h : Kept s0 s) (hf : s.InRange → s.hwi.InRange → (f s.hwi).InRange) :
    Kept s0 (s.modHwi f) :=
  h.trans ⟨rfl, rfl, rfl, fun _ h => h, fun r => ⟨hf r r.1, r.2⟩⟩

theorem modClc {f : Clc → Clc} (h : Kept s0 s) (hf : s.InRange → s.clc.InRange → (f s.clc).InRange) :
    Kept s0 (s.modClc f) :=
  h.trans ⟨rfl, rfl, rfl, fun _ h => h, fun r => ⟨r.1, hf r r.2.1, r.2.2⟩⟩

theorem modCfu {f : Cfu → Cfu} (h : Kept s0 s) (h1 : (f s.cfu).station = s.cfu.station)
    (h2 : (f s.cfu).storeSize = s.cfu.storeSize) (h3 : ∀ g, s.cfu.config = some g → (f s.cfu).config = some g)
    (hf : s.InRange → s.cfu.InRange → (f s.cfu).InRange) : Kept s0 (s.modCfu f) :=
  h.trans ⟨rfl, h1, h2, h3, fun r => ⟨r.1, r.2.1, hf r r.2.2.1, r.2.2.2⟩⟩

theorem modTcm {f : Tcm → Tcm} (h : Kept s0 s) (hf : s.InRange → s.tcm.InRange → (f s.tcm).InRange) :
    Kept s0 (s.modTcm f) :=
  h.trans ⟨rfl, rfl, rfl, fun _ h => h, fun r => ⟨r.1, r.2.1, r.2.2.1, hf r r.2.2.2.1, r.2.2.2.2⟩⟩

theorem modMsc {f : Msc → Msc} (h : Kept s0 s) (hf : s.InRange → s.msc.InRange → (f s.msc).InRange) :
    Kept s0 (s.modMsc f) :=
  h.trans ⟨rfl, rfl, rfl, fun _ h => h,
    fun r => ⟨r.1, r.2.1, r.2.2.1, r.2.2.2.1, r.2.2.2.2.1, hf r r.2.2.2.2.2.1, r.2.2.2.2.2.2⟩⟩

theorem modRau {f : Rau → Rau} (h : Kept s0 s) (hf : s.InRange → s.rau.InRange → (f s.rau).InRange) :
    Kept s0 (s.modRau f) :=
  h.trans ⟨rfl, rfl, rfl, fun _ h => h,
    fun r => ⟨r.1, r.2.1, r.2.2.1, r.2.2.2.1, r.2.2.2.2.1, r.2.2.2.2.2.1, hf r r.2.2.2.2.2.2⟩⟩

theorem modCtx {k : ContextId} {f : Context → Context} (h : Kept s0 s)
    (hf : s.InRange → (s.at k).InRange → (f (s.at k)).InRange) : Kept s0 (s.modCtx k f) := by
  refine h.trans ⟨rfl, rfl, rfl, fun _ h => h, fun r => ⟨r.1, r.2.1, r.2.2.1, r.2.2.2.1, fun j => ?_, r.2.2.2.2.2⟩⟩
  by_cases e : j = k
  · subst e
    show ((s.ctx.modify j f).get j).InRange
    rw [Bank.get_modify]
    exact hf r (r.2.2.2.2.1 j)
  · show ((s.ctx.modify k f).get j).InRange
    rw [Bank.get_modify_ne _ _ _ _ e]
    exact r.2.2.2.2.1 j

/-- An update of a context that is sound because the first state is. -/
theorem modCtx0 {k : ContextId} {f : Context → Context} (h : Kept s0 s)
    (hf : s0.InRange → (s.at k).InRange → (f (s.at k)).InRange) : Kept s0 (s.modCtx k f) :=
  ⟨h.pending, h.station, h.storeSize, h.config,
    fun r => ((Kept.refl s).modCtx (k := k) (f := f) fun _ => hf r).range (h.range r)⟩

/-- An update of the highway interface that is sound because the first state is. -/
theorem modHwi0 {f : Hwi → Hwi} (h : Kept s0 s) (hf : s0.InRange → s.hwi.InRange → (f s.hwi).InRange) :
    Kept s0 (s.modHwi f) :=
  ⟨h.pending, h.station, h.storeSize, h.config,
    fun r => ((Kept.refl s).modHwi (f := f) fun _ => hf r).range (h.range r)⟩

/-- An update of every context. -/
theorem mapCtx {g : Context → Context} (h : Kept s0 s) (hg : ∀ x, x.InRange → (g x).InRange) :
    Kept s0 { s with ctx := s.ctx.map g } := by
  refine h.trans ⟨rfl, rfl, rfl, fun _ h => h, fun r => ⟨r.1, r.2.1, r.2.2.1, r.2.2.2.1, fun j => ?_, r.2.2.2.2.2⟩⟩
  show ((s.ctx.map g).get j).InRange
  rw [Bank.get_map]
  exact hg _ (r.2.2.2.2.1 j)

theorem modVoice {k : ContextId} {f : Voice → Voice} (h : Kept s0 s) : Kept s0 (s.modVoice k f) :=
  h.modCtx fun _ r => r
theorem modDetector {k : ContextId} {f : Detector → Detector} (h : Kept s0 s) : Kept s0 (s.modDetector k f) :=
  h.modCtx fun _ r => r
theorem modDgn {k : ContextId} {f : Dgn → Dgn} (h : Kept s0 s) : Kept s0 (s.modDgn k f) := h.modCtx fun _ r => r
theorem modPump {k : ContextId} {f : Pump → Pump} (h : Kept s0 s) : Kept s0 (s.modPump k f) := h.modCtx fun _ r => r
theorem modVcd {k : ContextId} {f : Vcd → Vcd} (h : Kept s0 s)
    (hf : s.InRange → (s.at k).vcd.InRange → (f (s.at k).vcd).InRange) : Kept s0 (s.modVcd k f) :=
  h.modCtx fun r x => ⟨hf r x.1, x.2⟩
theorem modFax {k : ContextId} {f : Fax → Fax} (h : Kept s0 s)
    (hf : s.InRange → (s.at k).fax.rate ≤ 5 → (f (s.at k).fax).rate ≤ 5) : Kept s0 (s.modFax k f) :=
  h.modCtx fun r x => ⟨x.1, hf r x.2.1, x.2.2⟩
theorem modQmn {k : ContextId} {f : Qmn → Qmn} (h : Kept s0 s)
    (hf : s.InRange → (s.at k).qmn.InRange → (f (s.at k).qmn).InRange) : Kept s0 (s.modQmn k f) :=
  h.modCtx fun r x => ⟨x.1, x.2.1, hf r x.2.2.1, x.2.2.2⟩
theorem modLkc {k : ContextId} {f : Lkc → Lkc} (h : Kept s0 s)
    (hf : s.InRange → (s.at k).lkc.InRange → (f (s.at k).lkc).InRange) : Kept s0 (s.modLkc k f) :=
  h.modCtx fun r x => ⟨x.1, x.2.1, x.2.2.1, hf r x.2.2.2.1, x.2.2.2.2⟩

theorem modEntry {c : Channel} {f : MapEntry → MapEntry} (h : Kept s0 s)
    (hf : (s.entry c).InRange → (f (s.entry c)).InRange) : Kept s0 (s.modEntry c f) := by
  refine h.modTcm fun _ r d => ?_
  by_cases e : d = c
  · subst e
    show ((s.tcm.map.modify d f).get d).InRange
    rw [Bank.get_modify]
    exact hf (r d)
  · show ((s.tcm.map.modify c f).get d).InRange
    rw [Bank.get_modify_ne _ _ _ _ e]
    exact r d
theorem setBid {k : ContextId} {b : Option Bid} (h : Kept s0 s) : Kept s0 (s.setBid k b) := h.modTcm fun _ r => r
theorem modChannel {c : Channel} {f : HwiChannel → HwiChannel} (h : Kept s0 s) : Kept s0 (s.modChannel c f) :=
  h.modHwi fun _ r => r
theorem setOutbound {k : ContextId} {d : Option OutDeposit} (h : Kept s0 s) : Kept s0 (s.setOutbound k d) :=
  h.modRau fun _ r => r
theorem setFetch {k : ContextId} {f : Option Fetch} (h : Kept s0 s) : Kept s0 (s.setFetch k f) :=
  h.modRau fun _ r => r
theorem setMsg {i : Handle} {m : Option Msg} (h : Kept s0 s) : Kept s0 (s.setMsg i m) := h.modMsc fun _ r => r
theorem setMsgAt {i : Nat} {m : Option Msg} (h : Kept s0 s) : Kept s0 (s.setMsgAt i m) := by
  unfold State.setMsgAt
  split
  · exact h.setMsg
  · exact h

/-- The free-value counter is no part of a range. -/
theorem free {n : Nat} (h : Kept s0 s) : Kept s0 { s with free := n } :=
  h.trans ⟨rfl, rfl, rfl, fun _ h => h, fun r => r⟩

end Kept

end Sys2Proof.Machine
end

