-- ==== Sys2Proof/Laws/KeptClc.lean ====
section
/-! SUPPORT. What the operations of Machine/Clc.lean keep. -/
namespace Sys2Proof.Machine

theorem satAdd_le (cap n d : Nat) : satAdd cap n d ≤ cap := Nat.min_le_left _ _

theorem mem_insertByPriority (x y : TxCell) (q : List TxCell) : y ∈ insertByPriority x q ↔ y = x ∨ y ∈ q := by
  induction q with
  | nil => simp [insertByPriority]
  | cons z q ih =>
    unfold insertByPriority
    split
    · simp [ih, or_left_comm]
    · simp

theorem insertByPriority_perm (x : TxCell) (q : List TxCell) : (insertByPriority x q).Perm (x :: q) := by
  induction q with
  | nil => exact .refl _
  | cons z q ih =>
    unfold insertByPriority
    split
    · exact (ih.cons z).trans (.swap x z q)
    · exact .refl _

/-- A cell joins the queue inside its bounds, when the queue takes it (R28). -/
theorem TxQueue.inRange_insert {q : List TxCell} {c : Cell} (r : TxQueue.InRange q) (hq : queueTakes q c = true)
    (serial : Nat) : TxQueue.InRange (insertByPriority (freshTx c serial) q) := by
  obtain ⟨r1, r2, r3, r4, r5⟩ := r
  have hp := insertByPriority_perm (freshTx c serial) q
  simp only [queueTakes, Bool.and_eq_true, decide_eq_true_eq, Bool.or_eq_true, Bool.not_eq_true'] at hq
  obtain ⟨⟨q1, q2⟩, q3⟩ := hq
  refine ⟨?_, ?_, ?_, ?_, ?_⟩
  · rw [hp.length_eq]; simp only [List.length_cons]; omega
  · rw [(hp.filter _).length_eq]
    by_cases hs : isStreamKind c.kind = true
    · have := q2.resolve_left (by simp [hs])
      simp only [List.filter_cons, freshTx, hs, if_true, List.length_cons]
      omega
    · simpa [List.filter_cons, freshTx, hs] using r2
  · have symm : ∀ a b : TxCell, sameClaim a.cell b.cell = false → sameClaim b.cell a.cell = false := by
      intro a b hab
      simp only [sameClaim, Bool.and_eq_false_iff, beq_eq_false_iff_ne] at *
      tauto
    refine (hp.pairwise_iff (fun {a b} hab => symm a b hab)).2 (List.pairwise_cons.2 ⟨fun y hy => ?_, r3⟩)
    by_cases hk : c.kind = kindClaim
    · have q3 := q3.resolve_left (by simp [hk])
      simp only [List.any_eq_false] at q3
      have := q3 y hy
      exact symm _ _ (by simpa [freshTx] using this)
    · simp [sameClaim, freshTx, hk]
  · clear hp q1 q2 q3 r1 r2 r3 r5
    induction q with
    | nil => simp [insertByPriority]
    | cons z q ih =>
      have ⟨hz, hq⟩ := List.pairwise_cons.1 r4
      unfold insertByPriority
      split
      · next hle =>
        refine List.pairwise_cons.2 ⟨fun y hy => ?_, ih hq⟩
        rcases (mem_insertByPriority _ _ _).1 hy with rfl | hy
        · exact hle
        · exact hz y hy
      · next hle =>
        have hlt : (freshTx c serial).cell.prio ≤ z.cell.prio := by
          simp only [BitVec.le_def] at *
          omega
        refine List.pairwise_cons.2 ⟨fun y hy => ?_, r4⟩
        rcases List.mem_cons.1 hy with rfl | hy
        · exact hlt
        · exact BitVec.le_trans hlt (hz y hy)
  · rw [(hp.filter _).length_eq]
    simpa [List.filter_cons, freshTx] using r5

theorem TxQueue.inRange_filter {q : List TxCell} (r : TxQueue.InRange q) (p : TxCell → Bool) :
    TxQueue.InRange (q.filter p) := by
  obtain ⟨r1, r2, r3, r4, r5⟩ := r
  have f (f : TxCell → Bool) : ((q.filter p).filter f).length ≤ (q.filter f).length := by
    rw [List.filter_filter, show (fun a => f a && p a) = fun a => p a && f a from funext fun a => Bool.and_comm _ _,
      ← List.filter_filter]
    exact List.length_filter_le _ _
  exact ⟨(List.length_filter_le _ _).trans r1, (f _).trans r2, r3.filter _, r4.filter _, (f _).trans r5⟩

theorem kept_enqueue {s0 s : State} {c : Cell} {serial : Nat} (h : Kept s0 s) (hq : queueTakes s.clc.tx c = true) :
    Kept s0 (enqueue c serial s) :=
  h.modClc fun _ r => ⟨TxQueue.inRange_insert r.1 hq serial, r.2⟩

theorem kept_countUndelivered {s0 s : State} (h : Kept s0 s) : Kept s0 (countUndelivered s) :=
  h.modClc fun _ r => ⟨r.1, r.2.1, r.2.2.1, satAdd_le _ _ _⟩

theorem kept_countBadCheck {s0 s : State} (h : Kept s0 s) : Kept s0 (countBadCheck s) :=
  h.modClc fun _ r => ⟨r.1, r.2.1, satAdd_le _ _ _, r.2.2.2⟩

theorem kept_countLostReport {s0 s : State} (h : Kept s0 s) : Kept s0 (countLostReport s) :=
  h.modCfu rfl rfl (fun _ e => e) fun _ r => ⟨r.1, r.2.1, satAdd_le _ _ _, r.2.2.2⟩

theorem kept_offerReport {s0 s : State} {c : Cell} (kp : Kept s0 s) :
    Kept s0 (offerReport c s) := by
  unfold offerReport
  try dsimp only
  repeat' (first
    | with_reducible assumption | with_reducible apply kept_countLostReport | with_reducible apply kept_enqueue
    | (refine Kept.of_eq ‹_ = (_, _)› ?_) | (dsimp only) | split)

theorem kept_offerOther {s0 s : State} {c : Cell} {serial : Nat} {tellTo : Option ContextId} (kp : Kept s0 s) :
    Kept s0 (offerOther c serial tellTo s) := by
  unfold offerOther
  try dsimp only
  repeat' (first
    | with_reducible assumption | with_reducible apply kept_countUndelivered | with_reducible apply kept_enqueue
    | with_reducible refine Kept.modRau ?_ (fun _ r => r) | with_reducible refine Kept.modRau ?_ (fun hs r => ?_)
    | (refine Kept.of_eq ‹_ = (_, _)› ?_) | (dsimp only) | split)

theorem kept_offerStream {s0 s : State} {p : StreamProducer} {c : Cell} (kp : Kept s0 s) :
    Kept s0 (offerStream p c s).1 := by
  unfold offerStream
  try dsimp only
  repeat' (first
    | with_reducible assumption | with_reducible apply kept_enqueue
    | with_reducible refine Kept.modClc ?_ (fun _ r => r) | with_reducible refine Kept.modClc ?_ (fun hs r => ?_)
    | (refine Kept.of_eq ‹_ = (_, _)› ?_) | (dsimp only) | split)

theorem kept_offerClaim {s0 s : State} {c : Channel} {purpose : Direction} (kp : Kept s0 s) :
    Kept s0 (offerClaim c purpose s).1 := by
  unfold offerClaim
  try dsimp only
  repeat' (first
    | with_reducible assumption | with_reducible apply kept_enqueue | (refine Kept.of_eq ‹_ = (_, _)› ?_)
    | (dsimp only) | split)

theorem kept_sendEvent {s0 s : State} {k : Option ContextId} {e : Event} (kp : Kept s0 s) :
    Kept s0 (sendEvent k e s) := by
  unfold sendEvent
  try dsimp only
  repeat' (first
    | with_reducible assumption | with_reducible apply kept_offerReport)

theorem kept_sendAnswerWith {s0 s : State} {request : Cell} {result : Byte} {third : Byte} {fourth : Byte} (kp : Kept s0 s) :
    Kept s0 (sendAnswerWith request result third fourth s) := by
  unfold sendAnswerWith
  try dsimp only
  repeat' (first
    | with_reducible assumption | with_reducible apply kept_offerReport)

theorem kept_sendAnswer {s0 s : State} {request : Cell} {result : Byte} (kp : Kept s0 s) :
    Kept s0 (sendAnswer request result s) := by
  unfold sendAnswer
  try dsimp only
  repeat' (first
    | with_reducible assumption | with_reducible apply kept_sendAnswerWith)

theorem kept_sendRelease {s0 s : State} {c : Channel} (kp : Kept s0 s) :
    Kept s0 (sendRelease c s) := by
  unfold sendRelease
  try dsimp only
  repeat' (first
    | with_reducible assumption | with_reducible apply kept_offerOther)

theorem kept_sendDispute {s0 s : State} {c : Channel} {p : BitVec 4} (kp : Kept s0 s) :
    Kept s0 (sendDispute c p s) := by
  unfold sendDispute
  try dsimp only
  repeat' (first
    | with_reducible assumption | with_reducible apply kept_offerOther)

theorem kept_removeSending {s0 s : State} (h : Kept s0 s) : Kept s0 (removeSending s) :=
  h.modClc fun _ r => ⟨TxQueue.inRange_filter r.1 _, r.2⟩

theorem kept_writeFault {s0 s : State} {kind : FaultKind} {subject : Nat} (h : Kept s0 s) :
    Kept s0 (writeFault kind subject s) := by
  unfold writeFault
  split
  · next hl =>
    refine kept_sendEvent (h.modCfu rfl rfl (fun _ e => e) fun _ r => ⟨?_, r.2⟩)
    simp only [List.length_append, List.length_singleton]
    omega
  · exact h.modCfu rfl rfl (fun _ e => e) fun _ r => ⟨r.1, satAdd_le _ _ _, r.2.2⟩

end Sys2Proof.Machine
end

