-- ==== Sys2Proof/Laws/KeptStore.lean ====
section
/-! SUPPORT. What the operations of Machine/Store.lean keep. -/
namespace Sys2Proof.Machine

theorem kept_examineLevel {s0 s : State}  (kp : Kept s0 s) :
    Kept s0 (examineLevel s) := by
  unfold examineLevel
  try dsimp only
  repeat' (first
    | with_reducible assumption | with_reducible apply kept_sendEvent
    | with_reducible refine Kept.modMsc ?_ (fun _ r => r) | with_reducible refine Kept.modMsc ?_ (fun hs r => ?_)
    | exact ⟨r.1, Links.set_wf _ _ r.2.1, r.2.2⟩ | exact ⟨Memory.writeBlock_wf _ _ r.1, r.2⟩
    | exact ⟨r.1, r.2.1, (List.length_map _).trans_le r.2.2⟩ | (refine Kept.of_eq ‹_ = (_, _)› ?_) | (dsimp only)
    | split)

theorem kept_freeBlocks {s0 s : State} {bs : List Nat} (kp : Kept s0 s) :
    Kept s0 (freeBlocks bs s) := by
  unfold freeBlocks
  try dsimp only
  repeat' (first
    | with_reducible assumption | with_reducible apply kept_examineLevel
    | with_reducible refine Kept.modMsc ?_ (fun _ r => r) | with_reducible refine Kept.modMsc ?_ (fun hs r => ?_)
    | exact ⟨r.1, Links.set_wf _ _ r.2.1, r.2.2⟩ | exact ⟨Memory.writeBlock_wf _ _ r.1, r.2⟩
    | exact ⟨r.1, r.2.1, (List.length_map _).trans_le r.2.2⟩ | (refine Kept.of_eq ‹_ = (_, _)› ?_) | (dsimp only)
    | split)

theorem kept_takeFreeBlock {s0 s : State}  (kp : Kept s0 s) :
    Kept s0 (takeFreeBlock s) := by
  unfold takeFreeBlock
  try dsimp only
  repeat' (first
    | with_reducible assumption | with_reducible apply kept_examineLevel
    | with_reducible refine Kept.modMsc ?_ (fun _ r => r))

theorem kept_setLink {s0 s : State} {n : Nat} {v : Option Nat} (kp : Kept s0 s) :
    Kept s0 (setLink n v s) := by
  unfold setLink
  try dsimp only
  repeat' (first
    | with_reducible assumption | with_reducible refine Kept.modMsc ?_ (fun _ r => r)
    | with_reducible refine Kept.modMsc ?_ (fun hs r => ?_) | exact ⟨r.1, Links.set_wf _ _ r.2.1, r.2.2⟩)

theorem kept_modMailbox {s0 s : State} {m : Nat} {f : Mbx → Mbx} (kp : Kept s0 s) :
    Kept s0 (modMailbox m f s) := by
  unfold modMailbox
  try dsimp only
  repeat' (first
    | with_reducible assumption | with_reducible refine Kept.modMsc ?_ (fun _ r => r)
    | with_reducible refine Kept.modMsc ?_ (fun hs r => ?_) | exact ⟨r.1, Links.set_wf _ _ r.2.1, r.2.2⟩
    | exact ⟨Memory.writeBlock_wf _ _ r.1, r.2⟩ | exact ⟨r.1, r.2.1, (List.length_map _).trans_le r.2.2⟩)

theorem kept_freeMessage {s0 s : State} {h : Nat} (kp : Kept s0 s) :
    Kept s0 (freeMessage h s) := by
  unfold freeMessage
  try dsimp only
  repeat' (first
    | with_reducible assumption | with_reducible apply kept_freeBlocks | with_reducible apply Kept.setMsgAt
    | exact ⟨r.1, Links.set_wf _ _ r.2.1, r.2.2⟩ | exact ⟨Memory.writeBlock_wf _ _ r.1, r.2⟩
    | exact ⟨r.1, r.2.1, (List.length_map _).trans_le r.2.2⟩ | (refine Kept.of_eq ‹_ = (_, _)› ?_) | (dsimp only)
    | split)

theorem kept_unlistMessage {s0 s : State} {mailbox : Nat} {h : Nat} (kp : Kept s0 s) :
    Kept s0 (unlistMessage mailbox h s) := by
  unfold unlistMessage
  try dsimp only
  repeat' (first
    | with_reducible assumption | with_reducible apply kept_modMailbox)

theorem kept_deleteRecord {s0 s : State} {h : Nat} (kp : Kept s0 s) :
    Kept s0 (deleteRecord h s) := by
  unfold deleteRecord
  try dsimp only
  repeat' (first
    | with_reducible assumption | with_reducible apply kept_freeMessage
    | with_reducible apply Kept.setMsgAt | exact ⟨r.1, Links.set_wf _ _ r.2.1, r.2.2⟩
    | exact ⟨Memory.writeBlock_wf _ _ r.1, r.2⟩ | exact ⟨r.1, r.2.1, (List.length_map _).trans_le r.2.2⟩
    | (refine Kept.of_eq ‹_ = (_, _)› ?_) | (dsimp only) | split)

theorem kept_deleteMessage {s0 s : State} {h : Nat} (kp : Kept s0 s) :
    Kept s0 (deleteMessage h s) := by
  unfold deleteMessage
  try dsimp only
  repeat' (first
    | with_reducible assumption | with_reducible apply kept_deleteRecord | with_reducible apply kept_unlistMessage | with_reducible apply kept_freeMessage
    | with_reducible apply Kept.setMsgAt | exact ⟨r.1, Links.set_wf _ _ r.2.1, r.2.2⟩
    | exact ⟨Memory.writeBlock_wf _ _ r.1, r.2⟩ | exact ⟨r.1, r.2.1, (List.length_map _).trans_le r.2.2⟩
    | (refine Kept.of_eq ‹_ = (_, _)› ?_) | (dsimp only) | split)

theorem kept_openForWriting {s0 s : State} {mailbox : Nat} {kind : Option MsgKind} {w : Writer} (kp : Kept s0 s) :
    Kept s0 (openForWriting mailbox kind w s).1 := by
  unfold openForWriting
  try dsimp only
  repeat' (first
    | with_reducible assumption | with_reducible apply kept_modMailbox | with_reducible apply Kept.setMsgAt
    | exact ⟨r.1, Links.set_wf _ _ r.2.1, r.2.2⟩ | exact ⟨Memory.writeBlock_wf _ _ r.1, r.2⟩
    | exact ⟨r.1, r.2.1, (List.length_map _).trans_le r.2.2⟩ | (refine Kept.of_eq ‹_ = (_, _)› ?_) | (dsimp only)
    | split)

theorem kept_cutChain {s0 s : State} {h : Nat} {n : Nat} (kp : Kept s0 s) :
    Kept s0 (cutChain h n s) := by
  unfold cutChain
  try dsimp only
  repeat' (first
    | with_reducible assumption | with_reducible apply kept_setLink | with_reducible apply kept_freeBlocks
    | with_reducible apply Kept.setMsgAt | exact ⟨r.1, Links.set_wf _ _ r.2.1, r.2.2⟩
    | exact ⟨Memory.writeBlock_wf _ _ r.1, r.2⟩ | exact ⟨r.1, r.2.1, (List.length_map _).trans_le r.2.2⟩
    | (refine Kept.of_eq ‹_ = (_, _)› ?_) | (dsimp only) | split)

theorem kept_discardMessage {s0 s : State} {h : Nat} {m : Msg} (kp : Kept s0 s) :
    Kept s0 (discardMessage h m s) := by
  unfold discardMessage
  try dsimp only
  repeat' (first
    | with_reducible assumption | with_reducible apply kept_freeMessage | with_reducible apply kept_modMailbox)

theorem kept_fileMessage {s0 s : State} {h : Nat} {m : Msg} (kp : Kept s0 s) :
    Kept s0 (fileMessage h m s) := by
  unfold fileMessage
  try dsimp only
  repeat' (first
    | with_reducible assumption | with_reducible apply kept_deleteMessage | with_reducible apply kept_modMailbox
    | exact ⟨r.1, Links.set_wf _ _ r.2.1, r.2.2⟩ | exact ⟨Memory.writeBlock_wf _ _ r.1, r.2⟩
    | exact ⟨r.1, r.2.1, (List.length_map _).trans_le r.2.2⟩ | (refine Kept.of_eq ‹_ = (_, _)› ?_) | (dsimp only)
    | split)

theorem kept_closeRecord {s0 s : State} {h : Nat} (kp : Kept s0 s) :
    Kept s0 (closeRecord h s) := by
  unfold closeRecord
  try dsimp only
  repeat' (first
    | with_reducible assumption | with_reducible apply Kept.setMsgAt
    | exact ⟨r.1, Links.set_wf _ _ r.2.1, r.2.2⟩ | exact ⟨Memory.writeBlock_wf _ _ r.1, r.2⟩
    | exact ⟨r.1, r.2.1, (List.length_map _).trans_le r.2.2⟩ | (refine Kept.of_eq ‹_ = (_, _)› ?_) | (dsimp only)
    | split)

theorem kept_closeMessage {s0 s : State} {h : Nat} {reason : Byte} (kp : Kept s0 s) :
    Kept s0 (closeMessage h reason s).1 := by
  unfold closeMessage
  try dsimp only
  repeat' (first
    | with_reducible assumption | with_reducible apply kept_closeRecord | with_reducible apply kept_fileMessage | with_reducible apply kept_discardMessage
    | with_reducible apply kept_cutChain | with_reducible apply kept_sendEvent | with_reducible apply Kept.setMsgAt
    | exact ⟨r.1, Links.set_wf _ _ r.2.1, r.2.2⟩ | exact ⟨Memory.writeBlock_wf _ _ r.1, r.2⟩
    | exact ⟨r.1, r.2.1, (List.length_map _).trans_le r.2.2⟩ | (refine Kept.of_eq ‹_ = (_, _)› ?_) | (dsimp only)
    | split)

theorem kept_closeBy {s0 s : State} {h : Nat} {w : Writer} {reason : Byte} (kp : Kept s0 s) :
    Kept s0 (closeBy h w reason s).1 := by
  unfold closeBy
  try dsimp only
  repeat' (first
    | with_reducible assumption | with_reducible apply kept_closeMessage
    | exact ⟨r.1, Links.set_wf _ _ r.2.1, r.2.2⟩ | exact ⟨Memory.writeBlock_wf _ _ r.1, r.2⟩
    | exact ⟨r.1, r.2.1, (List.length_map _).trans_le r.2.2⟩ | (refine Kept.of_eq ‹_ = (_, _)› ?_) | (dsimp only)
    | split)

theorem kept_writeData {s0 s : State} {n : Nat} {block : List Byte} (kp : Kept s0 s) :
    Kept s0 (writeData n block s) := by
  unfold writeData
  try dsimp only
  repeat' (first
    | with_reducible assumption | with_reducible refine Kept.modMsc ?_ (fun _ r => r)
    | with_reducible refine Kept.modMsc ?_ (fun hs r => ?_) | with_reducible apply Kept.setMsgAt
    | exact ⟨r.1, Links.set_wf _ _ r.2.1, r.2.2⟩ | exact ⟨Memory.writeBlock_wf _ _ r.1, r.2⟩
    | exact ⟨r.1, r.2.1, (List.length_map _).trans_le r.2.2⟩ | (refine Kept.of_eq ‹_ = (_, _)› ?_) | (dsimp only)
    | split)

theorem kept_appendBlock {s0 s : State} {h : Nat} {w : Writer} {block : List Byte} {samples : Nat} (kp : Kept s0 s) :
    Kept s0 (appendBlock h w block samples s).1 := by
  unfold appendBlock
  try dsimp only
  repeat' (first
    | with_reducible assumption | with_reducible apply kept_writeData | with_reducible apply kept_closeMessage | with_reducible apply kept_setLink
    | with_reducible apply kept_takeFreeBlock | with_reducible refine Kept.modMsc ?_ (fun _ r => r)
    | with_reducible refine Kept.modMsc ?_ (fun hs r => ?_) | with_reducible apply Kept.setMsgAt
    | exact ⟨r.1, Links.set_wf _ _ r.2.1, r.2.2⟩ | exact ⟨Memory.writeBlock_wf _ _ r.1, r.2⟩
    | exact ⟨r.1, r.2.1, (List.length_map _).trans_le r.2.2⟩ | (refine Kept.of_eq ‹_ = (_, _)› ?_) | (dsimp only)
    | split)

theorem kept_endPage {s0 s : State} {h : Nat} {w : Writer} {damaged : Bool} (kp : Kept s0 s) :
    Kept s0 (endPage h w damaged s).1 := by
  unfold endPage
  try dsimp only
  repeat' (first
    | with_reducible assumption | with_reducible apply Kept.setMsgAt | exact ⟨r.1, Links.set_wf _ _ r.2.1, r.2.2⟩
    | exact ⟨Memory.writeBlock_wf _ _ r.1, r.2⟩ | exact ⟨r.1, r.2.1, (List.length_map _).trans_le r.2.2⟩
    | (refine Kept.of_eq ‹_ = (_, _)› ?_) | (dsimp only) | split)

theorem kept_rollBack {s0 s : State} {h : Nat} {w : Writer} (kp : Kept s0 s) :
    Kept s0 (rollBack h w s).1 := by
  unfold rollBack
  try dsimp only
  repeat' (first
    | with_reducible assumption | with_reducible apply kept_cutChain | exact ⟨r.1, Links.set_wf _ _ r.2.1, r.2.2⟩
    | exact ⟨Memory.writeBlock_wf _ _ r.1, r.2⟩ | exact ⟨r.1, r.2.1, (List.length_map _).trans_le r.2.2⟩
    | (refine Kept.of_eq ‹_ = (_, _)› ?_) | (dsimp only) | split)

theorem kept_touchReader {s0 s : State} {h : Nat} {station : Fin 8} {context : Nat} (kp : Kept s0 s) :
    Kept s0 (touchReader h station context s) := by
  unfold touchReader
  try dsimp only
  repeat' (first
    | with_reducible assumption | with_reducible apply Kept.setMsgAt | exact ⟨r.1, Links.set_wf _ _ r.2.1, r.2.2⟩
    | exact ⟨Memory.writeBlock_wf _ _ r.1, r.2⟩ | exact ⟨r.1, r.2.1, (List.length_map _).trans_le r.2.2⟩
    | (refine Kept.of_eq ‹_ = (_, _)› ?_) | (dsimp only) | split)

theorem kept_readOpenHandle {s0 s : State} {h : Nat} {station : Fin 8} {context : Nat} (kp : Kept s0 s) :
    Kept s0 (readOpenHandle h station context s).1 := by
  unfold readOpenHandle
  try dsimp only
  repeat' (first
    | with_reducible assumption | with_reducible apply kept_touchReader | with_reducible apply Kept.setMsgAt
    | exact ⟨r.1, Links.set_wf _ _ r.2.1, r.2.2⟩ | exact ⟨Memory.writeBlock_wf _ _ r.1, r.2⟩
    | exact ⟨r.1, r.2.1, (List.length_map _).trans_le r.2.2⟩ | (refine Kept.of_eq ‹_ = (_, _)› ?_) | (dsimp only)
    | split)

theorem kept_readOpen {s0 s : State} {what : PlayTarget} {station : Fin 8} {context : Nat} (kp : Kept s0 s) :
    Kept s0 (readOpen what station context s).1 := by
  unfold readOpen
  try dsimp only
  repeat' (first
    | with_reducible assumption | with_reducible apply kept_readOpenHandle
    | exact ⟨r.1, Links.set_wf _ _ r.2.1, r.2.2⟩ | exact ⟨Memory.writeBlock_wf _ _ r.1, r.2⟩
    | exact ⟨r.1, r.2.1, (List.length_map _).trans_le r.2.2⟩ | (refine Kept.of_eq ‹_ = (_, _)› ?_) | (dsimp only)
    | split)

/-- Steps 2 to 6 of R115: a refusal changes nothing. -/
theorem readOpenHandle_refused {h : Nat} {station : Fin 8} {context : Nat} {s t : State} {cause : Byte}
    (e : readOpenHandle h station context s = (t, .error cause)) : t = s := by
  unfold readOpenHandle at e
  repeat' (split at e)
  all_goals simp_all

/-- All that a grant of R115's steps 4 and 6 can be: again to a reader in the list, or to one that joins it. -/
theorem readOpenHandle_granted {h : Nat} {station : Fin 8} {context : Nat} {s t : State} {g : ReadGrant}
    (e : readOpenHandle h station context s = (t, .ok g)) :
    ∃ m, s.msgAt h = some m ∧ g = grantOf h m ∧ m.state ≠ .opened
      ∧ ((hasReader m station context = true ∧ t = touchReader h station context s)
        ∨ (hasReader m station context = false ∧ m.state ≠ .deleting ∧ m.readers.length < 8
          ∧ t = s.setMsgAt h (some { m with readers :=
              m.readers ++ [{ station, context, lastActivity := s.cfu.stationTime }] }))) := by
  unfold readOpenHandle at e
  split at e
  · simp at e
  · rename_i m found
    refine ⟨m, found, ?_⟩
    repeat' (split at e)
    all_goals simp_all

/-- A read open that is refused changes nothing (R115). -/
theorem readOpen_refused {what : PlayTarget} {station : Fin 8} {context : Nat} {s t : State} {cause : Byte}
    (e : readOpen what station context s = (t, .error cause)) : t = s := by
  unfold readOpen at e
  repeat' (split at e)
  all_goals first
    | exact readOpenHandle_refused e
    | simp_all

/-- A read open is granted only by a store that is READY and a station that is configured, for the handle named or the
mailbox's greeting, as the steps on that handle grant it (R115). -/
theorem readOpen_granted {what : PlayTarget} {station : Fin 8} {context : Nat} {s t : State} {g : ReadGrant}
    (e : readOpen what station context s = (t, .ok g)) :
    s.msc.state ≠ .scanning ∧ s.cfu.config.isSome = true
      ∧ ∃ h, readOpenHandle h station context s = (t, .ok g)
        ∧ ((∃ home, what = .message home h) ∨ ∃ m, what = .greeting m ∧ (mailbox? s m).bind (·.greeting) = some h) := by
  unfold readOpen at e
  split at e
  · simp at e
  · split at e
    · simp at e
    · rename_i ready locked
      refine ⟨ready, by simpa [Option.isSome_iff_ne_none] using locked, ?_⟩
      split at e
      · exact ⟨_, e, .inl ⟨_, rfl⟩⟩
      · split at e
        · rename_i found
          exact ⟨_, e, .inr ⟨_, rfl, found⟩⟩
        · simp at e

theorem kept_readBlockFor {s0 s : State} {h : Nat} {station : Fin 8} {context : Nat} {b : Nat} (kp : Kept s0 s) :
    Kept s0 (readBlockFor h station context b s).1 := by
  unfold readBlockFor
  try dsimp only
  repeat' (first
    | with_reducible assumption | with_reducible apply kept_touchReader
    | exact ⟨r.1, Links.set_wf _ _ r.2.1, r.2.2⟩ | exact ⟨Memory.writeBlock_wf _ _ r.1, r.2⟩
    | exact ⟨r.1, r.2.1, (List.length_map _).trans_le r.2.2⟩ | (refine Kept.of_eq ‹_ = (_, _)› ?_) | (dsimp only)
    | split)

theorem kept_leaveMessage {s0 s : State} {h : Nat} {station : Fin 8} {context : Nat} (kp : Kept s0 s) :
    Kept s0 (leaveMessage h station context s) := by
  unfold leaveMessage
  try dsimp only
  repeat' (first
    | with_reducible assumption | with_reducible apply kept_freeMessage | with_reducible apply Kept.setMsgAt
    | exact ⟨r.1, Links.set_wf _ _ r.2.1, r.2.2⟩ | exact ⟨Memory.writeBlock_wf _ _ r.1, r.2⟩
    | exact ⟨r.1, r.2.1, (List.length_map _).trans_le r.2.2⟩ | (refine Kept.of_eq ‹_ = (_, _)› ?_) | (dsimp only)
    | split)

theorem kept_markMessage {s0 s : State} {h : Nat} {mark : Option Mark} (kp : Kept s0 s) :
    Kept s0 (markMessage h mark s).1 := by
  unfold markMessage
  try dsimp only
  repeat' (first
    | with_reducible assumption | with_reducible apply kept_deleteMessage | with_reducible apply Kept.setMsgAt
    | exact ⟨r.1, Links.set_wf _ _ r.2.1, r.2.2⟩ | exact ⟨Memory.writeBlock_wf _ _ r.1, r.2⟩
    | exact ⟨r.1, r.2.1, (List.length_map _).trans_le r.2.2⟩ | (refine Kept.of_eq ‹_ = (_, _)› ?_) | (dsimp only)
    | split)

theorem kept_scanRecord {s0 s : State} {h : Nat} (kp : Kept s0 s) :
    Kept s0 (scanRecord h s) := by
  unfold scanRecord
  try dsimp only
  repeat' (first
    | with_reducible assumption | with_reducible apply kept_writeFault
    | with_reducible refine Kept.modMsc ?_ (fun _ r => r) | with_reducible refine Kept.modMsc ?_ (fun hs r => ?_)
    | with_reducible apply Kept.setMsgAt | exact ⟨r.1, Links.set_wf _ _ r.2.1, r.2.2⟩
    | exact ⟨Memory.writeBlock_wf _ _ r.1, r.2⟩ | exact ⟨r.1, r.2.1, (List.length_map _).trans_le r.2.2⟩
    | (refine Kept.of_eq ‹_ = (_, _)› ?_) | (dsimp only) | split)

theorem kept_enterScanning {s0 s : State}  (kp : Kept s0 s) :
    Kept s0 (enterScanning s) := by
  unfold enterScanning
  try dsimp only
  repeat' (first
    | with_reducible assumption | with_reducible refine Kept.modMsc ?_ (fun _ r => r))

theorem kept_beginScan {s0 s : State} (kp : Kept s0 s) : Kept s0 (beginScan s) := by
  unfold beginScan
  exact Kept.forEach (kept_enterScanning kp) fun _ _ => kept_scanRecord

theorem kept_finishScan {s0 s : State}  (kp : Kept s0 s) :
    Kept s0 (finishScan s) := by
  unfold finishScan
  try dsimp only
  repeat' (first
    | with_reducible assumption | with_reducible apply kept_examineLevel
    | with_reducible refine Kept.modMsc ?_ (fun _ r => r) | with_reducible refine Kept.modMsc ?_ (fun hs r => ?_)
    | exact ⟨r.1, Links.set_wf _ _ r.2.1, r.2.2⟩ | exact ⟨Memory.writeBlock_wf _ _ r.1, r.2⟩
    | exact ⟨r.1, r.2.1, (List.length_map _).trans_le r.2.2⟩)

end Sys2Proof.Machine
end

