-- ==== Sys2Proof/Laws/KeptRemote.lean ====
section
/-! SUPPORT. What the operations of Machine/Remote.lean keep. -/
namespace Sys2Proof.Machine

theorem kept_newSerial {s0 s : State}  (kp : Kept s0 s) :
    Kept s0 (newSerial s).1 := by
  unfold newSerial
  try dsimp only
  repeat' (first
    | with_reducible assumption | with_reducible refine Kept.modRau ?_ (fun _ r => r))

theorem kept_releaseHeld {s0 s : State} {p : StreamProducer} (kp : Kept s0 s) :
    Kept s0 (releaseHeld p s) := by
  unfold releaseHeld
  try dsimp only
  repeat' (first
    | with_reducible assumption | with_reducible refine Kept.modClc ?_ (fun _ r => r))

theorem kept_startDeposit {s0 s : State} {k : ContextId} {home : Nat} {mailbox : Nat} {kind : MsgKind} (kp : Kept s0 s) :
    Kept s0 (startDeposit k home mailbox kind s).1 := by
  unfold startDeposit
  try dsimp only
  repeat' (first
    | with_reducible assumption | with_reducible apply kept_newSerial | with_reducible apply kept_offerOther
    | with_reducible apply Kept.setOutbound)

theorem kept_offerFirst {s0 s t : State} {k : ContextId} {d : OutDeposit} {cells : List Cell} (kp : Kept s0 s)
    (e : depositMove.offerFirst k s d cells = some t) : Kept s0 t := by
  unfold depositMove.offerFirst at e
  split at e
  · cases e
  · split at e
    · cases e
    · dsimp only at e
      split at e
      · cases e
        exact (kept_offerStream kp).setOutbound
      · cases e
        exact kept_offerStream kp

theorem kept_depositMove {s0 s t : State} {k : ContextId} (kp : Kept s0 s) (e : depositMove k s = some t) : Kept s0 t := by
  unfold depositMove at e
  repeat' split at e
  all_goals first
    | cases e; done
    | exact kept_offerFirst kp e
    | (cases e; exact kp.setOutbound)
    | (cases e; exact kept_offerOther kp.setOutbound)

theorem kept_depositMoves {s0 s : State} {k : ContextId} {n : Nat} (kp : Kept s0 s) : Kept s0 (depositMoves k n s) := by
  induction n generalizing s with
  | zero => exact kp
  | succ n ih =>
    unfold depositMoves
    split
    · next e => exact ih (kept_depositMove kp e)
    · exact kp

theorem kept_pumpDeposit {s0 s : State} {k : ContextId} (kp : Kept s0 s) :
    Kept s0 (pumpDeposit k s) := by
  unfold pumpDeposit
  try dsimp only
  repeat' (first
    | with_reducible assumption | with_reducible apply kept_depositMoves)

theorem kept_handToDeposit {s0 s : State} {k : ContextId} {serial : Nat} {sequence : Option Nat} {block : List Byte} {pageEnd : Bool} {damaged : Bool} (kp : Kept s0 s) :
    Kept s0 (handToDeposit k serial sequence block pageEnd damaged s) := by
  unfold handToDeposit
  try dsimp only
  repeat' (first
    | with_reducible assumption | with_reducible apply kept_pumpDeposit | with_reducible apply Kept.setOutbound
    | exact (List.length_map _).trans_le r | exact (List.length_filter_le _ _).trans r
    | (refine Kept.of_eq ‹_ = (_, _)› ?_) | (dsimp only) | split)

theorem kept_askRollback {s0 s : State} {k : ContextId} {serial : Nat} {page : Nat} (kp : Kept s0 s) :
    Kept s0 (askRollback k serial page s) := by
  unfold askRollback
  try dsimp only
  repeat' (first
    | with_reducible assumption | with_reducible apply kept_pumpDeposit | with_reducible apply Kept.setOutbound
    | exact (List.length_map _).trans_le r | exact (List.length_filter_le _ _).trans r
    | (refine Kept.of_eq ‹_ = (_, _)› ?_) | (dsimp only) | split)

theorem kept_askClose {s0 s : State} {k : ContextId} {serial : Nat} {ask : CloseAsk} (kp : Kept s0 s) :
    Kept s0 (askClose k serial ask s) := by
  unfold askClose
  try dsimp only
  repeat' (first
    | with_reducible assumption | with_reducible apply kept_pumpDeposit | with_reducible apply Kept.setOutbound
    | exact (List.length_map _).trans_le r | exact (List.length_filter_le _ _).trans r
    | (refine Kept.of_eq ‹_ = (_, _)› ?_) | (dsimp only) | split)

theorem kept_freeDeposit {s0 s : State} {k : ContextId} (kp : Kept s0 s) :
    Kept s0 (freeDeposit k s) := by
  unfold freeDeposit
  try dsimp only
  repeat' (first
    | with_reducible assumption | with_reducible apply kept_releaseHeld | with_reducible apply Kept.setOutbound)

theorem kept_takeAccept {s0 s : State} {k : Option ContextId} {c : Cell} (kp : Kept s0 s) :
    Kept s0 (takeAccept k c s) := by
  unfold takeAccept
  try dsimp only
  repeat' (first
    | with_reducible assumption | with_reducible apply kept_pumpDeposit | with_reducible apply kept_offerOther
    | with_reducible apply Kept.setOutbound | exact (List.length_map _).trans_le r
    | exact (List.length_filter_le _ _).trans r | (refine Kept.of_eq ‹_ = (_, _)› ?_) | (dsimp only) | split)

theorem kept_takeBlockTaken {s0 s : State} {k : ContextId} {c : Cell} (kp : Kept s0 s) :
    Kept s0 (takeBlockTaken k c s) := by
  unfold takeBlockTaken
  try dsimp only
  repeat' (first
    | with_reducible assumption | with_reducible apply kept_pumpDeposit | with_reducible apply Kept.setOutbound
    | exact (List.length_map _).trans_le r | exact (List.length_filter_le _ _).trans r
    | (refine Kept.of_eq ‹_ = (_, _)› ?_) | (dsimp only) | split)

theorem kept_sendForFetch {s0 s : State} {k : ContextId} {c : Cell} {serial : Nat} {tell : Bool} (kp : Kept s0 s) :
    Kept s0 (sendForFetch k c serial tell s) := by
  unfold sendForFetch
  try dsimp only
  repeat' (first
    | with_reducible assumption | with_reducible apply kept_offerOther | with_reducible apply Kept.setFetch
    | exact (List.length_map _).trans_le r | exact (List.length_filter_le _ _).trans r
    | (refine Kept.of_eq ‹_ = (_, _)› ?_) | (dsimp only) | split)

theorem kept_startFetch {s0 s : State} {k : ContextId} {home : Nat} {handle : Option Nat} {mailbox : Option Nat} (kp : Kept s0 s) :
    Kept s0 (startFetch k home handle mailbox s) := by
  unfold startFetch
  try dsimp only
  repeat' (first
    | with_reducible assumption | with_reducible apply kept_sendForFetch | with_reducible apply kept_newSerial
    | with_reducible apply Kept.setFetch)

theorem kept_endFetch {s0 s : State} {k : ContextId} (kp : Kept s0 s) :
    Kept s0 (endFetch k s) := by
  unfold endFetch
  try dsimp only
  repeat' (first
    | with_reducible assumption | with_reducible apply kept_offerOther | with_reducible apply Kept.setFetch
    | exact (List.length_map _).trans_le r | exact (List.length_filter_le _ _).trans r
    | (refine Kept.of_eq ‹_ = (_, _)› ?_) | (dsimp only) | split)

theorem kept_fetchAsk {s0 s : State} {k : ContextId} {index : Nat} (kp : Kept s0 s) :
    Kept s0 (fetchAsk k index s) := by
  unfold fetchAsk
  try dsimp only
  repeat' (first
    | with_reducible assumption | with_reducible apply kept_sendForFetch | with_reducible apply Kept.setFetch
    | exact (List.length_map _).trans_le r | exact (List.length_filter_le _ _).trans r
    | (refine Kept.of_eq ‹_ = (_, _)› ?_) | (dsimp only) | split)

theorem kept_fetchSettle {s0 s : State} {k : ContextId} {index : Nat} (kp : Kept s0 s) :
    Kept s0 (fetchSettle k index s) := by
  unfold fetchSettle
  try dsimp only
  repeat' (first
    | with_reducible assumption | with_reducible apply Kept.setFetch | exact (List.length_map _).trans_le r
    | exact (List.length_filter_le _ _).trans r | (refine Kept.of_eq ‹_ = (_, _)› ?_) | (dsimp only) | split)

theorem kept_fetchHeard {s0 s : State} {k : ContextId} (kp : Kept s0 s) :
    Kept s0 (fetchHeard k s) := by
  unfold fetchHeard
  try dsimp only
  repeat' (first
    | with_reducible assumption | with_reducible apply Kept.setFetch | exact (List.length_map _).trans_le r
    | exact (List.length_filter_le _ _).trans r | (refine Kept.of_eq ‹_ = (_, _)› ?_) | (dsimp only) | split)

theorem kept_openFetch {s0 s : State} {k : ContextId} {handle : Nat} (kp : Kept s0 s) :
    Kept s0 (openFetch k handle s) := by
  unfold openFetch
  try dsimp only
  repeat' (first
    | with_reducible assumption | with_reducible apply Kept.setFetch | exact (List.length_map _).trans_le r
    | exact (List.length_filter_le _ _).trans r | (refine Kept.of_eq ‹_ = (_, _)› ?_) | (dsimp only) | split)

theorem kept_modDeposit {s0 s : State} {h : Nat} {f : DepositEntry → DepositEntry} (kp : Kept s0 s) :
    Kept s0 (modDeposit h f s) := by
  unfold modDeposit
  try dsimp only
  repeat' (first
    | with_reducible assumption | with_reducible refine Kept.modRau ?_ (fun _ r => r)
    | with_reducible refine Kept.modRau ?_ (fun hs r => ?_) | exact (List.length_map _).trans_le r)

theorem kept_removeDeposit {s0 s : State} {h : Nat} (kp : Kept s0 s) :
    Kept s0 (removeDeposit h s) := by
  unfold removeDeposit
  try dsimp only
  repeat' (first
    | with_reducible assumption | with_reducible refine Kept.modRau ?_ (fun _ r => r)
    | with_reducible refine Kept.modRau ?_ (fun hs r => ?_) | exact (List.length_map _).trans_le r
    | exact (List.length_filter_le _ _).trans r)

theorem kept_heardDepositor {s0 s : State} {h : Nat} (kp : Kept s0 s) :
    Kept s0 (heardDepositor h s) := by
  unfold heardDepositor
  try dsimp only
  repeat' (first
    | with_reducible assumption | with_reducible apply kept_modDeposit)

theorem kept_toDepositor {s0 s : State} {e : DepositEntry} {kind : Byte} {payload : List Byte} (kp : Kept s0 s) :
    Kept s0 (toDepositor e kind payload s) := by
  unfold toDepositor
  try dsimp only
  repeat' (first
    | with_reducible assumption | with_reducible apply kept_offerOther)

theorem kept_sendDepositRefuse {s0 s : State} {dst : BitVec 4} {tag : Byte} {cause : Byte} {handle : Option Nat} (kp : Kept s0 s) :
    Kept s0 (sendDepositRefuse dst tag cause handle s) := by
  unfold sendDepositRefuse
  try dsimp only
  repeat' (first
    | with_reducible assumption | with_reducible apply kept_offerOther)

theorem kept_writeDeposited {s0 s : State} {h : Nat} {block : List Byte} {damaged : Bool} (kp : Kept s0 s) :
    Kept s0 (writeDeposited h block damaged s) := by
  unfold writeDeposited
  try dsimp only
  repeat' (first
    | with_reducible assumption | with_reducible apply kept_sendDepositRefuse
    | with_reducible apply kept_toDepositor | with_reducible apply kept_removeDeposit
    | with_reducible apply kept_modDeposit | with_reducible apply kept_endPage
    | with_reducible apply kept_appendBlock | exact (List.length_map _).trans_le r
    | exact (List.length_filter_le _ _).trans r | (refine Kept.of_eq ‹_ = (_, _)› ?_) | (dsimp only) | split)

theorem kept_writeAssembly {s0 s : State} {h : Nat} (kp : Kept s0 s) :
    Kept s0 (writeAssembly h s) := by
  unfold writeAssembly
  try dsimp only
  repeat' (first
    | with_reducible assumption | with_reducible apply kept_writeDeposited | exact (List.length_map _).trans_le r
    | exact (List.length_filter_le _ _).trans r | (refine Kept.of_eq ‹_ = (_, _)› ?_) | (dsimp only) | split)

theorem kept_writeGaps {s0 s : State} {h n : Nat} (kp : Kept s0 s) : Kept s0 (writeGaps h n s) := by
  induction n generalizing s with
  | zero => exact kp
  | succ n ih =>
    unfold writeGaps
    split
    · exact kp
    · exact ih (kept_writeDeposited kp)

theorem kept_closeEntry {s0 s : State} {h : Nat} {reason : Byte} {tell : Bool} (kp : Kept s0 s) :
    Kept s0 (closeEntry h reason tell s) := by
  unfold closeEntry
  try dsimp only
  repeat' (first
    | with_reducible assumption | with_reducible apply kept_toDepositor | with_reducible apply kept_removeDeposit
    | with_reducible apply kept_closeBy | exact (List.length_map _).trans_le r
    | exact (List.length_filter_le _ _).trans r | (refine Kept.of_eq ‹_ = (_, _)› ?_) | (dsimp only) | split)

theorem kept_silenceClose {s0 s : State} {h : Nat} {tell : Bool} (kp : Kept s0 s) :
    Kept s0 (silenceClose h tell s) := by
  unfold silenceClose
  try dsimp only
  repeat' (first
    | with_reducible assumption | with_reducible apply kept_closeEntry | with_reducible apply kept_writeAssembly)

/-- An open that is granted finds the store READY and the configuration LOCKED, and leaves the lists of the Remote
Access Unit alone (R110). -/
theorem openForWriting_ok {s t : State} {mailbox h : Nat} {kind : Option MsgKind} {w : Writer}
    (e : openForWriting mailbox kind w s = (t, .ok h)) :
    s.msc.state = .ready ∧ s.cfu.config.isSome = true ∧ t.rau = s.rau := by
  unfold openForWriting at e
  split at e
  · cases e
  · cases e
  · next hr =>
    simp only [Prod.mk.injEq] at e
    obtain ⟨rfl, -⟩ := e
    refine ⟨?_, ?_, ?_⟩
    · unfold openRefusal at hr
      cases hs : s.msc.state
      · simp only [hs] at hr
        split at hr <;> simp at hr
      · rfl
    · unfold openRefusal at hr
      cases hs : s.cfu.config
      · simp only [hs, Option.isNone_none, if_true] at hr
        repeat' split at hr
        all_goals simp at hr
      · rfl
    · unfold modMailbox State.setMsgAt
      split <;> rfl

theorem kept_takeDepositOpen {s0 s : State} {station : Fin 8} {c : Cell} (kp : Kept s0 s) :
    Kept s0 (takeDepositOpen station c s) := by
  unfold takeDepositOpen
  dsimp only
  have key : ∀ s1 : State, Kept s0 s1 → Kept s0 (
      if (decide (s1.msc.state = .ready) && s1.cfu.config.isSome && decide (8 ≤ s1.rau.deposits.length)) = true then
        sendDepositRefuse c.src c.tag codeBusy none s1
      else
        match openForWriting (field c.payload 0 2) (msgKindOf (field c.payload 2 1)) (.peer station c.tag.toNat) s1 with
        | (s, .error cause) => sendDepositRefuse c.src c.tag cause none s
        | (s, .ok h) =>
          toDepositor { handle := h, station, context := c.tag.toNat,
                        kind := (msgKindOf (field c.payload 2 1)).getD .voice, expected := 0, assembly := none,
                        lastHeard := s.cfu.stationTime, lastWritten := none, lastPage := none } kindDepositAccept
            (be2 h) (s.modRau fun r => { r with deposits := r.deposits ++ [
              { handle := h, station, context := c.tag.toNat,
                kind := (msgKindOf (field c.payload 2 1)).getD .voice, expected := 0, assembly := none,
                lastHeard := s.cfu.stationTime, lastWritten := none, lastPage := none }] })) := by
    intro s1 k1
    split
    · exact kept_sendDepositRefuse k1
    · next hn =>
      split
      · next e => exact kept_sendDepositRefuse (Kept.of_eq e (kept_openForWriting k1))
      · next s2 h e =>
        obtain ⟨a, b, hr⟩ := openForWriting_ok e
        refine kept_toDepositor ((Kept.of_eq e (kept_openForWriting k1)).modRau fun _ r => ?_)
        simp only [a, b, decide_true, Bool.and_self, Bool.true_and, decide_eq_true_eq] at hn
        show (s2.rau.deposits ++ _).length ≤ 8
        rw [hr, List.length_append, List.length_singleton]
        omega
  split
  · exact key _ (kept_silenceClose kp)
  · exact key _ kp

theorem kept_placePart {s0 s : State} {h : Nat} {partNo : Nat} {pageEnd : Bool} {damaged : Bool} {bytes : List Byte} (kp : Kept s0 s) :
    Kept s0 (placePart h partNo pageEnd damaged bytes s) := by
  unfold placePart
  try dsimp only
  repeat' (first
    | with_reducible assumption | with_reducible apply kept_writeAssembly | with_reducible apply kept_modDeposit
    | exact (List.length_map _).trans_le r | exact (List.length_filter_le _ _).trans r
    | (refine Kept.of_eq ‹_ = (_, _)› ?_) | (dsimp only) | split)

theorem kept_takeDepositData {s0 s : State} {station : Fin 8} {c : Cell} (kp : Kept s0 s) :
    Kept s0 (takeDepositData station c s) := by
  unfold takeDepositData
  try dsimp only
  repeat' (first
    | with_reducible assumption | with_reducible apply kept_placePart | with_reducible apply kept_closeEntry
    | with_reducible apply kept_writeGaps | with_reducible apply kept_writeAssembly
    | with_reducible apply kept_heardDepositor | exact (List.length_map _).trans_le r
    | exact (List.length_filter_le _ _).trans r | (refine Kept.of_eq ‹_ = (_, _)› ?_) | (dsimp only) | split)

theorem kept_takeRollback {s0 s : State} {station : Fin 8} {c : Cell} (kp : Kept s0 s) :
    Kept s0 (takeRollback station c s) := by
  unfold takeRollback
  try dsimp only
  repeat' (first
    | with_reducible assumption | with_reducible apply kept_writeAssembly
    | with_reducible apply kept_heardDepositor | with_reducible apply kept_rollBack
    | exact (List.length_map _).trans_le r | exact (List.length_filter_le _ _).trans r
    | (refine Kept.of_eq ‹_ = (_, _)› ?_) | (dsimp only) | split)

theorem kept_setLastSamples {s0 s : State} {h : Nat} {lastSequence : Nat} {samples : Nat} (kp : Kept s0 s) :
    Kept s0 (setLastSamples h lastSequence samples s) := by
  unfold setLastSamples
  try dsimp only
  repeat' (first
    | with_reducible assumption | with_reducible apply Kept.setMsgAt | exact (List.length_map _).trans_le r
    | exact (List.length_filter_le _ _).trans r | (refine Kept.of_eq ‹_ = (_, _)› ?_) | (dsimp only) | split)

theorem kept_takeDepositClose {s0 s : State} {station : Fin 8} {c : Cell} (kp : Kept s0 s) :
    Kept s0 (takeDepositClose station c s) := by
  unfold takeDepositClose
  try dsimp only
  repeat' (first
    | with_reducible assumption | with_reducible apply kept_setLastSamples | with_reducible apply kept_closeEntry
    | with_reducible apply kept_writeAssembly | with_reducible apply kept_sendDepositRefuse
    | with_reducible apply kept_heardDepositor | exact (List.length_map _).trans_le r
    | exact (List.length_filter_le _ _).trans r | (refine Kept.of_eq ‹_ = (_, _)› ?_) | (dsimp only) | split)

theorem kept_sendFetchRefuse {s0 s : State} {c : Cell} {cause : Byte} {handle : Nat} (kp : Kept s0 s) :
    Kept s0 (sendFetchRefuse c cause handle s) := by
  unfold sendFetchRefuse
  try dsimp only
  repeat' (first
    | with_reducible assumption | with_reducible apply kept_offerOther)

theorem kept_takeFetchOpen {s0 s : State} {station : Fin 8} {c : Cell} (kp : Kept s0 s) :
    Kept s0 (takeFetchOpen station c s) := by
  unfold takeFetchOpen
  try dsimp only
  repeat' (first
    | with_reducible assumption | with_reducible apply kept_sendFetchRefuse | with_reducible apply kept_readOpen
    | with_reducible apply kept_offerOther | exact (List.length_map _).trans_le r
    | exact (List.length_filter_le _ _).trans r | (refine Kept.of_eq ‹_ = (_, _)› ?_) | (dsimp only) | split)

theorem kept_fetchMove {s0 s t : State} (kp : Kept s0 s) (e : fetchMove s = some t) : Kept s0 t := by
  unfold fetchMove at e
  split at e
  · cases e
  · split at e
    · cases e
    · dsimp only at e
      split at e
      · cases e
        exact (kept_offerStream kp).modRau fun _ r => r
      · cases e
        exact kept_offerStream kp

theorem kept_fetchMoves {s0 s : State} {n : Nat} (kp : Kept s0 s) : Kept s0 (fetchMoves n s) := by
  induction n generalizing s with
  | zero => exact kp
  | succ n ih =>
    unfold fetchMoves
    split
    · next e => exact ih (kept_fetchMove kp e)
    · exact kp

theorem kept_pumpFetchData {s0 s : State}  (kp : Kept s0 s) :
    Kept s0 (pumpFetchData s) := by
  unfold pumpFetchData
  try dsimp only
  repeat' (first
    | with_reducible assumption | with_reducible apply kept_fetchMoves)

theorem kept_dropPending {s0 s : State} {keep : PendingBlock → Bool} (kp : Kept s0 s) :
    Kept s0 (dropPending keep s) := by
  unfold dropPending
  try dsimp only
  repeat' (first
    | with_reducible assumption | with_reducible apply kept_pumpFetchData | with_reducible apply kept_releaseHeld
    | with_reducible refine Kept.modRau ?_ (fun _ r => r) | with_reducible refine Kept.modRau ?_ (fun hs r => ?_)
    | exact (List.length_map _).trans_le r | exact (List.length_filter_le _ _).trans r
    | (refine Kept.of_eq ‹_ = (_, _)› ?_) | (dsimp only) | split)

theorem kept_makeRoomFor {s0 s : State} {station : Fin 8} {context : Nat} (kp : Kept s0 s) :
    Kept s0 (makeRoomFor station context s) := by
  unfold makeRoomFor
  try dsimp only
  repeat' (first
    | with_reducible assumption | with_reducible apply kept_releaseHeld
    | with_reducible refine Kept.modRau ?_ (fun _ r => r) | with_reducible refine Kept.modRau ?_ (fun hs r => ?_)
    | exact (List.length_map _).trans_le r | exact (List.length_filter_le _ _).trans r
    | (refine Kept.of_eq ‹_ = (_, _)› ?_) | (dsimp only) | split)

theorem kept_takeFetchBlock {s0 s : State} {station : Fin 8} {c : Cell} (kp : Kept s0 s) :
    Kept s0 (takeFetchBlock station c s) := by
  unfold takeFetchBlock
  try dsimp only
  repeat' (first
    | with_reducible assumption | with_reducible apply kept_makeRoomFor | with_reducible apply kept_pumpFetchData
    | with_reducible apply kept_sendFetchRefuse | with_reducible apply kept_readBlockFor
    | with_reducible refine Kept.modRau ?_ (fun _ r => r) | with_reducible refine Kept.modRau ?_ (fun hs r => ?_)
    | exact (List.length_map _).trans_le r | exact (List.length_filter_le _ _).trans r
    | (refine Kept.of_eq ‹_ = (_, _)› ?_) | (dsimp only) | split)

theorem kept_dropReader {s0 s : State} {h : Nat} {station : Fin 8} {context : Nat} (kp : Kept s0 s) :
    Kept s0 (dropReader h station context s) := by
  unfold dropReader
  try dsimp only
  repeat' (first
    | with_reducible assumption | with_reducible apply kept_dropPending | with_reducible apply kept_leaveMessage)

theorem kept_sendMailboxList {s0 s : State} {request : Cell} {b : Mbx} (kp : Kept s0 s) :
    Kept s0 (sendMailboxList request b s) := by
  unfold sendMailboxList
  try dsimp only
  repeat' (first
    | with_reducible assumption | with_reducible apply kept_offerOther | (refine Kept.forEach ?_ (fun _ _ _ => ?_)))

end Sys2Proof.Machine
end

