-- ==== Sys2Proof/Laws/KeptCodec.lean ====
section
/-! SUPPORT. What the operations of Machine/Codec.lean keep. -/
namespace Sys2Proof.Machine

theorem clampPredictor_range (p : Int) : -8191 ≤ clampPredictor p ∧ clampPredictor p ≤ 8191 := by
  unfold clampPredictor
  split
  · omega
  · split <;> omega

theorem clampIndex_le (i : Int) : clampIndex i ≤ 47 := by
  unfold clampIndex
  split
  · omega
  · split <;> omega

/-- A code leaves the predictor and the index in their ranges (R92). -/
theorem applyCode_range (p : Int) (i : Nat) (code : BitVec 4) :
    (-8191 ≤ (applyCode p i code).1 ∧ (applyCode p i code).1 ≤ 8191) ∧ (applyCode p i code).2 ≤ 47 :=
  ⟨clampPredictor_range _, clampIndex_le _⟩

theorem Vcd.inRange_startRecording {v : Vcd} (r : v.InRange) : v.startRecording.InRange :=
  ⟨by simp [Vcd.startRecording], by simp [Vcd.startRecording], r.2.2⟩

theorem Vcd.inRange_finish {v : Vcd} {n : Nat} (r : v.InRange) : (v.finish n).1.InRange := r

theorem Vcd.inRange_encode {v : Vcd} {n : Nat} {b : Byte} (r : v.InRange) : (v.encode n b).1.InRange := by
  have key : ∀ w : Vcd, w.decPredictor = v.decPredictor → w.decIndex = v.decIndex →
      (∃ p i c, w.encPredictor = (applyCode p i c).1 ∧ w.encIndex = (applyCode p i c).2) → w.InRange := by
    rintro w e1 e2 ⟨p, i, c, e3, e4⟩
    have := applyCode_range p i c
    exact ⟨e3 ▸ this.1, e4 ▸ this.2, by rw [e1]; exact r.2.2.1, by rw [e2]; exact r.2.2.2⟩
  unfold Vcd.encode
  dsimp only
  repeat' split
  all_goals exact key _ rfl rfl ⟨_, _, _, rfl, rfl⟩

theorem Vcd.inRange_stopRecording {v : Vcd} {n : Nat} (r : v.InRange) : (v.stopRecording n).1.InRange := by
  unfold Vcd.stopRecording
  dsimp only
  split <;> exact r

theorem kept_askBlock {s0 s : State} {k : ContextId} {source : Source} {index : Nat} (kp : Kept s0 s) :
    Kept s0 (askBlock k source index s).1 := by
  unfold askBlock
  try dsimp only
  repeat' (first
    | with_reducible assumption | with_reducible apply kept_fetchAsk | with_reducible apply kept_readBlockFor
    | (refine Kept.of_eq ‹_ = (_, _)› ?_) | (dsimp only) | split)

theorem kept_askNext {s0 s : State} {k : ContextId} {source : Source} {blocks : Nat} {needed : Nat} {b : Buffer} (kp : Kept s0 s) :
    Kept s0 (askNext k source blocks needed b s).1 := by
  unfold askNext
  try dsimp only
  repeat' (first
    | with_reducible assumption | with_reducible apply kept_askBlock | (refine Kept.of_eq ‹_ = (_, _)› ?_)
    | (dsimp only) | split)

theorem kept_fillBuffer {s0 s : State} {k : ContextId} {source : Source} {blocks : Nat} {needed : Nat} {b : Buffer} (kp : Kept s0 s) :
    Kept s0 (fillBuffer k source blocks needed b s).1 := by
  unfold fillBuffer
  try dsimp only
  repeat' (first
    | with_reducible assumption | with_reducible apply kept_askNext)

end Sys2Proof.Machine
end

