-- ==== Sys2Proof/Laws/KeptSession.lean ====
section
/-! SUPPORT. What the operations of Machine/Session.lean keep. -/
namespace Sys2Proof.Machine

/-- The accepted configuration, and the one that stands for none, are inside the ranges of R40. -/
theorem configOf_inRange {s : State} (r : s.InRange) : (configOf s).InRange := by
  unfold configOf
  cases h : s.cfu.config with
  | none => decide
  | some g => exact (r.2.2.1.2.2.2 g h).1

theorem faxMaxRate_le {s : State} (r : s.InRange) : (configOf s).faxMaxRate ≤ 5 := by
  obtain ⟨-, -, -, -, -, -, -, -, -, -, -, -, -, h⟩ := configOf_inRange r
  exact h

theorem rateBounds_range {s : State} (r : s.InRange) :
    (configOf s).rateMin ≤ (configOf s).rateMax ∧ (configOf s).rateMax ≤ 11 := by
  obtain ⟨-, -, -, -, -, -, -, -, -, h, -⟩ := configOf_inRange r
  exact h

theorem kept_leaveSource {s0 s : State} {k : ContextId} {source : Option Source} (kp : Kept s0 s) :
    Kept s0 (leaveSource k source s) := by
  unfold leaveSource
  try dsimp only
  repeat' (first
    | with_reducible assumption | with_reducible apply kept_endFetch | with_reducible apply kept_leaveMessage
    | exact Vcd.inRange_stopRecording r | (refine Kept.of_eq ‹_ = (_, _)› ?_) | (dsimp only) | split)

theorem kept_stopPlayback {s0 s : State} {k : ContextId} (kp : Kept s0 s) :
    Kept s0 (stopPlayback k s) := by
  unfold stopPlayback
  try dsimp only
  repeat' (first
    | with_reducible assumption | with_reducible apply kept_leaveSource
    | with_reducible refine Kept.modVcd ?_ (fun _ r => r))

theorem kept_sendPlayDone {s0 s : State} {k : ContextId} {result : Byte} (kp : Kept s0 s) :
    Kept s0 (sendPlayDone k result s) := by
  unfold sendPlayDone
  try dsimp only
  repeat' (first
    | with_reducible assumption | with_reducible apply kept_sendEvent)

theorem kept_sendRecordDone {s0 s : State} {k : ContextId} {home : Nat} {handle : Option Nat} {blocks : Option Nat} {result : Byte} {flags : Option Nat} (kp : Kept s0 s) :
    Kept s0 (sendRecordDone k home handle blocks result flags s) := by
  unfold sendRecordDone
  try dsimp only
  repeat' (first
    | with_reducible assumption | with_reducible apply kept_sendEvent)

theorem kept_reportClose {s0 s : State} {k : ContextId} {h : Nat} {result : Byte} {r : CloseReport} (kp : Kept s0 s) :
    Kept s0 (reportClose k h result r s) := by
  unfold reportClose
  try dsimp only
  repeat' (first
    | with_reducible assumption | with_reducible apply kept_sendRecordDone)

theorem kept_handOn {s0 s : State} {k : ContextId} {f : Finished} (kp : Kept s0 s) :
    Kept s0 (handOn k f s).1 := by
  unfold handOn
  try dsimp only
  repeat' (first
    | with_reducible assumption | with_reducible apply kept_handToDeposit | with_reducible apply kept_appendBlock
    | with_reducible apply Kept.modVoice | exact Vcd.inRange_stopRecording r | (refine Kept.of_eq ‹_ = (_, _)› ?_)
    | (dsimp only) | split)

theorem kept_dropRecording {s0 s : State} {k : ContextId} (kp : Kept s0 s) :
    Kept s0 (dropRecording k s) := by
  unfold dropRecording
  try dsimp only
  repeat' (first
    | with_reducible assumption | with_reducible apply Kept.modVoice
    | with_reducible refine Kept.modVcd ?_ (fun _ r => r))

theorem kept_abandonRecording {s0 s : State} {k : ContextId} (kp : Kept s0 s) :
    Kept s0 (abandonRecording k s) := by
  unfold abandonRecording
  try dsimp only
  repeat' (first
    | with_reducible assumption | with_reducible apply kept_dropRecording | with_reducible apply Kept.modVoice
    | with_reducible refine Kept.modVcd ?_ (fun _ r => ?_) | exact Vcd.inRange_stopRecording r | (dsimp only) | split)

theorem kept_closeRecording {s0 s : State} {k : ContextId} {reason : Byte} {last : Option (Nat × Nat)} (kp : Kept s0 s) :
    Kept s0 (closeRecording k reason last s) := by
  unfold closeRecording
  try dsimp only
  repeat' (first
    | with_reducible assumption | with_reducible apply kept_reportClose | with_reducible apply kept_sendRecordDone
    | with_reducible apply kept_askClose | with_reducible apply kept_closeBy | exact Vcd.inRange_stopRecording r
    | (refine Kept.of_eq ‹_ = (_, _)› ?_) | (dsimp only) | split)

theorem kept_finishRecording {s0 s : State} {k : ContextId} {reason : Byte} (kp : Kept s0 s) :
    Kept s0 (finishRecording k reason s) := by
  unfold finishRecording
  try dsimp only
  repeat' (first
    | with_reducible assumption | with_reducible apply kept_closeRecording
    | with_reducible apply kept_dropRecording | with_reducible apply kept_handOn
    | with_reducible apply kept_reportClose | with_reducible refine Kept.modVcd ?_ (fun _ r => r)
    | with_reducible refine Kept.modVcd ?_ (fun _ _ => Vcd.inRange_reset)
    | with_reducible refine Kept.modVcd ?_ (fun hs r => ?_) | exact Vcd.inRange_stopRecording r
    | (refine Kept.of_eq ‹_ = (_, _)› ?_) | (dsimp only) | split)

theorem kept_closeFaxTarget {s0 s : State} {k : ContextId} {reason : Byte} (kp : Kept s0 s) :
    Kept s0 (closeFaxTarget k reason s) := by
  unfold closeFaxTarget
  try dsimp only
  repeat' (first
    | with_reducible assumption | with_reducible apply kept_askClose | with_reducible apply kept_closeBy
    | with_reducible refine Kept.modFax ?_ (fun _ r => r)
    | with_reducible refine Kept.modFax ?_ (fun _ _ => Nat.zero_le _)
    | with_reducible refine Kept.modFax ?_ (fun hs r => ?_) | exact Vcd.inRange_stopRecording r
    | (refine Kept.of_eq ‹_ = (_, _)› ?_) | (dsimp only) | split)

theorem kept_leaveFaxSource {s0 s : State} {k : ContextId} (kp : Kept s0 s) :
    Kept s0 (leaveFaxSource k s) := by
  unfold leaveFaxSource
  try dsimp only
  repeat' (first
    | with_reducible assumption | with_reducible apply kept_leaveSource
    | with_reducible refine Kept.modFax ?_ (fun _ r => r)
    | with_reducible refine Kept.modFax ?_ (fun _ _ => Nat.zero_le _)
    | with_reducible refine Kept.modFax ?_ (fun hs r => ?_) | exact Vcd.inRange_stopRecording r
    | (refine Kept.of_eq ‹_ = (_, _)› ?_) | (dsimp only) | split)

theorem kept_sendFaxDone {s0 s : State} {k : ContextId} {result : Byte} (kp : Kept s0 s) :
    Kept s0 (sendFaxDone k result s) := by
  unfold sendFaxDone
  try dsimp only
  repeat' (first
    | with_reducible assumption | with_reducible apply kept_sendEvent)

theorem kept_clearFax {s0 s : State} {k : ContextId} (kp : Kept s0 s) :
    Kept s0 (clearFax k s) := by
  unfold clearFax
  try dsimp only
  repeat' (first
    | with_reducible assumption | with_reducible refine Kept.modFax ?_ (fun _ r => r)
    | with_reducible refine Kept.modFax ?_ (fun _ _ => Nat.zero_le _)
    | with_reducible refine Kept.modFax ?_ (fun hs r => ?_) | with_reducible apply Kept.modPump)

theorem kept_windDownFax {s0 s : State} {k : ContextId} {cause : Byte} (kp : Kept s0 s) :
    Kept s0 (windDownFax k cause s) := by
  unfold windDownFax
  try dsimp only
  repeat' (first
    | with_reducible assumption | with_reducible apply kept_clearFax | with_reducible apply kept_sendFaxDone
    | with_reducible apply kept_leaveFaxSource | with_reducible apply kept_closeFaxTarget)

theorem kept_stopData {s0 s : State} {k : ContextId} (kp : Kept s0 s) :
    Kept s0 (stopData k s) := by
  unfold stopData
  try dsimp only
  repeat' (first
    | with_reducible assumption | with_reducible apply kept_releaseHeld
    | with_reducible refine Kept.modQmn ?_ (fun _ r => r)
    | with_reducible refine Kept.modQmn ?_ (fun _ _ => Qmn.inRange_reset)
    | with_reducible refine Kept.modQmn ?_ (fun hs r => ?_) | with_reducible refine Kept.modLkc ?_ (fun _ r => r)
    | with_reducible refine Kept.modLkc ?_ (fun _ _ => Lkc.inRange_reset)
    | with_reducible refine Kept.modLkc ?_ (fun hs r => ?_) | with_reducible apply Kept.modPump)

theorem kept_windDownVoice {s0 s : State} {k : ContextId} {cause : Byte} (kp : Kept s0 s) :
    Kept s0 (windDownVoice k cause s) := by
  unfold windDownVoice
  try dsimp only
  repeat' (first
    | with_reducible assumption | with_reducible apply kept_finishRecording
    | with_reducible apply kept_sendPlayDone | with_reducible apply kept_stopPlayback
    | exact Vcd.inRange_stopRecording r | (refine Kept.of_eq ‹_ = (_, _)› ?_) | (dsimp only) | split)

theorem kept_stopGreeting {s0 s : State} {k : ContextId} (kp : Kept s0 s) :
    Kept s0 (stopGreeting k s) := by
  unfold stopGreeting
  try dsimp only
  repeat' (first
    | with_reducible assumption | with_reducible apply kept_stopPlayback | exact Vcd.inRange_stopRecording r
    | (refine Kept.of_eq ‹_ = (_, _)› ?_) | (dsimp only) | split)

theorem kept_windDown {s0 s : State} {k : ContextId} {cause : Byte} (kp : Kept s0 s) :
    Kept s0 (windDown k cause s) := by
  unfold windDown
  try dsimp only
  repeat' (first
    | with_reducible assumption | with_reducible apply kept_stopGreeting | with_reducible apply kept_windDownVoice
    | with_reducible apply kept_stopData | with_reducible apply kept_windDownFax
    | exact Vcd.inRange_stopRecording r | (refine Kept.of_eq ‹_ = (_, _)› ?_) | (dsimp only) | split)

end Sys2Proof.Machine
end

