-- ==== Sys2Proof/Laws/KeptCall.lean ====
section
/-! SUPPORT. What the operations of Machine/Call.lean keep. -/
namespace Sys2Proof.Machine

/-- A view is set with a block timer of 10 s at most (R55, R68). -/
theorem kept_setView {s0 s : State} {c : Channel} {v : View} {timer : Option Nat} (kp : Kept s0 s)
    (ht : ∀ n ∈ timer, n ≤ 10000) : Kept s0 (setView c v timer s) :=
  kp.modEntry fun r => ⟨by dsimp only; split <;> [exact r.1; exact Nat.zero_le _], ht⟩

theorem kept_endDrive {s0 s : State} {c : Channel} (kp : Kept s0 s) :
    Kept s0 (endDrive c s) := by
  unfold endDrive
  try dsimp only
  repeat' (first
    | with_reducible assumption | with_reducible apply Kept.modChannel)

theorem kept_enableDrive {s0 s : State} {c : Channel} (kp : Kept s0 s) :
    Kept s0 (enableDrive c s) := by
  unfold enableDrive
  try dsimp only
  repeat' (first
    | with_reducible assumption | with_reducible apply Kept.modChannel)

theorem kept_freeContext {s0 s : State} {k : ContextId} (kp : Kept s0 s) :
    Kept s0 (freeContext k s) := by
  unfold freeContext
  try dsimp only
  repeat' (first
    | with_reducible assumption | with_reducible apply kept_releaseHeld
    | with_reducible refine Kept.modCtx ?_ (fun _ r => r)
    | with_reducible refine Kept.modCtx ?_ (fun _ _ => Context.inRange_reset))

theorem kept_setTimer {s0 s : State} {k : ContextId} {t : Option Nat} (kp : Kept s0 s) :
    Kept s0 (setTimer k t s) := by
  unfold setTimer
  try dsimp only
  repeat' (first
    | with_reducible assumption | with_reducible refine Kept.modCtx ?_ (fun _ r => r))

theorem kept_enterClearing {s0 s : State} {k : ContextId} (kp : Kept s0 s) :
    Kept s0 (enterClearing k s) := by
  unfold enterClearing
  try dsimp only
  repeat' (first
    | with_reducible assumption | with_reducible apply kept_sendRelease
    | with_reducible refine Kept.modCtx ?_ (fun _ r => r)
    | with_reducible refine Kept.modCtx ?_ (fun _ _ => Context.inRange_reset)
    | with_reducible refine Kept.modCtx ?_ (fun hs r => ?_)
    | exact ⟨r.1, Nat.zero_le _, Qmn.inRange_reset, Lkc.inRange_reset, fun _ ho => nomatch ho⟩
    | exact fun _ hn => nomatch hn | (refine Kept.of_eq ‹_ = (_, _)› ?_) | (dsimp only) | split)

theorem kept_letGo {s0 s : State} {k : ContextId} {c : Channel} (kp : Kept s0 s) :
    Kept s0 (letGo k c s) := by
  unfold letGo
  try dsimp only
  repeat' (first
    | with_reducible assumption | with_reducible apply kept_freeContext | with_reducible apply kept_endDrive
    | with_reducible apply kept_setView | exact fun _ hn => nomatch hn | (refine Kept.of_eq ‹_ = (_, _)› ?_)
    | (dsimp only) | split)

theorem kept_announceUnknown {s0 s : State} {k : ContextId} (kp : Kept s0 s) :
    Kept s0 (announceUnknown k s) := by
  unfold announceUnknown
  try dsimp only
  repeat' (first
    | with_reducible assumption | with_reducible apply kept_sendEvent
    | with_reducible refine Kept.modCtx ?_ (fun _ r => r)
    | with_reducible refine Kept.modCtx ?_ (fun _ _ => Context.inRange_reset)
    | with_reducible refine Kept.modCtx ?_ (fun hs r => ?_) | exact fun _ hn => nomatch hn
    | (refine Kept.of_eq ‹_ = (_, _)› ?_) | (dsimp only) | split)

theorem kept_outdialDone {s0 s : State} {k : ContextId} {result : Byte} (kp : Kept s0 s) :
    Kept s0 (outdialDone k result s) := by
  unfold outdialDone
  try dsimp only
  repeat' (first
    | with_reducible assumption | with_reducible apply kept_sendEvent
    | with_reducible refine Kept.modCtx ?_ (fun _ r => r)
    | with_reducible refine Kept.modCtx ?_ (fun _ _ => Context.inRange_reset)
    | with_reducible refine Kept.modCtx ?_ (fun hs r => ?_) | exact fun _ hn => nomatch hn
    | (refine Kept.of_eq ‹_ = (_, _)› ?_) | (dsimp only) | split)

theorem kept_leaveChannel {s0 s : State} {k : ContextId} {cause : Byte} (kp : Kept s0 s) :
    Kept s0 (leaveChannel k cause s) := by
  unfold leaveChannel
  try dsimp only
  repeat' (first
    | with_reducible assumption | with_reducible apply kept_enterClearing | with_reducible apply kept_freeContext
    | with_reducible apply kept_endDrive | with_reducible apply kept_setView
    | with_reducible apply kept_sendRelease | exact fun _ hn => nomatch hn | (refine Kept.of_eq ‹_ = (_, _)› ?_)
    | (dsimp only) | split)

theorem kept_endCall {s0 s : State} {k : ContextId} {cause : Byte} (kp : Kept s0 s) :
    Kept s0 (endCall k cause s) := by
  unfold endCall
  try dsimp only
  repeat' (first
    | with_reducible assumption | with_reducible apply kept_leaveChannel | with_reducible apply kept_outdialDone
    | with_reducible apply kept_announceUnknown | with_reducible apply kept_windDown
    | with_reducible apply kept_sendEvent | exact fun _ hn => nomatch hn | (refine Kept.of_eq ‹_ = (_, _)› ?_)
    | (dsimp only) | split)

end Sys2Proof.Machine
end

