-- ==== Sys2Proof/Laws/KeptVoice.lean ====
section
/-! SUPPORT. What the operations of Machine/Voice.lean keep. -/
namespace Sys2Proof.Machine

theorem kept_enterWaiting {s0 s : State} {k : ContextId} (kp : Kept s0 s) :
    Kept s0 (enterWaiting k s) := by
  unfold enterWaiting
  try dsimp only
  repeat' (first
    | with_reducible assumption | with_reducible apply Kept.modVoice)

theorem kept_recordingOver {s0 s : State} {k : ContextId} (kp : Kept s0 s) :
    Kept s0 (recordingOver k s) := by
  unfold recordingOver
  try dsimp only
  repeat' (first
    | with_reducible assumption | with_reducible apply kept_enterWaiting | with_reducible apply kept_endCall
    | exact Vcd.inRange_startRecording r | exact Vcd.inRange_encode r | (refine Kept.of_eq ‹_ = (_, _)› ?_)
    | (dsimp only) | split)

theorem kept_beginDeposit {s0 s : State} {k : ContextId} (kp : Kept s0 s) :
    Kept s0 (beginDeposit k s) := by
  unfold beginDeposit
  try dsimp only
  repeat' (first
    | with_reducible assumption | with_reducible apply kept_startDeposit | with_reducible apply Kept.modVoice
    | with_reducible refine Kept.modVcd ?_ (fun _ r => r)
    | with_reducible refine Kept.modVcd ?_ (fun _ _ => Vcd.inRange_reset)
    | with_reducible refine Kept.modVcd ?_ (fun hs r => ?_) | exact Vcd.inRange_startRecording r)

theorem kept_startRecording {s0 s : State} {k : ContextId} {mailbox : Nat} {kind : MsgKind} {maxBlocks : Nat} (kp : Kept s0 s) :
    Kept s0 (startRecording k mailbox kind maxBlocks s) := by
  unfold startRecording
  try dsimp only
  repeat' (first
    | with_reducible assumption | with_reducible apply kept_beginDeposit | with_reducible apply kept_recordingOver
    | with_reducible apply kept_dropRecording | with_reducible apply kept_sendRecordDone
    | with_reducible apply kept_openForWriting | with_reducible apply Kept.modVoice
    | with_reducible refine Kept.modVcd ?_ (fun _ r => r)
    | with_reducible refine Kept.modVcd ?_ (fun _ _ => Vcd.inRange_reset)
    | with_reducible refine Kept.modVcd ?_ (fun hs r => ?_) | exact Vcd.inRange_startRecording r
    | exact Vcd.inRange_encode r | (refine Kept.of_eq ‹_ = (_, _)› ?_) | (dsimp only) | split)

theorem kept_encodeFrame {s0 s : State} {k : ContextId} {sample : Byte} (kp : Kept s0 s) :
    Kept s0 (encodeFrame k sample s) := by
  unfold encodeFrame
  split
  · have k1 : Kept s0 (s.modVcd k fun _ => ((s.at k).vcd.encode (configOf s).quietThreshold sample).1) :=
      kp.modVcd fun _ r => Vcd.inRange_encode r
    dsimp only
    revert k1
    generalize (s.modVcd k fun _ => ((s.at k).vcd.encode (configOf s).quietThreshold sample).1) = s1
    intro k1
    split
    · exact k1
    · next f _ =>
      have k2 := kept_handOn (k := k) (f := f) k1
      split
      · next e => exact kept_recordingOver (kept_dropRecording (kept_reportClose (Kept.of_eq e k2)))
      · next e =>
        have k3 := Kept.of_eq e k2
        split
        · exact kept_recordingOver (kept_finishRecording k3)
        · split
          · exact kept_recordingOver (kept_finishRecording k3)
          · exact k3
  · exact kp

theorem kept_reportDeposit {s0 s : State} {k : ContextId} {d : OutDeposit} {o : DepositOutcome} (kp : Kept s0 s) :
    Kept s0 (reportDeposit k d o s) := by
  unfold reportDeposit
  try dsimp only
  repeat' (first
    | with_reducible assumption | with_reducible apply kept_sendRecordDone | exact Vcd.inRange_startRecording r
    | exact Vcd.inRange_encode r | (refine Kept.of_eq ‹_ = (_, _)› ?_) | (dsimp only) | split)

theorem kept_recordingDepositEnded {s0 s : State} {k : ContextId} {d : OutDeposit} {o : DepositOutcome} (kp : Kept s0 s) :
    Kept s0 (recordingDepositEnded k d o s) := by
  unfold recordingDepositEnded
  try dsimp only
  repeat' (first
    | with_reducible assumption | with_reducible apply kept_reportDeposit | with_reducible apply kept_recordingOver
    | with_reducible apply kept_abandonRecording | exact Vcd.inRange_startRecording r | exact Vcd.inRange_encode r
    | (refine Kept.of_eq ‹_ = (_, _)› ?_) | (dsimp only) | split)

theorem kept_startBeep {s0 s : State} {k : ContextId} (kp : Kept s0 s) :
    Kept s0 (startBeep k s) := by
  unfold startBeep startTone
  exact kp.modVoice.modCtx fun _ r => r

theorem kept_playbackOver {s0 s : State} {k : ContextId} {result : Byte} (kp : Kept s0 s) :
    Kept s0 (playbackOver k result s) := by
  unfold playbackOver
  try dsimp only
  repeat' (first
    | with_reducible assumption | with_reducible apply kept_startBeep | with_reducible apply kept_enterWaiting
    | with_reducible apply kept_endCall | with_reducible apply kept_sendPlayDone
    | with_reducible apply Kept.modVoice | exact Vcd.inRange_startRecording r | exact Vcd.inRange_encode r
    | (refine Kept.of_eq ‹_ = (_, _)› ?_) | (dsimp only) | split)

theorem kept_discriminationEnds {s0 s : State} {k : ContextId} (kp : Kept s0 s) :
    Kept s0 (discriminationEnds k s) := by
  unfold discriminationEnds
  try dsimp only
  repeat' (first
    | with_reducible assumption | with_reducible apply kept_startRecording | with_reducible apply kept_sendEvent
    | with_reducible refine Kept.modCtx ?_ (fun _ r => r)
    | with_reducible refine Kept.modCtx ?_ (fun _ _ => Context.inRange_reset)
    | with_reducible refine Kept.modCtx ?_ (fun hs r => ?_) | with_reducible apply Kept.modVoice)

theorem kept_beepEnds {s0 s : State} {k : ContextId} (kp : Kept s0 s) :
    Kept s0 (beepEnds k s) := by
  unfold beepEnds
  try dsimp only
  repeat' (first
    | with_reducible assumption | with_reducible apply kept_discriminationEnds | with_reducible apply Kept.modVoice
    | exact Vcd.inRange_startRecording r | exact Vcd.inRange_encode r | (refine Kept.of_eq ‹_ = (_, _)› ?_)
    | (dsimp only) | split)

theorem headerPredictor_range (block : List Byte) :
    -8191 ≤ headerPredictor block ∧ headerPredictor block ≤ 8191 := by
  unfold headerPredictor
  dsimp only
  split
  · omega
  · split <;> omega

theorem headerIndex_le (block : List Byte) : headerIndex block ≤ 47 := Nat.min_le_left _ _

theorem kept_loadBlock {s0 s : State} {k : ContextId} {b : Nat} {block : List Byte} (kp : Kept s0 s) :
    Kept s0 (loadBlock k b block s) :=
  kp.modVcd fun _ r => ⟨r.1, r.2.1, headerPredictor_range block, headerIndex_le block⟩

theorem kept_moveDecoder {s0 s : State} {k : ContextId} {b : Nat} (kp : Kept s0 s) :
    Kept s0 (moveDecoder k b s) := by
  unfold moveDecoder
  try dsimp only
  repeat' (first
    | with_reducible assumption | with_reducible apply kept_loadBlock | with_reducible apply kept_fetchSettle
    | with_reducible refine Kept.modVcd ?_ (fun _ r => r)
    | with_reducible refine Kept.modVcd ?_ (fun _ _ => Vcd.inRange_reset)
    | with_reducible refine Kept.modVcd ?_ (fun hs r => ?_) | exact Vcd.inRange_startRecording r
    | exact Vcd.inRange_encode r | (refine Kept.of_eq ‹_ = (_, _)› ?_) | (dsimp only) | split)

theorem kept_refillPlayback {s0 s : State} {k : ContextId} {needed : Nat} (kp : Kept s0 s) :
    Kept s0 (refillPlayback k needed s) := by
  unfold refillPlayback
  try dsimp only
  repeat' (first
    | with_reducible assumption | with_reducible apply kept_fillBuffer
    | with_reducible refine Kept.modVcd ?_ (fun _ r => r)
    | with_reducible refine Kept.modVcd ?_ (fun _ _ => Vcd.inRange_reset)
    | with_reducible refine Kept.modVcd ?_ (fun hs r => ?_) | exact Vcd.inRange_startRecording r
    | exact Vcd.inRange_encode r | (refine Kept.of_eq ‹_ = (_, _)› ?_) | (dsimp only) | split)

theorem kept_markHeard {s0 s : State} {k : ContextId} (kp : Kept s0 s) :
    Kept s0 (markHeard k s) := by
  unfold markHeard
  try dsimp only
  repeat' (first
    | with_reducible assumption | with_reducible apply kept_markMessage | with_reducible apply kept_offerOther
    | exact Vcd.inRange_startRecording r | exact Vcd.inRange_encode r | (refine Kept.of_eq ‹_ = (_, _)› ?_)
    | (dsimp only) | split)

theorem kept_playbackReachesEnd {s0 s : State} {k : ContextId} (kp : Kept s0 s) :
    Kept s0 (playbackReachesEnd k s) := by
  unfold playbackReachesEnd
  try dsimp only
  repeat' (first
    | with_reducible assumption | with_reducible apply kept_markHeard | with_reducible apply kept_playbackOver
    | with_reducible apply kept_stopPlayback)

theorem kept_beginDecoding {s0 s : State} {k : ContextId} {source : Source} {kind : MsgKind} {length : Nat} {blocks : Nat} (kp : Kept s0 s) :
    Kept s0 (beginDecoding k source kind length blocks s) := by
  unfold beginDecoding
  try dsimp only
  repeat' (first
    | with_reducible assumption | with_reducible apply kept_playbackReachesEnd
    | with_reducible apply kept_refillPlayback | with_reducible apply kept_moveDecoder
    | with_reducible refine Kept.modVcd ?_ (fun _ r => r)
    | with_reducible refine Kept.modVcd ?_ (fun _ _ => Vcd.inRange_reset)
    | with_reducible refine Kept.modVcd ?_ (fun hs r => ?_) | exact Vcd.inRange_startRecording r
    | exact Vcd.inRange_encode r | (refine Kept.of_eq ‹_ = (_, _)› ?_) | (dsimp only) | split)

theorem kept_playGranted {s0 s : State} {k : ContextId} {source : Source} {kind : Option MsgKind} {length : Nat} {blocks : Nat} (kp : Kept s0 s) :
    Kept s0 (playGranted k source kind length blocks s) := by
  unfold playGranted
  try dsimp only
  repeat' (first
    | with_reducible assumption | with_reducible apply kept_beginDecoding | with_reducible apply kept_playbackOver
    | with_reducible apply kept_leaveSource | exact Vcd.inRange_startRecording r | exact Vcd.inRange_encode r
    | (refine Kept.of_eq ‹_ = (_, _)› ?_) | (dsimp only) | split)

theorem kept_beginPlay {s0 s : State} {k : ContextId} {target : PlayTarget} {start : Nat} (kp : Kept s0 s) :
    Kept s0 (beginPlay k target start s) := by
  unfold beginPlay
  try dsimp only
  repeat' (first
    | with_reducible assumption | with_reducible apply kept_playGranted | with_reducible apply kept_playbackOver
    | with_reducible apply kept_startFetch | with_reducible apply kept_readOpen
    | with_reducible apply Kept.modVoice | with_reducible refine Kept.modVcd ?_ (fun _ r => r)
    | with_reducible refine Kept.modVcd ?_ (fun _ _ => Vcd.inRange_reset)
    | with_reducible refine Kept.modVcd ?_ (fun hs r => ?_) | exact Vcd.inRange_startRecording r
    | exact Vcd.inRange_encode r | (refine Kept.of_eq ‹_ = (_, _)› ?_) | (dsimp only) | split)

theorem kept_playFetchEnded {s0 s : State} {k : ContextId} {o : FetchOutcome} (kp : Kept s0 s) :
    Kept s0 (playFetchEnded k o s) := by
  unfold playFetchEnded
  try dsimp only
  repeat' (first
    | with_reducible assumption | with_reducible apply kept_playbackOver | with_reducible apply kept_stopPlayback)

theorem kept_decodeFrame {s0 s : State} {k : ContextId} (kp : Kept s0 s) : Kept s0 (decodeFrame k s).1 := by
  unfold decodeFrame
  dsimp only
  split
  · dsimp only
    exact kp.modVcd fun _ r =>
      ⟨r.1, r.2.1, (applyCode_range (s.at k).vcd.decPredictor _ _).1, (applyCode_range (s.at k).vcd.decPredictor _ _).2⟩
  · exact kp

theorem kept_afterDecode {s0 s : State} {k : ContextId} (kp : Kept s0 s) :
    Kept s0 (afterDecode k s) := by
  unfold afterDecode
  try dsimp only
  repeat' (first
    | with_reducible assumption | with_reducible apply kept_playbackReachesEnd
    | with_reducible apply kept_refillPlayback | with_reducible apply kept_moveDecoder
    | with_reducible refine Kept.modVcd ?_ (fun _ r => r)
    | with_reducible refine Kept.modVcd ?_ (fun _ _ => Vcd.inRange_reset)
    | with_reducible refine Kept.modVcd ?_ (fun hs r => ?_) | exact Vcd.inRange_startRecording r
    | exact Vcd.inRange_encode r | (refine Kept.of_eq ‹_ = (_, _)› ?_) | (dsimp only) | split)

theorem kept_resumeDecoder {s0 s : State} {k : ContextId} (kp : Kept s0 s) :
    Kept s0 (resumeDecoder k s) := by
  unfold resumeDecoder
  try dsimp only
  repeat' (first
    | with_reducible assumption | with_reducible apply kept_loadBlock | exact Vcd.inRange_startRecording r
    | exact Vcd.inRange_encode r | (refine Kept.of_eq ‹_ = (_, _)› ?_) | (dsimp only) | split)

theorem kept_resumePlayback {s0 s : State} {k : ContextId} (kp : Kept s0 s) : Kept s0 (resumePlayback k s) := by
  unfold resumePlayback
  dsimp only
  split
  · exact kept_resumeDecoder (kept_refillPlayback kp)
  · exact kept_resumeDecoder kp

theorem kept_endActivity {s0 s : State} {k : ContextId} (kp : Kept s0 s) :
    Kept s0 (endActivity k s) := by
  unfold endActivity
  try dsimp only
  repeat' (first
    | with_reducible assumption | with_reducible apply kept_finishRecording
    | with_reducible apply kept_sendPlayDone | with_reducible apply kept_stopPlayback
    | with_reducible apply Kept.modVoice | exact Vcd.inRange_startRecording r | exact Vcd.inRange_encode r
    | (refine Kept.of_eq ‹_ = (_, _)› ?_) | (dsimp only) | split)

end Sys2Proof.Machine
end

