-- ==== Sys2Proof/Laws/KeptFax.lean ====
section
/-! SUPPORT. What the operations of Machine/Fax.lean keep. -/
namespace Sys2Proof.Machine

theorem kept_sendControl {s0 s : State} {k : ContextId} {f : ControlFrame} (kp : Kept s0 s) :
    Kept s0 (sendControl k f s) := by
  unfold sendControl
  try dsimp only
  repeat' (first
    | with_reducible assumption | with_reducible apply Kept.modPump)

theorem kept_setPump {s0 s : State} {k : ContextId} {p : PumpState} (kp : Kept s0 s) :
    Kept s0 (setPump k p s) := by
  unfold setPump
  try dsimp only
  repeat' (first
    | with_reducible assumption | with_reducible apply Kept.modPump)

theorem kept_enterPhase {s0 s : State} {k : ContextId} {phase : FaxPhase} {wait : Option Nat} (kp : Kept s0 s) :
    Kept s0 (enterPhase k phase wait s) := by
  unfold enterPhase
  try dsimp only
  repeat' (first
    | with_reducible assumption | with_reducible refine Kept.modFax ?_ (fun _ r => r))

theorem kept_pumpTrained {s0 s : State} {k : ContextId} (kp : Kept s0 s) :
    Kept s0 (pumpTrained k s) := by
  unfold pumpTrained
  try dsimp only
  repeat' (first
    | with_reducible assumption | with_reducible apply Kept.modDetector)

theorem kept_sendFaxPage {s0 s : State} {k : ContextId} {page : Nat} {verdict : Nat} (kp : Kept s0 s) :
    Kept s0 (sendFaxPage k page verdict s) := by
  unfold sendFaxPage
  try dsimp only
  repeat' (first
    | with_reducible assumption | with_reducible apply kept_sendEvent)

theorem kept_faxSessionEnds {s0 s : State} {k : ContextId} {result : Byte} (kp : Kept s0 s) :
    Kept s0 (faxSessionEnds k result s) := by
  unfold faxSessionEnds
  try dsimp only
  repeat' (first
    | with_reducible assumption | with_reducible apply kept_endCall | with_reducible apply kept_clearFax
    | with_reducible apply kept_sendFaxDone | with_reducible apply kept_leaveFaxSource
    | with_reducible refine Kept.modCtx ?_ (fun _ r => r))

theorem kept_sendDisconnect {s0 s : State} {k : ContextId} {result : Byte} (kp : Kept s0 s) :
    Kept s0 (sendDisconnect k result s) := by
  unfold sendDisconnect
  try dsimp only
  repeat' (first
    | with_reducible assumption | with_reducible apply kept_enterPhase | with_reducible apply kept_sendControl
    | with_reducible refine Kept.modFax ?_ (fun _ r => r))

theorem kept_endReceive {s0 s : State} {k : ContextId} {frame : Bool} {close : Option Byte} {result : Byte} (kp : Kept s0 s) :
    Kept s0 (endReceive k frame close result s) := by
  unfold endReceive
  try dsimp only
  repeat' (first
    | with_reducible assumption | with_reducible apply kept_sendDisconnect
    | with_reducible apply kept_faxSessionEnds | with_reducible apply kept_closeFaxTarget
    | with_reducible refine Kept.modFax ?_ (fun _ r => r)
    | with_reducible refine Kept.modFax ?_ (fun _ _ => Nat.zero_le _)
    | with_reducible refine Kept.modFax ?_ (fun hs r => ?_) | (refine Kept.of_eq ‹_ = (_, _)› ?_) | (dsimp only)
    | split)

theorem kept_endSend {s0 s : State} {k : ContextId} {result : Byte} (kp : Kept s0 s) :
    Kept s0 (endSend k result s) := by
  unfold endSend
  try dsimp only
  repeat' (first
    | with_reducible assumption | with_reducible apply kept_sendDisconnect
    | with_reducible apply kept_faxSessionEnds | (refine Kept.of_eq ‹_ = (_, _)› ?_) | (dsimp only) | split)

theorem kept_awaitMode {s0 s : State} {k : ContextId} (kp : Kept s0 s) :
    Kept s0 (awaitMode k s) := by
  unfold awaitMode
  try dsimp only
  repeat' (first
    | with_reducible assumption | with_reducible apply kept_enterPhase)

theorem kept_sendCapability {s0 s : State} {k : ContextId} (kp : Kept s0 s) :
    Kept s0 (sendCapability k s) := by
  unfold sendCapability
  try dsimp only
  repeat' (first
    | with_reducible assumption | with_reducible apply kept_awaitMode | with_reducible apply kept_sendControl)

theorem kept_beginFaxDeposit {s0 s : State} {k : ContextId} (kp : Kept s0 s) :
    Kept s0 (beginFaxDeposit k s) := by
  unfold beginFaxDeposit
  try dsimp only
  repeat' (first
    | with_reducible assumption | with_reducible apply kept_sendCapability | with_reducible apply kept_startDeposit
    | with_reducible refine Kept.modFax ?_ (fun _ r => r))

theorem kept_enterFaxSession {s0 s : State} {k : ContextId} {role : FaxRole} (kp : Kept s0 s) :
    Kept s0 (enterFaxSession k role s) := by
  unfold enterFaxSession
  try dsimp only
  repeat' (first
    | with_reducible assumption | with_reducible apply kept_setPump
    | with_reducible refine Kept.modCtx ?_ (fun _ r => r)
    | with_reducible refine Kept.modCtx ?_ (fun _ _ => Context.inRange_reset)
    | with_reducible refine Kept.modCtx ?_ (fun hs r => ?_) | exact ⟨r.1, Nat.zero_le _, r.2.2⟩)

theorem kept_startFaxReceive {s0 s : State} {k : ContextId} {mailbox : Nat} (kp : Kept s0 s) :
    Kept s0 (startFaxReceive k mailbox s) := by
  unfold startFaxReceive
  try dsimp only
  repeat' (first
    | with_reducible assumption | with_reducible apply kept_enterFaxSession
    | with_reducible apply kept_beginFaxDeposit | with_reducible apply kept_sendCapability
    | with_reducible apply kept_faxSessionEnds | with_reducible apply kept_enterPhase
    | with_reducible apply kept_openForWriting | with_reducible refine Kept.modFax ?_ (fun _ r => r)
    | with_reducible refine Kept.modFax ?_ (fun _ _ => Nat.zero_le _)
    | with_reducible refine Kept.modFax ?_ (fun hs r => ?_) | (have := faxMaxRate_le hs; exact this)
    | (refine Kept.of_eq ‹_ = (_, _)› ?_) | (dsimp only) | split)

theorem kept_trainBadSent {s0 s : State} {k : ContextId} (kp : Kept s0 s) :
    Kept s0 (trainBadSent k s) := by
  unfold trainBadSent
  try dsimp only
  repeat' (first
    | with_reducible assumption | with_reducible apply kept_awaitMode | with_reducible apply kept_endReceive
    | with_reducible apply kept_setPump | with_reducible apply kept_sendControl
    | with_reducible refine Kept.modFax ?_ (fun _ r => r)
    | with_reducible refine Kept.modFax ?_ (fun _ _ => Nat.zero_le _)
    | with_reducible refine Kept.modFax ?_ (fun hs r => ?_) | (refine Kept.of_eq ‹_ = (_, _)› ?_) | (dsimp only)
    | split)

theorem kept_takeMode {s0 s : State} {k : ContextId} {rate : Nat} (kp : Kept s0 s) :
    Kept s0 (takeMode k rate s) := by
  unfold takeMode
  try dsimp only
  repeat' (first
    | with_reducible assumption | with_reducible apply kept_trainBadSent | with_reducible apply kept_enterPhase
    | with_reducible apply kept_setPump | with_reducible refine Kept.modFax ?_ (fun _ r => r)
    | with_reducible refine Kept.modFax ?_ (fun _ _ => Nat.zero_le _)
    | with_reducible refine Kept.modFax ?_ (fun hs r => ?_) | with_reducible refine Kept.modQmn ?_ (fun _ r => r)
    | with_reducible refine Kept.modQmn ?_ (fun _ _ => Qmn.inRange_reset)
    | with_reducible refine Kept.modQmn ?_ (fun hs r => ?_)
    | exact Nat.le_trans (Nat.le_of_not_lt ‹_›) (faxMaxRate_le hs) | (refine Kept.of_eq ‹_ = (_, _)› ?_)
    | (dsimp only) | split)

/-- Q stays inside 0..65520 for every reading of twelve bits (R162). -/
theorem moveQuality_le (q : Option Nat) (first : Bool) (r : Nat) (hq : ∀ n ∈ q, n ≤ 65520) (hr : r ≤ 4095) :
    moveQuality q first r ≤ 65520 := by
  cases q with
  | none => simp only [moveQuality]; omega
  | some n =>
    cases first
    case true => simp only [moveQuality]; omega
    have hn := hq n rfl
    simp only [moveQuality]
    rcases Int.le_total 0 (((16 * r : Nat) : Int) - n) with h | h
    · have h2 : (((16 * r : Nat) : Int) - n).tdiv 8 ≤ ((16 * r : Nat) : Int) - n := Int.tdiv_le_self _ h
      omega
    · have h2 : (((16 * r : Nat) : Int) - n).tdiv 8 ≤ 0 := by
        have := Int.tdiv_nonneg (a := -(((16 * r : Nat) : Int) - n)) (b := 8) (by omega) (by omega)
        rw [Int.neg_tdiv] at this
        omega
      omega

theorem Qmn.inRange_trainingStep {q : Qmn} {r : Nat} (x : q.InRange) (hr : r ≤ 4095) : (q.trainingStep r).InRange :=
  ⟨x.1, x.2.1, x.2.2.1, fun n hn => by
    cases hn
    exact moveQuality_le _ _ _ x.2.2.2.1 hr, x.2.2.2.2⟩

theorem kept_faxReading {s0 s : State} {k : ContextId} {r : Nat} (kp : Kept s0 s) (hr : r ≤ 4095) :
    Kept s0 (faxReading k r s) := by
  unfold faxReading
  have k1 : Kept s0 (s.modQmn k fun q => q.trainingStep r) := kp.modQmn fun _ x => Qmn.inRange_trainingStep x hr
  dsimp only
  split
  · exact k1
  · split
    · exact kept_enterPhase (kept_pumpTrained (kept_setPump ((kept_sendControl k1).modFax fun _ x => x)))
    · exact kept_trainBadSent k1

theorem kept_takeFreeBytes {s0 s : State} {n : Nat} (kp : Kept s0 s) : Kept s0 (takeFreeBytes n s).1 := kp.free

theorem kept_handFaxBlock {s0 s : State} {k : ContextId} {payload : List Byte} {pageEnd : Bool} (kp : Kept s0 s) :
    Kept s0 (handFaxBlock k payload pageEnd s).1 := by
  unfold handFaxBlock
  try dsimp only
  repeat' (first
    | with_reducible assumption | with_reducible apply kept_takeFreeBytes | with_reducible apply kept_handToDeposit
    | with_reducible apply kept_appendBlock | (refine Kept.of_eq ‹_ = (_, _)› ?_) | (dsimp only) | split)

theorem kept_faxStoreFull {s0 s : State} {k : ContextId} (kp : Kept s0 s) :
    Kept s0 (faxStoreFull k s) := by
  unfold faxStoreFull
  try dsimp only
  repeat' (first
    | with_reducible assumption | with_reducible apply kept_endReceive)

theorem kept_buildPage {s0 s : State} {k : ContextId} {data : List Byte} (kp : Kept s0 s) :
    Kept s0 (buildPage k data s) := by
  unfold buildPage
  try dsimp only
  repeat' (first
    | with_reducible assumption | with_reducible apply kept_faxStoreFull | with_reducible apply kept_handFaxBlock
    | with_reducible refine Kept.modFax ?_ (fun _ r => r)
    | with_reducible refine Kept.modFax ?_ (fun _ _ => Nat.zero_le _)
    | with_reducible refine Kept.modFax ?_ (fun hs r => ?_) | (refine Kept.of_eq ‹_ = (_, _)› ?_) | (dsimp only)
    | split)

theorem kept_takeFaxFrame {s0 s : State} {k : ContextId} {good : Bool} {number : Nat} {data : List Byte} (kp : Kept s0 s) :
    Kept s0 (takeFaxFrame k good number data s) := by
  unfold takeFaxFrame
  try dsimp only
  repeat' (first
    | with_reducible assumption | with_reducible apply kept_buildPage | with_reducible apply kept_enterPhase
    | with_reducible refine Kept.modFax ?_ (fun _ r => r)
    | with_reducible refine Kept.modFax ?_ (fun _ _ => Nat.zero_le _)
    | with_reducible refine Kept.modFax ?_ (fun hs r => ?_) | (refine Kept.of_eq ‹_ = (_, _)› ?_) | (dsimp only)
    | split)

theorem kept_keepPage {s0 s : State} {k : ContextId} (kp : Kept s0 s) :
    Kept s0 (keepPage k s).1 := by
  unfold keepPage
  try dsimp only
  repeat' (first
    | with_reducible assumption | with_reducible apply kept_handFaxBlock | with_reducible apply kept_endPage
    | with_reducible refine Kept.modFax ?_ (fun _ r => r)
    | with_reducible refine Kept.modFax ?_ (fun _ _ => Nat.zero_le _)
    | with_reducible refine Kept.modFax ?_ (fun hs r => ?_) | (refine Kept.of_eq ‹_ = (_, _)› ?_) | (dsimp only)
    | split)

theorem kept_undoPage {s0 s : State} {k : ContextId} (kp : Kept s0 s) :
    Kept s0 (undoPage k s) := by
  unfold undoPage
  try dsimp only
  repeat' (first
    | with_reducible assumption | with_reducible apply kept_askRollback | with_reducible apply kept_rollBack
    | with_reducible refine Kept.modFax ?_ (fun _ r => r)
    | with_reducible refine Kept.modFax ?_ (fun _ _ => Nat.zero_le _)
    | with_reducible refine Kept.modFax ?_ (fun hs r => ?_) | (refine Kept.of_eq ‹_ = (_, _)› ?_) | (dsimp only)
    | split)

theorem kept_afterVerdict {s0 s : State} {k : ContextId} {verdict : Nat} {last : Bool} (kp : Kept s0 s) :
    Kept s0 (afterVerdict k verdict last s) := by
  unfold afterVerdict
  try dsimp only
  repeat' (first
    | with_reducible assumption | with_reducible apply kept_awaitMode | with_reducible apply kept_sendDisconnect
    | with_reducible apply kept_enterPhase | with_reducible apply kept_setPump
    | with_reducible apply kept_closeFaxTarget | (refine Kept.of_eq ‹_ = (_, _)› ?_) | (dsimp only) | split)

theorem kept_takePageEnd {s0 s : State} {k : ContextId} {last : Bool} (kp : Kept s0 s) :
    Kept s0 (takePageEnd k last s) := by
  unfold takePageEnd
  try dsimp only
  repeat' (first
    | with_reducible assumption | with_reducible apply kept_afterVerdict | with_reducible apply kept_undoPage
    | with_reducible apply kept_keepPage | with_reducible apply kept_faxStoreFull
    | with_reducible apply kept_sendFaxPage | with_reducible apply kept_sendControl
    | with_reducible refine Kept.modFax ?_ (fun _ r => r)
    | with_reducible refine Kept.modFax ?_ (fun _ _ => Nat.zero_le _)
    | with_reducible refine Kept.modFax ?_ (fun hs r => ?_) | (refine Kept.of_eq ‹_ = (_, _)› ?_) | (dsimp only)
    | split)

theorem kept_trainSend {s0 s : State} {k : ContextId} (kp : Kept s0 s) :
    Kept s0 (trainSend k s) := by
  unfold trainSend
  try dsimp only
  repeat' (first
    | with_reducible assumption | with_reducible apply kept_enterPhase | with_reducible apply kept_setPump
    | with_reducible apply kept_sendControl | with_reducible refine Kept.modFax ?_ (fun _ r => r))

theorem kept_takeCapability {s0 s : State} {k : ContextId} {c : Nat} (kp : Kept s0 s) :
    Kept s0 (takeCapability k c s) := by
  unfold takeCapability
  try dsimp only
  repeat' (first
    | with_reducible assumption | with_reducible apply kept_trainSend
    | with_reducible refine Kept.modFax ?_ (fun _ r => r)
    | with_reducible refine Kept.modFax ?_ (fun _ _ => Nat.zero_le _)
    | with_reducible refine Kept.modFax ?_ (fun hs r => ?_)
    | exact Nat.le_trans (Nat.min_le_left _ _) (Nat.min_le_right _ _))

theorem kept_askFaxBlock {s0 s : State} {k : ContextId} {index : Nat} (kp : Kept s0 s) :
    Kept s0 (askFaxBlock k index s) := by
  unfold askFaxBlock
  try dsimp only
  repeat' (first
    | with_reducible assumption | with_reducible apply kept_askBlock
    | with_reducible refine Kept.modFax ?_ (fun _ r => r)
    | with_reducible refine Kept.modFax ?_ (fun _ _ => Nat.zero_le _)
    | with_reducible refine Kept.modFax ?_ (fun hs r => ?_) | (refine Kept.of_eq ‹_ = (_, _)› ?_) | (dsimp only)
    | split)

theorem kept_bufferFrom {s0 s : State} {k : ContextId} {b : Nat} (kp : Kept s0 s) :
    Kept s0 (bufferFrom k b s) := by
  unfold bufferFrom
  try dsimp only
  repeat' (first
    | with_reducible assumption | with_reducible apply kept_askFaxBlock | with_reducible apply kept_fetchSettle
    | with_reducible refine Kept.modFax ?_ (fun _ r => r)
    | with_reducible refine Kept.modFax ?_ (fun _ _ => Nat.zero_le _)
    | with_reducible refine Kept.modFax ?_ (fun hs r => ?_) | (refine Kept.forEach ?_ (fun _ _ _ => ?_))
    | (refine Kept.of_eq ‹_ = (_, _)› ?_) | (dsimp only) | split)

theorem kept_feedBlock {s0 s : State} {k : ContextId} {b : Nat} {block : List Byte} (kp : Kept s0 s) :
    Kept s0 (feedBlock k b block s) := by
  unfold feedBlock
  try dsimp only
  repeat' (first
    | with_reducible assumption | with_reducible apply kept_fillBuffer
    | with_reducible refine Kept.modFax ?_ (fun _ r => r)
    | with_reducible refine Kept.modFax ?_ (fun _ _ => Nat.zero_le _)
    | with_reducible refine Kept.modFax ?_ (fun hs r => ?_) | (refine Kept.of_eq ‹_ = (_, _)› ?_) | (dsimp only)
    | split)

theorem kept_feedPage {s0 s : State} {k : ContextId} {n : Nat} (kp : Kept s0 s) : Kept s0 (feedPage k n s) := by
  induction n generalizing s with
  | zero => exact kp
  | succ n ih =>
    unfold feedPage
    dsimp only
    split
    · exact ih (kept_feedBlock kp)
    · exact kp

theorem kept_feed {s0 s : State} {k : ContextId} (kp : Kept s0 s) :
    Kept s0 (feed k s) := by
  unfold feed
  try dsimp only
  repeat' (first
    | with_reducible assumption | with_reducible apply kept_feedPage | split)

theorem kept_resumeFax {s0 s : State} {k : ContextId} (kp : Kept s0 s) : Kept s0 (resumeFax k s) := by
  unfold resumeFax
  dsimp only
  split
  · exact kept_feed ((kept_fillBuffer kp).modFax fun _ r => r)
  · exact kp

theorem kept_sendPage {s0 s : State} {k : ContextId} (kp : Kept s0 s) :
    Kept s0 (sendPage k s) := by
  unfold sendPage
  try dsimp only
  repeat' (first
    | with_reducible assumption | with_reducible apply kept_feed | with_reducible apply kept_bufferFrom
    | with_reducible apply kept_enterPhase | with_reducible refine Kept.modFax ?_ (fun _ r => r))

theorem kept_faxGranted {s0 s : State} {k : ContextId} {source : Source} {kind : Option MsgKind} {blocks : Nat} (kp : Kept s0 s) :
    Kept s0 (faxGranted k source kind blocks s) := by
  unfold faxGranted
  try dsimp only
  repeat' (first
    | with_reducible assumption | with_reducible apply kept_bufferFrom | with_reducible apply kept_takeCapability
    | with_reducible apply kept_endSend | with_reducible apply kept_leaveSource
    | with_reducible refine Kept.modFax ?_ (fun _ r => r)
    | with_reducible refine Kept.modFax ?_ (fun _ _ => Nat.zero_le _)
    | with_reducible refine Kept.modFax ?_ (fun hs r => ?_) | (refine Kept.of_eq ‹_ = (_, _)› ?_) | (dsimp only)
    | split)

theorem kept_startFaxSend {s0 s : State} {k : ContextId} {home : Nat} {handle : Nat} (kp : Kept s0 s) :
    Kept s0 (startFaxSend k home handle s) := by
  unfold startFaxSend
  try dsimp only
  repeat' (first
    | with_reducible assumption | with_reducible apply kept_faxGranted | with_reducible apply kept_enterFaxSession
    | with_reducible apply kept_endSend | with_reducible apply kept_enterPhase
    | with_reducible apply kept_startFetch | with_reducible apply kept_readOpen
    | (refine Kept.of_eq ‹_ = (_, _)› ?_) | (dsimp only) | split)

theorem kept_faxFetchEnded {s0 s : State} {k : ContextId} {o : FetchOutcome} (kp : Kept s0 s) :
    Kept s0 (faxFetchEnded k o s) := by
  unfold faxFetchEnded
  try dsimp only
  repeat' (first
    | with_reducible assumption | with_reducible apply kept_endSend | with_reducible apply kept_endFetch
    | with_reducible refine Kept.modFax ?_ (fun _ r => r)
    | with_reducible refine Kept.modFax ?_ (fun _ _ => Nat.zero_le _)
    | with_reducible refine Kept.modFax ?_ (fun hs r => ?_) | (refine Kept.of_eq ‹_ = (_, _)› ?_) | (dsimp only)
    | split)

theorem kept_takeTrainVerdict {s0 s : State} {k : ContextId} {good : Bool} (kp : Kept s0 s) :
    Kept s0 (takeTrainVerdict k good s) := by
  unfold takeTrainVerdict
  try dsimp only
  repeat' (first
    | with_reducible assumption | with_reducible apply kept_sendPage | with_reducible apply kept_trainSend
    | with_reducible apply kept_endSend | with_reducible apply kept_pumpTrained | with_reducible apply kept_setPump
    | with_reducible refine Kept.modFax ?_ (fun _ r => r)
    | with_reducible refine Kept.modFax ?_ (fun _ _ => Nat.zero_le _)
    | with_reducible refine Kept.modFax ?_ (fun hs r => ?_) | exact Nat.le_trans (Nat.sub_le _ _) r
    | (refine Kept.of_eq ‹_ = (_, _)› ?_) | (dsimp only) | split)

theorem kept_sendTrainingOver {s0 s : State} {k : ContextId} (kp : Kept s0 s) :
    Kept s0 (sendTrainingOver k s) := by
  unfold sendTrainingOver
  try dsimp only
  repeat' (first
    | with_reducible assumption | with_reducible apply kept_takeTrainVerdict | with_reducible apply kept_enterPhase
    | with_reducible refine Kept.modFax ?_ (fun _ r => r)
    | with_reducible refine Kept.modFax ?_ (fun _ _ => Nat.zero_le _)
    | with_reducible refine Kept.modFax ?_ (fun hs r => ?_) | (refine Kept.of_eq ‹_ = (_, _)› ?_) | (dsimp only)
    | split)

theorem kept_pageSent {s0 s : State} {k : ContextId} {last : Bool} (kp : Kept s0 s) :
    Kept s0 (pageSent k last s) := by
  unfold pageSent
  try dsimp only
  repeat' (first
    | with_reducible assumption | with_reducible apply kept_enterPhase | with_reducible apply kept_sendControl)

theorem kept_pageKept {s0 s : State} {k : ContextId} {verdict : Nat} (kp : Kept s0 s) :
    Kept s0 (pageKept k verdict s) := by
  unfold pageKept
  try dsimp only
  repeat' (first
    | with_reducible assumption | with_reducible apply kept_sendFaxPage
    | with_reducible refine Kept.modFax ?_ (fun _ r => r))

theorem kept_takePageGood {s0 s : State} {k : ContextId} (kp : Kept s0 s) :
    Kept s0 (takePageGood k s) := by
  unfold takePageGood
  try dsimp only
  repeat' (first
    | with_reducible assumption | with_reducible apply kept_pageKept | with_reducible apply kept_sendPage
    | with_reducible apply kept_sendDisconnect | (refine Kept.of_eq ‹_ = (_, _)› ?_) | (dsimp only) | split)

theorem kept_takePageRetrain {s0 s : State} {k : ContextId} (kp : Kept s0 s) :
    Kept s0 (takePageRetrain k s) := by
  unfold takePageRetrain
  try dsimp only
  repeat' (first
    | with_reducible assumption | with_reducible apply kept_pageKept | with_reducible apply kept_trainSend
    | with_reducible apply kept_sendDisconnect | with_reducible refine Kept.modFax ?_ (fun _ r => r)
    | with_reducible refine Kept.modFax ?_ (fun _ _ => Nat.zero_le _)
    | with_reducible refine Kept.modFax ?_ (fun hs r => ?_) | exact Nat.le_trans (Nat.sub_le _ _) r
    | (refine Kept.of_eq ‹_ = (_, _)› ?_) | (dsimp only) | split)

theorem kept_takePageBad {s0 s : State} {k : ContextId} (kp : Kept s0 s) :
    Kept s0 (takePageBad k s) := by
  unfold takePageBad
  try dsimp only
  repeat' (first
    | with_reducible assumption | with_reducible apply kept_trainSend | with_reducible apply kept_endSend
    | with_reducible apply kept_sendFaxPage | with_reducible refine Kept.modFax ?_ (fun _ r => r)
    | with_reducible refine Kept.modFax ?_ (fun _ _ => Nat.zero_le _)
    | with_reducible refine Kept.modFax ?_ (fun hs r => ?_) | exact Nat.le_trans (Nat.sub_le _ _) r
    | (refine Kept.of_eq ‹_ = (_, _)› ?_) | (dsimp only) | split)

theorem kept_takeDisconnect {s0 s : State} {k : ContextId} (kp : Kept s0 s) :
    Kept s0 (takeDisconnect k s) := by
  unfold takeDisconnect
  try dsimp only
  repeat' (first
    | with_reducible assumption | with_reducible apply kept_endReceive | with_reducible apply kept_faxSessionEnds
    | (refine Kept.of_eq ‹_ = (_, _)› ?_) | (dsimp only) | split)

theorem kept_faxWaitOver {s0 s : State} {k : ContextId} (kp : Kept s0 s) :
    Kept s0 (faxWaitOver k s) := by
  unfold faxWaitOver
  try dsimp only
  repeat' (first
    | with_reducible assumption | with_reducible apply kept_endSend | with_reducible apply kept_endReceive
    | with_reducible refine Kept.modFax ?_ (fun _ r => r)
    | with_reducible refine Kept.modFax ?_ (fun _ _ => Nat.zero_le _)
    | with_reducible refine Kept.modFax ?_ (fun hs r => ?_) | (refine Kept.of_eq ‹_ = (_, _)› ?_) | (dsimp only)
    | split)

theorem kept_faxDepositEnded {s0 s : State} {k : ContextId} {d : OutDeposit} {o : DepositOutcome} (kp : Kept s0 s) :
    Kept s0 (faxDepositEnded k d o s) := by
  unfold faxDepositEnded
  try dsimp only
  repeat' (first
    | with_reducible assumption | with_reducible apply kept_endReceive | (refine Kept.of_eq ‹_ = (_, _)› ?_)
    | (dsimp only) | split)

end Sys2Proof.Machine
end

