-- ==== Sys2Proof/Laws/KeptData.lean ====
section
/-! SUPPORT. What the operations of Machine/Data.lean keep. -/
namespace Sys2Proof.Machine

theorem kept_sendLink {s0 s : State} {k : ContextId} {f : LinkFrame} (kp : Kept s0 s) :
    Kept s0 (sendLink k f s) := by
  unfold sendLink
  try dsimp only
  repeat' (first
    | with_reducible assumption | with_reducible refine Kept.modLkc ?_ (fun _ r => r))

/-- A tail of a consecutive list is consecutive. -/
theorem consecutive_tail {b : LinkBlock} {l : List LinkBlock} {n : BitVec 4} (h : consecutive (b :: l) n = true) :
    consecutive l n = true := by
  cases l with
  | nil => rfl
  | cons c l => exact (Bool.and_eq_true_iff.1 h).2

theorem consecutive_drop {l : List LinkBlock} {n : BitVec 4} (h : consecutive l n = true) (d : Nat) :
    consecutive (l.drop d) n = true := by
  induction d generalizing l with
  | zero => simpa using h
  | succ d ih =>
    cases l with
    | nil => simpa using h
    | cons b l => exact ih (consecutive_tail h)

/-- The block with the next sequence number goes on a consecutive list. -/
theorem consecutive_append {l : List LinkBlock} {n : BitVec 4} (h : consecutive l n = true) {b : LinkBlock}
    (hb : b.sequence = n) : consecutive (l ++ [b]) (n + 1) = true := by
  induction l with
  | nil => simp [consecutive, hb]
  | cons c l ih =>
    cases l with
    | nil => simp_all [consecutive]
    | cons d l =>
      have ⟨h1, h2⟩ := Bool.and_eq_true_iff.1 h
      exact Bool.and_eq_true_iff.2 ⟨h1, ih h2⟩

theorem kept_checkFlow {s0 s : State} {k : ContextId} (kp : Kept s0 s) :
    Kept s0 (checkFlow k s) := by
  unfold checkFlow
  try dsimp only
  repeat' (first
    | with_reducible assumption | with_reducible apply kept_sendEvent
    | with_reducible refine Kept.modLkc ?_ (fun _ r => r)
    | with_reducible refine Kept.modLkc ?_ (fun _ _ => Lkc.inRange_reset)
    | with_reducible refine Kept.modLkc ?_ (fun hs r => ?_) | (refine Kept.of_eq ‹_ = (_, _)› ?_) | (dsimp only)
    | split)

theorem kept_makeBlock {s0 s : State} {k : ContextId} (kp : Kept s0 s) : Kept s0 (makeBlock k s) := by
  unfold makeBlock
  dsimp only
  split
  · next h =>
    refine kept_checkFlow (kept_sendLink (kp.modLkc fun _ r => ⟨?_, r.2.1, ?_, consecutive_append r.2.2.2 rfl⟩))
    · simp only [List.length_drop]
      have := r.1
      omega
    · simp only [Bool.and_eq_true, decide_eq_true_eq] at h
      simp only [List.length_append, List.length_singleton]
      omega
  · exact kp

theorem kept_pumpLink {s0 s : State} {k : ContextId} (kp : Kept s0 s) :
    Kept s0 (pumpLink k s) := by
  unfold pumpLink
  try dsimp only
  repeat' (first
    | with_reducible assumption | with_reducible apply kept_makeBlock | (refine Kept.forEach ?_ (fun _ _ _ => ?_)))

theorem kept_releaseRemote {s0 s : State} {k : ContextId} (kp : Kept s0 s) :
    Kept s0 (releaseRemote k s) := by
  unfold releaseRemote
  try dsimp only
  repeat' (first
    | with_reducible assumption | with_reducible apply kept_linkMoves | with_reducible apply kept_sendLink
    | with_reducible refine Kept.modLkc ?_ (fun _ r => r)
    | with_reducible refine Kept.modLkc ?_ (fun _ _ => Lkc.inRange_reset)
    | with_reducible refine Kept.modLkc ?_ (fun hs r => ?_) | (refine Kept.of_eq ‹_ = (_, _)› ?_) | (dsimp only)
    | split)

theorem kept_offerDataRx {s0 s : State} {k : ContextId} {n : Nat} (kp : Kept s0 s) : Kept s0 (offerDataRx k n s).1 := by
  unfold offerDataRx
  dsimp only
  split
  · next e =>
    dsimp only
    refine (Kept.of_eq e (kept_offerStream kp)).modLkc fun _ r => ⟨r.1, ?_, r.2.2⟩
    have := r.2.1
    simp only [List.length_drop]
    omega
  · next e =>
    dsimp only
    exact (Kept.of_eq e (kept_offerStream kp)).modLkc fun _ r => r

theorem kept_offerAll {s0 s : State} {k : ContextId} {n : Nat} (kp : Kept s0 s) : Kept s0 (offerAll k n s) := by
  induction n generalizing s with
  | zero => exact kp
  | succ n ih =>
    unfold offerAll
    dsimp only
    split
    · exact kp
    · split
      · next e => exact ih (Kept.of_eq e (kept_offerDataRx kp))
      · next e => exact Kept.of_eq e (kept_offerDataRx kp)

theorem kept_pumpRx {s0 s : State} {k : ContextId} (kp : Kept s0 s) :
    Kept s0 (pumpRx k s) := by
  unfold pumpRx
  try dsimp only
  repeat' (first
    | with_reducible assumption | with_reducible apply kept_offerAll | with_reducible apply kept_releaseRemote)

theorem kept_reofferRx {s0 s : State} {k : ContextId} (kp : Kept s0 s) :
    Kept s0 (reofferRx k s) := by
  unfold reofferRx
  try dsimp only
  repeat' (first
    | with_reducible assumption | with_reducible apply kept_pumpRx | with_reducible apply kept_offerDataRx
    | (refine Kept.of_eq ‹_ = (_, _)› ?_) | (dsimp only) | split)

theorem kept_resendAll {s0 s : State} {k : ContextId} (kp : Kept s0 s) :
    Kept s0 (resendAll k s) := by
  unfold resendAll
  try dsimp only
  repeat' (first
    | with_reducible assumption | with_reducible apply kept_sendLink
    | with_reducible refine Kept.modLkc ?_ (fun _ r => r)
    | with_reducible refine Kept.modLkc ?_ (fun _ _ => Lkc.inRange_reset)
    | with_reducible refine Kept.modLkc ?_ (fun hs r => ?_) | (refine Kept.forEach ?_ (fun _ _ _ => ?_)))

theorem Lkc.inRange_ackBlocks {l : Lkc} (r : l.InRange) (d : Nat) : (ackBlocks l d).InRange := by
  unfold ackBlocks
  split
  · exact r
  · refine ⟨r.1, r.2.1, ?_, consecutive_drop r.2.2.2 d⟩
    have := r.2.2.1
    simp only [List.length_drop]
    omega

theorem Lkc.inRange_endRemoteHold {l : Lkc} (r : l.InRange) : (endRemoteHold l).InRange := by
  unfold endRemoteHold
  split <;> exact r

theorem kept_takeAck {s0 s : State} {k : ContextId} {n : BitVec 4} (kp : Kept s0 s) :
    Kept s0 (takeAck k n s) := by
  unfold takeAck
  try dsimp only
  repeat' (first
    | with_reducible assumption | with_reducible apply kept_pumpLink
    | with_reducible refine Kept.modLkc ?_ (fun _ r => r)
    | with_reducible refine Kept.modLkc ?_ (fun _ _ => Lkc.inRange_reset)
    | with_reducible refine Kept.modLkc ?_ (fun hs r => ?_)
    | exact Lkc.inRange_endRemoteHold (Lkc.inRange_ackBlocks r _) | (refine Kept.of_eq ‹_ = (_, _)› ?_)
    | (dsimp only) | split)

theorem kept_takeHold {s0 s : State} {k : ContextId} {n : BitVec 4} (kp : Kept s0 s) : Kept s0 (takeHold k n s) := by
  unfold takeHold
  with_reducible refine Kept.modLkc ?_ (fun _ r => r)
  split
  · exact kept_pumpLink (kp.modLkc fun _ r => Lkc.inRange_ackBlocks r _)
  · exact kp

theorem kept_takeLinkData {s0 s : State} {k : ContextId} {sequence : BitVec 4} {data : List Byte} (kp : Kept s0 s) :
    Kept s0 (takeLinkData k sequence data s) := by
  unfold takeLinkData
  try dsimp only
  repeat' (first
    | with_reducible assumption | with_reducible apply kept_pumpRx | with_reducible apply kept_sendLink
    | with_reducible refine Kept.modLkc ?_ (fun _ r => r)
    | with_reducible refine Kept.modLkc ?_ (fun _ _ => Lkc.inRange_reset)
    | with_reducible refine Kept.modLkc ?_ (fun hs r => ?_)
    | (refine ⟨r.1, ?_, r.2.2⟩; simp only [List.length_append]; assumption) | (refine Kept.of_eq ‹_ = (_, _)› ?_)
    | (dsimp only) | split)

theorem kept_startData {s0 s : State} {k : ContextId} {mode : DataMode} {bounds : Nat × Nat} (kp : Kept s0 s)
    (hb : s.InRange → bounds.1 ≤ bounds.2 ∧ bounds.2 ≤ 11) : Kept s0 (startData k mode bounds s) := by
  refine kp.modCtx fun hs r => ?_
  obtain ⟨h1, h2⟩ := hb hs
  exact ⟨r.1, r.2.1, ⟨h2, ⟨h1, Nat.le_refl _⟩, ⟨h1, Nat.le_refl _⟩, Qmn.inRange_reset.2.2.2⟩, Lkc.inRange_reset,
    r.2.2.2.2⟩

theorem kept_dataEnds {s0 s : State} {k : ContextId} {cause : Byte} (kp : Kept s0 s) :
    Kept s0 (dataEnds k cause s) := by
  unfold dataEnds
  try dsimp only
  repeat' (first
    | with_reducible assumption | with_reducible apply kept_endCall)

theorem kept_retrain {s0 s : State} {k : ContextId} {target : Nat} {reason : RateReason} (kp : Kept s0 s)
    (ht : (s.at k).qmn.InRange → (s.at k).qmn.min ≤ target ∧ target ≤ (s.at k).qmn.max) :
    Kept s0 (retrain k target reason s) := by
  unfold retrain
  dsimp only
  split
  · exact kept_dataEnds kp
  · next h =>
    refine kept_setPump (kp.modQmn fun _ r => ?_)
    exact ⟨r.1, r.2.1, ht r, r.2.2.2.1, Nat.zero_le _, by
      show (s.at k).qmn.retrains + 1 ≤ 4
      omega⟩

theorem kept_trainAgain {s0 s : State} {k : ContextId} (kp : Kept s0 s) :
    Kept s0 (trainAgain k s) := by
  unfold trainAgain
  try dsimp only
  repeat' (first
    | with_reducible assumption | with_reducible refine Kept.modQmn ?_ (fun _ r => r))

theorem kept_askRetrain {s0 s : State} {k : ContextId} {reason : RateReason} (kp : Kept s0 s) :
    Kept s0 (askRetrain k reason s) := by
  unfold askRetrain
  dsimp only
  split
  · exact kept_trainAgain kp
  · exact kept_trainAgain kp
  · exact kept_retrain kp fun r => r.2.1
  · exact kept_retrain kp fun r => r.2.2.1
  · exact kp

theorem kept_beginShift {s0 s : State} {k : ContextId} {target : Nat} {reason : RateReason} (kp : Kept s0 s)
    (ht : (s.at k).qmn.InRange → (s.at k).qmn.min ≤ target ∧ target ≤ (s.at k).qmn.max) :
    Kept s0 (beginShift k target reason s) := by
  unfold beginShift
  exact kept_setPump (kp.modQmn fun _ r =>
    ⟨r.1, r.2.1, ht r, r.2.2.2.1, Nat.zero_le _, r.2.2.2.2.2⟩)

theorem kept_comeUp {s0 s : State} {k : ContextId} (kp : Kept s0 s) :
    Kept s0 (comeUp k s) := by
  unfold comeUp
  try dsimp only
  repeat' (first
    | with_reducible assumption | with_reducible apply kept_setPump
    | with_reducible refine Kept.modQmn ?_ (fun _ r => r)
    | with_reducible refine Kept.modQmn ?_ (fun _ _ => Qmn.inRange_reset)
    | with_reducible refine Kept.modQmn ?_ (fun hs r => ?_)
    | exact ⟨r.1, r.2.2.1, r.2.2.1, r.2.2.2.1, Nat.zero_le _, r.2.2.2.2.2⟩)

theorem kept_resumeLink {s0 s : State} {k : ContextId} (kp : Kept s0 s) :
    Kept s0 (resumeLink k s) := by
  unfold resumeLink
  exact kept_releaseRemote (kept_pumpLink (kept_resendAll (kp.modLkc fun _ r => Lkc.inRange_endRemoteHold r)))

theorem kept_shiftOver {s0 s : State} {k : ContextId} (kp : Kept s0 s) :
    Kept s0 (shiftOver k s) := by
  unfold shiftOver
  try dsimp only
  repeat' (first
    | with_reducible assumption | with_reducible apply kept_resumeLink | with_reducible apply kept_comeUp
    | with_reducible apply kept_sendEvent)

theorem kept_trainingOver {s0 s : State} {k : ContextId} (kp : Kept s0 s) : Kept s0 (trainingOver k s) := by
  unfold trainingOver
  dsimp only
  split
  · exact kept_dataEnds kp
  · next h1 =>
    split
    · next h2 => exact kept_retrain kp fun r => ⟨Nat.le_max_left _ _, by have := r.2.2.1; omega⟩
    · have k1 := kept_pumpTrained (k := k) (kept_comeUp (k := k) kp)
      refine kept_resumeLink ?_
      split
      · exact kept_sendEvent k1
      · split
        · exact kept_sendEvent k1
        · exact k1

theorem kept_judgeRate {s0 s : State} {k : ContextId} (kp : Kept s0 s) : Kept s0 (judgeRate k s) := by
  unfold judgeRate
  have k1 : Kept s0 (s.modQmn k fun q => { q with
      fallback := q.fallbackAfter (ceilingOf ((s.at k).qmn.quality.getD 0))
      stepUp := q.stepUpAfter (ceilingOf ((s.at k).qmn.quality.getD 0)) }) := kp.modQmn fun _ r => r
  dsimp only
  split
  · next h1 =>
    split
    · exact kept_dataEnds k1
    · refine kept_beginShift k1 fun r => ?_
      simp only [at_modQmn] at r ⊢
      have : ceilingOf ((s.at k).qmn.quality.getD 0) < (s.at k).qmn.rate := by
        by_contra hc
        simp [Qmn.fallbackAfter, hc] at h1
      have := r.2.1
      dsimp only at this ⊢
      omega
  · split
    · next h2 =>
      refine kept_beginShift k1 fun r => ?_
      simp only [at_modQmn] at r ⊢
      have : (s.at k).qmn.rate < (s.at k).qmn.max := by
        by_contra hc
        simp [Qmn.stepUpAfter, hc] at h2
      have := r.2.1
      dsimp only at this ⊢
      omega
    · exact k1

theorem Qmn.inRange_windowStep {q : Qmn} {r : Nat} (x : q.InRange) (hr : r ≤ 4095) : (q.windowStep r).InRange :=
  ⟨x.1, x.2.1, x.2.2.1, fun n hn => by
    cases hn
    exact moveQuality_le _ _ _ x.2.2.2.1 hr, by
      have := x.2.2.2.2.1
      unfold Qmn.windowStep
      dsimp only
      split <;> omega, x.2.2.2.2.2⟩

theorem kept_dataReading {s0 s : State} {k : ContextId} {r : Nat} (kp : Kept s0 s) (hr : r ≤ 4095) :
    Kept s0 (dataReading k r s) := by
  unfold dataReading
  dsimp only
  split
  · have k1 : Kept s0 (s.modQmn k fun q => q.windowStep r) := kp.modQmn fun _ x => Qmn.inRange_windowStep x hr
    split
    · refine kept_retrain k1 fun x => ?_
      simp only [at_modQmn, Qmn.windowStep] at x ⊢
      have := x.2.1
      dsimp only at this
      omega
    · exact kept_judgeRate k1
  · have k1 : Kept s0 (s.modQmn k fun q => q.trainingStep r) := kp.modQmn fun _ x => Qmn.inRange_trainingStep x hr
    split
    · exact kept_trainingOver k1
    · exact k1

theorem kept_takeShiftRequest {s0 s : State} {k : ContextId} {j : Nat} (kp : Kept s0 s) :
    Kept s0 (takeShiftRequest k j s) := by
  unfold takeShiftRequest
  dsimp only
  split
  · next h =>
    simp only [Bool.and_eq_true, decide_eq_true_eq] at h
    exact kept_beginShift kp fun _ => h
  · exact kept_dataEnds kp

theorem kept_retrainAll {s0 s : State} {reason : RateReason} (kp : Kept s0 s) : Kept s0 (retrainAll reason s) := by
  unfold retrainAll
  refine Kept.forEach kp fun _ _ h => ?_
  split
  · exact kept_askRetrain h
  · exact h

theorem consecutive_bumpOldest {l : List LinkBlock} {n : BitVec 4} (h : consecutive l n = true) :
    consecutive (bumpOldest l) n = true := by
  cases l with
  | nil => rfl
  | cons b l => cases l <;> exact h

theorem length_bumpOldest (l : List LinkBlock) : (bumpOldest l).length = l.length := by cases l <;> rfl

theorem kept_resendOver {s0 s : State} {k : ContextId} (kp : Kept s0 s) : Kept s0 (resendOver k s) := by
  unfold resendOver
  have k1 : Kept s0 ((resendAll k s).modLkc k fun l => { l with outstanding := bumpOldest l.outstanding }) :=
    (kept_resendAll kp).modLkc fun _ r =>
      ⟨r.1, r.2.1, (length_bumpOldest _).trans_le r.2.2.1, consecutive_bumpOldest r.2.2.2⟩
  dsimp only
  split
  · split
    · exact kept_dataEnds k1
    · exact k1
  · exact k1

theorem kept_takeTx {s0 s : State} {k : ContextId} {bytes : List Byte} (kp : Kept s0 s) :
    Kept s0 (takeTx k bytes s) := by
  unfold takeTx
  try dsimp only
  repeat' (first
    | with_reducible assumption | with_reducible apply kept_checkFlow | with_reducible apply kept_sendEvent
    | with_reducible refine Kept.modLkc ?_ (fun _ r => r)
    | with_reducible refine Kept.modLkc ?_ (fun _ _ => Lkc.inRange_reset)
    | with_reducible refine Kept.modLkc ?_ (fun hs r => ?_)
    | (refine ⟨?_, r.2⟩; have := r.1; simp only [List.length_append, List.length_take]; omega)
    | (refine Kept.of_eq ‹_ = (_, _)› ?_) | (dsimp only) | split)

end Sys2Proof.Machine
end

