-- ==== Sys2Proof/Laws/KeptDial.lean ====
section
/-! SUPPORT. What the operations of Machine/Dial.lean keep. -/
namespace Sys2Proof.Machine

theorem kept_enterDiscriminating {s0 s : State} {k : ContextId} (kp : Kept s0 s) :
    Kept s0 (enterDiscriminating k s) := by
  unfold enterDiscriminating
  try dsimp only
  repeat' (first
    | with_reducible assumption | with_reducible apply kept_beginPlay
    | with_reducible refine Kept.modCtx ?_ (fun _ r => r))

theorem kept_enterAnswering {s0 s : State} {k : ContextId} (kp : Kept s0 s) :
    Kept s0 (enterAnswering k s) := by
  unfold enterAnswering
  try dsimp only
  repeat' (first
    | with_reducible assumption | with_reducible apply kept_enterDiscriminating
    | with_reducible refine Kept.modCtx ?_ (fun _ r => r)
    | with_reducible refine Kept.modCtx ?_ (fun _ _ => Context.inRange_reset)
    | with_reducible refine Kept.modCtx ?_ (fun hs r => ?_) | exact fun _ hn => nomatch hn
    | (refine Kept.of_eq ‹_ = (_, _)› ?_) | (dsimp only) | split)

theorem kept_collectionEnds {s0 s : State} {k : ContextId} {mailbox : Nat} (kp : Kept s0 s) :
    Kept s0 (collectionEnds k mailbox s) := by
  unfold collectionEnds
  try dsimp only
  repeat' (first
    | with_reducible assumption | with_reducible apply kept_enterAnswering | with_reducible apply kept_sendEvent
    | with_reducible refine Kept.modCtx ?_ (fun _ r => r)
    | with_reducible refine Kept.modCtx ?_ (fun _ _ => Context.inRange_reset)
    | with_reducible refine Kept.modCtx ?_ (fun hs r => ?_) | exact fun _ hn => nomatch hn
    | (refine Kept.of_eq ‹_ = (_, _)› ?_) | (dsimp only) | split)

theorem kept_enterAddressing {s0 s : State} {k : ContextId} (kp : Kept s0 s) :
    Kept s0 (enterAddressing k s) := by
  unfold enterAddressing
  try dsimp only
  repeat' (first
    | with_reducible assumption | with_reducible apply kept_collectionEnds
    | with_reducible refine Kept.modCtx ?_ (fun _ r => r)
    | with_reducible refine Kept.modCtx ?_ (fun _ _ => Context.inRange_reset)
    | with_reducible refine Kept.modCtx ?_ (fun hs r => ?_) | exact fun _ hn => nomatch hn
    | (refine Kept.of_eq ‹_ = (_, _)› ?_) | (dsimp only) | split)

theorem kept_takeAddressDigit {s0 s : State} {k : ContextId} {d : Digit} (kp : Kept s0 s) :
    Kept s0 (takeAddressDigit k d s) := by
  unfold takeAddressDigit
  try dsimp only
  repeat' (first
    | with_reducible assumption | with_reducible apply kept_collectionEnds
    | with_reducible refine Kept.modCtx ?_ (fun _ r => r)
    | with_reducible refine Kept.modCtx ?_ (fun _ _ => Context.inRange_reset)
    | with_reducible refine Kept.modCtx ?_ (fun hs r => ?_) | exact fun _ hn => nomatch hn
    | (refine Kept.of_eq ‹_ = (_, _)› ?_) | (dsimp only) | split)

theorem kept_decideFax {s0 s : State} {k : ContextId} (kp : Kept s0 s) :
    Kept s0 (decideFax k s) := by
  unfold decideFax
  try dsimp only
  repeat' (first
    | with_reducible assumption | with_reducible apply kept_startFaxReceive
    | with_reducible apply kept_stopGreeting | with_reducible apply kept_sendEvent)

theorem kept_decideData {s0 s : State} {k : ContextId} (kp : Kept s0 s) :
    Kept s0 (decideData k s) := by
  unfold decideData
  try dsimp only
  repeat' (first
    | with_reducible assumption | with_reducible apply kept_startData | with_reducible apply kept_stopGreeting
    | with_reducible apply kept_sendEvent | exact rateBounds_range)

theorem kept_decideVoice {s0 s : State} {k : ContextId} {d : Digit} (kp : Kept s0 s) :
    Kept s0 (decideVoice k d s) := by
  unfold decideVoice
  try dsimp only
  repeat' (first
    | with_reducible assumption | with_reducible apply kept_enterWaiting | with_reducible apply kept_stopGreeting
    | with_reducible apply kept_sendEvent | with_reducible refine Kept.modCtx ?_ (fun _ r => r))

theorem kept_enterProgress {s0 s : State} {k : ContextId} (kp : Kept s0 s) :
    Kept s0 (enterProgress k s) := by
  unfold enterProgress
  try dsimp only
  repeat' (first
    | with_reducible assumption | with_reducible refine Kept.modCtx ?_ (fun _ r => r))

theorem kept_dialPhase {s0 s : State} {k : ContextId} {phase : DialPhase} {left : Nat} {code : LineCode} (kp : Kept s0 s) :
    Kept s0 (dialPhase k phase left code s) := by
  unfold dialPhase
  try dsimp only
  repeat' (first
    | with_reducible assumption | with_reducible refine Kept.modCtx ?_ (fun _ r => r)
    | with_reducible refine Kept.modCtx ?_ (fun _ _ => Context.inRange_reset)
    | with_reducible refine Kept.modCtx ?_ (fun hs r => ?_) | with_reducible apply Kept.modDgn)

theorem kept_startCharacters {s0 s : State} {k : ContextId} {n : Nat} (kp : Kept s0 s) :
    Kept s0 (startCharacters k n s) := by
  induction n generalizing s with
  | zero => exact kept_enterProgress kp
  | succ n ih =>
    unfold startCharacters
    dsimp only
    have k1 := ih (kp.modDgn (k := k) (f := fun d => { d with pos := d.pos + 1 }))
    split
    · exact kept_enterProgress kp
    · split
      · exact kept_dialPhase kp
      · split
        · split
          · exact k1
          · exact kept_setTimer (kept_dialPhase kp)
        · split
          · split
            · exact kept_dialPhase kp.modDgn
            · exact k1
          · exact (kept_dialPhase kp).modCtx fun _ r => r

theorem kept_startCharacter {s0 s : State} {k : ContextId} (kp : Kept s0 s) :
    Kept s0 (startCharacter k s) := by
  unfold startCharacter
  try dsimp only
  repeat' (first
    | with_reducible assumption | with_reducible apply kept_startCharacters)

theorem kept_nextCharacter {s0 s : State} {k : ContextId} (kp : Kept s0 s) :
    Kept s0 (nextCharacter k s) := by
  unfold nextCharacter
  try dsimp only
  repeat' (first
    | with_reducible assumption | with_reducible apply kept_startCharacter | with_reducible apply kept_setTimer
    | with_reducible apply Kept.modDgn)

theorem kept_enterDialling {s0 s : State} {k : ContextId} (kp : Kept s0 s) :
    Kept s0 (enterDialling k s) := by
  unfold enterDialling
  try dsimp only
  repeat' (first
    | with_reducible assumption | with_reducible apply kept_startCharacter
    | with_reducible refine Kept.modCtx ?_ (fun _ r => r))

theorem kept_phaseOver {s0 s : State} {k : ContextId} (kp : Kept s0 s) :
    Kept s0 (phaseOver k s) := by
  unfold phaseOver
  try dsimp only
  repeat' (first
    | with_reducible assumption | with_reducible apply kept_nextCharacter | with_reducible apply kept_dialPhase
    | with_reducible apply Kept.modDgn | exact fun _ hn => nomatch hn | (refine Kept.of_eq ‹_ = (_, _)› ?_)
    | (dsimp only) | split)

theorem kept_takeDialTone {s0 s : State} {k : ContextId} (kp : Kept s0 s) :
    Kept s0 (takeDialTone k s) := by
  unfold takeDialTone
  try dsimp only
  repeat' (first
    | with_reducible assumption | with_reducible apply kept_nextCharacter | exact fun _ hn => nomatch hn
    | (refine Kept.of_eq ‹_ = (_, _)› ?_) | (dsimp only) | split)

/-- OUTDIAL_DONE leaves the request of its context. -/
theorem outdialDone_outgoing (k : ContextId) (result : Byte) (s : State) :
    ((outdialDone k result s).at k).outgoing = (s.at k).outgoing := by
  unfold outdialDone
  dsimp only
  split
  · rw [at_modCtx]
    show ((sendEvent _ _ s).ctx.get k).outgoing = _
    rw [sendEvent_ctx]
    rfl
  · rfl

theorem kept_answered {s0 s : State} {k : ContextId} (kp : Kept s0 s) : Kept s0 (answered k s) := by
  unfold answered
  dsimp only
  have k1 := kept_outdialDone (k := k) (result := codeOk) (kp.modCtx (k := k) (f := fun x => { x with
    state := .connected, timer := none, txCode := .seize, dgn := .reset }) fun _ r => r)
  split
  · exact kept_enterWaiting (k1.modCtx fun _ r => r)
  · exact kept_beginPlay (k1.modCtx fun _ r => r)
  · exact kept_startFaxSend k1
  · next lo hi e =>
    refine kept_startData k1 fun hs => ?_
    have := (hs.2.2.2.2.1 k).2.2.2.2
    cases ho : (s.at k).outgoing with
    | none => rw [ho] at e; simp at e
    | some o =>
      rw [ho] at e
      have h2 := this o (by
        show ((outdialDone k codeOk _).at k).outgoing = some o
        rw [outdialDone_outgoing, at_modCtx]
        exact ho)
      simp only [Option.map_some, Option.getD_some] at e
      rw [e] at h2
      simpa [CallPurpose.inRange] using h2

end Sys2Proof.Machine
end

