-- ==== Sys2Proof/Laws/KeptTrunk.lean ====
section
/-! SUPPORT. What the operations of Machine/Trunk.lean keep. -/
namespace Sys2Proof.Machine

theorem kept_chooseFor {s0 s : State} {k : ContextId} (kp : Kept s0 s) :
    Kept s0 (chooseFor k s).1 := by
  unfold chooseFor
  try dsimp only
  repeat' (first
    | with_reducible assumption | with_reducible apply kept_offerClaim
    | with_reducible refine Kept.modCtx ?_ (fun _ r => r)
    | with_reducible refine Kept.modCtx ?_ (fun _ _ => Context.inRange_reset)
    | with_reducible refine Kept.modCtx ?_ (fun hs r => ?_) | with_reducible apply Kept.setBid
    | exact fun _ hn => nomatch hn | (refine Kept.of_eq ‹_ = (_, _)› ?_) | (dsimp only) | split)

theorem kept_outdialFails {s0 s : State} {k : ContextId} {result : Byte} (kp : Kept s0 s) :
    Kept s0 (outdialFails k result s) := by
  unfold outdialFails
  try dsimp only
  repeat' (first
    | with_reducible assumption | with_reducible apply kept_outdialDone | with_reducible apply kept_freeContext)

/-- The purpose of a context's request is in range (R77). -/
theorem Kept.purpose {s0 s : State} (kp : Kept s0 s) {k : ContextId} {o : Outgoing} (e : (s.at k).outgoing = some o)
    (r : s0.InRange) : o.purpose.inRange = true := ((kp.range r).2.2.2.2.1 k).2.2.2.2 o e

/-- A context takes a request whose purpose is in range. -/
theorem Context.inRange_outgoing {x : Context} (r : x.InRange) {o : Outgoing} (h : o.purpose.inRange = true)
    {f : Context → Context} (h1 : (f x).vcd = x.vcd) (h2 : (f x).fax = x.fax) (h3 : (f x).qmn = x.qmn)
    (h4 : (f x).lkc = x.lkc) (h5 : (f x).outgoing = some o) : (f x).InRange := by
  refine ⟨h1 ▸ r.1, h2 ▸ r.2.1, h3 ▸ r.2.2.1, h4 ▸ r.2.2.2.1, fun p hp => ?_⟩
  rw [h5] at hp
  cases hp
  exact h

theorem kept_chooseAgain {s0 s : State} {k : ContextId} (kp : Kept s0 s) : Kept s0 (chooseAgain k s) := by
  unfold chooseAgain
  split
  · exact kept_freeContext kp
  · next o e =>
    dsimp only
    split
    · exact kept_outdialFails kp
    · have k1 : Kept s0 (s.modCtx k fun x => { x with outgoing := some { o with choiceRetried := true } }) :=
        kp.modCtx0 fun r x => Context.inRange_outgoing (o := { o with choiceRetried := true })
          (f := fun x => { x with outgoing := some { o with choiceRetried := true } }) x
          (have h : o.purpose.inRange = true := kp.purpose e r; h) rfl rfl rfl rfl rfl
      split
      · next e => exact Kept.of_eq e (kept_chooseFor k1)
      · next e => exact kept_outdialFails (Kept.of_eq e (kept_chooseFor k1))

theorem kept_offerBid {s0 s : State} {k : ContextId} {c : Channel} (kp : Kept s0 s) :
    Kept s0 (offerBid k c s) := by
  unfold offerBid
  try dsimp only
  repeat' (first
    | with_reducible assumption | with_reducible apply kept_freeContext | with_reducible apply kept_offerClaim
    | with_reducible apply Kept.setBid | exact fun _ hn => nomatch hn | (refine Kept.of_eq ‹_ = (_, _)› ?_)
    | (dsimp only) | split)

theorem kept_examineBid {s0 s : State} {c : Channel} (kp : Kept s0 s) :
    Kept s0 (examineBid c s) := by
  unfold examineBid
  try dsimp only
  repeat' (first
    | with_reducible assumption | with_reducible apply kept_offerBid
    | with_reducible refine Kept.modCtx ?_ (fun _ r => r)
    | with_reducible refine Kept.modCtx ?_ (fun _ _ => Context.inRange_reset)
    | with_reducible refine Kept.modCtx ?_ (fun hs r => ?_) | with_reducible apply Kept.setBid
    | exact fun _ hn => nomatch hn | (refine Kept.of_eq ‹_ = (_, _)› ?_) | (dsimp only) | split)

theorem kept_examineHuntSet {s0 s : State}  (kp : Kept s0 s) :
    Kept s0 (examineHuntSet s) := by
  unfold examineHuntSet
  try dsimp only
  repeat' (first
    | with_reducible assumption | with_reducible apply kept_examineBid | (refine Kept.forEach ?_ (fun _ _ _ => ?_))
    | exact fun _ hn => nomatch hn | (refine Kept.of_eq ‹_ = (_, _)› ?_) | (dsimp only) | split)

theorem kept_withdrawalTaken {s0 s : State} {k : ContextId} {b : Bid} {reason : WithdrawReason} (kp : Kept s0 s) :
    Kept s0 (withdrawalTaken k b reason s) := by
  unfold withdrawalTaken
  try dsimp only
  repeat' (first
    | with_reducible assumption | with_reducible apply kept_chooseAgain | with_reducible apply kept_outdialFails
    | with_reducible apply kept_freeContext | with_reducible apply Kept.setBid | exact fun _ hn => nomatch hn
    | (refine Kept.of_eq ‹_ = (_, _)› ?_) | (dsimp only) | split)

theorem kept_withdraw {s0 s : State} {k : ContextId} {reason : WithdrawReason} (kp : Kept s0 s) :
    Kept s0 (withdraw k reason s) := by
  unfold withdraw
  try dsimp only
  repeat' (first
    | with_reducible assumption | with_reducible apply kept_withdrawalTaken
    | with_reducible refine Kept.modClc ?_ (fun _ r => r) | with_reducible refine Kept.modClc ?_ (fun hs r => ?_)
    | with_reducible apply Kept.setBid | exact ⟨TxQueue.inRange_filter r.1 _, r.2⟩ | exact fun _ hn => nomatch hn
    | (refine Kept.of_eq ‹_ = (_, _)› ?_) | (dsimp only) | split)

/-- A queue whose cell in transmission goes back to waiting (R24). -/
theorem TxQueue.inRange_stay {q : List TxCell} (r : TxQueue.InRange q) :
    TxQueue.InRange (q.map fun y => { y with sending := false }) := by
  obtain ⟨r1, r2, r3, r4, -⟩ := r
  refine ⟨by simpa using r1, ?_, ?_, ?_, ?_⟩
  · rw [List.filter_map, List.length_map]
    exact r2
  · exact List.pairwise_map.2 r3
  · exact List.pairwise_map.2 r4
  · have : (q.map fun y : TxCell => { y with sending := false }).filter (fun x => x.sending) = [] := by simp
    rw [this]
    exact Nat.zero_le _

theorem kept_arbitrationLost {s0 s : State} (kp : Kept s0 s) : Kept s0 (arbitrationLost s) := by
  have stay (t : State) (kt : Kept s0 t) :
      Kept s0 (t.modClc fun l => { l with tx := l.tx.map fun y => { y with sending := false } }) :=
    kt.modClc fun _ r => ⟨TxQueue.inRange_stay r.1, r.2⟩
  unfold arbitrationLost
  split
  · exact kp
  · split
    · exact kept_removeSending kp
    · dsimp only
      split
      · exact stay s kp
      · split
        · exact stay s kp
        · split
          · exact stay s kp
          · split
            · exact kept_examineBid (kept_withdrawalTaken (kept_removeSending kp))
            · exact kept_withdrawalTaken (kept_removeSending kp)

theorem kept_retryElsewhere {s0 s : State} {k : ContextId} {o : Outgoing} (kp : Kept s0 s)
    (ho : s0.InRange → o.purpose.inRange = true) : Kept s0 (retryElsewhere k o s) := by
  unfold retryElsewhere
  dsimp only
  split
  · exact (kept_sendEvent kp).modCtx fun _ r => r
  · split
    · exact (kept_sendEvent kp).modCtx fun _ r => r
    · next j _ =>
      have k1 : Kept s0 (s.modCtx j fun x => { x with
          outgoing := some { o with glareRetried := true, choiceRetried := false }, requestTag := some o.tag }) :=
        kp.modCtx0 fun r x => Context.inRange_outgoing (o := { o with glareRetried := true, choiceRetried := false })
          (f := fun x => { x with
            outgoing := some { o with glareRetried := true, choiceRetried := false }, requestTag := some o.tag })
          x (ho r) rfl rfl rfl rfl rfl
      split
      · next e => exact Kept.of_eq e (kept_chooseFor k1)
      · next e => exact kept_outdialFails (Kept.of_eq e (kept_chooseFor k1))

theorem kept_glare {s0 s : State} {k : ContextId} (kp : Kept s0 s) : Kept s0 (glare k s) := by
  unfold glare
  dsimp only
  have k1 := kept_enterAddressing (k := k) (kp.modCtx (k := k) (f := fun x => { x with
    direction := some .incoming, outgoing := none, requestTag := none })
    fun _ r => ⟨r.1, r.2.1, r.2.2.1, r.2.2.2.1, fun _ ho => nomatch ho⟩)
  split
  · next e => exact kept_retryElsewhere k1 fun r => kp.purpose e r
  · exact k1

theorem kept_lineCode {s0 s : State} {k : ContextId} {code : LineCode} (kp : Kept s0 s) :
    Kept s0 (lineCode k code s) := by
  unfold lineCode
  try dsimp only
  repeat' (first
    | with_reducible assumption | with_reducible apply kept_glare | with_reducible apply kept_answered
    | with_reducible apply kept_endCall | exact fun _ hn => nomatch hn | (refine Kept.of_eq ‹_ = (_, _)› ?_)
    | (dsimp only) | split)

theorem kept_claimSent {s0 s : State} {k : ContextId} {b : Bid} (kp : Kept s0 s) :
    Kept s0 (claimSent k b s) := by
  unfold claimSent
  try dsimp only
  repeat' (first
    | with_reducible assumption | with_reducible apply kept_lineCode | with_reducible apply kept_enterAddressing
    | with_reducible apply kept_endCall | with_reducible apply kept_setTimer
    | with_reducible apply kept_enableDrive | with_reducible apply kept_setView
    | with_reducible refine Kept.modCtx ?_ (fun _ r => r)
    | with_reducible refine Kept.modCtx ?_ (fun _ _ => Context.inRange_reset)
    | with_reducible refine Kept.modCtx ?_ (fun hs r => ?_) | with_reducible apply Kept.setBid
    | exact fun _ hn => nomatch hn | (refine Kept.of_eq ‹_ = (_, _)› ?_) | (dsimp only) | split)

theorem kept_viewAfterChange {s0 s : State} {c : Channel} {code : LineCode} (kp : Kept s0 s) :
    Kept s0 (viewAfterChange c code s) := by
  unfold viewAfterChange
  try dsimp only
  repeat' (first
    | with_reducible assumption | with_reducible apply kept_setView | exact fun _ hn => nomatch hn
    | (refine Kept.of_eq ‹_ = (_, _)› ?_) | (dsimp only) | split)

theorem kept_codeAtClaimer {s0 s : State} {k : ContextId} {code : LineCode} (kp : Kept s0 s) :
    Kept s0 (codeAtClaimer k code s) := by
  unfold codeAtClaimer
  try dsimp only
  repeat' (first
    | with_reducible assumption | with_reducible apply kept_withdraw | exact fun _ hn => nomatch hn
    | (refine Kept.of_eq ‹_ = (_, _)› ?_) | (dsimp only) | split)

theorem kept_codeAtClearer {s0 s : State} {k : ContextId} {code : LineCode} (kp : Kept s0 s) :
    Kept s0 (codeAtClearer k code s) := by
  unfold codeAtClearer
  try dsimp only
  repeat' (first
    | with_reducible assumption | with_reducible apply kept_freeContext | exact fun _ hn => nomatch hn
    | (refine Kept.of_eq ‹_ = (_, _)› ?_) | (dsimp only) | split)

theorem kept_reportChange {s0 s : State} {c : Channel} {code : LineCode} (kp : Kept s0 s) :
    Kept s0 (reportChange c code s) := by
  unfold reportChange
  try dsimp only
  repeat' (first
    | with_reducible assumption | with_reducible apply kept_codeAtClearer | with_reducible apply kept_codeAtClaimer
    | with_reducible apply kept_lineCode | exact fun _ hn => nomatch hn | (refine Kept.of_eq ‹_ = (_, _)› ?_)
    | (dsimp only) | split)

theorem kept_receiveChange {s0 s : State} {c : Channel} {code : LineCode} (kp : Kept s0 s) :
    Kept s0 (receiveChange c code s) := by
  unfold receiveChange
  try dsimp only
  repeat' (first
    | with_reducible assumption | with_reducible apply kept_reportChange
    | with_reducible apply kept_viewAfterChange | with_reducible apply kept_examineBid
    | exact fun _ hn => nomatch hn | (refine Kept.of_eq ‹_ = (_, _)› ?_) | (dsimp only) | split)

theorem kept_settleWith {s0 s : State} {f : Settling → Settling × Bool} {g : Settling → Settling × Bool} {c : Channel} (kp : Kept s0 s) :
    Kept s0 (settleWith f g c s) := by
  unfold settleWith
  try dsimp only
  repeat' (first
    | with_reducible assumption | with_reducible apply kept_receiveChange
    | with_reducible refine Kept.modEntry ?_ (fun r => r) | with_reducible refine Kept.modEntry ?_ (fun r => ?_)
    | exact fun _ hn => nomatch hn | (refine Kept.of_eq ‹_ = (_, _)› ?_) | (dsimp only) | split)

theorem kept_deliverCodes {s0 s : State}  (kp : Kept s0 s) :
    Kept s0 (deliverCodes s) := by
  unfold deliverCodes
  try dsimp only
  repeat' (first
    | with_reducible assumption | with_reducible apply kept_settleWith | (refine Kept.forEach ?_ (fun _ _ _ => ?_)))

theorem kept_applySettleCount {s0 s : State}  (kp : Kept s0 s) :
    Kept s0 (applySettleCount s) := by
  unfold applySettleCount
  try dsimp only
  repeat' (first
    | with_reducible assumption | with_reducible apply kept_settleWith | (refine Kept.forEach ?_ (fun _ _ _ => ?_)))

theorem kept_takeClaim {s0 s : State} {p : Fin 8} {c : Channel} (kp : Kept s0 s) :
    Kept s0 (takeClaim p c s) := by
  unfold takeClaim
  try dsimp only
  repeat' (first
    | with_reducible assumption | with_reducible apply kept_withdraw | with_reducible apply kept_freeContext
    | with_reducible apply kept_endDrive | with_reducible apply kept_setView
    | with_reducible apply kept_sendDispute | exact fun _ hn => nomatch hn | (refine Kept.of_eq ‹_ = (_, _)› ?_)
    | (dsimp only) | split)

theorem kept_takeRelease {s0 s : State} {p : Fin 8} {c : Channel} (kp : Kept s0 s) :
    Kept s0 (takeRelease p c s) := by
  unfold takeRelease
  try dsimp only
  repeat' (first
    | with_reducible assumption | with_reducible apply kept_setView | exact fun _ hn => nomatch hn
    | (refine Kept.of_eq ‹_ = (_, _)› ?_) | (dsimp only) | split)

theorem kept_takeDispute {s0 s : State} {q : Fin 8} {c : Channel} (kp : Kept s0 s) :
    Kept s0 (takeDispute q c s) := by
  unfold takeDispute
  try dsimp only
  repeat' (first
    | with_reducible assumption | with_reducible apply kept_endCall | with_reducible apply kept_freeContext
    | with_reducible apply kept_endDrive | with_reducible apply kept_setView | with_reducible apply kept_writeFault
    | exact fun _ hn => nomatch hn | (refine Kept.of_eq ‹_ = (_, _)› ?_) | (dsimp only) | split)

theorem kept_contention {s0 s : State} {c : Channel} (kp : Kept s0 s) :
    Kept s0 (contention c s) := by
  unfold contention
  try dsimp only
  repeat' (first
    | with_reducible assumption | with_reducible apply kept_endCall | with_reducible apply kept_freeContext
    | with_reducible apply kept_endDrive | with_reducible apply kept_setView | with_reducible apply kept_writeFault
    | exact fun _ hn => nomatch hn | (refine Kept.of_eq ‹_ = (_, _)› ?_) | (dsimp only) | split)

end Sys2Proof.Machine
end

