-- ==== Sys2Proof/Laws/KeptHighway.lean ====
section
/-! SUPPORT. What the operations of Machine/Highway.lean keep. -/
namespace Sys2Proof.Machine

theorem kept_enterActive {s0 s : State}  (kp : Kept s0 s) :
    Kept s0 (enterActive s) := by
  unfold enterActive
  try dsimp only
  repeat' (first
    | with_reducible assumption | with_reducible apply kept_examineHuntSet
    | with_reducible refine Kept.modCfu ?_ rfl rfl (fun _ e => e) (fun _ r => r))

theorem kept_leaveStarting {s0 s : State}  (kp : Kept s0 s) :
    Kept s0 (leaveStarting s) := by
  unfold leaveStarting
  try dsimp only
  repeat' (first
    | with_reducible assumption | with_reducible apply kept_enterActive
    | with_reducible refine Kept.modCfu ?_ rfl rfl (fun _ e => e) (fun _ r => r) | exact fun _ hn => nomatch hn
    | (refine Kept.of_eq ‹_ = (_, _)› ?_) | (dsimp only) | split)

theorem kept_holdContext {s0 s : State} {k : ContextId} (kp : Kept s0 s) :
    Kept s0 (holdContext k s) := by
  unfold holdContext
  try dsimp only
  repeat' (first
    | with_reducible assumption | with_reducible apply kept_withdraw
    | with_reducible refine Kept.modCtx ?_ (fun _ r => r)
    | with_reducible refine Kept.modCtx ?_ (fun _ _ => Context.inRange_reset)
    | with_reducible refine Kept.modCtx ?_ (fun hs r => ?_) | exact fun _ hn => nomatch hn
    | (refine Kept.of_eq ‹_ = (_, _)› ?_) | (dsimp only) | split)

theorem kept_withdrawDrives {s0 s : State}  (kp : Kept s0 s) :
    Kept s0 (withdrawDrives s) := by
  unfold withdrawDrives
  try dsimp only
  repeat' (first
    | with_reducible assumption | with_reducible refine Kept.modHwi ?_ (fun _ r => r))

/-- The error count of a highway interface in its range. -/
theorem Hwi.errors_le {h : Hwi} (r : h.InRange) : h.errors ≤ 4 := by
  have e := r.2.1
  revert e
  cases h.align <;> simp [AlignState.inRange] <;> omega

theorem kept_loseAlignment {s0 s : State} (kp : Kept s0 s) : Kept s0 (loseAlignment s) := by
  unfold loseAlignment
  dsimp only
  refine Kept.modHwi (kept_sendEvent (Kept.forEach (kept_withdrawDrives (kp.modHwi fun _ r => ?_))
    fun _ _ h => kept_holdContext h)) fun _ r => ?_
  · exact ⟨r.1, by simpa [AlignState.inRange] using Hwi.errors_le r, fun _ h => (nomatch h), fun _ h => (nomatch h),
      Nat.zero_le _, r.2.2.2.2.2⟩
  · exact ⟨r.1, r.2.1, r.2.2.1, r.2.2.2.1, r.2.2.2.2.1, fun n h => by cases h; exact Nat.le_refl _⟩

theorem kept_resumeContext {s0 s : State} {k : ContextId} (kp : Kept s0 s) : Kept s0 (resumeContext k s) := by
  unfold resumeContext
  split
  · exact kept_askRetrain kp
  · exact kept_resumeFax (kept_resumePlayback kp)

theorem kept_resumeHeld {s0 s : State} (kp : Kept s0 s) : Kept s0 (resumeHeld s) := by
  unfold resumeHeld
  dsimp only
  refine Kept.forEach (Kept.forEach (kp.modHwi fun _ r => ?_) fun _ _ h => h.modCtx fun _ r => r) fun _ _ h => ?_
  · exact ⟨r.1, r.2.1, r.2.2.1, r.2.2.2.1, r.2.2.2.2.1, fun _ h => (nomatch h)⟩
  · exact kept_resumeContext h

theorem kept_alignAt {s0 s : State} {p : Nat} (kp : Kept s0 s) (hp : s0.InRange → p < 2176) : Kept s0 (alignAt p s) :=
  kp.modHwi0 fun r x => ⟨x.1, by simp [AlignState.inRange, hp r], fun _ h => (nomatch h), fun _ h => (nomatch h),
    Nat.zero_le _, x.2.2.2.2.2⟩

theorem kept_noteAlignment {s0 s : State}  (kp : Kept s0 s) :
    Kept s0 (noteAlignment s) := by
  unfold noteAlignment
  try dsimp only
  repeat' (first
    | with_reducible assumption | with_reducible refine Kept.modCfu ?_ rfl rfl (fun _ e => e) (fun _ r => r)
    | exact fun _ hn => nomatch hn | (refine Kept.of_eq ‹_ = (_, _)› ?_) | (dsimp only) | split)

theorem kept_enterAligned {s0 s : State} {p : Nat} (kp : Kept s0 s) (hp : s0.InRange → p < 2176) :
    Kept s0 (enterAligned p s) := by
  have k1 (n : Nat) := kept_resumeHeld (kept_sendEvent (k := none) (e := .highway n) (kept_alignAt kp hp))
  unfold enterAligned
  dsimp only
  refine kept_leaveStarting (kept_noteAlignment ?_)
  split
  · exact kept_retrainAll (k1 _)
  · exact k1 _

theorem kept_holdExpires {s0 s : State} {k : ContextId} (kp : Kept s0 s) :
    Kept s0 (holdExpires k s) := by
  unfold holdExpires
  try dsimp only
  repeat' (first
    | with_reducible assumption | with_reducible apply kept_endCall | with_reducible apply kept_freeContext
    | with_reducible apply kept_endDrive | with_reducible apply kept_setView | exact fun _ hn => nomatch hn
    | (refine Kept.of_eq ‹_ = (_, _)› ?_) | (dsimp only) | split)

theorem kept_takeToneSample {s0 s : State} {k : ContextId} {tone : List ToneLine} (kp : Kept s0 s) :
    Kept s0 (takeToneSample k tone s).1 := (kp.modCtx fun _ r => r).free

theorem kept_takePumpSample {s0 s : State} {sends : Bool} (kp : Kept s0 s) : Kept s0 (takePumpSample sends s).1 := by
  unfold takePumpSample
  split
  · exact kp.free
  · exact kp

theorem kept_supplySample {s0 s : State} {k : ContextId} {session : Bool} (kp : Kept s0 s) :
    Kept s0 (supplySample k session s).1 := by
  unfold supplySample
  try dsimp only
  repeat' (first
    | with_reducible assumption | with_reducible apply kept_takeToneSample
    | with_reducible apply kept_takePumpSample | with_reducible apply kept_decodeFrame
    | exact fun _ hn => nomatch hn | (refine Kept.of_eq ‹_ = (_, _)› ?_) | (dsimp only) | split)

theorem kept_transmitFrame {s0 s : State} {session : Bool} {k : ContextId} (kp : Kept s0 s) :
    Kept s0 (transmitFrame session k s) := by
  unfold transmitFrame
  try dsimp only
  repeat' (first
    | with_reducible assumption | with_reducible apply kept_supplySample
    | with_reducible refine Kept.modCtx ?_ (fun _ r => r)
    | with_reducible refine Kept.modCtx ?_ (fun _ _ => Context.inRange_reset)
    | with_reducible refine Kept.modCtx ?_ (fun hs r => ?_) | exact fun _ hn => nomatch hn
    | (refine Kept.of_eq ‹_ = (_, _)› ?_) | (dsimp only) | split)

theorem kept_readBack {s0 s : State} {f : Fin 8} {back : List Byte} {backSig : Byte} {c : Channel} (kp : Kept s0 s) :
    Kept s0 (readBack f back backSig c s) := by
  unfold readBack
  try dsimp only
  repeat' (first
    | with_reducible assumption | with_reducible apply Kept.modChannel | exact fun _ hn => nomatch hn
    | (refine Kept.of_eq ‹_ = (_, _)› ?_) | (dsimp only) | split)

theorem kept_readCodes {s0 s : State} {f : Fin 8} {rxSig : Byte} {backSig : Byte} (kp : Kept s0 s) :
    Kept s0 (readCodes f rxSig backSig s) := by
  unfold readCodes
  try dsimp only
  repeat' (first
    | with_reducible assumption | with_reducible refine Kept.modHwi ?_ (fun _ r => r)
    | with_reducible refine Kept.modHwi ?_ (fun hs r => ?_) | (refine Kept.forEach ?_ (fun _ _ _ => ?_)))

theorem kept_receiveFrame {s0 s : State} {session : Bool} {rx : List Byte} {k : ContextId} (kp : Kept s0 s) :
    Kept s0 (receiveFrame session rx k s) := by
  unfold receiveFrame
  try dsimp only
  repeat' (first
    | with_reducible assumption | with_reducible apply kept_encodeFrame | with_reducible apply Kept.modDetector
    | exact fun _ hn => nomatch hn | (refine Kept.of_eq ‹_ = (_, _)› ?_) | (dsimp only) | split)

theorem kept_settleDecoder {s0 s : State} {session : Bool} {k : ContextId} (kp : Kept s0 s) :
    Kept s0 (settleDecoder session k s) := by
  unfold settleDecoder
  try dsimp only
  repeat' (first
    | with_reducible assumption | with_reducible apply kept_afterDecode | exact fun _ hn => nomatch hn
    | (refine Kept.of_eq ‹_ = (_, _)› ?_) | (dsimp only) | split)

theorem kept_afterFrame {s0 s : State} {f : Fin 8} (kp : Kept s0 s) :
    Kept s0 (afterFrame f s) := by
  unfold afterFrame
  try dsimp only
  repeat' (first
    | with_reducible assumption | with_reducible refine Kept.modHwi ?_ (fun _ r => r)
    | with_reducible refine Kept.modHwi ?_ (fun hs r => ?_) | exact ⟨Nat.mod_lt _ (by decide), r.2⟩
    | exact fun _ hn => nomatch hn | (refine Kept.of_eq ‹_ = (_, _)› ?_) | (dsimp only) | split)

theorem kept_highwayFrame {s0 s : State} {f : Fin 8} {rx : List Byte} {rxSig : Byte} {back : List Byte} {backSig : Byte} (kp : Kept s0 s) :
    Kept s0 (highwayFrame f rx rxSig back backSig s) := by
  unfold highwayFrame
  try dsimp only
  repeat' (first
    | with_reducible assumption | with_reducible apply kept_afterFrame | with_reducible apply kept_settleDecoder
    | with_reducible apply kept_receiveFrame | with_reducible apply kept_readCodes
    | with_reducible apply kept_readBack | with_reducible apply kept_transmitFrame
    | (refine Kept.forEach ?_ (fun _ _ _ => ?_)))

theorem tickTimer_le {t : Option Nat} {c : Nat} (h : ∀ n ∈ t, n ≤ c) : ∀ n ∈ tickTimer t, n ≤ c := by
  intro n hn
  cases t with
  | none => cases hn
  | some m =>
    cases hn
    exact (Nat.sub_le _ _).trans (h m rfl)

theorem kept_stationTick {s0 s : State} (kp : Kept s0 s) : Kept s0 (stationTick s) := by
  unfold stationTick
  refine Kept.modRau (Kept.modHwi (kp.modCfu rfl rfl (fun _ e => e) fun _ r => r) fun _ r => ?_) fun _ r => r
  exact ⟨r.1, r.2.1, r.2.2.1, r.2.2.2.1, r.2.2.2.2.1, tickTimer_le r.2.2.2.2.2⟩

theorem kept_sessionTick {s0 s : State} (kp : Kept s0 s) : Kept s0 (sessionTick s) := by
  unfold sessionTick
  refine Kept.modTcm (kp.mapCtx fun x r => ?_) fun _ r => r
  split <;> exact r

theorem kept_measureTiming {s0 s : State} {measured : Nat} (kp : Kept s0 s) (hm : measured ≤ 32767) :
    Kept s0 (measureTiming measured s) := by
  have k1 : Kept s0 (s.modHwi fun h => { h with prevTiming := some measured }) :=
    kp.modHwi fun _ r => ⟨r.1, r.2.1, r.2.2.1, fun n h => by cases h; exact hm, r.2.2.2.2⟩
  unfold measureTiming
  dsimp only
  split
  · exact k1
  · split
    · exact k1
    · exact kept_retrainAll (kept_writeFault (kept_sendEvent k1))

theorem kept_checkReadback {s0 s : State} {c : Channel} (kp : Kept s0 s) :
    Kept s0 (checkReadback c s) := by
  unfold checkReadback
  try dsimp only
  repeat' (first
    | with_reducible assumption | with_reducible apply kept_contention | with_reducible apply Kept.modChannel
    | exact fun _ hn => nomatch hn | (refine Kept.of_eq ‹_ = (_, _)› ?_) | (dsimp only) | split)

theorem kept_takeEffect {s0 s : State}  (kp : Kept s0 s) :
    Kept s0 (takeEffect s) := by
  unfold takeEffect
  try dsimp only
  repeat' (first
    | with_reducible assumption | with_reducible refine Kept.modHwi ?_ (fun _ r => r))

theorem MapEntry.inRange_boundary {e : MapEntry} (r : e.InRange) : (repairEntry (tickBlockTimer e)).InRange := by
  have ht : ∀ n ∈ (tickBlockTimer e).blockTimer, n ≤ 10000 := tickTimer_le r.2
  have hs : (tickBlockTimer e).stale ≤ 15 := r.1
  revert ht hs
  generalize tickBlockTimer e = x
  intro ht hs
  unfold repairEntry
  repeat' split
  all_goals first
    | exact ⟨Nat.zero_le _, ht⟩
    | (refine ⟨?_, ht⟩; simp only; omega)

theorem kept_sessionBoundary {s0 s : State} {measured : Nat} (kp : Kept s0 s) (hm : measured ≤ 32767) :
    Kept s0 (sessionBoundary measured s) := by
  unfold sessionBoundary
  dsimp only
  refine Kept.modTcm (kept_deliverCodes (kept_sessionTick (Kept.forEach (kept_measureTiming kp hm)
    fun _ _ h => kept_checkReadback h))) fun _ r c => ?_
  show MapEntry.InRange ((Bank.map _ _).get c)
  rw [Bank.get_map]
  exact MapEntry.inRange_boundary (r c)

theorem kept_superframeBoundary {s0 s : State} {ticks : Nat} (kp : Kept s0 s) :
    Kept s0 (superframeBoundary ticks s) := by
  have zero {t : State} (kt : Kept s0 t) : Kept s0 (t.modHwi fun h => { h with tickCount := some 0 }) :=
    kt.modHwi fun _ r => ⟨r.1, r.2.1, fun n h => by cases h; exact Nat.zero_le _, r.2.2.2⟩
  have passed {t : State} (kt : Kept s0 t) : Kept s0 (boundaryPassed t) := kept_takeEffect (kept_stationTick (zero kt))
  unfold superframeBoundary
  split
  · exact passed kp
  · split
    · exact kept_loseAlignment kp
    · exact passed (kept_sessionBoundary kp (by omega))

theorem kept_localTick {s0 s : State} (kp : Kept s0 s) : Kept s0 (localTick s) := by
  unfold localTick
  split
  · exact kept_stationTick (kp.modHwi fun _ r => ⟨r.1, r.2.1, r.2.2.1, r.2.2.2.1, Nat.zero_le _, r.2.2.2.2.2⟩)
  · refine kp.modHwi fun _ r => ⟨r.1, r.2.1, r.2.2.1, r.2.2.2.1, ?_, r.2.2.2.2.2⟩
    dsimp only
    omega

theorem kept_referenceTick {s0 s : State} (kp : Kept s0 s) : Kept s0 (referenceTick s) := by
  unfold referenceTick
  split
  · split
    · exact kp
    · split
      · exact kept_loseAlignment kp
      · refine kp.modHwi fun _ r => ⟨r.1, r.2.1, fun n h => ?_, r.2.2.2⟩
        cases h
        omega
  · exact kept_localTick kp

end Sys2Proof.Machine
end

