-- ==== Sys2Proof/Laws/KeptDetector.lean ====
section
/-! SUPPORT. What the operations of Machine/Detector.lean keep. -/
namespace Sys2Proof.Machine

theorem kept_digitInSession {s0 s : State} {k : ContextId} {d : Digit} (kp : Kept s0 s) :
    Kept s0 (digitInSession k d s) := by
  unfold digitInSession
  try dsimp only
  repeat' (first
    | with_reducible assumption | with_reducible apply kept_playbackOver | with_reducible apply kept_enterWaiting
    | with_reducible apply kept_finishRecording | with_reducible apply kept_stopPlayback
    | with_reducible apply kept_sendEvent | with_reducible apply Kept.modVoice
    | (refine Kept.of_eq ‹_ = (_, _)› ?_) | (dsimp only) | split)

theorem kept_takeDigit {s0 s : State} {k : ContextId} {d : Digit} (kp : Kept s0 s) :
    Kept s0 (takeDigit k d s) := by
  unfold takeDigit
  try dsimp only
  repeat' (first
    | with_reducible assumption | with_reducible apply kept_digitInSession | with_reducible apply kept_decideVoice
    | with_reducible apply kept_takeAddressDigit | (refine Kept.of_eq ‹_ = (_, _)› ?_) | (dsimp only) | split)

theorem kept_takeTone {s0 s : State} {k : ContextId} {cause : Byte} (kp : Kept s0 s) :
    Kept s0 (takeTone k cause s) := by
  unfold takeTone
  try dsimp only
  repeat' (first
    | with_reducible assumption | with_reducible apply kept_endCall | (refine Kept.of_eq ‹_ = (_, _)› ?_)
    | (dsimp only) | split)

theorem kept_takeReport {s0 s : State} {k : ContextId} {listening : Bool} {r : Report} (kp : Kept s0 s) :
    Kept s0 (takeReport k listening r s) := by
  unfold takeReport
  try dsimp only
  repeat' (first
    | with_reducible assumption | with_reducible apply kept_takeTone | with_reducible apply kept_takeDigit
    | with_reducible apply kept_takeDialTone | with_reducible apply kept_decideData
    | with_reducible apply kept_decideFax | with_reducible apply Kept.modVoice
    | (refine Kept.of_eq ‹_ = (_, _)› ?_) | (dsimp only) | split)

theorem kept_detectorBlockEnds {s0 s : State} {k : ContextId} {m : Measurement} (kp : Kept s0 s) :
    Kept s0 (detectorBlockEnds k m s) := by
  unfold detectorBlockEnds
  try dsimp only
  repeat' (first
    | with_reducible assumption | with_reducible apply kept_takeReport | with_reducible apply Kept.modDetector
    | (refine Kept.forEach ?_ (fun _ _ _ => ?_)))

end Sys2Proof.Machine
end

