-- ==== Sys2Proof/Laws/KeptStation.lean ====
section
/-! SUPPORT. What the operations of Machine/Station.lean keep. -/
namespace Sys2Proof.Machine

/-- Power-on clears what it does not keep; the queue of commands and the memory's form stand (R43). -/
theorem powerOn_inRange {station : Fin 8} {storeSize : Fin 4} {s : State} (r : s.InRange) :
    (powerOn station storeSize s).InRange ∧ (powerOn station storeSize s).pending = s.pending
      ∧ (powerOn station storeSize s).cfu.station = station ∧ (powerOn station storeSize s).cfu.storeSize = storeSize := by
  unfold powerOn
  generalize hx : ({ State.reset with
    cfu := .reset station storeSize
    msc := { Msc.reset with links := s.msc.links, msgs := s.msc.msgs, mbxs := s.msc.mbxs, mem := s.msc.mem }
    free := s.free
    pending := s.pending } : State) = x
  have h := kept_beginScan (Kept.refl x)
  have hr : x.InRange := by
    subst hx
    have h1 : Hwi.reset.InRange := by decide
    have h2 : Clc.reset.InRange := by decide
    refine ⟨h1, h2, ⟨Nat.zero_le _, Nat.zero_le _, Nat.zero_le _, fun _ e => (nomatch e)⟩, fun c => ?_,
      fun k => ?_, r.2.2.2.2.2.1, Nat.zero_le _⟩
    · show MapEntry.InRange ((Bank.replicate 32 MapEntry.reset).get c)
      rw [Bank.get_replicate]
      exact ⟨Nat.zero_le _, fun _ e => (nomatch e)⟩
    · show Context.InRange ((Bank.replicate 4 Context.reset).get k)
      rw [Bank.get_replicate]
      exact Context.inRange_reset
  exact ⟨h.range hr, by rw [h.pending, ← hx], by rw [h.station, ← hx]; rfl, by rw [h.storeSize, ← hx]; rfl⟩

/-- With no cell in transmission, the transmission of the head leaves the queue inside its bounds. -/
theorem TxQueue.inRange_send {x : TxCell} {rest : List TxCell} (r : TxQueue.InRange (x :: rest))
    (hs : (x :: rest).find? (fun y => y.sending) = none) : TxQueue.InRange ({ x with sending := true } :: rest) := by
  obtain ⟨r1, r2, r3, r4, -⟩ := r
  refine ⟨r1, ?_, List.pairwise_cons.2 (List.pairwise_cons.1 r3), List.pairwise_cons.2 (List.pairwise_cons.1 r4), ?_⟩
  · have e : (({ x with sending := true } :: rest).filter fun y => isStreamKind y.cell.kind).length
        = ((x :: rest).filter fun y => isStreamKind y.cell.kind).length := by
      simp only [List.filter_cons]
      split <;> rfl
    exact e ▸ r2
  · have : rest.filter (fun y => y.sending) = [] := by
      simp only [List.filter_eq_nil_iff]
      intro y hy
      have := List.find?_eq_none.1 hs y (List.mem_cons_of_mem _ hy)
      simpa using this
    simp [this]

theorem kept_headGoesOut {s0 s : State} (kp : Kept s0 s) : Kept s0 (headGoesOut s) := by
  unfold headGoesOut
  split
  · exact kp
  · next y rest e =>
    split
    · next h =>
      simp only [Bool.and_eq_true, Option.isNone_iff_eq_none] at h
      have hs : (y :: rest).find? (fun y => y.sending) = none := e ▸ h.2
      exact kp.modClc fun _ r => ⟨TxQueue.inRange_send (e ▸ r.1) hs, r.2⟩
    · exact kp

theorem TxQueue.inRange_orphan {q : List TxCell} (r : TxQueue.InRange q) :
    TxQueue.InRange (q.map fun y => { y with orphan := true }) := by
  obtain ⟨r1, r2, r3, r4, r5⟩ := r
  exact ⟨by simpa using r1, by rw [List.filter_map, List.length_map]; exact r2, List.pairwise_map.2 r3,
    List.pairwise_map.2 r4, by rw [List.filter_map, List.length_map]; exact r5⟩

theorem kept_flushLine {s0 s : State} (kp : Kept s0 s) : Kept s0 (flushLine s) :=
  kp.modClc fun _ r => ⟨TxQueue.inRange_orphan (TxQueue.inRange_filter r.1 _), Nat.zero_le _, Nat.zero_le _,
    Nat.zero_le _⟩

theorem kept_restartHighway {s0 s : State}  (kp : Kept s0 s) :
    Kept s0 (restartHighway s) := by
  unfold restartHighway
  try dsimp only
  repeat' (first
    | with_reducible assumption | with_reducible refine Kept.modHwi ?_ (fun _ r => r)
    | with_reducible refine Kept.modHwi ?_ (fun hs r => ?_)
    | exact ⟨r.1, r.2.1, r.2.2.1, fun _ h => (nomatch h), r.2.2.2.2.1, fun _ h => (nomatch h)⟩)

theorem kept_restartStation {s0 s : State} (kp : Kept s0 s) : Kept s0 (restartStation s) := by
  unfold restartStation
  dsimp only
  have k1 : Kept s0 { flushLine s with ctx := .replicate 4 .reset, tcm := .reset, rau := .reset } := by
    refine (kept_flushLine kp).trans ⟨rfl, rfl, rfl, fun _ h => h, fun r => ⟨r.1, r.2.1, r.2.2.1, fun c => ?_,
      fun k => ?_, r.2.2.2.2.2.1, Nat.zero_le _⟩⟩
    · show MapEntry.InRange ((Bank.replicate 32 MapEntry.reset).get c)
      rw [Bank.get_replicate]
      exact ⟨Nat.zero_le _, fun _ e => (nomatch e)⟩
    · show Context.InRange ((Bank.replicate 4 Context.reset).get k)
      rw [Bank.get_replicate]
      exact Context.inRange_reset
  have k2 := kept_beginScan (kept_restartHighway k1)
  revert k2
  generalize beginScan _ = x
  intro k2
  exact k2.modCfu rfl rfl (fun _ e => e) fun _ r => r

theorem kept_restart {s0 s : State} {x : Cell} {freeLineBetween : Bool} (kp : Kept s0 s) :
    Kept s0 (restart x freeLineBetween s) := by
  unfold restart
  try dsimp only
  repeat' (first
    | with_reducible assumption | with_reducible apply kept_restartStation
    | with_reducible apply kept_headGoesOut | with_reducible apply kept_sendAnswer
    | with_reducible apply kept_sendAnswerWith | exact fun _ hn => nomatch hn | (refine Kept.of_eq ‹_ = (_, _)› ?_)
    | (dsimp only) | split)

theorem clampTo_range {lo hi : Nat} (h : lo ≤ hi) (n : Nat) : lo ≤ clampTo lo hi n ∧ clampTo lo hi n ≤ hi := by
  unfold clampTo
  split
  · omega
  · split <;> omega

theorem rateBounds_inRange (lo hi : Nat) : (rateBounds lo hi).1 ≤ (rateBounds lo hi).2 ∧ (rateBounds lo hi).2 ≤ 11 := by
  have a := clampTo_range (lo := 0) (hi := 11) (by decide) lo
  have b := clampTo_range (lo := 0) (hi := 11) (by decide) hi
  unfold rateBounds
  dsimp only
  split <;> dsimp only <;> omega

/-- A CONFIGURE that is not refused gives a record inside the ranges of R40. -/
theorem configureRecord_inRange {station : Fin 8} {p : List Byte} (h : configureRefused station p = false) :
    (configureRecord p).InRange ∧ station.val < (configureRecord p).groupSize := by
  simp only [configureRefused, Bool.or_eq_false_iff, decide_eq_false_iff_not] at h
  obtain ⟨⟨⟨⟨h1, h2⟩, h3⟩, h4⟩, h5⟩ := h
  have c (lo hi n : Nat) (h : lo ≤ hi := by decide) := clampTo_range h n
  refine ⟨⟨⟨?_, ?_⟩, c 2 120 _, c 8 64 _, (c 0 80 _).2, ?_, ?_, (c 0 47 _).2, c 4 255 _, c 8 4095 _,
    rateBounds_inRange _ _, c 1 255 _, c 50 150 _, c 50 150 _, (c 0 5 _).2⟩, ?_⟩
  all_goals
    simp only [configureRecord]
    omega

theorem kept_configure {s0 s : State} {x : Cell} (kp : Kept s0 s) : Kept s0 (configure x s) := by
  unfold configure
  split
  · exact kept_sendAnswer kp
  · next hc =>
    split
    · exact kept_sendAnswer kp
    · next hr =>
      have none' : s.cfu.config = none := by simpa using hc
      have ok := configureRecord_inRange (by simpa using hr)
      have k1 : Kept s0 (s.modCfu fun u => { u with config := some (configureRecord x.payload) }) :=
        kp.modCfu rfl rfl (fun g e => by rw [none'] at e; cases e) fun _ r =>
          ⟨r.1, r.2.1, r.2.2.1, fun g e => by cases e; exact ok⟩
      dsimp only
      split
      · exact kept_enterActive (kept_applySettleCount (kept_sendAnswer k1))
      · exact kept_applySettleCount (kept_sendAnswer k1)

theorem kept_setClock {s0 s : State} {x : Cell} (kp : Kept s0 s) :
    Kept s0 (setClock x s) := by
  unfold setClock
  try dsimp only
  repeat' (first
    | with_reducible assumption | with_reducible apply kept_sendAnswer
    | with_reducible refine Kept.modCfu ?_ rfl rfl (fun _ e => e) (fun _ r => r))

theorem kept_sendStatus {s0 s : State} {x : Cell} {selector : Nat} {number : Option Nat} {contents : List Byte} (kp : Kept s0 s) :
    Kept s0 (sendStatus x selector number contents s) := by
  unfold sendStatus
  try dsimp only
  repeat' (first
    | with_reducible assumption | with_reducible apply kept_offerReport)

theorem kept_sendAbsent {s0 s : State} {x : Cell} {selector : Nat} {length : Nat} (kp : Kept s0 s) :
    Kept s0 (sendAbsent x selector length s) := by
  unfold sendAbsent
  try dsimp only
  repeat' (first
    | with_reducible assumption | with_reducible apply kept_sendStatus)

theorem kept_queryStation {s0 s : State} {x : Cell} (kp : Kept s0 s) :
    Kept s0 (queryStation x s) := by
  unfold queryStation
  try dsimp only
  repeat' (first
    | with_reducible assumption | with_reducible apply kept_sendStatus)

theorem kept_queryContext {s0 s : State} {x : Cell} (kp : Kept s0 s) :
    Kept s0 (queryContext x s) := by
  unfold queryContext
  try dsimp only
  repeat' (first
    | with_reducible assumption | with_reducible apply kept_sendAbsent | with_reducible apply kept_sendStatus
    | exact fun _ hn => nomatch hn | (refine Kept.of_eq ‹_ = (_, _)› ?_) | (dsimp only) | split)

theorem kept_queryMap {s0 s : State} {x : Cell} (kp : Kept s0 s) :
    Kept s0 (queryMap x s) := by
  unfold queryMap
  try dsimp only
  repeat' (first
    | with_reducible assumption | with_reducible apply kept_sendStatus)

theorem kept_queryMailbox {s0 s : State} {x : Cell} (kp : Kept s0 s) :
    Kept s0 (queryMailbox x s) := by
  unfold queryMailbox
  try dsimp only
  repeat' (first
    | with_reducible assumption | with_reducible apply kept_sendAbsent | with_reducible apply kept_sendStatus
    | exact fun _ hn => nomatch hn | (refine Kept.of_eq ‹_ = (_, _)› ?_) | (dsimp only) | split)

theorem kept_queryMessage {s0 s : State} {x : Cell} (kp : Kept s0 s) :
    Kept s0 (queryMessage x s) := by
  unfold queryMessage
  try dsimp only
  repeat' (first
    | with_reducible assumption | with_reducible apply kept_sendAbsent | with_reducible apply kept_sendStatus
    | exact fun _ hn => nomatch hn | (refine Kept.of_eq ‹_ = (_, _)› ?_) | (dsimp only) | split)

theorem kept_queryFaults {s0 s : State} {x : Cell} (kp : Kept s0 s) :
    Kept s0 (queryFaults x s) := by
  unfold queryFaults
  try dsimp only
  repeat' (first
    | with_reducible assumption | with_reducible apply kept_sendStatus)

theorem keptFaults_length (positions : Byte) (faults : List FaultEntry) :
    (keptFaults positions faults).length ≤ faults.length := by
  unfold keptFaults
  rw [List.length_map]
  exact (List.length_filter_le _ _).trans (by simp)

theorem kept_clearFaults {s0 s : State} {x : Cell} (kp : Kept s0 s) : Kept s0 (clearFaults x s) := by
  unfold clearFaults
  refine kept_sendAnswer (kp.modCfu rfl rfl (fun _ e => e) fun _ r => ⟨(keptFaults_length _ _).trans r.1, ?_, ?_, r.2.2.2⟩)
  · dsimp only
    split
    · exact Nat.zero_le _
    · exact r.2.1
  · dsimp only
    split
    · exact Nat.zero_le _
    · exact r.2.2.1

end Sys2Proof.Machine
end

