-- ==== Sys2Proof/Laws/KeptLine.lean ====
section
/-! SUPPORT. What the operations of Machine/Line.lean keep. -/
namespace Sys2Proof.Machine

theorem kept_afterDeposit {s0 s : State} {k : ContextId} (kp : Kept s0 s) :
    Kept s0 (afterDeposit k s) := by
  unfold afterDeposit
  try dsimp only
  repeat' (first
    | with_reducible assumption | with_reducible apply kept_beginFaxDeposit
    | with_reducible apply kept_beginDeposit | (refine Kept.of_eq ‹_ = (_, _)› ?_) | (dsimp only) | split)

theorem kept_depositEnds {s0 s : State} {k : ContextId} {d : OutDeposit} {o : DepositOutcome} (kp : Kept s0 s) :
    Kept s0 (depositEnds k d o s) := by
  unfold depositEnds
  try dsimp only
  repeat' (first
    | with_reducible assumption | with_reducible apply kept_afterDeposit
    | with_reducible apply kept_faxDepositEnded | with_reducible apply kept_recordingDepositEnded
    | with_reducible apply kept_freeDeposit | (refine Kept.of_eq ‹_ = (_, _)› ?_) | (dsimp only) | split)

theorem kept_fetchEnds {s0 s : State} {k : ContextId} {o : FetchOutcome} (kp : Kept s0 s) :
    Kept s0 (fetchEnds k o s) := by
  unfold fetchEnds
  try dsimp only
  repeat' (first
    | with_reducible assumption | with_reducible apply kept_faxFetchEnded
    | with_reducible apply kept_playFetchEnded | with_reducible apply kept_endFetch
    | (refine Kept.of_eq ‹_ = (_, _)› ?_) | (dsimp only) | split)

theorem kept_undelivered {s0 s : State} {k : ContextId} {kind : Byte} {serial : Nat} (kp : Kept s0 s) :
    Kept s0 (undelivered k kind serial s) := by
  unfold undelivered
  try dsimp only
  repeat' (first
    | with_reducible assumption | with_reducible apply kept_fetchEnds | with_reducible apply kept_depositEnds
    | (refine Kept.of_eq ‹_ = (_, _)› ?_) | (dsimp only) | split)

theorem kept_settleNotices {s0 s : State} {n : Nat} (kp : Kept s0 s) : Kept s0 (settleNotices n s) := by
  induction n generalizing s with
  | zero => exact kp
  | succ n ih =>
    unfold settleNotices
    split
    · exact kp
    · exact ih (kept_undelivered (kp.modRau fun _ r => r))

theorem kept_settle {s0 s : State}  (kp : Kept s0 s) :
    Kept s0 (settle s) := by
  unfold settle
  try dsimp only
  repeat' (first
    | with_reducible assumption | with_reducible apply kept_settleNotices
    | with_reducible refine Kept.modRau ?_ (fun _ r => r))

theorem kept_lineFalls {s0 s : State} {others : List Byte} (kp : Kept s0 s) (hs : inTransmission s = none) :
    Kept s0 (lineFalls others s) := by
  unfold lineFalls
  split
  · split
    · exact kp.modClc fun _ r => r
    · exact kp.modClc fun _ r => r
  · next x rest e =>
    have hs : (x :: rest).find? (fun y => y.sending) = none := e ▸ hs
    have k1 : Kept s0 (s.modClc fun l => { l with
        line := .busy, run := 0, tx := { x with sending := true } :: rest }) :=
      kp.modClc fun _ r => ⟨TxQueue.inRange_send (e ▸ r.1) hs, r.2⟩
    dsimp only
    split
    · exact kept_arbitrationLost k1
    · exact k1

theorem kept_receiveCell {s0 s : State} {bytes : List Byte} {ending : CellEnd} (kp : Kept s0 s) :
    Kept s0 (receiveCell bytes ending s) := by
  have run {t : State} {n : Nat} (kt : Kept s0 t) : Kept s0 (t.modClc fun l => { l with line := .busy, run := n }) :=
    kt.modClc fun _ r => r
  unfold receiveCell
  dsimp only
  split
  · exact run (kept_countBadCheck kp)
  · exact run (kept_countBadCheck kp)
  · next c _ =>
    split
    · next h =>
      simp only [accepts, Bool.and_eq_true, decide_eq_true_eq] at h
      refine run (kp.modClc fun _ r => ⟨r.1, ?_, r.2.2⟩)
      simp only [List.length_append, List.length_singleton]
      omega
    · exact run kp

theorem kept_cellArrives {s0 s : State} {bytes : List Byte} {ending : CellEnd} (kp : Kept s0 s) :
    Kept s0 (cellArrives bytes ending s) := by
  unfold cellArrives
  try dsimp only
  repeat' (first
    | with_reducible assumption | with_reducible apply kept_receiveCell | with_reducible apply kept_arbitrationLost
    | with_reducible refine Kept.modClc ?_ (fun _ r => r)
    | (refine Kept.of_eq ‹_ = (_, _)› ?_) | (dsimp only) | split)

theorem kept_tellProducer {s0 s : State} {x : TxCell} {ok : Bool} (kp : Kept s0 s) :
    Kept s0 (tellProducer x ok s) := by
  unfold tellProducer
  try dsimp only
  repeat' (first
    | with_reducible assumption | with_reducible apply kept_undelivered | with_reducible apply kept_claimSent
    | (refine Kept.of_eq ‹_ = (_, _)› ?_) | (dsimp only) | split)

theorem kept_cellDecided {s0 s : State} {x : TxCell} {r : SendResult} (kp : Kept s0 s) :
    Kept s0 (cellDecided x r s) := by
  unfold cellDecided
  try dsimp only
  repeat' (first
    | with_reducible assumption | with_reducible apply kept_tellProducer | with_reducible apply kept_removeSending
    | with_reducible apply kept_countUndelivered | with_reducible refine Kept.modClc ?_ (fun _ r => r)
    | with_reducible refine Kept.modClc ?_ (fun hs r => ?_) | (refine Kept.of_eq ‹_ = (_, _)› ?_) | (dsimp only)
    | split)

theorem kept_popCell {s0 s : State} (kp : Kept s0 s) : Kept s0 (popCell s) :=
  kp.modClc fun _ r => ⟨r.1, by
    have := r.2.1
    simp only [List.length_tail]
    omega, r.2.2⟩

theorem kept_requestOwner {s0 s : State} {owner : Cell → State → State} {c : Cell} (kp : Kept s0 s)
    (ho : ∀ t, Kept s0 t → Kept s0 (owner c t)) : Kept s0 (requestOwner owner c s) := by
  unfold requestOwner
  split
  · exact kp
  · split
    · exact kept_sendAnswer kp
    · exact ho s kp

theorem kept_whenActive {s0 s : State} {owner : Cell → State → State} {c : Cell} (kp : Kept s0 s)
    (ho : ∀ t, Kept s0 t → Kept s0 (owner c t)) : Kept s0 (whenActive owner c s) := by
  unfold whenActive
  split
  · exact ho s kp
  · exact kept_sendAnswer kp

theorem kept_peerOwner {s0 s : State} {owner : Fin 8 → Cell → State → State} {c : Cell} (kp : Kept s0 s)
    (ho : ∀ p t, Kept s0 t → Kept s0 (owner p c t)) : Kept s0 (peerOwner owner c s) := by
  unfold peerOwner
  split
  · exact kp
  · split
    · exact ho _ s kp
    · exact kp

/-! ### Outcomes -/

/-- A command that has its effect when it is due keeps what its effect keeps. -/
theorem kept_act {s t : State} {due : Bool} {effect : State} (he : due = true → Kept s effect)
    (e : act due effect s = .next t) : Kept s t := by
  unfold act whenDue at e
  cases e
  split
  · next h => exact kept_settle (he h)
  · exact Kept.refl s

theorem kept_handOver {s t : State} {due : Cell → Bool} {effect : Cell → State → State}
    (he : ∀ c u, Kept s u → Kept s (effect c u)) (e : handOver due effect s = .next t) : Kept s t := by
  unfold handOver at e
  split at e
  · cases e
    exact Kept.refl s
  · exact kept_act (fun _ => he _ _ (kept_popCell (Kept.refl s))) e

theorem kept_handRequest {s t : State} {kind : Byte} {owner : Cell → State → State}
    (ho : ∀ c u, Kept s u → Kept s (owner c u)) (e : handRequest kind owner s = .next t) : Kept s t :=
  kept_handOver (fun c _ h => kept_requestOwner h (ho c)) e

theorem kept_handPeer {s t : State} {kind : Byte} {owner : Fin 8 → Cell → State → State}
    (ho : ∀ p c u, Kept s u → Kept s (owner p c u)) (e : handPeer kind owner s = .next t) : Kept s t :=
  kept_handOver (fun c _ h => kept_peerOwner h fun p => ho p c) e

theorem kept_decideCell {s t : State} {kinds : Byte → Bool} {r : SendResult} (e : decideCell kinds r s = .next t) :
    Kept s t := by
  unfold decideCell at e
  split at e
  · cases e
    exact Kept.refl s
  · exact kept_act (fun _ => kept_cellDecided (Kept.refl s)) e

end Sys2Proof.Machine
end

