-- ==== Sys2Proof/Laws/PowerLoss.lean ====
section
/-! SUPPORT. What a loss of power leaves: the station inside its ranges, and, where it comes after the last write, what the
whole operation leaves. -/
namespace Sys2Proof.Machine

/-! ### The ranges stand -/

theorem kept_write {s0 : State} {c : Cut} {w : State → State} (kp : Kept s0 c.s) (hw : ∀ t, Kept s0 t → Kept s0 (w t)) :
    Kept s0 (c.write w).s := by
  unfold Cut.write
  split
  · exact kp
  · exact hw _ kp

theorem kept_write_at {s0 : State} {c : Cut} {w : State → State} (kp : Kept s0 c.s) (hw : Kept s0 (w c.s)) :
    Kept s0 (c.write w).s := by
  unfold Cut.write
  split <;> assumption

theorem kept_cutEach {α : Type} {s0 : State} {xs : List α} {f : α → Cut → Cut} {c : Cut} (kp : Kept s0 c.s)
    (hf : ∀ x c, Kept s0 c.s → Kept s0 (f x c).s) : Kept s0 (cutEach xs f c).s := by
  unfold cutEach
  induction xs generalizing c with
  | nil => exact kp
  | cons x xs ih => exact ih (hf x c kp)

theorem kept_addMailbox {s0 s : State} {number limit : Nat} (kp : Kept s0 s) (h : s.msc.mbxs.length < 64) :
    Kept s0 (addMailbox number limit s) :=
  kp.modMsc fun _ r => ⟨r.1, r.2.1, by simpa using h⟩

theorem createResult_room {s : State} {number limit : Nat} (h : createResult s number limit = codeOk) :
    s.msc.mbxs.length < 64 := by
  revert h
  unfold createResult
  repeat' split
  all_goals first | (intro h; exact absurd h (by decide)) | (intro _; omega)

theorem kept_eraseMailbox {s0 s : State} {number : Nat} (kp : Kept s0 s) : Kept s0 (eraseMailbox number s) :=
  kp.modMsc fun _ r => ⟨r.1, r.2.1, (List.length_filter_le _ _).trans r.2.2⟩

theorem kept_cutDelete {s0 : State} {h : Nat} {c : Cut} (kp : Kept s0 c.s) : Kept s0 (cutDelete h c).s := by
  unfold cutDelete
  split
  · exact kp
  · exact kept_write (kept_write kp fun _ => kept_deleteRecord) fun _ => kept_unlistMessage

theorem kept_cutRemove {s0 : State} {number : Nat} {c : Cut} (kp : Kept s0 c.s) : Kept s0 (cutRemove number c).s := by
  unfold cutRemove
  split
  · exact kp
  · exact kept_write (kept_cutEach kp fun _ _ => kept_cutDelete) fun _ => kept_eraseMailbox

theorem kept_cutOpen {s0 : State} {mailbox : Nat} {kind : Option MsgKind} {w : Writer} {c : Cut} (kp : Kept s0 c.s) :
    Kept s0 (cutOpen mailbox kind w c).s := by
  unfold cutOpen
  split
  · exact kept_write (kept_write kp fun _ => Kept.setMsgAt) fun _ => kept_modMailbox
  · exact kp

theorem kept_cutShorten {s0 : State} {h n : Nat} {c : Cut} (kp : Kept s0 c.s) : Kept s0 (cutShorten h n c).s := by
  unfold cutShorten
  split
  · exact kp
  · dsimp only
    refine kept_freeBlocks ?_
    split
    · exact kept_write (kept_write kp fun _ => Kept.setMsgAt) fun _ => kept_setLink
    · exact kept_write kp fun _ => Kept.setMsgAt

theorem kept_cutFile {s0 : State} {h : Nat} {m : Msg} {c : Cut} (kp : Kept s0 c.s) : Kept s0 (cutFile h m c).s := by
  unfold cutFile
  refine kept_write ?_ fun _ => kept_modMailbox
  split
  · split
    · exact kept_cutDelete kp
    · exact kp
  · exact kp

theorem kept_cutClose {s0 : State} {h : Nat} {reason : Byte} {c : Cut} (kp : Kept s0 c.s) :
    Kept s0 (cutClose h reason c).s := by
  unfold cutClose
  split
  · exact kp
  · next m _ =>
    have k : Kept s0 (if keptRecord m (keptCount c.s m reason) reason = m then c else
        c.write fun s => s.setMsgAt h (some (keptRecord m (keptCount c.s m reason) reason))).s := by
      split
      · exact kp
      · exact kept_write kp fun _ => Kept.setMsgAt
    dsimp only
    split
    · exact kept_write (kept_write kp fun _ => kept_freeMessage) fun _ => kept_modMailbox
    · refine kept_write (kept_cutFile ?_) fun _ => kept_closeRecord
      split
      · exact kept_cutShorten k
      · exact k

theorem kept_cutAppend {s0 : State} {h : Nat} {block : List Byte} {samples : Nat} {c : Cut} (kp : Kept s0 c.s) :
    Kept s0 (cutAppend h block samples c).s := by
  unfold cutAppend
  split
  · exact kp
  · exact kept_cutClose kp
  · next b _ _ _ =>
    have k : Kept s0 (((c.work takeFreeBlock).write (writeData b block)).write (setLink b none)).s :=
      kept_write (kept_write (kept_takeFreeBlock kp) fun _ => kept_writeData) fun _ => kept_setLink
    refine kept_write ?_ fun _ => Kept.setMsgAt
    split
    · exact kept_write k fun _ => kept_setLink
    · exact k

theorem kept_cutScanRecord {s0 : State} {h : Nat} {c : Cut} (kp : Kept s0 c.s) : Kept s0 (cutScanRecord h c).s := by
  unfold cutScanRecord
  split
  · exact kept_scanRecord kp
  · exact kept_write kp fun _ => kept_scanRecord

theorem kept_cutScanMailbox {s0 : State} {n : Nat} {c : Cut} (kp : Kept s0 c.s) : Kept s0 (cutScanMailbox n c).s := by
  unfold cutScanMailbox
  split
  · split
    · exact kp
    · exact kept_write kp fun _ => kept_modMailbox
  · exact kp

theorem kept_cutScan {s0 : State} {c : Cut} (kp : Kept s0 c.s) : Kept s0 (cutScan c).s := by
  have k : Kept s0 (c.work enterScanning).s := kept_enterScanning kp
  unfold cutScan
  exact kept_cutEach (kept_cutEach k fun _ _ => kept_cutScanRecord) fun _ _ => kept_cutScanMailbox

theorem kept_cutOp {s0 : State} {op : StoreOp} {c : Cut} (kp : Kept s0 c.s) : Kept s0 (cutOp op c).s := by
  unfold cutOp
  split
  · split
    · exact kept_write_at kp (kept_addMailbox kp (createResult_room ‹_›))
    · exact kp
  · split
    · exact kept_cutRemove kp
    · exact kp
  · exact kept_cutOpen kp
  · exact kept_cutAppend kp
  · split
    · exact kept_write kp fun _ => kept_endPage
    · exact kp
  · unfold cutRollBack
    split
    · split
      · exact kept_cutShorten kp
      · exact kp
    · exact kp
  · split
    · exact kept_cutClose kp
    · exact kp
  · unfold cutMark
    split
    · split
      · exact kept_cutDelete kp
      · exact kept_write kp fun _ => kept_markMessage
    · exact kp
  · exact kept_write kp fun _ => kept_leaveMessage
  · exact kept_cutScan kp

/-- A loss of power leaves the queue of commands, and the station inside its ranges. -/
theorem kept_interrupted (loss : PowerLoss) (s : State) : Kept s (interrupted loss s) :=
  kept_cutEach (c := { left := loss.writes, s }) (Kept.refl s) fun _ _ => kept_cutOp

/-! ### Every write done -/

/-- Some number of writes does the whole of an operation. -/
def Whole (f : Cut → Cut) (op : State → State) (s : State) : Prop := ∃ k, ∀ n, f ⟨k + n, s⟩ = ⟨n, op s⟩

namespace Whole

variable {f g : Cut → Cut} {op op' w : State → State} {s : State}

theorem refl : Whole id id s := ⟨0, fun n => by rw [Nat.zero_add]; rfl⟩
theorem write : Whole (Cut.write w) w s := ⟨1, fun n => by rw [Nat.add_comm]; rfl⟩
theorem work : Whole (Cut.work w) w s := ⟨0, fun n => by rw [Nat.zero_add]; rfl⟩

theorem comp (h : Whole f op s) (h' : Whole g op' (op s)) : Whole (fun c => g (f c)) (fun s => op' (op s)) s := by
  obtain ⟨k, h⟩ := h
  obtain ⟨k', h'⟩ := h'
  refine ⟨k + k', fun n => ?_⟩
  show g (f ⟨k + k' + n, s⟩) = _
  rw [Nat.add_assoc, h, h']

/-- Two descriptions that agree on the state at hand. -/
theorem of (h : Whole f op s) (hf : ∀ n, g ⟨n, s⟩ = f ⟨n, s⟩) (ho : op' s = op s) : Whole g op' s := by
  obtain ⟨k, h⟩ := h
  exact ⟨k, fun n => by rw [hf, h, ho]⟩

end Whole

theorem whole_cutDelete (h : Nat) (s : State) : Whole (cutDelete h) (deleteMessage h) s := by
  cases e : s.msgAt h with
  | none => exact Whole.refl.of (fun n => by simp [cutDelete, e]) (by simp [deleteMessage, e])
  | some m =>
    exact ((Whole.write (w := deleteRecord h)).comp (Whole.write (w := unlistMessage m.mailbox h))).of
      (fun n => by simp [cutDelete, e]) (by simp [deleteMessage, e])

theorem whole_cutShorten (h n : Nat) (s : State) : Whole (cutShorten h n) (cutChain h n) s := by
  cases e : s.msgAt h with
  | none => exact Whole.refl.of (fun n => by simp [cutShorten, e]) (by simp [cutChain, e])
  | some m =>
    let record : State → State := fun t => t.setMsgAt h (some (cutRecord m (chainOf s m) n))
    let free := freeBlocks ((chainOf s m).drop n)
    cases l : ((chainOf s m).take n).getLast? with
    | none =>
      exact ((Whole.write (w := record)).comp (Whole.work (w := free))).of
        (fun _ => by simp only [cutShorten, e, l]; rfl) (by simp only [cutChain, e, l]; rfl)
    | some b =>
      exact (((Whole.write (w := record)).comp (Whole.write (w := setLink b none))).comp (Whole.work (w := free))).of
        (fun _ => by simp only [cutShorten, e, l]; rfl) (by simp only [cutChain, e, l]; rfl)

theorem whole_cutFile (h : Nat) (m : Msg) (s : State) : Whole (cutFile h m) (fileMessage h m) s := by
  by_cases g : m.kind = .greeting
  · cases e : (mailbox? s m.mailbox).bind (·.greeting) with
    | none =>
      exact (Whole.write (w := modMailbox m.mailbox (fileIn h m.kind))).of
        (fun _ => by simp only [cutFile, g, e, if_true]) (by simp only [fileMessage, g, e, if_true])
    | some old =>
      exact ((whole_cutDelete old s).comp (Whole.write (w := modMailbox m.mailbox (fileIn h m.kind)))).of
        (fun _ => by simp only [cutFile, g, e, if_true]) (by simp only [fileMessage, g, e, if_true])
  · exact (Whole.write (w := modMailbox m.mailbox (fileIn h m.kind))).of
      (fun _ => by simp only [cutFile, g, if_false]) (by simp only [fileMessage, g, if_false])

theorem setMsgAt_same {s : State} {h : Nat} {m : Msg} (e : s.msgAt h = some m) : s.setMsgAt h (some m) = s := by
  revert e
  unfold State.msgAt State.setMsgAt
  split
  · next i _ =>
    intro e
    have : s.msc.msgs.set i (some m) = s.msc.msgs := by
      have e' : s.msc.msgs.get i = some m := e
      rw [← e', Bank.set_get]
    show { s with msc := { s.msc with msgs := s.msc.msgs.set i (some m) } } = s
    rw [this]
  · exact fun e => nomatch e

/-- What a close leaves but for the report of the message. -/
theorem whole_cutClose (h : Nat) (reason : Byte) (s : State) : ∃ op : State → State, Whole (cutClose h reason) op s
    ∧ ((closeMessage h reason s).1 = op s ∨ ∃ e, (closeMessage h reason s).1 = sendEvent none e (op s)) := by
  cases e : s.msgAt h with
  | none =>
    exact ⟨id, Whole.refl.of (fun _ => by simp [cutClose, e]) rfl, .inl (by simp [closeMessage, e])⟩
  | some m =>
    by_cases k : keptCount s m reason = 0
    · exact ⟨discardMessage h m, ((Whole.write (w := freeMessage h)).comp
        (Whole.write (w := modMailbox m.mailbox (uncountOpen m.kind)))).of
          (fun _ => by simp only [cutClose, e, k, if_true]) rfl, .inl (by simp only [closeMessage, e, k, if_true])⟩
    · let m' := keptRecord m (keptCount s m reason) reason
      let record : State → State := fun t => t.setMsgAt h (some m')
      have h1 : Whole (fun c => if m' = m then c else c.write record) record s := by
        by_cases q : m' = m
        · exact Whole.refl.of (fun _ => by simp only [q, if_true]; rfl) (by simp only [record, q]; exact setMsgAt_same e)
        · exact Whole.write.of (fun _ => by simp only [q, if_false]) rfl
      by_cases l : keptCount s m reason < m.count
      · refine ⟨fun t => closeRecord h (fileMessage h m' (cutChain h (keptCount s m reason) (record t))),
          (((h1.comp (whole_cutShorten h (keptCount s m reason) _)).comp (whole_cutFile h m' _)).comp
          (Whole.write (w := closeRecord h))).of (fun _ => by simp only [cutClose, e, k, l, if_true, if_false]; rfl) rfl,
          .inr ⟨.messageStored m.mailbox h m.kind, ?_⟩⟩
        simp only [closeMessage, e, k, l, if_true, if_false]
        rfl
      · refine ⟨fun t => closeRecord h (fileMessage h m' (record t)), ((h1.comp (whole_cutFile h m' _)).comp
          (Whole.write (w := closeRecord h))).of (fun _ => by simp only [cutClose, e, k, l, if_false]; rfl) rfl,
          .inr ⟨.messageStored m.mailbox h m.kind, ?_⟩⟩
        simp only [closeMessage, e, k, l, if_false]
        rfl

/-- An append that finds a free block. -/
theorem whole_cutAppend {h : Nat} {block : List Byte} {samples : Nat} {s : State} {m : Msg} {w : Writer} {b : Nat}
    {rest : List Nat} (ho : openRecord s h = some (m, w)) (hu : openUnder s h w = some m)
    (hf : s.msc.freeList = b :: rest) :
    Whole (cutAppend h block samples) (fun s => (appendBlock h w block samples s).1) s := by
  let record : State → State := fun t => t.setMsgAt h (some (appendRecord m b block samples))
  have k := ((Whole.work (w := takeFreeBlock) (s := s)).comp (Whole.write (w := writeData b block))).comp
    (Whole.write (w := setLink b none))
  cases l : m.last with
  | none =>
    exact (k.comp (Whole.write (w := record))).of (fun _ => by simp only [cutAppend, ho, hf, l]; rfl)
      (by simp only [appendBlock, hu, hf, l]; rfl)
  | some x =>
    exact ((k.comp (Whole.write (w := setLink x (some b)))).comp (Whole.write (w := record))).of
      (fun _ => by simp only [cutAppend, ho, hf, l]; rfl) (by simp only [appendBlock, hu, hf, l]; rfl)

end Sys2Proof.Machine
end

