-- ==== Sys2Proof/Laws/Steady.lean ====
section
/-! SUPPORT. What an operation below the commands leaves alone: of the highway all but the channels, of the control line
all but the transmit queue, its losses and the held set, of the configuration unit all but the fault record, which only
grows, and the queue of commands. -/
namespace Sys2Proof.Machine

/-- What stands between a state and a later one within one command. -/
structure Steady (s t : State) : Prop where
  hwi : t.hwi = { s.hwi with channels := t.hwi.channels }
  clc : t.clc = { s.clc with tx := t.clc.tx, undelivered := t.clc.undelivered, held := t.clc.held }
  cfu : t.cfu = { s.cfu with faults := t.cfu.faults, overflow := t.cfu.overflow, lostReports := t.cfu.lostReports }
  faults : s.cfu.faults <+: t.cfu.faults
  pending : t.pending = s.pending

namespace Steady

variable {k : ContextId} {s0 s t : State}

theorem refl (s : State) : Steady s s := ⟨rfl, rfl, rfl, List.prefix_refl _, rfl⟩

theorem trans (h : Steady s0 s) (g : Steady s t) : Steady s0 t :=
  ⟨by rw [g.hwi, h.hwi], by rw [g.clc, h.clc], by rw [g.cfu, h.cfu], h.faults.trans g.faults,
    g.pending.trans h.pending⟩

/-- The state of a pair that an operation answers. -/
theorem of_eq {α : Type} {p : State × α} {a : α} (e : p = (t, a)) (h : Steady s0 p.1) : Steady s0 t := by
  subst e; exact h

/-- A fold of steady operations. -/
theorem forEach {α : Type} {xs : List α} {f : α → State → State} (h : Steady s0 s)
    (hf : ∀ x t, Steady s0 t → Steady s0 (f x t)) : Steady s0 (Machine.forEach xs f s) := by
  unfold Machine.forEach
  induction xs generalizing s with
  | nil => exact h
  | cons x xs ih => exact ih (hf x s h)

theorem modHwi {f : Hwi → Hwi} (h : Steady s0 s) (hf : f s.hwi = { s.hwi with channels := (f s.hwi).channels }) :
    Steady s0 (s.modHwi f) := h.trans ⟨hf, rfl, rfl, List.prefix_refl _, rfl⟩
theorem modClc {f : Clc → Clc} (h : Steady s0 s) (hf : f s.clc = { s.clc with
    tx := (f s.clc).tx, undelivered := (f s.clc).undelivered, held := (f s.clc).held }) : Steady s0 (s.modClc f) :=
  h.trans ⟨rfl, hf, rfl, List.prefix_refl _, rfl⟩
theorem modCfu {f : Cfu → Cfu} (h : Steady s0 s) (hf : f s.cfu = { s.cfu with
    faults := (f s.cfu).faults, overflow := (f s.cfu).overflow, lostReports := (f s.cfu).lostReports })
    (hg : s.cfu.faults <+: (f s.cfu).faults) : Steady s0 (s.modCfu f) := h.trans ⟨rfl, rfl, hf, hg, rfl⟩
theorem modTcm {f : Tcm → Tcm} (h : Steady s0 s) : Steady s0 (s.modTcm f) := h.trans ⟨rfl, rfl, rfl, List.prefix_refl _, rfl⟩
theorem modMsc {f : Msc → Msc} (h : Steady s0 s) : Steady s0 (s.modMsc f) := h.trans ⟨rfl, rfl, rfl, List.prefix_refl _, rfl⟩
theorem modRau {f : Rau → Rau} (h : Steady s0 s) : Steady s0 (s.modRau f) := h.trans ⟨rfl, rfl, rfl, List.prefix_refl _, rfl⟩
theorem modCtx {f : Context → Context} (h : Steady s0 s) : Steady s0 (s.modCtx k f) := h.trans ⟨rfl, rfl, rfl, List.prefix_refl _, rfl⟩
theorem modVoice {f : Voice → Voice} (h : Steady s0 s) : Steady s0 (s.modVoice k f) := h.trans ⟨rfl, rfl, rfl, List.prefix_refl _, rfl⟩
theorem modVcd {f : Vcd → Vcd} (h : Steady s0 s) : Steady s0 (s.modVcd k f) := h.trans ⟨rfl, rfl, rfl, List.prefix_refl _, rfl⟩
theorem modFax {f : Fax → Fax} (h : Steady s0 s) : Steady s0 (s.modFax k f) := h.trans ⟨rfl, rfl, rfl, List.prefix_refl _, rfl⟩
theorem modQmn {f : Qmn → Qmn} (h : Steady s0 s) : Steady s0 (s.modQmn k f) := h.trans ⟨rfl, rfl, rfl, List.prefix_refl _, rfl⟩
theorem modLkc {f : Lkc → Lkc} (h : Steady s0 s) : Steady s0 (s.modLkc k f) := h.trans ⟨rfl, rfl, rfl, List.prefix_refl _, rfl⟩
theorem modPump {f : Pump → Pump} (h : Steady s0 s) : Steady s0 (s.modPump k f) := h.trans ⟨rfl, rfl, rfl, List.prefix_refl _, rfl⟩
theorem modDetector {f : Detector → Detector} (h : Steady s0 s) : Steady s0 (s.modDetector k f) := h.trans ⟨rfl, rfl, rfl, List.prefix_refl _, rfl⟩
theorem modDgn {f : Dgn → Dgn} (h : Steady s0 s) : Steady s0 (s.modDgn k f) := h.trans ⟨rfl, rfl, rfl, List.prefix_refl _, rfl⟩
theorem modEntry {c : Channel} {f : MapEntry → MapEntry} (h : Steady s0 s) : Steady s0 (s.modEntry c f) := h.trans ⟨rfl, rfl, rfl, List.prefix_refl _, rfl⟩
theorem setBid {b : Option Bid} (h : Steady s0 s) : Steady s0 (s.setBid k b) := h.trans ⟨rfl, rfl, rfl, List.prefix_refl _, rfl⟩
theorem modChannel {c : Channel} {f : HwiChannel → HwiChannel} (h : Steady s0 s) : Steady s0 (s.modChannel c f) :=
  h.trans ⟨rfl, rfl, rfl, List.prefix_refl _, rfl⟩
theorem setOutbound {d : Option OutDeposit} (h : Steady s0 s) : Steady s0 (s.setOutbound k d) := h.trans ⟨rfl, rfl, rfl, List.prefix_refl _, rfl⟩
theorem setFetch {f : Option Fetch} (h : Steady s0 s) : Steady s0 (s.setFetch k f) := h.trans ⟨rfl, rfl, rfl, List.prefix_refl _, rfl⟩
theorem setMsg {i : Handle} {m : Option Msg} (h : Steady s0 s) : Steady s0 (s.setMsg i m) := h.trans ⟨rfl, rfl, rfl, List.prefix_refl _, rfl⟩
theorem setMsgAt {i : Nat} {m : Option Msg} (h : Steady s0 s) : Steady s0 (s.setMsgAt i m) := by
  unfold State.setMsgAt
  split
  · exact h.setMsg
  · exact h

end Steady

end Sys2Proof.Machine
end

