-- ==== Sys2Proof/Laws/SteadyStore.lean ====
section
/-! SUPPORT. What the operations below the commands leave alone. -/
namespace Sys2Proof.Machine

/-! ### Machine/Clc.lean -/

theorem steady_enqueue {s0 s : State} {c : Cell} {serial : Nat} (st : Steady s0 s) :
    Steady s0 (enqueue c serial s) := by
  unfold enqueue
  try dsimp only
  repeat' (first
    | with_reducible assumption | (with_reducible refine Steady.modClc ?_ rfl))

theorem steady_countUndelivered {s0 s : State} (st : Steady s0 s) :
    Steady s0 (countUndelivered s) := by
  unfold countUndelivered
  try dsimp only
  repeat' (first
    | with_reducible assumption | (with_reducible refine Steady.modClc ?_ rfl))

theorem steady_countLostReport {s0 s : State} (st : Steady s0 s) :
    Steady s0 (countLostReport s) := by
  unfold countLostReport
  try dsimp only
  repeat' (first
    | with_reducible assumption | (with_reducible refine Steady.modCfu ?_ rfl (List.prefix_refl _)))

theorem steady_offerReport {s0 s : State} {c : Cell} (st : Steady s0 s) :
    Steady s0 (offerReport c s) := by
  unfold offerReport
  try dsimp only
  repeat' (first
    | with_reducible assumption | with_reducible apply steady_countLostReport | with_reducible apply steady_enqueue
    | (refine Steady.of_eq ‹_ = (_, _)› ?_) | (dsimp only) | split)

theorem steady_offerOther {s0 s : State} {c : Cell} {serial : Nat} {tellTo : Option ContextId} (st : Steady s0 s) :
    Steady s0 (offerOther c serial tellTo s) := by
  unfold offerOther
  try dsimp only
  repeat' (first
    | with_reducible assumption | with_reducible apply steady_countUndelivered
    | with_reducible apply steady_enqueue | with_reducible apply Steady.modRau
    | (refine Steady.of_eq ‹_ = (_, _)› ?_) | (dsimp only) | split)

theorem steady_offerStream {s0 s : State} {p : StreamProducer} {c : Cell} (st : Steady s0 s) :
    Steady s0 (offerStream p c s).1 := by
  unfold offerStream
  try dsimp only
  repeat' (first
    | with_reducible assumption | with_reducible apply steady_enqueue
    | (with_reducible refine Steady.modClc ?_ rfl) | (refine Steady.of_eq ‹_ = (_, _)› ?_) | (dsimp only) | split)

theorem steady_offerClaim {s0 s : State} {c : Channel} {purpose : Direction} (st : Steady s0 s) :
    Steady s0 (offerClaim c purpose s).1 := by
  unfold offerClaim
  try dsimp only
  repeat' (first
    | with_reducible assumption | with_reducible apply steady_enqueue | (refine Steady.of_eq ‹_ = (_, _)› ?_)
    | (dsimp only) | split)

theorem steady_sendEvent {s0 s : State} {k : Option ContextId} {e : Event} (st : Steady s0 s) :
    Steady s0 (sendEvent k e s) := by
  unfold sendEvent
  try dsimp only
  repeat' (first
    | with_reducible assumption | with_reducible apply steady_offerReport)

theorem steady_sendAnswerWith {s0 s : State} {request : Cell} {result : Byte} {third : Byte} {fourth : Byte} (st : Steady s0 s) :
    Steady s0 (sendAnswerWith request result third fourth s) := by
  unfold sendAnswerWith
  try dsimp only
  repeat' (first
    | with_reducible assumption | with_reducible apply steady_offerReport)

theorem steady_sendAnswer {s0 s : State} {request : Cell} {result : Byte} (st : Steady s0 s) :
    Steady s0 (sendAnswer request result s) := by
  unfold sendAnswer
  try dsimp only
  repeat' (first
    | with_reducible assumption | with_reducible apply steady_sendAnswerWith)

theorem steady_sendRelease {s0 s : State} {c : Channel} (st : Steady s0 s) :
    Steady s0 (sendRelease c s) := by
  unfold sendRelease
  try dsimp only
  repeat' (first
    | with_reducible assumption | with_reducible apply steady_offerOther)

theorem steady_sendDispute {s0 s : State} {c : Channel} {p : BitVec 4} (st : Steady s0 s) :
    Steady s0 (sendDispute c p s) := by
  unfold sendDispute
  try dsimp only
  repeat' (first
    | with_reducible assumption | with_reducible apply steady_offerOther)

theorem steady_removeSending {s0 s : State} (st : Steady s0 s) :
    Steady s0 (removeSending s) := by
  unfold removeSending
  try dsimp only
  repeat' (first
    | with_reducible assumption | (with_reducible refine Steady.modClc ?_ rfl))

theorem steady_writeFault {s0 s : State} {kind : FaultKind} {subject : Nat} (st : Steady s0 s) :
    Steady s0 (writeFault kind subject s) := by
  unfold writeFault
  dsimp only
  split
  · exact steady_sendEvent (st.trans ⟨rfl, rfl, rfl, List.prefix_append _ _, rfl⟩)
  · exact st.trans ⟨rfl, rfl, rfl, List.prefix_refl _, rfl⟩

/-! ### Machine/Store.lean -/

theorem steady_examineLevel {s0 s : State} (st : Steady s0 s) :
    Steady s0 (examineLevel s) := by
  unfold examineLevel
  try dsimp only
  repeat' (first
    | with_reducible assumption | with_reducible apply steady_sendEvent | with_reducible apply Steady.modMsc
    | (refine Steady.of_eq ‹_ = (_, _)› ?_) | (dsimp only) | split)

theorem steady_freeBlocks {s0 s : State} {bs : List Nat} (st : Steady s0 s) :
    Steady s0 (freeBlocks bs s) := by
  unfold freeBlocks
  try dsimp only
  repeat' (first
    | with_reducible assumption | with_reducible apply steady_examineLevel | with_reducible apply Steady.modMsc
    | (refine Steady.of_eq ‹_ = (_, _)› ?_) | (dsimp only) | split)

theorem steady_takeFreeBlock {s0 s : State} (st : Steady s0 s) :
    Steady s0 (takeFreeBlock s) := by
  unfold takeFreeBlock
  try dsimp only
  repeat' (first
    | with_reducible assumption | with_reducible apply steady_examineLevel | with_reducible apply Steady.modMsc)

theorem steady_setLink {s0 s : State} {n : Nat} {v : Option Nat} (st : Steady s0 s) : Steady s0 (setLink n v s) :=
  st.modMsc

theorem steady_modMailbox {s0 s : State} {m : Nat} {f : Mbx → Mbx} (st : Steady s0 s) :
    Steady s0 (modMailbox m f s) := by
  unfold modMailbox
  try dsimp only
  repeat' (first
    | with_reducible assumption | with_reducible apply Steady.modMsc)

theorem steady_freeMessage {s0 s : State} {h : Nat} (st : Steady s0 s) :
    Steady s0 (freeMessage h s) := by
  unfold freeMessage
  try dsimp only
  repeat' (first
    | with_reducible assumption | with_reducible apply steady_freeBlocks | with_reducible apply Steady.setMsgAt
    | (refine Steady.of_eq ‹_ = (_, _)› ?_) | (dsimp only) | split)

theorem steady_unlistMessage {s0 s : State} {mailbox : Nat} {h : Nat} (st : Steady s0 s) :
    Steady s0 (unlistMessage mailbox h s) := by
  unfold unlistMessage
  try dsimp only
  repeat' (first
    | with_reducible assumption | with_reducible apply steady_modMailbox)

theorem steady_deleteRecord {s0 s : State} {h : Nat} (st : Steady s0 s) :
    Steady s0 (deleteRecord h s) := by
  unfold deleteRecord
  try dsimp only
  repeat' (first
    | with_reducible assumption
    | with_reducible apply steady_freeMessage | with_reducible apply Steady.setMsgAt
    | (refine Steady.of_eq ‹_ = (_, _)› ?_) | (dsimp only) | split)

theorem steady_deleteMessage {s0 s : State} {h : Nat} (st : Steady s0 s) :
    Steady s0 (deleteMessage h s) := by
  unfold deleteMessage
  try dsimp only
  repeat' (first
    | with_reducible assumption | with_reducible apply steady_deleteRecord | with_reducible apply steady_unlistMessage
    | with_reducible apply steady_freeMessage | with_reducible apply Steady.setMsgAt
    | (refine Steady.of_eq ‹_ = (_, _)› ?_) | (dsimp only) | split)

theorem steady_openForWriting {s0 s : State} {mailbox : Nat} {kind : Option MsgKind} {w : Writer} (st : Steady s0 s) :
    Steady s0 (openForWriting mailbox kind w s).1 := by
  unfold openForWriting
  try dsimp only
  repeat' (first
    | with_reducible assumption | with_reducible apply steady_modMailbox | with_reducible apply Steady.setMsgAt
    | (refine Steady.of_eq ‹_ = (_, _)› ?_) | (dsimp only) | split)

theorem steady_cutChain {s0 s : State} {h : Nat} {n : Nat} (st : Steady s0 s) :
    Steady s0 (cutChain h n s) := by
  unfold cutChain
  try dsimp only
  repeat' (first
    | with_reducible assumption | with_reducible apply steady_setLink | with_reducible apply steady_freeBlocks
    | with_reducible apply Steady.setMsgAt | (refine Steady.of_eq ‹_ = (_, _)› ?_) | (dsimp only) | split)

theorem steady_discardMessage {s0 s : State} {h : Nat} {m : Msg} (st : Steady s0 s) :
    Steady s0 (discardMessage h m s) := by
  unfold discardMessage
  try dsimp only
  repeat' (first
    | with_reducible assumption | with_reducible apply steady_freeMessage | with_reducible apply steady_modMailbox)

theorem steady_fileMessage {s0 s : State} {h : Nat} {m : Msg} (st : Steady s0 s) :
    Steady s0 (fileMessage h m s) := by
  unfold fileMessage
  try dsimp only
  repeat' (first
    | with_reducible assumption | with_reducible apply steady_deleteMessage
    | with_reducible apply steady_modMailbox | (refine Steady.of_eq ‹_ = (_, _)› ?_) | (dsimp only) | split)

theorem steady_closeRecord {s0 s : State} {h : Nat} (st : Steady s0 s) :
    Steady s0 (closeRecord h s) := by
  unfold closeRecord
  try dsimp only
  repeat' (first
    | with_reducible assumption | with_reducible apply Steady.setMsgAt
    | (refine Steady.of_eq ‹_ = (_, _)› ?_) | (dsimp only) | split)

theorem steady_closeMessage {s0 s : State} {h : Nat} {reason : Byte} (st : Steady s0 s) :
    Steady s0 (closeMessage h reason s).1 := by
  unfold closeMessage
  try dsimp only
  repeat' (first
    | with_reducible assumption | with_reducible apply steady_closeRecord | with_reducible apply steady_fileMessage
    | with_reducible apply steady_discardMessage | with_reducible apply steady_cutChain
    | with_reducible apply steady_sendEvent | with_reducible apply Steady.setMsgAt
    | (refine Steady.of_eq ‹_ = (_, _)› ?_) | (dsimp only) | split)

theorem steady_closeBy {s0 s : State} {h : Nat} {w : Writer} {reason : Byte} (st : Steady s0 s) :
    Steady s0 (closeBy h w reason s).1 := by
  unfold closeBy
  try dsimp only
  repeat' (first
    | with_reducible assumption | with_reducible apply steady_closeMessage | (refine Steady.of_eq ‹_ = (_, _)› ?_)
    | (dsimp only) | split)

theorem steady_writeData {s0 s : State} {n : Nat} {block : List Byte} (st : Steady s0 s) :
    Steady s0 (writeData n block s) := by
  unfold writeData
  try dsimp only
  repeat' (first
    | with_reducible assumption | with_reducible apply Steady.modMsc
    | with_reducible apply Steady.setMsgAt | (refine Steady.of_eq ‹_ = (_, _)› ?_) | (dsimp only) | split)

theorem steady_appendBlock {s0 s : State} {h : Nat} {w : Writer} {block : List Byte} {samples : Nat} (st : Steady s0 s) :
    Steady s0 (appendBlock h w block samples s).1 := by
  unfold appendBlock
  try dsimp only
  repeat' (first
    | with_reducible assumption | with_reducible apply steady_writeData | with_reducible apply steady_closeMessage | with_reducible apply steady_setLink
    | with_reducible apply steady_takeFreeBlock | with_reducible apply Steady.modMsc
    | with_reducible apply Steady.setMsgAt | (refine Steady.of_eq ‹_ = (_, _)› ?_) | (dsimp only) | split)

theorem steady_endPage {s0 s : State} {h : Nat} {w : Writer} {damaged : Bool} (st : Steady s0 s) :
    Steady s0 (endPage h w damaged s).1 := by
  unfold endPage
  try dsimp only
  repeat' (first
    | with_reducible assumption | with_reducible apply Steady.setMsgAt | (refine Steady.of_eq ‹_ = (_, _)› ?_)
    | (dsimp only) | split)

theorem steady_rollBack {s0 s : State} {h : Nat} {w : Writer} (st : Steady s0 s) :
    Steady s0 (rollBack h w s).1 := by
  unfold rollBack
  try dsimp only
  repeat' (first
    | with_reducible assumption | with_reducible apply steady_cutChain | (refine Steady.of_eq ‹_ = (_, _)› ?_)
    | (dsimp only) | split)

theorem steady_touchReader {s0 s : State} {h : Nat} {station : Fin 8} {context : Nat} (st : Steady s0 s) :
    Steady s0 (touchReader h station context s) := by
  unfold touchReader
  try dsimp only
  repeat' (first
    | with_reducible assumption | with_reducible apply Steady.setMsgAt | (refine Steady.of_eq ‹_ = (_, _)› ?_)
    | (dsimp only) | split)

theorem steady_readOpenHandle {s0 s : State} {h : Nat} {station : Fin 8} {context : Nat} (st : Steady s0 s) :
    Steady s0 (readOpenHandle h station context s).1 := by
  unfold readOpenHandle
  try dsimp only
  repeat' (first
    | with_reducible assumption | with_reducible apply steady_touchReader | with_reducible apply Steady.setMsgAt
    | (refine Steady.of_eq ‹_ = (_, _)› ?_) | (dsimp only) | split)

theorem steady_readOpen {s0 s : State} {what : PlayTarget} {station : Fin 8} {context : Nat} (st : Steady s0 s) :
    Steady s0 (readOpen what station context s).1 := by
  unfold readOpen
  try dsimp only
  repeat' (first
    | with_reducible assumption | with_reducible apply steady_readOpenHandle
    | (refine Steady.of_eq ‹_ = (_, _)› ?_) | (dsimp only) | split)

theorem steady_readBlockFor {s0 s : State} {h : Nat} {station : Fin 8} {context : Nat} {b : Nat} (st : Steady s0 s) :
    Steady s0 (readBlockFor h station context b s).1 := by
  unfold readBlockFor
  try dsimp only
  repeat' (first
    | with_reducible assumption | with_reducible apply steady_touchReader | (refine Steady.of_eq ‹_ = (_, _)› ?_)
    | (dsimp only) | split)

theorem steady_leaveMessage {s0 s : State} {h : Nat} {station : Fin 8} {context : Nat} (st : Steady s0 s) :
    Steady s0 (leaveMessage h station context s) := by
  unfold leaveMessage
  try dsimp only
  repeat' (first
    | with_reducible assumption | with_reducible apply steady_freeMessage | with_reducible apply Steady.setMsgAt
    | (refine Steady.of_eq ‹_ = (_, _)› ?_) | (dsimp only) | split)

theorem steady_markMessage {s0 s : State} {h : Nat} {mark : Option Mark} (st : Steady s0 s) :
    Steady s0 (markMessage h mark s).1 := by
  unfold markMessage
  try dsimp only
  repeat' (first
    | with_reducible assumption | with_reducible apply steady_deleteMessage | with_reducible apply Steady.setMsgAt
    | (refine Steady.of_eq ‹_ = (_, _)› ?_) | (dsimp only) | split)

theorem steady_scanRecord {s0 s : State} {h : Nat} (st : Steady s0 s) :
    Steady s0 (scanRecord h s) := by
  unfold scanRecord
  try dsimp only
  repeat' (first
    | with_reducible assumption | with_reducible apply steady_writeFault | with_reducible apply Steady.modMsc
    | with_reducible apply Steady.setMsgAt | (refine Steady.of_eq ‹_ = (_, _)› ?_) | (dsimp only) | split)

theorem steady_enterScanning {s0 s : State}  (st : Steady s0 s) : Steady s0 (enterScanning s) :=
  st.modMsc

theorem steady_beginScan {s0 s : State} (st : Steady s0 s) :
    Steady s0 (beginScan s) := by
  unfold beginScan
  try dsimp only
  repeat' (first
    | with_reducible assumption | with_reducible apply steady_enterScanning
    | with_reducible apply steady_scanRecord | (refine Steady.forEach ?_ (fun _ _ _ => ?_)))

theorem steady_finishScan {s0 s : State} (st : Steady s0 s) :
    Steady s0 (finishScan s) := by
  unfold finishScan
  try dsimp only
  repeat' (first
    | with_reducible assumption | with_reducible apply steady_examineLevel | with_reducible apply Steady.modMsc)

/-! ### Machine/Remote.lean -/

theorem steady_newSerial {s0 s : State}  (st : Steady s0 s) : Steady s0 (newSerial s).1 := st.trans ⟨rfl, rfl, rfl, List.prefix_refl _, rfl⟩

theorem steady_releaseHeld {s0 s : State} {p : StreamProducer} (st : Steady s0 s) :
    Steady s0 (releaseHeld p s) := by
  unfold releaseHeld
  try dsimp only
  repeat' (first
    | with_reducible assumption | (with_reducible refine Steady.modClc ?_ rfl))

theorem steady_startDeposit {s0 s : State} {k : ContextId} {home : Nat} {mailbox : Nat} {kind : MsgKind} (st : Steady s0 s) :
    Steady s0 (startDeposit k home mailbox kind s).1 := by
  unfold startDeposit
  try dsimp only
  repeat' (first
    | with_reducible assumption | with_reducible apply steady_newSerial | with_reducible apply steady_offerOther
    | with_reducible apply Steady.setOutbound)

theorem steady_offerFirst {s0 s t : State} {k : ContextId} {d : OutDeposit} {cells : List Cell} (st : Steady s0 s)
    (e : depositMove.offerFirst k s d cells = some t) : Steady s0 t := by
  unfold depositMove.offerFirst at e
  split at e
  · cases e
  · split at e
    · cases e
    · dsimp only at e
      split at e
      · cases e
        exact (steady_offerStream st).setOutbound
      · cases e
        exact steady_offerStream st

theorem steady_depositMove {s0 s t : State} {k : ContextId} (st : Steady s0 s) (e : depositMove k s = some t) :
    Steady s0 t := by
  unfold depositMove at e
  repeat' split at e
  all_goals first
    | cases e; done
    | exact steady_offerFirst st e
    | (cases e; exact st.setOutbound)
    | (cases e; exact steady_offerOther st.setOutbound)

theorem steady_depositMoves {s0 s : State} {k : ContextId} {n : Nat} (st : Steady s0 s) :
    Steady s0 (depositMoves k n s) := by
  induction n generalizing s with
  | zero => exact st
  | succ n ih =>
    unfold depositMoves
    split
    · next e => exact ih (steady_depositMove st e)
    · exact st

theorem steady_pumpDeposit {s0 s : State} {k : ContextId} (st : Steady s0 s) :
    Steady s0 (pumpDeposit k s) := by
  unfold pumpDeposit
  try dsimp only
  repeat' (first
    | with_reducible assumption | with_reducible apply steady_depositMoves)

theorem steady_handToDeposit {s0 s : State} {k : ContextId} {serial : Nat} {sequence : Option Nat} {block : List Byte} {pageEnd : Bool} {damaged : Bool} (st : Steady s0 s) :
    Steady s0 (handToDeposit k serial sequence block pageEnd damaged s) := by
  unfold handToDeposit
  try dsimp only
  repeat' (first
    | with_reducible assumption | with_reducible apply steady_pumpDeposit | with_reducible apply Steady.setOutbound
    | (refine Steady.of_eq ‹_ = (_, _)› ?_) | (dsimp only) | split)

theorem steady_askRollback {s0 s : State} {k : ContextId} {serial : Nat} {page : Nat} (st : Steady s0 s) :
    Steady s0 (askRollback k serial page s) := by
  unfold askRollback
  try dsimp only
  repeat' (first
    | with_reducible assumption | with_reducible apply steady_pumpDeposit | with_reducible apply Steady.setOutbound
    | (refine Steady.of_eq ‹_ = (_, _)› ?_) | (dsimp only) | split)

theorem steady_askClose {s0 s : State} {k : ContextId} {serial : Nat} {ask : CloseAsk} (st : Steady s0 s) :
    Steady s0 (askClose k serial ask s) := by
  unfold askClose
  try dsimp only
  repeat' (first
    | with_reducible assumption | with_reducible apply steady_pumpDeposit | with_reducible apply Steady.setOutbound
    | (refine Steady.of_eq ‹_ = (_, _)› ?_) | (dsimp only) | split)

theorem steady_freeDeposit {s0 s : State} {k : ContextId} (st : Steady s0 s) :
    Steady s0 (freeDeposit k s) := by
  unfold freeDeposit
  try dsimp only
  repeat' (first
    | with_reducible assumption | with_reducible apply steady_releaseHeld | with_reducible apply Steady.setOutbound)

theorem steady_takeAccept {s0 s : State} {k : Option ContextId} {c : Cell} (st : Steady s0 s) :
    Steady s0 (takeAccept k c s) := by
  unfold takeAccept
  try dsimp only
  repeat' (first
    | with_reducible assumption | with_reducible apply steady_pumpDeposit | with_reducible apply steady_offerOther
    | with_reducible apply Steady.setOutbound | (refine Steady.of_eq ‹_ = (_, _)› ?_) | (dsimp only) | split)

theorem steady_takeBlockTaken {s0 s : State} {k : ContextId} {c : Cell} (st : Steady s0 s) :
    Steady s0 (takeBlockTaken k c s) := by
  unfold takeBlockTaken
  try dsimp only
  repeat' (first
    | with_reducible assumption | with_reducible apply steady_pumpDeposit | with_reducible apply Steady.setOutbound
    | (refine Steady.of_eq ‹_ = (_, _)› ?_) | (dsimp only) | split)

theorem steady_sendForFetch {s0 s : State} {k : ContextId} {c : Cell} {serial : Nat} {tell : Bool} (st : Steady s0 s) :
    Steady s0 (sendForFetch k c serial tell s) := by
  unfold sendForFetch
  try dsimp only
  repeat' (first
    | with_reducible assumption | with_reducible apply steady_offerOther | with_reducible apply Steady.setFetch
    | (refine Steady.of_eq ‹_ = (_, _)› ?_) | (dsimp only) | split)

theorem steady_startFetch {s0 s : State} {k : ContextId} {home : Nat} {handle : Option Nat} {mailbox : Option Nat} (st : Steady s0 s) :
    Steady s0 (startFetch k home handle mailbox s) := by
  unfold startFetch
  try dsimp only
  repeat' (first
    | with_reducible assumption | with_reducible apply steady_sendForFetch | with_reducible apply steady_newSerial
    | with_reducible apply Steady.setFetch)

theorem steady_endFetch {s0 s : State} {k : ContextId} (st : Steady s0 s) :
    Steady s0 (endFetch k s) := by
  unfold endFetch
  try dsimp only
  repeat' (first
    | with_reducible assumption | with_reducible apply steady_offerOther | with_reducible apply Steady.setFetch
    | (refine Steady.of_eq ‹_ = (_, _)› ?_) | (dsimp only) | split)

theorem steady_fetchAsk {s0 s : State} {k : ContextId} {index : Nat} (st : Steady s0 s) :
    Steady s0 (fetchAsk k index s) := by
  unfold fetchAsk
  try dsimp only
  repeat' (first
    | with_reducible assumption | with_reducible apply steady_sendForFetch | with_reducible apply Steady.setFetch
    | (refine Steady.of_eq ‹_ = (_, _)› ?_) | (dsimp only) | split)

theorem steady_fetchSettle {s0 s : State} {k : ContextId} {index : Nat} (st : Steady s0 s) :
    Steady s0 (fetchSettle k index s) := by
  unfold fetchSettle
  try dsimp only
  repeat' (first
    | with_reducible assumption | with_reducible apply Steady.setFetch | (refine Steady.of_eq ‹_ = (_, _)› ?_)
    | (dsimp only) | split)

theorem steady_fetchHeard {s0 s : State} {k : ContextId} (st : Steady s0 s) :
    Steady s0 (fetchHeard k s) := by
  unfold fetchHeard
  try dsimp only
  repeat' (first
    | with_reducible assumption | with_reducible apply Steady.setFetch | (refine Steady.of_eq ‹_ = (_, _)› ?_)
    | (dsimp only) | split)

theorem steady_openFetch {s0 s : State} {k : ContextId} {handle : Nat} (st : Steady s0 s) :
    Steady s0 (openFetch k handle s) := by
  unfold openFetch
  try dsimp only
  repeat' (first
    | with_reducible assumption | with_reducible apply Steady.setFetch | (refine Steady.of_eq ‹_ = (_, _)› ?_)
    | (dsimp only) | split)

theorem steady_modDeposit {s0 s : State} {h : Nat} {f : DepositEntry → DepositEntry} (st : Steady s0 s) :
    Steady s0 (modDeposit h f s) := by
  unfold modDeposit
  try dsimp only
  repeat' (first
    | with_reducible assumption | with_reducible apply Steady.modRau)

theorem steady_removeDeposit {s0 s : State} {h : Nat} (st : Steady s0 s) : Steady s0 (removeDeposit h s) :=
  st.modRau

theorem steady_heardDepositor {s0 s : State} {h : Nat} (st : Steady s0 s) :
    Steady s0 (heardDepositor h s) := by
  unfold heardDepositor
  try dsimp only
  repeat' (first
    | with_reducible assumption | with_reducible apply steady_modDeposit)

theorem steady_toDepositor {s0 s : State} {e : DepositEntry} {kind : Byte} {payload : List Byte} (st : Steady s0 s) :
    Steady s0 (toDepositor e kind payload s) := by
  unfold toDepositor
  try dsimp only
  repeat' (first
    | with_reducible assumption | with_reducible apply steady_offerOther)

theorem steady_sendDepositRefuse {s0 s : State} {dst : BitVec 4} {tag : Byte} {cause : Byte} {handle : Option Nat} (st : Steady s0 s) :
    Steady s0 (sendDepositRefuse dst tag cause handle s) := by
  unfold sendDepositRefuse
  try dsimp only
  repeat' (first
    | with_reducible assumption | with_reducible apply steady_offerOther)

theorem steady_writeDeposited {s0 s : State} {h : Nat} {block : List Byte} {damaged : Bool} (st : Steady s0 s) :
    Steady s0 (writeDeposited h block damaged s) := by
  unfold writeDeposited
  try dsimp only
  repeat' (first
    | with_reducible assumption | with_reducible apply steady_sendDepositRefuse
    | with_reducible apply steady_toDepositor | with_reducible apply steady_removeDeposit
    | with_reducible apply steady_modDeposit | with_reducible apply steady_endPage
    | with_reducible apply steady_appendBlock | (refine Steady.of_eq ‹_ = (_, _)› ?_) | (dsimp only) | split)

theorem steady_writeAssembly {s0 s : State} {h : Nat} (st : Steady s0 s) :
    Steady s0 (writeAssembly h s) := by
  unfold writeAssembly
  try dsimp only
  repeat' (first
    | with_reducible assumption | with_reducible apply steady_writeDeposited
    | (refine Steady.of_eq ‹_ = (_, _)› ?_) | (dsimp only) | split)

theorem steady_writeGaps {s0 s : State} {h n : Nat} (st : Steady s0 s) : Steady s0 (writeGaps h n s) := by
  induction n generalizing s with
  | zero => exact st
  | succ n ih =>
    unfold writeGaps
    split
    · exact st
    · exact ih (steady_writeDeposited st)

theorem steady_closeEntry {s0 s : State} {h : Nat} {reason : Byte} {tell : Bool} (st : Steady s0 s) :
    Steady s0 (closeEntry h reason tell s) := by
  unfold closeEntry
  try dsimp only
  repeat' (first
    | with_reducible assumption | with_reducible apply steady_toDepositor
    | with_reducible apply steady_removeDeposit | with_reducible apply steady_closeBy
    | (refine Steady.of_eq ‹_ = (_, _)› ?_) | (dsimp only) | split)

theorem steady_silenceClose {s0 s : State} {h : Nat} {tell : Bool} (st : Steady s0 s) :
    Steady s0 (silenceClose h tell s) := by
  unfold silenceClose
  try dsimp only
  repeat' (first
    | with_reducible assumption | with_reducible apply steady_closeEntry
    | with_reducible apply steady_writeAssembly)

theorem steady_takeDepositOpen {s0 s : State} {station : Fin 8} {c : Cell} (st : Steady s0 s) :
    Steady s0 (takeDepositOpen station c s) := by
  unfold takeDepositOpen
  try dsimp only
  repeat' (first
    | with_reducible assumption | with_reducible apply steady_silenceClose
    | with_reducible apply steady_sendDepositRefuse | with_reducible apply steady_toDepositor
    | with_reducible apply steady_openForWriting | with_reducible apply Steady.modRau
    | (refine Steady.of_eq ‹_ = (_, _)› ?_) | (dsimp only) | split)

theorem steady_placePart {s0 s : State} {h : Nat} {partNo : Nat} {pageEnd : Bool} {damaged : Bool} {bytes : List Byte} (st : Steady s0 s) :
    Steady s0 (placePart h partNo pageEnd damaged bytes s) := by
  unfold placePart
  try dsimp only
  repeat' (first
    | with_reducible assumption | with_reducible apply steady_writeAssembly
    | with_reducible apply steady_modDeposit | (refine Steady.of_eq ‹_ = (_, _)› ?_) | (dsimp only) | split)

theorem steady_takeDepositData {s0 s : State} {station : Fin 8} {c : Cell} (st : Steady s0 s) :
    Steady s0 (takeDepositData station c s) := by
  unfold takeDepositData
  try dsimp only
  repeat' (first
    | with_reducible assumption | with_reducible apply steady_placePart | with_reducible apply steady_closeEntry
    | with_reducible apply steady_writeGaps | with_reducible apply steady_writeAssembly
    | with_reducible apply steady_heardDepositor | (refine Steady.of_eq ‹_ = (_, _)› ?_) | (dsimp only) | split)

theorem steady_takeRollback {s0 s : State} {station : Fin 8} {c : Cell} (st : Steady s0 s) :
    Steady s0 (takeRollback station c s) := by
  unfold takeRollback
  try dsimp only
  repeat' (first
    | with_reducible assumption | with_reducible apply steady_writeAssembly
    | with_reducible apply steady_heardDepositor | with_reducible apply steady_rollBack
    | (refine Steady.of_eq ‹_ = (_, _)› ?_) | (dsimp only) | split)

theorem steady_setLastSamples {s0 s : State} {h : Nat} {lastSequence : Nat} {samples : Nat} (st : Steady s0 s) :
    Steady s0 (setLastSamples h lastSequence samples s) := by
  unfold setLastSamples
  try dsimp only
  repeat' (first
    | with_reducible assumption | with_reducible apply Steady.setMsgAt | (refine Steady.of_eq ‹_ = (_, _)› ?_)
    | (dsimp only) | split)

theorem steady_takeDepositClose {s0 s : State} {station : Fin 8} {c : Cell} (st : Steady s0 s) :
    Steady s0 (takeDepositClose station c s) := by
  unfold takeDepositClose
  try dsimp only
  repeat' (first
    | with_reducible assumption | with_reducible apply steady_setLastSamples
    | with_reducible apply steady_closeEntry | with_reducible apply steady_writeAssembly
    | with_reducible apply steady_sendDepositRefuse | with_reducible apply steady_heardDepositor
    | (refine Steady.of_eq ‹_ = (_, _)› ?_) | (dsimp only) | split)

theorem steady_sendFetchRefuse {s0 s : State} {c : Cell} {cause : Byte} {handle : Nat} (st : Steady s0 s) :
    Steady s0 (sendFetchRefuse c cause handle s) := by
  unfold sendFetchRefuse
  try dsimp only
  repeat' (first
    | with_reducible assumption | with_reducible apply steady_offerOther)

theorem steady_takeFetchOpen {s0 s : State} {station : Fin 8} {c : Cell} (st : Steady s0 s) :
    Steady s0 (takeFetchOpen station c s) := by
  unfold takeFetchOpen
  try dsimp only
  repeat' (first
    | with_reducible assumption | with_reducible apply steady_sendFetchRefuse
    | with_reducible apply steady_readOpen | with_reducible apply steady_offerOther
    | (refine Steady.of_eq ‹_ = (_, _)› ?_) | (dsimp only) | split)

theorem steady_fetchMove {s0 s t : State} (st : Steady s0 s) (e : fetchMove s = some t) : Steady s0 t := by
  unfold fetchMove at e
  split at e
  · cases e
  · split at e
    · cases e
    · dsimp only at e
      split at e <;> cases e
      · exact (steady_offerStream st).modRau
      · exact steady_offerStream st

theorem steady_fetchMoves {s0 s : State} {n : Nat} (st : Steady s0 s) : Steady s0 (fetchMoves n s) := by
  induction n generalizing s with
  | zero => exact st
  | succ n ih =>
    unfold fetchMoves
    split
    · next e => exact ih (steady_fetchMove st e)
    · exact st

theorem steady_pumpFetchData {s0 s : State} (st : Steady s0 s) :
    Steady s0 (pumpFetchData s) := by
  unfold pumpFetchData
  try dsimp only
  repeat' (first
    | with_reducible assumption | with_reducible apply steady_fetchMoves)

theorem steady_dropPending {s0 s : State} {keep : PendingBlock → Bool} (st : Steady s0 s) :
    Steady s0 (dropPending keep s) := by
  unfold dropPending
  try dsimp only
  repeat' (first
    | with_reducible assumption | with_reducible apply steady_pumpFetchData
    | with_reducible apply steady_releaseHeld | with_reducible apply Steady.modRau
    | (refine Steady.of_eq ‹_ = (_, _)› ?_) | (dsimp only) | split)

theorem steady_makeRoomFor {s0 s : State} {station : Fin 8} {context : Nat} (st : Steady s0 s) :
    Steady s0 (makeRoomFor station context s) := by
  unfold makeRoomFor
  try dsimp only
  repeat' (first
    | with_reducible assumption | with_reducible apply steady_releaseHeld | with_reducible apply Steady.modRau
    | (refine Steady.of_eq ‹_ = (_, _)› ?_) | (dsimp only) | split)

theorem steady_takeFetchBlock {s0 s : State} {station : Fin 8} {c : Cell} (st : Steady s0 s) :
    Steady s0 (takeFetchBlock station c s) := by
  unfold takeFetchBlock
  try dsimp only
  repeat' (first
    | with_reducible assumption | with_reducible apply steady_makeRoomFor
    | with_reducible apply steady_pumpFetchData | with_reducible apply steady_sendFetchRefuse
    | with_reducible apply steady_readBlockFor | with_reducible apply Steady.modRau
    | (refine Steady.of_eq ‹_ = (_, _)› ?_) | (dsimp only) | split)

theorem steady_dropReader {s0 s : State} {h : Nat} {station : Fin 8} {context : Nat} (st : Steady s0 s) :
    Steady s0 (dropReader h station context s) := by
  unfold dropReader
  try dsimp only
  repeat' (first
    | with_reducible assumption | with_reducible apply steady_dropPending
    | with_reducible apply steady_leaveMessage)

theorem steady_sendMailboxList {s0 s : State} {request : Cell} {b : Mbx} (st : Steady s0 s) :
    Steady s0 (sendMailboxList request b s) := by
  unfold sendMailboxList
  try dsimp only
  repeat' (first
    | with_reducible assumption | with_reducible apply steady_offerOther
    | (refine Steady.forEach ?_ (fun _ _ _ => ?_)))

/-! ### Machine/Codec.lean -/

theorem steady_askBlock {s0 s : State} {k : ContextId} {source : Source} {index : Nat} (st : Steady s0 s) :
    Steady s0 (askBlock k source index s).1 := by
  unfold askBlock
  try dsimp only
  repeat' (first
    | with_reducible assumption | with_reducible apply steady_fetchAsk | with_reducible apply steady_readBlockFor
    | (refine Steady.of_eq ‹_ = (_, _)› ?_) | (dsimp only) | split)

theorem steady_askNext {s0 s : State} {k : ContextId} {source : Source} {blocks : Nat} {needed : Nat} {b : Buffer} (st : Steady s0 s) :
    Steady s0 (askNext k source blocks needed b s).1 := by
  unfold askNext
  try dsimp only
  repeat' (first
    | with_reducible assumption | with_reducible apply steady_askBlock | (refine Steady.of_eq ‹_ = (_, _)› ?_)
    | (dsimp only) | split)

theorem steady_fillBuffer {s0 s : State} {k : ContextId} {source : Source} {blocks : Nat} {needed : Nat} {b : Buffer} (st : Steady s0 s) :
    Steady s0 (fillBuffer k source blocks needed b s).1 := by
  unfold fillBuffer
  try dsimp only
  repeat' (first
    | with_reducible assumption | with_reducible apply steady_askNext)

end Sys2Proof.Machine
end

