-- ==== Sys2Proof/Laws/SteadyCall.lean ====
section
/-! SUPPORT. What the operations below the commands leave alone. -/
namespace Sys2Proof.Machine

/-! ### Machine/Session.lean -/

theorem steady_leaveSource {s0 s : State} {k : ContextId} {source : Option Source} (st : Steady s0 s) :
    Steady s0 (leaveSource k source s) := by
  unfold leaveSource
  try dsimp only
  repeat' (first
    | with_reducible assumption | with_reducible apply steady_endFetch | with_reducible apply steady_leaveMessage
    | (refine Steady.of_eq ‹_ = (_, _)› ?_) | (dsimp only) | split)

theorem steady_stopPlayback {s0 s : State} {k : ContextId} (st : Steady s0 s) :
    Steady s0 (stopPlayback k s) := by
  unfold stopPlayback
  try dsimp only
  repeat' (first
    | with_reducible assumption | with_reducible apply steady_leaveSource | with_reducible apply Steady.modVcd)

theorem steady_sendPlayDone {s0 s : State} {k : ContextId} {result : Byte} (st : Steady s0 s) :
    Steady s0 (sendPlayDone k result s) := by
  unfold sendPlayDone
  try dsimp only
  repeat' (first
    | with_reducible assumption | with_reducible apply steady_sendEvent)

theorem steady_sendRecordDone {s0 s : State} {k : ContextId} {home : Nat} {handle : Option Nat} {blocks : Option Nat} {result : Byte} {flags : Option Nat} (st : Steady s0 s) :
    Steady s0 (sendRecordDone k home handle blocks result flags s) := by
  unfold sendRecordDone
  try dsimp only
  repeat' (first
    | with_reducible assumption | with_reducible apply steady_sendEvent)

theorem steady_reportClose {s0 s : State} {k : ContextId} {h : Nat} {result : Byte} {r : CloseReport} (st : Steady s0 s) :
    Steady s0 (reportClose k h result r s) := by
  unfold reportClose
  try dsimp only
  repeat' (first
    | with_reducible assumption | with_reducible apply steady_sendRecordDone)

theorem steady_handOn {s0 s : State} {k : ContextId} {f : Finished} (st : Steady s0 s) :
    Steady s0 (handOn k f s).1 := by
  unfold handOn
  try dsimp only
  repeat' (first
    | with_reducible assumption | with_reducible apply steady_handToDeposit
    | with_reducible apply steady_appendBlock | with_reducible apply Steady.modVoice
    | (refine Steady.of_eq ‹_ = (_, _)› ?_) | (dsimp only) | split)

theorem steady_dropRecording {s0 s : State} {k : ContextId} (st : Steady s0 s) :
    Steady s0 (dropRecording k s) := by
  unfold dropRecording
  try dsimp only
  repeat' (first
    | with_reducible assumption | with_reducible apply Steady.modVoice | with_reducible apply Steady.modVcd)

theorem steady_abandonRecording {s0 s : State} {k : ContextId} (st : Steady s0 s) :
    Steady s0 (abandonRecording k s) := by
  unfold abandonRecording
  try dsimp only
  repeat' (first
    | with_reducible assumption | with_reducible apply steady_dropRecording | with_reducible apply Steady.modVoice
    | with_reducible apply Steady.modVcd | (dsimp only) | split)

theorem steady_closeRecording {s0 s : State} {k : ContextId} {reason : Byte} {last : Option (Nat × Nat)} (st : Steady s0 s) :
    Steady s0 (closeRecording k reason last s) := by
  unfold closeRecording
  try dsimp only
  repeat' (first
    | with_reducible assumption | with_reducible apply steady_reportClose
    | with_reducible apply steady_sendRecordDone | with_reducible apply steady_askClose
    | with_reducible apply steady_closeBy | (refine Steady.of_eq ‹_ = (_, _)› ?_) | (dsimp only) | split)

theorem steady_finishRecording {s0 s : State} {k : ContextId} {reason : Byte} (st : Steady s0 s) :
    Steady s0 (finishRecording k reason s) := by
  unfold finishRecording
  try dsimp only
  repeat' (first
    | with_reducible assumption | with_reducible apply steady_closeRecording
    | with_reducible apply steady_dropRecording | with_reducible apply steady_handOn
    | with_reducible apply steady_reportClose | with_reducible apply Steady.modVcd
    | (refine Steady.of_eq ‹_ = (_, _)› ?_) | (dsimp only) | split)

theorem steady_closeFaxTarget {s0 s : State} {k : ContextId} {reason : Byte} (st : Steady s0 s) :
    Steady s0 (closeFaxTarget k reason s) := by
  unfold closeFaxTarget
  try dsimp only
  repeat' (first
    | with_reducible assumption | with_reducible apply steady_askClose | with_reducible apply steady_closeBy
    | with_reducible apply Steady.modFax | (refine Steady.of_eq ‹_ = (_, _)› ?_) | (dsimp only) | split)

theorem steady_leaveFaxSource {s0 s : State} {k : ContextId} (st : Steady s0 s) :
    Steady s0 (leaveFaxSource k s) := by
  unfold leaveFaxSource
  try dsimp only
  repeat' (first
    | with_reducible assumption | with_reducible apply steady_leaveSource | with_reducible apply Steady.modFax
    | (refine Steady.of_eq ‹_ = (_, _)› ?_) | (dsimp only) | split)

theorem steady_sendFaxDone {s0 s : State} {k : ContextId} {result : Byte} (st : Steady s0 s) :
    Steady s0 (sendFaxDone k result s) := by
  unfold sendFaxDone
  try dsimp only
  repeat' (first
    | with_reducible assumption | with_reducible apply steady_sendEvent)

theorem steady_clearFax {s0 s : State} {k : ContextId} (st : Steady s0 s) :
    Steady s0 (clearFax k s) := by
  unfold clearFax
  try dsimp only
  repeat' (first
    | with_reducible assumption | with_reducible apply Steady.modFax | with_reducible apply Steady.modPump)

theorem steady_windDownFax {s0 s : State} {k : ContextId} {cause : Byte} (st : Steady s0 s) :
    Steady s0 (windDownFax k cause s) := by
  unfold windDownFax
  try dsimp only
  repeat' (first
    | with_reducible assumption | with_reducible apply steady_clearFax | with_reducible apply steady_sendFaxDone
    | with_reducible apply steady_leaveFaxSource | with_reducible apply steady_closeFaxTarget)

theorem steady_stopData {s0 s : State} {k : ContextId} (st : Steady s0 s) :
    Steady s0 (stopData k s) := by
  unfold stopData
  try dsimp only
  repeat' (first
    | with_reducible assumption | with_reducible apply steady_releaseHeld | with_reducible apply Steady.modQmn
    | with_reducible apply Steady.modLkc | with_reducible apply Steady.modPump)

theorem steady_windDownVoice {s0 s : State} {k : ContextId} {cause : Byte} (st : Steady s0 s) :
    Steady s0 (windDownVoice k cause s) := by
  unfold windDownVoice
  try dsimp only
  repeat' (first
    | with_reducible assumption | with_reducible apply steady_finishRecording
    | with_reducible apply steady_sendPlayDone | with_reducible apply steady_stopPlayback
    | (refine Steady.of_eq ‹_ = (_, _)› ?_) | (dsimp only) | split)

theorem steady_stopGreeting {s0 s : State} {k : ContextId} (st : Steady s0 s) :
    Steady s0 (stopGreeting k s) := by
  unfold stopGreeting
  try dsimp only
  repeat' (first
    | with_reducible assumption | with_reducible apply steady_stopPlayback | (refine Steady.of_eq ‹_ = (_, _)› ?_)
    | (dsimp only) | split)

theorem steady_windDown {s0 s : State} {k : ContextId} {cause : Byte} (st : Steady s0 s) :
    Steady s0 (windDown k cause s) := by
  unfold windDown
  try dsimp only
  repeat' (first
    | with_reducible assumption | with_reducible apply steady_stopGreeting
    | with_reducible apply steady_windDownVoice | with_reducible apply steady_stopData
    | with_reducible apply steady_windDownFax | (refine Steady.of_eq ‹_ = (_, _)› ?_) | (dsimp only) | split)

/-! ### Machine/Call.lean -/

theorem steady_setView {s0 s : State} {c : Channel} {v : View} {timer : Option Nat} (st : Steady s0 s) :
    Steady s0 (setView c v timer s) := by
  unfold setView
  try dsimp only
  repeat' (first
    | with_reducible assumption | with_reducible apply Steady.modEntry)

theorem steady_endDrive {s0 s : State} {c : Channel} (st : Steady s0 s) : Steady s0 (endDrive c s) :=
  st.modChannel

theorem steady_enableDrive {s0 s : State} {c : Channel} (st : Steady s0 s) :
    Steady s0 (enableDrive c s) := by
  unfold enableDrive
  try dsimp only
  repeat' (first
    | with_reducible assumption | with_reducible apply Steady.modChannel)

theorem steady_freeContext {s0 s : State} {k : ContextId} (st : Steady s0 s) :
    Steady s0 (freeContext k s) := by
  unfold freeContext
  try dsimp only
  repeat' (first
    | with_reducible assumption | with_reducible apply steady_releaseHeld | with_reducible apply Steady.modCtx)

theorem steady_setTimer {s0 s : State} {k : ContextId} {t : Option Nat} (st : Steady s0 s) :
    Steady s0 (setTimer k t s) :=
  st.modCtx

theorem steady_enterClearing {s0 s : State} {k : ContextId} (st : Steady s0 s) :
    Steady s0 (enterClearing k s) := by
  unfold enterClearing
  try dsimp only
  repeat' (first
    | with_reducible assumption | with_reducible apply steady_sendRelease | with_reducible apply Steady.modCtx
    | (refine Steady.of_eq ‹_ = (_, _)› ?_) | (dsimp only) | split)

theorem steady_letGo {s0 s : State} {k : ContextId} {c : Channel} (st : Steady s0 s) :
    Steady s0 (letGo k c s) := by
  unfold letGo
  try dsimp only
  repeat' (first
    | with_reducible assumption | with_reducible apply steady_freeContext | with_reducible apply steady_endDrive
    | with_reducible apply steady_setView | (refine Steady.of_eq ‹_ = (_, _)› ?_) | (dsimp only) | split)

theorem steady_announceUnknown {s0 s : State} {k : ContextId} (st : Steady s0 s) :
    Steady s0 (announceUnknown k s) := by
  unfold announceUnknown
  try dsimp only
  repeat' (first
    | with_reducible assumption | with_reducible apply steady_sendEvent | with_reducible apply Steady.modCtx
    | (refine Steady.of_eq ‹_ = (_, _)› ?_) | (dsimp only) | split)

theorem steady_outdialDone {s0 s : State} {k : ContextId} {result : Byte} (st : Steady s0 s) :
    Steady s0 (outdialDone k result s) := by
  unfold outdialDone
  try dsimp only
  repeat' (first
    | with_reducible assumption | with_reducible apply steady_sendEvent | with_reducible apply Steady.modCtx
    | (refine Steady.of_eq ‹_ = (_, _)› ?_) | (dsimp only) | split)

theorem steady_leaveChannel {s0 s : State} {k : ContextId} {cause : Byte} (st : Steady s0 s) :
    Steady s0 (leaveChannel k cause s) := by
  unfold leaveChannel
  try dsimp only
  repeat' (first
    | with_reducible assumption | with_reducible apply steady_enterClearing
    | with_reducible apply steady_freeContext | with_reducible apply steady_endDrive
    | with_reducible apply steady_setView | with_reducible apply steady_sendRelease
    | (refine Steady.of_eq ‹_ = (_, _)› ?_) | (dsimp only) | split)

theorem steady_endCall {s0 s : State} {k : ContextId} {cause : Byte} (st : Steady s0 s) :
    Steady s0 (endCall k cause s) := by
  unfold endCall
  try dsimp only
  repeat' (first
    | with_reducible assumption | with_reducible apply steady_leaveChannel
    | with_reducible apply steady_outdialDone | with_reducible apply steady_announceUnknown
    | with_reducible apply steady_windDown | with_reducible apply steady_sendEvent
    | (refine Steady.of_eq ‹_ = (_, _)› ?_) | (dsimp only) | split)

/-! ### Machine/Voice.lean -/

theorem steady_enterWaiting {s0 s : State} {k : ContextId} (st : Steady s0 s) : Steady s0 (enterWaiting k s) :=
  st.modVoice

theorem steady_recordingOver {s0 s : State} {k : ContextId} (st : Steady s0 s) :
    Steady s0 (recordingOver k s) := by
  unfold recordingOver
  try dsimp only
  repeat' (first
    | with_reducible assumption | with_reducible apply steady_enterWaiting | with_reducible apply steady_endCall
    | (refine Steady.of_eq ‹_ = (_, _)› ?_) | (dsimp only) | split)

theorem steady_beginDeposit {s0 s : State} {k : ContextId} (st : Steady s0 s) :
    Steady s0 (beginDeposit k s) := by
  unfold beginDeposit
  try dsimp only
  repeat' (first
    | with_reducible assumption | with_reducible apply steady_startDeposit | with_reducible apply Steady.modVoice
    | with_reducible apply Steady.modVcd)

theorem steady_startRecording {s0 s : State} {k : ContextId} {mailbox : Nat} {kind : MsgKind} {maxBlocks : Nat} (st : Steady s0 s) :
    Steady s0 (startRecording k mailbox kind maxBlocks s) := by
  unfold startRecording
  try dsimp only
  repeat' (first
    | with_reducible assumption | with_reducible apply steady_beginDeposit
    | with_reducible apply steady_recordingOver | with_reducible apply steady_abandonRecording | with_reducible apply steady_dropRecording
    | with_reducible apply steady_sendRecordDone | with_reducible apply steady_openForWriting
    | with_reducible apply Steady.modVoice | with_reducible apply Steady.modVcd
    | (refine Steady.of_eq ‹_ = (_, _)› ?_) | (dsimp only) | split)

theorem steady_encodeFrame {s0 s : State} {k : ContextId} {sample : Byte} (st : Steady s0 s) :
    Steady s0 (encodeFrame k sample s) := by
  unfold encodeFrame
  try dsimp only
  repeat' (first
    | with_reducible assumption | with_reducible apply steady_recordingOver
    | with_reducible apply steady_finishRecording | with_reducible apply steady_dropRecording
    | with_reducible apply steady_handOn | with_reducible apply steady_reportClose
    | with_reducible apply Steady.modVcd | (refine Steady.of_eq ‹_ = (_, _)› ?_) | (dsimp only) | split)

theorem steady_reportDeposit {s0 s : State} {k : ContextId} {d : OutDeposit} {o : DepositOutcome} (st : Steady s0 s) :
    Steady s0 (reportDeposit k d o s) := by
  unfold reportDeposit
  try dsimp only
  repeat' (first
    | with_reducible assumption | with_reducible apply steady_sendRecordDone
    | (refine Steady.of_eq ‹_ = (_, _)› ?_) | (dsimp only) | split)

theorem steady_recordingDepositEnded {s0 s : State} {k : ContextId} {d : OutDeposit} {o : DepositOutcome} (st : Steady s0 s) :
    Steady s0 (recordingDepositEnded k d o s) := by
  unfold recordingDepositEnded
  try dsimp only
  repeat' (first
    | with_reducible assumption | with_reducible apply steady_reportDeposit
    | with_reducible apply steady_recordingOver | with_reducible apply steady_abandonRecording | with_reducible apply steady_dropRecording
    | (refine Steady.of_eq ‹_ = (_, _)› ?_) | (dsimp only) | split)

theorem steady_startBeep {s0 s : State} {k : ContextId} (st : Steady s0 s) : Steady s0 (startBeep k s) :=
  st.modVoice.modCtx

theorem steady_playbackOver {s0 s : State} {k : ContextId} {result : Byte} (st : Steady s0 s) :
    Steady s0 (playbackOver k result s) := by
  unfold playbackOver
  try dsimp only
  repeat' (first
    | with_reducible assumption | with_reducible apply steady_startBeep | with_reducible apply steady_enterWaiting
    | with_reducible apply steady_endCall | with_reducible apply steady_sendPlayDone
    | with_reducible apply Steady.modVoice | (refine Steady.of_eq ‹_ = (_, _)› ?_) | (dsimp only) | split)

theorem steady_discriminationEnds {s0 s : State} {k : ContextId} (st : Steady s0 s) :
    Steady s0 (discriminationEnds k s) := by
  unfold discriminationEnds
  try dsimp only
  repeat' (first
    | with_reducible assumption | with_reducible apply steady_startRecording
    | with_reducible apply steady_sendEvent | with_reducible apply Steady.modCtx
    | with_reducible apply Steady.modVoice)

theorem steady_beepEnds {s0 s : State} {k : ContextId} (st : Steady s0 s) :
    Steady s0 (beepEnds k s) := by
  unfold beepEnds
  try dsimp only
  repeat' (first
    | with_reducible assumption | with_reducible apply steady_discriminationEnds
    | with_reducible apply Steady.modVoice | (refine Steady.of_eq ‹_ = (_, _)› ?_) | (dsimp only) | split)

theorem steady_loadBlock {s0 s : State} {k : ContextId} {b : Nat} {block : List Byte} (st : Steady s0 s) :
    Steady s0 (loadBlock k b block s) :=
  st.modVcd

theorem steady_moveDecoder {s0 s : State} {k : ContextId} {b : Nat} (st : Steady s0 s) :
    Steady s0 (moveDecoder k b s) := by
  unfold moveDecoder
  try dsimp only
  repeat' (first
    | with_reducible assumption | with_reducible apply steady_loadBlock | with_reducible apply steady_fetchSettle
    | with_reducible apply Steady.modVcd | (refine Steady.of_eq ‹_ = (_, _)› ?_) | (dsimp only) | split)

theorem steady_refillPlayback {s0 s : State} {k : ContextId} {needed : Nat} (st : Steady s0 s) :
    Steady s0 (refillPlayback k needed s) := by
  unfold refillPlayback
  try dsimp only
  repeat' (first
    | with_reducible assumption | with_reducible apply steady_fillBuffer | with_reducible apply Steady.modVcd
    | (refine Steady.of_eq ‹_ = (_, _)› ?_) | (dsimp only) | split)

theorem steady_markHeard {s0 s : State} {k : ContextId} (st : Steady s0 s) :
    Steady s0 (markHeard k s) := by
  unfold markHeard
  try dsimp only
  repeat' (first
    | with_reducible assumption | with_reducible apply steady_markMessage | with_reducible apply steady_offerOther
    | (refine Steady.of_eq ‹_ = (_, _)› ?_) | (dsimp only) | split)

theorem steady_playbackReachesEnd {s0 s : State} {k : ContextId} (st : Steady s0 s) :
    Steady s0 (playbackReachesEnd k s) := by
  unfold playbackReachesEnd
  try dsimp only
  repeat' (first
    | with_reducible assumption | with_reducible apply steady_markHeard | with_reducible apply steady_playbackOver
    | with_reducible apply steady_stopPlayback)

theorem steady_beginDecoding {s0 s : State} {k : ContextId} {source : Source} {kind : MsgKind} {length : Nat} {blocks : Nat} (st : Steady s0 s) :
    Steady s0 (beginDecoding k source kind length blocks s) := by
  unfold beginDecoding
  try dsimp only
  repeat' (first
    | with_reducible assumption | with_reducible apply steady_playbackReachesEnd
    | with_reducible apply steady_refillPlayback | with_reducible apply steady_moveDecoder
    | with_reducible apply Steady.modVcd | (refine Steady.of_eq ‹_ = (_, _)› ?_) | (dsimp only) | split)

theorem steady_playGranted {s0 s : State} {k : ContextId} {source : Source} {kind : Option MsgKind} {length : Nat} {blocks : Nat} (st : Steady s0 s) :
    Steady s0 (playGranted k source kind length blocks s) := by
  unfold playGranted
  try dsimp only
  repeat' (first
    | with_reducible assumption | with_reducible apply steady_beginDecoding
    | with_reducible apply steady_playbackOver | with_reducible apply steady_leaveSource
    | (refine Steady.of_eq ‹_ = (_, _)› ?_) | (dsimp only) | split)

theorem steady_beginPlay {s0 s : State} {k : ContextId} {target : PlayTarget} {start : Nat} (st : Steady s0 s) :
    Steady s0 (beginPlay k target start s) := by
  unfold beginPlay
  try dsimp only
  repeat' (first
    | with_reducible assumption | with_reducible apply steady_playGranted
    | with_reducible apply steady_playbackOver | with_reducible apply steady_startFetch
    | with_reducible apply steady_readOpen | with_reducible apply Steady.modVoice
    | with_reducible apply Steady.modVcd | (refine Steady.of_eq ‹_ = (_, _)› ?_) | (dsimp only) | split)

theorem steady_playFetchEnded {s0 s : State} {k : ContextId} {o : FetchOutcome} (st : Steady s0 s) :
    Steady s0 (playFetchEnded k o s) := by
  unfold playFetchEnded
  try dsimp only
  repeat' (first
    | with_reducible assumption | with_reducible apply steady_playbackOver
    | with_reducible apply steady_stopPlayback)

theorem steady_decodeFrame {s0 s : State} {k : ContextId} (st : Steady s0 s) :
    Steady s0 (decodeFrame k s).1 := by
  unfold decodeFrame
  try dsimp only
  repeat' (first
    | with_reducible assumption | with_reducible apply Steady.modVcd | (refine Steady.of_eq ‹_ = (_, _)› ?_)
    | (dsimp only) | split)

theorem steady_afterDecode {s0 s : State} {k : ContextId} (st : Steady s0 s) :
    Steady s0 (afterDecode k s) := by
  unfold afterDecode
  try dsimp only
  repeat' (first
    | with_reducible assumption | with_reducible apply steady_playbackReachesEnd
    | with_reducible apply steady_refillPlayback | with_reducible apply steady_moveDecoder
    | with_reducible apply Steady.modVcd | (refine Steady.of_eq ‹_ = (_, _)› ?_) | (dsimp only) | split)

theorem steady_resumeDecoder {s0 s : State} {k : ContextId} (st : Steady s0 s) :
    Steady s0 (resumeDecoder k s) := by
  unfold resumeDecoder
  try dsimp only
  repeat' (first
    | with_reducible assumption | with_reducible apply steady_loadBlock | (refine Steady.of_eq ‹_ = (_, _)› ?_)
    | (dsimp only) | split)

theorem steady_endActivity {s0 s : State} {k : ContextId} (st : Steady s0 s) :
    Steady s0 (endActivity k s) := by
  unfold endActivity
  try dsimp only
  repeat' (first
    | with_reducible assumption | with_reducible apply steady_finishRecording
    | with_reducible apply steady_sendPlayDone | with_reducible apply steady_stopPlayback
    | with_reducible apply Steady.modVoice | (refine Steady.of_eq ‹_ = (_, _)› ?_) | (dsimp only) | split)

/-! ### Machine/Fax.lean -/

theorem steady_sendControl {s0 s : State} {k : ContextId} {f : ControlFrame} (st : Steady s0 s) :
    Steady s0 (sendControl k f s) :=
  st.modPump

theorem steady_setPump {s0 s : State} {k : ContextId} {p : PumpState} (st : Steady s0 s) :
    Steady s0 (setPump k p s) :=
  st.modPump

theorem steady_enterPhase {s0 s : State} {k : ContextId} {phase : FaxPhase} {wait : Option Nat} (st : Steady s0 s) :
    Steady s0 (enterPhase k phase wait s) :=
  st.modFax

theorem steady_pumpTrained {s0 s : State} {k : ContextId} (st : Steady s0 s) : Steady s0 (pumpTrained k s) :=
  st.modDetector

theorem steady_sendFaxPage {s0 s : State} {k : ContextId} {page : Nat} {verdict : Nat} (st : Steady s0 s) :
    Steady s0 (sendFaxPage k page verdict s) := by
  unfold sendFaxPage
  try dsimp only
  repeat' (first
    | with_reducible assumption | with_reducible apply steady_sendEvent)

theorem steady_faxSessionEnds {s0 s : State} {k : ContextId} {result : Byte} (st : Steady s0 s) :
    Steady s0 (faxSessionEnds k result s) := by
  unfold faxSessionEnds
  try dsimp only
  repeat' (first
    | with_reducible assumption | with_reducible apply steady_endCall | with_reducible apply steady_clearFax
    | with_reducible apply steady_sendFaxDone | with_reducible apply steady_leaveFaxSource
    | with_reducible apply Steady.modCtx)

theorem steady_sendDisconnect {s0 s : State} {k : ContextId} {result : Byte} (st : Steady s0 s) :
    Steady s0 (sendDisconnect k result s) := by
  unfold sendDisconnect
  try dsimp only
  repeat' (first
    | with_reducible assumption | with_reducible apply steady_enterPhase | with_reducible apply steady_sendControl
    | with_reducible apply Steady.modFax)

theorem steady_endReceive {s0 s : State} {k : ContextId} {frame : Bool} {close : Option Byte} {result : Byte} (st : Steady s0 s) :
    Steady s0 (endReceive k frame close result s) := by
  unfold endReceive
  try dsimp only
  repeat' (first
    | with_reducible assumption | with_reducible apply steady_sendDisconnect
    | with_reducible apply steady_faxSessionEnds | with_reducible apply steady_closeFaxTarget
    | with_reducible apply Steady.modFax | (refine Steady.of_eq ‹_ = (_, _)› ?_) | (dsimp only) | split)

theorem steady_endSend {s0 s : State} {k : ContextId} {result : Byte} (st : Steady s0 s) :
    Steady s0 (endSend k result s) := by
  unfold endSend
  try dsimp only
  repeat' (first
    | with_reducible assumption | with_reducible apply steady_sendDisconnect
    | with_reducible apply steady_faxSessionEnds | (refine Steady.of_eq ‹_ = (_, _)› ?_) | (dsimp only) | split)

theorem steady_awaitMode {s0 s : State} {k : ContextId} (st : Steady s0 s) :
    Steady s0 (awaitMode k s) := by
  unfold awaitMode
  try dsimp only
  repeat' (first
    | with_reducible assumption | with_reducible apply steady_enterPhase)

theorem steady_sendCapability {s0 s : State} {k : ContextId} (st : Steady s0 s) :
    Steady s0 (sendCapability k s) := by
  unfold sendCapability
  try dsimp only
  repeat' (first
    | with_reducible assumption | with_reducible apply steady_awaitMode | with_reducible apply steady_sendControl)

theorem steady_beginFaxDeposit {s0 s : State} {k : ContextId} (st : Steady s0 s) :
    Steady s0 (beginFaxDeposit k s) := by
  unfold beginFaxDeposit
  try dsimp only
  repeat' (first
    | with_reducible assumption | with_reducible apply steady_sendCapability
    | with_reducible apply steady_startDeposit | with_reducible apply Steady.modFax)

theorem steady_enterFaxSession {s0 s : State} {k : ContextId} {role : FaxRole} (st : Steady s0 s) :
    Steady s0 (enterFaxSession k role s) := by
  unfold enterFaxSession
  try dsimp only
  repeat' (first
    | with_reducible assumption | with_reducible apply steady_setPump | with_reducible apply Steady.modCtx)

theorem steady_startFaxReceive {s0 s : State} {k : ContextId} {mailbox : Nat} (st : Steady s0 s) :
    Steady s0 (startFaxReceive k mailbox s) := by
  unfold startFaxReceive
  try dsimp only
  repeat' (first
    | with_reducible assumption | with_reducible apply steady_enterFaxSession
    | with_reducible apply steady_beginFaxDeposit | with_reducible apply steady_sendCapability
    | with_reducible apply steady_faxSessionEnds | with_reducible apply steady_enterPhase
    | with_reducible apply steady_openForWriting | with_reducible apply Steady.modFax
    | (refine Steady.of_eq ‹_ = (_, _)› ?_) | (dsimp only) | split)

theorem steady_trainBadSent {s0 s : State} {k : ContextId} (st : Steady s0 s) :
    Steady s0 (trainBadSent k s) := by
  unfold trainBadSent
  try dsimp only
  repeat' (first
    | with_reducible assumption | with_reducible apply steady_awaitMode | with_reducible apply steady_endReceive
    | with_reducible apply steady_setPump | with_reducible apply steady_sendControl
    | with_reducible apply Steady.modFax | (refine Steady.of_eq ‹_ = (_, _)› ?_) | (dsimp only) | split)

theorem steady_takeMode {s0 s : State} {k : ContextId} {rate : Nat} (st : Steady s0 s) :
    Steady s0 (takeMode k rate s) := by
  unfold takeMode
  try dsimp only
  repeat' (first
    | with_reducible assumption | with_reducible apply steady_trainBadSent | with_reducible apply steady_enterPhase
    | with_reducible apply steady_setPump | with_reducible apply Steady.modFax | with_reducible apply Steady.modQmn
    | (refine Steady.of_eq ‹_ = (_, _)› ?_) | (dsimp only) | split)

theorem steady_faxReading {s0 s : State} {k : ContextId} {r : Nat} (st : Steady s0 s) :
    Steady s0 (faxReading k r s) := by
  unfold faxReading
  try dsimp only
  repeat' (first
    | with_reducible assumption | with_reducible apply steady_trainBadSent
    | with_reducible apply steady_pumpTrained | with_reducible apply steady_enterPhase
    | with_reducible apply steady_setPump | with_reducible apply steady_sendControl
    | with_reducible apply Steady.modFax | with_reducible apply Steady.modQmn
    | (refine Steady.of_eq ‹_ = (_, _)› ?_) | (dsimp only) | split)

theorem steady_takeFreeBytes {s0 s : State} {n : Nat} (st : Steady s0 s) : Steady s0 (takeFreeBytes n s).1 := st.trans ⟨rfl, rfl, rfl, List.prefix_refl _, rfl⟩

theorem steady_handFaxBlock {s0 s : State} {k : ContextId} {payload : List Byte} {pageEnd : Bool} (st : Steady s0 s) :
    Steady s0 (handFaxBlock k payload pageEnd s).1 := by
  unfold handFaxBlock
  try dsimp only
  repeat' (first
    | with_reducible assumption | with_reducible apply steady_takeFreeBytes
    | with_reducible apply steady_handToDeposit | with_reducible apply steady_appendBlock
    | (refine Steady.of_eq ‹_ = (_, _)› ?_) | (dsimp only) | split)

theorem steady_faxStoreFull {s0 s : State} {k : ContextId} (st : Steady s0 s) :
    Steady s0 (faxStoreFull k s) := by
  unfold faxStoreFull
  try dsimp only
  repeat' (first
    | with_reducible assumption | with_reducible apply steady_endReceive)

theorem steady_buildPage {s0 s : State} {k : ContextId} {data : List Byte} (st : Steady s0 s) :
    Steady s0 (buildPage k data s) := by
  unfold buildPage
  try dsimp only
  repeat' (first
    | with_reducible assumption | with_reducible apply steady_faxStoreFull
    | with_reducible apply steady_handFaxBlock | with_reducible apply Steady.modFax
    | (refine Steady.of_eq ‹_ = (_, _)› ?_) | (dsimp only) | split)

theorem steady_takeFaxFrame {s0 s : State} {k : ContextId} {good : Bool} {number : Nat} {data : List Byte} (st : Steady s0 s) :
    Steady s0 (takeFaxFrame k good number data s) := by
  unfold takeFaxFrame
  try dsimp only
  repeat' (first
    | with_reducible assumption | with_reducible apply steady_buildPage | with_reducible apply steady_enterPhase
    | with_reducible apply Steady.modFax | (refine Steady.of_eq ‹_ = (_, _)› ?_) | (dsimp only) | split)

theorem steady_keepPage {s0 s : State} {k : ContextId} (st : Steady s0 s) :
    Steady s0 (keepPage k s).1 := by
  unfold keepPage
  try dsimp only
  repeat' (first
    | with_reducible assumption | with_reducible apply steady_handFaxBlock | with_reducible apply steady_endPage
    | with_reducible apply Steady.modFax | (refine Steady.of_eq ‹_ = (_, _)› ?_) | (dsimp only) | split)

theorem steady_undoPage {s0 s : State} {k : ContextId} (st : Steady s0 s) :
    Steady s0 (undoPage k s) := by
  unfold undoPage
  try dsimp only
  repeat' (first
    | with_reducible assumption | with_reducible apply steady_askRollback | with_reducible apply steady_rollBack
    | with_reducible apply Steady.modFax | (refine Steady.of_eq ‹_ = (_, _)› ?_) | (dsimp only) | split)

theorem steady_afterVerdict {s0 s : State} {k : ContextId} {verdict : Nat} {last : Bool} (st : Steady s0 s) :
    Steady s0 (afterVerdict k verdict last s) := by
  unfold afterVerdict
  try dsimp only
  repeat' (first
    | with_reducible assumption | with_reducible apply steady_awaitMode
    | with_reducible apply steady_sendDisconnect | with_reducible apply steady_enterPhase
    | with_reducible apply steady_setPump | with_reducible apply steady_closeFaxTarget
    | (refine Steady.of_eq ‹_ = (_, _)› ?_) | (dsimp only) | split)

theorem steady_takePageEnd {s0 s : State} {k : ContextId} {last : Bool} (st : Steady s0 s) :
    Steady s0 (takePageEnd k last s) := by
  unfold takePageEnd
  try dsimp only
  repeat' (first
    | with_reducible assumption | with_reducible apply steady_afterVerdict | with_reducible apply steady_undoPage
    | with_reducible apply steady_keepPage | with_reducible apply steady_faxStoreFull
    | with_reducible apply steady_sendFaxPage | with_reducible apply steady_sendControl
    | with_reducible apply Steady.modFax | (refine Steady.of_eq ‹_ = (_, _)› ?_) | (dsimp only) | split)

theorem steady_trainSend {s0 s : State} {k : ContextId} (st : Steady s0 s) :
    Steady s0 (trainSend k s) := by
  unfold trainSend
  try dsimp only
  repeat' (first
    | with_reducible assumption | with_reducible apply steady_enterPhase | with_reducible apply steady_setPump
    | with_reducible apply steady_sendControl | with_reducible apply Steady.modFax)

theorem steady_takeCapability {s0 s : State} {k : ContextId} {c : Nat} (st : Steady s0 s) :
    Steady s0 (takeCapability k c s) := by
  unfold takeCapability
  try dsimp only
  repeat' (first
    | with_reducible assumption | with_reducible apply steady_trainSend | with_reducible apply Steady.modFax)

theorem steady_askFaxBlock {s0 s : State} {k : ContextId} {index : Nat} (st : Steady s0 s) :
    Steady s0 (askFaxBlock k index s) := by
  unfold askFaxBlock
  try dsimp only
  repeat' (first
    | with_reducible assumption | with_reducible apply steady_askBlock | with_reducible apply Steady.modFax
    | (refine Steady.of_eq ‹_ = (_, _)› ?_) | (dsimp only) | split)

theorem steady_bufferFrom {s0 s : State} {k : ContextId} {b : Nat} (st : Steady s0 s) :
    Steady s0 (bufferFrom k b s) := by
  unfold bufferFrom
  try dsimp only
  repeat' (first
    | with_reducible assumption | with_reducible apply steady_askFaxBlock | with_reducible apply steady_fetchSettle
    | with_reducible apply Steady.modFax | (refine Steady.forEach ?_ (fun _ _ _ => ?_))
    | (refine Steady.of_eq ‹_ = (_, _)› ?_) | (dsimp only) | split)

theorem steady_feedBlock {s0 s : State} {k : ContextId} {b : Nat} {block : List Byte} (st : Steady s0 s) :
    Steady s0 (feedBlock k b block s) := by
  unfold feedBlock
  try dsimp only
  repeat' (first
    | with_reducible assumption | with_reducible apply steady_fillBuffer | with_reducible apply Steady.modFax
    | (refine Steady.of_eq ‹_ = (_, _)› ?_) | (dsimp only) | split)

theorem steady_feedPage {s0 s : State} {k : ContextId} {n : Nat} (st : Steady s0 s) : Steady s0 (feedPage k n s) := by
  induction n generalizing s with
  | zero => exact st
  | succ n ih =>
    unfold feedPage
    dsimp only
    split
    · exact ih (steady_feedBlock st)
    · exact st

theorem steady_feed {s0 s : State} {k : ContextId} (st : Steady s0 s) :
    Steady s0 (feed k s) := by
  unfold feed
  try dsimp only
  repeat' (first
    | with_reducible assumption | with_reducible apply steady_feedPage | split)

theorem steady_sendPage {s0 s : State} {k : ContextId} (st : Steady s0 s) :
    Steady s0 (sendPage k s) := by
  unfold sendPage
  try dsimp only
  repeat' (first
    | with_reducible assumption | with_reducible apply steady_feed | with_reducible apply steady_bufferFrom
    | with_reducible apply steady_enterPhase | with_reducible apply Steady.modFax)

theorem steady_faxGranted {s0 s : State} {k : ContextId} {source : Source} {kind : Option MsgKind} {blocks : Nat} (st : Steady s0 s) :
    Steady s0 (faxGranted k source kind blocks s) := by
  unfold faxGranted
  try dsimp only
  repeat' (first
    | with_reducible assumption | with_reducible apply steady_bufferFrom
    | with_reducible apply steady_takeCapability | with_reducible apply steady_endSend
    | with_reducible apply steady_leaveSource | with_reducible apply Steady.modFax
    | (refine Steady.of_eq ‹_ = (_, _)› ?_) | (dsimp only) | split)

theorem steady_startFaxSend {s0 s : State} {k : ContextId} {home : Nat} {handle : Nat} (st : Steady s0 s) :
    Steady s0 (startFaxSend k home handle s) := by
  unfold startFaxSend
  try dsimp only
  repeat' (first
    | with_reducible assumption | with_reducible apply steady_faxGranted
    | with_reducible apply steady_enterFaxSession | with_reducible apply steady_endSend
    | with_reducible apply steady_enterPhase | with_reducible apply steady_startFetch
    | with_reducible apply steady_readOpen | (refine Steady.of_eq ‹_ = (_, _)› ?_) | (dsimp only) | split)

theorem steady_faxFetchEnded {s0 s : State} {k : ContextId} {o : FetchOutcome} (st : Steady s0 s) :
    Steady s0 (faxFetchEnded k o s) := by
  unfold faxFetchEnded
  try dsimp only
  repeat' (first
    | with_reducible assumption | with_reducible apply steady_endSend | with_reducible apply steady_endFetch
    | with_reducible apply Steady.modFax | (refine Steady.of_eq ‹_ = (_, _)› ?_) | (dsimp only) | split)

theorem steady_takeTrainVerdict {s0 s : State} {k : ContextId} {good : Bool} (st : Steady s0 s) :
    Steady s0 (takeTrainVerdict k good s) := by
  unfold takeTrainVerdict
  try dsimp only
  repeat' (first
    | with_reducible assumption | with_reducible apply steady_sendPage | with_reducible apply steady_trainSend
    | with_reducible apply steady_endSend | with_reducible apply steady_pumpTrained
    | with_reducible apply steady_setPump | with_reducible apply Steady.modFax
    | (refine Steady.of_eq ‹_ = (_, _)› ?_) | (dsimp only) | split)

theorem steady_sendTrainingOver {s0 s : State} {k : ContextId} (st : Steady s0 s) :
    Steady s0 (sendTrainingOver k s) := by
  unfold sendTrainingOver
  try dsimp only
  repeat' (first
    | with_reducible assumption | with_reducible apply steady_takeTrainVerdict
    | with_reducible apply steady_enterPhase | with_reducible apply Steady.modFax
    | (refine Steady.of_eq ‹_ = (_, _)› ?_) | (dsimp only) | split)

theorem steady_pageSent {s0 s : State} {k : ContextId} {last : Bool} (st : Steady s0 s) :
    Steady s0 (pageSent k last s) := by
  unfold pageSent
  try dsimp only
  repeat' (first
    | with_reducible assumption | with_reducible apply steady_enterPhase | with_reducible apply steady_sendControl)

theorem steady_pageKept {s0 s : State} {k : ContextId} {verdict : Nat} (st : Steady s0 s) :
    Steady s0 (pageKept k verdict s) := by
  unfold pageKept
  try dsimp only
  repeat' (first
    | with_reducible assumption | with_reducible apply steady_sendFaxPage | with_reducible apply Steady.modFax)

theorem steady_takePageGood {s0 s : State} {k : ContextId} (st : Steady s0 s) :
    Steady s0 (takePageGood k s) := by
  unfold takePageGood
  try dsimp only
  repeat' (first
    | with_reducible assumption | with_reducible apply steady_pageKept | with_reducible apply steady_sendPage
    | with_reducible apply steady_sendDisconnect | (refine Steady.of_eq ‹_ = (_, _)› ?_) | (dsimp only) | split)

theorem steady_takePageRetrain {s0 s : State} {k : ContextId} (st : Steady s0 s) :
    Steady s0 (takePageRetrain k s) := by
  unfold takePageRetrain
  try dsimp only
  repeat' (first
    | with_reducible assumption | with_reducible apply steady_pageKept | with_reducible apply steady_trainSend
    | with_reducible apply steady_sendDisconnect | with_reducible apply Steady.modFax
    | (refine Steady.of_eq ‹_ = (_, _)› ?_) | (dsimp only) | split)

theorem steady_takePageBad {s0 s : State} {k : ContextId} (st : Steady s0 s) :
    Steady s0 (takePageBad k s) := by
  unfold takePageBad
  try dsimp only
  repeat' (first
    | with_reducible assumption | with_reducible apply steady_trainSend | with_reducible apply steady_endSend
    | with_reducible apply steady_sendFaxPage | with_reducible apply Steady.modFax
    | (refine Steady.of_eq ‹_ = (_, _)› ?_) | (dsimp only) | split)

theorem steady_takeDisconnect {s0 s : State} {k : ContextId} (st : Steady s0 s) :
    Steady s0 (takeDisconnect k s) := by
  unfold takeDisconnect
  try dsimp only
  repeat' (first
    | with_reducible assumption | with_reducible apply steady_endReceive
    | with_reducible apply steady_faxSessionEnds | (refine Steady.of_eq ‹_ = (_, _)› ?_) | (dsimp only) | split)

theorem steady_faxWaitOver {s0 s : State} {k : ContextId} (st : Steady s0 s) :
    Steady s0 (faxWaitOver k s) := by
  unfold faxWaitOver
  try dsimp only
  repeat' (first
    | with_reducible assumption | with_reducible apply steady_endSend | with_reducible apply steady_endReceive
    | with_reducible apply Steady.modFax | (refine Steady.of_eq ‹_ = (_, _)› ?_) | (dsimp only) | split)

theorem steady_faxDepositEnded {s0 s : State} {k : ContextId} {d : OutDeposit} {o : DepositOutcome} (st : Steady s0 s) :
    Steady s0 (faxDepositEnded k d o s) := by
  unfold faxDepositEnded
  try dsimp only
  repeat' (first
    | with_reducible assumption | with_reducible apply steady_endReceive | (refine Steady.of_eq ‹_ = (_, _)› ?_)
    | (dsimp only) | split)

/-! ### Machine/Data.lean -/

theorem steady_sendLink {s0 s : State} {k : ContextId} {f : LinkFrame} (st : Steady s0 s) :
    Steady s0 (sendLink k f s) :=
  st.modLkc

theorem steady_checkFlow {s0 s : State} {k : ContextId} (st : Steady s0 s) :
    Steady s0 (checkFlow k s) := by
  unfold checkFlow
  try dsimp only
  repeat' (first
    | with_reducible assumption | with_reducible apply steady_sendEvent | with_reducible apply Steady.modLkc
    | (refine Steady.of_eq ‹_ = (_, _)› ?_) | (dsimp only) | split)

theorem steady_makeBlock {s0 s : State} {k : ContextId} (st : Steady s0 s) :
    Steady s0 (makeBlock k s) := by
  unfold makeBlock
  try dsimp only
  repeat' (first
    | with_reducible assumption | with_reducible apply steady_checkFlow | with_reducible apply steady_sendLink
    | with_reducible apply Steady.modLkc | (refine Steady.of_eq ‹_ = (_, _)› ?_) | (dsimp only) | split)

theorem steady_pumpLink {s0 s : State} {k : ContextId} (st : Steady s0 s) :
    Steady s0 (pumpLink k s) := by
  unfold pumpLink
  try dsimp only
  repeat' (first
    | with_reducible assumption | with_reducible apply steady_makeBlock
    | (refine Steady.forEach ?_ (fun _ _ _ => ?_)))

theorem steady_releaseRemote {s0 s : State} {k : ContextId} (st : Steady s0 s) :
    Steady s0 (releaseRemote k s) := by
  unfold releaseRemote
  try dsimp only
  repeat' (first
    | with_reducible assumption | with_reducible apply steady_sendLink | with_reducible apply Steady.modLkc
    | (refine Steady.of_eq ‹_ = (_, _)› ?_) | (dsimp only) | split)

theorem steady_offerDataRx {s0 s : State} {k : ContextId} {n : Nat} (st : Steady s0 s) :
    Steady s0 (offerDataRx k n s).1 := by
  unfold offerDataRx
  try dsimp only
  repeat' (first
    | with_reducible assumption | with_reducible apply steady_offerStream | with_reducible apply Steady.modLkc
    | (refine Steady.of_eq ‹_ = (_, _)› ?_) | (dsimp only) | split)

theorem steady_offerAll {s0 s : State} {k : ContextId} {n : Nat} (st : Steady s0 s) : Steady s0 (offerAll k n s) := by
  induction n generalizing s with
  | zero => exact st
  | succ n ih =>
    unfold offerAll
    dsimp only
    split
    · exact st
    · split
      · next e => exact ih (Steady.of_eq e (steady_offerDataRx st))
      · next e => exact Steady.of_eq e (steady_offerDataRx st)

theorem steady_pumpRx {s0 s : State} {k : ContextId} (st : Steady s0 s) :
    Steady s0 (pumpRx k s) := by
  unfold pumpRx
  try dsimp only
  repeat' (first
    | with_reducible assumption | with_reducible apply steady_offerAll | with_reducible apply steady_releaseRemote)

theorem steady_reofferRx {s0 s : State} {k : ContextId} (st : Steady s0 s) :
    Steady s0 (reofferRx k s) := by
  unfold reofferRx
  try dsimp only
  repeat' (first
    | with_reducible assumption | with_reducible apply steady_pumpRx | with_reducible apply steady_offerDataRx
    | (refine Steady.of_eq ‹_ = (_, _)› ?_) | (dsimp only) | split)

theorem steady_resendAll {s0 s : State} {k : ContextId} (st : Steady s0 s) :
    Steady s0 (resendAll k s) := by
  unfold resendAll
  try dsimp only
  repeat' (first
    | with_reducible assumption | with_reducible apply steady_sendLink | with_reducible apply Steady.modLkc
    | (refine Steady.forEach ?_ (fun _ _ _ => ?_)))

theorem steady_takeAck {s0 s : State} {k : ContextId} {n : BitVec 4} (st : Steady s0 s) :
    Steady s0 (takeAck k n s) := by
  unfold takeAck
  try dsimp only
  repeat' (first
    | with_reducible assumption | with_reducible apply steady_pumpLink | with_reducible apply Steady.modLkc
    | (refine Steady.of_eq ‹_ = (_, _)› ?_) | (dsimp only) | split)

theorem steady_takeHold {s0 s : State} {k : ContextId} {n : BitVec 4} (st : Steady s0 s) :
    Steady s0 (takeHold k n s) := by
  unfold takeHold
  try dsimp only
  repeat' (first
    | with_reducible assumption | with_reducible apply steady_pumpLink | with_reducible apply Steady.modLkc | split)

theorem steady_takeLinkData {s0 s : State} {k : ContextId} {sequence : BitVec 4} {data : List Byte} (st : Steady s0 s) :
    Steady s0 (takeLinkData k sequence data s) := by
  unfold takeLinkData
  try dsimp only
  repeat' (first
    | with_reducible assumption | with_reducible apply steady_pumpRx | with_reducible apply steady_sendLink
    | with_reducible apply Steady.modLkc | (refine Steady.of_eq ‹_ = (_, _)› ?_) | (dsimp only) | split)

theorem steady_startData {s0 s : State} {k : ContextId} {mode : DataMode} {bounds : Nat × Nat} (st : Steady s0 s) :
    Steady s0 (startData k mode bounds s) :=
  st.modCtx

theorem steady_dataEnds {s0 s : State} {k : ContextId} {cause : Byte} (st : Steady s0 s) :
    Steady s0 (dataEnds k cause s) := by
  unfold dataEnds
  try dsimp only
  repeat' (first
    | with_reducible assumption | with_reducible apply steady_endCall)

theorem steady_retrain {s0 s : State} {k : ContextId} {target : Nat} {reason : RateReason} (st : Steady s0 s) :
    Steady s0 (retrain k target reason s) := by
  unfold retrain
  try dsimp only
  repeat' (first
    | with_reducible assumption | with_reducible apply steady_dataEnds
    | with_reducible apply steady_setPump | with_reducible apply Steady.modQmn
    | (refine Steady.of_eq ‹_ = (_, _)› ?_) | (dsimp only) | split)

theorem steady_trainAgain {s0 s : State} {k : ContextId} (st : Steady s0 s) : Steady s0 (trainAgain k s) :=
  st.modQmn

theorem steady_askRetrain {s0 s : State} {k : ContextId} {reason : RateReason} (st : Steady s0 s) :
    Steady s0 (askRetrain k reason s) := by
  unfold askRetrain
  try dsimp only
  repeat' (first
    | with_reducible assumption | with_reducible apply steady_trainAgain | with_reducible apply steady_retrain
    | (refine Steady.of_eq ‹_ = (_, _)› ?_) | (dsimp only) | split)

theorem steady_beginShift {s0 s : State} {k : ContextId} {target : Nat} {reason : RateReason} (st : Steady s0 s) :
    Steady s0 (beginShift k target reason s) := by
  unfold beginShift
  try dsimp only
  repeat' (first
    | with_reducible assumption | with_reducible apply steady_setPump
    | with_reducible apply Steady.modQmn)

theorem steady_comeUp {s0 s : State} {k : ContextId} (st : Steady s0 s) :
    Steady s0 (comeUp k s) := by
  unfold comeUp
  try dsimp only
  repeat' (first
    | with_reducible assumption | with_reducible apply steady_setPump | with_reducible apply Steady.modQmn)

theorem steady_resumeLink {s0 s : State} {k : ContextId} (st : Steady s0 s) :
    Steady s0 (resumeLink k s) := by
  unfold resumeLink
  exact steady_releaseRemote (steady_pumpLink (steady_resendAll st.modLkc))

theorem steady_shiftOver {s0 s : State} {k : ContextId} (st : Steady s0 s) :
    Steady s0 (shiftOver k s) := by
  unfold shiftOver
  try dsimp only
  repeat' (first
    | with_reducible assumption | with_reducible apply steady_resumeLink | with_reducible apply steady_comeUp
    | with_reducible apply steady_sendEvent)

theorem steady_trainingOver {s0 s : State} {k : ContextId} (st : Steady s0 s) :
    Steady s0 (trainingOver k s) := by
  unfold trainingOver
  try dsimp only
  repeat' (first
    | with_reducible assumption | with_reducible apply steady_resumeLink | with_reducible apply steady_comeUp
    | with_reducible apply steady_retrain | with_reducible apply steady_dataEnds
    | with_reducible apply steady_pumpTrained | with_reducible apply steady_sendEvent
    | (refine Steady.of_eq ‹_ = (_, _)› ?_) | (dsimp only) | split)

theorem steady_judgeRate {s0 s : State} {k : ContextId} (st : Steady s0 s) :
    Steady s0 (judgeRate k s) := by
  unfold judgeRate
  try dsimp only
  repeat' (first
    | with_reducible assumption | with_reducible apply steady_beginShift | with_reducible apply steady_dataEnds
    | with_reducible apply Steady.modQmn | (refine Steady.of_eq ‹_ = (_, _)› ?_) | (dsimp only) | split)

theorem steady_dataReading {s0 s : State} {k : ContextId} {r : Nat} (st : Steady s0 s) :
    Steady s0 (dataReading k r s) := by
  unfold dataReading
  try dsimp only
  repeat' (first
    | with_reducible assumption | with_reducible apply steady_judgeRate | with_reducible apply steady_trainingOver
    | with_reducible apply steady_retrain | with_reducible apply Steady.modQmn
    | (refine Steady.of_eq ‹_ = (_, _)› ?_) | (dsimp only) | split)

theorem steady_takeShiftRequest {s0 s : State} {k : ContextId} {j : Nat} (st : Steady s0 s) :
    Steady s0 (takeShiftRequest k j s) := by
  unfold takeShiftRequest
  try dsimp only
  repeat' (first
    | with_reducible assumption | with_reducible apply steady_beginShift | with_reducible apply steady_dataEnds
    | (refine Steady.of_eq ‹_ = (_, _)› ?_) | (dsimp only) | split)

theorem steady_retrainAll {s0 s : State} {reason : RateReason} (st : Steady s0 s) :
    Steady s0 (retrainAll reason s) := by
  unfold retrainAll
  try dsimp only
  repeat' (first
    | with_reducible assumption | with_reducible apply steady_askRetrain
    | (refine Steady.forEach ?_ (fun _ _ _ => ?_)) | (refine Steady.of_eq ‹_ = (_, _)› ?_) | (dsimp only) | split)

theorem steady_resendOver {s0 s : State} {k : ContextId} (st : Steady s0 s) :
    Steady s0 (resendOver k s) := by
  unfold resendOver
  try dsimp only
  repeat' (first
    | with_reducible assumption | with_reducible apply steady_dataEnds | with_reducible apply steady_resendAll
    | with_reducible apply Steady.modLkc | (refine Steady.of_eq ‹_ = (_, _)› ?_) | (dsimp only) | split)

theorem steady_takeTx {s0 s : State} {k : ContextId} {bytes : List Byte} (st : Steady s0 s) :
    Steady s0 (takeTx k bytes s) := by
  unfold takeTx
  try dsimp only
  repeat' (first
    | with_reducible assumption | with_reducible apply steady_checkFlow | with_reducible apply steady_sendEvent
    | with_reducible apply Steady.modLkc | (refine Steady.of_eq ‹_ = (_, _)› ?_) | (dsimp only) | split)

/-! ### Machine/Dial.lean -/

theorem steady_enterDiscriminating {s0 s : State} {k : ContextId} (st : Steady s0 s) :
    Steady s0 (enterDiscriminating k s) := by
  unfold enterDiscriminating
  try dsimp only
  repeat' (first
    | with_reducible assumption | with_reducible apply steady_beginPlay | with_reducible apply Steady.modCtx)

theorem steady_enterAnswering {s0 s : State} {k : ContextId} (st : Steady s0 s) :
    Steady s0 (enterAnswering k s) := by
  unfold enterAnswering
  try dsimp only
  repeat' (first
    | with_reducible assumption | with_reducible apply steady_enterDiscriminating
    | with_reducible apply Steady.modCtx | (refine Steady.of_eq ‹_ = (_, _)› ?_) | (dsimp only) | split)

theorem steady_collectionEnds {s0 s : State} {k : ContextId} {mailbox : Nat} (st : Steady s0 s) :
    Steady s0 (collectionEnds k mailbox s) := by
  unfold collectionEnds
  try dsimp only
  repeat' (first
    | with_reducible assumption | with_reducible apply steady_enterAnswering
    | with_reducible apply steady_sendEvent | with_reducible apply Steady.modCtx
    | (refine Steady.of_eq ‹_ = (_, _)› ?_) | (dsimp only) | split)

theorem steady_enterAddressing {s0 s : State} {k : ContextId} (st : Steady s0 s) :
    Steady s0 (enterAddressing k s) := by
  unfold enterAddressing
  try dsimp only
  repeat' (first
    | with_reducible assumption | with_reducible apply steady_collectionEnds | with_reducible apply Steady.modCtx
    | (refine Steady.of_eq ‹_ = (_, _)› ?_) | (dsimp only) | split)

theorem steady_takeAddressDigit {s0 s : State} {k : ContextId} {d : Digit} (st : Steady s0 s) :
    Steady s0 (takeAddressDigit k d s) := by
  unfold takeAddressDigit
  try dsimp only
  repeat' (first
    | with_reducible assumption | with_reducible apply steady_collectionEnds | with_reducible apply Steady.modCtx
    | (refine Steady.of_eq ‹_ = (_, _)› ?_) | (dsimp only) | split)

theorem steady_decideFax {s0 s : State} {k : ContextId} (st : Steady s0 s) :
    Steady s0 (decideFax k s) := by
  unfold decideFax
  try dsimp only
  repeat' (first
    | with_reducible assumption | with_reducible apply steady_startFaxReceive
    | with_reducible apply steady_stopGreeting | with_reducible apply steady_sendEvent)

theorem steady_decideData {s0 s : State} {k : ContextId} (st : Steady s0 s) :
    Steady s0 (decideData k s) := by
  unfold decideData
  try dsimp only
  repeat' (first
    | with_reducible assumption | with_reducible apply steady_startData | with_reducible apply steady_stopGreeting
    | with_reducible apply steady_sendEvent)

theorem steady_decideVoice {s0 s : State} {k : ContextId} {d : Digit} (st : Steady s0 s) :
    Steady s0 (decideVoice k d s) := by
  unfold decideVoice
  try dsimp only
  repeat' (first
    | with_reducible assumption | with_reducible apply steady_enterWaiting
    | with_reducible apply steady_stopGreeting | with_reducible apply steady_sendEvent
    | with_reducible apply Steady.modCtx)

theorem steady_enterProgress {s0 s : State} {k : ContextId} (st : Steady s0 s) : Steady s0 (enterProgress k s) :=
  st.modCtx

theorem steady_dialPhase {s0 s : State} {k : ContextId} {phase : DialPhase} {left : Nat} {code : LineCode} (st : Steady s0 s) :
    Steady s0 (dialPhase k phase left code s) := by
  unfold dialPhase
  try dsimp only
  repeat' (first
    | with_reducible assumption | with_reducible apply Steady.modCtx | with_reducible apply Steady.modDgn)

theorem steady_startCharacters {s0 s : State} {k : ContextId} {n : Nat} (st : Steady s0 s) :
    Steady s0 (startCharacters k n s) := by
  induction n generalizing s with
  | zero => exact steady_enterProgress st
  | succ n ih =>
    unfold startCharacters
    dsimp only
    have k1 := ih (st.modDgn (k := k) (f := fun d => { d with pos := d.pos + 1 }))
    split
    · exact steady_enterProgress st
    · split
      · exact steady_dialPhase st
      · split
        · split
          · exact k1
          · exact steady_setTimer (steady_dialPhase st)
        · split
          · split
            · exact steady_dialPhase st.modDgn
            · exact k1
          · exact (steady_dialPhase st).modCtx

theorem steady_startCharacter {s0 s : State} {k : ContextId} (st : Steady s0 s) :
    Steady s0 (startCharacter k s) := by
  unfold startCharacter
  try dsimp only
  repeat' (first
    | with_reducible assumption | with_reducible apply steady_startCharacters)

theorem steady_nextCharacter {s0 s : State} {k : ContextId} (st : Steady s0 s) :
    Steady s0 (nextCharacter k s) := by
  unfold nextCharacter
  try dsimp only
  repeat' (first
    | with_reducible assumption | with_reducible apply steady_startCharacter | with_reducible apply steady_setTimer
    | with_reducible apply Steady.modDgn)

theorem steady_enterDialling {s0 s : State} {k : ContextId} (st : Steady s0 s) :
    Steady s0 (enterDialling k s) := by
  unfold enterDialling
  try dsimp only
  repeat' (first
    | with_reducible assumption | with_reducible apply steady_startCharacter | with_reducible apply Steady.modCtx)

theorem steady_phaseOver {s0 s : State} {k : ContextId} (st : Steady s0 s) :
    Steady s0 (phaseOver k s) := by
  unfold phaseOver
  try dsimp only
  repeat' (first
    | with_reducible assumption | with_reducible apply steady_nextCharacter | with_reducible apply steady_dialPhase
    | with_reducible apply Steady.modDgn | (refine Steady.of_eq ‹_ = (_, _)› ?_) | (dsimp only) | split)

theorem steady_takeDialTone {s0 s : State} {k : ContextId} (st : Steady s0 s) :
    Steady s0 (takeDialTone k s) := by
  unfold takeDialTone
  try dsimp only
  repeat' (first
    | with_reducible assumption | with_reducible apply steady_nextCharacter | (refine Steady.of_eq ‹_ = (_, _)› ?_)
    | (dsimp only) | split)

theorem steady_answered {s0 s : State} {k : ContextId} (st : Steady s0 s) :
    Steady s0 (answered k s) := by
  unfold answered
  try dsimp only
  repeat' (first
    | with_reducible assumption | with_reducible apply steady_startData | with_reducible apply steady_startFaxSend
    | with_reducible apply steady_beginPlay | with_reducible apply steady_enterWaiting
    | with_reducible apply steady_outdialDone | with_reducible apply Steady.modCtx
    | (refine Steady.of_eq ‹_ = (_, _)› ?_) | (dsimp only) | split)

end Sys2Proof.Machine
end

