-- ==== Sys2Proof/Laws/SteadyTrunk.lean ====
section
/-! SUPPORT. What the operations below the commands leave alone. -/
namespace Sys2Proof.Machine

/-! ### Machine/Trunk.lean -/

theorem steady_chooseFor {s0 s : State} {k : ContextId} (st : Steady s0 s) :
    Steady s0 (chooseFor k s).1 := by
  unfold chooseFor
  try dsimp only
  repeat' (first
    | with_reducible assumption | with_reducible apply steady_offerClaim | with_reducible apply Steady.modCtx
    | with_reducible apply Steady.setBid | (refine Steady.of_eq ‹_ = (_, _)› ?_) | (dsimp only) | split)

theorem steady_outdialFails {s0 s : State} {k : ContextId} {result : Byte} (st : Steady s0 s) :
    Steady s0 (outdialFails k result s) := by
  unfold outdialFails
  try dsimp only
  repeat' (first
    | with_reducible assumption | with_reducible apply steady_outdialDone | with_reducible apply steady_freeContext)

theorem steady_chooseAgain {s0 s : State} {k : ContextId} (st : Steady s0 s) :
    Steady s0 (chooseAgain k s) := by
  unfold chooseAgain
  try dsimp only
  repeat' (first
    | with_reducible assumption | with_reducible apply steady_outdialFails | with_reducible apply steady_chooseFor
    | with_reducible apply steady_freeContext | with_reducible apply Steady.modCtx
    | (refine Steady.of_eq ‹_ = (_, _)› ?_) | (dsimp only) | split)

theorem steady_offerBid {s0 s : State} {k : ContextId} {c : Channel} (st : Steady s0 s) :
    Steady s0 (offerBid k c s) := by
  unfold offerBid
  try dsimp only
  repeat' (first
    | with_reducible assumption | with_reducible apply steady_freeContext | with_reducible apply steady_offerClaim
    | with_reducible apply Steady.setBid | (refine Steady.of_eq ‹_ = (_, _)› ?_) | (dsimp only) | split)

theorem steady_examineBid {s0 s : State} {c : Channel} (st : Steady s0 s) :
    Steady s0 (examineBid c s) := by
  unfold examineBid
  try dsimp only
  repeat' (first
    | with_reducible assumption | with_reducible apply steady_offerBid | with_reducible apply Steady.modCtx
    | with_reducible apply Steady.setBid | (refine Steady.of_eq ‹_ = (_, _)› ?_) | (dsimp only) | split)

theorem steady_examineHuntSet {s0 s : State} (st : Steady s0 s) :
    Steady s0 (examineHuntSet s) := by
  unfold examineHuntSet
  try dsimp only
  repeat' (first
    | with_reducible assumption | with_reducible apply steady_examineBid
    | (refine Steady.forEach ?_ (fun _ _ _ => ?_)) | (refine Steady.of_eq ‹_ = (_, _)› ?_) | (dsimp only) | split)

theorem steady_withdrawalTaken {s0 s : State} {k : ContextId} {b : Bid} {reason : WithdrawReason} (st : Steady s0 s) :
    Steady s0 (withdrawalTaken k b reason s) := by
  unfold withdrawalTaken
  try dsimp only
  repeat' (first
    | with_reducible assumption | with_reducible apply steady_chooseAgain
    | with_reducible apply steady_outdialFails | with_reducible apply steady_freeContext
    | with_reducible apply Steady.setBid | (refine Steady.of_eq ‹_ = (_, _)› ?_) | (dsimp only) | split)

theorem steady_withdraw {s0 s : State} {k : ContextId} {reason : WithdrawReason} (st : Steady s0 s) :
    Steady s0 (withdraw k reason s) := by
  unfold withdraw
  try dsimp only
  repeat' (first
    | with_reducible assumption | with_reducible apply steady_withdrawalTaken
    | (with_reducible refine Steady.modClc ?_ rfl) | with_reducible apply Steady.setBid
    | (refine Steady.of_eq ‹_ = (_, _)› ?_) | (dsimp only) | split)

theorem steady_arbitrationLost {s0 s : State} (st : Steady s0 s) :
    Steady s0 (arbitrationLost s) := by
  unfold arbitrationLost
  try dsimp only
  repeat' (first
    | with_reducible assumption | with_reducible apply steady_withdrawalTaken
    | with_reducible apply steady_examineBid | with_reducible apply steady_removeSending
    | (with_reducible refine Steady.modClc ?_ rfl) | (refine Steady.of_eq ‹_ = (_, _)› ?_) | (dsimp only) | split)

theorem steady_retryElsewhere {s0 s : State} {k : ContextId} {o : Outgoing} (st : Steady s0 s) :
    Steady s0 (retryElsewhere k o s) := by
  unfold retryElsewhere
  try dsimp only
  repeat' (first
    | with_reducible assumption | with_reducible apply steady_outdialFails | with_reducible apply steady_chooseFor
    | with_reducible apply steady_outdialDone | with_reducible apply steady_sendEvent
    | with_reducible apply Steady.modCtx | (refine Steady.of_eq ‹_ = (_, _)› ?_) | (dsimp only) | split)

theorem steady_glare {s0 s : State} {k : ContextId} (st : Steady s0 s) :
    Steady s0 (glare k s) := by
  unfold glare
  try dsimp only
  repeat' (first
    | with_reducible assumption | with_reducible apply steady_retryElsewhere
    | with_reducible apply steady_enterAddressing | with_reducible apply Steady.modCtx
    | (refine Steady.of_eq ‹_ = (_, _)› ?_) | (dsimp only) | split)

theorem steady_lineCode {s0 s : State} {k : ContextId} {code : LineCode} (st : Steady s0 s) :
    Steady s0 (lineCode k code s) := by
  unfold lineCode
  try dsimp only
  repeat' (first
    | with_reducible assumption | with_reducible apply steady_glare | with_reducible apply steady_answered
    | with_reducible apply steady_endCall | (refine Steady.of_eq ‹_ = (_, _)› ?_) | (dsimp only) | split)

theorem steady_claimSent {s0 s : State} {k : ContextId} {b : Bid} (st : Steady s0 s) :
    Steady s0 (claimSent k b s) := by
  unfold claimSent
  try dsimp only
  repeat' (first
    | with_reducible assumption | with_reducible apply steady_lineCode
    | with_reducible apply steady_enterAddressing | with_reducible apply steady_endCall
    | with_reducible apply steady_setTimer | with_reducible apply steady_enableDrive
    | with_reducible apply steady_setView | with_reducible apply Steady.modCtx | with_reducible apply Steady.setBid
    | (refine Steady.of_eq ‹_ = (_, _)› ?_) | (dsimp only) | split)

theorem steady_viewAfterChange {s0 s : State} {c : Channel} {code : LineCode} (st : Steady s0 s) :
    Steady s0 (viewAfterChange c code s) := by
  unfold viewAfterChange
  try dsimp only
  repeat' (first
    | with_reducible assumption | with_reducible apply steady_setView | (refine Steady.of_eq ‹_ = (_, _)› ?_)
    | (dsimp only) | split)

theorem steady_codeAtClaimer {s0 s : State} {k : ContextId} {code : LineCode} (st : Steady s0 s) :
    Steady s0 (codeAtClaimer k code s) := by
  unfold codeAtClaimer
  try dsimp only
  repeat' (first
    | with_reducible assumption | with_reducible apply steady_withdraw | (refine Steady.of_eq ‹_ = (_, _)› ?_)
    | (dsimp only) | split)

theorem steady_codeAtClearer {s0 s : State} {k : ContextId} {code : LineCode} (st : Steady s0 s) :
    Steady s0 (codeAtClearer k code s) := by
  unfold codeAtClearer
  try dsimp only
  repeat' (first
    | with_reducible assumption | with_reducible apply steady_freeContext | (refine Steady.of_eq ‹_ = (_, _)› ?_)
    | (dsimp only) | split)

theorem steady_reportChange {s0 s : State} {c : Channel} {code : LineCode} (st : Steady s0 s) :
    Steady s0 (reportChange c code s) := by
  unfold reportChange
  try dsimp only
  repeat' (first
    | with_reducible assumption | with_reducible apply steady_codeAtClearer
    | with_reducible apply steady_codeAtClaimer | with_reducible apply steady_lineCode
    | (refine Steady.of_eq ‹_ = (_, _)› ?_) | (dsimp only) | split)

theorem steady_receiveChange {s0 s : State} {c : Channel} {code : LineCode} (st : Steady s0 s) :
    Steady s0 (receiveChange c code s) := by
  unfold receiveChange
  try dsimp only
  repeat' (first
    | with_reducible assumption | with_reducible apply steady_reportChange
    | with_reducible apply steady_viewAfterChange | with_reducible apply steady_examineBid
    | (refine Steady.of_eq ‹_ = (_, _)› ?_) | (dsimp only) | split)

theorem steady_settleWith {s0 s : State} {f : Settling → Settling × Bool} {g : Settling → Settling × Bool} {c : Channel} (st : Steady s0 s) :
    Steady s0 (settleWith f g c s) := by
  unfold settleWith
  try dsimp only
  repeat' (first
    | with_reducible assumption | with_reducible apply steady_receiveChange | with_reducible apply Steady.modEntry
    | (refine Steady.of_eq ‹_ = (_, _)› ?_) | (dsimp only) | split)

theorem steady_deliverCodes {s0 s : State} (st : Steady s0 s) :
    Steady s0 (deliverCodes s) := by
  unfold deliverCodes
  try dsimp only
  repeat' (first
    | with_reducible assumption | with_reducible apply steady_settleWith
    | (refine Steady.forEach ?_ (fun _ _ _ => ?_)))

theorem steady_applySettleCount {s0 s : State} (st : Steady s0 s) :
    Steady s0 (applySettleCount s) := by
  unfold applySettleCount
  try dsimp only
  repeat' (first
    | with_reducible assumption | with_reducible apply steady_settleWith
    | (refine Steady.forEach ?_ (fun _ _ _ => ?_)))

theorem steady_takeClaim {s0 s : State} {p : Fin 8} {c : Channel} (st : Steady s0 s) :
    Steady s0 (takeClaim p c s) := by
  unfold takeClaim
  try dsimp only
  repeat' (first
    | with_reducible assumption | with_reducible apply steady_withdraw | with_reducible apply steady_freeContext
    | with_reducible apply steady_endDrive | with_reducible apply steady_setView
    | with_reducible apply steady_sendDispute | (refine Steady.of_eq ‹_ = (_, _)› ?_) | (dsimp only) | split)

theorem steady_takeRelease {s0 s : State} {p : Fin 8} {c : Channel} (st : Steady s0 s) :
    Steady s0 (takeRelease p c s) := by
  unfold takeRelease
  try dsimp only
  repeat' (first
    | with_reducible assumption | with_reducible apply steady_setView | (refine Steady.of_eq ‹_ = (_, _)› ?_)
    | (dsimp only) | split)

theorem steady_takeDispute {s0 s : State} {q : Fin 8} {c : Channel} (st : Steady s0 s) :
    Steady s0 (takeDispute q c s) := by
  unfold takeDispute
  try dsimp only
  repeat' (first
    | with_reducible assumption | with_reducible apply steady_endCall | with_reducible apply steady_freeContext
    | with_reducible apply steady_endDrive | with_reducible apply steady_setView
    | with_reducible apply steady_writeFault | (refine Steady.of_eq ‹_ = (_, _)› ?_) | (dsimp only) | split)

theorem steady_contention {s0 s : State} {c : Channel} (st : Steady s0 s) :
    Steady s0 (contention c s) := by
  unfold contention
  try dsimp only
  repeat' (first
    | with_reducible assumption | with_reducible apply steady_endCall | with_reducible apply steady_freeContext
    | with_reducible apply steady_endDrive | with_reducible apply steady_setView
    | with_reducible apply steady_writeFault | (refine Steady.of_eq ‹_ = (_, _)› ?_) | (dsimp only) | split)

/-! ### Machine/Detector.lean -/

theorem steady_digitInSession {s0 s : State} {k : ContextId} {d : Digit} (st : Steady s0 s) :
    Steady s0 (digitInSession k d s) := by
  unfold digitInSession
  try dsimp only
  repeat' (first
    | with_reducible assumption | with_reducible apply steady_playbackOver
    | with_reducible apply steady_enterWaiting | with_reducible apply steady_finishRecording
    | with_reducible apply steady_stopPlayback | with_reducible apply steady_sendEvent
    | with_reducible apply Steady.modVoice | (refine Steady.of_eq ‹_ = (_, _)› ?_) | (dsimp only) | split)

theorem steady_takeDigit {s0 s : State} {k : ContextId} {d : Digit} (st : Steady s0 s) :
    Steady s0 (takeDigit k d s) := by
  unfold takeDigit
  try dsimp only
  repeat' (first
    | with_reducible assumption | with_reducible apply steady_digitInSession
    | with_reducible apply steady_decideVoice | with_reducible apply steady_takeAddressDigit
    | (refine Steady.of_eq ‹_ = (_, _)› ?_) | (dsimp only) | split)

theorem steady_takeTone {s0 s : State} {k : ContextId} {cause : Byte} (st : Steady s0 s) :
    Steady s0 (takeTone k cause s) := by
  unfold takeTone
  try dsimp only
  repeat' (first
    | with_reducible assumption | with_reducible apply steady_endCall | (refine Steady.of_eq ‹_ = (_, _)› ?_)
    | (dsimp only) | split)

theorem steady_takeReport {s0 s : State} {k : ContextId} {listening : Bool} {r : Report} (st : Steady s0 s) :
    Steady s0 (takeReport k listening r s) := by
  unfold takeReport
  try dsimp only
  repeat' (first
    | with_reducible assumption | with_reducible apply steady_takeTone | with_reducible apply steady_takeDigit
    | with_reducible apply steady_takeDialTone | with_reducible apply steady_decideData
    | with_reducible apply steady_decideFax | with_reducible apply Steady.modVoice
    | (refine Steady.of_eq ‹_ = (_, _)› ?_) | (dsimp only) | split)

theorem steady_detectorBlockEnds {s0 s : State} {k : ContextId} {m : Measurement} (st : Steady s0 s) :
    Steady s0 (detectorBlockEnds k m s) := by
  unfold detectorBlockEnds
  try dsimp only
  repeat' (first
    | with_reducible assumption | with_reducible apply steady_takeReport | with_reducible apply Steady.modDetector
    | (refine Steady.forEach ?_ (fun _ _ _ => ?_)))

/-! ### Machine/Station.lean -/

theorem steady_headGoesOut {s0 s : State} (st : Steady s0 s) :
    Steady s0 (headGoesOut s) := by
  unfold headGoesOut
  try dsimp only
  repeat' (first
    | with_reducible assumption | (with_reducible refine Steady.modClc ?_ rfl)
    | (refine Steady.of_eq ‹_ = (_, _)› ?_) | (dsimp only) | split)

theorem steady_sendStatus {s0 s : State} {x : Cell} {selector : Nat} {number : Option Nat} {contents : List Byte} (st : Steady s0 s) :
    Steady s0 (sendStatus x selector number contents s) := by
  unfold sendStatus
  try dsimp only
  repeat' (first
    | with_reducible assumption | with_reducible apply steady_offerReport)

theorem steady_sendAbsent {s0 s : State} {x : Cell} {selector : Nat} {length : Nat} (st : Steady s0 s) :
    Steady s0 (sendAbsent x selector length s) := by
  unfold sendAbsent
  try dsimp only
  repeat' (first
    | with_reducible assumption | with_reducible apply steady_sendStatus)

theorem steady_queryStation {s0 s : State} {x : Cell} (st : Steady s0 s) :
    Steady s0 (queryStation x s) := by
  unfold queryStation
  try dsimp only
  repeat' (first
    | with_reducible assumption | with_reducible apply steady_sendStatus)

theorem steady_queryContext {s0 s : State} {x : Cell} (st : Steady s0 s) :
    Steady s0 (queryContext x s) := by
  unfold queryContext
  try dsimp only
  repeat' (first
    | with_reducible assumption | with_reducible apply steady_sendAbsent | with_reducible apply steady_sendStatus
    | (refine Steady.of_eq ‹_ = (_, _)› ?_) | (dsimp only) | split)

theorem steady_queryMap {s0 s : State} {x : Cell} (st : Steady s0 s) :
    Steady s0 (queryMap x s) := by
  unfold queryMap
  try dsimp only
  repeat' (first
    | with_reducible assumption | with_reducible apply steady_sendStatus)

theorem steady_queryMailbox {s0 s : State} {x : Cell} (st : Steady s0 s) :
    Steady s0 (queryMailbox x s) := by
  unfold queryMailbox
  try dsimp only
  repeat' (first
    | with_reducible assumption | with_reducible apply steady_sendAbsent | with_reducible apply steady_sendStatus
    | (refine Steady.of_eq ‹_ = (_, _)› ?_) | (dsimp only) | split)

theorem steady_queryMessage {s0 s : State} {x : Cell} (st : Steady s0 s) :
    Steady s0 (queryMessage x s) := by
  unfold queryMessage
  try dsimp only
  repeat' (first
    | with_reducible assumption | with_reducible apply steady_sendAbsent | with_reducible apply steady_sendStatus
    | (refine Steady.of_eq ‹_ = (_, _)› ?_) | (dsimp only) | split)

theorem steady_queryFaults {s0 s : State} {x : Cell} (st : Steady s0 s) :
    Steady s0 (queryFaults x s) := by
  unfold queryFaults
  try dsimp only
  repeat' (first
    | with_reducible assumption | with_reducible apply steady_sendStatus)

/-! ### Machine/Line.lean -/

theorem steady_afterDeposit {s0 s : State} {k : ContextId} (st : Steady s0 s) :
    Steady s0 (afterDeposit k s) := by
  unfold afterDeposit
  try dsimp only
  repeat' (first
    | with_reducible assumption | with_reducible apply steady_beginFaxDeposit
    | with_reducible apply steady_beginDeposit | (refine Steady.of_eq ‹_ = (_, _)› ?_) | (dsimp only) | split)

theorem steady_depositEnds {s0 s : State} {k : ContextId} {d : OutDeposit} {o : DepositOutcome} (st : Steady s0 s) :
    Steady s0 (depositEnds k d o s) := by
  unfold depositEnds
  try dsimp only
  repeat' (first
    | with_reducible assumption | with_reducible apply steady_afterDeposit
    | with_reducible apply steady_faxDepositEnded | with_reducible apply steady_recordingDepositEnded
    | with_reducible apply steady_freeDeposit | (refine Steady.of_eq ‹_ = (_, _)› ?_) | (dsimp only) | split)

theorem steady_fetchEnds {s0 s : State} {k : ContextId} {o : FetchOutcome} (st : Steady s0 s) :
    Steady s0 (fetchEnds k o s) := by
  unfold fetchEnds
  try dsimp only
  repeat' (first
    | with_reducible assumption | with_reducible apply steady_faxFetchEnded
    | with_reducible apply steady_playFetchEnded | with_reducible apply steady_endFetch
    | (refine Steady.of_eq ‹_ = (_, _)› ?_) | (dsimp only) | split)

theorem steady_undelivered {s0 s : State} {k : ContextId} {kind : Byte} {serial : Nat} (st : Steady s0 s) :
    Steady s0 (undelivered k kind serial s) := by
  unfold undelivered
  try dsimp only
  repeat' (first
    | with_reducible assumption | with_reducible apply steady_fetchEnds | with_reducible apply steady_depositEnds
    | (refine Steady.of_eq ‹_ = (_, _)› ?_) | (dsimp only) | split)

theorem steady_settleNotices {s0 s : State} {n : Nat} (st : Steady s0 s) : Steady s0 (settleNotices n s) := by
  induction n generalizing s with
  | zero => exact st
  | succ n ih =>
    unfold settleNotices
    split
    · exact st
    · exact ih (steady_undelivered st.modRau)

theorem steady_settle {s0 s : State} (st : Steady s0 s) : Steady s0 (settle s) :=
  (steady_settleNotices st).modRau

theorem steady_tellProducer {s0 s : State} {x : TxCell} {ok : Bool} (st : Steady s0 s) :
    Steady s0 (tellProducer x ok s) := by
  unfold tellProducer
  try dsimp only
  repeat' (first
    | with_reducible assumption | with_reducible apply steady_undelivered | with_reducible apply steady_claimSent
    | (refine Steady.of_eq ‹_ = (_, _)› ?_) | (dsimp only) | split)

end Sys2Proof.Machine
end

