-- ==== Sys2Proof/Laws/Tone.lean ====
section
/-! SUPPORT. What a sample of a tone can be: one of the code bytes next to the value of its sines. -/
namespace Sys2Proof.Machine

theorem foldl_pick_mem {α : Type} (f : α → α → α) (hf : ∀ a b, f a b = a ∨ f a b = b) (l : List α) (a : α) :
    l.foldl f a ∈ a :: l := by
  induction l generalizing a with
  | nil => simp
  | cons b l ih =>
    have h := ih (f a b)
    rcases hf a b with e | e <;> rw [e] at h <;> simp only [List.foldl_cons, e, List.mem_cons] at h ⊢
    · exact h.imp_right Or.inr
    · exact Or.inr h

theorem exists_code_of_mem {l : List Int} {a v : Int} (hl : ∀ x ∈ l, x ∈ allCodes.map expand)
    (ha : a ∈ allCodes.map expand) (hv : v ∈ a :: l) : ∃ c ∈ allCodes, expand c = v :=
  List.mem_map.1 ((List.mem_cons.1 hv).elim (fun e => e ▸ ha) (hl v))

theorem roundings_ne_nil (v : Int) : roundings v ≠ [] := by
  obtain ⟨c, hc, e⟩ := exists_code_of_mem
    (l := (allCodes.map expand).filter fun x => decide (65536 * x ≤ v)) (fun x hx => (List.mem_filter.1 hx).1)
    (by decide +kernel : (-8031 : Int) ∈ allCodes.map expand) (foldl_pick_mem max (fun a b => by omega) _ _)
  refine List.ne_nil_of_mem (a := c) (List.mem_filter.2 ⟨hc, ?_⟩)
  simp only [e, beq_self_eq_true, Bool.true_or]

theorem roundedBy_mem (choice : Nat) (v : Int) : roundedBy choice v ∈ roundings v := by
  have h : choice % (roundings v).length < (roundings v).length :=
    Nat.mod_lt _ (List.length_pos_iff.2 (roundings_ne_nil v))
  unfold roundedBy
  dsimp only
  rw [List.getD_eq_getElem _ _ h]
  exact List.getElem_mem h

/-- All that the next sample of a tone does: the phases stand once the tone has begun, one more sample is counted, one free
value is used, and a code byte next to the value of the sines is sent. -/
theorem takeToneSample_spec (k : ContextId) (tone : List ToneLine) (s : State) : ∃ phase,
    ((s.at k).tone.sent ≠ 0 → phase = (s.at k).tone.phase)
      ∧ (takeToneSample k tone s).1 =
        { s.modCtx k fun x => { x with tone := { phase, sent := (s.at k).tone.sent + 1 } } with free := s.free + 1 }
      ∧ (takeToneSample k tone s).2 ∈ roundings (toneWave (Config.tonePhase phase) tone (s.at k).tone.sent) := by
  unfold takeToneSample
  by_cases h : (s.at k).tone.sent = 0
  · exact ⟨s.free, fun n => absurd h n, by simp [h], by simpa [h] using roundedBy_mem _ _⟩
  · exact ⟨_, fun _ => rfl, by simp [h], by simpa [h] using roundedBy_mem _ _⟩

end Sys2Proof.Machine
end

