-- ==== Sys2Proof/WellFormed.lean ====
section
/-! DEFINITION. Which commands the station's surroundings can send: the operands of the right shape. The machine
gives every command a meaning; what is ill formed here cannot come from the highway, the line or the pump. -/
namespace Sys2Proof

/-- A frame carries one sample of each of the 32 channels on each line (R1). -/
def samplesWellFormed (samples : List Byte) : Bool := samples.length == 32

/-- A cell on the wire has seven bytes beside a payload of 0..72 (R21); fewer bytes than the header and check can be
read only when the cell broke off. -/
def cellBytesWellFormed (bytes : List Byte) (guardError : Bool) : Bool :=
  guardError || (7 ≤ bytes.length && bytes.length ≤ 79)

/-- Seven peers and the gateway at most contend beside this station (R24). -/
def contendersWellFormed (others : List Byte) : Bool := others.length ≤ 8

/-- A fax frame carries 256 data bytes (10, Frames on the line). -/
def faxDataWellFormed (data : List Byte) : Bool := data.length == 256

/-- A DATA link block carries 1..64 bytes (11, The block link). -/
def linkDataWellFormed (data : List Byte) : Bool := 1 ≤ data.length && data.length ≤ 64

/-- No part of a block's power exceeds the whole of it (R87). -/
def Measurement.wellFormed (m : Measurement) : Bool := m.bandPower ≤ m.totalPower

/-- A block handed to an append has 512 bytes, and 1..1016 samples or none for a FAX message (R103, R111). -/
def StoreOp.wellFormed : StoreOp → Bool
  | .append _ block samples => block.length == 512 && samples ≤ 1016
  | _ => true

/-- The operands of a command have the shape that the highway, the line or the pump gives them. -/
def Instr.wellFormed : Instr → Bool
  | .highwayFrame _ rx _ back _ => samplesWellFormed rx && samplesWellFormed back
  | .superframeBoundary ticks => ticks ≤ 32767
  | .lineFree others => contendersWellFormed others
  | .cellReceived bytes ending => cellBytesWellFormed bytes ending.guardError
  | .detectorBlockEnd _ m => m.wellFormed
  | .readerSilenceDrop _ _ context => context ≤ 255
  | .faxFrameReceived _ _ _ data => faxDataWellFormed data
  | .dataBlockReceived _ _ data => linkDataWellFormed data
  | .powerOn _ loss => loss.ops.all StoreOp.wellFormed
  | .restart _ | .frameWordSearch _ _ | .frameWordVerify _ | .frameWordAligned _ _
  | .tickCountLimit | .localStationTimeCount | .minuteClockStep | .holdPeriodExpiry | .cellOutcome _
  | .claimOutcome _ | .releaseOutcome _ | .depositCellUndelivered _ | .fetchOpenUndelivered _ | .roomAppeared
  | .configure | .setTime | .statusQueryStation | .statusQueryContext | .statusQueryMap | .statusQueryMailbox
  | .statusQueryMessage | .statusQueryFaults | .faultClear | .mboxCreate | .mboxRemove | .outdial | .play
  | .record | .stop | .faxReceive | .faxSend | .dataConnect | .dataTx | .drop | .mboxQuery | .msgMarkHeard
  | .msgMarkUnheard | .msgMarkDelete | .answer | .claim | .release | .dispute | .depositOpen | .depositAccept
  | .depositRefuse | .depositData | .blockTaken | .depositRollback | .depositClose | .depositClosed
  | .fetchOpen | .fetchGrant | .fetchRefuse | .fetchBlock | .fetchData | .fetchClose | .bidTimerExpiry _
  | .blockTimerExpiry _ | .addressTimerExpiry _ | .answerDelayExpiry _ | .discriminationTimerExpiry _
  | .seizureGuardExpiry _ | .dialPhaseEnd _ | .dialToneWaitExpiry _ | .progressTimerExpiry _ | .letGo _
  | .clearingTimeExpiry _ | .beepTimerExpiry _ | .idleTimerExpiry _ | .slotFillTimeout _ | .assemblyTimeout _
  | .depositSilenceClose _ | .depositReplyTimerExpiry _ | .fetchReplyTimerExpiry _ | .fetchKeepalive _
  | .startUpScanEnd | .controlFrameBadCheck _ | .capability _ _ | .mode _ _ | .trainGood _ | .trainBad _
  | .pageEnd _ _ | .pageGood _ | .pageRetrain _ | .pageBad _ | .disconnect _ | .controlFrameSent _
  | .sendTrainingEnd _ | .pageLastFrameSent _ | .faxWaitTimerExpiry _ | .noiseReading _ _ | .shiftEnded _
  | .shiftFailed _ | .trainingFailed _ | .trainingTimerExpiry _ | .farEndShiftRequest _ _ | .remoteTraining _
  | .linkBlockBadCheck _ | .ackReceived _ _ | .holdReceived _ _ | .resendTimerExpiry _ | .remoteHoldExpiry _
  | .unownedCellDiscarded => true

end Sys2Proof
end

