-- ==== Sys2Proof/Tests/Slice0.lean ====
section
/-! SUPPORT. Tests: small states, one step each, and a witness for the hypotheses of each obligation. -/
namespace Sys2Proof.Tests
open Sys2Proof.Machine

-- One theorem at a time: each that waits for the kernel would else hold a thread and its stack.
set_option Elab.async false

/-! ### Small states -/

/-- A configuration of two stations that hunts and dials on every channel. -/
def cfg : ConfigRecord :=
  { groupSize := 2, huntSet := 0xFFFFFFFF, outdialSet := 0xFFFFFFFF, pulseSet := 0x2, settleCount := 2
    timingThreshold := 16, answerDelay := 3, addressDigits := 2, defaultMailbox := 4, quietThreshold := 10
    silenceBlocks := 4, maxBlocks := 100, rateMin := 2, rateMax := 9, errorBurst := 3, toneLength := 80, gapLength := 70
    faxMaxRate := 4, faxAllowed := true, dataAllowed := true }

def box (number : Nat) (list : List Nat) (greeting : Option Nat) : Mbx :=
  { number, limit := 5, list, openCount := 1, greeting, greetingOpen := false }

/-- A message of mailbox 4 whose blocks begin at 80. -/
def msg (state : MsgState) (kind : MsgKind) (count length : Nat) : Msg :=
  { state, kind, mailbox := 4, first := if count = 0 then none else some 80
    last := if count = 0 then none else some (79 + count), count, length, pageMark := 0, heard := false
    truncated := false, gaps := false, damaged := false, stamp := none, writer := none, readers := [] }

/-- Station 0, ALIGNED and ACTIVE, with every channel FREE, mailbox 4 here, and four free blocks. -/
def base : State :=
  { State.reset with
    hwi := { Hwi.reset with align := .aligned 0, tickCount := some 5 }
    clc := { Clc.reset with line := .busy }
    cfu := { Cfu.reset 0 0 with state := .active, config := some cfg, minute := 7 }
    tcm := { Tcm.reset with map := .replicate 32 { MapEntry.reset with view := .free } }
    msc := { Msc.reset with
      state := .ready, freeList := [90, 91, 92, 93], lowMark := true, mbxs := [box 4 [] none]
      links := [(80, 81), (81, 82)] } }

/-- A cell from the gateway, or from a peer. -/
def fromGateway (kind : Byte) (payload : List Byte) : Cell := { prio := 7, src := 15, dst := 0, kind, tag := 9, payload }
def fromPeer (kind tag : Byte) (payload : List Byte) : Cell := { prio := 4, src := 1, dst := 0, kind, tag, payload }

def receiving (s : State) (c : Cell) : State := { s with clc := { s.clc with rx := [c] } }
def asked (s : State) (kind : Byte) (payload : List Byte) : State := receiving s (fromGateway kind payload)
def put (s : State) (k : ContextId) (x : Context) : State := { s with ctx := s.ctx.set k x }
def viewed (s : State) (ch : Channel) (v : View) : State := s.modEntry ch fun e => { e with view := v }

/-- A context that holds its channel. -/
def calling (state : CtxState) (session : SessionKind) (ch : Channel) : Context :=
  { Context.reset with state, session, channel := some ch, direction := some .incoming, announced := true }

/-- Context 0 on channel 3 in a state of a call. -/
def callOn (s : State) (state : CtxState) (session : SessionKind) : State :=
  viewed (put s 0 (calling state session 3)) 3 (.self 0)

/-- The state after one command; every command answers a next state. -/
def after (c : Instr) (s : State) : State := match exec c s with | .next t => t | _ => s

def withConfig (g : ConfigRecord) (s : State) : State := { s with cfu := { s.cfu with config := some g } }
def withTx (q : List TxCell) (s : State) : State := { s with clc := { s.clc with tx := q } }
def keep (h : Nat) (m : Msg) (s : State) : State := s.setMsgAt h (some m)
/-- A cell of station 0, waiting or in transmission. -/
def waits (c : Cell) (serial : Nat) (sending : Bool) : TxCell := { freshTx c serial with sending }

/-- The cell just received is the gateway's request that a command takes. -/
abbrev Asks (s : State) (kind : Byte) (p : List Byte) : Prop :=
  decide (AskedActive (asked s kind p) (fromGateway kind p) kind ∧ (asked s kind p).Quiet) = true
/-- The cell just received is the cell of station 1 that a command takes. -/
abbrev Sends (s : State) (kind tag : Byte) (p : List Byte) : Prop :=
  decide (FromPeer (receiving s (fromPeer kind tag p)) (fromPeer kind tag p) kind 1
    ∧ (receiving s (fromPeer kind tag p)).Quiet) = true

/-! ### Ill-formed operands are refused -/

theorem test_frame_without_samples_refused : (Instr.highwayFrame 0 [] 0 [] 0).wellFormed = false := by decide
theorem test_too_many_ticks_refused : (Instr.superframeBoundary 32768).wellFormed = false := by decide
theorem test_nine_contenders_refused : (Instr.lineFree (List.replicate 9 0)).wellFormed = false := by decide
theorem test_short_cell_refused : (Instr.cellReceived [1, 2] ⟨false, false⟩).wellFormed = false := by decide
theorem test_long_cell_refused : (Instr.cellReceived (List.replicate 80 0) ⟨false, false⟩).wellFormed = false := by decide
theorem test_band_above_total_refused :
    (Instr.detectorBlockEnd 0 { lines := [], bandPower := 2, totalPower := 1, level := 0 }).wellFormed = false := by decide
theorem test_reader_context_refused : (Instr.readerSilenceDrop 0 1 256).wellFormed = false := by decide
theorem test_short_fax_frame_refused : (Instr.faxFrameReceived 0 true 0 [1]).wellFormed = false := by decide
theorem test_empty_data_block_refused : (Instr.dataBlockReceived 0 0 []).wellFormed = false := by decide
theorem test_long_data_block_refused : (Instr.dataBlockReceived 0 0 (List.replicate 65 0)).wellFormed = false := by decide
theorem test_short_append_refused :
    (Instr.powerOn { station := 0, storeSize := 0 } { ops := [.append 0 [1] 1], writes := 1 }).wellFormed = false := by decide
theorem test_cell_of_seven_bytes_accepted : (Instr.cellReceived (List.replicate 7 0) ⟨false, false⟩).wellFormed = true := by decide

/-! ### Witnesses: the machine -/

theorem witness_StepRunsFrontCommand : ({ base with pending := [.tickCountLimit] }).pending = .tickCountLimit :: [] := rfl

def tickAt (n : Option Nat) : State := { base with hwi := { base.hwi with tickCount := n } }
def localAt (n : Nat) : State := { State.reset with hwi := { Hwi.reset with localCount := n } }

theorem witness_IdleStepTicksTheReference : base.pending = [] ∧ base.Quiet ∧ (tickAt none).hwi.align = .aligned 0
    ∧ (tickAt none).hwi.tickCount = none ∧ (tickAt (some 32765)).hwi.tickCount = some 32765 ∧ 32765 + 1 < 32767
    ∧ (tickAt (some 32766)).hwi.tickCount = some 32766 ∧ isAligned (localAt 24574) = false
    ∧ (localAt 24574).hwi.localCount + 1 < 24576 ∧ 24576 ≤ (localAt 24575).hwi.localCount + 1 := by decide +kernel

/-- Station 0 with one command waiting is inside every range, and its step answers a next state. -/
theorem base_in_range : ({ base with pending := [.idleTimerExpiry 0] }).InRange :=
  ⟨by decide +kernel, by decide +kernel, by decide +kernel, by decide +kernel, by decide +kernel, by decide +kernel,
    by decide +kernel⟩
theorem witness_EveryStepKeepsRanges : ({ base with pending := [.tickCountLimit] }).InRange
    ∧ ∃ t, step { base with pending := [.tickCountLimit] } = .next t := ⟨base_in_range, _, rfl⟩
theorem witness_EveryStepTellsItsNotices : base.Quiet ∧ ∃ t, step { base with pending := [.tickCountLimit] } = .next t :=
  ⟨rfl, _, rfl⟩
theorem witness_CommandsWriteOnlyTheirRegisters : cause .setTime = .received ∧ cause (.idleTimerExpiry 0) = .inner
    ∧ cause .tickCountLimit = .highway ∧ cause (.cellReceived [] ⟨true, false⟩) = .line ∧ base.cfu.config.isSome = true
    ∧ (∃ t, exec .setTime (asked base kindSetTime [0, 0, 9]) = .next t) ∧ (∃ t, exec (.idleTimerExpiry 0) base = .next t)
    ∧ (∃ t, exec .tickCountLimit base = .next t) ∧ ∃ t, exec (.cellReceived [] ⟨true, false⟩) base = .next t :=
  ⟨rfl, rfl, rfl, rfl, rfl, ⟨_, rfl⟩, ⟨_, rfl⟩, ⟨_, rfl⟩, _, rfl⟩
theorem witness_EveryCommandIsCarriedOut : ∀ straps loss, Instr.tickCountLimit ≠ .powerOn straps loss := by simp
theorem witness_ContextCommandsLeaveOtherContexts : subject (.idleTimerExpiry 0) = some 0 ∧ base.Quiet
    ∧ (∃ t, exec (.idleTimerExpiry 0) base = .next t) ∧ (1 : ContextId) ≠ 0 := ⟨rfl, rfl, ⟨_, rfl⟩, by decide⟩

/-! ### Witnesses: power-on, restart and the highway -/

theorem witness_PowerOnSetsEveryBlock : ∀ h, State.reset.msg h = none := fun h => Bank.get_replicate h none
/-- An OPEN message, a CLOSED one in its mailbox's list, and an OPEN greeting beside the mailbox's greeting. -/
def appending : State := keep 3 { msg .opened .voice 2 2032 with writer := some (.here 0) } base
def stored : State :=
  let s := keep 3 (msg .closed .voice 3 3000) base
  { s with msc := { s.msc with mbxs := [box 4 [3] none] } }
def greetedAgain : State :=
  let s := keep 5 { msg .opened .greeting 2 2032 with writer := some (.here 0) } (keep 3 (msg .closed .greeting 2 2032) base)
  { s with msc := { s.msc with mbxs := [{ box 4 [] (some 3) with greetingOpen := true }] } }
theorem witness_power_lost_in_an_operation : appending.msc.state = .ready ∧ stored.msc.state = .ready
    ∧ greetedAgain.msc.state = .ready
    ∧ appending.msg 3 = some { msg .opened .voice 2 2032 with writer := some (.here 0) }
    ∧ appending.msc.freeList = 90 :: [91, 92, 93] ∧ (msg .opened .voice 2 2032).last = some 81
    ∧ stored.msg 3 = some (msg .closed .voice 3 3000) ∧ stored.cfu.config.isSome = true
    ∧ greetedAgain.msg 5 = some { msg .opened .greeting 2 2032 with writer := some (.here 0) }
    ∧ greetedAgain.msg 3 = some (msg .closed .greeting 2 2032)
    ∧ greetedAgain.msc.mbxs.find? (·.number = 4) = some { box 4 [] (some 3) with greetingOpen := true }
    ∧ reasonStopped ∉ [reasonSilence, reasonFarEndClear, reasonStoreFull, reasonWriterLost] := by decide +kernel
/-- R117: a delete cut between its writes leaves a list entry that names a FREE record. -/
theorem test_power_lost_in_a_delete : ∀ n ∈ [0, 1, 2],
    let t := interrupted { ops := [.mark 3 2], writes := n } stored
    t.msg 3 = (if n = 0 then some (msg .closed .voice 3 3000) else none)
      ∧ t.msc.mbxs.map (·.list) = [if n ≤ 1 then [3] else []] := by decide +kernel
/-- Message 0 alone, of `count` blocks from block 80; the links run from 80 over 81 to 82. -/
def oneRecord (count : Nat) : State := keep 0 (msg .closed .voice count 3000) base
theorem only_record (count : Nat) : ∀ j : Handle, j ≠ 0 → (oneRecord count).msg j = none := fun j h =>
  (Bank.get_set_ne _ 0 j _ h).trans (Bank.get_replicate j none)
/-- A chain of three blocks, whole: its path meets what the statement asks of one. -/
theorem witness_whole_chain : let path := [80, 81, 82]
    (oneRecord 3).msg 0 = some (msg .closed .voice 3 3000) ∧ path ≠ [] ∧ path.length = (msg .closed .voice 3 3000).count
      ∧ path.head? = (msg .closed .voice 3 3000).first ∧ path.getLast? = (msg .closed .voice 3 3000).last ∧ path.Nodup
      ∧ (∀ b ∈ path, 80 ≤ b ∧ b < 1024 * 2 ^ (0 : Fin 4).val)
      ∧ ∀ i b, path[i]? = some b → Links.next (oneRecord 3).msc.links b = path[i + 1]? := by
  refine ⟨by decide +kernel, by decide, rfl, rfl, rfl, by decide, by decide, fun i b h => ?_⟩
  match i with
  | 0 => cases h; rfl
  | 1 => cases h; rfl
  | 2 => cases h; rfl
  | n + 3 => cases h
/-- A record of two blocks whose second one links on: no path meets it. -/
theorem witness_broken_chain : (oneRecord 2).msg 0 = some (msg .closed .voice 2 3000)
    ∧ ∀ path : List Nat, path.length = 2 → path.head? = some 80 →
      ¬ ∀ i b, path[i]? = some b → Links.next (oneRecord 2).msc.links b = path[i + 1]? := by
  refine ⟨by decide +kernel, fun path hl hh hc => ?_⟩
  obtain ⟨a, b, rfl⟩ := List.length_eq_two.1 hl
  cases hh
  have h1 : some 81 = some b := hc 0 80 rfl
  cases h1
  exact absurd (hc 1 81 rfl : some 82 = none) (by decide)

def atRestart (dst : BitVec 4) : State := receiving base { fromGateway kindRestart [] with dst }
theorem witness_RestartKeepsAlignmentAndMemory : (atRestart 0).Quiet
    ∧ Asked (atRestart 0) { fromGateway kindRestart [] with dst := 0 } kindRestart ∧ (0 : BitVec 4) ≠ allStations
    ∧ Asked (atRestart 14) { fromGateway kindRestart [] with dst := 14 } kindRestart ∧ (14 : BitVec 4) = allStations := by
  decide +kernel

def alignedIn (a : AlignState) (s : State) : State := { s with hwi := { s.hwi with align := a } }
/-- ALIGNED at a position, with bad frame words behind it. -/
def misread (position errors : Nat) (s : State) : State :=
  { s with hwi := { s.hwi with align := .aligned position, errors } }
theorem witness_SearchRecordsTheCandidate : State.reset.Quiet ∧ State.reset.hwi.align = .search
    ∧ (0b01110110 : Byte).toNat % 32 = 0b10110 ∧ (0b01110111 : Byte).toNat % 32 ≠ 0b10110 ∧ base.hwi.align ≠ .search := by
  decide +kernel

theorem witness_FrameWordsAreCounted : (alignedIn (.verify 2175 1 7) base).hwi.align = .verify 2175 1 7
    ∧ (0b11110110 : Byte).toNat = 32 * (7 : Fin 8).val + 22 ∧ 1 + 1 < 3 ∧ (0 : Byte).toNat ≠ 32 * (7 : Fin 8).val + 22
    ∧ (misread 2175 2 base).hwi.align = .aligned 2175 ∧ (misread 2175 2 base).hwi.errors + 1 < 4
    ∧ (misread 2175 2 base).Quiet := by decide +kernel

/-- Context 0, held, plays block 2 of a message of station 1, with blocks asked for in its first slot or none. -/
def heldRead (a : Slot) (blocks : Nat) : State :=
  let x := calling .connected .voice 3
  let s := viewed (put base 0 { x with
    held := true, voice := { x.voice with activity := .playing }
    vcd := { x.vcd with
      mark := .underrun, current := some (2, 9), source := some .fetched, blocks, buffer := { a, b := .empty } } }) 3 (.self 0)
  alignedIn (.verify 9 2 7) (s.setFetch 0 (some
    { home := 1, mailbox := none, handle := some 5, state := .opened, pending := [], timer := none, keepalive := 0, serial := 1 }))
theorem witness_AlignmentResumesHeldCalls :
    (∀ a ∈ [Slot.empty, .ready 2 (List.replicate 512 0x70)], ∀ blocks ∈ [3, 9], let s := heldRead a blocks
      s.Quiet ∧ s.hwi.align = .verify 9 2 7 ∧ 3 ≤ 2 + 1 ∧ (0b11110110 : Byte).toNat = 32 * (7 : Fin 8).val + 22
        ∧ s.cfu.state ≠ .starting ∧ (∀ k, (s.at k).session ≠ .data) ∧ (s.at 0).held = true
        ∧ (s.at 0).fax.phase ≠ .sending ∧ (s.at 0).fax.source = none ∧ (s.at 0).vcd.source = some .fetched
        ∧ (s.at 0).vcd.current = some (2, 9) ∧ (s.at 0).vcd.mark = .underrun
        ∧ ∀ j, j ≠ 0 → (s.at j).held = false)
    ∧ 3 ≤ ((heldRead (.ready 2 []) 3).at 0).vcd.buffer.next 2
    ∧ (let s := heldRead .empty 9
      (s.at 0).vcd.buffer = Buffer.reset ∧ 2 + 1 < (s.at 0).vcd.blocks ∧ s.clc.tx.length ≤ 21
        ∧ (s.fetch 0).map (·.handle) = some (some 5) ∧ (s.fetch 0).map (·.pending) = some []) := by decide +kernel

def holdOver : State :=
  { put base 0 { calling .connected .voice 3 with held := true } with
    hwi := { Hwi.reset with hold := some 0 }, tcm := (viewed base 3 (.self 0)).tcm }
theorem witness_CallsAreHeldUntilTheHoldExpires : (tickAt (some 32766)).Quiet ∧ (∀ k, (base.at k).state ≠ .claiming)
    ∧ isAligned base = true ∧ base.hwi.tickCount.isSome = true
    ∧ (misread 0 3 base).hwi.align = .aligned 0 ∧ 4 ≤ (misread 0 3 base).hwi.errors + 1 ∧ (0 : Byte).toNat ≠ 32 * (7 : Fin 8).val + 22
    ∧ holdOver.Quiet ∧ holdOver.hwi.hold = some 0 ∧ isAligned holdOver = false
    ∧ (∀ k, (holdOver.at k).held = true → (holdOver.at k).state ≠ .free ∧ (holdOver.at k).state ≠ .claiming)
    ∧ (holdOver.at 0).held = true ∧ (holdOver.at 0).channel = some 3 ∧ holds holdOver 0 3 = true
    ∧ (holdOver.at 1).held = false ∧ holdOver.cfu.faults.length < 8 := by decide +kernel

/-- Context 0 sends the tone of a character, at its sample n, or beeps. -/
def sounding (x : Context) (n : Nat) : State := viewed (put base 0 { x with tone := { phase := 4, sent := n } }) 3 (.self 0)
def keying (c : Byte) : State :=
  sounding { calling .dialling .none 3 with dgn := { Dgn.reset with phase := .tone, dial := [0x31, c], pos := 1 } } 1
def beepingNow : State :=
  sounding { calling .discriminating .none 3 with voice := { Voice.reset with activity := .beeping, script := .answer } } 0
theorem witness_FrameReadsCodesAndSamples : let s := callOn base .connected .voice
    s.Quiet ∧ s.hwi.align = .aligned 0 ∧ (∀ k, (s.at k).vcd.recording = false ∧ (s.at k).voice.activity ≠ .playing)
      ∧ detectorActive s 0 = true ∧ (s.at 0).channel = some 3 ∧ detectorActive s 1 = false
      ∧ (∀ c ∈ ([0x31, 0x36, 0x2A, 0x44] : List Byte), let s := keying c
        s.Quiet ∧ s.hwi.align = .aligned 0 ∧ (∀ k, (s.at k).vcd.recording = false ∧ (s.at k).voice.activity ≠ .playing)
          ∧ (s.at 0).channel = some 3 ∧ (s.entry 3).view = .self 0 ∧ (s.at 0).held = false ∧ (s.at 0).state = .dialling
          ∧ (s.at 0).dgn.phase = .tone ∧ (s.at 0).dgn.dial[(s.at 0).dgn.pos]? = some c ∧ (s.at 0).tone.sent ≠ 0)
      ∧ (let s := beepingNow
        s.Quiet ∧ (∀ k, (s.at k).vcd.recording = false ∧ (s.at k).voice.activity ≠ .playing)
          ∧ (s.at 0).channel = some 3 ∧ (s.entry 3).view = .self 0 ∧ (s.at 0).held = false
          ∧ (s.at 0).state = .discriminating ∧ (s.at 0).voice.activity = .beeping) := by decide +kernel

/-- Context 0 plays a READY block on channel 3. -/
def playing (n : Nat) : State :=
  let x := calling .connected .voice 3
  viewed (put base 0 { x with
    voice := { x.voice with activity := .playing }
    vcd := { x.vcd with
      mark := .playing, current := some (0, n), length := 2032
      buffer := { a := .ready 0 (List.replicate 512 0x70), b := .empty }, kind := some .voice, blocks := 2 } }) 3 (.self 0)
/-- Context 0 records into message 3 here, one sample short of a block; `quietRun` and `maxBlocks` as given. -/
def recordingHere (quietRun maxBlocks : Nat) (freeList : List Nat) : State :=
  let x := calling .connected .voice 3
  let s := keep 3 { msg .opened .voice 3 3048 with writer := some (.here 0) }
    (viewed (put base 0 { x with
      voice := { x.voice with activity := .recording, recTarget := some (.here 3), quietRun, maxBlocks, handedOn := 3 }
      vcd := { x.vcd with recording := true, build := List.replicate 507 0, pendingNibble := some 0 } }) 3 (.self 0))
  { s with msc := { s.msc with freeList } }
theorem witness_recording_in_a_frame : ∀ quietRun ∈ [0, 3], ∀ maxBlocks ∈ [4, 100], ∀ free ∈ [[], [90, 91]],
    let s := recordingHere quietRun maxBlocks free
    s.Quiet ∧ s.cfu.config = some cfg ∧ givesSessionTime s = true ∧ (∀ j, j ≠ 0 → (s.at j).channel = none)
      ∧ (s.at 0).state = .connected ∧ (s.at 0).session = .voice ∧ (s.at 0).voice.activity = .recording
      ∧ (s.at 0).voice.script = .none ∧ (s.at 0).held = false ∧ (s.at 0).channel = some 3 ∧ holds s 0 3 = true
      ∧ (s.at 0).vcd.recording = true ∧ (s.at 0).voice.recTarget = some (.here 3)
      ∧ openUnder s 3 (.here 0) = some { msg .opened .voice 3 3048 with writer := some (.here 0) }
      ∧ s.msc.freeList = free ∧ (∀ l ∈ (msg .opened .voice 3 3048).last, l ≠ 90)
      ∧ ∃ fin ∈ ((s.at 0).vcd.encode cfg.quietThreshold 0).2, fin.quiet = true ∧ (s.at 0).voice.quietRun = quietRun
          ∧ (s.at 0).voice.maxBlocks = maxBlocks := by decide +kernel
theorem witness_VoiceCodesMoveThePredictor : Vcd.reset.built + 1 < 1016 ∧ Vcd.reset.pendingNibble = none
    ∧ ({ Vcd.reset with pendingNibble := some 7 }).pendingNibble = some 7
    ∧ (let s := playing 1014
      s.Quiet ∧ givesSessionTime s = true ∧ (∀ j, j ≠ 0 → (s.at j).channel = none) ∧ (s.at 0).state = .connected
        ∧ (s.at 0).session = .voice ∧ (s.at 0).voice.activity = .playing ∧ (s.at 0).held = false
        ∧ (s.at 0).channel = some 3 ∧ holds s 0 3 = true ∧ (s.at 0).vcd.recording = false ∧ (s.at 0).vcd.mark = .playing
        ∧ (s.at 0).vcd.current = some (0, 1014) ∧ (s.at 0).vcd.buffer.find 0 = .ready 0 (List.replicate 512 0x70)
        ∧ 1014 + 1 < 1016 ∧ (s.at 0).vcd.position + 1 < (s.at 0).vcd.length) := by decide +kernel

/-- A boundary is due at channel 3, held by context 0, with read-back mismatches and a previous count. -/
def atBoundary (count previous mismatches : Nat) : State :=
  let s := callOn base .connected .voice
  { s with hwi := { s.hwi with tickCount := some count, prevTiming := some previous } }.modChannel 3 fun h =>
    { h with mismatches }
theorem witness_BoundaryCountsTime : isAligned (tickAt none) = true ∧ (tickAt none).hwi.tickCount = none
    ∧ (let s := atBoundary 24560 24592 1
      s.Quiet ∧ s.BoundaryAt 16 24560 ∧ s.TimingHolds (24560 + 16) ∧ s.CodesStand)
    ∧ (let s := atBoundary 24560 24593 1
      s.BoundaryAt 16 24560 ∧ s.hwi.prevTiming = some 24593 ∧ s.CodesStand
        ∧ timingThreshold s < max (24560 + 16) 24593 - min (24560 + 16) 24593 ∧ (∀ k, (s.at k).session ≠ .data)
        ∧ s.cfu.faults.length < 8)
    ∧ (let s := atBoundary 24560 24592 2
      isAligned s = true ∧ s.hwi.tickCount = some 24560 ∧ 24560 + 16 < 32767 ∧ s.TimingHolds (24560 + 16) ∧ s.CodesStand
        ∧ (∀ c, c ≠ 3 → (s.hwi.channels.get c).mismatches < 2) ∧ 2 ≤ (s.hwi.channels.get 3).mismatches
        ∧ (s.entry 3).view = .self 0 ∧ (s.at 0).state = .connected)
    ∧ 32767 ≤ 24560 + 8207 ∧ isAligned State.reset = false := by decide +kernel

theorem witness_ScanEndMakesTheStoreReady : State.reset.Quiet ∧ State.reset.msc.state = .scanning := by decide +kernel

/-! ### Witnesses: the control line -/

/-- A STOP and a CLAIM, as other stations of the queue. -/
def report : Cell := ownCell base 3 gateway kindEvent 0xFF [1]
def claimCell (ch : Nat) : Cell := ownCell base 1 allStations kindClaim 0xFF (be1 ch ++ be1 1)

theorem witness_FreeLineStartsTheHead : let s := withTx [waits report 0 false] base
    base.clc.tx = [] ∧ s.Quiet ∧ (∀ x ∈ s.clc.tx, x.sending = false) ∧ (∀ b ∈ [0xFF], ¬ b < arbitrationByte report)
      ∧ (0x00 : Byte) < arbitrationByte report ∧ (waits report 0 false).orphan = false ∧ report.kind ≠ kindClaim := by
  decide +kernel
theorem witness_WireCellReadsBack : (fromGateway kindStop (List.replicate 72 0)).payload.length ≤ 72
    ∧ (0 : BitVec 16) ≠ cellCheck (fromGateway kindStop []) := by decide +kernel
/-- A restarted station that is JOINING with a cell of its own left on the line. -/
def orphanOut : TxCell := { waits report 0 true with orphan := true }
def joining : State := { base with clc := { Clc.reset with tx := [orphanOut] } }
theorem witness_ReceivedCellsAreJudged : let c := fromGateway kindStop [0]
    base.Quiet ∧ c.payload.length ≤ 72 ∧ (∀ x ∈ base.clc.tx, x.sending = false) ∧ base.clc.line ≠ .joining
      ∧ c.dst = ownAddress base ∧ base.clc.rx.length < 16 ∧ ({ c with dst := 5 }).dst ≠ ownAddress base
      ∧ ({ c with dst := 5 }).dst ≠ allStations
      ∧ 16 ≤ ({ base with clc := { base.clc with rx := List.replicate 16 c } }).clc.rx.length
      ∧ (0 : BitVec 16) ≠ cellCheck c ∧ State.reset.clc.line = .joining ∧ (∀ x ∈ State.reset.clc.tx, x.sending = false)
      ∧ joining.Quiet ∧ joining.clc.line = .joining ∧ inTransmission joining = some orphanOut ∧ orphanOut.orphan = true
      ∧ (byteAt [0x22] 0 < arbitrationByte orphanOut.cell ∧ ¬ byteAt [0xFE] 0 < arbitrationByte orphanOut.cell) := by
  decide +kernel
theorem witness_QueueKeepsPriorityThenAge : let q := [waits (claimCell 3) 0 false, waits report 0 false]
    q.Pairwise (fun a b => a.cell.prio ≤ b.cell.prio) ∧ queueTakes q (claimCell 4) = true
      ∧ queueTakes q (claimCell 3) = false ∧ (List.replicate 23 (waits report 0 false)).length < 24 := by decide +kernel

def out1 (state : DepositState) : OutDeposit :=
  { home := 1, mailbox := 5, kind := .voice, handle := if state = .opening then none else some 3, state, buffer := []
    outstanding := [], toOffer := [], timer := some 0, close := none, closeSent := false, nextSequence := 0, serial := 1 }
def depositing (state : DepositState) (s : State) : State := s.setOutbound 0 (some (out1 state))
def fetch1 (state : FetchState) (handle : Option Nat) (pending : List Nat) : Fetch :=
  { home := 1, mailbox := none, handle, state, pending, timer := some 0, keepalive := 0, serial := 1 }
def fetching (f : Fetch) (s : State) : State := s.setFetch 0 (some f)
/-- A DEPOSIT_OPEN and a FETCH_OPEN of context 0 on the line. -/
def openOut : TxCell := waits (ownCell base 4 1 kindDepositOpen 0 [0, 5, 0]) 1 true
def fetchOut : TxCell := waits (ownCell base 4 1 kindFetchOpen 0 [0, 5, 255, 255]) 1 true
/-- Context 0 with its FETCH_OPEN on the line, of a message or of a greeting of another home. -/
def asking (handle : Option Nat) (x : Context) : State :=
  fetching (fetch1 .opening handle []) (withTx [fetchOut] (viewed (put base 0 x) 3 (.self 0)))
theorem witness_OutcomeRemovesTheCell :
    inTransmission (withTx [waits report 0 true] base) = some (waits report 0 true)
      ∧ (waits report 0 true).orphan = false ∧ report.kind ≠ kindClaim
      ∧ report.kind ∉ [kindDepositOpen, kindDepositClose, kindDepositRollback, kindFetchOpen]
      ∧ inTransmission (withTx [waits (ownCell base 1 14 kindRelease 0xFF [3]) 0 true] base)
          = some (waits (ownCell base 1 14 kindRelease 0xFF [3]) 0 true)
      ∧ (let s := depositing .opening (withTx [openOut] base)
        inTransmission s = some openOut ∧ openOut.cell.kind = kindDepositOpen ∧ contextOf openOut.cell.tag.toNat = some 0
          ∧ s.outbound 0 = some (out1 .opening) ∧ (out1 .opening).serial = openOut.serial ∧ (out1 .opening).kind ≠ .fax
          ∧ (s.at 0).session ≠ .fax ∧ (s.at 0).voice.activity ≠ .recording ∧ s.Quiet)
      ∧ (let x := calling .connected .voice 3
        let s := depositing .opening (withTx [openOut] (put base 0 { x with
          voice := { x.voice with activity := .recording, recTarget := some (.outbound 1) } }))
        s.outbound 0 = some (out1 .opening) ∧ (s.at 0).session ≠ .fax ∧ (s.at 0).voice.activity = .recording
          ∧ (s.at 0).voice.recTarget = some (.outbound (out1 .opening).serial) ∧ (s.at 0).voice.script ≠ .answer) := by
  decide +kernel
theorem witness_fetch_open_undelivered :
    (let x := calling .connected .voice 3
      let s := asking (some 5) { x with voice := { x.voice with activity := .playing } }
      inTransmission s = some fetchOut ∧ fetchOut.orphan = false ∧ fetchOut.cell.kind = kindFetchOpen
        ∧ contextOf fetchOut.cell.tag.toNat = some 0 ∧ s.fetch 0 = some (fetch1 .opening (some 5) [])
        ∧ (fetch1 .opening (some 5) []).serial = fetchOut.serial ∧ (s.at 0).state = .connected ∧ (s.at 0).session = .voice
        ∧ (s.at 0).voice.activity = .playing ∧ (s.at 0).voice.script = .none ∧ (s.at 0).vcd.source = none ∧ s.Quiet)
      ∧ (let x := calling .discriminating .none 3
        let s := asking none { x with voice := { x.voice with activity := .playing, script := .answer, step := some .greeting } }
        (s.at 0).state = .discriminating ∧ (s.at 0).voice.activity = .playing ∧ (s.at 0).voice.script = .answer
          ∧ (s.at 0).voice.step = some .greeting ∧ (s.at 0).vcd.source = none
          ∧ s.fetch 0 = some (fetch1 .opening none []))
      ∧ (let x := calling .connected .fax 3
        let s := asking (some 5) { x with fax := { x.fax with role := some .send, phase := .awaitCapability } }
        (s.at 0).state = .connected ∧ (s.at 0).session = .fax ∧ (s.at 0).voice.activity = .none
          ∧ (s.at 0).fax.role = some .send ∧ (s.at 0).fax.phase = .awaitCapability ∧ (s.at 0).fax.trainingBegun = false
          ∧ (s.at 0).channel = some 3 ∧ (s.at 0).direction = some .incoming ∧ (s.at 0).announced = true
          ∧ (s.at 0).outgoing = none)
      ∧ inTransmission joining = some orphanOut ∧ orphanOut.orphan = true := by decide +kernel

/-- Context 0 CLAIMING channel 3 with its CLAIM in transmission or waiting. -/
def bidding (direction : Direction) (code : LineCode) (sending : Bool) : State :=
  withTx [waits (claimCell 3) 0 sending]
    ((put (base.modEntry 3 fun e => { e with rx := { e.rx with settled := code } }) 0
      { Context.reset with
        state := .claiming, direction := some direction, requestTag := some 9
        outgoing := if direction = .outgoing then
          some { dial := [0x31], purpose := .plain, choiceRetried := true, glareRetried := false, tag := 9 } else none }).setBid
      0 (some { channel := 3, direction, timer := none, withdrawal := none }))
theorem witness_ClaimOutcomeTakesTheChannel : ∀ d ∈ [Direction.incoming, .outgoing],
    let s := bidding d (if d = .incoming then .seize else .idle) true
    let b : Bid := { channel := 3, direction := d, timer := none, withdrawal := none }
    s.Quiet ∧ isAligned s = true ∧ s.cfu.config = some cfg ∧ 0 < cfg.addressDigits
      ∧ inTransmission s = some (waits (claimCell 3) 0 true) ∧ (waits (claimCell 3) 0 true).orphan = false
      ∧ (claimCell 3).kind = kindClaim ∧ byteAt (claimCell 3).payload 0 = BitVec.ofNat 8 (3 : Channel).val
      ∧ claimerOf s 3 = some 0 ∧ s.bid 0 = some b
      ∧ (s.entry 3).rx.settled = (if b.direction = .incoming then .seize else .idle) := by decide +kernel
theorem witness_DiscardedCellsOnlyLeaveTheQueue :
    Sends base kindAnswer 0 [0, 0, 0, 0] ∧ (receiving base (fromPeer 0x7F 0 [])).clc.rx.head? = some (fromPeer 0x7F 0 [])
      ∧ (fromPeer 0x7F 0 []).kind ∉ ownedKinds ∧ (fromPeer kindStop 0 [0]).src ≠ gateway := by decide +kernel

/-- Context 0 in a data session of a phase. -/
def inData (phase : DataPhase) (f : Context → Context) : State :=
  let x := calling .connected .data 3
  viewed (put base 0 (f { x with qmn := { x.qmn with
    phase := some phase, min := 2, max := 9, rate := 5, target := 5, timer := some 0, quality := some 16000 } })) 3 (.self 0)
def heldData (tx : List TxCell) : State :=
  withTx tx (let s := inData .up fun x => { x with lkc := { x.lkc with rxBuffer := [7], rxHeld := some 1 } }
    { s with clc := { s.clc with held := [.dataRx 0] } })
/-- A part of a block, of a deposit of this station or of its pending block list, and the producer of each held. -/
def depositPart : Cell := ownCell base 4 1 kindDepositData 0 [0, 3, 0, 7]
def heldDeposit : OutDeposit := { out1 .streaming with outstanding := [7], toOffer := [depositPart, depositPart] }
def pendingFrom (nextPart : Nat) : PendingBlock :=
  { station := 1, context := 2, handle := 5, index := 0, block := List.replicate 512 7, nextPart }
def fetchPart (p : Nat) : Cell :=
  ownCell base 4 1 kindFetchData 2 (be2 5 ++ be2 0 ++ be1 p ++ ((List.replicate 512 7).drop (64 * p)).take 64)
def heldBack (producer : StreamProducer) (tx : List TxCell) : State :=
  let s := base.setOutbound 0 (some heldDeposit)
  { s with clc := { s.clc with tx, held := [producer] }
           rau := { s.rau with pendingBlocks := [pendingFrom 7, pendingFrom 6] } }
def filled (n : Nat) : List TxCell := List.replicate n (waits report 0 false)
/-- A held DEPOSIT_DATA and a held FETCH_DATA that meet an empty queue, one place, and no place, and a held DATA_RX. -/
theorem witness_RoomAppearedOffersAgain : let cell := ownCell base 5 gateway kindDataRx (tagOf 0) [7]
    (∀ producer ∈ [StreamProducer.deposit 0, .fetchData], ∀ n ∈ [0, 23, 24], let s := heldBack producer (filled n)
      s.Quiet ∧ s.clc.held = [producer] ∧ s.outbound 0 = some heldDeposit ∧ heldDeposit.buffer = []
        ∧ s.rau.pendingBlocks = [pendingFrom 7, pendingFrom 6] ∧ ∀ y ∈ s.rau.pendingBlocks, y.nextPart < 8)
      ∧ heldDeposit.state = .streaming
      ∧ (∀ c ∈ [depositPart, fetchPart 7], queueTakes (filled 0) c = true ∧ queueTakes (filled 23) c = true
        ∧ queueTakes (filled 24) c = false)
      ∧ (∀ c ∈ [(depositPart, depositPart), (fetchPart 7, fetchPart 6)],
        queueTakes (insertByPriority (freshTx c.1 0) (filled 0)) c.2 = true
          ∧ queueTakes (insertByPriority (freshTx c.1 0) (filled 23)) c.2 = false)
      ∧ queueTakes ([fetchPart 7, fetchPart 6].foldl (fun q c => insertByPriority (freshTx c 0) q) []) (fetchPart 7) = true
      ∧ (heldData []).Quiet ∧ (heldData []).clc.held = [.dataRx 0] ∧ ((heldData []).at 0).lkc.rxHeld = some 1
      ∧ ((heldData []).at 0).lkc.holdSent = false ∧ queueTakes (heldData []).clc.tx cell = true
      ∧ queueTakes (heldData (List.replicate 24 (waits report 0 false))).clc.tx cell = false := by decide +kernel

/-! ### Witnesses: station requests, mailboxes and marks -/

def plain (s : State) : State := { s with cfu := { s.cfu with config := none, state := .unconfigured } }
def goodConfig : List Byte := [8] ++ List.replicate 15 0xFF ++ [3, 0x03, 0xE7] ++ List.replicate 11 0xFF
theorem witness_ConfigureAnswersByItsChecks : let p := goodConfig
    Asked (asked base kindConfigure p) (fromGateway kindConfigure p) kindConfigure ∧ base.cfu.config.isSome = true
      ∧ (let s := asked (plain base) kindConfigure p
        s.cfu.config = none ∧ s.Quiet ∧ (∀ ch, (s.entry ch).rx.run < 120 ∧ (s.entry ch).tx.run < 120)
          ∧ s.cfu.state = .unconfigured ∧ isAligned s = true ∧ ∀ ch, (s.entry ch).rx.settled ≠ .seize)
      ∧ isAligned (alignedIn .search (plain base)) = false
      ∧ ¬ (field p 0 1 < 1 ∨ 8 < field p 0 1 ∨ field p 0 1 ≤ base.cfu.station.val ∨ 3 < field p 16 1 ∨ 999 < field p 17 2)
      ∧ 8 < field ((9 : Byte) :: p.tail) 0 1 ∧ field ((0 : Byte) :: p.tail) 0 1 < 1
      ∧ Asked (asked (plain base) kindConfigure (9 :: p.tail)) (fromGateway kindConfigure (9 :: p.tail)) kindConfigure := by
  decide +kernel
theorem witness_ClockIsSetAndSteps : Asks base kindSetTime [0xFF, 0xFF, 0xFF]
      ∧ 60000 ≤ ({ base.cfu with subMinute := 60000 }).subMinute ∧ base.cfu.subMinute < 60000 := by decide +kernel
theorem witness_StatusQueriesReplyTheState :
    (∀ p ∈ [[0, 0, 0], [1, 0, 3], [1, 0, 4], [2, 0, 0], [3, 0, 4], [3, 0, 5], [4, 1, 255], [4, 2, 0], [5, 0, 0], [6, 0, 0]],
        Asks base kindStatusQuery p)
      ∧ field [1, 0, 3] 1 2 = (3 : ContextId).val ∧ 3 < field [1, 0, 4] 1 2 ∧ base.msc.state = .ready
      ∧ mailbox? base 4 = some (box 4 [] none) ∧ mailbox? base 5 = none ∧ State.reset.msc.state = .scanning
      ∧ (keep 511 (msg .closed .voice 3 3000) base).msgAt 511 = some (msg .closed .voice 3 3000) ∧ base.msgAt 512 = none
      ∧ 5 < field [6, 0, 0] 0 1 := by decide +kernel
def faulty : State := { base with cfu := { base.cfu with
  faults := [.timingStep, .contention].map fun kind => { kind, subject := 1, stamp := 2, clockSet := true } } }
theorem witness_FaultClearRemovesPositions : Asks faulty kindFaultClear [1, 1] := by
  decide +kernel
theorem witness_MailboxCreateChecksInOrder : ∀ p ∈ [[3, 0xE6, 32], [3, 0xE8, 1], [0, 5, 1], [0, 4, 1], [0, 6, 0]],
    Asks base kindMboxCreate p ∧ (asked base kindMboxCreate p).cfu.config = some cfg := by decide +kernel
/-- Mailbox 4 holds message 0, which has a reader or none, and its greeting is message 1. -/
def stocked (readers : List Reader) (openCount : Nat) : State :=
  let s := keep 0 { msg .closed .voice 3 3000 with readers } (keep 1 (msg .closed .greeting 0 0) base)
  { s with msc := { s.msc with mbxs := [{ box 4 [0] (some 1) with openCount }] } }
def someReader : Reader := { station := 1, context := 2, lastActivity := 0 }
theorem witness_MailboxRemoveAndQuery : (∀ p ∈ [[3, 0xE8], [0, 5], [0, 6], [0, 4]],
      Asks base kindMboxRemove p ∧ Asks base kindMboxQuery p)
    ∧ field [3, 0xE8] 0 2 = 1000 ∧ base.cfu.config = some cfg ∧ 5 % cfg.groupSize ≠ base.cfu.station.val
    ∧ 4 % cfg.groupSize = base.cfu.station.val ∧ mailbox? base 6 = none ∧ mailbox? base 4 = some (box 4 [] none)
    ∧ 0 < (box 4 [] none).openCount
    ∧ (let s := stocked [someReader] 0
      mailbox? s 4 = some { box 4 [0] (some 1) with openCount := 0 } ∧ 0 ∈ [0] ++ (some 1).toList
        ∧ s.msgAt 0 = some { msg .closed .voice 3 3000 with readers := [someReader] }
        ∧ s.msgAt 1 = some (msg .closed .greeting 0 0))
    ∧ State.reset.msc.state = .scanning ∧ base.msc.state = .ready ∧ (box 4 [] none).list.length ≤ 8 := by decide +kernel
theorem witness_MarksApply : (∀ p ∈ [[0, 0, 0], [0, 0, 1], [0, 0, 2], [2, 0, 3]],
      Asks (stocked [] 0) kindMsgMark p ∧ Sends (stocked [] 0) kindMsgMark 1 p)
    ∧ (fromGateway kindMsgMark []).src = gateway ∧ (stationOf (fromPeer kindMsgMark 1 []).src).isSome = true
    ∧ 2 < (byteAt [2, 0, 3] 2).toNat ∧ (stocked [] 0).Quiet
    ∧ (stocked [someReader] 0).msgAt 0 = some { msg .closed .voice 3 3000 with readers := [someReader] } := by decide +kernel

/-! ### Witnesses: calls and sessions asked for by the gateway -/

theorem witness_OutdialClaimsTheLowestChannel :
    (∀ p ∈ [[3, 20, 2, 0, 0x31, 0x57], [0, 0, 0, 0], [4, 0, 0, 0, 0x31], [0, 0, 0, 0] ++ List.replicate 24 0x23], Asks base kindOutdial p)
      ∧ (∀ b ∈ [(0x31 : Byte), 0x57, 0x23], b.toNat ∈ "0123456789*#ABCD,W".toList.map (fun x => x.toNat))
      ∧ (base.at 0).state = .free ∧ (base.entry 0).view = .free ∧ (base.entry 0).rx.settled = .idle ∧ isAligned base = true
      ∧ inSet (configOf base).outdialSet 0 = true ∧ claimerOf base 0 = none ∧ clearerOf base 0 = none
      ∧ queueTakes base.clc.tx (claimCell 0) = true
      ∧ queueTakes (List.replicate 24 (waits report 0 false)) (claimCell 0) = false
      ∧ (∀ k, (({ base with ctx := .replicate 4 (calling .connected .voice 3) } : State).at k).state ≠ .free)
      ∧ (∀ ch, (State.reset.entry ch).view ≠ .free) := by decide +kernel

theorem witness_DropByState : (∀ p ∈ [[4], [0], [3]], Asks base kindDrop p) ∧ field [0] 0 1 = (0 : ContextId).val
    ∧ (base.at 0).state = .free ∧ ((callOn base .clearing .none).at 0).state = .clearing
    ∧ (∀ d, ∀ sending, let s := bidding d .idle sending
        (s.at 0).state = .claiming ∧ s.bid 0 = some { channel := 3, direction := d, timer := none, withdrawal := none }
          ∧ (sending = true ↔ ∃ x ∈ s.clc.tx, x.sending = true ∧ x.orphan = false ∧ isClaimFor 3 x = true)
          ∧ (s.at 0).outdialDone = false ∧ ((s.at 0).outgoing.isSome = true ↔ d = .outgoing))
    ∧ ((callOn base .progress .none).at 0).state ∈
      [.addressing, .answering, .discriminating, .seized, .dialling, .progress, .connected] := by
  refine ⟨by decide +kernel, by decide +kernel, by decide +kernel, by decide +kernel, fun d sending => ?_, by decide +kernel⟩
  cases d <;> cases sending <;> decide +kernel

theorem witness_SessionRequestsAreChecked :
    (plain base).cfu.state ≠ .active
      ∧ Asked (asked (plain base) kindDrop [0]) (fromGateway kindDrop [0]) kindDrop
      ∧ Asks base kindPlay [4, 0, 0, 0, 0, 0, 0] ∧ Asks base kindPlay [0, 7, 1, 255, 0, 0, 0] ∧ Asks base kindStop [0]
      ∧ Asks base kindRecord [0, 3, 0xE8, 0, 0, 0] ∧ Asks base kindFaxReceive [0, 3, 0xE7] ∧ Asks base kindFaxSend [0, 8, 0, 0]
      ∧ Asks base kindDataConnect [0, 2, 0, 0] ∧ Asks base kindDataTx [4, 1] ∧ Asks base kindDataTx [0, 1]
      ∧ (base.at 0).state ≠ .connected ∧ ((callOn base .connected .voice).at 0).session ≠ .data := by decide +kernel

/-- Context 0 in a voice session that does what `activity` says. -/
def inVoice (activity : Activity) : State :=
  (callOn base .connected .voice).modVoice 0 fun v => { v with activity }
theorem witness_StopWaitsAndRecordOpens :
    (∀ a ∈ [Activity.playing, .recording, .waiting], Asks (inVoice a) kindStop [0])
      ∧ (∀ p ∈ [[0, 0, 4, 0, 0, 0], [0, 0, 4, 0, 9, 1], [0, 0, 6, 0, 0, 0], [0, 0, 5, 0, 0, 0]], Asks (inVoice .waiting) kindRecord p)
      ∧ (let s := inVoice .waiting
        s.cfu.config = some cfg ∧ (s.at 0).state = .connected ∧ (s.at 0).session = .voice ∧ s.clc.tx.length < 23
          ∧ 4 % cfg.groupSize = s.cfu.station.val ∧ 5 % cfg.groupSize ≠ s.cfu.station.val ∧ s.outbound 0 = none
          ∧ openRefusal s 4 (some .voice) = none ∧ openRefusal s 4 (some .greeting) = none
          ∧ openRefusal s 6 (some .voice) = some codeNoSuch) := by decide +kernel

theorem witness_PlayOpensItsTarget :
    (∀ p ∈ [[0, 1, 0, 5, 0, 0, 0], [0, 0, 0, 5, 0, 0, 0], [0, 0, 0, 0, 0, 3, 0xF8], [0, 7, 1, 255, 255, 255, 255]],
        Asks (inVoice .waiting) kindPlay p)
      ∧ (let m := msg .closed .voice 3 3000
        let s := keep 0 m (inVoice .waiting)
        s.cfu.config.isSome = true ∧ (s.at 0).voice.activity = .waiting ∧ s.clc.tx.length < 23 ∧ s.msgAt 5 = none
          ∧ s.msc.state = .ready ∧ s.msgAt 0 = some m ∧ m.readers = []
          ∧ 1016 * (min 1016 m.length / 1016) < m.length ∧ min 1016 m.length / 1016 < m.count) := by decide +kernel

theorem witness_FaxAndDataRequestsBegin :
    Asks (inVoice .waiting) kindFaxReceive [0, 0, 4] ∧ Asks (inVoice .waiting) kindFaxSend [0, 1, 1, 255]
      ∧ Asks (inVoice .waiting) kindDataConnect [0, 1, 255, 255] ∧ Asks (inVoice .waiting) kindDataConnect [0, 0, 9, 200]
      ∧ (let s := inVoice .waiting
        s.cfu.config = some cfg ∧ (s.at 0).state = .connected ∧ (s.at 0).session = .voice
          ∧ openRefusal s 4 (some .fax) = none ∧ s.clc.tx.length < 23)
      ∧ Asks (inData .training id) kindDataTx [0, 1, 2]
      ∧ ((inData .training id).at 0).session = .data ∧ ((inData .training id).at 0).qmn.phase = some .training
      ∧ ((inData .training id).at 0).lkc.flowStop = false := by decide +kernel

/-! ### Witnesses: cells of peers -/

theorem witness_PeerClaimByStanding :
    Sends base kindClaim 255 [3, 2] ∧ Sends base kindClaim 255 [3, 1] ∧ Sends base kindClaim 255 [31, 0]
      ∧ holderOf base 3 = none ∧ claimerOf base 3 = none ∧ clearerOf base 3 = none
      ∧ (∀ d ∈ [Direction.incoming, .outgoing], let s := bidding d .idle false
        holderOf s 3 = none ∧ claimerOf s 3 = some 0
          ∧ s.bid 0 = some { channel := 3, direction := d, timer := none, withdrawal := none }
          ∧ (d = .incoming ∨ ∃ o ∈ (s.at 0).outgoing, o.choiceRetried = true)
          ∧ ∀ x ∈ s.clc.tx, x.sending = true → x.orphan = false → isClaimFor 3 x = false)
      ∧ holderOf (callOn base .clearing .none) 3 = some 0 ∧ ((callOn base .clearing .none).at 0).state = .clearing
      ∧ (let s := put base 0 (calling .clearing .none 3)
        holderOf s 3 = none ∧ claimerOf s 3 = none ∧ clearerOf s 3 = some 0)
      ∧ holderOf (inVoice .waiting) 3 = some 0 ∧ ((inVoice .waiting).at 0).state ≠ .clearing := by decide +kernel

/-- Context 0 at the eighth superframe of CLEARING, or at the end of its clearing time. -/
def clearing (count : Nat) (timer : Option Nat) (code : LineCode) (v : View) : State :=
  viewed (put (base.modEntry 3 fun e => { e with rx := { e.rx with settled := code } }) 0
    { calling .clearing .none 3 with clearing := count, timer }) 3 v
theorem witness_PeerReleaseFreesItsOwnView :
    Sends (viewed base 31 (.peer 1)) kindRelease 255 [31] ∧ ((viewed base 31 (.peer 1)).entry 31).view = .peer 1
      ∧ (base.entry 31).view ≠ .peer 1
      ∧ (let s := clearing 8 (some 5) .idle (.self 0)
        s.Quiet ∧ (s.at 0).state = .clearing ∧ (s.at 0).held = false ∧ (s.at 0).clearing = 8 ∧ (s.at 0).channel = some 3
          ∧ (s.entry 3).view = .self 0 ∧ (s.entry 3).rx.settled ≠ .blocked)
      ∧ (let x := waits (ownCell base 1 14 kindRelease 0xFF [3]) 0 true
        inTransmission (withTx [x] base) = some x ∧ x.cell.kind = kindRelease) := by decide +kernel

theorem witness_DisputeYieldsTheChannel : Sends base kindDispute 255 [3] ∧ holderOf base 3 = none ∧ clearerOf base 3 = none
    ∧ holderOf (inVoice .waiting) 3 = some 0 ∧ ((inVoice .waiting).at 0).state = .connected
    ∧ holderOf (callOn base .clearing .none) 3 = some 0 ∧ ((callOn base .clearing .none).at 0).state = .clearing
    ∧ (let s := put base 0 (calling .clearing .none 3)
      holderOf s 3 = none ∧ clearerOf s 3 = some 0) ∧ base.cfu.faults.length < 8 := by decide +kernel

/-- The home's entry for context 2 of station 1, which writes message 3. -/
def entry2 (kind : MsgKind) (assembly : Option Assembly) : DepositEntry :=
  { handle := 3, station := 1, context := 2, kind, expected := 65535, assembly, lastHeard := 0, lastWritten := some 65534
    lastPage := none }
def written (kind : MsgKind) (count length : Nat) : Msg :=
  { msg .opened kind count length with writer := some (.peer 1 2) }
def home (e : DepositEntry) (m : Msg) : State :=
  let s := keep 3 m base
  { s with rau := { s.rau with deposits := [e] }, cfu := { s.cfu with stationTime := 20000 } }
/-- The checks of an open for writing: each reason, at mailbox 4 of this home unless it is the mailbox at fault. -/
theorem witness_open_checks : 999 < 1000 ∧ State.reset.msc.state = .scanning ∧ (plain base).msc.state = .ready
    ∧ (plain base).cfu.config = none ∧ base.msc.state = .ready ∧ base.cfu.config = some cfg ∧ 4 ≤ 999
    ∧ 5 % cfg.groupSize ≠ base.cfu.station.val ∧ 6 % cfg.groupSize = base.cfu.station.val
    ∧ (∀ b ∈ base.msc.mbxs, b.number ≠ 6) ∧ mailbox? base 4 = some (box 4 [] none) ∧ base.msgAt 511 = none
    ∧ ({ box 4 [] none with greetingOpen := true }).greetingOpen = true
    ∧ ({ box 4 [] none with limit := 1 }).limit ≤ (box 4 [] none).list.length + (box 4 [] none).openCount
    ∧ ¬ (box 4 [] none).limit ≤ (box 4 [] none).list.length + (box 4 [] none).openCount
    ∧ base.msc.freeList ≠ [] ∧ State.reset.msc.freeList = [] := by decide +kernel
theorem witness_full_table : ∀ h, h ≤ 511 →
    ({ base with msc := { base.msc with msgs := .replicate 512 (some (msg .closed .voice 0 0)) } } : State).msgAt h ≠ none := by
  intro h hh
  simp [State.msgAt, handle?, show h < 512 by omega, State.msg]
theorem witness_DepositsOpenAndCloseAtTheHome : base.msc.state = .ready ∧ base.cfu.config.isSome = true
    ∧ Sends base kindDepositOpen 2 [0, 4, 0] ∧ Sends base kindDepositOpen 2 [0, 4, 3] ∧ Sends base kindDepositOpen 2 [3, 0xE8, 0]
    ∧ (∀ e ∈ base.rau.deposits, e.station = 1 → e.context ≠ 2)
    ∧ 8 ≤ ({ base.rau with deposits := List.replicate 8 (entry2 .voice none) }).deposits.length
    ∧ openRefusal base 4 (msgKindOf 3) = some codeBadField ∧ openRefusal base 4 (msgKindOf 0) = none
    ∧ msgKindOf 0 = some .voice
    ∧ Sends base kindDepositClose 2 [0, 3, 3, 0, 0, 0, 0] ∧ entryOf base 3 1 2 = none := by decide +kernel
/-- The blocks 81 and 82 of the chain are QUIET. -/
def quietTwo (s : State) : State := { s with msc := { s.msc with mem := [(41475, 0x80), (41987, 0x80)] } }
theorem witness_close_keeps : ∀ kind ∈ [MsgKind.voice, .greeting, .fax], ∀ count ∈ [0, 2, 3],
    ∀ reason ∈ [reasonMaxLength, reasonSilence, reasonPagesDone],
    let m := { written kind count (1016 * count) with pageMark := min count 1 }
    let s := quietTwo (home (entry2 kind none) m)
    Sends s kindDepositClose 2 [0, 3, reason, 0xFF, 0xFE, 0, 9] ∧ s.msc.state = .ready ∧ s.cfu.config.isSome = true
      ∧ entryOf s 3 1 2 = some (entry2 kind none) ∧ openUnder s 3 (.peer 1 2) = some m ∧ (entry2 kind none).assembly = none
      ∧ m.kind = (entry2 kind none).kind ∧ m.pageMark ≤ m.count
      ∧ (entry2 kind none).lastWritten = some (field [0, 3, reason, 0xFF, 0xFE, 0, 9] 3 2)
      ∧ (count = 3 → ((chainOf s m).reverse.takeWhile fun b => (byteAt (blockAt s b) 3).getLsbD 7).length = 2)
      ∧ (count = 2 → ((chainOf s m).reverse.takeWhile fun b => (byteAt (blockAt s b) 3).getLsbD 7).length = 1)
      ∧ s.clc.tx.length ≤ 20 := by decide +kernel
/-- Mailbox 4 has the greeting 1, with or without a reader, when the new one is closed. -/
def regreeting (readers : List Reader) : State :=
  let s := keep 1 { msg .closed .greeting 1 1016 with readers } (home (entry2 .greeting none) (written .greeting 3 3048))
  { s with msc := { s.msc with mbxs := [{ box 4 [] (some 1) with greetingOpen := true }] } }
theorem witness_greeting_replaced : ∀ readers ∈ [[], [someReader]], let s := regreeting readers
    mailbox? s 4 = some { box 4 [] (some 1) with greetingOpen := true } ∧ some 1 ≠ some 3
      ∧ s.msgAt 1 = some { msg .closed .greeting 1 1016 with readers }
      ∧ openUnder s 3 (.peer 1 2) = some (written .greeting 3 3048)
      ∧ Sends s kindDepositClose 2 [0, 3, reasonMaxLength, 0, 0, 0, 0] := by decide +kernel

def sevenParts : List (List Byte) := List.replicate 7 (List.replicate 64 0x5A)
def gathered (pieces : List (List Byte)) : Assembly :=
  { parts := pieces.zipIdx.map (fun x => (x.2, x.1)), pageEnd := false, damaged := false, started := 19950 }
def dataCell (mark : Byte) (sequence : List Byte) : List Byte := [0, 3] ++ sequence ++ [mark] ++ List.replicate 64 0x11
theorem witness_DepositsAreWrittenAtTheHome : ∀ kind ∈ [MsgKind.voice, .fax], ∀ parts ∈ [0, 7],
    let m := { written kind 3 2 with pageMark := 1 }
    let e := entry2 kind (some (gathered (sevenParts.take parts)))
    let s := home e m
    (Sends s kindDepositData 2 (dataCell 6 [0xFF, 0xFF]) ∧ Sends s kindDepositData 2 (dataCell 7 [0xFF, 0xFF])
        ∧ Sends s kindDepositData 2 (dataCell 7 [0xFF, 0xFE]) ∧ 32768 ≤ (65534 + 65536 - e.expected) % 65536)
      ∧ s.msc.state = .ready ∧ s.cfu.config.isSome = true ∧ entryOf s 3 1 2 = some e ∧ openUnder s 3 (.peer 1 2) = some m
      ∧ s.msc.freeList = 90 :: [91, 92, 93] ∧ (∀ l ∈ m.last, l ≠ 90) ∧ s.clc.tx.length < 23 ∧ sevenParts.length = 7
      ∧ (∀ x ∈ sevenParts, x.length = 64)
      ∧ Sends (home (entry2 kind none) m) kindDepositRollback 2 [0, 3, 0, 3] ∧ (entry2 kind none).assembly = none
      ∧ field [0, 3, 0, 3] 2 2 = m.length + 1 ∧ m.count ≠ m.pageMark
      ∧ Sends (home (entry2 kind none) m) kindDepositRollback 2 [0, 3, 0, 2] := by decide +kernel

/-- Context 0 as its deposit ends: its recording over, its recording running, or a fax receive into it. -/
def depositor (d : OutDeposit) (x : Context → Context) : State :=
  (put base 0 (x (calling .connected .voice 3))).setOutbound 0 (some d)
def recording1 (script : Script) (x : Context) : Context :=
  { x with voice := { x.voice with activity := .recording, recTarget := some (.outbound 1), script } }
def faxing1 (phase : FaxPhase) (x : Context) : Context :=
  { x with session := .fax, fax := { x.fax with role := some .receive, phase, target := some (.outbound 1) } }
theorem witness_DepositorTakesReplies : Sends base kindDepositAccept 0 [0, 3] ∧ base.outbound 0 = none
    ∧ Sends base kindDepositAccept 0 [2, 0] ∧ 511 < field [2, 0] 0 2 ∧ field [0, 3] 0 2 ≤ 511
    ∧ (∀ state ∈ [DepositState.opening, .streaming, .closing], let s := depositing state base
      Sends s kindDepositAccept 0 [0, 3] ∧ Sends s kindDepositRefuse 0 [codeStoreFull, 0, 3]
        ∧ Sends s kindDepositRefuse 0 [codeBusy, 255, 255] ∧ field [codeBusy, 255, 255] 1 2 = 65535
        ∧ Sends s kindBlockTaken 0 [0, 3, 0, 5] ∧ Sends s kindDepositClosed 0 [0, 3, codeClosed, 0, 9, 2]
        ∧ s.outbound 0 = some (out1 state) ∧ (out1 state).home = (1 : Fin 8).val ∧ (out1 state).kind ≠ .fax
        ∧ (s.at 0).session ≠ .fax ∧ (s.at 0).voice.activity ≠ .recording ∧ (out1 state).buffer = []
        ∧ (out1 state).toOffer = [] ∧ (out1 state).close = none ∧ (out1 state).outstanding = []
        ∧ StreamProducer.deposit 0 ∉ s.clc.held ∧ s.clc.tx.length ≤ 16
        ∧ (s.clc.tx.filter fun y => isStreamKind y.cell.kind).length ≤ 8
        ∧ (state ≠ .opening → (out1 state).handle = some (field [0, 3] 0 2))) := by decide +kernel
theorem witness_deposit_ends : ∀ state ∈ [DepositState.opening, .streaming, .closing],
    (∀ script ∈ [Script.none, .answer], let s := depositor (out1 state) (recording1 script)
      s.Quiet ∧ (s.at 0).state = .connected ∧ (s.at 0).session = .voice ∧ (s.at 0).voice.activity = .recording
        ∧ (s.at 0).voice.recTarget = some (.outbound (out1 state).serial) ∧ (s.at 0).voice.script = script
        ∧ Sends s kindDepositClosed 0 [0, 3, codeClosed, 0, 9, 2])
      ∧ (∀ phase ∈ [FaxPhase.awaitMode, .disconnecting],
        let s := depositor { out1 state with kind := .fax } (faxing1 phase)
        (s.at 0).session = .fax ∧ (s.at 0).fax.target = some (.outbound (out1 state).serial)
          ∧ (s.at 0).fax.phase = phase ∧ (s.at 0).voice.activity ≠ .recording) := by decide +kernel

/-- Message 5 with three blocks and the readers given. -/
def shelf (state : MsgState) (readers : List Reader) : State :=
  keep 5 { msg state .voice 3 3000 with readers } { base with cfu := { base.cfu with stationTime := 10000 } }
theorem witness_HomeServesFetches :
    Sends (shelf .closed []) kindFetchOpen 2 [0, 5, 255, 255] ∧ Sends base kindFetchOpen 2 [1, 255, 255, 255]
      ∧ Sends base kindFetchOpen 2 [255, 255, 0, 4] ∧ (mailbox? base 4).bind (·.greeting) = none
      ∧ (∀ greetingOpen ∈ [true, false], let b : Mbx := { box 4 [] (some 5) with greetingOpen }
        let s : State := { shelf .closed [] with msc := { (shelf .closed []).msc with mbxs := [b] } }
        Sends s kindFetchOpen 2 [255, 255, 0, 4] ∧ mailbox? s 4 = some b
          ∧ s.msgAt 5 = some (msg .closed .voice 3 3000))
      ∧ (let b := box 4 [] (some 5)
        let s : State := { shelf .opened [] with msc := { (shelf .opened []).msc with mbxs := [b] } }
        Sends s kindFetchOpen 2 [255, 255, 0, 4] ∧ Sends s kindFetchOpen 2 [0, 5, 255, 255] ∧ mailbox? s 4 = some b
          ∧ s.msgAt 5 = some (msg .opened .voice 3 3000))
      ∧ base.msgAt 511 = none ∧ (shelf .closed []).msgAt 5 = some (msg .closed .voice 3 3000)
      ∧ (shelf .closed []).msc.state = .ready ∧ (shelf .closed []).cfu.config.isSome = true
      ∧ Sends (shelf .closed []) kindFetchBlock 2 [0, 5, 0, 0] ∧ Sends (shelf .closed []) kindFetchClose 2 [0, 5]
      ∧ (∀ state ∈ [MsgState.closed, .deleting], let s := shelf state [someReader]
        Sends s kindFetchBlock 2 [0, 5, 0, 3] ∧ Sends s kindFetchBlock 2 [0, 5, 0, 2] ∧ Sends s kindFetchClose 2 [0, 5]
          ∧ s.msgAt 5 = some { msg state .voice 3 3000 with readers := [someReader] }
          ∧ someReader.station = 1 ∧ someReader.context = (fromPeer kindFetchBlock 2 []).tag.toNat
          ∧ s.rau.pendingBlocks = [] ∧ s.clc.held = [] ∧ s.clc.tx.length ≤ 16
          ∧ (s.clc.tx.filter fun x => isStreamKind x.cell.kind).length ≤ 8) := by decide +kernel

/-- Context 0 plays from station 1. -/
def reading (f : Fetch) (vcd : Vcd → Vcd) : State := fetching f ((inVoice .playing).modVcd 0 vcd)
def slots (a : Slot) (v : Vcd) : Vcd :=
  { v with mark := .underrun, current := some (2, 9), buffer := { a, b := .requested 3 } }
/-- Context 0, held, sends the blocks of a message of station 1 as a fax. -/
def heldSend : State :=
  fetching (fetch1 .opened (some 5) [2, 3]) (((callOn base .connected .fax).modFax 0 fun f => { f with
    role := some .send, phase := .sending, sendBlock := 2, blocks := 6, source := some .fetched, granted := true
    buffer := { a := .arriving 2 (sevenParts.zipIdx.map fun x => (x.2, x.1)) 10, b := .requested 3 } }).modCtx 0 fun x =>
      { x with held := true })
theorem witness_ReaderTakesReplies : Sends base kindFetchGrant 0 [0, 5, 0, 0, 4, 0, 0, 2] ∧ base.fetch 0 = none
    ∧ Sends base kindFetchGrant 0 [2, 0, 0, 0, 4, 0, 0, 2] ∧ 511 < field [2, 0] 0 2
    ∧ (let s := reading (fetch1 .opening none []) id
      Sends s kindFetchGrant 0 [0, 5, 0, 0, 4, 0, 0, 2] ∧ s.fetch 0 = some (fetch1 .opening none [])
        ∧ (s.at 0).state = .connected ∧ (s.at 0).session = .voice ∧ (s.at 0).voice.activity = .playing
        ∧ (s.at 0).voice.script = .none ∧ (s.at 0).voice.start < 1016 ∧ s.clc.tx.length ≤ 22
        ∧ (let p : List Byte := [0, 5, 0, 0, 4, 0, 0, 2]
          field p 2 1 = 0 ∧ 0 < field p 3 3 ∧ (s.at 0).voice.start ≤ field p 3 3 ∧ 1 < field p 6 2))
    ∧ (let s := reading (fetch1 .opening (some 5) []) id
      Sends s kindFetchRefuse 0 [codeNoSuch, 0, 5] ∧ (s.at 0).vcd.source = none)
    ∧ (let s := reading (fetch1 .opened (some 5) [2]) (slots (.requested 2))
      Sends s kindFetchGrant 0 [0, 5, 0, 0, 4, 0, 0, 2] ∧ Sends s kindFetchData 0 ([0, 5, 0, 2, 0] ++ List.replicate 64 7)
        ∧ 2 ∈ (fetch1 .opened (some 5) [2]).pending
        ∧ (s.at 0).vcd.buffer = { a := .requested 2, b := .requested 3 } ∧ (Slot.requested 3).index ≠ some 2)
    ∧ (let s := reading (fetch1 .opened (some 5) [2]) (slots (.arriving 2 (sevenParts.zipIdx.map fun x => (x.2, x.1)) 10))
      Sends s kindFetchData 0 ([0, 5, 0, 2, 7] ++ List.replicate 64 7) ∧ (s.at 0).vcd.mark = .underrun
        ∧ (s.at 0).vcd.current = some (2, 9) ∧ (s.at 0).held = false
        ∧ ((s.modCtx 0 fun x => { x with held := true }).at 0).held = true)
    ∧ (let s := (reading (fetch1 .opening none []) id).modCtx 0 fun x => { x with held := true }
      Sends s kindFetchGrant 0 [0, 5, 0, 0, 4, 0, 0, 2] ∧ (s.at 0).held = true ∧ (s.at 0).voice.activity = .playing)
    ∧ (let s := heldSend
      Sends s kindFetchData 0 ([0, 5, 0, 2, 7] ++ List.replicate 64 7) ∧ s.fetch 0 = some (fetch1 .opened (some 5) [2, 3])
        ∧ (s.at 0).session = .fax ∧ (s.at 0).held = true
        ∧ (s.at 0).fax.buffer = { a := .arriving 2 (sevenParts.zipIdx.map fun x => (x.2, x.1)) 10, b := .requested 3 }
        ∧ (Slot.requested 3).index ≠ some 2) := by decide +kernel

/-! ### Witnesses: timers -/

/-- Context 0 CLAIMING channel 3 with a bid whose delay is over. -/
def bidOver : State := (bidding .incoming .seize false).setBid 0
  (some { channel := 3, direction := .incoming, timer := some 0, withdrawal := none })
theorem witness_ChannelTimersAct :
    bidOver.Quiet ∧ bidOver.bid 0 = some { channel := 3, direction := .incoming, timer := some 0, withdrawal := none }
      ∧ queueTakes [] (claimCell 3) = true ∧ queueTakes (List.replicate 24 (waits report 0 false)) (claimCell 3) = false
      ∧ (let s := base.modEntry 31 fun e => { e with view := .blocked, blockTimer := some 0 }
        (s.entry 31).view = .blocked ∧ (s.entry 31).blockTimer = some 0)
      ∧ (∀ code ∈ [LineCode.idle, .seize, .answer, .blocked], let s := clearing 8 (some 5) code (.self 0)
        (s.at 0).state = .clearing ∧ (s.at 0).held = false ∧ (s.at 0).channel = some 3 ∧ (s.at 0).clearing = 8
          ∧ (s.entry 3).view = .self 0 ∧ (s.entry 3).rx.settled = code)
      ∧ ∀ v ∈ [View.free, .unknown], let s := clearing 9 (some 0) .seize v
        (s.at 0).timer = some 0 ∧ (s.entry 3).view ≠ .self 0 ∧ (s.entry 3).view = v := by decide +kernel

/-- Context 0 in an incoming call whose timer is over, before mailbox 4. -/
def ringing (state : CtxState) (voice : Voice → Voice) (timer : Option Nat) : State :=
  let x := calling state .none 3
  viewed (put base 0 { x with timer, mailbox := some 4, voice := voice { x.voice with script := .answer } }) 3 (.self 0)
def greeted : State :=
  let s := keep 1 (msg .closed .greeting 1 1016) (ringing .answering id (some 0))
  { s with msc := { s.msc with mbxs := [box 4 [] (some 1)] } }
/-- The greeting stands while another is recorded. -/
def rerecorded : State :=
  { greeted with msc := { greeted.msc with mbxs := [{ box 4 [] (some 1) with greetingOpen := true }] } }
def beeping (timer : Option Nat) : State :=
  ringing .discriminating (fun v => { v with activity := .beeping, step := some .beep, beep := some 0 }) timer
theorem witness_IncomingCallTimersAct :
    base.cfu.config = some cfg ∧ 0 < cfg.answerDelay
      ∧ (withConfig { cfg with answerDelay := 0 } base).cfu.config = some { cfg with answerDelay := 0 }
      ∧ (∀ state ∈ [CtxState.addressing, .answering, .discriminating], let s := ringing state id (some 0)
        s.Quiet ∧ (s.at 0).held = false ∧ (s.at 0).channel = some 3 ∧ (s.at 0).state = state ∧ (s.at 0).timer = some 0)
      ∧ 4 % cfg.groupSize = base.cfu.station.val ∧ (mailbox? base 4).all (fun b => b.greeting.isNone) = true
      ∧ mailbox? rerecorded 4 = some { box 4 [] (some 1) with greetingOpen := true }
      ∧ (greeted.msc.state = .ready ∧ mailbox? greeted 4 = some (box 4 [] (some 1))
        ∧ greeted.msgAt 1 = some (msg .closed .greeting 1 1016) ∧ rerecorded.msc.state = .ready
        ∧ rerecorded.msgAt 1 = some (msg .closed .greeting 1 1016))
      ∧ (let s := keep 1 (msg .opened .greeting 1 1016) greeted
        mailbox? s 4 = some (box 4 [] (some 1)) ∧ s.msgAt 1 = some (msg .opened .greeting 1 1016))
      ∧ (let s := ringing .discriminating (fun v => { v with step := some .record }) (some 0)
        (s.at 0).voice.step = some .record ∧ (s.at 0).voice.script = .answer ∧ openRefusal s 4 (some .voice) = none
          ∧ openRefusal { s with msc := { s.msc with mbxs := [] } } 4 (some .voice) = some codeNoSuch)
      ∧ ∀ timer ∈ [none, some 9], ((beeping timer).at 0).voice.activity = .beeping ∧ ((beeping timer).at 0).timer = timer
        ∧ ((beeping timer).at 0).voice.beep = some 0 ∧ ((beeping timer).at 0).voice.script = .answer := by decide +kernel

def request (dial : List Byte) : Outgoing :=
  { dial, purpose := .plain, choiceRetried := false, glareRetried := false, tag := 9 }
/-- Context 0 in an outgoing call on channel 3 or on the pulse channel 1. -/
def dialing (ch : Channel) (state : CtxState) (dial : List Byte) (pos : Nat) (phase : DialPhase) (pulses : Nat) : State :=
  let x := calling state .none ch
  viewed (put base 0 { x with
    direction := some .outgoing, announced := false, requestTag := some 9, outgoing := some (request dial), timer := some 0
    txCode := .seize, dgn := { dial, pos, phase, left := 0, pulses } }) ch (.self 0)
theorem witness_DialTimersAct : inSet cfg.pulseSet 1 = true ∧ inSet cfg.pulseSet 3 = false
    ∧ (∀ ch ∈ [(1 : Channel), 3], ∀ dial ∈ [[0x30], [0x39, 0x2C], [0x57], [0x2C]], ∀ b ∈ dial,
        isDialChar b = true ∧ (b.toNat ∈ [0x2C, 0x57] ∨ (0x30 ≤ b.toNat ∧ b.toNat ≤ 0x39))
          ∧ (let s := dialing ch .seized dial 0 .off 0
            s.Quiet ∧ s.cfu.config = some cfg ∧ (s.at 0).held = false ∧ (s.at 0).channel = some ch
              ∧ (s.at 0).outgoing = some (request dial) ∧ (s.at 0).state = .seized ∧ (s.at 0).timer = some 0
              ∧ (s.at 0).detector.progressOn = false))
    ∧ (∀ b ∈ [(0x2A : Byte), 0x44], b.toNat ∈ [0x2A, 0x23, 0x41, 0x42, 0x43, 0x44])
    ∧ (∀ phase ∈ [DialPhase.tone, .gap, .break, .make, .pause], ∀ pulses ∈ [0, 1],
        let s := dialing 3 .dialling [0x31, 0x57] 0 phase pulses
        (s.at 0).state = .dialling ∧ (s.at 0).dgn.left = 0 ∧ (s.at 0).dgn.phase = phase ∧ (s.at 0).dgn.pulses = pulses
          ∧ (s.at 0).dgn.dial.drop ((s.at 0).dgn.pos + 1) = 0x57 :: [])
    ∧ ((dialing 3 .dialling [0x31] 0 .gap 0).at 0).dgn.dial.length
      ≤ ((dialing 3 .dialling [0x31] 0 .gap 0).at 0).dgn.pos + 1 := by decide +kernel

theorem witness_CallEndingTimersAct :
    (let s := dialing 3 .dialling [0x57] 0 .wait 0;
      s.Quiet ∧ (s.at 0).held = false ∧ (s.at 0).timer = some 0 ∧ (s.at 0).dgn.phase = .wait
        ∧ (s.at 0).direction = some .outgoing ∧ (s.at 0).outgoing = some (request [0x57]) ∧ (s.at 0).outdialDone = false
        ∧ (s.at 0).channel = some 3)
      ∧ ((dialing 3 .progress [0x57] 0 .off 0).at 0).state = .progress
      ∧ (let s := (inVoice .waiting).modVoice 0 fun v => { v with idle := some 0 }
        (s.at 0).state = .connected ∧ (s.at 0).session = .voice ∧ (s.at 0).voice.activity = .waiting
          ∧ (s.at 0).voice.idle = some 0 ∧ (s.at 0).direction = some .incoming ∧ (s.at 0).announced = true
          ∧ (s.at 0).outgoing = none) := by decide +kernel

/-- A block with the two frequencies of digit 5 (770 and 1336 Hz), at equal levels. -/
def five : Measurement :=
  { lines := [{ freq := 7700, level := -100 }, { freq := 13360, level := -100 }], bandPower := 0, totalPower := 100
    level := -70 }
def listening (state : CtxState) : State :=
  (ringing state (fun v => { v with script := .none }) (some 9)).modDetector 0 fun d =>
    { d with gathered := List.replicate 128 0, digitRun := some (5, 2) }
theorem witness_DetectorReportsDigits : Detector.reset.armed = true ∧ Detector.reset.digitRun = none
    ∧ (∀ state ∈ [CtxState.answering, .addressing], let s := listening state
      s.Quiet ∧ (s.at 0).held = false ∧ (s.at 0).channel = some 3 ∧ (s.entry 3).view = .self 0
        ∧ (s.at 0).detector.stopped = false ∧ 128 ≤ (s.at 0).detector.gathered.length ∧ (s.at 0).voice.activity = .none
        ∧ (s.at 0).state = state)
    ∧ (5 : Digit).val < 10 ∧ digitIn five = some 5 ∧ ((listening .addressing).at 0).detector.armed = true
    ∧ ((listening .addressing).at 0).detector.digitRun = some (5, 2)
    ∧ ((listening .addressing).at 0).digits.length + 1 < (configOf (listening .addressing)).addressDigits := by
  decide +kernel
/-- The end of a second busy cycle in PROGRESS, and the twenty-fifth block of a calling tone in DISCRIMINATING. -/
def busyTone : Measurement := { lines := [], bandPower := 75, totalPower := 100, level := -350 }
def busyCycle : State := (dialing 3 .progress [0x31] 0 .off 0).modDetector 0 fun d =>
  { d with gathered := List.replicate 128 0, progressOn := false, progressRun := 24, lastOn := 36, busyCycles := 1 }
def modemTone : Measurement :=
  { lines := [{ freq := 13260, level := -400 }], bandPower := 0, totalPower := 100, level := -400 }
def modemCall : State := (beeping (some 9)).modDetector 0 fun d =>
  { d with gathered := List.replicate 128 0, modemRun := 24 }
theorem witness_tones_at_a_context :
    (let s := busyCycle
      let d := (s.at 0).detector
      s.Quiet ∧ (s.at 0).held = false ∧ (s.at 0).channel = some 3 ∧ (s.entry 3).view = .self 0 ∧ d.stopped = false
        ∧ 128 ≤ d.gathered.length ∧ (s.at 0).state = .progress ∧ progressIn busyTone = true ∧ d.progressOn = false
        ∧ 24 ≤ d.lastOn ∧ d.lastOn ≤ 36 ∧ 24 ≤ d.progressRun ∧ d.progressRun ≤ 36 ∧ d.busyCycles = 1
        ∧ (s.at 0).direction = some .outgoing ∧ (s.at 0).outgoing = some (request [0x31]) ∧ (s.at 0).outdialDone = false)
      ∧ (let s := modemCall
        s.cfu.config = some cfg ∧ cfg.dataAllowed = true ∧ (s.at 0).state = .discriminating
          ∧ (s.at 0).voice.activity = .beeping ∧ digitIn modemTone = none ∧ toneIn 13000 260 modemTone = true
          ∧ (s.at 0).detector.modemRun = 24 ∧ (s.at 0).detector.modemReported = false
          ∧ toneIn 11000 380 modemTone = false ∧ (s.at 0).held = false ∧ (s.entry 3).view = .self 0) := by decide +kernel

def latePlay : State := (inVoice .playing).modVcd 0 fun v =>
  { v with mark := .underrun, current := some (2, 9), buffer := { a := .arriving 2 [(7, List.replicate 64 1)] 0, b := .empty } }
def inFax (f : Fax → Fax) : State := (callOn base .connected .fax).modFax 0 f
def lateFax : State := inFax fun f => { f with
  role := some .send, phase := .sending, sendBlock := 2, blocks := 4
  buffer := { a := .arriving 2 [(7, List.replicate 64 1)] 0, b := .requested 3 } }
theorem witness_LateSlotsAreFilled : latePlay.Quiet ∧ (latePlay.at 0).held = false
    ∧ (List.replicate 64 (1 : Byte)).length = 64 ∧ (latePlay.at 0).session = .voice
    ∧ (latePlay.at 0).vcd.mark = .underrun ∧ (latePlay.at 0).vcd.current = some (2, 9)
    ∧ (latePlay.at 0).vcd.buffer = { a := .arriving 2 [(7, List.replicate 64 1)] 0, b := .empty }
    ∧ (lateFax.at 0).held = false ∧ (lateFax.at 0).session = .fax ∧ (lateFax.at 0).fax.phase = .sending
    ∧ (lateFax.at 0).fax.pageEnd = none ∧ (lateFax.at 0).fax.sendBlock = 2 ∧ (lateFax.at 0).fax.frame = []
    ∧ 2 + 1 < (lateFax.at 0).fax.blocks
    ∧ (lateFax.at 0).fax.buffer = { a := .arriving 2 [(7, List.replicate 64 1)] 0, b := .requested 3 } := by decide +kernel

def firstPart : Assembly :=
  { parts := [(0, List.replicate 64 0x33)], pageEnd := false, damaged := false, started := 19950 }
theorem witness_HomeWaitsEnd :
    (let s := home (entry2 .voice (some firstPart)) (written .voice 3 3048);
      s.Quiet ∧ s.msc.state = .ready ∧ s.msgAt 3 = some (written .voice 3 3048)
        ∧ depositEntry? s 3 = some (entry2 .voice (some firstPart)) ∧ (written .voice 3 3048).writer = some (.peer 1 2)
        ∧ firstPart.started + 50 ≤ s.cfu.stationTime ∧ s.msc.freeList = 90 :: [91, 92, 93]
        ∧ (∀ l ∈ (written .voice 3 3048).last, l ≠ 90) ∧ s.clc.tx.length < 23)
      ∧ (∀ count ∈ [0, 3], let s := home (entry2 .voice none) (written .voice count (1016 * count))
        depositEntry? s 3 = some (entry2 .voice none) ∧ (entry2 .voice none).lastHeard + 2000 ≤ s.cfu.stationTime
          ∧ (written .voice count (1016 * count)).count = count)
      ∧ ∀ state ∈ [MsgState.closed, .deleting], ∀ station ∈ [(1 : Fin 8), 0],
        let r := { someReader with station }
        (shelf state [r]).msgAt 5 = some { msg state .voice 3 3000 with readers := [r] } ∧ r ∈ [r]
          ∧ r.lastActivity + 10000 ≤ (shelf state [r]).cfu.stationTime ∧ (shelf state [r]).rau.pendingBlocks = []
          ∧ (r.station = (shelf state [r]).cfu.station ↔ station = 0) := by decide +kernel

def remoteRec : State := depositing .streaming ((inVoice .recording).modVoice 0 fun v => { v with recTarget := some (.outbound 1) })
theorem witness_PeerReplyTimersAct :
    (∀ state ∈ [DepositState.opening, .streaming, .closing], let s := depositing state base
      s.Quiet ∧ s.outbound 0 = some (out1 state) ∧ (out1 state).timer = some 0 ∧ (out1 state).kind ≠ .fax
        ∧ (s.at 0).session ≠ .fax ∧ (s.at 0).voice.depositWait = false ∧ (s.at 0).voice.activity ≠ .recording)
      ∧ (remoteRec.at 0).voice.activity = .recording ∧ (remoteRec.at 0).voice.recTarget = some (.outbound 1)
      ∧ (remoteRec.at 0).voice.script = .none ∧ remoteRec.outbound 0 = some (out1 .streaming)
      ∧ (let f := fetch1 .opened (some 5) [2]
        let s := reading f id
        s.fetch 0 = some f ∧ f.timer = some 0 ∧ (s.at 0).state = .connected ∧ (s.at 0).session = .voice
          ∧ (s.at 0).voice.activity = .playing ∧ (s.at 0).voice.script = .none ∧ (s.at 0).vcd.source = none
          ∧ f.state = .opened ∧ f.keepalive = 0 ∧ f.handle = some 5) := by decide +kernel

/-! ### Witnesses: fax and data sessions -/

/-- Context 0 receives a fax into message 3. -/
def faxing (phase : FaxPhase) (f : Fax → Fax) (count : Nat) : State :=
  keep 3 { msg .opened .fax count 2 with writer := some (.here 0), pageMark := 1 }
    (inFax fun x => f { x with role := some .receive, phase, target := some (.here 3), rate := 4, pagesDone := 2 })
theorem witness_FaxReceiveCommandsAct : (2 : Byte).toNat ≤ cfg.faxMaxRate ∧ cfg.faxMaxRate < (5 : Byte).toNat
    ∧ (∀ phase ∈ [FaxPhase.awaitMode, .training, .awaitPage, .page], let s := faxing phase id 3
      s.Quiet ∧ s.cfu.config = some cfg ∧ (s.at 0).state = .connected ∧ (s.at 0).session = .fax ∧ (s.at 0).held = false
        ∧ (s.at 0).voice.activity = .none ∧ (s.at 0).fax.role = some .receive ∧ (s.at 0).fax.phase = phase
        ∧ (s.at 0).fax.badTrainings < 3 ∧ (s.at 0).fax.target = some (.here 3)
        ∧ openUnder s 3 (.here 0) = some { msg .opened .fax 3 2 with writer := some (.here 0), pageMark := 1 }
        ∧ s.msc.freeList = 90 :: [91, 92, 93] ∧ s.clc.tx.length < 22)
    ∧ 3 ≤ ((faxing .awaitMode (fun f => { f with badTrainings := 3 }) 3).at 0).fax.badTrainings
    ∧ (∀ readings ∈ [22, 23], let s := (faxing .training id 3).modQmn 0 fun q => { q with readings, quality := some 900 }
      (s.at 0).fax.phase = .training ∧ (s.at 0).qmn.readings = readings
        ∧ (s.at 0).fax.rate ≤ faxCeilingOf (moveQuality (some 900) false 100))
    ∧ (let s := faxing .page (fun f => { f with build := List.replicate 300 1, frames := 16, bad := 1, expected := 9 }) 3
      (s.at 0).fax.build.length + (List.replicate 208 (1 : Byte)).length ≤ 508
        ∧ 508 < (s.at 0).fax.build.length + (List.replicate 256 (1 : Byte)).length
        ∧ 4 * (s.at 0).fax.bad ≤ (s.at 0).fax.frames ∧ 16 * (s.at 0).fax.bad ≤ (s.at 0).fax.frames)
    ∧ ((faxing .page (fun f => { f with frames := 3, bad := 1 }) 3).at 0).fax.frames < 4 * 1
    ∧ (128 ≤ ((8 : Byte).toNat + 256 - 9) % 256 ∧ ((136 : Byte).toNat + 256 - 9) % 256 < 128) := by decide +kernel

/-- Context 0 sends a fax. -/
def sendingFax (phase : FaxPhase) (f : Fax → Fax) : State :=
  inFax fun x => f { x with role := some .send, phase, rate := 2, trainingBegun := true, wait := some 0 }
theorem witness_FaxSendCommandsAct :
    (∀ phase ∈ [FaxPhase.awaitCapability, .sendTraining, .awaitTrainVerdict, .sending, .awaitPageVerdict],
      let s := sendingFax phase id
      s.Quiet ∧ s.cfu.config = some cfg ∧ (s.at 0).state = .connected ∧ (s.at 0).session = .fax ∧ (s.at 0).held = false
        ∧ (s.at 0).voice.activity = .none ∧ (s.at 0).fax.role = some .send ∧ (s.at 0).fax.phase = phase
        ∧ (s.at 0).fax.granted = false ∧ (s.at 0).fax.keptVerdict = none ∧ (s.at 0).fax.badTrainings < 3
        ∧ 0 < (s.at 0).fax.rate ∧ (s.at 0).fax.trainingBegun = true ∧ (s.at 0).fax.resend = false
        ∧ (s.at 0).fax.wait = some 0 ∧ (s.at 0).fax.phase ≠ .off ∧ (s.at 0).fax.phase ≠ .disconnecting)
    ∧ ((sendingFax .awaitCapability fun f => { f with granted := true }).at 0).fax.granted = true
    ∧ (∀ v ∈ [true, false], ((sendingFax .sendTraining fun f => { f with keptVerdict := some v }).at 0).fax.keptVerdict = some v)
    ∧ (3 ≤ ((sendingFax .awaitTrainVerdict fun f => { f with badTrainings := 3 }).at 0).fax.badTrainings
      ∧ ((sendingFax .awaitTrainVerdict fun f => { f with rate := 0 }).at 0).fax.rate = 0)
    ∧ (∀ last ∈ [true, false], ((sendingFax .awaitPageVerdict fun f => { f with pageEnd := some (6, last) }).at 0).fax.pageEnd = some (6, last))
    ∧ ((sendingFax .awaitPageVerdict fun f => { f with resend := true }).at 0).fax.resend = true
    ∧ ((sendingFax .awaitCapability fun f => { f with trainingBegun := false }).at 0).fax.trainingBegun = false
    ∧ ((faxing .page (fun f => { f with wait := some 0 }) 3).at 0).fax.wait = some 0
    ∧ (let s := (sendingFax .disconnecting fun f => { f with result := some codeOk }).modPump 0 fun p =>
          { p with control := [.disconnect] }
      (s.at 0).pump.control = .disconnect :: [] ∧ (s.at 0).fax.phase = .disconnecting
        ∧ (s.at 0).fax.result = some codeOk ∧ (s.at 0).fax.target = none ∧ (s.at 0).fax.source = none
        ∧ s.fetch 0 = none ∧ (s.at 0).direction = some .incoming ∧ (s.at 0).announced = true
        ∧ (s.at 0).outgoing = none ∧ (s.at 0).channel = some 3)
    ∧ (((sendingFax .sending id).modPump 0 fun p => { p with control := [.mode 2] }).at 0).pump.control = .mode 2 :: [] := by decide +kernel

def qmn (phase : DataPhase) (f : Qmn → Qmn) : State := inData phase fun x => { x with qmn := f x.qmn }
theorem witness_ReadingsAndTrainingsAct : 65520 ≤ 65520 ∧ ceilingOf 16000 < 5
    ∧ (∀ phase ∈ [DataPhase.training, .retraining, .up, .shifting], ∀ retrains ∈ [0, 4],
      let s := qmn phase fun q => { q with retrains, readings := 15 }
      s.Quiet ∧ s.cfu.config = some cfg ∧ (s.at 0).state = .connected ∧ (s.at 0).session = .data ∧ (s.at 0).held = false
        ∧ (s.at 0).lkc.outstanding = [] ∧ (s.at 0).lkc.sendBuffer = [] ∧ (s.at 0).lkc.holdSent = false
        ∧ (s.at 0).qmn.phase = some phase ∧ (s.at 0).qmn.retrains = retrains
        ∧ (s.at 0).qmn.timer = some 0 ∧ 16 ≤ (s.at 0).qmn.readings + 1)
    ∧ (5 ≤ ceilingOf (moveQuality (some 1600) false 100) ∧ 2 ≤ 5)
    ∧ (2 ≤ ceilingOf (moveQuality (some 16000) false 1000) ∧ ceilingOf (moveQuality (some 16000) false 1000) < 5)
    ∧ ceilingOf (moveQuality (some 65520) false 4095) < 2 ∧ 5 + 2 ≤ ceilingOf (moveQuality (some 1600) false 100)
    ∧ (∀ n ∈ [2, 63], let s := qmn .up fun q => { q with fallback := n, stepUp := n, windowReadings := 15, errors := 2 }
      ¬ (16 ≤ (s.at 0).qmn.windowReadings + 1 ∧ cfg.errorBurst ≤ (s.at 0).qmn.errors))
    ∧ cfg.errorBurst ≤ ((qmn .up fun q => { q with errors := 3 }).at 0).qmn.errors
    ∧ ((2 : Nat) ≤ (9 : Byte).toNat ∧ (9 : Byte).toNat ≤ 9 ∧ (1 : Byte).toNat < 2) := by decide +kernel

def link (f : Lkc → Lkc) : State := inData .up fun x => { x with lkc := f x.lkc }
def sentBlock (n : BitVec 4) (resends : Nat) : LinkBlock := { sequence := n, bytes := [7], resends }
theorem witness_LinkBlocksMove :
    (let s := link fun l => { l with outstanding := [sentBlock 14 9, sentBlock 15 0], nextSequence := 0, resend := some 0 };
      s.Quiet ∧ (s.at 0).state = .connected ∧ (s.at 0).session = .data ∧ (s.at 0).held = false
        ∧ (s.at 0).qmn.phase = some .up ∧ (s.at 0).lkc.expected = 0 ∧ (1 : BitVec 4) ≠ (s.at 0).lkc.expected
        ∧ (s.at 0).lkc.rxBuffer = [] ∧ (s.at 0).lkc.rxHeld = none ∧ (s.at 0).lkc.outstanding ≠ []
        ∧ (s.at 0).lkc.outstanding.length < ((1 : BitVec 4) - 14).toNat ∧ ((0 : BitVec 4) - 14).toNat ≤ 2
        ∧ (s.at 0).lkc.remoteHold = none ∧ (s.at 0).lkc.sendBuffer = [] ∧ (s.at 0).lkc.resend = some 0
        ∧ (s.at 0).lkc.outstanding = sentBlock 14 9 :: [sentBlock 15 0] ∧ 10 ≤ (sentBlock 14 9).resends + 1
        ∧ (sentBlock 14 8).resends + 1 < 10)
      ∧ 1024 < (List.replicate 961 (0 : Byte)).length + (List.replicate 64 (0 : Byte)).length
      ∧ queueTakes base.clc.tx (ownCell base 5 gateway kindDataRx (tagOf 0) (List.replicate 64 7)) = true
      ∧ (let s := link fun l => { l with sendBuffer := List.replicate 64 7, remoteHold := none }
        (s.at 0).lkc.outstanding = [] ∧ (s.at 0).lkc.flowStop = false ∧ 1 ≤ (s.at 0).lkc.sendBuffer.length
          ∧ (s.at 0).lkc.sendBuffer.length ≤ 64)
      ∧ ((link fun l => { l with remoteHold := some 0 }).at 0).lkc.remoteHold = some 0 := by decide +kernel
theorem witness_ack_ends_a_hold : ∀ out ∈ [[], [sentBlock 14 0, sentBlock 15 0]],
    let s := link fun l => { l with outstanding := out, nextSequence := 0, remoteHold := some 9 }
    (s.at 0).lkc.outstanding = out ∧ (s.at 0).lkc.remoteHold ≠ none ∧ (s.at 0).lkc.sendBuffer = []
      ∧ (out = [] ∨ ((0 : BitVec 4) - 14).toNat ≤ out.length) := by decide +kernel

/-! ### Witnesses: line codes -/

theorem witness_CodesSettleAtBoundaries : LineCode.seize ≠ Settling.reset.settled
    ∧ (({ Settling.reset with candidate := some .seize, run := 7 }).run + 1 = 8)
    ∧ base.Quiet ∧ isAligned base = true ∧ base.hwi.tickCount = some 5 ∧ 5 + 24571 < 32767
    ∧ (∃ t, exec (.superframeBoundary 24571) base = .next t) ∧ isAligned State.reset = false :=
  ⟨by decide, rfl, rfl, rfl, rfl, by decide, ⟨_, rfl⟩, rfl⟩
/-- At the next boundary the receive code of channel 3 settles at a new code. -/
def settling (code : LineCode) (s : State) : State :=
  let old := if code = .idle then .seize else .idle
  { s with hwi := { s.hwi with rxCodes := s.hwi.rxCodes.set 3 code } }.modEntry 3 fun e => { e with
    rx := { settled := old, candidate := some code, run := 1 } }
/-- Context 0 in an outgoing call with a purpose. -/
def outgoingCall (state : CtxState) (purpose : CallPurpose) (glareRetried : Bool) : State :=
  (dialing 3 state [0x31] 0 .off 0).modCtx 0 fun x => { x with outgoing := some { request [0x31] with purpose, glareRetried } }
/-- Another context, as it is not FREE. -/
def taken (k : ContextId) (s : State) : State := put s k (calling .clearing .none 9)
theorem witness_bid_starts :
    (let s := settling .seize (taken 0 base);
      s.Quiet ∧ s.SettlesAlone 24571 3 .seize ∧ s.cfu.config = some cfg ∧ holderOf s 3 = none ∧ claimerOf s 3 = none
        ∧ clearerOf s 3 = none ∧ s.cfu.state = .active ∧ inSet cfg.huntSet 3 = true ∧ (s.entry 3).view = .free
        ∧ (s.at 1).state = .free ∧ (∀ j, j < 1 → (s.at j).state ≠ .free))
      ∧ (let s := settling .seize (viewed base 3 (.peer 1))
        s.SettlesAlone 24571 3 .seize ∧ holderOf s 3 = none ∧ (s.entry 3).view = .peer 1 ∧ (s.entry 3).view ≠ .blocked) := by
  decide +kernel
theorem witness_codes_at_a_context : ∀ code ∈ [LineCode.idle, .seize, .answer, .blocked],
    (∀ state ∈ [CtxState.addressing, .answering, .discriminating, .connected, .clearing],
      let s := settling code (callOn base state .none)
      s.Quiet ∧ s.SettlesAlone 24571 3 code ∧ s.cfu.config = some cfg ∧ (s.entry 3).view = .self 0
        ∧ (s.at 0).channel = some 3 ∧ (s.at 0).held = false ∧ (s.at 0).state = state
        ∧ (s.at 0).direction = some .incoming ∧ (s.at 0).outgoing = none)
    ∧ ∀ state ∈ [CtxState.seized, .dialling, .progress, .connected], let s := settling code (outgoingCall state .plain false)
      s.SettlesAlone 24571 3 code ∧ (s.entry 3).view = .self 0 ∧ (s.at 0).channel = some 3 ∧ (s.at 0).held = false
        ∧ (s.at 0).state = state ∧ (s.at 0).direction = some .outgoing ∧ (s.at 0).outgoing = some (request [0x31])
        ∧ (s.at 0).outdialDone = false := by decide +kernel
theorem witness_glare_and_answer :
    (let s := settling .seize (outgoingCall .seized .plain false);
      s.SettlesAlone 24571 3 .seize ∧ 0 < cfg.addressDigits ∧ s.at 1 = Context.reset ∧ (∀ i, i < 1 → (s.at i).state ≠ .free)
        ∧ inSet cfg.outdialSet 0 = true ∧ (s.entry 0).view = .free ∧ (s.entry 0).rx.settled = .idle
        ∧ claimerOf s 0 = none ∧ clearerOf s 0 = none ∧ queueTakes s.clc.tx (claimCell 0) = true)
      ∧ (let s := withConfig { cfg with outdialSet := 0 } (settling .seize (outgoingCall .seized .plain false))
        s.SettlesAlone 24571 3 .seize ∧ ∀ c, ¬ inSet (configOf s).outdialSet c = true)
      ∧ (∀ j, ((taken 1 (taken 2 (taken 3 (outgoingCall .seized .plain true)))).at j).state ≠ .free)
      ∧ ∀ purpose ∈ [CallPurpose.plain, .play 1 5, .faxSend 1 5, .data 2 9],
        let s := settling .answer (outgoingCall .dialling purpose false)
        s.SettlesAlone 24571 3 .answer ∧ s.clc.tx.length ≤ 21 ∧ (1 ≠ s.cfu.station.val)
          ∧ (s.at 0).outgoing = some { request [0x31] with purpose } :=
  ⟨by decide +kernel, by decide +kernel, by decide +kernel, by decide +kernel⟩

/-! ### The spec's worked sequences, one step each -/

/-- Chapter 1, steps 1, 3, 4 and 6 of the alignment search. -/
theorem test_false_candidate : (after (.frameWordSearch 1616 0x76) State.reset).hwi.align = .verify 544 1 4 := by decide +kernel
theorem test_miss_searches : (after (.frameWordVerify 0x5A) (alignedIn (.verify 544 1 4) base)).hwi.align = .search := by
  decide +kernel
theorem test_true_candidate : (after (.frameWordSearch 2072 0x76) State.reset).hwi.align = .verify 1000 1 4 := by decide +kernel
theorem test_third_word_aligns : let t := after (.frameWordVerify 0xB6) (alignedIn (.verify 1000 2 5) base)
    t.hwi.align = .aligned 1000 ∧ t.hwi.lastAligned = some 1000 ∧ t.clc.tx.length = 1 := by decide +kernel
/-- Chapter 1, the loss: the fourth bad word brings the error count to 4 and SEARCH. -/
theorem test_fourth_bad_word : let t := after (.frameWordAligned 5 0) (misread 1000 3 base)
    t.hwi.align = .search ∧ t.hwi.errors = 4 ∧ t.hwi.bitCounter = 448 := by decide +kernel

/-- Chapter 2: the arbitration bytes of four cells at one free line. -/
theorem test_arbitration_bytes :
    arbitrationByte { claimCell 9 with src := 1 } = 0x22 ∧ arbitrationByte { claimCell 9 with src := 2 } = 0x24
      ∧ arbitrationByte { claimCell 17 with prio := 2, src := 3 } = 0x46
      ∧ arbitrationByte { fromGateway kindPlay [] with prio := 3 } = 0x7E := by decide
/-- R22 takes the register of CRC-16 with the preset FFFFh; its published check value over the digits 1 to 9 is 29B1h. -/
theorem test_check_of_digits : crc16 [0x31, 0x32, 0x33, 0x34, 0x35, 0x36, 0x37, 0x38, 0x39] = 0x29B1 := by decide +kernel

/-- Chapter 3: positions 3, 5, 6, 7 and 8 are cleared and the record closes up; the overflow count stays. -/
theorem test_fault_record_closes_up :
    let entry (kind : FaultKind) (subject : Nat) : FaultEntry := { kind, subject, stamp := 1004, clockSet := true }
    let s := { base with cfu := { base.cfu with
      faults := [entry .contention 9, entry .disputeLost 14, entry .timingStep 40, entry .highwayLost 2] ++
        List.replicate 4 (entry .timingStep 24)
      overflow := 2 } }
    let t := after .faultClear (asked s kindFaultClear [0xF4, 0])
    t.cfu.faults = [entry .contention 9, entry .disputeLost 14, entry .highwayLost 2] ∧ t.cfu.overflow = 2 := by decide +kernel

/-- Chapter 4: the bid delays of stations 1, 2 and 3 of four for channel 9. -/
theorem test_bid_delays : bidDelay { cfg with groupSize := 4 } 1 1 9 = 8 ∧ bidDelay { cfg with groupSize := 4 } 2 0 9 = 12
    ∧ bidDelay { cfg with groupSize := 4 } 3 0 9 = 8 := by decide
/-- Chapter 4: the eighth boundary settles SEIZE, and a station with a free context starts a bid. -/
def seventhSeize : State :=
  let s := withConfig { cfg with settleCount := 8, groupSize := 4 } base
  let h := { s.hwi with prevTiming := some 24576, rxCodes := s.hwi.rxCodes.set 9 .seize }
  { s with hwi := h }.modEntry 9 fun e => { e with rx := { e.rx with candidate := some .seize, run := 7 } }
theorem test_seizure_settles : let t := after (.superframeBoundary 24571) seventhSeize
    (t.entry 9).rx.settled = .seize ∧ (t.at 0).state = .claiming
      ∧ t.bid 0 = some { channel := 9, direction := .incoming, timer := some 4, withdrawal := none } := by decide +kernel

/-- Chapter 2, R20 and R23: a bit sent recessive that reads dominant sets the recessive run to 0. -/
theorem test_send_error_ends_the_run : (after (.cellOutcome .sendError) (withTx [waits report 0 true] base)).clc.run = 0 := by
  decide +kernel

/-- Chapters 5, 6 and 9: by hand, 5666 divided by the root of 10 is 1791.74, a sine is half at a twelfth of a turn, and 0
stands next to 00h and 80h. -/
theorem test_tone_by_hand : tonePeak (-100) / 2 ^ 16 = 1791 ∧ tonePeak 0 = 5666 * 2 ^ 16 ∧ sine (turn / 12) / 2 ^ 10 = 2 ^ 19 - 1
    ∧ sine (3 * (turn / 4)) = -(2 ^ 30) ∧ roundings 0 = [0x00, 0x80] ∧ roundings (107 * 65536) = [0x21] := by decide +kernel

/-- Chapter 5: nine pulses for 9, ten for 0, none for `#`. -/
theorem test_pulses : pulsesOf 0x39 = some 9 ∧ pulsesOf 0x30 = some 10 ∧ pulsesOf 0x23 = none := by decide
theorem test_digit_five_found : digitIn five = some 5 := by decide +kernel

/-- Chapter 6: the worked codes, the expansion's table ends, and three samples of 20h. -/
theorem test_expand_ends : expand 0x0F = 30 ∧ expand 0x10 = 33 ∧ expand 0x4F = 975 ∧ expand 0xFF = -8031 ∧ expand 0x80 = 0 := by
  decide +kernel
theorem test_compress_worked : compress 106 = 0x21 ∧ compress 30 = 0x0F ∧ compress 85 = 0x1D ∧ expand 0x21 = 107 := by decide +kernel
theorem test_decoder_worked : applyCode 0 0 7 = (30, 7) ∧ applyCode 30 7 7 = (85, 14) ∧ applyCode 85 14 1 = (106, 13) := by
  decide +kernel
theorem test_encoder_worked : let v := (((Vcd.reset.encode 10 0x20).1.encode 10 0x20).1.encode 10 0x20).1
    v.build = [0x77] ∧ v.pendingNibble = some 1 ∧ v.encPredictor = 106 ∧ v.encIndex = 13 ∧ v.largest = 14 := by decide +kernel

/-- Chapter 8: the seventh part to come of block 1 is its last; part 5 is filled and the block is marked. -/
theorem test_lost_part_is_filled : let a := { gathered [] with
      parts := [0, 1, 2, 3, 4, 6, 7].map fun i => (i, List.replicate 64 (0x22 + BitVec.ofNat 8 i)) }
    let block := assembled (entry2 .voice none) a
    block.take 4 = [0x22, 0x22, 0x22, 0x62] ∧ block.drop 320 = List.replicate 64 0x80 ++ List.replicate 64 0x28 ++
      List.replicate 64 0x29 := by decide +kernel
theorem test_lost_part_marks_the_message : let e := entry2 .voice (some { gathered [] with
      parts := [0, 1, 2, 3, 4, 6].map fun i => (i, List.replicate 64 0x22) })
    let t := after .depositData (receiving (home e (written .voice 1 1016)) (fromPeer kindDepositData 2 (dataCell 7 [0xFF, 0xFF])))
    t.msc.freeList = [91, 92, 93] ∧ (t.msgAt 3).map (·.gaps) = some true ∧ (t.msgAt 3).map (·.length) = some 2032 := by
  decide +kernel

/-- Chapter 10: a reading of 520 gives the ceiling 4; the verdicts of the pages. -/
theorem test_fax_ceiling : moveQuality none true 520 = 8320 ∧ faxCeilingOf 8320 = 4 := by decide +kernel
theorem test_page_verdicts : [(60, 2), (60, 6), (60, 16), (60, 1)].map (fun x => pageVerdict x.1 x.2) = [0, 1, 2, 0] := by
  decide +kernel

/-- Chapter 11: the sixth reading of the fallback begins a shift to 10, and the burst a retrain at 8. -/
theorem test_quality_worked : moveQuality (some 648) false 90 = 747 ∧ ceilingOf 747 = 11 ∧ moveQuality (some 747) false 95 = 843
    ∧ ceilingOf 843 = 10 ∧ ceilingOf 2400 = 8 := by decide +kernel
theorem test_fallback_shifts : let s := (qmn .up fun q =>
      { q with min := 6, max := 11, rate := 11, target := 11, quality := some 929, fallback := 2 })
    let q := ((after (.noiseReading 0 97) s).at 0).qmn
    q.quality = some 1006 ∧ q.phase = some .shifting ∧ q.target = 10 ∧ q.reason = .fallback ∧ q.fallback = 0 := by decide +kernel
theorem test_burst_retrains : let s := withConfig { cfg with errorBurst := 8 } (qmn .up fun q => { q with
      min := 6, max := 11, rate := 10, target := 10, quality := some 960, retrains := 1, windowReadings := 15, errors := 11 })
    let q := ((after (.noiseReading 0 60) s).at 0).qmn
    q.phase = some .retraining ∧ q.target = 8 ∧ q.rate = 10 ∧ q.retrains = 2 ∧ q.reason = .burst := by decide +kernel

/-- R115: the greeting that stands is granted while another is recorded, and the greeting step plays it. -/
theorem test_greeting_is_played_while_another_is_recorded :
    ((readOpen (.greeting 4) 0 0 rerecorded).2.toOption.map (·.handle)) = some 1
      ∧ ((after (.answerDelayExpiry 0) rerecorded).at 0).voice.activity = .playing := by decide +kernel
/-- R115, R138: a greeting whose record is OPEN is refused, and the greeting step goes on to the beep. -/
theorem test_open_greeting_is_refused : let s := keep 1 (msg .opened .greeting 1 1016) greeted
    (readOpen (.greeting 4) 0 0 s).2 = .error codeNotOpen
      ∧ ((after (.answerDelayExpiry 0) s).at 0).voice.activity = .beeping := by decide +kernel
/-- R130, R144: the 2 s of CLOSING are not stopped by the last BLOCK_TAKEN. -/
theorem test_closing_runs_out : let d := { out1 .closing with outstanding := [5], timer := some 700, closeSent := true }
    let t := after .blockTaken (receiving (base.setOutbound 0 (some d)) (fromPeer kindBlockTaken 0 [0, 3, 0, 5]))
    (t.outbound 0).map (·.outstanding) = some [] ∧ (t.outbound 0).map (·.timer) = some (some 700) := by decide +kernel

/-! ### The highway from outside, and the queue -/

theorem test_words_spell_no_command : decodeTableWord 8 0 = none ∧ (State.reset.withFetchWord 8 0).pending = [] := by decide +kernel
theorem test_configure_makes_active : (after .configure (asked (plain base) kindConfigure goodConfig)).cfu.state = .active := by
  decide +kernel

end Sys2Proof.Tests
end

section
/-! PROOFS. The family of the highway: the windows of a frame word (R1, R4, R5). -/
namespace Sys2Proof.Machine

/-! ### The fields of a window, as numbers -/

/-- R1: bits 4..0 are the remainder of the window by 32. -/
theorem hasAlignCode_iff (w : Byte) : hasAlignCode w = true ↔ w.toNat % 32 = 0b10110 := by
  have low : (w.extractLsb' 0 5).toNat = w.toNat % 32 := by simp
  rw [hasAlignCode, beq_iff_eq, ← BitVec.toNat_inj, low]
  rfl

/-- R1: bits 7..5 are the quotient of the window by 32. -/
theorem frameNumber_val (w : Byte) : (frameNumber w).val = w.toNat / 32 := by
  have bound : w.toNat < 256 := w.isLt
  calc (frameNumber w).val = w.toNat / 32 % 8 := by simp [frameNumber, Nat.shiftRight_eq_div_pow]
    _ = w.toNat / 32 := Nat.mod_eq_of_lt (by omega)

theorem nextFrame_val (f : Fin 8) : (nextFrame f).val = (f.val + 1) % 8 := by
  rw [nextFrame, Fin.val_add, Fin.val_one]

/-- R4: what the model adds before it subtracts is two superframes, so its position is the difference of the rule. -/
theorem positionOf_eq_emod (b : Nat) (f : Fin 8) :
    (positionOf b f : Int) = ((b : Int) - 256 - 272 * (f.val : Int)) % 2176 := by
  have frames : f.val ≤ 7 := Nat.le_of_lt_succ f.isLt
  rw [positionOf]
  omega

/-! ### A command that is due, and one that is not -/

theorem act_of_due {due : Bool} {effect : State} (s : State) (h : due = true) (q : effect.Quiet) :
    act due effect s = .next effect := by
  rw [act, whenDue, if_pos h, settle_quiet q]

theorem act_of_not_due {due : Bool} (effect s : State) (h : due = false) : act due effect s = .next s := by
  rw [act, whenDue, h, if_neg Bool.false_ne_true]

/-! ### FRAME_WORD_SEARCH (R5) -/

/-- R5: where the alignment stands after a window of SEARCH whose first bit is at counter value b. -/
def alignAfterSearch (b : Nat) (w : Byte) : AlignState :=
  if hasAlignCode w then .verify (positionOf b (frameNumber w)) 1 (nextFrame (frameNumber w)) else .search

theorem alignAfterSearch_candidate {b : Nat} {w : Byte} (h : w.toNat % 32 = 0b10110) :
    alignAfterSearch b w = .verify (positionOf b (frameNumber w)) 1 (nextFrame (frameNumber w)) :=
  if_pos ((hasAlignCode_iff w).mpr h)

theorem alignAfterSearch_other {b : Nat} {w : Byte} (h : w.toNat % 32 ≠ 0b10110) : alignAfterSearch b w = .search :=
  if_neg (mt (hasAlignCode_iff w).mp h)

theorem exec_frameWordSearch_of_search (b : Fin 2176) (w : Byte) {s : State} (q : s.Quiet) (h : s.hwi.align = .search) :
    exec (.frameWordSearch b w) s
      = .next (s.modHwi fun x => { x with bitCounter := afterWindow b.val, align := alignAfterSearch b.val w }) :=
  act_of_due s (beq_iff_eq.mpr h) q

theorem exec_frameWordSearch_of_not_search (b : Fin 2176) (w : Byte) {s : State} (h : s.hwi.align ≠ .search) :
    exec (.frameWordSearch b w) s = .next s :=
  act_of_not_due _ s (beq_eq_false_iff_ne.mpr h)

/-- Settles O11: in SEARCH by whether the window carries the alignment code, and elsewhere the command is not due. -/
theorem searchRecordsTheCandidate : Obligations.SearchRecordsTheCandidate := by
  intro b w s q
  refine ⟨fun search => ⟨_, exec_frameWordSearch_of_search b w q search, rfl, ?candidate, ?other⟩,
    exec_frameWordSearch_of_not_search b w⟩
  case candidate =>
    intro code
    refine ⟨_, _, alignAfterSearch_candidate code, ?position, ?expected⟩
    case position => rw [positionOf_eq_emod, frameNumber_val]
    case expected => rw [nextFrame_val, frameNumber_val]
  case other => exact alignAfterSearch_other

end Sys2Proof.Machine
end

section
/-! PROOFS. The family of station start and the fault record: FAULT_CLEAR (R27, R29, R34, R47, R48). -/
namespace Sys2Proof.Machine

/-! ### A request that stands at the head of the receive queue (R27) -/

theorem rx_of_asked {s : State} {c : Cell} {kind : Byte} (h : Asked s c kind) : ∃ rest, s.clc.rx = c :: rest := by
  obtain ⟨⟨head, _, _⟩, _⟩ := h
  exact List.head?_eq_some_iff.mp head

/-- R27: both checks pass, so the cell reaches its owner. -/
theorem requestOwner_of_asked {s : State} {c : Cell} {kind : Byte} (owner : Cell → State → State) (t : State)
    (h : Asked s c kind) : requestOwner owner c t = owner c t := by
  obtain ⟨⟨_, _, allowed⟩, src⟩ := h
  simp [requestOwner, src, allowed]

theorem handRequest_of_asked {s : State} {c : Cell} {kind : Byte} {owner : Cell → State → State} (h : Asked s c kind)
    (q : (owner c (popCell s)).Quiet) : handRequest kind owner s = .next (owner c (popCell s)) := by
  obtain ⟨rest, rx⟩ := rx_of_asked h
  have ⟨⟨_, isKind, _⟩, _⟩ := h
  have due : (c.kind == kind) = true := beq_iff_eq.mpr isKind
  have reached := requestOwner_of_asked owner (popCell s) h
  simp only [handRequest, handOver, rx]
  rw [reached, act_of_due s due q]

/-! ### An ANSWER to the gateway (R29, R34, R48) -/

/-- R28: only a stream cell and a CLAIM meet a limit besides the 24 cells of the queue. -/
theorem queueTakes_of_plain_kind {c : Cell} (q : List TxCell) (stream : isStreamKind c.kind = false)
    (claim : c.kind ≠ kindClaim) : queueTakes q c = decide (q.length < 24) := by
  simp [queueTakes, stream, claim]

/-- The ANSWER of a station to a request of the gateway, with its third and fourth byte FFh. -/
abbrev answerCell (s : State) (c : Cell) (result : Byte) : Cell :=
  ownCell s 3 gateway kindAnswer c.tag [c.kind, result, 0xFF, 0xFF]

theorem queueTakes_answerCell (q : List TxCell) (s : State) (c : Cell) (result : Byte) :
    queueTakes q (answerCell s c result) = decide (q.length < 24) :=
  queueTakes_of_plain_kind q (by decide : isStreamKind kindAnswer = false) (by decide : kindAnswer ≠ kindClaim)

theorem sendAnswer_eq_offerReport {c : Cell} (h : c.src = gateway) (result : Byte) (s : State) :
    sendAnswer c result s = offerReport (answerCell s c result) s := by
  rw [sendAnswer, sendAnswerWith, h]

theorem sendAnswer_clc {c : Cell} (h : c.src = gateway) (result : Byte) (s : State) :
    (sendAnswer c result s).clc = { s.clc with
      tx := if s.clc.tx.length < 24 then insertByPriority (freshTx (answerCell s c result) 0) s.clc.tx
        else s.clc.tx } := by
  rw [sendAnswer_eq_offerReport h, offerReport_clc, queueTakes_answerCell]
  by_cases room : s.clc.tx.length < 24 <;> simp [room]

theorem sendAnswer_cfu {c : Cell} (h : c.src = gateway) (result : Byte) (s : State) :
    (sendAnswer c result s).cfu = { s.cfu with
      lostReports := if s.clc.tx.length < 24 then s.cfu.lostReports else min 255 (s.cfu.lostReports + 1) } := by
  rw [sendAnswer_eq_offerReport h, offerReport_cfu, queueTakes_answerCell]
  by_cases room : s.clc.tx.length < 24 <;> simp [room]

/-! ### FAULT_CLEAR (R47) -/

/-- R47: the configuration unit after the removal and the clearing of the counts, before the ANSWER. -/
def clearedRecord (c : Cell) (u : Cfu) : Cfu :=
  let counts := (byteAt c.payload 1).getLsbD 0
  { u with
    faults := keptFaults (byteAt c.payload 0) u.faults
    overflow := if counts then 0 else u.overflow
    lostReports := if counts then 0 else u.lostReports }

theorem clearFaults_eq (c : Cell) (s : State) : clearFaults c s = sendAnswer c codeOk (s.modCfu (clearedRecord c)) := rfl

theorem clearFaults_quiet (c : Cell) {s : State} (q : s.Quiet) : (clearFaults c s).Quiet := by
  rw [State.Quiet, clearFaults_eq, sendAnswer_rau]
  exact q

theorem exec_faultClear_of_asked {s : State} {c : Cell} (q : s.Quiet) (h : Asked s c kindFaultClear) :
    exec .faultClear s = .next (clearFaults c (popCell s)) :=
  handRequest_of_asked h (clearFaults_quiet c q)

theorem clearFaults_clc {c : Cell} (h : c.src = gateway) (s : State) :
    (clearFaults c s).clc = { s.clc with
      tx := if s.clc.tx.length < 24 then insertByPriority (freshTx (answerCell s c codeOk) 0) s.clc.tx
        else s.clc.tx } := by
  rw [clearFaults_eq, sendAnswer_clc h]
  rfl

theorem clearFaults_cfu {c : Cell} (h : c.src = gateway) (s : State) :
    (clearFaults c s).cfu = { clearedRecord c s.cfu with
      lostReports := if s.clc.tx.length < 24 then (clearedRecord c s.cfu).lostReports
        else min 255 ((clearedRecord c s.cfu).lostReports + 1) } := by
  rw [clearFaults_eq, sendAnswer_cfu h]
  rfl

/-- R47: the ANSWER comes after the counts are cleared, so one that is refused leaves the cleared count at 1. -/
theorem clearFaults_lostReports {c : Cell} (h : c.src = gateway) (s : State) :
    let counts := (byteAt c.payload 1).getLsbD 0
    (clearFaults c s).cfu.lostReports =
      if s.clc.tx.length < 24 then (if counts then 0 else s.cfu.lostReports)
      else if counts then 1 else min 255 (s.cfu.lostReports + 1) := by
  rw [clearFaults_cfu h]
  simp only [clearedRecord]
  cases (byteAt c.payload 1).getLsbD 0 <;> rfl

/-- R47: outside the transmit queue, the record and its two counts, FAULT_CLEAR leaves the station alone. -/
theorem clearFaults_frame {c : Cell} (h : c.src = gateway) (s : State) :
    clearFaults c s = { s with
      clc := (clearFaults c s).clc
      cfu := { s.cfu with
        faults := (clearFaults c s).cfu.faults
        overflow := (clearFaults c s).cfu.overflow
        lostReports := (clearFaults c s).cfu.lostReports } } := by
  apply State.eq_of_blocks
  case h3 => rw [clearFaults_cfu h]; rfl
  all_goals simp [clearFaults_eq]

/-- Settles O30: the request reaches `clearFaults`, of which the lemmas above say each field. -/
theorem faultClearRemovesPositions : Obligations.FaultClearRemovesPositions := by
  intro s c q h positions counts
  have ⟨⟨_, kind, _⟩, src⟩ := h
  refine ⟨clearFaults c (popCell s), exec_faultClear_of_asked q h, ?faults, ?overflow,
    clearFaults_lostReports src (popCell s), ?clc, clearFaults_frame src (popCell s)⟩
  case faults => rw [clearFaults_cfu src]; rfl
  case overflow => rw [clearFaults_cfu src]; rfl
  case clc => rw [clearFaults_clc src, answerCell, kind]; rfl

end Sys2Proof.Machine
end

section
/-! PROOFS. The family of trunk channels and claims: what becomes of a view at a RELEASE (R27, R31, R52, R54, R67). -/
namespace Sys2Proof.Machine

/-! ### A peer's cell that stands at the head of the receive queue (R27) -/

/-- R27: both checks pass, so the cell reaches its owner. -/
theorem peerOwner_of_fromPeer {s : State} {c : Cell} {kind : Byte} {p : Fin 8} (owner : Fin 8 → Cell → State → State)
    (t : State) (h : FromPeer s c kind p) : peerOwner owner c t = owner p c t := by
  obtain ⟨⟨_, _, allowed⟩, src⟩ := h
  simp [peerOwner, src, allowed]

theorem handPeer_of_fromPeer {s : State} {c : Cell} {kind : Byte} {p : Fin 8} {owner : Fin 8 → Cell → State → State}
    (h : FromPeer s c kind p) (q : (owner p c (popCell s)).Quiet) :
    handPeer kind owner s = .next (owner p c (popCell s)) := by
  have ⟨⟨head, isKind, _⟩, _⟩ := h
  obtain ⟨rest, rx⟩ := List.head?_eq_some_iff.mp head
  have due : (c.kind == kind) = true := beq_iff_eq.mpr isKind
  have reached := peerOwner_of_fromPeer owner (popCell s) h
  simp only [handPeer, handOver, rx]
  rw [reached, act_of_due s due q]

theorem channelOf_val (ch : Channel) : channelOf ch.val = some ch := dif_pos ch.isLt

/-- R175: a channel that exists is handed to the owner. -/
theorem withChannel_of_field {c : Cell} {ch : Channel} (owner : Fin 8 → Channel → State → State) (p : Fin 8) (s : State)
    (h : field c.payload 0 1 = ch.val) : withChannel owner p c s = owner p ch s := by
  simp only [withChannel, h, channelOf_val]

@[simp] theorem entry_popCell (s : State) (ch : Channel) : (popCell s).entry ch = s.entry ch := rfl

/-! ### A change of view (R52) -/

theorem modEntry_congr {s : State} {ch : Channel} {f g : MapEntry → MapEntry} (h : f (s.entry ch) = g (s.entry ch)) :
    s.modEntry ch f = s.modEntry ch g :=
  congrArg (fun e => s.modTcm fun t => { t with map := t.map.set ch e }) h

/-- R52: a view that changes takes the stale count to 0. -/
theorem setView_of_ne {s : State} {ch : Channel} {v : View} (timer : Option Nat) (h : (s.entry ch).view ≠ v) :
    setView ch v timer s = s.modEntry ch fun e => { e with view := v, blockTimer := timer, stale := 0 } :=
  modEntry_congr (by rw [if_neg h])

@[simp] theorem setView_view (ch : Channel) (v : View) (timer : Option Nat) (s : State) :
    ((setView ch v timer s).entry ch).view = v := by
  rw [setView, entry_modEntry]

@[simp] theorem setView_rau (ch : Channel) (v : View) (timer : Option Nat) (s : State) :
    (setView ch v timer s).rau = s.rau := rfl

@[simp] theorem endDrive_rau (ch : Channel) (s : State) : (endDrive ch s).rau = s.rau := rfl

@[simp] theorem freeContext_rau (k : ContextId) (s : State) : (freeContext k s).rau = s.rau := rfl

@[simp] theorem entry_freeContext (k : ContextId) (s : State) (ch : Channel) :
    (freeContext k s).entry ch = s.entry ch := rfl

/-! ### RELEASE from a peer (R54) -/

theorem takeRelease_of_holder {s : State} {p : Fin 8} {ch : Channel} (h : (s.entry ch).view = .peer p) :
    takeRelease p ch s = s.modEntry ch fun e => { e with view := .free, blockTimer := none, stale := 0 } := by
  have changes : (s.entry ch).view ≠ .free := by simp [h]
  rw [takeRelease, if_pos h, setView_of_ne none changes]

theorem takeRelease_of_not_holder {s : State} {p : Fin 8} {ch : Channel} (h : (s.entry ch).view ≠ .peer p) :
    takeRelease p ch s = s := if_neg h

theorem takeRelease_rau (p : Fin 8) (ch : Channel) (s : State) : (takeRelease p ch s).rau = s.rau := by
  by_cases h : (s.entry ch).view = .peer p
  · rw [takeRelease_of_holder h, modEntry_rau]
  · rw [takeRelease_of_not_holder h]

theorem exec_release_of_fromPeer {s : State} {c : Cell} {p : Fin 8} {ch : Channel} (q : s.Quiet)
    (h : FromPeer s c kindRelease p) (channel : field c.payload 0 1 = ch.val) :
    exec .release s = .next (takeRelease p ch (popCell s)) := by
  have taken := withChannel_of_field takeRelease p (popCell s) channel
  have quiet : (withChannel takeRelease p c (popCell s)).Quiet := by
    rw [taken, State.Quiet, takeRelease_rau]
    exact q
  rw [← taken]
  exact handPeer_of_fromPeer h quiet

/-! ### The station's own release (R67, R68) -/

theorem letGo_rau (k : ContextId) (ch : Channel) (s : State) : (letGo k ch s).rau = s.rau := by
  simp only [letGo]
  split <;> simp

/-- R67, R68: the far end's code decides between BLOCKED and FREE. -/
theorem letGo_view_of_not_blocked {k : ContextId} {ch : Channel} {s : State} (h : (s.entry ch).rx.settled ≠ .blocked) :
    ((letGo k ch s).entry ch).view = .free := by
  simp only [letGo]
  split
  case h_1 blocked => exact absurd blocked h
  all_goals simp

theorem exec_letGo_of_eighth {s : State} {k : ContextId} {ch : Channel} (q : s.Quiet)
    (state : (s.at k).state = .clearing) (held : (s.at k).held = false) (eighth : (s.at k).clearing = 8)
    (channel : (s.at k).channel = some ch) (view : (s.entry ch).view = .self k) :
    exec (.letGo k) s = .next (letGo k ch s) := by
  have due : (standsIn s k .clearing && (s.at k).clearing == 8 && holdsAny s k) = true := by
    simp [standsIn, holdsAny, holds, state, held, eighth, channel, view]
  have quiet : (letGo k ch s).Quiet := by
    rw [State.Quiet, letGo_rau]
    exact q
  change execLetGo k s = _
  simp only [execLetGo, channel]
  exact act_of_due s due quiet

/-! ### The outcome of the station's RELEASE cell (R31) -/

/-- R31: no producer waits for the outcome of a RELEASE. -/
theorem tellProducer_of_release {x : TxCell} (ok : Bool) (s : State) (h : x.cell.kind = kindRelease) :
    tellProducer x ok s = s := by
  have untold (k : ContextId) : undelivered k kindRelease x.serial s = s := rfl
  have notClaim : kindRelease ≠ kindClaim := by decide
  simp only [tellProducer, h, if_neg notClaim, untold]
  cases ok <;> cases contextOf x.cell.tag.toNat <;> rfl

/-- R31: the outcome of a RELEASE is the control line's alone. -/
theorem cellDecided_frame_of_release {x : TxCell} (r : SendResult) (s : State) (h : x.cell.kind = kindRelease) :
    cellDecided x r s = { s with clc := (cellDecided x r s).clc } := by
  simp only [cellDecided, tellProducer_of_release _ _ h]
  split
  case isTrue orphan => rfl
  case isFalse awaited => split <;> rfl

theorem decideCell_of_inTransmission {s : State} {x : TxCell} {kinds : Byte → Bool} {r : SendResult}
    (h : inTransmission s = some x) (due : kinds x.cell.kind = true) (q : (cellDecided x r s).Quiet) :
    decideCell kinds r s = .next (cellDecided x r s) := by
  simp only [decideCell, h]
  exact act_of_due s due q

theorem exec_releaseOutcome_of_release {s : State} {x : TxCell} (r : SendResult) (q : s.Quiet)
    (h : inTransmission s = some x) (kind : x.cell.kind = kindRelease) :
    exec (.releaseOutcome r) s = .next (cellDecided x r s) := by
  have due : (x.cell.kind == kindRelease) = true := beq_iff_eq.mpr kind
  have quiet : (cellDecided x r s).Quiet := by
    rw [cellDecided_frame_of_release r s kind]
    exact q
  exact decideCell_of_inTransmission (kinds := (· == kindRelease)) h due quiet

/-- Settles O41: a peer's RELEASE is `takeRelease`, the station's own release is `letGo`, and the outcome of its RELEASE
cell reaches no block but the control line. -/
theorem peerReleaseFreesItsOwnView : Obligations.PeerReleaseFreesItsOwnView := by
  refine ⟨?fromPeer, ?own, ?outcome⟩
  case fromPeer =>
    intro s c p ch q h channel
    rw [exec_release_of_fromPeer q h channel]
    constructor
    · intro holder
      rw [takeRelease_of_holder (s := popCell s) holder]
      rfl
    · intro other
      rw [takeRelease_of_not_holder (s := popCell s) other]
  case own =>
    intro s k ch q state held eighth channel view notBlocked
    exact ⟨_, exec_letGo_of_eighth q state held eighth channel view, letGo_view_of_not_blocked notBlocked⟩
  case outcome =>
    intro s t x r q h kind next ch
    cases (exec_releaseOutcome_of_release r q h kind).symm.trans next
    rw [cellDecided_frame_of_release r s kind]
    rfl

end Sys2Proof.Machine
end

section
/-! PROOFS. The family of the message store: MBOX_CREATE (R27, R39, R108, R122). -/
namespace Sys2Proof.Machine

/-! ### A gateway request at an ACTIVE station (R27, R39) -/

theorem whenActive_of_active {owner : Cell → State → State} {c : Cell} {s : State} (h : s.cfu.state = .active) :
    whenActive owner c s = owner c s := if_pos h

theorem handRequest_whenActive_of_askedActive {s : State} {c : Cell} {kind : Byte} {owner : Cell → State → State}
    (h : AskedActive s c kind) (q : (owner c (popCell s)).Quiet) :
    handRequest kind (whenActive owner) s = .next (owner c (popCell s)) := by
  obtain ⟨asked, active⟩ := h
  have reached : whenActive owner c (popCell s) = owner c (popCell s) := whenActive_of_active active
  rw [handRequest_of_asked asked (reached ▸ q), reached]

/-! ### A mailbox and its home (R107, R122) -/

theorem mailbox?_isSome_iff {s : State} {m : Nat} : (mailbox? s m).isSome = true ↔ ∃ b ∈ s.msc.mbxs, b.number = m := by
  simp only [mailbox?, List.find?_isSome, beq_iff_eq]

theorem isHome_iff {s : State} {g : ConfigRecord} {m : Nat} (h : s.cfu.config = some g) :
    isHome s m = true ↔ m % g.groupSize = s.cfu.station.val := by
  simp only [isHome, homeOf, h, beq_iff_eq]

/-! ### The checks of an MBOX_CREATE (R108) -/

theorem createResult_eq {s : State} {g : ConfigRecord} (config : s.cfu.config = some g) (number limit : Nat) :
    createResult s number limit =
      if 999 < number ∨ limit < 1 ∨ 32 < limit then codeBadField
      else if number % g.groupSize ≠ s.cfu.station.val then codeNotHome
      else if ∃ b ∈ s.msc.mbxs, b.number = number then codeBusy
      else if 64 ≤ s.msc.mbxs.length then codeTableFull
      else codeOk := by
  simp only [createResult, Bool.or_eq_true, decide_eq_true_eq, or_assoc, Bool.not_eq_true', ← Bool.not_eq_true,
    isHome_iff config, mailbox?_isSome_iff, ne_eq]

/-! ### MBOX_CREATE (R108) -/

theorem createMailbox_of_refused {c : Cell} {s : State} {code : Byte}
    (result : createResult s (field c.payload 0 2) (field c.payload 2 1) = code) (refused : code ≠ codeOk) :
    createMailbox c s = sendAnswer c code s := by
  simp only [createMailbox, result, if_neg refused]

theorem createMailbox_of_ok {c : Cell} {s : State}
    (result : createResult s (field c.payload 0 2) (field c.payload 2 1) = codeOk) :
    createMailbox c s = sendAnswer c codeOk (addMailbox (field c.payload 0 2) (field c.payload 2 1) s) := by
  simp only [createMailbox, result, if_true]

/-- R108: the cases are the checks in their order, each reached when the checks before it have passed. -/
theorem createMailbox_eq {s : State} {g : ConfigRecord} (c : Cell) (config : s.cfu.config = some g) :
    let m := field c.payload 0 2
    let limit := field c.payload 2 1
    createMailbox c s =
      if 999 < m ∨ limit < 1 ∨ 32 < limit then sendAnswer c codeBadField s
      else if m % g.groupSize ≠ s.cfu.station.val then sendAnswer c codeNotHome s
      else if ∃ b ∈ s.msc.mbxs, b.number = m then sendAnswer c codeBusy s
      else if 64 ≤ s.msc.mbxs.length then sendAnswer c codeTableFull s
      else sendAnswer c codeOk (addMailbox m limit s) := by
  intro m limit
  have result := createResult_eq config m limit
  split
  case isTrue badField => exact createMailbox_of_refused (by rw [result, if_pos badField]) (by decide)
  case isFalse fields =>
  rw [if_neg fields] at result
  split
  case isTrue notHome => exact createMailbox_of_refused (by rw [result, if_pos notHome]) (by decide)
  case isFalse home =>
  rw [if_neg home] at result
  split
  case isTrue busy => exact createMailbox_of_refused (by rw [result, if_pos busy]) (by decide)
  case isFalse new =>
  rw [if_neg new] at result
  split
  case isTrue full => exact createMailbox_of_refused (by rw [result, if_pos full]) (by decide)
  case isFalse room => exact createMailbox_of_ok (by rw [result, if_neg room])

theorem createMailbox_quiet (c : Cell) {s : State} (q : s.Quiet) : (createMailbox c s).Quiet := by
  rw [State.Quiet, createMailbox, sendAnswer_rau]
  split
  case isTrue made => exact q
  case isFalse refused => exact q

theorem exec_mboxCreate_of_askedActive {s : State} {c : Cell} (q : s.Quiet) (h : AskedActive s c kindMboxCreate) :
    exec .mboxCreate s = .next (createMailbox c (popCell s)) :=
  handRequest_whenActive_of_askedActive h (createMailbox_quiet c q)

/-- Settles O31: the request reaches `createMailbox`, of which `createMailbox_eq` gives the checks in their order. -/
theorem mailboxCreateChecksInOrder : Obligations.MailboxCreateChecksInOrder := by
  intro s c g q h config m limit
  rw [exec_mboxCreate_of_askedActive q h, createMailbox_eq (s := popCell s) c config]
  rfl

end Sys2Proof.Machine
end

section
/-! PROOFS. The family of the machine: the queue of commands, the idle tick, and what every command keeps (R10, R11, R12,
R29, R37). -/
namespace Sys2Proof.Machine

/-! ### A step (log entries 1 and 10) -/

/-- Settles O1. -/
theorem stepRunsFrontCommand : Obligations.StepRunsFrontCommand := by
  intro s c rest front
  simp only [step, front]

theorem step_of_idle {s : State} (empty : s.pending = []) : step s = .next (settle (referenceTick s)) := by
  simp only [step, empty, idle]

theorem step_of_idle_quiet {s t : State} (empty : s.pending = []) (tick : referenceTick s = t) (q : t.Quiet) :
    step s = .next t := by
  rw [step_of_idle empty, tick, settle_quiet q]

theorem isAligned_of_aligned {s : State} {p : Nat} (h : s.hwi.align = .aligned p) : isAligned s = true := by
  simp only [isAligned, h]

theorem exists_aligned_of_isAligned {s : State} (h : isAligned s = true) : ∃ p, s.hwi.align = .aligned p := by
  unfold isAligned at h
  split at h
  case h_1 p e => exact ⟨p, e⟩
  case h_2 => cases h

theorem referenceTick_of_stopped {s : State} {p : Nat} (h : s.hwi.align = .aligned p) (stopped : s.hwi.tickCount = none) :
    referenceTick s = s := by
  simp only [referenceTick, h, stopped]

theorem referenceTick_of_counting {s : State} {p n : Nat} (h : s.hwi.align = .aligned p)
    (counting : s.hwi.tickCount = some n) : referenceTick s =
      if 32766 ≤ n then loseAlignment s else s.modHwi fun h => { h with tickCount := some (n + 1) } := by
  simp only [referenceTick, h, counting]

theorem referenceTick_of_not_aligned {s : State} (h : isAligned s = false) : referenceTick s = localTick s := by
  unfold referenceTick
  split
  case h_1 p e => rw [isAligned_of_aligned e] at h; cases h
  case h_2 => rfl

/-- What a telling of notices leaves of the highway: it moves the channels alone. -/
theorem settle_hwi (s : State) : (settle s).hwi = { s.hwi with channels := (settle s).hwi.channels } :=
  (steady_settle (Steady.refl s)).hwi

theorem settle_cfu (s : State) : (settle s).cfu = { s.cfu with
    faults := (settle s).cfu.faults, overflow := (settle s).cfu.overflow,
    lostReports := (settle s).cfu.lostReports } :=
  (steady_settle (Steady.refl s)).cfu

/-! ### A loss of alignment (R16) -/

theorem steady_holdContext {s0 s : State} {k : ContextId} (st : Steady s0 s) : Steady s0 (holdContext k s) := by
  unfold holdContext
  split
  case h_1 => exact st
  case h_2 => exact steady_withdraw st
  case h_3 => exact st.modCtx

/-- What a loss of alignment leaves of the highway interface: all but the channels is given. -/
theorem loseAlignment_hwi (s : State) : (loseAlignment s).hwi = { s.hwi with
    align := .search, tickCount := none, prevTiming := none, localCount := 0, hold := some 500
    channels := (loseAlignment s).hwi.channels } := by
  have held (t : State) : Steady t (forEach contextIds holdContext t) :=
    (Steady.refl t).forEach fun _ _ h => steady_holdContext h
  simp only [loseAlignment, modHwi_hwi, sendEvent_hwi, holdPeriod]
  rw [(held _).hwi]
  rfl

/-! ### The idle tick (R10, R11, R12) -/

theorem localTick_of_running {s : State} (h : s.hwi.localCount + 1 < 24576) :
    localTick s = s.modHwi fun h => { h with localCount := h.localCount + 1 } :=
  if_neg (by omega)

theorem localTick_of_full {s : State} (h : 24576 ≤ s.hwi.localCount + 1) :
    localTick s = stationTick (s.modHwi fun h => { h with localCount := 0 }) :=
  if_pos (by omega)

/-- Settles O2: the tick count while ALIGNED and the local count otherwise, each below its limit and at it. -/
theorem idleStepTicksTheReference : Obligations.IdleStepTicksTheReference := by
  intro s empty q
  refine ⟨?beforeBoundary, ?counts, ?limit, ?localCounts, ?localFull⟩
  case beforeBoundary =>
    intro p aligned stopped
    exact step_of_idle_quiet empty (referenceTick_of_stopped aligned stopped) q
  case counts =>
    intro p n aligned counting below
    refine step_of_idle_quiet empty ?_ q
    rw [referenceTick_of_counting aligned counting]
    exact if_neg (by omega)
  case limit =>
    intro p n aligned counting full
    have tick : referenceTick s = loseAlignment s := by
      rw [referenceTick_of_counting aligned counting]
      exact if_pos (by omega)
    refine ⟨_, step_of_idle empty, ?_, ?_⟩
    all_goals rw [settle_hwi, tick, loseAlignment_hwi]
  case localCounts =>
    intro off below
    refine step_of_idle_quiet empty ?_ q
    rw [referenceTick_of_not_aligned off, localTick_of_running below]
    rfl
  case localFull =>
    intro off full
    have tick := (referenceTick_of_not_aligned off).trans (localTick_of_full full)
    refine ⟨_, step_of_idle empty, ?_, ?_⟩
    · rw [settle_hwi, tick]; rfl
    · rw [settle_cfu, tick]; rfl

/-! ### The state at reset -/

theorem Hwi.inRange_reset : Hwi.reset.InRange := by decide
theorem Clc.inRange_reset : Clc.reset.InRange := by decide
theorem MapEntry.inRange_reset : MapEntry.reset.InRange := by decide
theorem Msc.inRange_reset : Msc.reset.InRange := by decide

theorem Cfu.inRange_reset (station : Fin 8) (storeSize : Fin 4) : (Cfu.reset station storeSize).InRange :=
  ⟨Nat.zero_le _, Nat.zero_le _, Nat.zero_le _, fun _ e => nomatch e⟩

theorem Tcm.inRange_reset : Tcm.reset.InRange := by
  intro c
  rw [Tcm.reset, Bank.get_replicate]
  exact MapEntry.inRange_reset

/-- Settles O3. -/
theorem resetStateInRange : Obligations.ResetStateInRange := by
  refine ⟨⟨Hwi.inRange_reset, Clc.inRange_reset, Cfu.inRange_reset 0 0, Tcm.inRange_reset, ?contexts,
    Msc.inRange_reset, Nat.zero_le 8⟩, rfl, rfl⟩
  case contexts =>
    intro k
    rw [State.reset, Bank.get_replicate]
    exact Context.inRange_reset

/-! ### The shape of a command -/

/-- An outcome that is an effect in its moment, with every notice told, or nothing; the effect has a property. -/
def Acts (P : State → Prop) (s : State) (o : Host.Outcome State Fault Refusal) : Prop :=
  ∃ due effect, o = act due effect s ∧ (due = true → P effect)

section
variable {P : State → Prop} {s : State}

theorem acts_act {due : Bool} {effect : State} (h : due = true → P effect) : Acts P s (act due effect s) :=
  ⟨due, effect, rfl, h⟩

theorem acts_goOn : Acts P s (goOn s) := ⟨false, s, rfl, fun h => nomatch h⟩

theorem acts_handOver {due : Cell → Bool} {effect : Cell → State → State}
    (h : ∀ c, s.clc.rx.head? = some c → due c = true → P (effect c (popCell s))) :
    Acts P s (handOver due effect s) := by
  unfold handOver
  split
  case h_1 => exact acts_goOn
  case h_2 c rest e => exact acts_act (h c (by rw [e]; rfl))

theorem acts_decideCell {kinds : Byte → Bool} {r : SendResult}
    (h : ∀ x, inTransmission s = some x → P (cellDecided x r s)) : Acts P s (decideCell kinds r s) := by
  unfold decideCell
  split
  case h_1 => exact acts_goOn
  case h_2 x e => exact acts_act fun _ => h x e

/-- The next state of a command: the state itself, or an effect with its notices told. -/
theorem Acts.cases {o : Host.Outcome State Fault Refusal} (h : Acts P s o) :
    o = .next s ∨ ∃ u, P u ∧ o = .next (settle u) := by
  obtain ⟨due, effect, rfl, he⟩ := h
  cases due
  case false => exact .inl rfl
  case true => exact .inr ⟨effect, he rfl, rfl⟩

end

/-! ### What the commands keep -/

section
variable {s : State}

theorem acts_kept_handRequest {kind : Byte} {owner : Cell → State → State}
    (h : ∀ c u, Kept s u → Kept s (owner c u)) : Acts (Kept s) s (handRequest kind owner s) :=
  acts_handOver fun c _ _ => kept_requestOwner (kept_popCell (Kept.refl s)) (h c)

theorem acts_kept_whenActive {kind : Byte} {owner : Cell → State → State}
    (h : ∀ c u, Kept s u → Kept s (owner c u)) : Acts (Kept s) s (handRequest kind (whenActive owner) s) :=
  acts_kept_handRequest fun c _ kp => kept_whenActive kp (h c)

theorem acts_kept_handPeer {kind : Byte} {owner : Fin 8 → Cell → State → State}
    (h : ∀ p c u, Kept s u → Kept s (owner p c u)) : Acts (Kept s) s (handPeer kind owner s) :=
  acts_handOver fun c _ _ => kept_peerOwner (kept_popCell (Kept.refl s)) fun p => h p c

theorem acts_kept_decideCell {kinds : Byte → Bool} {r : SendResult} : Acts (Kept s) s (decideCell kinds r s) :=
  acts_decideCell fun _ _ => kept_cellDecided (Kept.refl s)

theorem acts_kept_handQuery {selector : Nat} {owner : Cell → State → State}
    (h : ∀ c u, Kept s u → Kept s (owner c u)) : Acts (Kept s) s (handQuery selector owner s) :=
  acts_handOver fun c _ _ => kept_requestOwner (kept_popCell (Kept.refl s)) fun u kp => by
    split
    case isTrue => exact kept_sendAnswer kp
    case isFalse => exact h c u kp

theorem kept_takeMark {s0 s : State} {c : Cell} (kp : Kept s0 s) : Kept s0 (takeMark c s) := by
  unfold takeMark
  split
  · exact kp
  · split
    · exact kept_sendAnswer kp
    · exact kept_sendAnswer (kept_markMessage kp)

theorem acts_kept_handMark {mark : Mark} : Acts (Kept s) s (handMark mark s) :=
  acts_handOver fun _ _ _ => kept_takeMark (kept_popCell (Kept.refl s))

/-- R108: a mailbox is made only below the sixty-fourth. -/
theorem kept_createMailbox {s0 s : State} {c : Cell} (kp : Kept s0 s) : Kept s0 (createMailbox c s) := by
  unfold createMailbox
  refine kept_sendAnswer ?_
  split
  case isTrue made => exact kept_addMailbox kp (createResult_room made)
  case isFalse => exact kp

theorem kept_dropMailbox {s0 s : State} {n : Nat} (kp : Kept s0 s) : Kept s0 (dropMailbox n s) := by
  unfold dropMailbox
  split
  · exact kp
  · exact kept_eraseMailbox (kp.forEach fun _ _ h => kept_deleteMessage h)

theorem kept_removeMailbox {s0 s : State} {c : Cell} (kp : Kept s0 s) : Kept s0 (removeMailbox c s) := by
  unfold removeMailbox
  refine kept_sendAnswer ?_
  split
  · exact kept_dropMailbox kp
  · exact kp

theorem kept_queryList {s0 s : State} {c : Cell} (kp : Kept s0 s) : Kept s0 (queryList c s) := by
  unfold queryList
  dsimp only
  repeat' split
  case h_2 => exact kept_sendMailboxList kp
  all_goals exact kept_sendAnswer kp

theorem purposeOf_inRange {p : List Byte} {purpose : CallPurpose} (h : purposeOf p = some purpose) :
    purpose.inRange = true := by
  unfold purposeOf at h
  split at h <;> cases h
  case h_4 =>
    obtain ⟨ordered, top⟩ := rateBounds_inRange (field p 1 1) (field p 2 1)
    simp [CallPurpose.inRange, ordered, top]
  all_goals rfl

theorem kept_takeOutdial {s0 s : State} {c : Cell} (kp : Kept s0 s) : Kept s0 (takeOutdial c s) := by
  unfold takeOutdial
  dsimp only
  split
  case isTrue => exact kept_sendAnswer kp
  split
  case h_1 => exact kept_sendAnswer kp
  case h_2 purpose given =>
  split
  case h_1 => exact kept_sendAnswer kp
  split
  case h_1 u chosen => exact kept_sendAnswer (Kept.of_eq chosen (kept_chooseFor kp))
  case h_2 u chosen =>
    refine kept_sendAnswerWith (Kept.modCtx (Kept.of_eq chosen (kept_chooseFor kp)) fun _ r => ?_)
    exact ⟨r.1, r.2.1, r.2.2.1, r.2.2.2.1, fun o e => by cases e; exact purposeOf_inRange given⟩

theorem kept_takeDrop {s0 s : State} {c : Cell} (kp : Kept s0 s) : Kept s0 (takeDrop c s) := by
  unfold takeDrop
  split
  case h_1 => exact kept_sendAnswer kp
  split
  case h_2 => exact kept_withdraw (kept_sendAnswer kp)
  case h_4 => exact kept_endCall (kept_sendAnswer kp)
  all_goals exact kept_sendAnswer kp

theorem kept_sessionRequest {s0 s : State} {bad : Bool} {begin_ : ContextId → State → State} {c : Cell} (kp : Kept s0 s)
    (h : ∀ k u, Kept s0 u → Kept s0 (begin_ k u)) : Kept s0 (sessionRequest bad begin_ c s) := by
  unfold sessionRequest
  split
  case h_1 => exact kept_sendAnswer kp
  split
  case isTrue => exact kept_sendAnswer kp
  split
  case isTrue => exact kept_sendAnswer kp
  case isFalse =>
    refine h _ _ (kept_sendAnswer (Kept.modCtx (kept_endActivity kp) ?_))
    exact fun _ r => r

/-- R169: the bounds of a DATA_CONNECT are in order. -/
theorem connectBounds_inRange {s : State} (r : s.InRange) (lo hi : Nat) :
    (connectBounds s lo hi).1 ≤ (connectBounds s lo hi).2 ∧ (connectBounds s lo hi).2 ≤ 11 := by
  unfold connectBounds
  split
  · exact rateBounds_range r
  · exact rateBounds_inRange lo hi

theorem kept_takeDataConnect {s0 s : State} {c : Cell} (kp : Kept s0 s) : Kept s0 (takeDataConnect c s) := by
  unfold takeDataConnect
  exact kept_sessionRequest kp fun _ _ h => kept_startData h fun r => connectBounds_inRange r _ _

theorem kept_takeDataTx {s0 s : State} {c : Cell} (kp : Kept s0 s) : Kept s0 (takeDataTx c s) := by
  unfold takeDataTx
  split
  case h_1 => exact kept_sendAnswer kp
  dsimp only
  split
  · exact kept_pumpLink (kept_sendAnswer (kept_takeTx kp))
  · exact kept_sendAnswer kp

theorem kept_withChannel {s0 s : State} {owner : Fin 8 → Channel → State → State} {p : Fin 8} {c : Cell}
    (kp : Kept s0 s) (h : ∀ ch, Kept s0 (owner p ch s)) : Kept s0 (withChannel owner p c s) := by
  unfold withChannel
  split
  · exact h _
  · exact kp

theorem kept_claimOwner {s0 s : State} {p : Fin 8} {c : Cell} (kp : Kept s0 s) : Kept s0 (claimOwner p c s) := by
  unfold claimOwner
  split
  · exact kept_withChannel kp fun _ => kept_takeClaim kp
  · exact kp

theorem kept_atHome {s0 s : State} {owner : Fin 8 → Cell → State → State} {p : Fin 8} {c : Cell} (kp : Kept s0 s)
    (h : Kept s0 (owner p c s)) : Kept s0 (atHome owner p c s) := by
  unfold atHome
  split
  · exact h
  · exact kp

theorem kept_endsDeposit {s0 s : State} {ends : OutDeposit → Cell → Option DepositOutcome} {p : Fin 8} {c : Cell}
    (kp : Kept s0 s) : Kept s0 (endsDeposit ends p c s) := by
  unfold endsDeposit
  split
  · exact kp
  split
  · exact kp
  split
  · exact kept_depositEnds kp
  · exact kp

theorem kept_takeFetchClose {s0 s : State} {p : Fin 8} {c : Cell} (kp : Kept s0 s) : Kept s0 (takeFetchClose p c s) := by
  unfold takeFetchClose
  dsimp only
  split
  · exact kp
  split
  · exact kept_dropReader kp
  · exact kp

theorem kept_grantSession {s0 s : State} {k : ContextId} {c : Cell} (kp : Kept s0 s) : Kept s0 (grantSession k c s) := by
  unfold grantSession
  dsimp only
  split
  · exact kept_playGranted kp
  split
  · split
    · exact kept_endFetch kp
    · exact kept_faxGranted kp
  · exact kept_endFetch kp

theorem kept_takeGrant {s0 s : State} {p : Fin 8} {c : Cell} (kp : Kept s0 s) : Kept s0 (takeGrant p c s) := by
  unfold takeGrant
  dsimp only
  split
  · exact kp
  split
  · exact kept_grantSession (kept_openFetch kp)
  · exact kp
  · exact kept_offerOther kp

theorem kept_takeFetchRefuse {s0 s : State} {p : Fin 8} {c : Cell} (kp : Kept s0 s) :
    Kept s0 (takeFetchRefuse p c s) := by
  unfold takeFetchRefuse
  split
  · exact kp
  split
  · exact kp
  split
  · exact kept_fetchEnds kp
  · exact kp

theorem kept_placeFaxPart {s0 s : State} {k : ContextId} {index part : Nat} {bytes : List Byte} (kp : Kept s0 s) :
    Kept s0 (placeFaxPart k index part bytes s) := by
  have placed := kp.modFax (k := k) (f := fun f => { f with buffer := f.buffer.map fun x => x.place index part bytes })
    fun _ r => r
  unfold placeFaxPart
  dsimp only
  split
  · exact kept_feed (kept_fetchSettle placed)
  · exact placed

theorem kept_placePlayPart {s0 s : State} {k : ContextId} {index part : Nat} {bytes : List Byte} (kp : Kept s0 s) :
    Kept s0 (placePlayPart k index part bytes s) := by
  have placed := kp.modVcd (k := k) (f := fun v => { v with buffer := v.buffer.map fun x => x.place index part bytes })
    fun _ r => r
  unfold placePlayPart
  dsimp only
  split
  · exact kept_resumeDecoder (kept_fetchSettle placed)
  · exact placed

theorem kept_takeFetchData {s0 s : State} {p : Fin 8} {c : Cell} (kp : Kept s0 s) : Kept s0 (takeFetchData p c s) := by
  unfold takeFetchData
  dsimp only
  split
  · exact kp
  split
  · split
    · exact kept_placeFaxPart (kept_fetchHeard kp)
    · exact kept_placePlayPart (kept_fetchHeard kp)
  · exact kp

theorem kept_offerAgain {s0 s : State} {p : StreamProducer} (kp : Kept s0 s) : Kept s0 (offerAgain p s) := by
  unfold offerAgain
  split
  · exact kept_pumpDeposit kp
  · exact kept_pumpFetchData kp
  · exact kept_reofferRx kp

theorem kept_verifyWindow {p n : Nat} {f : Fin 8} {w : Byte} (place : s.hwi.align = .verify p n f) :
    Kept s (verifyWindow p n f w s) := by
  have inVerify (r : s.InRange) : p < 2176 ∧ (1 ≤ n ∧ n ≤ 2) ∧ s.hwi.errors ≤ 4 := by
    have range := r.1.2.1
    rw [place] at range
    simp only [AlignState.inRange, Bool.and_eq_true, decide_eq_true_eq] at range
    exact ⟨range.1.1.1, ⟨range.1.1.2, range.1.2⟩, range.2⟩
  have moved : Kept s (s.modHwi fun h => { h with bitCounter := afterWindow (verifyPlace p f) }) :=
    (Kept.refl s).modHwi fun _ r => ⟨Nat.mod_lt _ (by decide), r.2⟩
  unfold verifyWindow
  dsimp only
  split
  case isFalse => exact moved.modHwi0 fun r x => ⟨x.1, decide_eq_true (inVerify r).2.2, x.2.2⟩
  split
  case isTrue second =>
    refine moved.modHwi0 fun r x => ⟨x.1, ?_, x.2.2⟩
    obtain ⟨position, ⟨good, _⟩, errors⟩ := inVerify r
    simp only [AlignState.inRange, Bool.and_eq_true, decide_eq_true_eq]
    exact ⟨⟨⟨position, by omega⟩, by omega⟩, errors⟩
  case isFalse => exact kept_enterAligned moved fun r => (inVerify r).1

theorem kept_alignedWindow {p : Nat} {f : Fin 8} {w : Byte} (place : s.hwi.align = .aligned p) :
    Kept s (alignedWindow p f w s) := by
  have moved : Kept s (s.modHwi fun h => { h with bitCounter := afterWindow (frameWordPlace p f) }) :=
    (Kept.refl s).modHwi fun _ r => ⟨Nat.mod_lt _ (by decide), r.2⟩
  have counted {errors : Nat} (low : errors ≤ 3) : Kept s
      ((s.modHwi fun h => { h with bitCounter := afterWindow (frameWordPlace p f) }).modHwi fun h =>
        { h with errors }) :=
    moved.modHwi0 fun r x => ⟨x.1, by
      have range := r.1.2.1
      rw [place] at range
      simp only [AlignState.inRange, Bool.and_eq_true, decide_eq_true_eq] at range
      simp [place, AlignState.inRange, range.1, low], x.2.2⟩
  unfold alignedWindow
  dsimp only
  split
  · exact counted (Nat.zero_le 3)
  split
  · exact counted (by omega)
  · exact kept_loseAlignment (moved.modHwi fun _ r => ⟨r.1, rfl, r.2.2⟩)

theorem kept_holdRunsOut {s0 s : State} (kp : Kept s0 s) : Kept s0 (holdRunsOut s) := by
  unfold holdRunsOut
  refine kept_writeFault (Kept.forEach (kp.modHwi fun _ r => ?_) fun _ _ h => kept_holdExpires h)
  exact ⟨r.1, r.2.1, r.2.2.1, r.2.2.2.1, r.2.2.2.2.1, fun _ e => nomatch e⟩

theorem positionOf_lt (b : Nat) (f : Fin 8) : positionOf b f < 2176 := Nat.mod_lt _ (by decide)

/-- R5: a window of SEARCH leaves the alignment in range. -/
theorem kept_searchWindow {b : Nat} {w : Byte} : Kept s (s.modHwi fun h => { h with
    bitCounter := afterWindow b
    align := if hasAlignCode w then .verify (positionOf b (frameNumber w)) 1 (nextFrame (frameNumber w))
      else .search }) := by
  refine (Kept.refl s).modHwi fun _ r => ⟨Nat.mod_lt _ (by decide), ?_, r.2.2⟩
  have errors := Hwi.errors_le r
  dsimp only
  split
  · simp [AlignState.inRange, positionOf_lt, errors]
  · simp [AlignState.inRange, errors]

theorem kept_discriminationTimeOver {s0 s : State} {k : ContextId} (kp : Kept s0 s) :
    Kept s0 (discriminationTimeOver k s) := by
  unfold discriminationTimeOver
  split
  · exact kept_discriminationEnds kp
  · exact kept_setTimer kp

theorem kept_clearingOver {s0 s : State} {k : ContextId} (kp : Kept s0 s) : Kept s0 (clearingOver k s) := by
  unfold clearingOver
  refine kept_freeContext ?_
  split
  · split
    · exact kept_setView kp fun _ e => by cases e; exact Nat.le_refl _
    · exact kp
  · exact kp

theorem kept_fillPlaySlot {s0 s : State} {k : ContextId} {b : Nat} (kp : Kept s0 s) : Kept s0 (fillPlaySlot k b s) :=
  kept_resumeDecoder (kept_fetchSettle (kp.modVcd fun _ r => r))

theorem kept_fillFaxSlot {s0 s : State} {k : ContextId} {b : Nat} (kp : Kept s0 s) : Kept s0 (fillFaxSlot k b s) :=
  kept_feed (kept_fetchSettle (kp.modFax fun _ r => r))

theorem kept_controlSent {s0 s : State} {k : ContextId} (kp : Kept s0 s) : Kept s0 (controlSent k s) := by
  unfold controlSent
  dsimp only
  split
  · exact kept_faxSessionEnds kp.modPump
  · exact kp.modPump

theorem acts_kept_trainVerdict {k : ContextId} {good : Bool} : Acts (Kept s) s (trainVerdict k good s) := by
  refine acts_act fun _ => ?_
  split
  · exact (Kept.refl s).modFax fun _ r => r
  · exact kept_takeTrainVerdict (Kept.refl s)

/-! ### Every command keeps -/

theorem acts_kept_depositReplyTimerExpiry {k : ContextId} : Acts (Kept s) s (exec (.depositReplyTimerExpiry k) s) := by
  change Acts (Kept s) s (execDepositReplyTimerExpiry k s)
  unfold execDepositReplyTimerExpiry
  split
  · exact acts_act fun _ => kept_depositEnds (Kept.refl s)
  · exact acts_goOn

theorem acts_kept_fetchReplyTimerExpiry {k : ContextId} : Acts (Kept s) s (exec (.fetchReplyTimerExpiry k) s) := by
  change Acts (Kept s) s (execFetchReplyTimerExpiry k s)
  unfold execFetchReplyTimerExpiry
  split
  · exact acts_act fun _ => kept_fetchEnds (Kept.refl s)
  · exact acts_goOn

theorem acts_kept_fetchKeepalive {k : ContextId} : Acts (Kept s) s (exec (.fetchKeepalive k) s) := by
  change Acts (Kept s) s (execFetchKeepalive k s)
  unfold execFetchKeepalive
  split
  · exact acts_act fun _ => kept_sendForFetch (Kept.refl s)
  · exact acts_goOn

theorem acts_kept_frameWordVerify {w : Byte} : Acts (Kept s) s (exec (.frameWordVerify w) s) := by
  change Acts (Kept s) s (execFrameWordVerify w s)
  unfold execFrameWordVerify
  split
  case h_1 p n f place => exact acts_act fun _ => kept_verifyWindow place
  case h_2 => exact acts_goOn

theorem acts_kept_frameWordAligned {f : Fin 8} {w : Byte} : Acts (Kept s) s (exec (.frameWordAligned f w) s) := by
  change Acts (Kept s) s (execFrameWordAligned f w s)
  unfold execFrameWordAligned
  split
  case h_1 p place => exact acts_act fun _ => kept_alignedWindow place
  case h_2 => exact acts_goOn

/-- Every command but POWER_ON is an effect that keeps, in its moment, or nothing. -/
theorem exec_acts_kept {c : Instr} (running : ∀ straps loss, c ≠ .powerOn straps loss) :
    Acts (Kept s) s (exec c s) := by
  cases c with
  | powerOn straps loss => exact absurd rfl (running straps loss)
  | restart b => exact acts_kept_handRequest fun _ _ h => kept_restart h
  | frameWordSearch b w => exact acts_act fun _ => kept_searchWindow
  | frameWordVerify w => exact acts_kept_frameWordVerify
  | frameWordAligned f w => exact acts_kept_frameWordAligned
  | tickCountLimit => exact acts_act fun _ => kept_loseAlignment (Kept.refl s)
  | highwayFrame f rx rxSig back backSig => exact acts_act fun _ => kept_highwayFrame (Kept.refl s)
  | superframeBoundary n => exact acts_act fun _ => kept_superframeBoundary (Kept.refl s)
  | localStationTimeCount =>
    refine acts_act fun _ => kept_stationTick ((Kept.refl s).modHwi ?_)
    exact fun _ r => ⟨r.1, r.2.1, r.2.2.1, r.2.2.2.1, Nat.zero_le _, r.2.2.2.2.2⟩
  | minuteClockStep => exact acts_act fun _ => (Kept.refl s).modCfu rfl rfl (fun _ e => e) fun _ r => r
  | holdPeriodExpiry => exact acts_act fun _ => kept_holdRunsOut (Kept.refl s)
  | startUpScanEnd => exact acts_act fun _ => kept_leaveStarting (kept_finishScan (Kept.refl s))
  | lineFree others => exact acts_act fun idle => kept_lineFalls (Kept.refl s) (Option.isNone_iff_eq_none.mp idle)
  | cellReceived bytes ending => exact acts_act fun _ => kept_cellArrives (Kept.refl s)
  | cellOutcome r =>
    simp only [exec, execCellOutcome]
    exact acts_kept_decideCell
  | claimOutcome r =>
    simp only [exec, execClaimOutcome]
    exact acts_kept_decideCell
  | releaseOutcome r =>
    simp only [exec, execReleaseOutcome]
    exact acts_kept_decideCell
  | depositCellUndelivered e =>
    simp only [exec, execDepositCellUndelivered]
    exact acts_kept_decideCell
  | fetchOpenUndelivered e =>
    simp only [exec, execFetchOpenUndelivered]
    exact acts_kept_decideCell
  | configure => exact acts_kept_handRequest fun _ _ h => kept_configure h
  | setTime => exact acts_kept_handRequest fun _ _ h => kept_sendAnswer (h.modCfu rfl rfl (fun _ e => e) fun _ r => r)
  | faultClear => exact acts_kept_handRequest fun _ _ h => kept_clearFaults h
  | roomAppeared =>
    exact acts_act fun _ => (Kept.refl s).modClc (fun _ r => r) |>.forEach fun _ _ h => kept_offerAgain h
  | blockTimerExpiry c => exact acts_act fun _ => kept_setView (Kept.refl s) fun _ e => nomatch e
  | assemblyTimeout h => exact acts_act fun _ => kept_writeAssembly (Kept.refl s)
  | depositSilenceClose h => exact acts_act fun _ => kept_silenceClose (Kept.refl s)
  | readerSilenceDrop h station context => exact acts_act fun _ => kept_dropReader (Kept.refl s)
  | statusQueryStation => exact acts_kept_handQuery fun _ _ h => kept_queryStation h
  | statusQueryContext => exact acts_kept_handQuery fun _ _ h => kept_queryContext h
  | statusQueryMap => exact acts_kept_handQuery fun _ _ h => kept_queryMap h
  | statusQueryMailbox => exact acts_kept_handQuery fun _ _ h => kept_queryMailbox h
  | statusQueryMessage => exact acts_kept_handQuery fun _ _ h => kept_queryMessage h
  | statusQueryFaults => exact acts_kept_handQuery fun _ _ h => kept_queryFaults h
  | mboxCreate => exact acts_kept_whenActive fun _ _ h => kept_createMailbox h
  | mboxRemove => exact acts_kept_whenActive fun _ _ h => kept_removeMailbox h
  | outdial => exact acts_kept_whenActive fun _ _ h => kept_takeOutdial h
  | play => exact acts_kept_whenActive fun _ _ h => kept_sessionRequest h fun _ _ g => kept_beginPlay g
  | record => exact acts_kept_whenActive fun _ _ h => kept_sessionRequest h fun _ _ g => kept_startRecording g
  | stop => exact acts_kept_whenActive fun _ _ h => kept_sessionRequest h fun _ _ g => kept_enterWaiting g
  | faxReceive => exact acts_kept_whenActive fun _ _ h => kept_sessionRequest h fun _ _ g => kept_startFaxReceive g
  | faxSend => exact acts_kept_whenActive fun _ _ h => kept_sessionRequest h fun _ _ g => kept_startFaxSend g
  | dataConnect => exact acts_kept_whenActive fun _ _ h => kept_takeDataConnect h
  | dataTx => exact acts_kept_whenActive fun _ _ h => kept_takeDataTx h
  | drop => exact acts_kept_whenActive fun _ _ h => kept_takeDrop h
  | mboxQuery => exact acts_kept_handRequest fun _ _ h => kept_queryList h
  | msgMarkHeard => exact acts_kept_handMark
  | msgMarkUnheard => exact acts_kept_handMark
  | msgMarkDelete => exact acts_kept_handMark
  | answer => exact acts_kept_handPeer fun _ _ _ h => h
  | claim => exact acts_kept_handPeer fun _ _ _ h => kept_claimOwner h
  | release => exact acts_kept_handPeer fun _ _ _ h => kept_withChannel h fun _ => kept_takeRelease h
  | dispute => exact acts_kept_handPeer fun _ _ _ h => kept_withChannel h fun _ => kept_takeDispute h
  | depositOpen => exact acts_kept_handPeer fun _ _ _ h => kept_takeDepositOpen h
  | depositAccept => exact acts_kept_handPeer fun _ _ _ h => kept_takeAccept h
  | depositRefuse => exact acts_kept_handPeer fun _ _ _ h => kept_endsDeposit h
  | depositData => exact acts_kept_handPeer fun _ _ _ h => kept_atHome h (kept_takeDepositData h)
  | blockTaken =>
    exact acts_kept_handPeer fun _ _ _ h => by
      split
      · exact kept_takeBlockTaken h
      · exact h
  | depositRollback => exact acts_kept_handPeer fun _ _ _ h => kept_atHome h (kept_takeRollback h)
  | depositClose => exact acts_kept_handPeer fun _ _ _ h => kept_atHome h (kept_takeDepositClose h)
  | depositClosed => exact acts_kept_handPeer fun _ _ _ h => kept_endsDeposit h
  | fetchOpen => exact acts_kept_handPeer fun _ _ _ h => kept_takeFetchOpen h
  | fetchGrant => exact acts_kept_handPeer fun _ _ _ h => kept_takeGrant h
  | fetchRefuse => exact acts_kept_handPeer fun _ _ _ h => kept_takeFetchRefuse h
  | fetchBlock => exact acts_kept_handPeer fun _ _ _ h => kept_atHome h (kept_takeFetchBlock h)
  | fetchData => exact acts_kept_handPeer fun _ _ _ h => kept_takeFetchData h
  | fetchClose => exact acts_kept_handPeer fun _ _ _ h => kept_atHome h (kept_takeFetchClose h)
  | unownedCellDiscarded => exact acts_handOver (effect := fun _ t => t) fun _ _ _ => kept_popCell (Kept.refl s)
  | bidTimerExpiry k =>
    exact acts_act fun _ => by
      split
      · exact kept_offerBid (Kept.refl s)
      · exact (Kept.refl s)
  | addressTimerExpiry k => exact acts_act fun _ => kept_collectionEnds (Kept.refl s)
  | answerDelayExpiry k => exact acts_act fun _ => kept_enterDiscriminating (Kept.refl s)
  | discriminationTimerExpiry k => exact acts_act fun _ => kept_discriminationTimeOver (Kept.refl s)
  | seizureGuardExpiry k => exact acts_act fun _ => kept_enterDialling (Kept.refl s)
  | dialPhaseEnd k => exact acts_act fun _ => kept_phaseOver (Kept.refl s)
  | dialToneWaitExpiry k => exact acts_act fun _ => kept_endCall (Kept.refl s)
  | progressTimerExpiry k => exact acts_act fun _ => kept_endCall (Kept.refl s)
  | letGo k =>
    exact acts_act fun _ => by
      split
      · exact kept_letGo (Kept.refl s)
      · exact (Kept.refl s)
  | clearingTimeExpiry k => exact acts_act fun _ => kept_clearingOver (Kept.refl s)
  | beepTimerExpiry k => exact acts_act fun _ => kept_beepEnds (Kept.refl s)
  | idleTimerExpiry k => exact acts_act fun _ => kept_endCall (Kept.refl s)
  | detectorBlockEnd k m => exact acts_act fun _ => kept_detectorBlockEnds (Kept.refl s)
  | slotFillTimeout k =>
    exact acts_act fun _ => by
      split
      · exact kept_fillFaxSlot (Kept.refl s)
      · exact kept_fillPlaySlot (Kept.refl s)
      · exact (Kept.refl s)
  | depositReplyTimerExpiry k => exact acts_kept_depositReplyTimerExpiry
  | fetchReplyTimerExpiry k => exact acts_kept_fetchReplyTimerExpiry
  | fetchKeepalive k => exact acts_kept_fetchKeepalive
  | controlFrameBadCheck k => exact acts_goOn
  | capability k rate =>
    exact acts_act fun _ => by
      split
      · exact kept_takeCapability (Kept.refl s)
      · exact (Kept.refl s).modFax fun _ r => r
  | mode k rate => exact acts_act fun _ => kept_takeMode (Kept.refl s)
  | trainGood k => exact acts_kept_trainVerdict
  | trainBad k => exact acts_kept_trainVerdict
  | pageEnd k last => exact acts_act fun _ => kept_takePageEnd (Kept.refl s)
  | pageGood k => exact acts_act fun _ => kept_takePageGood (Kept.refl s)
  | pageRetrain k => exact acts_act fun _ => kept_takePageRetrain (Kept.refl s)
  | pageBad k => exact acts_act fun _ => kept_takePageBad (Kept.refl s)
  | disconnect k => exact acts_act fun _ => kept_takeDisconnect (Kept.refl s)
  | faxFrameReceived k good n data => exact acts_act fun _ => kept_takeFaxFrame (Kept.refl s)
  | controlFrameSent k => exact acts_act fun _ => kept_controlSent (Kept.refl s)
  | sendTrainingEnd k => exact acts_act fun _ => kept_sendTrainingOver (Kept.refl s)
  | pageLastFrameSent k => exact acts_act fun _ => kept_pageSent (Kept.refl s)
  | faxWaitTimerExpiry k => exact acts_act fun _ => kept_faxWaitOver (Kept.refl s)
  | noiseReading k r =>
    exact acts_act fun _ => by
      split
      · exact kept_faxReading (Kept.refl s) (Nat.le_of_lt_succ r.isLt)
      · exact kept_dataReading (Kept.refl s) (Nat.le_of_lt_succ r.isLt)
  | shiftEnded k => exact acts_act fun _ => kept_shiftOver (Kept.refl s)
  | shiftFailed k => exact acts_act fun _ => kept_askRetrain (Kept.refl s)
  | trainingFailed k => exact acts_act fun _ => kept_dataEnds (Kept.refl s)
  | trainingTimerExpiry k => exact acts_act fun _ => kept_dataEnds (Kept.refl s)
  | farEndShiftRequest k rate => exact acts_act fun _ => kept_takeShiftRequest (Kept.refl s)
  | remoteTraining k => exact acts_act fun _ => kept_askRetrain (Kept.refl s)
  | dataBlockReceived k n data => exact acts_act fun _ => kept_takeLinkData (Kept.refl s)
  | linkBlockBadCheck k =>
    exact acts_act fun _ => (Kept.refl s).modQmn fun _ r => ⟨r.1, r.2.1, r.2.2.1, r.2.2.2.1, satAdd_le _ _ _, r.2.2.2.2.2⟩
  | ackReceived k n => exact acts_act fun _ => kept_takeAck (Kept.refl s)
  | holdReceived k n => exact acts_act fun _ => kept_takeHold (Kept.refl s)
  | resendTimerExpiry k => exact acts_act fun _ => kept_resendOver (Kept.refl s)
  | remoteHoldExpiry k => exact acts_act fun _ => kept_dataEnds (Kept.refl s)

/-- The next state of an effect that keeps, in its moment or not. -/
theorem Acts.kept {o : Host.Outcome State Fault Refusal} {t : State} (h : Acts (Kept s) s o) (next : o = .next t) :
    Kept s t := by
  rcases h.cases with still | ⟨u, effect, acted⟩
  · cases still.symm.trans next
    exact Kept.refl s
  · cases acted.symm.trans next
    exact kept_settle effect

end

theorem powerOn_pending (station : Fin 8) (storeSize : Fin 4) (s : State) :
    (powerOn station storeSize s).pending = s.pending :=
  (kept_beginScan (Kept.refl _)).pending

theorem exec_powerOn (straps : Straps) (loss : PowerLoss) (s : State) :
    exec (.powerOn straps loss) s = .next (powerOn straps.station straps.storeSize (interrupted loss s)) := rfl

theorem eq_of_powerOn {straps : Straps} {loss : PowerLoss} {s t : State}
    (next : exec (.powerOn straps loss) s = .next t) :
    t = powerOn straps.station straps.storeSize (interrupted loss s) :=
  (Host.Outcome.next.inj ((exec_powerOn straps loss s).symm.trans next)).symm

theorem exec_inRange {c : Instr} {s t : State} (r : s.InRange) (next : exec c s = .next t) : t.InRange := by
  by_cases start : ∃ straps loss, c = .powerOn straps loss
  · obtain ⟨straps, loss, rfl⟩ := start
    rw [eq_of_powerOn next]
    exact (powerOn_inRange ((kept_interrupted loss s).range r)).1
  · exact ((exec_acts_kept fun straps loss e => start ⟨straps, loss, e⟩).kept next).range r

/-- Settles O4: the idle tick keeps, and so does every command over the rest of the queue. -/
theorem everyStepKeepsRanges : Obligations.EveryStepKeepsRanges := by
  intro s t r next
  cases queue : s.pending with
  | nil =>
    cases (step_of_idle queue).symm.trans next
    exact (kept_settle (kept_referenceTick (Kept.refl s))).range r
  | cons c rest =>
    rw [stepRunsFrontCommand s c rest queue] at next
    exact exec_inRange (s := { s with pending := rest }) r next

/-! ### No notice is left (log entry 9) -/

theorem settle_isQuiet (s : State) : (settle s).Quiet := rfl

@[simp] theorem writeFault_rau (kind : FaultKind) (subject : Nat) (s : State) :
    (writeFault kind subject s).rau = s.rau := by
  unfold writeFault
  split
  · simp
  · rfl

@[simp] theorem setMsgAt_rau (h : Nat) (m : Option Msg) (s : State) : (s.setMsgAt h m).rau = s.rau := by
  unfold State.setMsgAt
  split <;> rfl

theorem scanRecord_rau (h : Nat) (s : State) : (scanRecord h s).rau = s.rau := by
  unfold scanRecord
  split
  · rfl
  split
  · split
    · simp
    · split
      · simp
      · split <;> simp
  · simp

/-- A fold of operations that leave a reading of the state alone. -/
theorem forEach_reading {α β : Type} {reading : State → β} {f : α → State → State} (xs : List α)
    (h : ∀ x t, reading (f x t) = reading t) (s : State) : reading (forEach xs f s) = reading s := by
  unfold forEach
  induction xs generalizing s with
  | nil => rfl
  | cons x xs ih => exact (ih (f x s)).trans (h x s)

theorem beginScan_rau (s : State) : (beginScan s).rau = s.rau :=
  forEach_reading (reading := State.rau) _ scanRecord_rau (enterScanning s)

theorem powerOn_isQuiet (station : Fin 8) (storeSize : Fin 4) (s : State) : (powerOn station storeSize s).Quiet := by
  rw [State.Quiet, powerOn, beginScan_rau]
  rfl

theorem exec_isQuiet {c : Instr} {s t : State} (q : s.Quiet) (next : exec c s = .next t) : t.Quiet := by
  by_cases start : ∃ straps loss, c = .powerOn straps loss
  · obtain ⟨straps, loss, rfl⟩ := start
    rw [eq_of_powerOn next]
    exact powerOn_isQuiet _ _ _
  · rcases (exec_acts_kept (s := s) fun straps loss e => start ⟨straps, loss, e⟩).cases with still | ⟨u, _, acted⟩
    · cases still.symm.trans next
      exact q
    · cases acted.symm.trans next
      exact settle_isQuiet u

/-- Settles O5: a step ends with the telling of the notices, or changes nothing. -/
theorem everyStepTellsItsNotices : Obligations.EveryStepTellsItsNotices := by
  intro s t q next
  cases queue : s.pending with
  | nil =>
    cases (step_of_idle queue).symm.trans next
    exact settle_isQuiet _
  | cons c rest =>
    rw [stepRunsFrontCommand s c rest queue] at next
    exact exec_isQuiet (s := { s with pending := rest }) q next

/-! ### Every command is carried out (R37, log entry 36) -/

theorem exec_next (c : Instr) (s : State) : ∃ t, exec c s = .next t := by
  by_cases start : ∃ straps loss, c = .powerOn straps loss
  · obtain ⟨straps, loss, rfl⟩ := start
    exact ⟨_, rfl⟩
  · rcases (exec_acts_kept (s := s) fun straps loss e => start ⟨straps, loss, e⟩).cases with still | ⟨u, _, acted⟩
    · exact ⟨s, still⟩
    · exact ⟨settle u, acted⟩

theorem exec_pending {c : Instr} {s t : State} (next : exec c s = .next t) : t.pending = s.pending := by
  by_cases start : ∃ straps loss, c = .powerOn straps loss
  · obtain ⟨straps, loss, rfl⟩ := start
    rw [eq_of_powerOn next]
    exact (powerOn_pending _ _ _).trans (kept_interrupted loss s).pending
  · exact ((exec_acts_kept fun straps loss e => start ⟨straps, loss, e⟩).kept next).pending

/-- Settles O7: the next state is that of `exec_acts_kept`, which keeps the queue and the straps. -/
theorem everyCommandIsCarriedOut : Obligations.EveryCommandIsCarriedOut := by
  intro c s
  obtain ⟨t, next⟩ := exec_next c s
  refine ⟨t, next, exec_pending next, fun running => ?_⟩
  have kept := (exec_acts_kept running).kept next
  exact ⟨kept.station, kept.storeSize⟩

end Sys2Proof.Machine
end

section
/-! PROOFS. The family of the machine: a command of one context leaves the other three as they stand (R58, R70, R97, R134,
R150, R170). -/
namespace Sys2Proof.Machine

section
variable {s0 s : State} {k : ContextId}

/-! ### The effects of the timers and of the pump -/

theorem apart_offerClaim {c : Channel} {d : Direction} (ap : Apart k s0 s) : Apart k s0 (offerClaim c d s).1 := by
  unfold offerClaim
  generalize ownCell s _ _ _ _ _ = cell
  dsimp only
  split
  · exact apart_enqueue ap
  · exact ap

theorem apart_offerBid {c : Channel} (ap : Apart k s0 s) : Apart k s0 (offerBid k c s) := by
  unfold offerBid
  split
  case h_1 u offered => exact (Apart.of_eq offered (apart_offerClaim ap)).setBid
  case h_2 u refused => exact apart_freeContext (Apart.of_eq refused (apart_offerClaim ap)).setBid

theorem apart_discriminationTimeOver (ap : Apart k s0 s) : Apart k s0 (discriminationTimeOver k s) := by
  unfold discriminationTimeOver
  split
  · exact apart_discriminationEnds ap
  · exact apart_setTimer ap

theorem apart_clearingOver (ap : Apart k s0 s) : Apart k s0 (clearingOver k s) := by
  unfold clearingOver
  refine apart_freeContext ?_
  split
  · split
    · exact apart_setView ap
    · exact ap
  · exact ap

theorem apart_fillPlaySlot {b : Nat} (ap : Apart k s0 s) : Apart k s0 (fillPlaySlot k b s) :=
  apart_resumeDecoder (apart_fetchSettle ap.modVcd)

theorem apart_fillFaxSlot {b : Nat} (ap : Apart k s0 s) : Apart k s0 (fillFaxSlot k b s) :=
  apart_feed (apart_fetchSettle ap.modFax)

theorem apart_controlSent (ap : Apart k s0 s) : Apart k s0 (controlSent k s) := by
  unfold controlSent
  dsimp only
  split
  · exact apart_faxSessionEnds ap.modPump
  · exact ap.modPump

theorem acts_apart_trainVerdict {good : Bool} : Acts (Apart k s) s (trainVerdict k good s) := by
  refine acts_act fun _ => ?_
  split
  · exact (Apart.refl k s).modFax
  · exact apart_takeTrainVerdict (Apart.refl k s)

theorem acts_apart_depositReplyTimerExpiry : Acts (Apart k s) s (exec (.depositReplyTimerExpiry k) s) := by
  change Acts (Apart k s) s (execDepositReplyTimerExpiry k s)
  unfold execDepositReplyTimerExpiry
  split
  · exact acts_act fun _ => apart_depositEnds (Apart.refl k s)
  · exact acts_goOn

theorem acts_apart_fetchReplyTimerExpiry : Acts (Apart k s) s (exec (.fetchReplyTimerExpiry k) s) := by
  change Acts (Apart k s) s (execFetchReplyTimerExpiry k s)
  unfold execFetchReplyTimerExpiry
  split
  · exact acts_act fun _ => apart_fetchEnds (Apart.refl k s)
  · exact acts_goOn

theorem acts_apart_fetchKeepalive : Acts (Apart k s) s (exec (.fetchKeepalive k) s) := by
  change Acts (Apart k s) s (execFetchKeepalive k s)
  unfold execFetchKeepalive
  split
  · exact acts_act fun _ => apart_sendForFetch (Apart.refl k s)
  · exact acts_goOn

/-! ### Every command of one context -/

/-- A command whose subject is a context is an effect about that context, in its moment, or nothing. -/
theorem exec_acts_apart {c : Instr} (h : subject c = some k) : Acts (Apart k s) s (exec c s) := by
  cases c with (cases h)
  | bidTimerExpiry k =>
    exact acts_act fun _ => by
      split
      · exact apart_offerBid (Apart.refl k s)
      · exact (Apart.refl k s)
  | addressTimerExpiry k => exact acts_act fun _ => apart_collectionEnds (Apart.refl k s)
  | answerDelayExpiry k => exact acts_act fun _ => apart_enterDiscriminating (Apart.refl k s)
  | discriminationTimerExpiry k => exact acts_act fun _ => apart_discriminationTimeOver (Apart.refl k s)
  | seizureGuardExpiry k => exact acts_act fun _ => apart_enterDialling (Apart.refl k s)
  | dialPhaseEnd k => exact acts_act fun _ => apart_phaseOver (Apart.refl k s)
  | dialToneWaitExpiry k => exact acts_act fun _ => apart_endCall (Apart.refl k s)
  | progressTimerExpiry k => exact acts_act fun _ => apart_endCall (Apart.refl k s)
  | letGo k =>
    exact acts_act fun _ => by
      split
      · exact apart_letGo (Apart.refl k s)
      · exact (Apart.refl k s)
  | clearingTimeExpiry k => exact acts_act fun _ => apart_clearingOver (Apart.refl k s)
  | beepTimerExpiry k => exact acts_act fun _ => apart_beepEnds (Apart.refl k s)
  | idleTimerExpiry k => exact acts_act fun _ => apart_endCall (Apart.refl k s)
  | detectorBlockEnd k m => exact acts_act fun _ => apart_detectorBlockEnds (Apart.refl k s)
  | slotFillTimeout k =>
    exact acts_act fun _ => by
      split
      · exact apart_fillFaxSlot (Apart.refl k s)
      · exact apart_fillPlaySlot (Apart.refl k s)
      · exact (Apart.refl k s)
  | depositReplyTimerExpiry k => exact acts_apart_depositReplyTimerExpiry
  | fetchReplyTimerExpiry k => exact acts_apart_fetchReplyTimerExpiry
  | fetchKeepalive k => exact acts_apart_fetchKeepalive
  | controlFrameBadCheck k => exact acts_goOn
  | capability k rate =>
    exact acts_act fun _ => by
      split
      · exact apart_takeCapability (Apart.refl k s)
      · exact (Apart.refl k s).modFax
  | mode k rate => exact acts_act fun _ => apart_takeMode (Apart.refl k s)
  | trainGood k => exact acts_apart_trainVerdict
  | trainBad k => exact acts_apart_trainVerdict
  | pageEnd k last => exact acts_act fun _ => apart_takePageEnd (Apart.refl k s)
  | pageGood k => exact acts_act fun _ => apart_takePageGood (Apart.refl k s)
  | pageRetrain k => exact acts_act fun _ => apart_takePageRetrain (Apart.refl k s)
  | pageBad k => exact acts_act fun _ => apart_takePageBad (Apart.refl k s)
  | disconnect k => exact acts_act fun _ => apart_takeDisconnect (Apart.refl k s)
  | faxFrameReceived k good n data => exact acts_act fun _ => apart_takeFaxFrame (Apart.refl k s)
  | controlFrameSent k => exact acts_act fun _ => apart_controlSent (Apart.refl k s)
  | sendTrainingEnd k => exact acts_act fun _ => apart_sendTrainingOver (Apart.refl k s)
  | pageLastFrameSent k => exact acts_act fun _ => apart_pageSent (Apart.refl k s)
  | faxWaitTimerExpiry k => exact acts_act fun _ => apart_faxWaitOver (Apart.refl k s)
  | noiseReading k r =>
    exact acts_act fun _ => by
      split
      · exact apart_faxReading (Apart.refl k s)
      · exact apart_dataReading (Apart.refl k s)
  | shiftEnded k => exact acts_act fun _ => apart_shiftOver (Apart.refl k s)
  | shiftFailed k => exact acts_act fun _ => apart_askRetrain (Apart.refl k s)
  | trainingFailed k => exact acts_act fun _ => apart_dataEnds (Apart.refl k s)
  | trainingTimerExpiry k => exact acts_act fun _ => apart_dataEnds (Apart.refl k s)
  | farEndShiftRequest k rate => exact acts_act fun _ => apart_takeShiftRequest (Apart.refl k s)
  | remoteTraining k => exact acts_act fun _ => apart_askRetrain (Apart.refl k s)
  | dataBlockReceived k n data => exact acts_act fun _ => apart_takeLinkData (Apart.refl k s)
  | linkBlockBadCheck k => exact acts_act fun _ => (Apart.refl k s).modQmn
  | ackReceived k n => exact acts_act fun _ => apart_takeAck (Apart.refl k s)
  | holdReceived k n => exact acts_act fun _ => apart_takeHold (Apart.refl k s)
  | resendTimerExpiry k => exact acts_act fun _ => apart_resendOver (Apart.refl k s)
  | remoteHoldExpiry k => exact acts_act fun _ => apart_dataEnds (Apart.refl k s)

end

/-- Settles O8: the effect concerns its context alone, and so do the notices it leaves to be told. -/
theorem contextCommandsLeaveOtherContexts : Obligations.ContextCommandsLeaveOtherContexts := by
  intro c k s t about q next j other
  rcases (exec_acts_apart (s := s) about).cases with still | ⟨u, apart, acted⟩
  · cases still.symm.trans next
    rfl
  · cases acted.symm.trans next
    exact (apart_settle q apart).ctx j other

end Sys2Proof.Machine
end

section
/-! PROOFS. The family of the machine: which commands move the alignment, the line, the receive queue, the configuration,
the clock, the state of the station and the fault entries (R19, R36, R38, R39, R40, R44, R46). -/
namespace Sys2Proof.Machine

/-! ### What is left alone -/

/-- The registers that a command may leave alone: of the highway all but the channels, the line with its count of bad
checks, the receive queue, the configuration, the clock, the state of the station, and the fault entries. -/
inductive Part where
  | highway | line | received | config | clock | station | faults
deriving DecidableEq

/-- A part stands from a state to a later one; the fault entries may grow. -/
def Stands : Part → State → State → Prop
  | .highway, s, t => t.hwi = { s.hwi with channels := t.hwi.channels }
  | .line, s, t => t.clc.line = s.clc.line ∧ t.clc.run = s.clc.run ∧ t.clc.badCheck = s.clc.badCheck
  | .received, s, t => t.clc.rx = s.clc.rx
  | .config, s, t => t.cfu.config = s.cfu.config
  | .clock, s, t => t.cfu.minute = s.cfu.minute ∧ t.cfu.subMinute = s.cfu.subMinute ∧ t.cfu.clockSet = s.cfu.clockSet
      ∧ t.cfu.stationTime = s.cfu.stationTime
  | .station, s, t => t.cfu.state = s.cfu.state ∧ t.cfu.alignSeen = s.cfu.alignSeen
  | .faults, s, t => s.cfu.faults <+: t.cfu.faults

theorem Stands.trans {p : Part} {s0 s t : State} (h : Stands p s0 s) (g : Stands p s t) : Stands p s0 t := by
  cases p with
  | highway => exact Eq.trans g (by rw [h])
  | line => exact ⟨g.1.trans h.1, g.2.1.trans h.2.1, g.2.2.trans h.2.2⟩
  | received => exact Eq.trans g h
  | config => exact Eq.trans g h
  | clock => exact ⟨g.1.trans h.1, g.2.1.trans h.2.1, g.2.2.1.trans h.2.2.1, g.2.2.2.trans h.2.2.2⟩
  | station => exact ⟨g.1.trans h.1, g.2.trans h.2⟩
  | faults => exact List.IsPrefix.trans h g

/-- What an operation below the commands leaves alone is every part. -/
theorem Steady.stands {s t : State} (h : Steady s t) (p : Part) : Stands p s t := by
  obtain ⟨hwi, clc, cfu, faults, -⟩ := h
  cases p with
  | highway => exact hwi
  | faults => exact faults
  | line => simp only [Stands]; rw [clc]; simp
  | received => simp only [Stands]; rw [clc]
  | config => simp only [Stands]; rw [cfu]
  | clock => simp only [Stands]; rw [cfu]; simp
  | station => simp only [Stands]; rw [cfu]; simp

/-- Every part but the listed ones stands. -/
def AllBut (ps : List Part) (s t : State) : Prop := ∀ p, p ∉ ps → Stands p s t

namespace AllBut

variable {ps : List Part} {s0 s t : State}

theorem of_steady (h : Steady s t) : AllBut ps s t := fun p _ => h.stands p

theorem refl (s : State) : AllBut ps s s := of_steady (Steady.refl s)

theorem trans (h : AllBut ps s0 s) (g : AllBut ps s t) : AllBut ps s0 t := fun p e => (h p e).trans (g p e)

theorem steady (h : AllBut ps s0 s) (g : Steady s t) : AllBut ps s0 t := h.trans (of_steady g)

theorem settled (h : AllBut ps s0 s) : AllBut ps s0 (settle s) := h.steady (steady_settle (Steady.refl s))

theorem modHwi {f : Hwi → Hwi} (h : AllBut ps s0 s) (moves : .highway ∈ ps) : AllBut ps s0 (s.modHwi f) :=
  h.trans fun p e => by
    cases p with
    | highway => exact absurd moves e
    | faults => exact List.prefix_refl _
    | _ => simp [Stands]

theorem modClc {f : Clc → Clc} (h : AllBut ps s0 s) (line : .line ∈ ps)
    (rx : .received ∈ ps ∨ (f s.clc).rx = s.clc.rx) : AllBut ps s0 (s.modClc f) :=
  h.trans fun p e => by
    cases p with
    | highway => rfl
    | line => exact absurd line e
    | received => exact rx.resolve_left e
    | faults => exact List.prefix_refl _
    | _ => simp [Stands]

theorem modCfu {f : Cfu → Cfu} (h : AllBut ps s0 s) (hf : ∀ p, p ∉ ps → Stands p s (s.modCfu f)) :
    AllBut ps s0 (s.modCfu f) := h.trans hf

theorem forEach {α : Type} {xs : List α} {f : α → State → State} (h : AllBut ps s0 s)
    (hf : ∀ x t, AllBut ps s0 t → AllBut ps s0 (f x t)) : AllBut ps s0 (Machine.forEach xs f s) := by
  unfold Machine.forEach
  induction xs generalizing s with
  | nil => exact h
  | cons x xs ih => exact ih (hf x s h)

end AllBut

theorem Acts.mono {P Q : State → Prop} {s : State} {o : Host.Outcome State Fault Refusal} (h : Acts P s o)
    (imp : ∀ u, P u → Q u) : Acts Q s o := by
  obtain ⟨due, effect, acted, holds⟩ := h
  exact ⟨due, effect, acted, fun e => imp _ (holds e)⟩

/-! ### The owners of the cells handed over -/

section
variable {s0 s : State}

theorem steady_requestOwner {owner : Cell → State → State} {c : Cell} (st : Steady s0 s)
    (h : ∀ t, Steady s0 t → Steady s0 (owner c t)) : Steady s0 (requestOwner owner c s) := by
  unfold requestOwner
  split
  · exact st
  split
  · exact steady_sendAnswer st
  · exact h s st

theorem steady_whenActive {owner : Cell → State → State} {c : Cell} (st : Steady s0 s)
    (h : ∀ t, Steady s0 t → Steady s0 (owner c t)) : Steady s0 (whenActive owner c s) := by
  unfold whenActive
  split
  · exact h s st
  · exact steady_sendAnswer st

theorem steady_peerOwner {owner : Fin 8 → Cell → State → State} {c : Cell} (st : Steady s0 s)
    (h : ∀ p t, Steady s0 t → Steady s0 (owner p c t)) : Steady s0 (peerOwner owner c s) := by
  unfold peerOwner
  split
  · exact st
  split
  · exact h _ s st
  · exact st

theorem acts_steady_handRequest {kind : Byte} {owner : Cell → State → State}
    (h : ∀ c u, Steady (popCell s) u → Steady (popCell s) (owner c u)) :
    Acts (Steady (popCell s)) s (handRequest kind owner s) :=
  acts_handOver fun c _ _ => steady_requestOwner (Steady.refl _) (h c)

theorem acts_steady_whenActive {kind : Byte} {owner : Cell → State → State}
    (h : ∀ c u, Steady (popCell s) u → Steady (popCell s) (owner c u)) :
    Acts (Steady (popCell s)) s (handRequest kind (whenActive owner) s) :=
  acts_steady_handRequest fun c _ st => steady_whenActive st (h c)

theorem acts_steady_handPeer {kind : Byte} {owner : Fin 8 → Cell → State → State}
    (h : ∀ p c u, Steady (popCell s) u → Steady (popCell s) (owner p c u)) :
    Acts (Steady (popCell s)) s (handPeer kind owner s) :=
  acts_handOver fun c _ _ => steady_peerOwner (Steady.refl _) fun p => h p c

theorem acts_steady_handQuery {selector : Nat} {owner : Cell → State → State}
    (h : ∀ c u, Steady (popCell s) u → Steady (popCell s) (owner c u)) :
    Acts (Steady (popCell s)) s (handQuery selector owner s) :=
  acts_handOver fun c _ _ => steady_requestOwner (Steady.refl _) fun u st => by
    split
    case isTrue => exact steady_sendAnswer st
    case isFalse => exact h c u st

theorem steady_takeMark {c : Cell} (st : Steady s0 s) : Steady s0 (takeMark c s) := by
  unfold takeMark
  split
  · exact st
  split
  · exact steady_sendAnswer st
  · exact steady_sendAnswer (steady_markMessage st)

theorem acts_steady_handMark {mark : Mark} : Acts (Steady (popCell s)) s (handMark mark s) :=
  acts_handOver fun _ _ _ => steady_takeMark (Steady.refl _)

theorem steady_createMailbox {c : Cell} (st : Steady s0 s) : Steady s0 (createMailbox c s) := by
  unfold createMailbox
  refine steady_sendAnswer ?_
  split
  · exact st.modMsc
  · exact st

theorem steady_dropMailbox {n : Nat} (st : Steady s0 s) : Steady s0 (dropMailbox n s) := by
  unfold dropMailbox
  split
  · exact st
  · exact (st.forEach fun _ _ h => steady_deleteMessage h).modMsc

theorem steady_removeMailbox {c : Cell} (st : Steady s0 s) : Steady s0 (removeMailbox c s) := by
  unfold removeMailbox
  refine steady_sendAnswer ?_
  split
  · exact steady_dropMailbox st
  · exact st

theorem steady_queryList {c : Cell} (st : Steady s0 s) : Steady s0 (queryList c s) := by
  unfold queryList
  dsimp only
  repeat' split
  case h_2 => exact steady_sendMailboxList st
  all_goals exact steady_sendAnswer st

theorem steady_takeOutdial {c : Cell} (st : Steady s0 s) : Steady s0 (takeOutdial c s) := by
  unfold takeOutdial
  dsimp only
  split
  case isTrue => exact steady_sendAnswer st
  split
  case h_1 => exact steady_sendAnswer st
  split
  case h_1 => exact steady_sendAnswer st
  split
  case h_1 u chosen => exact steady_sendAnswer (Steady.of_eq chosen (steady_chooseFor st))
  case h_2 u chosen => exact steady_sendAnswerWith (Steady.of_eq chosen (steady_chooseFor st)).modCtx

theorem steady_takeDrop {c : Cell} (st : Steady s0 s) : Steady s0 (takeDrop c s) := by
  unfold takeDrop
  split
  case h_1 => exact steady_sendAnswer st
  split
  case h_2 => exact steady_withdraw (steady_sendAnswer st)
  case h_4 => exact steady_endCall (steady_sendAnswer st)
  all_goals exact steady_sendAnswer st

theorem steady_sessionRequest {bad : Bool} {begin_ : ContextId → State → State} {c : Cell} (st : Steady s0 s)
    (h : ∀ k u, Steady s0 u → Steady s0 (begin_ k u)) : Steady s0 (sessionRequest bad begin_ c s) := by
  unfold sessionRequest
  split
  case h_1 => exact steady_sendAnswer st
  split
  case isTrue => exact steady_sendAnswer st
  split
  case isTrue => exact steady_sendAnswer st
  case isFalse => exact h _ _ (steady_sendAnswer (steady_endActivity st).modCtx)

theorem steady_takeDataConnect {c : Cell} (st : Steady s0 s) : Steady s0 (takeDataConnect c s) := by
  unfold takeDataConnect
  exact steady_sessionRequest st fun _ _ h => steady_startData h

theorem steady_takeDataTx {c : Cell} (st : Steady s0 s) : Steady s0 (takeDataTx c s) := by
  unfold takeDataTx
  split
  case h_1 => exact steady_sendAnswer st
  dsimp only
  split
  · exact steady_pumpLink (steady_sendAnswer (steady_takeTx st))
  · exact steady_sendAnswer st

theorem steady_withChannel {owner : Fin 8 → Channel → State → State} {p : Fin 8} {c : Cell} (st : Steady s0 s)
    (h : ∀ ch, Steady s0 (owner p ch s)) : Steady s0 (withChannel owner p c s) := by
  unfold withChannel
  split
  · exact h _
  · exact st

theorem steady_claimOwner {p : Fin 8} {c : Cell} (st : Steady s0 s) : Steady s0 (claimOwner p c s) := by
  unfold claimOwner
  split
  · exact steady_withChannel st fun _ => steady_takeClaim st
  · exact st

theorem steady_atHome {owner : Fin 8 → Cell → State → State} {p : Fin 8} {c : Cell} (st : Steady s0 s)
    (h : Steady s0 (owner p c s)) : Steady s0 (atHome owner p c s) := by
  unfold atHome
  split
  · exact h
  · exact st

theorem steady_endsDeposit {ends : OutDeposit → Cell → Option DepositOutcome} {p : Fin 8} {c : Cell}
    (st : Steady s0 s) : Steady s0 (endsDeposit ends p c s) := by
  unfold endsDeposit
  split
  · exact st
  split
  · exact st
  split
  · exact steady_depositEnds st
  · exact st

theorem steady_takeFetchClose {p : Fin 8} {c : Cell} (st : Steady s0 s) : Steady s0 (takeFetchClose p c s) := by
  unfold takeFetchClose
  dsimp only
  split
  · exact st
  split
  · exact steady_dropReader st
  · exact st

theorem steady_grantSession {k : ContextId} {c : Cell} (st : Steady s0 s) : Steady s0 (grantSession k c s) := by
  unfold grantSession
  dsimp only
  split
  · exact steady_playGranted st
  split
  · split
    · exact steady_endFetch st
    · exact steady_faxGranted st
  · exact steady_endFetch st

theorem steady_takeGrant {p : Fin 8} {c : Cell} (st : Steady s0 s) : Steady s0 (takeGrant p c s) := by
  unfold takeGrant
  dsimp only
  split
  · exact st
  split
  · exact steady_grantSession (steady_openFetch st)
  · exact st
  · exact steady_offerOther st

theorem steady_takeFetchRefuse {p : Fin 8} {c : Cell} (st : Steady s0 s) : Steady s0 (takeFetchRefuse p c s) := by
  unfold takeFetchRefuse
  split
  · exact st
  split
  · exact st
  split
  · exact steady_fetchEnds st
  · exact st

theorem steady_placeFaxPart {k : ContextId} {index part : Nat} {bytes : List Byte} (st : Steady s0 s) :
    Steady s0 (placeFaxPart k index part bytes s) := by
  unfold placeFaxPart
  dsimp only
  split
  · exact steady_feed (steady_fetchSettle st.modFax)
  · exact st.modFax

theorem steady_placePlayPart {k : ContextId} {index part : Nat} {bytes : List Byte} (st : Steady s0 s) :
    Steady s0 (placePlayPart k index part bytes s) := by
  unfold placePlayPart
  dsimp only
  split
  · exact steady_resumeDecoder (steady_fetchSettle st.modVcd)
  · exact st.modVcd

theorem steady_takeFetchData {p : Fin 8} {c : Cell} (st : Steady s0 s) : Steady s0 (takeFetchData p c s) := by
  unfold takeFetchData
  dsimp only
  split
  · exact st
  split
  · split
    · exact steady_placeFaxPart (steady_fetchHeard st)
    · exact steady_placePlayPart (steady_fetchHeard st)
  · exact st

/-! ### The timers and the pump -/

theorem steady_offerAgain {p : StreamProducer} (st : Steady s0 s) : Steady s0 (offerAgain p s) := by
  unfold offerAgain
  split
  · exact steady_pumpDeposit st
  · exact steady_pumpFetchData st
  · exact steady_reofferRx st

theorem steady_discriminationTimeOver {k : ContextId} (st : Steady s0 s) : Steady s0 (discriminationTimeOver k s) := by
  unfold discriminationTimeOver
  split
  · exact steady_discriminationEnds st
  · exact steady_setTimer st

theorem steady_clearingOver {k : ContextId} (st : Steady s0 s) : Steady s0 (clearingOver k s) := by
  unfold clearingOver
  refine steady_freeContext ?_
  split
  · split
    · exact steady_setView st
    · exact st
  · exact st

theorem steady_fillPlaySlot {k : ContextId} {b : Nat} (st : Steady s0 s) : Steady s0 (fillPlaySlot k b s) :=
  steady_resumeDecoder (steady_fetchSettle st.modVcd)

theorem steady_fillFaxSlot {k : ContextId} {b : Nat} (st : Steady s0 s) : Steady s0 (fillFaxSlot k b s) :=
  steady_feed (steady_fetchSettle st.modFax)

theorem steady_controlSent {k : ContextId} (st : Steady s0 s) : Steady s0 (controlSent k s) := by
  unfold controlSent
  dsimp only
  split
  · exact steady_faxSessionEnds st.modPump
  · exact st.modPump

theorem acts_steady_trainVerdict {k : ContextId} {good : Bool} : Acts (Steady s) s (trainVerdict k good s) := by
  refine acts_act fun _ => ?_
  split
  · exact (Steady.refl s).modFax
  · exact steady_takeTrainVerdict (Steady.refl s)

theorem acts_steady_depositReplyTimerExpiry {k : ContextId} :
    Acts (Steady s) s (exec (.depositReplyTimerExpiry k) s) := by
  change Acts (Steady s) s (execDepositReplyTimerExpiry k s)
  unfold execDepositReplyTimerExpiry
  split
  · exact acts_act fun _ => steady_depositEnds (Steady.refl s)
  · exact acts_goOn

theorem acts_steady_fetchReplyTimerExpiry {k : ContextId} : Acts (Steady s) s (exec (.fetchReplyTimerExpiry k) s) := by
  change Acts (Steady s) s (execFetchReplyTimerExpiry k s)
  unfold execFetchReplyTimerExpiry
  split
  · exact acts_act fun _ => steady_fetchEnds (Steady.refl s)
  · exact acts_goOn

theorem acts_steady_fetchKeepalive {k : ContextId} : Acts (Steady s) s (exec (.fetchKeepalive k) s) := by
  change Acts (Steady s) s (execFetchKeepalive k s)
  unfold execFetchKeepalive
  split
  · exact acts_act fun _ => steady_sendForFetch (Steady.refl s)
  · exact acts_goOn

/-! ### The highway -/

section
variable {ps : List Part}

theorem AllBut.loseAlignment (h : AllBut ps s0 s) (moves : .highway ∈ ps) : AllBut ps s0 (loseAlignment s) := by
  unfold Machine.loseAlignment
  refine AllBut.modHwi (AllBut.steady (AllBut.forEach ((h.modHwi moves).modHwi moves) fun k t ht => ?_)
    (steady_sendEvent (Steady.refl _))) moves
  exact ht.steady (steady_holdContext (Steady.refl t))

theorem steady_resumePlayback {k : ContextId} (st : Steady s0 s) : Steady s0 (resumePlayback k s) := by
  unfold resumePlayback
  dsimp only
  split
  · exact steady_resumeDecoder (steady_refillPlayback st)
  · exact steady_resumeDecoder st

theorem steady_resumeFax {k : ContextId} (st : Steady s0 s) : Steady s0 (resumeFax k s) := by
  unfold resumeFax
  dsimp only
  split
  · exact steady_feed (steady_fillBuffer st).modFax
  · exact st

theorem steady_resumeContext {k : ContextId} (st : Steady s0 s) : Steady s0 (resumeContext k s) := by
  unfold resumeContext
  split
  · exact steady_askRetrain st
  · exact steady_resumeFax (steady_resumePlayback st)

theorem AllBut.resumeHeld (h : AllBut ps s0 s) (moves : .highway ∈ ps) : AllBut ps s0 (resumeHeld s) := by
  unfold Machine.resumeHeld
  refine AllBut.forEach (AllBut.forEach (h.modHwi moves) fun k t ht => ?_) fun k t ht => ?_
  · exact ht.steady (Steady.refl t).modCtx
  · exact ht.steady (steady_resumeContext (Steady.refl t))

theorem AllBut.setsStation {state : StationState} {seen : Bool} (h : AllBut ps s0 s) (moves : .station ∈ ps) :
    AllBut ps s0 (s.modCfu fun u => { u with state, alignSeen := seen }) := by
  refine h.trans fun p e => ?_
  cases p with
  | station => exact absurd moves e
  | faults => exact List.prefix_refl _
  | _ => simp [Stands]

theorem AllBut.noteAlignment (h : AllBut ps s0 s) (moves : .station ∈ ps) : AllBut ps s0 (noteAlignment s) := by
  unfold Machine.noteAlignment
  split
  · exact h.setsStation moves
  · exact h

theorem AllBut.enterActive (h : AllBut ps s0 s) (moves : .station ∈ ps) : AllBut ps s0 (enterActive s) :=
  (h.setsStation moves).steady (steady_examineHuntSet (Steady.refl _))

theorem AllBut.leaveStarting (h : AllBut ps s0 s) (moves : .station ∈ ps) : AllBut ps s0 (leaveStarting s) := by
  unfold Machine.leaveStarting
  split
  · split
    · exact h.enterActive moves
    · exact h.setsStation moves
  · exact h

theorem AllBut.enterAligned {p : Nat} (h : AllBut ps s0 s) (highway : .highway ∈ ps) (station : .station ∈ ps) :
    AllBut ps s0 (enterAligned p s) := by
  unfold Machine.enterAligned
  refine AllBut.leaveStarting (AllBut.noteAlignment ?_ station) station
  have aligned (n : Nat) : AllBut ps s0 (Machine.resumeHeld (sendEvent none (.highway n) (alignAt p s))) :=
    AllBut.resumeHeld ((h.modHwi highway).steady (steady_sendEvent (Steady.refl _))) highway
  split
  · exact (aligned _).steady (steady_retrainAll (Steady.refl _))
  · exact aligned _

theorem AllBut.verifyWindow {p n : Nat} {f : Fin 8} {w : Byte} (h : AllBut ps s0 s) (highway : .highway ∈ ps)
    (station : .station ∈ ps) : AllBut ps s0 (verifyWindow p n f w s) := by
  unfold Machine.verifyWindow
  dsimp only
  split
  · split
    · exact (h.modHwi highway).modHwi highway
    · exact (h.modHwi highway).enterAligned highway station
  · exact (h.modHwi highway).modHwi highway

theorem AllBut.alignedWindow {p : Nat} {f : Fin 8} {w : Byte} (h : AllBut ps s0 s) (moves : .highway ∈ ps) :
    AllBut ps s0 (alignedWindow p f w s) := by
  unfold Machine.alignedWindow
  dsimp only
  split
  · exact (h.modHwi moves).modHwi moves
  split
  · exact (h.modHwi moves).modHwi moves
  · exact ((h.modHwi moves).modHwi moves).loseAlignment moves

theorem steady_holdExpires {k : ContextId} (st : Steady s0 s) : Steady s0 (holdExpires k s) := by
  unfold holdExpires
  dsimp only
  split
  · split
    · refine steady_freeContext ?_
      split
      · split
        · exact steady_setView (steady_endDrive st)
        · exact steady_setView st
      · exact st
    · exact steady_endCall st
  · exact st

theorem AllBut.holdRunsOut (h : AllBut ps s0 s) (moves : .highway ∈ ps) : AllBut ps s0 (holdRunsOut s) := by
  unfold Machine.holdRunsOut
  refine AllBut.steady (AllBut.forEach (h.modHwi moves) fun k t ht => ?_) (steady_writeFault (Steady.refl _))
  exact ht.steady (steady_holdExpires (Steady.refl t))

/-- The free-value counter is no part. -/
theorem Steady.free {n : Nat} (st : Steady s0 s) : Steady s0 { s with free := n } :=
  st.trans ⟨rfl, rfl, rfl, List.prefix_refl _, rfl⟩

theorem steady_takeToneSample {k : ContextId} {tone : List ToneLine} (st : Steady s0 s) :
    Steady s0 (takeToneSample k tone s).1 := st.modCtx.free

theorem steady_takePumpSample {sends : Bool} (st : Steady s0 s) : Steady s0 (takePumpSample sends s).1 := by
  unfold takePumpSample
  split
  · exact st.free
  · exact st

theorem steady_supplySample {k : ContextId} {session : Bool} (st : Steady s0 s) :
    Steady s0 (supplySample k session s).1 := by
  unfold supplySample
  dsimp only
  split
  · split
    · exact steady_takeToneSample st
    · exact st
  · split
    · split
      · exact steady_decodeFrame st
      · exact st
    · exact steady_takeToneSample st
    · exact st
  · split
    · split
      · exact steady_decodeFrame st
      · exact st
    · exact steady_takePumpSample st
    · exact steady_takePumpSample st
    · exact st
  · exact st

theorem steady_transmitFrame {session : Bool} {k : ContextId} (st : Steady s0 s) :
    Steady s0 (transmitFrame session k s) := by
  unfold transmitFrame
  split
  · exact (steady_supplySample st).modCtx
  · exact st

theorem steady_readBack {f : Fin 8} {back : List Byte} {backSig : Byte} {c : Channel} (st : Steady s0 s) :
    Steady s0 (readBack f back backSig c s) := by
  unfold readBack
  split
  · exact st
  · exact st.modChannel

theorem steady_settleDecoder {session : Bool} {k : ContextId} (st : Steady s0 s) :
    Steady s0 (settleDecoder session k s) := by
  unfold settleDecoder
  split
  · exact steady_afterDecode st
  · exact st

theorem steady_receiveFrame {session : Bool} {rx : List Byte} {k : ContextId} (st : Steady s0 s) :
    Steady s0 (receiveFrame session rx k s) := by
  have detected : Steady s0 (if detectorActive s k then
      s.modDetector k fun d => { d with gathered := d.gathered ++ [rx.getD (((s.at k).channel.getD 0).val) 0] } else s) := by
    split
    · exact st.modDetector
    · exact st
  unfold receiveFrame
  dsimp only
  split
  · exact st
  case h_2 c channel =>
  split
  · split
    · split
      · exact steady_encodeFrame st.modDetector
      · exact steady_encodeFrame st
    · split
      · exact st.modDetector
      · exact st
  · exact st

theorem AllBut.highwayFrame {f : Fin 8} {rx back : List Byte} {rxSig backSig : Byte} (h : AllBut ps s0 s)
    (moves : .highway ∈ ps) : AllBut ps s0 (highwayFrame f rx rxSig back backSig s) := by
  have sent : AllBut ps s0 _ := h.forEach (xs := contextIds) (f := transmitFrame (givesSessionTime s)) fun _ t ht =>
    ht.steady (steady_transmitFrame (Steady.refl t))
  have read : AllBut ps s0 _ := sent.forEach (xs := channelIds) (f := readBack f back backSig) fun _ t ht =>
    ht.steady (steady_readBack (Steady.refl t))
  have codes : AllBut ps s0 (readCodes f rxSig backSig _) := read.forEach fun _ _ ht => ht.modHwi moves
  have decoded : AllBut ps s0 _ := codes.forEach (xs := contextIds) (f := settleDecoder (givesSessionTime s))
    fun _ t ht => ht.steady (steady_settleDecoder (Steady.refl t))
  have heard : AllBut ps s0 _ := decoded.forEach (xs := contextIds) (f := receiveFrame (givesSessionTime s) rx)
    fun _ t ht => ht.steady (steady_receiveFrame (Steady.refl t))
  unfold Machine.highwayFrame afterFrame
  dsimp only
  split
  · exact heard.modHwi moves
  · exact heard

theorem AllBut.stationTick (h : AllBut ps s0 s) (highway : .highway ∈ ps) (clock : .clock ∈ ps) :
    AllBut ps s0 (stationTick s) := by
  unfold Machine.stationTick
  refine AllBut.steady (AllBut.modHwi (h.modCfu fun p e => ?_) highway) (Steady.refl _).modRau
  cases p with
  | clock => exact absurd clock e
  | faults => exact List.prefix_refl _
  | _ => simp [Stands]

theorem AllBut.measureTiming {measured : Nat} (h : AllBut ps s0 s) (moves : .highway ∈ ps) :
    AllBut ps s0 (measureTiming measured s) := by
  unfold Machine.measureTiming
  dsimp only
  split
  · exact h.modHwi moves
  split
  · exact h.modHwi moves
  · exact (h.modHwi moves).steady (steady_retrainAll (steady_writeFault (steady_sendEvent (Steady.refl _))))

theorem steady_checkReadback {c : Channel} (st : Steady s0 s) : Steady s0 (checkReadback c s) := by
  unfold checkReadback
  dsimp only
  split
  · exact steady_contention st.modChannel
  · exact st.modChannel

/-- The contexts are no part. -/
theorem Steady.contexts {b : Bank 4 Context} (st : Steady s0 s) : Steady s0 { s with ctx := b } :=
  st.trans ⟨rfl, rfl, rfl, List.prefix_refl _, rfl⟩

theorem steady_sessionTick (st : Steady s0 s) : Steady s0 (sessionTick s) := by
  unfold sessionTick
  exact st.contexts.modTcm

theorem AllBut.sessionBoundary {measured : Nat} (h : AllBut ps s0 s) (moves : .highway ∈ ps) :
    AllBut ps s0 (sessionBoundary measured s) := by
  unfold Machine.sessionBoundary
  refine AllBut.steady (h.measureTiming (measured := measured) moves) (Steady.modTcm (steady_deliverCodes (steady_sessionTick ?_)))
  exact (Steady.refl _).forEach fun _ _ ht => steady_checkReadback ht

theorem AllBut.boundaryPassed (h : AllBut ps s0 s) (highway : .highway ∈ ps) (clock : .clock ∈ ps) :
    AllBut ps s0 (boundaryPassed s) := by
  unfold Machine.boundaryPassed takeEffect
  exact ((h.modHwi highway).stationTick highway clock).modHwi highway

theorem AllBut.superframeBoundary {n : Nat} (h : AllBut ps s0 s) (highway : .highway ∈ ps) (clock : .clock ∈ ps) :
    AllBut ps s0 (superframeBoundary n s) := by
  unfold Machine.superframeBoundary
  split
  · exact h.boundaryPassed highway clock
  split
  · exact h.loseAlignment highway
  · exact (h.sessionBoundary highway).boundaryPassed highway clock

/-! ### The control line -/

theorem AllBut.lineFalls {others : List Byte} (h : AllBut ps s0 s) (moves : .line ∈ ps) :
    AllBut ps s0 (lineFalls others s) := by
  unfold Machine.lineFalls
  split
  · split
    · exact h.modClc moves (.inr rfl)
    · exact h.modClc moves (.inr rfl)
  · dsimp only
    split
    · exact (h.modClc moves (.inr rfl)).steady (steady_arbitrationLost (Steady.refl _))
    · exact h.modClc moves (.inr rfl)

theorem AllBut.cellDecided {x : TxCell} {r : SendResult} (h : AllBut ps s0 s) (moves : .line ∈ ps) :
    AllBut ps s0 (cellDecided x r s) := by
  have removed : AllBut ps s0 _ := ((h.modClc moves (.inr rfl)).modClc moves (.inr rfl) :
    AllBut ps s0 ((removeSending s).modClc fun l => { l with
      line := if l.line = .joining then .joining else .busy, run := runAfter r }))
  unfold Machine.cellDecided
  dsimp only
  split
  · exact removed
  split
  · exact removed.steady (steady_tellProducer (Steady.refl _))
  · exact removed.steady (steady_tellProducer (steady_countUndelivered (Steady.refl _)))

/-- R25, R26: what a cell on the wire writes of the receive queue. -/
theorem AllBut.receiveCell {bytes : List Byte} {ending : CellEnd} (h : AllBut ps s0 s) (moves : .line ∈ ps)
    (rx : .received ∈ ps) : AllBut ps s0 (receiveCell bytes ending s) := by
  unfold Machine.receiveCell
  dsimp only
  split
  · exact (h.modClc moves (.inl rx)).modClc moves (.inl rx)
  · exact (h.modClc moves (.inl rx)).modClc moves (.inl rx)
  · split
    · exact (h.modClc moves (.inl rx)).modClc moves (.inl rx)
    · exact h.modClc moves (.inl rx)

theorem AllBut.cellArrives {bytes : List Byte} {ending : CellEnd} (h : AllBut ps s0 s) (moves : .line ∈ ps)
    (rx : .received ∈ ps) : AllBut ps s0 (cellArrives bytes ending s) := by
  have lost : AllBut ps s0 (arbitrationLost s) := h.steady (steady_arbitrationLost (Steady.refl s))
  unfold Machine.cellArrives
  dsimp only
  split
  · split
    · exact lost.modClc moves (.inl rx)
    · exact lost.receiveCell moves rx
  · exact h

theorem receiveCell_rx (bytes : List Byte) (ending : CellEnd) (s : State) :
    (receiveCell bytes ending s).clc.rx = s.clc.rx ∨ ∃ x, (receiveCell bytes ending s).clc.rx = s.clc.rx ++ [x] := by
  unfold receiveCell
  dsimp only
  split
  · exact .inl rfl
  · exact .inl rfl
  · split
    · exact .inr ⟨_, rfl⟩
    · exact .inl rfl

theorem cellArrives_rx (bytes : List Byte) (ending : CellEnd) (s : State) :
    (cellArrives bytes ending s).clc.rx = s.clc.rx ∨ ∃ x, (cellArrives bytes ending s).clc.rx = s.clc.rx ++ [x] := by
  have lost : (arbitrationLost s).clc.rx = s.clc.rx :=
    (steady_arbitrationLost (Steady.refl s)).stands .received
  unfold cellArrives
  dsimp only
  split
  · split
    · exact .inl lost
    · rw [← lost]
      exact receiveCell_rx bytes ending _
  · exact .inl rfl

/-! ### The station -/

theorem AllBut.configure {c : Cell} (h : AllBut ps s0 s) (config : .config ∈ ps) (station : .station ∈ ps) :
    AllBut ps s0 (configure c s) := by
  have accepted : AllBut ps s0 (applySettleCount (sendAnswer c codeOk
      (s.modCfu fun u => { u with config := some (configureRecord c.payload) }))) := by
    refine AllBut.steady (h.modCfu fun p e => ?_) (steady_applySettleCount (steady_sendAnswer (Steady.refl _)))
    cases p with
    | config => exact absurd config e
    | faults => exact List.prefix_refl _
    | _ => simp [Stands]
  unfold Machine.configure
  dsimp only
  split
  · exact h.steady (steady_sendAnswer (Steady.refl _))
  split
  · exact h.steady (steady_sendAnswer (Steady.refl _))
  split
  · exact accepted.enterActive station
  · exact accepted

theorem AllBut.setsClock {f : Cfu → Cfu} (moves : .clock ∈ ps)
    (hf : f s.cfu = { s.cfu with
      minute := (f s.cfu).minute, subMinute := (f s.cfu).subMinute
      clockSet := (f s.cfu).clockSet, stationTime := (f s.cfu).stationTime }) :
    AllBut ps s (s.modCfu f) := fun p e => by
  cases p with
  | clock => exact absurd moves e
  | highway => rfl
  | line => simp [Stands]
  | received => rfl
  | config => simp only [Stands, modCfu_cfu]; rw [hf]
  | station => simp only [Stands, modCfu_cfu]; rw [hf]; simp
  | faults => simp only [Stands, modCfu_cfu]; rw [hf]

theorem AllBut.clearsFaults {c : Cell} (moves : .faults ∈ ps) : AllBut ps s (clearFaults c s) := by
  unfold clearFaults
  refine AllBut.steady (AllBut.modCfu (AllBut.refl s) fun p e => ?_) (steady_sendAnswer (Steady.refl _))
  cases p with
  | faults => exact absurd moves e
  | _ => simp [Stands]

/-- An accepted configuration stands. -/
theorem configure_of_locked {c : Cell} (locked : s.cfu.config.isSome = true) :
    configure c s = sendAnswer c codeConfigLocked s := if_pos locked

theorem AllBut.requestOwner {owner : Cell → State → State} {c : Cell} (h : AllBut ps s0 s)
    (ho : AllBut ps s0 (owner c s)) : AllBut ps s0 (requestOwner owner c s) := by
  unfold Machine.requestOwner
  split
  · exact h
  split
  · exact h.steady (steady_sendAnswer (Steady.refl _))
  · exact ho

/-- RESTART keeps the configuration, the clock and the fault entries (R42). -/
theorem AllBut.restart {c : Cell} {b : Bool} (h : AllBut [.highway, .line, .received, .station] s0 s) :
    AllBut [.highway, .line, .received, .station] s0 (restart c b s) := by
  have answered (x y : Byte) : AllBut [.highway, .line, .received, .station] s0 (sendAnswerWith c codeOk x y s) :=
    h.steady (steady_sendAnswerWith (Steady.refl _))
  have restarted {t : State} (ht : AllBut [.highway, .line, .received, .station] s0 t) :
      AllBut [.highway, .line, .received, .station] s0 (restartStation t) := by
    have flushed : AllBut [.highway, .line, .received, .station] s0 (flushLine t) :=
      ht.modClc (by simp) (.inl (by simp))
    have emptied : Steady (flushLine t) { flushLine t with
        ctx := .replicate 4 .reset, tcm := .reset, rau := .reset } := ⟨rfl, rfl, rfl, List.prefix_refl _, rfl⟩
    unfold restartStation
    exact AllBut.setsStation (((flushed.steady emptied).modHwi (by simp)).steady (steady_beginScan (Steady.refl _)))
      (by simp)
  unfold Machine.restart
  dsimp only
  split
  · exact h.steady (steady_sendAnswer (Steady.refl _))
  split
  · exact restarted ((answered _ _).steady (steady_headGoesOut (Steady.refl _)))
  · exact restarted (answered _ _)

end

/-! ### Every command -/

/-- The parts that a command may write, by what brings it about. -/
def writtenBy (c : Instr) : List Part :=
  match c with
  | .powerOn _ _ => [.highway, .line, .received, .config, .clock, .station, .faults]
  | .restart _ => [.highway, .line, .received, .station]
  | .frameWordVerify _ => [.highway, .station]
  | .superframeBoundary _ => [.highway, .clock]
  | .localStationTimeCount => [.highway, .clock]
  | .frameWordSearch _ _ => [.highway]
  | .frameWordAligned _ _ => [.highway]
  | .tickCountLimit => [.highway]
  | .highwayFrame _ _ _ _ _ => [.highway]
  | .holdPeriodExpiry => [.highway]
  | .cellReceived _ _ => [.line, .received]
  | .lineFree _ => [.line]
  | .cellOutcome _ => [.line]
  | .claimOutcome _ => [.line]
  | .releaseOutcome _ => [.line]
  | .depositCellUndelivered _ => [.line]
  | .fetchOpenUndelivered _ => [.line]
  | .configure => [.config, .station]
  | .setTime => [.clock]
  | .minuteClockStep => [.clock]
  | .startUpScanEnd => [.station]
  | .faultClear => [.faults]
  | _ => []

/-- Where the effect of a command begins: a cell handed over has left the receive queue (R27). -/
def origin (c : Instr) (s : State) : State := if cause c = .received then popCell s else s

/-- What the effect of a command leaves alone, from where it begins. -/
abbrev Leaves (c : Instr) (s t : State) : Prop := AllBut (writtenBy c) (origin c s) t

theorem acts_leaves_frameWordVerify {w : Byte} :
    Acts (AllBut [.highway, .station] s) s (exec (.frameWordVerify w) s) := by
  change Acts _ s (execFrameWordVerify w s)
  unfold execFrameWordVerify
  split
  · exact acts_act fun _ => AllBut.verifyWindow (AllBut.refl s) (by simp) (by simp)
  · exact acts_goOn

theorem acts_leaves_frameWordAligned {f : Fin 8} {w : Byte} :
    Acts (AllBut [.highway] s) s (exec (.frameWordAligned f w) s) := by
  change Acts _ s (execFrameWordAligned f w s)
  unfold execFrameWordAligned
  split
  · exact acts_act fun _ => AllBut.alignedWindow (AllBut.refl s) (by simp)
  · exact acts_goOn

theorem leaves_of_steady {c : Instr} (h : Acts (Steady (origin c s)) s (exec c s)) : Acts (Leaves c s) s (exec c s) :=
  h.mono fun _ st => AllBut.of_steady st

theorem acts_leaves_decideCell {ps : List Part} {kinds : Byte → Bool} {r : SendResult} (line : .line ∈ ps) :
    Acts (AllBut ps s) s (decideCell kinds r s) :=
  acts_decideCell fun _ _ => (AllBut.refl s).cellDecided line

/-- The commands below the machine's own: what they bring about is steady. -/
theorem exec_acts_steady {c : Instr} (plain : writtenBy c = []) : Acts (Steady (origin c s)) s (exec c s) := by
  cases c with (try cases plain)
  | roomAppeared => exact acts_act fun _ => (Steady.refl s).modClc rfl |>.forEach fun _ _ h => steady_offerAgain h
  | blockTimerExpiry c => exact acts_act fun _ => steady_setView (Steady.refl s)
  | assemblyTimeout h => exact acts_act fun _ => steady_writeAssembly (Steady.refl s)
  | depositSilenceClose h => exact acts_act fun _ => steady_silenceClose (Steady.refl s)
  | readerSilenceDrop h station context => exact acts_act fun _ => steady_dropReader (Steady.refl s)
  | statusQueryStation => exact acts_steady_handQuery fun _ _ h => steady_queryStation h
  | statusQueryContext => exact acts_steady_handQuery fun _ _ h => steady_queryContext h
  | statusQueryMap => exact acts_steady_handQuery fun _ _ h => steady_queryMap h
  | statusQueryMailbox => exact acts_steady_handQuery fun _ _ h => steady_queryMailbox h
  | statusQueryMessage => exact acts_steady_handQuery fun _ _ h => steady_queryMessage h
  | statusQueryFaults => exact acts_steady_handQuery fun _ _ h => steady_queryFaults h
  | mboxCreate => exact acts_steady_whenActive fun _ _ h => steady_createMailbox h
  | mboxRemove => exact acts_steady_whenActive fun _ _ h => steady_removeMailbox h
  | outdial => exact acts_steady_whenActive fun _ _ h => steady_takeOutdial h
  | play => exact acts_steady_whenActive fun _ _ h => steady_sessionRequest h fun _ _ g => steady_beginPlay g
  | record => exact acts_steady_whenActive fun _ _ h => steady_sessionRequest h fun _ _ g => steady_startRecording g
  | stop => exact acts_steady_whenActive fun _ _ h => steady_sessionRequest h fun _ _ g => steady_enterWaiting g
  | faxReceive =>
    exact acts_steady_whenActive fun _ _ h => steady_sessionRequest h fun _ _ g => steady_startFaxReceive g
  | faxSend => exact acts_steady_whenActive fun _ _ h => steady_sessionRequest h fun _ _ g => steady_startFaxSend g
  | dataConnect => exact acts_steady_whenActive fun _ _ h => steady_takeDataConnect h
  | dataTx => exact acts_steady_whenActive fun _ _ h => steady_takeDataTx h
  | drop => exact acts_steady_whenActive fun _ _ h => steady_takeDrop h
  | mboxQuery => exact acts_steady_handRequest fun _ _ h => steady_queryList h
  | msgMarkHeard => exact acts_steady_handMark
  | msgMarkUnheard => exact acts_steady_handMark
  | msgMarkDelete => exact acts_steady_handMark
  | answer => exact acts_steady_handPeer fun _ _ _ h => h
  | claim => exact acts_steady_handPeer fun _ _ _ h => steady_claimOwner h
  | release => exact acts_steady_handPeer fun _ _ _ h => steady_withChannel h fun _ => steady_takeRelease h
  | dispute => exact acts_steady_handPeer fun _ _ _ h => steady_withChannel h fun _ => steady_takeDispute h
  | depositOpen => exact acts_steady_handPeer fun _ _ _ h => steady_takeDepositOpen h
  | depositAccept => exact acts_steady_handPeer fun _ _ _ h => steady_takeAccept h
  | depositRefuse => exact acts_steady_handPeer fun _ _ _ h => steady_endsDeposit h
  | depositData => exact acts_steady_handPeer fun _ _ _ h => steady_atHome h (steady_takeDepositData h)
  | blockTaken =>
    exact acts_steady_handPeer fun _ _ _ h => by
      split
      · exact steady_takeBlockTaken h
      · exact h
  | depositRollback => exact acts_steady_handPeer fun _ _ _ h => steady_atHome h (steady_takeRollback h)
  | depositClose => exact acts_steady_handPeer fun _ _ _ h => steady_atHome h (steady_takeDepositClose h)
  | depositClosed => exact acts_steady_handPeer fun _ _ _ h => steady_endsDeposit h
  | fetchOpen => exact acts_steady_handPeer fun _ _ _ h => steady_takeFetchOpen h
  | fetchGrant => exact acts_steady_handPeer fun _ _ _ h => steady_takeGrant h
  | fetchRefuse => exact acts_steady_handPeer fun _ _ _ h => steady_takeFetchRefuse h
  | fetchBlock => exact acts_steady_handPeer fun _ _ _ h => steady_atHome h (steady_takeFetchBlock h)
  | fetchData => exact acts_steady_handPeer fun _ _ _ h => steady_takeFetchData h
  | fetchClose => exact acts_steady_handPeer fun _ _ _ h => steady_atHome h (steady_takeFetchClose h)
  | unownedCellDiscarded => exact acts_handOver (effect := fun _ t => t) fun _ _ _ => Steady.refl _
  | bidTimerExpiry k =>
    exact acts_act fun _ => by
      split
      · exact steady_offerBid (Steady.refl s)
      · exact (Steady.refl s)
  | addressTimerExpiry k => exact acts_act fun _ => steady_collectionEnds (Steady.refl s)
  | answerDelayExpiry k => exact acts_act fun _ => steady_enterDiscriminating (Steady.refl s)
  | discriminationTimerExpiry k => exact acts_act fun _ => steady_discriminationTimeOver (Steady.refl s)
  | seizureGuardExpiry k => exact acts_act fun _ => steady_enterDialling (Steady.refl s)
  | dialPhaseEnd k => exact acts_act fun _ => steady_phaseOver (Steady.refl s)
  | dialToneWaitExpiry k => exact acts_act fun _ => steady_endCall (Steady.refl s)
  | progressTimerExpiry k => exact acts_act fun _ => steady_endCall (Steady.refl s)
  | letGo k =>
    exact acts_act fun _ => by
      split
      · exact steady_letGo (Steady.refl s)
      · exact (Steady.refl s)
  | clearingTimeExpiry k => exact acts_act fun _ => steady_clearingOver (Steady.refl s)
  | beepTimerExpiry k => exact acts_act fun _ => steady_beepEnds (Steady.refl s)
  | idleTimerExpiry k => exact acts_act fun _ => steady_endCall (Steady.refl s)
  | detectorBlockEnd k m => exact acts_act fun _ => steady_detectorBlockEnds (Steady.refl s)
  | slotFillTimeout k =>
    exact acts_act fun _ => by
      split
      · exact steady_fillFaxSlot (Steady.refl s)
      · exact steady_fillPlaySlot (Steady.refl s)
      · exact (Steady.refl s)
  | depositReplyTimerExpiry k => exact acts_steady_depositReplyTimerExpiry
  | fetchReplyTimerExpiry k => exact acts_steady_fetchReplyTimerExpiry
  | fetchKeepalive k => exact acts_steady_fetchKeepalive
  | controlFrameBadCheck k => exact acts_goOn
  | capability k rate =>
    exact acts_act fun _ => by
      split
      · exact steady_takeCapability (Steady.refl s)
      · exact (Steady.refl s).modFax
  | mode k rate => exact acts_act fun _ => steady_takeMode (Steady.refl s)
  | trainGood k => exact acts_steady_trainVerdict
  | trainBad k => exact acts_steady_trainVerdict
  | pageEnd k last => exact acts_act fun _ => steady_takePageEnd (Steady.refl s)
  | pageGood k => exact acts_act fun _ => steady_takePageGood (Steady.refl s)
  | pageRetrain k => exact acts_act fun _ => steady_takePageRetrain (Steady.refl s)
  | pageBad k => exact acts_act fun _ => steady_takePageBad (Steady.refl s)
  | disconnect k => exact acts_act fun _ => steady_takeDisconnect (Steady.refl s)
  | faxFrameReceived k good n data => exact acts_act fun _ => steady_takeFaxFrame (Steady.refl s)
  | controlFrameSent k => exact acts_act fun _ => steady_controlSent (Steady.refl s)
  | sendTrainingEnd k => exact acts_act fun _ => steady_sendTrainingOver (Steady.refl s)
  | pageLastFrameSent k => exact acts_act fun _ => steady_pageSent (Steady.refl s)
  | faxWaitTimerExpiry k => exact acts_act fun _ => steady_faxWaitOver (Steady.refl s)
  | noiseReading k r =>
    exact acts_act fun _ => by
      split
      · exact steady_faxReading (Steady.refl s)
      · exact steady_dataReading (Steady.refl s)
  | shiftEnded k => exact acts_act fun _ => steady_shiftOver (Steady.refl s)
  | shiftFailed k => exact acts_act fun _ => steady_askRetrain (Steady.refl s)
  | trainingFailed k => exact acts_act fun _ => steady_dataEnds (Steady.refl s)
  | trainingTimerExpiry k => exact acts_act fun _ => steady_dataEnds (Steady.refl s)
  | farEndShiftRequest k rate => exact acts_act fun _ => steady_takeShiftRequest (Steady.refl s)
  | remoteTraining k => exact acts_act fun _ => steady_askRetrain (Steady.refl s)
  | dataBlockReceived k n data => exact acts_act fun _ => steady_takeLinkData (Steady.refl s)
  | linkBlockBadCheck k => exact acts_act fun _ => (Steady.refl s).modQmn
  | ackReceived k n => exact acts_act fun _ => steady_takeAck (Steady.refl s)
  | holdReceived k n => exact acts_act fun _ => steady_takeHold (Steady.refl s)
  | resendTimerExpiry k => exact acts_act fun _ => steady_resendOver (Steady.refl s)
  | remoteHoldExpiry k => exact acts_act fun _ => steady_dataEnds (Steady.refl s)

/-- Every command but POWER_ON leaves alone what it may not write. -/
theorem exec_acts_leaves {c : Instr} (running : ∀ straps loss, c ≠ .powerOn straps loss) :
    Acts (Leaves c s) s (exec c s) := by
  by_cases plain : writtenBy c = []
  · exact leaves_of_steady (exec_acts_steady plain)
  cases c with (try exact absurd rfl plain)
  | powerOn straps loss => exact absurd rfl (running straps loss)
  | restart b =>
    refine acts_handOver fun c _ _ => ?_
    have popped : AllBut [.highway, .line, .received, .station] s (popCell s) :=
      (AllBut.refl s).modClc (by simp) (.inl (by simp))
    exact AllBut.requestOwner popped (AllBut.restart popped)
  | frameWordSearch b w => exact acts_act fun _ => AllBut.modHwi (ps := [.highway]) (AllBut.refl s) (by simp)
  | frameWordVerify w => exact acts_leaves_frameWordVerify
  | frameWordAligned f w => exact acts_leaves_frameWordAligned
  | tickCountLimit => exact acts_act fun _ => AllBut.loseAlignment (ps := [.highway]) (AllBut.refl s) (by simp)
  | highwayFrame f rx rxSig back backSig =>
    exact acts_act fun _ => AllBut.highwayFrame (ps := [.highway]) (AllBut.refl s) (by simp)
  | superframeBoundary n =>
    exact acts_act fun _ => AllBut.superframeBoundary (ps := [.highway, .clock]) (AllBut.refl s) (by simp) (by simp)
  | localStationTimeCount =>
    exact acts_act fun _ => AllBut.stationTick (ps := [.highway, .clock]) ((AllBut.refl s).modHwi (by simp))
      (by simp) (by simp)
  | holdPeriodExpiry => exact acts_act fun _ => AllBut.holdRunsOut (ps := [.highway]) (AllBut.refl s) (by simp)
  | cellReceived bytes ending =>
    exact acts_act fun _ => AllBut.cellArrives (ps := [.line, .received]) (AllBut.refl s) (by simp) (by simp)
  | lineFree others => exact acts_act fun _ => AllBut.lineFalls (ps := [.line]) (AllBut.refl s) (by simp)
  | cellOutcome r =>
    simp only [exec, execCellOutcome]
    exact acts_leaves_decideCell (ps := [.line]) (by simp)
  | claimOutcome r =>
    simp only [exec, execClaimOutcome]
    exact acts_leaves_decideCell (ps := [.line]) (by simp)
  | releaseOutcome r =>
    simp only [exec, execReleaseOutcome]
    exact acts_leaves_decideCell (ps := [.line]) (by simp)
  | depositCellUndelivered e =>
    simp only [exec, execDepositCellUndelivered]
    exact acts_leaves_decideCell (ps := [.line]) (by simp)
  | fetchOpenUndelivered e =>
    simp only [exec, execFetchOpenUndelivered]
    exact acts_leaves_decideCell (ps := [.line]) (by simp)
  | configure =>
    exact acts_handOver fun c _ _ => AllBut.requestOwner (ps := [.config, .station]) (AllBut.refl _)
      (AllBut.configure (AllBut.refl _) (by simp) (by simp))
  | setTime =>
    exact acts_handOver fun c _ _ => AllBut.requestOwner (ps := [.clock]) (AllBut.refl _)
      ((AllBut.setsClock (by simp) rfl).steady (steady_sendAnswer (Steady.refl _)))
  | minuteClockStep => exact acts_act fun _ => AllBut.setsClock (ps := [.clock]) (by simp) rfl
  | startUpScanEnd =>
    exact acts_act fun _ => AllBut.leaveStarting (ps := [.station])
      (AllBut.of_steady (steady_finishScan (Steady.refl s))) (by simp)
  | faultClear =>
    exact acts_handOver fun c _ _ => AllBut.requestOwner (ps := [.faults]) (AllBut.refl _)
      (AllBut.clearsFaults (by simp))

end

/-! ### Which command writes which part -/

section
variable {c : Instr}

theorem cause_of_highway_written (h : (writtenBy c).contains .highway = true) :
    cause c = .start ∨ cause c = .highway := by
  cases c with
  | powerOn | restart => exact .inl rfl
  | frameWordSearch | frameWordVerify | frameWordAligned | tickCountLimit | highwayFrame | superframeBoundary
  | localStationTimeCount | holdPeriodExpiry => exact .inr rfl
  | _ => exact absurd h Bool.false_ne_true

theorem cause_of_line_written (h : (writtenBy c).contains .line = true) : cause c = .start ∨ cause c = .line := by
  cases c with
  | powerOn | restart => exact .inl rfl
  | lineFree | cellReceived | cellOutcome | claimOutcome | releaseOutcome | depositCellUndelivered
  | fetchOpenUndelivered => exact .inr rfl
  | _ => exact absurd h Bool.false_ne_true

theorem eq_of_received_written (h : (writtenBy c).contains .received = true) :
    cause c = .start ∨ ∃ bytes ending, c = .cellReceived bytes ending := by
  cases c with
  | powerOn | restart => exact .inl rfl
  | cellReceived bytes ending => exact .inr ⟨bytes, ending, rfl⟩
  | _ => exact absurd h Bool.false_ne_true

theorem eq_of_config_written (h : (writtenBy c).contains .config = true) :
    (∃ straps loss, c = .powerOn straps loss) ∨ c = .configure := by
  cases c with
  | powerOn straps loss => exact .inl ⟨straps, loss, rfl⟩
  | configure => exact .inr rfl
  | _ => exact absurd h Bool.false_ne_true

theorem eq_of_clock_written (h : (writtenBy c).contains .clock = true) :
    cause c = .start ∨ c ∈ [.setTime, .minuteClockStep, .localStationTimeCount] ∨ ∃ n, c = .superframeBoundary n := by
  cases c with
  | powerOn | restart => exact .inl rfl
  | setTime | minuteClockStep | localStationTimeCount => exact .inr (.inl (by simp))
  | superframeBoundary n => exact .inr (.inr ⟨n, rfl⟩)
  | _ => exact absurd h Bool.false_ne_true

theorem eq_of_station_written (h : (writtenBy c).contains .station = true) :
    cause c = .start ∨ c ∈ [.configure, .startUpScanEnd] ∨ ∃ w, c = .frameWordVerify w := by
  cases c with
  | powerOn | restart => exact .inl rfl
  | configure | startUpScanEnd => exact .inr (.inl (by simp))
  | frameWordVerify w => exact .inr (.inr ⟨w, rfl⟩)
  | _ => exact absurd h Bool.false_ne_true

theorem eq_of_faults_written (h : (writtenBy c).contains .faults = true) :
    (∃ straps loss, c = .powerOn straps loss) ∨ c = .faultClear := by
  cases c with
  | powerOn straps loss => exact .inl ⟨straps, loss, rfl⟩
  | faultClear => exact .inr rfl
  | _ => exact absurd h Bool.false_ne_true

/-! ### What stands over a command -/

variable {s t : State}

/-- A command leaves alone, from where it begins, what it may not write. -/
theorem stands_of_exec (running : ∀ straps loss, c ≠ .powerOn straps loss) (next : exec c s = .next t) :
    t = s ∨ ∀ p, (writtenBy c).contains p ≠ true → Stands p (origin c s) t := by
  rcases (exec_acts_leaves running).cases with still | ⟨u, leaves, acted⟩
  · exact .inl (Host.Outcome.next.inj (still.symm.trans next)).symm
  · cases acted.symm.trans next
    exact .inr fun p unwritten => leaves.settled p fun written => unwritten (List.elem_iff.mpr written)

/-- The queue of received cells aside, a cell handed over writes no part by leaving it. -/
theorem stands_popCell {p : Part} (h : p ≠ .received) (s : State) : Stands p s (popCell s) := by
  cases p with
  | received => exact absurd rfl h
  | faults => exact List.prefix_refl _
  | line => exact ⟨rfl, rfl, rfl⟩
  | clock => exact ⟨rfl, rfl, rfl, rfl⟩
  | station => exact ⟨rfl, rfl⟩
  | _ => rfl

theorem stands_origin {p : Part} (h : p ≠ .received) (c : Instr) (s : State) : Stands p s (origin c s) := by
  unfold origin
  split
  · exact stands_popCell h s
  · exact (Steady.refl s).stands p

theorem stands_of_unwritten {p : Part} (running : ∀ straps loss, c ≠ .powerOn straps loss) (other : p ≠ .received)
    (unwritten : (writtenBy c).contains p ≠ true) (next : exec c s = .next t) : Stands p s t := by
  rcases stands_of_exec running next with rfl | stands
  · exact (Steady.refl t).stands p
  · exact (stands_origin other c s).trans (stands p unwritten)

/-- R40: a CONFIGURE over an accepted configuration leaves it alone. -/
theorem config_of_locked (locked : s.cfu.config.isSome = true) (next : exec .configure s = .next t) :
    t.cfu.config = s.cfu.config := by
  obtain ⟨g, accepted⟩ := Option.isSome_iff_exists.mp locked
  have kept := (exec_acts_kept (s := s) (c := .configure) fun _ _ e => nomatch e).kept next
  rw [accepted, kept.config g accepted]

/-- R26: what a cell on the wire may add to the receive queue. -/
theorem rx_of_cellReceived {bytes : List Byte} {ending : CellEnd} (next : exec (.cellReceived bytes ending) s = .next t) :
    t.clc.rx = s.clc.rx ∨ ∃ x, t.clc.rx = s.clc.rx ++ [x] := by
  have acted : exec (.cellReceived bytes ending) s = .next (settle (cellArrives bytes ending s)) := rfl
  obtain rfl := Host.Outcome.next.inj (acted.symm.trans next)
  have told : (settle (cellArrives bytes ending s)).clc.rx = (cellArrives bytes ending s).clc.rx :=
    (steady_settle (Steady.refl _)).stands .received
  rw [told]
  exact cellArrives_rx bytes ending s

theorem rx_of_unwritten (running : cause c ≠ .start) (next : exec c s = .next t)
    (other : ∀ bytes ending, c ≠ .cellReceived bytes ending) :
    t.clc.rx = s.clc.rx ∨ t.clc.rx = (origin c s).clc.rx := by
  have unwritten : (writtenBy c).contains .received ≠ true := fun written => by
    rcases eq_of_received_written written with start | ⟨bytes, ending, e⟩
    · exact running start
    · exact other bytes ending e
  rcases stands_of_exec (fun straps loss e => running (by rw [e]; rfl)) next with rfl | stands
  · exact .inl rfl
  · exact .inr (stands .received unwritten)

theorem origin_of_not_received (h : cause c ≠ .received) (s : State) : origin c s = s := if_neg h

/-- Settles O6: each part by the commands that may write it. -/
theorem commandsWriteOnlyTheirRegisters : Obligations.CommandsWriteOnlyTheirRegisters := by
  intro c s t next
  have notPowerOn (running : cause c ≠ .start) : ∀ straps loss, c ≠ .powerOn straps loss :=
    fun straps loss e => running (by rw [e]; rfl)
  refine ⟨?highway, ?line, ⟨?received, ?wire, ?others⟩, ?config, ?clock, ?station, ?faults⟩
  case highway =>
    intro running other
    exact stands_of_unwritten (p := .highway) (notPowerOn running) (by simp)
      (fun written => (cause_of_highway_written written).elim running other) next
  case line =>
    intro running other
    exact stands_of_unwritten (p := .line) (notPowerOn running) (by simp)
      (fun written => (cause_of_line_written written).elim running other) next
  case received =>
    intro received
    rcases rx_of_unwritten (by simp [received]) next (fun _ _ e => by simp [e, cause] at received) with h | h
    · exact .inl h
    · right
      rw [h, origin, if_pos received]
      rfl
  case wire =>
    intro wire
    by_cases cell : ∃ bytes ending, c = .cellReceived bytes ending
    · obtain ⟨bytes, ending, rfl⟩ := cell
      rcases rx_of_cellReceived next with h | ⟨x, h⟩
      · exact .inl h
      · exact .inr ⟨x, bytes, ending, rfl, h⟩
    · have h := rx_of_unwritten (by simp [wire]) next fun bytes ending e => cell ⟨bytes, ending, e⟩
      rw [origin_of_not_received (by simp [wire])] at h
      exact .inl (h.elim id id)
  case others =>
    intro which
    have running : cause c ≠ .start := by rcases which with e | e <;> simp [e]
    have notReceived : cause c ≠ .received := by rcases which with e | e <;> simp [e]
    have h := rx_of_unwritten running next fun _ _ e => by simp [e, cause] at which
    rw [origin_of_not_received notReceived] at h
    exact h.elim id id
  case config =>
    intro running accepted
    by_cases configure : c = .configure
    · subst configure
      exact config_of_locked (accepted.resolve_left fun h => h rfl) next
    · refine stands_of_unwritten (p := .config) running (by simp) (fun written => ?_) next
      exact (eq_of_config_written written).elim (fun ⟨straps, loss, e⟩ => running straps loss e) configure
  case clock =>
    intro running other boundary
    refine stands_of_unwritten (p := .clock) (notPowerOn running) (by simp) (fun written => ?_) next
    rcases eq_of_clock_written written with start | clock | ⟨n, e⟩
    · exact running start
    · exact other clock
    · exact boundary n e
  case station =>
    intro running other verify
    refine stands_of_unwritten (p := .station) (notPowerOn running) (by simp) (fun written => ?_) next
    rcases eq_of_station_written written with start | station | ⟨w, e⟩
    · exact running start
    · exact other station
    · exact verify w e
  case faults =>
    intro running other
    refine stands_of_unwritten (p := .faults) running (by simp) (fun written => ?_) next
    exact (eq_of_faults_written written).elim (fun ⟨straps, loss, e⟩ => running straps loss e) other

end

end Sys2Proof.Machine
end

section
/-! PROOFS. The family of the highway: the windows of VERIFY and of ALIGNED, the entry to ALIGNED, and the loss of alignment
with its hold (R1, R6, R7, R8, R12, R16, R17, R18). -/
namespace Sys2Proof.Machine

/-- A quiet effect is the next state as it stands. -/
theorem next_settle {t u : State} (q : t.Quiet) (e : t = u) :
    (.next (settle t) : Host.Outcome State Fault Refusal) = .next u := by rw [settle_quiet q, e]

/-! ### Frame words (R1, R6, R7) -/

/-- R1: the frame word of number f reads 32 f + 22. -/
theorem isFrameWord_iff (w : Byte) (f : Fin 8) : isFrameWord w f = true ↔ w.toNat = 32 * f.val + 22 := by
  have number : frameNumber w = f ↔ w.toNat / 32 = f.val := by rw [← Fin.val_inj, frameNumber_val]
  rw [isFrameWord, Bool.and_eq_true, beq_iff_eq, hasAlignCode_iff, number]
  omega

/-- R4: the counter after a frame word, by the place of the word. -/
theorem afterWindow_frameWordPlace (p : Nat) (f : Fin 8) :
    afterWindow (frameWordPlace p f) = (p + 272 * f.val + 256 + 8) % 2176 := by
  rw [afterWindow, frameWordPlace]
  omega

theorem exec_frameWordVerify_of_verify {s : State} {p n : Nat} {f : Fin 8} (w : Byte)
    (place : s.hwi.align = .verify p n f) :
    exec (.frameWordVerify w) s = .next (settle (verifyWindow p n f w s)) := by
  change execFrameWordVerify w s = _
  simp only [execFrameWordVerify, place, act, whenDue, if_true]

theorem exec_frameWordAligned_of_aligned {s : State} {p : Nat} (f : Fin 8) (w : Byte)
    (place : s.hwi.align = .aligned p) :
    exec (.frameWordAligned f w) s = .next (settle (alignedWindow p f w s)) := by
  change execFrameWordAligned f w s = _
  simp only [execFrameWordAligned, place, act, whenDue, if_true]

theorem verifyWindow_of_good {s : State} {p n : Nat} {f : Fin 8} {w : Byte} (good : w.toNat = 32 * f.val + 22)
    (below : n + 1 < 3) : verifyWindow p n f w s = s.modHwi fun h => { h with
      bitCounter := (p + 272 * f.val + 256 + 8) % 2176, align := .verify p (n + 1) (f + 1) } := by
  simp only [verifyWindow, verifyPlace, (isFrameWord_iff w f).mpr good, below, if_true, afterWindow_frameWordPlace]
  rfl

theorem verifyWindow_of_third {s : State} {p n : Nat} {f : Fin 8} {w : Byte} (good : w.toNat = 32 * f.val + 22)
    (third : 3 ≤ n + 1) : verifyWindow p n f w s =
      enterAligned p (s.modHwi fun h => { h with bitCounter := (p + 272 * f.val + 256 + 8) % 2176 }) := by
  have notBelow : ¬ n + 1 < 3 := by omega
  simp only [verifyWindow, verifyPlace, (isFrameWord_iff w f).mpr good, if_neg notBelow, if_true,
    afterWindow_frameWordPlace]

theorem verifyWindow_of_bad {s : State} {p n : Nat} {f : Fin 8} {w : Byte} (bad : w.toNat ≠ 32 * f.val + 22) :
    verifyWindow p n f w s = s.modHwi fun h => { h with
      bitCounter := (p + 272 * f.val + 256 + 8) % 2176, align := .search } := by
  have other : ¬ isFrameWord w f = true := mt (isFrameWord_iff w f).mp bad
  simp only [verifyWindow, verifyPlace, if_neg other, afterWindow_frameWordPlace]
  rfl

theorem alignedWindow_of_good {s : State} {p : Nat} {f : Fin 8} {w : Byte} (good : w.toNat = 32 * f.val + 22) :
    alignedWindow p f w s = s.modHwi fun h => { h with
      bitCounter := (p + 272 * f.val + 256 + 8) % 2176, errors := 0 } := by
  simp only [alignedWindow, (isFrameWord_iff w f).mpr good, if_true, afterWindow_frameWordPlace]
  rfl

theorem alignedWindow_of_bad {s : State} {p : Nat} {f : Fin 8} {w : Byte} (bad : w.toNat ≠ 32 * f.val + 22)
    (below : s.hwi.errors + 1 < 4) : alignedWindow p f w s = s.modHwi fun h => { h with
      bitCounter := (p + 272 * f.val + 256 + 8) % 2176, errors := h.errors + 1 } := by
  have other : ¬ isFrameWord w f = true := mt (isFrameWord_iff w f).mp bad
  simp only [alignedWindow, if_neg other, below, if_true, afterWindow_frameWordPlace]
  rfl

theorem alignedWindow_of_fourth {s : State} {p : Nat} {f : Fin 8} {w : Byte} (bad : w.toNat ≠ 32 * f.val + 22)
    (fourth : 4 ≤ s.hwi.errors + 1) : alignedWindow p f w s = loseAlignment (s.modHwi fun h => { h with
      bitCounter := (p + 272 * f.val + 256 + 8) % 2176, align := .search, errors := 4 }) := by
  have other : ¬ isFrameWord w f = true := mt (isFrameWord_iff w f).mp bad
  have notBelow : ¬ s.hwi.errors + 1 < 4 := by omega
  simp only [alignedWindow, if_neg other, if_neg notBelow, afterWindow_frameWordPlace]
  rfl

/-- Settles O12: each window by whether it is the frame word looked for. -/
theorem frameWordsAreCounted : Obligations.FrameWordsAreCounted := by
  intro w s q
  refine ⟨fun p n f place => ⟨fun good below => ?_, fun bad => ?_⟩,
    fun p f place => ⟨fun good => ?_, fun bad below => ?_⟩⟩
  · rw [exec_frameWordVerify_of_verify w place, verifyWindow_of_good good below]
    exact next_settle q rfl
  · rw [exec_frameWordVerify_of_verify w place, verifyWindow_of_bad bad]
    exact next_settle q rfl
  · rw [exec_frameWordAligned_of_aligned f w place, alignedWindow_of_good good]
    exact next_settle q rfl
  · rw [exec_frameWordAligned_of_aligned f w place, alignedWindow_of_bad bad below]
    exact next_settle q rfl

end Sys2Proof.Machine
end

section
/-! PROOFS. The family of the control line: the transmit queue, a free line, the cells received, and the cells that no
block takes (R21 to R29); and the minute clock (R44). -/
namespace Sys2Proof.Machine

/-! ### The transmit queue (R28, R29, R48) -/

theorem insertByPriority_of_sorted (x : TxCell) {q : List TxCell}
    (sorted : q.Pairwise fun a b => a.cell.prio ≤ b.cell.prio) :
    insertByPriority x q = q.filter (fun y => decide (y.cell.prio ≤ x.cell.prio)) ++
      x :: q.filter (fun y => decide (x.cell.prio < y.cell.prio)) := by
  induction q with
  | nil => rfl
  | cons y ys ih =>
    obtain ⟨head, tail⟩ := List.pairwise_cons.mp sorted
    unfold insertByPriority
    split
    · next before =>
      have notBehind : ¬ x.cell.prio < y.cell.prio := by bv_omega
      simp [before, notBehind, ih tail]
    · next behind =>
      have above (z : TxCell) (m : z ∈ ys) : x.cell.prio < z.cell.prio := by
        have := head z m
        bv_omega
      have first : x.cell.prio < y.cell.prio := by bv_omega
      have none_before : ys.filter (fun z => decide (z.cell.prio ≤ x.cell.prio)) = [] := by
        simp only [List.filter_eq_nil_iff, decide_eq_true_eq]
        intro z m le
        have := above z m
        bv_omega
      have all_behind : ys.filter (fun z => decide (x.cell.prio < z.cell.prio)) = ys := by
        simp only [List.filter_eq_self, decide_eq_true_eq]
        exact above
      simp [behind, first, none_before, all_behind]

theorem insertByPriority_sorted (x : TxCell) {q : List TxCell}
    (sorted : q.Pairwise fun a b => a.cell.prio ≤ b.cell.prio) :
    (insertByPriority x q).Pairwise fun a b => a.cell.prio ≤ b.cell.prio := by
  induction q with
  | nil => simp [insertByPriority]
  | cons y ys ih =>
    obtain ⟨head, tail⟩ := List.pairwise_cons.mp sorted
    unfold insertByPriority
    split
    · next before =>
      refine List.pairwise_cons.mpr ⟨fun z m => ?_, ih tail⟩
      rcases (mem_insertByPriority x z ys).mp m with rfl | m
      · exact before
      · exact head z m
    · next behind =>
      refine List.pairwise_cons.mpr ⟨fun z m => ?_, sorted⟩
      rcases List.mem_cons.mp m with rfl | m
      · bv_omega
      · have := head z m
        bv_omega

theorem isStreamKind_iff (kind : Byte) : isStreamKind kind = true ↔ kind ∈ [kindDepositData, kindFetchData, kindDataRx] := by
  simp [isStreamKind, or_assoc]

theorem sameClaim_iff (a b : Cell) : sameClaim a b = true ↔
    a.kind = kindClaim ∧ b.kind = kindClaim ∧ byteAt a.payload 0 = byteAt b.payload 0 := by
  simp [sameClaim, and_assoc]

theorem queueTakes_iff (q : List TxCell) (c : Cell) : queueTakes q c = true ↔ q.length < 24
    ∧ (c.kind ∈ [kindDepositData, kindFetchData, kindDataRx] → (q.filter fun x => isStreamKind x.cell.kind).length < 16)
    ∧ (c.kind = kindClaim → ∀ x ∈ q, x.cell.kind = kindClaim → byteAt x.cell.payload 0 ≠ byteAt c.payload 0) := by
  have stream : (!isStreamKind c.kind || decide ((q.filter fun x => isStreamKind x.cell.kind).length < 16)) = true ↔
      (c.kind ∈ [kindDepositData, kindFetchData, kindDataRx] →
        (q.filter fun x => isStreamKind x.cell.kind).length < 16) := by
    rw [← isStreamKind_iff, Bool.or_eq_true, Bool.not_eq_true', decide_eq_true_eq]
    cases isStreamKind c.kind <;> simp
  have claim : (!(c.kind == kindClaim) || !(q.any fun x => sameClaim x.cell c)) = true ↔
      (c.kind = kindClaim → ∀ x ∈ q, x.cell.kind = kindClaim → byteAt x.cell.payload 0 ≠ byteAt c.payload 0) := by
    by_cases isClaim : c.kind = kindClaim
    · simp only [isClaim, beq_self_eq_true, Bool.not_true, Bool.false_or, Bool.not_eq_true', List.any_eq_false, sameClaim_iff,
        true_and, not_and, true_implies]
    · simp [isClaim]
  rw [queueTakes, Bool.and_eq_true, Bool.and_eq_true, stream, claim, decide_eq_true_eq, and_assoc]

/-- The EVENT cell of this station. -/
abbrev eventCell (s : State) (k : Option ContextId) (e : Event) : Cell :=
  ownCell s e.level gateway kindEvent (contextTag k) e.payload

theorem queueTakes_eventCell (q : List TxCell) (s : State) (k : Option ContextId) (e : Event) :
    queueTakes q (eventCell s k e) = decide (q.length < 24) :=
  queueTakes_of_plain_kind q (by decide : isStreamKind kindEvent = false) (by decide : kindEvent ≠ kindClaim)

/-- R29, R35, R48: an event joins a queue of fewer than 24 cells, and is counted as lost otherwise. -/
theorem sendEvent_eq (s : State) (k : Option ContextId) (e : Event) : sendEvent k e s =
    if s.clc.tx.length < 24
      then { s with clc := { s.clc with tx := insertByPriority (freshTx (eventCell s k e) 0) s.clc.tx } }
      else { s with cfu := { s.cfu with lostReports := min 255 (s.cfu.lostReports + 1) } } := by
  simp only [sendEvent, offerReport, queueTakes_eventCell, decide_eq_true_eq]
  rfl

/-- Settles O22: the queue's three limits, the place of a new cell by induction on the queue, and a report refused. -/
theorem queueKeepsPriorityThenAge : Obligations.QueueKeepsPriorityThenAge :=
  ⟨fun x _ sorted => ⟨insertByPriority_of_sorted x sorted, insertByPriority_sorted x sorted⟩, queueTakes_iff, sendEvent_eq⟩

/-! ### A free line (R23, R24) -/

theorem inTransmission_of_none_sending {s : State} (idle : ∀ x ∈ s.clc.tx, x.sending = false) : inTransmission s = none := by
  simp only [inTransmission, List.find?_eq_none]
  intro x m
  simp [idle x m]

theorem exec_lineFree_of_idle {s : State} (others : List Byte) (idle : ∀ x ∈ s.clc.tx, x.sending = false) :
    exec (.lineFree others) s = .next (settle (lineFalls others s)) := by
  change execLineFree others s = _
  simp only [execLineFree, inTransmission_of_none_sending idle, Option.isNone_none, act, whenDue, if_true]

/-- The station while its head cell is on the line. -/
abbrev headSent (x : TxCell) (rest : List TxCell) (s : State) : State :=
  { s with clc := { s.clc with line := .busy, run := 0, tx := { x with sending := true } :: rest } }

theorem lineFalls_of_head {s : State} {x : TxCell} {rest : List TxCell} (others : List Byte) (head : s.clc.tx = x :: rest) :
    lineFalls others s = if others.any (fun b => b < arbitrationByte x.cell) then arbitrationLost (headSent x rest s)
      else headSent x rest s := by
  simp only [lineFalls, head]
  rfl

theorem lineFalls_of_empty {s : State} (others : List Byte) (empty : s.clc.tx = []) : lineFalls others s =
    s.modClc fun l => { l with line := if others = [] then .free else .busy, run := if others = [] then 12 else 0 } := by
  simp only [lineFalls, empty]
  by_cases alone : others = [] <;> simp only [alone, if_true, if_false]

/-- R24: a cell that has lost arbitration stays where it is, unless a restart left it or a withdrawal waits for it. -/
theorem arbitrationLost_stays {s : State} {x : TxCell} (sent : inTransmission s = some x) (orphan : x.orphan = false)
    (standing : x.cell.kind ≠ kindClaim ∨ ∀ k d, s.bid k = some d → d.withdrawal = none) :
    arbitrationLost s = s.modClc fun l => { l with tx := l.tx.map fun y => { y with sending := false } } := by
  simp only [arbitrationLost, sent, orphan, Bool.false_eq_true, if_false]
  split
  · rfl
  · next k claimer =>
    split
    · rfl
    · next b bid =>
      rcases standing with other | none_waits
      · simp [other] at claimer
      · rw [none_waits k b bid]

theorem map_sending_false {q : List TxCell} (idle : ∀ x ∈ q, x.sending = false) :
    (q.map fun y => { y with sending := false }) = q := by
  refine (List.map_congr_left fun y m => ?_).trans (List.map_id q)
  rw [← idle y m, id_eq]

/-- Settles O19: an empty queue, a head that wins, and a head that loses arbitration. -/
theorem freeLineStartsTheHead : Obligations.FreeLineStartsTheHead := by
  intro others s q idle
  refine ⟨fun empty => ?empty, fun x rest head wins => ?wins, fun x rest b head other lower orphan standing => ?loses⟩ <;>
    rw [exec_lineFree_of_idle others idle]
  case empty => rw [lineFalls_of_empty others empty]; exact next_settle q rfl
  case wins =>
    have none_lower : others.any (fun b => b < arbitrationByte x.cell) = false := by simpa using wins
    rw [lineFalls_of_head others head, none_lower]
    exact next_settle q rfl
  case loses =>
    have some_lower : others.any (fun b => b < arbitrationByte x.cell) = true :=
      List.any_eq_true.mpr ⟨b, other, decide_eq_true lower⟩
    have sent : inTransmission (headSent x rest s) = some { x with sending := true } := rfl
    rw [lineFalls_of_head others head, some_lower, if_pos rfl, arbitrationLost_stays sent orphan standing]
    refine next_settle q (State.eq_of_blocks rfl ?_ rfl rfl rfl rfl rfl rfl rfl)
    have idle' := idle
    rw [head] at idle'
    have same := map_sending_false idle'
    simp only [modClc_clc, List.map_cons] at same ⊢
    rw [same, head]

/-! ### Cells received (R21, R22, R23, R25, R26) -/

/-- The bytes of a cell on the wire with a check, its own or another. -/
abbrev wireCell (c : Cell) (check : BitVec 16) : List Byte := cellBytes c ++ be2 check.toNat

theorem length_cellBytes (c : Cell) : (cellBytes c).length = 5 + c.payload.length := by
  simp [cellBytes]
  omega

theorem ofBytes_be2 (x : BitVec 16) : ofBytes (be2 x.toNat) = x.toNat := by
  simp only [ofBytes, be2, List.foldl_cons, List.foldl_nil, BitVec.toNat_ofNat]
  have := x.isLt
  omega

/-- R25: what a reader takes from the header of a cell that this model writes. -/
theorem header_of_wireCell (c : Cell) (check : BitVec 16) (short : c.payload.length ≤ 72) :
    (byteAt (wireCell c check) 0 = arbitrationByte c ∧ byteAt (wireCell c check) 1 = c.dst ++ (0 : BitVec 4))
      ∧ (byteAt (wireCell c check) 2 = c.kind ∧ byteAt (wireCell c check) 3 = c.tag)
      ∧ (byteAt (wireCell c check) 4).toNat = c.payload.length := by
  refine ⟨⟨rfl, rfl⟩, ⟨rfl, rfl⟩, ?_⟩
  change (BitVec.ofNat 8 c.payload.length).toNat = _
  rw [BitVec.toNat_ofNat]
  omega

theorem arbitrationByte_fields (c : Cell) : (arbitrationByte c).getLsbD 0 = false
    ∧ (arbitrationByte c).extractLsb' 5 3 = c.prio ∧ (arbitrationByte c).extractLsb' 1 4 = c.src := by
  have fields : ∀ (prio : BitVec 3) (src : BitVec 4), (prio ++ src ++ (0 : BitVec 1)).getLsbD 0 = false
      ∧ (prio ++ src ++ (0 : BitVec 1)).extractLsb' 5 3 = prio
      ∧ (prio ++ src ++ (0 : BitVec 1)).extractLsb' 1 4 = src := by decide
  exact fields c.prio c.src

theorem addressByte_field (dst : BitVec 4) : (dst ++ (0 : BitVec 4)).extractLsb' 4 4 = dst := by
  revert dst
  decide

theorem readCell_wireCell (c : Cell) (check : BitVec 16) (short : c.payload.length ≤ 72) :
    readCell (wireCell c check) false = if check = cellCheck c then .good c else .badCheck := by
  obtain ⟨⟨first, dst⟩, ⟨kind, tag⟩, count⟩ := header_of_wireCell c check short
  obtain ⟨low, prio, src⟩ := arbitrationByte_fields c
  have size : (wireCell c check).length = c.payload.length + 7 := by
    simp [wireCell, length_cellBytes, be2]
    omega
  have body : (wireCell c check).take (5 + c.payload.length) = cellBytes c := by
    rw [← length_cellBytes c]; exact List.take_left
  have carried : field (wireCell c check) (5 + c.payload.length) 2 = check.toNat := by
    rw [field, ← length_cellBytes c, wireCell, List.drop_left]
    exact ofBytes_be2 check
  have payload : ((wireCell c check).drop 5).take c.payload.length = c.payload := by
    simp [wireCell, cellBytes]
  have same : (cellCheck c).toNat = check.toNat ↔ check = cellCheck c :=
    ⟨fun e => (BitVec.eq_of_toNat_eq e).symm, fun e => e ▸ rfl⟩
  have notLong : ¬ 72 < c.payload.length := by omega
  simp only [readCell, count, first, dst, kind, tag, low, prio, src, size, body, carried, payload, notLong, addressByte_field]
  by_cases ok : check = cellCheck c
  · simp [ok, cellCheck]
  · have differs : ((crc16 (cellBytes c)).toNat != check.toNat) = true := bne_iff_ne.mpr (mt same.mp ok)
    simp [ok, differs]

theorem readCell_of_guardError (bytes : List Byte) : readCell bytes true = .framing := by
  simp only [readCell, Bool.true_or, if_true]

/-- Settles O20: the reader's fields of a cell's bytes, and its check against the one carried. -/
theorem wireCellReadsBack : Obligations.WireCellReadsBack := by
  intro c short
  refine ⟨?_, fun x other => ?_, readCell_of_guardError⟩
  · rw [readCell_wireCell c _ short, if_pos rfl]
  · rw [readCell_wireCell c _ short, if_neg other]

theorem arbitrationLost_of_none_sending {s : State} (idle : inTransmission s = none) : arbitrationLost s = s := by
  simp only [arbitrationLost, idle]

theorem cellArrives_of_idle {s : State} (bytes : List Byte) (e : CellEnd) (idle : inTransmission s = none) :
    cellArrives bytes e s = if s.clc.line = .joining then s.modClc fun l => { l with run := runOf e.acknowledged }
      else receiveCell bytes e s := by
  simp only [cellArrives, outbids, idle, arbitrationLost_of_none_sending idle, if_true]

theorem accepts_iff (s : State) (c : Cell) :
    accepts s c = true ↔ (c.dst = ownAddress s ∨ c.dst = allStations) ∧ s.clc.rx.length < 16 := by
  simp [accepts]

theorem exec_cellReceived (bytes : List Byte) (e : CellEnd) (s : State) :
    exec (.cellReceived bytes e) s = .next (settle (cellArrives bytes e s)) := by
  change execCellReceived bytes e s = _
  simp only [execCellReceived, act, whenDue, if_true]

/-- Settles O21: the reading of the bytes and the acceptance of the cell; in JOINING, arbitration alone. -/
theorem receivedCellsAreJudged : Obligations.ReceivedCellsAreJudged := by
  intro c s ack q short wire good bad run counted
  refine ⟨fun line none_sending => ?taken, fun joining none_sending bytes e => ?joining,
    fun x bytes e joining sent orphan => ⟨fun lower => ?lower, fun notLower => ?notLower⟩⟩
  case taken =>
    have idle := inTransmission_of_none_sending none_sending
    have received (bytes : List Byte) (e : CellEnd) :
        exec (.cellReceived bytes e) s = .next (settle (receiveCell bytes e s)) := by
      rw [exec_cellReceived, cellArrives_of_idle bytes e idle, if_neg line]
    have reads_good : readCell (wire (cellCheck c)) good.guardError = .good c := by
      rw [readCell_wireCell c _ short, if_pos rfl]
    refine ⟨fun ours room => ?_, fun refused => ?_, fun x other => ?_, fun bytes => ?_⟩ <;> rw [received]
    · have ok : accepts s c = true := (accepts_iff s c).mpr ⟨ours, room⟩
      simp only [receiveCell, reads_good, ok, if_true]
      exact next_settle q rfl
    · have notOk : ¬ accepts s c = true := by
        rw [accepts_iff]
        rintro ⟨ours, room⟩
        rcases refused with ⟨notOwn, notAll⟩ | full
        · exact ours.elim notOwn notAll
        · omega
      simp only [receiveCell, reads_good, if_neg notOk]
      exact next_settle q rfl
    · have reads_bad : readCell (wire x) good.guardError = .badCheck := by
        rw [readCell_wireCell c _ short, if_neg other]
      simp only [receiveCell, reads_bad]
      exact next_settle q rfl
    · have reads_framing : readCell bytes bad.guardError = .framing := readCell_of_guardError bytes
      simp only [receiveCell, reads_framing]
      exact next_settle q rfl
  case joining =>
    rw [exec_cellReceived, cellArrives_of_idle bytes e (inTransmission_of_none_sending none_sending), if_pos joining]
    exact next_settle q rfl
  case lower =>
    have outbid : outbids bytes s = true := by simp [outbids, sent, lower]
    have removed : arbitrationLost s = removeSending s := by simp only [arbitrationLost, sent, orphan, if_true]
    have stillJoining : (removeSending s).clc.line = .joining := joining
    rw [exec_cellReceived]
    simp only [cellArrives, outbid, removed, stillJoining, if_true]
    exact next_settle q rfl
  case notLower =>
    have kept : outbids bytes s = false := by simp [outbids, sent, notLower]
    rw [exec_cellReceived]
    simp only [cellArrives, kept, Bool.false_eq_true, if_false]
    exact next_settle q rfl

/-! ### Cells that no block takes (R27, R33) -/

theorem sendAnswer_quiet (c : Cell) (result : Byte) {s : State} (q : s.Quiet) : (sendAnswer c result s).Quiet := by
  rw [State.Quiet, sendAnswer_rau]
  exact q

theorem handOver_of_head {s : State} {c : Cell} {due : Cell → Bool} {effect : Cell → State → State}
    (head : s.clc.rx.head? = some c) (d : due c = true) (q : (effect c (popCell s)).Quiet) :
    handOver due effect s = .next (effect c (popCell s)) := by
  obtain ⟨rest, rx⟩ := List.head?_eq_some_iff.mp head
  simp only [handOver, rx]
  exact act_of_due s d q

theorem requestOwner_of_stranger {c : Cell} (owner : Cell → State → State) (s : State) (src : c.src ≠ gateway) :
    requestOwner owner c s = s := by
  simp [requestOwner, src]

/-- Settles O25: each of the three owners leaves the state as it stands. -/
theorem discardedCellsOnlyLeaveTheQueue : Obligations.DiscardedCellsOnlyLeaveTheQueue := by
  intro s c q head popped
  refine ⟨fun p peer => ?_, fun unowned => ?_, fun owner src => ?_⟩
  · exact handPeer_of_fromPeer (owner := fun _ _ t => t) peer q
  · exact handOver_of_head (effect := fun _ t => t) head (by simpa using unowned) q
  · have same := requestOwner_of_stranger owner (popCell s) src
    refine (handOver_of_head head (beq_self_eq_true c.kind) ?_).trans (congrArg _ same)
    rw [same]
    exact q

/-! ### The minute clock (R44) -/

theorem minute_succ (m : BitVec 24) : (m + 1).toNat = (m.toNat + 1) % 16777216 := by
  simp [BitVec.toNat_add]

/-- Settles O28: SET_TIME reaches `setClock`, and the step is due at 60000 and not below. -/
theorem clockIsSetAndSteps : Obligations.ClockIsSetAndSteps := by
  intro s q
  refine ⟨fun c asked => ?_, fun due => ⟨s.cfu.minute + 1, minute_succ s.cfu.minute, ?_⟩, fun early => ?_⟩
  · exact handRequest_of_asked asked (sendAnswer_quiet c codeOk q)
  · change execMinuteClockStep s = _
    refine act_of_due s (decide_eq_true due) ?_
    exact q
  · change execMinuteClockStep s = _
    rw [execMinuteClockStep, act_of_not_due _ s (decide_eq_false (by omega))]

end Sys2Proof.Machine
end

section
/-! PROOFS. The family of the gateway's requests to the station: the status queries, the first checks of the requests, the
mailboxes and the marks (R39, R45, R109, R117, R136, R141). -/
namespace Sys2Proof.Machine

/-! ### Status queries (R45) -/

theorem offerReport_quiet (c : Cell) {s : State} (q : s.Quiet) : (offerReport c s).Quiet := by
  rw [State.Quiet, offerReport_rau]
  exact q

theorem handQuery_of_selector {s : State} {c : Cell} {selector : Nat} {owner : Cell → State → State}
    (asked : Asked s c kindStatusQuery) (sel : field c.payload 0 1 = selector) (known : selector ≤ 5)
    (q : (owner c (popCell s)).Quiet) : handQuery selector owner s = .next (owner c (popCell s)) := by
  have notAbove : ¬ 5 < field c.payload 0 1 := by omega
  have reached : requestOwner (fun c s => if 5 < field c.payload 0 1 then sendAnswer c codeBadField s else owner c s) c
      (popCell s) = owner c (popCell s) :=
    (requestOwner_of_asked _ (popCell s) asked).trans (if_neg notAbove)
  obtain ⟨⟨head, kind, _⟩, _⟩ := asked
  refine (handOver_of_head head ?due ?quiet).trans (congrArg _ reached)
  case due => simp [kind, sel]
  case quiet => rw [reached]; exact q

theorem handQuery_of_above {s : State} {c : Cell} (selector : Nat) (owner : Cell → State → State) (q : s.Quiet)
    (asked : Asked s c kindStatusQuery) (above : 5 < field c.payload 0 1) :
    handQuery selector owner s = .next (sendAnswer c codeBadField (popCell s)) := by
  have reached : requestOwner (fun c s => if 5 < field c.payload 0 1 then sendAnswer c codeBadField s else owner c s) c
      (popCell s) = sendAnswer c codeBadField (popCell s) :=
    (requestOwner_of_asked _ (popCell s) asked).trans (if_pos above)
  obtain ⟨⟨head, kind, _⟩, _⟩ := asked
  refine (handOver_of_head head ?due ?quiet).trans (congrArg _ reached)
  case due => simp [kind, above]
  case quiet => rw [reached]; exact sendAnswer_quiet c codeBadField q

theorem contextOf_val (k : ContextId) : contextOf k.val = some k := dif_pos k.isLt

theorem contextOf_of_above {n : Nat} (h : 3 < n) : contextOf n = none := dif_neg (by omega)

theorem queryContext_of_context {c : Cell} {k : ContextId} (number : field c.payload 1 2 = k.val) (s : State) :
    queryContext c s = sendStatus c 1 (some k.val) (contextContents (s.at k)) s := by
  simp only [queryContext, number, contextOf_val]

theorem queryContext_of_above {c : Cell} (above : 3 < field c.payload 1 2) (s : State) :
    queryContext c s = sendAbsent c 1 8 s := by
  simp only [queryContext, contextOf_of_above above]

theorem contextContents_eq (x : Context) : contextContents x = be1 x.state.code ++ boolByte x.held
    ++ beOpt1 (x.channel.map (·.val)) ++ be1 x.session.code
    ++ (if x.session = .fax ∨ x.session = .data then [0xFF] else be1 x.voice.activity.code) := by
  simp [contextContents]

theorem isReady_iff (s : State) : isReady s = true ↔ s.msc.state = .ready := by simp [isReady]

theorem isReady_eq_false_iff (s : State) : isReady s = false ↔ s.msc.state = .scanning := by
  cases state : s.msc.state <;> simp [isReady, state]

theorem queryMailbox_of_record {c : Cell} {s : State} {b : Mbx} (ready : s.msc.state = .ready)
    (record : mailbox? s (field c.payload 1 2) = some b) :
    queryMailbox c s = sendStatus c 3 (some (field c.payload 1 2)) (mailboxContents b) s := by
  simp only [queryMailbox, (isReady_iff s).mpr ready, if_true, record]

theorem queryMailbox_of_absent {c : Cell} {s : State}
    (absent : s.msc.state = .scanning ∨ mailbox? s (field c.payload 1 2) = none) :
    queryMailbox c s = sendAbsent c 3 8 s := by
  have nothing : (if isReady s then mailbox? s (field c.payload 1 2) else none) = none := by
    rcases absent with scanning | none_there
    · simp [(isReady_eq_false_iff s).mpr scanning]
    · simp [none_there]
  simp only [queryMailbox, nothing]

theorem queryMessage_of_record {c : Cell} {s : State} {m : Msg} (ready : s.msc.state = .ready)
    (record : s.msgAt (field c.payload 1 2) = some m) :
    queryMessage c s = sendStatus c 4 (some (field c.payload 1 2)) (messageContents s m) s := by
  simp only [queryMessage, (isReady_iff s).mpr ready, if_true, record]

theorem queryMessage_of_absent {c : Cell} {s : State}
    (absent : s.msc.state = .scanning ∨ s.msgAt (field c.payload 1 2) = none) :
    queryMessage c s = sendAbsent c 4 20 s := by
  have nothing : (if isReady s then s.msgAt (field c.payload 1 2) else none) = none := by
    rcases absent with scanning | none_there
    · simp [(isReady_eq_false_iff s).mpr scanning]
    · simp [none_there]
  simp only [queryMessage, nothing]

theorem stationContents_eq (s : State) : stationContents s =
    be1 s.cfu.station.val ++ be1 s.cfu.storeSize.val ++ be1 s.cfu.state.code ++ boolByte s.cfu.config.isSome
      ++ beOpt1 (s.cfu.config.map (·.groupSize)) ++ be1 s.hwi.align.code ++ boolByte (isReady s)
      ++ (if isReady s then be2 s.msc.freeList.length else [0xFF, 0xFF]) ++ be2 s.clc.badCheck
      ++ be2 s.clc.undelivered ++ be1 s.cfu.lostReports ++ be1 s.cfu.faults.length ++ be1 s.cfu.overflow
      ++ be3 s.cfu.minute.toNat ++ boolByte s.cfu.clockSet := by
  have free : beOpt2 (if isReady s then some (freeCount s) else none)
      = if isReady s then be2 s.msc.freeList.length else [0xFF, 0xFF] := by
    cases isReady s <;> rfl
  rw [stationContents, free]

theorem messageContents_eq (s : State) (m : Msg) : messageContents s m =
    be1 m.state.code ++ be1 m.kind.code ++ be2 m.mailbox ++ be2 m.count ++ be3 m.length
      ++ beOpt2 (if m.kind = .fax ∧ m.state = .opened then some m.pageMark else none) ++ be1 m.flags
      ++ beOpt3 (m.stamp.map (·.toNat)) ++ beOpt1 (m.writer.map (writerByte s)) ++ be1 m.readers.length := by
  simp [messageContents]

/-- Settles O29: the selector's owner is reached, and its contents are those of the object named. -/
theorem statusQueriesReplyTheState : Obligations.StatusQueriesReplyTheState := by
  intro s c q asked number bool reply
  have replied (cell : Cell) : (offerReport cell (popCell s)).Quiet := offerReport_quiet cell q
  refine ⟨fun sel => ?station, fun sel => ⟨fun k context => ?context, fun above => ?noContext⟩, fun sel => ?map,
    fun sel => ⟨fun b ready record => ?mailbox, fun absent => ?noMailbox⟩,
    fun sel => ⟨fun m ready record => ?message, fun absent => ?noMessage⟩, fun sel => ?faults, fun above => ?above⟩
  case station =>
    refine (handQuery_of_selector (owner := queryStation) asked sel (by decide) (replied _)).trans ?_
    rw [queryStation, sendStatus, stationContents_eq]
    rfl
  case context =>
    have e := queryContext_of_context context (popCell s)
    refine (handQuery_of_selector (owner := queryContext) asked sel (by decide) (by rw [e]; exact replied _)).trans ?_
    rw [e, contextContents_eq, ← context]
    rfl
  case noContext =>
    have e := queryContext_of_above above (popCell s)
    refine (handQuery_of_selector (owner := queryContext) asked sel (by decide) (by rw [e]; exact replied _)).trans ?_
    rw [e]
    rfl
  case map => exact handQuery_of_selector (owner := queryMap) asked sel (by decide) (replied _)
  case mailbox =>
    have e := queryMailbox_of_record (c := c) (s := popCell s) ready record
    refine (handQuery_of_selector (owner := queryMailbox) asked sel (by decide) (by rw [e]; exact replied _)).trans ?_
    rw [e]
    rfl
  case noMailbox =>
    have e := queryMailbox_of_absent (c := c) (s := popCell s) absent
    refine (handQuery_of_selector (owner := queryMailbox) asked sel (by decide) (by rw [e]; exact replied _)).trans ?_
    rw [e]
    rfl
  case message =>
    have e := queryMessage_of_record (c := c) (s := popCell s) ready record
    refine (handQuery_of_selector (owner := queryMessage) asked sel (by decide) (by rw [e]; exact replied _)).trans ?_
    rw [e, messageContents_eq]
    rfl
  case noMessage =>
    have e := queryMessage_of_absent (c := c) (s := popCell s) absent
    refine (handQuery_of_selector (owner := queryMessage) asked sel (by decide) (by rw [e]; exact replied _)).trans ?_
    rw [e]
    rfl
  case faults => exact handQuery_of_selector (owner := queryFaults) asked sel (by decide) (replied _)
  case above =>
    intro i m
    simp only [List.mem_cons, List.not_mem_nil, or_false] at m
    rcases m with rfl | rfl | rfl | rfl | rfl | rfl <;> exact handQuery_of_above _ _ q asked above

/-! ### The first checks of the requests (R39, R141) -/

theorem handRequest_eq {s t : State} {c : Cell} {kind : Byte} {owner : Cell → State → State} (asked : Asked s c kind)
    (e : owner c (popCell s) = t) (q : t.Quiet) : handRequest kind owner s = .next t := by
  subst e
  exact handRequest_of_asked asked q

theorem handActive_eq {s t : State} {c : Cell} {kind : Byte} {owner : Cell → State → State} (asked : AskedActive s c kind)
    (e : owner c (popCell s) = t) (q : t.Quiet) : handRequest kind (whenActive owner) s = .next t := by
  subst e
  exact handRequest_whenActive_of_askedActive asked q

theorem handRequest_whenActive_of_inactive {s : State} {c : Cell} {kind : Byte} (owner : Cell → State → State) (q : s.Quiet)
    (asked : Asked s c kind) (inactive : s.cfu.state ≠ .active) :
    handRequest kind (whenActive owner) s = .next (sendAnswer c codeNotConfigured (popCell s)) := by
  have refused : whenActive owner c (popCell s) = sendAnswer c codeNotConfigured (popCell s) := if_neg inactive
  exact handRequest_eq asked refused (sendAnswer_quiet c _ q)

theorem sessionRequest_of_above {badField : Bool} (begin_ : ContextId → State → State) {c : Cell} (s : State)
    (bad : 3 < field c.payload 0 1 ∨ badField = true) :
    sessionRequest badField begin_ c s = sendAnswer c codeBadField s := by
  unfold sessionRequest
  by_cases above : 3 < field c.payload 0 1
  · rw [contextOf_of_above above]
  · rw [bad.resolve_left above]
    split <;> rfl

theorem inVoice_iff (x : Context) : inVoice x = true ↔ x.state = .connected ∧ x.session = .voice := by
  simp [inVoice]

theorem sessionRequest_of_noVoice (begin_ : ContextId → State → State) {c : Cell} {s : State} {k : ContextId}
    (context : field c.payload 0 1 = k.val) (other : (s.at k).state ≠ .connected ∨ (s.at k).session ≠ .voice) :
    sessionRequest false begin_ c s = sendAnswer c codeNoContext s := by
  have notVoice : inVoice (s.at k) = false := by
    rw [Bool.eq_false_iff, ne_eq, inVoice_iff, not_and_or]
    exact other
  simp [sessionRequest, context, contextOf_val, notVoice]

theorem sessionRequest_of_voice (begin_ : ContextId → State → State) {c : Cell} {s : State} {k : ContextId}
    (context : field c.payload 0 1 = k.val) (connected : (s.at k).state = .connected) (voice : (s.at k).session = .voice) :
    sessionRequest false begin_ c s =
      begin_ k (sendAnswer c codeOk ((endActivity k s).modCtx k fun x => { x with requestTag := some c.tag })) := by
  have inSession : inVoice (s.at k) = true := (inVoice_iff _).mpr ⟨connected, voice⟩
  simp [sessionRequest, context, contextOf_val, inSession]

/-- The two checks of a session request that follow the one of the station's state, in the order of R141. -/
theorem handSession_checked {s : State} {c : Cell} {kind : Byte} {bad : Prop} {badField : Bool}
    {begin_ : ContextId → State → State} {owner : Cell → State → State} (q : s.Quiet) (asked : AskedActive s c kind)
    (owned : owner c (popCell s) = sessionRequest badField begin_ c (popCell s))
    (checks : bad ↔ 3 < field c.payload 0 1 ∨ badField = true) :
    (bad → handRequest kind (whenActive owner) s = .next (sendAnswer c codeBadField (popCell s)))
    ∧ ∀ k : ContextId, ¬ bad → field c.payload 0 1 = k.val → ((s.at k).state ≠ .connected ∨ (s.at k).session ≠ .voice) →
        handRequest kind (whenActive owner) s = .next (sendAnswer c codeNoContext (popCell s)) := by
  have answered {code : Byte} (e : owner c (popCell s) = sendAnswer c code (popCell s)) :
      handRequest kind (whenActive owner) s = .next (sendAnswer c code (popCell s)) :=
    handActive_eq asked e (sendAnswer_quiet c _ q)
  refine ⟨fun b => answered (owned.trans (sessionRequest_of_above begin_ _ (checks.mp b))), fun k good context other => ?_⟩
  have inRange : badField = false := by
    rw [checks, not_or, Bool.not_eq_true] at good
    exact good.2
  refine answered (owned.trans ?_)
  rw [inRange]
  exact sessionRequest_of_noVoice begin_ context other

theorem takeDataTx_of_above {c : Cell} (s : State) (above : 3 < field c.payload 0 1) :
    takeDataTx c s = sendAnswer c codeBadField s := by
  simp only [takeDataTx, contextOf_of_above above]

theorem takeDataTx_of_noData {c : Cell} {s : State} {k : ContextId} (context : field c.payload 0 1 = k.val)
    (other : (s.at k).state ≠ .connected ∨ (s.at k).session ≠ .data) :
    takeDataTx c s = sendAnswer c codeNoContext s := by
  have notData : ¬ ((s.at k).state = .connected ∧ (s.at k).session = .data) := not_and_or.mpr other
  simp [takeDataTx, context, contextOf_val, notData]

/-- Settles O36: each request's owner is the same two checks with its own field. -/
theorem sessionRequestsAreChecked : Obligations.SessionRequestsAreChecked := by
  intro s c q p answer
  refine ⟨fun inactive x m asked => ?inactive, fun x m asked => ?session,
    fun asked => ⟨fun above => ?_, fun k context other => ?_⟩⟩
  case inactive =>
    simp only [List.mem_cons, List.not_mem_nil, or_false] at m
    rcases m with rfl | rfl | rfl | rfl | rfl | rfl | rfl | rfl | rfl | rfl | rfl <;>
      exact handRequest_whenActive_of_inactive _ q asked inactive
  case session =>
    simp only [List.mem_cons, List.not_mem_nil, or_false] at m
    rcases m with rfl | rfl | rfl | rfl | rfl | rfl
    · refine handSession_checked (owner := takePlay) q asked rfl ?_
      simp [p, kindPlay, kindRecord, kindFaxReceive, kindFaxSend, kindDataConnect]
    · refine handSession_checked (owner := takeRecord) q asked rfl ?_
      simp [p, kindPlay, kindRecord, kindFaxReceive, kindFaxSend, kindDataConnect]
    · refine handSession_checked (owner := sessionRequest false enterWaiting) q asked rfl ?_
      simp [p, kindStop, kindPlay, kindRecord, kindFaxReceive, kindFaxSend, kindDataConnect]
    · refine handSession_checked (owner := takeFaxReceive) q asked rfl ?_
      simp [p, kindPlay, kindRecord, kindFaxReceive, kindFaxSend, kindDataConnect]
    · refine handSession_checked (owner := takeFaxSend) q asked rfl ?_
      simp [p, kindPlay, kindRecord, kindFaxReceive, kindFaxSend, kindDataConnect]
    · refine handSession_checked (owner := takeDataConnect) q asked rfl ?_
      simp [p, kindPlay, kindRecord, kindFaxReceive, kindFaxSend, kindDataConnect]
  · exact handActive_eq asked (takeDataTx_of_above (popCell s) above) (sendAnswer_quiet c _ q)
  · exact handActive_eq asked (takeDataTx_of_noData (s := popCell s) context other) (sendAnswer_quiet c _ q)

end Sys2Proof.Machine
end

section
/-! PROOFS. The family of the message store: what its operations do to the tables and to the free list, once each; then the
marks, the removal and the list of a mailbox, and the end of the start-up scan (R104, R106, R109, R117, R118, R120, R136). -/
namespace Sys2Proof.Machine

/-! ### Message records by number (R106) -/

theorem handle?_of_lt {h : Nat} (lt : h < 512) : handle? h = some ⟨h, lt⟩ := dif_pos lt

theorem handle?_of_above {h : Nat} (above : 511 < h) : handle? h = none := dif_neg (by omega)

theorem msgAt_of_lt {h : Nat} (lt : h < 512) (s : State) : s.msgAt h = s.msg ⟨h, lt⟩ := by
  rw [State.msgAt, handle?_of_lt lt]

theorem msgAt_of_above {h : Nat} (above : 511 < h) (s : State) : s.msgAt h = none := by
  rw [State.msgAt, handle?_of_above above]

theorem lt_of_msgAt {s : State} {h : Nat} {m : Msg} (e : s.msgAt h = some m) : h < 512 := by
  by_contra above
  rw [msgAt_of_above (by omega)] at e
  cases e

theorem setMsgAt_of_lt {h : Nat} (lt : h < 512) (m : Option Msg) (s : State) : s.setMsgAt h m = s.setMsg ⟨h, lt⟩ m := by
  rw [State.setMsgAt, handle?_of_lt lt]

theorem setMsgAt_of_above {h : Nat} (above : 511 < h) (m : Option Msg) (s : State) : s.setMsgAt h m = s := by
  rw [State.setMsgAt, handle?_of_above above]

theorem msgAt_setMsgAt {h : Nat} (lt : h < 512) (m : Option Msg) (s : State) : (s.setMsgAt h m).msgAt h = m := by
  rw [msgAt_of_lt lt, setMsgAt_of_lt lt, msg_setMsg]

theorem msgAt_setMsgAt_ne {h j : Nat} (other : j ≠ h) (m : Option Msg) (s : State) :
    (s.setMsgAt h m).msgAt j = s.msgAt j := by
  rcases Nat.lt_or_ge h 512 with lt | above
  · rcases Nat.lt_or_ge j 512 with lt' | above'
    · rw [setMsgAt_of_lt lt, msgAt_of_lt lt', msgAt_of_lt lt', msg_setMsg_ne _ _ _ _ (by simpa [Fin.ext_iff] using other)]
    · rw [msgAt_of_above (by omega), msgAt_of_above (by omega)]
  · rw [setMsgAt_of_above (by omega)]

theorem msgAt_congr {s t : State} (msgs : t.msc.msgs = s.msc.msgs) (h : Nat) : t.msgAt h = s.msgAt h := by
  simp only [State.msgAt, State.msg, msgs]

/-- A write to the message table changes the message table alone. -/
theorem setMsgAt_eq (h : Nat) (m : Option Msg) (s : State) :
    s.setMsgAt h m = { s with msc := { s.msc with msgs := (s.setMsgAt h m).msc.msgs } } := by
  rcases Nat.lt_or_ge h 512 with lt | above
  · rw [setMsgAt_of_lt lt]
    rfl
  · rw [setMsgAt_of_above (by omega)]

theorem setMsgAt_msc (h : Nat) (m : Option Msg) (s : State) :
    (s.setMsgAt h m).msc = { s.msc with msgs := (s.setMsgAt h m).msc.msgs } := by
  rw [setMsgAt_eq]

/-! ### What the store's operations leave alone -/

/-- The second state differs from the first at most in the store, the control line and the configuration unit, where the
store's reports go. -/
structure StoreOnly (s t : State) : Prop where
  hwi : t.hwi = s.hwi
  cfu : t.cfu = { s.cfu with lostReports := t.cfu.lostReports }
  tcm : t.tcm = s.tcm
  ctx : t.ctx = s.ctx
  rau : t.rau = s.rau
  free : t.free = s.free
  pending : t.pending = s.pending

theorem StoreOnly.refl (s : State) : StoreOnly s s := ⟨rfl, rfl, rfl, rfl, rfl, rfl, rfl⟩

theorem StoreOnly.trans {s t u : State} (a : StoreOnly s t) (b : StoreOnly t u) : StoreOnly s u :=
  ⟨b.hwi.trans a.hwi, by rw [b.cfu, a.cfu], b.tcm.trans a.tcm, b.ctx.trans a.ctx, b.rau.trans a.rau,
    b.free.trans a.free, b.pending.trans a.pending⟩

theorem StoreOnly.at {s t : State} (a : StoreOnly s t) (k : ContextId) : t.at k = s.at k := by
  rw [State.at, a.ctx, State.at]

theorem StoreOnly.quiet {s t : State} (a : StoreOnly s t) (q : s.Quiet) : t.Quiet := by
  rw [State.Quiet, a.rau]
  exact q

theorem storeOnly_modMsc (f : Msc → Msc) (s : State) : StoreOnly s (s.modMsc f) :=
  ⟨rfl, rfl, rfl, rfl, rfl, rfl, rfl⟩

theorem storeOnly_offerReport (c : Cell) (s : State) : StoreOnly s (offerReport c s) where
  hwi := offerReport_hwi ..
  cfu := by
    rw [offerReport_cfu]
    split <;> rfl
  tcm := offerReport_tcm ..
  ctx := offerReport_ctx ..
  rau := offerReport_rau ..
  free := offerReport_free ..
  pending := offerReport_pending ..

theorem storeOnly_sendEvent (k : Option ContextId) (e : Event) (s : State) : StoreOnly s (sendEvent k e s) :=
  storeOnly_offerReport _ s

theorem storeOnly_sendAnswer (c : Cell) (r : Byte) (s : State) : StoreOnly s (sendAnswer c r s) := storeOnly_offerReport _ s

theorem storeOnly_setMsgAt (h : Nat) (m : Option Msg) (s : State) : StoreOnly s (s.setMsgAt h m) := by
  rw [setMsgAt_eq]
  exact storeOnly_modMsc (fun x => { x with msgs := (s.setMsgAt h m).msc.msgs }) s

/-! ### The free list and the store level (R104, R118) -/

/-- R118: the low mark after the free count has been examined. -/
def levelMark (s : State) : Bool :=
  if s.msc.lowMark then decide (freeCount s ≤ 128) else decide (freeCount s < 64)

theorem examineLevel_msc (s : State) : (examineLevel s).msc = { s.msc with lowMark := levelMark s } := by
  unfold examineLevel levelMark
  dsimp only
  cases mark : s.msc.lowMark
  · by_cases low : freeCount s < 64
    · simp [low]
    · simp [low]
      rw [← mark]
  · by_cases high : 128 < freeCount s
    · have notLow : ¬ freeCount s ≤ 128 := by omega
      simp [high, notLow]
    · have low : freeCount s ≤ 128 := by omega
      simp [high, low]
      rw [← mark]

theorem storeOnly_examineLevel (s : State) : StoreOnly s (examineLevel s) := by
  unfold examineLevel
  dsimp only
  split
  · exact (storeOnly_sendEvent _ _ s).trans (storeOnly_modMsc _ _)
  · split
    · exact (storeOnly_sendEvent _ _ s).trans (storeOnly_modMsc _ _)
    · exact StoreOnly.refl s

theorem freeBlocks_msc (bs : List Nat) (s : State) : (freeBlocks bs s).msc =
    { s.msc with freeList := s.msc.freeList ++ bs, lowMark := (freeBlocks bs s).msc.lowMark } := by
  unfold freeBlocks
  split
  · next none_freed => simp [none_freed]
  · rw [examineLevel_msc]
    rfl

theorem storeOnly_freeBlocks (bs : List Nat) (s : State) : StoreOnly s (freeBlocks bs s) := by
  unfold freeBlocks
  split
  · exact StoreOnly.refl s
  · exact (storeOnly_modMsc _ s).trans (storeOnly_examineLevel _)

/-! ### Freeing and deleting a message (R106, R117) -/

theorem freeMessage_eq {s : State} {h : Nat} {m : Msg} (record : s.msgAt h = some m) :
    freeMessage h s = freeBlocks (chainOf s m) (s.setMsgAt h none) := by
  simp only [freeMessage, record]

/-- R117: what becomes of the record of a message that is deleted. -/
def deletedRecord (m : Msg) : Option Msg := if m.readers = [] then none else some { m with state := .deleting }

theorem deleteRecord_msc {s : State} {h : Nat} {m : Msg} (record : s.msgAt h = some m) : (deleteRecord h s).msc =
    { s.msc with
      msgs := (s.setMsgAt h (deletedRecord m)).msc.msgs
      freeList := s.msc.freeList ++ (if m.readers = [] then chainOf s m else [])
      lowMark := (deleteRecord h s).msc.lowMark } := by
  simp only [deleteRecord, record, deletedRecord]
  split
  · rw [freeMessage_eq record, freeBlocks_msc, setMsgAt_msc]
  · rw [setMsgAt_msc]
    simp

theorem storeOnly_freeMessage (h : Nat) (s : State) : StoreOnly s (freeMessage h s) := by
  cases record : s.msgAt h with
  | none => simp only [freeMessage, record]; exact StoreOnly.refl s
  | some m =>
    rw [freeMessage_eq record]
    exact (storeOnly_setMsgAt h none s).trans (storeOnly_freeBlocks _ _)

theorem storeOnly_deleteRecord (h : Nat) (s : State) : StoreOnly s (deleteRecord h s) := by
  unfold deleteRecord
  split
  · exact StoreOnly.refl s
  · split
    · exact storeOnly_freeMessage h s
    · exact storeOnly_setMsgAt h _ s

/-- R117: a mailbox record without a handle in its list or its greeting field. -/
def unlisted (mailbox h : Nat) (b : Mbx) : Mbx :=
  if b.number = mailbox then { b with list := b.list.filter (· != h), greeting := b.greeting.filter (· != h) } else b

theorem unlistMessage_eq (mailbox h : Nat) (s : State) :
    unlistMessage mailbox h s = s.modMsc fun x => { x with mbxs := x.mbxs.map (unlisted mailbox h) } := by
  have same (b : Mbx) : (if b.greeting = some h then none else b.greeting) = b.greeting.filter (· != h) := by
    cases b.greeting with
    | none => rfl
    | some g => by_cases e : g = h <;> simp [Option.filter, e]
  simp only [unlistMessage, modMailbox, same]
  rfl

theorem deleteMessage_eq {s : State} {h : Nat} {m : Msg} (record : s.msgAt h = some m) :
    deleteMessage h s = unlistMessage m.mailbox h (deleteRecord h s) := by
  simp only [deleteMessage, record]

theorem deleteMessage_of_free {s : State} {h : Nat} (record : s.msgAt h = none) : deleteMessage h s = s := by
  simp only [deleteMessage, record]

theorem storeOnly_deleteMessage (h : Nat) (s : State) : StoreOnly s (deleteMessage h s) := by
  cases record : s.msgAt h with
  | none => rw [deleteMessage_of_free record]; exact StoreOnly.refl s
  | some m =>
    rw [deleteMessage_eq record, unlistMessage_eq]
    exact (storeOnly_deleteRecord h s).trans (storeOnly_modMsc _ _)

theorem deleteMessage_msc {s : State} {h : Nat} {m : Msg} (record : s.msgAt h = some m) : (deleteMessage h s).msc =
    { s.msc with
      msgs := (s.setMsgAt h (deletedRecord m)).msc.msgs
      freeList := s.msc.freeList ++ (if m.readers = [] then chainOf s m else [])
      mbxs := s.msc.mbxs.map (unlisted m.mailbox h)
      lowMark := (deleteMessage h s).msc.lowMark } := by
  rw [deleteMessage_eq record, unlistMessage_eq, modMsc_msc, deleteRecord_msc record]

theorem msgAt_deleteMessage {s : State} {h : Nat} {m : Msg} (record : s.msgAt h = some m) :
    (deleteMessage h s).msgAt h = deletedRecord m := by
  have msgs : (deleteMessage h s).msc.msgs = (s.setMsgAt h (deletedRecord m)).msc.msgs := by rw [deleteMessage_msc record]
  rw [msgAt_congr msgs, msgAt_setMsgAt (lt_of_msgAt record)]

theorem msgAt_deleteMessage_ne {h j : Nat} (other : j ≠ h) (s : State) : (deleteMessage h s).msgAt j = s.msgAt j := by
  cases record : s.msgAt h with
  | none => rw [deleteMessage_of_free record]
  | some m =>
    have msgs : (deleteMessage h s).msc.msgs = (s.setMsgAt h (deletedRecord m)).msc.msgs := by rw [deleteMessage_msc record]
    rw [msgAt_congr msgs, msgAt_setMsgAt_ne other]

/-! ### Marks (R117, R136) -/

theorem handMark_of_due {s : State} {c : Cell} {mark : Mark} (received : Received s c kindMsgMark)
    (source : c.src = gateway ∨ (stationOf c.src).isSome = true)
    (due : (markOf (byteAt c.payload 2)).isNone = true ∨ markOf (byteAt c.payload 2) = some mark) :
    let r := markMessage (field c.payload 0 2) (markOf (byteAt c.payload 2)) (popCell s)
    r.1.Quiet → handMark mark s = .next (sendAnswer c r.2 r.1) := by
  intro r quiet
  obtain ⟨head, kind, allowed⟩ := received
  have known : ¬ ((c.src != gateway && (stationOf c.src).isNone) = true) := by
    rcases source with own | peer
    · simp [own]
    · simp [Option.isSome_iff_ne_none.mp peer]
  have taken : takeMark c (popCell s) = sendAnswer c r.2 r.1 := by
    simp only [takeMark, if_neg known, allowed, Bool.not_true, Bool.false_eq_true, if_false]
    rfl
  refine (handOver_of_head head ?_ ?_).trans (congrArg _ taken)
  · rcases due with unknown | this <;> simp [*]
  · rw [taken]
    exact sendAnswer_quiet c _ quiet

theorem storeOnly_markMessage (h : Nat) (mark : Option Mark) (s : State) : StoreOnly s (markMessage h mark s).1 := by
  unfold markMessage
  split
  · exact StoreOnly.refl s
  · split
    · exact StoreOnly.refl s
    · next k =>
      split
      · exact StoreOnly.refl s
      · split
        · exact StoreOnly.refl s
        · split
          · exact StoreOnly.refl s
          · split
            · exact StoreOnly.refl s
            · split
              · exact StoreOnly.refl s
              · cases k with
                | heard => exact storeOnly_setMsgAt h _ s
                | unheard => exact storeOnly_setMsgAt h _ s
                | delete => exact storeOnly_deleteMessage h s

/-- What a mark writes on a CLOSED record (R117). -/
def markWrite (h : Nat) (mark : Mark) (s : State) (m : Msg) : State :=
  match mark with
  | .heard => s.setMsgAt h (some { m with heard := true })
  | .unheard => s.setMsgAt h (some { m with heard := false })
  | .delete => deleteMessage h s

/-- R117: the ANSWER to a mark, in the order of the checks. -/
def markAnswer (c : Cell) (h : Nat) (mark : Mark) (s : State) : State :=
  if 511 < h then sendAnswer c codeBadField s
  else if s.msc.state = .scanning then sendAnswer c codeStoreBusy s
  else if s.cfu.config = none then sendAnswer c codeNotConfigured s
  else match s.msgAt h with
    | none => sendAnswer c codeNoSuch s
    | some m =>
      if m.state = .deleting then sendAnswer c codeNoSuch s
      else if m.state = .opened then sendAnswer c codeBusy s
      else sendAnswer c codeOk (markWrite h mark s m)

theorem sendAnswer_markMessage (c : Cell) (h : Nat) (mark : Mark) (s : State) :
    sendAnswer c (markMessage h (some mark) s).2 (markMessage h (some mark) s).1 = markAnswer c h mark s := by
  unfold markMessage markAnswer
  by_cases above : 511 < h
  · simp only [above, if_true]
  · by_cases scanning : s.msc.state = .scanning
    · simp only [above, scanning, if_false, if_true]
    · cases config : s.cfu.config with
      | none => simp [above, scanning]
      | some g =>
        cases record : s.msgAt h with
        | none => simp [above, scanning]
        | some m => cases state : m.state <;> cases mark <;> simp [above, scanning, state, markWrite]

theorem handMark_eq {s : State} {c : Cell} {mark : Mark} (q : s.Quiet) (received : Received s c kindMsgMark)
    (source : c.src = gateway ∨ (stationOf c.src).isSome = true) (marked : markOf (byteAt c.payload 2) = some mark) :
    handMark mark s = .next (markAnswer c (field c.payload 0 2) mark (popCell s)) := by
  rw [handMark_of_due received source (Or.inr marked) ((storeOnly_markMessage _ _ _).quiet q), marked,
    sendAnswer_markMessage]

theorem markOf_of_above {b : Byte} (above : 2 < b.toNat) : markOf b = none := by
  have h0 : b ≠ 0 := by rintro rfl; simp at above
  have h1 : b ≠ 1 := by rintro rfl; simp at above
  have h2 : b ≠ 2 := by rintro rfl; simp at above
  simp only [markOf, h0, h1, h2, if_false]

theorem handMark_of_above {s : State} {c : Cell} (mark : Mark) (q : s.Quiet) (received : Received s c kindMsgMark)
    (source : c.src = gateway ∨ (stationOf c.src).isSome = true) (above : 2 < (byteAt c.payload 2).toNat) :
    handMark mark s = .next (sendAnswer c codeBadField (popCell s)) := by
  have unknown := markOf_of_above above
  have refused : markMessage (field c.payload 0 2) none (popCell s) = (popCell s, codeBadField) := by
    simp only [markMessage, ite_self]
  have e := handMark_of_due (mark := mark) received source (Or.inl (by rw [unknown]; rfl))
    ((storeOnly_markMessage _ _ _).quiet q)
  rw [e, unknown, refused]

/-- Settles O33: the checks in their order, then the write of the mark; and what a delete leaves. -/
theorem marksApply : Obligations.MarksApply := by
  intro s c q received source h checked
  refine ⟨fun marked => ?heard, fun marked => ?unheard, fun marked => ?delete, fun above i m => ?above, fun u m record => ?deleted⟩
  case heard => exact handMark_eq (mark := .heard) q received source (by rw [marked]; rfl)
  case unheard => exact handMark_eq (mark := .unheard) q received source (by rw [marked]; rfl)
  case delete => exact handMark_eq (mark := .delete) q received source (by rw [marked]; rfl)
  case above =>
    simp only [List.mem_cons, List.not_mem_nil, or_false] at m
    rcases m with rfl | rfl | rfl
    · exact handMark_of_above .heard q received source above
    · exact handMark_of_above .unheard q received source above
    · exact handMark_of_above .delete q received source above
  case deleted =>
    refine ⟨msgAt_deleteMessage record, fun j other => msgAt_deleteMessage_ne other u, ?_, ?_, ?_, ?_,
      (storeOnly_deleteMessage h u).ctx⟩
    all_goals rw [deleteMessage_msc record]
    all_goals rfl

/-! ### The messages of a mailbox (R109) -/

/-- The record of a handle after the handles of a list have been deleted. -/
theorem msgAt_deleteAll (hs : List Nat) (h : Nat) (s : State) :
    (forEach hs deleteMessage s).msgAt h = if h ∈ hs then (s.msgAt h).bind deletedRecord else s.msgAt h := by
  have again (m : Msg) : (deletedRecord m).bind deletedRecord = deletedRecord m := by
    by_cases alone : m.readers = [] <;> simp [deletedRecord, alone]
  induction hs generalizing s with
  | nil => simp [forEach]
  | cons g gs ih =>
    have next := ih (deleteMessage g s)
    simp only [forEach, List.foldl_cons] at next ⊢
    rw [next]
    by_cases this : h = g
    · subst this
      cases record : s.msgAt h with
      | none => simp [deleteMessage_of_free record, record]
      | some m => simp [msgAt_deleteMessage record, again]
    · simp [msgAt_deleteMessage_ne this s, this]

theorem storeOnly_deleteAll (hs : List Nat) (s : State) : StoreOnly s (forEach hs deleteMessage s) := by
  induction hs generalizing s with
  | nil => exact StoreOnly.refl s
  | cons h hs ih => exact (storeOnly_deleteMessage h s).trans (ih _)

theorem deleteMessage_memory (h : Nat) (s : State) :
    (deleteMessage h s).msc.mem = s.msc.mem ∧ (deleteMessage h s).msc.links = s.msc.links := by
  cases record : s.msgAt h with
  | none => rw [deleteMessage_of_free record]; exact ⟨rfl, rfl⟩
  | some m => rw [deleteMessage_msc record]; exact ⟨rfl, rfl⟩

theorem deleteAll_memory (hs : List Nat) (s : State) :
    (forEach hs deleteMessage s).msc.mem = s.msc.mem ∧ (forEach hs deleteMessage s).msc.links = s.msc.links := by
  induction hs generalizing s with
  | nil => exact ⟨rfl, rfl⟩
  | cons h hs ih =>
    obtain ⟨mem, links⟩ := deleteMessage_memory h s
    obtain ⟨mem', links'⟩ := ih (deleteMessage h s)
    exact ⟨mem'.trans mem, links'.trans links⟩

theorem dropMailbox_eq {s : State} {number : Nat} {b : Mbx} (record : mailbox? s number = some b) :
    dropMailbox number s = eraseMailbox number (forEach (b.list ++ b.greeting.toList) deleteMessage s) := by
  simp only [dropMailbox, record]

theorem storeOnly_dropMailbox {s : State} {number : Nat} {b : Mbx} (record : mailbox? s number = some b) :
    StoreOnly s (dropMailbox number s) := by
  rw [dropMailbox_eq record]
  exact (storeOnly_deleteAll _ s).trans (storeOnly_modMsc _ _)

/-! ### MBOX_REMOVE (R109) -/

theorem removeMailbox_of_refused {c : Cell} {s : State} {code : Byte} (refused : code ≠ codeOk)
    (result : removeResult s (field c.payload 0 2) = code) : removeMailbox c s = sendAnswer c code s := by
  simp only [removeMailbox, result, if_neg refused]

theorem removeResult_of_home {s : State} {g : ConfigRecord} {number : Nat} (config : s.cfu.config = some g)
    (small : number ≤ 999) (home : number % g.groupSize = s.cfu.station.val) :
    removeResult s number = (mailbox? s number).elim codeNoSuch fun b =>
      if 0 < b.openCount || b.greetingOpen then codeBusy else codeOk := by
  have inRange : ¬ 999 < number := by omega
  simp only [removeResult, if_neg inRange, (isHome_iff config).mpr home, Bool.not_true, Bool.false_eq_true, if_false]
  cases mailbox? s number <;> rfl

theorem removeResult_of_other_home {s : State} {g : ConfigRecord} {number : Nat} (config : s.cfu.config = some g)
    (small : number ≤ 999) (other : number % g.groupSize ≠ s.cfu.station.val) : removeResult s number = codeNotHome := by
  have inRange : ¬ 999 < number := by omega
  have notHome : isHome s number = false := Bool.eq_false_iff.mpr (mt (isHome_iff config).mp other)
  simp [removeResult, inRange, notHome]

/-! ### MBOX_QUERY (R136) -/

theorem sendMailboxList_of_short {c : Cell} {b : Mbx} (short : b.list.length ≤ 8) (s : State) : sendMailboxList c b s =
    offerOther (ownCell s 4 c.src kindMboxList c.tag (be2 b.number ++ be1 b.limit ++ be1 b.openCount
      ++ beOpt2 b.greeting ++ [0, 1] ++ b.list.flatMap (listEntry s))) 0 none s := by
  have parts : listParts 4 b.list = [b.list] := by
    simp only [listParts, if_pos short, List.take_of_length_le short]
  simp [sendMailboxList, parts, forEach, protocolCell, be1]

theorem queryList_of_ready {c : Cell} {s : State} {g : ConfigRecord} (config : s.cfu.config = some g)
    (small : field c.payload 0 2 ≤ 999) (ready : s.msc.state = .ready) : queryList c s =
      if field c.payload 0 2 % g.groupSize = s.cfu.station.val then
        (mailbox? s (field c.payload 0 2)).elim (sendAnswer c codeNoSuch s) fun b => sendMailboxList c b s
      else sendAnswer c codeNotHome s := by
  have inRange : ¬ 999 < field c.payload 0 2 := by omega
  have notScanning : s.msc.state ≠ .scanning := by rw [ready]; decide
  have configured : ¬ s.cfu.config.isNone = true := by simp [config]
  by_cases home : field c.payload 0 2 % g.groupSize = s.cfu.station.val
  · simp only [queryList, if_neg inRange, if_neg notScanning, if_neg configured, (isHome_iff config).mpr home, Bool.not_true,
      Bool.false_eq_true, if_false, if_pos home]
    cases mailbox? s (field c.payload 0 2) <;> rfl
  · have notHome : isHome s (field c.payload 0 2) = false := Bool.eq_false_iff.mpr (mt (isHome_iff config).mp home)
    simp only [queryList, if_neg inRange, if_neg notScanning, if_neg configured, notHome, Bool.not_false, if_true, if_neg home]

theorem offerOther_none_quiet (c : Cell) (n : Nat) {s : State} (q : s.Quiet) : (offerOther c n none s).Quiet := by
  rw [State.Quiet, offerOther_rau]
  exact q

/-- Settles O32: both requests in the order of their checks; a mailbox removed takes its messages with it. -/
theorem mailboxRemoveAndQuery : Obligations.MailboxRemoveAndQuery := by
  intro s c g q config m answer
  refine ⟨fun asked => ?remove, fun asked => ?query⟩
  case remove =>
    have refused {code : Byte} (bad : code ≠ codeOk) (result : removeResult (popCell s) m = code) :
        exec .mboxRemove s = answer code :=
      handActive_eq asked (removeMailbox_of_refused bad result) (sendAnswer_quiet c code q)
    refine ⟨fun above => ?_, fun small other => ?_, fun small home => ⟨fun absent => ?_, fun b record => ⟨fun busy => ?_, fun notOpen noGreeting => ?_⟩⟩⟩
    · exact refused (by decide) (by simp [removeResult, above])
    · exact refused (by decide) (removeResult_of_other_home config small other)
    · have record : mailbox? (popCell s) m = none := absent
      exact refused (by decide) (by rw [removeResult_of_home (s := popCell s) config small home, record, Option.elim_none])
    · have record : mailbox? (popCell s) m = some b := record
      refine refused (code := codeBusy) (by decide) ?_
      rw [removeResult_of_home (s := popCell s) config small home, record]
      simp [busy]
    · have record : mailbox? (popCell s) m = some b := record
      have ok : removeResult (popCell s) m = codeOk := by
        rw [removeResult_of_home (s := popCell s) config small home, record]
        simp [notOpen, noGreeting]
      have removed : removeMailbox c (popCell s) = sendAnswer c codeOk (dropMailbox m (popCell s)) := by
        simp only [removeMailbox]
        rw [ok, if_pos rfl]
      have only := storeOnly_dropMailbox record
      have msgs (h : Nat) : (sendAnswer c codeOk (dropMailbox m (popCell s))).msgAt h
          = (forEach (b.list ++ b.greeting.toList) deleteMessage (popCell s)).msgAt h := by
        refine msgAt_congr ?_ h
        rw [sendAnswer_msc, dropMailbox_eq record]
        rfl
      obtain ⟨mem, links⟩ := deleteAll_memory (b.list ++ b.greeting.toList) (popCell s)
      refine ⟨_, handActive_eq asked removed (sendAnswer_quiet c codeOk (only.quiet q)), ?_, fun h x listed there => ?_,
        fun h other => ?_, ?_, ?_, ?_, ?_⟩
      · rw [sendAnswer_msc, dropMailbox_eq record]
        simp [eraseMailbox]
      · rw [msgs, msgAt_deleteAll, if_pos listed]
        exact congrArg (·.bind deletedRecord) there
      · rw [msgs, msgAt_deleteAll, if_neg other]
        rfl
      · rw [sendAnswer_msc, dropMailbox_eq record]
        exact mem
      · rw [sendAnswer_msc, dropMailbox_eq record]
        exact links
      · rw [sendAnswer_ctx, only.ctx, popCell_ctx]
      · rw [sendAnswer_tcm, only.tcm, popCell_tcm]
  case query =>
    have answered {t : State} (e : queryList c (popCell s) = t) (quiet : t.Quiet) : exec .mboxQuery s = .next t :=
      handRequest_eq asked e quiet
    refine ⟨fun above => ?_, fun small scanning => ?_, fun small ready other => ?_, fun small ready home =>
      ⟨fun absent => ?_, fun b record short => ?_⟩⟩
    · exact answered (by simp [queryList, m, above]) (sendAnswer_quiet c _ q)
    · have inRange : ¬ 999 < field c.payload 0 2 := by omega
      exact answered (by simp [queryList, inRange, scanning]) (sendAnswer_quiet c _ q)
    · refine answered ?_ (sendAnswer_quiet c _ q)
      rw [queryList_of_ready (s := popCell s) config small ready]
      exact if_neg other
    · have record : mailbox? (popCell s) (field c.payload 0 2) = none := absent
      refine answered ?_ (sendAnswer_quiet c _ q)
      rw [queryList_of_ready (s := popCell s) config small ready, record]
      exact if_pos home
    · have record : mailbox? (popCell s) (field c.payload 0 2) = some b := record
      refine answered ?_ (offerOther_none_quiet _ 0 q)
      obtain ⟨_, src⟩ := asked
      rw [queryList_of_ready (s := popCell s) config small ready, record, ← src]
      exact (if_pos home).trans (sendMailboxList_of_short short _)

/-! ### A bid leaves the store, the configuration unit and the remote access unit alone (R57) -/

theorem offerClaim_frame (c : Channel) (d : Direction) (s : State) : (offerClaim c d s).1.msc = s.msc
    ∧ (offerClaim c d s).1.cfu = s.cfu ∧ (offerClaim c d s).1.rau = s.rau := by
  unfold offerClaim
  dsimp only
  generalize ownCell s _ _ _ _ _ = cell
  split <;> exact ⟨rfl, rfl, rfl⟩

theorem offerBid_frame (k : ContextId) (c : Channel) (s : State) :
    (offerBid k c s).msc = s.msc ∧ (offerBid k c s).cfu = s.cfu ∧ (offerBid k c s).rau = s.rau := by
  have offered := offerClaim_frame c .incoming s
  unfold offerBid
  split
  · next t taken => rw [taken] at offered; exact offered
  · next t refused => rw [refused] at offered; exact offered

theorem examineBid_frame (c : Channel) (s : State) :
    (examineBid c s).msc = s.msc ∧ (examineBid c s).cfu = s.cfu ∧ (examineBid c s).rau = s.rau := by
  unfold examineBid
  dsimp only
  split
  · split
    · exact ⟨rfl, rfl, rfl⟩
    · split
      · exact offerBid_frame _ c _
      · exact ⟨rfl, rfl, rfl⟩
  · exact ⟨rfl, rfl, rfl⟩

theorem examineHuntSet_frame (s : State) :
    (examineHuntSet s).msc = s.msc ∧ (examineHuntSet s).cfu = s.cfu ∧ (examineHuntSet s).rau = s.rau := by
  unfold examineHuntSet
  generalize channelIds = cs
  induction cs generalizing s with
  | nil => exact ⟨rfl, rfl, rfl⟩
  | cons c cs ih =>
    have one : (if (s.entry c).rx.settled = .seize then examineBid c s else s).msc = s.msc
        ∧ (if (s.entry c).rx.settled = .seize then examineBid c s else s).cfu = s.cfu
        ∧ (if (s.entry c).rx.settled = .seize then examineBid c s else s).rau = s.rau := by
      split
      · exact examineBid_frame c s
      · exact ⟨rfl, rfl, rfl⟩
    obtain ⟨msc, cfu, rau⟩ := one
    obtain ⟨msc', cfu', rau'⟩ := ih (if (s.entry c).rx.settled = .seize then examineBid c s else s)
    exact ⟨msc'.trans msc, cfu'.trans cfu, rau'.trans rau⟩

theorem enterActive_frame (s : State) : (enterActive s).msc = s.msc ∧ (enterActive s).rau = s.rau
    ∧ (enterActive s).cfu = { s.cfu with state := .active } := by
  obtain ⟨msc, cfu, rau⟩ := examineHuntSet_frame (s.modCfu fun u => { u with state := .active })
  exact ⟨msc, rau, cfu⟩

/-- R38: where STARTING goes when alignment has been seen and the store is READY. -/
theorem leaveStarting_frame (s : State) : (leaveStarting s).msc = s.msc ∧ (leaveStarting s).rau = s.rau
    ∧ (leaveStarting s).cfu.state = if s.cfu.state = .starting ∧ s.cfu.alignSeen = true ∧ s.msc.state = .ready
        then (if s.cfu.config.isSome then .active else .unconfigured) else s.cfu.state := by
  unfold leaveStarting
  by_cases ends : s.cfu.state = .starting ∧ s.cfu.alignSeen = true ∧ s.msc.state = .ready
  · have due : (decide (s.cfu.state = .starting) && s.cfu.alignSeen && decide (s.msc.state = .ready)) = true := by
      simp [ends]
    rw [if_pos due, if_pos ends]
    cases config : s.cfu.config with
    | none => exact ⟨rfl, rfl, rfl⟩
    | some g =>
      obtain ⟨msc, rau, cfu⟩ := enterActive_frame s
      refine ⟨msc, rau, ?_⟩
      dsimp only
      rw [cfu]
      rfl
  · have notDue : ¬ (decide (s.cfu.state = .starting) && s.cfu.alignSeen && decide (s.msc.state = .ready)) = true := by
      simpa [and_assoc] using ends
    rw [if_neg notDue, if_neg ends]
    exact ⟨rfl, rfl, rfl⟩

/-! ### The end of the start-up scan (R120) -/

theorem mem_keepFirst (h : Nat) (hs : List Nat) : h ∈ keepFirst hs ↔ h ∈ hs := by
  induction hs with
  | nil => rfl
  | cons g gs ih =>
    by_cases this : h = g <;> simp [keepFirst, ih, this]

theorem keepFirst_nodup (hs : List Nat) : (keepFirst hs).Nodup := by
  induction hs with
  | nil => exact List.nodup_nil
  | cons g gs ih =>
    refine List.nodup_cons.mpr ⟨?_, ih.filter _⟩
    simp

/-- R120: the entries of a mailbox that the scan keeps are CLOSED messages of its own, greetings in the greeting field
alone. -/
theorem keepsEntry_iff (s : State) (mailbox : Nat) (greeting : Bool) (h : Nat) : keepsEntry s mailbox greeting h = true ↔
    ∃ m, s.msgAt h = some m ∧ m.state = .closed ∧ m.mailbox = mailbox ∧ ((m.kind == .greeting) = greeting) := by
  cases record : s.msgAt h with
  | none => simp [keepsEntry, record]
  | some m => simp [keepsEntry, record, and_assoc]

theorem mem_scanMailbox_list (s : State) (b : Mbx) (h : Nat) : h ∈ (scanMailbox s b).list ↔ h ∈ b.list
    ∧ ∃ m, s.msgAt h = some m ∧ m.state = .closed ∧ m.mailbox = b.number ∧ m.kind ≠ .greeting := by
  simp [scanMailbox, mem_keepFirst, keepsEntry_iff]

theorem scanMailbox_greeting (s : State) (b : Mbx) (h : Nat) : (scanMailbox s b).greeting = some h ↔
    b.greeting = some h ∧ ∃ m, s.msgAt h = some m ∧ m.state = .closed ∧ m.mailbox = b.number ∧ m.kind = .greeting := by
  simp [scanMailbox, Option.filter_eq_some_iff, keepsEntry_iff]

theorem unclaimedBlocks_eq (s : State) : unclaimedBlocks s =
    (List.range (storeBlocks s)).filter fun n => decide (80 ≤ n) && !s.msc.claimed.contains n := by
  have large : 80 ≤ storeBlocks s := by
    have := Nat.pow_pos (n := s.cfu.storeSize.val) (show 0 < 2 by decide)
    rw [storeBlocks]
    omega
  have halves : List.range (storeBlocks s) = List.range' 0 80 ++ List.range' 80 (storeBlocks s - 80) := by
    rw [List.range_eq_range', List.range'_append_1, Nat.add_sub_cancel' large]
  have low : (List.range' 0 80).filter (fun n => decide (80 ≤ n) && !s.msc.claimed.contains n) = [] := by
    simp only [List.filter_eq_nil_iff, List.mem_range'_1]
    intro n below
    have : ¬ 80 ≤ n := by omega
    simp [this]
  rw [halves, List.filter_append, low, List.nil_append, unclaimedBlocks]
  refine List.filter_congr fun n m => ?_
  have high : 80 ≤ n := (List.mem_range'_1.mp m).1
  simp [high]

theorem finishScan_msc (s : State) : (finishScan s).msc = { s.msc with
    mbxs := s.msc.mbxs.map (scanMailbox s), freeList := unclaimedBlocks s, state := .ready
    lowMark := if s.msc.lowMark then decide ((unclaimedBlocks s).length ≤ 128)
      else decide ((unclaimedBlocks s).length < 64) } := by
  simp only [finishScan, examineLevel_msc]
  rfl

theorem storeOnly_finishScan (s : State) : StoreOnly s (finishScan s) :=
  ((storeOnly_modMsc _ s).trans (storeOnly_modMsc _ _)).trans (storeOnly_examineLevel _)

theorem finishScan_cfu (s : State) : (finishScan s).cfu = { s.cfu with lostReports := (finishScan s).cfu.lostReports } :=
  (storeOnly_finishScan s).cfu

/-- Settles O18: the scan's end is `finishScan`, and then what R38 makes of the station's state. -/
theorem scanEndMakesTheStoreReady : Obligations.ScanEndMakesTheStoreReady := by
  intro s q scanning
  obtain ⟨msc, rau, state⟩ := leaveStarting_frame (finishScan s)
  rw [finishScan_msc] at msc
  have quiet : (leaveStarting (finishScan s)).Quiet := by
    rw [State.Quiet, rau, (storeOnly_finishScan s).rau]
    exact q
  refine ⟨_, act_of_due s (by rw [scanning]; rfl) quiet, ?_⟩
  have msgs (h : Nat) : (leaveStarting (finishScan s)).msgAt h = s.msgAt h := msgAt_congr (by rw [msc]) h
  refine ⟨by rw [msc], ?free, ?sorted, ?mark, by rw [msc], ?mailboxes, ?kept, ?state, by rw [msc], by rw [msc], by rw [msc]⟩
  case free => rw [msc]; exact unclaimedBlocks_eq s
  case sorted => rw [msc]; exact (List.pairwise_lt_range' (s := 80) (n := storeBlocks s - 80)).filter _
  case mark => rw [msc]
  case mailboxes =>
    intro b m
    rw [msc] at m
    obtain ⟨old, _, rfl⟩ := List.mem_map.mp m
    refine ⟨rfl, rfl, keepFirst_nodup _, fun h listed => ?_⟩
    rw [msgs]
    exact ((mem_scanMailbox_list s old h).mp listed).2
  case kept =>
    intro old m
    rw [msc]
    exact ⟨scanMailbox s old, List.mem_map_of_mem m, rfl, rfl, mem_scanMailbox_list s old, scanMailbox_greeting s old⟩
  case state =>
    rw [state, finishScan_msc, finishScan_cfu]
    simp only [and_true]

end Sys2Proof.Machine
end

section
/-! PROOFS. The family of the calls the gateway asks for and drops, and of CONFIGURE (R30, R38, R40, R41, R63, R67, R77, R78,
R84). -/
namespace Sys2Proof.Machine

/-! ### The lowest of a list in ascending order -/

theorem find?_of_lowest {n : Nat} {xs : List (Fin n)} {p : Fin n → Bool} {a : Fin n} (sorted : xs.Pairwise (· < ·))
    (mem : a ∈ xs) (holds : p a = true) (below : ∀ b, b < a → p b = false) : xs.find? p = some a := by
  induction xs with
  | nil => cases mem
  | cons x xs ih =>
    obtain ⟨head, tail⟩ := List.pairwise_cons.mp sorted
    rcases List.mem_cons.mp mem with rfl | mem
    · simp [holds]
    · simp [below x (head a mem), ih tail mem]

theorem contextIds_sorted : contextIds.Pairwise (· < ·) := by decide
theorem mem_contextIds (k : ContextId) : k ∈ contextIds := by revert k; decide
theorem channelIds_sorted : channelIds.Pairwise (· < ·) := by decide
theorem mem_channelIds (c : Channel) : c ∈ channelIds := by revert c; decide

theorem freeContext?_of_lowest {s : State} {k : ContextId} (free : (s.at k).state = .free)
    (below : ∀ j, j < k → (s.at j).state ≠ .free) : freeContext? s = some k :=
  find?_of_lowest contextIds_sorted (mem_contextIds k) (by simp [free]) fun j lower => by simp [below j lower]

theorem freeContext?_eq_none {s : State} (busy : ∀ k, (s.at k).state ≠ .free) : freeContext? s = none := by
  simp only [freeContext?, List.find?_eq_none]
  intro k _
  simp [busy k]

/-! ### The checks of an OUTDIAL (R77) -/

theorem isDialChar_iff (b : Byte) :
    isDialChar b = true ↔ b.toNat ∈ "0123456789*#ABCD,W".toList.map (fun x => x.toNat) := by
  have codes : "0123456789*#ABCD,W".toList.map (fun x => x.toNat)
      = [48, 49, 50, 51, 52, 53, 54, 55, 56, 57, 42, 35, 65, 66, 67, 68, 44, 87] := by decide
  rw [codes]
  revert b
  decide

theorem badDigits_iff (dial : List Byte) : badDigits dial = false ↔ dial ≠ [] ∧ dial.length ≤ 24
    ∧ ∀ b ∈ dial, b.toNat ∈ "0123456789*#ABCD,W".toList.map (fun x => x.toNat) := by
  simp only [badDigits, Bool.or_eq_false_iff, beq_eq_false_iff_ne, decide_eq_false_iff_not, Bool.not_eq_false', List.all_eq_true,
    isDialChar_iff, not_lt, and_assoc, ne_eq]

theorem clampTo_eq {lo hi : Nat} (n : Nat) (ordered : lo ≤ hi) : clampTo lo hi n = max lo (min hi n) := by
  rw [clampTo]
  split
  · omega
  · split <;> omega

theorem clampTo_zero (hi n : Nat) : clampTo 0 hi n = min hi n := by
  rw [clampTo_eq n (Nat.zero_le hi)]
  omega

theorem rateBounds_eq (lo hi : Nat) :
    rateBounds lo hi = (min (min 11 lo) (min 11 hi), max (min 11 lo) (min 11 hi)) := by
  simp only [rateBounds, clampTo_zero]
  split <;> rw [Prod.mk.injEq] <;> omega

/-- R77: the purpose an OUTDIAL names. -/
theorem purposeOf_of_known {p : List Byte} (known : field p 0 1 ≤ 3) : purposeOf p = some (
    if field p 0 1 = 0 then .plain else if field p 0 1 = 1 then .play (field p 1 1) (field p 2 2)
    else if field p 0 1 = 2 then .faxSend (field p 1 1) (field p 2 2)
    else .data (min (min 11 (field p 1 1)) (min 11 (field p 2 1))) (max (min 11 (field p 1 1)) (min 11 (field p 2 1)))) := by
  have cases_of : field p 0 1 = 0 ∨ field p 0 1 = 1 ∨ field p 0 1 = 2 ∨ field p 0 1 = 3 := by omega
  rcases cases_of with e | e | e | e
  · simp [purposeOf, e]
  · simp [purposeOf, e]
  · simp [purposeOf, e]
  · simp [purposeOf, e, rateBounds_eq]

theorem purposeOf_of_above {p : List Byte} (above : 3 < field p 0 1) : purposeOf p = none := by
  unfold purposeOf
  split
  all_goals first | omega | rfl

/-! ### The choice of a channel (R63) -/

theorem canTake_iff (s : State) (c : Channel) : canTake s c = true ↔ inSet (configOf s).outdialSet c = true
    ∧ (s.entry c).view = .free ∧ (s.entry c).rx.settled = .idle ∧ isAligned s = true ∧ claimerOf s c = none
    ∧ clearerOf s c = none := by
  simp only [canTake, channelBusy, Bool.and_eq_true, beq_iff_eq, Bool.not_eq_true', Bool.or_eq_false_iff,
    Option.isSome_eq_false_iff, Option.isNone_iff_eq_none]
  tauto

/-- The CLAIM of an outgoing call. -/
abbrev outgoingClaim (s : State) (c : Channel) : Cell := ownCell s 1 allStations kindClaim 0xFF (be1 c.val ++ be1 1)

theorem chooseFor_of_none {s : State} (k : ContextId) (none_free : ∀ c, canTake s c = false) : chooseFor k s = (s, false) := by
  have nothing : channelIds.find? (canTake s) = none := by
    simp only [List.find?_eq_none]
    intro c _
    simp [none_free c]
  simp only [chooseFor, nothing]

theorem find_canTake {s : State} {c : Channel} (takeable : canTake s c = true) (below : ∀ d, d < c → canTake s d = false) :
    channelIds.find? (canTake s) = some c :=
  find?_of_lowest channelIds_sorted (mem_channelIds c) takeable below

theorem chooseFor_of_full {s : State} (k : ContextId) {c : Channel} (lowest : channelIds.find? (canTake s) = some c)
    (full : queueTakes s.clc.tx (outgoingClaim s c) = false) : chooseFor k s = (s, false) := by
  simp only [chooseFor, lowest, offerClaim, full, Bool.false_eq_true, if_false]

theorem chooseFor_of_room {s : State} (k : ContextId) {c : Channel} (lowest : channelIds.find? (canTake s) = some c)
    (room : queueTakes s.clc.tx (outgoingClaim s c) = true) : chooseFor k s =
      (((enqueue (outgoingClaim s c) 0 s).modCtx k fun x =>
          { x with state := .claiming, direction := some .outgoing }).setBid k
        (some { channel := c, direction := .outgoing, timer := none, withdrawal := none }), true) := by
  simp only [chooseFor, lowest, offerClaim, room, if_true]

theorem bank_modify_modify {n : Nat} {α : Type} (b : Bank n α) (i : Fin n) (f g : α → α) :
    (b.modify i f).modify i g = b.modify i fun x => g (f x) := by
  refine Bank.ext_get fun j => ?_
  by_cases this : j = i
  · subst this
    simp
  · simp [this]

/-- Settles O34: the checks in order, then `chooseFor` at the lowest FREE context and the lowest channel. -/
theorem outdialClaimsTheLowestChannel : Obligations.OutdialClaimsTheLowestChannel := by
  intro s c q asked p dial lo hi purpose goodDigits takeable claim answer
  have answered {code : Byte} (e : takeOutdial c (popCell s) = sendAnswer c code (popCell s)) : exec .outdial s = answer code :=
    handActive_eq asked e (sendAnswer_quiet c code q)
  have digits : goodDigits → badDigits (c.payload.drop 4) = false := (badDigits_iff _).mpr
  have canTake_of (ch : Channel) : canTake (popCell s) ch = true ↔ takeable ch := canTake_iff (popCell s) ch
  refine ⟨fun bad => ?bad, fun good above => ?above, fun good known => ⟨fun busy => ?busy, fun k free below =>
    ⟨fun none_takeable => ?none, fun ch ok lower => ⟨fun full => ?full, fun room => ?room⟩⟩⟩⟩
  case bad =>
    have refused : badDigits (c.payload.drop 4) = true := by
      rw [← Bool.not_eq_false]
      exact mt (badDigits_iff _).mp bad
    exact answered (by simp only [takeOutdial, refused, if_true])
  case above =>
    have unknown : purposeOf c.payload = none := purposeOf_of_above above
    exact answered (by simp only [takeOutdial, digits good, Bool.false_eq_true, if_false, unknown])
  all_goals
    have named : purposeOf c.payload = some purpose := purposeOf_of_known known
  case busy =>
    have nobody : freeContext? (popCell s) = none := freeContext?_eq_none busy
    exact answered (by simp only [takeOutdial, digits good, Bool.false_eq_true, if_false, named, nobody])
  all_goals
    have somebody : freeContext? (popCell s) = some k := freeContext?_of_lowest (s := popCell s) free below
  case none =>
    have nothing : chooseFor k (popCell s) = (popCell s, false) :=
      chooseFor_of_none k fun d => Bool.eq_false_iff.mpr (mt (canTake_of d).mp (none_takeable d))
    exact answered (by simp only [takeOutdial, digits good, Bool.false_eq_true, if_false, named, somebody, nothing])
  all_goals
    have lowest : channelIds.find? (canTake (popCell s)) = some ch :=
      find_canTake ((canTake_of ch).mpr ok) fun d l => Bool.eq_false_iff.mpr (mt (canTake_of d).mp (lower d l))
  case full =>
    have refused := chooseFor_of_full k lowest full
    exact answered (by simp only [takeOutdial, digits good, Bool.false_eq_true, if_false, named, somebody, refused])
  case room =>
    have taken := chooseFor_of_room k lowest room
    refine handActive_eq asked (t := sendAnswerWith c codeOk (BitVec.ofNat 8 k.val) 0xFF _) ?_ ?_
    · simp only [takeOutdial, digits good, Bool.false_eq_true, if_false, named, somebody, taken]
      refine congrArg _ (State.eq_of_blocks rfl rfl rfl rfl ?_ rfl rfl rfl rfl)
      simp only [modCtx_ctx, setBid_ctx, enqueue_ctx, popCell_ctx, bank_modify_modify]
      rfl
    · rw [State.Quiet, sendAnswerWith_rau]
      exact q

/-! ### CONFIGURE (R38, R40, R41) -/

theorem field_one_lt (p : List Byte) (i : Nat) : field p i 1 < 256 := by
  cases e : p.drop i with
  | nil => simp [field, e, ofBytes]
  | cons b bs =>
    simp only [field, e, ofBytes, List.take_succ_cons, List.take_zero, List.foldl_cons, List.foldl_nil]
    have := b.isLt
    omega

theorem configureRefused_iff (station : Fin 8) (p : List Byte) : configureRefused station p = true ↔ field p 0 1 < 1
    ∨ 8 < field p 0 1 ∨ field p 0 1 ≤ station.val ∨ 3 < field p 16 1 ∨ 999 < field p 17 2 := by
  simp only [configureRefused, Bool.or_eq_true, decide_eq_true_eq, or_assoc]

theorem modEntry_self {s : State} {c : Channel} {f : MapEntry → MapEntry} (same : f (s.entry c) = s.entry c) :
    s.modEntry c f = s := by
  have map : s.tcm.map.modify c f = s.tcm.map := by
    rw [Bank.modify]
    exact (congrArg _ same).trans (Bank.set_get _ c)
  rw [State.modEntry, State.modTcm, map]

theorem settleWith_of_standing {f g : Settling → Settling × Bool} {c : Channel} {s : State}
    (tx : (f (s.entry c).tx).1 = (s.entry c).tx) (rx : g (s.entry c).rx = ((s.entry c).rx, false)) :
    settleWith f g c s = s := by
  have first : (s.modEntry c fun e => { e with tx := (f (s.entry c).tx).1 }) = s := modEntry_self (by rw [tx])
  have second : (s.modEntry c fun e => { e with rx := (s.entry c).rx }) = s := modEntry_self rfl
  simp only [settleWith, first, rx, second, Bool.false_eq_true, if_false]

theorem recount_of_short {count : Nat} {x : Settling} (short : x.run < count) : x.recount count = (x, false) := by
  unfold Settling.recount
  split
  · rw [if_neg (by omega)]
  · rfl

theorem forEach_of_standing {α : Type} {xs : List α} {f : α → State → State} {s : State} (same : ∀ x ∈ xs, f x s = s) :
    forEach xs f s = s := by
  induction xs with
  | nil => rfl
  | cons x xs ih =>
    have rest := ih fun y m => same y (List.mem_cons_of_mem x m)
    rw [forEach, List.foldl_cons, same x List.mem_cons_self]
    exact rest

theorem applySettleCount_of_short {s : State}
    (short : ∀ c, (s.entry c).rx.run < settleCount s ∧ (s.entry c).tx.run < settleCount s) : applySettleCount s = s := by
  refine forEach_of_standing fun c _ => settleWith_of_standing ?_ ?_
  · rw [recount_of_short (short c).2]
  · exact recount_of_short (short c).1

theorem examineBid_of_not_aligned {s : State} (c : Channel) (away : isAligned s = false) : examineBid c s = s := by
  simp [examineBid, canBid, away]

theorem examineHuntSet_of_quiet {s : State} (silent : isAligned s = true → ∀ c, (s.entry c).rx.settled ≠ .seize) :
    examineHuntSet s = s := by
  refine forEach_of_standing fun c _ => ?_
  cases aligned : isAligned s
  · simp [examineBid_of_not_aligned c aligned]
  · simp [silent aligned c]

theorem configure_of_taken {c : Cell} {s : State} (unlocked : s.cfu.config = none)
    (fine : configureRefused s.cfu.station c.payload = false) : configure c s =
      let t := applySettleCount (sendAnswer c codeOk (s.modCfu fun u => { u with config := some (configureRecord c.payload) }))
      if t.cfu.state = .unconfigured then enterActive t else t := by
  simp only [configure, unlocked, Option.isSome_none, Bool.false_eq_true, if_false, fine]

/-- Settles O27: the three checks; the record with its fields clamped; no run settles and no bid starts. -/
theorem configureAnswersByItsChecks : Obligations.ConfigureAnswersByItsChecks := by
  intro s c q asked p refused lo hi g
  refine ⟨fun locked => ?locked, fun unlocked bad => ?refused, fun unlocked fine short silent => ?taken⟩
  case locked =>
    have isLocked : (popCell s).cfu.config.isSome = true := locked
    exact handRequest_eq asked (by simp only [configure, isLocked, if_true]) (sendAnswer_quiet c _ q)
  case refused =>
    have isUnlocked : (popCell s).cfu.config = none := unlocked
    have outOfRange : configureRefused (popCell s).cfu.station c.payload = true := (configureRefused_iff _ _).mpr bad
    refine handRequest_eq asked ?_ (sendAnswer_quiet c _ q)
    simp only [configure, isUnlocked, Option.isSome_none, Bool.false_eq_true, if_false, outOfRange, if_true]
  case taken =>
    have inRange : configureRefused (popCell s).cfu.station c.payload = false :=
      Bool.eq_false_iff.mpr (mt (configureRefused_iff _ _).mp fine)
    have record : configureRecord c.payload = g := by
      have h20 := field_one_lt c.payload 20
      have h25 := field_one_lt c.payload 25
      simp only [configureRecord, rateBounds_eq, clampTo_zero, clampTo_eq _ (show 2 ≤ 120 by decide),
        clampTo_eq _ (show 8 ≤ 64 by decide), clampTo_eq _ (show 4 ≤ 255 by decide), clampTo_eq _ (show 8 ≤ 4095 by decide),
        clampTo_eq _ (show 1 ≤ 255 by decide), clampTo_eq _ (show 50 ≤ 150 by decide), min_eq_right (by omega : field c.payload 20 1 ≤ 255),
        min_eq_right (by omega : field c.payload 25 1 ≤ 255), Nat.mul_comm _ 8, Nat.mul_comm _ 10]
      rfl
    have ⟨_, src⟩ := asked
    let locked : State := (popCell s).modCfu fun u => { u with config := some g }
    let u := sendAnswer c codeOk locked
    have cfu : u.cfu = { (sendAnswer c codeOk (popCell s)).cfu with config := some g } := by
      rw [sendAnswer_cfu src, sendAnswer_cfu src]
      rfl
    have clc : u.clc = (sendAnswer c codeOk (popCell s)).clc := by
      rw [sendAnswer_clc src, sendAnswer_clc src]
      rfl
    have entry (ch : Channel) : u.entry ch = s.entry ch := by
      rw [State.entry, sendAnswer_tcm]
      rfl
    have count : settleCount u = g.settleCount := by
      rw [settleCount, cfu]
    have state : u.cfu.state = s.cfu.state := by
      rw [sendAnswer_cfu src]
      rfl
    have stands : applySettleCount u = u := applySettleCount_of_short fun ch => by
      rw [count, entry]
      exact short ch
    have quiet : u.Quiet := sendAnswer_quiet c codeOk q
    have taken : configure c (popCell s) = if u.cfu.state = .unconfigured then enterActive u else u := by
      rw [configure_of_taken (s := popCell s) unlocked inRange, record]
      dsimp only
      rw [show applySettleCount (sendAnswer c codeOk locked) = u from stands]
    by_cases isUnconfigured : s.cfu.state = .unconfigured
    · have entered : enterActive u = u.modCfu fun x => { x with state := .active } := by
        refine examineHuntSet_of_quiet fun aligned ch => ?_
        have still : isAligned s = true := by
          have hwi : u.hwi = s.hwi := sendAnswer_hwi locked c codeOk
          rw [isAligned, ← hwi]
          exact aligned
        rw [entry_modCfu, entry]
        exact silent isUnconfigured still ch
      rw [state, if_pos isUnconfigured, entered] at taken
      refine ⟨_, handRequest_eq asked taken quiet, ?_, ?_, ?_⟩
      · rw [modCfu_cfu, cfu]
      · rw [if_pos isUnconfigured]
        rfl
      · refine State.eq_of_blocks ?_ clc ?_ ?_ ?_ ?_ ?_ ?_ ?_
        case refine_2 => simp only [modCfu_cfu, cfu]
        all_goals simp [u, locked]
    · rw [state, if_neg isUnconfigured] at taken
      refine ⟨u, handRequest_eq asked taken quiet, by rw [cfu], ?_, ?_⟩
      · rw [if_neg isUnconfigured]
        exact state
      · refine State.eq_of_blocks ?_ clc ?_ ?_ ?_ ?_ ?_ ?_ ?_
        case refine_2 => simp only [cfu]
        all_goals simp [u, locked]

end Sys2Proof.Machine
end

section
/-! PROOFS. What the operations of the queue, of the store, of the remote access unit and of a session leave alone: the
highway, the channel map, and of each context what is read of it. A session's operations change the session parts of their
context alone. -/
namespace Sys2Proof.Machine

/-- A later state with the highway, the configuration unit but for lost reports, the channel map and the free values as they
were, and of each context the same reading. -/
structure Spares {α : Type} (rd : Context → α) (s t : State) : Prop where
  hwi : t.hwi = s.hwi
  cfu : t.cfu = { s.cfu with lostReports := t.cfu.lostReports }
  tcm : t.tcm = s.tcm
  free : t.free = s.free
  pending : t.pending = s.pending
  reading : ∀ k, rd (t.at k) = rd (s.at k)

/-- A context without what its codec and its session units keep for it. -/
def callPart (x : Context) : Context :=
  { x with vcd := .reset, voice := .reset, fax := .reset, qmn := .reset, lkc := .reset, pump := .reset }

namespace Spares

variable {α : Type} {rd : Context → α} {s0 s t : State} {k : ContextId}

theorem refl (rd : Context → α) (s : State) : Spares rd s s := ⟨rfl, rfl, rfl, rfl, rfl, fun _ => rfl⟩

theorem trans (h : Spares rd s0 s) (g : Spares rd s t) : Spares rd s0 t :=
  ⟨g.hwi.trans h.hwi, by rw [g.cfu, h.cfu], g.tcm.trans h.tcm, g.free.trans h.free, g.pending.trans h.pending,
    fun k => (g.reading k).trans (h.reading k)⟩

theorem of_blocks (hwi : t.hwi = s.hwi) (cfu : t.cfu = { s.cfu with lostReports := t.cfu.lostReports })
    (tcm : t.tcm = s.tcm) (free : t.free = s.free) (pending : t.pending = s.pending) (ctx : t.ctx = s.ctx) : Spares rd s t :=
  ⟨hwi, cfu, tcm, free, pending, fun k => by rw [State.at, ctx, State.at]⟩

theorem of_storeOnly (h : StoreOnly s t) : Spares rd s t := of_blocks h.hwi h.cfu h.tcm h.free h.pending h.ctx

theorem faults (h : Spares rd s t) : t.cfu.faults = s.cfu.faults := by rw [h.cfu]

theorem config (h : Spares rd s t) : t.cfu.config = s.cfu.config := by rw [h.cfu]

/-- The state of a pair that an operation answers. -/
theorem of_eq {β : Type} {p : State × β} {a : β} (e : p = (t, a)) (h : Spares rd s0 p.1) : Spares rd s0 t := by
  subst e
  exact h

theorem ctx_eq (h : Spares id s t) : t.ctx = s.ctx := Bank.ext_get h.reading

theorem modClc {f : Clc → Clc} (h : Spares rd s0 s) : Spares rd s0 (s.modClc f) := h.trans (of_blocks rfl rfl rfl rfl rfl rfl)
theorem modCfu {f : Cfu → Cfu} (h : Spares rd s0 s) (same : f s.cfu = { s.cfu with lostReports := (f s.cfu).lostReports }) :
    Spares rd s0 (s.modCfu f) := h.trans (of_blocks rfl same rfl rfl rfl rfl)
theorem modMsc {f : Msc → Msc} (h : Spares rd s0 s) : Spares rd s0 (s.modMsc f) := h.trans (of_blocks rfl rfl rfl rfl rfl rfl)
theorem modRau {f : Rau → Rau} (h : Spares rd s0 s) : Spares rd s0 (s.modRau f) := h.trans (of_blocks rfl rfl rfl rfl rfl rfl)
theorem setOutbound {d : Option OutDeposit} (h : Spares rd s0 s) : Spares rd s0 (s.setOutbound k d) := h.modRau
theorem setFetch {f : Option Fetch} (h : Spares rd s0 s) : Spares rd s0 (s.setFetch k f) := h.modRau
theorem setMsgAt {i : Nat} {m : Option Msg} (h : Spares rd s0 s) : Spares rd s0 (s.setMsgAt i m) :=
  h.trans (of_storeOnly (storeOnly_setMsgAt i m s))

theorem modCtx {f : Context → Context} (h : Spares rd s0 s) (same : rd (f (s.at k)) = rd (s.at k)) :
    Spares rd s0 (s.modCtx k f) := by
  refine h.trans ⟨rfl, rfl, rfl, rfl, rfl, fun j => ?_⟩
  by_cases this : j = k
  · subst this
    rw [at_modCtx, same]
  · rw [at_modCtx_ne _ _ _ _ this]

theorem modVoice {f : Voice → Voice} (h : Spares callPart s0 s) : Spares callPart s0 (s.modVoice k f) := h.modCtx rfl
theorem modVcd {f : Vcd → Vcd} (h : Spares callPart s0 s) : Spares callPart s0 (s.modVcd k f) := h.modCtx rfl
theorem modFax {f : Fax → Fax} (h : Spares callPart s0 s) : Spares callPart s0 (s.modFax k f) := h.modCtx rfl
theorem modQmn {f : Qmn → Qmn} (h : Spares callPart s0 s) : Spares callPart s0 (s.modQmn k f) := h.modCtx rfl
theorem modLkc {f : Lkc → Lkc} (h : Spares callPart s0 s) : Spares callPart s0 (s.modLkc k f) := h.modCtx rfl
theorem modPump {f : Pump → Pump} (h : Spares callPart s0 s) : Spares callPart s0 (s.modPump k f) := h.modCtx rfl

end Spares

section
variable {α : Type} {rd : Context → α}

/-! ### The transmit queue -/

theorem spares_enqueue {s0 s : State} {c : Cell} {serial : Nat} (st : Spares rd s0 s) :
    Spares rd s0 (enqueue c serial s) := by
  unfold enqueue
  try dsimp only
  repeat' (first
    | with_reducible assumption | with_reducible apply Spares.modClc)

theorem spares_countUndelivered {s0 s : State} (st : Spares rd s0 s) :
    Spares rd s0 (countUndelivered s) := by
  unfold countUndelivered
  try dsimp only
  repeat' (first
    | with_reducible assumption | with_reducible apply Spares.modClc)

theorem spares_countLostReport {s0 s : State} (st : Spares rd s0 s) :
    Spares rd s0 (countLostReport s) := by
  unfold countLostReport
  try dsimp only
  repeat' (first
    | with_reducible assumption | (with_reducible refine Spares.modCfu ?_ rfl))

theorem spares_offerReport {s0 s : State} {c : Cell} (st : Spares rd s0 s) :
    Spares rd s0 (offerReport c s) := by
  unfold offerReport
  try dsimp only
  repeat' (first
    | with_reducible assumption | with_reducible apply spares_countLostReport | with_reducible apply spares_enqueue
    | (refine Spares.of_eq ‹_ = (_, _)› ?_) | (dsimp only) | split)

theorem spares_offerOther {s0 s : State} {c : Cell} {serial : Nat} {tellTo : Option ContextId} (st : Spares rd s0 s) :
    Spares rd s0 (offerOther c serial tellTo s) := by
  unfold offerOther
  try dsimp only
  repeat' (first
    | with_reducible assumption | with_reducible apply spares_countUndelivered
    | with_reducible apply spares_enqueue | with_reducible apply Spares.modRau
    | (refine Spares.of_eq ‹_ = (_, _)› ?_) | (dsimp only) | split)

theorem spares_offerStream {s0 s : State} {p : StreamProducer} {c : Cell} (st : Spares rd s0 s) :
    Spares rd s0 (offerStream p c s).1 := by
  unfold offerStream
  try dsimp only
  repeat' (first
    | with_reducible assumption | with_reducible apply spares_enqueue
    | with_reducible apply Spares.modClc | (refine Spares.of_eq ‹_ = (_, _)› ?_) | (dsimp only) | split)

theorem spares_offerClaim {s0 s : State} {c : Channel} {purpose : Direction} (st : Spares rd s0 s) :
    Spares rd s0 (offerClaim c purpose s).1 := by
  unfold offerClaim
  try dsimp only
  repeat' (first
    | with_reducible assumption | with_reducible apply spares_enqueue | (refine Spares.of_eq ‹_ = (_, _)› ?_)
    | (dsimp only) | split)

theorem spares_sendEvent {s0 s : State} {k : Option ContextId} {e : Event} (st : Spares rd s0 s) :
    Spares rd s0 (sendEvent k e s) := by
  unfold sendEvent
  try dsimp only
  repeat' (first
    | with_reducible assumption | with_reducible apply spares_offerReport)

theorem spares_sendAnswerWith {s0 s : State} {request : Cell} {result : Byte} {third : Byte} {fourth : Byte} (st : Spares rd s0 s) :
    Spares rd s0 (sendAnswerWith request result third fourth s) := by
  unfold sendAnswerWith
  try dsimp only
  repeat' (first
    | with_reducible assumption | with_reducible apply spares_offerReport)

theorem spares_sendAnswer {s0 s : State} {request : Cell} {result : Byte} (st : Spares rd s0 s) :
    Spares rd s0 (sendAnswer request result s) := by
  unfold sendAnswer
  try dsimp only
  repeat' (first
    | with_reducible assumption | with_reducible apply spares_sendAnswerWith)

theorem spares_sendRelease {s0 s : State} {c : Channel} (st : Spares rd s0 s) :
    Spares rd s0 (sendRelease c s) := by
  unfold sendRelease
  try dsimp only
  repeat' (first
    | with_reducible assumption | with_reducible apply spares_offerOther)

theorem spares_sendDispute {s0 s : State} {c : Channel} {p : BitVec 4} (st : Spares rd s0 s) :
    Spares rd s0 (sendDispute c p s) := by
  unfold sendDispute
  try dsimp only
  repeat' (first
    | with_reducible assumption | with_reducible apply spares_offerOther)

theorem spares_removeSending {s0 s : State} (st : Spares rd s0 s) :
    Spares rd s0 (removeSending s) := by
  unfold removeSending
  try dsimp only
  repeat' (first
    | with_reducible assumption | with_reducible apply Spares.modClc)

/-! ### The store -/

theorem spares_examineLevel {s0 s : State} (st : Spares rd s0 s) :
    Spares rd s0 (examineLevel s) := by
  unfold examineLevel
  try dsimp only
  repeat' (first
    | with_reducible assumption | with_reducible apply spares_sendEvent | with_reducible apply Spares.modMsc
    | (refine Spares.of_eq ‹_ = (_, _)› ?_) | (dsimp only) | split)

theorem spares_freeBlocks {s0 s : State} {bs : List Nat} (st : Spares rd s0 s) :
    Spares rd s0 (freeBlocks bs s) := by
  unfold freeBlocks
  try dsimp only
  repeat' (first
    | with_reducible assumption | with_reducible apply spares_examineLevel | with_reducible apply Spares.modMsc
    | (refine Spares.of_eq ‹_ = (_, _)› ?_) | (dsimp only) | split)

theorem spares_takeFreeBlock {s0 s : State} (st : Spares rd s0 s) :
    Spares rd s0 (takeFreeBlock s) := by
  unfold takeFreeBlock
  try dsimp only
  repeat' (first
    | with_reducible assumption | with_reducible apply spares_examineLevel | with_reducible apply Spares.modMsc)

theorem spares_setLink {s0 s : State} {n : Nat} {v : Option Nat} (st : Spares rd s0 s) : Spares rd s0 (setLink n v s) :=
  st.modMsc

theorem spares_modMailbox {s0 s : State} {m : Nat} {f : Mbx → Mbx} (st : Spares rd s0 s) :
    Spares rd s0 (modMailbox m f s) := by
  unfold modMailbox
  try dsimp only
  repeat' (first
    | with_reducible assumption | with_reducible apply Spares.modMsc)

theorem spares_freeMessage {s0 s : State} {h : Nat} (st : Spares rd s0 s) :
    Spares rd s0 (freeMessage h s) := by
  unfold freeMessage
  try dsimp only
  repeat' (first
    | with_reducible assumption | with_reducible apply spares_freeBlocks | with_reducible apply Spares.setMsgAt
    | (refine Spares.of_eq ‹_ = (_, _)› ?_) | (dsimp only) | split)

theorem spares_unlistMessage {s0 s : State} {mailbox : Nat} {h : Nat} (st : Spares rd s0 s) :
    Spares rd s0 (unlistMessage mailbox h s) := by
  unfold unlistMessage
  try dsimp only
  repeat' (first
    | with_reducible assumption | with_reducible apply spares_modMailbox)

theorem spares_deleteRecord {s0 s : State} {h : Nat} (st : Spares rd s0 s) :
    Spares rd s0 (deleteRecord h s) := by
  unfold deleteRecord
  try dsimp only
  repeat' (first
    | with_reducible assumption
    | with_reducible apply spares_freeMessage | with_reducible apply Spares.setMsgAt
    | (refine Spares.of_eq ‹_ = (_, _)› ?_) | (dsimp only) | split)

theorem spares_deleteMessage {s0 s : State} {h : Nat} (st : Spares rd s0 s) :
    Spares rd s0 (deleteMessage h s) := by
  unfold deleteMessage
  try dsimp only
  repeat' (first
    | with_reducible assumption | with_reducible apply spares_deleteRecord | with_reducible apply spares_unlistMessage
    | with_reducible apply spares_freeMessage | with_reducible apply Spares.setMsgAt
    | (refine Spares.of_eq ‹_ = (_, _)› ?_) | (dsimp only) | split)

theorem spares_openForWriting {s0 s : State} {mailbox : Nat} {kind : Option MsgKind} {w : Writer} (st : Spares rd s0 s) :
    Spares rd s0 (openForWriting mailbox kind w s).1 := by
  unfold openForWriting
  try dsimp only
  repeat' (first
    | with_reducible assumption | with_reducible apply spares_modMailbox | with_reducible apply Spares.setMsgAt
    | (refine Spares.of_eq ‹_ = (_, _)› ?_) | (dsimp only) | split)

theorem spares_cutChain {s0 s : State} {h : Nat} {n : Nat} (st : Spares rd s0 s) :
    Spares rd s0 (cutChain h n s) := by
  unfold cutChain
  try dsimp only
  repeat' (first
    | with_reducible assumption | with_reducible apply spares_setLink | with_reducible apply spares_freeBlocks
    | with_reducible apply Spares.setMsgAt | (refine Spares.of_eq ‹_ = (_, _)› ?_) | (dsimp only) | split)

theorem spares_discardMessage {s0 s : State} {h : Nat} {m : Msg} (st : Spares rd s0 s) :
    Spares rd s0 (discardMessage h m s) := by
  unfold discardMessage
  try dsimp only
  repeat' (first
    | with_reducible assumption | with_reducible apply spares_freeMessage | with_reducible apply spares_modMailbox)

theorem spares_fileMessage {s0 s : State} {h : Nat} {m : Msg} (st : Spares rd s0 s) :
    Spares rd s0 (fileMessage h m s) := by
  unfold fileMessage
  try dsimp only
  repeat' (first
    | with_reducible assumption | with_reducible apply spares_deleteMessage
    | with_reducible apply spares_modMailbox | (refine Spares.of_eq ‹_ = (_, _)› ?_) | (dsimp only) | split)

theorem spares_closeRecord {s0 s : State} {h : Nat} (st : Spares rd s0 s) :
    Spares rd s0 (closeRecord h s) := by
  unfold closeRecord
  try dsimp only
  repeat' (first
    | with_reducible assumption | with_reducible apply Spares.setMsgAt
    | (refine Spares.of_eq ‹_ = (_, _)› ?_) | (dsimp only) | split)

theorem spares_closeMessage {s0 s : State} {h : Nat} {reason : Byte} (st : Spares rd s0 s) :
    Spares rd s0 (closeMessage h reason s).1 := by
  unfold closeMessage
  try dsimp only
  repeat' (first
    | with_reducible assumption | with_reducible apply spares_closeRecord | with_reducible apply spares_fileMessage
    | with_reducible apply spares_discardMessage | with_reducible apply spares_cutChain
    | with_reducible apply spares_sendEvent | with_reducible apply Spares.setMsgAt
    | (refine Spares.of_eq ‹_ = (_, _)› ?_) | (dsimp only) | split)

theorem spares_closeBy {s0 s : State} {h : Nat} {w : Writer} {reason : Byte} (st : Spares rd s0 s) :
    Spares rd s0 (closeBy h w reason s).1 := by
  unfold closeBy
  try dsimp only
  repeat' (first
    | with_reducible assumption | with_reducible apply spares_closeMessage | (refine Spares.of_eq ‹_ = (_, _)› ?_)
    | (dsimp only) | split)

theorem spares_writeData {s0 s : State} {n : Nat} {block : List Byte} (st : Spares rd s0 s) :
    Spares rd s0 (writeData n block s) := by
  unfold writeData
  try dsimp only
  repeat' (first
    | with_reducible assumption | with_reducible apply Spares.modMsc)

theorem spares_appendBlock {s0 s : State} {h : Nat} {w : Writer} {block : List Byte} {samples : Nat} (st : Spares rd s0 s) :
    Spares rd s0 (appendBlock h w block samples s).1 := by
  unfold appendBlock
  try dsimp only
  repeat' (first
    | with_reducible assumption | with_reducible apply spares_writeData | with_reducible apply spares_closeMessage | with_reducible apply spares_setLink
    | with_reducible apply spares_takeFreeBlock | with_reducible apply Spares.modMsc
    | with_reducible apply Spares.setMsgAt | (refine Spares.of_eq ‹_ = (_, _)› ?_) | (dsimp only) | split)

theorem spares_endPage {s0 s : State} {h : Nat} {w : Writer} {damaged : Bool} (st : Spares rd s0 s) :
    Spares rd s0 (endPage h w damaged s).1 := by
  unfold endPage
  try dsimp only
  repeat' (first
    | with_reducible assumption | with_reducible apply Spares.setMsgAt | (refine Spares.of_eq ‹_ = (_, _)› ?_)
    | (dsimp only) | split)

theorem spares_rollBack {s0 s : State} {h : Nat} {w : Writer} (st : Spares rd s0 s) :
    Spares rd s0 (rollBack h w s).1 := by
  unfold rollBack
  try dsimp only
  repeat' (first
    | with_reducible assumption | with_reducible apply spares_cutChain | (refine Spares.of_eq ‹_ = (_, _)› ?_)
    | (dsimp only) | split)

theorem spares_touchReader {s0 s : State} {h : Nat} {station : Fin 8} {context : Nat} (st : Spares rd s0 s) :
    Spares rd s0 (touchReader h station context s) := by
  unfold touchReader
  try dsimp only
  repeat' (first
    | with_reducible assumption | with_reducible apply Spares.setMsgAt | (refine Spares.of_eq ‹_ = (_, _)› ?_)
    | (dsimp only) | split)

theorem spares_readOpenHandle {s0 s : State} {h : Nat} {station : Fin 8} {context : Nat} (st : Spares rd s0 s) :
    Spares rd s0 (readOpenHandle h station context s).1 := by
  unfold readOpenHandle
  try dsimp only
  repeat' (first
    | with_reducible assumption | with_reducible apply spares_touchReader | with_reducible apply Spares.setMsgAt
    | (refine Spares.of_eq ‹_ = (_, _)› ?_) | (dsimp only) | split)

theorem spares_readOpen {s0 s : State} {what : PlayTarget} {station : Fin 8} {context : Nat} (st : Spares rd s0 s) :
    Spares rd s0 (readOpen what station context s).1 := by
  unfold readOpen
  try dsimp only
  repeat' (first
    | with_reducible assumption | with_reducible apply spares_readOpenHandle
    | (refine Spares.of_eq ‹_ = (_, _)› ?_) | (dsimp only) | split)

theorem spares_readBlockFor {s0 s : State} {h : Nat} {station : Fin 8} {context : Nat} {b : Nat} (st : Spares rd s0 s) :
    Spares rd s0 (readBlockFor h station context b s).1 := by
  unfold readBlockFor
  try dsimp only
  repeat' (first
    | with_reducible assumption | with_reducible apply spares_touchReader | (refine Spares.of_eq ‹_ = (_, _)› ?_)
    | (dsimp only) | split)

theorem spares_leaveMessage {s0 s : State} {h : Nat} {station : Fin 8} {context : Nat} (st : Spares rd s0 s) :
    Spares rd s0 (leaveMessage h station context s) := by
  unfold leaveMessage
  try dsimp only
  repeat' (first
    | with_reducible assumption | with_reducible apply spares_freeMessage | with_reducible apply Spares.setMsgAt
    | (refine Spares.of_eq ‹_ = (_, _)› ?_) | (dsimp only) | split)

/-! ### The remote access unit -/

theorem spares_newSerial {s0 s : State}  (st : Spares rd s0 s) : Spares rd s0 (newSerial s).1 := st.trans (Spares.of_blocks rfl rfl rfl rfl rfl rfl)

theorem spares_releaseHeld {s0 s : State} {p : StreamProducer} (st : Spares rd s0 s) :
    Spares rd s0 (releaseHeld p s) := by
  unfold releaseHeld
  try dsimp only
  repeat' (first
    | with_reducible assumption | with_reducible apply Spares.modClc)

theorem spares_startDeposit {s0 s : State} {k : ContextId} {home : Nat} {mailbox : Nat} {kind : MsgKind} (st : Spares rd s0 s) :
    Spares rd s0 (startDeposit k home mailbox kind s).1 := by
  unfold startDeposit
  try dsimp only
  repeat' (first
    | with_reducible assumption | with_reducible apply spares_newSerial | with_reducible apply spares_offerOther
    | with_reducible apply Spares.setOutbound)

theorem spares_offerFirst {s0 s t : State} {k : ContextId} {d : OutDeposit} {cells : List Cell} (st : Spares rd s0 s)
    (e : depositMove.offerFirst k s d cells = some t) : Spares rd s0 t := by
  unfold depositMove.offerFirst at e
  split at e
  · cases e
  · split at e
    · cases e
    · dsimp only at e
      split at e
      · cases e
        exact (spares_offerStream st).setOutbound
      · cases e
        exact spares_offerStream st

theorem spares_depositMove {s0 s t : State} {k : ContextId} (st : Spares rd s0 s) (e : depositMove k s = some t) :
    Spares rd s0 t := by
  unfold depositMove at e
  repeat' split at e
  all_goals first
    | cases e; done
    | exact spares_offerFirst st e
    | (cases e; exact st.setOutbound)
    | (cases e; exact spares_offerOther st.setOutbound)

theorem spares_depositMoves {s0 s : State} {k : ContextId} {n : Nat} (st : Spares rd s0 s) :
    Spares rd s0 (depositMoves k n s) := by
  induction n generalizing s with
  | zero => exact st
  | succ n ih =>
    unfold depositMoves
    split
    · next e => exact ih (spares_depositMove st e)
    · exact st

theorem spares_pumpDeposit {s0 s : State} {k : ContextId} (st : Spares rd s0 s) :
    Spares rd s0 (pumpDeposit k s) := by
  unfold pumpDeposit
  try dsimp only
  repeat' (first
    | with_reducible assumption | with_reducible apply spares_depositMoves)

theorem spares_handToDeposit {s0 s : State} {k : ContextId} {serial : Nat} {sequence : Option Nat} {block : List Byte} {pageEnd : Bool} {damaged : Bool} (st : Spares rd s0 s) :
    Spares rd s0 (handToDeposit k serial sequence block pageEnd damaged s) := by
  unfold handToDeposit
  try dsimp only
  repeat' (first
    | with_reducible assumption | with_reducible apply spares_pumpDeposit | with_reducible apply Spares.setOutbound
    | (refine Spares.of_eq ‹_ = (_, _)› ?_) | (dsimp only) | split)

theorem spares_askRollback {s0 s : State} {k : ContextId} {serial : Nat} {page : Nat} (st : Spares rd s0 s) :
    Spares rd s0 (askRollback k serial page s) := by
  unfold askRollback
  try dsimp only
  repeat' (first
    | with_reducible assumption | with_reducible apply spares_pumpDeposit | with_reducible apply Spares.setOutbound
    | (refine Spares.of_eq ‹_ = (_, _)› ?_) | (dsimp only) | split)

theorem spares_askClose {s0 s : State} {k : ContextId} {serial : Nat} {ask : CloseAsk} (st : Spares rd s0 s) :
    Spares rd s0 (askClose k serial ask s) := by
  unfold askClose
  try dsimp only
  repeat' (first
    | with_reducible assumption | with_reducible apply spares_pumpDeposit | with_reducible apply Spares.setOutbound
    | (refine Spares.of_eq ‹_ = (_, _)› ?_) | (dsimp only) | split)

theorem spares_freeDeposit {s0 s : State} {k : ContextId} (st : Spares rd s0 s) :
    Spares rd s0 (freeDeposit k s) := by
  unfold freeDeposit
  try dsimp only
  repeat' (first
    | with_reducible assumption | with_reducible apply spares_releaseHeld | with_reducible apply Spares.setOutbound)

theorem spares_takeAccept {s0 s : State} {k : Option ContextId} {c : Cell} (st : Spares rd s0 s) :
    Spares rd s0 (takeAccept k c s) := by
  unfold takeAccept
  try dsimp only
  repeat' (first
    | with_reducible assumption | with_reducible apply spares_pumpDeposit | with_reducible apply spares_offerOther
    | with_reducible apply Spares.setOutbound | (refine Spares.of_eq ‹_ = (_, _)› ?_) | (dsimp only) | split)

theorem spares_takeBlockTaken {s0 s : State} {k : ContextId} {c : Cell} (st : Spares rd s0 s) :
    Spares rd s0 (takeBlockTaken k c s) := by
  unfold takeBlockTaken
  try dsimp only
  repeat' (first
    | with_reducible assumption | with_reducible apply spares_pumpDeposit | with_reducible apply Spares.setOutbound
    | (refine Spares.of_eq ‹_ = (_, _)› ?_) | (dsimp only) | split)

theorem spares_sendForFetch {s0 s : State} {k : ContextId} {c : Cell} {serial : Nat} {tell : Bool} (st : Spares rd s0 s) :
    Spares rd s0 (sendForFetch k c serial tell s) := by
  unfold sendForFetch
  try dsimp only
  repeat' (first
    | with_reducible assumption | with_reducible apply spares_offerOther | with_reducible apply Spares.setFetch
    | (refine Spares.of_eq ‹_ = (_, _)› ?_) | (dsimp only) | split)

theorem spares_startFetch {s0 s : State} {k : ContextId} {home : Nat} {handle : Option Nat} {mailbox : Option Nat} (st : Spares rd s0 s) :
    Spares rd s0 (startFetch k home handle mailbox s) := by
  unfold startFetch
  try dsimp only
  repeat' (first
    | with_reducible assumption | with_reducible apply spares_sendForFetch | with_reducible apply spares_newSerial
    | with_reducible apply Spares.setFetch)

theorem spares_endFetch {s0 s : State} {k : ContextId} (st : Spares rd s0 s) :
    Spares rd s0 (endFetch k s) := by
  unfold endFetch
  try dsimp only
  repeat' (first
    | with_reducible assumption | with_reducible apply spares_offerOther | with_reducible apply Spares.setFetch
    | (refine Spares.of_eq ‹_ = (_, _)› ?_) | (dsimp only) | split)

theorem spares_fetchAsk {s0 s : State} {k : ContextId} {index : Nat} (st : Spares rd s0 s) :
    Spares rd s0 (fetchAsk k index s) := by
  unfold fetchAsk
  try dsimp only
  repeat' (first
    | with_reducible assumption | with_reducible apply spares_sendForFetch | with_reducible apply Spares.setFetch
    | (refine Spares.of_eq ‹_ = (_, _)› ?_) | (dsimp only) | split)

theorem spares_fetchSettle {s0 s : State} {k : ContextId} {index : Nat} (st : Spares rd s0 s) :
    Spares rd s0 (fetchSettle k index s) := by
  unfold fetchSettle
  try dsimp only
  repeat' (first
    | with_reducible assumption | with_reducible apply Spares.setFetch | (refine Spares.of_eq ‹_ = (_, _)› ?_)
    | (dsimp only) | split)

theorem spares_fetchHeard {s0 s : State} {k : ContextId} (st : Spares rd s0 s) :
    Spares rd s0 (fetchHeard k s) := by
  unfold fetchHeard
  try dsimp only
  repeat' (first
    | with_reducible assumption | with_reducible apply Spares.setFetch | (refine Spares.of_eq ‹_ = (_, _)› ?_)
    | (dsimp only) | split)

theorem spares_openFetch {s0 s : State} {k : ContextId} {handle : Nat} (st : Spares rd s0 s) :
    Spares rd s0 (openFetch k handle s) := by
  unfold openFetch
  try dsimp only
  repeat' (first
    | with_reducible assumption | with_reducible apply Spares.setFetch | (refine Spares.of_eq ‹_ = (_, _)› ?_)
    | (dsimp only) | split)

theorem spares_modDeposit {s0 s : State} {h : Nat} {f : DepositEntry → DepositEntry} (st : Spares rd s0 s) :
    Spares rd s0 (modDeposit h f s) := by
  unfold modDeposit
  try dsimp only
  repeat' (first
    | with_reducible assumption | with_reducible apply Spares.modRau)

theorem spares_removeDeposit {s0 s : State} {h : Nat} (st : Spares rd s0 s) : Spares rd s0 (removeDeposit h s) :=
  st.modRau

theorem spares_heardDepositor {s0 s : State} {h : Nat} (st : Spares rd s0 s) :
    Spares rd s0 (heardDepositor h s) := by
  unfold heardDepositor
  try dsimp only
  repeat' (first
    | with_reducible assumption | with_reducible apply spares_modDeposit)

theorem spares_toDepositor {s0 s : State} {e : DepositEntry} {kind : Byte} {payload : List Byte} (st : Spares rd s0 s) :
    Spares rd s0 (toDepositor e kind payload s) := by
  unfold toDepositor
  try dsimp only
  repeat' (first
    | with_reducible assumption | with_reducible apply spares_offerOther)

theorem spares_sendDepositRefuse {s0 s : State} {dst : BitVec 4} {tag : Byte} {cause : Byte} {handle : Option Nat} (st : Spares rd s0 s) :
    Spares rd s0 (sendDepositRefuse dst tag cause handle s) := by
  unfold sendDepositRefuse
  try dsimp only
  repeat' (first
    | with_reducible assumption | with_reducible apply spares_offerOther)

theorem spares_writeDeposited {s0 s : State} {h : Nat} {block : List Byte} {damaged : Bool} (st : Spares rd s0 s) :
    Spares rd s0 (writeDeposited h block damaged s) := by
  unfold writeDeposited
  try dsimp only
  repeat' (first
    | with_reducible assumption | with_reducible apply spares_sendDepositRefuse
    | with_reducible apply spares_toDepositor | with_reducible apply spares_removeDeposit
    | with_reducible apply spares_modDeposit | with_reducible apply spares_endPage
    | with_reducible apply spares_appendBlock | (refine Spares.of_eq ‹_ = (_, _)› ?_) | (dsimp only) | split)

theorem spares_writeAssembly {s0 s : State} {h : Nat} (st : Spares rd s0 s) :
    Spares rd s0 (writeAssembly h s) := by
  unfold writeAssembly
  try dsimp only
  repeat' (first
    | with_reducible assumption | with_reducible apply spares_writeDeposited
    | (refine Spares.of_eq ‹_ = (_, _)› ?_) | (dsimp only) | split)

theorem spares_writeGaps {s0 s : State} {h n : Nat} (st : Spares rd s0 s) : Spares rd s0 (writeGaps h n s) := by
  induction n generalizing s with
  | zero => exact st
  | succ n ih =>
    unfold writeGaps
    split
    · exact st
    · exact ih (spares_writeDeposited st)

theorem spares_closeEntry {s0 s : State} {h : Nat} {reason : Byte} {tell : Bool} (st : Spares rd s0 s) :
    Spares rd s0 (closeEntry h reason tell s) := by
  unfold closeEntry
  try dsimp only
  repeat' (first
    | with_reducible assumption | with_reducible apply spares_toDepositor
    | with_reducible apply spares_removeDeposit | with_reducible apply spares_closeBy
    | (refine Spares.of_eq ‹_ = (_, _)› ?_) | (dsimp only) | split)

theorem spares_silenceClose {s0 s : State} {h : Nat} {tell : Bool} (st : Spares rd s0 s) :
    Spares rd s0 (silenceClose h tell s) := by
  unfold silenceClose
  try dsimp only
  repeat' (first
    | with_reducible assumption | with_reducible apply spares_closeEntry
    | with_reducible apply spares_writeAssembly)

theorem spares_takeDepositOpen {s0 s : State} {station : Fin 8} {c : Cell} (st : Spares rd s0 s) :
    Spares rd s0 (takeDepositOpen station c s) := by
  unfold takeDepositOpen
  try dsimp only
  repeat' (first
    | with_reducible assumption | with_reducible apply spares_silenceClose
    | with_reducible apply spares_sendDepositRefuse | with_reducible apply spares_toDepositor
    | with_reducible apply spares_openForWriting | with_reducible apply Spares.modRau
    | (refine Spares.of_eq ‹_ = (_, _)› ?_) | (dsimp only) | split)

theorem spares_placePart {s0 s : State} {h : Nat} {partNo : Nat} {pageEnd : Bool} {damaged : Bool} {bytes : List Byte} (st : Spares rd s0 s) :
    Spares rd s0 (placePart h partNo pageEnd damaged bytes s) := by
  unfold placePart
  try dsimp only
  repeat' (first
    | with_reducible assumption | with_reducible apply spares_writeAssembly
    | with_reducible apply spares_modDeposit | (refine Spares.of_eq ‹_ = (_, _)› ?_) | (dsimp only) | split)

theorem spares_takeDepositData {s0 s : State} {station : Fin 8} {c : Cell} (st : Spares rd s0 s) :
    Spares rd s0 (takeDepositData station c s) := by
  unfold takeDepositData
  try dsimp only
  repeat' (first
    | with_reducible assumption | with_reducible apply spares_placePart | with_reducible apply spares_closeEntry
    | with_reducible apply spares_writeGaps | with_reducible apply spares_writeAssembly
    | with_reducible apply spares_heardDepositor | (refine Spares.of_eq ‹_ = (_, _)› ?_) | (dsimp only) | split)

theorem spares_takeRollback {s0 s : State} {station : Fin 8} {c : Cell} (st : Spares rd s0 s) :
    Spares rd s0 (takeRollback station c s) := by
  unfold takeRollback
  try dsimp only
  repeat' (first
    | with_reducible assumption | with_reducible apply spares_writeAssembly
    | with_reducible apply spares_heardDepositor | with_reducible apply spares_rollBack
    | (refine Spares.of_eq ‹_ = (_, _)› ?_) | (dsimp only) | split)

theorem spares_setLastSamples {s0 s : State} {h : Nat} {lastSequence : Nat} {samples : Nat} (st : Spares rd s0 s) :
    Spares rd s0 (setLastSamples h lastSequence samples s) := by
  unfold setLastSamples
  try dsimp only
  repeat' (first
    | with_reducible assumption | with_reducible apply Spares.setMsgAt | (refine Spares.of_eq ‹_ = (_, _)› ?_)
    | (dsimp only) | split)

theorem spares_takeDepositClose {s0 s : State} {station : Fin 8} {c : Cell} (st : Spares rd s0 s) :
    Spares rd s0 (takeDepositClose station c s) := by
  unfold takeDepositClose
  try dsimp only
  repeat' (first
    | with_reducible assumption | with_reducible apply spares_setLastSamples
    | with_reducible apply spares_closeEntry | with_reducible apply spares_writeAssembly
    | with_reducible apply spares_sendDepositRefuse | with_reducible apply spares_heardDepositor
    | (refine Spares.of_eq ‹_ = (_, _)› ?_) | (dsimp only) | split)

theorem spares_sendFetchRefuse {s0 s : State} {c : Cell} {cause : Byte} {handle : Nat} (st : Spares rd s0 s) :
    Spares rd s0 (sendFetchRefuse c cause handle s) := by
  unfold sendFetchRefuse
  try dsimp only
  repeat' (first
    | with_reducible assumption | with_reducible apply spares_offerOther)

theorem spares_takeFetchOpen {s0 s : State} {station : Fin 8} {c : Cell} (st : Spares rd s0 s) :
    Spares rd s0 (takeFetchOpen station c s) := by
  unfold takeFetchOpen
  try dsimp only
  repeat' (first
    | with_reducible assumption | with_reducible apply spares_sendFetchRefuse
    | with_reducible apply spares_readOpen | with_reducible apply spares_offerOther
    | (refine Spares.of_eq ‹_ = (_, _)› ?_) | (dsimp only) | split)

theorem spares_fetchMove {s0 s t : State} (st : Spares rd s0 s) (e : fetchMove s = some t) : Spares rd s0 t := by
  unfold fetchMove at e
  split at e
  · cases e
  · split at e
    · cases e
    · dsimp only at e
      split at e <;> cases e
      · exact (spares_offerStream st).modRau
      · exact spares_offerStream st

theorem spares_fetchMoves {s0 s : State} {n : Nat} (st : Spares rd s0 s) : Spares rd s0 (fetchMoves n s) := by
  induction n generalizing s with
  | zero => exact st
  | succ n ih =>
    unfold fetchMoves
    split
    · next e => exact ih (spares_fetchMove st e)
    · exact st

theorem spares_pumpFetchData {s0 s : State} (st : Spares rd s0 s) :
    Spares rd s0 (pumpFetchData s) := by
  unfold pumpFetchData
  try dsimp only
  repeat' (first
    | with_reducible assumption | with_reducible apply spares_fetchMoves)

theorem spares_dropPending {s0 s : State} {keep : PendingBlock → Bool} (st : Spares rd s0 s) :
    Spares rd s0 (dropPending keep s) := by
  unfold dropPending
  try dsimp only
  repeat' (first
    | with_reducible assumption | with_reducible apply spares_pumpFetchData
    | with_reducible apply spares_releaseHeld | with_reducible apply Spares.modRau
    | (refine Spares.of_eq ‹_ = (_, _)› ?_) | (dsimp only) | split)

theorem spares_makeRoomFor {s0 s : State} {station : Fin 8} {context : Nat} (st : Spares rd s0 s) :
    Spares rd s0 (makeRoomFor station context s) := by
  unfold makeRoomFor
  try dsimp only
  repeat' (first
    | with_reducible assumption | with_reducible apply spares_releaseHeld | with_reducible apply Spares.modRau
    | (refine Spares.of_eq ‹_ = (_, _)› ?_) | (dsimp only) | split)

theorem spares_takeFetchBlock {s0 s : State} {station : Fin 8} {c : Cell} (st : Spares rd s0 s) :
    Spares rd s0 (takeFetchBlock station c s) := by
  unfold takeFetchBlock
  try dsimp only
  repeat' (first
    | with_reducible assumption | with_reducible apply spares_makeRoomFor
    | with_reducible apply spares_pumpFetchData | with_reducible apply spares_sendFetchRefuse
    | with_reducible apply spares_readBlockFor | with_reducible apply Spares.modRau
    | (refine Spares.of_eq ‹_ = (_, _)› ?_) | (dsimp only) | split)

theorem spares_dropReader {s0 s : State} {h : Nat} {station : Fin 8} {context : Nat} (st : Spares rd s0 s) :
    Spares rd s0 (dropReader h station context s) := by
  unfold dropReader
  try dsimp only
  repeat' (first
    | with_reducible assumption | with_reducible apply spares_dropPending
    | with_reducible apply spares_leaveMessage)

end

/-! ### A session -/

theorem spares_leaveSource {s0 s : State} {k : ContextId} {source : Option Source} (st : Spares callPart s0 s) :
    Spares callPart s0 (leaveSource k source s) := by
  unfold leaveSource
  try dsimp only
  repeat' (first
    | with_reducible assumption | with_reducible apply spares_endFetch | with_reducible apply spares_leaveMessage
    | (refine Spares.of_eq ‹_ = (_, _)› ?_) | (dsimp only) | split)

theorem spares_stopPlayback {s0 s : State} {k : ContextId} (st : Spares callPart s0 s) :
    Spares callPart s0 (stopPlayback k s) := by
  unfold stopPlayback
  try dsimp only
  repeat' (first
    | with_reducible assumption | with_reducible apply spares_leaveSource | with_reducible apply Spares.modVcd)

theorem spares_sendPlayDone {s0 s : State} {k : ContextId} {result : Byte} (st : Spares callPart s0 s) :
    Spares callPart s0 (sendPlayDone k result s) := by
  unfold sendPlayDone
  try dsimp only
  repeat' (first
    | with_reducible assumption | with_reducible apply spares_sendEvent)

theorem spares_sendRecordDone {s0 s : State} {k : ContextId} {home : Nat} {handle : Option Nat} {blocks : Option Nat} {result : Byte} {flags : Option Nat} (st : Spares callPart s0 s) :
    Spares callPart s0 (sendRecordDone k home handle blocks result flags s) := by
  unfold sendRecordDone
  try dsimp only
  repeat' (first
    | with_reducible assumption | with_reducible apply spares_sendEvent)

theorem spares_reportClose {s0 s : State} {k : ContextId} {h : Nat} {result : Byte} {r : CloseReport} (st : Spares callPart s0 s) :
    Spares callPart s0 (reportClose k h result r s) := by
  unfold reportClose
  try dsimp only
  repeat' (first
    | with_reducible assumption | with_reducible apply spares_sendRecordDone)

theorem spares_handOn {s0 s : State} {k : ContextId} {f : Finished} (st : Spares callPart s0 s) :
    Spares callPart s0 (handOn k f s).1 := by
  unfold handOn
  try dsimp only
  repeat' (first
    | with_reducible assumption | with_reducible apply spares_handToDeposit
    | with_reducible apply spares_appendBlock | with_reducible apply Spares.modVoice
    | (refine Spares.of_eq ‹_ = (_, _)› ?_) | (dsimp only) | split)

theorem spares_dropRecording {s0 s : State} {k : ContextId} (st : Spares callPart s0 s) :
    Spares callPart s0 (dropRecording k s) := by
  unfold dropRecording
  try dsimp only
  repeat' (first
    | with_reducible assumption | with_reducible apply Spares.modVoice | with_reducible apply Spares.modVcd)

theorem spares_abandonRecording {s0 s : State} {k : ContextId} (st : Spares callPart s0 s) :
    Spares callPart s0 (abandonRecording k s) := by
  unfold abandonRecording
  try dsimp only
  repeat' (first
    | with_reducible assumption | with_reducible apply spares_dropRecording | with_reducible apply Spares.modVoice
    | with_reducible apply Spares.modVcd | (dsimp only) | split)

theorem spares_closeRecording {s0 s : State} {k : ContextId} {reason : Byte} {last : Option (Nat × Nat)} (st : Spares callPart s0 s) :
    Spares callPart s0 (closeRecording k reason last s) := by
  unfold closeRecording
  try dsimp only
  repeat' (first
    | with_reducible assumption | with_reducible apply spares_reportClose
    | with_reducible apply spares_sendRecordDone | with_reducible apply spares_askClose
    | with_reducible apply spares_closeBy | (refine Spares.of_eq ‹_ = (_, _)› ?_) | (dsimp only) | split)

theorem spares_finishRecording {s0 s : State} {k : ContextId} {reason : Byte} (st : Spares callPart s0 s) :
    Spares callPart s0 (finishRecording k reason s) := by
  unfold finishRecording
  try dsimp only
  repeat' (first
    | with_reducible assumption | with_reducible apply spares_closeRecording
    | with_reducible apply spares_dropRecording | with_reducible apply spares_handOn
    | with_reducible apply spares_reportClose | with_reducible apply Spares.modVcd
    | (refine Spares.of_eq ‹_ = (_, _)› ?_) | (dsimp only) | split)

theorem spares_closeFaxTarget {s0 s : State} {k : ContextId} {reason : Byte} (st : Spares callPart s0 s) :
    Spares callPart s0 (closeFaxTarget k reason s) := by
  unfold closeFaxTarget
  try dsimp only
  repeat' (first
    | with_reducible assumption | with_reducible apply spares_askClose | with_reducible apply spares_closeBy
    | with_reducible apply Spares.modFax | (refine Spares.of_eq ‹_ = (_, _)› ?_) | (dsimp only) | split)

theorem spares_leaveFaxSource {s0 s : State} {k : ContextId} (st : Spares callPart s0 s) :
    Spares callPart s0 (leaveFaxSource k s) := by
  unfold leaveFaxSource
  try dsimp only
  repeat' (first
    | with_reducible assumption | with_reducible apply spares_leaveSource | with_reducible apply Spares.modFax
    | (refine Spares.of_eq ‹_ = (_, _)› ?_) | (dsimp only) | split)

theorem spares_sendFaxDone {s0 s : State} {k : ContextId} {result : Byte} (st : Spares callPart s0 s) :
    Spares callPart s0 (sendFaxDone k result s) := by
  unfold sendFaxDone
  try dsimp only
  repeat' (first
    | with_reducible assumption | with_reducible apply spares_sendEvent)

theorem spares_clearFax {s0 s : State} {k : ContextId} (st : Spares callPart s0 s) :
    Spares callPart s0 (clearFax k s) := by
  unfold clearFax
  try dsimp only
  repeat' (first
    | with_reducible assumption | with_reducible apply Spares.modFax | with_reducible apply Spares.modPump)

theorem spares_windDownFax {s0 s : State} {k : ContextId} {cause : Byte} (st : Spares callPart s0 s) :
    Spares callPart s0 (windDownFax k cause s) := by
  unfold windDownFax
  try dsimp only
  repeat' (first
    | with_reducible assumption | with_reducible apply spares_clearFax | with_reducible apply spares_sendFaxDone
    | with_reducible apply spares_leaveFaxSource | with_reducible apply spares_closeFaxTarget)

theorem spares_stopData {s0 s : State} {k : ContextId} (st : Spares callPart s0 s) :
    Spares callPart s0 (stopData k s) := by
  unfold stopData
  try dsimp only
  repeat' (first
    | with_reducible assumption | with_reducible apply spares_releaseHeld | with_reducible apply Spares.modQmn
    | with_reducible apply Spares.modLkc | with_reducible apply Spares.modPump)

theorem spares_windDownVoice {s0 s : State} {k : ContextId} {cause : Byte} (st : Spares callPart s0 s) :
    Spares callPart s0 (windDownVoice k cause s) := by
  unfold windDownVoice
  try dsimp only
  repeat' (first
    | with_reducible assumption | with_reducible apply spares_finishRecording
    | with_reducible apply spares_sendPlayDone | with_reducible apply spares_stopPlayback
    | (refine Spares.of_eq ‹_ = (_, _)› ?_) | (dsimp only) | split)

theorem spares_stopGreeting {s0 s : State} {k : ContextId} (st : Spares callPart s0 s) :
    Spares callPart s0 (stopGreeting k s) := by
  unfold stopGreeting
  try dsimp only
  repeat' (first
    | with_reducible assumption | with_reducible apply spares_stopPlayback | (refine Spares.of_eq ‹_ = (_, _)› ?_)
    | (dsimp only) | split)

theorem spares_windDown {s0 s : State} {k : ContextId} {cause : Byte} (st : Spares callPart s0 s) :
    Spares callPart s0 (windDown k cause s) := by
  unfold windDown
  try dsimp only
  repeat' (first
    | with_reducible assumption | with_reducible apply spares_stopGreeting
    | with_reducible apply spares_windDownVoice | with_reducible apply spares_stopData
    | with_reducible apply spares_windDownFax | (refine Spares.of_eq ‹_ = (_, _)› ?_) | (dsimp only) | split)

end Sys2Proof.Machine
end

section
/-! PROOFS. The family of the ends of calls: the record a call leaves, what the notices of its end can still do, and DROP, the
waits that end a call, DISPUTE and CLAIM (R30, R53, R59, R61 to R64, R67, R68, R73, R82 to R84, R147). -/
namespace Sys2Proof.Machine

namespace Spares

/-- A reading that another one determines is spared with it. -/
theorem mono {α β : Type} {rd : Context → α} {rd' : Context → β} {s t : State} (h : Spares rd s t)
    (determined : ∀ x y, rd x = rd y → rd' x = rd' y) : Spares rd' s t :=
  ⟨h.hwi, h.cfu, h.tcm, h.free, h.pending, fun k => determined _ _ (h.reading k)⟩

end Spares

/-! ### The notices of a context without a session (R29, R124, R134) -/

/-- A context in which no cell's outcome ends anything but its own record. -/
structure Sessionless (x : Context) : Prop where
  session : x.session = .none
  voice : x.voice = Voice.reset

theorem sessionless_reset : Sessionless Context.reset := ⟨rfl, rfl⟩

theorem spares_reportDeposit {α : Type} (rd : Context → α) (k : ContextId) (d : OutDeposit) (o : DepositOutcome) (s : State) :
    Spares rd s (reportDeposit k d o s) := by
  have sent (home : Nat) (handle blocks : Option Nat) (result : Byte) (flags : Option Nat) :
      Spares rd s (sendRecordDone k home handle blocks result flags s) := spares_sendEvent (Spares.refl rd s)
  unfold reportDeposit
  split
  · exact sent ..
  · exact sent ..
  · exact sent ..
  · split
    · exact sent ..
    · exact sent ..

theorem Sessionless.congr {x y : Context} (h : Sessionless x) (e : y = x) : Sessionless y := e ▸ h

theorem Spares.at_eq {s t : State} (h : Spares id s t) (k : ContextId) : t.at k = s.at k := h.reading k

theorem recordingDepositEnded_of_sessionless {s : State} {k : ContextId} (idle : Sessionless (s.at k)) (d : OutDeposit)
    (o : DepositOutcome) : recordingDepositEnded k d o s = reportDeposit k d o s := by
  have notRunning : (s.at k).voice.activity ≠ .recording := by rw [idle.voice]; decide
  simp [recordingDepositEnded, notRunning]

theorem faxDepositEnded_of_no_fax {s : State} {k : ContextId} (other : (s.at k).session ≠ .fax) (d : OutDeposit)
    (o : DepositOutcome) : faxDepositEnded k d o s = s := by
  simp [faxDepositEnded, other]

theorem afterDeposit_of_sessionless {s : State} {k : ContextId} (idle : Sessionless (s.at k)) : afterDeposit k s = s := by
  simp [afterDeposit, idle.session, idle.voice, Voice.reset]

theorem spares_depositEnds_of_sessionless {s : State} {k : ContextId} (idle : Sessionless (s.at k)) (d : OutDeposit)
    (o : DepositOutcome) : Spares id s (depositEnds k d o s) := by
  have freed : Spares id s (freeDeposit k s) := spares_freeDeposit (Spares.refl id s)
  have idle' : Sessionless ((freeDeposit k s).at k) := idle.congr (freed.at_eq k)
  have other : ((freeDeposit k s).at k).session ≠ .fax := by rw [idle'.session]; decide
  unfold depositEnds
  dsimp only
  split
  · rw [faxDepositEnded_of_no_fax other, afterDeposit_of_sessionless idle']
    exact freed
  · have told := freed.trans (spares_reportDeposit id k d o (freeDeposit k s))
    rw [recordingDepositEnded_of_sessionless idle', afterDeposit_of_sessionless (idle.congr (told.at_eq k))]
    exact told

theorem fetchEnds_of_sessionless {s : State} {k : ContextId} (idle : Sessionless (s.at k)) (o : FetchOutcome) :
    fetchEnds k o s = endFetch k s := by
  have notPlaying : fetchPlays (s.at k) = false := by
    rw [fetchPlays, idle.voice]
    rfl
  simp [fetchEnds, notPlaying, idle.session]

theorem spares_undelivered_of_sessionless {s : State} {k : ContextId} (idle : Sessionless (s.at k)) (kind : Byte)
    (serial : Nat) : Spares id s (undelivered k kind serial s) := by
  unfold undelivered
  split
  · split
    · split
      · rw [fetchEnds_of_sessionless idle]
        exact spares_endFetch (Spares.refl id s)
      · exact Spares.refl id s
    · exact Spares.refl id s
  · split
    · split
      · exact spares_depositEnds_of_sessionless idle _ _
      · exact Spares.refl id s
    · exact Spares.refl id s

/-- A context that no outcome of a cell changes stands while the notices are told. -/
theorem spares_settleNotices_of {Q : Context → Prop} {k : ContextId} {n : Nat} {s : State}
    (told : ∀ (t : State) (kind : Byte) (serial : Nat), Q (t.at k) → Spares id t (undelivered k kind serial t))
    (ours : ∀ x ∈ s.rau.notices, x.context = k) (idle : Q (s.at k)) : Spares id s (settleNotices n s) := by
  induction n generalizing s with
  | zero => exact Spares.refl id s
  | succ n ih =>
    unfold settleNotices
    split
    · exact Spares.refl id s
    · next x rest notices =>
      have mine : x.context = k := ours x (by rw [notices]; exact List.mem_cons_self)
      have left : ∀ y ∈ (s.modRau fun r => { r with notices := rest }).rau.notices, y.context = k := fun y m =>
        ours y (by rw [notices]; exact List.mem_cons_of_mem x m)
      have same : Spares id s (undelivered k x.kind x.serial (s.modRau fun r => { r with notices := rest })) :=
        (Spares.refl id s).modRau.trans (told _ x.kind x.serial idle)
      rw [mine]
      refine same.trans (ih ((apart_undelivered (Apart.refl k _)).notices left) ?_)
      rw [same.at_eq k]
      exact idle

theorem spares_settle_of {Q : Context → Prop} {s t : State} {k : ContextId}
    (told : ∀ (t : State) (kind : Byte) (serial : Nat), Q (t.at k) → Spares id t (undelivered k kind serial t))
    (q : s.Quiet) (apart : Apart k s t) (idle : Q (t.at k)) : Spares id t (settle t) := by
  have ours : ∀ x ∈ t.rau.notices, x.context = k := apart.notices fun x m => by rw [q] at m; cases m
  exact (spares_settleNotices_of told ours idle).modRau

/-- Once its context has no session, the notices a command caused change no context any more. -/
theorem spares_settle_of_sessionless {s t : State} {k : ContextId} (q : s.Quiet) (apart : Apart k s t)
    (idle : Sessionless (t.at k)) : Spares id t (settle t) :=
  spares_settle_of (fun _ kind serial idle => spares_undelivered_of_sessionless idle kind serial) q apart idle

/-! ### The end of a call (R67, R73) -/

/-- The record of a context that enters CLEARING (R67). -/
def clearingRecord (x : Context) : Context := { x with
  state := .clearing, session := .none, timer := some 2000, clearing := 0, txCode := .idle
  outgoing := none, dgn := .reset, voice := .reset, fax := .reset, qmn := .reset, lkc := .reset, pump := .reset }

theorem sessionless_clearingRecord (x : Context) : Sessionless (clearingRecord x) := ⟨rfl, rfl⟩

theorem enterClearing_of_channel {s : State} {k : ContextId} {c : Channel} (channel : (s.at k).channel = some c) :
    enterClearing k s = sendRelease c (s.modCtx k clearingRecord) := by
  simp only [enterClearing, channel]
  rfl

theorem at_sendRelease (c : Channel) (s : State) (j : ContextId) : (sendRelease c s).at j = s.at j := by
  rw [State.at, sendRelease_ctx, State.at]

theorem at_enterClearing (k : ContextId) (s : State) : (enterClearing k s).at k = clearingRecord (s.at k) := by
  cases channel : (s.at k).channel with
  | none =>
    simp only [enterClearing, channel]
    exact at_modCtx _ _ _
  | some c => rw [enterClearing_of_channel channel, at_sendRelease, at_modCtx]

/-- Whether a cause leaves a call by CLEARING (R73, step 5). -/
def clears (cause : Byte) : Bool := cause != codeLostClaim && cause != codeContention && cause != codeHighwayLost

theorem leaveChannel_of_clears {cause : Byte} (h : clears cause = true) (k : ContextId) (s : State) :
    leaveChannel k cause s = enterClearing k s := by
  simp only [clears, Bool.and_eq_true, bne_iff_ne, ne_eq] at h
  obtain ⟨⟨notLost, notContention⟩, notHighway⟩ := h
  simp [leaveChannel, notLost, notContention, notHighway]

theorem endCall_eq {s : State} {k : ContextId} (cause : Byte) (call : inCall (s.at k) = true) :
    endCall k cause s = leaveChannel k cause (sendEvent (some k) (.callEnded cause)
      (outdialDone k cause (windDown k cause (announceUnknown k s)))) := if_pos call

/-- A context without the two marks of what has been reported of its call. -/
def unreported (x : Context) : Context := { callPart x with announced := false, outdialDone := false }

theorem unreported_of_callPart {x y : Context} (h : callPart x = callPart y) : unreported x = unreported y := by
  rw [unreported, h, unreported]

theorem spares_announceUnknown (k : ContextId) (s : State) : Spares unreported s (announceUnknown k s) := by
  unfold announceUnknown
  dsimp only
  split
  · exact (spares_sendEvent (Spares.refl unreported s)).modCtx rfl
  · exact Spares.refl unreported s

theorem spares_outdialDone (k : ContextId) (result : Byte) (s : State) : Spares unreported s (outdialDone k result s) := by
  unfold outdialDone
  dsimp only
  split
  · exact (spares_sendEvent (Spares.refl unreported s)).modCtx rfl
  · exact Spares.refl unreported s

/-- The reports of a call's end and the winding down change the session parts of the context alone. -/
theorem spares_callReports (k : ContextId) (cause : Byte) (s : State) : Spares unreported s
    (sendEvent (some k) (.callEnded cause) (outdialDone k cause (windDown k cause (announceUnknown k s)))) :=
  spares_sendEvent (((spares_announceUnknown k s).trans
    ((spares_windDown (Spares.refl callPart _)).mono fun _ _ => unreported_of_callPart)).trans (spares_outdialDone k cause _))

/-- R67, R73: the record of a context whose call has ended by CLEARING. -/
theorem at_endCall_of_clears {s : State} {k : ContextId} {cause : Byte} (h : clears cause = true)
    (call : inCall (s.at k) = true) : ∃ x, (endCall k cause s).at k = clearingRecord x ∧ unreported x = unreported (s.at k) := by
  rw [endCall_eq cause call, leaveChannel_of_clears h]
  exact ⟨_, at_enterClearing k _, (spares_callReports k cause s).reading k⟩

/-- A command that ends the call of a context: the record it leaves, and the other contexts. -/
theorem at_settle_endCall {s u : State} {k : ContextId} {cause : Byte} (q : s.Quiet) (apart : Apart k s u)
    (h : clears cause = true) (call : inCall (u.at k) = true) :
    (∃ x, (settle (endCall k cause u)).at k = clearingRecord x ∧ unreported x = unreported (u.at k))
      ∧ ∀ j, j ≠ k → (settle (endCall k cause u)).at j = s.at j := by
  obtain ⟨x, record, same⟩ := at_endCall_of_clears h call
  have ends := apart_endCall (cause := cause) apart
  have idle : Sessionless ((endCall k cause u).at k) := (sessionless_clearingRecord x).congr record
  refine ⟨⟨x, ?_, same⟩, fun j other => (apart_settle q ends).ctx j other⟩
  rw [(spares_settle_of_sessionless q ends idle).at_eq k, record]

theorem act_of_true (effect s : State) : act true effect s = .next (settle effect) := rfl

/-! ### DROP (R30, R84) -/

theorem handOver_settle {s : State} {c : Cell} {due : Cell → Bool} {effect : Cell → State → State}
    (head : s.clc.rx.head? = some c) (d : due c = true) : handOver due effect s = .next (settle (effect c (popCell s))) := by
  obtain ⟨rest, rx⟩ := List.head?_eq_some_iff.mp head
  simp only [handOver, rx, act, whenDue, d, if_true]

/-- A request at an ACTIVE station, with the notices it causes told. -/
theorem handActive_settle {s t : State} {c : Cell} {kind : Byte} {owner : Cell → State → State} (asked : AskedActive s c kind)
    (e : owner c (popCell s) = t) : handRequest kind (whenActive owner) s = .next (settle t) := by
  have reached : requestOwner (whenActive owner) c (popCell s) = t :=
    (requestOwner_of_asked _ (popCell s) asked.1).trans ((whenActive_of_active (s := popCell s) asked.2).trans e)
  obtain ⟨⟨⟨head, kind, _⟩, _⟩, _⟩ := asked
  refine (handOver_settle head ?_).trans (by rw [reached])
  exact beq_iff_eq.mpr kind

theorem takeDrop_of_above {c : Cell} (s : State) (above : 3 < field c.payload 0 1) :
    takeDrop c s = sendAnswer c codeBadField s := by
  simp only [takeDrop, contextOf_of_above above]

theorem takeDrop_of_free {c : Cell} {s : State} {k : ContextId} (context : field c.payload 0 1 = k.val)
    (state : (s.at k).state = .free) : takeDrop c s = sendAnswer c codeNoContext s := by
  simp only [takeDrop, context, contextOf_val, state]

theorem takeDrop_of_clearing {c : Cell} {s : State} {k : ContextId} (context : field c.payload 0 1 = k.val)
    (state : (s.at k).state = .clearing) : takeDrop c s = sendAnswer c codeOk s := by
  simp only [takeDrop, context, contextOf_val, state]

theorem takeDrop_of_claiming {c : Cell} {s : State} {k : ContextId} (context : field c.payload 0 1 = k.val)
    (state : (s.at k).state = .claiming) : takeDrop c s = withdraw k .dropped (sendAnswer c codeOk s) := by
  simp only [takeDrop, context, contextOf_val, state]

theorem inCall_iff (x : Context) : inCall x = true ↔ x.state ∈
    [.addressing, .answering, .discriminating, .seized, .dialling, .progress, .connected] := by
  unfold inCall
  cases x.state <;> simp

theorem takeDrop_of_call {c : Cell} {s : State} {k : ContextId} (context : field c.payload 0 1 = k.val)
    (call : inCall (s.at k) = true) : takeDrop c s = endCall k codeLocalDrop (sendAnswer c codeOk s) := by
  unfold inCall at call
  simp only [takeDrop, context, contextOf_val]
  cases state : (s.at k).state <;> simp [state] at call ⊢

/-- R30: a CLAIM of this station for a channel is in transmission, and no restart left it there. -/
def onLine (b : Bid) (q : List TxCell) : Prop :=
  ∃ x ∈ q, x.sending = true ∧ x.orphan = false ∧ isClaimFor b.channel x = true

theorem any_onLine (b : Bid) (q : List TxCell) :
    (q.any fun x => x.sending && !x.orphan && isClaimFor b.channel x) = true ↔ onLine b q := by
  simp [onLine, and_assoc]

/-- A cell that joins the queue is not on the line. -/
theorem onLine_insert (b : Bid) (cell : Cell) (n : Nat) (q : List TxCell) :
    onLine b (insertByPriority (freshTx cell n) q) ↔ onLine b q := by
  simp only [onLine, mem_insertByPriority]
  constructor
  · rintro ⟨x, rfl | m, sending, rest⟩
    · simp [freshTx] at sending
    · exact ⟨x, m, sending, rest⟩
  · rintro ⟨x, m, rest⟩
    exact ⟨x, Or.inr m, rest⟩

theorem onLine_sendAnswer {c : Cell} (src : c.src = gateway) (b : Bid) (code : Byte) (s : State) :
    onLine b (sendAnswer c code s).clc.tx ↔ onLine b s.clc.tx := by
  rw [sendAnswer_clc src]
  by_cases room : s.clc.tx.length < 24
  · simp only [room, if_true, onLine_insert]
  · simp only [room, if_false]

theorem withdraw_of_queued {s : State} {k : ContextId} {b : Bid} (reason : WithdrawReason) (bid : s.bid k = some b)
    (queued : ¬ onLine b s.clc.tx) : withdraw k reason s = withdrawalTaken k b reason
      (s.modClc fun l => { l with tx := l.tx.filter fun x => x.orphan || !isClaimFor b.channel x }) := by
  simp only [withdraw, bid]
  rw [if_neg (mt (any_onLine b s.clc.tx).mp queued)]

theorem withdrawalTaken_of_incoming {b : Bid} (incoming : b.direction = .incoming) (k : ContextId) (reason : WithdrawReason)
    (s : State) : withdrawalTaken k b reason s = freeContext k (s.setBid k none) := by
  simp only [withdrawalTaken, incoming]

theorem withdrawalTaken_of_dropped {b : Bid} (outgoing : b.direction = .outgoing) (k : ContextId) (s : State) :
    withdrawalTaken k b .dropped s = outdialFails k codeLocalDrop (s.setBid k none) := by
  simp only [withdrawalTaken, outgoing]

theorem strongerReason_dropped (old : WithdrawReason) : strongerReason old .dropped = .dropped := by
  cases old <;> rfl

theorem withdraw_dropped_of_onLine {s : State} {k : ContextId} {b : Bid} (bid : s.bid k = some b)
    (line : onLine b s.clc.tx) :
    withdraw k .dropped s = s.setBid k (some { b with withdrawal := some .dropped }) := by
  simp only [withdraw, bid]
  rw [if_pos ((any_onLine b s.clc.tx).mpr line)]
  cases b.withdrawal <;> simp [strongerReason_dropped]

theorem outdialDone_of_request {s : State} {k : ContextId} {o : Outgoing} (result : Byte) (request : (s.at k).outgoing = some o)
    (unreported : (s.at k).outdialDone = false) : outdialDone k result s =
      (sendEvent (some k) (.outdialDone result o.tag) s).modCtx k fun x => { x with outdialDone := true } := by
  simp only [outdialDone, request, unreported]

theorem freeContext_modCtx (k : ContextId) (f : Context → Context) (s : State) :
    freeContext k (s.modCtx k f) = freeContext k s :=
  State.eq_of_blocks rfl rfl rfl rfl (bank_modify_modify s.ctx k f fun _ => Context.reset) rfl rfl rfl rfl

/-- R78: an outgoing request that is not placed is reported, and its context is FREE. -/
theorem outdialFails_of_request {s : State} {k : ContextId} {o : Outgoing} {result : Byte}
    (request : (s.at k).outgoing = some o) (unreported : (s.at k).outdialDone = false) :
    outdialFails k result s = freeContext k (sendEvent (some k) (.outdialDone result o.tag) s) := by
  rw [outdialFails, outdialDone_of_request result request unreported, freeContext_modCtx]

/-- Settles O35: DROP by the state of the context; a call ends by CLEARING whatever its session still had to send. -/
theorem dropByState : Obligations.DropByState := by
  intro s c q asked ok
  have okQuiet : ok.Quiet := sendAnswer_quiet c codeOk q
  have bids (k : ContextId) : ok.bid k = s.bid k := by
    rw [State.bid, sendAnswer_tcm]
    rfl
  have at_ok (k : ContextId) : ok.at k = s.at k := (storeOnly_sendAnswer c codeOk (popCell s)).at k
  refine ⟨fun above => handActive_eq asked (takeDrop_of_above _ above) (sendAnswer_quiet c _ q), fun k context =>
    ⟨fun free => ?free, fun clearing => ?clearing, fun b claiming bid => ?claiming, fun call => ?call⟩⟩
  case free => exact handActive_eq asked (takeDrop_of_free (s := popCell s) context free) (sendAnswer_quiet c _ q)
  case clearing => exact handActive_eq asked (takeDrop_of_clearing (s := popCell s) context clearing) okQuiet
  case claiming =>
    intro line cut freed
    have lines : onLine b ok.clc.tx ↔ line := onLine_sendAnswer asked.1.2 b codeOk (popCell s)
    have dropped := takeDrop_of_claiming (s := popCell s) context claiming
    have okTcm : ok.tcm = s.tcm := sendAnswer_tcm ..
    have okCtx : ok.ctx = s.ctx := sendAnswer_ctx ..
    have isCut : (ok.modClc fun l => { l with tx := l.tx.filter fun x => x.orphan || !isClaimFor b.channel x }).setBid k none
        = cut := State.eq_of_blocks rfl rfl rfl (by simp only [cut, ← okTcm]; rfl) rfl rfl rfl rfl rfl
    have isFreed (u : State) (ctx : u.ctx = s.ctx) : freeContext k u = freed u :=
      State.eq_of_blocks rfl rfl rfl rfl (by simp only [freed, ← ctx]; rfl) rfl rfl rfl rfl
    refine ⟨fun queued incoming => ?_, fun o queued outgoing request unreported => ?_, fun sent => ?_⟩
    · have taken := withdraw_of_queued .dropped ((bids k).trans bid) (mt lines.mp queued)
      refine handActive_eq asked (dropped.trans (taken.trans ?_)) okQuiet
      rw [withdrawalTaken_of_incoming incoming, isCut]
      exact isFreed cut okCtx
    · have taken := withdraw_of_queued .dropped ((bids k).trans bid) (mt lines.mp queued)
      have told : (sendEvent (some k) (.outdialDone codeLocalDrop o.tag) cut).Quiet := by
        rw [State.Quiet, sendEvent_rau]
        exact okQuiet
      refine handActive_eq asked (dropped.trans (taken.trans ?_)) told
      rw [withdrawalTaken_of_dropped outgoing, isCut, outdialFails_of_request (s := cut)
        ((congrArg Context.outgoing (at_ok k)).trans request) ((congrArg Context.outdialDone (at_ok k)).trans unreported)]
      refine isFreed _ ?_
      rw [sendEvent_ctx]
      exact okCtx
    · have marked := withdraw_dropped_of_onLine ((bids k).trans bid) (lines.mpr sent)
      refine handActive_eq asked (dropped.trans (marked.trans ?_)) okQuiet
      exact State.eq_of_blocks rfl rfl rfl (by rw [← okTcm]; rfl) rfl rfl rfl rfl rfl
  case call =>
    have isCall : inCall (s.at k) = true := (inCall_iff _).mpr call
    have dropped := takeDrop_of_call (s := popCell s) context isCall
    have apart : Apart k s ok := apart_sendAnswer ⟨fun _ _ => rfl, fun h => h⟩
    obtain ⟨⟨x, record, same⟩, others⟩ := at_settle_endCall (cause := codeLocalDrop) q apart (by decide) (by rw [at_ok]; exact isCall)
    have channel : x.channel = (s.at k).channel := by
      have read := congrArg Context.channel same
      rw [at_ok] at read
      exact read
    refine ⟨_, handActive_settle asked dropped, ?_, ?_, ?_, ?_, ?_, ?_, others⟩
    all_goals rw [record]
    all_goals first | rfl | exact channel

end Sys2Proof.Machine
end

section
/-! PROOFS. The family of the waits of a call and of its channel: the waits that end a call, the timers of a channel, DISPUTE
and CLAIM, and the Dial Generator (R30, R53, R55, R58, R59, R61, R62, R67, R68, R73, R79, R80, R82, R83, R147). -/
namespace Sys2Proof.Machine

/-! ### The end of a call with no session to wind down (R67, R73) -/

/-- What the reports of a context leave of a station: every block but the control line, the fault record and the
contexts. -/
structure Reports (s t : State) : Prop where
  hwi : t.hwi = s.hwi
  tcm : t.tcm = s.tcm
  msc : t.msc = s.msc
  rau : t.rau = s.rau

namespace Reports

theorem refl (s : State) : Reports s s := ⟨rfl, rfl, rfl, rfl⟩

theorem trans {s t u : State} (a : Reports s t) (b : Reports t u) : Reports s u :=
  ⟨b.hwi.trans a.hwi, b.tcm.trans a.tcm, b.msc.trans a.msc, b.rau.trans a.rau⟩

theorem event (k : Option ContextId) (e : Event) (s : State) : Reports s (sendEvent k e s) := by constructor <;> simp

theorem modCtx (k : ContextId) (f : Context → Context) (s : State) : Reports s (s.modCtx k f) := ⟨rfl, rfl, rfl, rfl⟩

theorem release (c : Channel) (s : State) : Reports s (sendRelease c s) := by constructor <;> simp

theorem quiet {s t : State} (h : Reports s t) (q : s.Quiet) : t.Quiet := by
  rw [State.Quiet, h.rau]
  exact q

end Reports

theorem reports_announceUnknown (k : ContextId) (s : State) : Reports s (announceUnknown k s) := by
  unfold announceUnknown
  dsimp only
  split
  · exact (Reports.event _ _ s).trans (Reports.modCtx ..)
  · exact Reports.refl s

theorem reports_outdialDone (k : ContextId) (result : Byte) (s : State) : Reports s (outdialDone k result s) := by
  unfold outdialDone
  dsimp only
  split
  · exact (Reports.event _ _ s).trans (Reports.modCtx ..)
  · exact Reports.refl s

theorem reports_enterClearing (k : ContextId) (s : State) : Reports s (enterClearing k s) := by
  unfold enterClearing
  dsimp only
  split
  · exact (Reports.modCtx k _ s).trans (Reports.release ..)
  · exact Reports.modCtx k _ s

/-- A context whose call ends with nothing to wind down: no session runs, or a voice session that neither plays nor
records. -/
structure Silent (x : Context) : Prop where
  greeted : x.state ≠ .discriminating
  session : x.state = .connected →
    x.session = .none ∨ (x.session = .voice ∧ x.voice.activity ≠ .playing ∧ x.voice.activity ≠ .recording)

theorem windDown_of_silent {s : State} {k : ContextId} (silent : Silent (s.at k)) (cause : Byte) : windDown k cause s = s := by
  obtain ⟨greeted, session⟩ := silent
  unfold windDown
  split
  case h_1 state => exact absurd state greeted
  case h_2 state voice =>
    obtain ⟨_, notPlaying, notRecording⟩ := (session state).resolve_left (by rw [voice]; decide)
    unfold windDownVoice
    split
    case h_1 playing => exact absurd playing notPlaying
    case h_2 recording => exact absurd recording notRecording
    case h_3 => rfl
  case h_3 state fax => rcases session state with none | ⟨voice, _⟩ <;> simp_all
  case h_4 state data => rcases session state with none | ⟨voice, _⟩ <;> simp_all
  case h_5 => rfl

theorem at_announceUnknown (k : ContextId) (s : State) : ∃ b, (announceUnknown k s).at k = { s.at k with announced := b } := by
  unfold announceUnknown
  dsimp only
  split
  · refine ⟨true, (at_modCtx _ _ _).trans ?_⟩
    rw [State.at, sendEvent_ctx]
    rfl
  · exact ⟨(s.at k).announced, rfl⟩

theorem endCall_of_silent {s : State} {k : ContextId} {cause : Byte} (h : clears cause = true) (call : inCall (s.at k) = true)
    (silent : Silent (s.at k)) : endCall k cause s = enterClearing k (sendEvent (some k) (.callEnded cause)
      (outdialDone k cause (announceUnknown k s))) := by
  obtain ⟨b, announced⟩ := at_announceUnknown k s
  have still : Silent ((announceUnknown k s).at k) := by
    rw [announced]
    exact ⟨silent.greeted, silent.session⟩
  rw [endCall_eq cause call, leaveChannel_of_clears h, windDown_of_silent still]

theorem reports_endCall_of_silent {s : State} {k : ContextId} {cause : Byte} (h : clears cause = true)
    (call : inCall (s.at k) = true) (silent : Silent (s.at k)) : Reports s (endCall k cause s) := by
  rw [endCall_of_silent h call silent]
  exact (((reports_announceUnknown k s).trans (reports_outdialDone k cause _)).trans (Reports.event ..)).trans
    (reports_enterClearing k _)

theorem announceUnknown_of_announced {s : State} {k : ContextId} (announced : (s.at k).announced = true) :
    announceUnknown k s = s := by
  simp [announceUnknown, announced]

theorem announceUnknown_of_outgoing {s : State} {k : ContextId} (outgoing : (s.at k).direction = some .outgoing) :
    announceUnknown k s = s := by
  simp [announceUnknown, outgoing]

theorem outdialDone_of_none {s : State} {k : ContextId} (result : Byte) (none : (s.at k).outgoing = none) :
    outdialDone k result s = s := by
  simp [outdialDone, none]

theorem offerOther_none_clc (c : Cell) (n : Nat) (s : State) : (offerOther c n none s).clc =
    if queueTakes s.clc.tx c then { s.clc with tx := insertByPriority (freshTx c n) s.clc.tx }
    else { s.clc with undelivered := satAdd 65535 s.clc.undelivered 1 } := by
  unfold offerOther
  split <;> rfl

theorem sendRelease_clc_congr {s t : State} (c : Channel) (clc : s.clc = t.clc) (cfu : s.cfu = t.cfu) :
    (sendRelease c s).clc = (sendRelease c t).clc := by
  simp only [sendRelease, offerOther_none_clc, ownCell, ownAddress, clc, cfu]

theorem enterClearing_clc {s t : State} {k : ContextId} {ch : Channel} (channel : (s.at k).channel = some ch)
    (clc : s.clc = t.clc) (cfu : s.cfu = t.cfu) : (enterClearing k s).clc = (sendRelease ch t).clc := by
  rw [enterClearing_of_channel channel]
  exact sendRelease_clc_congr (s := s.modCtx k clearingRecord) ch clc cfu

theorem at_sendEvent (j : ContextId) (k : Option ContextId) (e : Event) (s : State) : (sendEvent k e s).at j = s.at j := by
  rw [State.at, sendEvent_ctx, State.at]

/-- R73: the cells of a call that ends while its outgoing request is open. -/
theorem endCall_clc_of_request {s : State} {k : ContextId} {cause : Byte} {o : Outgoing} {ch : Channel} (h : clears cause = true)
    (call : inCall (s.at k) = true) (silent : Silent (s.at k)) (outgoing : (s.at k).direction = some .outgoing)
    (request : (s.at k).outgoing = some o) (unreported : (s.at k).outdialDone = false)
    (channel : (s.at k).channel = some ch) : (endCall k cause s).clc = (sendRelease ch (sendEvent (some k) (.callEnded cause)
      (sendEvent (some k) (.outdialDone cause o.tag) s))).clc := by
  rw [endCall_of_silent h call silent, announceUnknown_of_outgoing outgoing, outdialDone_of_request cause request unreported]
  have same := sendEvent_congr (k := some k) (e := .callEnded cause)
    (s := (sendEvent (some k) (.outdialDone cause o.tag) s).modCtx k fun x => { x with outdialDone := true })
    (t := sendEvent (some k) (.outdialDone cause o.tag) s) rfl rfl
  refine enterClearing_clc ?_ same.1 same.2
  rw [at_sendEvent, at_modCtx, at_sendEvent]
  exact channel

/-- R73: the cells of an announced call that ends. -/
theorem endCall_clc_of_announced {s : State} {k : ContextId} {cause : Byte} {ch : Channel} (h : clears cause = true)
    (call : inCall (s.at k) = true) (silent : Silent (s.at k)) (announced : (s.at k).announced = true)
    (noRequest : (s.at k).outgoing = none) (channel : (s.at k).channel = some ch) :
    (endCall k cause s).clc = (sendRelease ch (sendEvent (some k) (.callEnded cause) s)).clc := by
  rw [endCall_of_silent h call silent, announceUnknown_of_announced announced, outdialDone_of_none cause noRequest]
  refine enterClearing_clc ?_ rfl rfl
  rw [at_sendEvent]
  exact channel

theorem timerOut_eq_true {s : State} {k : ContextId} {state : CtxState} (stands : (s.at k).state = state)
    (held : (s.at k).held = false) (expired : (s.at k).timer = some 0) : timerOut s k state = true := by
  simp [timerOut, standsIn, stands, held, expired]

theorem standsIn_eq_true {s : State} {k : ContextId} {state : CtxState} (stands : (s.at k).state = state)
    (held : (s.at k).held = false) : standsIn s k state = true := by
  simp [standsIn, stands, held]

/-- Settles O51: each wait ends the call with its cause, and none of them has a session to wind down. -/
theorem callEndingTimersAct : Obligations.CallEndingTimersAct := by
  intro s k q held x ended
  have ends {cause : Byte} {i : Instr} (h : clears cause = true) (call : inCall (s.at k) = true) (silent : Silent (s.at k))
      (e : exec i s = act true (endCall k cause s) s) : ∃ t, exec i s = .next t ∧ ended cause t := by
    obtain ⟨⟨y, record, same⟩, others⟩ := at_settle_endCall q (Apart.refl k s) h call
    have still := reports_endCall_of_silent h call silent
    rw [settle_quiet (still.quiet q)] at record others
    have channel : y.channel = (s.at k).channel := (congrArg Context.channel same : (unreported y).channel = _)
    refine ⟨endCall k cause s, e.trans (act_of_due s rfl (still.quiet q)), others, ?_, ?_, ?_, ?_, ?_, ?_, ?_,
      fun o ch => endCall_clc_of_request h call silent,
      fun ch _ announced noRequest => endCall_clc_of_announced h call silent announced noRequest,
      still.tcm, still.hwi, still.msc, still.rau⟩
    all_goals rw [record]
    all_goals first | rfl | exact channel
  refine ⟨fun dialling expired wait => ?_, fun progress expired => ?_, fun connected voice waiting expired => ?_⟩
  · refine ends (by decide) ((inCall_iff _).mpr (by rw [dialling]; decide)) ⟨by rw [dialling]; decide, by rw [dialling]; nofun⟩ ?_
    have due : (timerOut s k .dialling && (s.at k).dgn.phase == .wait) = true :=
      Bool.and_eq_true_iff.mpr ⟨timerOut_eq_true dialling held expired, beq_iff_eq.mpr wait⟩
    exact congrArg (fun b => act b _ s) due
  · refine ends (by decide) ((inCall_iff _).mpr (by rw [progress]; decide)) ⟨by rw [progress]; decide, by rw [progress]; nofun⟩ ?_
    exact congrArg (fun b => act b _ s) (timerOut_eq_true progress held expired)
  · refine ends (by decide) ((inCall_iff _).mpr (by rw [connected]; decide))
      ⟨by rw [connected]; decide, fun _ => Or.inr ⟨voice, by rw [waiting]; decide, by rw [waiting]; decide⟩⟩ ?_
    have due : (standsIn s k .connected && (s.at k).session == .voice && (s.at k).voice.activity == .waiting
        && (s.at k).voice.idle == some 0) = true := by
      rw [standsIn_eq_true connected held]
      simp [show (s.at k).session = .voice from voice, show (s.at k).voice.activity = .waiting from waiting,
        show (s.at k).voice.idle = some 0 from expired]
    exact congrArg (fun b => act b _ s) due

/-! ### The timers of a channel (R55, R58, R67, R68) -/

theorem offerBid_of_room {s : State} {c : Channel} (k : ContextId)
    (room : queueTakes s.clc.tx (ownCell s 1 allStations kindClaim 0xFF (be1 c.val ++ be1 0)) = true) :
    offerBid k c s = (enqueue (ownCell s 1 allStations kindClaim 0xFF (be1 c.val ++ be1 0)) 0 s).setBid k
      (some { channel := c, direction := .incoming, timer := none, withdrawal := none }) := by
  simp only [offerBid, offerClaim, room, if_true]

theorem offerBid_of_full {s : State} {c : Channel} (k : ContextId)
    (full : queueTakes s.clc.tx (ownCell s 1 allStations kindClaim 0xFF (be1 c.val ++ be1 0)) = false) :
    offerBid k c s = freeContext k (s.setBid k none) := by
  simp only [offerBid, offerClaim, full, Bool.false_eq_true, if_false]

theorem exec_bidTimerExpiry_of_due {s : State} {k : ContextId} {b : Bid} (q : s.Quiet) (bid : s.bid k = some b)
    (expired : b.timer = some 0) : exec (.bidTimerExpiry k) s = .next (offerBid k b.channel s) := by
  have due : bidDue s k = true := by simp [bidDue, bid, expired]
  have quiet : (offerBid k b.channel s).Quiet := by
    obtain ⟨_, _, rau⟩ := offerBid_frame k b.channel s
    rw [State.Quiet, rau]
    exact q
  change execBidTimerExpiry k s = _
  simp only [execBidTimerExpiry, bid]
  exact act_of_due s due quiet

theorem letGo_of_blocked {s : State} {ch : Channel} (k : ContextId) (code : (s.entry ch).rx.settled = .blocked) :
    letGo k ch s = freeContext k (setView ch .blocked none (endDrive ch s)) := by
  simp only [letGo, code]

theorem letGo_of_idle {s : State} {ch : Channel} (k : ContextId) (code : (s.entry ch).rx.settled = .idle) :
    letGo k ch s = freeContext k (setView ch .free none (endDrive ch s)) := by
  simp only [letGo, code]

theorem letGo_of_other {s : State} {ch : Channel} (k : ContextId) (notBlocked : (s.entry ch).rx.settled ≠ .blocked)
    (notIdle : (s.entry ch).rx.settled ≠ .idle) : letGo k ch s = setView ch .free none (endDrive ch s) := by
  unfold letGo
  dsimp only
  split
  case h_1 blocked => exact absurd blocked notBlocked
  case h_2 idle => exact absurd idle notIdle
  case h_3 => rfl

theorem clearingOver_of_free {s : State} {k : ContextId} {ch : Channel} (channel : (s.at k).channel = some ch)
    (free : (s.entry ch).view = .free) :
    clearingOver k s = freeContext k (setView ch .blocked (some blockTime) s) := by
  simp only [clearingOver, channel, free, if_true]

theorem clearingOver_of_not_free {s : State} {k : ContextId} {ch : Channel} (channel : (s.at k).channel = some ch)
    (taken : (s.entry ch).view ≠ .free) : clearingOver k s = freeContext k s := by
  simp only [clearingOver, channel, taken, if_false]

theorem exec_clearingTimeExpiry_of_due {s : State} {k : ContextId} {ch : Channel} (q : s.Quiet)
    (clearing : (s.at k).state = .clearing) (held : (s.at k).held = false) (channel : (s.at k).channel = some ch)
    (expired : (s.at k).timer = some 0) (gone : (s.entry ch).view ≠ .self k) :
    exec (.clearingTimeExpiry k) s = .next (clearingOver k s) := by
  have due : (timerOut s k .clearing && !holdsAny s k) = true := by
    rw [timerOut_eq_true clearing held expired]
    simp [holdsAny, channel, holds, gone]
  refine act_of_due s due ?_
  by_cases free : (s.entry ch).view = .free
  · rw [clearingOver_of_free channel free]
    exact q
  · rw [clearingOver_of_not_free channel free]
    exact q

/-- Settles O48: each timer by the lemma of what it does. -/
theorem channelTimersAct : Obligations.ChannelTimersAct := by
  intro s k ch q viewed dropped
  refine ⟨fun b bid expired channel => ⟨fun room => ?_, fun full => ?_⟩, fun blocked expired => ?_,
    fun clearing held channel => ⟨fun eighth view => ⟨fun blocked => ?_, fun idle => ?_, fun notBlocked notIdle => ?_⟩,
      fun expired notOwn => ⟨fun free => ?_, fun taken => ?_⟩⟩⟩
  · rw [exec_bidTimerExpiry_of_due q bid expired, channel, offerBid_of_room k room]
    rfl
  · rw [exec_bidTimerExpiry_of_due q bid expired, channel, offerBid_of_full k full]
    rfl
  · have due : ((s.entry ch).view == .blocked && (s.entry ch).blockTimer == some 0) = true := by simp [blocked, expired]
    exact act_of_due s due q
  · rw [exec_letGo_of_eighth q clearing held eighth channel view, letGo_of_blocked k blocked]
    rfl
  · rw [exec_letGo_of_eighth q clearing held eighth channel view, letGo_of_idle k idle]
    rfl
  · rw [exec_letGo_of_eighth q clearing held eighth channel view, letGo_of_other k notBlocked notIdle]
    rfl
  · rw [exec_clearingTimeExpiry_of_due q clearing held channel expired notOwn, clearingOver_of_free channel free]
    rfl
  · rw [exec_clearingTimeExpiry_of_due q clearing held channel expired notOwn, clearingOver_of_not_free channel taken]
    rfl

end Sys2Proof.Machine
end

section
/-! PROOFS. The family of the cells of peers on a channel: DISPUTE and CLAIM (R53, R59, R61, R62, R64, R68). -/
namespace Sys2Proof.Machine

/-! ### A peer's cell, with the notices it causes told -/

theorem handPeer_settle {s t : State} {c : Cell} {kind : Byte} {p : Fin 8} {owner : Fin 8 → Cell → State → State}
    (h : FromPeer s c kind p) (e : owner p c (popCell s) = t) : handPeer kind owner s = .next (settle t) := by
  have reached := peerOwner_of_fromPeer owner (popCell s) h
  obtain ⟨⟨head, isKind, _⟩, _⟩ := h
  have due : (c.kind == kind) = true := beq_iff_eq.mpr isKind
  rw [handPeer, handOver_settle head due, reached, e]

theorem handPeer_eq {s t : State} {c : Cell} {kind : Byte} {p : Fin 8} {owner : Fin 8 → Cell → State → State}
    (h : FromPeer s c kind p) (e : owner p c (popCell s) = t) (q : t.Quiet) : handPeer kind owner s = .next t :=
  (handPeer_settle h e).trans (by rw [settle_quiet q])

/-! ### A context that becomes FREE at once (R70, R73) -/

theorem at_freeContext (k : ContextId) (s : State) : (freeContext k s).at k = Context.reset := at_modCtx _ _ _

theorem at_freeContext_ne {j k : ContextId} (other : j ≠ k) (s : State) : (freeContext k s).at j = s.at j :=
  at_modCtx_ne _ _ _ _ other

/-- The notices of a context that has become FREE change no context. -/
theorem spares_settle_freeContext {s u : State} {k : ContextId} (q : s.Quiet) (apart : Apart k s u) :
    Spares id (freeContext k u) (settle (freeContext k u)) :=
  spares_settle_of_sessionless q (apart_freeContext apart) (sessionless_reset.congr (at_freeContext k u))

theorem freeContext_hwi (k : ContextId) (s : State) : (freeContext k s).hwi = s.hwi := rfl
theorem freeContext_cfu (k : ContextId) (s : State) : (freeContext k s).cfu = s.cfu := rfl
theorem freeContext_tcm (k : ContextId) (s : State) : (freeContext k s).tcm = s.tcm := rfl

theorem endCall_of_lostClaim {s : State} {k : ContextId} (call : inCall (s.at k) = true) :
    endCall k codeLostClaim s = freeContext k (sendEvent (some k) (.callEnded codeLostClaim)
      (outdialDone k codeLostClaim (windDown k codeLostClaim (announceUnknown k s)))) := by
  rw [endCall_eq _ call]
  rfl

theorem apart_callReports {s u : State} {k : ContextId} {cause : Byte} (apart : Apart k s u) : Apart k s
    (sendEvent (some k) (.callEnded cause) (outdialDone k cause (windDown k cause (announceUnknown k u)))) :=
  apart_sendEvent (apart_outdialDone (apart_windDown (apart_announceUnknown apart)))

/-- R62, R73: what a call that ends without CLEARING leaves. -/
theorem settle_endCall_of_lostClaim {s u : State} {k : ContextId} (q : s.Quiet) (apart : Apart k s u)
    (call : inCall (u.at k) = true) :
    let t := settle (endCall k codeLostClaim u)
    t.hwi = u.hwi ∧ t.tcm = u.tcm ∧ t.cfu.faults = u.cfu.faults ∧ t.at k = Context.reset
      ∧ ∀ j, j ≠ k → t.at j = s.at j := by
  intro t
  have told := spares_callReports k codeLostClaim u
  have freed := spares_settle_freeContext q (apart_callReports (cause := codeLostClaim) apart)
  have same := endCall_of_lostClaim call
  rw [← same] at freed
  have reset : (endCall k codeLostClaim u).at k = Context.reset := by rw [same, at_freeContext]
  have blocks : (endCall k codeLostClaim u).hwi = u.hwi ∧ (endCall k codeLostClaim u).tcm = u.tcm
      ∧ (endCall k codeLostClaim u).cfu.faults = u.cfu.faults := by
    rw [same, freeContext_hwi, freeContext_tcm, freeContext_cfu]
    exact ⟨told.hwi, told.tcm, told.faults⟩
  obtain ⟨hwi, tcm, faults⟩ := blocks
  exact ⟨freed.hwi.trans hwi, freed.tcm.trans tcm, freed.faults.trans faults,
    (freed.at_eq k).trans reset, (apart_settle q (apart_endCall apart)).ctx⟩

/-! ### DISPUTE (R62, R68) -/

/-- R62: the channel is the other station's, and nothing drives it. -/
def yielded (q : Fin 8) (c : Channel) (s : State) : State := setView c (.peer q) none (endDrive c s)

theorem takeDispute_of_neither {s : State} {c : Channel} (q : Fin 8) (holder : holderOf s c = none)
    (clearer : clearerOf s c = none) : takeDispute q c s = s := by
  simp only [takeDispute, holder, clearer]

theorem takeDispute_of_clearer {s : State} {c : Channel} {k : ContextId} (q : Fin 8) (holder : holderOf s c = none)
    (clearer : clearerOf s c = some k) : takeDispute q c s = freeContext k (yielded q c s) := by
  simp only [takeDispute, holder, clearer]
  rfl

theorem takeDispute_of_clearing {s : State} {c : Channel} {k : ContextId} (q : Fin 8) (holder : holderOf s c = some k)
    (clearing : (s.at k).state = .clearing) : takeDispute q c s = freeContext k (yielded q c s) := by
  simp only [takeDispute, holder, clearing, if_true]
  rfl

theorem takeDispute_of_call {s : State} {c : Channel} {k : ContextId} (q : Fin 8) (holder : holderOf s c = some k)
    (call : (s.at k).state ≠ .clearing) : takeDispute q c s
      = endCall k codeLostClaim (writeFault .disputeLost c.val (yielded q c s)) := by
  simp only [takeDispute, holder, call, if_false]
  rfl

theorem entry_yielded (q : Fin 8) (c : Channel) (s : State) :
    ((yielded q c s).entry c).view = .peer q ∧ ((yielded q c s).entry c).blockTimer = none := by
  rw [yielded, setView, entry_modEntry]
  exact ⟨rfl, rfl⟩

theorem channel_yielded (q : Fin 8) (c : Channel) (s : State) : (yielded q c s).hwi.channels.get c = HwiChannel.reset :=
  Bank.get_modify ..

theorem writeFault_hwi (kind : FaultKind) (subject : Nat) (s : State) : (writeFault kind subject s).hwi = s.hwi := by
  unfold writeFault
  split <;> simp

theorem writeFault_tcm (kind : FaultKind) (subject : Nat) (s : State) : (writeFault kind subject s).tcm = s.tcm := by
  unfold writeFault
  split <;> simp

theorem writeFault_ctx (kind : FaultKind) (subject : Nat) (s : State) : (writeFault kind subject s).ctx = s.ctx := by
  unfold writeFault
  split <;> simp

/-- R46: the entry that a record with room takes. -/
theorem writeFault_faults {s : State} (kind : FaultKind) (subject : Nat) (room : s.cfu.faults.length < 8) :
    (writeFault kind subject s).cfu.faults = s.cfu.faults
      ++ [{ kind, subject, stamp := s.cfu.minute, clockSet := s.cfu.clockSet }] := by
  rw [writeFault, if_pos room]
  exact (Spares.of_storeOnly (rd := id) (storeOnly_sendEvent ..)).faults

theorem exec_dispute_settle {s t : State} {c : Cell} {p : Fin 8} {ch : Channel} (h : FromPeer s c kindDispute p)
    (channel : field c.payload 0 1 = ch.val) (e : takeDispute p ch (popCell s) = t) : exec .dispute s = .next (settle t) :=
  handPeer_settle h ((withChannel_of_field takeDispute p (popCell s) channel).trans e)

theorem at_yielded (q : Fin 8) (c : Channel) (s : State) (j : ContextId) : (yielded q c s).at j = s.at j := rfl

theorem apart_popCell (k : ContextId) (s : State) : Apart k s (popCell s) := ⟨fun _ _ => rfl, fun m => m⟩

theorem apart_yielded {s u : State} {k : ContextId} (q : Fin 8) (c : Channel) (apart : Apart k s u) : Apart k s (yielded q c u) :=
  apart_setView (apart_endDrive apart)

/-- R62: a channel that this station gave up to another one. -/
structure GivenUp (q : Fin 8) (c : Channel) (k : ContextId) (s t : State) : Prop where
  reset : t.at k = Context.reset
  others : ∀ j, j ≠ k → t.at j = s.at j
  view : (t.entry c).view = .peer q
  timer : (t.entry c).blockTimer = none
  drive : t.hwi.channels.get c = HwiChannel.reset

theorem givenUp_freeContext (q : Fin 8) (c : Channel) (k : ContextId) (s : State) : GivenUp q c k s (freeContext k (yielded q c s)) := by
  obtain ⟨view, timer⟩ := entry_yielded q c s
  exact ⟨at_freeContext k _, fun _ other => at_freeContext_ne other _, view, timer, channel_yielded q c s⟩

/-- R62: a DISPUTE takes the channel of a call, and writes the fault. -/
theorem exec_dispute_of_call {s : State} {c : Cell} {p : Fin 8} {ch : Channel} {k : ContextId} (q : s.Quiet)
    (h : FromPeer s c kindDispute p) (channel : field c.payload 0 1 = ch.val) (holder : holderOf s ch = some k)
    (call : inCall (s.at k) = true) (notClearing : (s.at k).state ≠ .clearing) :
    ∃ t, exec .dispute s = .next t ∧ GivenUp p ch k s t ∧ (s.cfu.faults.length < 8 → t.cfu.faults = s.cfu.faults ++ [
      { kind := .disputeLost, subject := ch.val, stamp := s.cfu.minute, clockSet := s.cfu.clockSet }]) := by
  have taken := takeDispute_of_call (s := popCell s) p holder notClearing
  have inCall' : inCall ((writeFault .disputeLost ch.val (yielded p ch (popCell s))).at k) = true := by
    rw [State.at, writeFault_ctx]
    exact call
  obtain ⟨hwi, tcm, faults, reset, others⟩ :=
    settle_endCall_of_lostClaim q (apart_writeFault (apart_yielded p ch (apart_popCell k s))) inCall'
  obtain ⟨view, timer⟩ := entry_yielded p ch (popCell s)
  refine ⟨_, exec_dispute_settle h channel taken, ⟨reset, others, ?_, ?_, ?_⟩, fun room => ?_⟩
  · rw [State.entry, tcm, writeFault_tcm]
    exact view
  · rw [State.entry, tcm, writeFault_tcm]
    exact timer
  · rw [hwi, writeFault_hwi]
    exact channel_yielded p ch (popCell s)
  · rw [faults, writeFault_faults _ _ (show (yielded p ch (popCell s)).cfu.faults.length < 8 from room)]
    rfl

/-- Settles O42: by who stands on the channel; a call that ends may still have notices of its own to tell. -/
theorem disputeYieldsTheChannel : Obligations.DisputeYieldsTheChannel := by
  intro s c p ch q h channel
  refine ⟨fun holder clearer => ?_, fun k stands => ?_⟩
  · refine (exec_dispute_settle h channel (takeDispute_of_neither p (s := popCell s) holder clearer)).trans ?_
    exact congrArg _ (settle_quiet q)
  by_cases clearing : (s.at k).state = .clearing
  · have taken : takeDispute p ch (popCell s) = freeContext k (yielded p ch (popCell s)) := by
      rcases stands with ⟨holder, _⟩ | ⟨holder, clearer⟩
      · exact takeDispute_of_clearing (s := popCell s) p holder clearing
      · exact takeDispute_of_clearer (s := popCell s) p holder clearer
    obtain ⟨reset, others, view, timer, drive⟩ := givenUp_freeContext p ch k (popCell s)
    exact ⟨_, (exec_dispute_settle h channel taken).trans (congrArg _ (settle_quiet q)), reset, others, view, timer, drive,
      fun _ => ⟨rfl, rfl⟩, fun call => absurd clearing call⟩
  · rcases stands with ⟨holder, state⟩ | ⟨_, clearer⟩
    · have call : inCall (s.at k) = true := by
        rw [inCall_iff]
        simp only [List.mem_cons, List.not_mem_nil, or_false, clearing] at state ⊢
        exact state
      obtain ⟨t, next, ⟨reset, others, view, timer, drive⟩, faults⟩ := exec_dispute_of_call q h channel holder call clearing
      exact ⟨t, next, reset, others, view, timer, drive, fun cl => absurd cl clearing, fun _ => faults⟩
    · have found := List.find?_some clearer
      simp only [Bool.and_eq_true, beq_iff_eq] at found
      exact absurd found.1 clearing

/-! ### CLAIM (R53, R59, R61, R64) -/

/-- R53: the channel is the claiming station's, and every other channel stands. -/
def NamesHolder (p : Fin 8) (c : Channel) (s t : State) : Prop :=
  (t.entry c).view = .peer p ∧ (t.entry c).blockTimer = none ∧ ∀ d, d ≠ c → t.entry d = s.entry d

theorem namesHolder_setView (p : Fin 8) (c : Channel) (s : State) : NamesHolder p c s (setView c (.peer p) none s) := by
  refine ⟨?_, ?_, fun d other => entry_modEntry_ne _ _ _ _ other⟩
  · rw [setView, entry_modEntry]
  · rw [setView, entry_modEntry]

theorem NamesHolder.of_map {p : Fin 8} {c : Channel} {s t u : State} (h : NamesHolder p c s t) (map : u.tcm.map = t.tcm.map) :
    NamesHolder p c s u := by
  have same (d : Channel) : u.entry d = t.entry d := by rw [State.entry, map, State.entry]
  obtain ⟨view, timer, others⟩ := h
  exact ⟨by rw [same, view], by rw [same, timer], fun d other => by rw [same, others d other]⟩

theorem takeClaim_of_clearing {s : State} {c : Channel} {k : ContextId} (p : Fin 8) (holder : holderOf s c = some k)
    (clearing : (s.at k).state = .clearing) : takeClaim p c s = freeContext k (yielded p c s) := by
  simp only [takeClaim, holder, clearing, if_true]
  rfl

theorem takeClaim_of_call {s : State} {c : Channel} {k : ContextId} (p : Fin 8) (holder : holderOf s c = some k)
    (call : (s.at k).state ≠ .clearing) : takeClaim p c s = sendDispute c (stationAddress p) s := by
  simp only [takeClaim, holder, call, if_false]

theorem takeClaim_of_clearer {s : State} {c : Channel} {k : ContextId} (p : Fin 8) (holder : holderOf s c = none)
    (claimer : claimerOf s c = none) (clearer : clearerOf s c = some k) :
    takeClaim p c s = freeContext k (yielded p c s) := by
  have claimer' : claimerOf (setView c (.peer p) none s) c = none := claimer
  have clearer' : clearerOf (setView c (.peer p) none s) c = some k := clearer
  simp only [takeClaim, holder, claimer', clearer']
  rfl

theorem takeClaim_of_nobody {s : State} {c : Channel} (p : Fin 8) (holder : holderOf s c = none)
    (claimer : claimerOf s c = none) (clearer : clearerOf s c = none) : takeClaim p c s = setView c (.peer p) none s := by
  have claimer' : claimerOf (setView c (.peer p) none s) c = none := claimer
  have clearer' : clearerOf (setView c (.peer p) none s) c = none := clearer
  simp only [takeClaim, holder, claimer', clearer']

theorem takeClaim_of_claimer {s : State} {c : Channel} {k : ContextId} (p : Fin 8) (holder : holderOf s c = none)
    (claimer : claimerOf s c = some k) : ∃ reason, (reason = .interrupted ∨ reason = .cutShort)
      ∧ takeClaim p c s = withdraw k reason (setView c (.peer p) none s) := by
  have claimer' : claimerOf (setView c (.peer p) none s) c = some k := claimer
  simp only [takeClaim, holder, claimer']
  split
  · exact ⟨_, Or.inl rfl, rfl⟩
  · exact ⟨_, Or.inr rfl, rfl⟩

theorem chooseAgain_of_retried {s : State} {k : ContextId} {o : Outgoing} (request : (s.at k).outgoing = some o)
    (retried : o.choiceRetried = true) :
    chooseAgain k s = outdialFails k (if o.glareRetried then codeGlare else codeNoChannel) s := by
  simp only [chooseAgain, request, retried, if_true]

theorem withdrawalTaken_again {b : Bid} {reason : WithdrawReason} (outgoing : b.direction = .outgoing)
    (again : reason = .interrupted ∨ reason = .cutShort) (k : ContextId) (s : State) :
    withdrawalTaken k b reason s = chooseAgain k (s.setBid k none) := by
  rcases again with rfl | rfl <;> simp only [withdrawalTaken, outgoing]

/-- R30, R78: a withdrawn bid that is not chosen again frees its context; at most a report of it is queued. -/
structure Withdrawn (k : ContextId) (s t : State) : Prop where
  reset : t.at k = Context.reset
  others : ∀ j, j ≠ k → t.at j = s.at j
  tcm : t.tcm = (s.setBid k none).tcm
  rau : t.rau = s.rau
  tx : ∀ x ∈ t.clc.tx, x ∈ s.clc.tx ∨ x.cell.kind ≠ kindClaim

theorem withdrawn_freeContext (k : ContextId) (s : State) : Withdrawn k s (freeContext k (s.setBid k none)) :=
  ⟨at_freeContext k _, fun _ other => at_freeContext_ne other _, rfl, rfl, fun _ m => Or.inl m⟩

theorem mem_sendEvent_tx {k : Option ContextId} {e : Event} {s : State} {x : TxCell} (m : x ∈ (sendEvent k e s).clc.tx) :
    x ∈ s.clc.tx ∨ x.cell.kind = kindEvent := by
  rw [sendEvent_eq] at m
  split at m
  · rcases (mem_insertByPriority ..).mp m with rfl | m
    · exact Or.inr rfl
    · exact Or.inl m
  · exact Or.inl m

theorem withdrawn_outdialFails (k : ContextId) (result : Byte) (s : State) :
    Withdrawn k s (outdialFails k result (s.setBid k none)) := by
  unfold outdialFails outdialDone
  dsimp only
  split
  · refine ⟨at_freeContext k _, fun j other => ?_, ?_, ?_, fun x m => ?_⟩
    · rw [at_freeContext_ne other, at_modCtx_ne _ _ _ _ other, at_sendEvent]
      rfl
    · rw [freeContext_tcm, modCtx_tcm, sendEvent_tcm]
    · rw [freeContext_rau, modCtx_rau, sendEvent_rau]
      rfl
    · refine (mem_sendEvent_tx m).imp_right fun kind => ?_
      rw [kind]
      decide
  · exact withdrawn_freeContext k s

/-- A withdrawal of a bid that has no further choice, its CLAIM not on the line. -/
theorem withdrawn_withdraw {s : State} {k : ContextId} {b : Bid} {reason : WithdrawReason} (bid : s.bid k = some b)
    (queued : ¬ onLine b s.clc.tx) (again : reason = .interrupted ∨ reason = .cutShort)
    (last : b.direction = .incoming ∨ ∃ o, (s.at k).outgoing = some o ∧ o.choiceRetried = true) :
    let cut := s.modClc fun l => { l with tx := l.tx.filter fun x => x.orphan || !isClaimFor b.channel x }
    Withdrawn k cut (withdraw k reason s) := by
  intro cut
  rw [withdraw_of_queued reason bid queued]
  cases direction : b.direction with
  | incoming =>
    rw [withdrawalTaken_of_incoming direction]
    exact withdrawn_freeContext k cut
  | outgoing =>
    obtain ⟨o, request, retried⟩ := last.resolve_left (by rw [direction]; decide)
    rw [withdrawalTaken_again direction again, chooseAgain_of_retried (s := cut.setBid k none) request retried]
    exact withdrawn_outdialFails k _ cut

theorem exec_claim_eq {s t : State} {c : Cell} {p : Fin 8} {ch : Channel} (h : FromPeer s c kindClaim p)
    (channel : field c.payload 0 1 = ch.val) (purpose : field c.payload 1 1 ≤ 1) (e : takeClaim p ch (popCell s) = t)
    (q : t.Quiet) : exec .claim s = .next t := by
  refine handPeer_eq h ?_ q
  rw [claimOwner, if_pos purpose]
  exact (withChannel_of_field takeClaim p (popCell s) channel).trans e

/-- Settles O40: by who stands on the channel. -/
theorem peerClaimByStanding : Obligations.PeerClaimByStanding := by
  intro s c p ch q h channel named
  refine ⟨fun above => ?above, fun purpose => ⟨fun holder claimer clearer => ?nobody,
    fun k b holder claimer bid last sent => ?claimer, fun k stands => ?freed, fun k holder call => ?call⟩⟩
  case above => exact handPeer_eq h (if_neg (by omega)) q
  case nobody =>
    exact ⟨_, exec_claim_eq h channel purpose (takeClaim_of_nobody (s := popCell s) p holder claimer clearer) q,
      namesHolder_setView p ch (popCell s), rfl, rfl⟩
  case claimer =>
    obtain ⟨reason, again, taken⟩ := takeClaim_of_claimer (s := popCell s) p holder claimer
    have queued : ¬ onLine b (setView ch (.peer p) none (popCell s)).clc.tx := by
      rintro ⟨x, m, sending, orphan, isClaim⟩
      exact absurd (sent x m sending orphan) (by simp [isClaim])
    have out := withdrawn_withdraw (s := setView ch (.peer p) none (popCell s)) (k := k) bid queued again last
    refine ⟨_, exec_claim_eq h channel purpose taken ?_, (namesHolder_setView p ch (popCell s)).of_map ?_, ?_, out.reset,
      fun x m => ?_, out.others⟩
    · rw [State.Quiet, out.rau]
      exact q
    · rw [out.tcm]
      rfl
    · rw [State.bid, out.tcm]
      exact Bank.get_set ..
    · rcases out.tx x m with m | other
      · simpa using (List.mem_filter.mp m).2
      · right
        simp [isClaimFor, other]
  case freed =>
    have freed : takeClaim p ch (popCell s) = freeContext k (yielded p ch (popCell s)) := by
      rcases stands with ⟨holder, clearing⟩ | ⟨holder, claimer, clearer⟩
      · exact takeClaim_of_clearing p holder clearing
      · exact takeClaim_of_clearer p holder claimer clearer
    exact ⟨_, exec_claim_eq h channel purpose freed q, (namesHolder_setView p ch (popCell s)).of_map rfl, at_freeContext k _,
      channel_yielded p ch (popCell s), rfl, fun j other => at_freeContext_ne other _⟩
  case call =>
    refine exec_claim_eq h channel purpose (takeClaim_of_call (s := popCell s) p holder call) ?_
    rw [State.Quiet, sendDispute_rau]
    exact q

end Sys2Proof.Machine
end

section
/-! PROOFS. The family of dialling: the characters of the Dial Generator, the guard and the timed phases (R79, R80, R82, R83). -/
namespace Sys2Proof.Machine

/-! ### Changes of one context -/

theorem modCtx_modCtx (k : ContextId) (f g : Context → Context) (s : State) :
    (s.modCtx k f).modCtx k g = s.modCtx k fun x => g (f x) :=
  State.eq_of_blocks rfl rfl rfl rfl (bank_modify_modify s.ctx k f g) rfl rfl rfl rfl

theorem modCtx_congr {s : State} {k : ContextId} {f g : Context → Context} (h : f (s.at k) = g (s.at k)) :
    s.modCtx k f = s.modCtx k g :=
  congrArg (fun x => ({ s with ctx := s.ctx.set k x } : State)) h

theorem quiet_of_rau {s t : State} (q : s.Quiet) (rau : t.rau = s.rau) : t.Quiet := by
  rw [State.Quiet, rau]
  exact q

theorem configOf_eq {s : State} {g : ConfigRecord} (config : s.cfu.config = some g) : configOf s = g := by
  rw [configOf, config]
  rfl

/-! ### The phase of a character (R80) -/

/-- A context with its Dial Generator in a phase. -/
def phased (p : DialPhase) (left : Nat) (code : LineCode) (x : Context) : Context :=
  { x with txCode := code, dgn := { x.dgn with phase := p, left } }

theorem dialPhase_eq (k : ContextId) (p : DialPhase) (left : Nat) (code : LineCode) (s : State) :
    dialPhase k p left code s = s.modCtx k (phased p left code) := modCtx_modCtx ..

/-- R83: a context whose dial string has been sent. -/
def dialled (x : Context) : Context := { x with state := .progress, txCode := .seize, timer := some 45000, dgn := Dgn.reset }

theorem enterProgress_eq (k : ContextId) (s : State) : enterProgress k s = s.modCtx k dialled := rfl

section
variable {s : State} {k : ContextId} {d : Byte} {rest : List Byte}

theorem startCharacters_of_comma (n : Nat) (current : (s.at k).dgn.dial.drop (s.at k).dgn.pos = d :: rest)
    (comma : d = charComma) : startCharacters k (n + 1) s = s.modCtx k (phased .gap 2000 .seize) := by
  simp only [startCharacters, current, comma, if_true]
  exact dialPhase_eq ..

theorem startCharacters_of_wait (n : Nat) (current : (s.at k).dgn.dial.drop (s.at k).dgn.pos = d :: rest)
    (wait : d = charW) (silent : dialTonePresent (s.at k).detector = false) :
    startCharacters k (n + 1) s = s.modCtx k fun x => { phased .wait 0 .seize x with timer := some 5000 } := by
  have notComma : charW ≠ charComma := by decide
  simp only [startCharacters, current, wait, notComma, silent, if_true, if_false, Bool.false_eq_true]
  rw [dialPhase_eq]
  exact modCtx_modCtx ..

theorem startCharacters_of_tone (n : Nat) (current : (s.at k).dgn.dial.drop (s.at k).dgn.pos = d :: rest)
    (notComma : d ≠ charComma) (notWait : d ≠ charW) (tones : dialsByPulses s k = false) :
    startCharacters k (n + 1) s
      = s.modCtx k fun x => { phased .tone (configOf s).toneLength .seize x with tone := .reset } := by
  simp only [startCharacters, current, notComma, notWait, tones, if_false, Bool.false_eq_true]
  rw [dialPhase_eq]
  exact modCtx_modCtx ..

theorem startCharacters_of_pulses {pulses : Nat} (n : Nat) (current : (s.at k).dgn.dial.drop (s.at k).dgn.pos = d :: rest)
    (notComma : d ≠ charComma) (notWait : d ≠ charW) (byPulses : dialsByPulses s k = true) (digit : pulsesOf d = some pulses) :
    startCharacters k (n + 1) s
      = s.modCtx k fun x => phased .break 60 .idle { x with dgn := { x.dgn with pulses } } := by
  simp only [startCharacters, current, notComma, notWait, byPulses, digit, if_false, if_true]
  rw [dialPhase_eq]
  exact modCtx_modCtx ..

theorem startCharacters_of_skipped (n : Nat) (current : (s.at k).dgn.dial.drop (s.at k).dgn.pos = d :: rest)
    (notComma : d ≠ charComma) (notWait : d ≠ charW) (byPulses : dialsByPulses s k = true) (noDigit : pulsesOf d = none) :
    startCharacters k (n + 1) s = startCharacters k n (s.modDgn k fun d => { d with pos := d.pos + 1 }) := by
  simp only [startCharacters, current, notComma, notWait, byPulses, noDigit, if_false, if_true]

theorem startCharacters_of_end (n : Nat) (sent : (s.at k).dgn.dial.drop (s.at k).dgn.pos = []) :
    startCharacters k n s = s.modCtx k dialled := by
  cases n with
  | zero => exact enterProgress_eq k s
  | succ n =>
    simp only [startCharacters, sent]
    exact enterProgress_eq k s

end

/-- A character that takes no time on a channel dialled by pulses (R80). -/
def Skipped (d : Byte) : Prop := d ≠ charComma ∧ d ≠ charW ∧ pulsesOf d = none

/-- R80: on a channel dialled by pulses a string of skipped characters is over at once. -/
theorem startCharacters_of_all_skipped {s : State} {k : ContextId} (n : Nat) (byPulses : dialsByPulses s k = true)
    (skipped : ∀ d ∈ (s.at k).dgn.dial.drop (s.at k).dgn.pos, Skipped d) : startCharacters k n s = s.modCtx k dialled := by
  induction n generalizing s with
  | zero => exact enterProgress_eq k s
  | succ n ih =>
    cases current : (s.at k).dgn.dial.drop (s.at k).dgn.pos with
    | nil => exact startCharacters_of_end (n + 1) current
    | cons d rest =>
      obtain ⟨notComma, notWait, noDigit⟩ := skipped d (by rw [current]; exact List.mem_cons_self)
      rw [startCharacters_of_skipped n current notComma notWait byPulses noDigit]
      have next : (s.modDgn k fun d => { d with pos := d.pos + 1 }).at k
          = { s.at k with dgn := { (s.at k).dgn with pos := (s.at k).dgn.pos + 1 } } := at_modCtx ..
      rw [ih]
      · exact modCtx_modCtx ..
      · rw [dialsByPulses, next]
        exact byPulses
      · intro e m
        rw [next, ← List.tail_drop] at m
        exact skipped e (List.mem_of_mem_tail m)

/-! ### The character that begins (R80, R82) -/

/-- What a character sets at its context: the phase, its time and the code on the line. -/
structure Begins (pulse : Bool) (toneLength : Nat) (x : Context) (d : Byte) (y : Context) : Prop where
  state : y.state = x.state
  dial : y.dgn.dial = x.dgn.dial
  pos : y.dgn.pos = x.dgn.pos
  comma : d.toNat = 0x2C → y.dgn.phase = .gap ∧ y.dgn.left = 2000 ∧ y.txCode = .seize
  wait : d.toNat = 0x57 → y.dgn.phase = .wait ∧ y.timer = some 5000 ∧ y.txCode = .seize
  tone : d.toNat ≠ 0x2C → d.toNat ≠ 0x57 → pulse = false → y.dgn.phase = .tone ∧ y.dgn.left = toneLength ∧ y.txCode = .seize
  digit : 0x30 ≤ d.toNat → d.toNat ≤ 0x39 → pulse = true → y.dgn.phase = .break ∧ y.dgn.left = 60
    ∧ y.dgn.pulses = (if d.toNat = 0x30 then 10 else d.toNat - 0x30) ∧ y.txCode = .idle

theorem dialsByPulses_eq {s : State} {k : ContextId} {ch : Channel} (channel : (s.at k).channel = some ch) :
    dialsByPulses s k = inSet (configOf s).pulseSet ch := by
  simp only [dialsByPulses, channel]

theorem pulsesOf_of_digit {d : Byte} (low : 0x30 ≤ d.toNat) (high : d.toNat ≤ 0x39) :
    pulsesOf d = some (if d.toNat = 0x30 then 10 else d.toNat - 0x30) := by
  have zero : (d = 0x30) ↔ d.toNat = 0x30 := BitVec.toNat_inj.symm
  simp only [pulsesOf, low, high, decide_true, Bool.and_self, if_true, zero]

theorem startCharacters_begins {s : State} {k : ContextId} {ch : Channel} {d : Byte} {rest : List Byte} (n : Nat)
    (channel : (s.at k).channel = some ch) (current : (s.at k).dgn.dial.drop (s.at k).dgn.pos = d :: rest)
    (silent : d.toNat = 0x57 → (s.at k).detector.progressOn = false)
    (dialable : inSet (configOf s).pulseSet ch = true → d.toNat ∈ [0x2C, 0x57] ∨ (0x30 ≤ d.toNat ∧ d.toNat ≤ 0x39)) :
    ∃ f, startCharacters k (n + 1) s = s.modCtx k f
      ∧ Begins (inSet (configOf s).pulseSet ch) (configOf s).toneLength (s.at k) d (f (s.at k)) := by
  have isComma : d = charComma ↔ d.toNat = 0x2C := BitVec.toNat_inj.symm
  have isWait : d = charW ↔ d.toNat = 0x57 := BitVec.toNat_inj.symm
  by_cases comma : d = charComma
  · have code := isComma.mp comma
    exact ⟨_, startCharacters_of_comma n current comma, rfl, rfl, rfl, fun _ => ⟨rfl, rfl, rfl⟩, fun _ => by omega,
      fun other => absurd code other, fun _ _ => by omega⟩
  · have notComma := mt isComma.mpr comma
    by_cases wait : d = charW
    · have code := isWait.mp wait
      have absent : dialTonePresent (s.at k).detector = false := by simp [dialTonePresent, silent code]
      exact ⟨_, startCharacters_of_wait n current wait absent, rfl, rfl, rfl, fun _ => by omega, fun _ => ⟨rfl, rfl, rfl⟩,
        fun _ other => absurd code other, fun _ _ => by omega⟩
    · have notWait := mt isWait.mpr wait
      cases pulse : inSet (configOf s).pulseSet ch with
      | false =>
        have tones := (dialsByPulses_eq channel).trans pulse
        exact ⟨_, startCharacters_of_tone n current comma wait tones, rfl, rfl, rfl, fun e => absurd e notComma,
          fun e => absurd e notWait, fun _ _ _ => ⟨rfl, rfl, rfl⟩, fun _ _ => nofun⟩
      | true =>
        have byPulses := (dialsByPulses_eq channel).trans pulse
        have digit : 0x30 ≤ d.toNat ∧ d.toNat ≤ 0x39 := (dialable pulse).resolve_left (by simp [notComma, notWait])
        exact ⟨_, startCharacters_of_pulses n current comma wait byPulses (pulsesOf_of_digit digit.1 digit.2), rfl, rfl, rfl,
          fun e => absurd e notComma, fun e => absurd e notWait, fun _ _ => nofun, fun _ _ _ => ⟨rfl, rfl, rfl, rfl⟩⟩

/-! ### The guard and the ends of phases (R79, R80) -/

theorem skipped_of_mem {d : Byte} (m : d.toNat ∈ [0x2A, 0x23, 0x41, 0x42, 0x43, 0x44]) : Skipped d := by
  have isComma : d = charComma ↔ d.toNat = 0x2C := BitVec.toNat_inj.symm
  have isWait : d = charW ↔ d.toNat = 0x57 := BitVec.toNat_inj.symm
  simp only [List.mem_cons, List.not_mem_nil, or_false] at m
  refine ⟨mt isComma.mp (by omega), mt isWait.mp (by omega), ?_⟩
  have outside : ¬ (0x30 ≤ d.toNat ∧ d.toNat ≤ 0x39) := by omega
  simp only [pulsesOf, Bool.and_eq_true, decide_eq_true_eq, outside, if_false]

theorem startCharacters_rau (k : ContextId) (n : Nat) (s : State) : (startCharacters k n s).rau = s.rau := by
  induction n generalizing s with
  | zero => rfl
  | succ n ih =>
    unfold startCharacters
    dsimp only
    split
    · rfl
    split
    · rfl
    split
    · split
      · rw [ih]
        rfl
      · rfl
    split
    · split
      · rfl
      · rw [ih]
        rfl
    · rfl

/-- R79: a context whose Dial Generator has been loaded. -/
def loaded (dial : List Byte) (x : Context) : Context :=
  { x with state := .dialling, timer := none, dgn := { Dgn.reset with dial } }

theorem enterDialling_eq {s : State} {k : ContextId} {o : Outgoing} (request : (s.at k).outgoing = some o) :
    enterDialling k s = startCharacters k (o.dial.length + 1) (s.modCtx k (loaded o.dial)) := by
  have dial : ((s.at k).outgoing.map (·.dial)).getD [] = o.dial := by rw [request]; rfl
  simp only [enterDialling, startCharacter, dial]
  rw [at_modCtx]
  rfl

/-- R80: a context whose current character has ended. -/
def advanced (x : Context) : Context := { x with timer := none, dgn := { x.dgn with pos := x.dgn.pos + 1 } }

theorem nextCharacter_eq (k : ContextId) (s : State) :
    nextCharacter k s = startCharacters k ((s.at k).dgn.dial.length + 1) (s.modCtx k advanced) := by
  have next : setTimer k none (s.modDgn k fun d => { d with pos := d.pos + 1 }) = s.modCtx k advanced := modCtx_modCtx ..
  rw [nextCharacter, startCharacter, next, at_modCtx]
  rfl

theorem exec_dialPhaseEnd_of_due {s t : State} {k : ContextId} (e : phaseOver k s = t) (q : t.Quiet)
    (dialling : (s.at k).state = .dialling) (held : (s.at k).held = false) (left : (s.at k).dgn.left = 0)
    (timed : (s.at k).dgn.phase.timed = true) : exec (.dialPhaseEnd k) s = .next t := by
  have due : (standsIn s k .dialling && (s.at k).dgn.left == 0 && (s.at k).dgn.phase.timed) = true := by
    simp [standsIn_eq_true dialling held, left, timed]
  exact (congrArg (fun b => act b (phaseOver k s) s) due).trans (act_of_due s rfl (e ▸ q) |>.trans (by rw [e]))

theorem phaseOver_of_timed {s : State} {k : ContextId} :
    ((s.at k).dgn.phase = .tone → phaseOver k s = s.modCtx k (phased .gap (configOf s).gapLength .seize))
    ∧ ((s.at k).dgn.phase = .break → phaseOver k s
        = s.modCtx k fun x => phased .make 40 .seize { x with dgn := { x.dgn with pulses := x.dgn.pulses - 1 } })
    ∧ ((s.at k).dgn.phase = .make → 0 < (s.at k).dgn.pulses → phaseOver k s = s.modCtx k (phased .break 60 .idle))
    ∧ ((s.at k).dgn.phase = .make → (s.at k).dgn.pulses = 0 → phaseOver k s = s.modCtx k (phased .pause 700 .seize))
    ∧ ((s.at k).dgn.phase ∈ [.gap, .pause] → phaseOver k s = nextCharacter k s) := by
  refine ⟨fun phase => ?_, fun phase => ?_, fun phase some => ?_, fun phase none => ?_, fun phase => ?_⟩
  · simp only [phaseOver, phase, dialPhase_eq]
  · simp only [phaseOver, phase, dialPhase_eq]
    exact modCtx_modCtx ..
  · simp only [phaseOver, phase, some, if_true, dialPhase_eq]
    rfl
  · simp only [phaseOver, phase, none, Nat.lt_irrefl, if_false, dialPhase_eq]
    rfl
  · simp only [List.mem_cons, List.not_mem_nil, or_false] at phase
    rcases phase with phase | phase <;> simp only [phaseOver, phase]

/-- The state in which the character `d` of the context's string begins (R80, R82). -/
def BeginsFrom (s : State) (k : ContextId) (pulse : Bool) (toneLength : Nat) (d : Byte) (t : State) : Prop :=
  (t.at k).state = .dialling ∧ t = { s with ctx := t.ctx }
    ∧ (d.toNat = 0x2C → (t.at k).dgn.phase = .gap ∧ (t.at k).dgn.left = 2000 ∧ (t.at k).txCode = .seize)
    ∧ (d.toNat = 0x57 → (s.at k).detector.progressOn = false → (t.at k).dgn.phase = .wait ∧ (t.at k).timer = some 5000
        ∧ (t.at k).txCode = .seize)
    ∧ (d.toNat ≠ 0x2C → d.toNat ≠ 0x57 → pulse = false →
        (t.at k).dgn.phase = .tone ∧ (t.at k).dgn.left = toneLength ∧ (t.at k).txCode = .seize)
    ∧ (0x30 ≤ d.toNat → d.toNat ≤ 0x39 → pulse = true → (t.at k).dgn.phase = .break ∧ (t.at k).dgn.left = 60
        ∧ (t.at k).dgn.pulses = (if d.toNat = 0x30 then 10 else d.toNat - 0x30) ∧ (t.at k).txCode = .idle)

/-- The character that a context of a loaded or advanced Dial Generator starts. -/
theorem startCharacters_beginsFrom {s : State} {k : ContextId} {ch : Channel} {f : Context → Context} {d : Byte} {rest : List Byte}
    (n : Nat) (channel : (f (s.at k)).channel = some ch) (detector : (f (s.at k)).detector = (s.at k).detector)
    (state : (f (s.at k)).state = .dialling) (current : (f (s.at k)).dgn.dial.drop (f (s.at k)).dgn.pos = d :: rest)
    (silent : d.toNat = 0x57 → (s.at k).detector.progressOn = false)
    (dialable : inSet (configOf s).pulseSet ch = true → d.toNat ∈ [0x2C, 0x57] ∨ (0x30 ≤ d.toNat ∧ d.toNat ≤ 0x39)) :
    let t := startCharacters k (n + 1) (s.modCtx k f)
    BeginsFrom s k (inSet (configOf s).pulseSet ch) (configOf s).toneLength d t
      ∧ (t.at k).dgn.dial = (f (s.at k)).dgn.dial ∧ (t.at k).dgn.pos = (f (s.at k)).dgn.pos := by
  have record : (s.modCtx k f).at k = f (s.at k) := at_modCtx ..
  rw [← record] at channel detector state current
  obtain ⟨h, same, begun⟩ := startCharacters_begins n channel current (by rw [detector]; exact silent) dialable
  intro t
  have isT : t = s.modCtx k fun x => h (f x) := same.trans (modCtx_modCtx ..)
  have atT : t.at k = h (f (s.at k)) := by rw [isT, at_modCtx]
  rw [record] at begun state
  rw [BeginsFrom, atT, isT]
  exact ⟨⟨begun.state.trans state, rfl, begun.comma, fun wait _ => begun.wait wait, begun.tone, begun.digit⟩,
    begun.dial, begun.pos⟩

theorem exec_seizureGuardExpiry_of_due {s : State} {k : ContextId} {o : Outgoing} (q : s.Quiet)
    (request : (s.at k).outgoing = some o) (seized : (s.at k).state = .seized) (held : (s.at k).held = false)
    (expired : (s.at k).timer = some 0) : exec (.seizureGuardExpiry k) s
      = .next (startCharacters k (o.dial.length + 1) (s.modCtx k (loaded o.dial))) := by
  have quiet : (startCharacters k (o.dial.length + 1) (s.modCtx k (loaded o.dial))).Quiet :=
    quiet_of_rau (s := s.modCtx k (loaded o.dial)) q (startCharacters_rau ..)
  rw [← enterDialling_eq request] at quiet ⊢
  exact act_of_due s (timerOut_eq_true seized held expired) quiet

theorem exec_dialPhaseEnd_of_next {s : State} {k : ContextId} (q : s.Quiet) (dialling : (s.at k).state = .dialling)
    (held : (s.at k).held = false) (left : (s.at k).dgn.left = 0) (phase : (s.at k).dgn.phase ∈ [.gap, .pause]) :
    exec (.dialPhaseEnd k) s = .next (startCharacters k ((s.at k).dgn.dial.length + 1) (s.modCtx k advanced)) := by
  have timed : (s.at k).dgn.phase.timed = true := by
    simp only [List.mem_cons, List.not_mem_nil, or_false] at phase
    rcases phase with phase | phase <;> rw [phase] <;> rfl
  obtain ⟨_, _, _, _, next⟩ := phaseOver_of_timed (s := s) (k := k)
  exact exec_dialPhaseEnd_of_due ((next phase).trans (nextCharacter_eq k s))
    (quiet_of_rau (s := s.modCtx k advanced) q (startCharacters_rau ..)) dialling held left timed

/-- Settles O50: the guard and the end of a gap or pause start characters, and every other phase has its successor. -/
theorem dialTimersAct : Obligations.DialTimersAct := by
  intro s k ch g o q config held channel request
  obtain rfl : configOf s = g := configOf_eq config
  intro x pulse begins phase progress
  have byPulses_iff {f : Context → Context} (same : (f (s.at k)).channel = some ch) :
      dialsByPulses (s.modCtx k f) k = pulse := dialsByPulses_eq (by rw [at_modCtx]; exact same)
  obtain ⟨toneOver, breakOver, makeMore, makeOver, _⟩ := phaseOver_of_timed (s := s) (k := k)
  refine ⟨fun seized expired => ?guard, fun dialling done => ⟨fun tone => ?tone, fun brk => ?brk, fun make more => ?more,
    fun make none => ?done, fun next => ⟨fun sent => ?sent, fun d rest current _ silent dialable => ?next⟩⟩⟩
  case guard =>
    have started := exec_seizureGuardExpiry_of_due q request seized held expired
    refine ⟨fun d rest current => ⟨_, started, fun _ silent dialable => ?_⟩, fun byPulses skipped => ?_⟩
    · exact startCharacters_beginsFrom (s := s) (f := loaded o.dial) o.dial.length channel rfl rfl current silent dialable
    · have gone := startCharacters_of_all_skipped (s := s.modCtx k (loaded o.dial)) (o.dial.length + 1)
        ((byPulses_iff channel).trans byPulses)
        (by rw [at_modCtx]; exact fun d m => skipped_of_mem (skipped d m))
      rw [gone, modCtx_modCtx] at started
      exact ⟨_, started, rfl, at_modCtx ..⟩
  case tone =>
    rw [exec_dialPhaseEnd_of_due (toneOver tone) q dialling held done (by rw [tone]; rfl)]
    exact congrArg _ (modCtx_congr rfl)
  case brk =>
    rw [exec_dialPhaseEnd_of_due (breakOver brk) q dialling held done (by rw [brk]; rfl)]
    exact congrArg _ (modCtx_congr rfl)
  case more =>
    rw [exec_dialPhaseEnd_of_due (makeMore make more) q dialling held done (by rw [make]; rfl)]
    exact congrArg _ (modCtx_congr rfl)
  case done =>
    rw [exec_dialPhaseEnd_of_due (makeOver make none) q dialling held done (by rw [make]; rfl)]
    refine congrArg _ (modCtx_congr ?_)
    rw [← none]
    rfl
  case sent =>
    have started := exec_dialPhaseEnd_of_next q dialling held done next
    have gone : startCharacters k ((s.at k).dgn.dial.length + 1) (s.modCtx k advanced) = (s.modCtx k advanced).modCtx k dialled :=
      startCharacters_of_end _ (by rw [at_modCtx]; exact List.drop_eq_nil_of_le sent)
    rw [gone, modCtx_modCtx] at started
    exact ⟨_, started, rfl, at_modCtx ..⟩
  case next =>
    obtain ⟨begun, _, pos⟩ := startCharacters_beginsFrom (s := s) (f := advanced) (s.at k).dgn.dial.length channel rfl dialling
      current silent dialable
    exact ⟨_, exec_dialPhaseEnd_of_next q dialling held done next, begun, pos⟩

end Sys2Proof.Machine
end

section
/-! PROOFS. The family of the ends of deposits and fetches: the outcomes of their cells and their reply timers (R31, R101,
R124, R131, R132, R134, R142, R146, R157). -/
namespace Sys2Proof.Machine

/-! ### Two states that differ in the contexts alone -/

/-- The second state is the first with other contexts. -/
def SameOff (s t : State) : Prop := t = { s with ctx := t.ctx }

namespace SameOff

variable {s t u : State}

theorem refl (s : State) : SameOff s s := rfl

theorem trans (h : SameOff s t) (g : SameOff t u) : SameOff s u := by
  rw [SameOff] at *
  rw [g, h]

theorem modCtx {k : ContextId} {f : Context → Context} (h : SameOff s t) : SameOff s (t.modCtx k f) :=
  h.trans rfl

theorem hwi (h : SameOff s t) : t.hwi = s.hwi := by rw [h]
theorem clc (h : SameOff s t) : t.clc = s.clc := by rw [h]
theorem cfu (h : SameOff s t) : t.cfu = s.cfu := by rw [h]
theorem tcm (h : SameOff s t) : t.tcm = s.tcm := by rw [h]
theorem msc (h : SameOff s t) : t.msc = s.msc := by rw [h]
theorem rau (h : SameOff s t) : t.rau = s.rau := by rw [h]
theorem quiet (h : SameOff s t) (q : s.Quiet) : t.Quiet := quiet_of_rau q h.rau

theorem of_blocks (hwi : t.hwi = s.hwi) (clc : t.clc = s.clc) (cfu : t.cfu = s.cfu) (tcm : t.tcm = s.tcm)
    (msc : t.msc = s.msc) (rau : t.rau = s.rau) (free : t.free = s.free) (pending : t.pending = s.pending) : SameOff s t :=
  State.eq_of_blocks hwi clc cfu tcm rfl msc rau free pending

theorem offerOther {c : Cell} {n : Nat} (h : SameOff s t) : SameOff (offerOther c n none s) (offerOther c n none t) := by
  rw [h]
  unfold Machine.offerOther
  dsimp only
  split <;> rfl

theorem offerReport {c : Cell} (h : SameOff s t) : SameOff (offerReport c s) (offerReport c t) := by
  rw [h]
  unfold Machine.offerReport
  dsimp only
  split <;> rfl

theorem sendEvent {k : Option ContextId} {e : Event} (h : SameOff s t) : SameOff (sendEvent k e s) (sendEvent k e t) := by
  have same := h.offerReport (c := ownCell s e.level gateway kindEvent (contextTag k) e.payload)
  rw [Machine.sendEvent, Machine.sendEvent, ownCell, ownCell, ownAddress, ownAddress, h.cfu]
  exact same

theorem sendRelease {c : Channel} (h : SameOff s t) : SameOff (sendRelease c s) (sendRelease c t) := by
  have same := h.offerOther (c := ownCell s 2 allStations kindRelease 0xFF (be1 c.val)) (n := 0)
  rw [Machine.sendRelease, Machine.sendRelease, ownCell, ownCell, ownAddress, ownAddress, h.cfu]
  exact same

end SameOff

theorem offerOther_none_setFetch (c : Cell) (n : Nat) (k : ContextId) (f : Option Fetch) (s : State) :
    (offerOther c n none s).setFetch k f = offerOther c n none (s.setFetch k f) := by
  have same : queueTakes (s.setFetch k f).clc.tx c = queueTakes s.clc.tx c := rfl
  rw [offerOther, offerOther, same]
  split <;> rfl

/-! ### The end of a fetch (R134) -/

theorem endFetch_of_handle {s : State} {k : ContextId} {f : Fetch} {n : Nat} (fetch : s.fetch k = some f)
    (handle : f.handle = some n) : endFetch k s = offerOther (ownCell s 4 (homeAddress f.home) kindFetchClose (tagOf k) (be2 n)) 0 none
      (s.setFetch k none) := by
  rw [← offerOther_none_setFetch]
  simp only [endFetch, fetch, handle]
  rfl

theorem endFetch_of_no_handle {s : State} {k : ContextId} {f : Fetch} (fetch : s.fetch k = some f) (handle : f.handle = none) :
    endFetch k s = s.setFetch k none := by
  simp only [endFetch, fetch, handle]

theorem fetch_endFetch (k : ContextId) (s : State) : (endFetch k s).fetch k = none := by
  cases fetch : s.fetch k with
  | none => simp only [endFetch, fetch]
  | some f =>
    simp only [endFetch, fetch]
    exact Bank.get_set ..

theorem at_endFetch (k j : ContextId) (s : State) : (endFetch k s).at j = s.at j :=
  (spares_endFetch (Spares.refl id s)).at_eq j

theorem sameOff_endFetch {s t : State} {k : ContextId} (h : SameOff s t) : SameOff (endFetch k s) (endFetch k t) := by
  have same : t.fetch k = s.fetch k := by rw [State.fetch, h.rau, State.fetch]
  cases fetch : s.fetch k with
  | none =>
    simp only [endFetch, same, fetch]
    exact h
  | some f =>
    have gone : SameOff (s.setFetch k none) (t.setFetch k none) := by rw [h]; rfl
    cases handle : f.handle with
    | none =>
      rw [endFetch_of_no_handle fetch handle, endFetch_of_no_handle (same.trans fetch) handle]
      exact gone
    | some n =>
      rw [endFetch_of_handle fetch handle, endFetch_of_handle (same.trans fetch) handle, ownCell, ownCell, ownAddress, ownAddress,
        h.cfu]
      exact gone.offerOther

/-! ### The end of a playback at a fetch that ends (R101, R142) -/

/-- R100, R101: a codec whose playback has stopped. -/
def stopped (v : Vcd) : Vcd := { v with buffer := .reset, mark := .ended, source := none, current := none }

/-- R147: a voice session that waits. -/
def waiting (v : Voice) : Voice :=
  { v with activity := .waiting, script := .none, step := none, target := none, beep := none, idle := some 20000 }

/-- R139: a voice session in its beep. -/
def beeping (v : Voice) : Voice := { v with activity := .beeping, step := some .beep, target := none, beep := some 500 }

theorem stopPlayback_of_elsewhere {s : State} {k : ContextId} (elsewhere : ∀ h, (s.at k).vcd.source ≠ some (.here h)) :
    stopPlayback k s = endFetch k (s.modVcd k stopped) := by
  unfold stopPlayback leaveSource
  dsimp only
  split
  case h_1 h source => exact absurd source (elsewhere h)
  case h_2 => rfl

theorem stopPlayback_ends {s : State} {k : ContextId} (elsewhere : ∀ h, (s.at k).vcd.source ≠ some (.here h)) :
    SameOff (endFetch k s) (stopPlayback k s) ∧ (stopPlayback k s).at k = { s.at k with vcd := stopped (s.at k).vcd } := by
  rw [stopPlayback_of_elsewhere elsewhere, at_endFetch]
  exact ⟨sameOff_endFetch (SameOff.refl s).modCtx, at_modCtx ..⟩

theorem enterWaiting_eq (k : ContextId) (s : State) : enterWaiting k s = s.modVoice k waiting := rfl

/-- R142: a playback of no script that ends is reported, and the context waits. -/
theorem playbackOver_of_none {s : State} {k : ContextId} (result : Byte) (script : (s.at k).voice.script = .none) :
    SameOff (sendEvent (some k) (.playDone result (s.at k).vcd.position) s) (playbackOver k result s)
      ∧ (playbackOver k result s).at k = { s.at k with voice := waiting (s.at k).voice } := by
  have notGreeting : inGreeting (s.at k).voice = false := by simp [inGreeting, script]
  have notScript : ((s.at k).voice.script = .outdialPlay) = False := by simp [script]
  simp only [playbackOver, notGreeting, notScript, decide_false, Bool.false_and, Bool.false_eq_true, if_false, sendPlayDone,
    enterWaiting_eq]
  constructor
  · have same : (State.at (s.modVoice k fun v => { v with activity := .none, target := none }) k).vcd = (s.at k).vcd := by
      rw [State.modVoice, at_modCtx]
    rw [same]
    exact (SameOff.refl s).modCtx.sendEvent.modCtx
  · rw [State.modVoice, at_modCtx, at_sendEvent, State.modVoice, at_modCtx]
    rfl

/-- R138: a greeting that ends gives way to the beep. -/
theorem playbackOver_of_greeting {s : State} {k : ContextId} (result : Byte) (greeting : inGreeting (s.at k).voice = true) :
    SameOff s (playbackOver k result s)
      ∧ (playbackOver k result s).at k = { s.at k with voice := beeping (s.at k).voice, tone := .reset } := by
  simp only [playbackOver, greeting, if_true, startBeep, startTone]
  constructor
  · exact (SameOff.refl s).modCtx.modCtx.modCtx
  · rw [at_modCtx, State.modVoice, at_modCtx, State.modVoice, at_modCtx]
    rfl

/-! ### The end of a deposit at its recording (R131, R144, R146) -/

/-- R96, R146: a recording whose target has ended by itself. -/
theorem abandonRecording_eq (k : ContextId) (s : State) : ∃ x, abandonRecording k s = s.modCtx k (fun _ => x)
    ∧ x.voice.activity = .none ∧ x.voice.recTarget = none ∧ x.voice.depositWait = false ∧ x.voice.script = (s.at k).voice.script
    ∧ x.vcd.recording = false ∧ x.vcd.build = [] ∧ callPart x = callPart (s.at k) := by
  unfold abandonRecording
  dsimp only
  cases (s.at k).vcd.stopRecording (configOf s).quietThreshold with
  | mk v finished =>
    cases finished with
    | none =>
      exact ⟨_, (modCtx_modCtx ..).trans ((modCtx_modCtx ..).trans (modCtx_congr rfl)), rfl, rfl, rfl, rfl, rfl, rfl, rfl⟩
    | some f =>
      exact ⟨_, (modCtx_modCtx ..).trans ((modCtx_modCtx ..).trans ((modCtx_modCtx ..).trans (modCtx_congr rfl))), rfl, rfl, rfl,
        rfl, rfl, rfl, rfl⟩

theorem at_freeDeposit (k j : ContextId) (s : State) : (freeDeposit k s).at j = s.at j := rfl

theorem at_reportDeposit (k j : ContextId) (d : OutDeposit) (o : DepositOutcome) (s : State) :
    (reportDeposit k d o s).at j = s.at j := (spares_reportDeposit id k d o s).at_eq j

theorem reports_reportDeposit (k : ContextId) (d : OutDeposit) (o : DepositOutcome) (s : State) :
    Reports s (reportDeposit k d o s) := by
  have sent (home : Nat) (handle blocks : Option Nat) (result : Byte) (flags : Option Nat) :
      Reports s (sendRecordDone k home handle blocks result flags s) := Reports.event ..
  unfold reportDeposit
  split
  · exact sent ..
  · exact sent ..
  · exact sent ..
  · split
    · exact sent ..
    · exact sent ..

theorem afterDeposit_of_idle {s : State} {k : ContextId}
    (noWait : (s.at k).voice.depositWait = false ∨ (s.at k).voice.activity ≠ .recording) (notFax : (s.at k).session ≠ .fax) :
    afterDeposit k s = s := by
  have waits : ((s.at k).voice.depositWait && decide ((s.at k).voice.activity = .recording)) = false := by
    rcases noWait with no | no <;> simp [no]
  simp only [afterDeposit, waits, notFax, decide_false, Bool.false_and, Bool.false_eq_true, if_false, ite_self]

/-- R124, R146: a deposit whose recording is over is reported. -/
theorem depositEnds_of_over {s : State} {k : ContextId} {d : OutDeposit} (o : DepositOutcome) (kind : d.kind ≠ .fax)
    (notFax : (s.at k).session ≠ .fax) (ended : (s.at k).voice.activity ≠ .recording) :
    depositEnds k d o s = reportDeposit k d o (freeDeposit k s) := by
  have notRunning : ((freeDeposit k s).at k).voice.activity ≠ .recording := ended
  simp only [depositEnds, kind, if_false, recordingDepositEnded, notRunning, decide_false, Bool.false_and, Bool.false_eq_true]
  refine afterDeposit_of_idle (Or.inr ?_) ?_
  · rw [at_reportDeposit]
    exact ended
  · rw [at_reportDeposit]
    exact notFax

/-- R131, R144, R146: a recording of no answer script that ends with its deposit. -/
theorem depositEnds_of_running {s : State} {k : ContextId} {d : OutDeposit} (o : DepositOutcome) (kind : d.kind ≠ .fax)
    (notFax : (s.at k).session ≠ .fax) (running : (s.at k).voice.activity = .recording)
    (target : (s.at k).voice.recTarget = some (.outbound d.serial)) (script : (s.at k).voice.script ≠ .answer) :
    SameOff (reportDeposit k d o (freeDeposit k s)) (depositEnds k d o s)
      ∧ ∃ x, (depositEnds k d o s).at k = { x with voice := waiting x.voice } ∧ x.voice.recTarget = none
        ∧ x.vcd.recording = false ∧ x.vcd.build = [] ∧ callPart x = callPart (s.at k) := by
  have recording : ((freeDeposit k s).at k).voice.activity = .recording := running
  have ours : ((freeDeposit k s).at k).voice.recTarget = some (.outbound d.serial) := target
  obtain ⟨x, abandoned, _, noTarget, _, sameScript, off, build, same⟩ :=
    abandonRecording_eq k (reportDeposit k d o (freeDeposit k s))
  rw [at_reportDeposit, at_freeDeposit] at sameScript same
  have atX : (abandonRecording k (reportDeposit k d o (freeDeposit k s))).at k = x := by rw [abandoned, at_modCtx]
  have waits : recordingOver k (abandonRecording k (reportDeposit k d o (freeDeposit k s)))
      = enterWaiting k (abandonRecording k (reportDeposit k d o (freeDeposit k s))) := by
    rw [recordingOver, atX, sameScript, if_neg script]
  have ended : depositEnds k d o s = enterWaiting k (abandonRecording k (reportDeposit k d o (freeDeposit k s))) := by
    simp only [depositEnds, kind, if_false, recordingDepositEnded, recording, ours, decide_true, Bool.and_self, if_true, waits]
    refine afterDeposit_of_idle (Or.inr ?_) ?_
    · rw [enterWaiting_eq, State.modVoice, at_modCtx]
      exact (nofun : Activity.waiting ≠ .recording)
    · rw [enterWaiting_eq, State.modVoice, at_modCtx, atX]
      exact (congrArg Context.session same : (callPart x).session = _).trans_ne notFax
  rw [ended]
  refine ⟨?_, x, ?_, noTarget, off, build, same⟩
  · rw [abandoned]
    exact (SameOff.refl _).modCtx.modCtx
  · rw [enterWaiting_eq, State.modVoice, at_modCtx, atX]

/-! ### The reply timers and the keep-alive (R131, R132, R134) -/

theorem outbound_congr {s t : State} (h : t.rau = s.rau) (k : ContextId) : t.outbound k = s.outbound k := by
  rw [State.outbound, h, State.outbound]

theorem fetch_congr {s t : State} (h : t.rau = s.rau) (k : ContextId) : t.fetch k = s.fetch k := by
  rw [State.fetch, h, State.fetch]

/-- R142: a playback of no script whose fetch ends by itself. -/
theorem fetchEnds_of_playback {s : State} {k : ContextId} (session : (s.at k).session = .voice)
    (playing : (s.at k).voice.activity = .playing) (script : (s.at k).voice.script = .none)
    (elsewhere : ∀ h, (s.at k).vcd.source ≠ some (.here h)) :
    SameOff (sendEvent (some k) (.playDone codeHomeSilent (s.at k).vcd.position) (endFetch k s)) (fetchEnds k .homeSilent s)
      ∧ (fetchEnds k .homeSilent s).at k = { s.at k with vcd := stopped (s.at k).vcd, voice := waiting (s.at k).voice } := by
  have plays : fetchPlays (s.at k) = true := by simp [fetchPlays, playing, session]
  obtain ⟨same, record⟩ := stopPlayback_ends elsewhere
  have noScript : ((stopPlayback k s).at k).voice.script = .none := by rw [record]; exact script
  obtain ⟨told, waits⟩ := playbackOver_of_none codeHomeSilent noScript
  rw [record] at told waits
  simp only [fetchEnds, plays, if_true, playFetchEnded]
  exact ⟨same.sendEvent.trans told, waits⟩

theorem sendKeepalive_eq {s : State} {k : ContextId} {f : Fetch} {n : Nat} (fetch : s.fetch k = some f) (handle : f.handle = some n) :
    sendKeepalive k f s = offerOther (ownCell s 4 (homeAddress f.home) kindFetchOpen (tagOf k) (be2 n ++ [0xFF, 0xFF])) f.serial none
      (s.setFetch k (some { f with keepalive := 5000 })) := by
  simp only [sendKeepalive, sendForFetch, fetch, fetchOpenCell, handle]
  rfl

/-- Settles O55: a reply timer ends its deposit or fetch as an UNDELIVERED cell would, and the keep-alive asks again. -/
theorem peerReplyTimersAct : Obligations.PeerReplyTimersAct := by
  intro s k q
  refine ⟨fun d deposit expired kind notFax _ => ?deposit, fun f fetch => ⟨?reply, ?keepalive⟩⟩
  case deposit =>
    have reports := reports_reportDeposit k d .homeSilent (freeDeposit k s)
    have acts (quiet : (depositEnds k d .homeSilent s).Quiet) :
        exec (.depositReplyTimerExpiry k) s = .next (depositEnds k d .homeSilent s) := by
      change execDepositReplyTimerExpiry k s = _
      simp only [execDepositReplyTimerExpiry, deposit]
      exact act_of_due s (beq_iff_eq.mpr expired) quiet
    refine ⟨fun noMore => ?_, fun running target script => ?_⟩
    · have ended := depositEnds_of_over .homeSilent kind notFax noMore
      rw [acts (by rw [ended]; exact reports.quiet q), ended]
      rfl
    · obtain ⟨same, x, record, noTarget, off, _, _⟩ :=
        depositEnds_of_running .homeSilent kind notFax running target (by rw [script]; decide)
      refine ⟨_, acts (same.quiet (reports.quiet q)), ?_, ?_⟩
      · rw [outbound_congr (same.rau.trans reports.rau)]
        exact Bank.get_set ..
      · rw [record]
        exact ⟨rfl, rfl, off, noTarget⟩
  case reply =>
    intro expired connected voice playing script elsewhere n handle
    obtain ⟨same, record⟩ := fetchEnds_of_playback voice playing script elsewhere
    have closed := endFetch_of_handle fetch handle
    have rau : (fetchEnds k .homeSilent s).rau = (s.setFetch k none).rau := by
      rw [same.rau, sendEvent_rau, closed, offerOther_rau]
    refine ⟨fetchEnds k .homeSilent s, ?_, ?_, ?_⟩
    · change execFetchReplyTimerExpiry k s = _
      simp only [execFetchReplyTimerExpiry, fetch]
      exact act_of_due s (beq_iff_eq.mpr expired) (quiet_of_rau (s := s.setFetch k none) q rau)
    · rw [fetch_congr rau]
      exact Bank.get_set ..
    · rw [record, same.clc, closed, ← offerOther_none_setFetch]
      exact ⟨rfl, rfl, rfl, (sendEvent_congr _ _ (by rfl) (by rfl)).1⟩
  case keepalive =>
    intro opened due n handle
    have asked := sendKeepalive_eq fetch handle
    have quiet : (sendKeepalive k f s).Quiet := by
      rw [asked]
      exact offerOther_none_quiet _ _ q
    have stands : (f.state == .opened && f.keepalive == 0) = true := by simp [opened, due]
    change execFetchKeepalive k s = _
    simp only [execFetchKeepalive, fetch]
    rw [act_of_due s stands quiet, asked]
    rfl

/-! ### The end of a fax session by its own rules (R160, R161) -/

/-- R67, R73: what an announced call of no open request leaves, when no session is to wind down. -/
theorem endCall_of_announced {s : State} {k : ContextId} {cause : Byte} {ch : Channel} (h : clears cause = true)
    (call : inCall (s.at k) = true) (silent : Silent (s.at k)) (announced : (s.at k).announced = true)
    (noRequest : (s.at k).outgoing = none) (channel : (s.at k).channel = some ch) :
    SameOff (sendRelease ch (sendEvent (some k) (.callEnded cause) s)) (endCall k cause s)
      ∧ (endCall k cause s).at k = clearingRecord (s.at k) := by
  have told : ((sendEvent (some k) (.callEnded cause) s).at k).channel = some ch := by
    rw [at_sendEvent]
    exact channel
  rw [endCall_of_silent h call silent, announceUnknown_of_announced announced, outdialDone_of_none cause noRequest]
  constructor
  · rw [enterClearing_of_channel told]
    exact (SameOff.refl _).modCtx.sendRelease
  · rw [at_enterClearing, at_sendEvent]

/-- R161: a context whose fax session is over. -/
def faxOver (x : Context) : Context := { x with fax := .reset, pump := .reset, session := .none }

theorem faxSessionEnds_eq (k : ContextId) (result : Byte) (s : State) : faxSessionEnds k result s =
    endCall k (if result = codeOk then codeLocalDrop else codeFaxFailed)
      ((sendFaxDone k result (leaveFaxSource k s)).modCtx k faxOver) := by
  have ended : ((clearFax k (sendFaxDone k result (leaveFaxSource k s))).modCtx k fun x => { x with session := .none })
      = (sendFaxDone k result (leaveFaxSource k s)).modCtx k faxOver :=
    (congrArg (fun t => State.modCtx k _ t) (modCtx_modCtx ..)).trans (modCtx_modCtx ..)
  rw [← ended]
  rfl

theorem silent_faxOver {x : Context} (connected : x.state = .connected) : Silent (faxOver x) :=
  ⟨by rw [faxOver, connected]; decide, fun _ => Or.inl rfl⟩

/-- R160, R161: a fax session of an announced call of no open request is over. -/
theorem faxSessionEnds_of_announced {s t : State} {k : ContextId} {result : Byte} {ch : Channel} (left : leaveFaxSource k s = t)
    (same : callPart (t.at k) = callPart (s.at k)) (connected : (s.at k).state = .connected) (announced : (s.at k).announced = true)
    (noRequest : (s.at k).outgoing = none) (channel : (s.at k).channel = some ch) :
    SameOff (sendRelease ch (sendEvent (some k) (.callEnded (if result = codeOk then codeLocalDrop else codeFaxFailed))
        (sendEvent (some k) (.faxDone (t.at k).fax.pagesDone result) t))) (faxSessionEnds k result s)
      ∧ (faxSessionEnds k result s).at k = clearingRecord (faxOver (t.at k)) := by
  have state : (t.at k).state = .connected := (congrArg Context.state same : (callPart _).state = _).trans connected
  have told : (t.at k).announced = true := (congrArg Context.announced same : (callPart _).announced = _).trans announced
  have request : (t.at k).outgoing = none := (congrArg Context.outgoing same : (callPart _).outgoing = _).trans noRequest
  have chan : (t.at k).channel = some ch := (congrArg Context.channel same : (callPart _).channel = _).trans channel
  have record : ((sendFaxDone k result t).modCtx k faxOver).at k = faxOver (t.at k) := by
    rw [at_modCtx, sendFaxDone, at_sendEvent]
  have cause : clears (if result = codeOk then codeLocalDrop else codeFaxFailed) = true := by split <;> decide
  obtain ⟨off, cleared⟩ := endCall_of_announced (s := (sendFaxDone k result t).modCtx k faxOver) cause
    (by rw [record, inCall_iff]; simp [faxOver, state]) (by rw [record]; exact silent_faxOver state)
    (by rw [record]; exact told) (by rw [record]; exact request) (by rw [record]; exact chan)
  rw [faxSessionEnds_eq, left]
  exact ⟨(SameOff.refl _).modCtx.sendEvent.sendRelease.trans off, by rw [cleared, record]⟩

theorem endFetch_of_none {s : State} {k : ContextId} (none : s.fetch k = none) : endFetch k s = s := by
  simp only [endFetch, none]

theorem leaveFaxSource_of_send {s : State} {k : ContextId} (role : (s.at k).fax.role = some .send)
    (source : (s.at k).fax.source = none) (noFetch : s.fetch k = none) :
    leaveFaxSource k s = s.modFax k fun f => { f with source := none, buffer := .reset } := by
  simp only [leaveFaxSource, role, if_true, leaveSource, source]
  exact endFetch_of_none noFetch

/-- R157, R160: a fetch that ends by itself ends a fax send that has not trained. -/
theorem fetchEnds_of_faxSend {s : State} {k : ContextId} {ch : Channel} (connected : (s.at k).state = .connected)
    (fax : (s.at k).session = .fax) (idle : (s.at k).voice.activity = .none) (role : (s.at k).fax.role = some .send)
    (phase : (s.at k).fax.phase ≠ .disconnecting) (untrained : (s.at k).fax.trainingBegun = false)
    (channel : (s.at k).channel = some ch) (announced : (s.at k).announced = true) (noRequest : (s.at k).outgoing = none) :
    SameOff (sendRelease ch (sendEvent (some k) (.callEnded codeFaxFailed)
        (sendEvent (some k) (.faxDone (s.at k).fax.pagesDone codeHomeSilent) (endFetch k s)))) (fetchEnds k .homeSilent s)
      ∧ ∃ x, (fetchEnds k .homeSilent s).at k = clearingRecord x := by
  have plays : fetchPlays (s.at k) = false := by simp [fetchPlays, idle]
  let left := (endFetch k s).modFax k fun f => { f with source := none }
  have atLeft : left.at k = { s.at k with fax := { (s.at k).fax with source := none } } := by
    rw [← at_endFetch k k s]
    exact at_modCtx ..
  have ended : fetchEnds k .homeSilent s = faxSessionEnds k codeHomeSilent left := by
    simp only [fetchEnds, plays, Bool.false_eq_true, if_false, fax, role, decide_true, Bool.and_self, if_true, faxFetchEnded,
      at_endFetch, phase, endSend]
    have begun : (left.at k).fax.trainingBegun = false := by rw [atLeft]; exact untrained
    exact if_neg (by rw [begun]; decide)
  have gone := leaveFaxSource_of_send (s := left) (k := k) (by rw [atLeft]; exact role) (by rw [atLeft]) (fetch_endFetch k s)
  have record : (left.modFax k fun f => { f with source := none, buffer := .reset }).at k
      = { s.at k with fax := { (s.at k).fax with source := none, buffer := .reset } } := by
    rw [State.modFax, at_modCtx, atLeft]
  obtain ⟨off, cleared⟩ := faxSessionEnds_of_announced (result := codeHomeSilent) gone (by rw [record, atLeft]; rfl)
    (by rw [atLeft]; exact connected) (by rw [atLeft]; exact announced) (by rw [atLeft]; exact noRequest)
    (by rw [atLeft]; exact channel)
  rw [record] at off
  rw [ended]
  exact ⟨((SameOff.refl (endFetch k s)).modCtx.modCtx.sendEvent.sendEvent.sendRelease).trans off, _, cleared⟩

end Sys2Proof.Machine
end

section
/-! PROOFS. The family of the outcomes of cells on the line (R23, R25, R31, R36, R60, R74, R79, R124, R134). -/
namespace Sys2Proof.Machine

/-! ### The outcome of a cell (R31) -/

/-- R23, R31: the control line after the outcome of the cell in transmission. -/
def lineAfter (r : SendResult) (l : Clc) : Clc := { l with
  tx := l.tx.filter fun y => !y.sending, line := if l.line = .joining then .joining else .busy
  run := if r = .noAck then 1 else 0 }

/-- R31: the control line after the outcome, with the cell counted when it is UNDELIVERED. -/
def decidedLine (undelivered : Bool) (r : SendResult) (l : Clc) : Clc := { lineAfter r l with
  undelivered := if undelivered then min 65535 (l.undelivered + 1) else l.undelivered }

theorem runAfter_eq (r : SendResult) : runAfter r = if r = .noAck then 1 else 0 := by
  cases r <;> rfl

theorem lineAfter_eq (r : SendResult) (s : State) : ((removeSending s).modClc fun l => { l with
    line := if l.line = .joining then .joining else .busy, run := runAfter r }) = s.modClc (lineAfter r) := by
  rw [runAfter_eq]
  rfl

theorem cellDecided_of_orphan {x : TxCell} (orphan : x.orphan = true) (r : SendResult) (s : State) :
    cellDecided x r s = s.modClc (lineAfter r) := by
  simp only [cellDecided, orphan, if_true]
  exact lineAfter_eq r s

theorem countUndelivered_lineAfter (ok : Bool) (r : SendResult) (s : State) :
    (if ok then s.modClc (lineAfter r) else countUndelivered (s.modClc (lineAfter r))) = s.modClc (decidedLine (!ok) r) := by
  cases ok <;> rfl

theorem cellDecided_of_own {x : TxCell} (own : x.orphan = false) (r : SendResult) (s : State) :
    cellDecided x r s = tellProducer x (delivered s x r) (s.modClc (decidedLine (!delivered s x r) r)) := by
  simp only [cellDecided, own, Bool.false_eq_true, if_false, lineAfter_eq]
  rw [show delivered (s.modClc (lineAfter r)) x r = delivered s x r from rfl, countUndelivered_lineAfter]

theorem delivered_of_other {s : State} {x : TxCell} (notClaim : x.cell.kind ≠ kindClaim) (r : SendResult) :
    delivered s x r = decide (r = .ack) := by
  cases r <;> simp [delivered, notClaim]

theorem undelivered_of_other {kind : Byte} (other : kind ∉ [kindDepositOpen, kindDepositClose, kindDepositRollback, kindFetchOpen])
    (k : ContextId) (serial : Nat) (s : State) : undelivered k kind serial s = s := by
  simp only [List.mem_cons, List.not_mem_nil, or_false, not_or] at other
  obtain ⟨notOpen, notClose, notRollback, notFetch⟩ := other
  simp [undelivered, notOpen, notClose, notRollback, notFetch]

theorem tellProducer_of_unheard {x : TxCell} {ok : Bool} (notClaim : x.cell.kind ≠ kindClaim)
    (unheard : ok = true ∨ x.cell.kind ∉ [kindDepositOpen, kindDepositClose, kindDepositRollback, kindFetchOpen]) (s : State) :
    tellProducer x ok s = s := by
  rcases unheard with rfl | other
  · simp only [tellProducer, notClaim, if_false, if_true]
  · simp only [tellProducer, notClaim, if_false, undelivered_of_other other]
    cases ok <;> cases contextOf x.cell.tag.toNat <;> rfl

theorem tellProducer_of_undelivered {x : TxCell} {k : ContextId} (notClaim : x.cell.kind ≠ kindClaim)
    (context : contextOf x.cell.tag.toNat = some k) (s : State) :
    tellProducer x false s = undelivered k x.cell.kind x.serial s := by
  simp only [tellProducer, notClaim, if_false, Bool.false_eq_true, context]

/-- The outcome of a cell that nobody hears of. -/
theorem decideCell_of_unheard {s : State} {x : TxCell} {kinds : Byte → Bool} {r : SendResult} (q : s.Quiet)
    (sent : inTransmission s = some x) (due : kinds x.cell.kind = true) (own : x.orphan = false)
    (notClaim : x.cell.kind ≠ kindClaim)
    (unheard : r = .ack ∨ x.cell.kind ∉ [kindDepositOpen, kindDepositClose, kindDepositRollback, kindFetchOpen]) :
    decideCell kinds r s = .next (s.modClc (decidedLine (decide (r ≠ .ack)) r)) := by
  have decided : cellDecided x r s = s.modClc (decidedLine (decide (r ≠ .ack)) r) := by
    rw [cellDecided_of_own own, delivered_of_other notClaim, tellProducer_of_unheard notClaim (unheard.imp_left fun e => by simp [e])]
    by_cases ack : r = .ack <;> simp [ack]
  rw [decideCell_of_inTransmission sent due (by rw [decided]; exact q), decided]

/-- The outcome of an UNDELIVERED cell that its context hears of. -/
theorem decideCell_of_undelivered {s : State} {x : TxCell} {kinds : Byte → Bool} {e : Bool} {k : ContextId}
    (sent : inTransmission s = some x) (due : kinds x.cell.kind = true) (own : x.orphan = false)
    (notClaim : x.cell.kind ≠ kindClaim) (context : contextOf x.cell.tag.toNat = some k)
    (q : (undelivered k x.cell.kind x.serial (s.modClc (decidedLine true (undeliveredBy e)))).Quiet) :
    decideCell kinds (undeliveredBy e) s
      = .next (undelivered k x.cell.kind x.serial (s.modClc (decidedLine true (undeliveredBy e)))) := by
  have lost : delivered s x (undeliveredBy e) = false := by
    rw [delivered_of_other notClaim]
    cases e <;> rfl
  have decided : cellDecided x (undeliveredBy e) s
      = undelivered k x.cell.kind x.serial (s.modClc (decidedLine true (undeliveredBy e))) := by
    rw [cellDecided_of_own own, lost, tellProducer_of_undelivered notClaim context]
    rfl
  rw [decideCell_of_inTransmission sent due (by rw [decided]; exact q), decided]

theorem undelivered_of_deposit {s : State} {k : ContextId} {d : OutDeposit} {kind : Byte} {serial : Nat}
    (deposit : kind ∈ [kindDepositOpen, kindDepositClose, kindDepositRollback]) (record : s.outbound k = some d)
    (ours : d.serial = serial) : undelivered k kind serial s = depositEnds k d .homeSilent s := by
  have notFetch : kind ≠ kindFetchOpen := by rintro rfl; revert deposit; decide
  have isDeposit : (kind = kindDepositOpen || kind = kindDepositClose || kind = kindDepositRollback) = true := by
    simpa [or_assoc] using deposit
  have found : outboundOf s k serial = some d := by simp [outboundOf, record, ours]
  simp only [undelivered, notFetch, if_false, isDeposit, if_true, found]

theorem undelivered_of_fetch {s : State} {k : ContextId} {f : Fetch} {serial : Nat} (record : s.fetch k = some f)
    (ours : f.serial = serial) (opening : f.state = .opening) :
    undelivered k kindFetchOpen serial s = fetchEnds k .homeSilent s := by
  simp [undelivered, record, ours, opening]

/-- R138: a greeting of the answer script whose fetch ends gives way to the beep. -/
theorem fetchEnds_of_greeting {s : State} {k : ContextId} (state : (s.at k).state = .discriminating)
    (playing : (s.at k).voice.activity = .playing) (script : (s.at k).voice.script = .answer)
    (step : (s.at k).voice.step = some .greeting) (elsewhere : ∀ h, (s.at k).vcd.source ≠ some (.here h)) :
    SameOff (endFetch k s) (fetchEnds k .homeSilent s)
      ∧ (fetchEnds k .homeSilent s).at k
        = { s.at k with vcd := stopped (s.at k).vcd, voice := beeping (s.at k).voice, tone := .reset } := by
  have plays : fetchPlays (s.at k) = true := by simp [fetchPlays, playing, state]
  obtain ⟨same, record⟩ := stopPlayback_ends elsewhere
  have greeting : inGreeting ((stopPlayback k s).at k).voice = true := by
    rw [record]
    simp [inGreeting, script, step]
  obtain ⟨told, beeps⟩ := playbackOver_of_greeting codeHomeSilent greeting
  rw [record] at beeps
  simp only [fetchEnds, plays, if_true, playFetchEnded]
  exact ⟨same.trans told, beeps⟩

/-- Settles O23: the outcome takes the cell out, and its context hears of it where a record waits for the cell. -/
theorem outcomeRemovesTheCell : Obligations.OutcomeRemovesTheCell := by
  refine ⟨fun s x r q sent orphan => ?orphan, fun s x q sent own => ⟨fun r notClaim unheard => ?unheard, fun r kind => ?release,
    fun e k d kind context record ours notFax session => ?deposit, fun e k f kind context record ours opening => ?fetch⟩⟩
  case orphan =>
    have decided := cellDecided_of_orphan orphan r s
    exact (decideCell_of_inTransmission (kinds := fun _ => true) sent rfl (by rw [decided]; exact q)).trans (by rw [decided]; rfl)
  case unheard =>
    refine (decideCell_of_unheard (kinds := fun _ => true) q sent rfl own notClaim unheard).trans ?_
    by_cases ack : r = .ack <;> simp [ack, decidedLine, lineAfter, State.modClc]
  case release =>
    refine (decideCell_of_unheard (kinds := (· == kindRelease)) q sent (beq_iff_eq.mpr kind) own (by rw [kind]; decide)
      (Or.inr (by rw [kind]; decide))).trans ?_
    by_cases ack : r = .ack <;> simp [ack, decidedLine, lineAfter, State.modClc]
  case deposit =>
    have notClaim : x.cell.kind ≠ kindClaim := by
      intro claim
      rw [claim] at kind
      revert kind
      decide
    have due : (x.cell.kind == kindDepositOpen || x.cell.kind == kindDepositClose || x.cell.kind == kindDepositRollback) = true := by
      simpa [or_assoc] using kind
    intro reported
    have isReported : reportDeposit k d .homeSilent (freeDeposit k (s.modClc (decidedLine true (undeliveredBy e)))) = reported := by
      cases e <;> rfl
    have reports := reports_reportDeposit k d .homeSilent (freeDeposit k (s.modClc (decidedLine true (undeliveredBy e))))
    have heard := undelivered_of_deposit (s := s.modClc (decidedLine true (undeliveredBy e))) kind record ours
    have acts (quiet : (depositEnds k d .homeSilent (s.modClc (decidedLine true (undeliveredBy e)))).Quiet) :
        exec (.depositCellUndelivered e) s
          = .next (depositEnds k d .homeSilent (s.modClc (decidedLine true (undeliveredBy e)))) := by
      rw [← heard] at quiet ⊢
      exact decideCell_of_undelivered (kinds := fun kind =>
        kind == kindDepositOpen || kind == kindDepositClose || kind == kindDepositRollback) sent due own notClaim context quiet
    refine ⟨fun noMore => ?_, fun running target script => ?_⟩
    · have ended := depositEnds_of_over (s := s.modClc (decidedLine true (undeliveredBy e))) .homeSilent notFax session noMore
      rw [acts (by rw [ended]; exact reports.quiet q), ended, isReported]
    · obtain ⟨same, y, at_k, noTarget, off, build, _⟩ := depositEnds_of_running
        (s := s.modClc (decidedLine true (undeliveredBy e))) .homeSilent notFax session running target script
      refine ⟨_, acts (same.quiet (reports.quiet q)), ?_, ?_, ?_, ?_, ?_, isReported ▸ same⟩
      all_goals rw [at_k]
      · rfl
      · rfl
      · exact noTarget
      · exact off
      · exact build
  case fetch =>
    intro gone closed
    let u := s.modClc (decidedLine true (undeliveredBy e))
    have isGone : u.setFetch k none = gone := by cases e <;> rfl
    have heard := undelivered_of_fetch (s := u) (k := k) record ours opening
    rw [← kind] at heard
    have acts (quiet : (fetchEnds k .homeSilent u).Quiet) :
        exec (.fetchOpenUndelivered e) s = .next (fetchEnds k .homeSilent u) := by
      rw [← heard] at quiet ⊢
      exact decideCell_of_undelivered (kinds := (· == kindFetchOpen)) sent (beq_iff_eq.mpr kind) own (by rw [kind]; decide)
        context quiet
    have isClosed (n : Nat) (handle : f.handle = some n) : endFetch k u = closed n := by
      rw [endFetch_of_handle (s := u) record handle, isGone]
      rfl
    have quiet (n : Nat) : (closed n).Quiet := offerOther_none_quiet _ _ q
    refine ⟨fun n connected voice playing script source handle => ?playback,
      fun discriminating playing script step source handle => ?greeting,
      fun n ch connected fax idle role phase untrained handle channel incoming announced noRequest => ?faxSend⟩
    case playback =>
      obtain ⟨same, at_k⟩ := fetchEnds_of_playback (s := u) (k := k) voice playing script
        (by rw [show (u.at k).vcd.source = none from source]; nofun)
      rw [isClosed n handle] at same
      refine ⟨_, acts (same.quiet (quiet_of_rau (quiet n) (sendEvent_rau ..))), ?_, ?_, ?_, same⟩
      all_goals rw [at_k]
      all_goals rfl
    case greeting =>
      obtain ⟨same, at_k⟩ := fetchEnds_of_greeting (s := u) (k := k) discriminating playing script step
        (by rw [show (u.at k).vcd.source = none from source]; nofun)
      rw [endFetch_of_no_handle (s := u) record handle, isGone] at same
      refine ⟨_, acts (same.quiet q), ?_, ?_, ?_, ?_, same⟩
      all_goals rw [at_k]
      all_goals rfl
    case faxSend =>
      obtain ⟨same, y, at_k⟩ := fetchEnds_of_faxSend (s := u) (k := k) connected fax idle role
        (by rw [show (u.at k).fax.phase = .awaitCapability from phase]; decide) untrained channel announced noRequest
      rw [isClosed n handle] at same
      refine ⟨_, acts (same.quiet (quiet_of_rau (quiet n) ?_)), ?_, ?_, ?_, ?_, same⟩
      · rw [sendRelease_rau, sendEvent_rau, sendEvent_rau]
      all_goals rw [at_k]
      all_goals rfl

/-! ### The outcome of a CLAIM (R31, R60, R74, R79) -/

/-- R60: the context holds the channel and drives SEIZE on it. -/
def seizing (k : ContextId) (b : Bid) (s : State) : State :=
  enableDrive b.channel (((setView b.channel (.self k) none s).setBid k none).modCtx k fun x => { x with
    state := if b.direction = .incoming then .addressing else .seized
    channel := some b.channel, txCode := .seize, held := !isAligned s })

/-- R74, R79: what a context of a channel just taken waits for. -/
def seizureWait (b : Bid) (x : Context) : Context := { x with
  state := if b.direction = .incoming then .addressing else .seized
  direction := if b.direction = .incoming then some .incoming else x.direction
  digits := if b.direction = .incoming then [] else x.digits
  timer := some (if b.direction = .incoming then 4000 else 200), txCode := .seize }

theorem lineCode_of_standing {s : State} {k : ContextId} {code : LineCode}
    (stands : (code = .seize ∧ (s.at k).state = .addressing) ∨ (code = .idle ∧ (s.at k).state = .seized)) :
    lineCode k code s = s := by
  rcases stands with ⟨rfl, state⟩ | ⟨rfl, state⟩ <;> simp [lineCode, state]

theorem enterAddressing_of_digits {s : State} (k : ContextId) (digits : 0 < (configOf s).addressDigits) :
    enterAddressing k s = s.modCtx k fun x => { x with
      state := .addressing, direction := some .incoming, txCode := .seize, timer := some 4000, digits := [] } := by
  simp only [enterAddressing]
  exact if_neg (Nat.ne_of_gt digits)

theorem claimSent_of_kept {s t : State} {k : ContextId} {b : Bid} (kept : b.withdrawal = none)
    (begins : (if b.direction = .incoming then enterAddressing k (seizing k b s)
      else setTimer k (some seizureGuard) (seizing k b s)) = t)
    (stands : lineCode k (t.entry b.channel).rx.settled t = t) : claimSent k b s = t := by
  obtain ⟨c, direction, timer, withdrawal⟩ := b
  subst kept
  have done : (if holds t k c then lineCode k (t.entry c).rx.settled t else t) = t := by rw [stands, ite_self]
  cases direction with
  | incoming =>
    rw [← begins] at done ⊢
    exact done
  | outgoing =>
    rw [← begins] at done ⊢
    exact done

/-- R60: a claim not withdrawn, whose far end still shows what it was made on. -/
theorem claimSent_of_standing {s : State} {k : ContextId} {b : Bid} (kept : b.withdrawal = none)
    (digits : 0 < (configOf s).addressDigits)
    (shows : (s.entry b.channel).rx.settled = (if b.direction = .incoming then .seize else .idle)) :
    claimSent k b s = (seizing k b s).modCtx k (seizureWait b) := by
  have entry : (((seizing k b s).modCtx k (seizureWait b)).entry b.channel).rx = (s.entry b.channel).rx := by
    change ((setView b.channel (.self k) none s).entry b.channel).rx = _
    rw [setView, entry_modEntry]
  refine claimSent_of_kept kept ?_ (lineCode_of_standing ?_)
  · by_cases incoming : b.direction = .incoming
    · rw [if_pos incoming, enterAddressing_of_digits (s := seizing k b s) k digits]
      exact modCtx_congr (by simp [seizureWait, incoming])
    · rw [if_neg incoming]
      refine modCtx_congr ?_
      rw [show (seizing k b s).at k = _ from at_modCtx ..]
      simp [seizureWait, incoming, seizureGuard]
  · rw [entry, shows, at_modCtx, seizureWait]
    by_cases incoming : b.direction = .incoming <;> simp [incoming]

/-- Settles O24: the CLAIM's outcome reaches `claimSent`, acknowledged or not. -/
theorem claimOutcomeTakesTheChannel : Obligations.ClaimOutcomeTakesTheChannel := by
  intro s x c k b g r q aligned config digits sent own kind names claimer bid channel kept shows
  subst channel
  let u := s.modClc (decidedLine (!delivered s x r) r)
  have claimed : tellProducer x (delivered s x r) u = (seizing k b u).modCtx k (seizureWait b) := by
    have number : (BitVec.ofNat 8 b.channel.val).toNat = b.channel.val := by
      have := b.channel.isLt
      simp
      omega
    have told : tellProducer x (delivered s x r) u = claimSent k b u := by
      have claimer' : claimerOf u b.channel = some k := claimer
      have bid' : u.bid k = some b := bid
      simp only [tellProducer, kind, if_true, names, number, channelOf_val, Option.bind_some, claimer', bid']
    rw [told]
    exact claimSent_of_standing kept (by rw [configOf_eq (s := u) config]; exact digits) shows
  have decided : cellDecided x r s = (seizing k b u).modCtx k (seizureWait b) := (cellDecided_of_own own r s).trans claimed
  have outcome := decideCell_of_inTransmission (kinds := (· == kindClaim)) (r := r) sent (beq_iff_eq.mpr kind)
    (by rw [decided]; exact q)
  rw [decided] at outcome
  have atSeizing : (seizing k b u).at k = { s.at k with
      state := if b.direction = .incoming then .addressing else .seized
      channel := some b.channel, txCode := .seize, held := !isAligned u } := at_modCtx ..
  have alignedU : isAligned u = true := aligned
  refine ⟨_, outcome, ?record, fun j other => ?others, ?view, ?timer, fun d other => ?channels, Bank.get_set .., ?drive, rfl, ?count,
    rfl, rfl, rfl⟩
  case record =>
    rw [at_modCtx, atSeizing, alignedU]
    rfl
  case others =>
    rw [at_modCtx_ne _ _ _ _ other]
    exact at_modCtx_ne _ _ _ _ other
  case view =>
    change ((setView b.channel (.self k) none u).entry b.channel).view = _
    exact setView_view ..
  case timer =>
    change ((setView b.channel (.self k) none u).entry b.channel).blockTimer = _
    rw [setView, entry_modEntry]
  case channels =>
    change (setView b.channel (.self k) none u).entry d = _
    exact entry_modEntry_ne _ _ _ _ other
  case drive =>
    refine (Bank.get_modify ..).trans ?_
    exact if_pos alignedU
  case count =>
    have told : delivered s x r = true ↔ r = .ack ∨ (r = .noAck ∧ g.groupSize = 1) := by
      cases r <;> simp [delivered, kind, config]
    change (if (!delivered s x r) = true then min 65535 (s.clc.undelivered + 1) else s.clc.undelivered) = _
    rw [← if_congr told rfl rfl]
    cases delivered s x r <;> rfl

end Sys2Proof.Machine
end

section
/-! PROOFS. The family of the stream cells: what a producer offers again when room has appeared (R28, R29, R125, R133, R174). -/
namespace Sys2Proof.Machine

/-! ### A run of stream cells at the queue (R28, R29) -/

/-- The queue after a run of cells has joined it. -/
def filled (q : List TxCell) (cells : List Cell) : List TxCell := cells.foldl (fun q c => insertByPriority (freshTx c 0) q) q

theorem filled_cons (q : List TxCell) (c : Cell) (cs : List Cell) :
    filled q (c :: cs) = filled (insertByPriority (freshTx c 0) q) cs := rfl

/-- The queue takes a run of cells one by one, and refuses the first that is left. -/
def Takes : List TxCell → List Cell → List Cell → Prop
  | q, [], left => ∀ c, left.head? = some c → queueTakes q c = false
  | q, c :: cs, left => queueTakes q c = true ∧ Takes (insertByPriority (freshTx c 0) q) cs left

theorem takes_of_prefixes {q : List TxCell} {taken left : List Cell}
    (each : ∀ i c, taken[i]? = some c → queueTakes (filled q (taken.take i)) c = true)
    (refused : ∀ c, left.head? = some c → queueTakes (filled q taken) c = false) : Takes q taken left := by
  induction taken generalizing q with
  | nil => exact refused
  | cons c cs ih =>
    refine ⟨each 0 c rfl, ih (fun i d found => ?_) refused⟩
    have next := each (i + 1) d (by simpa using found)
    rwa [List.take_succ_cons, filled_cons] at next

theorem takes_congr {q : List TxCell} {taken left left' : List Cell} (same : left.head? = left'.head?) (takes : Takes q taken left) :
    Takes q taken left' := by
  induction taken generalizing q with
  | nil => exact fun c head => takes c (same.trans head)
  | cons c cs ih => exact ⟨takes.1, ih takes.2⟩

theorem mem_filled {x : TxCell} {q : List TxCell} {cells : List Cell} :
    x ∈ filled q cells ↔ x ∈ q ∨ ∃ c ∈ cells, x = freshTx c 0 := by
  induction cells generalizing q with
  | nil => simp [filled]
  | cons c cs ih =>
    rw [filled_cons, ih, mem_insertByPriority]
    simp only [List.mem_cons, exists_eq_or_imp]
    tauto

/-- R28: no run of cells is longer than the queue. -/
theorem length_of_takes {q : List TxCell} {taken left : List Cell} (takes : Takes q taken left) : taken.length ≤ 24 := by
  have bound : taken = [] ∨ q.length + taken.length ≤ 24 := by
    induction taken generalizing q with
    | nil => exact Or.inl rfl
    | cons c cs ih =>
      obtain ⟨first, rest⟩ := takes
      have room := ((queueTakes_iff q c).mp first).1
      have longer := (insertByPriority_perm (freshTx c 0) q).length_eq
      right
      rcases ih rest with rfl | more
      · simpa using room
      · simp only [List.length_cons] at longer more ⊢
        omega
  rcases bound with rfl | bound
  · exact Nat.zero_le _
  · omega

theorem offerStream_of_room {s : State} {c : Cell} (p : StreamProducer) (room : queueTakes s.clc.tx c = true) :
    offerStream p c s = (enqueue c 0 s, true) := by
  rw [offerStream, if_pos room]

theorem offerStream_of_full {s : State} {c : Cell} {p : StreamProducer} (full : queueTakes s.clc.tx c = false)
    (free : p ∉ s.clc.held) : offerStream p c s = (s.modClc fun l => { l with held := l.held ++ [p] }, false) := by
  rw [offerStream, if_neg (by rw [full]; decide)]
  have same : (s.modClc fun l => { l with held := if p ∈ l.held then l.held else l.held ++ [p] })
      = s.modClc fun l => { l with held := l.held ++ [p] } := by
    simp only [State.modClc, free, if_false]
  rw [same]

/-! ### The parts of a deposit (R125) -/

/-- What stands in the way of a deposit's next part: nothing while its buffer waits for the window, or is empty. -/
def OffersParts (d : OutDeposit) : Prop :=
  d.state ≠ .opening ∧ ∀ n bytes e g more, d.buffer = .block n bytes e g :: more → 2 ≤ d.outstanding.length

theorem depositMove_of_parts {s : State} {k : ContextId} {d : OutDeposit} {c : Cell} {rest : List Cell}
    (record : s.outbound k = some d) (offers : OffersParts d) (parts : d.toOffer = c :: rest) :
    depositMove k s = depositMove.offerFirst k s d (c :: rest) := by
  obtain ⟨opened, window⟩ := offers
  unfold depositMove
  simp only [record, opened, if_false, parts]
  split
  · next n bytes e g more buffer =>
    have full := window n bytes e g more buffer
    rw [if_neg (by omega)]
  all_goals simp_all

theorem offerFirst_of_room {s : State} {k : ContextId} {d : OutDeposit} {c : Cell} {rest : List Cell}
    (free : StreamProducer.deposit k ∉ s.clc.held) (room : queueTakes s.clc.tx c = true) :
    depositMove.offerFirst k s d (c :: rest) = some ((enqueue c 0 s).setOutbound k (some { d with toOffer := rest })) := by
  have notHeld : isHeld (.deposit k) s = false := by simpa [isHeld] using free
  simp only [depositMove.offerFirst, notHeld, Bool.false_eq_true, if_false, offerStream_of_room _ room, if_true]

theorem offerFirst_of_full {s : State} {k : ContextId} {d : OutDeposit} {c : Cell} {rest : List Cell}
    (free : StreamProducer.deposit k ∉ s.clc.held) (full : queueTakes s.clc.tx c = false) :
    depositMove.offerFirst k s d (c :: rest) = some (s.modClc fun l => { l with held := l.held ++ [.deposit k] }) := by
  have notHeld : isHeld (.deposit k) s = false := by simpa [isHeld] using free
  simp only [depositMove.offerFirst, notHeld, Bool.false_eq_true, if_false, offerStream_of_full full free]

theorem offerFirst_of_held {s : State} {k : ContextId} {d : OutDeposit} {c : Cell} {rest : List Cell}
    (held : StreamProducer.deposit k ∈ s.clc.held) : depositMove.offerFirst k s d (c :: rest) = none := by
  have isHeld : isHeld (.deposit k) s = true := by simpa [isHeld] using held
  simp only [depositMove.offerFirst, isHeld, if_true]

theorem depositMoves_of_none {s : State} {k : ContextId} (n : Nat) (none : depositMove k s = none) : depositMoves k n s = s := by
  cases n with
  | zero => rfl
  | succ n => simp only [depositMoves, none]

theorem depositMoves_of_some {s t : State} {k : ContextId} (n : Nat) (move : depositMove k s = some t) :
    depositMoves k (n + 1) s = depositMoves k n t := by
  simp only [depositMoves, move]

/-- A deposit's state when some of its parts have been queued. -/
def partsOffered (k : ContextId) (d : OutDeposit) (taken left : List Cell) (s : State) : State :=
  { s.setOutbound k (some { d with toOffer := left }) with
    clc := { s.clc with held := if left = [] then s.clc.held else s.clc.held ++ [.deposit k], tx := filled s.clc.tx taken } }

theorem bank_set_set {n : Nat} {α : Type} (b : Bank n α) (i : Fin n) (x y : α) : (b.set i x).set i y = b.set i y := by
  refine Bank.ext_get fun j => ?_
  by_cases this : j = i
  · subst this
    simp
  · simp [this]

theorem setOutbound_self {s : State} {k : ContextId} {d : Option OutDeposit} (record : s.outbound k = d) : s.setOutbound k d = s := by
  have same : s.rau.outbound.set k d = s.rau.outbound := by rw [← record, State.outbound, Bank.set_get]
  rw [State.setOutbound, State.modRau, same]

/-- R125: the parts of a deposit go out as far as the queue takes them. -/
theorem depositMoves_of_takes {s : State} {k : ContextId} {d : OutDeposit} {taken left : List Cell} (n : Nat)
    (record : s.outbound k = some d) (offers : OffersParts d) (parts : d.toOffer = taken ++ left)
    (takes : Takes s.clc.tx taken left) (free : StreamProducer.deposit k ∉ s.clc.held)
    (last : left = [] → ∀ u : State, u.outbound k = some { d with toOffer := [] } → depositMove k u = none)
    (fuel : taken.length < n) : depositMoves k n s = partsOffered k d taken left s := by
  induction taken generalizing s d n with
  | nil =>
    have toOffer : { d with toOffer := left } = d := by rw [← show d.toOffer = left from parts]
    have same : s.setOutbound k (some { d with toOffer := left }) = s := setOutbound_self (by rw [toOffer, record])
    rw [partsOffered, same]
    cases left with
    | nil => exact depositMoves_of_none n (last rfl s (by rw [toOffer]; exact record))
    | cons c left =>
      obtain ⟨m, rfl⟩ : ∃ m, n = m + 1 := ⟨n - 1, by omega⟩
      have full := takes c rfl
      rw [depositMoves_of_some m ((depositMove_of_parts record offers parts).trans (offerFirst_of_full free full)),
        depositMoves_of_none m]
      · rfl
      · refine (depositMove_of_parts (s := s.modClc _) record offers parts).trans (offerFirst_of_held ?_)
        exact List.mem_append_right _ List.mem_cons_self
  | cons c taken ih =>
    obtain ⟨m, rfl⟩ : ∃ m, n = m + 1 := ⟨n - 1, by omega⟩
    obtain ⟨room, rest⟩ := takes
    rw [List.cons_append] at parts
    rw [depositMoves_of_some m ((depositMove_of_parts record offers parts).trans (offerFirst_of_room free room)),
      ih (s := (enqueue c 0 s).setOutbound k _) (d := { d with toOffer := taken ++ left }) m (Bank.get_set ..) offers rfl rest free last (by simpa using fuel)]
    exact State.eq_of_blocks rfl rfl rfl rfl rfl rfl (congrArg (fun b => { s.rau with outbound := b }) (bank_set_set ..)) rfl rfl

/-! ### The parts of the pending block list (R133) -/

/-- The cell of a part of a pending block. -/
def pendingCell (s : State) (y : PendingBlock) (p : Nat) : Cell :=
  ownCell s 4 (BitVec.ofNat 4 y.station.val) kindFetchData (BitVec.ofNat 8 y.context)
    (be2 y.handle ++ be2 y.index ++ be1 p ++ (y.block.drop (64 * p)).take 64)

/-- The cells that the parts of a pending block still make. -/
def pendingCells (s : State) (y : PendingBlock) : List Cell := (List.range' y.nextPart (8 - y.nextPart)).map (pendingCell s y)

/-- The pending block list when the next part of its first entry has been queued. -/
def advance : List PendingBlock → List PendingBlock
  | [] => []
  | x :: rest => if x.nextPart = 7 then rest else { x with nextPart := x.nextPart + 1 } :: rest

theorem pendingCells_cons {s : State} {x : PendingBlock} (more : x.nextPart < 8) : pendingCells s x
    = pendingCell s x x.nextPart :: (if x.nextPart = 7 then [] else pendingCells s { x with nextPart := x.nextPart + 1 }) := by
  obtain ⟨n, e⟩ : ∃ n, 8 - x.nextPart = n + 1 := ⟨7 - x.nextPart, by omega⟩
  rw [pendingCells, e, List.range'_succ, List.map_cons]
  congr 1
  split
  · obtain rfl : n = 0 := by omega
    rfl
  · rw [pendingCells, show 8 - (x.nextPart + 1) = n by omega]
    rfl

theorem flatMap_pendingCells_advance {s : State} {x : PendingBlock} {rest : List PendingBlock} (more : x.nextPart < 8) :
    (x :: rest).flatMap (pendingCells s) = pendingCell s x x.nextPart :: (advance (x :: rest)).flatMap (pendingCells s) := by
  rw [List.flatMap_cons, pendingCells_cons more, advance]
  split <;> simp

theorem fetchMove_of_room {s : State} {x : PendingBlock} {rest : List PendingBlock} (list : s.rau.pendingBlocks = x :: rest)
    (free : StreamProducer.fetchData ∉ s.clc.held) (room : queueTakes s.clc.tx (pendingCell s x x.nextPart) = true) :
    fetchMove s = some ((enqueue (pendingCell s x x.nextPart) 0 s).modRau fun u =>
      { u with pendingBlocks := advance (x :: rest) }) := by
  have notHeld : isHeld .fetchData s = false := by simpa [isHeld] using free
  have taken := offerStream_of_room (c := pendingCell s x x.nextPart) .fetchData room
  simp only [fetchMove, list, notHeld, Bool.false_eq_true, if_false]
  rw [show protocolCell s (stationAddress x.station) kindFetchData (BitVec.ofNat 8 x.context)
    (be2 x.handle ++ be2 x.index ++ be1 x.nextPart ++ partOf x.block x.nextPart) = pendingCell s x x.nextPart from rfl, taken]
  rfl

theorem fetchMove_of_full {s : State} {x : PendingBlock} {rest : List PendingBlock} (list : s.rau.pendingBlocks = x :: rest)
    (free : StreamProducer.fetchData ∉ s.clc.held) (full : queueTakes s.clc.tx (pendingCell s x x.nextPart) = false) :
    fetchMove s = some (s.modClc fun l => { l with held := l.held ++ [.fetchData] }) := by
  have notHeld : isHeld .fetchData s = false := by simpa [isHeld] using free
  have refused := offerStream_of_full (c := pendingCell s x x.nextPart) full free
  simp only [fetchMove, list, notHeld, Bool.false_eq_true, if_false]
  rw [show protocolCell s (stationAddress x.station) kindFetchData (BitVec.ofNat 8 x.context)
    (be2 x.handle ++ be2 x.index ++ be1 x.nextPart ++ partOf x.block x.nextPart) = pendingCell s x x.nextPart from rfl, refused]
  rfl

theorem fetchMove_of_held {s : State} (held : StreamProducer.fetchData ∈ s.clc.held) : fetchMove s = none := by
  have isHeld : isHeld .fetchData s = true := by simpa [isHeld] using held
  unfold fetchMove
  split
  · rfl
  · rw [if_pos isHeld]

theorem fetchMoves_of_none {s : State} (n : Nat) (none : fetchMove s = none) : fetchMoves n s = s := by
  cases n with
  | zero => rfl
  | succ n => simp only [fetchMoves, none]

theorem fetchMoves_of_some {s t : State} (n : Nat) (move : fetchMove s = some t) : fetchMoves (n + 1) s = fetchMoves n t := by
  simp only [fetchMoves, move]

/-- The state of a home that has queued some parts of its pending block list. -/
def partsServed (taken left : List Cell) (list : List PendingBlock) (s : State) : State := { s with
  clc := { s.clc with held := if left = [] then s.clc.held else s.clc.held ++ [.fetchData], tx := filled s.clc.tx taken }
  rau := { s.rau with pendingBlocks := list } }

theorem flatMap_pendingCells_ne_nil {s : State} {x : PendingBlock} {rest : List PendingBlock} (more : x.nextPart < 8) :
    (x :: rest).flatMap (pendingCells s) ≠ [] := by
  rw [flatMap_pendingCells_advance more]
  exact List.cons_ne_nil _ _

theorem advance_nextPart {list : List PendingBlock} (more : ∀ y ∈ list, y.nextPart < 8) : ∀ y ∈ advance list, y.nextPart < 8 := by
  cases list with
  | nil => exact more
  | cons x rest =>
    have head := more x List.mem_cons_self
    have tail : ∀ y ∈ rest, y.nextPart < 8 := fun y m => more y (List.mem_cons_of_mem x m)
    by_cases seven : x.nextPart = 7
    · simpa only [advance, seven, if_true] using tail
    · simp only [advance, seven, if_false]
      intro y m
      rcases List.mem_cons.mp m with rfl | m
      · change x.nextPart + 1 < 8
        omega
      · exact tail y m

/-- R133: the parts of the pending block list go out as far as the queue takes them. -/
theorem fetchMoves_of_takes {s : State} {taken left : List Cell} (n : Nat) (more : ∀ y ∈ s.rau.pendingBlocks, y.nextPart < 8)
    (parts : s.rau.pendingBlocks.flatMap (pendingCells s) = taken ++ left) (takes : Takes s.clc.tx taken left)
    (free : StreamProducer.fetchData ∉ s.clc.held) (fuel : taken.length < n) :
    fetchMoves n s = partsServed taken left (advance^[taken.length] s.rau.pendingBlocks) s := by
  induction taken generalizing s n with
  | nil =>
    cases list : s.rau.pendingBlocks with
    | nil =>
      rw [list] at parts
      obtain rfl : left = [] := by simpa using parts.symm
      have done : fetchMove s = none := by simp only [fetchMove, list]
      rw [fetchMoves_of_none n done]
      rw [← list]
      rfl
    | cons x rest =>
      rw [list] at parts more
      have head := more x List.mem_cons_self
      rw [flatMap_pendingCells_advance head, List.nil_append] at parts
      obtain ⟨m, rfl⟩ : ∃ m, n = m + 1 := ⟨n - 1, by omega⟩
      have full := takes (pendingCell s x x.nextPart) (by rw [← parts]; rfl)
      rw [fetchMoves_of_some m (fetchMove_of_full list free full), fetchMoves_of_none m (fetchMove_of_held (List.mem_append_right _ List.mem_cons_self))]
      have some_left : left ≠ [] := by rw [← parts]; exact List.cons_ne_nil _ _
      exact State.eq_of_blocks rfl (by simp only [partsServed, some_left, if_false]; rfl) rfl rfl rfl rfl (by rw [← list]; rfl) rfl rfl
  | cons c taken ih =>
    cases list : s.rau.pendingBlocks with
    | nil =>
      rw [list] at parts
      simp at parts
    | cons x rest =>
      have next := advance_nextPart more
      rw [list] at parts more next
      have head := more x List.mem_cons_self
      rw [flatMap_pendingCells_advance head, List.cons_append, List.cons.injEq] at parts
      obtain ⟨first, parts⟩ := parts
      obtain ⟨m, rfl⟩ : ∃ m, n = m + 1 := ⟨n - 1, by omega⟩
      obtain ⟨room, takes⟩ := takes
      rw [← first] at room takes
      rw [fetchMoves_of_some m (fetchMove_of_room list free room),
        ih (s := (enqueue (pendingCell s x x.nextPart) 0 s).modRau fun u => { u with pendingBlocks := advance (x :: rest) }) m next parts takes free (by simpa using fuel), ← first]
      rfl

theorem length_pendingCells (s : State) (y : PendingBlock) : (pendingCells s y).length = 8 - y.nextPart := by
  simp [pendingCells]

theorem advance_iterate_part (x : PendingBlock) (rest : List PendingBlock) {n : Nat} (more : x.nextPart + n < 8) :
    advance^[n] (x :: rest) = { x with nextPart := x.nextPart + n } :: rest := by
  induction n generalizing x with
  | zero => rfl
  | succ n ih =>
    have notLast : x.nextPart ≠ 7 := by omega
    rw [Function.iterate_succ_apply, advance, if_neg notLast, ih _ (by change x.nextPart + 1 + n < 8; omega)]
    simp only [List.cons.injEq, PendingBlock.mk.injEq, and_true, true_and]
    omega

theorem advance_iterate_entry (x : PendingBlock) (rest : List PendingBlock) (more : x.nextPart < 8) :
    advance^[8 - x.nextPart] (x :: rest) = rest := by
  obtain ⟨n, e⟩ : ∃ n, 8 - x.nextPart = n + 1 := ⟨7 - x.nextPart, by omega⟩
  rw [e, Function.iterate_succ_apply', advance_iterate_part x rest (by omega), advance]
  exact if_pos (by change x.nextPart + n = 7; omega)

theorem advance_iterate_entries {s : State} {done rest : List PendingBlock} (more : ∀ y ∈ done, y.nextPart < 8) :
    advance^[(done.flatMap (pendingCells s)).length] (done ++ rest) = rest := by
  induction done with
  | nil => rfl
  | cons x done ih =>
    rw [List.flatMap_cons, List.length_append, Nat.add_comm, Function.iterate_add_apply, length_pendingCells, List.cons_append,
      advance_iterate_entry x _ (more x List.mem_cons_self)]
    exact ih fun y m => more y (List.mem_cons_of_mem x m)

/-! ### ROOM_APPEARED (R29) -/

theorem exec_roomAppeared_of_held {s t : State} {p : StreamProducer} (held : s.clc.held = [p])
    (again : offerAgain p (s.modClc fun l => { l with held := [] }) = t) (q : t.Quiet) : exec .roomAppeared s = .next t := by
  have due : (s.clc.held != []) = true := by rw [held]; rfl
  change execRoomAppeared s = _
  rw [execRoomAppeared, held]
  rw [held] at due
  refine (act_of_due s due ?_).trans (congrArg _ again)
  rw [State.Quiet, ← again] at q
  exact q

theorem depositMove_of_done {u : State} {k : ContextId} {d : OutDeposit} (offers : OffersParts d)
    (noRollback : ∀ page more, d.buffer ≠ .rollback page :: more)
    (noClose : d.buffer = [] → d.state = .closing → d.close = none ∨ d.closeSent = true)
    (record : u.outbound k = some { d with toOffer := [] }) : depositMove k u = none := by
  obtain ⟨opened, window⟩ := offers
  unfold depositMove
  simp only [record, opened, if_false]
  cases buffer : d.buffer with
  | nil =>
    simp only
    split
    · next closing ask unsent =>
      rcases noClose buffer closing with none | sent
      · rw [none] at ask
        cases ask
      · rw [sent] at unsent
        cases unsent
    · rfl
  | cons item more =>
    cases item with
    | rollback page => exact absurd buffer (noRollback page more)
    | block n bytes e g =>
      have full := window n bytes e g more buffer
      simp only
      rw [if_neg (by omega)]
      rfl

theorem offerDataRx_of_room {s : State} {k : ContextId} {n : Nat}
    (room : queueTakes s.clc.tx (ownCell s 5 gateway kindDataRx (tagOf k) ((s.at k).lkc.rxBuffer.take n)) = true) :
    offerDataRx k n s = ((enqueue (ownCell s 5 gateway kindDataRx (tagOf k) ((s.at k).lkc.rxBuffer.take n)) 0 s).modLkc k fun l =>
      { l with rxBuffer := l.rxBuffer.drop n, rxHeld := none }, true) := by
  simp only [offerDataRx, offerStream_of_room _ room]

theorem offerDataRx_of_full {s : State} {k : ContextId} {n : Nat}
    (full : queueTakes s.clc.tx (ownCell s 5 gateway kindDataRx (tagOf k) ((s.at k).lkc.rxBuffer.take n)) = false)
    (free : StreamProducer.dataRx k ∉ s.clc.held) : offerDataRx k n s
      = ((s.modClc fun l => { l with held := l.held ++ [.dataRx k] }).modLkc k fun l => { l with rxHeld := some n }, false) := by
  simp only [offerDataRx, offerStream_of_full full free]

/-- R174: an empty receive buffer has nothing to pass on, and owes no ACK without a HOLD. -/
theorem pumpRx_of_empty {s : State} {k : ContextId} (empty : (s.at k).lkc.rxBuffer = []) (noHold : (s.at k).lkc.holdSent = false) :
    pumpRx k s = s := by
  have nothing : offerAll k 17 s = s := by
    unfold offerAll
    simp only [empty, decide_true, Bool.true_or, if_true]
  rw [pumpRx, nothing]
  simp only [releaseRemote, noHold, Bool.and_false, Bool.false_and, Bool.false_eq_true, if_false]

theorem rxHeld_self {x : Context} {n : Nat} (held : x.lkc.rxHeld = some n) : { x with lkc := { x.lkc with rxHeld := some n } } = x := by
  rw [← held]

theorem modCtx_self {s : State} {k : ContextId} {f : Context → Context} (same : f (s.at k) = s.at k) : s.modCtx k f = s := by
  have ctx : s.ctx.modify k f = s.ctx := by
    rw [Bank.modify]
    exact (congrArg _ same).trans (Bank.set_get _ k)
  rw [State.modCtx, ctx]

/-- Settles O26: each producer goes on from what it kept. -/
theorem roomAppearedOffersAgain : Obligations.RoomAppearedOffersAgain := by
  intro s q fill takes
  have run {taken left : List Cell} (t : takes taken left) : Takes s.clc.tx taken left := by
    obtain ⟨each, refused⟩ := t
    exact takes_of_prefixes each refused
  refine ⟨fun k d taken left held record opened parts t window last => ?deposit,
    fun held more => ⟨fun t => ?all, fun done x rest n list part t => ?some⟩,
    fun k held rxHeld noHold => ⟨fun room => ?room, fun full => ?full⟩⟩
  case deposit =>
    refine exec_roomAppeared_of_held held (depositMoves_of_takes (s := s.modClc _) 64 record ⟨opened, window⟩ parts (run t)
      List.not_mem_nil (fun none u record => ?_) (Nat.lt_of_le_of_lt (length_of_takes (run t)) (by decide))) q
    obtain ⟨noRollback, noClose⟩ := last none
    exact depositMove_of_done ⟨opened, window⟩ noRollback noClose record
  case all =>
    have served := fetchMoves_of_takes (s := s.modClc fun l => { l with held := [] }) (left := []) 32 more (List.append_nil _).symm (run t)
      List.not_mem_nil (Nat.lt_of_le_of_lt (length_of_takes (run t)) (by decide))
    have gone := advance_iterate_entries (s := s) (rest := []) more
    rw [List.append_nil] at gone
    refine exec_roomAppeared_of_held held (served.trans ?_) q
    exact congrArg (fun list => partsServed _ [] list (s.modClc fun l => { l with held := [] })) gone
  case some =>
    have doneParts : ∀ y ∈ done, y.nextPart < 8 := fun y m => more y (by rw [list]; exact List.mem_append_left _ m)
    have some_left : (pendingCells s x).drop n ≠ [] := by
      rw [Ne, List.drop_eq_nil_iff, length_pendingCells]
      omega
    have left : (done ++ x :: rest).flatMap (pendingCells s) = (done.flatMap (pendingCells s) ++ (pendingCells s x).take n)
        ++ ((pendingCells s x).drop n ++ rest.flatMap (pendingCells s)) := by
      rw [List.flatMap_append, List.flatMap_cons, List.append_assoc, ← List.append_assoc ((pendingCells s x).take n),
        List.take_append_drop]
    have same : ((pendingCells s x).drop n).head? = ((pendingCells s x).drop n ++ rest.flatMap (pendingCells s)).head? := by
      rw [List.head?_append_of_ne_nil _ some_left]
    have served := fetchMoves_of_takes (s := s.modClc fun l => { l with held := [] }) 32 more
      ((congrArg (List.flatMap (pendingCells s)) list).trans left) (takes_congr same (run t)) List.not_mem_nil
      (Nat.lt_of_le_of_lt (length_of_takes (run t)) (by decide))
    have gone : advance^[(done.flatMap (pendingCells s) ++ (pendingCells s x).take n).length] s.rau.pendingBlocks
        = { x with nextPart := x.nextPart + n } :: rest := by
      have short : ((pendingCells s x).take n).length = n := by
        rw [List.length_take, length_pendingCells]
        omega
      rw [list, List.length_append, short, Nat.add_comm, Function.iterate_add_apply, advance_iterate_entries doneParts,
        advance_iterate_part x rest part]
    refine exec_roomAppeared_of_held held (served.trans ?_) q
    refine (congrArg (fun list => partsServed _ _ list (s.modClc fun l => { l with held := [] })) gone).trans ?_
    have some_more : (pendingCells s x).drop n ++ rest.flatMap (pendingCells s) ≠ [] := by simp [some_left]
    simp only [partsServed, some_more, if_false]
    rfl
  case room =>
    let s0 := s.modClc fun l => { l with held := [] }
    have whole : (s0.at k).lkc.rxBuffer.take (s.at k).lkc.rxBuffer.length = (s.at k).lkc.rxBuffer := List.take_length
    have sent := offerDataRx_of_room (s := s0) (k := k) (n := (s.at k).lkc.rxBuffer.length) (by rw [whole]; exact room)
    rw [whole] at sent
    have again : offerAgain (.dataRx k) s0 = { s with
        clc := { s.clc with held := [], tx := insertByPriority (freshTx (ownCell s 5 gateway kindDataRx (tagOf k) (s.at k).lkc.rxBuffer) 0) s.clc.tx }
        ctx := s.ctx.modify k fun x => { x with lkc := { x.lkc with rxBuffer := [], rxHeld := none } } } := by
      have rxHeld' : (s0.at k).lkc.rxHeld = some (s.at k).lkc.rxBuffer.length := rxHeld
      simp only [offerAgain, reofferRx, rxHeld', sent]
      refine (pumpRx_of_empty ?_ ?_).trans ?_
      · rw [State.modLkc, at_modCtx]
        exact List.drop_length
      · rw [State.modLkc, at_modCtx]
        exact noHold
      · refine modCtx_congr ?_
        have gone : (s.at k).lkc.rxBuffer.drop (s.at k).lkc.rxBuffer.length = [] := List.drop_length
        exact congrArg (fun left => { s.at k with lkc := { (s.at k).lkc with rxBuffer := left, rxHeld := none } }) gone
    exact exec_roomAppeared_of_held held again q
  case full =>
    let s0 := s.modClc fun l => { l with held := [] }
    have whole : (s0.at k).lkc.rxBuffer.take (s.at k).lkc.rxBuffer.length = (s.at k).lkc.rxBuffer := List.take_length
    have kept := offerDataRx_of_full (s := s0) (k := k) (n := (s.at k).lkc.rxBuffer.length) (by rw [whole]; exact full) List.not_mem_nil
    have again : offerAgain (.dataRx k) s0 = s := by
      have rxHeld' : (s0.at k).lkc.rxHeld = some (s.at k).lkc.rxBuffer.length := rxHeld
      simp only [offerAgain, reofferRx, rxHeld', kept]
      refine (modCtx_self (rxHeld_self rxHeld)).trans ?_
      refine State.eq_of_blocks rfl ?_ rfl rfl rfl rfl rfl rfl rfl
      exact congrArg (fun list => { s.clc with held := list }) held.symm
    exact exec_roomAppeared_of_held held again q

end Sys2Proof.Machine
end

section
/-! PROOFS. The family of the fetches at the home: what a read open, a read and a leave do to a record, and the three cells
of a reader (R105, R115, R116, R132, R133, R134, R135). -/
namespace Sys2Proof.Machine

/-! ### What the home's cells leave alone -/

theorem storeOnly_offerOther_none (c : Cell) (n : Nat) (s : State) : StoreOnly s (offerOther c n none s) where
  hwi := offerOther_hwi ..
  cfu := by rw [offerOther_cfu]
  tcm := offerOther_tcm ..
  ctx := offerOther_ctx ..
  rau := offerOther_rau ..
  free := offerOther_free ..
  pending := offerOther_pending ..

theorem ownCell_congr {s t : State} (station : s.cfu.station = t.cfu.station) (prio : BitVec 3) (dst : BitVec 4) (kind tag : Byte)
    (payload : List Byte) : ownCell s prio dst kind tag payload = ownCell t prio dst kind tag payload := by
  simp only [ownCell, ownAddress, station]

theorem StoreOnly.station {s t : State} (only : StoreOnly s t) : t.cfu.station = s.cfu.station := by rw [only.cfu]

theorem offerOther_none_clc_congr {s t : State} {c d : Cell} (cell : c = d) (clc : s.clc = t.clc) :
    (offerOther c 0 none s).clc = (offerOther d 0 none t).clc := by
  rw [cell, offerOther_none_clc, offerOther_none_clc, clc]

theorem setMsgAt_clc (h : Nat) (m : Option Msg) (s : State) : (s.setMsgAt h m).clc = s.clc := by
  rw [setMsgAt_eq]

theorem storeOnly_touchReader (h : Nat) (p : Fin 8) (n : Nat) (s : State) : StoreOnly s (touchReader h p n s) := by
  unfold touchReader
  split
  · exact storeOnly_setMsgAt h _ s
  · exact StoreOnly.refl s

/-! ### The reader list of a record (R115, R116) -/

theorem isReader_iff (p : Fin 8) (n : Nat) (r : Reader) : isReader p n r = true ↔ r.station = p ∧ r.context = n := by
  simp [isReader]

theorem hasReader_eq_true {m : Msg} {p : Fin 8} {n : Nat} : hasReader m p n = true ↔ ∃ r ∈ m.readers, r.station = p ∧ r.context = n := by
  simp [hasReader, isReader]

theorem hasReader_eq_false {m : Msg} {p : Fin 8} {n : Nat} :
    hasReader m p n = false ↔ ∀ r ∈ m.readers, ¬ (r.station = p ∧ r.context = n) := by
  simp [hasReader, isReader]

theorem readOpenHandle_of_free {s : State} {h : Nat} (p : Fin 8) (n : Nat) (record : s.msgAt h = none) :
    readOpenHandle h p n s = (s, .error codeNoSuch) := by
  simp only [readOpenHandle, record]

theorem readOpenHandle_of_opened {s : State} {h : Nat} {m : Msg} (p : Fin 8) (n : Nat) (record : s.msgAt h = some m)
    (opened : m.state = .opened) : readOpenHandle h p n s = (s, .error codeNotOpen) := by
  simp [readOpenHandle, record, opened]

/-- A record with one more reader, active now. -/
def withReader (p : Fin 8) (n now : Nat) (m : Msg) : Msg :=
  { m with readers := m.readers ++ [{ station := p, context := n, lastActivity := now }] }

theorem readOpenHandle_of_closed {s : State} {h : Nat} {m : Msg} {p : Fin 8} {n : Nat} (record : s.msgAt h = some m)
    (closed : m.state = .closed) (stranger : hasReader m p n = false) (room : m.readers.length < 8) :
    readOpenHandle h p n s = (s.setMsgAt h (some (withReader p n s.cfu.stationTime m)), .ok (grantOf h m)) := by
  have notFull : ¬ 8 ≤ m.readers.length := by omega
  simp [readOpenHandle, record, closed, stranger, notFull, withReader]

theorem readOpen_of_message {s : State} (station h : Nat) (p : Fin 8) (n : Nat) (ready : s.msc.state = .ready)
    (configured : s.cfu.config.isSome = true) : readOpen (.message station h) p n s = readOpenHandle h p n s := by
  have known : s.cfu.config.isNone = false := by simpa using configured
  simp [readOpen, ready, known]

theorem readOpen_of_greeting {s : State} {mailbox g : Nat} (p : Fin 8) (n : Nat) (ready : s.msc.state = .ready)
    (configured : s.cfu.config.isSome = true) (greeting : (mailbox? s mailbox).bind (·.greeting) = some g) :
    readOpen (.greeting mailbox) p n s = readOpenHandle g p n s := by
  have known : s.cfu.config.isNone = false := by simpa using configured
  simp [readOpen, ready, known, greeting]

theorem readOpen_of_no_greeting {s : State} {mailbox : Nat} (p : Fin 8) (n : Nat) (ready : s.msc.state = .ready)
    (configured : s.cfu.config.isSome = true) (greeting : (mailbox? s mailbox).bind (·.greeting) = none) :
    readOpen (.greeting mailbox) p n s = (s, .error codeNoSuch) := by
  have known : s.cfu.config.isNone = false := by simpa using configured
  simp [readOpen, ready, known, greeting]

/-- A record that a reader has left. -/
def withoutReader (p : Fin 8) (n : Nat) (m : Msg) : Msg := { m with readers := m.readers.filter fun r => !isReader p n r }

/-- A DELETING record that its last reader has left is FREE, and its blocks join the free list (R106, R116). -/
structure Left (h : Nat) (p : Fin 8) (n : Nat) (m : Msg) (s t : State) : Prop where
  only : StoreOnly s t
  record : t.msgAt h = if m.state = .deleting ∧ (withoutReader p n m).readers = [] then none else some (withoutReader p n m)
  freeList : t.msc.freeList
    = s.msc.freeList ++ if m.state = .deleting ∧ (withoutReader p n m).readers = [] then chainOf s m else []

theorem left_leaveMessage {s : State} {h : Nat} {m : Msg} {p : Fin 8} {n : Nat} (record : s.msgAt h = some m)
    (reader : hasReader m p n = true) : Left h p n m s (leaveMessage h p n s) := by
  have lt := lt_of_msgAt record
  have kept := msgAt_setMsgAt lt (some (withoutReader p n m)) s
  have written : leaveMessage h p n s = if m.state = .deleting ∧ (withoutReader p n m).readers = []
      then freeMessage h (s.setMsgAt h (some (withoutReader p n m))) else s.setMsgAt h (some (withoutReader p n m)) := by
    simp [leaveMessage, record, reader, withoutReader]
  rw [written]
  by_cases gone : m.state = .deleting ∧ (withoutReader p n m).readers = []
  · simp only [if_pos gone, freeMessage_eq kept]
    have chain : chainOf (s.setMsgAt h (some (withoutReader p n m))) (withoutReader p n m) = chainOf s m := by
      rw [chainOf, setMsgAt_msc]
      rfl
    rw [chain]
    refine ⟨((storeOnly_setMsgAt ..).trans (storeOnly_setMsgAt ..)).trans (storeOnly_freeBlocks _ _), ?_, ?_⟩
    · rw [if_pos gone, msgAt_congr (s := (s.setMsgAt h (some (withoutReader p n m))).setMsgAt h none) (by rw [freeBlocks_msc]),
        msgAt_setMsgAt lt]
    · rw [if_pos gone, freeBlocks_msc, setMsgAt_msc, setMsgAt_msc]
  · simp only [if_neg gone]
    refine ⟨storeOnly_setMsgAt .., ?_, ?_⟩
    · rw [if_neg gone, kept]
    · rw [if_neg gone, setMsgAt_msc, List.append_nil]

theorem dropPending_of_empty {s : State} (keep : PendingBlock → Bool) (empty : s.rau.pendingBlocks = []) : dropPending keep s = s := by
  have same : (s.modRau fun r => { r with pendingBlocks := [] }) = s :=
    State.eq_of_blocks rfl rfl rfl rfl rfl rfl (congrArg (fun list => { s.rau with pendingBlocks := list }) empty.symm) rfl rfl
  simp only [dropPending, empty, List.filter_nil, if_true, same]

theorem left_dropReader {s : State} {h : Nat} {m : Msg} {p : Fin 8} {n : Nat} (record : s.msgAt h = some m)
    (reader : hasReader m p n = true) (empty : s.rau.pendingBlocks = []) : Left h p n m s (dropReader h p n s) := by
  have left := left_leaveMessage record reader
  rw [dropReader, dropPending_of_empty _ (by rw [left.only.rau]; exact empty)]
  exact left

/-! ### FETCH_OPEN (R115, R132) -/

/-- What a FETCH_OPEN names: the greeting of its mailbox for handle FFFFh, a message here otherwise. -/
def fetchTarget (c : Cell) (s : State) : PlayTarget :=
  if field c.payload 0 2 = 65535 then .greeting (field c.payload 2 2) else .message s.cfu.station.val (field c.payload 0 2)

theorem takeFetchOpen_of_refused {s t : State} {c : Cell} {p : Fin 8} {cause : Byte}
    (opens : readOpen (fetchTarget c s) p c.tag.toNat s = (t, .error cause)) :
    takeFetchOpen p c s = sendFetchRefuse c cause (field c.payload 0 2) t := by
  rw [fetchTarget] at opens
  simp only [takeFetchOpen, opens]

theorem takeFetchOpen_of_granted {s t : State} {c : Cell} {p : Fin 8} {g : ReadGrant}
    (opens : readOpen (fetchTarget c s) p c.tag.toNat s = (t, .ok g)) : takeFetchOpen p c s
      = offerOther (protocolCell t c.src kindFetchGrant c.tag (be2 g.handle ++ be1 g.kind.code ++ be3 g.length ++ be2 g.blocks)) 0 none t := by
  rw [fetchTarget] at opens
  simp only [takeFetchOpen, opens]

/-- A FETCH_OPEN that is granted for the record of a handle. -/
structure Granted (c : Cell) (p : Fin 8) (g : Nat) (m : Msg) (s t : State) : Prop where
  record : t.msgAt g = some (withReader p c.tag.toNat s.cfu.stationTime m)
  clc : t.clc = (offerOther (ownCell s 4 c.src kindFetchGrant c.tag
    (be2 g ++ be1 m.kind.code ++ be3 m.length ++ be2 m.count)) 0 none (popCell s)).clc
  rau : t.rau = s.rau
  ctx : t.ctx = s.ctx

theorem exec_fetchOpen_of_refused {s : State} {c : Cell} {p : Fin 8} {cause : Byte} (q : s.Quiet) (h : FromPeer s c kindFetchOpen p)
    (opens : readOpen (fetchTarget c (popCell s)) p c.tag.toNat (popCell s) = (popCell s, .error cause)) :
    exec .fetchOpen s
      = .next (offerOther (ownCell s 4 c.src kindFetchRefuse c.tag ([cause] ++ be2 (field c.payload 0 2))) 0 none (popCell s)) :=
  handPeer_eq h (takeFetchOpen_of_refused opens) (offerOther_none_quiet (s := popCell s) _ _ q)

theorem exec_fetchOpen_of_closed {s : State} {c : Cell} {p : Fin 8} {g : Nat} {m : Msg} (q : s.Quiet) (h : FromPeer s c kindFetchOpen p)
    (opens : readOpen (fetchTarget c (popCell s)) p c.tag.toNat (popCell s) = readOpenHandle g p c.tag.toNat (popCell s))
    (record : s.msgAt g = some m) (closed : m.state = .closed)
    (stranger : ∀ r ∈ m.readers, ¬ (r.station = p ∧ r.context = c.tag.toNat)) (room : m.readers.length < 8) :
    ∃ t, exec .fetchOpen s = .next t ∧ Granted c p g m s t := by
  have granted := readOpenHandle_of_closed (s := popCell s) record closed (hasReader_eq_false.mpr stranger) room
  let u := (popCell s).setMsgAt g (some (withReader p c.tag.toNat s.cfu.stationTime m))
  have only : StoreOnly (popCell s) u := storeOnly_setMsgAt ..
  have sent := storeOnly_offerOther_none (protocolCell u c.src kindFetchGrant c.tag
    (be2 g ++ be1 m.kind.code ++ be3 m.length ++ be2 m.count)) 0 u
  refine ⟨_, handPeer_eq h (takeFetchOpen_of_granted (opens.trans granted)) ((only.trans sent).quiet (s := popCell s) q), ?_, ?_, ?_, ?_⟩
  · exact (msgAt_congr (congrArg Msc.msgs (offerOther_msc ..)) g).trans (msgAt_setMsgAt (lt_of_msgAt record) _ (popCell s))
  · exact offerOther_none_clc_congr (ownCell_congr only.station ..) (setMsgAt_clc ..)
  · exact (only.trans sent).rau
  · exact (only.trans sent).ctx

/-! ### FETCH_BLOCK (R105, R133) -/

theorem readBlockFor_of_no_reader {s : State} {h : Nat} (p : Fin 8) (n b : Nat) (ready : s.msc.state = .ready)
    (stranger : ∀ m, s.msgAt h = some m → hasReader m p n = false) : readBlockFor h p n b s = (s, .error codeNotOpen) := by
  cases record : s.msgAt h with
  | none => simp [readBlockFor, ready, record]
  | some m => simp [readBlockFor, ready, record, stranger m record]

theorem readBlockFor_of_above {s : State} {h b : Nat} {m : Msg} {p : Fin 8} {n : Nat} (ready : s.msc.state = .ready)
    (record : s.msgAt h = some m) (reader : hasReader m p n = true) (above : m.count ≤ b) :
    readBlockFor h p n b s = (s, .error codeNoSuch) := by
  simp [readBlockFor, ready, record, reader, above]

theorem readBlockFor_of_reader {s : State} {h b : Nat} {m : Msg} {p : Fin 8} {n : Nat} (ready : s.msc.state = .ready)
    (record : s.msgAt h = some m) (reader : hasReader m p n = true) (below : b < m.count) :
    readBlockFor h p n b s = (touchReader h p n s, .ok (blockAt s ((chainOf s m).getD b 0))) := by
  have notAbove : ¬ m.count ≤ b := by omega
  simp [readBlockFor, ready, record, reader, notAbove]

theorem takeFetchBlock_of_refused {s : State} {c : Cell} {p : Fin 8} {cause : Byte}
    (reads : readBlockFor (field c.payload 0 2) p c.tag.toNat (field c.payload 2 2) s = (s, .error cause)) :
    takeFetchBlock p c s = sendFetchRefuse c cause (field c.payload 0 2) s := by
  simp only [takeFetchBlock, reads]

theorem makeRoomFor_of_empty {s : State} (p : Fin 8) (n : Nat) (empty : s.rau.pendingBlocks = []) : makeRoomFor p n s = s := by
  simp [makeRoomFor, pendingOf, empty]

/-- The entry of the pending block list that a FETCH_BLOCK makes. -/
def askedBlock (c : Cell) (p : Fin 8) (block : List Byte) : PendingBlock :=
  { station := p, context := c.tag.toNat, handle := field c.payload 0 2, index := field c.payload 2 2, block, nextPart := 0 }

theorem pendingCell_askedBlock (s : State) (c : Cell) (p : Fin 8) (block : List Byte) (n : Nat) :
    pendingCell s (askedBlock c p block) n = ownCell s 4 (BitVec.ofNat 4 p.val) kindFetchData c.tag
      (be2 (field c.payload 0 2) ++ be2 (field c.payload 2 2) ++ be1 n ++ (block.drop (64 * n)).take 64) := by
  have tag : BitVec.ofNat 8 c.tag.toNat = c.tag := BitVec.ofNat_toNat ..
  simp only [pendingCell, askedBlock, tag]

theorem takeFetchBlock_of_read {s t : State} {c : Cell} {p : Fin 8} {block : List Byte}
    (reads : readBlockFor (field c.payload 0 2) p c.tag.toNat (field c.payload 2 2) s = (t, .ok block))
    (empty : t.rau.pendingBlocks = []) : takeFetchBlock p c s = pumpFetchData (t.modRau fun r =>
      { r with pendingBlocks := [askedBlock c p block] }) := by
  have same : (t.modRau fun r => { r with pendingBlocks := r.pendingBlocks ++ [askedBlock c p block] })
      = t.modRau fun r => { r with pendingBlocks := [askedBlock c p block] } := by
    simp only [State.modRau, empty, List.nil_append]
  simp only [takeFetchBlock, reads, makeRoomFor_of_empty _ _ empty]
  exact congrArg pumpFetchData same

theorem length_filled (q : List TxCell) (cells : List Cell) : (filled q cells).length = q.length + cells.length := by
  induction cells generalizing q with
  | nil => rfl
  | cons c cs ih =>
    rw [filled_cons, ih, (insertByPriority_perm (freshTx c 0) q).length_eq]
    simp only [List.length_cons]
    omega

/-- R28: a run of stream cells for which the queue and its stream limit have room is taken whole. -/
theorem takes_of_room {q : List TxCell} {cells : List Cell} (notClaims : ∀ c ∈ cells, c.kind ≠ kindClaim)
    (room : q.length + cells.length ≤ 24) (streamRoom : (q.filter fun x => isStreamKind x.cell.kind).length + cells.length ≤ 16) :
    Takes q cells [] := by
  induction cells generalizing q with
  | nil =>
    intro c head
    cases head
  | cons c cs ih =>
    simp only [List.length_cons] at room streamRoom
    have perm := insertByPriority_perm (freshTx c 0) q
    have length := perm.length_eq
    have streams : ((insertByPriority (freshTx c 0) q).filter fun x => isStreamKind x.cell.kind).length
        ≤ (q.filter fun x => isStreamKind x.cell.kind).length + 1 := by
      rw [(perm.filter fun x => isStreamKind x.cell.kind).length_eq, List.filter_cons]
      split
      · exact Nat.le_of_eq (List.length_cons ..)
      · exact Nat.le_succ _
    simp only [List.length_cons] at length
    refine ⟨(queueTakes_iff q c).mpr ⟨by omega, fun _ => by omega, fun claim => absurd claim (notClaims c List.mem_cons_self)⟩,
      ih (fun d m => notClaims d (List.mem_cons_of_mem c m)) (by omega) (by omega)⟩

/-- R133: a block served by an empty pending list, with room for its eight parts. -/
theorem pumpFetchData_of_room {s : State} {x : PendingBlock} (list : s.rau.pendingBlocks = [x]) (whole : x.nextPart = 0)
    (free : s.clc.held = []) (room : s.clc.tx.length ≤ 16)
    (streamRoom : (s.clc.tx.filter fun y => isStreamKind y.cell.kind).length ≤ 8) :
    pumpFetchData s = partsServed (pendingCells s x) [] [] s := by
  have eight : (pendingCells s x).length = 8 := by rw [length_pendingCells, whole]
  have parts : s.rau.pendingBlocks.flatMap (pendingCells s) = pendingCells s x ++ [] := by
    rw [list, List.flatMap_cons, List.flatMap_nil]
  have notClaims : ∀ c ∈ pendingCells s x, c.kind ≠ kindClaim := by
    intro c m
    obtain ⟨p, _, rfl⟩ := List.mem_map.mp m
    exact (by decide : kindFetchData ≠ kindClaim)
  have taken := fetchMoves_of_takes (s := s) 32 (fun y m => by
      rw [list, List.mem_singleton] at m
      rw [m]
      omega) parts (takes_of_room notClaims (by omega) (by omega)) (by rw [free]; exact List.not_mem_nil) (by omega)
  have gone : advance^[(pendingCells s x).length] s.rau.pendingBlocks = [] := by
    have each := advance_iterate_entries (s := s) (done := [x]) (rest := []) (fun y m => by
      rw [List.mem_singleton] at m
      rw [m]
      omega)
    rw [List.flatMap_cons, List.flatMap_nil, List.append_nil, List.append_nil] at each
    rw [list, each]
  rw [pumpFetchData, taken, gone]

/-- A record whose reader is active now. -/
def touched (p : Fin 8) (n now : Nat) (m : Msg) : Msg := { m with readers := m.readers.map fun r =>
  if r.station = p ∧ r.context = n then { r with lastActivity := now } else r }

theorem touchReader_of_record {s : State} {h : Nat} {m : Msg} (p : Fin 8) (n : Nat) (record : s.msgAt h = some m) :
    touchReader h p n s = s.setMsgAt h (some (touched p n s.cfu.stationTime m)) := by
  simp only [touchReader, record, touched, isReader_iff]

/-- A FETCH_BLOCK whose eight parts are queued. -/
structure Served (c : Cell) (p : Fin 8) (m : Msg) (s t : State) : Prop where
  pending : t.rau.pendingBlocks = []
  length : t.clc.tx.length = s.clc.tx.length + 8
  parts : ∀ n, n < 8 → ∃ x ∈ t.clc.tx, x.cell = ownCell s 4 (BitVec.ofNat 4 p.val) kindFetchData c.tag
    (be2 (field c.payload 0 2) ++ be2 (field c.payload 2 2) ++ be1 n
      ++ ((blockAt s ((chainOf s m).getD (field c.payload 2 2) 0)).drop (64 * n)).take 64)
  record : t.msgAt (field c.payload 0 2) = some (touched p c.tag.toNat s.cfu.stationTime m)

theorem exec_fetchBlock_of_reader {s : State} {c : Cell} {p : Fin 8} {m : Msg} (q : s.Quiet) (ready : s.msc.state = .ready)
    (takes : homeTakes (popCell s) = true) (h : FromPeer s c kindFetchBlock p) (record : s.msgAt (field c.payload 0 2) = some m)
    (reader : hasReader m p c.tag.toNat = true) (below : field c.payload 2 2 < m.count) (empty : s.rau.pendingBlocks = [])
    (free : s.clc.held = []) (room : s.clc.tx.length ≤ 16)
    (streamRoom : (s.clc.tx.filter fun x => isStreamKind x.cell.kind).length ≤ 8) :
    ∃ t, exec .fetchBlock s = .next t ∧ Served c p m s t := by
  have reads := readBlockFor_of_reader (s := popCell s) ready record reader below
  rw [touchReader_of_record (s := popCell s) _ _ record] at reads
  have only := storeOnly_setMsgAt (field c.payload 0 2) (some (touched p c.tag.toNat (popCell s).cfu.stationTime m)) (popCell s)
  have clc := setMsgAt_clc (field c.payload 0 2) (some (touched p c.tag.toNat (popCell s).cfu.stationTime m)) (popCell s)
  have kept := msgAt_setMsgAt (lt_of_msgAt record) (some (touched p c.tag.toNat (popCell s).cfu.stationTime m)) (popCell s)
  generalize (popCell s).setMsgAt (field c.payload 0 2) (some (touched p c.tag.toNat (popCell s).cfu.stationTime m)) = u at *
  have none_pending : u.rau.pendingBlocks = [] := by rw [only.rau]; exact empty
  have pumped := pumpFetchData_of_room (s := u.modRau fun r => { r with pendingBlocks := [askedBlock c p (blockAt (popCell s) ((chainOf (popCell s) m).getD (field c.payload 2 2) 0))] })
    rfl rfl
    (by rw [modRau_clc, clc]; exact free) (by rw [modRau_clc, clc]; exact room) (by rw [modRau_clc, clc]; exact streamRoom)
  have taken := (takeFetchBlock_of_read (s := popCell s) reads none_pending).trans pumped
  refine ⟨_, handPeer_eq h (if_pos takes |>.trans taken) (only.quiet (s := popCell s) q), rfl, ?_, fun n lt => ?_, kept⟩
  · refine (length_filled ..).trans ?_
    rw [length_pendingCells, modRau_clc, clc]
    rfl
  · refine ⟨freshTx _ 0, mem_filled.mpr (Or.inr ⟨_, List.mem_map.mpr ⟨n, ?_, rfl⟩, rfl⟩), ?_⟩
    · exact List.mem_range'_1.mpr ⟨Nat.zero_le n, (by omega : n < 0 + (8 - 0))⟩
    · exact (pendingCell_askedBlock ..).trans (ownCell_congr (by exact only.station) ..)

theorem exec_fetchBlock_of_refused {s : State} {c : Cell} {p : Fin 8} {cause : Byte} (q : s.Quiet)
    (takes : homeTakes (popCell s) = true) (h : FromPeer s c kindFetchBlock p)
    (reads : readBlockFor (field c.payload 0 2) p c.tag.toNat (field c.payload 2 2) (popCell s) = (popCell s, .error cause)) :
    exec .fetchBlock s
      = .next (offerOther (ownCell s 4 c.src kindFetchRefuse c.tag ([cause] ++ be2 (field c.payload 0 2))) 0 none (popCell s)) :=
  handPeer_eq h ((if_pos takes).trans (takeFetchBlock_of_refused reads)) (offerOther_none_quiet (s := popCell s) _ _ q)

/-! ### FETCH_CLOSE (R134) -/

theorem takeFetchClose_of_stranger {s : State} {c : Cell} {p : Fin 8}
    (stranger : ∀ m, s.msgAt (field c.payload 0 2) = some m → hasReader m p c.tag.toNat = false) : takeFetchClose p c s = s := by
  cases record : s.msgAt (field c.payload 0 2) with
  | none => simp only [takeFetchClose, record]
  | some m => simp only [takeFetchClose, record, stranger m record, Bool.false_eq_true, if_false]

theorem takeFetchClose_of_reader {s : State} {c : Cell} {p : Fin 8} {m : Msg} (record : s.msgAt (field c.payload 0 2) = some m)
    (reader : hasReader m p c.tag.toNat = true) : takeFetchClose p c s = dropReader (field c.payload 0 2) p c.tag.toNat s := by
  simp only [takeFetchClose, record, reader, if_true]

/-- Settles O46: the read open by the record it finds, the read by the reader list, and the leave. -/
theorem homeServesFetches : Obligations.HomeServesFetches := by
  intro s c p q ready configured h cell refuse mine
  have takes : homeTakes (popCell s) = true := by
    simpa [homeTakes] using ⟨ready, configured⟩
  have strangers {m : Msg} (free : s.msgAt h = none ∨ (s.msgAt h = some m ∧ ∀ r ∈ m.readers, ¬ mine r)) (m' : Msg)
      (record : (popCell s).msgAt h = some m') : hasReader m' p c.tag.toNat = false := by
    have record : s.msgAt h = some m' := record
    rcases free with free | ⟨same, none⟩
    · rw [free] at record
      cases record
    · obtain rfl : m = m' := Option.some.inj (same.symm.trans record)
      exact hasReader_eq_false.mpr none
  refine ⟨fun open_ greeting => ?greeting, fun open_ named => ?message, fun block => ⟨fun m free => ?noReader, fun m record reader => ?reads⟩,
    fun close => ⟨fun m free => ?leavesNot, fun m record reader empty => ?leaves⟩⟩
  case greeting =>
    have target : fetchTarget c (popCell s) = .greeting (field c.payload 2 2) := if_pos greeting
    refine ⟨fun absent => ?_, fun b g m box named record => ?_⟩
    · exact exec_fetchOpen_of_refused q open_ (by
        rw [target]
        exact readOpen_of_no_greeting (s := popCell s) p _ ready configured absent)
    · have found : (mailbox? (popCell s) (field c.payload 2 2)).bind (·.greeting) = some g :=
        (congrArg (·.bind (·.greeting)) box).trans named
      have opens := readOpen_of_greeting (s := popCell s) p c.tag.toNat ready configured found
      rw [← target] at opens
      refine ⟨fun opened => exec_fetchOpen_of_refused q open_ (opens.trans (readOpenHandle_of_opened (s := popCell s) p _ record opened)),
        fun closed stranger room => ?_⟩
      obtain ⟨t, run, granted⟩ := exec_fetchOpen_of_closed q open_ opens record closed stranger room
      exact ⟨t, run, granted.record, granted.clc, granted.rau, granted.ctx⟩
  case message =>
    have target : fetchTarget c (popCell s) = .message (popCell s).cfu.station.val h := if_neg (show ¬ h = 65535 by omega)
    have opens := readOpen_of_message (s := popCell s) (popCell s).cfu.station.val h p c.tag.toNat ready configured
    rw [← target] at opens
    refine ⟨fun free => exec_fetchOpen_of_refused q open_ (opens.trans (readOpenHandle_of_free (s := popCell s) p _ free)),
      fun m record opened => exec_fetchOpen_of_refused q open_ (opens.trans (readOpenHandle_of_opened (s := popCell s) p _ record opened)),
      fun m record closed stranger room => ?_⟩
    obtain ⟨t, run, granted⟩ := exec_fetchOpen_of_closed q open_ opens record closed stranger room
    exact ⟨t, run, granted.record, granted.clc, granted.rau, granted.ctx⟩
  case noReader =>
    exact exec_fetchBlock_of_refused q takes block (readBlockFor_of_no_reader (s := popCell s) p _ _ ready (strangers free))
  case reads =>
    have isReader : hasReader m p c.tag.toNat = true := hasReader_eq_true.mpr reader
    refine ⟨fun above => exec_fetchBlock_of_refused q takes block (readBlockFor_of_above (s := popCell s) ready record isReader above),
      fun below empty free room streamRoom => ?_⟩
    obtain ⟨t, run, served⟩ := exec_fetchBlock_of_reader q ready takes block record isReader below empty free room streamRoom
    exact ⟨t, run, served.pending, served.length, served.parts, served.record⟩
  case leavesNot =>
    exact handPeer_eq close ((if_pos takes).trans (takeFetchClose_of_stranger (s := popCell s) (strangers free))) q
  case leaves =>
    have left := left_dropReader (s := popCell s) record (hasReader_eq_true.mpr reader) empty
    exact ⟨_, handPeer_eq close ((if_pos takes).trans (takeFetchClose_of_reader (s := popCell s) record (hasReader_eq_true.mpr reader)))
      (left.only.quiet (s := popCell s) q), left.record, left.freeList, left.only.rau, left.only.ctx⟩

end Sys2Proof.Machine
end

section
/-! PROOFS. The family of the store at the home, its closes: what a close leaves of a record, of the free list and of the
mailboxes, and which reports it queues (R106, R112, R113, R114). -/
namespace Sys2Proof.Machine

/-! ### The reports of the store depend on the queue, the station's number and the free list (R35, R118) -/

theorem sendEvent_clc_congr {s t : State} (k : Option ContextId) (e : Event) (clc : s.clc = t.clc)
    (station : s.cfu.station = t.cfu.station) : (sendEvent k e s).clc = (sendEvent k e t).clc := by
  have cell : eventCell s k e = eventCell t k e := ownCell_congr station ..
  rw [sendEvent_eq, sendEvent_eq, cell, clc]
  split <;> rfl

theorem examineLevel_clc_congr {s t : State} (clc : s.clc = t.clc) (station : s.cfu.station = t.cfu.station)
    (free : s.msc.freeList = t.msc.freeList) (mark : s.msc.lowMark = t.msc.lowMark) :
    (examineLevel s).clc = (examineLevel t).clc := by
  have count : freeCount s = freeCount t := congrArg List.length free
  simp only [examineLevel, count, mark]
  split
  · exact sendEvent_clc_congr _ _ clc station
  · split
    · exact sendEvent_clc_congr _ _ clc station
    · exact clc

theorem freeBlocks_clc_congr {s t : State} (bs : List Nat) (clc : s.clc = t.clc) (station : s.cfu.station = t.cfu.station)
    (free : s.msc.freeList = t.msc.freeList) (mark : s.msc.lowMark = t.msc.lowMark) :
    (freeBlocks bs s).clc = (freeBlocks bs t).clc := by
  unfold freeBlocks
  split
  · exact clc
  · exact examineLevel_clc_congr clc station (congrArg (· ++ bs) free) mark

/-! ### The chain of a closed message (R112, R113) -/

theorem cutRecord_whole {m : Msg} {chain : List Nat} {n : Nat} : (cutRecord m chain n).count = n := rfl

theorem storeOnly_setLink (n : Nat) (v : Option Nat) (s : State) : StoreOnly s (setLink n v s) := storeOnly_modMsc _ s

/-- A kept chain is cut after its last block, and the rest joins the free list. -/
structure ChainCut (h n : Nat) (m : Msg) (s t : State) : Prop where
  only : StoreOnly s t
  record : t.msgAt h = some (cutRecord m (chainOf s m) n)
  others : ∀ j, j ≠ h → t.msgAt j = s.msgAt j
  freeList : t.msc.freeList = s.msc.freeList ++ (chainOf s m).drop n
  mbxs : t.msc.mbxs = s.msc.mbxs
  clc : t.clc = (freeBlocks ((chainOf s m).drop n) s).clc

theorem chainCut_cutChain {s : State} {h : Nat} {m : Msg} (n : Nat) (record : s.msgAt h = some m) :
    ChainCut h n m s (cutChain h n s) := by
  have lt := lt_of_msgAt record
  let u := s.setMsgAt h (some (cutRecord m (chainOf s m) n))
  have only : StoreOnly s u := storeOnly_setMsgAt ..
  have written : u = { s with msc := { s.msc with msgs := u.msc.msgs } } := setMsgAt_eq ..
  have cut : ∃ v, cutChain h n s = freeBlocks ((chainOf s m).drop n) v
      ∧ v = { s with msc := { s.msc with msgs := u.msc.msgs, links := v.msc.links } } := by
    simp only [cutChain, record]
    cases ((chainOf s m).take n).getLast? with
    | none =>
      have links : u.msc.links = s.msc.links := by rw [written]
      exact ⟨u, rfl, by rw [links]; exact written⟩
    | some b =>
      refine ⟨setLink b none u, rfl, ?_⟩
      rw [written]
      rfl
  obtain ⟨v, e, same⟩ := cut
  have onlyV : StoreOnly s v := by
    rw [same]
    exact storeOnly_modMsc (fun x => { x with msgs := u.msc.msgs, links := v.msc.links }) s
  have msgs : (cutChain h n s).msc.msgs = u.msc.msgs := by rw [e, freeBlocks_msc, same]
  rw [e] at msgs ⊢
  refine ⟨onlyV.trans (storeOnly_freeBlocks ..), ?_, fun j other => ?_, ?_, ?_, ?_⟩
  · rw [msgAt_congr msgs, msgAt_setMsgAt lt]
  · rw [msgAt_congr msgs, msgAt_setMsgAt_ne other]
  · rw [freeBlocks_msc, same]
  · rw [freeBlocks_msc, same]
  · exact freeBlocks_clc_congr _ (by rw [same]) (by rw [same]) (by rw [same]) (by rw [same])

/-! ### A close (R113, R114) -/

/-- The message of a close before its mailbox takes it: what is kept of its chain, its length and its TRUNCATED flag. -/
def trimmed (h : Nat) (m : Msg) (keep : Nat) (reason : Byte) (s : State) : State :=
  if keep < m.count then cutChain h keep (s.setMsgAt h (some (keptRecord m keep reason)))
  else s.setMsgAt h (some (keptRecord m keep reason))

/-- The record that a close with a reason leaves of a message of which it keeps some blocks (R113, R114). -/
def closedRecord (s : State) (m : Msg) (keep : Nat) (reason : Byte) : Msg := { m with
  state := .closed, stamp := some s.cfu.minute, writer := none, count := keep
  last := if keep = m.count then m.last else ((chainOf s m).take keep).getLast?
  length := if m.kind ≠ .fax ∧ keep < m.count then 1016 * keep else m.length
  truncated := m.truncated || truncates m.kind reason }

/-- The state whose reports a close with `keep` blocks kept queues before its own. -/
def afterTrim (s : State) (m : Msg) (keep : Nat) : State :=
  if keep = m.count then s else freeBlocks ((chainOf s m).drop keep) s

structure Trimmed (h : Nat) (m : Msg) (keep : Nat) (reason : Byte) (s t : State) : Prop where
  only : StoreOnly s t
  record : ∃ x, t.msgAt h = some x
    ∧ { x with state := .closed, stamp := some s.cfu.minute, writer := none } = closedRecord s m keep reason
  others : ∀ j, j ≠ h → t.msgAt j = s.msgAt j
  freeList : t.msc.freeList = s.msc.freeList ++ if keep = m.count then [] else (chainOf s m).drop keep
  mbxs : t.msc.mbxs = s.msc.mbxs
  clc : t.clc = (afterTrim s m keep).clc

theorem trimmed_of_le {s : State} {h : Nat} {m : Msg} {keep : Nat} (reason : Byte) (record : s.msgAt h = some m) (some_kept : keep ≠ 0)
    (le : keep ≤ m.count) : Trimmed h m keep reason s (trimmed h m keep reason s) := by
  have lt := lt_of_msgAt record
  have written := setMsgAt_eq h (some (keptRecord m keep reason)) s
  have only := storeOnly_setMsgAt h (some (keptRecord m keep reason)) s
  have kept := msgAt_setMsgAt lt (some (keptRecord m keep reason)) s
  have others (j : Nat) (other : j ≠ h) := msgAt_setMsgAt_ne other (some (keptRecord m keep reason)) s
  unfold trimmed
  generalize s.setMsgAt h (some (keptRecord m keep reason)) = u at *
  rcases Nat.lt_or_eq_of_le le with less | all
  · have notAll : keep ≠ m.count := by omega
    have cut := chainCut_cutChain keep kept
    have chain : chainOf u (keptRecord m keep reason) = chainOf s m := by
      rw [chainOf, written]
      rfl
    obtain ⟨onlyCut, record', others', freeList, mbxs, clc⟩ := cut
    rw [chain] at record' freeList clc
    rw [if_pos less]
    refine ⟨only.trans onlyCut, ⟨_, record', ?_⟩, fun j other => (others' j other).trans (others j other), ?_, ?_, ?_⟩
    · simp only [cutRecord, keptRecord, closedRecord, some_kept, notAll, less, if_false, and_true]
      by_cases fax : m.kind = .fax <;> simp [fax]
    · rw [freeList, if_neg notAll, written]
    · rw [mbxs, written]
    · rw [clc, afterTrim, if_neg notAll]
      exact freeBlocks_clc_congr _ (by rw [written]) (by rw [written]) (by rw [written]) (by rw [written])
  · subst all
    rw [if_neg (Nat.lt_irrefl _)]
    refine ⟨only, ⟨_, kept, ?_⟩, others, ?_, ?_, ?_⟩
    · simp [keptRecord, closedRecord]
    · rw [if_pos rfl, written, List.append_nil]
    · rw [written]
    · rw [afterTrim, if_pos rfl, written]

theorem closeRecord_of_record {s : State} {h : Nat} {x : Msg} (record : s.msgAt h = some x) :
    closeRecord h s = s.setMsgAt h (some { x with state := .closed, stamp := some s.cfu.minute, writer := none }) := by
  simp only [closeRecord, record]

theorem closeMessage_of_kept {s : State} {h : Nat} {m : Msg} {reason : Byte} {keep : Nat} (record : s.msgAt h = some m)
    (kept : keptCount s m reason = keep) (some_kept : keep ≠ 0) : closeMessage h reason s
      = (sendEvent none (.messageStored m.mailbox h m.kind)
          (closeRecord h (fileMessage h (keptRecord m keep reason) (trimmed h m keep reason s))),
        { result := codeClosed, blocks := keep, flags := (keptRecord m keep reason).flags }) := by
  simp only [closeMessage, record, kept, some_kept, if_false, trimmed]

theorem closeMessage_of_empty {s : State} {h : Nat} {m : Msg} {reason : Byte} (record : s.msgAt h = some m)
    (kept : keptCount s m reason = 0) :
    closeMessage h reason s = (discardMessage h m s, { result := codeEmpty, blocks := 0, flags := 0 }) := by
  simp only [closeMessage, record, kept, if_true]

/-- A message that a close leaves CLOSED in its mailbox. -/
structure Stored (h : Nat) (m : Msg) (keep : Nat) (reason : Byte) (s u t : State) : Prop where
  only : StoreOnly s t
  record : t.msgAt h = some (closedRecord s m keep reason)
  others : ∀ j, j ≠ h → t.msgAt j = u.msgAt j
  freeList : t.msc.freeList = u.msc.freeList
  mbxs : t.msc.mbxs = u.msc.mbxs
  clc : t.clc = (sendEvent none (.messageStored m.mailbox h m.kind) u).clc

/-- R114: the record is CLOSED after its mailbox has taken it, and the close is reported. -/
theorem stored_closeMessage {s : State} {h : Nat} {m : Msg} {reason : Byte} {keep : Nat} (record : s.msgAt h = some m)
    (kept : keptCount s m reason = keep) (some_kept : keep ≠ 0) (le : keep ≤ m.count)
    (only : StoreOnly (trimmed h m keep reason s) (fileMessage h (keptRecord m keep reason) (trimmed h m keep reason s)))
    (stands : (fileMessage h (keptRecord m keep reason) (trimmed h m keep reason s)).msgAt h = (trimmed h m keep reason s).msgAt h) :
    Stored h m keep reason s (fileMessage h (keptRecord m keep reason) (trimmed h m keep reason s)) (closeMessage h reason s).1 := by
  have trim := trimmed_of_le reason record some_kept le
  obtain ⟨x, found, closed⟩ := trim.record
  rw [closeMessage_of_kept record kept some_kept]
  generalize fileMessage h (keptRecord m keep reason) (trimmed h m keep reason s) = u at *
  have record' : u.msgAt h = some x := stands.trans found
  have whole := trim.only.trans only
  have minute : u.cfu.minute = s.cfu.minute := by rw [whole.cfu]
  have written := closeRecord_of_record record'
  rw [minute, closed] at written
  have same := setMsgAt_eq h (some (closedRecord s m keep reason)) u
  have onlyWrite := storeOnly_setMsgAt h (some (closedRecord s m keep reason)) u
  dsimp only
  rw [written]
  refine ⟨(whole.trans onlyWrite).trans (storeOnly_sendEvent _ _ _), ?_, fun j other => ?_, ?_, ?_, ?_⟩
  · rw [msgAt_congr (congrArg Msc.msgs (sendEvent_msc ..)), msgAt_setMsgAt (lt_of_msgAt record)]
  · rw [msgAt_congr (congrArg Msc.msgs (sendEvent_msc ..)), msgAt_setMsgAt_ne other]
  · rw [sendEvent_msc, same]
  · rw [sendEvent_msc, same]
  · exact sendEvent_clc_congr _ _ (by rw [same]) (by rw [same])

/-- R114: a message that is no greeting joins the list of its mailbox. -/
theorem fileMessage_of_list {h : Nat} {m : Msg} (s : State) (list : m.kind ≠ .greeting) :
    fileMessage h m s = modMailbox m.mailbox (fileIn h m.kind) s := by
  simp only [fileMessage, list, if_false]

/-- A message without blocks is gone, and its mailbox counts it no longer. -/
structure Discarded (h : Nat) (m : Msg) (s t : State) : Prop where
  only : StoreOnly s t
  record : t.msgAt h = none
  freeList : t.msc.freeList = s.msc.freeList ++ chainOf s m
  mbxs : t.msc.mbxs = s.msc.mbxs.map fun b => if b.number = m.mailbox then uncountOpen m.kind b else b
  clc : t.clc = (freeBlocks (chainOf s m) s).clc

theorem discarded_discardMessage {s : State} {h : Nat} {m : Msg} (record : s.msgAt h = some m) :
    Discarded h m s (discardMessage h m s) := by
  have written := setMsgAt_eq h none s
  rw [discardMessage, freeMessage_eq record]
  refine ⟨((storeOnly_setMsgAt ..).trans (storeOnly_freeBlocks ..)).trans (storeOnly_modMsc ..), ?_, ?_, ?_, ?_⟩
  · refine (msgAt_congr (s := s.setMsgAt h none) ?_ h).trans (msgAt_setMsgAt (lt_of_msgAt record) _ s)
    rw [modMailbox, modMsc_msc, freeBlocks_msc]
  · rw [modMailbox, modMsc_msc, freeBlocks_msc, written]
  · rw [modMailbox, modMsc_msc, freeBlocks_msc, written]
  · rw [modMailbox, modMsc_clc]
    exact freeBlocks_clc_congr _ (by rw [written]) (by rw [written]) (by rw [written]) (by rw [written])

end Sys2Proof.Machine
end

section
/-! PROOFS. The family of the deposits at the home: an append with its link and its level report, the block an assembly is
written as, the entry of a deposit, and its waits (R111, R113, R114, R126, R128, R131, R135). -/
namespace Sys2Proof.Machine

/-! ### An append (R102, R105, R111) -/

theorem length_sendEvent_le (k : Option ContextId) (e : Event) (s : State) :
    (sendEvent k e s).clc.tx.length ≤ s.clc.tx.length + 1 := by
  rw [sendEvent_eq]
  split
  · exact Nat.le_of_eq (insertByPriority_perm _ _).length_eq
  · exact Nat.le_succ _

theorem length_examineLevel_le (s : State) : (examineLevel s).clc.tx.length ≤ s.clc.tx.length + 1 := by
  simp only [examineLevel]
  split
  · exact length_sendEvent_le ..
  · split
    · exact length_sendEvent_le ..
    · exact Nat.le_succ _

theorem fitTo_self {n : Nat} {bs : List Byte} (fill : Byte) (whole : bs.length = n) : fitTo n fill bs = bs := by
  rw [fitTo, List.take_of_length_le (by omega), show n - bs.length = 0 by omega, List.replicate_zero, List.append_nil]

theorem length_fitTo (n : Nat) (fill : Byte) (bs : List Byte) : (fitTo n fill bs).length = n := by
  simp only [fitTo, List.length_append, List.length_take, List.length_replicate]
  omega

/-- R102, R103: a block reads as it was written. -/
theorem readBlock_writeBlock {block : List Byte} (n : Nat) (m : List Host.Cell) (whole : block.length = 512) :
    Memory.readBlock (Memory.writeBlock n block m) n = block := by
  rw [Memory.readBlock, Memory.writeBlock, fitTo_self _ whole]
  refine List.ext_getElem (by simp [whole]) fun i lt lt' => ?_
  rw [List.getElem_map, List.getElem_range, Memory.readByte_write_inside _ _ _ _ (by omega) (by omega),
    Nat.add_sub_cancel_left, List.getD_eq_getElem _ _ lt']

/-- The link table when block b follows the last block of a chain. -/
def linkedLast (last : Option Nat) (b : Nat) (links : List (Nat × Nat)) : List (Nat × Nat) :=
  match last with
  | some l => Links.set l (some b) (Links.set b none links)
  | none => Links.set b none links

theorem next_linkedLast {last : Option Nat} {b : Nat} (links : List (Nat × Nat)) (apart : ∀ l ∈ last, l ≠ b) :
    Links.next (linkedLast last b links) b = none ∧ ∀ l ∈ last, Links.next (linkedLast last b links) l = some b := by
  cases last with
  | none => exact ⟨Links.next_set .., fun l m => nomatch m⟩
  | some l =>
    have other : b ≠ l := (apart l rfl).symm
    refine ⟨(Links.next_set_ne _ _ _ _ other).trans (Links.next_set ..), fun l' m => ?_⟩
    obtain rfl : l = l' := Option.some.inj m
    exact Links.next_set ..

/-- A finished block appended to an OPEN message. -/
structure Appended (h : Nat) (m : Msg) (b : Nat) (rest : List Nat) (block : List Byte) (samples : Nat) (s t : State) : Prop where
  only : StoreOnly s t
  record : t.msgAt h = some (appendRecord m b block samples)
  freeList : t.msc.freeList = rest
  mem : t.msc.mem = Memory.writeBlock b block s.msc.mem
  links : t.msc.links = linkedLast m.last b s.msc.links
  mbxs : t.msc.mbxs = s.msc.mbxs
  length : t.clc.tx.length ≤ s.clc.tx.length + 1

/-- The state of an append before the record is written. -/
def blockLinked (m : Msg) (b : Nat) (block : List Byte) (s : State) : State :=
  (takeFreeBlock s).modMsc fun x => { x with mem := Memory.writeBlock b block x.mem, links := linkedLast m.last b x.links }

theorem appendBlock_of_free {s : State} {h : Nat} {w : Writer} {m : Msg} {b : Nat} {rest : List Nat} (block : List Byte) (samples : Nat)
    (under : openUnder s h w = some m) (free : s.msc.freeList = b :: rest) : appendBlock h w block samples s
      = ((blockLinked m b block s).setMsgAt h (some (appendRecord m b block samples)), .taken) := by
  simp only [appendBlock, under, free]
  cases last : m.last with
  | none => simp only [blockLinked, last]; rfl
  | some l => simp only [blockLinked, last]; rfl

theorem msgAt_of_openUnder {s : State} {h : Nat} {w : Writer} {m : Msg} (under : openUnder s h w = some m) : s.msgAt h = some m :=
  (Option.filter_eq_some_iff.mp under).1

theorem openUnder_of_opened {s : State} {h : Nat} {w : Writer} {m : Msg} (record : s.msgAt h = some m) (ready : s.msc.state = .ready)
    (opened : m.state = .opened) (writer : m.writer = some w) : openUnder s h w = some m := by
  rw [openUnder, record, Option.filter_some, if_pos (by simp [ready, opened, writer])]

theorem appended_appendBlock {s : State} {h : Nat} {w : Writer} {m : Msg} {b : Nat} {rest : List Nat} (block : List Byte) (samples : Nat)
    (under : openUnder s h w = some m) (free : s.msc.freeList = b :: rest) :
    Appended h m b rest block samples s (appendBlock h w block samples s).1 := by
  rw [appendBlock_of_free block samples under free]
  have only : StoreOnly s (blockLinked m b block s) :=
    ((storeOnly_modMsc _ s).trans (storeOnly_examineLevel _)).trans (storeOnly_modMsc _ _)
  have msc : (blockLinked m b block s).msc = { s.msc with
      freeList := rest, lowMark := (blockLinked m b block s).msc.lowMark
      mem := Memory.writeBlock b block s.msc.mem, links := linkedLast m.last b s.msc.links } := by
    simp only [blockLinked, takeFreeBlock, modMsc_msc, examineLevel_msc, free, List.tail_cons]
  have length : (blockLinked m b block s).clc.tx.length ≤ s.clc.tx.length + 1 := length_examineLevel_le _
  generalize blockLinked m b block s = u at *
  have written := setMsgAt_eq h (some (appendRecord m b block samples)) u
  refine ⟨only.trans (storeOnly_setMsgAt ..), msgAt_setMsgAt (lt_of_msgAt (msgAt_of_openUnder under)) .., ?_, ?_, ?_, ?_, ?_⟩
  · rw [written, msc]
  · rw [written, msc]
  · rw [written, msc]
  · rw [written, msc]
  · rw [written]
    exact length

/-! ### The block an assembly is written as (R126) -/

theorem isFax_eq_false {kind : MsgKind} (notFax : kind ≠ .fax) : (kind = .fax) = False := eq_false notFax

theorem exists_seven {α : Type} {l : List α} (seven : l.length = 7) : ∃ a b c d e f g, l = [a, b, c, d, e, f, g] := by
  match l, seven with
  | [a, b, c, d, e, f, g], _ => exact ⟨a, b, c, d, e, f, g, rfl⟩

theorem exists_eight {α : Type} {l : List α} (eight : l.length = 8) : ∃ a b c d e f g i, l = [a, b, c, d, e, f, g, i] := by
  match l, eight with
  | [a, b, c, d, e, f, g, i], _ => exact ⟨a, b, c, d, e, f, g, i, rfl⟩

/-- R126: an assembly of all eight parts is written as its parts, in their order. -/
theorem assembled_of_whole (e : DepositEntry) {a : Assembly} {pieces : List (List Byte)}
    (parts : a.parts = pieces.zipIdx.map fun x => (x.2, x.1)) (eight : pieces.length = 8) (full : ∀ x ∈ pieces, x.length = 64) :
    assembled e a = pieces.flatten := by
  obtain ⟨p0, p1, p2, p3, p4, p5, p6, p7, rfl⟩ := exists_eight eight
  simp only [List.mem_cons, List.not_mem_nil, or_false, forall_eq_or_imp, forall_eq] at full
  obtain ⟨f0, f1, f2, f3, f4, f5, f6, f7⟩ := full
  simp [assembled, partIds, fitTo_self, *]

/-- R126: an assembly of its first part alone is completed with the fill, and marked with a gap. -/
theorem assembled_of_first {e : DepositEntry} {a : Assembly} {bytes : List Byte} (first : a.parts = [(0, bytes)])
    (full : bytes.length = 64) :
    assembled e a = bytes.set 3 (byteAt bytes 3 ||| 0x40) ++ List.replicate 448 (fillByte e.kind) := by
  have body : assembled e a = withGap (bytes ++ List.replicate 448 (fillByte e.kind)) := by
    simp [assembled, first, partIds, fitTo_self, full]
  have third : byteAt (bytes ++ List.replicate 448 (fillByte e.kind)) 3 = byteAt bytes 3 := by
    rw [byteAt, byteAt, List.getD_append _ _ _ _ (by omega)]
  rw [body, withGap, third, List.set_append_left _ _ (by omega)]

/-! ### The entry of a deposit (R123) -/

theorem storeOnly_rau {s t : State} (only : StoreOnly s t) : t.rau = s.rau := only.rau

theorem depositEntry?_congr {s t : State} (rau : t.rau = s.rau) (h : Nat) : depositEntry? t h = depositEntry? s h := by
  rw [depositEntry?, rau, depositEntry?]

theorem handle_of_entry {s : State} {h : Nat} {e : DepositEntry} (entry : depositEntry? s h = some e) : e.handle = h := by
  have found := List.find?_some entry
  simpa using found

theorem depositEntry?_modDeposit {s : State} {h : Nat} {e : DepositEntry} {f : DepositEntry → DepositEntry}
    (handles : ∀ x, (f x).handle = x.handle) (entry : depositEntry? s h = some e) : depositEntry? (modDeposit h f s) h = some (f e) := by
  have named : (fun x : DepositEntry => x.handle == h) ∘ (fun x => if x.handle = h then f x else x) = fun x => x.handle == h := by
    funext x
    simp only [Function.comp_apply]
    split <;> simp [handles]
  change (s.rau.deposits.map _).find? _ = _
  rw [List.find?_map, named, show s.rau.deposits.find? (fun x => x.handle == h) = some e from entry, Option.map_some,
    if_pos (handle_of_entry entry)]

/-- R128: what a written block makes of an entry. -/
def blockWritten (block : List Byte) (x : DepositEntry) : DepositEntry := { x with
  expected := (x.expected + 1) % 65536, assembly := none, lastWritten := some x.expected
  lastPage := if x.kind = .fax then some (byteAt block 2).toNat else x.lastPage }

theorem modDeposit_rau (h : Nat) (f : DepositEntry → DepositEntry) (s : State) : (modDeposit h f s).rau
    = { s.rau with deposits := s.rau.deposits.map fun x => if x.handle = h then f x else x } := rfl

/-- A block of a VOICE or GREETING deposit written and acknowledged. -/
structure Written (h : Nat) (e : DepositEntry) (m : Msg) (b : Nat) (rest : List Nat) (block : List Byte) (s t : State) : Prop where
  quiet : s.Quiet → t.Quiet
  record : t.msgAt h = some (appendRecord m b block 1016)
  freeList : t.msc.freeList = rest
  readBack : block.length = 512 → blockAt t b = block
  links : t.msc.links = linkedLast m.last b s.msc.links
  rau : t.rau = (modDeposit h (blockWritten block) s).rau
  taken : s.clc.tx.length < 23 → ∃ y ∈ t.clc.tx, y.cell = ownCell s 4 (BitVec.ofNat 4 e.station.val) kindBlockTaken
    (BitVec.ofNat 8 e.context) (be2 h ++ be2 e.expected)

theorem mem_offerOther_none {s : State} {c : Cell} (room : s.clc.tx.length < 24) (stream : isStreamKind c.kind = false)
    (notClaim : c.kind ≠ kindClaim) : ∃ y ∈ (offerOther c 0 none s).clc.tx, y.cell = c := by
  have takes : queueTakes s.clc.tx c = true := by
    rw [queueTakes_of_plain_kind _ stream notClaim]
    exact decide_eq_true room
  rw [offerOther_none_clc, if_pos takes]
  exact ⟨freshTx c 0, (mem_insertByPriority ..).mpr (Or.inl rfl), rfl⟩

theorem written_writeDeposited {s : State} {h : Nat} {e : DepositEntry} {m : Msg} {b : Nat} {rest : List Nat} (block : List Byte)
    (damaged : Bool) (entry : depositEntry? s h = some e) (under : openUnder s h (.peer e.station e.context) = some m)
    (notFax : e.kind ≠ .fax) (free : s.msc.freeList = b :: rest) : Written h e m b rest block s (writeDeposited h block damaged s) := by
  have appended := appended_appendBlock block 1016 under free
  have pair := appendBlock_of_free block 1016 under free
  rw [pair] at appended
  have run : writeDeposited h block damaged s = toDepositor e kindBlockTaken (be2 h ++ be2 e.expected)
      (modDeposit h (blockWritten block) ((blockLinked m b block s).setMsgAt h (some (appendRecord m b block 1016)))) := by
    simp only [writeDeposited, entry, pair, notFax, decide_false, Bool.false_and, Bool.false_eq_true, if_false]
    rfl
  have rau : ((blockLinked m b block s).setMsgAt h (some (appendRecord m b block 1016))).rau = s.rau := appended.only.rau
  rw [run, toDepositor]
  generalize (blockLinked m b block s).setMsgAt h (some (appendRecord m b block 1016)) = u at *
  refine ⟨fun q => offerOther_none_quiet _ _ (by rw [State.Quiet, modDeposit_rau, rau]; exact q), ?_, ?_, fun whole => ?_, ?_, ?_, fun room => ?_⟩
  · exact (msgAt_congr (congrArg Msc.msgs (offerOther_msc ..)) h).trans appended.record
  · rw [offerOther_msc]
    exact appended.freeList
  · rw [blockAt, offerOther_msc]
    exact (congrArg (Memory.readBlock · b) appended.mem).trans (readBlock_writeBlock b _ whole)
  · rw [offerOther_msc]
    exact appended.links
  · rw [offerOther_rau, modDeposit_rau, modDeposit_rau, rau]
  · have room' : u.clc.tx.length < 24 := Nat.lt_of_le_of_lt appended.length (by omega)
    obtain ⟨y, mem, cell⟩ := mem_offerOther_none (s := modDeposit h (blockWritten block) u)
      (c := ownCell u 4 (BitVec.ofNat 4 e.station.val) kindBlockTaken (BitVec.ofNat 8 e.context) (be2 h ++ be2 e.expected))
      room' (by rfl) (by decide : kindBlockTaken ≠ kindClaim)
    exact ⟨y, mem, cell.trans (ownCell_congr (s := u) (t := s) appended.only.station ..)⟩

/-! ### The close of an entry (R123, R130, R131) -/

/-- The state of a home that has closed an entry's message with a report and told its depositor. -/
def entryClosed (h : Nat) (e : DepositEntry) (report : CloseReport) (u : State) : State :=
  removeDeposit h (toDepositor e kindDepositClosed (be2 h ++ [report.result] ++ be2 report.blocks ++ be1 report.flags) u)

theorem closeEntry_of_entry {s : State} {h : Nat} {e : DepositEntry} {m : Msg} (reason : Byte) (entry : depositEntry? s h = some e)
    (under : openUnder s h (.peer e.station e.context) = some m) :
    closeEntry h reason true s = entryClosed h e (closeMessage h reason s).2 (closeMessage h reason s).1 := by
  simp only [closeEntry, entry, closeBy, under]
  rfl

theorem entryClosed_msc (h : Nat) (e : DepositEntry) (report : CloseReport) (u : State) : (entryClosed h e report u).msc = u.msc :=
  offerOther_msc ..

theorem entryClosed_rau (h : Nat) (e : DepositEntry) (report : CloseReport) (u : State) : (entryClosed h e report u).rau
    = { u.rau with deposits := u.rau.deposits.filter fun x => x.handle != h } := by
  rw [entryClosed, removeDeposit, modRau_rau, toDepositor, offerOther_rau]

theorem entryClosed_quiet {h : Nat} {e : DepositEntry} {report : CloseReport} {u : State} (q : u.Quiet) : (entryClosed h e report u).Quiet := by
  rw [State.Quiet, entryClosed_rau]
  exact q

theorem entryClosed_clc {h : Nat} {e : DepositEntry} {report : CloseReport} {u v : State} (clc : u.clc = v.clc)
    (station : u.cfu.station = v.cfu.station) : (entryClosed h e report u).clc
      = (offerOther (ownCell v 4 (BitVec.ofNat 4 e.station.val) kindDepositClosed (BitVec.ofNat 8 e.context)
          (be2 h ++ [report.result] ++ be2 report.blocks ++ be1 report.flags)) 0 none v).clc :=
  offerOther_none_clc_congr (ownCell_congr station ..) clc

theorem keptCount_of_untrimmed {s : State} {m : Msg} {reason : Byte} (notFax : m.kind ≠ .fax) (whole : trims reason = false) :
    keptCount s m reason = m.count := by
  simp [keptCount, notFax, whole]

theorem writeAssembly_of_none {s : State} {h : Nat} {e : DepositEntry} (entry : depositEntry? s h = some e) (none : e.assembly = none) :
    writeAssembly h s = s := by
  simp only [writeAssembly, entry, none]

theorem writeAssembly_of_some {s : State} {h : Nat} {e : DepositEntry} {a : Assembly} (entry : depositEntry? s h = some e)
    (waiting : e.assembly = some a) : writeAssembly h s = writeDeposited h (assembled e a) a.damaged s := by
  simp only [writeAssembly, entry, waiting]

/-- What is left of a message and its entry when a close has kept no block. -/
structure EntryEmptied (h : Nat) (e : DepositEntry) (m : Msg) (s t : State) : Prop where
  quiet : s.Quiet → t.Quiet
  record : t.msgAt h = none
  deposits : t.rau.deposits = s.rau.deposits.filter fun x => x.handle != h
  mbxs : t.msc.mbxs = s.msc.mbxs.map fun b => if b.number = m.mailbox then uncountOpen m.kind b else b
  freeList : t.msc.freeList = s.msc.freeList ++ chainOf s m
  clc : t.clc = (offerOther (ownCell s 4 (BitVec.ofNat 4 e.station.val) kindDepositClosed (BitVec.ofNat 8 e.context)
    (be2 h ++ [codeEmpty, 0, 0, 0])) 0 none (freeBlocks (chainOf s m) s)).clc

theorem closeEntry_of_empty {s : State} {h : Nat} {e : DepositEntry} {m : Msg} {reason : Byte} (entry : depositEntry? s h = some e)
    (under : openUnder s h (.peer e.station e.context) = some m) (kept : keptCount s m reason = 0) :
    EntryEmptied h e m s (closeEntry h reason true s) := by
  have record := msgAt_of_openUnder under
  have gone := discarded_discardMessage record
  rw [closeEntry_of_entry reason entry under, closeMessage_of_empty record kept]
  have msc := entryClosed_msc h e { result := codeEmpty, blocks := 0, flags := 0 } (discardMessage h m s)
  have rau := entryClosed_rau h e { result := codeEmpty, blocks := 0, flags := 0 } (discardMessage h m s)
  refine ⟨fun q => entryClosed_quiet (gone.only.quiet q), (msgAt_congr (congrArg Msc.msgs msc) h).trans gone.record, ?_, ?_, ?_, ?_⟩
  · rw [rau, gone.only.rau]
  · rw [msc, gone.mbxs]
  · rw [msc, gone.freeList]
  · refine (entryClosed_clc gone.clc (gone.only.station.trans (storeOnly_freeBlocks ..).station.symm)).trans ?_
    have payload : be2 h ++ [codeEmpty] ++ be2 0 ++ be1 0 = be2 h ++ [codeEmpty, 0, 0, 0] := by
      simp only [List.append_assoc]
      rfl
    exact offerOther_none_clc_congr ((ownCell_congr (storeOnly_freeBlocks ..).station ..).trans
      (congrArg (ownCell s 4 _ kindDepositClosed _) payload)) rfl

/-- What is left of a message and its entry when a close has kept some blocks and its mailbox has taken it. -/
structure EntryStored (h : Nat) (e : DepositEntry) (m : Msg) (keep : Nat) (reason : Byte) (s u t : State) : Prop where
  quiet : s.Quiet → t.Quiet
  record : t.msgAt h = some (closedRecord s m keep reason)
  others : ∀ j, j ≠ h → t.msgAt j = u.msgAt j
  deposits : t.rau.deposits = s.rau.deposits.filter fun x => x.handle != h
  mbxs : t.msc.mbxs = u.msc.mbxs
  freeList : t.msc.freeList = u.msc.freeList
  clc : t.clc = (offerOther (ownCell s 4 (BitVec.ofNat 4 e.station.val) kindDepositClosed (BitVec.ofNat 8 e.context)
    (be2 h ++ [codeClosed] ++ be2 keep ++ be1 (closedRecord s m keep reason).flags)) 0 none
      (sendEvent none (.messageStored m.mailbox h m.kind) u)).clc

theorem closeEntry_of_stored {s : State} {h : Nat} {e : DepositEntry} {m : Msg} {reason : Byte} {keep : Nat}
    (entry : depositEntry? s h = some e) (under : openUnder s h (.peer e.station e.context) = some m)
    (kept : keptCount s m reason = keep) (some_kept : keep ≠ 0)
    (stored : Stored h m keep reason s (fileMessage h (keptRecord m keep reason) (trimmed h m keep reason s)) (closeMessage h reason s).1)
    (only : StoreOnly s (fileMessage h (keptRecord m keep reason) (trimmed h m keep reason s))) :
    EntryStored h e m keep reason s (fileMessage h (keptRecord m keep reason) (trimmed h m keep reason s)) (closeEntry h reason true s) := by
  have report : (closeMessage h reason s).2 = { result := codeClosed, blocks := keep, flags := (closedRecord s m keep reason).flags } := by
    rw [closeMessage_of_kept (msgAt_of_openUnder under) kept some_kept]
    rfl
  rw [closeEntry_of_entry reason entry under, report]
  generalize fileMessage h (keptRecord m keep reason) (trimmed h m keep reason s) = u at *
  generalize (closeMessage h reason s).1 = v at *
  have msc := entryClosed_msc h e { result := codeClosed, blocks := keep, flags := (closedRecord s m keep reason).flags } v
  have rau := entryClosed_rau h e { result := codeClosed, blocks := keep, flags := (closedRecord s m keep reason).flags } v
  have sent := (only.trans (storeOnly_sendEvent none (.messageStored m.mailbox h m.kind) u)).station
  refine ⟨fun q => entryClosed_quiet (stored.only.quiet q), (msgAt_congr (congrArg Msc.msgs msc) h).trans stored.record,
    fun j other => (msgAt_congr (congrArg Msc.msgs msc) j).trans (stored.others j other), ?_, ?_, ?_, ?_⟩
  · rw [rau, stored.only.rau]
  · rw [msc, stored.mbxs]
  · rw [msc, stored.freeList]
  · refine (entryClosed_clc stored.clc (stored.only.station.trans sent.symm)).trans ?_
    exact offerOther_none_clc_congr (ownCell_congr sent ..) rfl

/-- R113, R114: a message that is no greeting, kept and put into the list of its mailbox. -/
theorem closeEntry_of_list {s : State} {h : Nat} {e : DepositEntry} {m : Msg} {reason : Byte} {keep : Nat}
    (entry : depositEntry? s h = some e) (under : openUnder s h (.peer e.station e.context) = some m)
    (kept : keptCount s m reason = keep) (some_kept : keep ≠ 0) (le : keep ≤ m.count) (list : m.kind ≠ .greeting) :
    EntryStored h e m keep reason s (modMailbox m.mailbox (fileIn h m.kind) (trimmed h m keep reason s)) (closeEntry h reason true s) := by
  have record := msgAt_of_openUnder under
  have trim := trimmed_of_le reason record some_kept le
  have filed : fileMessage h (keptRecord m keep reason) (trimmed h m keep reason s)
      = modMailbox m.mailbox (fileIn h m.kind) (trimmed h m keep reason s) := fileMessage_of_list _ list
  have only : StoreOnly (trimmed h m keep reason s) (modMailbox m.mailbox (fileIn h m.kind) (trimmed h m keep reason s)) :=
    storeOnly_modMsc ..
  have stored := stored_closeMessage record kept some_kept le (by rw [filed]; exact only) (by rw [filed]; rfl)
  have closed := closeEntry_of_stored entry under kept some_kept stored (by rw [filed]; exact trim.only.trans only)
  rwa [filed] at closed

/-! ### The home's waits (R126, R131, R135) -/

theorem passed_iff {s : State} {since time : Nat} : passed s since time = true ↔ since + time ≤ s.cfu.stationTime := by
  simp [passed]

theorem exec_assemblyTimeout_of_due {s : State} {h : Handle} {e : DepositEntry} {a : Assembly} (entry : depositEntry? s h.val = some e)
    (waiting : e.assembly = some a) (due : a.started + 50 ≤ s.cfu.stationTime)
    (quiet : (writeDeposited h.val (assembled e a) a.damaged s).Quiet) :
    exec (.assemblyTimeout h) s = .next (writeDeposited h.val (assembled e a) a.damaged s) := by
  have isDue : assemblyDue s h = true := by
    simp only [assemblyDue, entry, Option.bind_some, waiting]
    exact passed_iff.mpr due
  have written := writeAssembly_of_some entry waiting
  rw [← written] at quiet ⊢
  exact act_of_due s isDue quiet

theorem exec_depositSilenceClose_of_due {s : State} {h : Handle} {e : DepositEntry} (entry : depositEntry? s h.val = some e)
    (none : e.assembly = none) (due : e.lastHeard + 2000 ≤ s.cfu.stationTime)
    (quiet : (closeEntry h.val reasonWriterLost true s).Quiet) :
    exec (.depositSilenceClose h) s = .next (closeEntry h.val reasonWriterLost true s) := by
  have isDue : silenceDue s h = true := by
    simp only [silenceDue, entry]
    exact passed_iff.mpr due
  have closes : silenceClose h.val true s = closeEntry h.val reasonWriterLost true s := by
    rw [silenceClose, writeAssembly_of_none entry none]
  rw [← closes] at quiet ⊢
  exact act_of_due s isDue quiet

theorem readerDue_of_own {s : State} {h : Handle} {p : Fin 8} (n : Nat) (own : p = s.cfu.station) : readerDue s h p n = false := by
  unfold readerDue
  split
  · simp [own]
  · rfl

theorem readerDue_of_peer {s : State} {h : Handle} {m : Msg} {r : Reader} {p : Fin 8} {n : Nat} (record : s.msgAt h.val = some m)
    (mem : r ∈ m.readers) (station : r.station = p) (context : r.context = n) (due : r.lastActivity + 10000 ≤ s.cfu.stationTime)
    (peer : p ≠ s.cfu.station) : readerDue s h p n = true := by
  rw [msgAt_of_lt h.isLt] at record
  have record : s.msg h = some m := record
  simp only [readerDue, record, Bool.and_eq_true, bne_iff_ne, List.any_eq_true]
  exact ⟨peer, r, mem, (isReader_iff p n r).mpr ⟨station, context⟩, passed_iff.mpr due⟩

theorem byteAt_set_append {bytes : List Byte} {i : Nat} (b : Byte) (rest : List Byte) (lt : i < bytes.length) :
    byteAt (bytes.set i b ++ rest) i = b := by
  rw [byteAt, List.getD_append _ _ _ _ (by simpa using lt), List.getD_eq_getElem _ _ (by simpa using lt), List.getElem_set_self]

theorem blockGap_of_marked {bytes : List Byte} (b : Byte) (rest : List Byte) (lt : 3 < bytes.length) :
    blockGap (bytes.set 3 (b ||| 0x40) ++ rest) = true := by
  rw [blockGap, byteAt_set_append _ _ lt, BitVec.getLsbD_or]
  exact Bool.or_true _

theorem appendRecord_of_plain {m : Msg} (b : Nat) (block : List Byte) (notFax : m.kind ≠ .fax) : appendRecord m b block 1016
    = { m with first := if m.first = none then some b else m.first, last := some b, count := m.count + 1
               length := 1016 * m.count + 1016, gaps := m.gaps || blockGap block } := by
  simp only [appendRecord, lengthAfter, notFax, if_false, Option.isNone_iff_eq_none]

/-- Settles O54: the assembly written with a gap, the silence close by the kept blocks, and the reader dropped. -/
theorem homeWaitsEnd : Obligations.HomeWaitsEnd := by
  intro s h m q ready record cell
  refine ⟨fun e entry opened writer voice voice' => ?entry, fun p context r mem station name due => ⟨fun own => ?own, fun peer empty => ?peer⟩⟩
  case entry =>
    have under := openUnder_of_opened record ready opened writer
    have notFax : e.kind ≠ .fax := by rw [voice']; decide
    have notGreeting : m.kind ≠ .greeting := by rw [voice]; decide
    have kept : keptCount s m reasonWriterLost = m.count := keptCount_of_untrimmed (by rw [voice]; decide) (by decide)
    refine ⟨fun bytes a b rest waiting first full due free apart room => ?_, fun idle due => ⟨fun empty => ?_, fun some_kept => ?_⟩⟩
    · have block := assembled_of_first (e := e) first full
      have fill : fillByte e.kind = 0x80 := if_neg notFax
      rw [fill] at block
      have whole : (assembled e a).length = 512 := by
        rw [block, List.length_append, List.length_set, List.length_replicate, full]
      have gap : blockGap (assembled e a) = true := by
        rw [block]
        exact blockGap_of_marked _ _ (by omega)
      have written := written_writeDeposited (assembled e a) a.damaged entry under notFax free
      refine ⟨_, _, exec_assemblyTimeout_of_due entry waiting due (written.quiet q), block, written.readBack whole, written.freeList,
        ?_, ⟨blockWritten (assembled e a) e, ?_, rfl, rfl, rfl⟩, written.taken room⟩
      · rw [written.record, appendRecord_of_plain _ _ (by rw [voice]; decide), gap, Bool.or_true]
      · rw [depositEntry?_congr written.rau]
        exact depositEntry?_modDeposit (fun _ => rfl) entry
    · have emptied := closeEntry_of_empty (reason := reasonWriterLost) entry under (kept.trans empty)
      refine ⟨_, exec_depositSilenceClose_of_due entry idle due (emptied.quiet q), emptied.record, emptied.deposits, ?_⟩
      have chain : chainOf s m = [] := by rw [chainOf, empty]; rfl
      have clc := emptied.clc
      rw [chain] at clc
      exact clc
    · have stored := closeEntry_of_list (reason := reasonWriterLost) entry under kept (Nat.pos_iff_ne_zero.mp some_kept) (Nat.le_refl _) notGreeting
      have trim := trimmed_of_le reasonWriterLost record (Nat.pos_iff_ne_zero.mp some_kept) (Nat.le_refl _)
      have closed : closedRecord s m m.count reasonWriterLost
          = { m with state := .closed, stamp := some s.cfu.minute, writer := none, truncated := true } := by
        simp [closedRecord, truncates]
      refine ⟨_, exec_depositSilenceClose_of_due entry idle due (stored.quiet q), stored.record.trans (congrArg some closed),
        stored.deposits, ?_, ?_⟩
      · rw [stored.mbxs, modMailbox, modMsc_msc, trim.mbxs]
        simp only [fileIn, notGreeting, if_false]
      · have clc := stored.clc
        rw [closed, voice] at clc
        refine clc.trans (offerOther_none_clc_congr rfl (sendEvent_clc_congr _ _ ?_ ?_))
        · rw [modMailbox, modMsc_clc, trim.clc, afterTrim, if_pos rfl]
        · exact trim.only.station
  case own =>
    exact act_of_not_due _ s (readerDue_of_own context own)
  case peer =>
    have left := left_dropReader (h := h.val) record (hasReader_eq_true.mpr ⟨r, mem, station, name⟩) empty
    exact ⟨_, act_of_due s (readerDue_of_peer record mem station name due peer) (left.only.quiet q), left.record, left.freeList,
      left.only.rau, left.only.ctx⟩

end Sys2Proof.Machine
end

section
/-! PROOFS. The family of the deposits at the home, its cells: the parts of a block, a rollback, and the open and the close of
a deposit (R106, R110, R111, R112, R123, R126, R128, R129, R130). -/
namespace Sys2Proof.Machine

/-! ### The entry of a cell's sender (R126) -/

theorem entryOf_eq_some {s : State} {h : Nat} {p : Fin 8} {n : Nat} {e : DepositEntry} :
    entryOf s h p n = some e ↔ depositEntry? s h = some e ∧ e.station = p ∧ e.context = n := by
  rw [entryOf, Option.filter_eq_some_iff]
  simp

theorem modDeposit_modDeposit {h : Nat} {f g : DepositEntry → DepositEntry} {s : State} (handles : ∀ x, (f x).handle = x.handle) :
    modDeposit h g (modDeposit h f s) = modDeposit h (fun x => g (f x)) s := by
  have each (x : DepositEntry) : (if (if x.handle = h then f x else x).handle = h then g (if x.handle = h then f x else x)
      else (if x.handle = h then f x else x)) = if x.handle = h then g (f x) else x := by
    by_cases named : x.handle = h
    · rw [if_pos named, if_pos ((handles x).trans named), if_pos named]
    · rw [if_neg named, if_neg named, if_neg named]
  refine State.eq_of_blocks rfl rfl rfl rfl rfl rfl (congrArg (fun list => { s.rau with deposits := list }) ?_) rfl rfl
  change (s.rau.deposits.map _).map _ = _
  rw [List.map_map]
  exact congrArg (s.rau.deposits.map ·) (funext each)

/-- R126: an entry whose sender has just been heard. -/
def heardEntry (s : State) (e : DepositEntry) : DepositEntry := { e with lastHeard := s.cfu.stationTime }

theorem heardDepositor_eq (h : Nat) (s : State) : heardDepositor h s = modDeposit h (heardEntry s) s := rfl

theorem depositEntry?_heard {s : State} {h : Nat} {e : DepositEntry} (entry : depositEntry? s h = some e) :
    depositEntry? (modDeposit h (heardEntry s) s) h = some (heardEntry s e) := depositEntry?_modDeposit (fun _ => rfl) entry

/-! ### DEPOSIT_DATA (R126) -/

/-- The assembly of an entry, or a new one. -/
def assemblyOf (e : DepositEntry) : Assembly := e.assembly.getD { parts := [], pageEnd := false, damaged := false, started := 0 }

/-- An assembly with one more part. -/
def withPart (a : Assembly) (n : Nat) (pageEnd damaged : Bool) (bytes : List Byte) (now : Nat) : Assembly :=
  { parts := a.parts ++ [(n, bytes)], pageEnd := a.pageEnd || pageEnd, damaged := a.damaged || damaged, started := now }

/-- An entry with one more part in its assembly. -/
def placed (s : State) (e : DepositEntry) (n : Nat) (pageEnd damaged : Bool) (bytes : List Byte) (x : DepositEntry) : DepositEntry :=
  { x with assembly := some (withPart (assemblyOf e) n pageEnd damaged bytes s.cfu.stationTime) }

theorem placePart_of_new {s : State} {h n : Nat} {e : DepositEntry} (pageEnd damaged : Bool) (bytes : List Byte)
    (entry : depositEntry? s h = some e) (new : ∀ x ∈ (assemblyOf e).parts, x.1 ≠ n) : placePart h n pageEnd damaged bytes s
      = if n = 7 then writeAssembly h (modDeposit h (placed s e n pageEnd damaged bytes) s)
        else modDeposit h (placed s e n pageEnd damaged bytes) s := by
  have absent : ¬ ((assemblyOf e).parts.any fun x => x.1 == n) = true := by
    rw [List.any_eq_true]
    rintro ⟨x, mem, same⟩
    exact new x mem (beq_iff_eq.mp same)
  rw [assemblyOf] at absent
  simp only [placePart, entry]
  rw [if_neg absent]
  rfl

/-- The part number, the marks and the bytes of a DEPOSIT_DATA. -/
def placeCell (c : Cell) (s : State) : State :=
  placePart (field c.payload 0 2) ((byteAt c.payload 4).toNat % 8) ((byteAt c.payload 4).getLsbD 7) ((byteAt c.payload 4).getLsbD 6)
    (c.payload.drop 5) s

theorem takeDepositData_of_expected {s : State} {c : Cell} {p : Fin 8} {e : DepositEntry}
    (entry : entryOf s (field c.payload 0 2) p c.tag.toNat = some e) (expected : field c.payload 2 2 = e.expected) :
    takeDepositData p c s = placeCell c (heardDepositor (field c.payload 0 2) s) := by
  simp only [takeDepositData, entry, expected, if_true]
  rfl

theorem takeDepositData_of_below {s : State} {c : Cell} {p : Fin 8} {e : DepositEntry}
    (entry : entryOf s (field c.payload 0 2) p c.tag.toNat = some e)
    (below : 32768 ≤ (field c.payload 2 2 + 65536 - e.expected) % 65536) :
    takeDepositData p c s = heardDepositor (field c.payload 0 2) s := by
  have other : field c.payload 2 2 ≠ e.expected := by
    intro same
    rw [same, Nat.add_sub_cancel_left] at below
    exact absurd below (by decide)
  have isBelow : isBelow (field c.payload 2 2) e.expected = true := decide_eq_true below
  simp only [takeDepositData, entry, other, isBelow, if_false, if_true]

/-- Eight parts in a row. -/
theorem zipIdx_concat_seven {pieces : List (List Byte)} (bytes : List Byte) (seven : pieces.length = 7) :
    pieces.zipIdx.map (fun x => (x.2, x.1)) ++ [(7, bytes)] = (pieces ++ [bytes]).zipIdx.map fun x => (x.2, x.1) := by
  rw [List.zipIdx_append, List.map_append, seven]
  rfl

/-! ### DEPOSIT_ROLLBACK (R129) -/

theorem takeRollback_of_other {s : State} {c : Cell} {p : Fin 8} {e : DepositEntry} {m : Msg}
    (entry : entryOf s (field c.payload 0 2) p c.tag.toNat = some e) (record : s.msgAt (field c.payload 0 2) = some m)
    (other : e.kind ≠ .fax ∨ field c.payload 2 2 ≠ m.length + 1) : takeRollback p c s = heardDepositor (field c.payload 0 2) s := by
  have record' : (heardDepositor (field c.payload 0 2) s).msgAt (field c.payload 0 2) = some m := record
  have stays : ¬ ((decide (e.kind = .fax) && decide (field c.payload 2 2 = m.length + 1)) = true) := by
    rw [Bool.and_eq_true, decide_eq_true_eq, decide_eq_true_eq]
    tauto
  simp only [takeRollback, entry, record']
  rw [if_neg stays]

theorem rollBack_of_fax {s : State} {h : Nat} {w : Writer} {m : Msg} (under : openUnder s h w = some m) (fax : m.kind = .fax)
    (more : m.count ≠ m.pageMark) : (rollBack h w s).1 = cutChain h m.pageMark s := by
  simp only [rollBack, under, fax, more, if_true, if_false]

theorem takeRollback_of_page {s : State} {c : Cell} {p : Fin 8} {e : DepositEntry} {m : Msg}
    (entry : entryOf s (field c.payload 0 2) p c.tag.toNat = some e)
    (under : openUnder s (field c.payload 0 2) (.peer p c.tag.toNat) = some m) (idle : e.assembly = none) (fax : e.kind = .fax)
    (fax' : m.kind = .fax) (page : field c.payload 2 2 = m.length + 1) (more : m.count ≠ m.pageMark) :
    takeRollback p c s = cutChain (field c.payload 0 2) m.pageMark (heardDepositor (field c.payload 0 2) s) := by
  obtain ⟨found, station, context⟩ := entryOf_eq_some.mp entry
  have record' : (heardDepositor (field c.payload 0 2) s).msgAt (field c.payload 0 2) = some m := msgAt_of_openUnder under
  have same := writeAssembly_of_none (depositEntry?_heard found) idle
  have under' : openUnder (heardDepositor (field c.payload 0 2) s) (field c.payload 0 2) (.peer e.station e.context) = some m := by
    rw [station, context]
    exact under
  have back := rollBack_of_fax under' fax' more
  rw [← heardDepositor_eq] at same
  simp only [takeRollback, entry, record', fax, page, same, back, decide_true, Bool.and_self, if_true]

theorem opened_of_openUnder {s : State} {h : Nat} {w : Writer} {m : Msg} (under : openUnder s h w = some m) : m.state = .opened := by
  have passes := (Option.filter_eq_some_iff.mp under).2
  simp only [Bool.and_eq_true, beq_iff_eq] at passes
  obtain ⟨⟨_, opened⟩, _⟩ := passes
  exact opened

theorem lengthAllowed_depositData {n : Nat} (allowed : lengthAllowed kindDepositData n = true) : n = 69 := by
  rw [lengthAllowed, (by decide : lengthsOf kindDepositData = (69, 69)), Bool.and_eq_true, decide_eq_true_eq, decide_eq_true_eq] at allowed
  exact Nat.le_antisymm allowed.2 allowed.1

theorem exec_depositData_of_part {s : State} {c : Cell} {p : Fin 8} {e : DepositEntry} (q : s.Quiet) (takes : homeTakes (popCell s) = true)
    (from_ : FromPeer s c kindDepositData p) (entry : entryOf s (field c.payload 0 2) p c.tag.toNat = some e)
    (expected : field c.payload 2 2 = e.expected) (new : ∀ x ∈ (assemblyOf e).parts, x.1 ≠ (byteAt c.payload 4).toNat % 8)
    (more : (byteAt c.payload 4).toNat % 8 < 7) : exec .depositData s = .next (modDeposit (field c.payload 0 2) (fun x =>
      placed s e ((byteAt c.payload 4).toNat % 8) ((byteAt c.payload 4).getLsbD 7) ((byteAt c.payload 4).getLsbD 6)
        (c.payload.drop 5) (heardEntry s x)) (popCell s)) := by
  obtain ⟨found, _, _⟩ := entryOf_eq_some.mp entry
  refine handPeer_eq from_ ((if_pos takes).trans ((takeDepositData_of_expected (s := popCell s) entry expected).trans ?_)) q
  refine (placePart_of_new _ _ _ (depositEntry?_heard (s := popCell s) found) new).trans ?_
  rw [if_neg (by omega), modDeposit_modDeposit (f := heardEntry (popCell s)) fun _ => rfl]
  rfl

theorem exec_depositData_of_last {s : State} {c : Cell} {p : Fin 8} {e : DepositEntry} {m : Msg} {b : Nat} {rest : List Nat}
    {pieces : List (List Byte)} (q : s.Quiet) (takes : homeTakes (popCell s) = true) (from_ : FromPeer s c kindDepositData p)
    (entry : entryOf s (field c.payload 0 2) p c.tag.toNat = some e)
    (under : openUnder s (field c.payload 0 2) (.peer p c.tag.toNat) = some m)
    (expected : field c.payload 2 2 = e.expected) (last : (byteAt c.payload 4).toNat % 8 = 7) (notFax : e.kind ≠ .fax)
    (parts : (assemblyOf e).parts = pieces.zipIdx.map fun x => (x.2, x.1)) (seven : pieces.length = 7)
    (full : ∀ x ∈ pieces, x.length = 64) (free : s.msc.freeList = b :: rest) :
    ∃ u t, exec .depositData s = .next t ∧ u = modDeposit (field c.payload 0 2) (fun x =>
        placed s e 7 ((byteAt c.payload 4).getLsbD 7) ((byteAt c.payload 4).getLsbD 6) (c.payload.drop 5) (heardEntry s x)) (popCell s)
      ∧ Written (field c.payload 0 2)
          (placed s e 7 ((byteAt c.payload 4).getLsbD 7) ((byteAt c.payload 4).getLsbD 6) (c.payload.drop 5) (heardEntry s e))
          m b rest (pieces.flatten ++ c.payload.drop 5) u t
      ∧ (pieces.flatten ++ c.payload.drop 5).length = 512 := by
  obtain ⟨found, station, context⟩ := entryOf_eq_some.mp entry
  have length : c.payload.length = 69 := by
    obtain ⟨⟨_, kind, allowed⟩, _⟩ := from_
    rw [kind] at allowed
    exact lengthAllowed_depositData allowed
  have fullAll : ∀ x ∈ pieces ++ [c.payload.drop 5], x.length = 64 := by
    intro x mem
    rcases List.mem_append.mp mem with mem | mem
    · exact full x mem
    · rw [List.mem_singleton.mp mem, List.length_drop, length]
  let e' := placed s e 7 ((byteAt c.payload 4).getLsbD 7) ((byteAt c.payload 4).getLsbD 6) (c.payload.drop 5) (heardEntry s e)
  let u := modDeposit (field c.payload 0 2) (fun x =>
    placed s e 7 ((byteAt c.payload 4).getLsbD 7) ((byteAt c.payload 4).getLsbD 6) (c.payload.drop 5) (heardEntry s x)) (popCell s)
  have found' : depositEntry? u (field c.payload 0 2) = some e' := depositEntry?_modDeposit (s := popCell s) (fun _ => rfl) found
  have under' : openUnder u (field c.payload 0 2) (.peer e'.station e'.context) = some m := by
    change openUnder s _ (.peer e.station e.context) = some m
    rw [station, context]
    exact under
  have block : assembled e' (withPart (assemblyOf e) 7 ((byteAt c.payload 4).getLsbD 7) ((byteAt c.payload 4).getLsbD 6) (c.payload.drop 5)
      s.cfu.stationTime) = pieces.flatten ++ c.payload.drop 5 := by
    rw [assembled_of_whole e' (pieces := pieces ++ [c.payload.drop 5]) ?_ (by simp [seven]) fullAll]
    · simp
    · rw [withPart, parts]
      exact zipIdx_concat_seven _ seven
  have written := written_writeDeposited (pieces.flatten ++ c.payload.drop 5) ((assemblyOf e).damaged || (byteAt c.payload 4).getLsbD 6)
    found' under' notFax free
  refine ⟨u, _, handPeer_eq from_ ((if_pos takes).trans ((takeDepositData_of_expected (s := popCell s) entry expected).trans ?_))
    (written.quiet q), rfl, written, ?_⟩
  · refine (placePart_of_new _ _ _ (depositEntry?_heard (s := popCell s) found) ?_).trans ?_
    · intro x mem
      have mem : x ∈ (assemblyOf e).parts := mem
      rw [parts] at mem
      obtain ⟨y, place, rfl⟩ := List.mem_map.mp mem
      have below := List.snd_lt_of_mem_zipIdx place
      rw [last]
      omega
    · rw [if_pos last, modDeposit_modDeposit (f := heardEntry (popCell s)) (fun _ => rfl), last]
      refine (writeAssembly_of_some (s := u) found' rfl).trans ?_
      rw [block]
      rfl
  · obtain ⟨p0, p1, p2, p3, p4, p5, p6, rfl⟩ := exists_seven seven
    simp only [List.mem_cons, List.not_mem_nil, or_false, forall_eq_or_imp, forall_eq] at full
    obtain ⟨f0, f1, f2, f3, f4, f5, f6⟩ := full
    simp [*]

/-- Settles O44: a part joins the assembly, the last part writes the block, and a rollback cuts the chain. -/
theorem depositsAreWrittenAtTheHome : Obligations.DepositsAreWrittenAtTheHome := by
  intro s c p e m q ready configured h heard entry under
  obtain ⟨found, station, context⟩ := entryOf_eq_some.mp entry
  have takes : homeTakes (popCell s) = true := by simpa [homeTakes] using ⟨ready, configured⟩
  refine ⟨fun data => ⟨fun expected more new => ?part, fun below => ?below,
    fun b rest pieces expected last notFax kind parts seven full free apart room => ?last⟩,
    fun rollback idle => ⟨fun other => ?other, fun fax fax' page more => ?page⟩⟩
  case part => exact exec_depositData_of_part q takes data entry expected new more
  case below =>
    exact handPeer_eq data ((if_pos takes).trans (takeDepositData_of_below (s := popCell s) entry below)) q
  case last =>
    obtain ⟨u, t, run, same, written, whole⟩ := exec_depositData_of_last q takes data entry under expected last notFax parts seven full free
    have links := next_linkedLast u.msc.links apart
    rw [← written.links] at links
    obtain ⟨atEnd, before⟩ := links
    refine ⟨t, run, written.freeList, written.readBack whole, atEnd, before, ?_, ?_, ?_⟩
    · rw [written.record, appendRecord_of_plain _ _ (by rw [kind]; exact notFax)]
      rfl
    · rw [written.rau, same]
      exact congrArg State.rau (modDeposit_modDeposit (by intro; rfl))
    · obtain ⟨y, mem, cell⟩ := written.taken (by rw [same]; exact room)
      have tag : BitVec.ofNat 8 c.tag.toNat = c.tag := BitVec.ofNat_toNat ..
      refine ⟨y, mem, cell.trans ((ownCell_congr (t := s) (by rw [same]; rfl) ..).trans ?_)⟩
      change ownCell s 4 (BitVec.ofNat 4 e.station.val) kindBlockTaken (BitVec.ofNat 8 e.context) _ = _
      rw [station, context, tag]
      rfl
  case other =>
    exact handPeer_eq rollback ((if_pos takes).trans (takeRollback_of_other (s := popCell s) entry (msgAt_of_openUnder under) other)) q
  case page =>
    have record := msgAt_of_openUnder under
    have opened := opened_of_openUnder under
    have cut := chainCut_cutChain (s := heardDepositor h (popCell s)) m.pageMark record
    refine ⟨_, handPeer_eq rollback ((if_pos takes).trans (takeRollback_of_page (s := popCell s) entry under idle fax fax' page more))
      (cut.only.quiet q), cut.freeList, ⟨_, cut.record, rfl, rfl, opened, rfl⟩, cut.only.rau⟩

end Sys2Proof.Machine
end

section
/-! PROOFS. The family of the deposits at the home, their open and their close (R106, R110, R113, R114, R123, R130). -/
namespace Sys2Proof.Machine

/-! ### The message table (R106, R110) -/

theorem msgAt_eq_items {s : State} {h : Nat} (le : h ≤ 511) :
    ∃ lt : h < s.msc.msgs.items.length, s.msgAt h = s.msc.msgs.items[h] := by
  have size := s.msc.msgs.size_eq
  refine ⟨by omega, ?_⟩
  rw [msgAt_of_lt (by omega)]
  rfl

theorem any_isNone_iff (s : State) : s.msc.msgs.items.any (·.isNone) = true ↔ ∃ h, h ≤ 511 ∧ s.msgAt h = none := by
  have size := s.msc.msgs.size_eq
  rw [List.any_eq_true]
  constructor
  · rintro ⟨m, mem, isNone⟩
    obtain ⟨h, lt, rfl⟩ := List.getElem_of_mem mem
    have le : h ≤ 511 := by omega
    obtain ⟨_, same⟩ := msgAt_eq_items (s := s) le
    exact ⟨h, le, same.trans (Option.isNone_iff_eq_none.mp isNone)⟩
  · rintro ⟨h, le, free⟩
    obtain ⟨lt, same⟩ := msgAt_eq_items (s := s) le
    exact ⟨_, List.getElem_mem lt, Option.isNone_iff_eq_none.mpr (same.symm.trans free)⟩

/-- R110: the lowest FREE handle is FREE, and every lower one is not. -/
theorem lowestFree_spec {s : State} (free : s.msc.msgs.items.any (·.isNone) = true) :
    lowestFree s < 512 ∧ s.msgAt (lowestFree s) = none ∧ ∀ j, j < lowestFree s → s.msgAt j ≠ none := by
  have size := s.msc.msgs.size_eq
  rw [List.any_eq_true] at free
  have lt : lowestFree s < s.msc.msgs.items.length := List.findIdx_lt_length.mpr free
  obtain ⟨_, same⟩ := msgAt_eq_items (s := s) (h := lowestFree s) (by omega)
  refine ⟨by omega, ?_, fun j below => ?_⟩
  · rw [same]
    exact Option.isNone_iff_eq_none.mp (List.findIdx_getElem (w := lt))
  · obtain ⟨_, same⟩ := msgAt_eq_items (s := s) (h := j) (by omega)
    rw [same]
    have notFree := List.not_of_lt_findIdx below
    exact Option.isSome_iff_ne_none.mp (by simpa using notFree)

/-! ### The checks of an open for writing (R110) -/

theorem openRefusal_of_bad {s : State} {mailbox : Nat} {kind : Option MsgKind} (bad : 999 < mailbox ∨ kind = none) :
    openRefusal s mailbox kind = some codeBadField := by
  have refused : (decide (999 < mailbox) || kind.isNone) = true := by simpa using bad
  rw [openRefusal, if_pos refused]

/-- The last checks of an open for writing, at a mailbox of this home. -/
def roomRefusal (s : State) (k : MsgKind) (b : Mbx) : Option Byte :=
  if k = .greeting ∧ b.greetingOpen = true then some codeBusy
  else if k ≠ .greeting ∧ b.limit ≤ b.list.length + b.openCount then some codeMailboxFull
  else if s.msc.msgs.items.any (·.isNone) = false then some codeTableFull
  else if s.msc.freeList = [] then some codeStoreFull else none

theorem openRefusal_of_known {s : State} {mailbox : Nat} (k : MsgKind) (known : mailbox ≤ 999) : openRefusal s mailbox (some k)
    = if s.msc.state = .scanning then some codeStoreBusy
      else if s.cfu.config = none then some codeNotConfigured
      else if isHome s mailbox = false then some codeNotHome
      else ((mailbox? s mailbox).map (roomRefusal s k)).getD (some codeNoSuch) := by
  have inRange : ¬ ((decide (999 < mailbox) || (some k).isNone) = true) := by
    simp only [Option.isNone_some, Bool.or_false, decide_eq_true_eq]
    omega
  rw [openRefusal, if_neg inRange]
  cases mailbox? s mailbox with
  | none => simp
  | some b =>
    have free : (freeCount s = 0) = (s.msc.freeList = []) := by simp [freeCount]
    simp [roomRefusal, free]

theorem openRefusal_in_order (s : State) (mailbox : Nat) (kind : Option MsgKind) :
    let refusal := openRefusal s mailbox kind
    (999 < mailbox ∨ kind = none → refusal = some codeBadField)
    ∧ ∀ k, mailbox ≤ 999 → kind = some k →
      (s.msc.state = .scanning → refusal = some codeStoreBusy)
      ∧ (s.msc.state = .ready → s.cfu.config = none → refusal = some codeNotConfigured)
      ∧ ∀ g, s.msc.state = .ready → s.cfu.config = some g →
        (mailbox % g.groupSize ≠ s.cfu.station.val → refusal = some codeNotHome)
        ∧ (mailbox % g.groupSize = s.cfu.station.val →
          ((∀ b ∈ s.msc.mbxs, b.number ≠ mailbox) → refusal = some codeNoSuch)
          ∧ ∀ b, mailbox? s mailbox = some b →
            let taken : Prop := k = .greeting ∧ b.greetingOpen = true
            let full : Prop := k ≠ .greeting ∧ b.limit ≤ b.list.length + b.openCount
            (taken → refusal = some codeBusy) ∧ (full → refusal = some codeMailboxFull)
            ∧ (¬ taken → ¬ full → (∀ h, h ≤ 511 → s.msgAt h ≠ none) → refusal = some codeTableFull)
            ∧ ∀ h, ¬ taken → ¬ full → h ≤ 511 → s.msgAt h = none →
                refusal = if s.msc.freeList = [] then some codeStoreFull else none) := by
  intro refusal
  refine ⟨openRefusal_of_bad, fun k known named => ?_⟩
  subst named
  have inOrder : refusal = _ := openRefusal_of_known k known
  refine ⟨fun scanning => ?_, fun ready unknown => ?_, fun g ready config => ⟨fun other => ?_, fun home => ?_⟩⟩
  · rw [inOrder, if_pos scanning]
  · rw [inOrder, if_neg (by rw [ready]; decide), if_pos unknown]
  · have notHome : isHome s mailbox = false := Bool.eq_false_iff.mpr (mt (isHome_iff config).mp other)
    rw [inOrder, if_neg (by rw [ready]; decide), if_neg (by rw [config]; exact Option.some_ne_none g), if_pos notHome]
  · have isHome' : isHome s mailbox = true := (isHome_iff config).mpr home
    rw [if_neg (by rw [ready]; decide), if_neg (by rw [config]; exact Option.some_ne_none g), if_neg (by rw [isHome']; decide)] at inOrder
    refine ⟨fun absent => ?_, fun b record => ?_⟩
    · have none : mailbox? s mailbox = none := List.find?_eq_none.mpr fun b mem => by simpa using absent b mem
      rw [inOrder, none]
      rfl
    · rw [record, Option.map_some, Option.getD_some, roomRefusal] at inOrder
      refine ⟨fun taken => ?_, fun full => ?_, fun notTaken notFull noHandle => ?_, fun h notTaken notFull le free => ?_⟩
      · rw [inOrder, if_pos taken]
      · rw [inOrder, if_neg (fun taken => full.1 taken.1), if_pos full]
      · have none : s.msc.msgs.items.any (·.isNone) = false := by
          rw [← Bool.not_eq_true, any_isNone_iff]
          rintro ⟨h, le, free⟩
          exact noHandle h le free
        rw [inOrder, if_neg notTaken, if_neg notFull, if_pos none]
      · have some : s.msc.msgs.items.any (·.isNone) = true := (any_isNone_iff s).mpr ⟨h, le, free⟩
        rw [inOrder, if_neg notTaken, if_neg notFull, if_neg (by rw [some]; decide)]

/-! ### DEPOSIT_OPEN (R123) -/

theorem src_of_fromPeer {s : State} {c : Cell} {kind : Byte} {p : Fin 8} (h : FromPeer s c kind p) : c.src = BitVec.ofNat 4 p.val := by
  obtain ⟨_, station⟩ := h
  unfold stationOf at station
  split at station
  · obtain rfl := Option.some.inj station
    exact ((BitVec.ofNat_toNat ..).trans (BitVec.setWidth_eq _)).symm
  · cases station

theorem ofNat_tag (c : Cell) : BitVec.ofNat 8 c.tag.toNat = c.tag := BitVec.ofNat_toNat ..

theorem find_depositor_eq_none {s : State} {p : Fin 8} {n : Nat} (absent : ∀ e ∈ s.rau.deposits, e.station = p → e.context ≠ n) :
    (s.rau.deposits.find? fun e => e.station == p && e.context == n) = none :=
  List.find?_eq_none.mpr fun e mem => by
    rw [Bool.and_eq_true, beq_iff_eq, beq_iff_eq]
    exact fun same => absent e mem same.1 same.2

theorem takeDepositOpen_of_full {s : State} {c : Cell} {p : Fin 8} (ready : s.msc.state = .ready) (configured : s.cfu.config.isSome = true)
    (absent : ∀ e ∈ s.rau.deposits, e.station = p → e.context ≠ c.tag.toNat) (full : 8 ≤ s.rau.deposits.length) :
    takeDepositOpen p c s = sendDepositRefuse c.src c.tag codeBusy none s := by
  simp only [takeDepositOpen, find_depositor_eq_none absent, ready, configured, decide_true, full, Bool.and_self, if_true]

theorem takeDepositOpen_of_refused {s : State} {c : Cell} {p : Fin 8} {code : Byte}
    (absent : ∀ e ∈ s.rau.deposits, e.station = p → e.context ≠ c.tag.toNat) (room : s.rau.deposits.length < 8)
    (refused : openRefusal s (field c.payload 0 2) (msgKindOf (field c.payload 2 1)) = some code) :
    takeDepositOpen p c s = sendDepositRefuse c.src c.tag code none s := by
  have notFull : ¬ 8 ≤ s.rau.deposits.length := by omega
  simp only [takeDepositOpen, find_depositor_eq_none absent, notFull, decide_false, Bool.and_false, Bool.false_eq_true, if_false,
    openForWriting, refused]

/-- The entry of a deposit just opened. -/
def openedEntry (p : Fin 8) (c : Cell) (k : MsgKind) (h now : Nat) : DepositEntry :=
  { handle := h, station := p, context := c.tag.toNat, kind := k, expected := 0, assembly := none, lastHeard := now
    lastWritten := none, lastPage := none }

theorem takeDepositOpen_of_opened {s : State} {c : Cell} {p : Fin 8} {k : MsgKind}
    (absent : ∀ e ∈ s.rau.deposits, e.station = p → e.context ≠ c.tag.toNat) (room : s.rau.deposits.length < 8)
    (accepted : openRefusal s (field c.payload 0 2) (msgKindOf (field c.payload 2 1)) = none)
    (kind : msgKindOf (field c.payload 2 1) = some k) : takeDepositOpen p c s
      = toDepositor (openedEntry p c k (lowestFree s) s.cfu.stationTime) kindDepositAccept (be2 (lowestFree s))
          ((modMailbox (field c.payload 0 2) (countOpen k) (s.setMsgAt (lowestFree s)
            (some (freshMsg k (field c.payload 0 2) (.peer p c.tag.toNat))))).modRau fun r =>
              { r with deposits := r.deposits ++ [openedEntry p c k (lowestFree s) s.cfu.stationTime] }) := by
  have notFull : ¬ 8 ≤ s.rau.deposits.length := by omega
  have only := storeOnly_setMsgAt (lowestFree s) (some (freshMsg k (field c.payload 0 2) (.peer p c.tag.toNat))) s
  have time : (modMailbox (field c.payload 0 2) (countOpen k) (s.setMsgAt (lowestFree s)
      (some (freshMsg k (field c.payload 0 2) (.peer p c.tag.toNat))))).cfu.stationTime = s.cfu.stationTime := by
    rw [modMailbox, modMsc_cfu, only.cfu]
  rw [kind] at accepted
  simp only [takeDepositOpen, find_depositor_eq_none absent, notFull, decide_false, Bool.and_false, Bool.false_eq_true, if_false,
    openForWriting, kind, accepted, Option.getD_some, time]
  rfl

theorem free_of_accepted {s : State} {mailbox : Nat} {kind : Option MsgKind} (accepted : openRefusal s mailbox kind = none) :
    s.msc.msgs.items.any (·.isNone) = true := by
  by_contra none_free
  have some_refusal : openRefusal s mailbox kind ≠ none := by
    by_cases bad : 999 < mailbox ∨ kind = none
    · rw [openRefusal_of_bad bad]
      exact Option.some_ne_none _
    · rw [not_or, not_lt] at bad
      obtain ⟨known, named⟩ := bad
      obtain ⟨k, rfl⟩ := Option.ne_none_iff_exists'.mp named
      rw [openRefusal_of_known k known]
      cases mailbox? s mailbox with
      | none => (repeat' split) <;> simp
      | some b =>
        have full : s.msc.msgs.items.any (·.isNone) = false := Bool.eq_false_iff.mpr none_free
        simp only [Option.map_some, Option.getD_some, roomRefusal, full, if_true]
        (repeat' split) <;> simp
  exact some_refusal accepted

/-- A DEPOSIT_OPEN that is accepted for a handle. -/
structure Opened (c : Cell) (p : Fin 8) (k : MsgKind) (h : Nat) (s t : State) : Prop where
  free : s.msgAt h = none ∧ ∀ j, j < h → s.msgAt j ≠ none
  record : t.msgAt h = some (freshMsg k (field c.payload 0 2) (.peer p c.tag.toNat))
  deposits : t.rau.deposits = s.rau.deposits ++ [openedEntry p c k h s.cfu.stationTime]
  clc : t.clc = (offerOther (ownCell s 4 (BitVec.ofNat 4 p.val) kindDepositAccept c.tag (be2 h)) 0 none (popCell s)).clc
  ctx : t.ctx = s.ctx

theorem exec_depositOpen_of_opened {s : State} {c : Cell} {p : Fin 8} {k : MsgKind} (q : s.Quiet) (from_ : FromPeer s c kindDepositOpen p)
    (absent : ∀ e ∈ s.rau.deposits, e.station = p → e.context ≠ c.tag.toNat) (room : s.rau.deposits.length < 8)
    (accepted : openRefusal s (field c.payload 0 2) (msgKindOf (field c.payload 2 1)) = none)
    (kind : msgKindOf (field c.payload 2 1) = some k) : ∃ t h, exec .depositOpen s = .next t ∧ Opened c p k h s t := by
  have free := free_of_accepted accepted
  obtain ⟨lt, first⟩ := lowestFree_spec free
  have opens := takeDepositOpen_of_opened (s := popCell s) absent room accepted kind
  have only := storeOnly_setMsgAt (lowestFree s) (some (freshMsg k (field c.payload 0 2) (.peer p c.tag.toNat))) (popCell s)
  have record := msgAt_setMsgAt lt (some (freshMsg k (field c.payload 0 2) (.peer p c.tag.toNat))) (popCell s)
  have clc := setMsgAt_clc (lowestFree s) (some (freshMsg k (field c.payload 0 2) (.peer p c.tag.toNat))) (popCell s)
  change takeDepositOpen p c (popCell s) = toDepositor _ _ _ ((modMailbox _ _ ((popCell s).setMsgAt (lowestFree s) _)).modRau _) at opens
  generalize (popCell s).setMsgAt (lowestFree s) (some (freshMsg k (field c.payload 0 2) (.peer p c.tag.toNat))) = u at *
  refine ⟨_, lowestFree s, handPeer_eq from_ opens ?_, first, ?_, ?_, ?_, ?_⟩
  · refine offerOther_none_quiet _ _ ?_
    exact (only.quiet (s := popCell s) q)
  · exact (msgAt_congr (congrArg Msc.msgs (offerOther_msc ..)) _).trans record
  · rw [toDepositor, offerOther_rau]
    exact congrArg (fun r => r.deposits ++ _) only.rau
  · refine offerOther_none_clc_congr ?_ clc
    have named := ofNat_tag c
    refine (congrArg (fun tag => ownCell u 4 (BitVec.ofNat 4 p.val) kindDepositAccept tag (be2 (lowestFree s))) named).trans ?_
    exact ownCell_congr only.station ..
  · rw [toDepositor, offerOther_ctx]
    exact only.ctx

/-! ### DEPOSIT_CLOSE (R130) -/

theorem takeDepositClose_of_absent {s : State} {c : Cell} {p : Fin 8} (absent : entryOf s (field c.payload 0 2) p c.tag.toNat = none) :
    takeDepositClose p c s = sendDepositRefuse c.src c.tag codeNotOpen (some (field c.payload 0 2)) s := by
  simp only [takeDepositClose, absent]

/-- The length of a message when the close names its last block. -/
def namedLength (c : Cell) (e : DepositEntry) (m : Msg) : Nat :=
  if m.kind ≠ .fax ∧ e.lastWritten = some (field c.payload 3 2) then 1016 * (m.count - 1) + field c.payload 5 2 else m.length

/-- The state in which a DEPOSIT_CLOSE closes: its sender heard, and the length set when the message has blocks. -/
structure ReadyToClose (c : Cell) (e : DepositEntry) (m m' : Msg) (s t : State) : Prop where
  state : t = { s with msc := { s.msc with msgs := t.msc.msgs } }
  record : t.msgAt (field c.payload 0 2) = some m'
  others : ∀ j, j ≠ field c.payload 0 2 → t.msgAt j = s.msgAt j
  length : ∃ n, m' = { m with length := n } ∧ (m.kind = .fax → n = m.length) ∧ (0 < m.count → n = namedLength c e m)

theorem readyToClose_setLastSamples {s : State} {c : Cell} {e : DepositEntry} {m : Msg} (entry : depositEntry? s (field c.payload 0 2) = some e)
    (record : s.msgAt (field c.payload 0 2) = some m) (kind : m.kind = e.kind) : ∃ m', ReadyToClose c e m m' s
      (setLastSamples (field c.payload 0 2) (field c.payload 3 2) (field c.payload 5 2) s) := by
  by_cases sets : e.kind ≠ .fax ∧ e.lastWritten = some (field c.payload 3 2) ∧ 0 < m.count
  · have run : setLastSamples (field c.payload 0 2) (field c.payload 3 2) (field c.payload 5 2) s
        = s.setMsgAt (field c.payload 0 2) (some { m with length := 1016 * (m.count - 1) + field c.payload 5 2 }) := by
      simp [setLastSamples, entry, record, sets]
    obtain ⟨notFax, last, _⟩ := sets
    rw [← kind] at notFax
    rw [run]
    refine ⟨_, setMsgAt_eq .., msgAt_setMsgAt (lt_of_msgAt record) .., fun j other => msgAt_setMsgAt_ne other .., _, rfl,
      fun fax => absurd fax notFax, fun _ => ?_⟩
    rw [namedLength, if_pos ⟨notFax, last⟩]
  · have run : setLastSamples (field c.payload 0 2) (field c.payload 3 2) (field c.payload 5 2) s = s := by
      simp only [setLastSamples, entry, record]
      refine if_neg ?_
      rw [Bool.and_eq_true, Bool.and_eq_true, bne_iff_ne, beq_iff_eq, decide_eq_true_eq]
      exact fun h => sets ⟨h.1.1, h.1.2, h.2⟩
    rw [run]
    refine ⟨m, rfl, record, fun _ _ => rfl, m.length, rfl, fun _ => rfl, fun some_blocks => ?_⟩
    rw [namedLength, if_neg (fun h => sets ⟨by rw [← kind]; exact h.1, h.2, some_blocks⟩)]

theorem takeDepositClose_of_entry {s : State} {c : Cell} {p : Fin 8} {e : DepositEntry}
    (entry : entryOf s (field c.payload 0 2) p c.tag.toNat = some e) (idle : e.assembly = none) : takeDepositClose p c s
      = closeEntry (field c.payload 0 2) (byteAt c.payload 2) true (setLastSamples (field c.payload 0 2) (field c.payload 3 2)
          (field c.payload 5 2) (heardDepositor (field c.payload 0 2) s)) := by
  obtain ⟨found, _, _⟩ := entryOf_eq_some.mp entry
  have same := writeAssembly_of_none (depositEntry?_heard found) idle
  rw [← heardDepositor_eq] at same
  simp only [takeDepositClose, entry, same]

theorem map_heard_filter (f : DepositEntry → DepositEntry) (handles : ∀ x, (f x).handle = x.handle) (h : Nat) (list : List DepositEntry) :
    (list.map fun x => if x.handle = h then f x else x).filter (fun x => x.handle != h) = list.filter fun x => x.handle != h := by
  induction list with
  | nil => rfl
  | cons x list ih =>
    rw [List.map_cons, List.filter_cons, List.filter_cons, ih]
    by_cases named : x.handle = h <;> simp [named, handles]

/-- R113: the blocks that a close with a reason keeps. -/
def keepOf (s : State) (m : Msg) (reason : Byte) : Nat :=
  let quiet := ((chainOf s m).reverse.takeWhile fun b => (byteAt (blockAt s b) 3).getLsbD 7).length
  if m.kind = .fax then (if m.length = 0 then 0 else m.pageMark)
  else if (reason = reasonSilence ∨ reason = reasonFarEndClear) ∧ quiet = m.count then 0
  else if (reason = reasonSilence ∨ reason = reasonFarEndClear) ∧ 2 ≤ quiet then m.count - (quiet - 1) else m.count

theorem trims_iff (reason : Byte) : trims reason = true ↔ reason = reasonSilence ∨ reason = reasonFarEndClear := by
  rw [trims, Bool.or_eq_true, beq_iff_eq, beq_iff_eq]

theorem keptCount_eq (s : State) (m : Msg) (reason : Byte) : keptCount s m reason = keepOf s m reason := by
  have tail : ((chainOf s m).reverse.takeWhile fun b => (byteAt (blockAt s b) 3).getLsbD 7).length = quietTail s m := rfl
  by_cases fax : m.kind = .fax
  · simp only [keptCount, keepOf, fax, if_true]
  · simp only [keptCount, keepOf, fax, if_false, tail]
    by_cases trim : reason = reasonSilence ∨ reason = reasonFarEndClear
    · simp only [(trims_iff reason).mpr trim, if_true, trim, true_and]
    · have whole : trims reason = false := Bool.eq_false_iff.mpr (mt (trims_iff reason).mp trim)
      simp only [whole, Bool.false_eq_true, if_false, trim, false_and]

theorem keepOf_le {s : State} {m : Msg} (reason : Byte) (mark : m.pageMark ≤ m.count) : keepOf s m reason ≤ m.count := by
  unfold keepOf
  dsimp only
  split
  · split
    · exact Nat.zero_le _
    · exact mark
  · split
    · exact Nat.zero_le _
    · split
      · exact Nat.sub_le ..
      · exact Nat.le_refl _

namespace ReadyToClose

variable {c : Cell} {e : DepositEntry} {m m' : Msg} {s t : State}

theorem storeOnly (r : ReadyToClose c e m m' s t) : StoreOnly s t := by
  rw [r.state]
  exact storeOnly_modMsc (fun x => { x with msgs := t.msc.msgs }) s

theorem chain (r : ReadyToClose c e m m' s t) : chainOf t m' = chainOf s m := by
  obtain ⟨n, same, _⟩ := r.length
  rw [same, chainOf, r.state]
  rfl

theorem under (r : ReadyToClose c e m m' s t) {w : Writer} (before : openUnder s (field c.payload 0 2) w = some m) :
    openUnder t (field c.payload 0 2) w = some m' := by
  obtain ⟨n, same, _⟩ := r.length
  have passes := (Option.filter_eq_some_iff.mp before).2
  refine Option.filter_eq_some_iff.mpr ⟨r.record, ?_⟩
  rw [r.state, same]
  exact passes

theorem keep (r : ReadyToClose c e m m' s t) (reason : Byte) : keptCount t m' reason = keepOf s m reason := by
  have chain := r.chain
  obtain ⟨n, same, fax, _⟩ := r.length
  have blocks : blockAt t = blockAt s := by
    funext b
    rw [r.state]
    rfl
  rw [keptCount_eq, keepOf, keepOf, chain, blocks, same]
  dsimp only
  by_cases isFax : m.kind = .fax
  · rw [fax isFax]
  · simp only [isFax, if_false]

end ReadyToClose

/-- The record that a DEPOSIT_CLOSE leaves of a message of which it keeps some blocks. -/
def closedMsg (c : Cell) (e : DepositEntry) (s : State) (m : Msg) (keep : Nat) (reason : Byte) : Msg := { m with
  state := .closed, stamp := some s.cfu.minute, writer := none, count := keep
  last := if keep = m.count then m.last else ((chainOf s m).take keep).getLast?
  length := if m.kind ≠ .fax ∧ keep < m.count then 1016 * keep else namedLength c e m
  truncated := m.truncated || reason == reasonStoreFull || reason == reasonWriterLost
    || (m.kind == .fax && reason != reasonPagesDone) }

theorem closedRecord_of_ready {c : Cell} {e : DepositEntry} {m m' : Msg} {s t : State} {keep : Nat} (r : ReadyToClose c e m m' s t)
    (reason : Byte) (some_blocks : 0 < m.count) : closedRecord t m' keep reason = closedMsg c e s m keep reason := by
  have chain := r.chain
  have minute : t.cfu.minute = s.cfu.minute := by rw [r.storeOnly.cfu]
  obtain ⟨n, same, _, named⟩ := r.length
  rw [named some_blocks] at same
  rw [closedRecord, chain, minute, same, closedMsg]
  simp only [truncates, Bool.or_assoc]

end Sys2Proof.Machine
end

section
/-! PROOFS. The family of the deposits at the home, what a DEPOSIT_CLOSE leaves of the message, the mailbox and the entry
(R106, R113, R114, R117, R130). -/
namespace Sys2Proof.Machine

/-! ### The mailbox of a message (R107) -/

theorem mailbox?_map {s t : State} {f : Mbx → Mbx} (numbers : ∀ x, (f x).number = x.number) (mbxs : t.msc.mbxs = s.msc.mbxs.map f)
    (n : Nat) : mailbox? t n = (mailbox? s n).map f := by
  have named : (fun x : Mbx => x.number == n) ∘ f = fun x => x.number == n := by
    funext x
    simp only [Function.comp_apply, numbers]
  rw [mailbox?, mbxs, List.find?_map, named, mailbox?]

theorem mailbox?_modMailbox {s : State} {n : Nat} {b : Mbx} {f : Mbx → Mbx} (numbers : ∀ x, (f x).number = x.number)
    (box : mailbox? s n = some b) : mailbox? (modMailbox n f s) n = some (f b) := by
  have number : b.number = n := by simpa using List.find?_some box
  rw [mailbox?_map (s := s) (f := fun x => if x.number = n then f x else x) (fun x => by split <;> simp [numbers]) rfl, box,
    Option.map_some, if_pos number]

/-- R114: the old greeting of a mailbox deleted. -/
def oldGone (old : Option Nat) (s : State) : State :=
  match old with
  | some h => deleteMessage h s
  | none => s

theorem storeOnly_oldGone (old : Option Nat) (s : State) : StoreOnly s (oldGone old s) := by
  cases old with
  | none => exact StoreOnly.refl s
  | some h => exact storeOnly_deleteMessage h s

theorem msgAt_oldGone_ne {old : Option Nat} {j : Nat} (other : old ≠ some j) (s : State) : (oldGone old s).msgAt j = s.msgAt j := by
  cases old with
  | none => rfl
  | some h => exact msgAt_deleteMessage_ne (fun same => other (by rw [same])) s

theorem mailbox?_oldGone (old : Option Nat) {s : State} {n : Nat} {b : Mbx} (box : mailbox? s n = some b) :
    ∃ b', mailbox? (oldGone old s) n = some b' := by
  cases old with
  | none => exact ⟨b, box⟩
  | some h =>
    cases record : s.msgAt h with
    | none =>
      refine ⟨b, ?_⟩
      rw [oldGone, deleteMessage_of_free record]
      exact box
    | some o =>
      refine ⟨unlisted o.mailbox h b, ?_⟩
      have mbxs : (deleteMessage h s).msc.mbxs = s.msc.mbxs.map (unlisted o.mailbox h) := by rw [deleteMessage_msc record]
      rw [oldGone, mailbox?_map (fun x => by unfold unlisted; split <;> rfl) mbxs, box, Option.map_some]

theorem length_freeBlocks_le (bs : List Nat) (s : State) : (freeBlocks bs s).clc.tx.length ≤ s.clc.tx.length + 1 := by
  unfold freeBlocks
  split
  · exact Nat.le_succ _
  · exact length_examineLevel_le _

theorem length_oldGone_le (old : Option Nat) (s : State) : (oldGone old s).clc.tx.length ≤ s.clc.tx.length + 1 := by
  cases old with
  | none => exact Nat.le_succ _
  | some h =>
    cases record : s.msgAt h with
    | none =>
      rw [oldGone, deleteMessage_of_free record]
      exact Nat.le_succ _
    | some m =>
      rw [oldGone, deleteMessage_eq record, unlistMessage_eq, modMsc_clc]
      simp only [deleteRecord, record]
      split
      · rw [freeMessage_eq record]
        refine (length_freeBlocks_le ..).trans ?_
        rw [setMsgAt_clc]
      · rw [setMsgAt_clc]
        exact Nat.le_succ _

theorem fileMessage_of_greeting {s : State} {h : Nat} {m : Msg} {b : Mbx} (greeting : m.kind = .greeting)
    (box : mailbox? s m.mailbox = some b) :
    fileMessage h m s = modMailbox m.mailbox (fileIn h m.kind) (oldGone b.greeting s) := by
  simp only [fileMessage, greeting, if_true, box, Option.bind_some, oldGone] <;>
    cases b.greeting <;> rfl

/-- R113, R114: a greeting that is kept whole, in place of the old one. -/
theorem closeEntry_of_greeting {s : State} {h : Nat} {e : DepositEntry} {m : Msg} {reason : Byte} {b : Mbx}
    (entry : depositEntry? s h = some e) (under : openUnder s h (.peer e.station e.context) = some m)
    (kept : keptCount s m reason = m.count) (some_kept : m.count ≠ 0) (greeting : m.kind = .greeting)
    (box : mailbox? s m.mailbox = some b) (other : b.greeting ≠ some h) :
    EntryStored h e m m.count reason s
      (modMailbox m.mailbox (fileIn h m.kind) (oldGone b.greeting (trimmed h m m.count reason s))) (closeEntry h reason true s) := by
  have record := msgAt_of_openUnder under
  have trim := trimmed_of_le reason record some_kept (Nat.le_refl _)
  have box' : mailbox? (trimmed h m m.count reason s) m.mailbox = some b := by
    rw [mailbox?, trim.mbxs]
    exact box
  have filed : fileMessage h (keptRecord m m.count reason) (trimmed h m m.count reason s)
      = modMailbox m.mailbox (fileIn h m.kind) (oldGone b.greeting (trimmed h m m.count reason s)) :=
    fileMessage_of_greeting greeting box'
  have only : StoreOnly (trimmed h m m.count reason s)
      (modMailbox m.mailbox (fileIn h m.kind) (oldGone b.greeting (trimmed h m m.count reason s))) :=
    (storeOnly_oldGone ..).trans (storeOnly_modMsc ..)
  have stands := msgAt_oldGone_ne other (trimmed h m m.count reason s)
  have stored := stored_closeMessage record kept some_kept (Nat.le_refl _) (by rw [filed]; exact only) (by rw [filed]; exact stands)
  have closed := closeEntry_of_stored entry under kept some_kept stored (by rw [filed]; exact trim.only.trans only)
  rwa [filed] at closed

/-! ### DEPOSIT_CLOSE (R130) -/

/-- The close of its sender's entry, on the state in which it is closed. -/
theorem exec_depositClose_of_entry {s : State} {c : Cell} {p : Fin 8} {e : DepositEntry} {m : Msg} (takes : homeTakes (popCell s) = true)
    (from_ : FromPeer s c kindDepositClose p) (entry : entryOf s (field c.payload 0 2) p c.tag.toNat = some e)
    (under : openUnder s (field c.payload 0 2) (.peer p c.tag.toNat) = some m) (idle : e.assembly = none) (kind : m.kind = e.kind) :
    ∃ m' u, ReadyToClose c e m m' (heardDepositor (field c.payload 0 2) (popCell s)) u
      ∧ depositEntry? u (field c.payload 0 2) = some (heardEntry s e)
      ∧ openUnder u (field c.payload 0 2) (.peer (heardEntry s e).station (heardEntry s e).context) = some m'
      ∧ ((closeEntry (field c.payload 0 2) (byteAt c.payload 2) true u).Quiet →
          exec .depositClose s = .next (closeEntry (field c.payload 0 2) (byteAt c.payload 2) true u)) := by
  obtain ⟨found, station, context⟩ := entryOf_eq_some.mp entry
  have found' := depositEntry?_heard (s := popCell s) found
  obtain ⟨m', ready⟩ := readyToClose_setLastSamples (s := heardDepositor (field c.payload 0 2) (popCell s)) (e := heardEntry s e)
    (m := m) found' (msgAt_of_openUnder under) kind
  refine ⟨m', _, ⟨ready.state, ready.record, ready.others, ready.length⟩, ?_, ?_, fun quiet => ?_⟩
  · rw [depositEntry?_congr ready.storeOnly.rau]
    exact found'
  · refine ready.under ?_
    change openUnder s _ (.peer e.station e.context) = some m
    rw [station, context]
    exact under
  · exact handPeer_eq from_ ((if_pos takes).trans (takeDepositClose_of_entry (s := popCell s) entry idle)) quiet

/-- What a DEPOSIT_CLOSE does to the entries and to the reply. -/
theorem heard_filter (s : State) (h : Nat) : (heardDepositor h s).rau.deposits.filter (fun x => x.handle != h)
    = s.rau.deposits.filter fun x => x.handle != h := map_heard_filter (heardEntry s) (fun _ => rfl) h s.rau.deposits

/-- The DEPOSIT_CLOSED that a home sends. -/
def closedCell (s : State) (p : Fin 8) (c : Cell) (payload : List Byte) : Cell :=
  ownCell s 4 (BitVec.ofNat 4 p.val) kindDepositClosed c.tag payload

theorem closedCell_of_entry {s u : State} {c : Cell} {p : Fin 8} {e : DepositEntry} (station : e.station = p)
    (context : e.context = c.tag.toNat) (same : u.cfu.station = s.cfu.station) (payload : List Byte) :
    ownCell u 4 (BitVec.ofNat 4 (heardEntry s e).station.val) kindDepositClosed (BitVec.ofNat 8 (heardEntry s e).context) payload
      = closedCell s p c payload := by
  have tag := ofNat_tag c
  rw [← context] at tag
  change ownCell u 4 (BitVec.ofNat 4 e.station.val) kindDepositClosed (BitVec.ofNat 8 e.context) payload = _
  rw [tag, station]
  exact ownCell_congr same ..

/-- What a close with no block kept leaves at the home. -/
theorem depositClose_of_empty {s : State} {c : Cell} {p : Fin 8} {e : DepositEntry} {m : Msg} (q : s.Quiet)
    (takes : homeTakes (popCell s) = true) (from_ : FromPeer s c kindDepositClose p)
    (entry : entryOf s (field c.payload 0 2) p c.tag.toNat = some e)
    (under : openUnder s (field c.payload 0 2) (.peer p c.tag.toNat) = some m) (idle : e.assembly = none) (kind : m.kind = e.kind)
    (kept : keepOf s m (byteAt c.payload 2) = 0) : ∃ t, exec .depositClose s = .next t ∧ t.msgAt (field c.payload 0 2) = none
      ∧ t.rau.deposits = s.rau.deposits.filter (fun x => x.handle != field c.payload 0 2)
      ∧ t.msc.mbxs = s.msc.mbxs.map (fun b => if b.number = m.mailbox then uncountOpen m.kind b else b)
      ∧ t.msc.freeList = s.msc.freeList ++ chainOf s m
      ∧ t.clc = (offerOther (closedCell s p c (be2 (field c.payload 0 2) ++ [codeEmpty, 0, 0, 0])) 0 none
          (freeBlocks (chainOf s m) (popCell s))).clc := by
  obtain ⟨_, station, context⟩ := entryOf_eq_some.mp entry
  obtain ⟨m', u, ready, found, under', run⟩ := exec_depositClose_of_entry takes from_ entry under idle kind
  have emptied := closeEntry_of_empty found under' ((ready.keep _).trans kept)
  have chain : chainOf u m' = chainOf s m := ready.chain
  have state := ready.state
  have only := ready.storeOnly
  obtain ⟨n, same, _⟩ := ready.length
  refine ⟨_, run (emptied.quiet (only.quiet q)), emptied.record, ?_, ?_, ?_, ?_⟩
  · rw [emptied.deposits, only.rau]
    exact heard_filter (popCell s) _
  · rw [emptied.mbxs, same, state]
    rfl
  · rw [emptied.freeList, chain, state]
    rfl
  · rw [emptied.clc, chain]
    refine offerOther_none_clc_congr (closedCell_of_entry station context only.station _) ?_
    exact freeBlocks_clc_congr _ (by rw [state]; rfl) only.station (by rw [state]; rfl) (by rw [state]; rfl)

/-- What a close with some blocks kept leaves at the home, for a message that joins a list. -/
theorem depositClose_of_list {s : State} {c : Cell} {p : Fin 8} {e : DepositEntry} {m : Msg} {keep : Nat} (q : s.Quiet)
    (takes : homeTakes (popCell s) = true) (from_ : FromPeer s c kindDepositClose p)
    (entry : entryOf s (field c.payload 0 2) p c.tag.toNat = some e)
    (under : openUnder s (field c.payload 0 2) (.peer p c.tag.toNat) = some m) (idle : e.assembly = none) (kind : m.kind = e.kind)
    (mark : m.pageMark ≤ m.count) (kept : keepOf s m (byteAt c.payload 2) = keep) (some_kept : 0 < keep) (list : m.kind ≠ .greeting) :
    ∃ t, exec .depositClose s = .next t
      ∧ t.msgAt (field c.payload 0 2) = some (closedMsg c e s m keep (byteAt c.payload 2))
      ∧ t.rau.deposits = s.rau.deposits.filter (fun x => x.handle != field c.payload 0 2)
      ∧ t.msc.mbxs = s.msc.mbxs.map (fun b => if b.number = m.mailbox then fileIn (field c.payload 0 2) m.kind b else b)
      ∧ t.msc.freeList = s.msc.freeList ++ (if keep = m.count then [] else (chainOf s m).drop keep)
      ∧ t.clc = (offerOther (closedCell s p c (be2 (field c.payload 0 2) ++ [codeClosed] ++ be2 keep
            ++ be1 (closedMsg c e s m keep (byteAt c.payload 2)).flags)) 0 none
          (sendEvent none (.messageStored m.mailbox (field c.payload 0 2) m.kind)
            (if keep = m.count then popCell s else freeBlocks ((chainOf s m).drop keep) (popCell s)))).clc := by
  obtain ⟨_, station, context⟩ := entryOf_eq_some.mp entry
  obtain ⟨m', u, ready, found, under', run⟩ := exec_depositClose_of_entry takes from_ entry under idle kind
  have le : keep ≤ m.count := by rw [← kept]; exact keepOf_le _ mark
  have closed : closedRecord u m' keep (byteAt c.payload 2) = closedMsg c e s m keep (byteAt c.payload 2) :=
    closedRecord_of_ready ready _ (Nat.lt_of_lt_of_le some_kept le)
  have chain : chainOf u m' = chainOf s m := ready.chain
  have state := ready.state
  have only := ready.storeOnly
  have kept' := (ready.keep (byteAt c.payload 2)).trans kept
  obtain ⟨n, same, _⟩ := ready.length
  have count : m'.count = m.count := by rw [same]
  have box : m'.mailbox = m.mailbox := by rw [same]
  have kind' : m'.kind = m.kind := by rw [same]
  have stored := closeEntry_of_list found under' kept' (Nat.pos_iff_ne_zero.mp some_kept) (by rw [count]; exact le) (by rw [kind']; exact list)
  have trim := trimmed_of_le (byteAt c.payload 2) ready.record (Nat.pos_iff_ne_zero.mp some_kept) (by rw [count]; exact le)
  refine ⟨_, run (stored.quiet (only.quiet q)), stored.record.trans (congrArg some closed), ?_, ?_, ?_, ?_⟩
  · rw [stored.deposits, only.rau]
    exact heard_filter (popCell s) _
  · rw [stored.mbxs, modMailbox, modMsc_msc, trim.mbxs, box, kind', state]
    rfl
  · rw [stored.freeList, modMailbox, modMsc_msc, trim.freeList, chain, count, state]
    rfl
  · rw [stored.clc, closed, box, kind']
    refine offerOther_none_clc_congr (closedCell_of_entry station context only.station _) (sendEvent_clc_congr _ _ ?_ ?_)
    · rw [modMailbox, modMsc_clc, trim.clc, afterTrim, chain, count]
      split
      · rw [state]
        rfl
      · exact freeBlocks_clc_congr _ (by rw [state]; rfl) only.station (by rw [state]; rfl) (by rw [state]; rfl)
    · have trimmed : (trimmed (field c.payload 0 2) m' keep (byteAt c.payload 2) u).cfu.station = s.cfu.station :=
        (only.trans trim.only).station
      refine Eq.trans trimmed ?_
      split
      · rfl
      · exact (storeOnly_freeBlocks ((chainOf s m).drop keep) (popCell s)).station.symm

/-- What a close leaves at the home of a greeting that it keeps whole. -/
structure GreetingStored (h : Nat) (b : Mbx) (m : Msg) (closed : Msg) (reply : Cell) (s t : State) : Prop where
  record : t.msgAt h = some closed
  deposits : t.rau.deposits = s.rau.deposits.filter fun x => x.handle != h
  box : ∃ b', mailbox? t m.mailbox = some b' ∧ b'.greeting = some h ∧ b'.greetingOpen = false
  alone : b.greeting = none → t.msc.freeList = s.msc.freeList
  replaced : ∀ old o, b.greeting = some old → s.msgAt old = some o →
    (o.readers = [] → t.msgAt old = none ∧ t.msc.freeList = s.msc.freeList ++ chainOf s o)
    ∧ (o.readers ≠ [] → t.msgAt old = some { o with state := .deleting } ∧ t.msc.freeList = s.msc.freeList)
  told : s.clc.tx.length ≤ 20 → ∃ y ∈ t.clc.tx, y.cell = reply

/-- What becomes of the old greeting of a mailbox. -/
theorem oldGone_spec {s t : State} {old : Nat} {o : Msg} (record : t.msgAt old = some o) (links : t.msc.links = s.msc.links)
    (free : t.msc.freeList = s.msc.freeList) :
    (o.readers = [] → (oldGone (some old) t).msgAt old = none ∧ (oldGone (some old) t).msc.freeList = s.msc.freeList ++ chainOf s o)
    ∧ (o.readers ≠ [] → (oldGone (some old) t).msgAt old = some { o with state := .deleting }
        ∧ (oldGone (some old) t).msc.freeList = s.msc.freeList) := by
  have chain : chainOf t o = chainOf s o := by rw [chainOf, links, chainOf]
  have gone : (oldGone (some old) t).msgAt old = deletedRecord o := msgAt_deleteMessage record
  have freed : (oldGone (some old) t).msc.freeList = t.msc.freeList ++ if o.readers = [] then chainOf t o else [] := by
    rw [oldGone, deleteMessage_msc record]
  rw [chain, free] at freed
  refine ⟨fun none_left => ⟨?_, ?_⟩, fun some_left => ⟨?_, ?_⟩⟩
  · rw [gone, deletedRecord, if_pos none_left]
  · rw [freed, if_pos none_left]
  · rw [gone, deletedRecord, if_neg some_left]
  · rw [freed, if_neg some_left, List.append_nil]

theorem depositClose_of_greeting {s : State} {c : Cell} {p : Fin 8} {e : DepositEntry} {m : Msg} {b : Mbx} (q : s.Quiet)
    (takes : homeTakes (popCell s) = true) (from_ : FromPeer s c kindDepositClose p)
    (entry : entryOf s (field c.payload 0 2) p c.tag.toNat = some e)
    (under : openUnder s (field c.payload 0 2) (.peer p c.tag.toNat) = some m) (idle : e.assembly = none) (kind : m.kind = e.kind)
    (kept : keepOf s m (byteAt c.payload 2) = m.count) (some_kept : 0 < m.count) (greeting : m.kind = .greeting)
    (box : mailbox? s m.mailbox = some b) (other : b.greeting ≠ some (field c.payload 0 2)) :
    ∃ t, exec .depositClose s = .next t ∧ GreetingStored (field c.payload 0 2) b m (closedMsg c e s m m.count (byteAt c.payload 2))
      (closedCell s p c (be2 (field c.payload 0 2) ++ [codeClosed] ++ be2 m.count
        ++ be1 (closedMsg c e s m m.count (byteAt c.payload 2)).flags)) s t := by
  obtain ⟨_, station, context⟩ := entryOf_eq_some.mp entry
  obtain ⟨m', u, ready, found, under', run⟩ := exec_depositClose_of_entry takes from_ entry under idle kind
  have closed : closedRecord u m' m.count (byteAt c.payload 2) = closedMsg c e s m m.count (byteAt c.payload 2) :=
    closedRecord_of_ready ready _ some_kept
  have state := ready.state
  have only := ready.storeOnly
  have kept' := (ready.keep (byteAt c.payload 2)).trans kept
  obtain ⟨n, same, _⟩ := ready.length
  have count : m'.count = m.count := by rw [same]
  have mailbox : m'.mailbox = m.mailbox := by rw [same]
  have kind' : m'.kind = m.kind := by rw [same]
  have box' : mailbox? u m'.mailbox = some b := by
    rw [mailbox, mailbox?, state]
    exact box
  have stored := closeEntry_of_greeting found under' (by rw [kept', count]) (by rw [count]; exact Nat.pos_iff_ne_zero.mp some_kept)
    (by rw [kind']; exact greeting) box' other
  have trim := trimmed_of_le (byteAt c.payload 2) ready.record (by rw [count]; exact Nat.pos_iff_ne_zero.mp some_kept) (Nat.le_refl m'.count)
  have links : (trimmed (field c.payload 0 2) m' m'.count (byteAt c.payload 2) u).msc.links = s.msc.links := by
    rw [trimmed, if_neg (Nat.lt_irrefl _), setMsgAt_eq, state]
    rfl
  have free := trim.freeList
  have trimClc := trim.clc
  have freeU : u.msc.freeList = s.msc.freeList := by rw [state]; rfl
  have clcU : u.clc = (popCell s).clc := by rw [state]; rfl
  rw [if_pos rfl, List.append_nil, freeU] at free
  rw [afterTrim, if_pos rfl, clcU] at trimClc
  rw [count, mailbox, kind'] at stored
  rw [count] at trim links free trimClc
  generalize trimmed (field c.payload 0 2) m' m.count (byteAt c.payload 2) u = v at *
  refine ⟨_, run (stored.quiet (only.quiet q)), stored.record.trans (congrArg some closed), ?_, ?_, fun none_old => ?_, fun old o named record => ?_, fun room => ?_⟩
  · rw [stored.deposits, only.rau]
    exact heard_filter (popCell s) _
  · have boxV : mailbox? v m.mailbox = some b := by
      rw [mailbox?, trim.mbxs, ← mailbox]
      exact box'
    obtain ⟨b', boxO⟩ := mailbox?_oldGone b.greeting boxV
    have numbers (x : Mbx) : (fileIn (field c.payload 0 2) m.kind x).number = x.number := by
      unfold fileIn
      split <;> rfl
    refine ⟨fileIn (field c.payload 0 2) m.kind b', ?_, ?_, ?_⟩
    · rw [mailbox?, stored.mbxs]
      exact mailbox?_modMailbox numbers boxO
    · rw [fileIn, if_pos greeting]
    · rw [fileIn, if_pos greeting]
  · rw [stored.freeList, none_old]
    exact free
  · have different : old ≠ field c.payload 0 2 := fun e => other (by rw [named, e])
    have recordV : v.msgAt old = some o := by
      rw [trim.others old different, ready.others old different]
      exact record
    have spec := oldGone_spec recordV links free
    rw [stored.others old different, stored.freeList, named]
    exact spec
  · have len : v.clc.tx.length ≤ 20 := by
      rw [trimClc]
      exact room
    have sent := length_sendEvent_le none (.messageStored m.mailbox (field c.payload 0 2) m.kind)
      (modMailbox m.mailbox (fileIn (field c.payload 0 2) m.kind) (oldGone b.greeting v))
    have gone := length_oldGone_le b.greeting v
    rw [modMailbox, modMsc_clc] at sent
    rw [stored.clc, closed, mailbox, kind', closedCell_of_entry (s := s) station context (by exact only.station)]
    exact mem_offerOther_none (by rw [modMailbox]; omega) (by rfl) (by decide : kindDepositClosed ≠ kindClaim)

/-- Settles O43: the checks in their order, the open by the lowest FREE handle, and the close by the blocks it keeps. -/
theorem depositsOpenAndCloseAtTheHome : Obligations.DepositsOpenAndCloseAtTheHome := by
  refine ⟨openRefusal_in_order, fun s c p q ready configured => ?_⟩
  intro tell
  have takes : homeTakes (popCell s) = true := by simpa [homeTakes] using ⟨ready, configured⟩
  refine ⟨fun open_ absent => ?opens, fun close => ?closes⟩
  case opens =>
    have src := src_of_fromPeer open_
    have refuses (code : Byte) : sendDepositRefuse c.src c.tag code none (popCell s)
        = tell kindDepositRefuse [code, 0xFF, 0xFF] (popCell s) := by
      rw [src]
      rfl
    have quiet (code : Byte) : (tell kindDepositRefuse [code, 0xFF, 0xFF] (popCell s)).Quiet :=
      offerOther_none_quiet (s := popCell s) _ _ q
    refine ⟨fun full => ?_, fun code room refused => ?_, fun k room accepted kind => ?_⟩
    · exact handPeer_eq open_ ((takeDepositOpen_of_full (s := popCell s) ready configured absent full).trans (refuses _)) (quiet _)
    · exact handPeer_eq open_ ((takeDepositOpen_of_refused (s := popCell s) absent room refused).trans (refuses _)) (quiet _)
    · obtain ⟨t, h, run, opened⟩ := exec_depositOpen_of_opened q open_ absent room accepted kind
      exact ⟨t, h, run, opened.free, ⟨_, opened.record, rfl, rfl, rfl, rfl, rfl, rfl⟩, opened.deposits, opened.clc, opened.ctx⟩
  case closes =>
    intro h
    refine ⟨fun absent => ?_, fun e m entry under idle kind mark => ?_⟩
    · have refused := takeDepositClose_of_absent (s := popCell s) absent
      rw [src_of_fromPeer close] at refused
      exact handPeer_eq close ((if_pos takes).trans refused) (offerOther_none_quiet (s := popCell s) _ _ q)
    · intro reason chain quiet trim keep named closed inMailbox report
      refine ⟨fun none_kept => ?_, fun some_kept list => ?_, fun b some_kept whole greeting box other => ?_⟩
      · obtain ⟨t, run, record, deposits, mbxs, free, clc⟩ := depositClose_of_empty q takes close entry under idle kind none_kept
        exact ⟨t, run, record, deposits, mbxs, free, clc⟩
      · obtain ⟨t, run, record, deposits, mbxs, free, clc⟩ := depositClose_of_list q takes close entry under idle kind mark rfl some_kept list
        refine ⟨t, run, record, deposits, mbxs.trans ?_, free, clc⟩
        simp only [fileIn, list, if_false]
        rfl
      · obtain ⟨t, run, stored⟩ := depositClose_of_greeting q takes close entry under idle kind whole (by rw [← whole]; exact some_kept)
          greeting box other
        refine ⟨t, run, ?_, stored.deposits, stored.box, stored.alone, stored.replaced, ?_⟩
        · rw [stored.record]
          exact congrArg (fun n => some (closedMsg c e s m n reason)) whole.symm
        · intro room
          obtain ⟨y, mem, cell⟩ := stored.told room
          refine ⟨y, mem, cell.trans ?_⟩
          exact congrArg (fun n => closedCell s p c (be2 h ++ [codeClosed] ++ be2 n ++ be1 (closedMsg c e s m n reason).flags)) whole.symm

end Sys2Proof.Machine
end

section
/-! PROOFS. The family of the replies of a home at the depositor: what each makes of the outbound deposit record, and how the
end of a record reaches its session (R96, R124, R125, R128, R130, R131, R140, R146, R156). -/
namespace Sys2Proof.Machine

/-! ### The record of a call that ends with nothing to wind down (R67, R73) -/

theorem at_outdialDone (k : ContextId) (result : Byte) (s : State) :
    ∃ b, (outdialDone k result s).at k = { s.at k with outdialDone := b } := by
  unfold outdialDone
  dsimp only
  split
  · refine ⟨true, (at_modCtx _ _ _).trans ?_⟩
    rw [at_sendEvent]
  · exact ⟨(s.at k).outdialDone, rfl⟩

theorem at_endCall_of_silent {s : State} {k : ContextId} {cause : Byte} (h : clears cause = true) (call : inCall (s.at k) = true)
    (silent : Silent (s.at k)) :
    ∃ b d, (endCall k cause s).at k = clearingRecord { s.at k with announced := b, outdialDone := d } := by
  obtain ⟨b, announced⟩ := at_announceUnknown k s
  obtain ⟨d, done⟩ := at_outdialDone k cause (announceUnknown k s)
  refine ⟨b, d, ?_⟩
  rw [endCall_of_silent h call silent, at_enterClearing, at_sendEvent, done, announced]

/-! ### The end of a record at its session (R124, R140, R146, R156) -/

theorem afterDeposit_of_done {s : State} {k : ContextId} (notRecording : (s.at k).voice.activity ≠ .recording)
    (notOpening : (s.at k).session ≠ .fax ∨ (s.at k).fax.phase ≠ .opening) : afterDeposit k s = s := by
  have opens : ((s.at k).session = .fax && decide ((s.at k).fax.phase = .opening)) = false := by
    rcases notOpening with no | no <;> simp [no]
  simp only [afterDeposit, notRecording, decide_false, Bool.and_false, opens, Bool.false_eq_true, if_false, ite_self]

/-- R140: a recording of the answer script that ends with its deposit ends the call. -/
theorem depositEnds_of_script {s : State} {k : ContextId} {d : OutDeposit} (o : DepositOutcome) (kind : d.kind ≠ .fax)
    (connected : (s.at k).state = .connected) (voice : (s.at k).session = .voice) (running : (s.at k).voice.activity = .recording)
    (target : (s.at k).voice.recTarget = some (.outbound d.serial)) (script : (s.at k).voice.script = .answer) :
    (depositEnds k d o s).rau = (freeDeposit k s).rau
      ∧ ∃ x, (depositEnds k d o s).at k = clearingRecord x ∧ x.vcd.recording = false := by
  have recording : ((freeDeposit k s).at k).voice.activity = .recording := running
  have ours : ((freeDeposit k s).at k).voice.recTarget = some (.outbound d.serial) := target
  obtain ⟨x, abandoned, idle, _, _, sameScript, off, _, same⟩ :=
    abandonRecording_eq k (reportDeposit k d o (freeDeposit k s))
  rw [at_reportDeposit, at_freeDeposit] at sameScript same
  have atX : (abandonRecording k (reportDeposit k d o (freeDeposit k s))).at k = x := by rw [abandoned, at_modCtx]
  have drops : recordingOver k (abandonRecording k (reportDeposit k d o (freeDeposit k s)))
      = endCall k codeLocalDrop (abandonRecording k (reportDeposit k d o (freeDeposit k s))) := by
    rw [recordingOver, atX, sameScript, if_pos script]
  have state : x.state = .connected := (congrArg Context.state same : (callPart x).state = _).trans connected
  have session : x.session = .voice := (congrArg Context.session same : (callPart x).session = _).trans voice
  have silent : Silent x := ⟨by rw [state]; decide, fun _ => Or.inr ⟨session, by rw [idle]; decide, by rw [idle]; decide⟩⟩
  have call : inCall x = true := by rw [inCall_iff]; simp [state]
  rw [← atX] at silent call
  obtain ⟨b, done, record⟩ := at_endCall_of_silent (cause := codeLocalDrop) (by decide) call silent
  have reports := reports_endCall_of_silent (cause := codeLocalDrop) (by decide) call silent
  have ended : depositEnds k d o s = endCall k codeLocalDrop (abandonRecording k (reportDeposit k d o (freeDeposit k s))) := by
    simp only [depositEnds, kind, if_false, recordingDepositEnded, recording, ours, decide_true, Bool.and_self, if_true, drops]
    refine afterDeposit_of_done ?_ (Or.inl ?_)
    · rw [record]
      exact (nofun : Activity.none ≠ .recording)
    · rw [record]
      exact (nofun : SessionKind.none ≠ .fax)
  rw [ended]
  refine ⟨reports.rau.trans ?_, _, record, ?_⟩
  · rw [abandoned, modCtx_rau]
    exact (reports_reportDeposit k d o (freeDeposit k s)).rau
  · rw [atX]
    exact off

/-- The result that a fax receive takes from the end of its deposit (R156). -/
def depositResult (o : DepositOutcome) : Byte :=
  match o with
  | .refused cause => cause
  | .storeFull => codeStoreFull
  | .homeSilent => codeHomeSilent
  | .closed _ _ _ => codeClosedByHome

/-- A fax receive that disconnects when its deposit has ended. -/
def disconnected (result : Byte) (x : Context) : Context := { x with
  fax := { x.fax with target := none, build := [], result := some result, phase := .disconnecting, wait := none }
  pump := { x.pump with control := x.pump.control ++ [.disconnect] } }

theorem endReceive_of_frame (k : ContextId) (result : Byte) (s : State) :
    endReceive k true none result s = s.modCtx k (disconnected result) := by
  have composed : endReceive k true none result s = _ := (congrArg (State.modCtx k _) ((congrArg (State.modCtx k _) (modCtx_modCtx ..)).trans
    (modCtx_modCtx ..))).trans (modCtx_modCtx ..)
  exact composed.trans (modCtx_congr rfl)

theorem depositEnds_of_fax {s : State} {k : ContextId} {d : OutDeposit} (o : DepositOutcome) (kind : d.kind = .fax)
    (fax : (s.at k).session = .fax) (target : (s.at k).fax.target = some (.outbound d.serial))
    (phase : (s.at k).fax.phase ≠ .disconnecting) (notRecording : (s.at k).voice.activity ≠ .recording) :
    depositEnds k d o s = (freeDeposit k s).modCtx k (disconnected (depositResult o)) := by
  have runs : ((freeDeposit k s).at k).session = .fax ∧ ((freeDeposit k s).at k).fax.target = some (.outbound d.serial)
      ∧ ((freeDeposit k s).at k).fax.phase ≠ .disconnecting := ⟨fax, target, phase⟩
  obtain ⟨fax', target', phase'⟩ := runs
  have ended : faxDepositEnded k d o (freeDeposit k s) = (freeDeposit k s).modCtx k (disconnected (depositResult o)) := by
    rw [← endReceive_of_frame]
    have running : (decide (((freeDeposit k s).at k).session = .fax)
        && decide (((freeDeposit k s).at k).fax.target = some (.outbound d.serial))
        && (((freeDeposit k s).at k).fax.phase != .disconnecting)) = true := by simp [fax', target', phase']
    unfold faxDepositEnded
    refine (if_pos running).trans ?_
    cases o <;> rfl
  simp only [depositEnds, kind, if_true, ended]
  refine afterDeposit_of_done ?_ (Or.inr ?_)
  · rw [at_modCtx]
    exact notRecording
  · rw [at_modCtx]
    exact (nofun : FaxPhase.disconnecting ≠ .opening)

theorem depositEnds_of_fax_gone {s : State} {k : ContextId} {d : OutDeposit} (o : DepositOutcome) (kind : d.kind = .fax)
    (notRecording : (s.at k).voice.activity ≠ .recording) (gone : (s.at k).session ≠ .fax ∨ (s.at k).fax.phase = .disconnecting) :
    depositEnds k d o s = freeDeposit k s := by
  have stays : faxDepositEnded k d o (freeDeposit k s) = freeDeposit k s := by
    have over_ : ¬ ((decide (((freeDeposit k s).at k).session = .fax)
        && decide (((freeDeposit k s).at k).fax.target = some (.outbound d.serial))
        && (((freeDeposit k s).at k).fax.phase != .disconnecting)) = true) := by
      rw [at_freeDeposit]
      rcases gone with no | no <;> simp [no]
    unfold faxDepositEnded
    exact if_neg over_
  simp only [depositEnds, kind, if_true, stays]
  refine afterDeposit_of_done notRecording ?_
  rcases gone with no | no
  · exact Or.inl no
  · exact Or.inr (by rw [at_freeDeposit, no]; decide)

/-- What a cell of the home that ends a deposit does at its context. -/
def EndsAs (s : State) (k : ContextId) (d : OutDeposit) (i : Instr) (e : Event) (result : Byte) : Prop :=
  let x := s.at k
  let freed : State := { { popCell s with rau := { s.rau with outbound := s.rau.outbound.set k none } } with
    clc := { (popCell s).clc with held := s.clc.held.filter (· != .deposit k) } }
  (d.kind ≠ .fax → x.session ≠ .fax → x.voice.activity ≠ .recording → exec i s = .next (sendEvent (some k) e freed))
  ∧ (d.kind ≠ .fax → x.state = .connected → x.session = .voice → x.voice.activity = .recording →
    x.voice.recTarget = some (.outbound d.serial) → ∃ t, exec i s = .next t
    ∧ (x.voice.script ≠ .answer → (t.at k).voice.activity = .waiting ∧ (t.at k).voice.idle = some 20000
        ∧ (t.at k).voice.recTarget = none ∧ (t.at k).vcd.recording = false ∧ (t.at k).vcd.build = []
        ∧ t = { sendEvent (some k) e freed with ctx := t.ctx })
    ∧ (x.voice.script = .answer → (t.at k).state = .clearing ∧ (t.at k).timer = some 2000
        ∧ (t.at k).voice = Voice.reset ∧ (t.at k).vcd.recording = false))
  ∧ (d.kind = .fax → x.session = .fax → x.fax.target = some (.outbound d.serial) →
    x.fax.phase ≠ .disconnecting → x.voice.activity ≠ .recording →
    exec i s = .next { freed with ctx := s.ctx.modify k fun x => { x with
      fax := { x.fax with target := none, build := [], result := some result, phase := .disconnecting, wait := none }
      pump := { x.pump with control := x.pump.control ++ [.disconnect] } } })
  ∧ (d.kind = .fax → x.voice.activity ≠ .recording → x.session ≠ .fax ∨ x.fax.phase = .disconnecting → exec i s = .next freed)

/-- R124, R146, R156: an outcome ends its record as its session has it. -/
theorem endsAs_of_outcome {s : State} {k : ContextId} {d : OutDeposit} {i : Instr} {e : Event} {o : DepositOutcome} (q : s.Quiet)
    (run : (depositEnds k d o (popCell s)).Quiet → exec i s = .next (depositEnds k d o (popCell s)))
    (told : ∀ u, reportDeposit k d o u = sendEvent (some k) e u) : EndsAs s k d i e (depositResult o) := by
  have quiet {t : State} (rau : t.rau = (freeDeposit k (popCell s)).rau) : t.Quiet := quiet_of_rau (s := freeDeposit k (popCell s)) q rau
  have reported := reports_reportDeposit k d o (freeDeposit k (popCell s))
  refine ⟨fun kind notFax notRecording => ?_, fun kind connected voice recording target => ?_,
    fun kind fax target phase notRecording => ?_, fun kind notRecording gone => ?_⟩
  · have ended := depositEnds_of_over (s := popCell s) o kind notFax notRecording
    rw [run (quiet (by rw [ended]; exact reported.rau)), ended, told]
    rfl
  · by_cases script : (s.at k).voice.script = .answer
    · obtain ⟨rau, x, record, off⟩ := depositEnds_of_script (s := popCell s) o kind connected voice recording target script
      refine ⟨_, run (quiet rau), fun other => absurd script other, fun _ => ?_⟩
      rw [record]
      exact ⟨rfl, rfl, rfl, off⟩
    · obtain ⟨same, x, record, noTarget, off, build, _⟩ :=
        depositEnds_of_running (s := popCell s) o kind (by rw [show ((popCell s).at k).session = _ from voice]; decide) recording target script
      refine ⟨_, run (quiet (same.rau.trans reported.rau)), fun _ => ?_, fun answer => absurd answer script⟩
      rw [record]
      refine ⟨rfl, rfl, noTarget, off, build, ?_⟩
      rw [told] at same
      exact same
  · have ended := depositEnds_of_fax (s := popCell s) o kind fax target phase notRecording
    rw [run (quiet (by rw [ended]; rfl)), ended]
    rfl
  · have ended := depositEnds_of_fax_gone (s := popCell s) o kind notRecording gone
    rw [run (quiet (by rw [ended])), ended]
    rfl

end Sys2Proof.Machine
end

section
/-! PROOFS. The family of the replies of a home at the depositor: the handle it takes, the blocks it sends on, and the cells
that end its record (R124, R125, R128, R130, R131). -/
namespace Sys2Proof.Machine

theorem tagOf_context {c : Cell} {k : ContextId} (tag : c.tag.toNat = k.val) : tagOf k = c.tag := by
  rw [tagOf, ← tag]
  exact ofNat_tag c

theorem contextOf_tag {c : Cell} {k : ContextId} (tag : c.tag.toNat = k.val) : contextOf c.tag.toNat = some k := by
  rw [tag]
  exact contextOf_val k

theorem homeAddress_of_peer {home : Nat} {p : Fin 8} (peer : home = p.val) : homeAddress home = BitVec.ofNat 4 p.val := by
  rw [homeAddress, if_pos (by omega), peer]

/-! ### DEPOSIT_ACCEPT (R124, R131) -/

theorem takeAccept_of_above {s : State} {c : Cell} (k : Option ContextId) (above : 511 < field c.payload 0 2) : takeAccept k c s = s := by
  simp only [takeAccept, above, if_true]

theorem takeAccept_of_stray {s : State} {c : Cell} {k : ContextId} (known : field c.payload 0 2 ≤ 511) (none : s.outbound k = none) :
    takeAccept (some k) c s
      = offerOther (closeCell s c.src c.tag (some (field c.payload 0 2)) { reason := reasonStopped, last := Option.none }) 0 Option.none s := by
  have notAbove : ¬ 511 < field c.payload 0 2 := by omega
  simp only [takeAccept, notAbove, if_false, none]

/-- A record in OPENING whose home has accepted it. -/
def acceptedDeposit (handle : Nat) (d : OutDeposit) : OutDeposit :=
  if d.close.isSome then { d with handle := some handle, state := .closing, timer := some twoSeconds }
  else { d with handle := some handle, state := .streaming, timer := none }

theorem acceptedDeposit_of_open {d : OutDeposit} (handle : Nat) (noClose : d.close = none) :
    acceptedDeposit handle d = { d with handle := some handle, state := .streaming, timer := none } :=
  if_neg (by rw [noClose]; decide)

theorem acceptedDeposit_of_close {d : OutDeposit} {ask : CloseAsk} (handle : Nat) (close : d.close = some ask) :
    acceptedDeposit handle d = { d with handle := some handle, state := .closing, timer := some 2000 } :=
  if_pos (by rw [close]; rfl)

theorem takeAccept_of_opening {s : State} {c : Cell} {k : ContextId} {d : OutDeposit} (known : field c.payload 0 2 ≤ 511)
    (record : s.outbound k = some d) (opening : d.state = .opening) (home : homeAddress d.home = c.src) : takeAccept (some k) c s
      = pumpDeposit k (s.setOutbound k (some (acceptedDeposit (field c.payload 0 2) d))) := by
  have notAbove : ¬ 511 < field c.payload 0 2 := by omega
  simp only [takeAccept, notAbove, if_false, record, opening, home, decide_true, beq_self_eq_true, Bool.and_self, if_true]
  rfl

theorem pumpDeposit_of_none {s : State} {k : ContextId} (none : depositMove k s = none) : pumpDeposit k s = s :=
  depositMoves_of_none 64 none

theorem setOutbound_setOutbound (s : State) (k : ContextId) (d e : Option OutDeposit) :
    (s.setOutbound k d).setOutbound k e = s.setOutbound k e :=
  State.eq_of_blocks rfl rfl rfl rfl rfl rfl (congrArg (fun b => { s.rau with outbound := b }) (bank_set_set ..)) rfl rfl

/-- R125: a record with nothing in its buffer and nothing to offer, and no close to send, moves nothing. -/
theorem depositMove_of_idle {s : State} {k : ContextId} {d : OutDeposit} (record : s.outbound k = some d) (opened : d.state ≠ .opening)
    (buffer : d.buffer = []) (parts : d.toOffer = []) (noClose : d.state = .closing → d.close = none ∨ d.closeSent = true) :
    depositMove k s = none := by
  refine depositMove_of_done (d := d) ⟨opened, fun n bytes e g more some_block => ?_⟩ (fun page more some_page => ?_) (fun _ => noClose) ?_
  · rw [buffer] at some_block
    cases some_block
  · rw [buffer] at some_page
    cases some_page
  · rw [record, ← parts]

/-- R125: a block leaves the buffer while fewer than two are outstanding. -/
theorem depositMove_of_block {s : State} {k : ContextId} {d : OutDeposit} {n : Nat} {bytes : List Byte} {e g : Bool}
    (record : s.outbound k = some d) (streaming : d.state = .streaming) (buffer : d.buffer = [.block n bytes e g])
    (window : d.outstanding = []) (parts : d.toOffer = []) : depositMove k s = some (s.setOutbound k (some { d with
      buffer := [], outstanding := [n], toOffer := depositParts s k d n bytes e g, timer := some twoSeconds })) := by
  unfold depositMove
  simp only [record, streaming, buffer, window, parts, List.length_nil, Nat.zero_lt_succ, if_true, List.nil_append, decide_true,
    Bool.and_self, reduceCtorEq, if_false]

/-- R130: a record that has nothing left to send queues its close. -/
theorem depositMove_of_close {s : State} {k : ContextId} {d : OutDeposit} {ask : CloseAsk} (record : s.outbound k = some d)
    (closing : d.state = .closing) (buffer : d.buffer = []) (parts : d.toOffer = []) (close : d.close = some ask)
    (unsent : d.closeSent = false) : depositMove k s
      = some (offerOther (closeCell s (homeAddress d.home) (tagOf k) d.handle ask) d.serial (some k)
          (s.setOutbound k (some { d with closeSent := true }))) := by
  unfold depositMove
  simp only [record, closing, buffer, parts, close, unsent, reduceCtorEq, if_false]

theorem offerOther_of_room {s : State} {c : Cell} (n : Nat) (k : Option ContextId) (room : queueTakes s.clc.tx c = true) :
    offerOther c n k s = enqueue c n s := by
  rw [offerOther, if_pos room]

/-! ### BLOCK_TAKEN (R128) -/

/-- A record from which an acknowledged sequence has been taken. -/
def acknowledged (q : Nat) (d : OutDeposit) : OutDeposit :=
  let rest := d.outstanding.filter fun x => decide (32768 ≤ (q + 65536 - x) % 65536)
  { d with outstanding := rest
           timer := if d.state = .closing then d.timer else if rest = [] then none else some 2000 }

theorem takeBlockTaken_of_handle {s : State} {c : Cell} {k : ContextId} {d : OutDeposit} (record : s.outbound k = some d)
    (home : homeAddress d.home = c.src) (handle : d.handle = some (field c.payload 0 2)) : takeBlockTaken k c s
      = pumpDeposit k (s.setOutbound k (some (acknowledged (field c.payload 2 2) d))) := by
  have names : namesDeposit d c (field c.payload 0 2) = true := by simp [namesDeposit, home, handle]
  have rest : (d.outstanding.filter fun x => !notAfter x (field c.payload 2 2))
      = d.outstanding.filter fun x => decide (32768 ≤ (field c.payload 2 2 + 65536 - x) % 65536) := by
    refine List.filter_congr fun x _ => ?_
    rw [notAfter, ← decide_not, decide_eq_decide]
    omega
  simp only [takeBlockTaken, record, names, if_true, rest]
  rfl

/-! ### The cells that end a record (R124, R127, R128, R130) -/

theorem endsDeposit_of_outcome {s : State} {c : Cell} {p : Fin 8} {k : ContextId} {d : OutDeposit} {o : DepositOutcome}
    {ends : OutDeposit → Cell → Option DepositOutcome} (tag : c.tag.toNat = k.val) (record : s.outbound k = some d)
    (ending : ends d c = some o) : endsDeposit ends p c s = depositEnds k d o s := by
  simp only [endsDeposit, contextOf_tag tag, record, ending]

theorem endsDeposit_of_none {s : State} {c : Cell} {p : Fin 8} {k : ContextId} {d : OutDeposit}
    {ends : OutDeposit → Cell → Option DepositOutcome} (tag : c.tag.toNat = k.val) (record : s.outbound k = some d)
    (stays : ends d c = none) : endsDeposit ends p c s = s := by
  simp only [endsDeposit, contextOf_tag tag, record, stays]

theorem depositEnded_of_fromPeer {s : State} {c : Cell} {p : Fin 8} {k : ContextId} {d : OutDeposit} {o : DepositOutcome} {kind : Byte}
    {ends : OutDeposit → Cell → Option DepositOutcome} (from_ : FromPeer s c kind p) (tag : c.tag.toNat = k.val)
    (record : s.outbound k = some d) (ending : ends d c = some o) (quiet : (depositEnds k d o (popCell s)).Quiet) :
    handPeer kind (endsDeposit ends) s = .next (depositEnds k d o (popCell s)) :=
  handPeer_eq from_ (endsDeposit_of_outcome (s := popCell s) tag record ending) quiet

theorem refuseEnds_of_opening {d : OutDeposit} {c : Cell} (opening : d.state = .opening) (home : homeAddress d.home = c.src) :
    refuseEnds d c = if field c.payload 1 2 = 65535 then some (.refused (byteAt c.payload 0)) else none := by
  simp [refuseEnds, opening, home]

theorem refuseEnds_of_full {d : OutDeposit} {c : Cell} (opened : d.state ≠ .opening) (home : homeAddress d.home = c.src)
    (handle : d.handle = some (field c.payload 1 2)) (full : byteAt c.payload 0 = codeStoreFull) : refuseEnds d c = some .storeFull := by
  have names : namesDeposit d c (field c.payload 1 2) = true := by simp [namesDeposit, home, handle]
  simp only [refuseEnds, opened, if_false, names, if_true, full]

theorem closedEnds_of_handle {d : OutDeposit} {c : Cell} (opened : d.state ≠ .opening) (home : homeAddress d.home = c.src)
    (handle : d.handle = some (field c.payload 0 2)) : closedEnds d c
      = some (.closed (byteAt c.payload 2) (field c.payload 3 2) (field c.payload 5 1 % 16)) := by
  have names : namesDeposit d c (field c.payload 0 2) = true := by simp [namesDeposit, home, handle]
  have isOpened : (d.state != .opening) = true := by simpa using opened
  simp only [closedEnds, names, isOpened, Bool.and_self, if_true]

theorem reportDeposit_of_closed (k : ContextId) (d : OutDeposit) (result : Byte) (blocks flags : Nat) (s : State) :
    reportDeposit k d (.closed result blocks flags) s = sendEvent (some k) (if d.closeSent = true ∧ result = codeEmpty
      then .recordDone d.home none (some 0) codeEmpty (some 0) else .recordDone d.home d.handle (some blocks) result (some flags)) s := by
  simp only [reportDeposit, sendRecordDone, Bool.and_eq_true, decide_eq_true_eq]
  split <;> rfl

/-! ### The accept of a record by what waits in it (R124, R125, R130) -/

/-- The record and the cells of an accepted deposit whose one block goes out. -/
structure BlockSent (c : Cell) (p : Fin 8) (k : ContextId) (d : OutDeposit) (n : Nat) (bytes : List Byte) (e g : Bool) (s t : State) : Prop where
  record : t.outbound k = some { d with
    handle := some (field c.payload 0 2), state := .streaming, buffer := [], outstanding := [n], timer := some 2000 }
  length : t.clc.tx.length = s.clc.tx.length + 8
  parts : ∀ q, q < 8 → ∃ y ∈ t.clc.tx, y.cell = ownCell s 4 (BitVec.ofNat 4 p.val) kindDepositData c.tag
    (be2 (field c.payload 0 2) ++ be2 n ++ [partByte q e g] ++ (bytes.drop (64 * q)).take 64)
  notices : t.rau.notices = s.rau.notices

theorem mem_partIds {q : Nat} (lt : q < 8) : q ∈ partIds := by
  simp only [partIds, List.mem_cons, List.not_mem_nil, or_false]
  omega

theorem blockSent_pumpDeposit {s : State} {c : Cell} {p : Fin 8} {k : ContextId} {d : OutDeposit} {n : Nat} {bytes : List Byte} {e g : Bool}
    (tag : c.tag.toNat = k.val) (home : d.home = p.val) (noClose : d.close = none) (buffer : d.buffer = [.block n bytes e g])
    (window : d.outstanding = []) (parts : d.toOffer = []) (free : StreamProducer.deposit k ∉ s.clc.held)
    (room : s.clc.tx.length ≤ 16) (streamRoom : (s.clc.tx.filter fun y => isStreamKind y.cell.kind).length ≤ 8) :
    BlockSent c p k d n bytes e g s (pumpDeposit k (s.setOutbound k (some (acceptedDeposit (field c.payload 0 2) d)))) := by
  let d1 : OutDeposit := { d with handle := some (field c.payload 0 2), state := .streaming, timer := none }
  have accepted : acceptedDeposit (field c.payload 0 2) d = d1 := acceptedDeposit_of_open _ noClose
  let u := s.setOutbound k (some d1)
  let cells := depositParts u k d1 n bytes e g
  let d2 : OutDeposit := { d1 with buffer := [], outstanding := [n], toOffer := cells, timer := some twoSeconds }
  have first : depositMove k u = some (u.setOutbound k (some d2)) :=
    depositMove_of_block (outbound_setOutbound ..) rfl buffer window parts
  have notClaims : ∀ x ∈ cells, x.kind ≠ kindClaim := by
    intro x mem
    obtain ⟨q, _, rfl⟩ := List.mem_map.mp mem
    exact (by decide : kindDepositData ≠ kindClaim)
  have eight : cells.length = 8 := rfl
  have rest := depositMoves_of_takes (s := u.setOutbound k (some d2)) (d := d2) (taken := cells) (left := []) 63 (outbound_setOutbound ..)
    ⟨(nofun : DepositState.streaming ≠ .opening), fun _ _ _ _ _ some_block => nomatch some_block⟩ (List.append_nil _).symm
    (takes_of_room notClaims (by rw [eight]; exact Nat.add_le_add_right room 8) (by rw [eight]; exact Nat.add_le_add_right streamRoom 8))
    free (fun _ v record => depositMove_of_idle record (nofun : DepositState.streaming ≠ .opening) rfl rfl (nofun)) (by rw [eight]; decide)
  have run : pumpDeposit k (s.setOutbound k (some (acceptedDeposit (field c.payload 0 2) d)))
      = partsOffered k d2 cells [] (u.setOutbound k (some d2)) := by
    rw [accepted]
    exact (depositMoves_of_some 63 first).trans rest
  rw [run]
  refine ⟨?_, ?_, fun q lt => ?_, rfl⟩
  · refine (outbound_setOutbound ..).trans (congrArg some ?_)
    rw [← parts]
    rfl
  · exact (length_filled ..).trans rfl
  · refine ⟨freshTx _ 0, mem_filled.mpr (Or.inr ⟨_, List.mem_map.mpr ⟨q, mem_partIds lt, rfl⟩, rfl⟩), ?_⟩
    change ownCell s 4 (homeAddress d.home) kindDepositData (tagOf k) _ = _
    rw [homeAddress_of_peer home, tagOf_context tag]
    rfl

/-- R130: an accepted record whose close is asked already, with nothing to send, queues its close. -/
theorem pumpDeposit_of_close {s : State} {c : Cell} {p : Fin 8} {k : ContextId} {d : OutDeposit} {ask : CloseAsk}
    (tag : c.tag.toNat = k.val) (home : d.home = p.val) (close : d.close = some ask) (unsent : d.closeSent = false)
    (buffer : d.buffer = []) (parts : d.toOffer = []) (room : s.clc.tx.length < 24) :
    pumpDeposit k (s.setOutbound k (some (acceptedDeposit (field c.payload 0 2) d)))
      = enqueue (ownCell s 4 (BitVec.ofNat 4 p.val) kindDepositClose c.tag (be2 (field c.payload 0 2) ++ [ask.reason]
          ++ beOpt2 (ask.last.map (·.1)) ++ beOpt2 (ask.last.map (·.2)))) d.serial (s.setOutbound k (some
            { d with handle := some (field c.payload 0 2), state := .closing, timer := some 2000, closeSent := true })) := by
  let d1 : OutDeposit := { d with handle := some (field c.payload 0 2), state := .closing, timer := some 2000 }
  let d2 : OutDeposit := { d1 with closeSent := true }
  let u := s.setOutbound k (some d1)
  let cell := closeCell u (homeAddress d.home) (tagOf k) d1.handle ask
  have takes : queueTakes (u.setOutbound k (some d2)).clc.tx cell = true := by
    rw [queueTakes_of_plain_kind _ (by rfl : isStreamKind cell.kind = false) (by decide : kindDepositClose ≠ kindClaim)]
    exact decide_eq_true room
  have first : depositMove k u = some (enqueue cell d.serial (u.setOutbound k (some d2))) := by
    rw [← offerOther_of_room d.serial (some k) takes]
    exact depositMove_of_close (outbound_setOutbound ..) rfl buffer parts close unsent
  have done : depositMove k (enqueue cell d.serial (u.setOutbound k (some d2))) = none :=
    depositMove_of_idle (d := d2) (outbound_setOutbound (s := u) ..) (nofun : DepositState.closing ≠ .opening) buffer parts fun _ =>
      Or.inr rfl
  have run : pumpDeposit k u = enqueue cell d.serial (u.setOutbound k (some d2)) :=
    (depositMoves_of_some 63 first).trans (depositMoves_of_none 63 done)
  rw [acceptedDeposit_of_close _ close, run, setOutbound_setOutbound]
  refine congrArg (fun x => enqueue x d.serial (s.setOutbound k (some d2))) ?_
  change ownCell s 4 (homeAddress d.home) kindDepositClose (tagOf k) _ = _
  rw [homeAddress_of_peer home, tagOf_context tag]
  rfl

/-- Settles O45: each reply by what it makes of the record, and the cells that end one through its outcome. -/
theorem depositorTakesReplies : Obligations.DepositorTakesReplies := by
  intro s c p k q tag x handle cell setOut freed
  refine ⟨fun accept => ⟨fun above => ?above, fun known absent => ?stray⟩, fun d record home => ?_⟩
  case above =>
    exact handPeer_eq accept (takeAccept_of_above (s := popCell s) _ above) q
  case stray =>
    have sent := takeAccept_of_stray (s := popCell s) known absent
    rw [← contextOf_tag tag, src_of_fromPeer accept] at sent
    refine (handPeer_eq accept sent (offerOther_none_quiet (s := popCell s) _ _ q)).trans ?_
    refine congrArg (fun payload => Host.Outcome.next (offerOther (cell kindDepositClose payload) 0 none (popCell s))) ?_
    simp only [List.append_assoc]
    rfl
  intro ends
  have known_home {kind : Byte} (from_ : FromPeer s c kind p) : homeAddress d.home = c.src := by
    rw [homeAddress_of_peer home, src_of_fromPeer from_]
  refine ⟨fun accept known opening parts => ?accept, fun refuse opening => ⟨fun named => ?ignored, fun open_ => ?refused⟩,
    fun refuse opened named full => ?full, fun taken named buffer parts => ?taken, fun closed opened named => ?closed⟩
  case accept =>
    have accepted := takeAccept_of_opening (s := popCell s) known record opening (known_home accept)
    rw [← contextOf_tag tag] at accepted
    refine ⟨fun noClose buffer => ?_, fun n bytes e g noClose buffer window free room streamRoom => ?_, fun ask close unsent buffer room => ?_⟩
    · rw [acceptedDeposit_of_open _ noClose, pumpDeposit_of_none] at accepted
      · exact handPeer_eq accept accepted q
      · exact depositMove_of_idle (outbound_setOutbound ..) (nofun : DepositState.streaming ≠ .opening) buffer parts (nofun)
    · have sent := blockSent_pumpDeposit (s := popCell s) (c := c) tag home noClose buffer window parts free room streamRoom
      refine ⟨_, handPeer_eq accept accepted ?_, sent.record, sent.length, sent.parts⟩
      rw [State.Quiet, sent.notices]
      exact q
    · have sent := pumpDeposit_of_close (s := popCell s) (c := c) tag home close unsent buffer parts room
      exact handPeer_eq accept (accepted.trans sent) q
  case ignored =>
    have stays := refuseEnds_of_opening (c := c) opening (known_home refuse)
    rw [if_neg named] at stays
    exact handPeer_eq refuse (endsDeposit_of_none (s := popCell s) tag record stays) q
  case refused =>
    have ending := refuseEnds_of_opening (c := c) opening (known_home refuse)
    rw [if_pos open_] at ending
    exact endsAs_of_outcome (o := .refused (byteAt c.payload 0)) q (depositEnded_of_fromPeer refuse tag record ending) (by intro; rfl)
  case full =>
    exact endsAs_of_outcome (o := .storeFull) q (depositEnded_of_fromPeer refuse tag record (refuseEnds_of_full opened (known_home refuse) named full))
      (by intro; rfl)
  case taken =>
    have reply := takeBlockTaken_of_handle (s := popCell s) record (known_home taken) named
    have moved (streams : d.state ≠ .opening) (noClose : d.state = .closing → d.close = none ∨ d.closeSent = true) :
        exec .blockTaken s = .next (setOut (some (acknowledged (field c.payload 2 2) d))) := by
      rw [pumpDeposit_of_none] at reply
      · refine handPeer_eq taken (Eq.trans ?_ reply) q
        simp only [contextOf_tag tag]
      · exact depositMove_of_idle (d := acknowledged (field c.payload 2 2) d) (outbound_setOutbound ..) streams buffer parts noClose
    refine ⟨fun streaming => ?_, fun closing sent => ?_⟩
    · rw [moved (by rw [streaming]; decide) (by rw [streaming]; exact nofun)]
      simp only [acknowledged, streaming, reduceCtorEq, if_false]
    · rw [moved (by rw [closing]; decide) (fun _ => Or.inr sent)]
      simp only [acknowledged, closing, if_true]
  case closed =>
    exact endsAs_of_outcome (o := .closed _ _ _) q (depositEnded_of_fromPeer closed tag record (closedEnds_of_handle opened (known_home closed) named))
      fun u => reportDeposit_of_closed ..

end Sys2Proof.Machine
end

section
/-! PROOFS. The family of the fetch cells at the reader: the slots of a buffer, the blocks asked for, and each reply of the
home (R97, R98, R101, R132, R134, R135, R142, R159). -/
namespace Sys2Proof.Machine

/-! ### Slots (R97) -/

theorem map_zipIdx_swap_any {pieces : List (List Byte)} {n : Nat} : ((pieces.zipIdx.map fun x => (x.2, x.1)).any fun x => x.1 == n)
    = decide (n < pieces.length) := by
  rw [Bool.eq_iff_iff, decide_eq_true_eq, List.any_eq_true]
  constructor
  · rintro ⟨x, mem, same⟩
    obtain ⟨y, place, rfl⟩ := List.mem_map.mp mem
    have below := List.snd_lt_of_mem_zipIdx place
    rw [beq_iff_eq] at same
    omega
  · intro lt
    exact ⟨(n, pieces[n]), List.mem_map.mpr ⟨(pieces[n], n), List.mk_mem_zipIdx_iff_getElem?.mpr (List.getElem?_eq_getElem lt), rfl⟩,
      beq_self_eq_true n⟩

/-- R97: eight parts of 64 bytes make their block. -/
theorem completeParts_of_whole (fill : Byte) (header : List Byte) {pieces : List (List Byte)} (eight : pieces.length = 8)
    (full : ∀ x ∈ pieces, x.length = 64) : completeParts fill header (pieces.zipIdx.map fun x => (x.2, x.1)) = pieces.flatten := by
  obtain ⟨p0, p1, p2, p3, p4, p5, p6, p7, rfl⟩ := exists_eight eight
  simp only [List.mem_cons, List.not_mem_nil, or_false, forall_eq_or_imp, forall_eq] at full
  obtain ⟨f0, f1, f2, f3, f4, f5, f6, f7⟩ := full
  simp [completeParts, partIds, fitTo_self, *]

theorem place_of_requested (index part : Nat) (bytes : List Byte) :
    (Slot.requested index).place index part bytes = .arriving index [(part, bytes)] 10 := by
  have notAll : (partIds.all fun p => [(part, bytes)].any fun x => x.1 == p) = false := by
    rw [List.all_eq_false]
    by_cases zero : part = 0
    · exact ⟨1, by decide, by simp [zero]⟩
    · exact ⟨0, by decide, by simpa using zero⟩
  simp only [Slot.place, if_true, List.any_nil, Bool.false_eq_true, if_false, List.nil_append, notAll]
  rfl

theorem place_of_last {pieces : List (List Byte)} {bytes : List Byte} (index left : Nat) (seven : pieces.length = 7)
    (full : ∀ x ∈ pieces, x.length = 64) (last : bytes.length = 64) :
    (Slot.arriving index (pieces.zipIdx.map fun x => (x.2, x.1)) left).place index 7 bytes = .ready index (pieces.flatten ++ bytes) := by
  have absent : ((pieces.zipIdx.map fun x => (x.2, x.1)).any fun x => x.1 == 7) = false := by
    rw [map_zipIdx_swap_any, seven]
    rfl
  have eight : (pieces ++ [bytes]).length = 8 := by rw [List.length_append, seven]; rfl
  have all : (partIds.all fun p => ((pieces ++ [bytes]).zipIdx.map fun x => (x.2, x.1)).any fun x => x.1 == p) = true := by
    rw [List.all_eq_true]
    intro p mem
    rw [map_zipIdx_swap_any, eight, decide_eq_true_eq]
    revert p
    decide
  have fullAll : ∀ x ∈ pieces ++ [bytes], x.length = 64 := by
    intro x mem
    rcases List.mem_append.mp mem with mem | mem
    · exact full x mem
    · rw [List.mem_singleton.mp mem, last]
  simp only [Slot.place, if_true, absent, Bool.false_eq_true, if_false, zipIdx_concat_seven bytes seven, all,
    completeParts_of_whole 0 [] eight fullAll]
  simp

theorem place_of_other {x : Slot} {index : Nat} (part : Nat) (bytes : List Byte) (other : x.index ≠ some index) :
    x.place index part bytes = x := by
  cases x with
  | empty => rfl
  | requested i =>
    have different : i ≠ index := fun same => other (by rw [Slot.index, same])
    simp only [Slot.place, different, if_false]
  | arriving i parts left =>
    have different : i ≠ index := fun same => other (by rw [Slot.index, same])
    simp only [Slot.place, different, if_false]
  | ready i block => rfl

theorem map_place {a other : Slot} {index part : Nat} {bytes : List Byte} (apart : other.index ≠ some index) :
    (Buffer.mk a other).map (fun x => x.place index part bytes) = { a := a.place index part bytes, b := other } := by
  rw [Buffer.map, place_of_other part bytes apart]

theorem find_of_first {a other : Slot} {index : Nat} (first : a.index = some index) : (Buffer.mk a other).find index = a := by
  simp only [Buffer.find, first, if_true]

/-! ### The records of a fetch (R134) -/

theorem setFetch_setFetch (s : State) (k : ContextId) (f g : Option Fetch) : (s.setFetch k f).setFetch k g = s.setFetch k g :=
  State.eq_of_blocks rfl rfl rfl rfl rfl rfl (congrArg (fun b => { s.rau with fetches := b }) (bank_set_set ..)) rfl rfl

theorem fetchHeard_of_fetch {s : State} {k : ContextId} {f : Fetch} (fetch : s.fetch k = some f) :
    fetchHeard k s = s.setFetch k (some { f with timer := some twoSeconds }) := by
  simp only [fetchHeard, fetch]

/-- A fetch that a block has completed. -/
def settledFetch (index : Nat) (f : Fetch) : Fetch :=
  { f with pending := f.pending.filter (· != index), timer := if f.pending.filter (· != index) = [] then none else f.timer }

theorem fetchSettle_of_fetch {s : State} {k : ContextId} {f : Fetch} (index : Nat) (fetch : s.fetch k = some f) :
    fetchSettle k index s = s.setFetch k (some (settledFetch index f)) := by
  simp only [fetchSettle, fetch]
  rfl

theorem fetchWants_of_pending {s : State} {k : ContextId} {c : Cell} {f : Fetch} (fetch : s.fetch k = some f) (opened : f.state = .opened)
    (home : homeAddress f.home = c.src) (handle : f.handle = some (field c.payload 0 2)) (pending : field c.payload 2 2 ∈ f.pending) :
    fetchWants s k c = true := by
  simp [fetchWants, fetch, opened, home, handle, pending]

theorem lengthAllowed_fetchData {n : Nat} (allowed : lengthAllowed kindFetchData n = true) : n = 69 := by
  rw [lengthAllowed, (by decide : lengthsOf kindFetchData = (69, 69)), Bool.and_eq_true, decide_eq_true_eq, decide_eq_true_eq] at allowed
  exact Nat.le_antisymm allowed.2 allowed.1

theorem length_partBytes {s : State} {c : Cell} {p : Fin 8} (from_ : FromPeer s c kindFetchData p) : (c.payload.drop 5).length = 64 := by
  obtain ⟨⟨_, kind, allowed⟩, _⟩ := from_
  rw [kind] at allowed
  rw [List.length_drop, lengthAllowed_fetchData allowed]

/-! ### FETCH_DATA (R97, R98, R134, R159) -/

theorem takeFetchData_of_fax {s : State} {c : Cell} {p : Fin 8} {k : ContextId} {f : Fetch} (tag : c.tag.toNat = k.val)
    (fetch : s.fetch k = some f) (wants : fetchWants s k c = true) (fax : (s.at k).session = .fax) : takeFetchData p c s
      = placeFaxPart k (field c.payload 2 2) (field c.payload 4 1 % 8) (c.payload.drop 5)
          (s.setFetch k (some { f with timer := some twoSeconds })) := by
  have still : ((s.setFetch k (some { f with timer := some twoSeconds })).at k).session = .fax := fax
  simp only [takeFetchData, contextOf_tag tag, wants, if_true, fetchHeard_of_fetch fetch, still]

theorem takeFetchData_of_play {s : State} {c : Cell} {p : Fin 8} {k : ContextId} {f : Fetch} (tag : c.tag.toNat = k.val)
    (fetch : s.fetch k = some f) (wants : fetchWants s k c = true) (notFax : (s.at k).session ≠ .fax) : takeFetchData p c s
      = placePlayPart k (field c.payload 2 2) (field c.payload 4 1 % 8) (c.payload.drop 5)
          (s.setFetch k (some { f with timer := some twoSeconds })) := by
  have still : ((s.setFetch k (some { f with timer := some twoSeconds })).at k).session ≠ .fax := notFax
  simp only [takeFetchData, contextOf_tag tag, wants, if_true, fetchHeard_of_fetch fetch, still, if_false]

theorem feed_of_held {s : State} {k : ContextId} (held : (s.at k).held = true) : feed k s = s := by
  rw [feed, if_pos held]

/-- R97: the first part of a block of a playback joins its slot. -/
theorem placePlayPart_of_requested {s : State} {k : ContextId} {other : Slot} (index part : Nat) (bytes : List Byte)
    (buffer : (s.at k).vcd.buffer = { a := .requested index, b := other }) (apart : other.index ≠ some index) :
    placePlayPart k index part bytes s
      = s.modVcd k fun v => { v with buffer := { a := .arriving index [(part, bytes)] 10, b := other } } := by
  have mapped : (s.at k).vcd.buffer.map (fun x => x.place index part bytes) = { a := .arriving index [(part, bytes)] 10, b := other } := by
    rw [buffer, map_place apart, place_of_requested]
  have same : (s.modVcd k fun v => { v with buffer := v.buffer.map fun x => x.place index part bytes })
      = s.modVcd k fun v => { v with buffer := { a := .arriving index [(part, bytes)] 10, b := other } } :=
    modCtx_congr (congrArg (fun b => { s.at k with vcd := { (s.at k).vcd with buffer := b } }) mapped)
  have notReady : (((s.modVcd k fun v => { v with buffer := { a := .arriving index [(part, bytes)] 10, b := other } }).at k).vcd.buffer.find
      index).isReady = false := by
    rw [State.modVcd, at_modCtx, find_of_first rfl]
    rfl
  simp only [placePlayPart, same, notReady, Bool.false_eq_true, if_false]

/-- R97, R98: the part that completes a block of a playback. -/
theorem placePlayPart_of_last {s : State} {k : ContextId} {other : Slot} {index left : Nat} {pieces : List (List Byte)} {bytes : List Byte}
    (buffer : (s.at k).vcd.buffer = { a := .arriving index (pieces.zipIdx.map fun x => (x.2, x.1)) left, b := other })
    (apart : other.index ≠ some index) (seven : pieces.length = 7) (full : ∀ x ∈ pieces, x.length = 64) (last : bytes.length = 64) :
    placePlayPart k index 7 bytes s = resumeDecoder k (fetchSettle k index
      (s.modVcd k fun v => { v with buffer := { a := .ready index (pieces.flatten ++ bytes), b := other } })) := by
  have mapped : (s.at k).vcd.buffer.map (fun x => x.place index 7 bytes) = { a := .ready index (pieces.flatten ++ bytes), b := other } := by
    rw [buffer, map_place apart, place_of_last index left seven full last]
  have same : (s.modVcd k fun v => { v with buffer := v.buffer.map fun x => x.place index 7 bytes })
      = s.modVcd k fun v => { v with buffer := { a := .ready index (pieces.flatten ++ bytes), b := other } } :=
    modCtx_congr (congrArg (fun b => { s.at k with vcd := { (s.at k).vcd with buffer := b } }) mapped)
  have ready : (((s.modVcd k fun v => { v with buffer := { a := .ready index (pieces.flatten ++ bytes), b := other } }).at k).vcd.buffer.find
      index).isReady = true := by
    rw [State.modVcd, at_modCtx, find_of_first rfl]
    rfl
  simp only [placePlayPart, same, ready, if_true]

/-- R159: the part that completes a block of a held fax send. -/
theorem placeFaxPart_of_last {s : State} {k : ContextId} {other : Slot} {index left : Nat} {pieces : List (List Byte)} {bytes : List Byte}
    (buffer : (s.at k).fax.buffer = { a := .arriving index (pieces.zipIdx.map fun x => (x.2, x.1)) left, b := other })
    (apart : other.index ≠ some index) (seven : pieces.length = 7) (full : ∀ x ∈ pieces, x.length = 64) (last : bytes.length = 64) :
    placeFaxPart k index 7 bytes s = feed k (fetchSettle k index
      (s.modFax k fun f => { f with buffer := { a := .ready index (pieces.flatten ++ bytes), b := other } })) := by
  have mapped : (s.at k).fax.buffer.map (fun x => x.place index 7 bytes) = { a := .ready index (pieces.flatten ++ bytes), b := other } := by
    rw [buffer, map_place apart, place_of_last index left seven full last]
  have same : (s.modFax k fun f => { f with buffer := f.buffer.map fun x => x.place index 7 bytes })
      = s.modFax k fun f => { f with buffer := { a := .ready index (pieces.flatten ++ bytes), b := other } } :=
    modCtx_congr (congrArg (fun b => { s.at k with fax := { (s.at k).fax with buffer := b } }) mapped)
  have ready : (((s.modFax k fun f => { f with buffer := { a := .ready index (pieces.flatten ++ bytes), b := other } }).at k).fax.buffer.find
      index).isReady = true := by
    rw [State.modFax, at_modCtx, find_of_first rfl]
    rfl
  simp only [placeFaxPart, same, ready, if_true]

/-- R98: a decoder that waits for a block that is READY goes on from it. -/
def decodingFrom (b : Nat) (block : List Byte) (v : Vcd) : Vcd := { v with
  decPredictor := headerPredictor block, decIndex := headerIndex block, current := some (b, 0), mark := .playing }

theorem resumeDecoder_of_ready {s : State} {k : ContextId} {other : Slot} {index n : Nat} {block : List Byte} (going : (s.at k).held = false)
    (mark : (s.at k).vcd.mark = .underrun) (current : (s.at k).vcd.current = some (index, n))
    (buffer : (s.at k).vcd.buffer = { a := .ready index block, b := other }) : resumeDecoder k s = s.modVcd k (decodingFrom index block) := by
  have found : (s.at k).vcd.buffer.find index = .ready index block := by rw [buffer, find_of_first rfl]
  simp only [resumeDecoder, going, mark, current, found]
  rfl

theorem resumeDecoder_of_held {s : State} {k : ContextId} (held : (s.at k).held = true) : resumeDecoder k s = s := by
  simp only [resumeDecoder, held]

/-- The fetch of a block that its last part has completed. -/
theorem settle_heard {s : State} {k : ContextId} {f : Fetch} (index : Nat) (g : Context → Context) :
    fetchSettle k index ((s.setFetch k (some { f with timer := some twoSeconds })).modCtx k g)
      = (s.setFetch k (some { f with
          pending := f.pending.filter (· != index)
          timer := if f.pending.filter (· != index) = [] then none else some 2000 })).modCtx k g := by
  have heard : ((s.setFetch k (some { f with timer := some twoSeconds })).modCtx k g).fetch k = some { f with timer := some twoSeconds } :=
    fetch_setFetch ..
  rw [fetchSettle_of_fetch index heard]
  exact congrArg (fun t => State.modCtx k g t) (setFetch_setFetch s k _ _)

end Sys2Proof.Machine
end

section
/-! PROOFS. The family of the fetch cells at the reader, the grant and the refusal of a playback (R98, R99, R132, R134, R142). -/
namespace Sys2Proof.Machine

/-! ### The blocks that a playback asks for (R97, R134) -/

/-- The FETCH_BLOCK for a block. -/
def blockAsk (s : State) (k : ContextId) (f : Fetch) (index : Nat) : Cell :=
  ownCell s 4 (homeAddress f.home) kindFetchBlock (tagOf k) (beOpt2 f.handle ++ be2 index)

theorem fetchAsk_of_fetch {s : State} {k : ContextId} {f : Fetch} (index : Nat) (fetch : s.fetch k = some f) :
    fetchAsk k index s = offerOther (blockAsk s k f index) f.serial none (s.setFetch k (some { f with
      pending := f.pending ++ [index], timer := if f.pending = [] then some twoSeconds else f.timer, keepalive := 5000 })) := by
  simp only [fetchAsk, fetch, sendForFetch, fetch_setFetch, Bool.false_eq_true, if_false, setFetch_setFetch]
  rfl

theorem askNext_of_held {s : State} {k : ContextId} (blocks needed : Nat) (held : (s.at k).held = true) :
    askNext k .fetched blocks needed Buffer.reset s = (s, Buffer.reset) := by
  by_cases more : needed < blocks
  · simp [askNext, Buffer.reset, Buffer.next, Slot.index, Buffer.hasRoom, more, askBlock, held, Buffer.put]
  · simp [askNext, Buffer.reset, Buffer.next, Slot.index, Buffer.hasRoom, more]

theorem fillBuffer_of_held {s : State} {k : ContextId} (blocks needed : Nat) (held : (s.at k).held = true) :
    fillBuffer k .fetched blocks needed Buffer.reset s = (s, Buffer.reset) := by
  rw [fillBuffer, askNext_of_held blocks needed held, askNext_of_held blocks needed held]

theorem at_fetchAsk (k j : ContextId) (index : Nat) (s : State) : (fetchAsk k index s).at j = s.at j :=
  (spares_fetchAsk (Spares.refl id s)).at_eq j

theorem fillBuffer_of_going {s : State} {k : ContextId} {blocks : Nat} (b : Nat) (more : b + 1 < blocks) (going : (s.at k).held = false) :
    fillBuffer k .fetched blocks b Buffer.reset s
      = (fetchAsk k (b + 1) (fetchAsk k b s), { a := .requested b, b := .requested (b + 1) }) := by
  have first : askNext k .fetched blocks b Buffer.reset s = (fetchAsk k b s, { a := .requested b, b := .empty }) := by
    simp [askNext, Buffer.reset, Buffer.next, Slot.index, Buffer.hasRoom, Nat.lt_of_succ_lt more, askBlock, going, Buffer.put]
  have going' : ((fetchAsk k b s).at k).held = false := by rw [at_fetchAsk]; exact going
  rw [fillBuffer, first]
  simp [askNext, Buffer.next, Slot.index, Buffer.hasRoom, more, askBlock, going', Buffer.put]

/-- Two blocks asked for by a fetch that waits for none. -/
theorem twoAsked {s : State} {k : ContextId} {f : Fetch} (b : Nat) (fetch : s.fetch k = some f) (first : f.pending = [])
    (room : s.clc.tx.length ≤ 22) : fetchAsk k (b + 1) (fetchAsk k b s)
      = enqueue (blockAsk s k f (b + 1)) f.serial (enqueue (blockAsk s k f b) f.serial (s.setFetch k (some { f with
          pending := [b, b + 1], timer := some 2000, keepalive := 5000 }))) := by
  let f1 : Fetch := { f with pending := [b], timer := some 2000, keepalive := 5000 }
  have takes (t : State) (index : Nat) (g : Fetch) (free : t.clc.tx.length < 24) : queueTakes t.clc.tx (blockAsk s k g index) = true := by
    rw [queueTakes_of_plain_kind _ (by rfl : isStreamKind (blockAsk s k g index).kind = false) (by decide : kindFetchBlock ≠ kindClaim)]
    exact decide_eq_true free
  have asked0 : fetchAsk k b s = enqueue (blockAsk s k f b) f.serial (s.setFetch k (some f1)) := by
    rw [fetchAsk_of_fetch b fetch, offerOther_of_room _ _ (takes (s.setFetch k _) b f (by change s.clc.tx.length < 24; omega))]
    simp only [first, List.nil_append, if_true]
    rfl
  have fetch1 : (enqueue (blockAsk s k f b) f.serial (s.setFetch k (some f1))).fetch k = some f1 := fetch_setFetch ..
  have longer : (insertByPriority (freshTx (blockAsk s k f b) f.serial) s.clc.tx).length < 24 := by
    rw [(insertByPriority_perm _ _).length_eq, List.length_cons]
    omega
  rw [asked0, fetchAsk_of_fetch (b + 1) fetch1]
  refine (offerOther_of_room _ _ (takes _ (b + 1) f1 longer)).trans ?_
  exact State.eq_of_blocks rfl rfl rfl rfl rfl rfl
    (congrArg (fun b => { s.rau with fetches := b }) (bank_set_set s.rau.fetches k (some f1) _)) rfl rfl

/-! ### FETCH_GRANT (R99, R132) -/

/-- R99: a codec at the beginning of a fetched VOICE message. -/
def decoderSet (length blocks : Nat) (v : Vcd) : Vcd := { v with
  source := some .fetched, kind := some .voice, blocks, length, position := 0, buffer := .reset, current := none }

theorem beginDecoding_of_first {s w : State} {k : ContextId} {length blocks : Nat} {buffer : Buffer} (early : (s.at k).voice.start < 1016)
    (some_samples : 0 < length) (fills : fillBuffer k .fetched blocks 0 Buffer.reset (s.modVcd k (decoderSet length blocks)) = (w, buffer))
    (waits : buffer.find 0 = .requested 0 ∨ buffer.find 0 = .empty) : beginDecoding k .fetched .voice length blocks s
      = (w.modVcd k fun v => { v with buffer }).modVcd k fun v => { v with current := some (0, 0), mark := .underrun } := by
  have firstBlock : min (s.at k).voice.start length / 1016 = 0 := Nat.div_eq_of_lt (by omega)
  have notEmpty : ¬ 0 = length := by omega
  have source : ((s.modVcd k (decoderSet length blocks)).at k).vcd = decoderSet length blocks (s.at k).vcd := by
    rw [State.modVcd, at_modCtx]
  have filled : refillPlayback k 0 (s.modVcd k (decoderSet length blocks)) = w.modVcd k fun v => { v with buffer } := by
    simp only [refillPlayback, source, decoderSet]
    simp only [fills]
  have found : ((w.modVcd k fun v => { v with buffer }).at k).vcd.buffer = buffer := by rw [State.modVcd, at_modCtx]
  have moved : moveDecoder k 0 (w.modVcd k fun v => { v with buffer })
      = (w.modVcd k fun v => { v with buffer }).modVcd k fun v => { v with current := some (0, 0), mark := .underrun } := by
    rcases waits with asked | empty
    · simp only [moveDecoder, found, asked]
    · simp only [moveDecoder, found, empty]
  rw [← moved, ← filled]
  simp only [beginDecoding, firstBlock, Nat.mul_zero, notEmpty, if_false]
  rfl

theorem openFetch_of_fetch {s : State} {k : ContextId} {f : Fetch} (handle : Nat) (fetch : s.fetch k = some f) : openFetch k handle s
    = s.setFetch k (some { f with state := .opened, handle := some handle, timer := none }) := by
  simp only [openFetch, fetch]

theorem takeGrant_of_opening {s : State} {c : Cell} {p : Fin 8} {k : ContextId} {f : Fetch} (tag : c.tag.toNat = k.val)
    (known : field c.payload 0 2 ≤ 511) (fetch : s.fetch k = some f) (home : homeAddress f.home = c.src) (opening : f.state = .opening) :
    takeGrant p c s = grantSession k c (openFetch k (field c.payload 0 2) s) := by
  have notAbove : ¬ 511 < field c.payload 0 2 := by omega
  have finds : grantFinds s (some k) c = .opening := by simp [grantFinds, fetch, home, opening]
  simp only [takeGrant, notAbove, if_false, contextOf_tag tag, finds]

theorem takeGrant_of_same {s : State} {c : Cell} {p : Fin 8} {k : ContextId} {f : Fetch} (tag : c.tag.toNat = k.val)
    (fetch : s.fetch k = some f) (home : homeAddress f.home = c.src) (opened : f.state = .opened)
    (handle : f.handle = some (field c.payload 0 2)) : takeGrant p c s = s := by
  have finds : grantFinds s (some k) c = .same := by simp [grantFinds, fetch, home, opened, handle]
  simp only [takeGrant, contextOf_tag tag, finds, ite_self]

theorem takeGrant_of_stray {s : State} {c : Cell} {p : Fin 8} {k : ContextId} (tag : c.tag.toNat = k.val)
    (known : field c.payload 0 2 ≤ 511) (none : s.fetch k = none) :
    takeGrant p c s = offerOther (protocolCell s c.src kindFetchClose c.tag (be2 (field c.payload 0 2))) 0 Option.none s := by
  have notAbove : ¬ 511 < field c.payload 0 2 := by omega
  have finds : grantFinds s (some k) c = .stray := by simp [grantFinds, none]
  simp only [takeGrant, notAbove, if_false, contextOf_tag tag, finds]
  rfl

theorem grantSession_of_voice {s : State} {c : Cell} {k : ContextId} (session : (s.at k).session = .voice)
    (playing : (s.at k).voice.activity = .playing) (script : (s.at k).voice.script = .none) (kind : field c.payload 2 1 = 0) :
    grantSession k c s = beginDecoding k .fetched .voice (field c.payload 3 3) (field c.payload 6 2) s := by
  have plays : fetchPlays (s.at k) = true := by simp [fetchPlays, playing, session]
  have notGreeting : inGreeting (s.at k).voice = false := by simp [inGreeting, script]
  have voice : msgKindOf 0 = some .voice := rfl
  simp only [grantSession, plays, if_true, kind, voice, playGranted, notGreeting, Bool.false_eq_true, if_false]

/-- What a grant leaves of the decoder, whether or not the context is held. -/
structure GrantTaken (k : ContextId) (length : Nat) (buffer : Buffer) (w t : State) : Prop where
  vcd : (t.at k).vcd.mark = .underrun ∧ (t.at k).vcd.current = some (0, 0) ∧ (t.at k).vcd.position = 0 ∧ (t.at k).vcd.length = length
  buffer : (t.at k).vcd.buffer = buffer
  clc : t.clc = w.clc
  rau : t.rau = w.rau

theorem grantTaken_of_fill {s w : State} {k : ContextId} {length blocks : Nat} {buffer : Buffer} (early : (s.at k).voice.start < 1016)
    (some_samples : 0 < length) (fills : fillBuffer k .fetched blocks 0 Buffer.reset (s.modVcd k (decoderSet length blocks)) = (w, buffer))
    (same : w.at k = (s.modVcd k (decoderSet length blocks)).at k) (waits : buffer.find 0 = .requested 0 ∨ buffer.find 0 = .empty) :
    GrantTaken k length buffer w (beginDecoding k .fetched .voice length blocks s) := by
  rw [beginDecoding_of_first early some_samples fills waits]
  have record : ((w.modVcd k fun v => { v with buffer }).modVcd k fun v => { v with current := some (0, 0), mark := .underrun }).at k
      = { s.at k with vcd := { decoderSet length blocks (s.at k).vcd with buffer, current := some (0, 0), mark := .underrun } } := by
    rw [State.modVcd, at_modCtx, State.modVcd, at_modCtx, same, State.modVcd, at_modCtx]
  refine ⟨?_, ?_, rfl, rfl⟩
  · rw [record]
    exact ⟨rfl, rfl, rfl, rfl⟩
  · rw [record]

/-- R142: a playback of no script whose fetch is refused. -/
theorem fetchEnds_of_refused {s : State} {k : ContextId} (cause : Byte) (session : (s.at k).session = .voice)
    (playing : (s.at k).voice.activity = .playing) (script : (s.at k).voice.script = .none)
    (elsewhere : ∀ h, (s.at k).vcd.source ≠ some (.here h)) :
    SameOff (sendEvent (some k) (.playDone codeNoSuch (s.at k).vcd.position) (endFetch k s)) (fetchEnds k (.refused cause) s)
      ∧ (fetchEnds k (.refused cause) s).at k = { s.at k with vcd := stopped (s.at k).vcd, voice := waiting (s.at k).voice } := by
  have plays : fetchPlays (s.at k) = true := by simp [fetchPlays, playing, session]
  obtain ⟨same, record⟩ := stopPlayback_ends elsewhere
  have noScript : ((stopPlayback k s).at k).voice.script = .none := by rw [record]; exact script
  obtain ⟨told, waits⟩ := playbackOver_of_none codeNoSuch noScript
  rw [record] at told waits
  simp only [fetchEnds, plays, if_true, playFetchEnded]
  exact ⟨same.sendEvent.trans told, waits⟩

theorem takeFetchRefuse_of_opening {s : State} {c : Cell} {p : Fin 8} {k : ContextId} {f : Fetch} (tag : c.tag.toNat = k.val)
    (fetch : s.fetch k = some f) (home : homeAddress f.home = c.src) (opening : f.state = .opening) :
    takeFetchRefuse p c s = fetchEnds k (.refused (byteAt c.payload 0)) s := by
  have ends : fetchRefuseEnds f c = some (.refused (byteAt c.payload 0)) := by simp [fetchRefuseEnds, home, opening]
  simp only [takeFetchRefuse, contextOf_tag tag, fetch, ends]

theorem exec_fetchGrant_of_opening {s : State} {c : Cell} {p : Fin 8} {k : ContextId} {f : Fetch} (q : s.Quiet) (tag : c.tag.toNat = k.val)
    (from_ : FromPeer s c kindFetchGrant p) (known : field c.payload 0 2 ≤ 511) (fetch : s.fetch k = some f) (home : homeAddress f.home = c.src)
    (opening : f.state = .opening) (session : (s.at k).session = .voice) (playing : (s.at k).voice.activity = .playing)
    (script : (s.at k).voice.script = .none) (kind : field c.payload 2 1 = 0) (early : (s.at k).voice.start < 1016)
    (some_samples : 0 < field c.payload 3 3) {w : State} {buffer : Buffer}
    (fills : fillBuffer k .fetched (field c.payload 6 2) 0 Buffer.reset
      (((popCell s).setFetch k (some { f with state := .opened, handle := some (field c.payload 0 2), timer := none })).modVcd k
        (decoderSet (field c.payload 3 3) (field c.payload 6 2))) = (w, buffer))
    (same : w.at k = ((popCell s).modVcd k (decoderSet (field c.payload 3 3) (field c.payload 6 2))).at k)
    (waits : buffer.find 0 = .requested 0 ∨ buffer.find 0 = .empty) (notices : w.rau.notices = s.rau.notices) :
    ∃ t, exec .fetchGrant s = .next t ∧ GrantTaken k (field c.payload 3 3) buffer w t := by
  let u := (popCell s).setFetch k (some { f with state := .opened, handle := some (field c.payload 0 2), timer := none })
  have taken := grantTaken_of_fill (s := u) early some_samples fills same waits
  have grants := takeGrant_of_opening (s := popCell s) (p := p) tag known fetch home opening
  rw [openFetch_of_fetch (s := popCell s) _ fetch, grantSession_of_voice (s := u) session playing script kind] at grants
  refine ⟨_, handPeer_eq from_ grants ?_, taken⟩
  rw [State.Quiet, taken.rau, notices]
  exact q

end Sys2Proof.Machine
end

section
/-! PROOFS. The family of the fetch cells at the reader, put together (R97, R98, R101, R132, R134, R142, R159). -/
namespace Sys2Proof.Machine

theorem exec_fetchData_of_fax {s : State} {c : Cell} {p : Fin 8} {k : ContextId} {f : Fetch} {other : Slot} {pieces : List (List Byte)}
    {left : Nat} (q : s.Quiet) (tag : c.tag.toNat = k.val) (from_ : FromPeer s c kindFetchData p) (fetch : s.fetch k = some f)
    (wants : fetchWants s k c = true) (fax : (s.at k).session = .fax) (held : (s.at k).held = true) (last : field c.payload 4 1 % 8 = 7)
    (seven : pieces.length = 7) (full : ∀ x ∈ pieces, x.length = 64)
    (buffer : (s.at k).fax.buffer = { a := .arriving (field c.payload 2 2) (pieces.zipIdx.map fun x => (x.2, x.1)) left, b := other })
    (apart : other.index ≠ some (field c.payload 2 2)) : exec .fetchData s = .next (((popCell s).setFetch k (some { f with
        pending := f.pending.filter (· != field c.payload 2 2)
        timer := if f.pending.filter (· != field c.payload 2 2) = [] then none else some 2000 })).modFax k fun x =>
          { x with buffer := { a := .ready (field c.payload 2 2) (pieces.flatten ++ c.payload.drop 5), b := other } }) := by
  have taken := takeFetchData_of_fax (s := popCell s) (p := p) tag fetch wants fax
  rw [last, placeFaxPart_of_last (s := (popCell s).setFetch k _) buffer apart seven full (length_partBytes from_), State.modFax, settle_heard,
    feed_of_held] at taken
  · exact handPeer_eq from_ taken q
  · rw [at_modCtx]
    exact held

theorem exec_fetchData_of_first {s : State} {c : Cell} {p : Fin 8} {k : ContextId} {f : Fetch} {other : Slot} (q : s.Quiet)
    (tag : c.tag.toNat = k.val) (from_ : FromPeer s c kindFetchData p) (fetch : s.fetch k = some f) (wants : fetchWants s k c = true)
    (voice : (s.at k).session = .voice) (buffer : (s.at k).vcd.buffer = { a := .requested (field c.payload 2 2), b := other })
    (apart : other.index ≠ some (field c.payload 2 2)) : exec .fetchData s = .next (((popCell s).setFetch k (some { f with timer := some 2000 })).modVcd k
      fun v => { v with buffer := { a := .arriving (field c.payload 2 2) [(field c.payload 4 1 % 8, c.payload.drop 5)] 10, b := other } }) := by
  have notFax : ((popCell s).at k).session ≠ .fax := by
    rw [show ((popCell s).at k).session = _ from voice]
    decide
  have taken := takeFetchData_of_play (s := popCell s) (p := p) tag fetch wants notFax
  rw [placePlayPart_of_requested (s := (popCell s).setFetch k _) _ _ _ buffer apart] at taken
  exact handPeer_eq from_ taken q

/-- The state in which the last part of a block has joined the slot of a playback. -/
def blockCome (s : State) (c : Cell) (k : ContextId) (f : Fetch) (other : Slot) (pieces : List (List Byte)) (a : Vcd → Vcd) : State :=
  ((popCell s).setFetch k (some { f with
      pending := f.pending.filter (· != field c.payload 2 2)
      timer := if f.pending.filter (· != field c.payload 2 2) = [] then none else some 2000 })).modVcd k fun v =>
    a { v with buffer := { a := .ready (field c.payload 2 2) (pieces.flatten ++ c.payload.drop 5), b := other } }

theorem exec_fetchData_of_last {s : State} {c : Cell} {p : Fin 8} {k : ContextId} {f : Fetch} {other : Slot} {pieces : List (List Byte)}
    {left n : Nat} (q : s.Quiet) (tag : c.tag.toNat = k.val) (from_ : FromPeer s c kindFetchData p) (fetch : s.fetch k = some f)
    (wants : fetchWants s k c = true) (voice : (s.at k).session = .voice) (last : field c.payload 4 1 % 8 = 7)
    (seven : pieces.length = 7) (full : ∀ x ∈ pieces, x.length = 64)
    (buffer : (s.at k).vcd.buffer = { a := .arriving (field c.payload 2 2) (pieces.zipIdx.map fun x => (x.2, x.1)) left, b := other })
    (apart : other.index ≠ some (field c.payload 2 2)) (mark : (s.at k).vcd.mark = .underrun)
    (current : (s.at k).vcd.current = some (field c.payload 2 2, n)) :
    ((s.at k).held = false → exec .fetchData s = .next (blockCome s c k f other pieces
      (decodingFrom (field c.payload 2 2) (pieces.flatten ++ c.payload.drop 5))))
    ∧ ((s.at k).held = true → exec .fetchData s = .next (blockCome s c k f other pieces id)) := by
  have notFax : ((popCell s).at k).session ≠ .fax := by
    rw [show ((popCell s).at k).session = _ from voice]
    decide
  have taken := takeFetchData_of_play (s := popCell s) (p := p) tag fetch wants notFax
  rw [last, placePlayPart_of_last (s := (popCell s).setFetch k _) buffer apart seven full (length_partBytes from_), State.modVcd,
    settle_heard] at taken
  have come := at_modCtx ((popCell s).setFetch k (some { f with
      pending := f.pending.filter (· != field c.payload 2 2)
      timer := if f.pending.filter (· != field c.payload 2 2) = [] then none else some 2000 })) k fun x => { x with vcd := { x.vcd with
        buffer := { a := .ready (field c.payload 2 2) (pieces.flatten ++ c.payload.drop 5), b := other } } }
  refine ⟨fun going => ?_, fun held => ?_⟩
  · rw [resumeDecoder_of_ready (other := other) (block := pieces.flatten ++ c.payload.drop 5) (by rw [come]; exact going)
      (by rw [come]; exact mark) (by rw [come]; exact current) (by rw [come]), State.modVcd, modCtx_modCtx] at taken
    exact handPeer_eq from_ taken q
  · rw [resumeDecoder_of_held (by rw [come]; exact held)] at taken
    exact handPeer_eq from_ taken q

/-- Settles O47: a grant by what it finds, a refusal through the end of its fetch, and a part by the slot it joins. -/
theorem readerTakesReplies : Obligations.ReaderTakesReplies := by
  intro s c p k q tag h cell
  refine ⟨fun grant => ⟨fun above => ?above, fun known absent => ?stray⟩,
    ⟨fun f other pieces left fetch home opened handle fax held data => ?fax, fun f fetch home connected voice playing script => ?play⟩⟩
  case above => exact handPeer_eq grant (if_pos above) q
  case stray =>
    have sent := takeGrant_of_stray (s := popCell s) (p := p) tag known absent
    rw [src_of_fromPeer grant] at sent
    exact handPeer_eq grant sent (offerOther_none_quiet (s := popCell s) _ _ q)
  case fax =>
    intro index pending last seven full buffer apart rest
    have known : homeAddress f.home = c.src := by rw [homeAddress_of_peer home, src_of_fromPeer data]
    exact exec_fetchData_of_fax q tag data fetch (fetchWants_of_pending fetch opened known handle pending) fax held last seven full buffer apart
  case play =>
    refine ⟨fun grant opened handle => ?same, fun grant opening first known early kind some_samples le more room => ?grant,
      fun n refuse opening handle source => ?refused, fun data opened handle => ?data⟩
    case same =>
      exact handPeer_eq grant (takeGrant_of_same (s := popCell s) tag fetch (by rw [homeAddress_of_peer home, src_of_fromPeer grant]) opened handle) q
    case grant =>
      have home' : homeAddress f.home = c.src := by rw [homeAddress_of_peer home, src_of_fromPeer grant]
      let f1 : Fetch := { f with state := .opened, handle := some h, timer := none }
      let u := ((popCell s).setFetch k (some f1)).modVcd k (decoderSet (field c.payload 3 3) (field c.payload 6 2))
      have fetch1 : u.fetch k = some f1 := fetch_setFetch ..
      cases held : (s.at k).held with
      | false =>
        have going : (u.at k).held = false := (congrArg Context.held (at_modCtx _ _ _)).trans held
        obtain ⟨t, run, ⟨mark, current, position, length⟩, buffer, clc, rau⟩ := exec_fetchGrant_of_opening q tag grant known fetch home' opening voice playing script kind
          early some_samples (fillBuffer_of_going 0 more going) ((at_fetchAsk ..).trans (at_fetchAsk ..)) (Or.inl rfl)
          (by rw [twoAsked 0 fetch1 first room]; rfl)
        rw [twoAsked 0 fetch1 first room] at clc rau
        refine ⟨t, run, mark, current, position, length, fun _ => ⟨?_, buffer, ?_⟩, nofun⟩
        · refine (fetch_congr rau k).trans ?_
          exact fetch_setFetch ..
        · have asks (index : Nat) : blockAsk u k f1 index = cell kindFetchBlock (be2 h ++ be2 index) := by
            change ownCell s 4 (homeAddress f.home) kindFetchBlock (tagOf k) _ = _
            rw [homeAddress_of_peer home, tagOf_context tag]
            rfl
          rw [asks, asks] at clc
          exact congrArg Clc.tx clc
      | true =>
        have stands : (u.at k).held = true := (congrArg Context.held (at_modCtx _ _ _)).trans held
        obtain ⟨t, run, ⟨mark, current, position, length⟩, buffer, clc, rau⟩ := exec_fetchGrant_of_opening q tag grant known fetch home' opening voice playing script kind
          early some_samples (fillBuffer_of_held _ _ stands) rfl (Or.inr rfl) rfl
        refine ⟨t, run, mark, current, position, length, nofun, fun _ => ⟨(fetch_congr rau k).trans fetch1, buffer, ?_⟩⟩
        rw [clc]
        rfl
    case refused =>
      obtain ⟨same, record⟩ := fetchEnds_of_refused (s := popCell s) (byteAt c.payload 0) voice playing script
        (fun h => by rw [show ((popCell s).at k).vcd.source = _ from source]; exact nofun)
      have closed := endFetch_of_handle (s := popCell s) fetch handle
      have closeCell : ownCell (popCell s) 4 (homeAddress f.home) kindFetchClose (tagOf k) (be2 n) = cell kindFetchClose (be2 n) := by
        rw [homeAddress_of_peer home, tagOf_context tag]
        rfl
      rw [closeCell] at closed
      have rau : (fetchEnds k (.refused (byteAt c.payload 0)) (popCell s)).rau = ((popCell s).setFetch k none).rau := by
        rw [same.rau, sendEvent_rau, closed, offerOther_rau]
      have refused := takeFetchRefuse_of_opening (s := popCell s) (p := p) tag fetch
        (by rw [homeAddress_of_peer home, src_of_fromPeer refuse]) opening
      refine ⟨_, handPeer_eq refuse refused (quiet_of_rau (s := (popCell s).setFetch k none) q rau), ?_, ?_⟩
      · exact (fetch_congr rau k).trans (fetch_setFetch ..)
      · rw [record, same.clc, closed, ← offerOther_none_setFetch]
        exact ⟨rfl, rfl, (sendEvent_congr _ _ (by rfl) (by rfl)).1⟩
    case data =>
      intro index part pending
      have known : homeAddress f.home = c.src := by rw [homeAddress_of_peer home, src_of_fromPeer data]
      have wants := fetchWants_of_pending fetch opened known handle pending
      refine ⟨fun other buffer apart => exec_fetchData_of_first q tag data fetch wants voice buffer apart,
        fun other pieces left n buffer apart seven full last mark current => ?_⟩
      exact exec_fetchData_of_last q tag data fetch wants voice last seven full buffer apart mark current

end Sys2Proof.Machine
end

section
/-! PROOFS. The family of the slots whose time is over: how a block of one part is completed, and what its playback or its page
does with it (R97, R98, R159). -/
namespace Sys2Proof.Machine

/-! ### A block of one part (R97, R159) -/

theorem replicate_append_append (m n : Nat) (fill : Byte) (rest : List Byte) :
    List.replicate m fill ++ (List.replicate n fill ++ rest) = List.replicate (m + n) fill ++ rest := by
  rw [← List.append_assoc, List.replicate_append_replicate]

/-- R97, R159: a block of one part alone has the header made anew and its fill before and after the part. -/
theorem completeParts_of_one {fill : Byte} {header bytes : List Byte} {q : Nat} (low : 1 ≤ q) (below : q < 8) (full : bytes.length = 64) :
    completeParts fill header [(q, bytes)]
      = header ++ (List.replicate (64 * q - 4) fill ++ (bytes ++ List.replicate (448 - 64 * q) fill)) := by
  have other (p : Nat) (ne : q ≠ p) : ([(q, bytes)].find? fun x => x.1 == p) = none := by simp [ne]
  have notFirst : ([(q, bytes)].any fun x => x.1 == 0) = false := by
    simp
    omega
  have fitted : fitTo 64 fill bytes = bytes := fitTo_self fill full
  have split : completeParts fill header [(q, bytes)] = header ++ (List.replicate (64 * q) fill ++ (bytes ++ List.replicate (448 - 64 * q) fill)).drop 4 := by
    simp only [completeParts, notFirst, Bool.false_eq_true, if_false, partIds, List.flatMap_cons, List.flatMap_nil]
    interval_cases q <;> simp [-List.reduceReplicate, fitted, replicate_append_append, List.replicate_append_replicate]
  rw [split, List.drop_append_of_le_length (by rw [List.length_replicate]; omega), List.drop_replicate]

/-- A block that one part and its fill make. -/
structure FilledBlock (fill : Byte) (header bytes : List Byte) (q : Nat) (block : List Byte) : Prop where
  length : block.length = 512
  header : block.take 4 = header
  part : (block.drop (64 * q)).take 64 = bytes
  rest : ∀ i, 4 ≤ i → i < 512 → i / 64 ≠ q → block.getD i 0 = fill

theorem filledBlock_of_one (fill : Byte) {header bytes : List Byte} {q : Nat} (four : header.length = 4) (low : 1 ≤ q) (below : q < 8)
    (full : bytes.length = 64) : FilledBlock fill header bytes q (completeParts fill header [(q, bytes)]) := by
  have before : (header ++ List.replicate (64 * q - 4) fill).length = 64 * q := by
    rw [List.length_append, List.length_replicate, four]
    omega
  rw [completeParts_of_one low below full]
  refine ⟨?_, List.take_left' four, ?_, fun i low high apart => ?_⟩
  · simp only [List.length_append, List.length_replicate, four, full]
    omega
  · rw [← List.append_assoc, List.drop_left' before, List.take_left' full]
  · rw [List.getD_eq_getElem?_getD, List.getElem?_append_right (by omega), four]
    by_cases early : i < 64 * q
    · rw [List.getElem?_append_left (by rw [List.length_replicate]; omega), List.getElem?_replicate_of_lt (by omega), Option.getD_some]
    · have late : 64 * q + 64 ≤ i := by omega
      rw [List.getElem?_append_right (by rw [List.length_replicate]; omega), List.length_replicate,
        List.getElem?_append_right (by omega), List.getElem?_replicate_of_lt (by omega), Option.getD_some]

theorem byteAt_of_header {header block : List Byte} {i : Nat} (first : block.take 4 = header) (below : i < 4) : byteAt block i = byteAt header i := by
  rw [← first, byteAt, byteAt, List.getD_eq_getElem?_getD, List.getD_eq_getElem?_getD, List.getElem?_take_of_lt below]

theorem field_of_header {header block : List Byte} (first : block.take 4 = header) : field block 0 2 = field header 0 2 := by
  rw [← first, field, field, List.drop_zero, List.drop_zero, List.take_take, Nat.min_eq_left (by decide : 2 ≤ 4)]

/-! ### A late slot (R97, R159) -/

theorem find_of_arriving {b left : Nat} {parts : List (Nat × List Byte)} {other : Slot} :
    (Buffer.mk (.arriving b parts left) other).find b = .arriving b parts left := find_of_first rfl

theorem quiet_fetchSettle (k : ContextId) (b : Nat) {s : State} (q : s.Quiet) : (fetchSettle k b s).Quiet := by
  cases fetch : s.fetch k with
  | none => simpa only [fetchSettle, fetch] using q
  | some f =>
    rw [fetchSettle_of_fetch b fetch]
    exact q

theorem fetchSettle_clc (k : ContextId) (b : Nat) (s : State) : (fetchSettle k b s).clc = s.clc := by
  cases fetch : s.fetch k with
  | none => simp only [fetchSettle, fetch]
  | some f =>
    rw [fetchSettle_of_fetch b fetch]
    rfl

theorem at_fetchSettle (k j : ContextId) (b : Nat) (s : State) : (fetchSettle k b s).at j = s.at j :=
  (spares_fetchSettle (Spares.refl id s)).at_eq j

/-- The slots of a buffer whose late slot has been completed. -/
def slotFilled (fill : Byte) (header : List Byte) (b : Nat) (parts : List (Nat × List Byte)) (other : Slot) : Buffer :=
  { a := .ready b (completeParts fill header parts), b := if other.index = some b then other.fill fill header else other }

theorem map_fill (fill : Byte) (header : List Byte) (b left : Nat) (parts : List (Nat × List Byte)) (other : Slot) :
    ((Buffer.mk (.arriving b parts left) other).map fun x => if x.index = some b then x.fill fill header else x)
      = slotFilled fill header b parts other := by
  simp only [Buffer.map, slotFilled, Slot.index, if_true, Slot.fill]

theorem fillPlaySlot_of_late {s : State} {k : ContextId} {b n : Nat} {parts : List (Nat × List Byte)} {other : Slot}
    (going : (s.at k).held = false) (mark : (s.at k).vcd.mark = .underrun) (current : (s.at k).vcd.current = some (b, n))
    (buffer : (s.at k).vcd.buffer = { a := .arriving b parts 0, b := other }) : fillPlaySlot k b s
      = (fetchSettle k b (s.modVcd k fun v => { v with buffer := slotFilled 0x80 playHeader b parts other })).modVcd k
          (decodingFrom b (completeParts 0x80 playHeader parts)) := by
  have same : (s.modVcd k fun v => { v with buffer := v.buffer.map fun x => if x.index = some b then x.fill 0x80 playHeader else x })
      = s.modVcd k fun v => { v with buffer := slotFilled 0x80 playHeader b parts other } :=
    modCtx_congr (congrArg (fun b => { s.at k with vcd := { (s.at k).vcd with buffer := b } }) (by rw [buffer, map_fill]))
  have come : (fetchSettle k b (s.modVcd k fun v => { v with buffer := slotFilled 0x80 playHeader b parts other })).at k
      = { s.at k with vcd := { (s.at k).vcd with buffer := slotFilled 0x80 playHeader b parts other } } := by
    rw [at_fetchSettle, State.modVcd, at_modCtx]
  rw [fillPlaySlot, same]
  exact resumeDecoder_of_ready (by rw [come]; exact going) (by rw [come]; exact mark) (by rw [come]; exact current) (by rw [come]; rfl)

theorem exec_slotFillTimeout_of_voice {s : State} {k : ContextId} {b n : Nat} {parts : List (Nat × List Byte)} {other : Slot} (q : s.Quiet)
    (going : (s.at k).held = false) (voice : (s.at k).session = .voice) (mark : (s.at k).vcd.mark = .underrun)
    (current : (s.at k).vcd.current = some (b, n)) (buffer : (s.at k).vcd.buffer = { a := .arriving b parts 0, b := other }) :
    exec (.slotFillTimeout k) s = .next (fillPlaySlot k b s) := by
  have noFax : lateFaxBlock (s.at k) = none := by simp [lateFaxBlock, voice]
  have late : latePlayBlock (s.at k) = some b := by
    simp only [latePlayBlock, mark, current, buffer, find_of_arriving]
    rfl
  have quiet : (fillPlaySlot k b s).Quiet := by
    rw [fillPlaySlot_of_late going mark current buffer]
    exact quiet_fetchSettle k b (s := s.modVcd k _) q
  change execSlotFillTimeout k s = _
  simp only [execSlotFillTimeout, noFax, late]
  exact act_of_due s (by rw [going]; rfl) quiet

/-! ### The next frame of a page (R159) -/

/-- What asking for blocks changes: no context, and no notice is left. -/
structure AsksOnly (s t : State) : Prop where
  ctx : ∀ k, t.at k = s.at k
  quiet : s.Quiet → t.Quiet

theorem AsksOnly.refl (s : State) : AsksOnly s s := ⟨fun _ => rfl, id⟩

theorem AsksOnly.trans {s t u : State} (a : AsksOnly s t) (b : AsksOnly t u) : AsksOnly s u :=
  ⟨fun k => (b.ctx k).trans (a.ctx k), fun q => b.quiet (a.quiet q)⟩

theorem asksOnly_fetchAsk (k : ContextId) (index : Nat) (s : State) : AsksOnly s (fetchAsk k index s) := by
  refine ⟨fun j => at_fetchAsk k j index s, fun q => ?_⟩
  cases fetch : s.fetch k with
  | none => simpa only [fetchAsk, fetch] using q
  | some f =>
    rw [fetchAsk_of_fetch index fetch]
    exact offerOther_none_quiet (s := s.setFetch k _) _ _ q

theorem asksOnly_readBlockFor (h : Nat) (p : Fin 8) (n index : Nat) (s : State) : AsksOnly s (readBlockFor h p n index s).1 := by
  have none : AsksOnly s s := .refl s
  unfold readBlockFor
  split
  · exact none
  · split
    · exact none
    · split
      · exact none
      · split
        · exact none
        · have only := storeOnly_touchReader h p n s
          exact ⟨only.at, only.quiet⟩

/-- Asking a source for a block gives no slot or one of that block. -/
theorem asksOnly_askBlock (k : ContextId) (source : Source) (index : Nat) (s : State) : AsksOnly s (askBlock k source index s).1
    ∧ ((askBlock k source index s).2 = .empty ∨ (askBlock k source index s).2.index = some index) := by
  unfold askBlock
  split
  next h =>
    have read := asksOnly_readBlockFor h s.cfu.station k.val index s
    split
    next eq => rw [eq] at read; exact ⟨read, Or.inr rfl⟩
    next eq => rw [eq] at read; exact ⟨read, Or.inl rfl⟩
  next =>
    split
    · exact ⟨.refl s, Or.inl rfl⟩
    · exact ⟨asksOnly_fetchAsk k index s, Or.inr rfl⟩

/-- A buffer that awaits one block and holds at most the one after it. -/
def Awaits (index : Nat) (b : Buffer) : Prop := ∃ x : Slot, b = { a := x, b := .requested index } ∧ (x = .empty ∨ x.index = some (index + 1))

theorem awaits_find {index : Nat} {b : Buffer} (awaits : Awaits index b) : b.find index = .requested index := by
  obtain ⟨x, rfl, empty⟩ := awaits
  have other : x.index ≠ some index := by
    rcases empty with rfl | ahead
    · exact nofun
    · rw [ahead]
      simp
  simp only [Buffer.find, other, if_false]
  exact if_pos rfl

theorem askNext_awaits {k : ContextId} {source : Source} {blocks needed index : Nat} {b : Buffer} (s : State) (awaits : Awaits index b) :
    AsksOnly s (askNext k source blocks needed b s).1 ∧ Awaits index (askNext k source blocks needed b s).2 := by
  obtain ⟨x, rfl, empty⟩ := awaits
  by_cases asks : ((Buffer.mk x (.requested index)).hasRoom
      && (decide ((Buffer.mk x (.requested index)).next needed < blocks))) = true
  · have free : x = .empty := by
      rw [Bool.and_eq_true, Buffer.hasRoom, Bool.or_eq_true, beq_iff_eq, beq_iff_eq] at asks
      exact asks.1.resolve_right (by simp)
    subst free
    obtain ⟨asked, slot⟩ := asksOnly_askBlock k source (index + 1) s
    rw [askNext, if_pos asks]
    exact ⟨asked, _, rfl, slot⟩
  · rw [askNext, if_neg asks]
    exact ⟨.refl s, x, rfl, empty⟩

theorem fillBuffer_awaits {k : ContextId} {source : Source} {blocks needed index : Nat} {b : Buffer} (s : State) (awaits : Awaits index b) :
    AsksOnly s (fillBuffer k source blocks needed b s).1 ∧ Awaits index (fillBuffer k source blocks needed b s).2 := by
  obtain ⟨first, waits⟩ := askNext_awaits (k := k) (source := source) (blocks := blocks) (needed := needed) s awaits
  obtain ⟨second, still⟩ := askNext_awaits (k := k) (source := source) (blocks := blocks) (needed := needed) _ waits
  exact ⟨first.trans second, still⟩

theorem cutFrames_of_one {data : List Byte} (n : Nat) (long : 256 ≤ data.length) (short : data.length < 512) :
    cutFrames 4 n data = ([(n, data.take 256)], (n + 1) % 256, data.drop 256) := by
  have notShort : ¬ data.length < 256 := by omega
  have rest : (data.drop 256).length < 256 := by rw [List.length_drop]; omega
  simp only [cutFrames, notShort, rest, if_true, if_false]

/-- A page whose next frame, of a number, has been cut from the block in hand. -/
def frameCut (b n : Nat) (block : List Byte) (f : Fax) : Fax := { f with
  framesOut := f.framesOut ++ [(n, (block.drop 4).take 256)], frameNumber := (n + 1) % 256
  frame := block.drop 260, buffer := f.buffer.drop b, sendBlock := b + 1, sendOffset := 0, pageEnd := none }

/-- A send asks for the blocks after the one it has fed. -/
def refillSend (k : ContextId) (needed : Nat) (s : State) : State :=
  match (s.at k).fax.source with
  | none => s
  | some source =>
    let r := fillBuffer k source (s.at k).fax.blocks needed (s.at k).fax.buffer s
    r.1.modFax k fun f => { f with buffer := r.2 }

theorem refillSend_awaits {k : ContextId} {index : Nat} {s : State} (needed : Nat) (waits : Awaits index (s.at k).fax.buffer) :
    ∃ w y, AsksOnly s w ∧ Awaits index y ∧ refillSend k needed s = w.modFax k fun f => { f with buffer := y } := by
  cases source : (s.at k).fax.source with
  | none =>
    refine ⟨s, (s.at k).fax.buffer, .refl s, waits, ?_⟩
    simp only [refillSend, source]
    exact (modCtx_self rfl).symm
  | some source' =>
    obtain ⟨asks, awaits⟩ := fillBuffer_awaits (k := k) (source := source') (blocks := (s.at k).fax.blocks) (needed := needed) s waits
    refine ⟨_, _, asks, awaits, ?_⟩
    simp only [refillSend, source]

theorem feedBlock_of_frame {s : State} {k : ContextId} {b : Nat} {block : List Byte} (length : block.length = 512)
    (header : block.take 4 = [0x01, 0xFC, 0, 0]) (frame : (s.at k).fax.frame = []) (more : b + 1 < (s.at k).fax.blocks) :
    feedBlock k b block s = refillSend k (b + 1) (s.modFax k (frameCut b (s.at k).fax.frameNumber block)) := by
  have valid : faxValid block = 508 := by
    rw [faxValid, field_of_header header]
    decide
  have data : (block.drop 4).take 508 = block.drop 4 := List.take_of_length_le (by rw [List.length_drop]; omega)
  have size : (block.drop 4).length = 508 := by rw [List.length_drop]; omega
  have inside : blockTopFlag block = false := by
    rw [blockTopFlag, byteAt_of_header header (by decide)]
    rfl
  have notLast : ¬ (s.at k).fax.blocks ≤ b + 1 := by omega
  have cut := cutFrames_of_one (s.at k).fax.frameNumber (data := block.drop 4) (by omega) (by omega)
  rw [List.drop_drop] at cut
  simp only [feedBlock, frame, valid, data, inside, notLast, decide_false, Bool.or_self, Bool.false_and, Bool.false_eq_true, if_false,
    List.nil_append, cut]
  rfl

theorem feedPage_of_waiting {s : State} {k : ContextId} {index : Nat} (n : Nat) (waits : (s.at k).fax.buffer.find (s.at k).fax.sendBlock = .requested index) :
    feedPage k n s = s := by
  cases n with
  | zero => rfl
  | succ n =>
    simp only [feedPage]
    split
    next ready => exact absurd (waits.symm.trans ready) nofun
    next => rfl

theorem feedPage_of_ready {s : State} {k : ContextId} {b : Nat} {block : List Byte} (n : Nat) (sending : (s.at k).fax.phase = .sending)
    (inPage : (s.at k).fax.pageEnd = none) (ready : (s.at k).fax.buffer.find (s.at k).fax.sendBlock = .ready b block) :
    feedPage k (n + 1) s = feedPage k n (feedBlock k b block s) := by
  simp only [feedPage, sending, inPage, ready]

/-- The page of a send whose block in hand gave one frame, and which awaits the next block. -/
structure FrameSent (b : Nat) (block : List Byte) (f g : Fax) : Prop where
  sendBlock : g.sendBlock = b + 1
  phase : g.phase = f.phase
  pageEnd : g.pageEnd = none
  framesOut : g.framesOut = f.framesOut ++ [(f.frameNumber, (block.drop 4).take 256)]
  frameNumber : g.frameNumber = (f.frameNumber + 1) % 256
  frame : g.frame = block.drop 260

theorem feed_of_frame {s : State} {k : ContextId} {b : Nat} {block : List Byte} (going : (s.at k).held = false) (length : block.length = 512)
    (header : block.take 4 = [0x01, 0xFC, 0, 0]) (frame : (s.at k).fax.frame = []) (more : b + 1 < (s.at k).fax.blocks)
    (sending : (s.at k).fax.phase = .sending) (inPage : (s.at k).fax.pageEnd = none) (sendBlock : (s.at k).fax.sendBlock = b)
    (buffer : (s.at k).fax.buffer = { a := .ready b block, b := .requested (b + 1) }) (q : s.Quiet) :
    (feed k s).Quiet ∧ FrameSent b block (s.at k).fax ((feed k s).at k).fax := by
  have ready : (s.at k).fax.buffer.find (s.at k).fax.sendBlock = .ready b block := by rw [sendBlock, buffer, find_of_first rfl]
  have record : ((s.modFax k (frameCut b (s.at k).fax.frameNumber block)).at k).fax = frameCut b (s.at k).fax.frameNumber block (s.at k).fax := by
    rw [State.modFax, at_modCtx]
  have waits : Awaits (b + 1) ((s.modFax k (frameCut b (s.at k).fax.frameNumber block)).at k).fax.buffer := by
    rw [record, frameCut, buffer]
    exact ⟨.empty, by simp [Buffer.drop, Buffer.map, Slot.index], Or.inl rfl⟩
  obtain ⟨w, y, asks, awaits, filled⟩ := refillSend_awaits (b + 1) waits
  have cut : ((w.modFax k fun f => { f with buffer := y }).at k).fax
      = { frameCut b (s.at k).fax.frameNumber block (s.at k).fax with buffer := y } := by
    rw [State.modFax, at_modCtx, asks.ctx, record]
  have stops : ((w.modFax k fun f => { f with buffer := y }).at k).fax.buffer.find ((w.modFax k fun f => { f with buffer := y }).at k).fax.sendBlock
      = .requested (b + 1) := by
    rw [cut]
    exact awaits_find awaits
  have fed : feed k s = w.modFax k fun f => { f with buffer := y } := by
    rw [feed, going, if_neg Bool.false_ne_true, feedPage_of_ready _ sending inPage ready, feedBlock_of_frame length header frame more, filled,
      feedPage_of_waiting _ stops]
  rw [fed]
  refine ⟨asks.quiet q, ?_⟩
  rw [cut]
  exact ⟨rfl, rfl, rfl, rfl, rfl, rfl⟩

theorem fillFaxSlot_of_late {s : State} {k : ContextId} {b : Nat} {parts : List (Nat × List Byte)} {other : Slot}
    (buffer : (s.at k).fax.buffer = { a := .arriving b parts 0, b := other }) : fillFaxSlot k b s
      = feed k (fetchSettle k b (s.modFax k fun f => { f with buffer := slotFilled 0 faxSendHeader b parts other })) := by
  have same : (s.modFax k fun f => { f with buffer := f.buffer.map fun x => if x.index = some b then x.fill 0 faxSendHeader else x })
      = s.modFax k fun f => { f with buffer := slotFilled 0 faxSendHeader b parts other } :=
    modCtx_congr (congrArg (fun b => { s.at k with fax := { (s.at k).fax with buffer := b } }) (by rw [buffer, map_fill]))
  rw [fillFaxSlot, same]

theorem exec_slotFillTimeout_of_fax {s : State} {k : ContextId} {b : Nat} {parts : List (Nat × List Byte)} (q : s.Quiet)
    (going : (s.at k).held = false) (fax : (s.at k).session = .fax) (sending : (s.at k).fax.phase = .sending)
    (inPage : (s.at k).fax.pageEnd = none) (sendBlock : (s.at k).fax.sendBlock = b) (frame : (s.at k).fax.frame = [])
    (more : b + 1 < (s.at k).fax.blocks) (buffer : (s.at k).fax.buffer = { a := .arriving b parts 0, b := .requested (b + 1) })
    (length : (completeParts 0 faxSendHeader parts).length = 512) (header : (completeParts 0 faxSendHeader parts).take 4 = [0x01, 0xFC, 0, 0]) :
    ∃ t, exec (.slotFillTimeout k) s = .next t ∧ FrameSent b (completeParts 0 faxSendHeader parts) (s.at k).fax (t.at k).fax := by
  have late : lateFaxBlock (s.at k) = some b := by
    have slot : ((s.at k).fax.buffer.find b).late = true := by
      rw [buffer, find_of_arriving]
      rfl
    simp [lateFaxBlock, fax, sending, inPage, sendBlock, slot]
  let u := fetchSettle k b (s.modFax k fun f => { f with buffer := slotFilled 0 faxSendHeader b parts (.requested (b + 1)) })
  have come : u.at k = { s.at k with fax := { (s.at k).fax with buffer := slotFilled 0 faxSendHeader b parts (.requested (b + 1)) } } := by
    rw [at_fetchSettle, State.modFax, at_modCtx]
  have other : (Slot.requested (b + 1)).index ≠ some b := by simp [Slot.index]
  have slots : (u.at k).fax.buffer = { a := .ready b (completeParts 0 faxSendHeader parts), b := .requested (b + 1) } := by
    rw [come]
    simp only [slotFilled, other, if_false]
  obtain ⟨quiet, sent⟩ := feed_of_frame (s := u) (by rw [come]; exact going) length header (by rw [come]; exact frame) (by rw [come]; exact more)
    (by rw [come]; exact sending) (by rw [come]; exact inPage) (by rw [come]; exact sendBlock) slots (quiet_fetchSettle k b (s := s.modFax k _) q)
  rw [← fillFaxSlot_of_late buffer] at quiet sent
  refine ⟨fillFaxSlot k b s, ?_, ?_⟩
  · change execSlotFillTimeout k s = _
    simp only [execSlotFillTimeout, late]
    exact act_of_due s (by rw [going]; rfl) quiet
  · obtain ⟨h1, h2, h3, h4, h5, h6⟩ := sent
    rw [come] at h2 h4 h5
    exact ⟨h1, h2, h3, h4, h5, h6⟩

/-- Settles O53: the block is completed by its fill, and then its playback goes on or its page gives a frame. -/
theorem lateSlotsAreFilled : Obligations.LateSlotsAreFilled := by
  intro s k b q bytes other quiet going low below full filled
  refine ⟨fun n voice mark current buffer => ?voice, fun fax sending inPage sendBlock frame more buffer => ?fax⟩
  case voice =>
    have block := filledBlock_of_one 0x80 (header := playHeader) (by rfl) low below full
    have predictor : headerPredictor (completeParts 0x80 playHeader [(q, bytes)]) = 0 := by
      rw [headerPredictor, field_of_header block.header]
      decide
    have index : headerIndex (completeParts 0x80 playHeader [(q, bytes)]) = 0 := by
      rw [headerIndex, byteAt_of_header block.header (by decide)]
      decide
    have run := exec_slotFillTimeout_of_voice quiet going voice mark current buffer
    rw [fillPlaySlot_of_late going mark current buffer] at run
    refine ⟨_, _, run, ⟨block.length, block.header, block.part, block.rest⟩, ?_⟩
    rw [State.modVcd, at_modCtx, at_fetchSettle, State.modVcd, at_modCtx]
    exact ⟨rfl, rfl, rfl, predictor, index, (fetchSettle_clc k b _ :)⟩
  case fax =>
    have block := filledBlock_of_one 0 (header := faxSendHeader) (by rfl) low below full
    obtain ⟨t, run, sent⟩ := exec_slotFillTimeout_of_fax quiet going fax sending inPage sendBlock frame more buffer block.length block.header
    exact ⟨t, _, run, ⟨block.length, block.header, block.part, block.rest⟩, sent.sendBlock, sent.phase.trans sending, sent.pageEnd,
      sent.framesOut, sent.frameNumber, sent.frame⟩

end Sys2Proof.Machine
end

section
/-! PROOFS. The family of the fax receive: when its commands act, its trainings, and the frames of a page (R150, R153, R154, R156). -/
namespace Sys2Proof.Machine

/-! ### When a command of the pump acts (R150) -/

theorem pumpServes_eq_true {s : State} {k : ContextId} {kind : SessionKind} (connected : (s.at k).state = .connected)
    (session : (s.at k).session = kind) (going : (s.at k).held = false) : pumpServes s k kind = true := by
  simp [pumpServes, connected, session, going]

theorem faxIn_eq_true {s : State} {k : ContextId} {role : FaxRole} {phase : FaxPhase} (serves : pumpServes s k .fax = true)
    (is : (s.at k).fax.role = some role) (stands : (s.at k).fax.phase = phase) : faxIn s k role phase = true := by
  simp [faxIn, serves, is, stands]

/-! ### A session that disconnects is told of nothing (R124, R134) -/

/-- A fax session that sends its DISCONNECT. -/
structure Disconnecting (x : Context) : Prop where
  session : x.session = .fax
  phase : x.fax.phase = .disconnecting
  silent : x.voice.activity = .none

theorem spares_depositEnds_of_disconnecting {s : State} {k : ContextId} (ending : Disconnecting (s.at k)) (d : OutDeposit)
    (o : DepositOutcome) : Spares id s (depositEnds k d o s) := by
  have freed : Spares id s (freeDeposit k s) := spares_freeDeposit (Spares.refl id s)
  have notRecording : (s.at k).voice.activity ≠ .recording := by rw [ending.silent]; decide
  by_cases fax : d.kind = .fax
  · rw [depositEnds_of_fax_gone o fax notRecording (Or.inr ending.phase)]
    exact freed
  · have told := freed.trans (spares_reportDeposit id k d o (freeDeposit k s))
    have idle : recordingDepositEnded k d o (freeDeposit k s) = reportDeposit k d o (freeDeposit k s) := by
      have still : ((freeDeposit k s).at k).voice.activity ≠ .recording := notRecording
      simp [recordingDepositEnded, still]
    have done : afterDeposit k (reportDeposit k d o (freeDeposit k s)) = reportDeposit k d o (freeDeposit k s) := by
      refine afterDeposit_of_done (by rw [told.at_eq]; exact notRecording) (Or.inr ?_)
      rw [told.at_eq, ending.phase]
      decide
    simp only [depositEnds, fax, if_false, idle, done]
    exact told

theorem spares_fetchEnds_of_disconnecting {s : State} {k : ContextId} (ending : Disconnecting (s.at k)) (o : FetchOutcome) :
    Spares id s (fetchEnds k o s) := by
  have notPlaying : fetchPlays (s.at k) = false := by
    rw [fetchPlays, ending.silent]
    rfl
  have ended : Spares id s (endFetch k s) := spares_endFetch (Spares.refl id s)
  have still : ((endFetch k s).at k).fax.phase = .disconnecting := by rw [ended.at_eq]; exact ending.phase
  by_cases sends : (s.at k).fax.role = some .send
  · simpa [fetchEnds, notPlaying, ending.session, sends, faxFetchEnded, still] using ended
  · simpa [fetchEnds, notPlaying, sends] using ended

theorem spares_undelivered_of_disconnecting {s : State} {k : ContextId} (kind : Byte) (serial : Nat) (ending : Disconnecting (s.at k)) :
    Spares id s (undelivered k kind serial s) := by
  have same : Spares id s s := .refl id s
  unfold undelivered
  split
  · split
    · split
      · exact spares_fetchEnds_of_disconnecting ending _
      · exact same
    · exact same
  · split
    · split
      · exact spares_depositEnds_of_disconnecting ending _ _
      · exact same
    · exact same

theorem spares_settle_of_disconnecting {s t : State} {k : ContextId} (q : s.Quiet) (apart : Apart k s t) (ending : Disconnecting (t.at k)) :
    Spares id t (settle t) :=
  spares_settle_of (fun _ kind serial ending => spares_undelivered_of_disconnecting kind serial ending) q apart ending

/-! ### Trainings (R153) -/

theorem takeMode_of_allowed {s : State} {k : ContextId} {rate : Nat} (allowed : rate ≤ (configOf s).faxMaxRate) : takeMode k rate s
    = s.modCtx k fun x => { x with
        fax := { x.fax with rate, phase := .training, wait := none }
        qmn := { x.qmn with readings := 0 }, pump := { x.pump with state := .trainingReceive rate } } := by
  have notAbove : ¬ (configOf s).faxMaxRate < rate := by omega
  simp only [takeMode, notAbove, if_false, enterPhase, setPump, State.modFax, State.modQmn, State.modPump, modCtx_modCtx]

/-- A receive that has sent one more TRAIN_BAD. -/
def trainedBadly (x : Context) : Context := { x with
  fax := { x.fax with badTrainings := x.fax.badTrainings + 1 }, pump := { x.pump with control := x.pump.control ++ [.trainBad] } }

theorem trainBadSent_of_few {s : State} {k : ContextId} (few : (s.at k).fax.badTrainings < 3) : trainBadSent k s
    = s.modCtx k fun x => { x with
        fax := { x.fax with badTrainings := x.fax.badTrainings + 1, phase := .awaitMode, wait := some 6000 }
        pump := { state := .control, control := x.pump.control ++ [.trainBad] } } := by
  have again : ¬ 4 ≤ ((s.modCtx k trainedBadly).at k).fax.badTrainings := by
    rw [at_modCtx]
    exact Nat.not_le.mpr (Nat.succ_lt_succ few)
  have sent : (sendControl k .trainBad s).modFax k (fun f => { f with badTrainings := f.badTrainings + 1 }) = s.modCtx k trainedBadly :=
    modCtx_modCtx ..
  simp only [trainBadSent, sent, again, if_false]
  simp only [awaitMode, enterPhase, setPump, State.modFax, State.modPump, modCtx_modCtx]
  rfl

theorem trainBadSent_of_many {s : State} {k : ContextId} (many : 3 ≤ (s.at k).fax.badTrainings) :
    trainBadSent k s = endReceive k true (some reasonStopped) codeFaxFailed (s.modCtx k trainedBadly) := by
  have enough : 4 ≤ ((s.modCtx k trainedBadly).at k).fax.badTrainings := by
    rw [at_modCtx]
    exact Nat.succ_le_succ many
  have sent : (sendControl k .trainBad s).modFax k (fun f => { f with badTrainings := f.badTrainings + 1 }) = s.modCtx k trainedBadly :=
    modCtx_modCtx ..
  simp only [trainBadSent, sent, enough, if_true]

theorem at_closeFaxTarget (k : ContextId) (reason : Byte) (s : State) : (closeFaxTarget k reason s).at k
    = { s.at k with fax := { (s.at k).fax with target := none, build := [] } } := by
  have first : (s.modFax k fun f => { f with target := none, build := [] }).at k
      = { s.at k with fax := { (s.at k).fax with target := none, build := [] } } := at_modCtx ..
  rw [← first]
  unfold closeFaxTarget
  dsimp only
  split
  · exact (spares_closeBy (Spares.refl id _)).at_eq k
  · exact (spares_askClose (Spares.refl id _)).at_eq k
  · rfl

/-- A fax session that sends its DISCONNECT with a result. -/
def disconnectSent (result : Byte) (x : Context) : Context := { x with
  fax := { x.fax with result := some result, build := [], phase := .disconnecting, wait := none }
  pump := { x.pump with control := x.pump.control ++ [.disconnect] } }

theorem sendDisconnect_eq (k : ContextId) (result : Byte) (s : State) : sendDisconnect k result s = s.modCtx k (disconnectSent result) := by
  simp only [sendDisconnect, enterPhase, sendControl, State.modFax, State.modPump, modCtx_modCtx]
  rfl

theorem at_endReceive_of_close (k : ContextId) (reason result : Byte) (s : State) :
    (endReceive k true (some reason) result s).at k = disconnected result (s.at k) := by
  have sent : endReceive k true (some reason) result s = sendDisconnect k result (closeFaxTarget k reason s) := rfl
  rw [sent, sendDisconnect_eq, at_modCtx, at_closeFaxTarget]
  rfl

/-- R156: a receive that closes its target and disconnects, once its notices are told. -/
theorem exec_of_endReceive {s u : State} {k : ContextId} {due : Bool} {result : Byte} (q : s.Quiet) (acts : due = true)
    (apart : Apart k s (endReceive k true (some reasonStopped) result u)) (session : (u.at k).session = .fax)
    (silent : (u.at k).voice.activity = .none) :
    ∃ t, act due (endReceive k true (some reasonStopped) result u) s = .next t ∧ t.at k = disconnected result (u.at k) := by
  have record := at_endReceive_of_close k reasonStopped result u
  have ending : Disconnecting ((endReceive k true (some reasonStopped) result u).at k) := by
    rw [record]
    exact ⟨session, rfl, silent⟩
  subst acts
  exact ⟨_, act_of_true _ s, ((spares_settle_of_disconnecting q apart ending).at_eq k).trans record⟩

theorem exec_mode_of_many {s : State} {k : ContextId} {g : ConfigRecord} {rate : Byte} (q : s.Quiet) (config : s.cfu.config = some g)
    (acts : (faxIn s k .receive .awaitMode || faxIn s k .receive .awaitPage) = true) (session : (s.at k).session = .fax)
    (silent : (s.at k).voice.activity = .none) (above : g.faxMaxRate < rate.toNat) (many : 3 ≤ (s.at k).fax.badTrainings) :
    ∃ t, exec (.mode k rate) s = .next t ∧ t.at k = disconnected codeFaxFailed (trainedBadly (s.at k)) := by
  have sent : takeMode k rate.toNat s = endReceive k true (some reasonStopped) codeFaxFailed (s.modCtx k trainedBadly) := by
    rw [takeMode, configOf_eq config, if_pos above, trainBadSent_of_many many]
  obtain ⟨t, run, record⟩ := exec_of_endReceive (u := s.modCtx k trainedBadly) q acts (by rw [← sent]; exact apart_takeMode (Apart.refl k s))
    (by rw [at_modCtx]; exact session) (by rw [at_modCtx]; exact silent)
  refine ⟨t, ?_, record.trans (by rw [at_modCtx])⟩
  rw [← run, ← sent]
  rfl

/-- A reading of a training counted. -/
theorem trainingStep_eq (x : Qmn) (r : Nat) : x.trainingStep r = { x with
    quality := some (moveQuality x.quality (decide (x.readings = 0)) r), readings := x.readings + 1 } := by
  rw [Qmn.trainingStep, (by rfl : (x.readings == 0) = decide (x.readings = 0))]

theorem faxReading_of_few {s : State} {k : ContextId} {r : Nat} (few : (s.at k).qmn.readings + 1 < 24) : faxReading k r s
    = s.modCtx k fun x => { x with qmn := x.qmn.trainingStep r } := by
  have still : ((s.modQmn k fun q => q.trainingStep r).at k).qmn.readings < 24 := by
    rw [State.modQmn, at_modCtx]
    exact few
  simp only [faxReading, still, if_true]
  rfl

theorem faxReading_of_good {s : State} {k : ContextId} {r : Nat} (enough : 24 ≤ (s.at k).qmn.readings + 1)
    (bears : (s.at k).fax.rate ≤ faxCeilingOf (((s.at k).qmn.trainingStep r).quality.getD 0)) : faxReading k r s
    = s.modCtx k fun x => { x with
        qmn := x.qmn.trainingStep r, fax := { x.fax with badTrainings := 0, phase := .awaitPage, wait := some 6000 }
        pump := { state := .running (s.at k).fax.rate, control := x.pump.control ++ [.trainGood] }
        detector := { x.detector with stopped := true } } := by
  have whole : ¬ ((s.at k).qmn.trainingStep r).readings < 24 := Nat.not_lt.mpr enough
  simp only [faxReading, whole, bears, if_true, if_false, at_modCtx, enterPhase, pumpTrained, setPump, sendControl, State.modFax,
    State.modQmn, State.modPump, State.modDetector, modCtx_modCtx]
  rfl

end Sys2Proof.Machine
end

section
/-! PROOFS. The family of the fax receive: the frames of a page, the blocks they fill, and the end of a page (R111, R112, R113,
R114, R151, R154, R155). -/
namespace Sys2Proof.Machine

/-! ### Frames (R151, R154) -/

/-- The counts of a page begin when its first frame or its end comes. -/
def pageStarted (f : Fax) : Fax :=
  if f.phase = .awaitPage then { f with frames := 0, bad := 0, expected := 0, build := [] } else f

/-- A bad frame counted. -/
def badCounted (f : Fax) : Fax := { pageStarted f with
  phase := .page, wait := some 6000, frames := satAdd 65535 (pageStarted f).frames 1, bad := satAdd 65535 (pageStarted f).bad 1
  expected := ((pageStarted f).expected + 1) % 256 }

/-- The frames that a good frame's number tells of, those before it missing. -/
def framesAhead (f : Fax) (number : Nat) : Nat := (number + 256 - (pageStarted f).expected) % 256

/-- A good frame counted, with those missing before it. -/
def goodCounted (number : Nat) (f : Fax) : Fax := { pageStarted f with
  phase := .page, wait := some 6000, frames := satAdd 65535 (pageStarted f).frames (framesAhead f number + 1)
  bad := satAdd 65535 (pageStarted f).bad (framesAhead f number), expected := (number + 1) % 256 }

theorem takeFaxFrame_of_bad (k : ContextId) (number : Nat) (data : List Byte) (s : State) :
    takeFaxFrame k false number data s = s.modFax k badCounted := by
  simp only [takeFaxFrame, Bool.false_and, Bool.false_eq_true, if_false, enterPhase, State.modFax, modCtx_modCtx]
  rfl

theorem expected_pageStarted (s : State) (k : ContextId) (number : Nat) :
    (number + 256 - ((s.modFax k pageStarted).at k).fax.expected) % 256 = framesAhead (s.at k).fax number := by
  rw [State.modFax, at_modCtx]
  rfl

theorem takeFaxFrame_of_repeat {s : State} {k : ContextId} {number : Nat} (data : List Byte) (again : 128 ≤ framesAhead (s.at k).fax number) :
    takeFaxFrame k true number data s = s := by
  have known : (true && decide (128 ≤ (number + 256 - ((s.modFax k pageStarted).at k).fax.expected) % 256)) = true := by
    rw [expected_pageStarted, Bool.true_and, decide_eq_true_eq]
    exact again
  exact if_pos known

theorem takeFaxFrame_of_new {s : State} {k : ContextId} {number : Nat} (data : List Byte) (ahead : framesAhead (s.at k).fax number < 128) :
    takeFaxFrame k true number data s = buildPage k data (s.modFax k (goodCounted number)) := by
  have new : ¬ (true && decide (128 ≤ (number + 256 - ((s.modFax k pageStarted).at k).fax.expected) % 256)) = true := by
    rw [expected_pageStarted, Bool.true_and, decide_eq_true_eq]
    omega
  have counted : (enterPhase k .page (some faxWait) (s.modFax k pageStarted)).modFax k (fun f => { f with
      frames := satAdd 65535 f.frames ((number + 256 - ((s.modFax k pageStarted).at k).fax.expected) % 256 + 1)
      bad := satAdd 65535 f.bad ((number + 256 - ((s.modFax k pageStarted).at k).fax.expected) % 256), expected := (number + 1) % 256 })
      = s.modFax k (goodCounted number) := by
    rw [expected_pageStarted]
    simp only [enterPhase, State.modFax, modCtx_modCtx]
    exact modCtx_congr rfl
  rw [← counted]
  exact (if_neg new).trans rfl

/-! ### The blocks of a page (R111, R154) -/

theorem takeFreeBytes_zero (s : State) : takeFreeBytes 0 s = (s, []) := rfl

theorem length_takeFreeBytes (n : Nat) (s : State) : (takeFreeBytes n s).2.length = n := by
  rw [takeFreeBytes, List.length_map, List.length_range]

theorem appendBlock_state {s : State} {h : Nat} {w : Writer} {m : Msg} {b : Nat} {rest : List Nat} (block : List Byte) (samples : Nat)
    (under : openUnder s h w = some m) (free : s.msc.freeList = b :: rest) :
    (appendBlock h w block samples s).1.msc.state = s.msc.state := by
  rw [appendBlock_of_free block samples under free, setMsgAt_msc]
  simp only [blockLinked, takeFreeBlock, modMsc_msc, examineLevel_msc]

theorem standing_of_openUnder {s : State} {h : Nat} {w : Writer} {m : Msg} (under : openUnder s h w = some m) :
    s.msc.state = .ready ∧ m.state = .opened ∧ m.writer = some w := by
  have passes := (Option.filter_eq_some_iff.mp under).2
  simpa [and_assoc] using passes

theorem appendRecord_of_fax {m : Msg} {block : List Byte} (b n : Nat) (fax : m.kind = .fax) (whole : blockGap block = false) :
    appendRecord m b block n
      = { m with first := if m.first = none then some b else m.first, last := some b, count := m.count + 1 } := by
  simp only [appendRecord, lengthAfter, fax, if_true, whole, Bool.or_false, Option.isNone_iff_eq_none]

theorem blockGap_of_faxHeader {valid page : Nat} {pageEnd : Bool} (rest : List Byte) :
    blockGap (faxHeader valid page pageEnd false ++ rest) = false := by
  change (headerFlags pageEnd false).getLsbD 6 = false
  cases pageEnd <;> decide

theorem setMsgAt_state (h : Nat) (m : Option Msg) (s : State) : (s.setMsgAt h m).msc.state = s.msc.state := by
  rw [setMsgAt_msc]

theorem setMsgAt_mem (h : Nat) (m : Option Msg) (s : State) : (s.setMsgAt h m).msc.mem = s.msc.mem := by
  rw [setMsgAt_msc]

theorem blockAt_setMsgAt (h : Nat) (m : Option Msg) (b : Nat) (s : State) : blockAt (s.setMsgAt h m) b = blockAt s b := by
  rw [blockAt, setMsgAt_msc, blockAt]

/-- A block of a page written to a message here. -/
structure BlockHanded (k : ContextId) (h : Nat) (m : Msg) (b : Nat) (rest : List Nat) (block : List Byte) (s v : State) : Prop where
  ctx : v.ctx = s.ctx
  rau : v.rau = s.rau
  station : v.cfu.station = s.cfu.station
  state : v.msc.state = .ready
  record : v.msgAt h
    = some { m with first := if m.first = none then some b else m.first, last := some b, count := m.count + 1 }
  freeList : v.msc.freeList = rest
  block : blockAt v b = block
  length : v.clc.tx.length ≤ s.clc.tx.length + 1

/-- R111, R154: a block of a fax receive into a message here. -/
theorem handFaxBlock_of_here {s : State} {k : ContextId} {h : Nat} {m : Msg} {b : Nat} {rest : List Nat} {payload : List Byte} (pageEnd : Bool)
    (target : (s.at k).fax.target = some (.here h)) (under : openUnder s h (.here k) = some m) (fax : m.kind = .fax)
    (free : s.msc.freeList = b :: rest) (fits : payload.length ≤ 508) :
    ∃ v, handFaxBlock k payload pageEnd s = (v, false) ∧ BlockHanded k h m b rest
      (faxHeader payload.length ((s.at k).fax.pagesDone + 1) pageEnd false ++ payload ++ (takeFreeBytes (508 - payload.length) s).2) s v := by
  let u := (takeFreeBytes (508 - payload.length) s).1
  let block := faxHeader payload.length ((s.at k).fax.pagesDone + 1) pageEnd false ++ payload ++ (takeFreeBytes (508 - payload.length) s).2
  have wrote := appended_appendBlock (s := u) block 0 under free
  have taken := appendBlock_of_free (s := u) block 0 under free
  have state := appendBlock_state (s := u) block 0 under free
  have plain : blockGap block = false := by
    rw [show block = faxHeader payload.length ((s.at k).fax.pagesDone + 1) pageEnd false ++ (payload ++ (takeFreeBytes (508 - payload.length) s).2)
      from List.append_assoc ..]
    exact blockGap_of_faxHeader _
  have size : block.length = 512 := by
    rw [List.length_append, List.length_append, length_takeFreeBytes]
    change 4 + payload.length + (508 - payload.length) = 512
    omega
  have handed : handFaxBlock k payload pageEnd s = ((appendBlock h (.here k) block 0 u).1, false) := by
    simp only [handFaxBlock, target]
    rw [show appendBlock h (.here k) _ 0 _ = _ from taken]
  obtain ⟨ready, _⟩ := standing_of_openUnder under
  refine ⟨_, handed, wrote.only.ctx, wrote.only.rau, wrote.only.station, state.trans ready, ?_, wrote.freeList, ?_, wrote.length⟩
  · rw [wrote.record, appendRecord_of_fax b 0 fax plain]
  · rw [blockAt, wrote.mem]
    exact readBlock_writeBlock b _ size

/-- R154: a good frame whose bytes fill a block. -/
theorem buildPage_of_full {s : State} {k : ContextId} {h : Nat} {m : Msg} {b : Nat} {rest : List Nat} {data : List Byte}
    (full : 508 < ((s.at k).fax.build ++ data).length) (target : (s.at k).fax.target = some (.here h))
    (under : openUnder s h (.here k) = some m) (fax : m.kind = .fax) (free : s.msc.freeList = b :: rest) :
    ∃ v, buildPage k data s = v.modFax k (fun f => { f with build := ((s.at k).fax.build ++ data).drop 508 })
      ∧ BlockHanded k h m b rest (faxHeader 508 ((s.at k).fax.pagesDone + 1) false false ++ ((s.at k).fax.build ++ data).take 508) s v := by
  have size : (((s.at k).fax.build ++ data).take 508).length = 508 := by rw [List.length_take]; omega
  obtain ⟨v, handed, facts⟩ := handFaxBlock_of_here (payload := ((s.at k).fax.build ++ data).take 508) false target under fax free (Nat.le_of_eq size)
  rw [size, Nat.sub_self, takeFreeBytes_zero, List.append_nil] at facts
  have more : ¬ ((s.at k).fax.build ++ data).length ≤ 508 := by omega
  refine ⟨v, ?_, facts⟩
  simp only [buildPage, more, if_false, handed]

theorem buildPage_of_room {s : State} {k : ContextId} {data : List Byte} (room : ((s.at k).fax.build ++ data).length ≤ 508) :
    buildPage k data s = s.modFax k fun f => { f with build := (s.at k).fax.build ++ data } := by
  simp only [buildPage, room, if_true]

/-! ### The end of a page (R112, R155) -/

/-- The record of a FAX message with one more page, whose last block is b. -/
def pageRecord (m : Msg) (b bad : Nat) : Msg := { m with
  first := if m.first = none then some b else m.first, last := some b, count := m.count + 1
  length := min 65535 (m.length + 1), pageMark := m.count + 1, damaged := m.damaged || decide (0 < bad) }

/-- A page kept in a message here. -/
structure PageKept (k : ContextId) (h : Nat) (m : Msg) (b : Nat) (rest : List Nat) (s w : State) : Prop where
  context : w.at k = { s.at k with fax := { (s.at k).fax with build := [], pagesDone := min 65535 ((s.at k).fax.pagesDone + 1) } }
  rau : w.rau = s.rau
  station : w.cfu.station = s.cfu.station
  state : w.msc.state = .ready
  record : w.msgAt h = some (pageRecord m b (s.at k).fax.bad)
  block : (blockAt w b).take (4 + (s.at k).fax.build.length)
    = faxHeader (s.at k).fax.build.length ((s.at k).fax.pagesDone + 1) true false ++ (s.at k).fax.build
  length : w.clc.tx.length ≤ s.clc.tx.length + 1

theorem endPage_of_fax {s : State} {h : Nat} {w : Writer} {m : Msg} (damaged : Bool) (under : openUnder s h w = some m) (fax : m.kind = .fax) :
    (endPage h w damaged s).1 = s.setMsgAt h (some { m with
      length := satAdd 65535 m.length 1, pageMark := m.count, damaged := m.damaged || damaged }) := by
  simp only [endPage, under, fax, if_true]

theorem keepPage_of_here {s : State} {k : ContextId} {h : Nat} {m : Msg} {b : Nat} {rest : List Nat}
    (target : (s.at k).fax.target = some (.here h)) (under : openUnder s h (.here k) = some m) (fax : m.kind = .fax)
    (free : s.msc.freeList = b :: rest) (fits : (s.at k).fax.build.length ≤ 508) :
    ∃ w, keepPage k s = (w, false) ∧ PageKept k h m b rest s w := by
  obtain ⟨v, handed, facts⟩ := handFaxBlock_of_here (payload := (s.at k).fax.build) true target under fax free fits
  obtain ⟨_, opened, writer⟩ := standing_of_openUnder under
  have under' := openUnder_of_opened facts.record facts.state opened writer
  have ended := endPage_of_fax (decide (0 < (s.at k).fax.bad)) under' fax
  let w := v.setMsgAt h (some (pageRecord m b (s.at k).fax.bad))
  have only : StoreOnly v w := storeOnly_setMsgAt ..
  have kept : keepPage k s = (w.modFax k fun f => { f with build := [], pagesDone := satAdd 65535 f.pagesDone 1 }, false) := by
    simp only [keepPage, handed, target, ended]
    rfl
  refine ⟨_, kept, ?_, only.rau.trans facts.rau, only.station.trans facts.station, ?_, ?_, ?_, ?_⟩
  · have same : w.at k = s.at k := by rw [only.at, State.at, facts.ctx, State.at]
    rw [State.modFax, at_modCtx, same]
    rfl
  · exact (setMsgAt_state h _ v).trans facts.state
  · exact msgAt_setMsgAt (lt_of_msgAt facts.record) _ v
  · refine (congrArg (List.take _) (show blockAt (w.modFax k _) b = _ from (blockAt_setMsgAt h _ b v).trans facts.block)).trans ?_
    exact List.take_left' (by rw [List.length_append]; rfl)
  · exact (congrArg (fun l => l.tx.length) (setMsgAt_clc ..)).le.trans facts.length

end Sys2Proof.Machine
end

section
/-! PROOFS. The family of the fax receive, put together: the verdict on a page and what follows it (R112, R113, R114, R155). -/
namespace Sys2Proof.Machine

/-! ### What a page counted (R155) -/

theorem frames_pageStarted (f : Fax) : (pageStarted f).frames = if f.phase = .awaitPage then 0 else f.frames := by
  unfold pageStarted
  split <;> rfl

theorem bad_pageStarted (f : Fax) : (pageStarted f).bad = if f.phase = .awaitPage then 0 else f.bad := by
  unfold pageStarted
  split <;> rfl

theorem expected_pageStarted_eq (f : Fax) : (pageStarted f).expected = if f.phase = .awaitPage then 0 else f.expected := by
  unfold pageStarted
  split <;> rfl

theorem build_pageStarted (f : Fax) : (pageStarted f).build = if f.phase = .awaitPage then [] else f.build := by
  unfold pageStarted
  split <;> rfl

/-- A page that begins keeps the rest of its session. -/
theorem pageStarted_eq (f : Fax) : pageStarted f = { f with
    frames := (pageStarted f).frames, bad := (pageStarted f).bad, expected := (pageStarted f).expected, build := (pageStarted f).build } := by
  unfold pageStarted
  split <;> rfl

theorem pagesDone_pageStarted (f : Fax) : (pageStarted f).pagesDone = f.pagesDone := by rw [pageStarted_eq]

theorem target_pageStarted (f : Fax) : (pageStarted f).target = f.target := by rw [pageStarted_eq]

/-! ### The page told (R155) -/

/-- A page whose verdict has gone out. -/
def judgedPage (k : ContextId) (page verdict : Nat) (s : State) : State :=
  sendFaxPage k page verdict (sendControl k (verdictFrame verdict) s)

/-- A context whose page a verdict follows. -/
def verdictTold (verdict : Nat) (x : Context) : Context :=
  { x with pump := { x.pump with control := x.pump.control ++ [verdictFrame verdict] } }

theorem at_judgedPage (k : ContextId) (page verdict : Nat) (s : State) : (judgedPage k page verdict s).at k
    = verdictTold verdict (s.at k) := by
  rw [judgedPage, sendFaxPage, at_sendEvent, sendControl, State.modPump, at_modCtx]
  rfl

theorem reports_judgedPage (k : ContextId) (page verdict : Nat) (s : State) : Reports s (judgedPage k page verdict s) :=
  (Reports.modCtx k _ s).trans (Reports.event ..)

theorem mem_judgedPage {k : ContextId} {page verdict : Nat} {s t : State} (room : s.clc.tx.length < 24)
    (station : s.cfu.station = t.cfu.station) : ∃ y ∈ (judgedPage k page verdict s).clc.tx, y.cell
      = ownCell t 3 gateway kindEvent (contextTag (some k)) (Event.faxPage page verdict).payload := by
  have room' : (sendControl k (verdictFrame verdict) s).clc.tx.length < 24 := room
  rw [judgedPage, sendFaxPage, sendEvent_eq, if_pos room']
  refine ⟨_, (mem_insertByPriority ..).mpr (Or.inl rfl), ?_⟩
  exact ownCell_congr station ..

theorem mem_sendEvent {k : Option ContextId} {e : Event} {s : State} {y : TxCell} (mem : y ∈ s.clc.tx) : y ∈ (sendEvent k e s).clc.tx := by
  rw [sendEvent_eq]
  split
  · exact (mem_insertByPriority ..).mpr (Or.inr mem)
  · exact mem

/-- What follows the verdict on a page that has been kept or rolled back. -/
def afterPage (k : ContextId) (last : Bool) (page verdict : Nat) (done : State × Bool) : State :=
  match done with
  | (s, true) => faxStoreFull k s
  | (s, false) => afterVerdict k verdict last (judgedPage k page verdict s)

theorem takePageEnd_eq (k : ContextId) (last : Bool) (s : State) : takePageEnd k last s
    = afterPage k last ((s.at k).fax.pagesDone + 1) (pageVerdict (pageStarted (s.at k).fax).frames (pageStarted (s.at k).fax).bad)
        (if pageVerdict (pageStarted (s.at k).fax).frames (pageStarted (s.at k).fax).bad = verdictBad
          then (undoPage k (s.modFax k pageStarted), false) else keepPage k (s.modFax k pageStarted)) := by
  have started : ((s.modFax k pageStarted).at k).fax = pageStarted (s.at k).fax := by rw [State.modFax, at_modCtx]
  have begun : takePageEnd k last s = afterPage k last (((s.modFax k pageStarted).at k).fax.pagesDone + 1)
      (pageVerdict ((s.modFax k pageStarted).at k).fax.frames ((s.modFax k pageStarted).at k).fax.bad)
      (if pageVerdict ((s.modFax k pageStarted).at k).fax.frames ((s.modFax k pageStarted).at k).fax.bad = verdictBad
        then (undoPage k (s.modFax k pageStarted), false) else keepPage k (s.modFax k pageStarted)) := rfl
  rw [begun, started, pagesDone_pageStarted]

theorem afterVerdict_of_good (k : ContextId) (s : State) :
    afterVerdict k verdictGood false s = s.modFax k fun f => { f with phase := .awaitPage, wait := some 6000 } := rfl

theorem afterVerdict_of_training {k : ContextId} {verdict : Nat} {last : Bool} (s : State) (trains : verdict = verdictBad ∨ verdict = verdictRetrain ∧ last = false) :
    afterVerdict k verdict last s = s.modCtx k fun x => { x with
      pump := { x.pump with state := .control }, fax := { x.fax with phase := .awaitMode, wait := some 6000 } } := by
  have same : awaitMode k (setPump k .control s) = s.modCtx k fun x => { x with
      pump := { x.pump with state := .control }, fax := { x.fax with phase := .awaitMode, wait := some 6000 } } := modCtx_modCtx ..
  rcases trains with rfl | ⟨rfl, rfl⟩
  · exact same
  · exact same

theorem afterVerdict_of_last {k : ContextId} {verdict : Nat} (s : State) (kept : verdict ≠ verdictBad) :
    afterVerdict k verdict true s = sendDisconnect k codeOk (closeFaxTarget k reasonPagesDone s) := by
  simp only [afterVerdict, kept, if_false, if_true]

/-! ### The last page (R113, R114, R155) -/

theorem closeRecord_mem (h : Nat) (s : State) : (closeRecord h s).msc.mem = s.msc.mem := by
  cases record : s.msgAt h with
  | none => simp only [closeRecord, record]
  | some x => rw [closeRecord_of_record record, setMsgAt_msc]

/-- A FAX message closed after its last page. -/
structure PagesClosed (h : Nat) (m : Msg) (s t : State) : Prop where
  only : StoreOnly s t
  mem : t.msc.mem = s.msc.mem
  tx : ∀ y ∈ s.clc.tx, y ∈ t.clc.tx
  record : ∃ x, t.msgAt h = some x ∧ x.state = .closed ∧ x.count = m.count ∧ x.truncated = m.truncated

theorem closeMessage_of_pages {s : State} {h : Nat} {m : Msg} (record : s.msgAt h = some m) (fax : m.kind = .fax)
    (pages : m.length ≠ 0) (whole : m.pageMark = m.count) (blocks : m.count ≠ 0) :
    PagesClosed h m s (closeMessage h reasonPagesDone s).1 := by
  have kept : keptCount s m reasonPagesDone = m.count := by rw [keptCount, if_pos fax, if_neg pages, whole]
  have list : (keptRecord m m.count reasonPagesDone).kind ≠ .greeting := by
    rw [show (keptRecord m m.count reasonPagesDone).kind = m.kind from rfl, fax]
    decide
  have trim : trimmed h m m.count reasonPagesDone s = s.setMsgAt h (some (keptRecord m m.count reasonPagesDone)) := if_neg (Nat.lt_irrefl _)
  have stored := stored_closeMessage (reason := reasonPagesDone) record kept blocks (Nat.le_refl _)
    (by rw [fileMessage_of_list _ list]; exact storeOnly_modMsc ..) (by rw [fileMessage_of_list _ list]; rfl)
  have exact_ := closeMessage_of_kept record kept blocks
  refine ⟨stored.only, ?_, fun y mem => ?_, _, stored.record, rfl, rfl, ?_⟩
  · rw [exact_, fileMessage_of_list _ list, trim]
    dsimp only
    rw [sendEvent_msc, closeRecord_mem]
    exact (setMsgAt_mem h _ s :)
  · rw [stored.clc, fileMessage_of_list _ list, trim]
    refine mem_sendEvent ?_
    exact ((congrArg Clc.tx (setMsgAt_clc h _ s)).symm ▸ mem :)
  · change (m.truncated || truncates m.kind reasonPagesDone) = m.truncated
    rw [fax, (by decide : truncates .fax reasonPagesDone = false), Bool.or_false]

theorem closeFaxTarget_of_here {s : State} {k : ContextId} {h : Nat} {m : Msg} (reason : Byte) (target : (s.at k).fax.target = some (.here h))
    (under : openUnder s h (.here k) = some m) :
    closeFaxTarget k reason s = (closeMessage h reason (s.modFax k fun f => { f with target := none, build := [] })).1 := by
  have under' : openUnder (s.modFax k fun f => { f with target := none, build := [] }) h (.here k) = some m := under
  simp only [closeFaxTarget, target, closeBy, under']

/-- What a page that has been kept leaves, whatever follows it. -/
structure PageTaken (k : ContextId) (b verdict : Nat) (s t : State) : Prop where
  quiet : t.Quiet
  block : (blockAt t b).take (4 + (pageStarted (s.at k).fax).build.length)
    = faxHeader (pageStarted (s.at k).fax).build.length ((s.at k).fax.pagesDone + 1) true false ++ (pageStarted (s.at k).fax).build
  event : s.clc.tx.length < 22 → ∃ y ∈ t.clc.tx, y.cell
    = ownCell s 3 gateway kindEvent (contextTag (some k)) (Event.faxPage ((s.at k).fax.pagesDone + 1) verdict).payload
  pagesDone : (t.at k).fax.pagesDone = min 65535 ((s.at k).fax.pagesDone + 1)
  build : (t.at k).fax.build = []

section
variable {s w : State} {k : ContextId} {h : Nat} {m : Msg} {b verdict : Nat} {rest : List Nat}

/-- The page that its verdict is told of. -/
theorem pageTaken_judgedPage (q : s.Quiet) (kept : PageKept k h m b rest (s.modFax k pageStarted) w) :
    PageTaken k b verdict s (judgedPage k ((s.at k).fax.pagesDone + 1) verdict w) := by
  have started : ((s.modFax k pageStarted).at k).fax = pageStarted (s.at k).fax := by rw [State.modFax, at_modCtx]
  have block := kept.block
  have context := kept.context
  rw [started, pagesDone_pageStarted] at block context
  have reports := reports_judgedPage k ((s.at k).fax.pagesDone + 1) verdict w
  refine ⟨reports.quiet (quiet_of_rau (s := s) q kept.rau), ?_, fun room => ?_, ?_, ?_⟩
  · rw [blockAt, reports.msc]
    exact block
  · have length : w.clc.tx.length ≤ s.clc.tx.length + 1 := kept.length
    exact mem_judgedPage (by omega) kept.station
  · rw [at_judgedPage, context]
    rfl
  · rw [at_judgedPage, context]
    rfl

theorem PageTaken.of_context {t u : State} (taken : PageTaken k b verdict s t) (rau : u.rau = t.rau) (mem : u.msc.mem = t.msc.mem)
    (tx : ∀ y ∈ t.clc.tx, y ∈ u.clc.tx) (pagesDone : (u.at k).fax.pagesDone = (t.at k).fax.pagesDone) (build : (u.at k).fax.build = []) :
    PageTaken k b verdict s u := by
  refine ⟨quiet_of_rau taken.quiet rau, ?_, fun room => ?_, pagesDone.trans taken.pagesDone, build⟩
  · rw [blockAt, mem]
    exact taken.block
  · obtain ⟨y, mem, cell⟩ := taken.event room
    exact ⟨y, tx y mem, cell⟩

/-- R155: a page kept that is not the last. -/
theorem afterVerdict_of_page {u : State} (taken : PageTaken k b verdict s u) (some_verdict : verdict = verdictGood ∨ verdict = verdictRetrain) :
    PageTaken k b verdict s (afterVerdict k verdict false u)
      ∧ (afterVerdict k verdict false u).msc = u.msc
      ∧ ((afterVerdict k verdict false u).at k).pump.control = (u.at k).pump.control
      ∧ ((afterVerdict k verdict false u).at k).fax.phase = (if verdict = verdictGood then .awaitPage else .awaitMode)
      ∧ ((afterVerdict k verdict false u).at k).fax.wait = some 6000 := by
  rcases some_verdict with rfl | rfl
  · rw [afterVerdict_of_good]
    have record : (u.modFax k fun f => { f with phase := .awaitPage, wait := some 6000 }).at k
        = { u.at k with fax := { (u.at k).fax with phase := .awaitPage, wait := some 6000 } } := at_modCtx ..
    refine ⟨taken.of_context rfl rfl (fun _ mem => mem) (by rw [record]) (by rw [record]; exact taken.build), rfl, ?_, ?_, ?_⟩ <;> simp [record]
  · rw [afterVerdict_of_training _ (Or.inr ⟨rfl, rfl⟩)]
    have record := at_modCtx u k fun x => { x with
      pump := { x.pump with state := .control }, fax := { x.fax with phase := .awaitMode, wait := some 6000 } }
    refine ⟨taken.of_context rfl rfl (fun _ mem => mem) (by rw [record]) (by rw [record]; exact taken.build), rfl, ?_, ?_, ?_⟩ <;> simp [record, verdictGood, verdictRetrain]

/-- R155, R156: the last page kept closes the message and disconnects. -/
theorem afterVerdict_of_last_page {u : State} (taken : PageTaken k b verdict s u) (notBad : verdict ≠ verdictBad) {x : Msg}
    (target : (u.at k).fax.target = some (.here h)) (under : openUnder u h (.here k) = some x) (fax : x.kind = .fax)
    (pages : x.length ≠ 0) (whole : x.pageMark = x.count) (blocks : x.count ≠ 0) :
    PageTaken k b verdict s (afterVerdict k verdict true u)
      ∧ ((afterVerdict k verdict true u).at k).fax.phase = .disconnecting
      ∧ ((afterVerdict k verdict true u).at k).fax.result = some codeOk
      ∧ ((afterVerdict k verdict true u).at k).pump.control = (u.at k).pump.control ++ [.disconnect]
      ∧ ∃ x', (afterVerdict k verdict true u).msgAt h = some x' ∧ x'.state = .closed ∧ x'.count = x.count ∧ x'.truncated = x.truncated := by
  let v := u.modFax k fun f => { f with target := none, build := [] }
  have closed : PagesClosed h x v (closeMessage h reasonPagesDone v).1 :=
    closeMessage_of_pages (msgAt_of_openUnder under) fax pages whole blocks
  rw [afterVerdict_of_last u notBad, closeFaxTarget_of_here reasonPagesDone target under, sendDisconnect_eq]
  change PageTaken k b verdict s ((closeMessage h reasonPagesDone v).1.modCtx k (disconnectSent codeOk)) ∧ _
  have record : ((closeMessage h reasonPagesDone v).1.modCtx k (disconnectSent codeOk)).at k
      = disconnectSent codeOk { u.at k with fax := { (u.at k).fax with target := none, build := [] } } := by
    rw [at_modCtx, closed.only.at]
    exact congrArg (disconnectSent codeOk) (at_modCtx u k fun x => { x with fax := { x.fax with target := none, build := [] } })
  refine ⟨taken.of_context closed.only.rau closed.mem closed.tx ?_ ?_, ?_, ?_, ?_, closed.record⟩ <;> (rw [record]; rfl)

end

/-! ### A page rolled back (R112, R155) -/

/-- A FAX message here at its page mark again. -/
structure PageUndone (h : Nat) (m : Msg) (s t : State) : Prop where
  only : StoreOnly s t
  record : ∃ x, t.msgAt h = some x ∧ x.count = m.pageMark ∧ x.length = m.length
  freeList : m.count ≠ m.pageMark → t.msc.freeList = s.msc.freeList ++ (chainOf s m).drop m.pageMark
  length : t.clc.tx.length ≤ s.clc.tx.length + 1

theorem rollBack_undone {s : State} {h : Nat} {w : Writer} {m : Msg} (under : openUnder s h w = some m) (fax : m.kind = .fax) :
    PageUndone h m s (rollBack h w s).1 := by
  by_cases mark : m.count = m.pageMark
  · have same : (rollBack h w s).1 = s := by simp only [rollBack, under, fax, mark, if_true]
    rw [same]
    exact ⟨.refl s, ⟨m, msgAt_of_openUnder under, mark, rfl⟩, fun more => absurd mark more, Nat.le_succ _⟩
  · have cut := chainCut_cutChain m.pageMark (msgAt_of_openUnder under)
    rw [rollBack_of_fax under fax mark]
    refine ⟨cut.only, ⟨_, cut.record, rfl, rfl⟩, fun _ => cut.freeList, ?_⟩
    rw [cut.clc]
    exact length_freeBlocks_le _ s

theorem undoPage_of_here {s : State} {k : ContextId} {h : Nat} (target : (s.at k).fax.target = some (.here h)) :
    undoPage k s = (rollBack h (.here k) (s.modFax k fun f => { f with build := [] })).1 := by
  simp only [undoPage, target]

/-- R155: a page that is not kept. -/
theorem exec_pageEnd_of_bad {s : State} {k : ContextId} {h : Nat} {m : Msg} (last : Bool) (q : s.Quiet) (acts : receivesPage s k = true)
    (target : (s.at k).fax.target = some (.here h)) (under : openUnder s h (.here k) = some m) (fax : m.kind = .fax)
    (bad : (pageStarted (s.at k).fax).frames < 4 * (pageStarted (s.at k).fax).bad) :
    ∃ t, exec (.pageEnd k last) s = .next t
      ∧ (t.at k).fax.phase = .awaitMode ∧ (t.at k).fax.wait = some 6000 ∧ (t.at k).fax.build = []
      ∧ (t.at k).fax.pagesDone = (s.at k).fax.pagesDone ∧ (t.at k).pump.control = (s.at k).pump.control ++ [.pageBad]
      ∧ (s.clc.tx.length < 22 → ∃ y ∈ t.clc.tx, y.cell
          = ownCell s 3 gateway kindEvent (contextTag (some k)) (Event.faxPage ((s.at k).fax.pagesDone + 1) 2).payload)
      ∧ (∃ m', t.msgAt h = some m' ∧ m'.count = m.pageMark ∧ m'.length = m.length)
      ∧ (m.count ≠ m.pageMark → t.msc.freeList = s.msc.freeList ++ (chainOf s m).drop m.pageMark) := by
  let u := s.modCtx k fun x => { x with fax := { pageStarted x.fax with build := [] } }
  have begun : (s.modFax k pageStarted).modFax k (fun f => { f with build := [] }) = u := modCtx_modCtx ..
  have started : ((s.modFax k pageStarted).at k).fax = pageStarted (s.at k).fax := by rw [State.modFax, at_modCtx]
  have target' : ((s.modFax k pageStarted).at k).fax.target = some (.here h) := by rw [started, target_pageStarted, target]
  have undone : PageUndone h m u (rollBack h (.here k) u).1 := rollBack_undone (s := u) under fax
  have verdict : pageVerdict (pageStarted (s.at k).fax).frames (pageStarted (s.at k).fax).bad = verdictBad := by
    rw [pageVerdict, if_neg (by omega), if_neg (by omega)]
  have context : (rollBack h (.here k) u).1.at k = { s.at k with fax := { pageStarted (s.at k).fax with build := [] } } := by
    rw [undone.only.at, at_modCtx]
  have undo : undoPage k (s.modFax k pageStarted) = (rollBack h (.here k) u).1 := by rw [undoPage_of_here target', begun]
  generalize (rollBack h (.here k) u).1 = v at undone context undo
  let page := (s.at k).fax.pagesDone + 1
  have taken : takePageEnd k last s = (judgedPage k page verdictBad v).modCtx k fun x => { x with
      pump := { x.pump with state := .control }, fax := { x.fax with phase := .awaitMode, wait := some 6000 } } := by
    rw [takePageEnd_eq, verdict, if_pos rfl, undo]
    exact afterVerdict_of_training _ (Or.inl rfl)
  have reports := reports_judgedPage k page verdictBad v
  have quiet : (takePageEnd k last s).Quiet := by
    rw [taken]
    exact reports.quiet (undone.only.quiet (s := u) q)
  have run : exec (.pageEnd k last) s = .next (takePageEnd k last s) := act_of_due s acts quiet
  rw [taken] at run
  refine ⟨_, run, ?_⟩
  rw [at_modCtx, at_judgedPage, context]
  refine ⟨rfl, rfl, rfl, pagesDone_pageStarted _, rfl, fun room => ?_, ?_, fun more => ?_⟩
  · have length : v.clc.tx.length ≤ s.clc.tx.length + 1 := undone.length
    exact mem_judgedPage (by omega) undone.only.station
  · obtain ⟨x, found, count, same⟩ := undone.record
    exact ⟨x, (msgAt_congr (congrArg Msc.msgs reports.msc) h).trans found, count, same⟩
  · exact (congrArg Msc.freeList reports.msc).trans (undone.freeList more)

end Sys2Proof.Machine
end

section
/-! PROOFS. The family of the fax receive, settled (R112, R150 to R156, R162). -/
namespace Sys2Proof.Machine

theorem receivesPage_of_phase {s : State} {k : ContextId} (serves : pumpServes s k .fax = true) (is : (s.at k).fax.role = some .receive)
    (phase : (s.at k).fax.phase ∈ [FaxPhase.awaitPage, .page]) : receivesPage s k = true := by
  simp only [List.mem_cons, List.not_mem_nil, or_false] at phase
  rw [receivesPage, Bool.or_eq_true]
  exact phase.imp (faxIn_eq_true serves is) (faxIn_eq_true serves is)

theorem takesMode_of_phase {s : State} {k : ContextId} (serves : pumpServes s k .fax = true) (is : (s.at k).fax.role = some .receive)
    (phase : (s.at k).fax.phase ∈ [FaxPhase.awaitMode, .awaitPage]) :
    (faxIn s k .receive .awaitMode || faxIn s k .receive .awaitPage) = true := by
  simp only [List.mem_cons, List.not_mem_nil, or_false] at phase
  rw [Bool.or_eq_true]
  exact phase.imp (faxIn_eq_true serves is) (faxIn_eq_true serves is)

/-- R155: a page that is kept, and what follows its verdict. -/
theorem exec_pageEnd_of_kept {s : State} {k : ContextId} {h : Nat} {m : Msg} {b : Nat} {rest : List Nat} {verdict : Nat} (q : s.Quiet)
    (acts : receivesPage s k = true) (target : (s.at k).fax.target = some (.here h)) (under : openUnder s h (.here k) = some m)
    (fax : m.kind = .fax) (free : s.msc.freeList = b :: rest) (fits : (pageStarted (s.at k).fax).build.length ≤ 508)
    (judged : pageVerdict (pageStarted (s.at k).fax).frames (pageStarted (s.at k).fax).bad = verdict)
    (some_verdict : verdict = verdictGood ∨ verdict = verdictRetrain) :
    (∃ t, exec (.pageEnd k false) s = .next t ∧ PageTaken k b verdict s t
      ∧ (t.at k).pump.control = (s.at k).pump.control ++ [verdictFrame verdict]
      ∧ (t.at k).fax.phase = (if verdict = verdictGood then .awaitPage else .awaitMode) ∧ (t.at k).fax.wait = some 6000
      ∧ t.msgAt h = some (pageRecord m b (pageStarted (s.at k).fax).bad))
    ∧ (∃ t, exec (.pageEnd k true) s = .next t ∧ PageTaken k b verdict s t
      ∧ (t.at k).pump.control = (s.at k).pump.control ++ [verdictFrame verdict, .disconnect]
      ∧ (t.at k).fax.phase = .disconnecting ∧ (t.at k).fax.result = some codeOk
      ∧ ∃ m', t.msgAt h = some m' ∧ m'.state = .closed ∧ m'.count = m.count + 1 ∧ m'.truncated = m.truncated) := by
  have notBad : verdict ≠ verdictBad := by rcases some_verdict with rfl | rfl <;> decide
  have started : ((s.modFax k pageStarted).at k).fax = pageStarted (s.at k).fax := by rw [State.modFax, at_modCtx]
  have target' : ((s.modFax k pageStarted).at k).fax.target = some (.here h) := by rw [started, target_pageStarted, target]
  obtain ⟨w, keeps, kept⟩ := keepPage_of_here (s := s.modFax k pageStarted) target' under fax free (by rw [started]; exact fits)
  have taken : PageTaken k b verdict s (judgedPage k ((s.at k).fax.pagesDone + 1) verdict w) := pageTaken_judgedPage q kept
  have pageEnds (last : Bool) : takePageEnd k last s
      = afterVerdict k verdict last (judgedPage k ((s.at k).fax.pagesDone + 1) verdict w) := by
    rw [takePageEnd_eq, judged, if_neg notBad, keeps]
    rfl
  have reports := reports_judgedPage k ((s.at k).fax.pagesDone + 1) verdict w
  have at_ := at_judgedPage k ((s.at k).fax.pagesDone + 1) verdict w
  have context := kept.context
  rw [started] at context
  have control : ((judgedPage k ((s.at k).fax.pagesDone + 1) verdict w).at k).pump.control
      = (s.at k).pump.control ++ [verdictFrame verdict] := by
    rw [at_, context, State.modFax, at_modCtx]
    rfl
  have goal' : ((judgedPage k ((s.at k).fax.pagesDone + 1) verdict w).at k).fax.target = some (.here h) := by
    rw [at_, context]
    exact (target_pageStarted _).trans target
  have record : (judgedPage k ((s.at k).fax.pagesDone + 1) verdict w).msgAt h = some (pageRecord m b (pageStarted (s.at k).fax).bad) := by
    rw [msgAt_congr (congrArg Msc.msgs reports.msc), kept.record, started]
  obtain ⟨_, opened, writer⟩ := standing_of_openUnder under
  have under' : openUnder (judgedPage k ((s.at k).fax.pagesDone + 1) verdict w) h (.here k)
      = some (pageRecord m b (pageStarted (s.at k).fax).bad) :=
    openUnder_of_opened record ((congrArg Msc.state reports.msc).trans kept.state) opened writer
  generalize judgedPage k ((s.at k).fax.pagesDone + 1) verdict w = u at *
  constructor
  · obtain ⟨page, msc, same, phase, wait⟩ := afterVerdict_of_page taken some_verdict
    rw [← pageEnds false] at page msc same phase wait
    exact ⟨_, act_of_due s acts page.quiet, page, same.trans control, phase, wait, (msgAt_congr (congrArg Msc.msgs msc) h).trans record⟩
  · obtain ⟨page, phase, result, same, closed⟩ := afterVerdict_of_last_page taken notBad goal' under' fax
      (by change min 65535 (m.length + 1) ≠ 0; omega) rfl (Nat.succ_ne_zero _)
    rw [← pageEnds true] at page phase result same closed
    exact ⟨_, act_of_due s acts page.quiet, page, by rw [same, control, List.append_assoc]; rfl, phase, result, closed⟩

/-- Settles O56: MODE by the fax max rate and the count of bad trainings, a reading by its number, a frame by how far ahead of
the expected one it is, and a page by its verdict. -/
theorem faxReceiveCommandsAct : Obligations.FaxReceiveCommandsAct := by
  intro s k g q config connected session going silent is f control changed frames bad expected build page
  have serves := pumpServes_eq_true connected session going
  have framesEq : (pageStarted (s.at k).fax).frames = frames := frames_pageStarted _
  have badEq : (pageStarted (s.at k).fax).bad = bad := bad_pageStarted _
  have expectedEq : (pageStarted (s.at k).fax).expected = expected := expected_pageStarted_eq _
  have buildEq : (pageStarted (s.at k).fax).build = build := build_pageStarted _
  refine ⟨rfl, fun rate phase => ?mode, fun r quality phase moved => ?reading, fun phase => ?page⟩
  case mode =>
    have acts := takesMode_of_phase serves is phase
    have limit : (configOf s).faxMaxRate = g.faxMaxRate := by rw [configOf_eq config]
    refine ⟨fun allowed => ?_, fun above few => ?_, fun above many => ?_⟩
    · have taken := takeMode_of_allowed (s := s) (k := k) (rate := rate.toNat) (by rw [limit]; exact allowed)
      exact (act_of_due s acts (by rw [taken]; exact q)).trans (congrArg _ taken)
    · have taken : takeMode k rate.toNat s = _ := (if_pos (by rw [limit]; exact above)).trans (trainBadSent_of_few few)
      exact (act_of_due s acts (by rw [taken]; exact q)).trans (congrArg _ taken)
    · obtain ⟨t, run, record⟩ := exec_mode_of_many q config acts session silent above many
      refine ⟨t, run, ?_⟩
      rw [record]
      exact ⟨rfl, rfl, rfl, List.append_assoc ..⟩
  case reading =>
    have acts : (faxIn s k .receive .training || takesReadings s k) = true := by rw [faxIn_eq_true serves is phase, Bool.true_or]
    have step := trainingStep_eq (s.at k).qmn r.toNat
    rw [← moved] at step
    refine ⟨fun few => ?_, fun enough bears => ?_⟩
    · have taken : (if (s.at k).session = .fax then faxReading k r.toNat s else dataReading k r.toNat s)
          = s.modCtx k fun x => { x with qmn := { x.qmn with quality := some quality, readings := x.qmn.readings + 1 } } := by
        rw [if_pos session, faxReading_of_few few]
        exact modCtx_congr (congrArg (fun x => { s.at k with qmn := x }) step)
      exact (act_of_due s acts (by rw [taken]; exact q)).trans (congrArg _ taken)
    · have taken : (if (s.at k).session = .fax then faxReading k r.toNat s else dataReading k r.toNat s) = _ :=
        (if_pos session).trans (faxReading_of_good enough (by rw [step]; exact bears))
      refine ⟨_, (act_of_due s acts (by rw [taken]; exact q)).trans (congrArg _ taken), ?_⟩
      rw [at_modCtx]
      exact ⟨rfl, rfl, rfl, rfl⟩
  case page =>
    have acts := receivesPage_of_phase serves is phase
    refine ⟨fun n data => ?bad, fun n data => ⟨fun again => ?again, fun new room => ?room, fun h m b rest new full target under fax free apart => ?full⟩,
      fun last h m target under fax fits => ⟨fun b rest few free apart => ?kept, fun many => ?undone⟩⟩
    case bad =>
      have taken := takeFaxFrame_of_bad k n.toNat data s
      have same : s.modFax k badCounted = s.modFax k fun f => { f with
          phase := .page, wait := some 6000, frames := min 65535 (frames + 1), bad := min 65535 (bad + 1)
          expected := (expected + 1) % 256, build } := by
        refine modCtx_congr ?_
        change { s.at k with fax := badCounted (s.at k).fax } = _
        rw [badCounted, framesEq, badEq, expectedEq, pageStarted_eq, buildEq]
        rfl
      rw [same] at taken
      exact (act_of_due s acts (by rw [taken]; exact q)).trans (congrArg _ taken)
    case again =>
      have taken := takeFaxFrame_of_repeat (s := s) (k := k) (number := n.toNat) data (by rw [framesAhead, expectedEq]; exact again)
      exact (act_of_due s acts (by rw [taken]; exact q)).trans (congrArg _ taken)
    case room =>
      have ahead : framesAhead (s.at k).fax n.toNat = (n.toNat + 256 - expected) % 256 := by rw [framesAhead, expectedEq]
      have counted : ((s.modFax k (goodCounted n.toNat)).at k).fax = goodCounted n.toNat (s.at k).fax := by rw [State.modFax, at_modCtx]
      have built : (goodCounted n.toNat (s.at k).fax).build = build := buildEq
      have taken := (takeFaxFrame_of_new data (by rw [ahead]; exact new)).trans
        (buildPage_of_room (k := k) (s := s.modFax k (goodCounted n.toNat)) (by rw [counted, built, List.length_append]; exact room))
      have same : ((s.modFax k (goodCounted n.toNat)).modFax k fun f => { f with
          build := ((s.modFax k (goodCounted n.toNat)).at k).fax.build ++ data }) = s.modFax k fun f => { f with
            phase := .page, wait := some 6000, frames := min 65535 (frames + (n.toNat + 256 - expected) % 256 + 1)
            bad := min 65535 (bad + (n.toNat + 256 - expected) % 256), expected := (n.toNat + 1) % 256, build := build ++ data } := by
        refine (modCtx_modCtx ..).trans (modCtx_congr ?_)
        change { s.at k with fax := { goodCounted n.toNat (s.at k).fax with
          build := ((s.modFax k (goodCounted n.toNat)).at k).fax.build ++ data } } = _
        rw [counted, built, goodCounted, framesEq, badEq, ahead, pageStarted_eq]
        rfl
      rw [same] at taken
      exact (act_of_due s acts (by rw [taken]; exact q)).trans (congrArg _ taken)
    case full =>
      have ahead : framesAhead (s.at k).fax n.toNat = (n.toNat + 256 - expected) % 256 := by rw [framesAhead, expectedEq]
      have counted : ((s.modFax k (goodCounted n.toNat)).at k).fax = goodCounted n.toNat (s.at k).fax := by rw [State.modFax, at_modCtx]
      have built : (goodCounted n.toNat (s.at k).fax).build = build := buildEq
      have done : (goodCounted n.toNat (s.at k).fax).pagesDone = (s.at k).fax.pagesDone := pagesDone_pageStarted _
      have goal' : (goodCounted n.toNat (s.at k).fax).target = some (.here h) := (target_pageStarted _).trans target
      obtain ⟨v, wrote, facts⟩ := buildPage_of_full (k := k) (s := s.modFax k (goodCounted n.toNat)) (data := data)
        (by rw [counted, built, List.length_append]; exact full) (by rw [counted]; exact goal') under fax free
      rw [counted, built, done] at facts
      rw [counted, built] at wrote
      have taken := (takeFaxFrame_of_new data (by rw [ahead]; exact new)).trans wrote
      have record : (v.modFax k fun f => { f with build := (build ++ data).drop 508 }).at k
          = { s.at k with fax := { goodCounted n.toNat (s.at k).fax with build := (build ++ data).drop 508 } } := by
        rw [State.modFax, at_modCtx, State.at, facts.ctx]
        exact congrArg (fun x : Context => { x with fax := { x.fax with build := (build ++ data).drop 508 } })
          (at_modCtx s k fun x => { x with fax := goodCounted n.toNat x.fax })
      refine ⟨_, (act_of_due s acts (by rw [taken]; exact quiet_of_rau q facts.rau)).trans (congrArg _ taken), facts.block, facts.freeList,
        facts.record, ?_, ?_⟩ <;> rw [record] <;> rfl
    case kept =>
      have judged : pageVerdict (pageStarted (s.at k).fax).frames (pageStarted (s.at k).fax).bad
          = if 16 * bad ≤ frames then verdictGood else verdictRetrain := by
        rw [framesEq, badEq, pageVerdict, if_pos few]
      have code : (if 16 * bad ≤ frames then verdictGood else verdictRetrain)
          = if 16 * bad ≤ frames then 0 else if 4 * bad ≤ frames then 1 else 2 := by
        rw [if_pos few]
        rfl
      have frame : verdictFrame (if 16 * bad ≤ frames then verdictGood else verdictRetrain)
          = if 16 * bad ≤ frames then .pageGood else .pageRetrain := by split <;> rfl
      have next : (if (if 16 * bad ≤ frames then verdictGood else verdictRetrain) = verdictGood then FaxPhase.awaitPage else .awaitMode)
          = if 16 * bad ≤ frames then .awaitPage else .awaitMode := by split <;> rfl
      obtain ⟨⟨t, run, taken, sent, phase', wait, record⟩, ⟨t', run', taken', sent', phase'', result, closed⟩⟩ :=
        exec_pageEnd_of_kept q acts target under fax free (by rw [buildEq]; exact fits) judged (by split; exact Or.inl rfl; exact Or.inr rfl)
      rw [frame] at sent sent'
      rw [next] at phase'
      rw [badEq] at record
      have block := taken.block
      have event := taken.event
      have block' := taken'.block
      have event' := taken'.event
      rw [buildEq] at block block'
      rw [code] at event event'
      cases last with
      | false => exact ⟨t, run, block, event, taken.pagesDone, taken.build, fun _ => ⟨phase', wait, sent, record⟩, nofun⟩
      | true => exact ⟨t', run', block', event', taken'.pagesDone, taken'.build, nofun, fun _ => ⟨phase'', result, sent', closed⟩⟩
    case undone =>
      have verdictIs : (if 16 * bad ≤ frames then 0 else if 4 * bad ≤ frames then 1 else 2) = 2 := by
        rw [if_neg (by omega), if_neg (by omega)]
      rw [← framesEq, ← badEq] at many
      obtain ⟨t, run, phase', wait, built, done, sent, told, record, chain⟩ := exec_pageEnd_of_bad last q acts target under fax many
      rw [← verdictIs] at told
      exact ⟨t, run, phase', wait, built, done, sent, told, fun _ => record, chain⟩

end Sys2Proof.Machine
end

section
/-! PROOFS. The family of the fax send: the trainings, the end of a session, and the feeding of a page (R98, R150, R157 to R161). -/
namespace Sys2Proof.Machine

/-! ### The end of a session (R150, R161) -/

theorem at_faxSessionEnds {s : State} {k : ContextId} (result : Byte) (connected : (s.at k).state = .connected) :
    ∃ x, (faxSessionEnds k result s).at k = clearingRecord x := by
  have same := (spares_leaveFaxSource (k := k) (Spares.refl callPart s)).reading k
  have state : ((leaveFaxSource k s).at k).state = .connected := (congrArg Context.state same : (callPart _).state = _).trans connected
  have record : ((sendFaxDone k result (leaveFaxSource k s)).modCtx k faxOver).at k = faxOver ((leaveFaxSource k s).at k) := by
    rw [at_modCtx, sendFaxDone, at_sendEvent]
  have cause : clears (if result = codeOk then codeLocalDrop else codeFaxFailed) = true := by split <;> decide
  obtain ⟨b, d, ended⟩ := at_endCall_of_silent (s := (sendFaxDone k result (leaveFaxSource k s)).modCtx k faxOver) cause
    (by rw [record, inCall_iff]; simp [faxOver, state]) (by rw [record]; exact silent_faxOver state)
  rw [faxSessionEnds_eq]
  exact ⟨_, ended⟩

/-- A session without a source leaves none. -/
theorem leaveFaxSource_of_none {s : State} {k : ContextId} (source : (s.at k).fax.source = none) (noFetch : s.fetch k = none) :
    SameOff s (leaveFaxSource k s) ∧ callPart ((leaveFaxSource k s).at k) = callPart (s.at k)
      ∧ ((leaveFaxSource k s).at k).fax.pagesDone = (s.at k).fax.pagesDone := by
  by_cases role : (s.at k).fax.role = some .send
  · have record : (s.modFax k fun f => { f with source := none, buffer := .reset }).at k
        = { s.at k with fax := { (s.at k).fax with source := none, buffer := .reset } } := at_modCtx ..
    rw [leaveFaxSource_of_send role source noFetch, record]
    exact ⟨(SameOff.refl s).modCtx, rfl, rfl⟩
  · have stays : leaveFaxSource k s = s := by simp only [leaveFaxSource, role, if_false]
    rw [stays]
    exact ⟨.refl s, rfl, rfl⟩

/-- What the end of a session leaves, and what it queues where nothing else is open. -/
structure SessionOver (k : ContextId) (result : Byte) (u t : State) : Prop where
  ended : ∃ x, t.at k = clearingRecord x
  clc : ∀ ch, u.Quiet → (u.at k).fax.source = none → u.fetch k = none → (u.at k).announced = true → (u.at k).outgoing = none →
    (u.at k).channel = some ch → t.clc
      = (sendRelease ch (sendEvent (some k) (.callEnded (if result = codeOk then codeLocalDrop else codeFaxFailed))
          (sendEvent (some k) (.faxDone (u.at k).fax.pagesDone result) u))).clc

theorem act_of_sessionEnd {s u : State} {k : ContextId} {due : Bool} {result : Byte} (q : s.Quiet) (acts : due = true)
    (apart : Apart k s (faxSessionEnds k result u)) (connected : (u.at k).state = .connected) :
    ∃ t, act due (faxSessionEnds k result u) s = .next t ∧ SessionOver k result u t := by
  obtain ⟨x, ended⟩ := at_faxSessionEnds result connected
  have silent : Sessionless ((faxSessionEnds k result u).at k) := by
    rw [ended]
    exact sessionless_clearingRecord x
  subst acts
  refine ⟨_, act_of_true _ s, ⟨x, ((spares_settle_of_sessionless q apart silent).at_eq k).trans ended⟩,
    fun ch quiet source noFetch announced noRequest channel => ?_⟩
  obtain ⟨left, part, pages⟩ := leaveFaxSource_of_none source noFetch
  obtain ⟨off, _⟩ := faxSessionEnds_of_announced (result := result) rfl part connected announced noRequest channel
  have whole := (left.sendEvent.sendEvent.sendRelease).trans off
  rw [pages] at whole
  rw [settle_quiet (whole.quiet (((Reports.event ..).trans (Reports.event ..)).trans (Reports.release ..) |>.quiet quiet))]
  exact whole.clc

/-- R161: a fax session that is over, whose context clears its channel. -/
def FaxIsOver (s : State) (k : ContextId) (result : Byte) (t : State) : Prop :=
  (t.at k).state = .clearing ∧ (t.at k).session = .none ∧ (t.at k).fax = Fax.reset ∧ (t.at k).pump = Pump.reset
  ∧ (t.at k).timer = some 2000
  ∧ (∀ ch, (s.at k).fax.target = none → (s.at k).fax.source = none → s.fetch k = none → (s.at k).direction = some .incoming →
      (s.at k).announced = true → (s.at k).outgoing = none → (s.at k).channel = some ch →
      t.clc = (sendRelease ch (sendEvent (some k) (.callEnded (if result = codeOk then codeLocalDrop else codeFaxFailed))
        (sendEvent (some k) (.faxDone (s.at k).fax.pagesDone result) s))).clc)

theorem faxIsOver_of_end {s u t : State} {k : ContextId} {result : Byte} (q : s.Quiet) (same : (s.at k).fax.target = none → ∃ g, u = s.modCtx k g)
    (part : callPart (u.at k) = callPart (s.at k)) (source : (u.at k).fax.source = (s.at k).fax.source)
    (pages : (u.at k).fax.pagesDone = (s.at k).fax.pagesDone) (h : SessionOver k result u t) : FaxIsOver s k result t := by
  obtain ⟨x, ended⟩ := h.ended
  refine ⟨?_, ?_, ?_, ?_, ?_, fun ch target noSource noFetch _ announced noRequest channel => ?_⟩
  iterate 5 (rw [ended]; rfl)
  obtain ⟨g, same⟩ := same target
  have clc := h.clc ch (by rw [same]; exact q) (source.trans noSource) (by rw [same]; exact noFetch)
    ((congrArg Context.announced part : (callPart _).announced = _).trans announced)
    ((congrArg Context.outgoing part : (callPart _).outgoing = _).trans noRequest)
    ((congrArg Context.channel part : (callPart _).channel = _).trans channel)
  rw [clc, pages, same]
  exact ((SameOff.refl s).modCtx.sendEvent.sendEvent.sendRelease).clc

theorem exec_disconnect_of_session {s : State} {k : ContextId} (q : s.Quiet) (serves : pumpServes s k .fax = true)
    (connected : (s.at k).state = .connected) (on : (s.at k).fax.phase ≠ .off) (before : (s.at k).fax.phase ≠ .disconnecting) :
    ∃ t, exec (.disconnect k) s = .next t ∧ FaxIsOver s k codeFaxFailed t := by
  have acts : (pumpServes s k .fax && (s.at k).fax.phase != .off && (s.at k).fax.phase != .disconnecting) = true := by
    simp [serves, on, before]
  have apart := apart_takeDisconnect (k := k) (Apart.refl k s)
  by_cases role : (s.at k).fax.role = some .receive
  · have taken : takeDisconnect k s = faxSessionEnds k codeFaxFailed (closeFaxTarget k reasonStopped s) := by
      simp only [takeDisconnect, role, if_true, endReceive]
      rfl
    rw [taken] at apart
    have record := at_closeFaxTarget k reasonStopped s
    obtain ⟨t, run, ended⟩ := act_of_sessionEnd q acts apart (by rw [record]; exact connected)
    rw [← taken] at run
    refine ⟨t, run, faxIsOver_of_end q (fun target => ⟨fun x => { x with fax := { x.fax with target := none, build := [] } }, ?_⟩)
      (by rw [record]; rfl) (by rw [record]) (by rw [record]) ended⟩
    simp only [closeFaxTarget, target]
    rfl
  · have taken : takeDisconnect k s = faxSessionEnds k codeFaxFailed s := by simp only [takeDisconnect, role, if_false]
    rw [taken] at apart
    obtain ⟨t, run, ended⟩ := act_of_sessionEnd q acts apart connected
    rw [← taken] at run
    exact ⟨t, run, faxIsOver_of_end q (fun _ => ⟨id, (modCtx_self rfl).symm⟩) rfl rfl rfl ended⟩

theorem exec_controlFrameSent_of_rest {s : State} {k : ContextId} {x : ControlFrame} {rest : List ControlFrame} (q : s.Quiet)
    (serves : pumpServes s k .fax = true) (control : (s.at k).pump.control = x :: rest)
    (goes : x ≠ .disconnect ∨ (s.at k).fax.phase ≠ .disconnecting) :
    exec (.controlFrameSent k) s = .next (s.modPump k fun p => { p with control := rest }) := by
  have acts : (pumpServes s k .fax && (s.at k).pump.control != []) = true := by simp [serves, control]
  have last : ¬ (decide ((s.at k).pump.control.head? = some ControlFrame.disconnect)
      && decide ((s.at k).fax.phase = .disconnecting)) = true := by
    rcases goes with no | no <;> simp [control, no]
  have tail : (s.modPump k fun p => { p with control := p.control.tail }) = s.modPump k fun p => { p with control := rest } :=
    modCtx_congr (congrArg (fun c : List ControlFrame => { s.at k with pump := { (s.at k).pump with control := c.tail } }) control)
  have taken : controlSent k s = s.modPump k fun p => { p with control := rest } := (if_neg last).trans tail
  exact (act_of_due s acts (by rw [taken]; exact q)).trans (congrArg _ taken)

theorem exec_controlFrameSent_of_disconnect {s : State} {k : ContextId} {rest : List ControlFrame} {result : Byte} (q : s.Quiet)
    (serves : pumpServes s k .fax = true) (connected : (s.at k).state = .connected)
    (control : (s.at k).pump.control = .disconnect :: rest) (phase : (s.at k).fax.phase = .disconnecting)
    (known : (s.at k).fax.result = some result) :
    ∃ t, exec (.controlFrameSent k) s = .next t ∧ FaxIsOver s k result t := by
  have acts : (pumpServes s k .fax && (s.at k).pump.control != []) = true := by simp [serves, control]
  have last : (decide ((s.at k).pump.control.head? = some ControlFrame.disconnect)
      && decide ((s.at k).fax.phase = .disconnecting)) = true := by simp [control, phase]
  let u := s.modPump k fun p => { p with control := p.control.tail }
  have taken : controlSent k s = faxSessionEnds k result u := by
    refine (if_pos last).trans ?_
    rw [known]
    rfl
  have record : u.at k = { s.at k with pump := { (s.at k).pump with control := (s.at k).pump.control.tail } } := at_modCtx ..
  have apart := apart_controlSent (k := k) (Apart.refl k s)
  rw [taken] at apart
  obtain ⟨t, run, ended⟩ := act_of_sessionEnd q acts apart (by rw [record]; exact connected)
  rw [← taken] at run
  exact ⟨t, run, faxIsOver_of_end (u := u) q (fun _ => ⟨_, rfl⟩) (by rw [record]; rfl) (by rw [record]) (by rw [record]) ended⟩

end Sys2Proof.Machine
end

section
/-! PROOFS. The family of the fax send: what the feeding of a page leaves as it was (R98, R159). -/
namespace Sys2Proof.Machine

/-! ### The feeding of a page (R159) -/

/-- A context without what a page moves of its send. -/
def pagePart (x : Context) : Context := { x with fax := { x.fax with
  framesOut := [], frameNumber := 0, frame := [], buffer := .reset, sendBlock := 0, sendOffset := 0, pageEnd := none } }

/-- A step of a page: its context changes no more than the page itself, and no notice is left. -/
structure Fed (k : ContextId) (s t : State) : Prop where
  part : pagePart (t.at k) = pagePart (s.at k)
  quiet : s.Quiet → t.Quiet

namespace Fed

variable {k : ContextId} {s t u : State}

theorem refl (k : ContextId) (s : State) : Fed k s s := ⟨rfl, id⟩

theorem trans (a : Fed k s t) (b : Fed k t u) : Fed k s u := ⟨b.part.trans a.part, fun q => b.quiet (a.quiet q)⟩

theorem of_asks (a : AsksOnly s t) : Fed k s t := ⟨by rw [a.ctx], a.quiet⟩

theorem modFax {f : Fax → Fax} (h : Fed k s t) (same : ∀ x : Context, pagePart { x with fax := f x.fax } = pagePart x) :
    Fed k s (t.modFax k f) := by
  refine ⟨?_, h.quiet⟩
  rw [State.modFax, at_modCtx, same]
  exact h.part

theorem settle (b : Nat) (h : Fed k s t) : Fed k s (fetchSettle k b t) :=
  ⟨by rw [at_fetchSettle]; exact h.part, fun q => quiet_fetchSettle k b (h.quiet q)⟩

theorem forEach {α : Type} {xs : List α} {f : α → State → State} (h : Fed k s t) (hf : ∀ x u, Fed k s u → Fed k s (f x u)) :
    Fed k s (Machine.forEach xs f t) := by
  induction xs generalizing t with
  | nil => exact h
  | cons x xs ih => exact ih (hf x t h)

end Fed

section
variable {k : ContextId} {s : State}

theorem asksOnly_askNext (source : Source) (blocks needed : Nat) (b : Buffer) : AsksOnly s (askNext k source blocks needed b s).1 := by
  unfold askNext
  dsimp only
  split
  · exact (asksOnly_askBlock k source _ s).1
  · exact .refl s

theorem asksOnly_fillBuffer (source : Source) (blocks needed : Nat) (b : Buffer) : AsksOnly s (fillBuffer k source blocks needed b s).1 :=
  (asksOnly_askNext source blocks needed b).trans (asksOnly_askNext ..)

theorem fed_refillSend (needed : Nat) : Fed k s (refillSend k needed s) := by
  unfold refillSend
  split
  · exact .refl k s
  · exact (Fed.of_asks (asksOnly_fillBuffer ..)).modFax fun _ => rfl

theorem fed_feedBlock (b : Nat) (block : List Byte) : Fed k s (feedBlock k b block s) := by
  have fed : ∃ g, feedBlock k b block s = refillSend k (b + 1) (s.modFax k g)
      ∧ ∀ x : Context, pagePart { x with fax := g x.fax } = pagePart x := ⟨_, rfl, fun _ => rfl⟩
  obtain ⟨g, fed, same⟩ := fed
  rw [fed]
  exact ((Fed.refl k s).modFax same).trans (fed_refillSend _)

theorem fed_feedPage (n : Nat) : Fed k s (feedPage k n s) := by
  induction n generalizing s with
  | zero => exact .refl k s
  | succ n ih =>
    unfold feedPage
    dsimp only
    split
    · exact (fed_feedBlock ..).trans ih
    · exact .refl k s

theorem fed_feed : Fed k s (feed k s) := by
  unfold feed
  split
  · exact .refl k s
  · exact fed_feedPage _

theorem fed_askFaxBlock (index : Nat) : Fed k s (askFaxBlock k index s) := by
  unfold askFaxBlock
  dsimp only
  split
  · exact .refl k s
  · split
    · exact .refl k s
    · exact (Fed.of_asks (asksOnly_askBlock ..).1).modFax fun _ => rfl

theorem fed_bufferFrom (b : Nat) : Fed k s (bufferFrom k b s) := by
  unfold bufferFrom
  refine Fed.trans (Fed.trans (Fed.modFax (Fed.forEach (.refl k s) fun x u h => ?_) fun _ => rfl) (fed_askFaxBlock b)) (fed_askFaxBlock (b + 1))
  split
  · exact h.settle _
  · exact h

/-- R158, R159: a page that a send enters. -/
theorem sendPage_enters : ((sendPage k s).at k).fax.phase = .sending ∧ (s.Quiet → (sendPage k s).Quiet)
    ∧ pagePart ((sendPage k s).at k)
      = pagePart { s.at k with fax := { (s.at k).fax with phase := .sending, wait := none } } := by
  let u := enterPhase k .sending none (s.modFax k fun f => { f with
    sendBlock := f.pageStart, sendOffset := 0, pageEnd := none, frame := [], frameNumber := 0, framesOut := [] })
  have record : pagePart (u.at k) = pagePart { s.at k with fax := { (s.at k).fax with phase := .sending, wait := none } } := by
    simp only [u, enterPhase, State.modFax, at_modCtx]
    rfl
  have fed : Fed k u (sendPage k s) := (fed_bufferFrom _).trans fed_feed
  have part := fed.part.trans record
  have phase := congrArg (fun x : Context => x.fax.phase) part
  simp only [pagePart] at phase
  exact ⟨phase, fed.quiet, part⟩

end

end Sys2Proof.Machine
end

section
/-! PROOFS. The family of the fax send, settled (R150, R157 to R161). -/
namespace Sys2Proof.Machine

/-! ### Trainings sent (R157, R158, R160) -/

/-- A send that has begun a training at a rate. -/
def trainingSent (rate : Nat) (x : Context) : Context := { x with
  fax := { x.fax with trainingBegun := true, keptVerdict := none, phase := .sendTraining, wait := none }
  pump := { state := .trainingSend rate, control := x.pump.control ++ [.mode rate] } }

theorem trainSend_eq (k : ContextId) (s : State) : trainSend k s = s.modCtx k (trainingSent (s.at k).fax.rate) := by
  simp only [trainSend, enterPhase, setPump, sendControl, State.modFax, State.modPump, modCtx_modCtx]
  rfl

theorem trainSend_modFax (k : ContextId) (g : Fax → Fax) (s : State) : trainSend k (s.modFax k g)
    = s.modCtx k fun x => trainingSent (g (s.at k).fax).rate { x with fax := g x.fax } := by
  rw [trainSend_eq, State.modFax, at_modCtx, modCtx_modCtx]

theorem sendDisconnect_modFax (k : ContextId) (result : Byte) (g : Fax → Fax) (s : State) : sendDisconnect k result (s.modFax k g)
    = s.modCtx k fun x => disconnectSent result { x with fax := g x.fax } := by
  rw [sendDisconnect_eq, State.modFax, modCtx_modCtx]

/-- A report changes no context. -/
theorem sendEvent_modCtx {s : State} {k : ContextId} {f g : Context → Context} (e : Event) (same : f (s.at k) = g (s.at k)) :
    (sendEvent (some k) e s).modCtx k f = { sendEvent (some k) e s with ctx := s.ctx.modify k g } := by
  have same' : f ((sendEvent (some k) e s).at k) = g ((sendEvent (some k) e s).at k) := by rw [at_sendEvent, same]
  rw [modCtx_congr same']
  exact congrArg (fun c => { sendEvent (some k) e s with ctx := c }) (congrArg (fun c : Bank 4 Context => c.modify k g) (sendEvent_ctx ..))

/-- R158: a training that the far end has refused. -/
theorem takeTrainVerdict_of_few {s : State} {k : ContextId} (few : (s.at k).fax.badTrainings < 3) (some_rate : 0 < (s.at k).fax.rate) :
    takeTrainVerdict k false s = s.modCtx k fun x => trainingSent ((s.at k).fax.rate - 1)
      { x with fax := { x.fax with badTrainings := x.fax.badTrainings + 1, rate := x.fax.rate - 1 } } := by
  have record : (s.modFax k fun f => { f with badTrainings := f.badTrainings + 1 }).at k
      = { s.at k with fax := { (s.at k).fax with badTrainings := (s.at k).fax.badTrainings + 1 } } := at_modCtx ..
  have goesOn : ¬ (decide (4 ≤ (s.at k).fax.badTrainings + 1) || decide ((s.at k).fax.rate = 0)) = true := by
    simp only [Bool.or_eq_true, decide_eq_true_eq]
    omega
  simp only [takeTrainVerdict, Bool.false_eq_true, if_false, record, goesOn, trainSend_modFax]
  exact modCtx_modCtx ..

theorem takeTrainVerdict_of_last {s : State} {k : ContextId} (ends : 3 ≤ (s.at k).fax.badTrainings ∨ (s.at k).fax.rate = 0)
    (begun : (s.at k).fax.trainingBegun = true) : takeTrainVerdict k false s = s.modCtx k fun x => disconnectSent codeFaxFailed
      { x with fax := { x.fax with badTrainings := x.fax.badTrainings + 1 } } := by
  have record : (s.modFax k fun f => { f with badTrainings := f.badTrainings + 1 }).at k
      = { s.at k with fax := { (s.at k).fax with badTrainings := (s.at k).fax.badTrainings + 1 } } := at_modCtx ..
  have over_ : (decide (4 ≤ (s.at k).fax.badTrainings + 1) || decide ((s.at k).fax.rate = 0)) = true := by
    simp only [Bool.or_eq_true, decide_eq_true_eq]
    omega
  simp only [takeTrainVerdict, Bool.false_eq_true, if_false, record, over_, if_true, endSend, begun, sendDisconnect_modFax]

/-- A send whose far end has taken the training, before its page. -/
def trained (x : Context) : Context := { x with
  fax := { x.fax with badTrainings := 0 }, pump := { x.pump with state := .running x.fax.rate }
  detector := { x.detector with stopped := true } }

theorem takeTrainVerdict_of_good (k : ContextId) (s : State) : takeTrainVerdict k true s = sendPage k (s.modCtx k trained) := by
  have record : (s.modFax k fun f => { f with badTrainings := 0 }).at k = { s.at k with fax := { (s.at k).fax with badTrainings := 0 } } :=
    at_modCtx ..
  simp only [takeTrainVerdict, if_true, record]
  simp only [pumpTrained, setPump, State.modFax, State.modPump, State.modDetector, modCtx_modCtx]
  exact congrArg (sendPage k) (modCtx_congr rfl)

/-- R158: the page that follows a training taken. -/
theorem trained_sendPage {s : State} {k : ContextId} (q : s.Quiet) : (sendPage k (s.modCtx k trained)).Quiet
    ∧ ((sendPage k (s.modCtx k trained)).at k).fax.phase = .sending
    ∧ ((sendPage k (s.modCtx k trained)).at k).fax.badTrainings = 0
    ∧ ((sendPage k (s.modCtx k trained)).at k).detector.stopped = true
    ∧ ((sendPage k (s.modCtx k trained)).at k).pump.state = .running (s.at k).fax.rate := by
  obtain ⟨phase, quiet, part⟩ := sendPage_enters (s := s.modCtx k trained) (k := k)
  rw [at_modCtx] at part
  have bad := congrArg (fun x : Context => x.fax.badTrainings) part
  have stopped := congrArg (fun x : Context => x.detector.stopped) part
  have state := congrArg (fun x : Context => x.pump.state) part
  simp only [pagePart, trained] at bad stopped state
  exact ⟨quiet q, phase, bad, stopped, state⟩

/-! ### Verdicts on a page (R160) -/

/-- A send whose page, ending in a block, has been kept. -/
def pageCounted (b : Nat) (f : Fax) : Fax := { f with pagesDone := min 65535 (f.pagesDone + 1), resend := false, pageStart := b + 1 }

theorem pageKept_eq {s : State} {k : ContextId} {b : Nat} {last : Bool} (verdict : Nat) (ends : (s.at k).fax.pageEnd = some (b, last)) :
    pageKept k verdict s = (sendEvent (some k) (.faxPage ((s.at k).fax.pagesDone + 1) verdict) s).modFax k (pageCounted b) := by
  simp only [pageKept, ends]
  rfl

theorem takePageGood_eq {s : State} {k : ContextId} {b : Nat} {last : Bool} (ends : (s.at k).fax.pageEnd = some (b, last)) :
    takePageGood k s = if last then sendDisconnect k codeOk (pageKept k verdictGood s) else sendPage k (pageKept k verdictGood s) := by
  simp only [takePageGood, ends]
  rfl

theorem takePageRetrain_eq {s : State} {k : ContextId} {b : Nat} {last : Bool} (ends : (s.at k).fax.pageEnd = some (b, last)) :
    takePageRetrain k s = if last then sendDisconnect k codeOk (pageKept k verdictRetrain s)
      else trainSend k ((pageKept k verdictRetrain s).modFax k fun f => { f with rate := f.rate - 1 }) := by
  simp only [takePageRetrain, ends]
  rfl

/-- R160: the next page of a send whose page has been kept. -/
theorem pageKept_sendPage {s : State} {k : ContextId} {b : Nat} {last : Bool} (q : s.Quiet) (verdict : Nat)
    (ends : (s.at k).fax.pageEnd = some (b, last)) : (sendPage k (pageKept k verdict s)).Quiet
      ∧ ((sendPage k (pageKept k verdict s)).at k).fax.phase = .sending
      ∧ ((sendPage k (pageKept k verdict s)).at k).fax.pagesDone = min 65535 ((s.at k).fax.pagesDone + 1)
      ∧ ((sendPage k (pageKept k verdict s)).at k).fax.pageStart = b + 1
      ∧ ((sendPage k (pageKept k verdict s)).at k).fax.resend = false := by
  have kept := pageKept_eq verdict ends
  have record : (pageKept k verdict s).at k = { s.at k with fax := pageCounted b (s.at k).fax } := by
    rw [kept, State.modFax, at_modCtx, at_sendEvent]
  have quiet : (pageKept k verdict s).Quiet := by
    rw [kept]
    exact (Reports.event ..).quiet q
  generalize pageKept k verdict s = u at *
  obtain ⟨phase, fed, part⟩ := sendPage_enters (s := u) (k := k)
  rw [record] at part
  have done := congrArg (fun x : Context => x.fax.pagesDone) part
  have start := congrArg (fun x : Context => x.fax.pageStart) part
  have resend := congrArg (fun x : Context => x.fax.resend) part
  simp only [pagePart, pageCounted] at done start resend
  exact ⟨fed quiet, phase, done, start, resend⟩

theorem takePageBad_of_first {s : State} {k : ContextId} (first : (s.at k).fax.resend = false) (some_rate : 0 < (s.at k).fax.rate) :
    takePageBad k s = (sendEvent (some k) (.faxPage ((s.at k).fax.pagesDone + 1) verdictBad) s).modCtx k fun x =>
      trainingSent ((s.at k).fax.rate - 1) { x with fax := { x.fax with resend := true, rate := x.fax.rate - 1 } } := by
  have again : ¬ ((s.at k).fax.resend || decide ((s.at k).fax.rate = 0)) = true := by
    simp only [first, Bool.false_or, decide_eq_true_eq]
    omega
  refine (if_neg again).trans ((trainSend_modFax ..).trans ?_)
  rw [sendFaxPage, at_sendEvent]

theorem takePageBad_of_last {s : State} {k : ContextId} (ends : (s.at k).fax.resend = true ∨ (s.at k).fax.rate = 0)
    (begun : (s.at k).fax.trainingBegun = true) :
    takePageBad k s = (sendEvent (some k) (.faxPage ((s.at k).fax.pagesDone + 1) verdictBad) s).modCtx k fun x =>
      disconnectSent codeFaxFailed { x with fax := { x.fax with resend := true } } := by
  have over_ : ((s.at k).fax.resend || decide ((s.at k).fax.rate = 0)) = true := by
    simpa only [Bool.or_eq_true, decide_eq_true_eq] using ends
  have still : (((sendEvent (some k) (.faxPage ((s.at k).fax.pagesDone + 1) verdictBad) s).modFax k fun f => { f with resend := true }).at k).fax.trainingBegun
      = true := by
    rw [State.modFax, at_modCtx, at_sendEvent]
    exact begun
  simp only [takePageBad, over_, if_true, sendFaxPage, endSend, still, sendDisconnect_modFax]

end Sys2Proof.Machine
end

section
/-! PROOFS. The family of the fax send, put together (R150, R157 to R161). -/
namespace Sys2Proof.Machine

theorem exec_capability_of_granted {s : State} {k : ContextId} {g : ConfigRecord} {c : Byte} (q : s.Quiet) (config : s.cfu.config = some g)
    (acts : faxIn s k .send .awaitCapability = true) (granted : (s.at k).fax.granted = true) : exec (.capability k c) s
      = .next (s.modCtx k fun x => trainingSent (min (min c.toNat 5) g.faxMaxRate)
          { x with fax := { x.fax with rate := min (min c.toNat 5) g.faxMaxRate, keptCapability := none } }) := by
  have limit : (configOf s).faxMaxRate = g.faxMaxRate := by rw [configOf_eq config]
  have taken : (if (s.at k).fax.granted then takeCapability k c.toNat s
      else s.modFax k fun f => { f with keptCapability := some c.toNat }) = _ :=
    (if_pos granted).trans (trainSend_modFax k _ s)
  rw [limit] at taken
  exact (act_of_due s acts (by rw [taken]; exact q)).trans (congrArg _ taken)

theorem exec_capability_of_early {s : State} {k : ContextId} {c : Byte} (q : s.Quiet) (acts : faxIn s k .send .awaitCapability = true)
    (early : (s.at k).fax.granted = false) :
    exec (.capability k c) s = .next (s.modFax k fun f => { f with keptCapability := some c.toNat }) := by
  have taken : (if (s.at k).fax.granted then takeCapability k c.toNat s
      else s.modFax k fun f => { f with keptCapability := some c.toNat }) = _ := if_neg (by rw [early]; decide)
  exact (act_of_due s acts (by rw [taken]; exact q)).trans (congrArg _ taken)

theorem trainVerdict_of_early {s : State} {k : ContextId} (good : Bool) (q : s.Quiet) (acts : faxIn s k .send .sendTraining = true)
    (phase : (s.at k).fax.phase = .sendTraining) : trainVerdict k good s = .next (s.modFax k fun f => { f with keptVerdict := some good }) := by
  have taken : (if (s.at k).fax.phase = .sendTraining then s.modFax k fun f => { f with keptVerdict := some good }
      else takeTrainVerdict k good s) = _ := if_pos phase
  exact (act_of_due s (by rw [acts, Bool.or_true]) (by rw [taken]; exact q)).trans (congrArg _ taken)

theorem trainVerdict_of_late {s t : State} {k : ContextId} {good : Bool} (acts : faxIn s k .send .awaitTrainVerdict = true)
    (phase : (s.at k).fax.phase = .awaitTrainVerdict) (takes : takeTrainVerdict k good s = t) (q : t.Quiet) :
    trainVerdict k good s = .next t := by
  have taken : (if (s.at k).fax.phase = .sendTraining then s.modFax k fun f => { f with keptVerdict := some good }
      else takeTrainVerdict k good s) = t := (if_neg (by rw [phase]; decide)).trans takes
  exact (act_of_due s (by rw [acts, Bool.true_or]) (by rw [taken]; exact q)).trans (congrArg _ taken)

/-- A send that waits for the verdict on its training. -/
def trainingEnded (f : Fax) : Fax := { f with keptVerdict := none, phase := .awaitTrainVerdict, wait := some 6000 }

theorem sendTrainingOver_of_none {s : State} {k : ContextId} (none : (s.at k).fax.keptVerdict = Option.none) :
    sendTrainingOver k s = s.modFax k trainingEnded := by
  simp only [sendTrainingOver, none, enterPhase, State.modFax, modCtx_modCtx]
  rfl

theorem sendTrainingOver_of_kept {s : State} {k : ContextId} {good : Bool} (kept : (s.at k).fax.keptVerdict = some good) :
    sendTrainingOver k s = takeTrainVerdict k good (s.modFax k trainingEnded) := by
  simp only [sendTrainingOver, kept, enterPhase, State.modFax, modCtx_modCtx]
  rfl

theorem faxWaitOver_of_send {s : State} {k : ContextId} (role : (s.at k).fax.role = some .send) :
    faxWaitOver k s = endSend k codeFaxFailed (s.modFax k fun f => { f with wait := none }) := by
  simp only [faxWaitOver, role]
  rfl

theorem faxWaitOver_of_receive {s : State} {k : ContextId} (role : (s.at k).fax.role = some .receive) :
    faxWaitOver k s = endReceive k true (some reasonStopped) codeFaxFailed (s.modFax k fun f => { f with wait := none }) := by
  simp only [faxWaitOver, role, if_true]

/-- R156, R160: the wait of a send runs out. -/
theorem exec_faxWait_of_send {s : State} {k : ContextId} (q : s.Quiet) (connected : (s.at k).state = .connected)
    (acts : (pumpServes s k .fax && (s.at k).fax.wait == some 0) = true) (role : (s.at k).fax.role = some .send) :
    ((s.at k).fax.trainingBegun = true → exec (.faxWaitTimerExpiry k) s = .next (s.modCtx k (disconnectSent codeFaxFailed)))
    ∧ ((s.at k).fax.trainingBegun = false → ∃ t, exec (.faxWaitTimerExpiry k) s = .next t ∧ FaxIsOver s k codeFaxFailed t) := by
  have ends := faxWaitOver_of_send role
  have record : (s.modFax k fun f => { f with wait := none }).at k = { s.at k with fax := { (s.at k).fax with wait := none } } := at_modCtx ..
  rw [endSend, record] at ends
  refine ⟨fun begun => ?_, fun early => ?_⟩
  · have taken := ends.trans ((if_pos begun).trans (sendDisconnect_modFax ..))
    exact (act_of_due s acts (by rw [taken]; exact q)).trans (congrArg _ taken)
  · have taken := ends.trans (if_neg (by rw [early]; decide))
    have apart := apart_faxWaitOver (k := k) (Apart.refl k s)
    rw [taken] at apart
    obtain ⟨t, run, ended⟩ := act_of_sessionEnd q acts apart (by rw [record]; exact connected)
    rw [← taken] at run
    exact ⟨t, run, faxIsOver_of_end (u := s.modFax k fun f => { f with wait := none }) q (fun _ => ⟨_, rfl⟩) (by rw [record]; rfl) (by rw [record]) (by rw [record]) ended⟩

/-- Settles O57: each command of a send by its phase, and each end of a session by the record it leaves. -/
theorem faxSendCommandsAct : Obligations.FaxSendCommandsAct := by
  intro s k g q config connected session going silent f control changed trains disconnects judged isOver
  have serves := pumpServes_eq_true connected session going
  refine ⟨fun send => ⟨fun c phase => ?capability, fun phase => ?training, fun phase => ?verdict, fun b last ends => ⟨fun phase => ?sent, fun phase => ?page⟩,
    fun expired => ?wait⟩, fun receive expired => ?receive, fun on before => exec_disconnect_of_session q serves connected on before,
    fun x rest control => ⟨fun goes => exec_controlFrameSent_of_rest q serves control goes,
      fun result is phase known => exec_controlFrameSent_of_disconnect q serves connected (is ▸ control) phase known⟩⟩
  case capability =>
    have acts := faxIn_eq_true serves send phase
    exact ⟨fun early => exec_capability_of_early q acts early, fun granted => exec_capability_of_granted q config acts granted⟩
  case training =>
    have acts := faxIn_eq_true serves send phase
    have ended : (s.modFax k trainingEnded).at k = { s.at k with fax := trainingEnded (s.at k).fax } := at_modCtx ..
    refine ⟨trainVerdict_of_early true q acts phase, trainVerdict_of_early false q acts phase, fun none => ?_, fun good => ?_, fun bad few rate => ?_⟩
    · have taken := sendTrainingOver_of_none none
      refine ((act_of_due s acts (by rw [taken]; exact q)).trans (congrArg _ taken)).trans (congrArg Host.Outcome.next (modCtx_congr ?_))
      exact congrArg (fun v => { s.at k with fax := { (s.at k).fax with keptVerdict := v, phase := .awaitTrainVerdict, wait := some 6000 } }) none.symm
    · have taken := (sendTrainingOver_of_kept good).trans (takeTrainVerdict_of_good ..)
      obtain ⟨quiet, facts⟩ := trained_sendPage (s := s.modFax k trainingEnded) (k := k) q
      rw [ended] at facts
      exact ⟨_, (act_of_due s acts (by rw [taken]; exact quiet)).trans (congrArg _ taken), facts⟩
    · have taken := (sendTrainingOver_of_kept bad).trans (takeTrainVerdict_of_few (by rw [ended]; exact few) (by rw [ended]; exact rate))
      rw [ended] at taken
      have composed := taken.trans (modCtx_modCtx ..)
      exact (act_of_due s acts (by rw [composed]; exact q)).trans (congrArg _ composed)
  case verdict =>
    have acts := faxIn_eq_true serves send phase
    refine ⟨?_, fun few rate => ?_, fun ends begun => ?_⟩
    · obtain ⟨quiet, facts⟩ := trained_sendPage (k := k) q
      exact ⟨_, trainVerdict_of_late acts phase (takeTrainVerdict_of_good k s) quiet, facts⟩
    · exact trainVerdict_of_late acts phase (takeTrainVerdict_of_few few rate) q
    · exact trainVerdict_of_late acts phase (takeTrainVerdict_of_last ends begun) q
  case sent =>
    have acts : (faxIn s k .send .sending && (s.at k).fax.pageEnd.isSome) = true := by
      rw [faxIn_eq_true serves send phase, ends]
      rfl
    have taken : pageSent k (((s.at k).fax.pageEnd.map (·.2)).getD true) s = s.modCtx k fun x => { x with
        fax := { x.fax with phase := .awaitPageVerdict, wait := some 6000 }
        pump := { x.pump with control := x.pump.control ++ [.pageEnd last] } } := by
      rw [ends]
      exact modCtx_modCtx ..
    exact (act_of_due s acts (by rw [taken]; exact q)).trans (congrArg _ taken)
  case page =>
    have acts := faxIn_eq_true serves send phase
    have told (verdict : Nat) : (sendEvent (some k) (.faxPage ((s.at k).fax.pagesDone + 1) verdict) s).Quiet := (Reports.event ..).quiet q
    refine ⟨fun isLast => ⟨?_, ?_⟩, fun more => ⟨?_, ?_⟩, fun first rate => ?_, fun enough begun => ?_⟩
    · have good := takePageGood_eq ends
      rw [if_pos isLast, pageKept_eq verdictGood ends, sendDisconnect_modFax] at good
      exact (act_of_due s acts (by rw [good]; exact told 0)).trans (congrArg Host.Outcome.next (good.trans (sendEvent_modCtx _ rfl)))
    · have retrain := takePageRetrain_eq ends
      rw [if_pos isLast, pageKept_eq verdictRetrain ends, sendDisconnect_modFax] at retrain
      exact (act_of_due s acts (by rw [retrain]; exact told 1)).trans (congrArg Host.Outcome.next (retrain.trans (sendEvent_modCtx _ rfl)))
    · have good := takePageGood_eq ends
      rw [if_neg (by rw [more]; decide)] at good
      obtain ⟨quiet, facts⟩ := pageKept_sendPage q verdictGood ends
      exact ⟨_, (act_of_due s acts (by rw [good]; exact quiet)).trans (congrArg _ good), facts⟩
    · have retrain := takePageRetrain_eq ends
      rw [if_neg (by rw [more]; decide), pageKept_eq verdictRetrain ends, trainSend_modFax, State.modFax, at_modCtx, at_sendEvent,
        modCtx_modCtx] at retrain
      exact (act_of_due s acts (by rw [retrain]; exact told 1)).trans (congrArg Host.Outcome.next (retrain.trans (sendEvent_modCtx _ rfl)))
    · have bad := takePageBad_of_first first rate
      exact (act_of_due s acts (by rw [bad]; exact told 2)).trans (congrArg Host.Outcome.next (bad.trans (sendEvent_modCtx _ rfl)))
    · have bad := takePageBad_of_last enough begun
      exact (act_of_due s acts (by rw [bad]; exact told 2)).trans (congrArg Host.Outcome.next (bad.trans (sendEvent_modCtx _ rfl)))
  case wait =>
    have acts : (pumpServes s k .fax && (s.at k).fax.wait == some 0) = true := by
      rw [serves, expired]
      rfl
    exact exec_faxWait_of_send q connected acts send
  case receive =>
    have acts : (pumpServes s k .fax && (s.at k).fax.wait == some 0) = true := by
      rw [serves, expired]
      rfl
    have taken := faxWaitOver_of_receive receive
    have apart := apart_faxWaitOver (k := k) (Apart.refl k s)
    rw [taken] at apart
    obtain ⟨t, run, record⟩ := exec_of_endReceive q acts apart (by rw [State.modFax, at_modCtx]; exact session)
      (by rw [State.modFax, at_modCtx]; exact silent)
    rw [← taken] at run
    refine ⟨t, run, ?_⟩
    rw [record, State.modFax, at_modCtx]
    exact ⟨rfl, rfl, rfl, rfl⟩

end Sys2Proof.Machine
end

section
/-! PROOFS. The family of the data session: the quality figure, the end of a session, and the link when it has nothing to send
(R162, R164, R165, R169, R170, R171, R172). -/
namespace Sys2Proof.Machine

/-! ### The quality figure (R162) -/

/-- The thresholds of R162 by their index. -/
def levelOf (i : Nat) : Nat := [4095, 2400, 1500, 1000, 700, 480, 330, 230, 160, 110, 76, 52].getD i 0

/-- The thresholds up to an index, the highest first. -/
def levelsTo : Nat → List (Nat × Nat)
  | 0 => [(0, levelOf 0)]
  | n + 1 => (n + 1, levelOf (n + 1)) :: levelsTo n

theorem rateLevels_eq : rateLevels = levelsTo 11 := by decide

theorem ceilingBelow_levelsTo {q : Nat} (low : q ≤ 16 * levelOf 0) (n : Nat) : ceilingBelow q (levelsTo n) ≤ n
    ∧ q ≤ 16 * levelOf (ceilingBelow q (levelsTo n)) ∧ ∀ j, ceilingBelow q (levelsTo n) < j → j ≤ n → 16 * levelOf j < q := by
  induction n with
  | zero =>
    have first : ceilingBelow q (levelsTo 0) = 0 := if_pos low
    rw [first]
    exact ⟨Nat.le_refl 0, low, fun j above below => absurd above (by omega)⟩
  | succ n ih =>
    by_cases bears : q ≤ 16 * levelOf (n + 1)
    · have here : ceilingBelow q (levelsTo (n + 1)) = n + 1 := if_pos bears
      rw [here]
      exact ⟨Nat.le_refl _, bears, fun j above below => absurd above (by omega)⟩
    · have lower : ceilingBelow q (levelsTo (n + 1)) = ceilingBelow q (levelsTo n) := if_neg bears
      obtain ⟨le, level, above⟩ := ih
      rw [lower]
      refine ⟨by omega, level, fun j over_ below => ?_⟩
      by_cases top : j = n + 1
      · rw [top]
        omega
      · exact above j over_ (by omega)

theorem moveQuality_up {q r : Nat} (up : q ≤ 16 * r) : moveQuality (some q) false r = q + (16 * r - q) / 8 := by
  have moved : moveQuality (some q) false r = ((q : Int) + Int.tdiv ((16 * r : Nat) - (q : Int)) 8).toNat := rfl
  rw [moved, Int.tdiv_eq_ediv_of_nonneg (by omega)]
  omega

theorem moveQuality_down {q r : Nat} (down : 16 * r ≤ q) : moveQuality (some q) false r = q - (q - 16 * r) / 8 := by
  have moved : moveQuality (some q) false r = ((q : Int) + Int.tdiv ((16 * r : Nat) - (q : Int)) 8).toNat := rfl
  have flipped : ((16 * r : Nat) - (q : Int)) = -((q : Int) - (16 * r : Nat)) := by omega
  rw [moved, flipped, Int.neg_tdiv, Int.tdiv_eq_ediv_of_nonneg (by omega)]
  omega

/-! ### The end of a data session (R73, R169) -/

theorem sendEvent_tx_congr {s t : State} (k : Option ContextId) (e : Event) (tx : s.clc.tx = t.clc.tx)
    (station : s.cfu.station = t.cfu.station) : (sendEvent k e s).clc.tx = (sendEvent k e t).clc.tx := by
  have cell : eventCell s k e = eventCell t k e := ownCell_congr station ..
  rw [sendEvent_eq, sendEvent_eq, cell, tx]
  split
  · rfl
  · exact tx

theorem sendRelease_tx_congr {s t : State} (c : Channel) (tx : s.clc.tx = t.clc.tx) (station : s.cfu.station = t.cfu.station) :
    (sendRelease c s).clc.tx = (sendRelease c t).clc.tx := by
  simp only [sendRelease, offerOther_none_clc, ownCell, ownAddress, station, tx]
  split
  · rfl
  · rfl

/-- A context whose data session has stopped. -/
def dataStopped (x : Context) : Context := { x with qmn := .reset, lkc := .reset, pump := .reset }

theorem stopData_eq (k : ContextId) (s : State) : stopData k s = releaseHeld (.dataRx k) (s.modCtx k dataStopped) := by
  have stopped : ((s.modQmn k fun _ => .reset).modLkc k fun _ => .reset).modPump k (fun _ => .reset) = s.modCtx k dataStopped :=
    (congrArg (State.modCtx k _) (modCtx_modCtx ..)).trans (modCtx_modCtx ..)
  rw [stopData, stopped]

theorem windDown_of_data {s : State} {k : ContextId} (cause : Byte) (connected : (s.at k).state = .connected)
    (data : (s.at k).session = .data) : windDown k cause s = stopData k s := by
  simp only [windDown, connected, data]

/-- What the end of a data session leaves. -/
structure DataEnded (s : State) (k : ContextId) (cause : Byte) (t : State) : Prop where
  record : ∃ x, t.at k = clearingRecord x
  rau : t.rau = s.rau
  tx : ∀ ch, (s.at k).announced = true → (s.at k).outgoing = none → (s.at k).channel = some ch →
    t.clc.tx = (sendRelease ch (sendEvent (some k) (.callEnded cause) s)).clc.tx

theorem endCall_of_data {s : State} {k : ContextId} {cause : Byte} (h : clears cause = true) (connected : (s.at k).state = .connected)
    (data : (s.at k).session = .data) : DataEnded s k cause (endCall k cause s) := by
  have call : inCall (s.at k) = true := by rw [inCall_iff]; simp [connected]
  obtain ⟨b, told⟩ := at_announceUnknown k s
  have ended : endCall k cause s = enterClearing k (sendEvent (some k) (.callEnded cause)
      (outdialDone k cause (stopData k (announceUnknown k s)))) := by
    rw [endCall_eq cause call, leaveChannel_of_clears h, windDown_of_data cause (by rw [told]; exact connected) (by rw [told]; exact data)]
  have stops (u : State) : (stopData k u).rau = u.rau := by rw [stopData_eq]; rfl
  refine ⟨⟨_, by rw [ended, at_enterClearing]⟩, ?_, fun ch announced noRequest channel => ?_⟩
  · rw [ended, (reports_enterClearing k _).rau, (Reports.event ..).rau, (reports_outdialDone k cause _).rau, stops, (reports_announceUnknown k s).rau]
  · have record : (stopData k s).at k = dataStopped (s.at k) := by
      rw [stopData_eq]
      exact at_modCtx s k dataStopped
    rw [ended, announceUnknown_of_announced announced, outdialDone_of_none cause (by rw [record]; exact noRequest),
      enterClearing_of_channel (c := ch) (by rw [at_sendEvent, record]; exact channel)]
    have stopped : (stopData k s).clc.tx = s.clc.tx ∧ (stopData k s).cfu = s.cfu := by rw [stopData_eq]; exact ⟨rfl, rfl⟩
    have station (u : State) : (sendEvent (some k) (.callEnded cause) u).cfu.station = u.cfu.station := (storeOnly_sendEvent ..).station
    refine sendRelease_tx_congr ch (sendEvent_tx_congr _ _ stopped.1 (congrArg Cfu.station stopped.2)) ?_
    rw [station]
    exact (station (stopData k s)).trans (congrArg Cfu.station stopped.2)

theorem act_of_dataEnds {s u : State} {k : ContextId} {cause : Byte} {due : Bool} {effect : State} (q : s.Quiet) (acts : due = true)
    (ends : effect = dataEnds k cause u) (rau : u.rau = s.rau) (h : clears cause = true) (connected : (u.at k).state = .connected)
    (data : (u.at k).session = .data) : ∃ t, act due effect s = .next t ∧ DataEnded u k cause t := by
  have ended := endCall_of_data h connected data
  rw [ends]
  exact ⟨_, act_of_due s acts (quiet_of_rau q (ended.rau.trans rau)), ended⟩

/-! ### When a command of a data session acts -/

theorem dataIn_eq_true {s : State} {k : ContextId} {phase : DataPhase} (serves : pumpServes s k .data = true)
    (stands : (s.at k).qmn.phase = some phase) : dataIn s k phase = true := by
  simp [dataIn, serves, stands]

/-! ### A link with nothing to send (R165, R170, R171, R172) -/

theorem modLkc_congr {s : State} {k : ContextId} {f g : Lkc → Lkc} (h : f (s.at k).lkc = g (s.at k).lkc) : s.modLkc k f = s.modLkc k g :=
  modCtx_congr (congrArg (fun l => { s.at k with lkc := l }) h)

theorem makeBlock_of_empty {s : State} {k : ContextId} (empty : (s.at k).lkc.sendBuffer = []) : makeBlock k s = s := by
  simp [makeBlock, empty]

theorem pumpLink_of_empty {s : State} {k : ContextId} (empty : (s.at k).lkc.sendBuffer = []) : pumpLink k s = s :=
  forEach_of_standing fun _ _ => makeBlock_of_empty empty

theorem releaseRemote_of_idle {s : State} {k : ContextId} (idle : (s.at k).lkc.holdSent = false) : releaseRemote k s = s := by
  simp [releaseRemote, idle]

/-- A link that resumes with nothing outstanding. -/
def linkResumed (l : Lkc) : Lkc := { l with resend := none, remoteHold := none }

theorem endRemoteHold_of_empty {l : Lkc} (empty : l.outstanding = []) : endRemoteHold l = { l with remoteHold := none } := by
  cases hold : l.remoteHold with
  | none =>
    simp only [endRemoteHold, hold, Option.isSome_none, Bool.false_eq_true, if_false]
    rw [← hold]
  | some n => simp only [endRemoteHold, hold, Option.isSome_some, if_true, empty]

theorem resendAll_of_empty {s : State} {k : ContextId} (empty : (s.at k).lkc.outstanding = []) :
    resendAll k s = s.modLkc k fun l => { l with resend := none } := by
  have none_out : forEach (s.at k).lkc.outstanding (fun b t => sendLink k (.data b.sequence b.bytes) t) s = s := by
    rw [empty]
    rfl
  rw [resendAll, none_out]
  exact modLkc_congr (congrArg (fun r => { (s.at k).lkc with resend := r }) (if_pos empty))

theorem resumeLink_of_idle {s : State} {k : ContextId} (outstanding : (s.at k).lkc.outstanding = []) (send : (s.at k).lkc.sendBuffer = [])
    (hold : (s.at k).lkc.holdSent = false) : resumeLink k s = s.modLkc k linkResumed := by
  have ended : s.modLkc k endRemoteHold = s.modLkc k fun l => { l with remoteHold := none } :=
    modLkc_congr (endRemoteHold_of_empty outstanding)
  have record : (s.modLkc k fun l => { l with remoteHold := none }).at k
      = { s.at k with lkc := { (s.at k).lkc with remoteHold := none } } := at_modCtx ..
  have again : resendAll k (s.modLkc k endRemoteHold) = s.modLkc k linkResumed := by
    rw [ended, resendAll_of_empty (by rw [record]; exact outstanding)]
    exact modCtx_modCtx ..
  have record' : (s.modLkc k linkResumed).at k = { s.at k with lkc := linkResumed (s.at k).lkc } := at_modCtx ..
  rw [resumeLink, again, pumpLink_of_empty (by rw [record']; exact send), releaseRemote_of_idle (by rw [record']; exact hold)]

/-- A report and a change of a context may be told in either order. -/
theorem sendEvent_modCtx_comm (k : ContextId) (e : Event) (f : Context → Context) (s : State) :
    sendEvent (some k) e (s.modCtx k f) = (sendEvent (some k) e s).modCtx k f := by
  rw [sendEvent_eq, sendEvent_eq]
  by_cases room : s.clc.tx.length < 24
  · rw [if_pos room, if_pos (show (s.modCtx k f).clc.tx.length < 24 from room)]
    rfl
  · rw [if_neg room, if_neg (show ¬ (s.modCtx k f).clc.tx.length < 24 from room)]
    rfl

end Sys2Proof.Machine
end

section
/-! PROOFS. The family of the data session, its readings, trainings and shifts (R163 to R168). -/
namespace Sys2Proof.Machine

/-! ### Shifts and retrains (R165, R166) -/

/-- A session that retrains. -/
def retraining (target : Nat) (reason : RateReason) (retrains : Nat) (mode : DataMode) (x : Context) : Context := { x with
  qmn := { x.qmn.clearCounts with
    phase := some .retraining, target, reason, readings := 0, retrains := retrains + 1, timer := some 10000 }
  pump := { x.pump with state := .trainingData target mode } }

theorem retrain_of_few {s : State} {k : ContextId} (target : Nat) (reason : RateReason) (few : (s.at k).qmn.retrains < 4) :
    retrain k target reason s = s.modCtx k (retraining target reason (s.at k).qmn.retrains (s.at k).qmn.mode) := by
  have more : ¬ 4 ≤ (s.at k).qmn.retrains := by omega
  exact (if_neg more).trans (modCtx_modCtx ..)

theorem retrain_of_many {s : State} {k : ContextId} (target : Nat) (reason : RateReason) (many : 4 ≤ (s.at k).qmn.retrains) :
    retrain k target reason s = dataEnds k codeLineQuality s := if_pos many

/-- A session that shifts. -/
def shifting (target : Nat) (reason : RateReason) (x : Context) : Context := { x with
  qmn := { x.qmn.clearCounts with phase := some .shifting, target, reason }, pump := { x.pump with state := .shifting target } }

theorem beginShift_eq (k : ContextId) (target : Nat) (reason : RateReason) (s : State) :
    beginShift k target reason s = s.modCtx k (shifting target reason) := modCtx_modCtx ..

/-- A session that is UP at its target. -/
def upAtTarget (x : Context) : Context := { x with
  qmn := { x.qmn.clearCounts with phase := some .up, rate := x.qmn.target, timer := none }
  pump := { x.pump with state := .running x.qmn.target } }

theorem comeUp_eq (k : ContextId) (s : State) : comeUp k s = s.modCtx k upAtTarget := by
  have record : ((s.modQmn k fun q => { q.clearCounts with phase := some .up, rate := q.target, timer := none }).at k).qmn.rate
      = (s.at k).qmn.target := by
    rw [State.modQmn, at_modCtx]
  simp only [comeUp, record]
  exact (modCtx_modCtx ..).trans (modCtx_congr rfl)

/-- R165: a shift has ended at a link with nothing to send. -/
theorem shiftOver_of_idle {s : State} {k : ContextId} (outstanding : (s.at k).lkc.outstanding = []) (send : (s.at k).lkc.sendBuffer = [])
    (hold : (s.at k).lkc.holdSent = false) : shiftOver k s = (sendEvent (some k) (.dataRate (s.at k).qmn.target (s.at k).qmn.reason) s).modCtx k
      fun x => { upAtTarget x with lkc := linkResumed x.lkc } := by
  have told : shiftOver k s = resumeLink k ((sendEvent (some k) (.dataRate (s.at k).qmn.target (s.at k).qmn.reason) s).modCtx k upAtTarget) := by
    rw [← sendEvent_modCtx_comm, ← comeUp_eq]
    rfl
  rw [told, resumeLink_of_idle]
  · exact modCtx_modCtx ..
  all_goals rw [at_modCtx, at_sendEvent]
  · exact outstanding
  · exact send
  · exact hold

/-! ### The end of a training (R167) -/

section
variable {s : State} {k : ContextId} {ceiling : Nat} (is : ceilingOf ((s.at k).qmn.quality.getD 0) = ceiling)
include is

theorem trainingOver_of_low (low : ceiling < (s.at k).qmn.min) : trainingOver k s = dataEnds k codeLineQuality s := by
  simp only [trainingOver, is, low, if_true]

theorem trainingOver_of_ceiling (bears : (s.at k).qmn.min ≤ ceiling) (short : ceiling < (s.at k).qmn.target) :
    trainingOver k s = retrain k ceiling .ceiling s := by
  have notLow : ¬ ceiling < (s.at k).qmn.min := by omega
  simp only [trainingOver, is, notLow, short, if_true, if_false, Nat.max_eq_right bears]

/-- The report of a session that is UP. -/
theorem trainingOver_of_up (reaches : (s.at k).qmn.target ≤ ceiling) (bears : (s.at k).qmn.min ≤ (s.at k).qmn.target) :
    ∃ u, trainingOver k s = resumeLink k u ∧ u.rau = s.rau
      ∧ u.at k = { upAtTarget (s.at k) with detector := { (s.at k).detector with stopped := true } }
      ∧ ((s.at k).qmn.phase = some .training → u.clc = (sendEvent (some k) (.dataUp (s.at k).qmn.target) s).clc)
      ∧ ((s.at k).qmn.phase ≠ some .training → u.clc = if (s.at k).qmn.target = (s.at k).qmn.rate then s.clc
          else (sendEvent (some k) (.dataRate (s.at k).qmn.target (if (s.at k).qmn.reason = .burst then .burst else .fallback)) s).clc) := by
  have notLow : ¬ ceiling < (s.at k).qmn.min := by omega
  have notShort : ¬ ceiling < (s.at k).qmn.target := by omega
  let u := pumpTrained k (comeUp k s)
  have off : SameOff s u := by
    rw [show u = (comeUp k s).modCtx k _ from rfl, comeUp_eq]
    exact (SameOff.refl s).modCtx.modCtx
  have record : u.at k = { upAtTarget (s.at k) with detector := { (s.at k).detector with stopped := true } } := by
    rw [show u = (comeUp k s).modCtx k _ from rfl, comeUp_eq, at_modCtx, at_modCtx]
    rfl
  simp only [trainingOver, is, notLow, notShort, if_false]
  by_cases first : (s.at k).qmn.phase = some .training
  · refine ⟨sendEvent (some k) (.dataUp (s.at k).qmn.target) u, by rw [if_pos first], ?_, ?_, fun _ => ?_, fun no => absurd first no⟩
    · exact (Reports.event ..).rau.trans off.rau
    · rw [at_sendEvent, record]
    · exact off.sendEvent.clc
  · by_cases same : (s.at k).qmn.target = (s.at k).qmn.rate
    · refine ⟨u, by simp [first, same]; rfl, off.rau, record, fun yes => absurd yes first, fun _ => ?_⟩
      rw [if_pos same]
      exact off.clc
    · refine ⟨sendEvent (some k) (.dataRate (s.at k).qmn.target (if (s.at k).qmn.reason = .burst then .burst else .fallback)) u,
        by simp [first, same]; rfl, ?_, ?_, fun yes => absurd yes first, fun _ => ?_⟩
      · exact (Reports.event ..).rau.trans off.rau
      · rw [at_sendEvent, record]
      · rw [if_neg same]
        exact off.sendEvent.clc

end

end Sys2Proof.Machine
end

section
/-! PROOFS. The family of the data session, its readings settled (R162 to R168). -/
namespace Sys2Proof.Machine

/-! ### Readings (R162, R163, R164) -/

theorem dataReading_of_few {s : State} {k : ContextId} {r : Nat} (training : (s.at k).qmn.phase ≠ some .up)
    (few : (s.at k).qmn.readings + 1 < 16) : dataReading k r s = s.modQmn k fun q => q.trainingStep r := by
  have still : ¬ 16 ≤ ((s.modQmn k fun q => q.trainingStep r).at k).qmn.readings := by
    rw [State.modQmn, at_modCtx]
    exact Nat.not_le.mpr few
  simp only [dataReading, training, still, if_false]

theorem dataReading_of_last {s : State} {k : ContextId} {r : Nat} (training : (s.at k).qmn.phase ≠ some .up)
    (enough : 16 ≤ (s.at k).qmn.readings + 1) : dataReading k r s = trainingOver k (s.modQmn k fun q => q.trainingStep r) := by
  have whole : 16 ≤ ((s.modQmn k fun q => q.trainingStep r).at k).qmn.readings := by
    rw [State.modQmn, at_modCtx]
    exact enough
  simp only [dataReading, training, whole, if_false, if_true]

theorem dataReading_of_burst {s : State} {k : ContextId} {r : Nat} (up : (s.at k).qmn.phase = some .up)
    (whole : 16 ≤ (s.at k).qmn.windowReadings + 1) (burst : (configOf s).errorBurst ≤ (s.at k).qmn.errors) : dataReading k r s
      = retrain k (max (s.at k).qmn.min ((s.at k).qmn.rate - 2)) .burst (s.modQmn k fun q => q.windowStep r) := by
  have many : (decide (16 ≤ (s.at k).qmn.windowReadings + 1)
      && decide ((configOf (s.modQmn k fun q => q.windowStep r)).errorBurst ≤ (s.at k).qmn.errors)) = true := by
    rw [Bool.and_eq_true, decide_eq_true_eq, decide_eq_true_eq]
    exact ⟨whole, burst⟩
  exact (if_pos up).trans (if_pos many)

theorem dataReading_of_up {s : State} {k : ContextId} {r : Nat} (up : (s.at k).qmn.phase = some .up)
    (calm : ¬ (16 ≤ (s.at k).qmn.windowReadings + 1 ∧ (configOf s).errorBurst ≤ (s.at k).qmn.errors)) :
    dataReading k r s = judgeRate k (s.modQmn k fun q => q.windowStep r) := by
  have few : ¬ (decide (16 ≤ (s.at k).qmn.windowReadings + 1)
      && decide ((configOf (s.modQmn k fun q => q.windowStep r)).errorBurst ≤ (s.at k).qmn.errors)) = true := by
    rw [Bool.and_eq_true, decide_eq_true_eq, decide_eq_true_eq]
    exact calm
  exact (if_pos up).trans (if_neg few)

/-- The counts of a reading taken while UP. -/
def rateCounted (ceiling : Nat) (q : Qmn) : Qmn := { q with fallback := q.fallbackAfter ceiling, stepUp := q.stepUpAfter ceiling }

section
variable {s : State} {k : ContextId} {ceiling : Nat} (is : ceilingOf ((s.at k).qmn.quality.getD 0) = ceiling)
include is

theorem judgeRate_of_steady (falls : (s.at k).qmn.fallbackAfter ceiling < 3) (steps : (s.at k).qmn.stepUpAfter ceiling < 64) :
    judgeRate k s = s.modQmn k (rateCounted ceiling) := by
  have notDown : ¬ 3 ≤ (s.at k).qmn.fallbackAfter ceiling := by omega
  have notUp : ¬ 64 ≤ (s.at k).qmn.stepUpAfter ceiling := by omega
  simp only [judgeRate, is, notDown, notUp, if_false]
  rfl

theorem judgeRate_of_fallback (falls : 3 ≤ (s.at k).qmn.fallbackAfter ceiling) (bears : (s.at k).qmn.min ≤ ceiling) :
    judgeRate k s = beginShift k ceiling .fallback (s.modQmn k (rateCounted ceiling)) := by
  have notLow : ¬ ceiling < (s.at k).qmn.min := by omega
  simp only [judgeRate, is, falls, notLow, if_true, if_false, Nat.max_eq_left bears]
  rfl

theorem judgeRate_of_low (falls : 3 ≤ (s.at k).qmn.fallbackAfter ceiling) (low : ceiling < (s.at k).qmn.min) :
    judgeRate k s = dataEnds k codeLineQuality (s.modQmn k (rateCounted ceiling)) := by
  simp only [judgeRate, is, falls, low, if_true]
  rfl

theorem judgeRate_of_stepUp (falls : (s.at k).qmn.fallbackAfter ceiling < 3) (steps : 64 ≤ (s.at k).qmn.stepUpAfter ceiling) :
    judgeRate k s = beginShift k ((s.at k).qmn.rate + 1) .stepUp (s.modQmn k (rateCounted ceiling)) := by
  have notDown : ¬ 3 ≤ (s.at k).qmn.fallbackAfter ceiling := by omega
  simp only [judgeRate, is, notDown, steps, if_true, if_false]
  rfl

end

/-! ### The obligation -/

/-- R169: a data session that has ended, whose context clears its channel. -/
def SessionEnded (s : State) (k : ContextId) (cause : Byte) (t : State) : Prop :=
  (t.at k).state = .clearing ∧ (t.at k).session = .none ∧ (t.at k).qmn = Qmn.reset ∧ (t.at k).lkc = Lkc.reset
  ∧ (t.at k).pump = Pump.reset ∧ (t.at k).timer = some 2000
  ∧ ∀ ch, (s.at k).direction = some .incoming → (s.at k).announced = true → (s.at k).outgoing = none →
      (s.at k).channel = some ch → t.clc.tx = (sendRelease ch (sendEvent (some k) (.callEnded cause) s)).clc.tx

theorem sessionEnded_of_ended {s t : State} {k : ContextId} {cause : Byte} (g : Qmn → Qmn) (h : DataEnded (s.modQmn k g) k cause t) :
    SessionEnded s k cause t := by
  obtain ⟨x, record⟩ := h.record
  have same : (s.modQmn k g).at k = { s.at k with qmn := g (s.at k).qmn } := at_modCtx ..
  refine ⟨?_, ?_, ?_, ?_, ?_, ?_, fun ch _ announced noRequest channel => ?_⟩
  iterate 6 (rw [record]; rfl)
  rw [h.tx ch (by rw [same]; exact announced) (by rw [same]; exact noRequest) (by rw [same]; exact channel)]
  exact congrArg Clc.tx ((SameOff.refl s).modCtx.sendEvent.sendRelease).clc

/-- A command that ends a data session, whatever it has counted first. -/
theorem exec_of_dataEnds {s : State} {k : ContextId} {cause : Byte} {due : Bool} {effect : State} (q : s.Quiet) (acts : due = true)
    (g : Qmn → Qmn) (ends : effect = dataEnds k cause (s.modQmn k g)) (h : clears cause = true) (connected : (s.at k).state = .connected)
    (data : (s.at k).session = .data) : ∃ t, act due effect s = .next t ∧ SessionEnded s k cause t := by
  have same : (s.modQmn k g).at k = { s.at k with qmn := g (s.at k).qmn } := at_modCtx ..
  obtain ⟨t, run, ended⟩ := act_of_dataEnds q acts ends rfl h (by rw [same]; exact connected) (by rw [same]; exact data)
  exact ⟨t, run, sessionEnded_of_ended g ended⟩

theorem modQmn_self (k : ContextId) (s : State) : s.modQmn k id = s := modCtx_self rfl

/-- A command whose effect changes the context alone. -/
theorem exec_of_modCtx {s effect : State} {k : ContextId} {due : Bool} {f : Context → Context} (q : s.Quiet) (acts : due = true)
    (taken : effect = s.modCtx k f) : act due effect s = .next (s.modCtx k f) := by
  rw [taken]
  exact act_of_due s acts q

theorem exec_noiseReading_of_data {s : State} {k : ContextId} (r : BitVec 12) (data : (s.at k).session = .data) :
    exec (.noiseReading k r) s = act (faxIn s k .receive .training || takesReadings s k) (dataReading k r.toNat s) s := by
  have notFax : (s.at k).session ≠ .fax := by rw [data]; decide
  change act _ (if (s.at k).session = .fax then faxReading k r.toNat s else dataReading k r.toNat s) s = _
  rw [if_neg notFax]

theorem quality_windowStep (q : Qmn) (r : Nat) : (q.windowStep r).quality.getD 0 = moveQuality q.quality false r := rfl

end Sys2Proof.Machine
end

section
/-! PROOFS. The family of the data session, its readings, trainings and shifts put together (R162 to R168). -/
namespace Sys2Proof.Machine

/-- R162, R166, R167: a reading of a training of a data session. -/
theorem exec_noiseReading_of_training {s : State} {k : ContextId} (r : BitVec 12) {quality : Nat} (q : s.Quiet)
    (connected : (s.at k).state = .connected) (data : (s.at k).session = .data)
    (acts : (faxIn s k .receive .training || takesReadings s k) = true) (training : (s.at k).qmn.phase ≠ some .up)
    (moved : quality = moveQuality (s.at k).qmn.quality (decide ((s.at k).qmn.readings = 0)) r.toNat) :
    ((s.at k).qmn.readings + 1 < 16 → exec (.noiseReading k r) s
      = .next (s.modQmn k fun q => { q with quality := some quality, readings := q.readings + 1 }))
    ∧ (16 ≤ (s.at k).qmn.readings + 1 → (s.at k).qmn.min ≤ ceilingOf quality → ceilingOf quality < (s.at k).qmn.target →
        (s.at k).qmn.retrains < 4 → exec (.noiseReading k r) s = .next (s.modCtx k fun x =>
          retraining (ceilingOf quality) .ceiling x.qmn.retrains (s.at k).qmn.mode { x with qmn := { x.qmn with quality := some quality } }))
    ∧ (16 ≤ (s.at k).qmn.readings + 1 → ceilingOf quality < (s.at k).qmn.min →
        ∃ t, exec (.noiseReading k r) s = .next t ∧ SessionEnded s k codeLineQuality t) := by
  have step : (s.at k).qmn.trainingStep r.toNat = { (s.at k).qmn with quality := some quality, readings := (s.at k).qmn.readings + 1 } := by
    rw [trainingStep_eq, moved]
  have record : (s.modQmn k fun q => q.trainingStep r.toNat).at k = { s.at k with qmn :=
      { (s.at k).qmn with quality := some quality, readings := (s.at k).qmn.readings + 1 } } := by
    rw [State.modQmn, at_modCtx, step]
  have is : ceilingOf (((s.modQmn k fun q => q.trainingStep r.toNat).at k).qmn.quality.getD 0) = ceilingOf quality := by
    rw [record]
    rfl
  rw [exec_noiseReading_of_data r data]
  refine ⟨fun few => ?_, fun enough bears short retrains => ?_, fun enough low => ?_⟩
  · exact exec_of_modCtx q acts ((dataReading_of_few training few).trans (modCtx_congr (congrArg (fun q => { s.at k with qmn := q }) step)))
  · refine exec_of_modCtx q acts ?_
    rw [dataReading_of_last training enough, trainingOver_of_ceiling is (by rw [record]; exact bears) (by rw [record]; exact short),
      retrain_of_few _ _ (by rw [record]; exact retrains), State.modQmn, modCtx_modCtx]
    refine modCtx_congr ?_
    rw [at_modCtx, step]
    rfl
  · exact exec_of_dataEnds q acts _ ((dataReading_of_last training enough).trans (trainingOver_of_low is (by rw [record]; exact low))) (by decide)
      connected data

/-- R167: the training whose last reading brings the session UP. -/
theorem exec_noiseReading_of_up {s : State} {k : ContextId} (r : BitVec 12) {quality : Nat} (q : s.Quiet)
    (data : (s.at k).session = .data) (acts : (faxIn s k .receive .training || takesReadings s k) = true)
    (training : (s.at k).qmn.phase ≠ some .up) (outstanding : (s.at k).lkc.outstanding = []) (send : (s.at k).lkc.sendBuffer = [])
    (hold : (s.at k).lkc.holdSent = false)
    (moved : quality = moveQuality (s.at k).qmn.quality (decide ((s.at k).qmn.readings = 0)) r.toNat)
    (enough : 16 ≤ (s.at k).qmn.readings + 1) (reaches : (s.at k).qmn.target ≤ ceilingOf quality) (bears : (s.at k).qmn.min ≤ (s.at k).qmn.target) :
    ∃ t, exec (.noiseReading k r) s = .next t
      ∧ (t.at k).qmn.phase = some .up ∧ (t.at k).qmn.rate = (s.at k).qmn.target ∧ (t.at k).qmn.timer = none
      ∧ (t.at k).detector.stopped = true ∧ (t.at k).pump.state = .running (s.at k).qmn.target
      ∧ ((s.at k).qmn.phase = some .training → t.clc = (sendEvent (some k) (.dataUp (s.at k).qmn.target) s).clc)
      ∧ ((s.at k).qmn.phase ≠ some .training → t.clc = if (s.at k).qmn.target = (s.at k).qmn.rate then s.clc
          else (sendEvent (some k) (.dataRate (s.at k).qmn.target (if (s.at k).qmn.reason = .burst then .burst else .fallback)) s).clc) := by
  have step : (s.at k).qmn.trainingStep r.toNat = { (s.at k).qmn with quality := some quality, readings := (s.at k).qmn.readings + 1 } := by
    rw [trainingStep_eq, moved]
  have off : SameOff s (s.modQmn k fun q => q.trainingStep r.toNat) := (SameOff.refl s).modCtx
  have record : (s.modQmn k fun q => q.trainingStep r.toNat).at k = { s.at k with qmn :=
      { (s.at k).qmn with quality := some quality, readings := (s.at k).qmn.readings + 1 } } := by
    rw [State.modQmn, at_modCtx, step]
  have last := dataReading_of_last (r := r.toNat) training enough
  generalize s.modQmn k (fun q => q.trainingStep r.toNat) = v at *
  obtain ⟨u, over_, rau, record', first, later⟩ := trainingOver_of_up (s := v) (k := k) (ceiling := ceilingOf quality) (by rw [record]; rfl)
    (by rw [record]; exact reaches) (by rw [record]; exact bears)
  rw [record] at record' first later
  rw [resumeLink_of_idle (by rw [record']; exact outstanding) (by rw [record']; exact send) (by rw [record']; exact hold)] at over_
  have taken := last.trans over_
  rw [exec_noiseReading_of_data r data]
  refine ⟨_, (act_of_due s acts (by rw [taken]; exact quiet_of_rau q (rau.trans off.rau))).trans (congrArg _ taken), ?_⟩
  rw [State.modLkc, at_modCtx, record']
  refine ⟨rfl, rfl, rfl, rfl, rfl, fun yes => (first yes).trans off.sendEvent.clc, fun no => (later no).trans ?_⟩
  split
  · exact off.clc
  · exact off.sendEvent.clc

end Sys2Proof.Machine
end

section
/-! PROOFS. The family of the data session, its readings, trainings and shifts settled (R162 to R168). -/
namespace Sys2Proof.Machine

/-- The error window after a reading taken while UP (R164). -/
theorem windowStep_eq (q : Qmn) (r : Nat) : q.windowStep r = { q with
    quality := some (moveQuality q.quality false r), windowReadings := if 16 ≤ q.windowReadings + 1 then 0 else q.windowReadings + 1
    errors := if 16 ≤ q.windowReadings + 1 then 0 else q.errors } := rfl

theorem stepUpAfter_eq (q : Qmn) (ceiling : Nat) :
    q.stepUpAfter ceiling = if q.rate + 2 ≤ ceiling ∧ q.rate < q.max then q.stepUp + 1 else 0 := by
  simp only [Qmn.stepUpAfter, Bool.and_eq_true, decide_eq_true_eq]

/-- R162 to R164: a reading of a session that is UP. -/
theorem exec_noiseReading_while_up {s : State} {k : ContextId} {g : ConfigRecord} (r : BitVec 12) {quality fallback stepUp : Nat} (q : s.Quiet)
    (config : s.cfu.config = some g) (connected : (s.at k).state = .connected) (data : (s.at k).session = .data)
    (acts : (faxIn s k .receive .training || takesReadings s k) = true) (up : (s.at k).qmn.phase = some .up)
    (moved : quality = moveQuality (s.at k).qmn.quality false r.toNat) (falls : fallback = (s.at k).qmn.fallbackAfter (ceilingOf quality))
    (steps : stepUp = (s.at k).qmn.stepUpAfter (ceilingOf quality)) :
    (¬ (16 ≤ (s.at k).qmn.windowReadings + 1 ∧ g.errorBurst ≤ (s.at k).qmn.errors) →
      (fallback < 3 → stepUp < 64 → exec (.noiseReading k r) s = .next (s.modQmn k fun q => { q with
          quality := some quality, windowReadings := if 16 ≤ (s.at k).qmn.windowReadings + 1 then 0 else (s.at k).qmn.windowReadings + 1
          errors := if 16 ≤ (s.at k).qmn.windowReadings + 1 then 0 else (s.at k).qmn.errors, fallback, stepUp }))
      ∧ (3 ≤ fallback → (s.at k).qmn.min ≤ ceilingOf quality → exec (.noiseReading k r) s = .next (s.modCtx k fun x =>
          shifting (ceilingOf quality) .fallback { x with qmn := { x.qmn with quality := some quality } }))
      ∧ (fallback < 3 → 64 ≤ stepUp → exec (.noiseReading k r) s = .next (s.modCtx k fun x =>
          shifting ((s.at k).qmn.rate + 1) .stepUp { x with qmn := { x.qmn with quality := some quality } }))
      ∧ (3 ≤ fallback → ceilingOf quality < (s.at k).qmn.min →
          ∃ t, exec (.noiseReading k r) s = .next t ∧ SessionEnded s k codeLineQuality t))
    ∧ (16 ≤ (s.at k).qmn.windowReadings + 1 → g.errorBurst ≤ (s.at k).qmn.errors → (s.at k).qmn.retrains < 4 →
        exec (.noiseReading k r) s = .next (s.modCtx k fun x =>
          retraining (max (s.at k).qmn.min ((s.at k).qmn.rate - 2)) .burst x.qmn.retrains (s.at k).qmn.mode
            { x with qmn := { x.qmn with quality := some quality } })) := by
  have record : (s.modQmn k fun q => q.windowStep r.toNat).at k = { s.at k with qmn := (s.at k).qmn.windowStep r.toNat } := at_modCtx ..
  have is : ceilingOf (((s.modQmn k fun q => q.windowStep r.toNat).at k).qmn.quality.getD 0) = ceilingOf quality := by
    rw [record, quality_windowStep, moved]
  have falls' : ((s.modQmn k fun q => q.windowStep r.toNat).at k).qmn.fallbackAfter (ceilingOf quality) = fallback := by
    rw [record, falls]
    rfl
  have steps' : ((s.modQmn k fun q => q.windowStep r.toNat).at k).qmn.stepUpAfter (ceilingOf quality) = stepUp := by
    rw [record, steps]
    rfl
  have limit : (configOf s).errorBurst = g.errorBurst := by rw [configOf_eq config]
  rw [exec_noiseReading_of_data r data]
  refine ⟨fun calm => ?_, fun whole burst retrains => ?_⟩
  · have judged := dataReading_of_up (r := r.toNat) up (by rw [limit]; exact calm)
    refine ⟨fun few low => ?_, fun many bears => ?_, fun few many => ?_, fun many low => ?_⟩
    · refine exec_of_modCtx q acts ?_
      rw [judged, judgeRate_of_steady is (by rw [falls']; exact few) (by rw [steps']; exact low), State.modQmn, State.modQmn, modCtx_modCtx]
      refine modCtx_congr ?_
      rw [falls, steps, moved]
      rfl
    · refine exec_of_modCtx q acts ?_
      rw [judged, judgeRate_of_fallback is (by rw [falls']; exact many) (by rw [record]; exact bears), beginShift_eq, State.modQmn, State.modQmn,
        modCtx_modCtx, modCtx_modCtx]
      refine modCtx_congr ?_
      rw [moved]
      rfl
    · refine exec_of_modCtx q acts ?_
      rw [judged, judgeRate_of_stepUp is (by rw [falls']; exact few) (by rw [steps']; exact many), beginShift_eq, record, State.modQmn,
        State.modQmn, modCtx_modCtx, modCtx_modCtx]
      refine modCtx_congr ?_
      rw [moved]
      rfl
    · have ends := judged.trans (judgeRate_of_low is (by rw [falls']; exact many) (by rw [record]; exact low))
      have counted : (s.modQmn k fun q => q.windowStep r.toNat).modQmn k (rateCounted (ceilingOf quality))
          = s.modQmn k fun q => rateCounted (ceilingOf quality) (q.windowStep r.toNat) := modCtx_modCtx ..
      rw [counted] at ends
      exact exec_of_dataEnds q acts _ ends (by decide) connected data
  · refine exec_of_modCtx q acts ?_
    rw [dataReading_of_burst up whole (by rw [limit]; exact burst), retrain_of_few _ _ (by rw [record]; exact retrains), State.modQmn,
      modCtx_modCtx]
    refine modCtx_congr ?_
    rw [at_modCtx, moved]
    rfl

theorem not_up_of_training {phase : Option DataPhase} (trains : phase ∈ [some DataPhase.training, some .retraining]) : phase ≠ some .up := by
  rintro rfl
  simp at trains

theorem inTraining_of_phase {s : State} {k : ContextId} (serves : pumpServes s k .data = true)
    (trains : (s.at k).qmn.phase ∈ [some DataPhase.training, some .retraining]) : dataIn s k .training = true ∨ dataIn s k .retraining = true := by
  simp only [List.mem_cons, List.not_mem_nil, or_false] at trains
  exact trains.imp (dataIn_eq_true serves) (dataIn_eq_true serves)

theorem askRetrain_of_training {s : State} {k : ContextId} (reason : RateReason)
    (trains : (s.at k).qmn.phase ∈ [some DataPhase.training, some .retraining]) : askRetrain k reason s = trainAgain k s := by
  simp only [List.mem_cons, List.not_mem_nil, or_false] at trains
  rcases trains with is | is <;> simp only [askRetrain, is]

theorem askRetrain_of_shifting {s : State} {k : ContextId} (reason : RateReason) (shifts : (s.at k).qmn.phase = some .shifting) :
    askRetrain k reason s = retrain k (s.at k).qmn.target reason s := by
  simp only [askRetrain, shifts]

theorem askRetrain_of_up {s : State} {k : ContextId} (reason : RateReason) (up : (s.at k).qmn.phase = some .up) :
    askRetrain k reason s = retrain k (s.at k).qmn.rate reason s := by
  simp only [askRetrain, up]

/-- Settles O58: the thresholds by their list, a reading by the phase and its number, and each command of a shift or a training
by what it makes of the session. -/
theorem readingsAndTrainingsAct : Obligations.ReadingsAndTrainingsAct := by
  refine ⟨fun q low => ?ceiling, fun q r => ⟨rfl, moveQuality_up, moveQuality_down⟩, ?session⟩
  case ceiling =>
    have spec := ceilingBelow_levelsTo (q := q) low 11
    rw [← rateLevels_eq] at spec
    exact spec
  case session =>
    intro s k g q config connected data going outstanding send hold x changed clear retrains ended
    have serves := pumpServes_eq_true connected data going
    refine ⟨fun r phase => ?training, fun r up => ?up, fun shifts => ?shift, fun phase => ?ends, fun up => ?far⟩
    case training =>
      have acts : (faxIn s k .receive .training || takesReadings s k) = true := by
        rcases inTraining_of_phase serves phase with is | is <;> simp [takesReadings, is]
      have notUp := not_up_of_training phase
      obtain ⟨few, ceiling, low⟩ := exec_noiseReading_of_training r q connected data acts notUp rfl
      refine ⟨few, fun enough => ⟨fun reaches bears => ?_, ceiling enough, low enough⟩⟩
      obtain ⟨t, run, isUp, rate, timer, stopped, state, first, later⟩ := exec_noiseReading_of_up r q data acts notUp outstanding send hold rfl
        enough reaches bears
      exact ⟨t, run, isUp, rate, timer, stopped, state, first, fun again => later (by rw [again]; decide)⟩
    case up =>
      have acts : (faxIn s k .receive .training || takesReadings s k) = true := by
        simp [takesReadings, dataIn_eq_true serves up]
      exact exec_noiseReading_while_up r q config connected data acts up rfl rfl (stepUpAfter_eq ..).symm
    case shift =>
      have acts := dataIn_eq_true serves shifts
      have asked := askRetrain_of_shifting .timing shifts
      refine ⟨?_, fun few => exec_of_modCtx q acts (asked.trans (retrain_of_few _ _ few)), fun many => ?_⟩
      · have taken := shiftOver_of_idle outstanding send hold
        refine (act_of_due s acts (by rw [taken]; exact (Reports.event ..).quiet q)).trans (congrArg Host.Outcome.next (taken.trans ?_))
        exact sendEvent_modCtx _ rfl
      · refine exec_of_dataEnds q acts id (asked.trans ((retrain_of_many _ _ many).trans ?_)) (by decide) connected data
        rw [modQmn_self]
    case ends =>
      have acts : inTraining s k = true := by
        rw [inTraining, Bool.or_eq_true]
        exact inTraining_of_phase serves phase
      have again := askRetrain_of_training .remote phase
      have failed : dataEnds k codeLinkFailed s = dataEnds k codeLinkFailed (s.modQmn k id) := by rw [modQmn_self]
      refine ⟨exec_of_dataEnds q acts id failed (by decide) connected data, fun expired => ?_, exec_of_modCtx q serves again⟩
      exact exec_of_dataEnds q (by rw [acts, show (s.at k).qmn.timer = _ from expired]; rfl) id failed (by decide) connected data
    case far =>
      have acts := dataIn_eq_true serves up
      have asked := askRetrain_of_up .remote up
      refine ⟨fun j => ⟨fun inside => ?_, fun outside => ?_⟩, fun few => exec_of_modCtx q serves (asked.trans (retrain_of_few _ _ few))⟩
      · have taken : takeShiftRequest k j.toNat s = beginShift k j.toNat .farEnd s := by
          refine if_pos ?_
          rw [Bool.and_eq_true, decide_eq_true_eq, decide_eq_true_eq]
          exact inside
        exact exec_of_modCtx q acts (taken.trans (beginShift_eq ..))
      · have taken : takeShiftRequest k j.toNat s = dataEnds k codeLineQuality (s.modQmn k id) := by
          rw [modQmn_self]
          refine if_neg ?_
          rw [Bool.and_eq_true, decide_eq_true_eq, decide_eq_true_eq]
          exact fun inside => outside.elim (Nat.not_lt.mpr inside.1) (Nat.not_lt.mpr inside.2)
        exact exec_of_dataEnds q acts id taken (by decide) connected data

end Sys2Proof.Machine
end

section
/-! PROOFS. The family of the block link: acknowledgements, holds, resends, and the bytes passed on (R164, R170 to R172, R174). -/
namespace Sys2Proof.Machine

/-! ### Acknowledgements (R170, R171) -/

theorem ackCount_of_empty {l : Lkc} (empty : l.outstanding = []) (n : BitVec 4) :
    ackCount l n = if n = l.nextSequence then some 0 else none := by
  simp only [ackCount, empty]

theorem ackCount_of_cons {l : Lkc} {b : LinkBlock} {rest : List LinkBlock} (out : l.outstanding = b :: rest) (n : BitVec 4) :
    ackCount l n = if (n - b.sequence).toNat ≤ l.outstanding.length then some (n - b.sequence).toNat else none := by
  simp only [ackCount, out]

theorem takeAck_of_none {s : State} {k : ContextId} {n : BitVec 4} (discarded : ackCount (s.at k).lkc n = none) : takeAck k n s = s := by
  simp only [takeAck, discarded]

theorem takeAck_of_count {s : State} {k : ContextId} {n : BitVec 4} {d : Nat} (count : ackCount (s.at k).lkc n = some d) :
    takeAck k n s = pumpLink k (s.modLkc k fun l => endRemoteHold (ackBlocks l d)) := by
  simp only [takeAck, count]

theorem endRemoteHold_of_none {l : Lkc} (none : l.remoteHold = Option.none) : endRemoteHold l = l := by
  simp only [endRemoteHold, none, Option.isSome_none, Bool.false_eq_true, if_false]

theorem endRemoteHold_of_hold {l : Lkc} (hold : l.remoteHold ≠ none) : endRemoteHold l
    = { l with remoteHold := none, resend := if l.outstanding = [] then l.resend else some 1500 } := by
  obtain ⟨n, hold⟩ := Option.ne_none_iff_exists'.mp hold
  simp only [endRemoteHold, hold, Option.isSome_some, if_true]
  rfl

theorem ackBlocks_eq (l : Lkc) (d : Nat) : ackBlocks l d = { l with
    outstanding := l.outstanding.drop d
    resend := if d = 0 then l.resend else if l.outstanding.drop d = [] then none else some 1500 } := by
  unfold ackBlocks
  split
  · next zero => rw [zero, List.drop_zero]
  · rfl

theorem makeBlock_of_hold {s : State} {k : ContextId} (hold : (s.at k).lkc.remoteHold ≠ none) : makeBlock k s = s := by
  obtain ⟨n, hold⟩ := Option.ne_none_iff_exists'.mp hold
  simp [makeBlock, hold]

theorem pumpLink_of_hold {s : State} {k : ContextId} (hold : (s.at k).lkc.remoteHold ≠ none) : pumpLink k s = s :=
  forEach_of_standing fun _ _ => makeBlock_of_hold hold

/-- A link that has made one block of all its bytes. -/
def blockMade (l : Lkc) : Lkc := { l with
  sendBuffer := [], outstanding := [{ sequence := l.nextSequence, bytes := l.sendBuffer, resends := 0 }]
  nextSequence := l.nextSequence + 1, resend := some 1500, linkOut := l.linkOut ++ [.data l.nextSequence l.sendBuffer] }

theorem makeBlock_of_one {s : State} {k : ContextId} (moves : linkMoves (s.at k) = true) (free : (s.at k).lkc.remoteHold = none)
    (outstanding : (s.at k).lkc.outstanding = []) (flow : (s.at k).lkc.flowStop = false) (some_bytes : 1 ≤ (s.at k).lkc.sendBuffer.length)
    (few : (s.at k).lkc.sendBuffer.length ≤ 64) : makeBlock k s = s.modLkc k blockMade := by
  have notEmpty : (s.at k).lkc.sendBuffer ≠ [] := by
    intro empty
    rw [empty] at some_bytes
    exact absurd some_bytes (by decide)
  have may : (linkMoves (s.at k) && (s.at k).lkc.remoteHold.isNone && decide ((s.at k).lkc.outstanding.length < 6)
      && (s.at k).lkc.sendBuffer != []) = true := by
    simp [moves, free, outstanding, notEmpty]
  have whole : (s.at k).lkc.sendBuffer.take 64 = (s.at k).lkc.sendBuffer := List.take_of_length_le few
  have gone : (s.at k).lkc.sendBuffer.drop 64 = [] := List.drop_eq_nil_of_le few
  have same : sendLink k (.data (s.at k).lkc.nextSequence ((s.at k).lkc.sendBuffer.take 64)) (s.modLkc k fun l => { l with
      sendBuffer := l.sendBuffer.drop 64
      outstanding := l.outstanding ++ [{ sequence := l.nextSequence, bytes := (s.at k).lkc.sendBuffer.take 64, resends := 0 }]
      nextSequence := l.nextSequence + 1
      resend := if l.outstanding = [] then some resendTime else l.resend }) = s.modLkc k blockMade := by
    refine (modCtx_modCtx ..).trans (modCtx_congr ?_)
    dsimp only
    rw [whole, gone, outstanding, if_pos rfl, blockMade]
    rfl
  have record : ((s.modLkc k blockMade).at k).lkc = blockMade (s.at k).lkc := by rw [State.modLkc, at_modCtx]
  have calm : checkFlow k (s.modLkc k blockMade) = s.modLkc k blockMade := by
    rw [checkFlow, record]
    simp [blockMade, flow]
  rw [makeBlock]
  refine (if_pos may).trans ?_
  exact (congrArg (checkFlow k) same).trans calm

theorem pumpLink_of_one {s : State} {k : ContextId} (moves : linkMoves (s.at k) = true) (free : (s.at k).lkc.remoteHold = none)
    (outstanding : (s.at k).lkc.outstanding = []) (flow : (s.at k).lkc.flowStop = false) (some_bytes : 1 ≤ (s.at k).lkc.sendBuffer.length)
    (few : (s.at k).lkc.sendBuffer.length ≤ 64) : pumpLink k s = s.modLkc k blockMade := by
  have empty : ((s.modLkc k blockMade).at k).lkc.sendBuffer = [] := by
    rw [State.modLkc, at_modCtx]
    rfl
  have rest : forEach [2, 3, 4, 5, 6] (fun (_ : Nat) t => makeBlock k t) (s.modLkc k blockMade) = s.modLkc k blockMade :=
    forEach_of_standing fun _ _ => makeBlock_of_empty empty
  rw [pumpLink, forEach, List.foldl_cons, makeBlock_of_one moves free outstanding flow some_bytes few]
  exact rest

/-! ### Resends (R165, R170) -/

theorem sendLinks_eq {α : Type} (k : ContextId) (f : α → LinkFrame) (xs : List α) (s : State) :
    forEach xs (fun x t => sendLink k (f x) t) s = s.modLkc k fun l => { l with linkOut := l.linkOut ++ xs.map f } := by
  induction xs generalizing s with
  | nil =>
    refine (modCtx_self ?_).symm
    simp
  | cons x xs ih =>
    have step : forEach (x :: xs) (fun x t => sendLink k (f x) t) s = forEach xs (fun x t => sendLink k (f x) t) (sendLink k (f x) s) := rfl
    rw [step, ih]
    refine (modCtx_modCtx ..).trans (modCtx_congr ?_)
    simp

end Sys2Proof.Machine
end

section
/-! PROOFS. The family of the block link, settled (R164, R170 to R172, R174). -/
namespace Sys2Proof.Machine

/-- The number of blocks that an ACK would remove, whether or not it is taken (R170). -/
def ackAway (l : Lkc) (n : BitVec 4) : Nat :=
  match l.outstanding with
  | [] => 0
  | b :: _ => (n - b.sequence).toNat

theorem ackCount_of_some {l : Lkc} (some_out : l.outstanding ≠ []) (n : BitVec 4) :
    ackCount l n = if ackAway l n ≤ l.outstanding.length then some (ackAway l n) else none := by
  obtain ⟨b, rest, out⟩ := List.exists_cons_of_ne_nil some_out
  have away : ackAway l n = (n - b.sequence).toNat := by simp only [ackAway, out]
  rw [ackCount_of_cons out, away]

/-- R171: what a HOLD does beyond its acknowledgement. -/
def linkHeld (l : Lkc) : Lkc := { l with resend := none, remoteHold := some (l.remoteHold.getD 30000) }

/-- A HOLD of a link that makes no block first. -/
theorem takeHold_of_stopped {s : State} {k : ContextId} (n : BitVec 4)
    (stops : (s.at k).lkc.sendBuffer = [] ∨ (s.at k).lkc.remoteHold ≠ none ∨ (s.at k).lkc.outstanding.length < ackAway (s.at k).lkc n) :
    takeHold k n s = s.modLkc k fun l => { l with
      outstanding := if ackAway (s.at k).lkc n ≤ l.outstanding.length then l.outstanding.drop (ackAway (s.at k).lkc n) else l.outstanding
      resend := none, remoteHold := some (l.remoteHold.getD 30000) } := by
  cases count : ackCount (s.at k).lkc n with
  | none =>
    have held : takeHold k n s = s.modLkc k linkHeld := by
      simp only [takeHold, count]
      rfl
    rw [held]
    refine modLkc_congr ?_
    have stands : (if ackAway (s.at k).lkc n ≤ (s.at k).lkc.outstanding.length then (s.at k).lkc.outstanding.drop (ackAway (s.at k).lkc n)
        else (s.at k).lkc.outstanding) = (s.at k).lkc.outstanding := by
      by_cases empty : (s.at k).lkc.outstanding = []
      · rw [empty, List.drop_nil, ite_self]
      · rw [ackCount_of_some empty] at count
        refine if_neg fun le => ?_
        rw [if_pos le] at count
        cases count
    rw [stands]
    rfl
  | some d =>
    have away : ackAway (s.at k).lkc n = d ∧ d ≤ (s.at k).lkc.outstanding.length := by
      by_cases empty : (s.at k).lkc.outstanding = []
      · have zero : ackAway (s.at k).lkc n = 0 := by simp only [ackAway, empty]
        rw [ackCount_of_empty empty] at count
        split at count
        · cases count
          exact ⟨zero, Nat.zero_le _⟩
        · cases count
      · rw [ackCount_of_some empty] at count
        split at count
        · next le =>
          cases count
          exact ⟨rfl, le⟩
        · cases count
    obtain ⟨away, le⟩ := away
    have acked : ((s.modLkc k fun l => ackBlocks l d).at k).lkc = ackBlocks (s.at k).lkc d := by rw [State.modLkc, at_modCtx]
    have pumped : pumpLink k (s.modLkc k fun l => ackBlocks l d) = s.modLkc k fun l => ackBlocks l d := by
      rcases stops with send | hold | far
      · exact pumpLink_of_empty (by rw [acked, ackBlocks_eq]; exact send)
      · exact pumpLink_of_hold (by rw [acked, ackBlocks_eq]; exact hold)
      · omega
    have held : takeHold k n s = (s.modLkc k fun l => ackBlocks l d).modLkc k linkHeld := by
      simp only [takeHold, count, pumped]
      rfl
    rw [held, away]
    refine (modCtx_modCtx ..).trans (modCtx_congr ?_)
    dsimp only
    rw [if_pos le, ackBlocks_eq]
    rfl

theorem resendAll_of_some {s : State} {k : ContextId} (some_out : (s.at k).lkc.outstanding ≠ []) : resendAll k s = s.modLkc k fun l =>
    { l with linkOut := l.linkOut ++ l.outstanding.map (fun b => .data b.sequence b.bytes), resend := some 1500 } := by
  rw [resendAll]
  refine (congrArg (State.modLkc k _) (sendLinks_eq k (fun b => .data b.sequence b.bytes) (s.at k).lkc.outstanding s)).trans ?_
  refine (modCtx_modCtx ..).trans (modCtx_congr ?_)
  dsimp only
  rw [if_neg some_out]
  rfl

theorem offerAll_of_empty {s : State} {k : ContextId} (n : Nat) (empty : (s.at k).lkc.rxBuffer = []) : offerAll k n s = s := by
  cases n with
  | zero => rfl
  | succ n => simp only [offerAll, empty, decide_true, Bool.true_or, if_true]

/-- R172, R174: a block of the expected sequence passed on at once. -/
theorem takeLinkData_of_passed {s : State} {k : ContextId} {data : List Byte} (empty : (s.at k).lkc.rxBuffer = [])
    (free : (s.at k).lkc.rxHeld = none) (some_bytes : 1 ≤ data.length) (few : data.length ≤ 64)
    (room : queueTakes s.clc.tx (ownCell s 5 gateway kindDataRx (tagOf k) data) = true) :
    takeLinkData k (s.at k).lkc.expected data s = (enqueue (ownCell s 5 gateway kindDataRx (tagOf k) data) 0 s).modLkc k fun l =>
      { l with expected := l.expected + 1, holdSent := false, linkOut := l.linkOut ++ [.ack (l.expected + 1)] } := by
  let come (l : Lkc) : Lkc := { l with
    rxBuffer := data, expected := l.expected + 1, holdSent := false, linkOut := l.linkOut ++ [.ack (l.expected + 1)] }
  let u := s.modLkc k come
  have record : (u.at k).lkc = come (s.at k).lkc := by
    rw [show u = s.modCtx k _ from rfl, at_modCtx]
  have fits : (s.at k).lkc.rxBuffer.length + data.length ≤ 1024 := by
    rw [empty, List.length_nil]
    omega
  have came : sendLink k (.ack ((s.at k).lkc.expected + 1)) (s.modLkc k fun l => { l with
      rxBuffer := l.rxBuffer ++ data, expected := l.expected + 1, holdSent := false }) = u := by
    refine (modCtx_modCtx ..).trans (modCtx_congr ?_)
    dsimp only
    rw [empty]
    rfl
  have taken : takeLinkData k (s.at k).lkc.expected data s = pumpRx k u := by
    simp only [takeLinkData, bne_self_eq_false, Bool.false_eq_true, fits, if_true, if_false, came]
  have whole : (u.at k).lkc.rxBuffer.take (min 64 (u.at k).lkc.rxBuffer.length) = data := by
    rw [record, Nat.min_eq_right few]
    exact List.take_length
  have offered := offerDataRx_of_room (s := u) (k := k) (n := min 64 (u.at k).lkc.rxBuffer.length) (by rw [whole]; exact room)
  rw [whole] at offered
  let v := (enqueue (ownCell u 5 gateway kindDataRx (tagOf k) data) 0 u).modLkc k fun l => { l with
    rxBuffer := l.rxBuffer.drop (min 64 (u.at k).lkc.rxBuffer.length), rxHeld := none }
  have waits : ¬ (decide ((u.at k).lkc.rxBuffer = []) || (u.at k).lkc.rxHeld.isSome) = true := by
    have notEmpty : data ≠ [] := by
      rintro rfl
      exact absurd some_bytes (by decide)
    rw [record]
    simp [come, notEmpty, free]
  have gone : (v.at k).lkc = { come (s.at k).lkc with rxBuffer := [], rxHeld := none } := by
    rw [show v = State.modCtx k _ _ from rfl, at_modCtx]
    change { (u.at k).lkc with rxBuffer := (u.at k).lkc.rxBuffer.drop (min 64 (u.at k).lkc.rxBuffer.length), rxHeld := none } = _
    rw [record, Nat.min_eq_right few]
    simp [come]
  have all : offerAll k 17 u = v := by
    have step : offerAll k 17 u = _ := if_neg waits
    rw [step, offered]
    exact offerAll_of_empty 16 (by rw [gone])
  have passed : v = (enqueue (ownCell s 5 gateway kindDataRx (tagOf k) data) 0 s).modLkc k fun l =>
      { l with expected := l.expected + 1, holdSent := false, linkOut := l.linkOut ++ [.ack (l.expected + 1)] } := by
    have swap : v = ((enqueue (ownCell s 5 gateway kindDataRx (tagOf k) data) 0 s).modLkc k come).modLkc k fun l => { l with
      rxBuffer := l.rxBuffer.drop (min 64 (u.at k).lkc.rxBuffer.length), rxHeld := none } := rfl
    refine swap.trans ((modCtx_modCtx ..).trans (modCtx_congr ?_))
    change { s.at k with lkc := { come (s.at k).lkc with
      rxBuffer := data.drop (min 64 (u.at k).lkc.rxBuffer.length), rxHeld := none } } = _
    rw [record, Nat.min_eq_right few, List.drop_length, ← empty, ← free]
    rfl
  rw [taken, pumpRx, all, releaseRemote_of_idle (by rw [gone]), passed]

theorem linkServes_eq_true {s : State} {k : ContextId} (connected : (s.at k).state = .connected) (data : (s.at k).session = .data)
    (going : (s.at k).held = false) (up : (s.at k).qmn.phase = some .up) : linkServes s k = true :=
  dataIn_eq_true (pumpServes_eq_true connected data going) up

/-- A command that ends a data session after a change of its link. -/
theorem exec_of_linkEnds {s : State} {k : ContextId} {cause : Byte} {due : Bool} {effect : State} (q : s.Quiet) (acts : due = true)
    (g : Lkc → Lkc) (ends : effect = dataEnds k cause (s.modLkc k g)) (h : clears cause = true) (connected : (s.at k).state = .connected)
    (data : (s.at k).session = .data) : ∃ t, act due effect s = .next t ∧ (t.at k).state = .clearing ∧ (t.at k).session = .none
      ∧ (t.at k).lkc = Lkc.reset ∧ (t.at k).qmn = Qmn.reset ∧ (t.at k).timer = some 2000 := by
  have same : (s.modLkc k g).at k = { s.at k with lkc := g (s.at k).lkc } := at_modCtx ..
  obtain ⟨t, run, ended⟩ := act_of_dataEnds q acts ends rfl h (by rw [same]; exact connected) (by rw [same]; exact data)
  obtain ⟨x, record⟩ := ended.record
  refine ⟨t, run, ?_⟩
  rw [record]
  exact ⟨rfl, rfl, rfl, rfl, rfl⟩

theorem resendOver_of_some {s : State} {k : ContextId} {b : LinkBlock} {rest : List LinkBlock} (out : (s.at k).lkc.outstanding = b :: rest) :
    ∃ u, u = s.modLkc k (fun l => { l with
        linkOut := l.linkOut ++ l.outstanding.map (fun x => .data x.sequence x.bytes)
        outstanding := { b with resends := b.resends + 1 } :: rest, resend := some 1500 })
      ∧ resendOver k s = if 10 ≤ b.resends + 1 then dataEnds k codeLinkFailed u else u := by
  refine ⟨_, rfl, ?_⟩
  have again := resendAll_of_some (s := s) (k := k) (by rw [out]; exact List.cons_ne_nil _ _)
  have bumped : (resendAll k s).modLkc k (fun l => { l with outstanding := bumpOldest l.outstanding }) = s.modLkc k (fun l => { l with
      linkOut := l.linkOut ++ l.outstanding.map (fun x => .data x.sequence x.bytes)
      outstanding := { b with resends := b.resends + 1 } :: rest, resend := some 1500 }) := by
    rw [again]
    refine (modCtx_modCtx ..).trans (modCtx_congr ?_)
    dsimp only
    rw [out]
    rfl
  have head : ((s.modLkc k (fun l => { l with
      linkOut := l.linkOut ++ l.outstanding.map (fun x => .data x.sequence x.bytes)
      outstanding := { b with resends := b.resends + 1 } :: rest, resend := some 1500 })).at k).lkc.outstanding
      = { b with resends := b.resends + 1 } :: rest := by rw [State.modLkc, at_modCtx]
  simp only [resendOver, bumped, head]

/-- Settles O59: a block by its sequence and the room, an acknowledgement by how many blocks it takes, a HOLD by what it lets go
first, and the two timers by what they end. -/
theorem linkBlocksMove : Obligations.LinkBlocksMove := by
  intro s k q connected data going up l changed ended away
  have acts := linkServes_eq_true connected data going up
  refine ⟨fun n bytes => ⟨fun other => ?other, fun same full => ?full, fun same empty free some_bytes few room => ?passed⟩, exec_of_modCtx q acts rfl,
    fun n some_out => ⟨fun far => ?far, fun near free send => ?near, fun near hold send => ?ended⟩, fun empty hold send => ?unhold,
    fun empty free flow some_bytes few => ?next, fun n stops => exec_of_modCtx q acts (takeHold_of_stopped n stops),
    fun empty free flow some_bytes few => ?heldNext, fun b rest expired out => ?resend, fun expired => ?remote⟩
  case other =>
    have taken : takeLinkData k n bytes s = sendLink k (.ack (s.at k).lkc.expected) s := if_pos (by simpa using other)
    exact exec_of_modCtx q acts (taken.trans (modLkc_congr rfl))
  case full =>
    have notRoom : ¬ (s.at k).lkc.rxBuffer.length + bytes.length ≤ 1024 := by
      have full' : 1024 < (s.at k).lkc.rxBuffer.length + bytes.length := full
      omega
    have taken : takeLinkData k n bytes s = _ := (if_neg (by simp [show n = (s.at k).lkc.expected from same])).trans (if_neg notRoom)
    exact exec_of_modCtx q acts (taken.trans ((modCtx_modCtx ..).trans (modCtx_congr rfl)))
  case passed =>
    have taken := takeLinkData_of_passed empty free some_bytes few room
    rw [← show n = (s.at k).lkc.expected from same] at taken
    exact (act_of_due s acts (by rw [taken]; exact q)).trans (congrArg _ taken)
  case far =>
    have none : ackCount (s.at k).lkc n = Option.none := by
      rw [ackCount_of_some some_out]
      exact if_neg (Nat.not_le.mpr far)
    have taken := takeAck_of_none none
    exact (act_of_due s acts (by rw [taken]; exact q)).trans (congrArg _ taken)
  case near =>
    have count : ackCount (s.at k).lkc n = some (ackAway (s.at k).lkc n) := by
      rw [ackCount_of_some some_out]
      exact if_pos near
    have acked : s.modLkc k (fun l => endRemoteHold (ackBlocks l (ackAway (s.at k).lkc n))) = s.modLkc k (fun l => { l with
        outstanding := l.outstanding.drop (ackAway (s.at k).lkc n)
        resend := if ackAway (s.at k).lkc n = 0 then l.resend
          else if l.outstanding.drop (ackAway (s.at k).lkc n) = [] then none else some 1500 }) := by
      refine modLkc_congr ?_
      rw [endRemoteHold_of_none (by rw [ackBlocks_eq]; exact free), ackBlocks_eq]
    have taken := takeAck_of_count count
    rw [acked, pumpLink_of_empty (by rw [State.modLkc, at_modCtx]; exact send)] at taken
    exact exec_of_modCtx q acts (taken.trans (modLkc_congr rfl))
  case ended =>
    have count : ackCount (s.at k).lkc n = some (ackAway (s.at k).lkc n) := by
      rw [ackCount_of_some some_out]
      exact if_pos near
    have acked : s.modLkc k (fun l => endRemoteHold (ackBlocks l (ackAway (s.at k).lkc n))) = s.modLkc k (fun l => { l with
        outstanding := l.outstanding.drop (ackAway (s.at k).lkc n), remoteHold := none
        resend := if l.outstanding.drop (ackAway (s.at k).lkc n) = [] then none else some 1500 }) := by
      refine modLkc_congr ?_
      rw [endRemoteHold_of_hold (by rw [ackBlocks_eq]; exact hold), ackBlocks_eq]
      dsimp only
      by_cases rest : (s.at k).lkc.outstanding.drop (ackAway (s.at k).lkc n) = []
      · have some_away : ackAway (s.at k).lkc n ≠ 0 := by
          intro zero
          rw [zero, List.drop_zero] at rest
          exact some_out rest
        rw [if_pos rest, if_pos rest, if_neg some_away]
      · rw [if_neg rest, if_neg rest]
    have taken := takeAck_of_count count
    rw [acked, pumpLink_of_empty (by rw [State.modLkc, at_modCtx]; exact send)] at taken
    exact exec_of_modCtx q acts (taken.trans (modLkc_congr rfl))
  case unhold =>
    have count : ackCount (s.at k).lkc (s.at k).lkc.nextSequence = some 0 := by rw [ackCount_of_empty empty, if_pos rfl]
    have acked : s.modLkc k (fun l => endRemoteHold (ackBlocks l 0)) = s.modLkc k (fun l => { l with remoteHold := none }) :=
      modLkc_congr (endRemoteHold_of_empty empty)
    have taken := takeAck_of_count count
    rw [acked, pumpLink_of_empty (by rw [State.modLkc, at_modCtx]; exact send)] at taken
    exact exec_of_modCtx q acts taken
  case next =>
    have count : ackCount (s.at k).lkc (s.at k).lkc.nextSequence = some 0 := by rw [ackCount_of_empty empty, if_pos rfl]
    have acked : s.modLkc k (fun l => endRemoteHold (ackBlocks l 0)) = s :=
      (modLkc_congr (g := id) (endRemoteHold_of_none free)).trans (modCtx_self rfl)
    have going' : linkMoves (s.at k) = true := by simp [linkMoves, up, going]
    have taken := takeAck_of_count count
    rw [acked, pumpLink_of_one going' free empty flow some_bytes few] at taken
    exact exec_of_modCtx q acts taken
  case heldNext =>
    have count : ackCount (s.at k).lkc (s.at k).lkc.nextSequence = some 0 := by rw [ackCount_of_empty empty, if_pos rfl]
    have acked : s.modLkc k (fun l => ackBlocks l 0) = s := (modLkc_congr (g := id) (by rfl)).trans (modCtx_self rfl)
    have going' : linkMoves (s.at k) = true := by simp [linkMoves, up, going]
    have taken : takeHold k (s.at k).lkc.nextSequence s = (s.modLkc k blockMade).modLkc k linkHeld := by
      simp only [takeHold, count, acked, pumpLink_of_one going' free empty flow some_bytes few]
      rfl
    refine exec_of_modCtx q acts (taken.trans ((modCtx_modCtx ..).trans (modCtx_congr ?_)))
    dsimp only
    rw [linkHeld, blockMade, show (s.at k).lkc.remoteHold = Option.none from free]
    rfl
  case resend =>
    have due : (linkServes s k && (s.at k).lkc.resend == some 0) = true := by
      rw [acts, show (s.at k).lkc.resend = some 0 from expired]
      rfl
    obtain ⟨u, sent, over_⟩ := resendOver_of_some out
    refine ⟨fun few => ?_, fun many => ?_⟩
    · rw [if_neg (by omega), sent] at over_
      exact exec_of_modCtx q due over_
    · rw [if_pos many, sent] at over_
      exact exec_of_linkEnds q due _ over_ (by decide) connected data
  case remote =>
    have due : (linkServes s k && (s.at k).lkc.remoteHold == some 0) = true := by
      rw [acts, show (s.at k).lkc.remoteHold = some 0 from expired]
      rfl
    have ends : dataEnds k codeLinkFailed s = dataEnds k codeLinkFailed (s.modLkc k id) := by
      rw [show s.modLkc k id = s from modCtx_self rfl]
    exact exec_of_linkEnds q due id ends (by decide) connected data

end Sys2Proof.Machine
end

section
/-! PROOFS. The family of the session requests at a context in a voice session: the end of the activity before, STOP, and RECORD
(R141, R144, R147). -/
namespace Sys2Proof.Machine

/-! ### A session request (R141) -/

theorem sendAnswer_modCtx (c : Cell) (result : Byte) (k : ContextId) (f : Context → Context) (s : State) :
    sendAnswer c result (s.modCtx k f) = (sendAnswer c result s).modCtx k f := by
  unfold sendAnswer sendAnswerWith offerReport
  change (if queueTakes s.clc.tx (ownCell s 3 c.src kindAnswer c.tag [c.kind, result, 0xFF, 0xFF]) then _ else _) = _
  split
  · rfl
  · rfl

theorem at_sendAnswer (c : Cell) (result : Byte) (j : ContextId) (s : State) : (sendAnswer c result s).at j = s.at j := by
  rw [State.at, sendAnswer_ctx, State.at]

/-- R141: a voice record whose activity has ended for a replacement. -/
def replaced (v : Voice) : Voice :=
  { v with activity := .none, script := .none, step := none, target := none, beep := none, idle := none }

theorem endActivity_of_playing {s : State} {k : ContextId} (playing : (s.at k).voice.activity = .playing) :
    endActivity k s = (sendPlayDone k codeStopped (stopPlayback k s)).modVoice k replaced := by
  simp only [endActivity, playing]
  rfl

theorem endActivity_of_recording {s : State} {k : ContextId} (recording : (s.at k).voice.activity = .recording) :
    endActivity k s = (finishRecording k reasonStopped s).modVoice k replaced := by
  simp only [endActivity, recording]
  rfl

theorem endActivity_of_other {s : State} {k : ContextId} (other : (s.at k).voice.activity ∉ [.playing, .recording]) :
    endActivity k s = s.modVoice k replaced := by
  unfold endActivity
  split
  case h_1 playing => exact absurd (by rw [playing]; exact List.mem_cons_self) other
  case h_2 recording => exact absurd (by rw [recording]; exact List.mem_cons_of_mem _ List.mem_cons_self) other
  case h_3 => rfl

/-- R141: the record of a context whose session request is answered. -/
def requested (tag : Byte) (x : Context) : Context := { x with voice := replaced x.voice, requestTag := some tag }

theorem length_sendAnswer_le (c : Cell) (result : Byte) (s : State) : (sendAnswer c result s).clc.tx.length ≤ s.clc.tx.length + 1 := by
  unfold sendAnswer sendAnswerWith offerReport
  split
  · exact (insertByPriority_perm _ _).length_eq.le
  · exact Nat.le_succ _

/-! ### What a session request finds behind its ANSWER -/

theorem openRefusal_congr {s t : State} (only : StoreOnly s t) (msc : t.msc = s.msc) (mailbox : Nat) (kind : Option MsgKind) :
    openRefusal t mailbox kind = openRefusal s mailbox kind := by
  have config : t.cfu.config = s.cfu.config := by rw [only.cfu]
  have home : isHome t = isHome s := by
    funext n
    rw [isHome, isHome, only.station, config]
  unfold openRefusal mailbox? freeCount
  rw [msc, config, home]

/-- The state behind the ANSWER of a session request from WAITING. -/
def behindAnswer (c : Cell) (k : ContextId) (s : State) : State := (sendAnswer c codeOk (popCell s)).modCtx k (requested c.tag)

section
variable {s : State} {c : Cell} {k : ContextId} {g : ConfigRecord}

theorem storeOnly_answer (c : Cell) (s : State) : StoreOnly s (sendAnswer c codeOk (popCell s)) :=
  StoreOnly.trans (t := popCell s) ⟨rfl, rfl, rfl, rfl, rfl, rfl, rfl⟩ (storeOnly_sendAnswer ..)

theorem at_behindAnswer (c : Cell) (k : ContextId) (s : State) : (behindAnswer c k s).at k = requested c.tag (s.at k) := by
  rw [behindAnswer, at_modCtx, at_sendAnswer]
  rfl

theorem behindAnswer_msc (c : Cell) (k : ContextId) (s : State) : (behindAnswer c k s).msc = s.msc := sendAnswer_msc ..

theorem behindAnswer_rau (c : Cell) (k : ContextId) (s : State) : (behindAnswer c k s).rau = s.rau := sendAnswer_rau ..

theorem config_behindAnswer (c : Cell) (k : ContextId) (s : State) : (behindAnswer c k s).cfu.config = s.cfu.config := by
  rw [behindAnswer, modCtx_cfu, (storeOnly_answer c s).cfu]

theorem behindAnswer_config (config : s.cfu.config = some g) : (behindAnswer c k s).cfu.config = some g :=
  (config_behindAnswer c k s).trans config

theorem behindAnswer_station : (behindAnswer c k s).cfu.station = s.cfu.station := by
  rw [behindAnswer, modCtx_cfu, (storeOnly_answer c s).cfu]

theorem openRefusal_behindAnswer (mailbox : Nat) (kind : Option MsgKind) :
    openRefusal (behindAnswer c k s) mailbox kind = openRefusal s mailbox kind :=
  openRefusal_congr (storeOnly_answer c s) (sendAnswer_msc ..) mailbox kind

theorem homeStation_behindAnswer (config : s.cfu.config = some g) (mailbox : Nat) :
    homeStation (behindAnswer c k s) mailbox = mailbox % g.groupSize := by
  rw [homeStation, configOf_eq (behindAnswer_config config)]
  rfl

theorem ownNumber_behindAnswer : ownNumber (behindAnswer c k s) = s.cfu.station.val := congrArg Fin.val behindAnswer_station

theorem behindAnswer_quiet (q : s.Quiet) : (behindAnswer c k s).Quiet := quiet_of_rau q (behindAnswer_rau c k s)

theorem length_behindAnswer_le (short : s.clc.tx.length < 23) : (behindAnswer c k s).clc.tx.length < 24 :=
  Nat.lt_of_le_of_lt (length_sendAnswer_le c codeOk (popCell s)) (Nat.succ_lt_succ short)

end

/-! ### The request of a context with nothing to end (R141) -/

/-- R141: a session request of a context with nothing to end. -/
theorem sessionRequest_of_idle (begin_ : ContextId → State → State) {c : Cell} {s : State} {k : ContextId}
    (context : field c.payload 0 1 = k.val) (connected : (s.at k).state = .connected) (voice : (s.at k).session = .voice)
    (other : (s.at k).voice.activity ∉ [.playing, .recording]) :
    sessionRequest false begin_ c (popCell s) = begin_ k (behindAnswer c k s) := by
  rw [sessionRequest_of_voice (s := popCell s) begin_ context connected voice, endActivity_of_other (s := popCell s) other,
    State.modVoice, modCtx_modCtx, sendAnswer_modCtx]
  rfl

/-- R141: a session request from WAITING that causes no notice. -/
theorem handSession_of_waiting {s t : State} {c : Cell} {k : ContextId} {kind : Byte} {owner : Cell → State → State}
    {begin_ : ContextId → State → State} (asked : AskedActive s c kind) (context : field c.payload 0 1 = k.val)
    (connected : (s.at k).state = .connected) (voice : (s.at k).session = .voice) (waits : (s.at k).voice.activity = .waiting)
    (owned : owner c (popCell s) = sessionRequest false begin_ c (popCell s))
    (begun : begin_ k (behindAnswer c k s) = t) (quiet : t.Quiet) :
    handRequest kind (whenActive owner) s = .next t := by
  have other : (s.at k).voice.activity ∉ [.playing, .recording] := by rw [waits]; decide
  exact handActive_eq asked (owned.trans ((sessionRequest_of_idle begin_ context connected voice other).trans begun)) quiet

/-! ### STOP (R141, R147) -/

/-- A voice session that waits: no outcome of a cell changes its context. -/
structure Waiting (x : Context) : Prop where
  session : x.session = .voice
  activity : x.voice.activity = .waiting

theorem spares_depositEnds_of_waiting {s : State} {k : ContextId} (waits : Waiting (s.at k)) (d : OutDeposit) (o : DepositOutcome) :
    Spares id s (depositEnds k d o s) := by
  have freed : Spares id s (freeDeposit k s) := spares_freeDeposit (.refl id s)
  have notFax : (s.at k).session ≠ .fax := by rw [waits.session]; decide
  have ended : (s.at k).voice.activity ≠ .recording := by rw [waits.activity]; decide
  by_cases kind : d.kind = .fax
  · rw [depositEnds_of_fax_gone o kind ended (Or.inl notFax)]
    exact freed
  · rw [depositEnds_of_over o kind notFax ended]
    exact freed.trans (spares_reportDeposit id k d o _)

theorem fetchEnds_of_waiting {s : State} {k : ContextId} (waits : Waiting (s.at k)) (o : FetchOutcome) :
    fetchEnds k o s = endFetch k s := by
  simp [fetchEnds, fetchPlays, waits.activity, waits.session]

theorem spares_undelivered_of_waiting {s : State} {k : ContextId} (kind : Byte) (serial : Nat) (waits : Waiting (s.at k)) :
    Spares id s (undelivered k kind serial s) := by
  have same : Spares id s s := .refl id s
  unfold undelivered
  split
  · split
    · split
      · rw [fetchEnds_of_waiting waits]
        exact spares_endFetch same
      · exact same
    · exact same
  · split
    · split
      · exact spares_depositEnds_of_waiting waits _ _
      · exact same
    · exact same

theorem at_leaveSource (k j : ContextId) (source : Option Source) (s : State) : (leaveSource k source s).at j = s.at j := by
  unfold leaveSource
  split
  · exact (spares_leaveMessage (.refl id s)).at_eq j
  · exact at_endFetch k j s

theorem at_stopPlayback (k : ContextId) (s : State) : (stopPlayback k s).at k = { s.at k with vcd := stopped (s.at k).vcd } := by
  have stops : (s.modVcd k stopped).at k = { s.at k with vcd := stopped (s.at k).vcd } := at_modCtx ..
  exact (at_leaveSource k k _ _).trans stops

theorem at_endActivity_of_playing {s : State} {k : ContextId} (playing : (s.at k).voice.activity = .playing) :
    (endActivity k s).at k = { s.at k with vcd := stopped (s.at k).vcd, voice := replaced (s.at k).voice } := by
  rw [endActivity_of_playing playing, State.modVoice, at_modCtx, sendPlayDone, at_sendEvent, at_stopPlayback]

/-- What a recording that has ended leaves of its context. -/
structure RecordingEnded (x y : Context) : Prop where
  off : y.vcd.recording = false
  target : y.voice.recTarget = none
  call : callPart y = callPart x

/-- R144: the record of a context whose recording no longer runs. -/
def recordingDropped (x : Context) : Context := { x with
  vcd := { x.vcd with recording := false, build := [], pendingNibble := none }
  voice := { x.voice with activity := .none, recTarget := none, depositWait := false } }

theorem at_dropRecording (k : ContextId) (s : State) : (dropRecording k s).at k = recordingDropped (s.at k) := by
  rw [dropRecording, State.modVoice, at_modCtx, State.modVcd, at_modCtx]
  rfl

theorem at_endActivity_of_recording {s : State} {k : ContextId} (recording : (s.at k).voice.activity = .recording) :
    RecordingEnded (s.at k) ((endActivity k s).at k) := by
  have finished : (finishRecording k reasonStopped s).at k = _ := at_dropRecording k _
  have call := (spares_finishRecording (k := k) (reason := reasonStopped) (.refl callPart s)).reading k
  have ends : (endActivity k s).at k = { (finishRecording k reasonStopped s).at k with
      voice := replaced ((finishRecording k reasonStopped s).at k).voice } := by
    rw [endActivity_of_recording recording, State.modVoice, at_modCtx]
  refine ⟨?_, ?_, ?_⟩
  · rw [ends, finished]
    rfl
  · rw [ends, finished]
    rfl
  · rw [ends]
    exact call

theorem call_endActivity (k : ContextId) (s : State) : callPart ((endActivity k s).at k) = callPart (s.at k) := by
  by_cases playing : (s.at k).voice.activity = .playing
  · rw [at_endActivity_of_playing playing]
    rfl
  · by_cases recording : (s.at k).voice.activity = .recording
    · exact (at_endActivity_of_recording recording).call
    · rw [endActivity_of_other (by simp [playing, recording]), State.modVoice, at_modCtx]
      rfl

/-- R147: the record that a STOP leaves. -/
def stopAnswered (tag : Byte) (x : Context) : Context := { x with voice := waiting x.voice, requestTag := some tag }

theorem at_stop {s : State} {c : Cell} {k : ContextId} (context : field c.payload 0 1 = k.val)
    (connected : (s.at k).state = .connected) (voice : (s.at k).session = .voice) :
    (sessionRequest false enterWaiting c s).at k = stopAnswered c.tag ((endActivity k s).at k) := by
  rw [sessionRequest_of_voice enterWaiting context connected voice, enterWaiting_eq, State.modVoice, at_modCtx, at_sendAnswer,
    at_modCtx]
  rfl

/-- What a STOP leaves of its context, whatever it did before. -/
theorem exec_stop {s : State} {c : Cell} {k : ContextId} (q : s.Quiet) (asked : AskedActive s c kindStop)
    (context : field c.payload 0 1 = k.val) (connected : (s.at k).state = .connected) (voice : (s.at k).session = .voice) :
    ∃ t, exec .stop s = .next t ∧ t.at k = stopAnswered c.tag ((endActivity k (popCell s)).at k) ∧ ∀ j, j ≠ k → t.at j = s.at j := by
  have record := at_stop (s := popCell s) context connected voice
  have begun := sessionRequest_of_voice enterWaiting (s := popCell s) context connected voice
  have apart : Apart k (popCell s) (sessionRequest false enterWaiting c (popCell s)) := by
    rw [begun]
    exact apart_enterWaiting (apart_sendAnswer (apart_endActivity (Apart.refl k (popCell s))).modCtx)
  have call := call_endActivity k (popCell s)
  have waits : Waiting ((sessionRequest false enterWaiting c (popCell s)).at k) := by
    rw [record]
    exact ⟨(congrArg Context.session call : (callPart _).session = _).trans voice, rfl⟩
  have told := spares_settle_of (s := popCell s) (fun _ kind serial idle => spares_undelivered_of_waiting kind serial idle) q apart waits
  refine ⟨_, handActive_settle asked rfl, (told.at_eq k).trans record, fun j other => ?_⟩
  exact (apart_settle (s := popCell s) q apart).ctx j other

end Sys2Proof.Machine
end

section
/-! PROOFS. The family of RECORD: an open for writing that is accepted, and the recording it begins (R110, R141, R144). -/
namespace Sys2Proof.Machine

/-! ### An open for writing (R110) -/

/-- The store after an open for writing. -/
def openedFor (mailbox : Nat) (kind : MsgKind) (w : Writer) (s : State) : State :=
  modMailbox mailbox (countOpen kind) (s.setMsgAt (lowestFree s) (some (freshMsg kind mailbox w)))

theorem openForWriting_of_refused {s : State} {mailbox : Nat} {kind : Option MsgKind} {cause : Byte} (w : Writer)
    (refused : openRefusal s mailbox kind = some cause) : openForWriting mailbox kind w s = (s, .error cause) := by
  simp only [openForWriting, refused]

theorem openForWriting_of_accepted {s : State} {mailbox : Nat} {kind : MsgKind} (w : Writer)
    (accepted : openRefusal s mailbox (some kind) = none) :
    openForWriting mailbox (some kind) w s = (openedFor mailbox kind w s, .ok (lowestFree s)) := by
  simp only [openForWriting, accepted]
  rfl

theorem storeOnly_openedFor (mailbox : Nat) (kind : MsgKind) (w : Writer) (s : State) : StoreOnly s (openedFor mailbox kind w s) := by
  rw [openedFor, modMailbox]
  exact (storeOnly_setMsgAt _ _ s).trans (storeOnly_modMsc _ _)

theorem openedFor_clc (mailbox : Nat) (kind : MsgKind) (w : Writer) (s : State) : (openedFor mailbox kind w s).clc = s.clc := by
  rw [openedFor, modMailbox, modMsc_clc, setMsgAt_clc]

theorem openedFor_mbxs (mailbox : Nat) (kind : MsgKind) (w : Writer) (s : State) : (openedFor mailbox kind w s).msc.mbxs
    = s.msc.mbxs.map fun b => if b.number = mailbox then countOpen kind b else b := by
  rw [openedFor, modMailbox, modMsc_msc, setMsgAt_msc]

/-- R110: the record of a handle just opened, the lowest FREE one. -/
theorem msgAt_openedFor {s : State} {mailbox : Nat} {kind : MsgKind} (w : Writer) (accepted : openRefusal s mailbox (some kind) = none) :
    (s.msgAt (lowestFree s) = none ∧ ∀ j, j < lowestFree s → s.msgAt j ≠ none)
      ∧ (openedFor mailbox kind w s).msgAt (lowestFree s) = some (freshMsg kind mailbox w) := by
  obtain ⟨lt, first⟩ := lowestFree_spec (free_of_accepted accepted)
  refine ⟨first, (msgAt_congr ?_ _).trans (msgAt_setMsgAt lt _ s)⟩
  rw [openedFor, modMailbox, modMsc_msc]

/-! ### RECORDING begins (R144) -/

/-- R144: the record of a context whose recording begins. -/
def recordingStart (mailbox : Nat) (kind : MsgKind) (maxBlocks : Nat) (x : Context) : Context := { x with
  voice := { x.voice with
    activity := .recording, target := none, recMailbox := some mailbox, recKind := kind, maxBlocks, handedOn := 0
    quietRun := 0, recTarget := none, depositWait := false, beep := none, idle := none }
  vcd := { x.vcd with sequence := 0, build := [], pendingNibble := none } }

/-- R144: the record of a context whose recording mark turns on. -/
def recordingInto (target : RecTarget) (x : Context) : Context :=
  { x with voice := { x.voice with recTarget := some target }, vcd := x.vcd.startRecording }

theorem startRecording_begins (k : ContextId) (mailbox : Nat) (kind : MsgKind) (maxBlocks : Nat) (s : State) :
    ((s.modVoice k fun v => { v with
      activity := .recording, target := none, recMailbox := some mailbox, recKind := kind, maxBlocks, handedOn := 0
      quietRun := 0, recTarget := none, depositWait := false, beep := none, idle := none }).modVcd k fun v =>
        { v with sequence := 0, build := [], pendingNibble := none }) = s.modCtx k (recordingStart mailbox kind maxBlocks) :=
  (modCtx_modCtx ..).trans (modCtx_congr rfl)

theorem startRecording_of_refused {s : State} {k : ContextId} {mailbox : Nat} {kind : MsgKind} {cause : Byte} (maxBlocks : Nat)
    (here : homeStation s mailbox = ownNumber s) (refused : openRefusal s mailbox (some kind) = some cause) :
    startRecording k mailbox kind maxBlocks s = recordingOver k (dropRecording k
      (sendRecordDone k (ownNumber s) none (some 0) cause (some 0) (s.modCtx k (recordingStart mailbox kind maxBlocks)))) := by
  have opening := openForWriting_of_refused (s := s.modCtx k (recordingStart mailbox kind maxBlocks)) (.here k) refused
  have here' : homeStation (s.modCtx k (recordingStart mailbox kind maxBlocks)) mailbox
      = ownNumber (s.modCtx k (recordingStart mailbox kind maxBlocks)) := here
  unfold startRecording
  dsimp only
  rw [startRecording_begins]
  simp only [here', if_true, opening]
  rfl

theorem startRecording_of_accepted {s : State} {k : ContextId} {mailbox : Nat} {kind : MsgKind} (maxBlocks : Nat)
    (here : homeStation s mailbox = ownNumber s) (accepted : openRefusal s mailbox (some kind) = none) :
    startRecording k mailbox kind maxBlocks s = (openedFor mailbox kind (.here k)
      (s.modCtx k (recordingStart mailbox kind maxBlocks))).modCtx k (recordingInto (.here (lowestFree s))) := by
  have opening := openForWriting_of_accepted (s := s.modCtx k (recordingStart mailbox kind maxBlocks)) (.here k) accepted
  have here' : homeStation (s.modCtx k (recordingStart mailbox kind maxBlocks)) mailbox
      = ownNumber (s.modCtx k (recordingStart mailbox kind maxBlocks)) := here
  unfold startRecording
  dsimp only
  rw [startRecording_begins]
  simp only [here', if_true, opening, State.modVoice, State.modVcd, modCtx_modCtx]
  rfl

theorem startRecording_of_elsewhere {s : State} {k : ContextId} {mailbox : Nat} {kind : MsgKind} (maxBlocks : Nat)
    (elsewhere : homeStation s mailbox ≠ ownNumber s) (free : s.outbound k = none) :
    startRecording k mailbox kind maxBlocks s = beginDeposit k (s.modCtx k (recordingStart mailbox kind maxBlocks)) := by
  have elsewhere' : homeStation (s.modCtx k (recordingStart mailbox kind maxBlocks)) mailbox
      ≠ ownNumber (s.modCtx k (recordingStart mailbox kind maxBlocks)) := elsewhere
  have free' : ((s.modCtx k (recordingStart mailbox kind maxBlocks)).outbound k).isSome = false := by
    change (s.outbound k).isSome = false
    rw [free]
    rfl
  unfold startRecording
  dsimp only
  rw [startRecording_begins]
  simp only [elsewhere', if_false, free', Bool.false_eq_true]

/-! ### A deposit is asked for (R124) -/

theorem queueTakes_of_short {q : List TxCell} {c : Cell} (short : q.length < 24)
    (plain : c.kind ∉ [kindDepositData, kindFetchData, kindDataRx, kindClaim]) : queueTakes q c = true := by
  simp only [List.mem_cons, List.not_mem_nil, or_false, not_or] at plain
  refine (queueTakes_iff q c).mpr ⟨short, fun stream => ?_, fun claim => absurd claim plain.2.2.2⟩
  simp only [List.mem_cons, List.not_mem_nil, or_false] at stream
  exact absurd stream (not_or.mpr ⟨plain.1, not_or.mpr ⟨plain.2.1, plain.2.2.1⟩⟩)

/-- R124: the record of a deposit just asked for. -/
def askedDeposit (home mailbox : Nat) (kind : MsgKind) (serial : Nat) : OutDeposit := {
  home, mailbox, kind, handle := none, state := .opening, buffer := [], outstanding := [], toOffer := [], timer := some 2000
  close := none, closeSent := false, nextSequence := 0, serial }

/-- R124: a deposit asked for with room in the queue. -/
def depositAsked (k : ContextId) (home mailbox : Nat) (kind : MsgKind) (s : State) : State :=
  enqueue (ownCell s 4 (homeAddress home) kindDepositOpen (tagOf k) (be2 mailbox ++ be1 kind.code)) (s.rau.serial + 1)
    ((s.modRau fun r => { r with serial := r.serial + 1 }).setOutbound k (some (askedDeposit home mailbox kind (s.rau.serial + 1))))

theorem startDeposit_of_short {s : State} (k : ContextId) (home mailbox : Nat) (kind : MsgKind) (short : s.clc.tx.length < 24) :
    startDeposit k home mailbox kind s = (depositAsked k home mailbox kind s, s.rau.serial + 1) := by
  have room : queueTakes s.clc.tx (ownCell s 4 (homeAddress home) kindDepositOpen (tagOf k) (be2 mailbox ++ be1 kind.code)) = true :=
    queueTakes_of_short short (by decide : kindDepositOpen ∉ _)
  exact congrArg (·, _) (offerOther_of_room (s := (s.modRau fun r => { r with serial := r.serial + 1 }).setOutbound k
    (some (askedDeposit home mailbox kind (s.rau.serial + 1)))) _ _ room)

/-- R144: a recording at another home, with room in the queue. -/
theorem beginDeposit_of_short {s : State} {k : ContextId} {mailbox : Nat} (named : (s.at k).voice.recMailbox = some mailbox)
    (short : s.clc.tx.length < 24) :
    beginDeposit k s = (depositAsked k (homeStation s mailbox) mailbox (s.at k).voice.recKind s).modCtx k fun x => { x with
      voice := { x.voice with recTarget := some (.outbound (s.rau.serial + 1)), depositWait := false }
      vcd := x.vcd.startRecording } := by
  unfold beginDeposit
  dsimp only
  rw [named]
  simp only [Option.getD_some, startDeposit_of_short k _ _ _ short, State.modVoice, State.modVcd, modCtx_modCtx]

/-! ### RECORD (R141, R144) -/

theorem record_reaches {s t : State} {c : Cell} {k : ContextId} (asked : AskedActive s c kindRecord)
    (context : field c.payload 0 1 = k.val) (connected : (s.at k).state = .connected) (voice : (s.at k).session = .voice)
    (waits : (s.at k).voice.activity = .waiting) (known : field c.payload 1 2 ≤ 999)
    (begun : startRecording k (field c.payload 1 2) (if (byteAt c.payload 5).getLsbD 0 then .greeting else .voice)
      (recordBlocks s (field c.payload 3 2)) (behindAnswer c k s) = t) (quiet : t.Quiet) :
    exec .record s = .next t := by
  have inRange : decide (999 < field c.payload 1 2) = false := by simpa using known
  have config : recordBlocks (behindAnswer c k s) = recordBlocks s := by
    funext n
    rw [recordBlocks, recordBlocks, configOf, configOf, config_behindAnswer]
  refine handSession_of_waiting (begin_ := fun k s => startRecording k (field c.payload 1 2)
    (if (byteAt c.payload 5).getLsbD 0 then .greeting else .voice) (recordBlocks s (field c.payload 3 2)) s)
    asked context connected voice waits ?_ ?_ quiet
  · rw [takeRecord, inRange]
  · rw [config]
    exact begun

/-- R17, R144: a recording of no answer script whose open is refused here. -/
theorem startRecording_ends {s : State} {k : ContextId} {mailbox : Nat} {kind : MsgKind} {cause : Byte} (maxBlocks : Nat)
    (here : homeStation s mailbox = ownNumber s) (refused : openRefusal s mailbox (some kind) = some cause)
    (script : (s.at k).voice.script ≠ .answer) :
    SameOff (sendEvent (some k) (.recordDone (ownNumber s) none (some 0) cause (some 0)) s) (startRecording k mailbox kind maxBlocks s)
      ∧ ∃ x : Context, (startRecording k mailbox kind maxBlocks s).at k = { x with voice := waiting x.voice } ∧ x.vcd.recording = false := by
  let started := s.modCtx k (recordingStart mailbox kind maxBlocks)
  let told := sendRecordDone k (ownNumber s) none (some 0) cause (some 0) started
  have atTold : told.at k = recordingStart mailbox kind maxBlocks (s.at k) := (at_sendEvent ..).trans (at_modCtx ..)
  have atDropped : (dropRecording k told).at k = recordingDropped (told.at k) := at_dropRecording k told
  have plain : ((dropRecording k told).at k).voice.script ≠ .answer := by
    rw [atDropped, atTold]
    exact script
  rw [startRecording_of_refused maxBlocks here refused]
  change SameOff _ (recordingOver k (dropRecording k told)) ∧ ∃ x : Context, (recordingOver k (dropRecording k told)).at k = _ ∧ _
  rw [recordingOver, if_neg plain, enterWaiting_eq]
  refine ⟨?_, (dropRecording k told).at k, at_modCtx .., by rw [atDropped]; rfl⟩
  exact (SameOff.refl s).modCtx.sendEvent.modCtx.modCtx.modCtx

/-- What a RECORD leaves that opens its message here. -/
structure RecordingHere (k : ContextId) (mailbox : Nat) (kind : MsgKind) (maxBlocks : Nat) (s t : State) : Prop where
  free : s.msgAt (lowestFree s) = none ∧ ∀ j, j < lowestFree s → s.msgAt j ≠ none
  record : t.msgAt (lowestFree s) = some (freshMsg kind mailbox (.here k))
  context : t.at k = recordingInto (.here (lowestFree s)) (recordingStart mailbox kind maxBlocks (s.at k))
  mbxs : t.msc.mbxs = s.msc.mbxs.map fun b => if b.number = mailbox then countOpen kind b else b
  clc : t.clc = s.clc
  rau : t.rau = s.rau

theorem recordingHere {s : State} {k : ContextId} {mailbox : Nat} {kind : MsgKind} (maxBlocks : Nat)
    (here : homeStation s mailbox = ownNumber s) (accepted : openRefusal s mailbox (some kind) = none) :
    RecordingHere k mailbox kind maxBlocks s (startRecording k mailbox kind maxBlocks s) := by
  let started := s.modCtx k (recordingStart mailbox kind maxBlocks)
  have only := storeOnly_openedFor mailbox kind (.here k) started
  obtain ⟨free, record⟩ := msgAt_openedFor (s := started) (.here k) accepted
  rw [startRecording_of_accepted maxBlocks here accepted]
  refine ⟨free, (msgAt_congr rfl _).trans record, ?_, openedFor_mbxs mailbox kind (.here k) started,
    openedFor_clc mailbox kind (.here k) started, only.rau⟩
  rw [at_modCtx, only.at]
  exact congrArg _ (at_modCtx ..)

/-- What a RECORD leaves that asks another home, with room in the queue. -/
structure RecordingElsewhere (k : ContextId) (home mailbox : Nat) (kind : MsgKind) (maxBlocks : Nat) (s t : State) : Prop where
  context : t.at k = recordingInto (.outbound (s.rau.serial + 1)) (recordingStart mailbox kind maxBlocks (s.at k))
  deposit : t.outbound k = some (askedDeposit home mailbox kind (s.rau.serial + 1))
  tx : t.clc.tx = insertByPriority (freshTx (ownCell s 4 (homeAddress home) kindDepositOpen (tagOf k)
    (be2 mailbox ++ be1 kind.code)) (s.rau.serial + 1)) s.clc.tx
  msc : t.msc = s.msc
  notices : t.rau.notices = s.rau.notices

theorem recordingElsewhere {s : State} {k : ContextId} {mailbox : Nat} {kind : MsgKind} (maxBlocks : Nat)
    (elsewhere : homeStation s mailbox ≠ ownNumber s) (free : s.outbound k = none) (short : s.clc.tx.length < 24) :
    RecordingElsewhere k (homeStation s mailbox) mailbox kind maxBlocks s (startRecording k mailbox kind maxBlocks s) := by
  let started := s.modCtx k (recordingStart mailbox kind maxBlocks)
  have record : started.at k = recordingStart mailbox kind maxBlocks (s.at k) := at_modCtx ..
  have begun : startRecording k mailbox kind maxBlocks s = _ := (startRecording_of_elsewhere maxBlocks elsewhere free).trans
    (beginDeposit_of_short (s := started) (mailbox := mailbox) (by rw [record]; rfl) short)
  rw [begun, show (started.at k).voice.recKind = kind by rw [record]; rfl]
  refine ⟨?_, outbound_setOutbound (started.modRau fun r => { r with serial := r.serial + 1 }) k _, rfl, rfl, rfl⟩
  rw [at_modCtx]
  rw [show (depositAsked k (homeStation started mailbox) mailbox kind started).at k = started.at k from rfl, record]
  rfl

theorem recordBlocks_eq {s : State} {g : ConfigRecord} (config : s.cfu.config = some g) (n : Nat) :
    recordBlocks s n = if n = 0 then g.maxBlocks else min 4095 n := by
  rw [recordBlocks, configOf_eq config]

/-- Settles O37: a STOP by the activity it ends, and a RECORD by what opens its message. -/
theorem stopWaitsAndRecordOpens : Obligations.StopWaitsAndRecordOpens := by
  intro s c k g q config context connected voice x
  refine ⟨fun asked => ?stop, fun asked waits short => ⟨fun code known here refused => ?refused,
    fun known here accepted => ?here, fun known elsewhere free => ?elsewhere⟩⟩
  case stop =>
    obtain ⟨t, run, record, others⟩ := exec_stop q asked context connected voice
    have call := call_endActivity k (popCell s)
    refine ⟨t, run, by rw [record]; rfl, by rw [record]; rfl, by rw [record]; rfl, by rw [record]; rfl, ?_, ?_, fun playing => ?_,
      fun recording => ⟨?_, ?_⟩, fun other => ?_, others⟩
    · rw [record]
      exact (congrArg Context.state call : (callPart _).state = _).trans connected
    · rw [record]
      exact (congrArg Context.session call : (callPart _).session = _).trans voice
    · rw [record, at_endActivity_of_playing (s := popCell s) playing]
      rfl
    · rw [record]
      exact (at_endActivity_of_recording (s := popCell s) recording).off
    · rw [record]
      exact (at_endActivity_of_recording (s := popCell s) recording).target
    · have idle := sessionRequest_of_idle enterWaiting context connected voice other
      have ran := handActive_eq asked idle (quiet_of_rau q (behindAnswer_rau c k s))
      cases run.symm.trans ran
      rfl
  case refused =>
    have own := ownNumber_behindAnswer (s := s) (c := c) (k := k)
    obtain ⟨same, y, atK, off⟩ := startRecording_ends (s := behindAnswer c k s) (k := k) (recordBlocks s (field c.payload 3 2))
      ((homeStation_behindAnswer config _).trans (here.trans own.symm)) ((openRefusal_behindAnswer _ _).trans refused)
      (by rw [at_behindAnswer]; exact (nofun : Script.none ≠ .answer))
    have quiet : (sendEvent (some k) (.recordDone (ownNumber (behindAnswer c k s)) none (some 0) code (some 0)) (behindAnswer c k s)).Quiet :=
      quiet_of_rau (behindAnswer_quiet q) (sendEvent_rau ..)
    refine ⟨_, record_reaches asked context connected voice waits known rfl (same.quiet quiet), by rw [atK]; rfl, by rw [atK]; rfl,
      by rw [atK]; exact off, ?_, ?_⟩
    · exact same.msc.trans ((sendEvent_msc ..).trans (behindAnswer_msc c k s))
    · refine same.clc.trans ?_
      rw [own]
      exact sendEvent_clc_congr _ _ rfl rfl
  case here =>
    have opens := recordingHere (s := behindAnswer c k s) (k := k) (recordBlocks s (field c.payload 3 2))
      ((homeStation_behindAnswer config _).trans (here.trans ownNumber_behindAnswer.symm)) ((openRefusal_behindAnswer _ _).trans accepted)
    have handle : lowestFree (behindAnswer c k s) = lowestFree s := by rw [lowestFree, behindAnswer_msc, lowestFree]
    have blocks := recordBlocks_eq config (field c.payload 3 2)
    refine ⟨_, lowestFree (behindAnswer c k s), record_reaches asked context connected voice waits known rfl
      (quiet_of_rau (behindAnswer_quiet q) opens.rau), ?_, by rw [opens.context]; rfl, by rw [opens.context]; rfl,
      by rw [opens.context]; exact blocks, by rw [opens.context]; rfl, by rw [opens.context]; rfl, by rw [opens.context]; rfl,
      by rw [opens.context]; rfl, by rw [opens.context]; rfl, by rw [opens.context]; rfl, opens.record, ?_, opens.clc⟩
    · have free := opens.free
      simp only [msgAt_congr (congrArg Msc.msgs (behindAnswer_msc c k s))] at free
      exact free
    · rw [opens.mbxs, behindAnswer_msc]
      rfl
  case elsewhere =>
    have asks := recordingElsewhere (s := behindAnswer c k s) (k := k) (mailbox := field c.payload 1 2)
      (kind := if (byteAt c.payload 5).getLsbD 0 then .greeting else .voice) (recordBlocks s (field c.payload 3 2))
      (by rw [homeStation_behindAnswer config, ownNumber_behindAnswer]; exact elsewhere)
      ((outbound_congr (behindAnswer_rau c k s) k).trans free) (length_behindAnswer_le short)
    have home := homeStation_behindAnswer (c := c) (k := k) config (field c.payload 1 2)
    have rau := behindAnswer_rau c k s
    refine ⟨_, record_reaches asked context connected voice waits known rfl (asks.notices.trans (behindAnswer_quiet q)),
      by rw [asks.context]; rfl, by rw [asks.context]; rfl, ?_, ?_, ?_, ?_, asks.msc.trans (behindAnswer_msc c k s)⟩
    · rw [asks.context, rau]
      rfl
    · rw [asks.context]
      exact recordBlocks_eq config _
    · rw [asks.deposit, home, rau]
      rfl
    · rw [asks.tx, home, rau, ownCell_congr behindAnswer_station]
      rfl

end Sys2Proof.Machine
end

section
/-! PROOFS. The family of PLAY: a playback of a message here, from its open to its first block, and a fetch that is asked for
(R97, R98, R99, R115, R132, R142). -/
namespace Sys2Proof.Machine

/-! ### The slots of a playback here (R97) -/

theorem setMsgAt_self {s : State} {h : Nat} {m : Option Msg} (record : s.msgAt h = m) : s.setMsgAt h m = s := by
  rcases Nat.lt_or_ge h 512 with lt | above
  · rw [msgAt_of_lt lt] at record
    have same : s.msc.msgs.set ⟨h, lt⟩ m = s.msc.msgs := by rw [← record, State.msg, Bank.set_get]
    rw [setMsgAt_of_lt lt, State.setMsg, State.modMsc, same]
  · exact setMsgAt_of_above (by omega) m s

/-- A context's reading of message h here, just active. -/
structure ReadsHere (k : ContextId) (h : Nat) (m : Msg) (s : State) : Prop where
  ready : s.msc.state = .ready
  record : s.msgAt h = some m
  reader : hasReader m s.cfu.station k.val = true
  active : touched s.cfu.station k.val s.cfu.stationTime m = m

/-- Block b of a message here. -/
def blockHere (s : State) (m : Msg) (b : Nat) : List Byte := blockAt s ((chainOf s m).getD b 0)

theorem askBlock_of_here {s : State} {k : ContextId} {h b : Nat} {m : Msg} (reads : ReadsHere k h m s) (below : b < m.count) :
    askBlock k (.here h) b s = (s, .ready b (blockHere s m b)) := by
  have read := readBlockFor_of_reader reads.ready reads.record reads.reader below
  rw [touchReader_of_record _ _ reads.record, reads.active, setMsgAt_self reads.record] at read
  simp only [askBlock, read]
  rfl

/-- R97, R99: the two slots of a playback here that begins at a block. -/
def slotsHere (s : State) (m : Msg) (b : Nat) : Buffer := {
  a := .ready b (blockHere s m b)
  b := if b + 1 < m.count then .ready (b + 1) (blockHere s m (b + 1)) else .empty }

theorem fillBuffer_of_here {s : State} {k : ContextId} {h b : Nat} {m : Msg} (reads : ReadsHere k h m s) (below : b < m.count) :
    fillBuffer k (.here h) m.count b Buffer.reset s = (s, slotsHere s m b) := by
  have first : askNext k (.here h) m.count b Buffer.reset s = (s, { a := .ready b (blockHere s m b), b := .empty }) := by
    simp [askNext, Buffer.reset, Buffer.next, Slot.index, Buffer.hasRoom, below, askBlock_of_here reads below, Buffer.put]
  rw [fillBuffer, first, slotsHere]
  by_cases more : b + 1 < m.count
  · simp [askNext, Buffer.next, Slot.index, Buffer.hasRoom, more, askBlock_of_here reads more, Buffer.put]
  · simp [askNext, Buffer.next, Slot.index, Buffer.hasRoom, more]

/-! ### A playback begins here (R98, R99) -/

/-- R99: a codec at the start position of a message here. -/
def decoderHere (h b : Nat) (m : Msg) (v : Vcd) : Vcd := { v with
  source := some (.here h), kind := some m.kind, blocks := m.count, length := m.length, position := 1016 * b, buffer := .reset
  current := none }

/-- R98, R99: a codec that plays from a block of a message here. -/
def playsFrom (s : State) (h b : Nat) (m : Msg) (v : Vcd) : Vcd :=
  { decodingFrom b (blockHere s m b) (decoderHere h b m v) with buffer := slotsHere s m b }

theorem beginDecoding_of_here {s : State} {k : ContextId} {h b : Nat} {m : Msg} (reads : ReadsHere k h m s)
    (start : min (s.at k).voice.start m.length / 1016 = b) (short : 1016 * b < m.length) (below : b < m.count) :
    beginDecoding k (.here h) m.kind m.length m.count s = s.modVcd k (playsFrom s h b m) := by
  let u := s.modVcd k (decoderHere h b m)
  have notEnd : ¬ 1016 * b = m.length := by omega
  have vcd : (u.at k).vcd = decoderHere h b m (s.at k).vcd := congrArg Context.vcd (at_modCtx ..)
  have filled : refillPlayback k b u = u.modVcd k fun v => { v with buffer := slotsHere s m b } := by
    have slots : fillBuffer k (.here h) m.count b Buffer.reset u = (u, slotsHere u m b) :=
      fillBuffer_of_here ⟨reads.ready, reads.record, reads.reader, reads.active⟩ below
    simp only [refillPlayback, vcd, decoderHere]
    simp only [slots]
    rfl
  have buffer : ((u.modVcd k fun v => { v with buffer := slotsHere s m b }).at k).vcd.buffer = slotsHere s m b := by
    rw [State.modVcd, at_modCtx]
  have found : (slotsHere s m b).find b = .ready b (blockHere s m b) := find_of_first rfl
  have moved : moveDecoder k b (refillPlayback k b u) = s.modVcd k (playsFrom s h b m) := by
    rw [filled]
    simp only [moveDecoder, buffer, found, loadBlock]
    simp only [u, State.modVcd, modCtx_modCtx, playsFrom, decodingFrom, decoderHere]
  rw [← moved]
  simp only [beginDecoding, start, notEnd, if_false]
  rfl

/-! ### PLAYING begins (R142) -/

/-- R142: a record whose playback opens its target. -/
def playStart (target : PlayTarget) (start : Nat) (x : Context) : Context := { x with
  voice := { x.voice with activity := .playing, target := some target, start, beep := none, idle := none }
  vcd := { x.vcd with
    buffer := .reset, current := none, position := 0, length := 0, mark := .underrun, source := none, kind := none, blocks := 0 } }

theorem beginPlay_begins (k : ContextId) (target : PlayTarget) (start : Nat) (s : State) :
    ((s.modVoice k fun v => { v with activity := .playing, target := some target, start, beep := none, idle := none }).modVcd k
      fun v => { v with
        buffer := .reset, current := none, position := 0, length := 0, mark := .underrun, source := none, kind := none
        blocks := 0 }) = s.modCtx k (playStart target start) :=
  (modCtx_modCtx ..).trans (modCtx_congr rfl)

/-- The home of a play target (R122, R142). -/
def targetHome (s : State) : PlayTarget → Nat
  | .message home _ => home
  | .greeting m => homeStation s m

theorem beginPlay_of_refused {s t : State} {k : ContextId} {target : PlayTarget} {start : Nat} {cause : Byte}
    (here : targetHome s target = ownNumber s)
    (refused : readOpen target s.cfu.station k.val (s.modCtx k (playStart target start))
      = (t, .error cause)) : beginPlay k target start s = playbackOver k codeNoSuch t := by
  have here' : targetHome (s.modCtx k (playStart target start)) target = ownNumber (s.modCtx k (playStart target start)) := by
    cases target <;> exact here
  unfold beginPlay
  dsimp only
  rw [beginPlay_begins]
  refine (if_pos here').trans ?_
  simp only [modCtx_cfu, refused]

theorem beginPlay_of_granted {s t : State} {k : ContextId} {target : PlayTarget} {start : Nat} {g : ReadGrant}
    (here : targetHome s target = ownNumber s)
    (granted : readOpen target s.cfu.station k.val (s.modCtx k (playStart target start)) = (t, .ok g)) :
    beginPlay k target start s = playGranted k (.here g.handle) (some g.kind) g.length g.blocks t := by
  have here' : targetHome (s.modCtx k (playStart target start)) target = ownNumber (s.modCtx k (playStart target start)) := by
    cases target <;> exact here
  unfold beginPlay
  dsimp only
  rw [beginPlay_begins]
  refine (if_pos here').trans ?_
  simp only [modCtx_cfu, granted]

theorem beginPlay_of_elsewhere {s : State} {k : ContextId} {home h start : Nat} (elsewhere : home ≠ ownNumber s) :
    beginPlay k (.message home h) start s = startFetch k home (some h) none (s.modCtx k (playStart (.message home h) start)) := by
  have elsewhere' : ¬ home = ownNumber (s.modCtx k (playStart (.message home h) start)) := elsewhere
  unfold beginPlay
  dsimp only
  rw [beginPlay_begins]
  exact if_neg elsewhere'

theorem readOpen_of_free {s : State} {home h : Nat} (p : Fin 8) (n : Nat) (free : s.msgAt h = none) :
    ∃ cause, readOpen (.message home h) p n s = (s, .error cause) := by
  unfold readOpen
  split
  · exact ⟨_, rfl⟩
  · split
    · exact ⟨_, rfl⟩
    · exact ⟨_, readOpenHandle_of_free p n free⟩

/-! ### A playback of a CLOSED message here (R99, R115, R142) -/

/-- The read open of a CLOSED message by one of its own contexts, its only reader. -/
def openedHere (k : ContextId) (h : Nat) (m : Msg) (s : State) : State :=
  s.setMsgAt h (some (withReader s.cfu.station k.val s.cfu.stationTime m))

theorem readsHere_of_opened {s : State} {h : Nat} {m : Msg} (k : ContextId) (ready : s.msc.state = .ready) (record : s.msgAt h = some m)
    (alone : m.readers = []) :
    ReadsHere k h (withReader s.cfu.station k.val s.cfu.stationTime m) (openedHere k h m s) := by
  have only : StoreOnly s (openedHere k h m s) := storeOnly_setMsgAt ..
  have time : (openedHere k h m s).cfu.stationTime = s.cfu.stationTime := by rw [only.cfu]
  refine ⟨(setMsgAt_state ..).trans ready, msgAt_setMsgAt (lt_of_msgAt record) _ s, ?_, ?_⟩
  · rw [hasReader_eq_true, only.station, withReader, alone]
    exact ⟨_, List.mem_singleton_self _, rfl, rfl⟩
  · rw [only.station, time, touched, withReader, alone]
    simp

theorem blockHere_openedHere (k : ContextId) (h b : Nat) (m : Msg) (s : State) :
    blockHere (openedHere k h m s) (withReader s.cfu.station k.val s.cfu.stationTime m) b = blockHere s m b := by
  rw [blockHere, openedHere, blockAt_setMsgAt, chainOf, setMsgAt_msc]
  rfl

/-- The state of a playback that has begun at block b of a message here. -/
def playingHere (k : ContextId) (target : PlayTarget) (start h b : Nat) (m : Msg) (s : State) : State :=
  let w := openedHere k h m (s.modCtx k (playStart target start))
  w.modVcd k (playsFrom w h b (withReader s.cfu.station k.val s.cfu.stationTime m))

/-- What a playback that begins here leaves. -/
structure PlaysHere (k : ContextId) (target : PlayTarget) (start h b : Nat) (m : Msg) (s t : State) : Prop where
  context : t.at k = { playStart target start (s.at k) with vcd := (t.at k).vcd }
  decoder : (t.at k).vcd.mark = .playing ∧ (t.at k).vcd.current = some (b, 0) ∧ (t.at k).vcd.position = 1016 * b
    ∧ (t.at k).vcd.length = m.length
  block : (t.at k).vcd.buffer.find b = .ready b (blockHere s m b) ∧ (t.at k).vcd.decPredictor = headerPredictor (blockHere s m b)
    ∧ (t.at k).vcd.decIndex = headerIndex (blockHere s m b)
  record : t.msgAt h = some (withReader s.cfu.station k.val s.cfu.stationTime m)
  clc : t.clc = s.clc
  rau : t.rau = s.rau

theorem playsHere {s : State} {k : ContextId} {target : PlayTarget} {start h b : Nat} {m : Msg} (record : s.msgAt h = some m) :
    PlaysHere k target start h b m s (playingHere k target start h b m s) := by
  let u := s.modCtx k (playStart target start)
  have only : StoreOnly u (openedHere k h m u) := storeOnly_setMsgAt ..
  have block : blockHere (openedHere k h m u) (withReader s.cfu.station k.val s.cfu.stationTime m) b = blockHere s m b :=
    blockHere_openedHere k h b m u
  have atW : (openedHere k h m u).at k = playStart target start (s.at k) := (only.at k).trans (at_modCtx ..)
  have atK : (playingHere k target start h b m s).at k = { playStart target start (s.at k) with
      vcd := playsFrom (openedHere k h m u) h b (withReader s.cfu.station k.val s.cfu.stationTime m) (playStart target start (s.at k)).vcd } := by
    rw [← atW]
    exact at_modCtx ..
  refine ⟨by rw [atK], by rw [atK]; exact ⟨rfl, rfl, rfl, rfl⟩, ?_, msgAt_setMsgAt (lt_of_msgAt record) _ u, setMsgAt_clc .., only.rau⟩
  rw [atK]
  rw [← block]
  refine ⟨find_of_first rfl, ?_, ?_⟩
  · simp only [playsFrom, decodingFrom]
  · simp only [playsFrom, decodingFrom]

/-- R99, R142: a playback of the CLOSED message that its target opens here. -/
theorem beginPlay_of_here {s : State} {k : ContextId} {target : PlayTarget} {start h b : Nat} {m : Msg}
    (here : targetHome s target = ownNumber s)
    (opens : readOpen target s.cfu.station k.val (s.modCtx k (playStart target start))
      = readOpenHandle h s.cfu.station k.val (s.modCtx k (playStart target start)))
    (ready : s.msc.state = .ready) (record : s.msgAt h = some m) (closed : m.state = .closed) (alone : m.readers = [])
    (kind : m.kind = .greeting ∨ m.kind = .voice ∧ inGreeting (s.at k).voice = false)
    (first : min start m.length / 1016 = b) (short : 1016 * b < m.length) (below : b < m.count) :
    beginPlay k target start s = playingHere k target start h b m s := by
  let u := s.modCtx k (playStart target start)
  let w := openedHere k h m u
  have stranger : hasReader m s.cfu.station k.val = false := by rw [hasReader_eq_false, alone]; nofun
  have granted : readOpen target s.cfu.station k.val u = (w, .ok (grantOf h m)) :=
    opens.trans (readOpenHandle_of_closed (s := u) record closed stranger (by rw [alone]; decide))
  have reads : ReadsHere k h (withReader s.cfu.station k.val s.cfu.stationTime m) w := readsHere_of_opened (s := u) k ready record alone
  have atW : (w.at k).voice = (playStart target start (s.at k)).voice := by
    rw [show w.at k = u.at k from (storeOnly_setMsgAt ..).at k, show u.at k = playStart target start (s.at k) from at_modCtx ..]
  have begins : beginDecoding k (.here h) m.kind m.length m.count w
      = w.modVcd k (playsFrom w h b (withReader s.cfu.station k.val s.cfu.stationTime m)) :=
    beginDecoding_of_here (m := withReader s.cfu.station k.val s.cfu.stationTime m) reads (by rw [atW]; exact first) short below
  have plays : playGranted k (.here h) (some m.kind) m.length m.count w = beginDecoding k (.here h) m.kind m.length m.count w := by
    rcases kind with greeting | ⟨voice, plain⟩
    · rw [greeting]
      rfl
    · have plain' : inGreeting (w.at k).voice = false := by rw [atW]; exact plain
      simp only [playGranted, voice, plain', Bool.false_eq_true, if_false]
  rw [beginPlay_of_granted here granted]
  exact plays.trans begins

/-! ### A fetch is asked for (R132) -/

/-- R132: the record of a fetch just asked for. -/
def askedFetch (home h serial : Nat) : Fetch := {
  home, mailbox := none, handle := some h, state := .opening, pending := [], timer := some 2000, keepalive := 5000, serial }

/-- R132: a fetch of a message asked for with room in the queue. -/
def fetchAsked (k : ContextId) (home h : Nat) (s : State) : State :=
  enqueue (ownCell s 4 (homeAddress home) kindFetchOpen (tagOf k) (be2 h ++ [0xFF, 0xFF])) (s.rau.serial + 1)
    ((s.modRau fun r => { r with serial := r.serial + 1 }).setFetch k (some (askedFetch home h (s.rau.serial + 1))))

theorem startFetch_of_short {s : State} (k : ContextId) (home h : Nat) (short : s.clc.tx.length < 24) :
    startFetch k home (some h) none s = fetchAsked k home h s := by
  have room : queueTakes s.clc.tx (ownCell s 4 (homeAddress home) kindFetchOpen (tagOf k) (be2 h ++ [0xFF, 0xFF])) = true :=
    queueTakes_of_short short (by decide : kindFetchOpen ∉ _)
  have again : sendForFetch k (ownCell s 4 (homeAddress home) kindFetchOpen (tagOf k) (be2 h ++ [0xFF, 0xFF])) (s.rau.serial + 1) true
      ((s.modRau fun r => { r with serial := r.serial + 1 }).setFetch k (some (askedFetch home h (s.rau.serial + 1))))
      = offerOther (ownCell s 4 (homeAddress home) kindFetchOpen (tagOf k) (be2 h ++ [0xFF, 0xFF])) (s.rau.serial + 1) (some k)
        ((s.modRau fun r => { r with serial := r.serial + 1 }).setFetch k (some (askedFetch home h (s.rau.serial + 1)))) := by
    simp only [sendForFetch, fetch_setFetch, setFetch_setFetch, if_true]
    rfl
  exact again.trans (offerOther_of_room _ _ room)

/-- What a fetch just asked for leaves. -/
structure FetchAsked (k : ContextId) (home h : Nat) (s t : State) : Prop where
  context : t.at k = s.at k
  fetch : t.fetch k = some (askedFetch home h (s.rau.serial + 1))
  tx : t.clc.tx = insertByPriority (freshTx (ownCell s 4 (homeAddress home) kindFetchOpen (tagOf k) (be2 h ++ [0xFF, 0xFF]))
    (s.rau.serial + 1)) s.clc.tx
  notices : t.rau.notices = s.rau.notices

theorem fetchAsked_asks (k : ContextId) (home h : Nat) (s : State) : FetchAsked k home h s (fetchAsked k home h s) where
  context := rfl
  fetch := fetch_setFetch ..
  tx := rfl
  notices := rfl

/-! ### PLAY (R141, R142) -/

theorem play_reaches {s t : State} {c : Cell} {k : ContextId} (asked : AskedActive s c kindPlay)
    (context : field c.payload 0 1 = k.val) (connected : (s.at k).state = .connected) (voice : (s.at k).session = .voice)
    (waits : (s.at k).voice.activity = .waiting) (home : field c.payload 1 1 ≤ 7) (known : field c.payload 2 2 ≤ 511)
    (begun : beginPlay k (.message (field c.payload 1 1) (field c.payload 2 2)) (field c.payload 4 3) (behindAnswer c k s) = t)
    (quiet : t.Quiet) : exec .play s = .next t := by
  have inRange : (decide (511 < field c.payload 2 2) || decide (7 < field c.payload 1 1)) = false := by simp [home, known]
  refine handSession_of_waiting
    (begin_ := fun k s => beginPlay k (.message (field c.payload 1 1) (field c.payload 2 2)) (field c.payload 4 3) s)
    asked context connected voice waits ?_ begun quiet
  rw [takePlay, inRange]

/-- Settles O38: a message of another home, a FREE handle, and a message here. -/
theorem playOpensItsTarget : Obligations.PlayOpensItsTarget := by
  intro s c k q asked config context connected voice waits short home handle start ok homeLe known
  let u := behindAnswer c k s
  have own : ownNumber u = s.cfu.station.val := ownNumber_behindAnswer
  have record : u.at k = requested c.tag (s.at k) := at_behindAnswer c k s
  have rau : u.rau = s.rau := behindAnswer_rau c k s
  have configured : u.cfu.config.isSome = true := by rw [config_behindAnswer]; exact config
  have plain : inGreeting (u.at k).voice = false := by rw [record]; rfl
  refine ⟨fun elsewhere => ?elsewhere, fun here free => ?free, fun m here ready found closed kind alone inside below => ?here⟩
  case elsewhere =>
    have begun : beginPlay k (.message home handle) start u = fetchAsked k home handle (u.modCtx k (playStart (.message home handle) start)) :=
      (beginPlay_of_elsewhere (by rw [own]; exact elsewhere)).trans (startFetch_of_short k home handle (length_behindAnswer_le (c := c) (k := k) short))
    have asks := fetchAsked_asks k home handle (u.modCtx k (playStart (.message home handle) start))
    rw [← begun] at asks
    have started := asks.context.trans (at_modCtx ..)
    have quiet := asks.notices.trans (behindAnswer_quiet (c := c) (k := k) q)
    refine ⟨_, play_reaches asked context connected voice waits homeLe known rfl quiet,
      by rw [started]; rfl, by rw [started]; rfl, by rw [started]; rfl, by rw [started]; rfl, by rw [started]; rfl,
      by rw [started]; rfl, by rw [started]; rfl, ?_, ?_⟩
    · rw [asks.fetch, ← rau]
      rfl
    · rw [asks.tx, ← rau, ← ownCell_congr (s := u) behindAnswer_station]
      rfl
  case free =>
    let w := u.modCtx k (playStart (.message home handle) start)
    have started : w.at k = playStart (.message home handle) start (u.at k) := at_modCtx ..
    obtain ⟨cause, opens⟩ := readOpen_of_free (s := w) (home := home) u.cfu.station k.val
      ((msgAt_congr (congrArg Msc.msgs (behindAnswer_msc c k s)) handle).trans free)
    have begun := beginPlay_of_refused (s := u) (start := start) (by rw [own]; exact here) opens
    obtain ⟨same, over_⟩ := playbackOver_of_none codeNoSuch (s := w) (k := k) (by rw [started, record]; rfl)
    rw [← begun] at same over_
    have told : SameOff (sendEvent (some k) (.playDone codeNoSuch (w.at k).vcd.position) u) _ :=
      ((SameOff.refl u).modCtx.sendEvent).trans same
    have quiet := quiet_of_rau (behindAnswer_quiet (c := c) (k := k) q) (told.rau.trans (sendEvent_rau ..))
    refine ⟨_, play_reaches asked context connected voice waits homeLe known rfl quiet, by rw [over_]; rfl, by rw [over_]; rfl,
      told.msc.trans ((sendEvent_msc ..).trans (behindAnswer_msc c k s)), told.rau.trans ((sendEvent_rau ..).trans rau), ?_⟩
    rw [told.clc, show (w.at k).vcd.position = 0 by rw [started]; rfl]
    exact sendEvent_clc_congr _ _ rfl rfl
  case here =>
    have target : targetHome u (.message home handle) = ownNumber u := by rw [own]; exact here
    have ready' : u.msc.state = .ready := by rw [behindAnswer_msc]; exact ready
    have found' : u.msgAt handle = some m := (msgAt_congr (congrArg Msc.msgs (behindAnswer_msc c k s)) handle).trans found
    have begun := beginPlay_of_here (s := u) (k := k) (start := start) target
      (readOpen_of_message _ _ _ _ ready' configured) ready' found' closed alone (Or.inr ⟨kind, plain⟩) rfl inside below
    have plays := playsHere (k := k) (target := .message home handle) (start := start) (b := min start m.length / 1016) found'
    rw [← begun] at plays
    have block : blockHere u m (min start m.length / 1016) = blockHere s m (min start m.length / 1016) := by
      rw [blockHere, blockAt, chainOf, behindAnswer_msc]
      rfl
    have time : u.cfu.stationTime = s.cfu.stationTime := by
      change (sendAnswer c codeOk (popCell s)).cfu.stationTime = _
      rw [(storeOnly_answer c s).cfu]
    have station : u.cfu.station = s.cfu.station := behindAnswer_station
    obtain ⟨mark, current, position, length⟩ := plays.decoder
    have slot := plays.block
    rw [block] at slot
    have quiet := quiet_of_rau (behindAnswer_quiet (c := c) (k := k) q) plays.rau
    refine ⟨_, play_reaches asked context connected voice waits homeLe known rfl quiet, by rw [plays.context]; rfl, mark, current,
      position, length, slot.1, slot.2.1, slot.2.2, ?_, plays.clc, plays.rau.trans rau⟩
    rw [plays.record, withReader, alone, station, time]
    rfl

end Sys2Proof.Machine
end

section
/-! PROOFS. The family of the fax and data requests: FAX_RECEIVE, FAX_SEND, DATA_CONNECT and DATA_TX (R141, R152, R157, R169,
R173). -/
namespace Sys2Proof.Machine

/-! ### A fax session begins (R152, R157) -/

/-- R152, R157: the record of a context whose fax session begins. -/
def faxEntered (role : FaxRole) (x : Context) : Context := { x with
  state := .connected, session := .fax, timer := none, voice := .reset, fax := { Fax.reset with role := some role }
  pump := { x.pump with state := .control } }

theorem enterFaxSession_eq (k : ContextId) (role : FaxRole) (s : State) : enterFaxSession k role s = s.modCtx k (faxEntered role) :=
  (modCtx_modCtx ..).trans (modCtx_congr rfl)

/-- R152: the record of a context that receives a fax into a mailbox. -/
def receives (mailbox rate : Nat) (x : Context) : Context :=
  { faxEntered .receive x with fax := { (faxEntered .receive x).fax with mailbox, rate } }

/-- R152: the record of a fax receive whose CAPABILITY has gone out. -/
def capabilitySent (h rate : Nat) (x : Context) : Context := { x with
  fax := { x.fax with target := some (.here h), phase := .awaitMode, wait := some 6000 }
  pump := { x.pump with control := x.pump.control ++ [.capability rate] } }

theorem startFaxReceive_of_accepted {s : State} {k : ContextId} {mailbox : Nat} {g : ConfigRecord} (config : s.cfu.config = some g)
    (here : homeStation s mailbox = ownNumber s) (accepted : openRefusal s mailbox (some .fax) = none) :
    startFaxReceive k mailbox s = (openedFor mailbox .fax (.here k) (s.modCtx k (receives mailbox g.faxMaxRate))).modCtx k
      (capabilitySent (lowestFree s) g.faxMaxRate) := by
  let u := s.modCtx k (receives mailbox g.faxMaxRate)
  have entered : ((enterFaxSession k .receive s).modFax k fun f => { f with mailbox, rate := (configOf s).faxMaxRate }) = u := by
    rw [enterFaxSession_eq, configOf_eq config]
    exact (modCtx_modCtx ..).trans (modCtx_congr rfl)
  have here' : homeStation u mailbox = ownNumber u := here
  have opening := openForWriting_of_accepted (s := u) (.here k) accepted
  have rate : configOf (openedFor mailbox .fax (.here k) u) = g :=
    configOf_eq (by rw [(storeOnly_openedFor mailbox .fax (.here k) u).cfu]; exact config)
  have capability : configOf ((openedFor mailbox .fax (.here k) u).modFax k fun f => { f with target := some (.here (lowestFree u)) }) = g := rate
  unfold startFaxReceive
  dsimp only
  rw [entered]
  simp only [here', if_true, opening, sendCapability, awaitMode, capability]
  simp only [enterPhase, sendControl, State.modFax, State.modPump, modCtx_modCtx]
  rfl

/-- R157: the record of a context that sends a fax. -/
def sendsFax (x : Context) : Context :=
  { faxEntered .send x with fax := { (faxEntered .send x).fax with phase := .awaitCapability, wait := some 6000 } }

theorem startFaxSend_of_elsewhere {s : State} {k : ContextId} {home h : Nat} (elsewhere : home ≠ ownNumber s) (short : s.clc.tx.length < 24) :
    startFaxSend k home h s = fetchAsked k home h (s.modCtx k sendsFax) := by
  have entered : enterPhase k .awaitCapability (some faxWait) (enterFaxSession k .send s) = s.modCtx k sendsFax := by
    rw [enterFaxSession_eq]
    exact (modCtx_modCtx ..).trans (modCtx_congr rfl)
  have elsewhere' : ¬ home = ownNumber (s.modCtx k sendsFax) := elsewhere
  rw [← startFetch_of_short (s := s.modCtx k sendsFax) k home h short]
  unfold startFaxSend
  dsimp only
  rw [entered]
  exact if_neg elsewhere'

theorem faxReceive_reaches {s t : State} {c : Cell} {k : ContextId} (asked : AskedActive s c kindFaxReceive)
    (context : field c.payload 0 1 = k.val) (connected : (s.at k).state = .connected) (voice : (s.at k).session = .voice)
    (waits : (s.at k).voice.activity = .waiting) (known : field c.payload 1 2 ≤ 999)
    (begun : startFaxReceive k (field c.payload 1 2) (behindAnswer c k s) = t) (quiet : t.Quiet) : exec .faxReceive s = .next t := by
  have inRange : decide (999 < field c.payload 1 2) = false := by simpa using known
  refine handSession_of_waiting (begin_ := fun k s => startFaxReceive k (field c.payload 1 2) s) asked context connected voice waits ?_
    begun quiet
  rw [takeFaxReceive, inRange]

theorem faxSend_reaches {s t : State} {c : Cell} {k : ContextId} (asked : AskedActive s c kindFaxSend)
    (context : field c.payload 0 1 = k.val) (connected : (s.at k).state = .connected) (voice : (s.at k).session = .voice)
    (waits : (s.at k).voice.activity = .waiting) (home : field c.payload 1 1 ≤ 7) (known : field c.payload 2 2 ≤ 511)
    (begun : startFaxSend k (field c.payload 1 1) (field c.payload 2 2) (behindAnswer c k s) = t) (quiet : t.Quiet) :
    exec .faxSend s = .next t := by
  have inRange : (decide (511 < field c.payload 2 2) || decide (7 < field c.payload 1 1)) = false := by simp [home, known]
  refine handSession_of_waiting (begin_ := fun k s => startFaxSend k (field c.payload 1 1) (field c.payload 2 2) s) asked context
    connected voice waits ?_ begun quiet
  rw [takeFaxSend, inRange]

/-! ### A data session begins (R169) -/

theorem connectBounds_eq {s : State} {g : ConfigRecord} (config : s.cfu.config = some g) (lo hi : Nat) : connectBounds s lo hi
    = (if lo = 255 ∧ hi = 255 then g.rateMin else min (min 11 lo) (min 11 hi),
       if lo = 255 ∧ hi = 255 then g.rateMax else max (min 11 lo) (min 11 hi)) := by
  by_cases whole : lo = 255 ∧ hi = 255
  · simp [connectBounds, whole, configOf_eq config]
  · have notWhole : ¬ ((decide (lo = 255) && decide (hi = 255)) = true) := by simpa using whole
    rw [connectBounds, if_neg notWhole, if_neg whole, if_neg whole, rateBounds_eq]

/-- R163, R169: the record of a context whose data session begins. -/
def dataEntered (mode : DataMode) (bounds : Nat × Nat) (x : Context) : Context := { x with
  state := .connected, session := .data, timer := none, voice := .reset, lkc := .reset
  qmn := { Qmn.reset with
    phase := some .training, mode, min := bounds.1, max := bounds.2, rate := bounds.2, target := bounds.2, timer := some 10000 }
  pump := { state := .trainingData bounds.2 mode, control := [] } }

theorem startData_eq (k : ContextId) (mode : DataMode) (bounds : Nat × Nat) (s : State) :
    startData k mode bounds s = s.modCtx k (dataEntered mode bounds) := rfl

theorem dataConnect_reaches {s t : State} {c : Cell} {k : ContextId} {g : ConfigRecord} (asked : AskedActive s c kindDataConnect)
    (config : s.cfu.config = some g)
    (context : field c.payload 0 1 = k.val) (connected : (s.at k).state = .connected) (voice : (s.at k).session = .voice)
    (waits : (s.at k).voice.activity = .waiting) (known : field c.payload 1 1 ≤ 1)
    (begun : (behindAnswer c k s).modCtx k (dataEntered (if field c.payload 1 1 = 0 then .answer else .originate)
      (connectBounds s (field c.payload 2 1) (field c.payload 3 1))) = t) (quiet : t.Quiet) : exec .dataConnect s = .next t := by
  have inRange : decide (1 < field c.payload 1 1) = false := by simpa using known
  have same := (connectBounds_eq (behindAnswer_config (c := c) (k := k) config) (field c.payload 2 1) (field c.payload 3 1)).trans
    (connectBounds_eq config _ _).symm
  refine handSession_of_waiting
    (begin_ := fun k s => startData k (if field c.payload 1 1 = 0 then .answer else .originate)
      (connectBounds s (field c.payload 2 1) (field c.payload 3 1)) s)
    asked context connected voice waits ?_ ?_ quiet
  · rw [takeDataConnect, inRange]
  · rw [startData_eq, same]
    exact begun

/-! ### DATA_TX (R173) -/

theorem makeBlock_of_training {s : State} {k : ContextId} (still : linkMoves (s.at k) = false) : makeBlock k s = s := by
  simp [makeBlock, still]

theorem pumpLink_of_training {s : State} {k : ContextId} (still : linkMoves (s.at k) = false) : pumpLink k s = s :=
  forEach_of_standing fun _ _ => makeBlock_of_training still

/-- R173: a send buffer after a DATA_TX, and whether it stops the flow. -/
def bytesTaken (bytes : List Byte) (l : Lkc) : Lkc :=
  let all := l.sendBuffer ++ bytes.take (1024 - l.sendBuffer.length)
  { l with sendBuffer := all, flowStop := decide (768 ≤ all.length) }

/-- R173: the DATA_LOST of the bytes beyond the room. -/
def tellLost (k : ContextId) (room : Nat) (bytes : List Byte) (s : State) : State :=
  if room < bytes.length then sendEvent (some k) (.dataLost (bytes.length - room)) s else s

/-- R173: the FLOW(STOP) of a buffer that has reached its mark. -/
def tellStop (k : ContextId) (all : Nat) (s : State) : State := if 768 ≤ all then sendEvent (some k) (.flow false) s else s

theorem tellLost_modCtx (k : ContextId) (room : Nat) (bytes : List Byte) (f : Context → Context) (s : State) :
    tellLost k room bytes (s.modCtx k f) = (tellLost k room bytes s).modCtx k f := by
  unfold tellLost
  split
  · exact sendEvent_modCtx_comm ..
  · rfl

theorem tellStop_modCtx (k : ContextId) (all : Nat) (f : Context → Context) (s : State) :
    tellStop k all (s.modCtx k f) = (tellStop k all s).modCtx k f := by
  unfold tellStop
  split
  · exact sendEvent_modCtx_comm ..
  · rfl

theorem at_tellLost (k j : ContextId) (room : Nat) (bytes : List Byte) (s : State) : (tellLost k room bytes s).at j = s.at j := by
  unfold tellLost
  split
  · exact at_sendEvent ..
  · rfl

theorem tellLost_rau (k : ContextId) (room : Nat) (bytes : List Byte) (s : State) : (tellLost k room bytes s).rau = s.rau := by
  unfold tellLost
  split
  · exact sendEvent_rau ..
  · rfl

theorem tellStop_rau (k : ContextId) (all : Nat) (s : State) : (tellStop k all s).rau = s.rau := by
  unfold tellStop
  split
  · exact sendEvent_rau ..
  · rfl

theorem tellLost_ctx (k : ContextId) (room : Nat) (bytes : List Byte) (s : State) : (tellLost k room bytes s).ctx = s.ctx := by
  unfold tellLost
  split
  · exact sendEvent_ctx ..
  · rfl

theorem tellStop_ctx (k : ContextId) (all : Nat) (s : State) : (tellStop k all s).ctx = s.ctx := by
  unfold tellStop
  split
  · exact sendEvent_ctx ..
  · rfl

theorem takeTx_eq {s : State} {k : ContextId} (bytes : List Byte) (flow : (s.at k).lkc.flowStop = false) : takeTx k bytes s
    = (tellStop k (bytesTaken bytes (s.at k).lkc).sendBuffer.length
        (tellLost k (1024 - (s.at k).lkc.sendBuffer.length) bytes s)).modLkc k (bytesTaken bytes) := by
  let l := (s.at k).lkc
  let all := l.sendBuffer ++ bytes.take (1024 - l.sendBuffer.length)
  let v := tellLost k (1024 - l.sendBuffer.length) bytes s
  let w := v.modLkc k fun x => { x with sendBuffer := all }
  have atV : (v.at k).lkc = l := congrArg Context.lkc (at_tellLost ..)
  have atW : (w.at k).lkc = { l with sendBuffer := all } := by
    rw [← atV]
    exact congrArg Context.lkc (at_modCtx ..)
  have joined : (s.modLkc k fun x => { x with sendBuffer := x.sendBuffer ++ bytes.take (1024 - l.sendBuffer.length) })
      = s.modLkc k fun x => { x with sendBuffer := all } := modCtx_congr rfl
  have lost : takeTx k bytes s = checkFlow k w := by
    have told := tellLost_modCtx k (1024 - l.sendBuffer.length) bytes (fun x => { x with lkc := { x.lkc with sendBuffer := all } }) s
    unfold takeTx
    dsimp only
    rw [joined]
    refine congrArg (checkFlow k) (Eq.trans ?_ told)
    unfold tellLost
    simp only [Nat.sub_pos_iff_lt]
    rfl
  rw [lost]
  by_cases full : 768 ≤ all.length
  · have stops : checkFlow k w = (sendEvent (some k) (.flow false) w).modLkc k fun x => { x with flowStop := true } := by
      simp only [checkFlow, atW, l, flow, full, Bool.not_false, decide_true, Bool.and_self, if_true]
    have told : tellStop k all.length v = sendEvent (some k) (.flow false) v := if_pos full
    rw [stops]
    refine Eq.trans ?_ (congrArg (fun u => State.modLkc k (bytesTaken bytes) u) told.symm)
    have atE : ((sendEvent (some k) (.flow false) v).at k).lkc = l := (congrArg Context.lkc (at_sendEvent ..)).trans atV
    have came : sendEvent (some k) (.flow false) w = (sendEvent (some k) (.flow false) v).modLkc k fun x => { x with sendBuffer := all } :=
      sendEvent_modCtx_comm ..
    rw [came]
    refine (modCtx_modCtx ..).trans (modCtx_congr ?_)
    have taken : bytesTaken bytes l = { l with sendBuffer := all, flowStop := true } :=
      congrArg (fun b => { l with sendBuffer := all, flowStop := b }) (decide_eq_true full)
    dsimp only
    rw [atE, taken]
  · have goes : checkFlow k w = w := by
      simp [checkFlow, atW, l, flow, full]
    have told : tellStop k all.length v = v := if_neg full
    rw [goes]
    refine Eq.trans ?_ (congrArg (fun u => State.modLkc k (bytesTaken bytes) u) told.symm)
    refine modLkc_congr ?_
    have taken : bytesTaken bytes l = { l with sendBuffer := all, flowStop := l.flowStop } :=
      congrArg (fun b => { l with sendBuffer := all, flowStop := b }) ((decide_eq_false full).trans flow.symm)
    rw [atV, taken]

theorem takeDataTx_of_training {c : Cell} {s : State} {k : ContextId} (context : field c.payload 0 1 = k.val)
    (connected : (s.at k).state = .connected) (data : (s.at k).session = .data) (training : (s.at k).qmn.phase = some .training)
    (flow : (s.at k).lkc.flowStop = false) : takeDataTx c s
      = (sendAnswer c codeOk (tellStop k (bytesTaken (c.payload.drop 1) (s.at k).lkc).sendBuffer.length
          (tellLost k (1024 - (s.at k).lkc.sendBuffer.length) (c.payload.drop 1) s))).modLkc k (bytesTaken (c.payload.drop 1)) := by
  let told := tellStop k (bytesTaken (c.payload.drop 1) (s.at k).lkc).sendBuffer.length
    (tellLost k (1024 - (s.at k).lkc.sendBuffer.length) (c.payload.drop 1) s)
  have taken : takeTx k (c.payload.drop 1) s = told.modLkc k (bytesTaken (c.payload.drop 1)) := takeTx_eq _ flow
  have answered_ : sendAnswer c codeOk (told.modLkc k (bytesTaken (c.payload.drop 1)))
      = (sendAnswer c codeOk told).modLkc k (bytesTaken (c.payload.drop 1)) := sendAnswer_modCtx ..
  have same : (told.at k).qmn = (s.at k).qmn := by rw [State.at, tellStop_ctx, tellLost_ctx, State.at]
  have still : linkMoves (((sendAnswer c codeOk told).modLkc k (bytesTaken (c.payload.drop 1))).at k) = false := by
    rw [State.modLkc, at_modCtx, at_sendAnswer, linkMoves, same, training]
    rfl
  have inData : ((s.at k).state = .connected && (s.at k).session = .data) = true := by simp [connected, data]
  simp only [takeDataTx, context, contextOf_val, inData, if_true]
  rw [taken, answered_, pumpLink_of_training still]

theorem modCtx_of_ctx {t : State} {b : Bank 4 Context} (k : ContextId) (f : Context → Context) (ctx : t.ctx = b) :
    t.modCtx k f = { t with ctx := b.modify k f } := by
  rw [State.modCtx, ctx]

/-- Settles O39: the session that each request begins, and the bytes that a DATA_TX adds. -/
theorem faxAndDataRequestsBegin : Obligations.FaxAndDataRequestsBegin := by
  intro s c k g q config context connected ok
  let u := behindAnswer c k s
  have record : u.at k = requested c.tag (s.at k) := at_behindAnswer c k s
  have own : ownNumber u = s.cfu.station.val := ownNumber_behindAnswer
  have config' : u.cfu.config = some g := behindAnswer_config config
  have quiet : u.Quiet := behindAnswer_quiet q
  have rau : u.rau = s.rau := behindAnswer_rau c k s
  have msc : u.msc = s.msc := behindAnswer_msc c k s
  refine ⟨fun voice waits short => ⟨fun asked known here accepted => ?receive, fun asked homeLe known elsewhere => ?send,
    fun asked known => ?connect⟩, fun data training flow asked => ?tx⟩
  case receive =>
    let v := u.modCtx k (receives (field c.payload 1 2) g.faxMaxRate)
    have begun := startFaxReceive_of_accepted (s := u) (k := k) config' ((homeStation_behindAnswer config _).trans (here.trans own.symm))
      ((openRefusal_behindAnswer (c := c) (k := k) _ _).trans accepted)
    have only := storeOnly_openedFor (field c.payload 1 2) .fax (.here k) v
    obtain ⟨free, opened⟩ := msgAt_openedFor (s := v) (.here k) ((openRefusal_behindAnswer (c := c) (k := k) _ _).trans accepted)
    have atT : ((openedFor (field c.payload 1 2) .fax (.here k) v).modCtx k (capabilitySent (lowestFree u) g.faxMaxRate)).at k
        = capabilitySent (lowestFree u) g.faxMaxRate (receives (field c.payload 1 2) g.faxMaxRate (requested c.tag (s.at k))) := by
      rw [at_modCtx, only.at, show v.at k = _ from at_modCtx .., record]
    have quiet' := only.quiet quiet
    simp only [msgAt_congr (s := s) (t := v) (congrArg Msc.msgs msc)] at free
    refine ⟨_, lowestFree v, faxReceive_reaches asked context connected voice waits known begun quiet', free, by rw [atT]; rfl,
      by rw [atT]; rfl, by rw [atT]; rfl, by rw [atT]; rfl, ⟨_, opened, rfl, rfl, rfl, rfl, rfl⟩, openedFor_clc ..⟩
  case send =>
    have begun := startFaxSend_of_elsewhere (s := u) (k := k) (home := field c.payload 1 1) (h := field c.payload 2 2)
      (by rw [own]; exact elsewhere) (length_behindAnswer_le (c := c) (k := k) short)
    have asks := fetchAsked_asks k (field c.payload 1 1) (field c.payload 2 2) (u.modCtx k sendsFax)
    rw [← begun] at asks
    have started := asks.context.trans (at_modCtx ..)
    rw [record] at started
    refine ⟨_, faxSend_reaches asked context connected voice waits homeLe known rfl (asks.notices.trans quiet), by rw [started]; rfl,
      by rw [started]; rfl, by rw [started]; rfl, ?_, ?_⟩
    · rw [asks.fetch, ← rau]
      rfl
    · rw [asks.tx, ← rau, ← ownCell_congr (s := u) behindAnswer_station]
      rfl
  case connect =>
    refine dataConnect_reaches asked config context connected voice waits known ?_ quiet
    refine (modCtx_modCtx ..).trans (Eq.trans (modCtx_congr ?_) (modCtx_of_ctx k _ (sendAnswer_ctx ..)))
    have state : ((sendAnswer c codeOk (popCell s)).at k).state = .connected := by rw [at_sendAnswer]; exact connected
    rw [connectBounds_eq config]
    simp only [dataEntered, state, requested]
  case tx =>
    have taken := takeDataTx_of_training (s := popCell s) context connected data training flow
    refine (handActive_eq asked taken (quiet_of_rau (s := s) q ?_)).trans (congrArg Host.Outcome.next (modCtx_of_ctx k _ ?_))
    · exact (sendAnswer_rau ..).trans ((tellStop_rau ..).trans (tellLost_rau ..))
    · exact (sendAnswer_ctx ..).trans ((tellStop_ctx ..).trans (tellLost_ctx ..))

end Sys2Proof.Machine
end

section
/-! PROOFS. The family of the end of discrimination: the decision VOICE and the recording step of the answer script (R76, R139,
R144). -/
namespace Sys2Proof.Machine

/-! ### The decision VOICE (R76, R139) -/

/-- R76: the record of a context that discrimination has given a voice session. -/
def voiceDecided (x : Context) : Context :=
  { x with state := .connected, session := .voice, timer := none, voice := { x.voice with step := some .record } }

/-- The state in which the recording step of the answer script begins. -/
def decidedVoice (k : ContextId) (s : State) : State := (sendEvent (some k) (.callType 0) s).modCtx k voiceDecided

section
variable {s : State} {k : ContextId} {g : ConfigRecord}

theorem at_decidedVoice (k : ContextId) (s : State) : (decidedVoice k s).at k = voiceDecided (s.at k) := by
  rw [decidedVoice, at_modCtx, at_sendEvent]

theorem decidedVoice_msc (k : ContextId) (s : State) : (decidedVoice k s).msc = s.msc := sendEvent_msc ..

theorem storeOnly_event (k : ContextId) (s : State) : StoreOnly s (sendEvent (some k) (.callType 0) s) := storeOnly_sendEvent ..

theorem decidedVoice_config (config : s.cfu.config = some g) : (decidedVoice k s).cfu.config = some g := by
  rw [decidedVoice, modCtx_cfu, (storeOnly_event k s).cfu]
  exact config

theorem decidedVoice_station (k : ContextId) (s : State) : (decidedVoice k s).cfu.station = s.cfu.station :=
  (storeOnly_event k s).station

theorem openRefusal_decidedVoice (mailbox : Nat) (kind : Option MsgKind) :
    openRefusal (decidedVoice k s) mailbox kind = openRefusal s mailbox kind :=
  openRefusal_congr (storeOnly_event k s) (sendEvent_msc ..) mailbox kind

theorem decidedVoice_here (config : s.cfu.config = some g) {mailbox : Nat} (here : mailbox % g.groupSize = s.cfu.station.val) :
    homeStation (decidedVoice k s) mailbox = ownNumber (decidedVoice k s) := by
  rw [homeStation, configOf_eq (decidedVoice_config config), ownNumber, decidedVoice_station]
  exact here

theorem discriminationEnds_eq (config : s.cfu.config = some g) : discriminationEnds k s
    = startRecording k ((s.at k).mailbox.getD 0) .voice g.maxBlocks (decidedVoice k s) := by
  have begins : ((sendEvent (some k) (.callType 0) s).modCtx k fun x => { x with state := .connected, session := .voice, timer := none }).modVoice
      k (fun v => { v with step := some .record }) = decidedVoice k s := modCtx_modCtx ..
  unfold discriminationEnds
  dsimp only
  rw [begins, configOf_eq (decidedVoice_config config), at_decidedVoice]
  rfl

end

/-- R139, R144: what the decision VOICE leaves, with a message of this home open. -/
theorem decided_of_accepted {s : State} {k : ContextId} {g : ConfigRecord} (config : s.cfu.config = some g)
    (here : (s.at k).mailbox.getD 0 % g.groupSize = s.cfu.station.val)
    (accepted : openRefusal s ((s.at k).mailbox.getD 0) (some .voice) = none) :
    RecordingHere k ((s.at k).mailbox.getD 0) .voice g.maxBlocks (decidedVoice k s) (discriminationEnds k s) := by
  rw [discriminationEnds_eq config]
  exact recordingHere g.maxBlocks (decidedVoice_here config here) ((openRefusal_decidedVoice _ _).trans accepted)

/-- R140: a recording step of the answer script whose open is refused here ends the call. -/
theorem decided_of_refused {s : State} {k : ContextId} {g : ConfigRecord} {cause : Byte} (config : s.cfu.config = some g)
    (here : (s.at k).mailbox.getD 0 % g.groupSize = s.cfu.station.val) (script : (s.at k).voice.script = .answer)
    (refused : openRefusal s ((s.at k).mailbox.getD 0) (some .voice) = some cause) :
    Reports s (discriminationEnds k s) ∧ ∃ x, (discriminationEnds k s).at k = clearingRecord x := by
  let u := decidedVoice k s
  let started := u.modCtx k (recordingStart ((s.at k).mailbox.getD 0) .voice g.maxBlocks)
  let told := dropRecording k (sendRecordDone k (ownNumber u) none (some 0) cause (some 0) started)
  have begun : discriminationEnds k s = recordingOver k told := (discriminationEnds_eq config).trans
    (startRecording_of_refused g.maxBlocks (decidedVoice_here config here) ((openRefusal_decidedVoice _ _).trans refused))
  have atStarted : started.at k = recordingStart ((s.at k).mailbox.getD 0) .voice g.maxBlocks (voiceDecided (s.at k)) :=
    (at_modCtx ..).trans (congrArg _ (at_decidedVoice ..))
  have atTold : ∃ x, told.at k = x ∧ x.state = .connected ∧ x.session = .voice ∧ x.voice.activity = .none ∧ x.voice.script = .answer := by
    refine ⟨_, rfl, ?_⟩
    rw [at_dropRecording, sendRecordDone, at_sendEvent, atStarted]
    exact ⟨rfl, rfl, rfl, script⟩
  obtain ⟨x, atX, state, session, activity, answer⟩ := atTold
  have call : inCall (told.at k) = true := by rw [atX, inCall, state]
  have silent : Silent (told.at k) := by
    rw [atX]
    refine ⟨by rw [state]; decide, fun _ => Or.inr ⟨session, ?_, ?_⟩⟩
    · rw [activity]
      decide
    · rw [activity]
      decide
  have ends : recordingOver k told = endCall k codeLocalDrop told := if_pos (by rw [atX]; exact answer)
  rw [begun, ends]
  constructor
  · have before : Reports s told := ((((Reports.event ..).trans (Reports.modCtx ..)).trans (Reports.modCtx ..)).trans (Reports.event ..)).trans
      ((Reports.modCtx ..).trans (Reports.modCtx ..))
    exact before.trans (reports_endCall_of_silent rfl call silent)
  · obtain ⟨y, record, _⟩ := at_endCall_of_clears (cause := codeLocalDrop) rfl call
    exact ⟨y, record⟩

end Sys2Proof.Machine
end

section
/-! PROOFS. The family of an incoming call up to its greeting: the end of collection, the answer delay, and the greeting or the beep
that follows (R74, R75, R76, R138, R142). -/
namespace Sys2Proof.Machine

/-! ### What a decoder that begins or stops leaves alone -/

/-- A context without what its decoder keeps. -/
def decoderAside (x : Context) : Context := { x with vcd := .reset }

/-- A later state whose context differs at most in its decoder, with no notice more. -/
structure Decodes (k : ContextId) (s t : State) : Prop where
  part : decoderAside (t.at k) = decoderAside (s.at k)
  quiet : s.Quiet → t.Quiet

namespace Decodes

variable {k : ContextId} {s t u : State}

theorem refl (k : ContextId) (s : State) : Decodes k s s := ⟨rfl, id⟩

theorem trans (a : Decodes k s t) (b : Decodes k t u) : Decodes k s u := ⟨b.part.trans a.part, fun q => b.quiet (a.quiet q)⟩

theorem of_asks (asks : AsksOnly s t) : Decodes k s t := ⟨by rw [asks.ctx], asks.quiet⟩

theorem of_store (only : StoreOnly s t) : Decodes k s t := ⟨by rw [only.at], only.quiet⟩

theorem modVcd (f : Vcd → Vcd) : Decodes k s (s.modVcd k f) := by
  refine ⟨?_, id⟩
  rw [State.modVcd, at_modCtx]
  rfl

theorem voice (a : Decodes k s t) : (t.at k).voice = (s.at k).voice :=
  (congrArg Context.voice a.part : (decoderAside _).voice = _)

end Decodes

section
variable {k : ContextId} {s : State}

theorem decodes_refillPlayback (needed : Nat) : Decodes k s (refillPlayback k needed s) := by
  unfold refillPlayback
  dsimp only
  split
  · exact .refl k s
  · exact (Decodes.of_asks (asksOnly_fillBuffer ..)).trans (.modVcd _)

theorem decodes_fetchSettle (b : Nat) : Decodes k s (fetchSettle k b s) := ⟨by rw [at_fetchSettle], quiet_fetchSettle k b⟩

theorem decodes_loadBlock (b : Nat) (block : List Byte) : Decodes k s (loadBlock k b block s) := .modVcd _

theorem decodes_moveDecoder (b : Nat) : Decodes k s (moveDecoder k b s) := by
  unfold moveDecoder
  split
  · exact decodes_loadBlock ..
  · dsimp only
    split
    · exact ((Decodes.modVcd _).trans (decodes_fetchSettle _)).trans (decodes_loadBlock ..)
    · exact .modVcd _
  · exact .modVcd _

theorem decodes_markHeard : Decodes k s (markHeard k s) := by
  unfold markHeard
  dsimp only
  split
  · split
    · exact .of_store (storeOnly_markMessage ..)
    · split
      · exact .of_store (storeOnly_offerOther_none ..)
      · exact .refl k s
  · exact .refl k s

theorem decodes_leaveMessage (h : Nat) (p : Fin 8) (n : Nat) : Decodes k s (leaveMessage h p n s) := by
  unfold leaveMessage
  split
  · exact .refl k s
  · split
    · dsimp only
      split
      · exact .of_store ((storeOnly_setMsgAt ..).trans (storeOnly_freeMessage ..))
      · exact .of_store (storeOnly_setMsgAt ..)
    · exact .refl k s

theorem decodes_endFetch : Decodes k s (endFetch k s) := by
  refine ⟨by rw [at_endFetch], fun q => ?_⟩
  unfold endFetch
  split
  · exact q
  · split
    · exact offerOther_none_quiet _ _ q
    · exact q

theorem decodes_leaveSource (source : Option Source) : Decodes k s (leaveSource k source s) := by
  unfold leaveSource
  split
  · exact decodes_leaveMessage ..
  · exact decodes_endFetch

theorem decodes_stopPlayback : Decodes k s (stopPlayback k s) := (Decodes.modVcd _).trans (decodes_leaveSource _)

end

/-! ### A greeting that ends, or begins (R138, R142) -/

/-- A context without what a greeting and its beep change. -/
def greetingAside (x : Context) : Context := { x with vcd := .reset, voice := .reset, tone := .reset }

/-- A later state of a context that greets: no notice more, and the rest of its record as it was. -/
structure Greets (k : ContextId) (s t : State) : Prop where
  part : greetingAside (t.at k) = greetingAside (s.at k)
  quiet : s.Quiet → t.Quiet

theorem Decodes.greets {k : ContextId} {s t : State} (a : Decodes k s t) : Greets k s t :=
  ⟨congrArg (fun x : Context => { x with voice := .reset, tone := .reset }) a.part, a.quiet⟩

theorem Greets.trans {k : ContextId} {s t u : State} (a : Greets k s t) (b : Greets k t u) : Greets k s u :=
  ⟨b.part.trans a.part, fun q => b.quiet (a.quiet q)⟩

section
variable {k : ContextId} {s : State}

theorem greets_playbackOver (result : Byte) (greeting : inGreeting (s.at k).voice = true) : Greets k s (playbackOver k result s) := by
  obtain ⟨same, record⟩ := playbackOver_of_greeting result greeting
  refine ⟨?_, same.quiet⟩
  rw [record]
  rfl

theorem greets_of_decodes {t : State} (result : Byte) (greeting : inGreeting (s.at k).voice = true) (a : Decodes k s t) :
    Greets k s (playbackOver k result t) :=
  a.greets.trans (greets_playbackOver result (by rw [a.voice]; exact greeting))

theorem greets_beginDecoding (source : Source) (kind : MsgKind) (length blocks : Nat) (greeting : inGreeting (s.at k).voice = true) :
    Greets k s (beginDecoding k source kind length blocks s) := by
  unfold beginDecoding
  dsimp only
  split
  · exact greets_of_decodes _ greeting (((Decodes.modVcd _).trans decodes_markHeard).trans decodes_stopPlayback)
  · exact (((Decodes.modVcd _).trans (decodes_refillPlayback _)).trans (decodes_moveDecoder _)).greets

theorem greets_playGranted (source : Source) (kind : Option MsgKind) (length blocks : Nat) (greeting : inGreeting (s.at k).voice = true) :
    Greets k s (playGranted k source kind length blocks s) := by
  unfold playGranted
  dsimp only
  split
  · exact greets_beginDecoding _ _ _ _ greeting
  · rw [if_pos greeting]
    exact greets_of_decodes _ greeting (decodes_leaveSource _)
  · exact greets_of_decodes _ greeting (decodes_leaveSource _)

theorem storeOnly_readOpenHandle (h : Nat) (p : Fin 8) (n : Nat) : StoreOnly s (readOpenHandle h p n s).1 := by
  unfold readOpenHandle
  repeat' split
  · exact .refl s
  · exact .refl s
  · exact .refl s
  · exact storeOnly_touchReader ..
  · exact .refl s
  · exact storeOnly_setMsgAt ..

theorem storeOnly_readOpen (what : PlayTarget) (p : Fin 8) (n : Nat) : StoreOnly s (readOpen what p n s).1 := by
  unfold readOpen
  repeat' split
  · exact .refl s
  · exact .refl s
  · exact storeOnly_readOpenHandle ..
  · exact storeOnly_readOpenHandle ..
  · exact .refl s

theorem greets_modCtx_playStart (target : PlayTarget) (start : Nat) : Greets k s (s.modCtx k (playStart target start)) := by
  refine ⟨?_, id⟩
  rw [at_modCtx]
  rfl

theorem inGreeting_playStart (target : PlayTarget) (start : Nat) (greeting : inGreeting (s.at k).voice = true) :
    inGreeting ((s.modCtx k (playStart target start)).at k).voice = true := by
  rw [at_modCtx]
  exact greeting

/-- R138: a greeting of a mailbox here, whatever its open answers. -/
theorem greets_beginPlay_of_here {target : PlayTarget} (here : targetHome s target = ownNumber s)
    (greeting : inGreeting (s.at k).voice = true) : Greets k s (beginPlay k target 0 s) := by
  let w := s.modCtx k (playStart target 0)
  have starts : Greets k s w := greets_modCtx_playStart target 0
  have still : inGreeting (w.at k).voice = true := inGreeting_playStart target 0 greeting
  have only := storeOnly_readOpen (s := w) target s.cfu.station k.val
  cases opens : readOpen target s.cfu.station k.val w with
  | mk t result =>
    rw [opens] at only
    have opened : Decodes k w t := .of_store only
    cases result with
    | ok g =>
      rw [beginPlay_of_granted here opens]
      exact (starts.trans opened.greets).trans (greets_playGranted _ _ _ _ (by rw [opened.voice]; exact still))
    | error cause =>
      rw [beginPlay_of_refused here opens]
      exact starts.trans (greets_of_decodes _ still opened)

/-- R142: a greeting whose fetch ends before its grant gives way to the beep. -/
theorem greets_undelivered_of_fetch {serial : Nat} {f : Fetch} (fetch : s.fetch k = some f) (opening : f.state = .opening)
    (ours : f.serial = serial) (state : (s.at k).state = .discriminating) (playing : (s.at k).voice.activity = .playing)
    (greeting : inGreeting (s.at k).voice = true) : Greets k s (undelivered k kindFetchOpen serial s) := by
  have plays : fetchPlays (s.at k) = true := by simp [fetchPlays, playing, state]
  have ends : undelivered k kindFetchOpen serial s = playbackOver k codeHomeSilent (stopPlayback k s) := by
    simp only [undelivered, if_true, fetch, ours, opening, decide_true, Bool.and_self, fetchEnds, plays, playFetchEnded]
  rw [ends]
  exact greets_of_decodes _ greeting decodes_stopPlayback

end

/-! ### The notices of one refused cell (R29) -/

theorem settleNotices_quiet (n : Nat) {s : State} (q : s.Quiet) : settleNotices n s = s := by
  cases n with
  | zero => rfl
  | succ n =>
    have none : s.rau.notices = [] := q
    simp only [settleNotices, none]

/-- A command that leaves one notice tells it, and no other follows. -/
theorem at_settle_of_one {s t : State} {x : Notice} (j : ContextId) (notices : s.rau.notices = [x])
    (told : undelivered x.context x.kind x.serial (s.modRau fun r => { r with notices := [] }) = t) (quiet : t.Quiet) :
    (settle s).at j = t.at j := by
  have first : settleNotices 64 s = settleNotices 63 (undelivered x.context x.kind x.serial (s.modRau fun r => { r with notices := [] })) := by
    rw [settleNotices, notices]
  rw [settle, first, told, settleNotices_quiet _ quiet]
  rfl

/-- The state of a fetch of a greeting that has been asked for. -/
def greetingAsked (k : ContextId) (home mailbox : Nat) (s : State) : State :=
  (s.modRau fun r => { r with serial := r.serial + 1 }).setFetch k (some {
    home, mailbox := some mailbox, handle := none, state := .opening, pending := [], timer := some 2000, keepalive := 5000
    serial := s.rau.serial + 1 })

theorem startFetch_of_greeting (k : ContextId) (home mailbox : Nat) (s : State) : startFetch k home none (some mailbox) s
    = offerOther (ownCell s 4 (homeAddress home) kindFetchOpen (tagOf k) ([0xFF, 0xFF] ++ be2 mailbox)) (s.rau.serial + 1) (some k)
        (greetingAsked k home mailbox s) := by
  simp only [startFetch, newSerial, sendForFetch, fetch_setFetch, setFetch_setFetch, if_true]
  rfl

/-- R132, R138: a greeting of another home, with the notice of a full queue told. -/
theorem greets_settle_startFetch {s : State} {k : ContextId} (home mailbox : Nat) (q : s.Quiet) (state : (s.at k).state = .discriminating)
    (playing : (s.at k).voice.activity = .playing) (greeting : inGreeting (s.at k).voice = true) :
    greetingAside ((settle (startFetch k home none (some mailbox) s)).at k) = greetingAside (s.at k) := by
  let u := greetingAsked k home mailbox s
  let c := ownCell s 4 (homeAddress home) kindFetchOpen (tagOf k) ([0xFF, 0xFF] ++ be2 mailbox)
  have noNotice : u.rau.notices = [] := q
  rw [startFetch_of_greeting]
  by_cases room : queueTakes u.clc.tx c = true
  · have taken : (offerOther c (s.rau.serial + 1) (some k) u) = enqueue c (s.rau.serial + 1) u := offerOther_of_room _ _ room
    rw [taken, settle_quiet (s := enqueue c (s.rau.serial + 1) u) noNotice]
    rfl
  · let t := (countUndelivered u).modRau fun r => { r with notices := r.notices ++ [{ context := k, kind := c.kind, serial := s.rau.serial + 1 }] }
    have refused : offerOther c (s.rau.serial + 1) (some k) u = t := by
      rw [offerOther, if_neg room]
    have notices : t.rau.notices = [{ context := k, kind := kindFetchOpen, serial := s.rau.serial + 1 }] :=
      congrArg (· ++ _) noNotice
    let v := t.modRau fun r => { r with notices := [] }
    have told : Greets k v (undelivered k kindFetchOpen (s.rau.serial + 1) v) :=
      greets_undelivered_of_fetch (s := v) (fetch_setFetch ..) rfl rfl state playing greeting
    rw [refused, at_settle_of_one k notices rfl (told.quiet rfl)]
    exact told.part

/-- R138: whatever becomes of a greeting, the rest of its context stands. -/
theorem greets_settle_beginPlay {s : State} {k : ContextId} (mailbox : Nat) (q : s.Quiet) (state : (s.at k).state = .discriminating)
    (greeting : inGreeting (s.at k).voice = true) :
    greetingAside ((settle (beginPlay k (.greeting mailbox) 0 s)).at k) = greetingAside (s.at k) := by
  by_cases here : targetHome s (.greeting mailbox) = ownNumber s
  · have greets := greets_beginPlay_of_here here greeting
    rw [settle_quiet (greets.quiet q)]
    exact greets.part
  · let w := s.modCtx k (playStart (.greeting mailbox) 0)
    have atW : w.at k = playStart (.greeting mailbox) 0 (s.at k) := at_modCtx ..
    have begun : beginPlay k (.greeting mailbox) 0 s = startFetch k (homeStation w mailbox) none (some mailbox) w := by
      unfold beginPlay
      dsimp only
      rw [beginPlay_begins]
      exact if_neg here
    rw [begun, greets_settle_startFetch (s := w) _ _ q (by rw [atW]; exact state) (by rw [atW]; rfl) (by rw [atW]; exact greeting), atW]
    rfl

/-! ### The answer (R75, R76, R138) -/

/-- R76: the record of a context that answers. -/
def answering (x : Context) : Context := { x with
  state := .discriminating, txCode := .answer, timer := some 4000
  detector := { x.detector with faxRun := 0, faxReported := false, modemRun := 0, modemReported := false }
  voice := { Voice.reset with script := .answer, step := some .greeting } }

theorem enterDiscriminating_eq (k : ContextId) (s : State) : enterDiscriminating k s
    = beginPlay k (.greeting ((s.at k).mailbox.getD 0)) 0 (s.modCtx k answering) := by
  have same : ((s.modCtx k answering).at k).mailbox = (s.at k).mailbox := by rw [at_modCtx]; rfl
  rw [← same]
  rfl

/-- R75, R76: a context that answers stands in DISCRIMINATING, whatever becomes of its greeting. -/
theorem at_settle_enterDiscriminating {s : State} (k : ContextId) (q : s.Quiet) :
    greetingAside ((settle (enterDiscriminating k s)).at k) = greetingAside (answering (s.at k)) := by
  have atU : (s.modCtx k answering).at k = answering (s.at k) := at_modCtx ..
  rw [enterDiscriminating_eq, greets_settle_beginPlay (s := s.modCtx k answering) _ q (by rw [atU]; rfl) (by rw [atU]; rfl), atU]

/-- R138: a mailbox here with no greeting to play. -/
theorem readOpen_of_no_play {s : State} {mailbox : Nat} (p : Fin 8) (n : Nat)
    (noGreeting : ∀ b h m, mailbox? s mailbox = some b → b.greeting = some h → s.msgAt h = some m → m.state = .opened) :
    ∃ cause, readOpen (.greeting mailbox) p n s = (s, .error cause) := by
  unfold readOpen
  split
  · exact ⟨_, rfl⟩
  · split
    · exact ⟨_, rfl⟩
    · dsimp only
      split
      · next h some_greeting =>
        obtain ⟨b, box, greeting⟩ := Option.bind_eq_some_iff.mp some_greeting
        cases record : s.msgAt h with
        | none => exact ⟨_, readOpenHandle_of_free p n record⟩
        | some m => exact ⟨_, readOpenHandle_of_opened p n record (noGreeting b h m box greeting record)⟩
      · exact ⟨_, rfl⟩

/-- R139: the record of a context that answers with the beep at once. -/
def beepsAtOnce (mailbox : Nat) (x : Context) : Context :=
  { playStart (.greeting mailbox) 0 (answering x) with voice := beeping (playStart (.greeting mailbox) 0 (answering x)).voice, tone := .reset }

theorem enterDiscriminating_of_no_play {s : State} {k : ContextId} {g : ConfigRecord} (config : s.cfu.config = some g)
    (here : (s.at k).mailbox.getD 0 % g.groupSize = s.cfu.station.val)
    (noGreeting : ∀ b h m, mailbox? s ((s.at k).mailbox.getD 0) = some b → b.greeting = some h → s.msgAt h = some m → m.state = .opened) :
    SameOff s (enterDiscriminating k s) ∧ (enterDiscriminating k s).at k = beepsAtOnce ((s.at k).mailbox.getD 0) (s.at k) := by
  let u := s.modCtx k answering
  let w := u.modCtx k (playStart (.greeting ((s.at k).mailbox.getD 0)) 0)
  have target : targetHome u (.greeting ((s.at k).mailbox.getD 0)) = ownNumber u := by
    rw [targetHome, homeStation, configOf_eq (s := u) config]
    exact here
  have atW : w.at k = playStart (.greeting ((s.at k).mailbox.getD 0)) 0 (answering (s.at k)) :=
    (at_modCtx ..).trans (congrArg _ (at_modCtx ..))
  obtain ⟨cause, opens⟩ := readOpen_of_no_play (s := w) u.cfu.station k.val noGreeting
  obtain ⟨same, beeps⟩ := playbackOver_of_greeting (s := w) (k := k) codeNoSuch (by rw [atW]; rfl)
  rw [enterDiscriminating_eq, beginPlay_of_refused target opens, beeps, atW]
  exact ⟨((SameOff.refl s).modCtx.modCtx).trans same, rfl⟩

/-- R138: a CLOSED greeting of a mailbox here is played. -/
theorem enterDiscriminating_of_greeting {s : State} {k : ContextId} {g : ConfigRecord} {b : Mbx} {h : Nat} {m : Msg}
    (config : s.cfu.config = some g) (here : (s.at k).mailbox.getD 0 % g.groupSize = s.cfu.station.val) (ready : s.msc.state = .ready)
    (box : mailbox? s ((s.at k).mailbox.getD 0) = some b) (greeting : b.greeting = some h) (record : s.msgAt h = some m)
    (closed : m.state = .closed) (kind : m.kind = .greeting) (alone : m.readers = []) (long : 0 < m.length) (some_block : 0 < m.count) :
    PlaysHere k (.greeting ((s.at k).mailbox.getD 0)) 0 h 0 m (s.modCtx k answering) (enterDiscriminating k s) := by
  let u := s.modCtx k answering
  have target : targetHome u (.greeting ((s.at k).mailbox.getD 0)) = ownNumber u := by
    rw [targetHome, homeStation, configOf_eq (s := u) config]
    exact here
  have configured : u.cfu.config.isSome = true := by rw [modCtx_cfu, config]; rfl
  have first : min 0 m.length / 1016 = 0 := by simp
  have opens := readOpen_of_greeting (s := u.modCtx k (playStart (.greeting ((s.at k).mailbox.getD 0)) 0))
    (mailbox := (s.at k).mailbox.getD 0) u.cfu.station k.val ready configured (Option.bind_eq_some_iff.mpr ⟨b, box, greeting⟩)
  rw [enterDiscriminating_eq, beginPlay_of_here (s := u) target opens ready record closed alone (Or.inl kind) first long some_block]
  exact playsHere record

/-! ### The end of collection (R74, R75) -/

/-- R74, R75: the record of a context whose collection has ended. -/
def collected (mailbox delay : Nat) (x : Context) : Context :=
  { x with state := .answering, mailbox := some mailbox, announced := true, timer := some delay }

/-- R74, R75: the state of a context that enters ANSWERING. -/
def afterCollection (k : ContextId) (ch : Channel) (mailbox delay : Nat) (s : State) : State :=
  (sendEvent (some k) (.callArrived ch (some mailbox)) s).modCtx k (collected mailbox delay)

theorem enterAnswering_eq {s : State} {g : ConfigRecord} (k : ContextId) (config : s.cfu.config = some g) : enterAnswering k s
    = if 100 * g.answerDelay = 0
      then enterDiscriminating k (s.modCtx k fun x => { x with state := .answering, timer := some (100 * g.answerDelay) })
      else s.modCtx k fun x => { x with state := .answering, timer := some (100 * g.answerDelay) } := by
  rw [enterAnswering, configOf_eq config]

theorem collectionEnds_eq {s : State} {k : ContextId} {ch : Channel} {g : ConfigRecord} (mailbox : Nat) (config : s.cfu.config = some g)
    (channel : (s.at k).channel = some ch) : collectionEnds k mailbox s = if 100 * g.answerDelay = 0
      then enterDiscriminating k (afterCollection k ch mailbox (100 * g.answerDelay) s)
      else afterCollection k ch mailbox (100 * g.answerDelay) s := by
  let u := s.modCtx k fun x => { x with mailbox := some mailbox }
  let v := sendEvent (some k) (.callArrived ch (some mailbox)) s
  have named : (u.at k).channel = some ch := by rw [at_modCtx]; exact channel
  have told : sendEvent (some k) (.callArrived ch (some mailbox)) u = v.modCtx k fun x => { x with mailbox := some mailbox } :=
    sendEvent_modCtx_comm ..
  have config' : v.cfu.config = some g := by
    rw [(storeOnly_sendEvent (some k) (.callArrived ch (some mailbox)) s).cfu]
    exact config
  have enters : enterAnswering k ((sendEvent (some k) (.callArrived ch (some mailbox)) u).modCtx k fun x => { x with announced := true })
      = if 100 * g.answerDelay = 0 then enterDiscriminating k (v.modCtx k (collected mailbox (100 * g.answerDelay)))
        else v.modCtx k (collected mailbox (100 * g.answerDelay)) := by
    rw [told, enterAnswering_eq k (g := g) (by exact config'), modCtx_modCtx, modCtx_modCtx]
    rfl
  refine Eq.trans ?_ enters
  simp only [collectionEnds]
  simp only [show (s.modCtx k fun x => { x with mailbox := some mailbox }) = u from rfl, named]

/-! ### The end of the 4 s and of the beep (R76, R139) -/

/-- R76, R139: a context that has decided VOICE and records into a message of this home. -/
structure DecidedVoice (k : ContextId) (mailbox maxBlocks : Nat) (s t : State) : Prop where
  call : (t.at k).state = .connected ∧ (t.at k).session = .voice ∧ (t.at k).timer = none
  voice : (t.at k).voice.activity = .recording ∧ (t.at k).voice.script = .answer ∧ (t.at k).voice.maxBlocks = maxBlocks
  recording : (t.at k).vcd.recording = true
  message : ∃ h, (t.at k).voice.recTarget = some (.here h) ∧ s.msgAt h = none
    ∧ ∃ m, t.msgAt h = some m ∧ m.kind = .voice ∧ m.mailbox = mailbox ∧ m.writer = some (.here k)
  clc : t.clc = (sendEvent (some k) (.callType 0) s).clc
  rau : t.rau = s.rau

theorem decidedVoice_of_accepted {s : State} {k : ContextId} {g : ConfigRecord} {mailbox : Nat} (config : s.cfu.config = some g)
    (named : (s.at k).mailbox.getD 0 = mailbox) (here : mailbox % g.groupSize = s.cfu.station.val)
    (script : (s.at k).voice.script = .answer) (accepted : openRefusal s mailbox (some .voice) = none) :
    DecidedVoice k mailbox g.maxBlocks s (discriminationEnds k s) := by
  subst named
  obtain ⟨free, record, context, _, clc, rau⟩ := decided_of_accepted config here accepted
  rw [at_decidedVoice] at context
  have free' : s.msgAt (lowestFree (decidedVoice k s)) = none := (msgAt_congr (congrArg Msc.msgs (decidedVoice_msc k s)) _).symm.trans free.1
  refine ⟨by rw [context]; exact ⟨rfl, rfl, rfl⟩, by rw [context]; exact ⟨rfl, script, rfl⟩, by rw [context]; rfl,
    ⟨_, by rw [context]; rfl, free', _, record, rfl, rfl, rfl⟩, clc, rau.trans (sendEvent_rau ..)⟩

theorem beepEnds_of_running {s : State} {k : ContextId} {n : Nat} (running : (s.at k).timer = some n) : beepEnds k s
    = s.modVoice k fun v => { v with activity := .none, step := some .record, beep := none } := by
  simp [beepEnds, running]

theorem beepEnds_of_done {s : State} {k : ContextId} (done : (s.at k).timer = none) : beepEnds k s
    = discriminationEnds k (s.modVoice k fun v => { v with activity := .none, step := some .record, beep := none }) := by
  simp [beepEnds, done]

/-- R139: a context that beeps from its answer on, with nothing else changed. -/
structure BeepsAtOnce (k : ContextId) (s t : State) : Prop where
  call : (t.at k).state = .discriminating ∧ (t.at k).txCode = .answer ∧ (t.at k).timer = some 4000
  detector : (t.at k).detector.faxRun = 0 ∧ (t.at k).detector.modemRun = 0
  voice : (t.at k).voice.script = .answer ∧ (t.at k).voice.activity = .beeping ∧ (t.at k).voice.step = some .beep
    ∧ (t.at k).voice.beep = some 500
  same : SameOff s t

theorem exec_answerDelayExpiry_of_no_play {s : State} {k : ContextId} {g : ConfigRecord} (q : s.Quiet) (config : s.cfu.config = some g)
    (state : (s.at k).state = .answering) (held : (s.at k).held = false) (expired : (s.at k).timer = some 0)
    (here : (s.at k).mailbox.getD 0 % g.groupSize = s.cfu.station.val)
    (noGreeting : ∀ b h m, mailbox? s ((s.at k).mailbox.getD 0) = some b → b.greeting = some h → s.msgAt h = some m → m.state = .opened) :
    ∃ t, exec (.answerDelayExpiry k) s = .next t ∧ BeepsAtOnce k s t := by
  obtain ⟨same, record⟩ := enterDiscriminating_of_no_play config here noGreeting
  refine ⟨_, act_of_due s (timerOut_eq_true state held expired) (same.quiet q), ?_, ?_, ?_, same⟩
  · rw [record]
    exact ⟨rfl, rfl, rfl⟩
  · rw [record]
    exact ⟨rfl, rfl⟩
  · rw [record]
    exact ⟨rfl, rfl, rfl, rfl⟩

/-- Settles O49: the end of collection, of the answer delay, of the 4 s and of the beep. -/
theorem incomingCallTimersAct : Obligations.IncomingCallTimersAct := by
  intro s k ch g q config held channel mb decided
  refine ⟨fun state expired => ⟨fun waits => ?delayed, fun now => ?atOnce⟩, fun state expired here => ⟨fun noGreeting => ?absent,
      fun b h m box greeting record opened => ?opened, fun b h m ready box greeting record closed kind alone long some_block => ?played⟩,
    fun state expired => ⟨fun early => ?noted, fun done script here => ⟨fun accepted => ?voice, fun code refused => ?refused⟩⟩,
    fun state beeps expired => ⟨fun n running => ?beepOver, fun done script here accepted => ?beepVoice⟩⟩
  case delayed =>
    have notNow : ¬ 100 * g.answerDelay = 0 := by omega
    have ends : collectionEnds k (configOf s).defaultMailbox s = afterCollection k ch g.defaultMailbox (100 * g.answerDelay) s := by
      rw [configOf_eq config, collectionEnds_eq _ config channel, if_neg notNow]
    have quiet : (afterCollection k ch g.defaultMailbox (100 * g.answerDelay) s).Quiet := quiet_of_rau q (sendEvent_rau ..)
    refine (act_of_due s (timerOut_eq_true state held expired) (by rw [ends]; exact quiet)).trans (congrArg _ (ends.trans ?_))
    exact modCtx_of_ctx k _ (sendEvent_ctx ..)
  case atOnce =>
    let u := afterCollection k ch g.defaultMailbox (100 * g.answerDelay) s
    have ends : collectionEnds k (configOf s).defaultMailbox s = enterDiscriminating k u := by
      rw [configOf_eq config, collectionEnds_eq _ config channel, if_pos (by omega)]
    have record : u.at k = collected g.defaultMailbox (100 * g.answerDelay) (s.at k) := (at_modCtx ..).trans (congrArg _ (at_sendEvent ..))
    have part := at_settle_enterDiscriminating (s := u) k (quiet_of_rau q (sendEvent_rau ..))
    rw [record] at part
    have read {α : Type} (f : Context → α) : f (greetingAside ((settle (enterDiscriminating k u)).at k)) = _ := congrArg f part
    have run : exec (.addressTimerExpiry k) s = .next (settle (enterDiscriminating k u)) := by
      have acts : exec (.addressTimerExpiry k) s = act (timerOut s k .addressing) (collectionEnds k (configOf s).defaultMailbox s) s := rfl
      rw [acts, timerOut_eq_true state held expired, act_of_true, ends]
    exact ⟨_, run, read Context.state, read Context.mailbox, read Context.announced, read Context.txCode, read Context.timer⟩
  case absent =>
    obtain ⟨t, run, ⟨discriminates, code, timer⟩, ⟨fax, modem⟩, ⟨script, activity, step, beep⟩, same⟩ :=
      exec_answerDelayExpiry_of_no_play q config state held expired here fun b h m box greeting _ =>
        absurd (noGreeting b box) (by rw [greeting]; nofun)
    exact ⟨t, run, ⟨discriminates, code, timer⟩, fax, modem, script, activity, step, beep, same⟩
  case opened =>
    have onlyOpened : ∀ b' h' m', mailbox? s mb = some b' → b'.greeting = some h' → s.msgAt h' = some m' → m'.state = .opened := by
      intro b' h' m' box' greeting' record'
      cases box.symm.trans box'
      cases greeting.symm.trans greeting'
      cases record.symm.trans record'
      exact opened
    obtain ⟨t, run, ⟨discriminates, code, timer⟩, ⟨fax, modem⟩, ⟨script, activity, step, beep⟩, same⟩ :=
      exec_answerDelayExpiry_of_no_play q config state held expired here onlyOpened
    exact ⟨t, run, ⟨discriminates, code, timer⟩, fax, modem, script, activity, step, beep, same⟩
  case played =>
    have plays := enterDiscriminating_of_greeting config here ready box greeting record closed kind alone long some_block
    have atU : (s.modCtx k answering).at k = answering (s.at k) := at_modCtx ..
    have context := plays.context
    rw [atU] at context
    refine ⟨_, act_of_due s (timerOut_eq_true state held expired) (quiet_of_rau q plays.rau), ?_, ?_, ?_, plays.decoder.1,
      plays.decoder.2.1, plays.clc⟩
    · dsimp only
      rw [context]
      exact ⟨rfl, rfl, rfl⟩
    · rw [context]
      rfl
    · rw [context]
      rfl
  case noted =>
    have ends : discriminationTimeOver k s = setTimer k none s := if_neg early
    refine (act_of_due s (timerOut_eq_true state held expired) (by rw [ends]; exact q)).trans (congrArg _ ends)
  case voice =>
    have ends : discriminationTimeOver k s = discriminationEnds k s := if_pos done
    have decides := decidedVoice_of_accepted config rfl here script accepted
    rw [← ends] at decides
    obtain ⟨⟨connected, session, timer⟩, ⟨activity, answer, blocks⟩, recording, message, clc, rau⟩ := decides
    exact ⟨_, act_of_due s (timerOut_eq_true state held expired) (quiet_of_rau q rau), connected, session, timer, activity, answer,
      blocks, recording, message, clc⟩
  case refused =>
    have ends : discriminationTimeOver k s = discriminationEnds k s := if_pos done
    obtain ⟨reports, x, record⟩ := decided_of_refused config here script refused
    rw [← ends] at reports record
    exact ⟨_, act_of_due s (timerOut_eq_true state held expired) (reports.quiet q), by rw [record]; rfl, by rw [record]; rfl,
      by rw [record]; rfl, reports.msc⟩
  case beepOver =>
    have due : (standsIn s k .discriminating && (s.at k).voice.activity == .beeping && (s.at k).voice.beep == some 0) = true := by
      simp [standsIn, state, held, beeps, expired]
    exact (act_of_due s due (by rw [beepEnds_of_running running]; exact q)).trans (congrArg _ (beepEnds_of_running running))
  case beepVoice =>
    have due : (standsIn s k .discriminating && (s.at k).voice.activity == .beeping && (s.at k).voice.beep == some 0) = true := by
      simp [standsIn, state, held, beeps, expired]
    let u := s.modVoice k fun v => { v with activity := .none, step := some .record, beep := none }
    have atU : u.at k = { s.at k with voice := { (s.at k).voice with activity := .none, step := some .record, beep := none } } := at_modCtx ..
    have decides := decidedVoice_of_accepted (s := u) (k := k) config (mailbox := mb) (by rw [atU]) here (by rw [atU]; exact script) accepted
    rw [← beepEnds_of_done done] at decides
    obtain ⟨⟨connected, session, timer⟩, ⟨activity, answer, blocks⟩, recording, message, clc, rau⟩ := decides
    exact ⟨_, act_of_due s due (quiet_of_rau (s := u) q rau), connected, session, timer, activity, answer, blocks, recording, message,
      clc.trans (sendEvent_clc_congr _ _ rfl rfl)⟩

end Sys2Proof.Machine
end

section
/-! PROOFS. The family of the Tone Detector Bank: the runs of a detector block, and its reports at the context (R76, R83, R85 to
R88). -/
namespace Sys2Proof.Machine

/-! ### Runs (R86, R87, R88) -/

theorem digitStep_first {d : Detector} (x : Digit) (noRun : d.digitRun = none) :
    digitStep (some x) 3 d = ({ d with digitRun := some (x, 1), absent := 0 }, none) := by
  simp [digitStep, noRun]

theorem digitStep_second {d : Detector} {x : Digit} (run : d.digitRun = some (x, 1)) :
    digitStep (some x) 3 d = ({ d with digitRun := some (x, 2), absent := 0 }, none) := by
  simp [digitStep, run]

theorem digitStep_third {d : Detector} {x : Digit} (armed : d.armed = true) (run : d.digitRun = some (x, 2)) :
    digitStep (some x) 3 d = ({ d with digitRun := some (x, 3), absent := 0, armed := false }, some x) := by
  simp [digitStep, run, armed]

theorem digitStep_unarmed (x : Digit) {d : Detector} (unarmed : d.armed = false) :
    (digitStep (some x) 3 d).2 = none ∧ (digitStep (some x) 3 d).1.armed = false ∧ (digitStep (some x) 3 d).1.absent = 0 := by
  simp [digitStep, unarmed]

theorem digitStep_absent (d : Detector) : digitStep none 3 d
    = ({ d with digitRun := none, absent := min 2 (d.absent + 1), armed := d.armed || min 2 (d.absent + 1) == 2 }, none) := rfl

/-- R86: the report in the third block, the silence after it, and the arming after two blocks without a digit. -/
theorem digit_reported_once (d : Detector) (x : Digit) (armed : d.armed = true) (noRun : d.digitRun = none) :
    let one := digitStep (some x) 3 d
    let two := digitStep (some x) 3 one.1
    let three := digitStep (some x) 3 two.1
    let more := digitStep (some x) 3 three.1
    let gap := digitStep none 3 more.1
    let again := digitStep (some x) 3 (digitStep (some x) 3 (digitStep (some x) 3 gap.1).1).1
    one.2 = none ∧ two.2 = none ∧ three.2 = some x ∧ more.2 = none ∧ gap.2 = none ∧ again.2 = none
      ∧ (digitStep none 3 gap.1).1.armed = true := by
  intro one two three more gap again
  have first : one = _ := digitStep_first x noRun
  have second : two = _ := digitStep_second (d := one.1) (by rw [first])
  have third : three = _ := digitStep_third (d := two.1) (by rw [second, first]; exact armed) (by rw [second])
  obtain ⟨silent, unarmed, absent⟩ := digitStep_unarmed x (d := three.1) (by rw [third])
  have still : gap.1.armed = false := by
    rw [show gap = _ from digitStep_absent more.1]
    simp [unarmed, absent, show more = digitStep (some x) 3 three.1 from rfl]
  obtain ⟨_, unarmed1, _⟩ := digitStep_unarmed x still
  obtain ⟨_, unarmed2, _⟩ := digitStep_unarmed x unarmed1
  refine ⟨by rw [first], by rw [second], by rw [third], silent, rfl, (digitStep_unarmed x unarmed2).1, ?_⟩
  rw [digitStep_absent, show gap = _ from digitStep_absent more.1]
  simp [absent, show more = digitStep (some x) 3 three.1 from rfl]

theorem progressIn_iff (m : Measurement) : progressIn m = true ↔ 3 * m.totalPower ≤ 4 * m.bandPower ∧ -350 ≤ m.level := by
  simp [progressIn]

theorem toneIn_iff {nominal tolerance : Nat} (m : Measurement) (wide : tolerance ≤ nominal) : toneIn nominal tolerance m = true
    ↔ ∃ x ∈ m.lines, nominal - tolerance ≤ x.freq ∧ x.freq ≤ nominal + tolerance ∧ -400 ≤ x.level := by
  have near (f : Nat) : max nominal f - min nominal f ≤ tolerance ↔ nominal - tolerance ≤ f ∧ f ≤ nominal + tolerance := by omega
  simp [toneIn, near, and_assoc]

theorem within_iff (lo hi n : Nat) : within lo hi n = true ↔ lo ≤ n ∧ n ≤ hi := by simp [within]

theorem cadence_eq (lo hi on off cycles : Nat) : cadence lo hi on off cycles
    = if lo ≤ on ∧ on ≤ hi ∧ lo ≤ off ∧ off ≤ hi then (if 1 ≤ cycles then (0, true) else (cycles + 1, false)) else (0, false) := by
  simp only [cadence, Bool.and_eq_true, within_iff, and_assoc]

/-- R87: the end of an OFF run, by the two cadences. -/
theorem progressStep_of_begin {d : Detector} (off : d.progressOn = false) : progressStep true d
    = ({ d with progressOn := true, progressRun := 1, dialReported := false, ringback := false
                busyCycles := (cadence 24 36 d.lastOn d.progressRun d.busyCycles).1
                reorderCycles := (cadence 11 19 d.lastOn d.progressRun d.reorderCycles).1 },
        (if (cadence 24 36 d.lastOn d.progressRun d.busyCycles).2 then [Report.busy] else [])
          ++ (if (cadence 11 19 d.lastOn d.progressRun d.reorderCycles).2 then [Report.reorder] else [])) := by
  simp [progressStep, off]

theorem cadence_reports_iff (lo hi on off cycles : Nat) : (cadence lo hi on off cycles).2 = true
    ↔ (lo ≤ on ∧ on ≤ hi ∧ lo ≤ off ∧ off ≤ hi) ∧ 1 ≤ cycles := by
  rw [cadence_eq]
  split
  · next inside =>
    split
    · next enough => simp [inside, enough]
    · next few => simp [few]
  · next outside => simp [outside]

theorem cadence_cycles (lo hi on off cycles : Nat) : (cadence lo hi on off cycles).1
    = if (lo ≤ on ∧ on ≤ hi ∧ lo ≤ off ∧ off ≤ hi) ∧ cycles = 0 then 1 else 0 := by
  rw [cadence_eq]
  split
  · next inside =>
    split
    · next enough => rw [if_neg (by omega)]
    · next few => rw [if_pos ⟨inside, by omega⟩]; omega
  · next outside => rw [if_neg fun h => outside h.1]

theorem eq_of_mem_if {α : Type} {p : Prop} [Decidable p] {a r : α} (mem : r ∈ if p then [a] else []) : r = a := by
  split at mem
  · exact List.mem_singleton.mp mem
  · cases mem

/-- R87: the run of a call-progress tone, its reports and its cadences. -/
theorem progress_reported (d : Detector) :
    let on := progressStep true d
    let off := progressStep false d
    let cycle (lo hi : Nat) : Prop :=
      lo ≤ d.lastOn ∧ d.lastOn ≤ hi ∧ lo ≤ d.progressRun ∧ d.progressRun ≤ hi
    (d.progressOn = true → on.1.progressRun = min 255 (d.progressRun + 1)
      ∧ on.2 = (if 49 ≤ d.progressRun ∧ d.dialReported = false then [.dialTone] else [])
      ∧ (49 ≤ d.progressRun → on.1.dialReported = true)
      ∧ off.2 = [] ∧ off.1.progressOn = false ∧ off.1.progressRun = 1 ∧ off.1.lastOn = d.progressRun
      ∧ (off.1.ringback = true ↔ 50 ≤ d.progressRun))
    ∧ (d.progressOn = false → on.1.progressOn = true ∧ on.1.progressRun = 1 ∧ on.1.dialReported = false
      ∧ (Report.busy ∈ on.2 ↔ cycle 24 36 ∧ 1 ≤ d.busyCycles)
      ∧ (Report.reorder ∈ on.2 ↔ cycle 11 19 ∧ 1 ≤ d.reorderCycles)
      ∧ on.1.busyCycles = (if cycle 24 36 ∧ d.busyCycles = 0 then 1 else 0)
      ∧ on.1.reorderCycles = (if cycle 11 19 ∧ d.reorderCycles = 0 then 1 else 0)
      ∧ off.1.progressRun = min 255 (d.progressRun + 1)
      ∧ off.2 = if d.ringback = true ∧ 99 ≤ d.progressRun then [.ringback] else []) := by
  intro on off cycle
  constructor
  · intro running
    have longRun : 50 ≤ min 255 (d.progressRun + 1) ↔ 49 ≤ d.progressRun := by omega
    have onEq : on = _ := show progressStep true d = _ by simp only [progressStep, running, if_true]; rfl
    have offEq : off = _ := show progressStep false d = _ by simp only [progressStep, running, if_true, Bool.false_eq_true, if_false]; rfl
    rw [onEq, offEq]
    refine ⟨rfl, ?_, fun enough => ?_, rfl, rfl, rfl, rfl, by simp⟩
    · simp [longRun]
    · simp [longRun, enough]
  · intro silent
    have longRun : 100 ≤ min 255 (d.progressRun + 1) ↔ 99 ≤ d.progressRun := by omega
    have offEq : off = _ := show progressStep false d = _ by simp only [progressStep, silent, Bool.false_eq_true, if_false]; rfl
    rw [show on = _ from progressStep_of_begin silent, offEq]
    refine ⟨rfl, rfl, rfl, ?_, ?_, cadence_cycles .., cadence_cycles .., rfl, by simp [longRun]⟩
    · rw [← cadence_reports_iff, List.mem_append]
      simp
    · rw [← cadence_reports_iff, List.mem_append]
      simp

/-- R88: the run of a calling tone and its one report. -/
theorem tone_reported_once (n : Nat) (reported : Bool) : (toneStep false n reported) = (0, false, false)
    ∧ (toneStep true n reported).1 = min 25 (n + 1)
    ∧ ((toneStep true n reported).2.2 = true ↔ 24 ≤ n ∧ reported = false)
    ∧ (24 ≤ n → (toneStep true n reported).2.1 = true) := by
  have full : min 25 (n + 1) = 25 ↔ 24 ≤ n := by omega
  refine ⟨rfl, rfl, by simp [toneStep, full], fun enough => ?_⟩
  simp [toneStep, full.mpr enough]

/-! ### A block with its reports (R85) -/

/-- The detector at the end of a block, before its runs. -/
def blockTaken (d : Detector) : Detector :=
  { d with gathered := d.gathered.drop detectorBlock, levelSum := blockSum (d.gathered.take detectorBlock) }

/-- The digit's part of a block. -/
def digitPart (length : Nat) (m : Measurement) (d : Detector) : Detector × Option Digit := digitStep (digitIn m) length (blockTaken d)

/-- The progress tone's part of a block. -/
def progressPart (length : Nat) (m : Measurement) (d : Detector) : Detector × List Report :=
  progressStep (progressIn m) (digitPart length m d).1

/-- The reports of the calling tones and of the energy of a block. -/
def callingReports (length : Nat) (m : Measurement) (d : Detector) : List Report :=
  (if (toneStep (toneIn 11000 380 m) (progressPart length m d).1.faxRun (progressPart length m d).1.faxReported).2.2
    then [Report.faxCall] else [])
  ++ (if (toneStep (toneIn 13000 260 m) (progressPart length m d).1.modemRun (progressPart length m d).1.modemReported).2.2
    then [Report.modemCall] else [])
  ++ [.energy (64 * detectorBlock < blockSum (d.gathered.take detectorBlock))]

theorem detectorStep_reports (length : Nat) (m : Measurement) (d : Detector) : (detectorStep length m d).2
    = ((digitPart length m d).2.map Report.digit).toList ++ ((progressPart length m d).2 ++ callingReports length m d) := by
  simp only [callingReports, ← List.append_assoc]
  rfl

/-- What a digit's part leaves of the other runs. -/
theorem digitStep_others (digit : Option Digit) (length : Nat) (d : Detector) : ∃ run absent armed,
    (digitStep digit length d).1 = { d with digitRun := run, absent, armed } := by
  unfold digitStep
  dsimp only
  repeat' split
  all_goals exact ⟨_, _, _, rfl⟩

/-- What the progress tone's part leaves of the calling tones. -/
theorem progressStep_tones (present : Bool) (d : Detector) : (progressStep present d).1.faxRun = d.faxRun
    ∧ (progressStep present d).1.modemRun = d.modemRun ∧ (progressStep present d).1.faxReported = d.faxReported
    ∧ (progressStep present d).1.modemReported = d.modemReported := by
  unfold progressStep
  split
  · split
    · exact ⟨rfl, rfl, rfl, rfl⟩
    · exact ⟨rfl, rfl, rfl, rfl⟩
  · split
    · exact ⟨rfl, rfl, rfl, rfl⟩
    · exact ⟨rfl, rfl, rfl, rfl⟩

theorem progressStep_kinds {present : Bool} {d : Detector} {r : Report} (mem : r ∈ (progressStep present d).2) :
    r ∈ [Report.dialTone, .busy, .reorder, .ringback] := by
  unfold progressStep at mem
  split at mem
  · split at mem
    · simp [eq_of_mem_if mem]
    · rcases List.mem_append.mp mem with busy | reorder
      · simp [eq_of_mem_if busy]
      · simp [eq_of_mem_if reorder]
  · split at mem
    · cases mem
    · simp [eq_of_mem_if mem]

theorem forEach_append {α : Type} (xs ys : List α) (f : α → State → State) (s : State) :
    forEach (xs ++ ys) f s = forEach ys f (forEach xs f s) := List.foldl_append

theorem forEach_singleton {α : Type} (x : α) (f : α → State → State) (s : State) : forEach [x] f s = f x s := rfl

/-- The reports of a progress tone change nothing in a state that they do not concern. -/
theorem takeReport_of_progress {s : State} {k : ContextId} {listening : Bool} {r : Report} (kind : r ∈ [Report.dialTone, .busy, .reorder, .ringback])
    (notDialling : (s.at k).state ≠ .dialling) (notProgress : (s.at k).state ≠ .progress) : takeReport k listening r s = s := by
  have tone (cause : Byte) : takeTone k cause s = s := by
    unfold takeTone
    split
    · next dialling => exact absurd dialling notDialling
    · next progress => exact absurd progress notProgress
    · rfl
  simp only [List.mem_cons, List.not_mem_nil, or_false] at kind
  rcases kind with rfl | rfl | rfl | rfl
  · exact if_neg notDialling
  · exact tone _
  · exact tone _
  · rfl

theorem takeReport_of_fax {s : State} {k : ContextId} {listening : Bool}
    (no : listening = false ∨ (s.at k).state ≠ .discriminating ∨ (configOf s).faxAllowed = false) : takeReport k listening .faxCall s = s := by
  have skips : ¬ (listening && (s.at k).state = .discriminating && (configOf s).faxAllowed) = true := by
    rcases no with no | no | no <;> simp [no]
  exact if_neg skips

theorem takeReport_of_modem {s : State} {k : ContextId} {listening : Bool}
    (no : listening = false ∨ (s.at k).state ≠ .discriminating ∨ (configOf s).dataAllowed = false) :
    takeReport k listening .modemCall s = s := by
  have skips : ¬ (listening && (s.at k).state = .discriminating && (configOf s).dataAllowed) = true := by
    rcases no with no | no | no <;> simp [no]
  exact if_neg skips

theorem takeReport_of_energy {s : State} {k : ContextId} {listening active : Bool}
    (no : (s.at k).state ≠ .connected ∨ (s.at k).session ≠ .voice) : takeReport k listening (.energy active) s = s := by
  have skips : ¬ (active && (s.at k).state = .connected && (s.at k).session = .voice && (s.at k).voice.activity = .waiting) = true := by
    rcases no with no | no <;> simp [no]
  exact if_neg skips

/-- A context outside a session, outside dialling and outside discrimination. -/
structure Unheard (x : Context) : Prop where
  dialling : x.state ≠ .dialling
  progress : x.state ≠ .progress
  session : x.state ≠ .connected

theorem takeReport_of_unheard {s : State} {k : ContextId} {r : Report} (unheard : Unheard (s.at k)) (notDigit : ∀ d, r ≠ .digit d) :
    takeReport k false r s = s := by
  cases r with
  | digit d => exact absurd rfl (notDigit d)
  | faxCall => exact takeReport_of_fax (Or.inl rfl)
  | modemCall => exact takeReport_of_modem (Or.inl rfl)
  | energy active => exact takeReport_of_energy (Or.inl unheard.session)
  | dialTone => exact takeReport_of_progress (by simp) unheard.dialling unheard.progress
  | busy => exact takeReport_of_progress (by simp) unheard.dialling unheard.progress
  | reorder => exact takeReport_of_progress (by simp) unheard.dialling unheard.progress
  | ringback => exact takeReport_of_progress (by simp) unheard.dialling unheard.progress

/-! ### The end of a block at the context (R85) -/

theorem detectorBlockEnd_acts {s : State} {k : ContextId} {ch : Channel} {m : Measurement} (held : (s.at k).held = false)
    (channel : (s.at k).channel = some ch) (view : (s.entry ch).view = .self k) (going : (s.at k).detector.stopped = false)
    (whole : 128 ≤ (s.at k).detector.gathered.length) (call : inCall (s.at k) = true) :
    exec (.detectorBlockEnd k m) s = .next (settle (detectorBlockEnds k m s)) := by
  have holding : holdsAny s k = true := by simp [holdsAny, holds, channel, view]
  have active : (detectorActive s k && decide (detectorBlock ≤ (s.at k).detector.gathered.length)) = true := by
    simp [detectorActive, holding, call, held, going, detectorBlock, whole]
  have acts : exec (.detectorBlockEnd k m) s
      = act (detectorActive s k && decide (detectorBlock ≤ (s.at k).detector.gathered.length)) (detectorBlockEnds k m s) s := rfl
  rw [acts, active, act_of_true]

/-- R86: the report length of a context that neither plays nor beeps. -/
theorem reportLength_of_other {x : Context} (playing : x.voice.activity ≠ .playing) (beeping : x.voice.activity ≠ .beeping) :
    reportLength x = 3 := by simp [reportLength, playing, beeping]

/-- Of a block's reports the first alone can be a digit. -/
theorem not_digit_of_later {length : Nat} {m : Measurement} {d : Detector} {r : Report}
    (mem : r ∈ (progressPart length m d).2 ++ callingReports length m d) : ∀ x, r ≠ .digit x := by
  intro x digit
  subst digit
  rcases List.mem_append.mp mem with progress | calling
  · have := progressStep_kinds progress
    simp at this
  · rcases List.mem_append.mp calling with tones | energy
    · rcases List.mem_append.mp tones with fax | modem
      · cases eq_of_mem_if fax
      · cases eq_of_mem_if modem
    · cases List.mem_singleton.mp energy

/-- R85: a block at a context that hears nothing but digits changes its detector, and what its digit does. -/
theorem detectorBlockEnds_of_unheard {s t : State} {k : ContextId} {m : Measurement} (length : reportLength (s.at k) = 3)
    (quietState : (s.at k).state ≠ .discriminating)
    (digits : forEach ((digitPart 3 m (s.at k).detector).2.map Report.digit).toList (takeReport k false)
      (s.modDetector k fun _ => (detectorStep 3 m (s.at k).detector).1) = t)
    (unheard : Unheard (t.at k)) : detectorBlockEnds k m s = t := by
  have notListening : ((s.at k).state == .discriminating) = false := by simpa using quietState
  simp only [detectorBlockEnds, length, notListening]
  rw [detectorStep_reports, forEach_append, digits]
  exact forEach_of_standing fun r mem => takeReport_of_unheard unheard (not_digit_of_later mem)

/-- R86: the third block of a digit's run. -/
theorem digitPart_of_third {m : Measurement} {d : Detector} {x : Digit} (digit : digitIn m = some x) (armed : d.armed = true)
    (run : d.digitRun = some (x, 2)) : (digitPart 3 m d).2 = some x := by
  rw [digitPart, digit, digitStep_third (d := blockTaken d) armed run]

theorem takeDigit_of_answering {s : State} {k : ContextId} (x : Digit) (state : (s.at k).state = .answering) : takeDigit k x s = s := by
  simp only [takeDigit, state]

theorem takeDigit_of_progress {s : State} {k : ContextId} (x : Digit) (state : (s.at k).state = .progress) : takeDigit k x s = s := by
  simp only [takeDigit, state]

/-- R74: an address digit that is not the last. -/
theorem takeDigit_of_addressing {s : State} {k : ContextId} {x : Digit} (state : (s.at k).state = .addressing) (decimal : x.val < 10)
    (more : (s.at k).digits.length + 1 < (configOf s).addressDigits) :
    takeDigit k x s = s.modCtx k fun y => { y with digits := y.digits ++ [x] } := by
  have notAbove : ¬ 10 ≤ x.val := by omega
  have digits : ((s.modCtx k fun y => { y with digits := y.digits ++ [x] }).at k).digits = (s.at k).digits ++ [x] := by
    rw [at_modCtx]
  have config : configOf (s.modCtx k fun y => { y with digits := y.digits ++ [x] }) = configOf s := rfl
  have notLast : ¬ (configOf s).addressDigits ≤ ((s.at k).digits ++ [x]).length := by
    rw [List.length_append, List.length_singleton]
    omega
  simp only [takeDigit, state, takeAddressDigit, notAbove, if_false, digits, config, notLast]

/-- Digits that a state does not concern. -/
theorem digits_standing {s : State} {k : ContextId} {listening : Bool} (digit : Option Digit) (same : ∀ x, takeDigit k x s = s) :
    forEach (digit.map Report.digit).toList (takeReport k listening) s = s := by
  cases digit with
  | none => rfl
  | some x => exact same x

/-! ### BUSY and MODEM_CALL (R76, R83) -/

theorem digitPart_others (length : Nat) (m : Measurement) (d : Detector) : ∃ run absent armed,
    (digitPart length m d).1 = { blockTaken d with digitRun := run, absent, armed } := digitStep_others ..

/-- R87: the second busy cycle in a row. -/
theorem progressPart_of_busy {m : Measurement} {d : Detector} (length : Nat) (tone : progressIn m = true) (off : d.progressOn = false)
    (lastLow : 24 ≤ d.lastOn) (lastHigh : d.lastOn ≤ 36) (runLow : 24 ≤ d.progressRun) (runHigh : d.progressRun ≤ 36)
    (cycles : d.busyCycles = 1) : (progressPart length m d).2 = [.busy] := by
  obtain ⟨run, absent, armed, others⟩ := digitPart_others length m d
  have busy : (cadence 24 36 d.lastOn d.progressRun d.busyCycles).2 = true :=
    (cadence_reports_iff ..).mpr ⟨⟨lastLow, lastHigh, runLow, runHigh⟩, by omega⟩
  have noReorder : (cadence 11 19 d.lastOn d.progressRun d.reorderCycles).2 = false := by
    rw [Bool.eq_false_iff, ne_eq, cadence_reports_iff]
    omega
  rw [progressPart, tone, others, progressStep_of_begin (by exact off)]
  simp [blockTaken, busy, noReorder]

/-- R83: BUSY in PROGRESS ends the call, and the block's later reports find it in CLEARING. -/
theorem detectorBlockEnds_of_busy {s : State} {k : ContextId} {m : Measurement} (state : (s.at k).state = .progress)
    (busy : (progressPart (reportLength (s.at k)) m (s.at k).detector).2 = [.busy]) : detectorBlockEnds k m s
      = endCall k codeCallBusy (s.modDetector k fun _ => (detectorStep (reportLength (s.at k)) m (s.at k).detector).1) := by
  let u := s.modDetector k fun _ => (detectorStep (reportLength (s.at k)) m (s.at k).detector).1
  have progress : (u.at k).state = .progress := (congrArg Context.state (at_modCtx ..)).trans state
  have call : inCall (u.at k) = true := by rw [inCall, progress]
  have notListening : ((s.at k).state == .discriminating) = false := by rw [state]; rfl
  obtain ⟨x, cleared, _⟩ := at_endCall_of_clears (cause := codeCallBusy) rfl call
  have unheard : Unheard ((endCall k codeCallBusy u).at k) := by
    rw [cleared]
    exact ⟨nofun, nofun, nofun⟩
  have ended : takeReport k false .busy u = endCall k codeCallBusy u := by
    simp only [takeReport, takeTone, progress]
  simp only [detectorBlockEnds, notListening]
  rw [detectorStep_reports, forEach_append, digits_standing _ (fun x => takeDigit_of_progress x progress), busy, forEach_append,
    forEach_singleton, ended]
  exact forEach_of_standing fun r mem => takeReport_of_unheard unheard (not_digit_of_later (List.mem_append_right _ mem))

/-- R88: the twenty-fifth block of a modem's calling tone, and no fax's that the context would take. -/
theorem detectorBlockEnds_of_modem {s : State} {k : ContextId} {g : ConfigRecord} {m : Measurement} (config : s.cfu.config = some g)
    (allowed : g.dataAllowed = true) (state : (s.at k).state = .discriminating) (beeps : (s.at k).voice.activity = .beeping)
    (noDigit : digitIn m = none) (modem : toneIn 13000 260 m = true) (run : (s.at k).detector.modemRun = 24)
    (fresh : (s.at k).detector.modemReported = false) (noFax : toneIn 11000 380 m = false ∨ g.faxAllowed = false) :
    detectorBlockEnds k m s = decideData k (s.modDetector k fun _ => (detectorStep 4 m (s.at k).detector).1) := by
  let u := s.modDetector k fun _ => (detectorStep 4 m (s.at k).detector).1
  have record : u.at k = { s.at k with detector := (detectorStep 4 m (s.at k).detector).1 } := at_modCtx ..
  have listens : (u.at k).state = .discriminating := by rw [record]; exact state
  have config' : configOf u = g := configOf_eq config
  have length : reportLength (s.at k) = 4 := by simp [reportLength, beeps]
  have listening : ((s.at k).state == .discriminating) = true := by rw [state]; rfl
  have silent : (digitPart 4 m (s.at k).detector).2 = none := by rw [digitPart, noDigit]; rfl
  obtain ⟨_, _, _, others⟩ := digitPart_others 4 m (s.at k).detector
  obtain ⟨_, modemRun, _, modemReported⟩ := progressStep_tones (progressIn m) (digitPart 4 m (s.at k).detector).1
  have reports : (toneStep (toneIn 13000 260 m) (progressPart 4 m (s.at k).detector).1.modemRun (progressPart 4 m (s.at k).detector).1.modemReported).2.2 = true := by
    rw [modem]
    refine ((tone_reported_once _ _).2.2.1).mpr ⟨?_, ?_⟩
    · rw [progressPart, modemRun, others]
      exact run.ge
    · rw [progressPart, modemReported, others]
      exact fresh
  have progressStands : forEach (progressPart 4 m (s.at k).detector).2 (takeReport k true) u = u := forEach_of_standing fun r mem =>
    takeReport_of_progress (progressStep_kinds mem) (by rw [listens]; decide) (by rw [listens]; decide)
  have faxStands : forEach (if (toneStep (toneIn 11000 380 m) (progressPart 4 m (s.at k).detector).1.faxRun (progressPart 4 m (s.at k).detector).1.faxReported).2.2
      then [Report.faxCall] else []) (takeReport k true) u = u := by
    rcases noFax with absent | refused
    · rw [absent]
      rfl
    · refine forEach_of_standing fun r mem => ?_
      rw [eq_of_mem_if mem]
      exact takeReport_of_fax (Or.inr (Or.inr (by rw [config']; exact refused)))
  have decides : takeReport k true .modemCall u = decideData k u := by
    have takes : (true && decide ((u.at k).state = .discriminating) && (configOf u).dataAllowed) = true := by
      simp [listens, config', allowed]
    exact if_pos takes
  have inData : ((decideData k u).at k).session = .data := by
    rw [decideData, startData_eq, at_modCtx]
    rfl
  simp only [detectorBlockEnds, length, listening]
  rw [detectorStep_reports, silent]
  simp only [Option.map_none, Option.toList_none, List.nil_append, callingReports, reports, if_true, forEach_append]
  rw [progressStands, faxStands, forEach_singleton, forEach_singleton, decides]
  exact takeReport_of_energy (Or.inr (by rw [inData]; decide))

theorem stopGreeting_of_beeping {s : State} {k : ContextId} (beeps : (s.at k).voice.activity = .beeping) : stopGreeting k s = s := by
  simp only [stopGreeting, beeps]

/-- R76: the decision DATA of a context that beeps. -/
theorem decideData_of_beeping {s : State} {k : ContextId} {g : ConfigRecord} (config : s.cfu.config = some g)
    (beeps : (s.at k).voice.activity = .beeping) : decideData k s
      = (sendEvent (some k) (.callType 2) s).modCtx k (dataEntered .answer (g.rateMin, g.rateMax)) := by
  have config' : configOf (sendEvent (some k) (.callType 2) s) = g :=
    configOf_eq (by rw [(storeOnly_sendEvent (some k) (.callType 2) s).cfu]; exact config)
  simp only [decideData, stopGreeting_of_beeping beeps, config', startData_eq]

/-- Settles O52: the runs of a digit, of a progress tone and of a calling tone, and the reports that a context takes. -/
theorem detectorReportsDigits : Obligations.DetectorReportsDigits := by
  refine ⟨digit_reported_once, fun m => ⟨progressIn_iff m, toneIn_iff m (by decide), toneIn_iff m (by decide)⟩, progress_reported,
    tone_reported_once, ?_⟩
  intro s k m ch q held channel view going whole d heard
  let u := s.modDetector k fun _ => heard
  have record : u.at k = { s.at k with detector := heard } := at_modCtx ..
  refine ⟨fun state silent => ?answering, fun x state silent decimal digit armed run more => ?addressing,
    fun o state tone off lastLow lastHigh runLow runHigh cycles outgoing request undone => ?busy,
    fun g config allowed state beeps noDigit modem run fresh noFax => ?modem⟩
  case answering =>
    have call : inCall (s.at k) = true := by rw [inCall, state]
    have ends : detectorBlockEnds k m s = u := by
      refine detectorBlockEnds_of_unheard (reportLength_of_other (by rw [silent]; decide) (by rw [silent]; decide))
        (by rw [state]; decide) (digits_standing _ fun x => takeDigit_of_answering x (by rw [record]; exact state)) ?_
      rw [record]
      exact ⟨by rw [state]; decide, by rw [state]; decide, by rw [state]; decide⟩
    rw [detectorBlockEnd_acts held channel view going whole call, ends, settle_quiet (s := u) q]
    rfl
  case addressing =>
    have call : inCall (s.at k) = true := by rw [inCall, state]
    let t := s.modCtx k fun y => { y with detector := heard, digits := y.digits ++ [x] }
    have added : takeDigit k x u = t := by
      refine (takeDigit_of_addressing (by rw [record]; exact state) decimal (by rw [record]; exact more)).trans ?_
      exact modCtx_modCtx ..
    have ends : detectorBlockEnds k m s = t := by
      refine detectorBlockEnds_of_unheard (reportLength_of_other (by rw [silent]; decide) (by rw [silent]; decide))
        (by rw [state]; decide) (by rw [digitPart_of_third digit armed run]; exact added) ?_
      rw [show t.at k = _ from at_modCtx ..]
      exact ⟨by rw [state]; decide, by rw [state]; decide, by rw [state]; decide⟩
    rw [detectorBlockEnd_acts held channel view going whole call, ends, settle_quiet (s := t) q]
    rfl
  case busy =>
    let v := s.modDetector k fun _ => (detectorStep (reportLength (s.at k)) m d).1
    have atV : v.at k = { s.at k with detector := (detectorStep (reportLength (s.at k)) m d).1 } := at_modCtx ..
    have progress : (v.at k).state = .progress := by rw [atV]; exact state
    have ends := detectorBlockEnds_of_busy state (progressPart_of_busy _ tone off lastLow lastHigh runLow runHigh cycles)
    have callNow : inCall (v.at k) = true := by rw [inCall, progress]
    have silent : Silent (v.at k) := ⟨by rw [progress]; decide, fun connected => absurd (progress.symm.trans connected) (by decide)⟩
    have reports := reports_endCall_of_silent (cause := codeCallBusy) rfl callNow silent
    have quiet : (endCall k codeCallBusy v).Quiet := quiet_of_rau (s := v) q reports.rau
    obtain ⟨⟨x, atK, _⟩, others⟩ := at_settle_endCall (cause := codeCallBusy) q (Apart.refl k s).modCtx rfl callNow
    have cleared : (settle (endCall k codeCallBusy v)).at k = clearingRecord x := atK
    have clc := endCall_clc_of_request (o := o) (ch := ch) (cause := codeCallBusy) rfl callNow silent (by rw [atV]; exact outgoing)
      (by rw [atV]; exact request) (by rw [atV]; exact undone) (by rw [atV]; exact channel)
    refine ⟨settle (endCall k codeCallBusy v), (detectorBlockEnd_acts held channel view going whole (by rw [inCall, state])).trans
      (congrArg (fun t => Host.Outcome.next (settle t)) ends), ?_, ?_, ?_, others, ?_⟩
    · rw [cleared]
      rfl
    · rw [cleared]
      rfl
    · rw [cleared]
      rfl
    · rw [settle_quiet quiet, clc]
      have first := sendEvent_congr (k := some k) (e := .outdialDone codeCallBusy o.tag) (s := v) (t := s) rfl rfl
      have second := sendEvent_congr (k := some k) (e := .callEnded codeCallBusy) first.1 first.2
      exact sendRelease_clc_congr ch second.1 second.2
  case modem =>
    let v := s.modDetector k fun _ => (detectorStep 4 m d).1
    have atV : v.at k = { s.at k with detector := (detectorStep 4 m d).1 } := at_modCtx ..
    have ends := (detectorBlockEnds_of_modem config allowed state beeps noDigit modem run fresh noFax).trans
      (decideData_of_beeping (s := v) config (by rw [atV]; exact beeps))
    let t := (sendEvent (some k) (.callType 2) v).modCtx k (dataEntered .answer (g.rateMin, g.rateMax))
    have quiet : t.Quiet := quiet_of_rau (s := v) q (sendEvent_rau ..)
    have atT : t.at k = dataEntered .answer (g.rateMin, g.rateMax) (v.at k) := (at_modCtx ..).trans (congrArg _ (at_sendEvent ..))
    refine ⟨t, (detectorBlockEnd_acts held channel view going whole (by rw [inCall, state])).trans (by rw [ends, settle_quiet quiet]),
      by rw [atT]; rfl, by rw [atT]; rfl, by rw [atT]; rfl, by rw [atT]; rfl, by rw [atT]; rfl, by rw [atT]; rfl, ?_⟩
    exact (SameOff.refl s).modCtx.sendEvent.modCtx

end Sys2Proof.Machine
end

section
/-! PROOFS. What may be told after an operation about one context: what was to be told before, and notices of that
context. -/
namespace Sys2Proof.Machine

/-- The notices of a later state stood before, or are those of one context. -/
def Tells (k : ContextId) (s t : State) : Prop := ∀ x ∈ t.rau.notices, x ∈ s.rau.notices ∨ x.context = k

namespace Tells

variable {k : ContextId} {s0 s t : State}

theorem refl (k : ContextId) (s : State) : Tells k s s := fun _ m => Or.inl m

theorem trans (h : Tells k s0 s) (g : Tells k s t) : Tells k s0 t := fun x m => (g x m).elim (h x) Or.inr

theorem of_notices (same : t.rau.notices = s.rau.notices) : Tells k s t := fun _ m => Or.inl (same ▸ m)

theorem storeOnly (h : Tells k s0 s) (g : StoreOnly s t) : Tells k s0 t := h.trans (of_notices (congrArg Rau.notices g.rau))

theorem nobody : ∀ j ∈ (none : Option ContextId), j = k := fun _ h => nomatch h

theorem own : ∀ j ∈ some k, j = k := fun _ h => (Option.some.inj h).symm

/-- The state of a pair that an operation answers. -/
theorem of_eq {α : Type} {p : State × α} {a : α} (e : p = (t, a)) (h : Tells k s0 p.1) : Tells k s0 t := by
  subst e
  exact h

theorem modClc {f : Clc → Clc} (h : Tells k s0 s) : Tells k s0 (s.modClc f) := h
theorem modMsc {f : Msc → Msc} (h : Tells k s0 s) : Tells k s0 (s.modMsc f) := h
theorem modCtx {j : ContextId} {f : Context → Context} (h : Tells k s0 s) : Tells k s0 (s.modCtx j f) := h
theorem modVoice {f : Voice → Voice} (h : Tells k s0 s) : Tells k s0 (s.modVoice k f) := h
theorem modVcd {f : Vcd → Vcd} (h : Tells k s0 s) : Tells k s0 (s.modVcd k f) := h
theorem modFax {f : Fax → Fax} (h : Tells k s0 s) : Tells k s0 (s.modFax k f) := h
theorem modQmn {f : Qmn → Qmn} (h : Tells k s0 s) : Tells k s0 (s.modQmn k f) := h
theorem modLkc {f : Lkc → Lkc} (h : Tells k s0 s) : Tells k s0 (s.modLkc k f) := h
theorem modPump {f : Pump → Pump} (h : Tells k s0 s) : Tells k s0 (s.modPump k f) := h
theorem modEntry {c : Channel} {f : MapEntry → MapEntry} (h : Tells k s0 s) : Tells k s0 (s.modEntry c f) := h
theorem modChannel {c : Channel} {f : HwiChannel → HwiChannel} (h : Tells k s0 s) : Tells k s0 (s.modChannel c f) := h
theorem setOutbound {j : ContextId} {d : Option OutDeposit} (h : Tells k s0 s) : Tells k s0 (s.setOutbound j d) := h
theorem setFetch {j : ContextId} {f : Option Fetch} (h : Tells k s0 s) : Tells k s0 (s.setFetch j f) := h
theorem setMsgAt {i : Nat} {m : Option Msg} (h : Tells k s0 s) : Tells k s0 (s.setMsgAt i m) :=
  h.storeOnly (storeOnly_setMsgAt i m s)

end Tells

theorem tells_enqueue {s0 s : State} {i : ContextId} {c : Cell} {serial : Nat} (kp : Tells i s0 s) :
    Tells i s0 (enqueue c serial s) :=
  kp.modClc

theorem tells_countUndelivered {s0 s : State} {i : ContextId} (kp : Tells i s0 s) : Tells i s0 (countUndelivered s) :=
  kp.modClc

theorem tells_offerOther {i : ContextId} {s0 s : State} {c : Cell} {serial : Nat} {tellTo : Option ContextId}
    (kp : Tells i s0 s) (ht : ∀ j ∈ tellTo, j = i) : Tells i s0 (offerOther c serial tellTo s) := by
  unfold offerOther
  split
  · exact tells_enqueue kp
  · dsimp only
    split
    · next j =>
      refine (tells_countUndelivered kp).trans fun x added => ?_
      simp only [modRau_rau, List.mem_append, List.mem_singleton] at added
      rcases added with before | rfl
      · exact Or.inl before
      · exact Or.inr (ht j rfl)
    · exact tells_countUndelivered kp

theorem tells_offerStream {s0 s : State} {i : ContextId} {p : StreamProducer} {c : Cell} (kp : Tells i s0 s) :
    Tells i s0 (offerStream p c s).1 := by
  unfold offerStream
  try dsimp only
  repeat' (first
    | with_reducible assumption | with_reducible apply tells_enqueue | with_reducible apply Tells.modClc
    | exact Tells.nobody | exact Tells.own | (refine Tells.of_eq ‹_ = (_, _)› ?_) | (dsimp only) | split)

theorem tells_sendEvent {s0 s : State} {i : ContextId} {k : Option ContextId} {e : Event} (kp : Tells i s0 s) : Tells i s0 (sendEvent k e s) := kp.storeOnly (storeOnly_sendEvent ..)

theorem tells_sendRelease {s0 s : State} {i : ContextId} {c : Channel} (kp : Tells i s0 s) :
    Tells i s0 (sendRelease c s) := by
  unfold sendRelease
  try dsimp only
  repeat' (first
    | with_reducible assumption | with_reducible apply tells_offerOther | exact Tells.nobody)

theorem tells_examineLevel {s0 s : State} {i : ContextId} (kp : Tells i s0 s) : Tells i s0 (examineLevel s) := kp.storeOnly (storeOnly_examineLevel ..)

theorem tells_freeBlocks {s0 s : State} {i : ContextId} {bs : List Nat} (kp : Tells i s0 s) : Tells i s0 (freeBlocks bs s) := kp.storeOnly (storeOnly_freeBlocks ..)

theorem tells_takeFreeBlock {s0 s : State} {i : ContextId} (kp : Tells i s0 s) :
    Tells i s0 (takeFreeBlock s) := by
  unfold takeFreeBlock
  try dsimp only
  repeat' (first
    | with_reducible assumption | with_reducible apply tells_examineLevel | with_reducible apply Tells.modMsc)

theorem tells_setLink {s0 s : State} {i : ContextId} {n : Nat} {v : Option Nat} (kp : Tells i s0 s) : Tells i s0 (setLink n v s) := kp.storeOnly (storeOnly_setLink ..)

theorem tells_modMailbox {s0 s : State} {i : ContextId} {m : Nat} {f : Mbx → Mbx} (kp : Tells i s0 s) :
    Tells i s0 (modMailbox m f s) := by
  unfold modMailbox
  try dsimp only
  repeat' (first
    | with_reducible assumption | with_reducible apply Tells.modMsc)

theorem tells_freeMessage {s0 s : State} {i : ContextId} {h : Nat} (kp : Tells i s0 s) : Tells i s0 (freeMessage h s) := kp.storeOnly (storeOnly_freeMessage ..)

theorem tells_deleteRecord {s0 s : State} {i : ContextId} {h : Nat} (kp : Tells i s0 s) : Tells i s0 (deleteRecord h s) := kp.storeOnly (storeOnly_deleteRecord ..)

theorem tells_deleteMessage {s0 s : State} {i : ContextId} {h : Nat} (kp : Tells i s0 s) : Tells i s0 (deleteMessage h s) := kp.storeOnly (storeOnly_deleteMessage ..)

theorem tells_cutChain {s0 s : State} {i : ContextId} {h : Nat} {n : Nat} (kp : Tells i s0 s) :
    Tells i s0 (cutChain h n s) := by
  unfold cutChain
  try dsimp only
  repeat' (first
    | with_reducible assumption | with_reducible apply tells_setLink | with_reducible apply tells_freeBlocks
    | with_reducible apply Tells.setMsgAt | exact Tells.nobody | exact Tells.own
    | (refine Tells.of_eq ‹_ = (_, _)› ?_) | (dsimp only) | split)

theorem tells_discardMessage {s0 s : State} {i : ContextId} {h : Nat} {m : Msg} (kp : Tells i s0 s) :
    Tells i s0 (discardMessage h m s) := by
  unfold discardMessage
  try dsimp only
  repeat' (first
    | with_reducible assumption | with_reducible apply tells_freeMessage | with_reducible apply tells_modMailbox)

theorem tells_fileMessage {s0 s : State} {i : ContextId} {h : Nat} {m : Msg} (kp : Tells i s0 s) :
    Tells i s0 (fileMessage h m s) := by
  unfold fileMessage
  try dsimp only
  repeat' (first
    | with_reducible assumption | with_reducible apply tells_deleteMessage | with_reducible apply tells_modMailbox
    | exact Tells.nobody | exact Tells.own | (refine Tells.of_eq ‹_ = (_, _)› ?_) | (dsimp only) | split)

theorem tells_closeRecord {s0 s : State} {i : ContextId} {h : Nat} (kp : Tells i s0 s) :
    Tells i s0 (closeRecord h s) := by
  unfold closeRecord
  try dsimp only
  repeat' (first
    | with_reducible assumption | with_reducible apply Tells.setMsgAt | exact Tells.nobody
    | exact Tells.own | (refine Tells.of_eq ‹_ = (_, _)› ?_) | (dsimp only) | split)

theorem tells_closeMessage {s0 s : State} {i : ContextId} {h : Nat} {reason : Byte} (kp : Tells i s0 s) :
    Tells i s0 (closeMessage h reason s).1 := by
  unfold closeMessage
  try dsimp only
  repeat' (first
    | with_reducible assumption | with_reducible apply tells_closeRecord | with_reducible apply tells_fileMessage
    | with_reducible apply tells_discardMessage | with_reducible apply tells_cutChain
    | with_reducible apply tells_sendEvent | with_reducible apply Tells.setMsgAt | exact Tells.nobody
    | exact Tells.own | (refine Tells.of_eq ‹_ = (_, _)› ?_) | (dsimp only) | split)

theorem tells_closeBy {s0 s : State} {i : ContextId} {h : Nat} {w : Writer} {reason : Byte} (kp : Tells i s0 s) :
    Tells i s0 (closeBy h w reason s).1 := by
  unfold closeBy
  try dsimp only
  repeat' (first
    | with_reducible assumption | with_reducible apply tells_closeMessage | exact Tells.nobody | exact Tells.own
    | (refine Tells.of_eq ‹_ = (_, _)› ?_) | (dsimp only) | split)

theorem tells_writeData {s0 s : State} {i : ContextId} {n : Nat} {block : List Byte} (kp : Tells i s0 s) :
    Tells i s0 (writeData n block s) := kp.modMsc

theorem tells_appendBlock {s0 s : State} {i : ContextId} {h : Nat} {w : Writer} {block : List Byte} {samples : Nat} (kp : Tells i s0 s) :
    Tells i s0 (appendBlock h w block samples s).1 := by
  unfold appendBlock
  try dsimp only
  repeat' (first
    | with_reducible assumption | with_reducible apply tells_writeData | with_reducible apply tells_closeMessage | with_reducible apply tells_setLink
    | with_reducible apply tells_takeFreeBlock | with_reducible apply Tells.modMsc
    | with_reducible apply Tells.setMsgAt | exact Tells.nobody | exact Tells.own
    | (refine Tells.of_eq ‹_ = (_, _)› ?_) | (dsimp only) | split)

theorem tells_leaveMessage {s0 s : State} {i : ContextId} {h : Nat} {station : Fin 8} {context : Nat} (kp : Tells i s0 s) :
    Tells i s0 (leaveMessage h station context s) := by
  unfold leaveMessage
  try dsimp only
  repeat' (first
    | with_reducible assumption | with_reducible apply tells_freeMessage | with_reducible apply Tells.setMsgAt
    | exact Tells.nobody | exact Tells.own | (refine Tells.of_eq ‹_ = (_, _)› ?_) | (dsimp only) | split)

theorem tells_releaseHeld {s0 s : State} {i : ContextId} {p : StreamProducer} (kp : Tells i s0 s) :
    Tells i s0 (releaseHeld p s) :=
  kp.modClc

theorem tells_offerFirst {s0 s t : State} {k : ContextId} {d : OutDeposit} {cells : List Cell} (kp : Tells k s0 s)
    (e : depositMove.offerFirst k s d cells = some t) : Tells k s0 t := by
  unfold depositMove.offerFirst at e
  split at e
  · cases e
  · split at e
    · cases e
    · dsimp only at e
      split at e
      · cases e
        exact (tells_offerStream kp).setOutbound
      · cases e
        exact tells_offerStream kp

theorem tells_depositMove {s0 s t : State} {k : ContextId} (kp : Tells k s0 s) (e : depositMove k s = some t) :
    Tells k s0 t := by
  unfold depositMove at e
  repeat' split at e
  all_goals first
    | cases e; done
    | exact tells_offerFirst kp e
    | (cases e; exact kp.setOutbound)
    | (cases e; exact tells_offerOther kp.setOutbound Tells.own)

theorem tells_depositMoves {s0 s : State} {k : ContextId} {n : Nat} (kp : Tells k s0 s) :
    Tells k s0 (depositMoves k n s) := by
  induction n generalizing s with
  | zero => exact kp
  | succ n ih =>
    unfold depositMoves
    split
    · next e => exact ih (tells_depositMove kp e)
    · exact kp

theorem tells_pumpDeposit {s0 s : State} {k : ContextId} (kp : Tells k s0 s) :
    Tells k s0 (pumpDeposit k s) := by
  unfold pumpDeposit
  try dsimp only
  repeat' (first
    | with_reducible assumption | with_reducible apply tells_depositMoves)

theorem tells_handToDeposit {s0 s : State} {k : ContextId} {serial : Nat} {sequence : Option Nat} {block : List Byte} {pageEnd : Bool} {damaged : Bool} (kp : Tells k s0 s) :
    Tells k s0 (handToDeposit k serial sequence block pageEnd damaged s) := by
  unfold handToDeposit
  try dsimp only
  repeat' (first
    | with_reducible assumption | with_reducible apply tells_pumpDeposit | with_reducible apply Tells.setOutbound
    | exact Tells.nobody | exact Tells.own | (refine Tells.of_eq ‹_ = (_, _)› ?_) | (dsimp only) | split)

theorem tells_askClose {s0 s : State} {k : ContextId} {serial : Nat} {ask : CloseAsk} (kp : Tells k s0 s) :
    Tells k s0 (askClose k serial ask s) := by
  unfold askClose
  try dsimp only
  repeat' (first
    | with_reducible assumption | with_reducible apply tells_pumpDeposit | with_reducible apply Tells.setOutbound
    | exact Tells.nobody | exact Tells.own | (refine Tells.of_eq ‹_ = (_, _)› ?_) | (dsimp only) | split)

theorem tells_freeDeposit {s0 s : State} {k : ContextId} (kp : Tells k s0 s) :
    Tells k s0 (freeDeposit k s) := by
  unfold freeDeposit
  try dsimp only
  repeat' (first
    | with_reducible assumption | with_reducible apply tells_releaseHeld | with_reducible apply Tells.setOutbound)

theorem tells_endFetch {s0 s : State} {k : ContextId} (kp : Tells k s0 s) :
    Tells k s0 (endFetch k s) := by
  unfold endFetch
  try dsimp only
  repeat' (first
    | with_reducible assumption | with_reducible apply tells_offerOther | with_reducible apply Tells.setFetch
    | exact Tells.nobody | exact Tells.own | (refine Tells.of_eq ‹_ = (_, _)› ?_) | (dsimp only) | split)

theorem tells_leaveSource {s0 s : State} {k : ContextId} {source : Option Source} (kp : Tells k s0 s) :
    Tells k s0 (leaveSource k source s) := by
  unfold leaveSource
  try dsimp only
  repeat' (first
    | with_reducible assumption | with_reducible apply tells_endFetch | with_reducible apply tells_leaveMessage
    | exact Tells.nobody | exact Tells.own | (refine Tells.of_eq ‹_ = (_, _)› ?_) | (dsimp only) | split)

theorem tells_stopPlayback {s0 s : State} {k : ContextId} (kp : Tells k s0 s) :
    Tells k s0 (stopPlayback k s) := by
  unfold stopPlayback
  try dsimp only
  repeat' (first
    | with_reducible assumption | with_reducible apply tells_leaveSource | with_reducible apply Tells.modVcd)

theorem tells_sendPlayDone {s0 s : State} {k : ContextId} {result : Byte} (kp : Tells k s0 s) :
    Tells k s0 (sendPlayDone k result s) := by
  unfold sendPlayDone
  try dsimp only
  repeat' (first
    | with_reducible assumption | with_reducible apply tells_sendEvent)

theorem tells_sendRecordDone {s0 s : State} {k : ContextId} {home : Nat} {handle : Option Nat} {blocks : Option Nat} {result : Byte} {flags : Option Nat} (kp : Tells k s0 s) :
    Tells k s0 (sendRecordDone k home handle blocks result flags s) := by
  unfold sendRecordDone
  try dsimp only
  repeat' (first
    | with_reducible assumption | with_reducible apply tells_sendEvent)

theorem tells_reportClose {s0 s : State} {k : ContextId} {h : Nat} {result : Byte} {r : CloseReport} (kp : Tells k s0 s) :
    Tells k s0 (reportClose k h result r s) := by
  unfold reportClose
  try dsimp only
  repeat' (first
    | with_reducible assumption | with_reducible apply tells_sendRecordDone)

theorem tells_handOn {s0 s : State} {k : ContextId} {f : Finished} (kp : Tells k s0 s) :
    Tells k s0 (handOn k f s).1 := by
  unfold handOn
  try dsimp only
  repeat' (first
    | with_reducible assumption | with_reducible apply tells_handToDeposit | with_reducible apply tells_appendBlock
    | with_reducible apply Tells.modVoice | exact Tells.nobody | exact Tells.own
    | (refine Tells.of_eq ‹_ = (_, _)› ?_) | (dsimp only) | split)

theorem tells_dropRecording {s0 s : State} {k : ContextId} (kp : Tells k s0 s) :
    Tells k s0 (dropRecording k s) := by
  unfold dropRecording
  try dsimp only
  repeat' (first
    | with_reducible assumption | with_reducible apply Tells.modVoice | with_reducible apply Tells.modVcd)

theorem tells_closeRecording {s0 s : State} {k : ContextId} {reason : Byte} {last : Option (Nat × Nat)} (kp : Tells k s0 s) :
    Tells k s0 (closeRecording k reason last s) := by
  unfold closeRecording
  try dsimp only
  repeat' (first
    | with_reducible assumption | with_reducible apply tells_reportClose
    | with_reducible apply tells_sendRecordDone | with_reducible apply tells_askClose
    | with_reducible apply tells_closeBy | exact Tells.nobody | exact Tells.own
    | (refine Tells.of_eq ‹_ = (_, _)› ?_) | (dsimp only) | split)

theorem tells_finishRecording {s0 s : State} {k : ContextId} {reason : Byte} (kp : Tells k s0 s) :
    Tells k s0 (finishRecording k reason s) := by
  unfold finishRecording
  try dsimp only
  repeat' (first
    | with_reducible assumption | with_reducible apply tells_closeRecording
    | with_reducible apply tells_dropRecording | with_reducible apply tells_handOn
    | with_reducible apply tells_reportClose | with_reducible apply Tells.modVcd | exact Tells.nobody
    | exact Tells.own | (refine Tells.of_eq ‹_ = (_, _)› ?_) | (dsimp only) | split)

theorem tells_closeFaxTarget {s0 s : State} {k : ContextId} {reason : Byte} (kp : Tells k s0 s) :
    Tells k s0 (closeFaxTarget k reason s) := by
  unfold closeFaxTarget
  try dsimp only
  repeat' (first
    | with_reducible assumption | with_reducible apply tells_askClose | with_reducible apply tells_closeBy
    | with_reducible apply Tells.modFax | exact Tells.nobody | exact Tells.own
    | (refine Tells.of_eq ‹_ = (_, _)› ?_) | (dsimp only) | split)

theorem tells_leaveFaxSource {s0 s : State} {k : ContextId} (kp : Tells k s0 s) :
    Tells k s0 (leaveFaxSource k s) := by
  unfold leaveFaxSource
  try dsimp only
  repeat' (first
    | with_reducible assumption | with_reducible apply tells_leaveSource | with_reducible apply Tells.modFax
    | exact Tells.nobody | exact Tells.own | (refine Tells.of_eq ‹_ = (_, _)› ?_) | (dsimp only) | split)

theorem tells_sendFaxDone {s0 s : State} {k : ContextId} {result : Byte} (kp : Tells k s0 s) :
    Tells k s0 (sendFaxDone k result s) := by
  unfold sendFaxDone
  try dsimp only
  repeat' (first
    | with_reducible assumption | with_reducible apply tells_sendEvent)

theorem tells_clearFax {s0 s : State} {k : ContextId} (kp : Tells k s0 s) :
    Tells k s0 (clearFax k s) := by
  unfold clearFax
  try dsimp only
  repeat' (first
    | with_reducible assumption | with_reducible apply Tells.modFax | with_reducible apply Tells.modPump)

theorem tells_windDownFax {s0 s : State} {k : ContextId} {cause : Byte} (kp : Tells k s0 s) :
    Tells k s0 (windDownFax k cause s) := by
  unfold windDownFax
  try dsimp only
  repeat' (first
    | with_reducible assumption | with_reducible apply tells_clearFax | with_reducible apply tells_sendFaxDone
    | with_reducible apply tells_leaveFaxSource | with_reducible apply tells_closeFaxTarget)

theorem tells_stopData {s0 s : State} {k : ContextId} (kp : Tells k s0 s) :
    Tells k s0 (stopData k s) := by
  unfold stopData
  try dsimp only
  repeat' (first
    | with_reducible assumption | with_reducible apply tells_releaseHeld | with_reducible apply Tells.modQmn
    | with_reducible apply Tells.modLkc | with_reducible apply Tells.modPump)

theorem tells_windDownVoice {s0 s : State} {k : ContextId} {cause : Byte} (kp : Tells k s0 s) :
    Tells k s0 (windDownVoice k cause s) := by
  unfold windDownVoice
  try dsimp only
  repeat' (first
    | with_reducible assumption | with_reducible apply tells_finishRecording
    | with_reducible apply tells_sendPlayDone | with_reducible apply tells_stopPlayback | exact Tells.nobody
    | exact Tells.own | (refine Tells.of_eq ‹_ = (_, _)› ?_) | (dsimp only) | split)

theorem tells_stopGreeting {s0 s : State} {k : ContextId} (kp : Tells k s0 s) :
    Tells k s0 (stopGreeting k s) := by
  unfold stopGreeting
  try dsimp only
  repeat' (first
    | with_reducible assumption | with_reducible apply tells_stopPlayback | exact Tells.nobody | exact Tells.own
    | (refine Tells.of_eq ‹_ = (_, _)› ?_) | (dsimp only) | split)

theorem tells_windDown {s0 s : State} {k : ContextId} {cause : Byte} (kp : Tells k s0 s) :
    Tells k s0 (windDown k cause s) := by
  unfold windDown
  try dsimp only
  repeat' (first
    | with_reducible assumption | with_reducible apply tells_stopGreeting
    | with_reducible apply tells_windDownVoice | with_reducible apply tells_stopData
    | with_reducible apply tells_windDownFax | exact Tells.nobody | exact Tells.own
    | (refine Tells.of_eq ‹_ = (_, _)› ?_) | (dsimp only) | split)

theorem tells_setView {s0 s : State} {i : ContextId} {c : Channel} {v : View} {timer : Option Nat} (kp : Tells i s0 s) :
    Tells i s0 (setView c v timer s) := by
  unfold setView
  try dsimp only
  repeat' (first
    | with_reducible assumption | with_reducible apply Tells.modEntry)

theorem tells_endDrive {s0 s : State} {i : ContextId} {c : Channel} (kp : Tells i s0 s) : Tells i s0 (endDrive c s) :=
  kp.modChannel

theorem tells_freeContext {s0 s : State} {k : ContextId} (kp : Tells k s0 s) :
    Tells k s0 (freeContext k s) := by
  unfold freeContext
  try dsimp only
  repeat' (first
    | with_reducible assumption | with_reducible apply tells_releaseHeld | with_reducible apply Tells.modCtx)

theorem tells_announceUnknown {s0 s : State} {k : ContextId} (kp : Tells k s0 s) :
    Tells k s0 (announceUnknown k s) := by
  unfold announceUnknown
  try dsimp only
  repeat' (first
    | with_reducible assumption | with_reducible apply tells_sendEvent | with_reducible apply Tells.modCtx
    | exact Tells.nobody | exact Tells.own | (refine Tells.of_eq ‹_ = (_, _)› ?_) | (dsimp only) | split)

theorem tells_outdialDone {s0 s : State} {k : ContextId} {result : Byte} (kp : Tells k s0 s) :
    Tells k s0 (outdialDone k result s) := by
  unfold outdialDone
  try dsimp only
  repeat' (first
    | with_reducible assumption | with_reducible apply tells_sendEvent | with_reducible apply Tells.modCtx
    | exact Tells.nobody | exact Tells.own | (refine Tells.of_eq ‹_ = (_, _)› ?_) | (dsimp only) | split)

theorem tells_reportDeposit {s0 s : State} {k : ContextId} {d : OutDeposit} {o : DepositOutcome} (kp : Tells k s0 s) :
    Tells k s0 (reportDeposit k d o s) := by
  unfold reportDeposit
  try dsimp only
  repeat' (first
    | with_reducible assumption | with_reducible apply tells_sendRecordDone | exact Tells.nobody | exact Tells.own
    | (refine Tells.of_eq ‹_ = (_, _)› ?_) | (dsimp only) | split)

end Sys2Proof.Machine
end

section
/-! PROOFS. The family of the loss of alignment: the calls held at a loss, and the calls that the end of the hold period ends
(R7, R12, R16, R18). -/
namespace Sys2Proof.Machine

/-! ### A step for each of several members of a bank -/

/-- A bank after the members of a list have been changed in turn. -/
def changeEach {n : Nat} {α : Type} (xs : List (Fin n)) (f : Fin n → α → α) (b : Bank n α) : Bank n α :=
  xs.foldl (fun b k => b.modify k (f k)) b

theorem get_changeEach {n : Nat} {α : Type} {xs : List (Fin n)} (f : Fin n → α → α) (b : Bank n α) (j : Fin n)
    (distinct : xs.Nodup) : (changeEach xs f b).get j = if j ∈ xs then f j (b.get j) else b.get j := by
  induction xs generalizing b with
  | nil => rfl
  | cons k xs ih =>
    obtain ⟨new, distinct⟩ := List.nodup_cons.mp distinct
    rw [changeEach, List.foldl_cons, ← changeEach, ih _ distinct]
    by_cases same : j = k
    · subst same
      rw [if_neg new, if_pos List.mem_cons_self, Bank.get_modify]
    · rw [Bank.get_modify_ne _ _ _ _ same]
      simp only [List.mem_cons, same, false_or]

theorem contextIds_nodup : contextIds.Nodup := by decide

theorem channelIds_nodup : channelIds.Nodup := by decide

/-- A sweep over all four contexts that changes every record alike. -/
theorem changeEach_contexts (f : Context → Context) (b : Bank 4 Context) : changeEach contextIds (fun _ => f) b = b.map f :=
  Bank.ext_get fun j => by rw [get_changeEach _ _ _ contextIds_nodup, if_pos (mem_contextIds j), Bank.get_map]

/-- A sweep over all 32 channels that changes every record alike. -/
theorem changeEach_channels {α : Type} (f : α → α) (b : Bank 32 α) : changeEach channelIds (fun _ => f) b = b.map f :=
  Bank.ext_get fun j => by rw [get_changeEach _ _ _ channelIds_nodup, if_pos (mem_channelIds j), Bank.get_map]

/-- Steps of which each changes one member of a bank of the state, by what stands there. -/
theorem forEach_changes {n : Nat} {α : Type} {xs : List (Fin n)} {step : Fin n → State → State} {f : Fin n → α → α}
    (put : Bank n α → State) (before : Bank n α) (distinct : xs.Nodup)
    (changes : ∀ k ∈ xs, ∀ b : Bank n α, b.get k = before.get k → step k (put b) = put (b.modify k (f k))) :
    forEach xs step (put before) = put (changeEach xs f before) := by
  have general : ∀ b : Bank n α, (∀ k ∈ xs, b.get k = before.get k) → forEach xs step (put b) = put (changeEach xs f b) := by
    induction xs with
    | nil => exact fun _ _ => rfl
    | cons k xs ih =>
      intro b fresh
      obtain ⟨new, distinct⟩ := List.nodup_cons.mp distinct
      have first := changes k List.mem_cons_self b (fresh k List.mem_cons_self)
      refine (congrArg (forEach xs step) first).trans (ih distinct (fun j mem => changes j (List.mem_cons_of_mem _ mem)) _ ?_)
      intro j mem
      have other : j ≠ k := fun same => new (same ▸ mem)
      exact (Bank.get_modify_ne _ _ _ _ other).trans (fresh j (List.mem_cons_of_mem _ mem))
  exact general before fun _ _ => rfl

/-! ### A loss of alignment (R16, R150) -/

/-- The record of a context after a loss of alignment. -/
def heldRecord (x : Context) : Context :=
  if x.state = .free then x else { x with held := true, pump := { x.pump with control := x.pump.control.tail } }

theorem holdContext_of_unclaimed {s : State} {k : ContextId} (unclaimed : (s.at k).state ≠ .claiming) :
    holdContext k s = s.modCtx k heldRecord := by
  cases state : (s.at k).state with
  | free =>
    simp only [holdContext, state]
    exact (modCtx_self (by rw [heldRecord, if_pos state])).symm
  | claiming => exact absurd state unclaimed
  | addressing | answering | discriminating | seized | dialling | progress | connected | clearing =>
    simp only [holdContext, state]
    refine (modCtx_congr ?_).symm
    rw [heldRecord, if_neg (by rw [state]; decide)]

/-- An event does not read the highway or the contexts. -/
theorem sendEvent_off (k : Option ContextId) (e : Event) (s : State) (h : Hwi) (b : Bank 4 Context) :
    sendEvent k e { s with hwi := h, ctx := b } = { sendEvent k e s with hwi := h, ctx := b } := by
  rw [sendEvent_eq, sendEvent_eq]
  by_cases room : s.clc.tx.length < 24
  · rw [if_pos room, if_pos room]
    rfl
  · rw [if_neg room, if_neg room]

/-- The highway after a loss of alignment. -/
def lostHighway (h : Hwi) : Hwi := { h with
  align := .search, tickCount := none, prevTiming := none, localCount := 0, hold := some 500
  channels := h.channels.map fun c => { enable := false, aside := c.enable || c.aside, driving := false, mismatches := 0 } }

/-- R16: a loss of alignment with no context CLAIMING. -/
theorem loseAlignment_of_unclaimed {s : State} (unclaimed : ∀ k, (s.at k).state ≠ .claiming) : loseAlignment s
    = { sendEvent none (.highway 0) s with hwi := lostHighway s.hwi, ctx := s.ctx.map heldRecord } := by
  let u := (withdrawDrives (s.modHwi fun h => { h with align := .search, tickCount := none, prevTiming := none, localCount := 0 }))
  have held : forEach contextIds holdContext u = { u with ctx := s.ctx.map heldRecord } := by
    refine (forEach_changes (f := fun _ => heldRecord) (fun b => { u with ctx := b }) u.ctx contextIds_nodup fun k _ b same => ?_).trans ?_
    · refine holdContext_of_unclaimed ?_
      exact fun claiming => unclaimed k ((congrArg Context.state same).symm.trans claiming)
    · rw [changeEach_contexts]
      rfl
  have sent : sendEvent none (.highway 0) { u with ctx := s.ctx.map heldRecord }
      = { sendEvent none (.highway 0) s with hwi := u.hwi, ctx := s.ctx.map heldRecord } :=
    sendEvent_off none (.highway 0) s u.hwi (s.ctx.map heldRecord)
  exact congrArg (State.modHwi fun h => { h with hold := some holdPeriod }) ((congrArg _ held).trans sent)

theorem loseAlignment_quiet_of_unclaimed {s : State} (q : s.Quiet) (unclaimed : ∀ k, (s.at k).state ≠ .claiming) :
    (loseAlignment s).Quiet := by
  rw [loseAlignment_of_unclaimed unclaimed]
  exact (storeOnly_sendEvent none (.highway 0) s).quiet q

/-! ### Telling notices of contexts that have no session -/

theorem tells_undelivered_of_sessionless {s : State} {k : ContextId} (idle : Sessionless (s.at k)) (kind : Byte) (serial : Nat) :
    Tells k s (undelivered k kind serial s) := by
  have freed : Tells k s (freeDeposit k s) := tells_freeDeposit (Tells.refl k s)
  have ends (d : OutDeposit) : Tells k s (depositEnds k d .homeSilent s) := by
    have idle' : Sessionless ((freeDeposit k s).at k) := idle.congr ((spares_freeDeposit (Spares.refl id s)).at_eq k)
    unfold depositEnds
    dsimp only
    split
    · rw [faxDepositEnded_of_no_fax (by rw [idle'.session]; decide), afterDeposit_of_sessionless idle']
      exact freed
    · rw [recordingDepositEnded_of_sessionless idle', afterDeposit_of_sessionless
        (idle'.congr ((spares_reportDeposit id k d .homeSilent (freeDeposit k s)).at_eq k))]
      exact tells_reportDeposit freed
  unfold undelivered
  split
  · split
    · split
      · rw [fetchEnds_of_sessionless idle]
        exact tells_endFetch (Tells.refl k s)
      · exact Tells.refl k s
    · exact Tells.refl k s
  · split
    · split
      · exact ends _
      · exact Tells.refl k s
    · exact Tells.refl k s

/-- Notices of contexts without a session change no context. -/
theorem spares_settleNotices_of_sessionless {n : Nat} {s : State} (idle : ∀ x ∈ s.rau.notices, Sessionless (s.at x.context)) :
    Spares id s (settleNotices n s) := by
  induction n generalizing s with
  | zero => exact Spares.refl id s
  | succ n ih =>
    unfold settleNotices
    split
    · exact Spares.refl id s
    · next x rest notices =>
      let u := s.modRau fun r => { r with notices := rest }
      have mine : Sessionless (u.at x.context) := idle x (by rw [notices]; exact List.mem_cons_self)
      have same : Spares id s (undelivered x.context x.kind x.serial u) :=
        (Spares.refl id s).modRau.trans (spares_undelivered_of_sessionless mine x.kind x.serial)
      refine same.trans (ih fun y mem => ?_)
      refine Sessionless.congr ?_ (same.at_eq y.context)
      rcases tells_undelivered_of_sessionless mine x.kind x.serial y mem with before | ours
      · exact idle y (by rw [notices]; exact List.mem_cons_of_mem x before)
      · rw [ours]
        exact mine

theorem spares_settle_of_all_sessionless {s : State} (idle : ∀ x ∈ s.rau.notices, Sessionless (s.at x.context)) :
    Spares id s (settle s) := (spares_settleNotices_of_sessionless idle).modRau

/-! ### The end of the hold period (R18) -/

/-- What one held context leaves when the hold period has run out: itself FREE, its channel UNKNOWN, and the others as they
stand. -/
structure HoldEnded (k : ContextId) (s t : State) : Prop where
  reset : t.at k = Context.reset
  others : ∀ j, j ≠ k → t.at j = s.at j
  tells : Tells k s t
  hwi : t.hwi = { s.hwi with channels := t.hwi.channels }
  cfu : t.cfu = { s.cfu with lostReports := t.cfu.lostReports }
  entries : ∀ c, t.entry c = s.entry c ∨ (t.entry c).view = .unknown
  left : ∀ c, (s.at k).channel = some c → holds s k c = true → (t.entry c).view = .unknown

theorem view_setView (c : Channel) (v : View) (timer : Option Nat) (s : State) : ((setView c v timer s).entry c).view = v := by
  rw [setView, entry_modEntry]

theorem entry_setView_or (c d : Channel) (v : View) (timer : Option Nat) (s : State) :
    (setView c v timer s).entry d = s.entry d ∨ ((setView c v timer s).entry d).view = v := by
  by_cases same : d = c
  · subst same
    exact Or.inr (view_setView ..)
  · exact Or.inl (entry_modEntry_ne _ _ _ _ same)

/-- A state before the context of an ended hold becomes FREE. -/
structure HoldEnding (k : ContextId) (s t : State) : Prop where
  others : ∀ j, j ≠ k → t.at j = s.at j
  tells : Tells k s t
  hwi : t.hwi = { s.hwi with channels := t.hwi.channels }
  cfu : t.cfu = { s.cfu with lostReports := t.cfu.lostReports }
  tcm : t.tcm = s.tcm

theorem HoldEnding.of_channel {s t : State} {k : ContextId} {c : Channel} (h : HoldEnding k s t) (channel : (s.at k).channel = some c) :
    HoldEnded k s (freeContext k (setView c .unknown none t)) where
  reset := at_freeContext ..
  others j other := (at_freeContext_ne other _).trans (h.others j other)
  tells := tells_freeContext (tells_setView h.tells)
  hwi := h.hwi
  cfu := h.cfu
  entries d := by
    have before : t.entry d = s.entry d := by rw [State.entry, h.tcm, State.entry]
    exact (entry_setView_or c d .unknown none t).imp_left fun same => same.trans before
  left d theirs _ := by
    obtain rfl : d = c := Option.some.inj (theirs.symm.trans channel)
    exact view_setView ..

theorem HoldEnding.of_none {s t : State} {k : ContextId} (h : HoldEnding k s t) (channel : (s.at k).channel = none) :
    HoldEnded k s (freeContext k t) where
  reset := at_freeContext ..
  others j other := (at_freeContext_ne other _).trans (h.others j other)
  tells := tells_freeContext h.tells
  hwi := h.hwi
  cfu := h.cfu
  entries _ := Or.inl (congrArg (fun m : Tcm => m.map.get _) h.tcm)
  left _ theirs _ := absurd (theirs.symm.trans channel) nofun

theorem HoldEnding.refl (k : ContextId) (s : State) : HoldEnding k s s := ⟨fun _ _ => rfl, Tells.refl k s, rfl, rfl, rfl⟩

theorem HoldEnding.endDrive {s t : State} {k : ContextId} (c : Channel) (h : HoldEnding k s t) : HoldEnding k s (endDrive c t) where
  others := h.others
  tells := h.tells
  hwi := congrArg (fun x : Hwi => { x with channels := (Machine.endDrive c t).hwi.channels }) h.hwi
  cfu := h.cfu
  tcm := h.tcm

theorem HoldEnding.sendRelease {s t : State} {k : ContextId} (c : Channel) (h : HoldEnding k s t) : HoldEnding k s (sendRelease c t) where
  others j other := (at_sendRelease c t j).trans (h.others j other)
  tells := tells_sendRelease h.tells
  hwi := by rw [sendRelease_hwi]; exact h.hwi
  cfu := by rw [sendRelease_cfu]; exact h.cfu
  tcm := by rw [sendRelease_tcm]; exact h.tcm

/-- R73: the reports of a call that ends, and its session wound down. -/
theorem holdEnding_callReports (k : ContextId) (cause : Byte) (s : State) : HoldEnding k s
    (sendEvent (some k) (.callEnded cause) (outdialDone k cause (windDown k cause (announceUnknown k s)))) where
  others := (apart_callReports (Apart.refl k s)).ctx
  tells := tells_sendEvent (tells_outdialDone (tells_windDown (tells_announceUnknown (Tells.refl k s))))
  hwi := by rw [(spares_callReports k cause s).hwi]
  cfu := (spares_callReports k cause s).cfu
  tcm := (spares_callReports k cause s).tcm

/-- R73: a call that ends with HIGHWAY_LOST has no CLEARING. -/
theorem holdEnded_endCall {s : State} {k : ContextId} (call : inCall (s.at k) = true) : HoldEnded k s (endCall k codeHighwayLost s) := by
  have reports := holdEnding_callReports k codeHighwayLost s
  have channel : ((sendEvent (some k) (.callEnded codeHighwayLost)
      (outdialDone k codeHighwayLost (windDown k codeHighwayLost (announceUnknown k s)))).at k).channel = (s.at k).channel := by
    have same := congrArg Context.channel ((spares_callReports k codeHighwayLost s).reading k)
    exact same
  rw [endCall_eq _ call, leaveChannel, if_neg (by decide), if_pos rfl]
  cases left : (s.at k).channel with
  | none =>
    rw [left] at channel
    simp only [channel]
    exact reports.of_none left
  | some c =>
    rw [left] at channel
    simp only [channel]
    exact ((reports.sendRelease c).endDrive c).of_channel left

theorem holdExpires_of_free {s : State} {k : ContextId} (free : (s.at k).held = false) : holdExpires k s = s := by
  simp [holdExpires, free]

/-- R18: a held context at the end of the hold period. -/
theorem holdEnded_holdExpires {s : State} {k : ContextId} (held : (s.at k).held = true) (notFree : (s.at k).state ≠ .free)
    (unclaimed : (s.at k).state ≠ .claiming) : HoldEnded k s (holdExpires k s) := by
  by_cases clearing : (s.at k).state = .clearing
  · simp only [holdExpires, held, clearing, if_true]
    cases channel : (s.at k).channel with
    | none => exact (HoldEnding.refl k s).of_none channel
    | some c =>
      dsimp only
      split
      · exact ((HoldEnding.refl k s).endDrive c).of_channel channel
      · exact (HoldEnding.refl k s).of_channel channel
  · simp only [holdExpires, held, clearing, if_true, if_false]
    refine holdEnded_endCall ?_
    unfold inCall
    split <;> first | rfl | contradiction

/-- What the contexts of a list leave when the hold period has run out. -/
structure HoldOver (done : List ContextId) (s t : State) : Prop where
  reset : ∀ k ∈ done, (s.at k).held = true → t.at k = Context.reset
  others : ∀ k, k ∉ done ∨ (s.at k).held = false → t.at k = s.at k
  tells : s.Quiet → ∀ x ∈ t.rau.notices, x.context ∈ done ∧ (s.at x.context).held = true
  hwi : t.hwi = { s.hwi with channels := t.hwi.channels }
  cfu : t.cfu = { s.cfu with lostReports := t.cfu.lostReports }
  entries : ∀ c, t.entry c = s.entry c ∨ (t.entry c).view = .unknown
  left : ∀ k ∈ done, ∀ c, (s.at k).held = true → (s.at k).channel = some c → holds s k c = true → (t.entry c).view = .unknown

theorem holdOver_nil (s : State) : HoldOver [] s s where
  reset := nofun
  others _ _ := rfl
  tells q x mem := by rw [q] at mem; cases mem
  hwi := rfl
  cfu := rfl
  entries _ := Or.inl rfl
  left := nofun

theorem HoldOver.next {done : List ContextId} {s t : State} {k : ContextId} (h : HoldOver done s t) (new : k ∉ done)
    (going : (s.at k).held = true → (s.at k).state ≠ .free ∧ (s.at k).state ≠ .claiming) :
    HoldOver (done ++ [k]) s (holdExpires k t) := by
  have before : t.at k = s.at k := h.others k (Or.inl new)
  have mem_next (j : ContextId) : j ∈ done ++ [k] ↔ j ∈ done ∨ j = k := by rw [List.mem_append, List.mem_singleton]
  cases held : (s.at k).held with
  | false =>
    rw [holdExpires_of_free (by rw [before]; exact held)]
    refine ⟨fun j mem was => ?_, fun j out => ?_, fun q x mem => ?_, h.hwi, h.cfu, h.entries, fun j mem c was => ?_⟩
    · rcases (mem_next j).mp mem with mem | rfl
      · exact h.reset j mem was
      · exact absurd (was.symm.trans held) (by decide)
    · exact h.others j (out.imp_left fun out mem => out ((mem_next j).mpr (Or.inl mem)))
    · obtain ⟨mem, was⟩ := h.tells q x mem
      exact ⟨(mem_next _).mpr (Or.inl mem), was⟩
    · rcases (mem_next j).mp mem with mem | rfl
      · exact h.left j mem c was
      · exact absurd (was.symm.trans held) (by decide)
  | true =>
    obtain ⟨notFree, unclaimed⟩ := going held
    have ended := holdEnded_holdExpires (s := t) (k := k) (by rw [before]; exact held) (by rw [before]; exact notFree)
      (by rw [before]; exact unclaimed)
    have stays (c : Channel) (shown : (t.entry c).view = .unknown) : ((holdExpires k t).entry c).view = .unknown :=
      (ended.entries c).elim (fun same => (congrArg MapEntry.view same).trans shown) id
    refine ⟨fun j mem was => ?_, fun j out => ?_, fun q x mem => ?_, ?_, ?_, fun c => ?_, fun j mem c was channel shown => ?_⟩
    · by_cases same : j = k
      · subst same
        exact ended.reset
      · exact (ended.others j same).trans (h.reset j (((mem_next j).mp mem).resolve_right same) was)
    · have other : j ≠ k := by
        rintro rfl
        exact out.elim (fun out => out ((mem_next j).mpr (Or.inr rfl))) (fun free => absurd (held.symm.trans free) (by decide))
      exact (ended.others j other).trans (h.others j (out.imp_left fun out mem => out ((mem_next j).mpr (Or.inl mem))))
    · rcases ended.tells x mem with old | ours
      · obtain ⟨mem, was⟩ := h.tells q x old
        exact ⟨(mem_next _).mpr (Or.inl mem), was⟩
      · rw [ours]
        exact ⟨(mem_next k).mpr (Or.inr rfl), held⟩
    · rw [ended.hwi, h.hwi]
    · rw [ended.cfu, h.cfu]
    · rcases h.entries c with same | shown
      · exact (ended.entries c).imp_left fun later => later.trans same
      · exact Or.inr (stays c shown)
    · by_cases same : j = k
      · subst same
        rcases h.entries c with entry | unknown
        · exact ended.left c (by rw [before]; exact channel) (by rw [holds, entry]; exact shown)
        · exact stays c unknown
      · exact stays c (h.left j (((mem_next j).mp mem).resolve_right same) c was channel shown)

/-- R18: the sweep over the four contexts. -/
theorem holdOver_all {s : State} (going : ∀ k, (s.at k).held = true → (s.at k).state ≠ .free ∧ (s.at k).state ≠ .claiming) :
    HoldOver contextIds s (forEach contextIds holdExpires s) :=
  ((((holdOver_nil s).next (k := 0) nofun (going 0)).next (k := 1) (by decide) (going 1)).next (k := 2) (by decide) (going 2)).next
    (k := 3) (by decide) (going 3)

/-- Settles O14: the calls held at a loss of alignment, and the calls that the end of the hold period ends. -/
theorem callsAreHeldUntilTheHoldExpires : Obligations.CallsAreHeldUntilTheHoldExpires := by
  refine ⟨fun s q unclaimed => ⟨fun aligned counts => ?limit, fun p f w aligned fourth bad => ?word⟩,
    fun s q hold away going => ?expiry⟩
  case limit =>
    have due : givesSessionTime s = true := by rw [givesSessionTime, aligned, counts]; rfl
    refine (act_of_due s due (loseAlignment_quiet_of_unclaimed q unclaimed)).trans ?_
    rw [loseAlignment_of_unclaimed unclaimed]
    rfl
  case word =>
    let u := s.modHwi fun h => { h with bitCounter := (p + 272 * f.val + 256 + 8) % 2176, align := .search, errors := 4 }
    have lost : alignedWindow p f w s = loseAlignment u := alignedWindow_of_fourth bad fourth
    have same : loseAlignment u = { sendEvent none (.highway 0) u with hwi := lostHighway u.hwi, ctx := u.ctx.map heldRecord } :=
      loseAlignment_of_unclaimed unclaimed
    have quiet : (loseAlignment u).Quiet := loseAlignment_quiet_of_unclaimed q unclaimed
    rw [exec_frameWordAligned_of_aligned f w aligned, lost, settle_quiet quiet, same]
    exact congrArg _ (congrArg (fun v : State => { v with hwi := lostHighway u.hwi, ctx := s.ctx.map heldRecord })
      (sendEvent_off none (.highway 0) s u.hwi s.ctx))
  case expiry =>
    let u := s.modHwi fun h => { h with hold := none, channels := h.channels.map fun c => { c with aside := false } }
    let calls := heldCalls s
    let v := forEach contextIds holdExpires u
    have swept : HoldOver contextIds u v := holdOver_all going
    have told : Spares id (writeFault .highwayLost calls v) (settle (writeFault .highwayLost calls v)) := by
      refine spares_settle_of_all_sessionless fun x mem => ?_
      rw [writeFault_rau] at mem
      obtain ⟨_, held⟩ := swept.tells q x mem
      refine sessionless_reset.congr ?_
      rw [State.at, writeFault_ctx]
      exact swept.reset x.context (mem_contextIds _) held
    have record (j : ContextId) : (settle (writeFault .highwayLost calls v)).at j = v.at j := by
      rw [told.at_eq j, State.at, writeFault_ctx, State.at]
    have due : (s.hwi.hold == some 0 && !isAligned s) = true := by rw [hold, away]; rfl
    have acts : exec .holdPeriodExpiry s = act (s.hwi.hold == some 0 && !isAligned s) (holdRunsOut s) s := rfl
    refine ⟨settle (writeFault .highwayLost calls v), by rw [acts, due, act_of_true]; rfl, ?_, fun k held => ?_, fun k free => ?_,
      fun k c held channel shown => ?_, fun room => ?_⟩
    · rw [told.hwi, writeFault_hwi, swept.hwi]
      rfl
    · exact (record k).trans (swept.reset k (mem_contextIds k) held)
    · exact (record k).trans (swept.others k (Or.inr free))
    · rw [State.entry, told.tcm, writeFault_tcm]
      exact swept.left k (mem_contextIds k) c held channel shown
    · have same : v.cfu.faults = s.cfu.faults ∧ v.cfu.minute = s.cfu.minute ∧ v.cfu.clockSet = s.cfu.clockSet := by
        rw [swept.cfu]
        exact ⟨rfl, rfl, rfl⟩
      obtain ⟨faults, minute, clockSet⟩ := same
      rw [told.faults, writeFault_faults _ _ (by rw [faults]; exact room), faults, minute, clockSet]
      rfl

end Sys2Proof.Machine
end

section
/-! PROOFS. The family of the superframe boundary: the timing step, the read-back, station time and session time, and the
repair of the map (R9 to R15, R44, R56, R70). -/
namespace Sys2Proof.Machine

/-! ### The parts of a boundary -/

/-- What follows the settled changes of a boundary: the repair of the map, station time, and the enables. -/
def boundaryEnds (s : State) : State :=
  boundaryPassed (s.modTcm fun t => { t with map := t.map.map fun e => repairEntry (tickBlockTimer e) })

theorem superframeBoundary_of_first {s : State} (ticks : Nat) (idle : s.hwi.tickCount = none) :
    superframeBoundary ticks s = boundaryPassed s := by
  simp only [superframeBoundary, idle]

theorem superframeBoundary_of_limit {s : State} {ticks m : Nat} (counts : s.hwi.tickCount = some m) (limit : 32767 ≤ m + ticks) :
    superframeBoundary ticks s = loseAlignment s := by
  simp only [superframeBoundary, counts, limit, if_true]

/-- R9: a boundary that gives session time. -/
theorem superframeBoundary_of_session {s : State} {ticks m : Nat} (counts : s.hwi.tickCount = some m) (short : m + ticks < 32767) :
    superframeBoundary ticks s
      = boundaryEnds (deliverCodes (sessionTick (forEach channelIds checkReadback (measureTiming (m + ticks) s)))) := by
  have notLimit : ¬ 32767 ≤ m + ticks := by omega
  simp only [superframeBoundary, counts, notLimit, if_false]
  rfl

theorem boundaryEnds_quiet {s : State} (q : s.Quiet) : (boundaryEnds s).Quiet := q

/-! ### The timing step (R11) -/

theorem measureTiming_of_holds {s : State} {measured : Nat} (holds : s.TimingHolds measured) :
    measureTiming measured s = s.modHwi fun h => { h with prevTiming := some measured } := by
  cases previous : s.hwi.prevTiming with
  | none => simp only [measureTiming, previous]
  | some old => simp only [measureTiming, previous, if_pos (holds old previous)]

theorem measureTiming_of_step {s : State} {measured old : Nat} (previous : s.hwi.prevTiming = some old)
    (large : timingThreshold s < max measured old - min measured old) : measureTiming measured s
      = retrainAll .timing (writeFault .timingStep (min 255 (max measured old - min measured old))
          (sendEvent none .timingStep (s.modHwi fun h => { h with prevTiming := some measured }))) := by
  have notSmall : ¬ max measured old - min measured old ≤ timingThreshold s := by omega
  simp only [measureTiming, previous, notSmall, if_false]

theorem retrainAll_of_no_data {s : State} (reason : RateReason) (other : ∀ k, (s.at k).session ≠ .data) : retrainAll reason s = s :=
  forEach_of_standing fun k _ => by simp [other k]

/-! ### The read-back (R14) -/

theorem checkReadback_of_few {s : State} {c : Channel} (few : (s.hwi.channels.get c).mismatches < 2) :
    checkReadback c s = s.modChannel c fun h => { h with mismatches := 0 } := by
  have notMany : ¬ 2 ≤ (s.hwi.channels.get c).mismatches := by omega
  simp only [checkReadback, notMany, if_false]

/-- R14: the read-back of channels without contention. -/
theorem forEach_checkReadback_of_few {xs : List Channel} {s : State} (distinct : xs.Nodup)
    (few : ∀ c ∈ xs, (s.hwi.channels.get c).mismatches < 2) : forEach xs checkReadback s
      = s.modHwi fun h => { h with channels := changeEach xs (fun _ x => { x with mismatches := 0 }) h.channels } :=
  forEach_changes (fun b => s.modHwi fun h => { h with channels := b }) s.hwi.channels distinct fun c mem b same =>
    checkReadback_of_few (s := s.modHwi fun h => { h with channels := b })
      (by rw [modHwi_hwi, same]; exact few c mem)

/-! ### Codes that stand (R50) -/

/-- What a delivered code leaves that is the settled one. -/
def stood (x : Settling) : Settling := { x with candidate := none, run := 0 }

/-- What the settled codes leave of a map entry. -/
def entryStood (e : MapEntry) : MapEntry := { e with rx := stood e.rx, tx := stood e.tx }

theorem deliver_of_settled (count : Nat) (x : Settling) : x.deliver count x.settled = (stood x, false) := if_pos rfl

theorem modEntry_modEntry (c : Channel) (f g : MapEntry → MapEntry) (s : State) :
    (s.modEntry c f).modEntry c g = s.modEntry c fun e => g (f e) :=
  congrArg (fun b => s.modTcm fun t => { t with map := b }) (bank_modify_modify ..)

/-- A map entry after a code in each direction. -/
def entrySettled (f g : Settling → Settling × Bool) (e : MapEntry) : MapEntry := { e with rx := (g e.rx).1, tx := (f e.tx).1 }

/-- R51 for one channel: both directions move, then a settled receive change acts. -/
theorem settleWith_eq (f g : Settling → Settling × Bool) (c : Channel) (s : State) : settleWith f g c s
    = if (g (s.entry c).rx).2 then receiveChange c (g (s.entry c).rx).1.settled (s.modEntry c (entrySettled f g))
      else s.modEntry c (entrySettled f g) := by
  have rx : ((s.modEntry c fun e => { e with tx := (f (s.entry c).tx).1 }).entry c).rx = (s.entry c).rx := by rw [entry_modEntry]
  have both : ((s.modEntry c fun e => { e with tx := (f (s.entry c).tx).1 }).modEntry c fun e => { e with rx := (g (s.entry c).rx).1 })
      = s.modEntry c (entrySettled f g) := (modEntry_modEntry ..).trans (modEntry_congr rfl)
  simp only [settleWith, rx, both]

theorem settleWith_of_settled {f g : Settling → Settling × Bool} {c : Channel} {s : State}
    (tx : f (s.entry c).tx = (stood (s.entry c).tx, false)) (rx : g (s.entry c).rx = (stood (s.entry c).rx, false)) :
    settleWith f g c s = s.modEntry c entryStood := by
  rw [settleWith_eq, rx, if_neg Bool.false_ne_true]
  exact modEntry_congr (by rw [entrySettled, tx, rx, entryStood])

/-- The delivery of one channel's codes at a boundary of a state. -/
def deliverAt (s : State) (c : Channel) (t : State) : State :=
  settleWith (Settling.deliver (settleCount s) (s.hwi.txCodes.get c)) (Settling.deliver (settleCount s) (s.hwi.rxCodes.get c)) c t

theorem deliverCodes_eq (s : State) : deliverCodes s = forEach channelIds (deliverAt s) s := rfl

/-- R50: the settled codes of several channels, delivered. -/
theorem forEach_deliverAt_of_standing {xs : List Channel} {s t : State} (distinct : xs.Nodup)
    (stand : ∀ c ∈ xs, s.hwi.rxCodes.get c = (t.entry c).rx.settled ∧ s.hwi.txCodes.get c = (t.entry c).tx.settled) :
    forEach xs (deliverAt s) t = t.modTcm fun m => { m with map := changeEach xs (fun _ => entryStood) m.map } :=
  forEach_changes (fun b => t.modTcm fun m => { m with map := b }) t.tcm.map distinct fun c mem b same => by
    obtain ⟨rx, tx⟩ := stand c mem
    have entry : (t.modTcm fun m => { m with map := b }).entry c = t.entry c := same
    refine settleWith_of_settled (s := t.modTcm fun m => { m with map := b }) ?_ ?_
    · rw [entry, tx]
      exact deliver_of_settled ..
    · rw [entry, rx]
      exact deliver_of_settled ..

/-! ### A boundary on which nothing else happens -/

/-- What follows the read-back of a boundary when the codes stand. -/
def codesStood (s : State) : State := boundaryEnds ((sessionTick s).modTcm fun m => { m with map := m.map.map entryStood })

theorem at_codesStood (s : State) (k : ContextId) : (codesStood s).at k = if (s.at k).held then s.at k else tickContext (s.at k) :=
  Bank.get_map ..

theorem entry_codesStood (s : State) (c : Channel) : (codesStood s).entry c = repairEntry (tickBlockTimer (entryStood (s.entry c))) :=
  (Bank.get_map ..).trans (congrArg (fun e => repairEntry (tickBlockTimer e)) (Bank.get_map ..))

theorem bid_codesStood (s : State) (k : ContextId) :
    (codesStood s).bid k = (s.bid k).map fun b => { b with timer := tickTimer b.timer } := Bank.get_map ..

theorem channel_codesStood (s : State) (c : Channel) : (codesStood s).hwi.channels.get c
    = { s.hwi.channels.get c with driving := (s.hwi.channels.get c).enable, mismatches := 0 } := Bank.get_map ..

theorem codesStood_faults (s : State) : (codesStood s).cfu.faults = s.cfu.faults := rfl
theorem codesStood_notices (s : State) : (codesStood s).rau.notices = s.rau.notices := rfl
theorem codesStood_prevTiming (s : State) : (codesStood s).hwi.prevTiming = s.hwi.prevTiming := rfl
theorem codesStood_clc (s : State) : (codesStood s).clc = s.clc := rfl

/-- A boundary that only gives time, from the state after its measurement. -/
def timeGiven (s : State) : State :=
  codesStood (s.modHwi fun h => { h with channels := h.channels.map fun x => { x with mismatches := 0 } })

theorem deliverCodes_of_standing {s : State} (stand : s.CodesStand) :
    deliverCodes s = s.modTcm fun m => { m with map := m.map.map entryStood } := by
  rw [deliverCodes_eq, forEach_deliverAt_of_standing channelIds_nodup fun c _ => stand c]
  simp only [changeEach_channels]

theorem boundary_of_codes {s : State} (stand : s.CodesStand) : boundaryEnds (deliverCodes (sessionTick s)) = codesStood s :=
  congrArg boundaryEnds (deliverCodes_of_standing (s := sessionTick s) stand)

theorem boundary_of_standing {s : State} (few : ∀ c, (s.hwi.channels.get c).mismatches < 2) (stand : s.CodesStand) :
    boundaryEnds (deliverCodes (sessionTick (forEach channelIds checkReadback s))) = timeGiven s := by
  rw [forEach_checkReadback_of_few channelIds_nodup fun c _ => few c]
  simp only [changeEach_channels]
  exact boundary_of_codes stand

/-- R56: the repair of a map entry whose codes stand. -/
theorem repairEntry_of_stood (e : MapEntry) (stale : Prop) [Decidable stale] (when : stale ↔ (e.view = .free ∧ e.tx.settled ≠ .idle)
    ∨ ((e.view = .unknown ∨ ∃ p, e.view = .peer p) ∧ e.tx.settled = .idle)) : repairEntry (tickBlockTimer (entryStood e))
      = { view := if stale ∧ 15 ≤ e.stale then (if e.view = .free then .unknown else .free) else e.view
          blockTimer := e.blockTimer.map (· - 1), rx := stood e.rx, tx := stood e.tx
          stale := if stale ∧ e.stale < 15 then e.stale + 1 else 0 } := by
  obtain ⟨view, blockTimer, rx, tx, count⟩ := e
  change repairEntry { view, blockTimer := blockTimer.map (· - 1), rx := stood rx, tx := stood tx, stale := count } = _
  by_cases idle : tx.settled = .idle <;> by_cases full : 15 ≤ count <;> cases view <;> simp_all [repairEntry, stood]
  all_goals rw [if_neg (by omega), if_neg (by omega)]

/-- R56: an UNKNOWN view whose stale count begins stands. -/
theorem repairEntry_of_unknown {e : MapEntry} (view : e.view = .unknown) (fresh : e.stale = 0) :
    (repairEntry (tickBlockTimer (entryStood e))).view = .unknown := by
  by_cases idle : e.tx.settled = .idle
  · rw [repairEntry_of_stood e True (by simp [view, idle])]
    simp [view, fresh]
  · rw [repairEntry_of_stood e False (by simp [view, idle])]
    simp [view]

theorem writeFault_config (kind : FaultKind) (subject : Nat) (s : State) : (writeFault kind subject s).cfu.config = s.cfu.config := by
  unfold writeFault
  split
  · rw [(storeOnly_sendEvent ..).cfu]
    rfl
  · rfl

theorem writeFault_of_room {s : State} (kind : FaultKind) (subject : Nat) (room : s.cfu.faults.length < 8) :
    writeFault kind subject s = sendEvent none (.fault kind s.cfu.clockSet subject)
      (s.modCfu fun u => { u with faults := u.faults ++ [{ kind, subject, stamp := s.cfu.minute, clockSet := s.cfu.clockSet }] }) :=
  if_pos room

theorem loseAlignment_stationTime (s : State) : (loseAlignment s).cfu.stationTime = s.cfu.stationTime := by
  have held (t : State) : Steady t (forEach contextIds holdContext t) := (Steady.refl t).forEach fun _ _ h => steady_holdContext h
  have sent (t : State) : (sendEvent none (.highway 0) t).cfu.stationTime = t.cfu.stationTime := by
    rw [(storeOnly_sendEvent none (.highway 0) t).cfu]
  rw [loseAlignment, modHwi_cfu, sent, (held _).cfu]
  rfl

/-! ### Contention (R15) -/

theorem endCall_of_contention {s : State} {k : ContextId} (call : inCall (s.at k) = true) :
    endCall k codeContention s = freeContext k (sendEvent (some k) (.callEnded codeContention)
      (outdialDone k codeContention (windDown k codeContention (announceUnknown k s)))) := by
  rw [endCall_eq _ call]
  rfl

/-- R15: the channel of a contention, and the fault. -/
def contested (c : Channel) (s : State) : State := setView c .unknown none (writeFault .contention c.val (endDrive c s))

theorem contested_ctx (c : Channel) (s : State) : (contested c s).ctx = s.ctx := writeFault_ctx ..
theorem contested_hwi (c : Channel) (s : State) : (contested c s).hwi = (endDrive c s).hwi := writeFault_hwi ..
theorem contested_rau (c : Channel) (s : State) : (contested c s).rau = s.rau := writeFault_rau ..
theorem contested_faults {c : Channel} {s : State} (room : s.cfu.faults.length < 8) : (contested c s).cfu.faults = s.cfu.faults
    ++ [{ kind := .contention, subject := c.val, stamp := s.cfu.minute, clockSet := s.cfu.clockSet }] := writeFault_faults _ _ room
theorem contested_config (c : Channel) (s : State) : (contested c s).cfu.config = s.cfu.config := writeFault_config ..

theorem entry_contested {c : Channel} {k : ContextId} {s : State} (view : (s.entry c).view = .self k) :
    (contested c s).entry c = { s.entry c with view := .unknown, blockTimer := none, stale := 0 } := by
  have before : (writeFault .contention c.val (endDrive c s)).entry c = s.entry c := congrArg (fun t : Tcm => t.map.get c) (writeFault_tcm ..)
  have changed : ¬ (s.entry c).view = .unknown := by rw [view]; nofun
  rw [contested, setView, entry_modEntry, before, if_neg changed]

theorem entry_contested_ne {c d : Channel} (other : d ≠ c) (s : State) : (contested c s).entry d = s.entry d :=
  (entry_modEntry_ne _ _ _ _ other).trans (congrArg (fun t : Tcm => t.map.get d) (writeFault_tcm ..))

theorem contention_of_call {s : State} {c : Channel} {k : ContextId} (view : (s.entry c).view = .self k)
    (call : inCall (s.at k) = true) : contention c s = endCall k codeContention (contested c s) := by
  have holder : holderOf s c = some k := by simp only [holderOf, view]
  have record : (contested c s).at k = s.at k := by
    rw [State.at, contested]
    exact congrArg (fun b : Bank 4 Context => b.get k) (writeFault_ctx ..)
  have notClearing : ¬ ((contested c s).at k).state = .clearing := by
    rw [record]
    intro clearing
    rw [inCall, clearing] at call
    cases call
  simp only [contention, holder]
  exact if_neg notClearing

/-- What a contention leaves of a station whose fault record has room. -/
structure Contested (c : Channel) (k : ContextId) (s t : State) : Prop where
  reset : t.at k = Context.reset
  hwi : t.hwi = { s.hwi with channels := t.hwi.channels }
  drive : t.hwi.channels.get c = HwiChannel.reset
  entry : t.entry c = { s.entry c with view := .unknown, blockTimer := none, stale := 0 }
  others : ∀ d, d ≠ c → t.entry d = s.entry d
  faults : t.cfu.faults = s.cfu.faults ++ [{ kind := .contention, subject := c.val, stamp := s.cfu.minute, clockSet := s.cfu.clockSet }]
  config : t.cfu.config = s.cfu.config
  tells : Tells k s t

theorem contested_contention {s : State} {c : Channel} {k : ContextId} (view : (s.entry c).view = .self k)
    (call : inCall (s.at k) = true) (room : s.cfu.faults.length < 8) :
    Contested c k s (contention c s) ∧ (contention c s).hwi = (endDrive c s).hwi := by
  let w := contested c s
  have call' : inCall (w.at k) = true := by rw [State.at, contested_ctx]; exact call
  have freed (x : State) (told : Spares unreported w x) (tells : Tells k w x) :
      Contested c k s (freeContext k x) ∧ (freeContext k x).hwi = (endDrive c s).hwi := by
    have hwi : (freeContext k x).hwi = (endDrive c s).hwi := by rw [freeContext_hwi, told.hwi, contested_hwi]
    refine ⟨⟨at_freeContext .., ?_, ?_, ?_, fun d other => ?_, ?_, ?_, ?_⟩, hwi⟩
    · rw [hwi]
      rfl
    · rw [hwi]
      exact Bank.get_modify ..
    · rw [State.entry, freeContext_tcm, told.tcm]
      exact entry_contested view
    · rw [State.entry, freeContext_tcm, told.tcm]
      exact entry_contested_ne other s
    · rw [freeContext_cfu, told.faults, contested_faults room]
    · rw [freeContext_cfu, told.config, contested_config]
    · exact tells_freeContext ((Tells.of_notices (congrArg Rau.notices (contested_rau c s))).trans tells)
  rw [contention_of_call view call, endCall_of_contention call']
  exact freed _ (spares_callReports k codeContention w) (tells_sendEvent (tells_outdialDone (tells_windDown (tells_announceUnknown (Tells.refl k w)))))

theorem checkReadback_of_many {s : State} {c : Channel} (many : 2 ≤ (s.hwi.channels.get c).mismatches) :
    checkReadback c s = contention c (s.modChannel c fun h => { h with mismatches := 0 }) := by
  simp only [checkReadback, many, if_true]

/-- R14, R15: the read-back of all the channels, with a contention on one of them. -/
theorem forEach_checkReadback_of_contention {s : State} {c : Channel} {k : ContextId} (view : (s.entry c).view = .self k)
    (call : inCall (s.at k) = true) (room : s.cfu.faults.length < 8) (many : 2 ≤ (s.hwi.channels.get c).mismatches)
    (few : ∀ d, d ≠ c → (s.hwi.channels.get d).mismatches < 2) : Contested c k s (forEach channelIds checkReadback s) := by
  obtain ⟨earlier, later, split⟩ := List.append_of_mem (mem_channelIds c)
  have distinct : (earlier ++ c :: later).Nodup := split ▸ channelIds_nodup
  obtain ⟨distinctEarlier, distinctRest, between⟩ := List.nodup_append.mp distinct
  obtain ⟨notLater, distinctLater⟩ := List.nodup_cons.mp distinctRest
  have notEarlier : c ∉ earlier := fun mem => between c mem c List.mem_cons_self rfl
  let cleared (xs : List Channel) (t : State) : State :=
    t.modHwi fun h => { h with channels := changeEach xs (fun _ x => { x with mismatches := 0 }) h.channels }
  let u := (cleared earlier s).modChannel c fun h => { h with mismatches := 0 }
  have first : forEach earlier checkReadback s = cleared earlier s :=
    forEach_checkReadback_of_few distinctEarlier fun d mem => few d fun same => notEarlier (same ▸ mem)
  have second : checkReadback c (cleared earlier s) = contention c u := by
    refine checkReadback_of_many ?_
    have same : (changeEach earlier (fun _ x => { x with mismatches := 0 }) s.hwi.channels).get c = s.hwi.channels.get c := by
      rw [get_changeEach _ _ _ distinctEarlier, if_neg notEarlier]
    exact many.trans_eq (congrArg HwiChannel.mismatches same.symm)
  obtain ⟨ended, hwi⟩ := contested_contention (s := u) view call room
  have third : forEach later checkReadback (contention c u) = cleared later (contention c u) := by
    refine forEach_checkReadback_of_few distinctLater fun d mem => ?_
    have other : d ≠ c := fun same => notLater (same ▸ mem)
    have notBefore : d ∉ earlier := fun before => between d before d (List.mem_cons_of_mem _ mem) rfl
    have same : (contention c u).hwi.channels.get d = s.hwi.channels.get d := by
      rw [hwi]
      exact (Bank.get_modify_ne _ _ _ _ other).trans ((Bank.get_modify_ne _ _ _ _ other).trans
        ((get_changeEach _ _ _ distinctEarlier).trans (if_neg notBefore)))
    rw [same]
    exact few d other
  have swept : forEach channelIds checkReadback s = cleared later (contention c u) := by
    rw [split, forEach_append, first]
    exact (congrArg (forEach later checkReadback) second).trans third
  rw [swept]
  refine ⟨ended.reset, ?_, ?_, ended.entry, ended.others, ended.faults, ended.config, ended.tells⟩
  · exact congrArg (fun h : Hwi => { h with channels := (cleared later (contention c u)).hwi.channels }) ended.hwi
  · refine Eq.trans ?_ ended.drive
    exact (get_changeEach _ _ _ distinctLater).trans (if_neg notLater)

/-- Settles O17: a boundary by its tick count, its timing and its read-back, and the local count away from ALIGNED. -/
theorem boundaryCountsTime : Obligations.BoundaryCountsTime := by
  intro ticks s q
  have acts : exec (.superframeBoundary ticks) s = act (isAligned s) (superframeBoundary ticks s) s := rfl
  refine ⟨fun aligned idle => ?first, fun m at_ holds stand => ?session, fun m old at_ previous stand large other room => ?step,
    fun m ch k aligned counts short holds stand few many view state room => ?contention, fun m aligned counts limit => ?limit,
    fun away => ?away⟩
  case first =>
    rw [acts, superframeBoundary_of_first ticks idle]
    exact act_of_due (effect := boundaryPassed s) s aligned q
  case session =>
    intro slot down
    obtain ⟨aligned, counts, short, few⟩ := at_
    let u := s.modHwi fun h => { h with prevTiming := some (m + ticks) }
    have effect : superframeBoundary ticks s = timeGiven u := by
      rw [superframeBoundary_of_session counts short, measureTiming_of_holds holds]
      exact boundary_of_standing few stand
    refine ⟨timeGiven u, ?_, rfl, fun c => ?_, fun k => ?_, fun k => ?_, fun c => ?_, rfl, rfl, rfl, rfl⟩
    · rw [acts, effect]
      exact act_of_due s aligned q
    · rw [timeGiven, channel_codesStood, modHwi_hwi, Bank.get_map]
      rfl
    · have record : (timeGiven u).at k = if (s.at k).held = true then s.at k else tickContext (s.at k) := Bank.get_map ..
      have ticks : slot = Slot.tick := funext fun x => by cases x <;> rfl
      intro x linked
      rw [record, ticks]
      by_cases held : x.held = true
      · rw [if_pos held, if_pos held]
      · have moves : linkMoves x = true ↔ linked := by simp [linkMoves, linked, held]
        rw [if_neg held, if_neg held]
        simp only [← moves]
        rfl
    · have bid : (timeGiven u).bid k = (s.bid k).map fun b => { b with timer := tickTimer b.timer } := Bank.get_map ..
      exact bid
    · intro e ready others stale
      have entry : (timeGiven u).entry c = repairEntry (tickBlockTimer (entryStood e)) :=
        (Bank.get_map ..).trans (congrArg (fun e => repairEntry (tickBlockTimer e)) (Bank.get_map ..))
      rw [entry]
      exact repairEntry_of_stood e stale Iff.rfl
  case step =>
    intro size
    obtain ⟨aligned, counts, short, few⟩ := at_
    let v := sendEvent none .timingStep (s.modHwi fun h => { h with prevTiming := some (m + ticks) })
    let u := writeFault .timingStep size v
    have sent : StoreOnly (s.modHwi fun h => { h with prevTiming := some (m + ticks) }) v := storeOnly_sendEvent ..
    have faults : v.cfu.faults = s.cfu.faults ∧ v.cfu.minute = s.cfu.minute ∧ v.cfu.clockSet = s.cfu.clockSet := by
      rw [sent.cfu]
      exact ⟨rfl, rfl, rfl⟩
    obtain ⟨same, minute, clockSet⟩ := faults
    have hwi : u.hwi = { s.hwi with prevTiming := some (m + ticks) } := (writeFault_hwi ..).trans sent.hwi
    have tcm : u.tcm = s.tcm := (writeFault_tcm ..).trans sent.tcm
    have ctx : u.ctx = s.ctx := (writeFault_ctx ..).trans sent.ctx
    have measured : measureTiming (m + ticks) s = u := (measureTiming_of_step previous large).trans
      (retrainAll_of_no_data (s := u) .timing fun k => by rw [State.at, ctx]; exact other k)
    have effect : superframeBoundary ticks s = timeGiven u := by
      rw [superframeBoundary_of_session counts short, measured]
      refine boundary_of_standing (fun c => ?_) fun c => ?_
      · rw [hwi]
        exact few c
      · rw [hwi, State.entry, tcm]
        exact stand c
    have quiet : (timeGiven u).Quiet := by
      rw [State.Quiet, timeGiven, codesStood_notices, modHwi_rau, writeFault_rau, sent.rau]
      exact q
    refine ⟨timeGiven u, ?_, by rw [timeGiven, codesStood_prevTiming, modHwi_hwi, hwi], ?_, ?_⟩
    · rw [acts, effect]
      exact act_of_due s aligned quiet
    · rw [timeGiven, codesStood_faults, modHwi_cfu, writeFault_faults _ _ (by rw [same]; exact room), same, minute, clockSet]
    · have first : v.clc = (sendEvent none .timingStep s).clc := sendEvent_clc_congr none .timingStep rfl rfl
      have station : v.cfu.station = (sendEvent none .timingStep s).cfu.station := by
        rw [sent.cfu, (storeOnly_sendEvent none .timingStep s).cfu]
        rfl
      have written := writeFault_of_room .timingStep size (s := v) (by rw [same]; exact room)
      rw [timeGiven, codesStood_clc, modHwi_clc, show u = _ from written, clockSet]
      exact sendEvent_clc_congr none _ first station
  case contention =>
    have call := (inCall_iff _).mpr state
    let v := s.modHwi fun h => { h with prevTiming := some (m + ticks) }
    let w := forEach channelIds checkReadback v
    have ended : Contested ch k v w := forEach_checkReadback_of_contention (s := v) view call room many few
    let t := codesStood w
    have codes (c : Channel) : (w.entry c).rx = (s.entry c).rx ∧ (w.entry c).tx = (s.entry c).tx := by
      by_cases same : c = ch
      · rw [same, ended.entry]
        exact ⟨rfl, rfl⟩
      · rw [ended.others c same]
        exact ⟨rfl, rfl⟩
    have read : w.hwi.rxCodes = s.hwi.rxCodes ∧ w.hwi.txCodes = s.hwi.txCodes := by
      rw [ended.hwi]
      exact ⟨rfl, rfl⟩
    obtain ⟨rxRead, txRead⟩ := read
    have effect : superframeBoundary ticks s = t := by
      rw [superframeBoundary_of_session counts short, measureTiming_of_holds holds]
      refine boundary_of_codes (s := w) fun c => ?_
      rw [rxRead, txRead, (codes c).1, (codes c).2]
      exact stand c
    have reset : t.at k = Context.reset := by
      rw [at_codesStood, ended.reset]
      rfl
    have told : Spares id t (settle t) := by
      refine spares_settle_of_all_sessionless fun x mem => ?_
      rw [codesStood_notices] at mem
      rcases ended.tells x mem with before | ours
      · exact absurd (q ▸ before : x ∈ []) List.not_mem_nil
      · rw [ours]
        exact sessionless_reset.congr reset
    refine ⟨settle t, by rw [acts, effect, aligned, act_of_true], (told.at_eq k).trans reset, ?_, ?_, ?_⟩
    · rw [State.entry, told.tcm, ← State.entry, entry_codesStood, ended.entry]
      exact repairEntry_of_unknown rfl rfl
    · rw [told.hwi, channel_codesStood, ended.drive]
      rfl
    · rw [told.faults, codesStood_faults, ended.faults]
      rfl
  case limit =>
    rw [acts, aligned, superframeBoundary_of_limit counts limit]
    refine ⟨_, act_of_true .., ?_, ?_, ?_⟩
    · rw [settle_hwi, loseAlignment_hwi]
    · rw [settle_hwi, loseAlignment_hwi]
    · rw [settle_cfu]
      exact loseAlignment_stationTime s
  case away =>
    exact ⟨_, act_of_due s (by rw [away]; rfl) q, rfl, rfl, rfl, rfl, rfl, rfl⟩

end Sys2Proof.Machine
end

section
/-! PROOFS. What leaves the settled codes of the map and their runs as they stand: all but the delivery of codes (R50). -/
namespace Sys2Proof.Machine

/-- Every channel's settling stands, in both directions. -/
def LineKept (s t : State) : Prop := ∀ c, (t.entry c).rx = (s.entry c).rx ∧ (t.entry c).tx = (s.entry c).tx

namespace LineKept

variable {k : ContextId} {s0 s t : State}

theorem refl (s : State) : LineKept s s := fun _ => ⟨rfl, rfl⟩

theorem trans (h : LineKept s0 s) (g : LineKept s t) : LineKept s0 t := fun c =>
  ⟨(g c).1.trans (h c).1, (g c).2.trans (h c).2⟩

theorem of_tcm (same : t.tcm = s.tcm) : LineKept s t := fun c => by rw [State.entry, same, State.entry]; exact ⟨rfl, rfl⟩

theorem of_spares {α : Type} {rd : Context → α} (g : Spares rd s t) (h : LineKept s0 s) : LineKept s0 t := h.trans (of_tcm g.tcm)

/-- The state of a pair that an operation answers. -/
theorem of_eq {α : Type} {p : State × α} {a : α} (e : p = (t, a)) (h : LineKept s0 p.1) : LineKept s0 t := by
  subst e
  exact h

/-- A fold of operations that keep the settling. -/
theorem forEach {α : Type} {xs : List α} {f : α → State → State} (h : LineKept s0 s)
    (hf : ∀ x t, LineKept s0 t → LineKept s0 (f x t)) : LineKept s0 (Machine.forEach xs f s) := by
  unfold Machine.forEach
  induction xs generalizing s with
  | nil => exact h
  | cons x xs ih => exact ih (hf x s h)

theorem modClc {f : Clc → Clc} (h : LineKept s0 s) : LineKept s0 (s.modClc f) := h
theorem modRau {f : Rau → Rau} (h : LineKept s0 s) : LineKept s0 (s.modRau f) := h
theorem modCtx {f : Context → Context} (h : LineKept s0 s) : LineKept s0 (s.modCtx k f) := h
theorem modVoice {f : Voice → Voice} (h : LineKept s0 s) : LineKept s0 (s.modVoice k f) := h
theorem modVcd {f : Vcd → Vcd} (h : LineKept s0 s) : LineKept s0 (s.modVcd k f) := h
theorem modFax {f : Fax → Fax} (h : LineKept s0 s) : LineKept s0 (s.modFax k f) := h
theorem modQmn {f : Qmn → Qmn} (h : LineKept s0 s) : LineKept s0 (s.modQmn k f) := h
theorem modPump {f : Pump → Pump} (h : LineKept s0 s) : LineKept s0 (s.modPump k f) := h
theorem modChannel {c : Channel} {f : HwiChannel → HwiChannel} (h : LineKept s0 s) : LineKept s0 (s.modChannel c f) := h
theorem setBid {b : Option Bid} (h : LineKept s0 s) : LineKept s0 (s.setBid k b) := h
theorem setMsgAt {i : Nat} {m : Option Msg} (h : LineKept s0 s) : LineKept s0 (s.setMsgAt i m) :=
  of_spares (Spares.of_storeOnly (rd := id) (storeOnly_setMsgAt i m s)) h

theorem modEntry {c : Channel} {f : MapEntry → MapEntry} (h : LineKept s0 s)
    (same : (f (s.entry c)).rx = (s.entry c).rx ∧ (f (s.entry c)).tx = (s.entry c).tx) : LineKept s0 (s.modEntry c f) := by
  refine h.trans fun d => ?_
  by_cases this : d = c
  · subst this
    rw [entry_modEntry]
    exact same
  · rw [entry_modEntry_ne _ _ _ _ this]
    exact ⟨rfl, rfl⟩

end LineKept

theorem lines_writeFault {s0 s : State} {kind : FaultKind} {subject : Nat} (st : LineKept s0 s) :
    LineKept s0 (writeFault kind subject s) := st.trans (LineKept.of_tcm (writeFault_tcm kind subject s))

theorem lines_markMessage {s0 s : State} {h : Nat} {mark : Option Mark} (st : LineKept s0 s) :
    LineKept s0 (markMessage h mark s).1 := by
  unfold markMessage
  try dsimp only
  repeat' (first
    | with_reducible assumption
    | (with_reducible refine LineKept.of_spares (spares_deleteMessage (Spares.refl callPart _)) ?_)
    | with_reducible apply LineKept.setMsgAt | (refine LineKept.of_eq ‹_ = (_, _)› ?_) | (dsimp only) | split)

theorem lines_askBlock {s0 s : State} {k : ContextId} {source : Source} {index : Nat} (st : LineKept s0 s) :
    LineKept s0 (askBlock k source index s).1 := by
  unfold askBlock
  try dsimp only
  repeat' (first
    | with_reducible assumption
    | (with_reducible refine LineKept.of_spares (spares_fetchAsk (Spares.refl callPart _)) ?_)
    | (with_reducible refine LineKept.of_spares (spares_readBlockFor (Spares.refl callPart _)) ?_)
    | (refine LineKept.of_eq ‹_ = (_, _)› ?_) | (dsimp only) | split)

theorem lines_askNext {s0 s : State} {k : ContextId} {source : Source} {blocks : Nat} {needed : Nat} {b : Buffer} (st : LineKept s0 s) :
    LineKept s0 (askNext k source blocks needed b s).1 := by
  unfold askNext
  try dsimp only
  repeat' (first
    | with_reducible assumption | with_reducible apply lines_askBlock | (refine LineKept.of_eq ‹_ = (_, _)› ?_)
    | (dsimp only) | split)

theorem lines_fillBuffer {s0 s : State} {k : ContextId} {source : Source} {blocks : Nat} {needed : Nat} {b : Buffer} (st : LineKept s0 s) :
    LineKept s0 (fillBuffer k source blocks needed b s).1 := by
  unfold fillBuffer
  try dsimp only
  repeat' (first
    | with_reducible assumption | with_reducible apply lines_askNext)

theorem lines_setView {s0 s : State} {c : Channel} {v : View} {timer : Option Nat} (st : LineKept s0 s) :
    LineKept s0 (setView c v timer s) := st.modEntry ⟨rfl, rfl⟩

theorem lines_endDrive {s0 s : State} {c : Channel} (st : LineKept s0 s) : LineKept s0 (endDrive c s) :=
  st.modChannel

theorem lines_freeContext {s0 s : State} {k : ContextId} (st : LineKept s0 s) :
    LineKept s0 (freeContext k s) := by
  unfold freeContext
  try dsimp only
  repeat' (first
    | with_reducible assumption
    | (with_reducible refine LineKept.of_spares (spares_releaseHeld (Spares.refl callPart _)) ?_)
    | with_reducible apply LineKept.modCtx)

theorem lines_enterClearing {s0 s : State} {k : ContextId} (st : LineKept s0 s) :
    LineKept s0 (enterClearing k s) := by
  unfold enterClearing
  try dsimp only
  repeat' (first
    | with_reducible assumption
    | (with_reducible refine LineKept.of_spares (spares_sendRelease (Spares.refl callPart _)) ?_)
    | with_reducible apply LineKept.modCtx | (refine LineKept.of_eq ‹_ = (_, _)› ?_) | (dsimp only) | split)

theorem lines_leaveChannel {s0 s : State} {k : ContextId} {cause : Byte} (st : LineKept s0 s) :
    LineKept s0 (leaveChannel k cause s) := by
  unfold leaveChannel
  try dsimp only
  repeat' (first
    | with_reducible assumption | with_reducible apply lines_enterClearing | with_reducible apply lines_freeContext
    | with_reducible apply lines_endDrive | with_reducible apply lines_setView
    | (with_reducible refine LineKept.of_spares (spares_sendRelease (Spares.refl callPart _)) ?_)
    | (refine LineKept.of_eq ‹_ = (_, _)› ?_) | (dsimp only) | split)

theorem lines_endCall {s0 s : State} {k : ContextId} {cause : Byte} (st : LineKept s0 s) :
    LineKept s0 (endCall k cause s) := by
  unfold endCall
  try dsimp only
  repeat' (first
    | with_reducible assumption | with_reducible apply lines_leaveChannel
    | (with_reducible refine LineKept.of_spares (spares_outdialDone _ _ _) ?_)
    | (with_reducible refine LineKept.of_spares (spares_announceUnknown _ _) ?_)
    | (with_reducible refine LineKept.of_spares (spares_windDown (Spares.refl callPart _)) ?_)
    | (with_reducible refine LineKept.of_spares (spares_sendEvent (Spares.refl callPart _)) ?_)
    | (refine LineKept.of_eq ‹_ = (_, _)› ?_) | (dsimp only) | split)

theorem lines_enterWaiting {s0 s : State} {k : ContextId} (st : LineKept s0 s) : LineKept s0 (enterWaiting k s) :=
  st.modVoice

theorem lines_recordingOver {s0 s : State} {k : ContextId} (st : LineKept s0 s) :
    LineKept s0 (recordingOver k s) := by
  unfold recordingOver
  try dsimp only
  repeat' (first
    | with_reducible assumption | with_reducible apply lines_enterWaiting | with_reducible apply lines_endCall
    | (refine LineKept.of_eq ‹_ = (_, _)› ?_) | (dsimp only) | split)

theorem lines_beginDeposit {s0 s : State} {k : ContextId} (st : LineKept s0 s) :
    LineKept s0 (beginDeposit k s) := by
  unfold beginDeposit
  try dsimp only
  repeat' (first
    | with_reducible assumption
    | (with_reducible refine LineKept.of_spares (spares_startDeposit (Spares.refl callPart _)) ?_)
    | with_reducible apply LineKept.modVoice | with_reducible apply LineKept.modVcd)

theorem lines_recordingDepositEnded {s0 s : State} {k : ContextId} {d : OutDeposit} {o : DepositOutcome} (st : LineKept s0 s) :
    LineKept s0 (recordingDepositEnded k d o s) := by
  unfold recordingDepositEnded
  try dsimp only
  repeat' (first
    | with_reducible assumption
    | (with_reducible refine LineKept.of_spares (spares_reportDeposit id _ _ _ _) ?_)
    | with_reducible apply lines_recordingOver
    | (with_reducible refine LineKept.of_spares (spares_abandonRecording (Spares.refl callPart _)) ?_)
    | (with_reducible refine LineKept.of_spares (spares_dropRecording (Spares.refl callPart _)) ?_)
    | (refine LineKept.of_eq ‹_ = (_, _)› ?_) | (dsimp only) | split)

theorem lines_startBeep {s0 s : State} {k : ContextId} (st : LineKept s0 s) : LineKept s0 (startBeep k s) :=
  st.modVoice.modCtx

theorem lines_playbackOver {s0 s : State} {k : ContextId} {result : Byte} (st : LineKept s0 s) :
    LineKept s0 (playbackOver k result s) := by
  unfold playbackOver
  try dsimp only
  repeat' (first
    | with_reducible assumption | with_reducible apply lines_startBeep | with_reducible apply lines_enterWaiting
    | with_reducible apply lines_endCall
    | (with_reducible refine LineKept.of_spares (spares_sendPlayDone (Spares.refl callPart _)) ?_)
    | with_reducible apply LineKept.modVoice | (refine LineKept.of_eq ‹_ = (_, _)› ?_) | (dsimp only) | split)

theorem lines_loadBlock {s0 s : State} {k : ContextId} {b : Nat} {block : List Byte} (st : LineKept s0 s) :
    LineKept s0 (loadBlock k b block s) :=
  st.modVcd

theorem lines_moveDecoder {s0 s : State} {k : ContextId} {b : Nat} (st : LineKept s0 s) :
    LineKept s0 (moveDecoder k b s) := by
  unfold moveDecoder
  try dsimp only
  repeat' (first
    | with_reducible assumption | with_reducible apply lines_loadBlock
    | (with_reducible refine LineKept.of_spares (spares_fetchSettle (Spares.refl callPart _)) ?_)
    | with_reducible apply LineKept.modVcd | (refine LineKept.of_eq ‹_ = (_, _)› ?_) | (dsimp only) | split)

theorem lines_refillPlayback {s0 s : State} {k : ContextId} {needed : Nat} (st : LineKept s0 s) :
    LineKept s0 (refillPlayback k needed s) := by
  unfold refillPlayback
  try dsimp only
  repeat' (first
    | with_reducible assumption | with_reducible apply lines_fillBuffer | with_reducible apply LineKept.modVcd
    | (refine LineKept.of_eq ‹_ = (_, _)› ?_) | (dsimp only) | split)

theorem lines_markHeard {s0 s : State} {k : ContextId} (st : LineKept s0 s) :
    LineKept s0 (markHeard k s) := by
  unfold markHeard
  try dsimp only
  repeat' (first
    | with_reducible assumption | with_reducible apply lines_markMessage
    | (with_reducible refine LineKept.of_spares (spares_offerOther (Spares.refl callPart _)) ?_)
    | (refine LineKept.of_eq ‹_ = (_, _)› ?_) | (dsimp only) | split)

theorem lines_playbackReachesEnd {s0 s : State} {k : ContextId} (st : LineKept s0 s) :
    LineKept s0 (playbackReachesEnd k s) := by
  unfold playbackReachesEnd
  try dsimp only
  repeat' (first
    | with_reducible assumption | with_reducible apply lines_markHeard | with_reducible apply lines_playbackOver
    | (with_reducible refine LineKept.of_spares (spares_stopPlayback (Spares.refl callPart _)) ?_))

theorem lines_beginDecoding {s0 s : State} {k : ContextId} {source : Source} {kind : MsgKind} {length : Nat} {blocks : Nat} (st : LineKept s0 s) :
    LineKept s0 (beginDecoding k source kind length blocks s) := by
  unfold beginDecoding
  try dsimp only
  repeat' (first
    | with_reducible assumption | with_reducible apply lines_playbackReachesEnd
    | with_reducible apply lines_refillPlayback | with_reducible apply lines_moveDecoder
    | with_reducible apply LineKept.modVcd | (refine LineKept.of_eq ‹_ = (_, _)› ?_) | (dsimp only) | split)

theorem lines_playGranted {s0 s : State} {k : ContextId} {source : Source} {kind : Option MsgKind} {length : Nat} {blocks : Nat} (st : LineKept s0 s) :
    LineKept s0 (playGranted k source kind length blocks s) := by
  unfold playGranted
  try dsimp only
  repeat' (first
    | with_reducible assumption | with_reducible apply lines_beginDecoding | with_reducible apply lines_playbackOver
    | (with_reducible refine LineKept.of_spares (spares_leaveSource (Spares.refl callPart _)) ?_)
    | (refine LineKept.of_eq ‹_ = (_, _)› ?_) | (dsimp only) | split)

theorem lines_beginPlay {s0 s : State} {k : ContextId} {target : PlayTarget} {start : Nat} (st : LineKept s0 s) :
    LineKept s0 (beginPlay k target start s) := by
  unfold beginPlay
  try dsimp only
  repeat' (first
    | with_reducible assumption | with_reducible apply lines_playGranted | with_reducible apply lines_playbackOver
    | (with_reducible refine LineKept.of_spares (spares_startFetch (Spares.refl callPart _)) ?_)
    | (with_reducible refine LineKept.of_spares (spares_readOpen (Spares.refl callPart _)) ?_)
    | with_reducible apply LineKept.modVoice | with_reducible apply LineKept.modVcd
    | (refine LineKept.of_eq ‹_ = (_, _)› ?_) | (dsimp only) | split)

theorem lines_playFetchEnded {s0 s : State} {k : ContextId} {o : FetchOutcome} (st : LineKept s0 s) :
    LineKept s0 (playFetchEnded k o s) := by
  unfold playFetchEnded
  try dsimp only
  repeat' (first
    | with_reducible assumption | with_reducible apply lines_playbackOver
    | (with_reducible refine LineKept.of_spares (spares_stopPlayback (Spares.refl callPart _)) ?_))

theorem lines_sendControl {s0 s : State} {k : ContextId} {f : ControlFrame} (st : LineKept s0 s) :
    LineKept s0 (sendControl k f s) :=
  st.modPump

theorem lines_setPump {s0 s : State} {k : ContextId} {p : PumpState} (st : LineKept s0 s) :
    LineKept s0 (setPump k p s) :=
  st.modPump

theorem lines_enterPhase {s0 s : State} {k : ContextId} {phase : FaxPhase} {wait : Option Nat} (st : LineKept s0 s) :
    LineKept s0 (enterPhase k phase wait s) :=
  st.modFax

theorem lines_faxSessionEnds {s0 s : State} {k : ContextId} {result : Byte} (st : LineKept s0 s) :
    LineKept s0 (faxSessionEnds k result s) := by
  unfold faxSessionEnds
  try dsimp only
  repeat' (first
    | with_reducible assumption | with_reducible apply lines_endCall
    | (with_reducible refine LineKept.of_spares (spares_clearFax (Spares.refl callPart _)) ?_)
    | (with_reducible refine LineKept.of_spares (spares_sendFaxDone (Spares.refl callPart _)) ?_)
    | (with_reducible refine LineKept.of_spares (spares_leaveFaxSource (Spares.refl callPart _)) ?_)
    | with_reducible apply LineKept.modCtx)

theorem lines_sendDisconnect {s0 s : State} {k : ContextId} {result : Byte} (st : LineKept s0 s) :
    LineKept s0 (sendDisconnect k result s) := by
  unfold sendDisconnect
  try dsimp only
  repeat' (first
    | with_reducible assumption | with_reducible apply lines_enterPhase | with_reducible apply lines_sendControl
    | with_reducible apply LineKept.modFax)

theorem lines_endReceive {s0 s : State} {k : ContextId} {frame : Bool} {close : Option Byte} {result : Byte} (st : LineKept s0 s) :
    LineKept s0 (endReceive k frame close result s) := by
  unfold endReceive
  try dsimp only
  repeat' (first
    | with_reducible assumption | with_reducible apply lines_sendDisconnect
    | with_reducible apply lines_faxSessionEnds
    | (with_reducible refine LineKept.of_spares (spares_closeFaxTarget (Spares.refl callPart _)) ?_)
    | with_reducible apply LineKept.modFax | (refine LineKept.of_eq ‹_ = (_, _)› ?_) | (dsimp only) | split)

theorem lines_endSend {s0 s : State} {k : ContextId} {result : Byte} (st : LineKept s0 s) :
    LineKept s0 (endSend k result s) := by
  unfold endSend
  try dsimp only
  repeat' (first
    | with_reducible assumption | with_reducible apply lines_sendDisconnect
    | with_reducible apply lines_faxSessionEnds | (refine LineKept.of_eq ‹_ = (_, _)› ?_) | (dsimp only) | split)

theorem lines_awaitMode {s0 s : State} {k : ContextId} (st : LineKept s0 s) :
    LineKept s0 (awaitMode k s) := by
  unfold awaitMode
  try dsimp only
  repeat' (first
    | with_reducible assumption | with_reducible apply lines_enterPhase)

theorem lines_sendCapability {s0 s : State} {k : ContextId} (st : LineKept s0 s) :
    LineKept s0 (sendCapability k s) := by
  unfold sendCapability
  try dsimp only
  repeat' (first
    | with_reducible assumption | with_reducible apply lines_awaitMode | with_reducible apply lines_sendControl)

theorem lines_beginFaxDeposit {s0 s : State} {k : ContextId} (st : LineKept s0 s) :
    LineKept s0 (beginFaxDeposit k s) := by
  unfold beginFaxDeposit
  try dsimp only
  repeat' (first
    | with_reducible assumption | with_reducible apply lines_sendCapability
    | (with_reducible refine LineKept.of_spares (spares_startDeposit (Spares.refl callPart _)) ?_)
    | with_reducible apply LineKept.modFax)

theorem lines_enterFaxSession {s0 s : State} {k : ContextId} {role : FaxRole} (st : LineKept s0 s) :
    LineKept s0 (enterFaxSession k role s) := by
  unfold enterFaxSession
  try dsimp only
  repeat' (first
    | with_reducible assumption | with_reducible apply lines_setPump | with_reducible apply LineKept.modCtx)

theorem lines_trainSend {s0 s : State} {k : ContextId} (st : LineKept s0 s) :
    LineKept s0 (trainSend k s) := by
  unfold trainSend
  try dsimp only
  repeat' (first
    | with_reducible assumption | with_reducible apply lines_enterPhase | with_reducible apply lines_setPump
    | with_reducible apply lines_sendControl | with_reducible apply LineKept.modFax)

theorem lines_takeCapability {s0 s : State} {k : ContextId} {c : Nat} (st : LineKept s0 s) :
    LineKept s0 (takeCapability k c s) := by
  unfold takeCapability
  try dsimp only
  repeat' (first
    | with_reducible assumption | with_reducible apply lines_trainSend | with_reducible apply LineKept.modFax)

theorem lines_askFaxBlock {s0 s : State} {k : ContextId} {index : Nat} (st : LineKept s0 s) :
    LineKept s0 (askFaxBlock k index s) := by
  unfold askFaxBlock
  try dsimp only
  repeat' (first
    | with_reducible assumption | with_reducible apply lines_askBlock | with_reducible apply LineKept.modFax
    | (refine LineKept.of_eq ‹_ = (_, _)› ?_) | (dsimp only) | split)

theorem lines_bufferFrom {s0 s : State} {k : ContextId} {b : Nat} (st : LineKept s0 s) :
    LineKept s0 (bufferFrom k b s) := by
  unfold bufferFrom
  try dsimp only
  repeat' (first
    | with_reducible assumption | with_reducible apply lines_askFaxBlock
    | (with_reducible refine LineKept.of_spares (spares_fetchSettle (Spares.refl callPart _)) ?_)
    | with_reducible apply LineKept.modFax | (refine LineKept.forEach ?_ (fun _ _ _ => ?_))
    | (refine LineKept.of_eq ‹_ = (_, _)› ?_) | (dsimp only) | split)

theorem lines_faxGranted {s0 s : State} {k : ContextId} {source : Source} {kind : Option MsgKind} {blocks : Nat} (st : LineKept s0 s) :
    LineKept s0 (faxGranted k source kind blocks s) := by
  unfold faxGranted
  try dsimp only
  repeat' (first
    | with_reducible assumption | with_reducible apply lines_bufferFrom | with_reducible apply lines_takeCapability
    | with_reducible apply lines_endSend
    | (with_reducible refine LineKept.of_spares (spares_leaveSource (Spares.refl callPart _)) ?_)
    | with_reducible apply LineKept.modFax | (refine LineKept.of_eq ‹_ = (_, _)› ?_) | (dsimp only) | split)

theorem lines_startFaxSend {s0 s : State} {k : ContextId} {home : Nat} {handle : Nat} (st : LineKept s0 s) :
    LineKept s0 (startFaxSend k home handle s) := by
  unfold startFaxSend
  try dsimp only
  repeat' (first
    | with_reducible assumption | with_reducible apply lines_faxGranted | with_reducible apply lines_enterFaxSession
    | with_reducible apply lines_endSend | with_reducible apply lines_enterPhase
    | (with_reducible refine LineKept.of_spares (spares_startFetch (Spares.refl callPart _)) ?_)
    | (with_reducible refine LineKept.of_spares (spares_readOpen (Spares.refl callPart _)) ?_)
    | (refine LineKept.of_eq ‹_ = (_, _)› ?_) | (dsimp only) | split)

theorem lines_faxFetchEnded {s0 s : State} {k : ContextId} {o : FetchOutcome} (st : LineKept s0 s) :
    LineKept s0 (faxFetchEnded k o s) := by
  unfold faxFetchEnded
  try dsimp only
  repeat' (first
    | with_reducible assumption | with_reducible apply lines_endSend
    | (with_reducible refine LineKept.of_spares (spares_endFetch (Spares.refl callPart _)) ?_)
    | with_reducible apply LineKept.modFax | (refine LineKept.of_eq ‹_ = (_, _)› ?_) | (dsimp only) | split)

theorem lines_faxDepositEnded {s0 s : State} {k : ContextId} {d : OutDeposit} {o : DepositOutcome} (st : LineKept s0 s) :
    LineKept s0 (faxDepositEnded k d o s) := by
  unfold faxDepositEnded
  try dsimp only
  repeat' (first
    | with_reducible assumption | with_reducible apply lines_endReceive | (refine LineKept.of_eq ‹_ = (_, _)› ?_)
    | (dsimp only) | split)

theorem lines_startData {s0 s : State} {k : ContextId} {mode : DataMode} {bounds : Nat × Nat} (st : LineKept s0 s) :
    LineKept s0 (startData k mode bounds s) :=
  st.modCtx

theorem lines_dataEnds {s0 s : State} {k : ContextId} {cause : Byte} (st : LineKept s0 s) :
    LineKept s0 (dataEnds k cause s) := by
  unfold dataEnds
  try dsimp only
  repeat' (first
    | with_reducible assumption | with_reducible apply lines_endCall)

theorem lines_retrain {s0 s : State} {k : ContextId} {target : Nat} {reason : RateReason} (st : LineKept s0 s) :
    LineKept s0 (retrain k target reason s) := by
  unfold retrain
  try dsimp only
  repeat' (first
    | with_reducible assumption | with_reducible apply lines_dataEnds | with_reducible apply lines_setPump
    | with_reducible apply LineKept.modQmn | (refine LineKept.of_eq ‹_ = (_, _)› ?_) | (dsimp only) | split)

theorem lines_trainAgain {s0 s : State} {k : ContextId} (st : LineKept s0 s) : LineKept s0 (trainAgain k s) :=
  st.modQmn

theorem lines_askRetrain {s0 s : State} {k : ContextId} {reason : RateReason} (st : LineKept s0 s) :
    LineKept s0 (askRetrain k reason s) := by
  unfold askRetrain
  try dsimp only
  repeat' (first
    | with_reducible assumption | with_reducible apply lines_trainAgain | with_reducible apply lines_retrain
    | (refine LineKept.of_eq ‹_ = (_, _)› ?_) | (dsimp only) | split)

theorem lines_retrainAll {s0 s : State} {reason : RateReason} (st : LineKept s0 s) :
    LineKept s0 (retrainAll reason s) := by
  unfold retrainAll
  try dsimp only
  repeat' (first
    | with_reducible assumption | with_reducible apply lines_askRetrain
    | (refine LineKept.forEach ?_ (fun _ _ _ => ?_)) | (refine LineKept.of_eq ‹_ = (_, _)› ?_) | (dsimp only) | split)

theorem lines_enterDiscriminating {s0 s : State} {k : ContextId} (st : LineKept s0 s) :
    LineKept s0 (enterDiscriminating k s) := by
  unfold enterDiscriminating
  try dsimp only
  repeat' (first
    | with_reducible assumption | with_reducible apply lines_beginPlay | with_reducible apply LineKept.modCtx)

theorem lines_enterAnswering {s0 s : State} {k : ContextId} (st : LineKept s0 s) :
    LineKept s0 (enterAnswering k s) := by
  unfold enterAnswering
  try dsimp only
  repeat' (first
    | with_reducible assumption | with_reducible apply lines_enterDiscriminating
    | with_reducible apply LineKept.modCtx | (refine LineKept.of_eq ‹_ = (_, _)› ?_) | (dsimp only) | split)

theorem lines_collectionEnds {s0 s : State} {k : ContextId} {mailbox : Nat} (st : LineKept s0 s) :
    LineKept s0 (collectionEnds k mailbox s) := by
  unfold collectionEnds
  try dsimp only
  repeat' (first
    | with_reducible assumption | with_reducible apply lines_enterAnswering
    | (with_reducible refine LineKept.of_spares (spares_sendEvent (Spares.refl callPart _)) ?_)
    | with_reducible apply LineKept.modCtx | (refine LineKept.of_eq ‹_ = (_, _)› ?_) | (dsimp only) | split)

theorem lines_enterAddressing {s0 s : State} {k : ContextId} (st : LineKept s0 s) :
    LineKept s0 (enterAddressing k s) := by
  unfold enterAddressing
  try dsimp only
  repeat' (first
    | with_reducible assumption | with_reducible apply lines_collectionEnds | with_reducible apply LineKept.modCtx
    | (refine LineKept.of_eq ‹_ = (_, _)› ?_) | (dsimp only) | split)

theorem lines_answered {s0 s : State} {k : ContextId} (st : LineKept s0 s) :
    LineKept s0 (answered k s) := by
  unfold answered
  try dsimp only
  repeat' (first
    | with_reducible assumption | with_reducible apply lines_startData | with_reducible apply lines_startFaxSend
    | with_reducible apply lines_beginPlay | with_reducible apply lines_enterWaiting
    | (with_reducible refine LineKept.of_spares (spares_outdialDone _ _ _) ?_)
    | with_reducible apply LineKept.modCtx | (refine LineKept.of_eq ‹_ = (_, _)› ?_) | (dsimp only) | split)

theorem lines_chooseFor {s0 s : State} {k : ContextId} (st : LineKept s0 s) :
    LineKept s0 (chooseFor k s).1 := by
  unfold chooseFor
  try dsimp only
  repeat' (first
    | with_reducible assumption
    | (with_reducible refine LineKept.of_spares (spares_offerClaim (Spares.refl callPart _)) ?_)
    | with_reducible apply LineKept.modCtx | with_reducible apply LineKept.setBid
    | (refine LineKept.of_eq ‹_ = (_, _)› ?_) | (dsimp only) | split)

theorem lines_outdialFails {s0 s : State} {k : ContextId} {result : Byte} (st : LineKept s0 s) :
    LineKept s0 (outdialFails k result s) := by
  unfold outdialFails
  try dsimp only
  repeat' (first
    | with_reducible assumption
    | (with_reducible refine LineKept.of_spares (spares_outdialDone _ _ _) ?_)
    | with_reducible apply lines_freeContext)

theorem lines_chooseAgain {s0 s : State} {k : ContextId} (st : LineKept s0 s) :
    LineKept s0 (chooseAgain k s) := by
  unfold chooseAgain
  try dsimp only
  repeat' (first
    | with_reducible assumption | with_reducible apply lines_outdialFails | with_reducible apply lines_chooseFor
    | with_reducible apply lines_freeContext | with_reducible apply LineKept.modCtx
    | (refine LineKept.of_eq ‹_ = (_, _)› ?_) | (dsimp only) | split)

theorem lines_offerBid {s0 s : State} {k : ContextId} {c : Channel} (st : LineKept s0 s) :
    LineKept s0 (offerBid k c s) := by
  unfold offerBid
  try dsimp only
  repeat' (first
    | with_reducible assumption | with_reducible apply lines_freeContext
    | (with_reducible refine LineKept.of_spares (spares_offerClaim (Spares.refl callPart _)) ?_)
    | with_reducible apply LineKept.setBid | (refine LineKept.of_eq ‹_ = (_, _)› ?_) | (dsimp only) | split)

theorem lines_examineBid {s0 s : State} {c : Channel} (st : LineKept s0 s) :
    LineKept s0 (examineBid c s) := by
  unfold examineBid
  try dsimp only
  repeat' (first
    | with_reducible assumption | with_reducible apply lines_offerBid | with_reducible apply LineKept.modCtx
    | with_reducible apply LineKept.setBid | (refine LineKept.of_eq ‹_ = (_, _)› ?_) | (dsimp only) | split)

theorem lines_withdrawalTaken {s0 s : State} {k : ContextId} {b : Bid} {reason : WithdrawReason} (st : LineKept s0 s) :
    LineKept s0 (withdrawalTaken k b reason s) := by
  unfold withdrawalTaken
  try dsimp only
  repeat' (first
    | with_reducible assumption | with_reducible apply lines_chooseAgain | with_reducible apply lines_outdialFails
    | with_reducible apply lines_freeContext | with_reducible apply LineKept.setBid
    | (refine LineKept.of_eq ‹_ = (_, _)› ?_) | (dsimp only) | split)

theorem lines_withdraw {s0 s : State} {k : ContextId} {reason : WithdrawReason} (st : LineKept s0 s) :
    LineKept s0 (withdraw k reason s) := by
  unfold withdraw
  try dsimp only
  repeat' (first
    | with_reducible assumption | with_reducible apply lines_withdrawalTaken | with_reducible apply LineKept.modClc
    | with_reducible apply LineKept.setBid | (refine LineKept.of_eq ‹_ = (_, _)› ?_) | (dsimp only) | split)

theorem lines_retryElsewhere {s0 s : State} {k : ContextId} {o : Outgoing} (st : LineKept s0 s) :
    LineKept s0 (retryElsewhere k o s) := by
  unfold retryElsewhere
  try dsimp only
  repeat' (first
    | with_reducible assumption | with_reducible apply lines_outdialFails | with_reducible apply lines_chooseFor
    | (with_reducible refine LineKept.of_spares (spares_outdialDone _ _ _) ?_)
    | (with_reducible refine LineKept.of_spares (spares_sendEvent (Spares.refl callPart _)) ?_)
    | with_reducible apply LineKept.modCtx | (refine LineKept.of_eq ‹_ = (_, _)› ?_) | (dsimp only) | split)

theorem lines_glare {s0 s : State} {k : ContextId} (st : LineKept s0 s) :
    LineKept s0 (glare k s) := by
  unfold glare
  try dsimp only
  repeat' (first
    | with_reducible assumption | with_reducible apply lines_retryElsewhere
    | with_reducible apply lines_enterAddressing | with_reducible apply LineKept.modCtx
    | (refine LineKept.of_eq ‹_ = (_, _)› ?_) | (dsimp only) | split)

theorem lines_lineCode {s0 s : State} {k : ContextId} {code : LineCode} (st : LineKept s0 s) :
    LineKept s0 (lineCode k code s) := by
  unfold lineCode
  try dsimp only
  repeat' (first
    | with_reducible assumption | with_reducible apply lines_glare | with_reducible apply lines_answered
    | with_reducible apply lines_endCall | (refine LineKept.of_eq ‹_ = (_, _)› ?_) | (dsimp only) | split)

theorem lines_viewAfterChange {s0 s : State} {c : Channel} {code : LineCode} (st : LineKept s0 s) :
    LineKept s0 (viewAfterChange c code s) := by
  unfold viewAfterChange
  try dsimp only
  repeat' (first
    | with_reducible assumption | with_reducible apply lines_setView | (refine LineKept.of_eq ‹_ = (_, _)› ?_)
    | (dsimp only) | split)

theorem lines_codeAtClaimer {s0 s : State} {k : ContextId} {code : LineCode} (st : LineKept s0 s) :
    LineKept s0 (codeAtClaimer k code s) := by
  unfold codeAtClaimer
  try dsimp only
  repeat' (first
    | with_reducible assumption | with_reducible apply lines_withdraw | (refine LineKept.of_eq ‹_ = (_, _)› ?_)
    | (dsimp only) | split)

theorem lines_codeAtClearer {s0 s : State} {k : ContextId} {code : LineCode} (st : LineKept s0 s) :
    LineKept s0 (codeAtClearer k code s) := by
  unfold codeAtClearer
  try dsimp only
  repeat' (first
    | with_reducible assumption | with_reducible apply lines_freeContext | (refine LineKept.of_eq ‹_ = (_, _)› ?_)
    | (dsimp only) | split)

theorem lines_reportChange {s0 s : State} {c : Channel} {code : LineCode} (st : LineKept s0 s) :
    LineKept s0 (reportChange c code s) := by
  unfold reportChange
  try dsimp only
  repeat' (first
    | with_reducible assumption | with_reducible apply lines_codeAtClearer | with_reducible apply lines_codeAtClaimer
    | with_reducible apply lines_lineCode | (refine LineKept.of_eq ‹_ = (_, _)› ?_) | (dsimp only) | split)

theorem lines_receiveChange {s0 s : State} {c : Channel} {code : LineCode} (st : LineKept s0 s) :
    LineKept s0 (receiveChange c code s) := by
  unfold receiveChange
  try dsimp only
  repeat' (first
    | with_reducible assumption | with_reducible apply lines_reportChange | with_reducible apply lines_viewAfterChange
    | with_reducible apply lines_examineBid | (refine LineKept.of_eq ‹_ = (_, _)› ?_) | (dsimp only) | split)

theorem lines_contention {s0 s : State} {c : Channel} (st : LineKept s0 s) :
    LineKept s0 (contention c s) := by
  unfold contention
  try dsimp only
  repeat' (first
    | with_reducible assumption | with_reducible apply lines_endCall | with_reducible apply lines_freeContext
    | with_reducible apply lines_endDrive | with_reducible apply lines_setView | with_reducible apply lines_writeFault
    | (refine LineKept.of_eq ‹_ = (_, _)› ?_) | (dsimp only) | split)

theorem lines_afterDeposit {s0 s : State} {k : ContextId} (st : LineKept s0 s) :
    LineKept s0 (afterDeposit k s) := by
  unfold afterDeposit
  try dsimp only
  repeat' (first
    | with_reducible assumption | with_reducible apply lines_beginFaxDeposit | with_reducible apply lines_beginDeposit
    | (refine LineKept.of_eq ‹_ = (_, _)› ?_) | (dsimp only) | split)

theorem lines_depositEnds {s0 s : State} {k : ContextId} {d : OutDeposit} {o : DepositOutcome} (st : LineKept s0 s) :
    LineKept s0 (depositEnds k d o s) := by
  unfold depositEnds
  try dsimp only
  repeat' (first
    | with_reducible assumption | with_reducible apply lines_afterDeposit | with_reducible apply lines_faxDepositEnded
    | with_reducible apply lines_recordingDepositEnded
    | (with_reducible refine LineKept.of_spares (spares_freeDeposit (Spares.refl callPart _)) ?_)
    | (refine LineKept.of_eq ‹_ = (_, _)› ?_) | (dsimp only) | split)

theorem lines_fetchEnds {s0 s : State} {k : ContextId} {o : FetchOutcome} (st : LineKept s0 s) :
    LineKept s0 (fetchEnds k o s) := by
  unfold fetchEnds
  try dsimp only
  repeat' (first
    | with_reducible assumption | with_reducible apply lines_faxFetchEnded | with_reducible apply lines_playFetchEnded
    | (with_reducible refine LineKept.of_spares (spares_endFetch (Spares.refl callPart _)) ?_)
    | (refine LineKept.of_eq ‹_ = (_, _)› ?_) | (dsimp only) | split)

theorem lines_undelivered {s0 s : State} {k : ContextId} {kind : Byte} {serial : Nat} (st : LineKept s0 s) :
    LineKept s0 (undelivered k kind serial s) := by
  unfold undelivered
  try dsimp only
  repeat' (first
    | with_reducible assumption | with_reducible apply lines_fetchEnds | with_reducible apply lines_depositEnds
    | (refine LineKept.of_eq ‹_ = (_, _)› ?_) | (dsimp only) | split)

theorem lines_settleNotices {s0 s : State} {n : Nat} (st : LineKept s0 s) : LineKept s0 (settleNotices n s) := by
  induction n generalizing s with
  | zero => exact st
  | succ n ih =>
    unfold settleNotices
    split
    · exact st
    · exact ih (lines_undelivered st.modRau)

theorem lines_settle {s0 s : State} (st : LineKept s0 s) : LineKept s0 (settle s) :=
  (lines_settleNotices st).modRau

theorem lines_checkReadback {c : Channel} (st : LineKept s0 s) : LineKept s0 (checkReadback c s) := by
  unfold checkReadback
  dsimp only
  split
  · exact lines_contention st.modChannel
  · exact st.modChannel

end Sys2Proof.Machine
end

section
/-! PROOFS. The family of the settled codes: how a delivered code moves a run, and what a receive code that settles alone
does (R50, R51, R55, R57, R65, R66, R72, R81). -/
namespace Sys2Proof.Machine

/-! ### A delivered code (R50) -/

theorem deliver_of_run {count : Nat} {code : LineCode} {x : Settling} (new : code ≠ x.settled) : x.deliver count code
    = if count ≤ (if x.candidate = some code then x.run + 1 else 1) then ({ settled := code, candidate := none, run := 0 }, true)
      else ({ x with candidate := some code, run := if x.candidate = some code then x.run + 1 else 1 }, false) := by
  simp only [Settling.deliver, new, if_false]

/-- R50: a code delivered, by whether it is the settled one and by the length of its run. -/
theorem deliver_spec (count : Nat) (code : LineCode) (x : Settling) :
    (code = x.settled → (x.deliver count code).1 = { x with candidate := none, run := 0 })
    ∧ (code ≠ x.settled →
      let run := if x.candidate = some code then x.run + 1 else 1
      (run < count → (x.deliver count code).1 = { x with candidate := some code, run })
      ∧ (count ≤ run → (x.deliver count code).1 = { settled := code, candidate := none, run := 0 }))
    ∧ ((x.deliver count code).2 = true ↔ (x.deliver count code).1.settled ≠ x.settled) := by
  by_cases settled : code = x.settled
  · subst settled
    rw [deliver_of_settled]
    exact ⟨fun _ => rfl, fun new => absurd rfl new, by simp [stood]⟩
  · rw [deliver_of_run settled]
    refine ⟨fun same => absurd same settled, fun _ => ⟨fun short => ?_, fun full => ?_⟩, ?_⟩
    · rw [if_neg (Nat.not_le.mpr short)]
    · rw [if_pos full]
    · by_cases full : count ≤ (if x.candidate = some code then x.run + 1 else 1)
      · rw [if_pos full]
        simpa using settled
      · rw [if_neg full]
        simp

/-! ### The delivery at a boundary (R50, R51) -/

theorem entrySettled_rx (f g : Settling → Settling × Bool) (e : MapEntry) : (entrySettled f g e).rx = (g e.rx).1 := rfl
theorem entrySettled_tx (f g : Settling → Settling × Bool) (e : MapEntry) : (entrySettled f g e).tx = (f e.tx).1 := rfl

theorem lines_settleWith (f g : Settling → Settling × Bool) (c : Channel) (s : State) :
    LineKept (s.modEntry c (entrySettled f g)) (settleWith f g c s) := by
  rw [settleWith_eq]
  split
  · exact lines_receiveChange (LineKept.refl _)
  · exact LineKept.refl _

/-- R50: each channel of a sweep takes its codes, whatever its settled change causes. -/
theorem forEach_deliverAt_codes {xs : List Channel} (s t : State) (distinct : xs.Nodup) (c : Channel) :
    ((forEach xs (deliverAt s) t).entry c).rx
      = (if c ∈ xs then ((t.entry c).rx.deliver (settleCount s) (s.hwi.rxCodes.get c)).1 else (t.entry c).rx)
    ∧ ((forEach xs (deliverAt s) t).entry c).tx
      = (if c ∈ xs then ((t.entry c).tx.deliver (settleCount s) (s.hwi.txCodes.get c)).1 else (t.entry c).tx) := by
  induction xs generalizing t with
  | nil => exact ⟨rfl, rfl⟩
  | cons d xs ih =>
    obtain ⟨new, distinct⟩ := List.nodup_cons.mp distinct
    obtain ⟨rx, tx⟩ := lines_settleWith (Settling.deliver (settleCount s) (s.hwi.txCodes.get d))
      (Settling.deliver (settleCount s) (s.hwi.rxCodes.get d)) d t c
    obtain ⟨laterRx, laterTx⟩ := ih (deliverAt s d t) distinct
    have step : forEach (d :: xs) (deliverAt s) t = forEach xs (deliverAt s) (deliverAt s d t) := rfl
    rw [step, laterRx, laterTx, deliverAt, rx, tx]
    by_cases same : c = d
    · subst same
      rw [if_neg new, if_neg new, if_pos List.mem_cons_self, if_pos List.mem_cons_self, entry_modEntry, entrySettled_rx, entrySettled_tx]
      exact ⟨rfl, rfl⟩
    · rw [entry_modEntry_ne _ _ _ _ same]
      simp only [List.mem_cons, same, false_or]
      exact ⟨trivial, trivial⟩

theorem repairEntry_codes (e : MapEntry) : (repairEntry e).rx = e.rx ∧ (repairEntry e).tx = e.tx := by
  unfold repairEntry
  split
  · split
    · exact ⟨rfl, rfl⟩
    · split <;> exact ⟨rfl, rfl⟩
  · exact ⟨rfl, rfl⟩
  · exact ⟨rfl, rfl⟩
  · split
    · exact ⟨rfl, rfl⟩
    · split <;> exact ⟨rfl, rfl⟩

theorem entry_boundaryEnds (s : State) (c : Channel) :
    (boundaryEnds s).entry c = repairEntry (tickBlockTimer (s.entry c)) := Bank.get_map ..

theorem lines_boundaryEnds (s : State) : LineKept s (boundaryEnds s) := fun c => by
  rw [entry_boundaryEnds]
  exact repairEntry_codes _

theorem lines_sessionTick (s : State) : LineKept s (sessionTick s) := fun _ => ⟨rfl, rfl⟩

theorem steady_after_measureTiming (measured : Nat) (s : State) :
    Steady (s.modHwi fun h => { h with prevTiming := some measured }) (measureTiming measured s) := by
  unfold measureTiming
  dsimp only
  split
  · exact Steady.refl _
  · split
    · exact Steady.refl _
    · exact steady_retrainAll (steady_writeFault (steady_sendEvent (Steady.refl _)))

theorem lines_measureTiming (measured : Nat) (s : State) : LineKept s (measureTiming measured s) := by
  unfold measureTiming
  dsimp only
  split
  · exact LineKept.refl _
  · split
    · exact LineKept.refl _
    · exact lines_retrainAll (lines_writeFault (LineKept.of_tcm (sendEvent_tcm ..)))

/-- R50: every channel and direction, from the state after the read-back. -/
theorem codes_after_read {s v : State} (lines : LineKept s v) (rxCodes : v.hwi.rxCodes = s.hwi.rxCodes)
    (txCodes : v.hwi.txCodes = s.hwi.txCodes) (config : v.cfu.config = s.cfu.config) (c : Channel) :
    let t := settle (boundaryEnds (deliverCodes (sessionTick v)))
    (t.entry c).rx = ((s.entry c).rx.deliver (settleCount s) (s.hwi.rxCodes.get c)).1
      ∧ (t.entry c).tx = ((s.entry c).tx.deliver (settleCount s) (s.hwi.txCodes.get c)).1 := by
  intro t
  have count : settleCount (sessionTick v) = settleCount s := by
    rw [settleCount, settleCount, ← config]
    rfl
  have codes : (sessionTick v).hwi.rxCodes = s.hwi.rxCodes ∧ (sessionTick v).hwi.txCodes = s.hwi.txCodes := ⟨rxCodes, txCodes⟩
  obtain ⟨rxRead, txRead⟩ := codes
  obtain ⟨rx, tx⟩ := lines.trans (lines_sessionTick v) c
  obtain ⟨delivered, sent⟩ := forEach_deliverAt_codes (sessionTick v) (sessionTick v) channelIds_nodup c
  obtain ⟨rxKept, txKept⟩ := lines_settle (lines_boundaryEnds (deliverCodes (sessionTick v))) c
  rw [rxKept, txKept, deliverCodes_eq, delivered, sent, if_pos (mem_channelIds c), if_pos (mem_channelIds c), count, rxRead,
    txRead, rx, tx]
  exact ⟨rfl, rfl⟩

/-- R50: every channel and direction at a boundary that gives session time. -/
theorem codes_superframeBoundary {s : State} {ticks m : Nat} (counts : s.hwi.tickCount = some m) (short : m + ticks < 32767)
    (c : Channel) : let t := settle (superframeBoundary ticks s)
    (t.entry c).rx = ((s.entry c).rx.deliver (settleCount s) (s.hwi.rxCodes.get c)).1
      ∧ (t.entry c).tx = ((s.entry c).tx.deliver (settleCount s) (s.hwi.txCodes.get c)).1 := by
  have lines : LineKept s (forEach channelIds checkReadback (measureTiming (m + ticks) s)) :=
    (lines_measureTiming (m + ticks) s).forEach fun _ _ h => lines_checkReadback h
  have steady : Steady (s.modHwi fun h => { h with prevTiming := some (m + ticks) })
      (forEach channelIds checkReadback (measureTiming (m + ticks) s)) :=
    (steady_after_measureTiming (m + ticks) s).forEach fun _ _ h => steady_checkReadback h
  rw [superframeBoundary_of_session counts short]
  generalize forEach channelIds checkReadback (measureTiming (m + ticks) s) = v at lines steady
  refine codes_after_read lines ?_ ?_ ?_ c
  · rw [steady.hwi]
    rfl
  · rw [steady.hwi]
    rfl
  · rw [steady.cfu]
    rfl

end Sys2Proof.Machine
end

section
/-! PROOFS. A receive code that settles alone at a boundary: the state it finds, and what the rest of the boundary leaves
(R50, R51, R56). -/
namespace Sys2Proof.Machine

/-- A superframe of session time at a context that is not held (R70). -/
def ticked (x : Context) : Context := if x.held then x else tickContext x

/-- The state that a receive code which settles alone finds. -/
structure Arrives (ch : Channel) (code : LineCode) (s b : State) : Prop where
  ctx : ∀ j, b.at j = ticked (s.at j)
  clc : b.clc = s.clc
  cfu : b.cfu = s.cfu
  msc : b.msc = s.msc
  rau : b.rau = s.rau
  aligned : isAligned b = isAligned s
  bids : ∀ k, b.bid k = (s.bid k).map fun x => { x with timer := tickTimer x.timer }
  settled : (b.entry ch).rx.settled = code
  others : ∀ c, c ≠ ch → (b.entry c).rx.settled = (s.entry c).rx.settled
  views : ∀ c, (b.entry c).view = (s.entry c).view ∧ (b.entry c).tx.settled = (s.entry c).tx.settled

/-- What a boundary leaves of the state after its one settled change: the runs of the channels that came later, the repair of
the map, station time and the enables. -/
def changePassed (later : List Channel) (s : State) : State :=
  boundaryEnds (s.modTcm fun m => { m with map := changeEach later (fun _ => entryStood) m.map })

section
variable (later : List Channel) (s : State)

theorem at_changePassed (k : ContextId) : (changePassed later s).at k = s.at k := rfl
theorem changePassed_clc : (changePassed later s).clc = s.clc := rfl
theorem bid_changePassed (k : ContextId) : (changePassed later s).bid k = s.bid k := rfl
theorem changePassed_notices : (changePassed later s).rau.notices = s.rau.notices := rfl

theorem fetch_changePassed (k : ContextId) : (changePassed later s).fetch k
    = (s.fetch k).map fun f => { f with timer := tickTimer f.timer, keepalive := f.keepalive - 1 } := Bank.get_map ..

/-- R56: the repair does not touch a channel that a context of this station holds. -/
theorem view_changePassed {later : List Channel} {s : State} (distinct : later.Nodup) {c : Channel} {k : ContextId}
    (view : (s.entry c).view = .self k) : ((changePassed later s).entry c).view = .self k := by
  have entry : (changePassed later s).entry c = repairEntry (tickBlockTimer
      (if c ∈ later then entryStood (s.entry c) else s.entry c)) :=
    (Bank.get_map ..).trans (congrArg (fun e => repairEntry (tickBlockTimer e)) (get_changeEach _ _ _ distinct))
  have same : (tickBlockTimer (if c ∈ later then entryStood (s.entry c) else s.entry c)).view = .self k := by
    split <;> exact view
  rw [entry]
  simp only [repairEntry, same]

end

/-- The state that the one settled change of a delivery finds: a map with the new code, and all else as it was. -/
structure Settled (ch : Channel) (code : LineCode) (w b : State) : Prop where
  hwi : b.hwi = w.hwi
  clc : b.clc = w.clc
  cfu : b.cfu = w.cfu
  bids : b.tcm.bids = w.tcm.bids
  ctx : b.ctx = w.ctx
  msc : b.msc = w.msc
  rau : b.rau = w.rau
  settled : (b.entry ch).rx.settled = code
  others : ∀ c, c ≠ ch → (b.entry c).rx.settled = (w.entry c).rx.settled
  views : ∀ c, (b.entry c).view = (w.entry c).view ∧ (b.entry c).tx.settled = (w.entry c).tx.settled

/-- The runs of several channels whose codes stand. -/
def runsStood (xs : List Channel) (s : State) : State := s.modTcm fun m => { m with map := changeEach xs (fun _ => entryStood) m.map }

theorem entry_runsStood {xs : List Channel} (distinct : xs.Nodup) (s : State) (c : Channel) :
    (runsStood xs s).entry c = if c ∈ xs then entryStood (s.entry c) else s.entry c := get_changeEach _ _ _ distinct

theorem runsStood_codes {xs : List Channel} (distinct : xs.Nodup) (s : State) (c : Channel) :
    ((runsStood xs s).entry c).rx.settled = (s.entry c).rx.settled ∧ ((runsStood xs s).entry c).tx.settled = (s.entry c).tx.settled
      ∧ ((runsStood xs s).entry c).view = (s.entry c).view := by
  rw [entry_runsStood distinct]
  split <;> exact ⟨rfl, rfl, rfl⟩

theorem deliver_of_full {count : Nat} {code : LineCode} {x : Settling} (new : code ≠ x.settled) (candidate : x.candidate = some code)
    (full : count ≤ x.run + 1) : x.deliver count code = ({ settled := code, candidate := none, run := 0 }, true) := by
  rw [deliver_of_run new, if_pos candidate, if_pos full]

/-- R50, R51: a delivery at which one receive code settles, and all the other codes stand. -/
theorem deliverCodes_of_alone {w : State} {ch : Channel} {code : LineCode} (txStand : ∀ c, w.hwi.txCodes.get c = (w.entry c).tx.settled)
    (rxStand : ∀ c, c ≠ ch → w.hwi.rxCodes.get c = (w.entry c).rx.settled) (read : w.hwi.rxCodes.get ch = code)
    (new : code ≠ (w.entry ch).rx.settled) (candidate : (w.entry ch).rx.candidate = some code)
    (full : settleCount w ≤ (w.entry ch).rx.run + 1) : ∃ (b : State) (later : List Channel), Settled ch code w b ∧ later.Nodup
      ∧ deliverCodes w = runsStood later (receiveChange ch code b) := by
  obtain ⟨earlier, later, split⟩ := List.append_of_mem (mem_channelIds ch)
  have distinct : (earlier ++ ch :: later).Nodup := split ▸ channelIds_nodup
  obtain ⟨distinctEarlier, distinctRest, between⟩ := List.nodup_append.mp distinct
  obtain ⟨notLater, distinctLater⟩ := List.nodup_cons.mp distinctRest
  have notEarlier : ch ∉ earlier := fun mem => between ch mem ch List.mem_cons_self rfl
  let f := Settling.deliver (settleCount w) (w.hwi.txCodes.get ch)
  let g := Settling.deliver (settleCount w) (w.hwi.rxCodes.get ch)
  let u := runsStood earlier w
  let b := u.modEntry ch (entrySettled f g)
  have first : forEach earlier (deliverAt w) w = u := forEach_deliverAt_of_standing distinctEarlier fun c mem =>
    ⟨rxStand c fun same => notEarlier (same ▸ mem), txStand c⟩
  have entry : u.entry ch = w.entry ch := (entry_runsStood distinctEarlier w ch).trans (if_neg notEarlier)
  have settles : g (u.entry ch).rx = ({ settled := code, candidate := none, run := 0 }, true) := by
    rw [entry, show g = Settling.deliver (settleCount w) (w.hwi.rxCodes.get ch) from rfl, read]
    exact deliver_of_full new candidate full
  have stands : f (u.entry ch).tx = (stood (u.entry ch).tx, false) := by
    rw [entry, show f = Settling.deliver (settleCount w) (w.hwi.txCodes.get ch) from rfl, txStand ch]
    exact deliver_of_settled ..
  have atCh : b.entry ch = entrySettled f g (u.entry ch) := entry_modEntry ..
  have elsewhere (c : Channel) (other : c ≠ ch) : b.entry c = u.entry c := entry_modEntry_ne _ _ _ _ other
  have second : deliverAt w ch u = receiveChange ch code b := by
    rw [deliverAt, settleWith_eq, show Settling.deliver (settleCount w) (w.hwi.rxCodes.get ch) (u.entry ch).rx = _ from settles, if_pos rfl]
  have found : Settled ch code w b := by
    refine ⟨rfl, rfl, rfl, rfl, rfl, rfl, rfl, ?_, fun c other => ?_, fun c => ?_⟩
    · rw [atCh, entrySettled_rx, settles]
    · rw [elsewhere c other]
      exact (runsStood_codes distinctEarlier w c).1
    · obtain ⟨_, tx, view⟩ := runsStood_codes distinctEarlier w c
      by_cases same : c = ch
      · subst same
        rw [atCh, entrySettled_tx, stands]
        exact ⟨view, tx⟩
      · rw [elsewhere c same]
        exact ⟨view, tx⟩
  have third : forEach later (deliverAt w) (receiveChange ch code b) = runsStood later (receiveChange ch code b) := by
    refine forEach_deliverAt_of_standing distinctLater fun c mem => ?_
    have other : c ≠ ch := fun same => notLater (same ▸ mem)
    obtain ⟨rx, tx⟩ := lines_receiveChange (code := code) (c := ch) (LineKept.refl b) c
    rw [rx, tx, found.others c other, (found.views c).2]
    exact ⟨rxStand c other, txStand c⟩
  refine ⟨b, later, found, distinctLater, ?_⟩
  rw [deliverCodes_eq, split, forEach_append, first]
  exact (congrArg (forEach later (deliverAt w)) second).trans third

/-- R50, R51: the boundary at which the receive code of one channel settles alone. -/
theorem boundary_of_settlesAlone {s : State} {ticks : Nat} {ch : Channel} {code : LineCode} (alone : s.SettlesAlone ticks ch code) :
    ∃ (b : State) (later : List Channel), Arrives ch code s b ∧ later.Nodup
      ∧ superframeBoundary ticks s = changePassed later (receiveChange ch code b) := by
  obtain ⟨⟨m, counts, ⟨aligned, counting, short, few⟩, holds⟩, txStand, rxStand, read, new, candidate, full⟩ := alone
  let u := s.modHwi fun h => { h with prevTiming := some (m + ticks) }
  let w := sessionTick (u.modHwi fun h => { h with channels := h.channels.map fun x => { x with mismatches := 0 } })
  have start : superframeBoundary ticks s = boundaryEnds (deliverCodes w) := by
    rw [superframeBoundary_of_session counting short, measureTiming_of_holds holds,
      forEach_checkReadback_of_few (s := u) channelIds_nodup fun c _ => few c]
    simp only [changeEach_channels]
    rfl
  obtain ⟨b, later, found, distinct, delivered⟩ := deliverCodes_of_alone (w := w) txStand rxStand read new candidate full
  refine ⟨b, later, ⟨fun j => ?_, found.clc, found.cfu, found.msc, found.rau, ?_, fun k => ?_, found.settled, found.others, found.views⟩,
    distinct, start.trans (congrArg boundaryEnds delivered)⟩
  · rw [State.at, found.ctx]
    exact Bank.get_map ..
  · rw [isAligned, found.hwi]
    rfl
  · rw [State.bid, found.bids]
    exact Bank.get_map ..

end Sys2Proof.Machine
end

section
/-! PROOFS. What a receive code that settles starts or ends: a bid on a free channel, and the end of a call (R55, R57, R58,
R72, R73). -/
namespace Sys2Proof.Machine

/-! ### The context records after a superframe of session time -/

theorem ticked_state (x : Context) : (ticked x).state = x.state := by unfold ticked; split <;> rfl

section
variable {x : Context} (free : x.held = false)
include free

theorem ticked_of_free : ticked x = tickContext x := by rw [ticked, free]; rfl

end

/-! ### The channel that a change finds -/

namespace Arrives

variable {ch : Channel} {code : LineCode} {s b : State} (h : Arrives ch code s b)
include h

theorem state_eq (j : ContextId) : (b.at j).state = (s.at j).state := by rw [h.ctx, ticked_state]

theorem channel_eq (j : ContextId) : (b.at j).channel = (s.at j).channel := by rw [h.ctx]; unfold ticked; split <;> rfl

theorem holder_eq (c : Channel) : holderOf b c = holderOf s c := by simp only [holderOf, (h.views c).1]

theorem claimer_eq (c : Channel) : claimerOf b c = claimerOf s c := by
  have bid (k : ContextId) : (b.bid k).map (·.channel) = (s.bid k).map (·.channel) := by
    rw [h.bids k, Option.map_map]
    rfl
  refine congrArg (fun p => contextIds.find? p) (funext fun k => ?_)
  rw [h.state_eq k]
  refine congrArg (_ && ·) ?_
  have same := bid k
  cases later : b.bid k <;> cases before : s.bid k <;> simp_all

theorem clearer_eq (c : Channel) : clearerOf b c = clearerOf s c :=
  congrArg (fun p => contextIds.find? p) (funext fun k => by rw [h.state_eq k, h.channel_eq k])

theorem busy_eq (c : Channel) : channelBusy b c = channelBusy s c := by rw [channelBusy, channelBusy, h.claimer_eq, h.clearer_eq]

theorem busyContexts_eq : busyContexts b = busyContexts s :=
  congrArg (fun p => (contextIds.filter p).length) (funext fun k => by rw [h.state_eq k])

theorem free_eq : freeContext? b = freeContext? s :=
  congrArg (fun p => contextIds.find? p) (funext fun k => by rw [h.state_eq k])

theorem config_eq : configOf b = configOf s := by rw [configOf, h.cfu, configOf]

theorem claim_eq (prio : BitVec 3) (dst : BitVec 4) (kind tag : Byte) (payload : List Byte) :
    ownCell b prio dst kind tag payload = ownCell s prio dst kind tag payload := by rw [ownCell, ownAddress, h.cfu, ownCell, ownAddress]

end Arrives

/-! ### The view and the report of a change (R51, R55) -/

theorem viewAfterChange_of_open {c : Channel} {code : LineCode} {s : State} (view : (s.entry c).view ≠ .blocked) (notBlocked : code ≠ .blocked) :
    viewAfterChange c code s = s := by
  simp only [viewAfterChange, notBlocked, view, if_false]

theorem viewAfterChange_of_self {c : Channel} {k : ContextId} {s : State} (code : LineCode) (view : (s.entry c).view = .self k) :
    viewAfterChange c code s = s := by
  simp only [viewAfterChange, view]
  split
  · rfl
  · exact if_neg nofun

theorem reportChange_of_nobody {c : Channel} {s : State} (code : LineCode) (holder : holderOf s c = none) (claimer : claimerOf s c = none)
    (clearer : clearerOf s c = none) : reportChange c code s = s := by
  simp only [reportChange, holder, claimer, clearer]

theorem canBid_of_self {c : Channel} {k : ContextId} {s : State} (view : (s.entry c).view = .self k) : canBid s c = false := by
  simp [canBid, view]

theorem examineBid_of_refused {c : Channel} {s : State} (cannot : canBid s c = false) : examineBid c s = s := by
  rw [examineBid, cannot]
  rfl

/-- R72: the change reaches the context that holds the channel and goes on holding it. -/
theorem receiveChange_of_holder {c : Channel} {k : ContextId} {s : State} {code : LineCode} (view : (s.entry c).view = .self k)
    (call : (s.at k).state ≠ .clearing) (kept : ((lineCode k code s).entry c).view = .self k) :
    receiveChange c code s = lineCode k code s := by
  have holder : holderOf s c = some k := by simp only [holderOf, view]
  have report : reportChange c code (viewAfterChange c code s) = lineCode k code s := by
    rw [viewAfterChange_of_self code view]
    simp only [reportChange, holder, call, if_false]
  simp only [receiveChange, report, examineBid_of_refused (canBid_of_self kept), ite_self]

theorem receiveChange_of_clearing {c : Channel} {k : ContextId} {s : State} {code : LineCode} (view : (s.entry c).view = .self k)
    (clearing : (s.at k).state = .clearing) : receiveChange c code s = s := by
  have holder : holderOf s c = some k := by simp only [holderOf, view]
  have report : reportChange c code (viewAfterChange c code s) = s := by
    rw [viewAfterChange_of_self code view]
    simp only [reportChange, holder, clearing, if_true]
  simp only [receiveChange, report, examineBid_of_refused (canBid_of_self view), ite_self]

theorem receiveChange_of_seize {c : Channel} {s : State} (view : (s.entry c).view ≠ .blocked) (holder : holderOf s c = none)
    (claimer : claimerOf s c = none) (clearer : clearerOf s c = none) : receiveChange c .seize s = examineBid c s := by
  simp only [receiveChange, viewAfterChange_of_open view (show LineCode.seize ≠ .blocked from nofun),
    reportChange_of_nobody .seize holder claimer clearer, if_true]

/-! ### A bid (R57, R58) -/

/-- R57: the bid of a context, with its delay. -/
def bidding (k : ContextId) (c : Channel) (delay : Nat) (s : State) : State :=
  (s.modCtx k fun x => { x with state := .claiming, direction := some .incoming }).setBid k
    (some { channel := c, direction := .incoming, timer := some delay, withdrawal := none })

theorem examineBid_of_free {c : Channel} {k : ContextId} {s : State} (can : canBid s c = true) (free : freeContext? s = some k) :
    let delay := bidDelay (configOf s) (ownNumber s) (busyContexts s) c
    examineBid c s = if delay = 0 then offerBid k c (bidding k c delay s) else bidding k c delay s := by
  simp only [examineBid, can, free, if_true]
  rfl

theorem examineBid_of_busy {c : Channel} {s : State} (busy : freeContext? s = none) : examineBid c s = s := by
  simp only [examineBid, busy, ite_self]

/-! ### The end of a call (R72, R73) -/

/-- R73: the cells of a call that ends before it was announced. -/
theorem endCall_clc_of_unannounced {s : State} {k : ContextId} {cause : Byte} {ch : Channel} (h : clears cause = true)
    (call : inCall (s.at k) = true) (silent : Silent (s.at k)) (incoming : (s.at k).direction = some .incoming)
    (unannounced : (s.at k).announced = false) (noRequest : (s.at k).outgoing = none) (channel : (s.at k).channel = some ch) :
    (endCall k cause s).clc
      = (sendRelease ch (sendEvent (some k) (.callEnded cause) (sendEvent (some k) (.callArrived ch none) s))).clc := by
  let u := (sendEvent (some k) (.callArrived ch none) s).modCtx k fun x => { x with announced := true }
  have announce : announceUnknown k s = u := by
    simp only [announceUnknown, incoming, unannounced, channel]
    rfl
  have record : u.at k = { s.at k with announced := true } := by rw [show u.at k = _ from at_modCtx .., at_sendEvent]
  rw [endCall_of_silent h call silent, announce, outdialDone_of_none cause (by rw [record]; exact noRequest)]
  have same := sendEvent_congr (k := some k) (e := .callEnded cause) (s := u) (t := sendEvent (some k) (.callArrived ch none) s) rfl rfl
  refine enterClearing_clc ?_ same.1 same.2
  rw [at_sendEvent, record]
  exact channel

/-- R73: a call that ends by CLEARING leaves the map as it stands. -/
theorem endCall_tcm_of_clears {s : State} {k : ContextId} {cause : Byte} (h : clears cause = true) (call : inCall (s.at k) = true) :
    (endCall k cause s).tcm = s.tcm := by
  rw [endCall_eq cause call, leaveChannel_of_clears h, (reports_enterClearing k _).tcm, (spares_callReports k cause s).tcm]

/-- What a call that a line code ended leaves at the end of the boundary. -/
structure CodeEnded (k : ContextId) (cause : Byte) (ch : Channel) (b t : State) : Prop where
  others : ∀ j, j ≠ k → t.at j = b.at j
  record : ∃ x, t.at k = clearingRecord x ∧ x.channel = some ch
  cells : Silent (b.at k) → t.clc = (endCall k cause b).clc

theorem codeEnded_settle {k : ContextId} {cause : Byte} {ch : Channel} {b : State} (later : List Channel) (q : b.Quiet) (h : clears cause = true)
    (call : inCall (b.at k) = true) (channel : (b.at k).channel = some ch) :
    CodeEnded k cause ch b (settle (changePassed later (endCall k cause b))) := by
  let u := endCall k cause b
  obtain ⟨x, cleared, same⟩ := at_endCall_of_clears h call
  have apart : Apart k b u := apart_endCall (Apart.refl k b)
  have told : Spares id (changePassed later u) (settle (changePassed later u)) := by
    refine spares_settle_of_all_sessionless fun y mem => ?_
    rw [changePassed_notices] at mem
    rw [apart.notices (fun z mem => by rw [q] at mem; cases mem) y mem, at_changePassed]
    exact (sessionless_clearingRecord x).congr cleared
  refine ⟨fun j other => (told.at_eq j).trans (apart.ctx j other), ⟨x, (told.at_eq k).trans cleared, ?_⟩, fun silent => ?_⟩
  · have kept := congrArg Context.channel same
    exact kept.trans channel
  · have quiet : (changePassed later u).Quiet := (reports_endCall_of_silent h call silent).quiet q
    rw [settle_quiet quiet, changePassed_clc]

end Sys2Proof.Machine
end

section
/-! PROOFS. The settled codes of a channel that this station holds: the rest of the table of R72, with glare and an answered
call (R65, R66, R72, R81). -/
namespace Sys2Proof.Machine

theorem setBid_bid (k : ContextId) (x : Option Bid) (s : State) : (s.setBid k x).bid k = x := Bank.get_set ..

/-- R57: a bid as it stands, with its CLAIM offered when there is no delay. -/
structure BidBegun (k : ContextId) (ch : Channel) (delay : Nat) (claim : Cell) (b u : State) : Prop where
  state : (u.at k).state = .claiming
  direction : (u.at k).direction = some .incoming
  others : ∀ j, j ≠ k → u.at j = b.at j
  bid : u.bid k = some { channel := ch, direction := .incoming, timer := if delay = 0 then none else some delay, withdrawal := none }
  tx : u.clc.tx = if delay = 0 then insertByPriority (freshTx claim 0) b.clc.tx else b.clc.tx

theorem bidBegun_of_room {k : ContextId} {ch : Channel} {delay : Nat} {b : State} {claim : Cell}
    (cell : ownCell b 1 allStations kindClaim 0xFF (be1 ch.val ++ be1 0) = claim) (room : 0 < delay ∨ queueTakes b.clc.tx claim = true) :
    BidBegun k ch delay claim b (if delay = 0 then offerBid k ch (bidding k ch delay b) else bidding k ch delay b) := by
  have record : (bidding k ch delay b).at k = { b.at k with state := .claiming, direction := some .incoming } := at_modCtx ..
  have others (j : ContextId) (other : j ≠ k) : (bidding k ch delay b).at j = b.at j := at_modCtx_ne _ _ _ _ other
  by_cases zero : delay = 0
  · have taken : queueTakes (bidding k ch delay b).clc.tx (ownCell (bidding k ch delay b) 1 allStations kindClaim 0xFF (be1 ch.val ++ be1 0))
        = true := (congrArg (queueTakes b.clc.tx) cell).trans (room.resolve_left (by omega))
    rw [if_pos zero, offerBid_of_room k taken]
    refine ⟨congrArg Context.state record, congrArg Context.direction record, others, ?_, ?_⟩
    · rw [setBid_bid, if_pos zero]
    · rw [if_pos zero, ← cell]
      rfl
  · rw [if_neg zero]
    refine ⟨congrArg Context.state record, congrArg Context.direction record, others, ?_, ?_⟩
    · rw [bidding, setBid_bid, if_neg zero]
    · rw [if_neg zero]
      rfl

theorem BidBegun.passed {k : ContextId} {ch : Channel} {delay : Nat} {claim : Cell} {b u : State} (later : List Channel)
    (h : BidBegun k ch delay claim b u) : BidBegun k ch delay claim b (changePassed later u) :=
  ⟨h.state, h.direction, h.others, h.bid, h.tx⟩

/-! ### Codes that a context does not answer (R72) -/

theorem lineCode_of_idle {s : State} {k : ContextId} (notSeized : (s.at k).state ≠ .seized) :
    lineCode k .idle s = endCall k codeFarEndClear s := by
  simp only [lineCode, notSeized, if_false]

theorem lineCode_of_second_seize {s : State} {k : ContextId} (connected : (s.at k).state = .connected)
    (outgoing : (s.at k).direction = some .outgoing) : lineCode k .seize s = endCall k codeFarEndClear s := by
  simp [lineCode, connected, outgoing]

theorem lineCode_of_seize {s : State} {k : ContextId} (notSeized : (s.at k).state ≠ .seized)
    (other : (s.at k).state ≠ .connected ∨ (s.at k).direction = some .incoming) : lineCode k .seize s = s := by
  rcases other with other | other <;> simp [lineCode, notSeized, other]

theorem lineCode_of_answer {s : State} {k : ContextId} (notSeized : (s.at k).state ≠ .seized) (notDialling : (s.at k).state ≠ .dialling)
    (notProgress : (s.at k).state ≠ .progress) : lineCode k .answer s = s := by
  simp [lineCode, notSeized, notDialling, notProgress]

theorem lineCode_of_answered {s : State} {k : ContextId} (waits : (s.at k).state ∈ [.seized, .dialling, .progress]) :
    lineCode k .answer s = answered k s := by
  simp only [List.mem_cons, List.not_mem_nil, or_false] at waits
  rcases waits with state | state | state <;> simp [lineCode, state]

theorem lineCode_of_glare {s : State} {k : ContextId} (seized : (s.at k).state = .seized) : lineCode k .seize s = glare k s := by
  simp [lineCode, seized]

/-! ### Glare (R65, R66, R78) -/

/-- R65: the record of a context that met glare, with digits to come. -/
def glared (x : Context) : Context := { x with
  direction := some .incoming, outgoing := none, requestTag := none, state := .addressing, txCode := .seize, timer := some 4000, digits := [] }

theorem glare_of_request {s : State} {k : ContextId} {o : Outgoing} (request : (s.at k).outgoing = some o)
    (digits : 0 < (configOf s).addressDigits) : glare k s = retryElsewhere k o (s.modCtx k glared) := by
  let u := s.modCtx k fun x => { x with direction := some .incoming, outgoing := none, requestTag := none }
  have entered : enterAddressing k u = s.modCtx k glared :=
    (enterAddressing_of_digits (s := u) k digits).trans ((modCtx_modCtx ..).trans (modCtx_congr rfl))
  simp only [glare, request]
  exact congrArg (retryElsewhere k o) entered

/-- R78: the request ends where it stood. -/
def glareTold (k : ContextId) (tag : Byte) (s : State) : State :=
  (sendEvent (some k) (.outdialDone codeGlare tag) s).modCtx k fun x => { x with outdialDone := true }

/-- R66: the request in its glare retry. -/
def retried (o : Outgoing) : Outgoing := { o with glareRetried := true, choiceRetried := false }

theorem retryElsewhere_of_nobody {s : State} {k : ContextId} {o : Outgoing} (spent : o.glareRetried = true ∨ freeContext? s = none) :
    retryElsewhere k o s = glareTold k o.tag s := by
  rcases spent with retried | busy
  · simp only [retryElsewhere, retried, if_true]
    rfl
  · simp only [retryElsewhere, busy, ite_self]
    rfl

/-- R66: the FREE context that carries the request on. -/
def carrying (j : ContextId) (o : Outgoing) (s : State) : State :=
  s.modCtx j fun x => { x with outgoing := some (retried o), requestTag := some o.tag }

theorem retryElsewhere_of_free {s t : State} {k j : ContextId} {o : Outgoing} {taken : Bool} (first : o.glareRetried = false)
    (free : freeContext? s = some j) (chosen : chooseFor j (carrying j o s) = (t, taken)) :
    retryElsewhere k o s = if taken then t else outdialFails j codeGlare t := by
  have chosen' : chooseFor j (s.modCtx j fun x => { x with
      outgoing := some { o with glareRetried := true, choiceRetried := false }, requestTag := some o.tag }) = (t, taken) := chosen
  simp only [retryElsewhere, first, free, chosen', Bool.false_eq_true, if_false]
  cases taken <;> rfl

/-- R66: the request of a glare claims a channel for another context. -/
structure GlareClaimed (j : ContextId) (o : Outgoing) (c : Channel) (claim : Cell) (tx : List TxCell) (u : State) : Prop where
  state : (u.at j).state = .claiming
  direction : (u.at j).direction = some .outgoing
  outgoing : (u.at j).outgoing = some (retried o)
  requestTag : (u.at j).requestTag = some o.tag
  bid : u.bid j = some { channel := c, direction := .outgoing, timer := none, withdrawal := none }
  tx : u.clc.tx = insertByPriority (freshTx claim 0) tx

theorem GlareClaimed.passed {j : ContextId} {o : Outgoing} {c : Channel} {claim : Cell} {tx : List TxCell} {u : State} (later : List Channel)
    (h : GlareClaimed j o c claim tx u) : GlareClaimed j o c claim tx (changePassed later u) :=
  ⟨h.state, h.direction, h.outgoing, h.requestTag, h.bid, h.tx⟩

theorem glareClaimed_retryElsewhere {s : State} {k j : ContextId} {o : Outgoing} {c : Channel} {claim : Cell}
    (first : o.glareRetried = false) (free : freeContext? s = some j) (lowest : channelIds.find? (canTake (carrying j o s)) = some c)
    (cell : outgoingClaim s c = claim) (room : queueTakes s.clc.tx claim = true) :
    GlareClaimed j o c claim s.clc.tx (retryElsewhere k o s) := by
  have taken : queueTakes (carrying j o s).clc.tx (outgoingClaim (carrying j o s) c) = true := (congrArg (queueTakes s.clc.tx) cell).trans room
  have record : (carrying j o s).at j = { s.at j with outgoing := some (retried o), requestTag := some o.tag } := at_modCtx ..
  rw [retryElsewhere_of_free first free (chooseFor_of_room j lowest taken), if_pos rfl]
  let claims := (enqueue (outgoingClaim (carrying j o s) c) 0 (carrying j o s)).modCtx j fun x =>
    { x with state := .claiming, direction := some .outgoing }
  have claimer : claims.at j = { (carrying j o s).at j with state := .claiming, direction := some .outgoing } := at_modCtx ..
  refine ⟨congrArg Context.state claimer, congrArg Context.direction claimer, (congrArg Context.outgoing claimer).trans ?_,
    (congrArg Context.requestTag claimer).trans ?_, setBid_bid .., ?_⟩
  · exact congrArg Context.outgoing record
  · exact congrArg Context.requestTag record
  · rw [← cell]
    rfl

theorem retryElsewhere_of_none {s : State} {k j : ContextId} {o : Outgoing} (first : o.glareRetried = false)
    (free : freeContext? s = some j) (untold : (s.at j).outdialDone = false) (nothing : ∀ c, canTake (carrying j o s) c = false) :
    retryElsewhere k o s = freeContext j (sendEvent (some j) (.outdialDone codeGlare o.tag) (carrying j o s)) := by
  have record : (carrying j o s).at j = { s.at j with outgoing := some (retried o), requestTag := some o.tag } := at_modCtx ..
  rw [retryElsewhere_of_free first free (chooseFor_of_none j nothing)]
  exact outdialFails_of_request (o := retried o) (by rw [record]) (by rw [record]; exact untold)

/-- What a glare leaves of the context that met it and of the map, whatever becomes of the request. -/
structure Glared (k : ContextId) (s u : State) : Prop where
  record : ∃ b, u.at k = { s.at k with outdialDone := b }
  map : u.tcm.map = s.tcm.map
  rau : u.rau = s.rau

theorem chooseFor_leaves (j : ContextId) (s : State) : (chooseFor j s).1.tcm.map = s.tcm.map ∧ (chooseFor j s).1.rau = s.rau
    ∧ ∀ i, i ≠ j → (chooseFor j s).1.at i = s.at i := by
  cases lowest : channelIds.find? (canTake s) with
  | none =>
    simp only [chooseFor, lowest]
    exact ⟨trivial, trivial, fun _ _ => trivial⟩
  | some c =>
    by_cases room : queueTakes s.clc.tx (outgoingClaim s c) = true
    · rw [chooseFor_of_room j lowest room]
      exact ⟨rfl, rfl, fun i other => at_modCtx_ne _ _ _ _ other⟩
    · rw [chooseFor_of_full j lowest (Bool.not_eq_true _ ▸ room)]
      exact ⟨rfl, rfl, fun _ _ => rfl⟩

theorem outdialFails_leaves (j : ContextId) (result : Byte) (s : State) : (outdialFails j result s).tcm = s.tcm
    ∧ (outdialFails j result s).rau = s.rau ∧ ∀ i, i ≠ j → (outdialFails j result s).at i = s.at i := by
  have reports := reports_outdialDone j result s
  refine ⟨reports.tcm, reports.rau, fun i other => (at_freeContext_ne other _).trans ?_⟩
  exact (apart_outdialDone (Apart.refl j s)).ctx i other

theorem glared_retryElsewhere {s : State} {k : ContextId} (o : Outgoing) (busy : (s.at k).state ≠ .free) :
    Glared k s (retryElsewhere k o s) := by
  have told : Glared k s (glareTold k o.tag s) := by
    refine ⟨⟨true, ?_⟩, ?_, ?_⟩
    · rw [glareTold, at_modCtx, at_sendEvent]
    · exact congrArg Tcm.map (sendEvent_tcm ..)
    · exact sendEvent_rau ..
  cases first : o.glareRetried with
  | true => rw [retryElsewhere_of_nobody (Or.inl first)]; exact told
  | false =>
    cases free : freeContext? s with
    | none => rw [retryElsewhere_of_nobody (Or.inr free)]; exact told
    | some j =>
      have isFree : (s.at j).state = .free := by simpa using List.find?_some free
      have other : k ≠ j := fun same => busy (same ▸ isFree)
      obtain ⟨map, rau, kept⟩ := chooseFor_leaves j (carrying j o s)
      obtain ⟨failsTcm, failsRau, failsKept⟩ := outdialFails_leaves j codeGlare (chooseFor j (carrying j o s)).1
      have before : (carrying j o s).at k = s.at k := at_modCtx_ne _ _ _ _ other
      generalize chosen : chooseFor j (carrying j o s) = chosenFor at *
      obtain ⟨t, taken⟩ := chosenFor
      rw [retryElsewhere_of_free first free chosen]
      cases taken with
      | true => exact ⟨⟨(s.at k).outdialDone, (kept k other).trans before⟩, map, rau⟩
      | false => exact ⟨⟨(s.at k).outdialDone, (failsKept k other).trans ((kept k other).trans before)⟩, (congrArg Tcm.map failsTcm).trans map,
          failsRau.trans rau⟩

theorem claimerOf_congr {s t : State} (c : Channel) (same : ∀ i, ((t.at i).state == .claiming) = ((s.at i).state == .claiming))
    (bids : t.tcm.bids = s.tcm.bids) : claimerOf t c = claimerOf s c := by
  simp only [claimerOf, same, State.bid, bids]

theorem clearerOf_congr {s t : State} (c : Channel) (same : ∀ i, ((t.at i).state == .clearing) = ((s.at i).state == .clearing))
    (channel : ∀ i, (t.at i).channel = (s.at i).channel) : clearerOf t c = clearerOf s c := by
  simp only [clearerOf, same, channel]

/-- R66: the request moves from a context in glare to a FREE one, and neither claims nor clears a channel. -/
theorem canTake_carrying {b : State} {k j : ContextId} (o : Outgoing) (c : Channel) (seized : (b.at k).state = .seized)
    (free : (b.at j).state = .free) : canTake (carrying j o (b.modCtx k glared)) c = canTake b c := by
  have other : j ≠ k := fun same => by rw [same, seized] at free; cases free
  let v := b.modCtx k glared
  have atJ : (carrying j o v).at j = { v.at j with outgoing := some (retried o), requestTag := some o.tag } := at_modCtx ..
  have atK : (carrying j o v).at k = glared (b.at k) := (at_modCtx_ne _ _ _ _ other.symm).trans (at_modCtx ..)
  have freeV : v.at j = b.at j := at_modCtx_ne _ _ _ _ other
  have rest (i : ContextId) (notJ : i ≠ j) (notK : i ≠ k) : (carrying j o v).at i = b.at i :=
    (at_modCtx_ne _ _ _ _ notJ).trans (at_modCtx_ne _ _ _ _ notK)
  have states (st : CtxState) (notSeized : st ≠ .seized) (notAddressing : st ≠ .addressing) (i : ContextId) :
      (((carrying j o v).at i).state == st) = ((b.at i).state == st) := by
    by_cases isJ : i = j
    · rw [isJ, atJ, freeV]
    · by_cases isK : i = k
      · rw [isK, atK, seized, glared]
        exact (beq_false_of_ne notAddressing.symm).trans (beq_false_of_ne notSeized.symm).symm
      · rw [rest i isJ isK]
  have channels (i : ContextId) : ((carrying j o v).at i).channel = (b.at i).channel := by
    by_cases isJ : i = j
    · rw [isJ, atJ, freeV]
    · by_cases isK : i = k
      · rw [isK, atK, glared]
      · rw [rest i isJ isK]
  have busy : channelBusy (carrying j o v) c = channelBusy b c := by
    rw [channelBusy, channelBusy, claimerOf_congr c (states .claiming nofun nofun) rfl, clearerOf_congr c (states .clearing nofun nofun) channels]
  rw [canTake, busy]
  rfl

/-! ### The call is answered (R81) -/

/-- The record of a context whose call is answered, before its session begins. -/
def connectedRecord (x : Context) : Context := { x with
  state := .connected, timer := none, txCode := .seize, dgn := .reset, outdialDone := true }

/-- R81: the answered call told of. -/
def answerTold (k : ContextId) (tag : Byte) (s : State) : State :=
  (sendEvent (some k) (.outdialDone codeOk tag) s).modCtx k connectedRecord

theorem answerTold_eq {s : State} {k : ContextId} {o : Outgoing} (request : (s.at k).outgoing = some o) (untold : (s.at k).outdialDone = false) :
    outdialDone k codeOk (s.modCtx k fun x => { x with state := .connected, timer := none, txCode := .seize, dgn := .reset })
      = answerTold k o.tag s := by
  let u := s.modCtx k fun x => { x with state := .connected, timer := none, txCode := .seize, dgn := .reset }
  have record : u.at k = { s.at k with state := .connected, timer := none, txCode := .seize, dgn := .reset } := at_modCtx ..
  rw [outdialDone_of_request (o := o) codeOk (by rw [record]; exact request) (by rw [record]; exact untold), sendEvent_modCtx_comm,
    modCtx_modCtx]
  rfl

/-- R81: what the session of the purpose begins with. -/
def purposeBegins (k : ContextId) (purpose : CallPurpose) (s : State) : State :=
  match purpose with
  | .plain => s.modCtx k fun x => { x with session := .voice, voice := waiting x.voice }
  | .play home handle => beginPlay k (.message home handle) 0
      (s.modCtx k fun x => { x with session := .voice, voice := { x.voice with script := .outdialPlay } })
  | .faxSend home handle => startFaxSend k home handle s
  | .data lo hi => s.modCtx k (dataEntered .originate (lo, hi))

theorem answered_eq {s : State} {k : ContextId} {o : Outgoing} (request : (s.at k).outgoing = some o) (untold : (s.at k).outdialDone = false) :
    answered k s = purposeBegins k o.purpose (answerTold k o.tag s) := by
  have purpose : (((s.at k).outgoing.map (·.purpose)).getD .plain) = o.purpose := by rw [request]; rfl
  unfold answered
  dsimp only
  rw [answerTold_eq request untold, purpose]
  cases o.purpose with
  | plain => exact modCtx_modCtx ..
  | play home h => rfl
  | faxSend home h => rfl
  | data lo hi => rfl

/-- What an answered call leaves whatever its purpose. -/
structure CallAnswered (k : ContextId) (tag : Byte) (b u : State) : Prop where
  others : ∀ j, j ≠ k → u.at j = b.at j
  state : (u.at k).state = .connected
  txCode : (u.at k).txCode = .seize
  timer : (u.at k).timer = none
  dgn : (u.at k).dgn = Dgn.reset
  told : (u.at k).outdialDone = true
  cell : ∃ y ∈ u.clc.tx, y.cell = ownCell b 3 gateway kindEvent (contextTag (some k)) (Event.outdialDone codeOk tag).payload
  tcm : u.tcm = b.tcm
  notices : u.rau.notices = b.rau.notices

theorem callAnswered_answerTold {b : State} (k : ContextId) (tag : Byte) (short : b.clc.tx.length < 24) :
    CallAnswered k tag b (answerTold k tag b) := by
  have record : (answerTold k tag b).at k = connectedRecord (b.at k) := by rw [answerTold, at_modCtx, at_sendEvent]
  refine ⟨fun j other => ?_, by rw [record]; rfl, by rw [record]; rfl, by rw [record]; rfl, by rw [record]; rfl, by rw [record]; rfl,
    ⟨freshTx (eventCell b (some k) (.outdialDone codeOk tag)) 0, ?_, rfl⟩, sendEvent_tcm .., congrArg Rau.notices (sendEvent_rau ..)⟩
  · rw [answerTold, at_modCtx_ne _ _ _ _ other, at_sendEvent]
  · rw [answerTold, modCtx_clc, sendEvent_eq, if_pos short]
    exact (mem_insertByPriority ..).mpr (Or.inl rfl)

theorem ownNumber_answerTold (k : ContextId) (tag : Byte) (b : State) : ownNumber (answerTold k tag b) = ownNumber b := by
  rw [ownNumber, answerTold, modCtx_cfu, (storeOnly_sendEvent ..).cfu, ownNumber]

theorem length_answerTold_le {b : State} {k : ContextId} {tag : Byte} (short : b.clc.tx.length ≤ 21) : (answerTold k tag b).clc.tx.length ≤ 22 := by
  rw [answerTold, modCtx_clc, sendEvent_eq, if_pos (by omega)]
  exact (insertByPriority_perm ..).length_eq.le.trans (Nat.succ_le_succ short)

theorem CallAnswered.modCtx {k : ContextId} {tag : Byte} {b u : State} {f : Context → Context} (h : CallAnswered k tag b u)
    (kept : ∀ x : Context, x.state = .connected → x.timer = none → (f x).state = .connected ∧ (f x).txCode = x.txCode
      ∧ (f x).timer = none ∧ (f x).dgn = x.dgn ∧ (f x).outdialDone = x.outdialDone) : CallAnswered k tag b (u.modCtx k f) := by
  obtain ⟨state, txCode, timer, dgn, told⟩ := kept (u.at k) h.state h.timer
  have record : (u.modCtx k f).at k = f (u.at k) := at_modCtx ..
  refine ⟨fun j other => (at_modCtx_ne _ _ _ _ other).trans (h.others j other), ?_, ?_, ?_, ?_, ?_, h.cell, h.tcm, h.notices⟩
  · rw [record, state]
  · rw [record, txCode, h.txCode]
  · rw [record, timer]
  · rw [record, dgn, h.dgn]
  · rw [record, told, h.told]

theorem CallAnswered.fetchAsked {k : ContextId} {tag : Byte} {b u : State} (home h : Nat) (answer : CallAnswered k tag b u) :
    CallAnswered k tag b (fetchAsked k home h u) := by
  obtain ⟨y, mem, cell⟩ := answer.cell
  exact ⟨answer.others, answer.state, answer.txCode, answer.timer, answer.dgn, answer.told,
    ⟨y, (mem_insertByPriority ..).mpr (Or.inr mem), cell⟩, answer.tcm, answer.notices⟩

theorem CallAnswered.passed {k : ContextId} {tag : Byte} {b u : State} (later : List Channel) (h : CallAnswered k tag b u) :
    u.clc = (changePassed later u).clc ∧ (changePassed later u).at k = u.at k ∧ ∀ j, j ≠ k → (changePassed later u).at j = b.at j :=
  ⟨rfl, rfl, h.others⟩

/-- A playback that an answered call begins. -/
def outdialPlays (home h : Nat) (x : Context) : Context :=
  playStart (.message home h) 0 { x with session := .voice, voice := { x.voice with script := .outdialPlay } }

theorem purposeBegins_of_play {k : ContextId} {home h : Nat} {s : State} (elsewhere : home ≠ ownNumber s) (short : s.clc.tx.length < 24) :
    purposeBegins k (.play home h) s = fetchAsked k home h (s.modCtx k (outdialPlays home h)) := by
  let u := s.modCtx k fun x => { x with session := .voice, voice := { x.voice with script := .outdialPlay } }
  have begun : beginPlay k (.message home h) 0 u = startFetch k home (some h) none (u.modCtx k (playStart (.message home h) 0)) :=
    beginPlay_of_elsewhere elsewhere
  have same : u.modCtx k (playStart (.message home h) 0) = s.modCtx k (outdialPlays home h) := modCtx_modCtx ..
  exact begun.trans ((congrArg _ same).trans (startFetch_of_short k home h short))

theorem callAnswered_answered {b : State} {k : ContextId} {o : Outgoing} (request : (b.at k).outgoing = some o)
    (untold : (b.at k).outdialDone = false) (short : b.clc.tx.length ≤ 21)
    (elsewhere : ∀ home h, o.purpose = .play home h ∨ o.purpose = .faxSend home h → home ≠ ownNumber b) :
    CallAnswered k o.tag b (answered k b) := by
  have told := callAnswered_answerTold (b := b) k o.tag (by omega)
  have room : (answerTold k o.tag b).clc.tx.length < 24 := by have := length_answerTold_le (k := k) (tag := o.tag) short; omega
  have own := ownNumber_answerTold k o.tag b
  rw [answered_eq request untold]
  cases purpose : o.purpose with
  | plain => exact told.modCtx fun _ state timer => ⟨state, rfl, timer, rfl, rfl⟩
  | play home h =>
    rw [purposeBegins_of_play (by rw [own]; exact elsewhere home h (Or.inl purpose)) room]
    exact (told.modCtx (f := outdialPlays home h) fun _ state timer => ⟨state, rfl, timer, rfl, rfl⟩).fetchAsked home h
  | faxSend home h =>
    have begun : purposeBegins k (.faxSend home h) (answerTold k o.tag b) = _ :=
      startFaxSend_of_elsewhere (by rw [own]; exact elsewhere home h (Or.inr purpose)) room
    rw [begun]
    exact (told.modCtx (f := sendsFax) fun _ _ _ => ⟨rfl, rfl, rfl, rfl, rfl⟩).fetchAsked home h
  | data lo hi => exact told.modCtx fun _ _ _ => ⟨rfl, rfl, rfl, rfl, rfl⟩

/-- R81: the sessions of the purposes. -/
theorem answered_of_plain {b : State} {k : ContextId} {o : Outgoing} (request : (b.at k).outgoing = some o)
    (untold : (b.at k).outdialDone = false) (purpose : o.purpose = .plain) : ((answered k b).at k).session = .voice
    ∧ ((answered k b).at k).voice.activity = .waiting ∧ ((answered k b).at k).voice.idle = some 20000 := by
  have record (u : State) : (purposeBegins k .plain u).at k = { u.at k with session := .voice, voice := waiting (u.at k).voice } :=
    at_modCtx ..
  rw [answered_eq request untold, purpose, record]
  exact ⟨rfl, rfl, rfl⟩

theorem answered_of_data {b : State} {k : ContextId} {o : Outgoing} {lo hi : Nat} (request : (b.at k).outgoing = some o)
    (untold : (b.at k).outdialDone = false) (purpose : o.purpose = .data lo hi) :
    ∃ x, (answered k b).at k = dataEntered .originate (lo, hi) x := by
  refine ⟨(answerTold k o.tag b).at k, ?_⟩
  rw [answered_eq request untold, purpose]
  exact at_modCtx ..

theorem answered_of_play {b : State} {k : ContextId} {o : Outgoing} {home h : Nat} (request : (b.at k).outgoing = some o)
    (untold : (b.at k).outdialDone = false) (short : b.clc.tx.length ≤ 21) (purpose : o.purpose = .play home h) (elsewhere : home ≠ ownNumber b) :
    (∃ x, (answered k b).at k = outdialPlays home h x) ∧ ∃ n, (answered k b).fetch k = some (askedFetch home h n) := by
  have room : (answerTold k o.tag b).clc.tx.length < 24 := by have := length_answerTold_le (k := k) (tag := o.tag) short; omega
  have asks := fetchAsked_asks k home h ((answerTold k o.tag b).modCtx k (outdialPlays home h))
  rw [answered_eq request untold, purpose, purposeBegins_of_play (by rw [ownNumber_answerTold]; exact elsewhere) room]
  exact ⟨⟨_, asks.context.trans (at_modCtx ..)⟩, ⟨_, asks.fetch⟩⟩

theorem answered_of_faxSend {b : State} {k : ContextId} {o : Outgoing} {home h : Nat} (request : (b.at k).outgoing = some o)
    (untold : (b.at k).outdialDone = false) (short : b.clc.tx.length ≤ 21) (purpose : o.purpose = .faxSend home h) (elsewhere : home ≠ ownNumber b) :
    (∃ x, (answered k b).at k = sendsFax x) ∧ ∃ n, (answered k b).fetch k = some (askedFetch home h n) := by
  have room : (answerTold k o.tag b).clc.tx.length < 24 := by have := length_answerTold_le (k := k) (tag := o.tag) short; omega
  have asks := fetchAsked_asks k home h ((answerTold k o.tag b).modCtx k sendsFax)
  have begun : purposeBegins k (.faxSend home h) (answerTold k o.tag b) = _ :=
    startFaxSend_of_elsewhere (by rw [ownNumber_answerTold]; exact elsewhere) room
  rw [answered_eq request untold, purpose, begun]
  exact ⟨⟨_, asks.context.trans (at_modCtx ..)⟩, ⟨_, asks.fetch⟩⟩

/-- Settles O60: how a delivered code moves a run at every boundary, and what a receive code that settles alone does. -/
theorem codesSettleAtBoundaries : Obligations.CodesSettleAtBoundaries := by
  refine ⟨fun count code x => deliver_spec count code x, fun s t ticks m q aligned counts short next => ?codes,
    fun s ticks away => ?away, fun s ticks ch code g q alone config => ?alone⟩
  case codes =>
    have acts : exec (.superframeBoundary ticks) s = .next (settle (superframeBoundary ticks s)) := by
      have acts : exec (.superframeBoundary ticks) s = act (isAligned s) (superframeBoundary ticks s) s := rfl
      rw [acts, aligned, act_of_true]
    obtain rfl : settle (superframeBoundary ticks s) = t := Host.Outcome.next.inj (acts.symm.trans next)
    have count : settleCount s = (s.cfu.config.map (·.settleCount)).getD 8 := by
      rw [settleCount]
      split <;> simp_all
    intro count' c
    have codes := codes_superframeBoundary counts short c
    rw [count] at codes
    exact codes
  case away => exact act_of_not_due (superframeBoundary ticks s) s away
  case alone =>
    obtain ⟨b, later, found, distinct, effect⟩ := boundary_of_settlesAlone alone
    obtain ⟨⟨m, _, ⟨aligned, _⟩, _⟩, _⟩ := alone
    have acts : exec (.superframeBoundary ticks) s = .next (settle (changePassed later (receiveChange ch code b))) := by
      have acts : exec (.superframeBoundary ticks) s = act (isAligned s) (superframeBoundary ticks s) s := rfl
      rw [acts, aligned, act_of_true, effect]
    have quiet : b.Quiet := quiet_of_rau q found.rau
    have config' : configOf b = g := configOf_eq (by rw [found.cfu]; exact config)
    have stands (same : receiveChange ch code b = b) :
        ∃ t, exec (.superframeBoundary ticks) s = .next t ∧ (∀ j, t.at j = ticked (s.at j)) ∧ t.clc = s.clc := by
      refine ⟨changePassed later b, ?_, fun j => (at_changePassed later b j).trans (found.ctx j), found.clc⟩
      rw [acts, same, settle_quiet (s := changePassed later b) quiet]
    refine ⟨fun seize holder claimer clearer => ?free, fun k view channel free => ?held⟩
    case free =>
      subst seize
      rw [← found.holder_eq] at holder
      rw [← found.claimer_eq] at claimer
      rw [← found.clearer_eq] at clearer
      have notBusy : channelBusy b ch = false := by rw [channelBusy, claimer, clearer]; rfl
      obtain ⟨viewSame, txSame⟩ := found.views ch
      refine ⟨fun k active hunted open_ state lowest room => ?bid, fun refused notBlocked => ?_⟩
      case bid =>
        have notBlocked : (b.entry ch).view ≠ .blocked := by
          rw [viewSame]
          rcases open_ with view | ⟨view, _⟩ <;> rw [view] <;> nofun
        have can : canBid b ch = true := by
          have open' : (b.entry ch).view = .free ∨ ((b.entry ch).view = .unknown ∧ (b.entry ch).tx.settled = .idle) := by
            rw [viewSame, txSame]
            exact open_
          have active' : b.cfu.state = .active := by rw [found.cfu]; exact active
          simp [canBid, active', found.aligned, aligned, config', hunted, notBusy, open']
        have lowest' : freeContext? b = some k := found.free_eq.trans (freeContext?_of_lowest state lowest)
        have delay : bidDelay (configOf b) (ownNumber b) (busyContexts b) ch
            = 4 * ((ch.val + 8 * g.groupSize - s.cfu.station.val) % g.groupSize)
              + 8 * (contextIds.filter fun j => (s.at j).state != .free).length := by
          rw [config', ownNumber, found.cfu, found.busyContexts_eq]
          rfl
        have examined := receiveChange_of_seize notBlocked holder claimer clearer
        have change := examined.trans (examineBid_of_free can lowest')
        have still : (changePassed later (receiveChange ch .seize b)).Quiet := by
          rw [State.Quiet, changePassed_notices, examined, (examineBid_frame ch b).2.2]
          exact quiet
        have begun := bidBegun_of_room (k := k) (ch := ch) (found.claim_eq 1 allStations kindClaim 0xFF (be1 ch.val ++ be1 0))
          (by rw [found.clc]; exact room)
        rw [delay] at change
        rw [← change] at begun
        have passed := begun.passed later
        generalize changePassed later (receiveChange ch .seize b) = t at passed still acts
        rw [settle_quiet still] at acts
        refine ⟨t, acts, passed.state, passed.direction, fun j other => (passed.others j other).trans (found.ctx j), passed.bid, ?_⟩
        rw [← found.clc]
        exact passed.tx
      · have refuses : examineBid ch b = b := by
          rcases refused with state | out | busy | ⟨p, peer⟩
          · exact examineBid_of_refused (by rw [canBid, found.cfu]; simp [state])
          · exact examineBid_of_refused (by simp [canBid, config', out])
          · exact examineBid_of_busy (found.free_eq.trans (freeContext?_eq_none busy))
          · exact examineBid_of_refused (by simp [canBid, viewSame, peer])
        exact stands ((receiveChange_of_seize (by rw [viewSame]; exact notBlocked) holder claimer clearer).trans refuses)
    case held =>
      intro x stands' ends incoming outgoing
      have viewB : (b.entry ch).view = .self k := (found.views ch).1.trans view
      have record : b.at k = tickContext x := (found.ctx k).trans (ticked_of_free free)
      have channelB : (b.at k).channel = some ch := (found.channel_eq k).trans channel
      have stateB : (b.at k).state = x.state := found.state_eq k
      have ended (cause : Byte) (clears : clears cause = true) (call : inCall x = true)
          (line : lineCode k code b = endCall k cause b) : ends cause := by
        have callB : inCall (b.at k) = true := by rw [inCall, stateB]; exact call
        have notClearing : (b.at k).state ≠ .clearing := by
          rw [stateB]
          intro clearing
          rw [inCall, clearing] at call
          cases call
        have kept : ((lineCode k code b).entry ch).view = .self k := by
          rw [line, State.entry, endCall_tcm_of_clears clears callB]
          exact viewB
        have effect := receiveChange_of_holder viewB notClearing kept
        have settled := codeEnded_settle later quiet clears callB channelB
        rw [effect, line] at acts
        obtain ⟨y, atK, left⟩ := settled.record
        have silent (ungreeted : x.state ≠ .discriminating) (unconnected : x.state ≠ .connected) : Silent (b.at k) :=
          ⟨by rw [stateB]; exact ungreeted, fun connected => absurd (stateB.symm.trans connected) unconnected⟩
        refine ⟨_, acts, fun j other => (settled.others j other).trans (found.ctx j), by rw [atK]; rfl, by rw [atK]; rfl, by rw [atK]; rfl,
          by rw [atK]; rfl, by rw [atK]; rfl, by rw [atK]; exact left, fun early inbound noRequest => ?_,
          fun o early outbound request untold => ?_⟩
        · have quietCall := silent (fun state => absurd (state ▸ early) (by decide)) fun state => absurd (state ▸ early) (by decide)
          rw [settled.cells quietCall]
          cases announced : x.announced with
          | true =>
            rw [endCall_clc_of_announced clears callB quietCall (by rw [record]; exact announced) (by rw [record]; exact noRequest) channelB]
            have told := sendEvent_congr (k := some k) (e := .callEnded cause) found.clc found.cfu
            exact sendRelease_clc_congr ch told.1 told.2
          | false =>
            rw [endCall_clc_of_unannounced clears callB quietCall (by rw [record]; exact inbound) (by rw [record]; exact announced)
              (by rw [record]; exact noRequest) channelB]
            have first := sendEvent_congr (k := some k) (e := .callArrived ch none) found.clc found.cfu
            have second := sendEvent_congr (k := some k) (e := .callEnded cause) first.1 first.2
            exact sendRelease_clc_congr ch second.1 second.2
        · have quietCall := silent (fun state => absurd (state ▸ early) (by decide)) fun state => absurd (state ▸ early) (by decide)
          rw [settled.cells quietCall, endCall_clc_of_request (o := o) clears callB quietCall (by rw [record]; exact outbound)
            (by rw [record]; exact request) (by rw [record]; exact untold) channelB]
          have first := sendEvent_congr (k := some k) (e := .outdialDone cause o.tag) found.clc found.cfu
          have second := sendEvent_congr (k := some k) (e := .callEnded cause) first.1 first.2
          exact sendRelease_clc_congr ch second.1 second.2
      have calls (who : incoming ∨ outgoing ∨ x.state ∈ [.seized, .dialling, .progress]) : inCall x = true := by
        refine (inCall_iff x).mpr ?_
        rcases who with (early | ⟨connected, _⟩) | ⟨connected, _⟩ | late
        all_goals
          simp only [List.mem_cons, List.not_mem_nil, or_false] at *
          tauto
      refine ⟨fun who blocked => ended codeBlocked rfl (calls who) ?_, fun who idle => ended codeFarEndClear rfl ?_ ?_,
        fun out seize => ended codeFarEndClear rfl (calls (Or.inr (Or.inl out))) ?_, fun which => ?_, fun o seized seize request untold digits => ?glare,
        fun o early answer request untold short elsewhere => ?answer⟩
      · rw [blocked]
        rfl
      · exact calls (who.imp_right (·.imp_right fun late => List.mem_cons_of_mem _ late))
      · rw [idle]
        refine lineCode_of_idle fun seized => ?_
        rw [stateB] at seized
        simp [incoming, outgoing, seized] at who
      · rw [seize]
        exact lineCode_of_second_seize (stateB.trans out.1) (by rw [record]; exact out.2)
      · have still (notClearing : x.state ≠ .clearing) (line : lineCode k code b = b) : stands' :=
          stands ((receiveChange_of_holder viewB (by rw [stateB]; exact notClearing) (by rw [line]; exact viewB)).trans line)
        rcases which with ⟨seized, idle⟩ | ⟨inbound, code'⟩ | ⟨⟨connected, _⟩, answer⟩ | ⟨dials, seize⟩ | clearing
        · refine still (by rw [seized]; nofun) ?_
          rw [idle]
          exact lineCode_of_standing (Or.inr ⟨rfl, stateB.trans seized⟩)
        · have early : x.state ≠ .seized ∧ x.state ≠ .dialling ∧ x.state ≠ .progress ∧ x.state ≠ .clearing
              ∧ (x.state ≠ .connected ∨ x.direction = some .incoming) := by
            rcases inbound with early | ⟨connected, inward⟩
            · simp only [List.mem_cons, List.not_mem_nil, or_false] at early
              rcases early with state | state | state <;> simp [state]
            · simp [connected, inward]
          obtain ⟨notSeized, notDialling, notProgress, notClearing, other⟩ := early
          refine still notClearing ?_
          simp only [List.mem_cons, List.not_mem_nil, or_false] at code'
          rcases code' with code' | code' <;> rw [code']
          · exact lineCode_of_seize (by rw [stateB]; exact notSeized) (by rw [stateB, record]; exact other)
          · exact lineCode_of_answer (by rw [stateB]; exact notSeized) (by rw [stateB]; exact notDialling) (by rw [stateB]; exact notProgress)
        · refine still (by rw [connected]; nofun) ?_
          rw [answer]
          exact lineCode_of_answer (by rw [stateB, connected]; nofun) (by rw [stateB, connected]; nofun) (by rw [stateB, connected]; nofun)
        · have late : x.state = .dialling ∨ x.state = .progress := by simpa using dials
          refine still (by rcases late with state | state <;> rw [state] <;> nofun) ?_
          rw [seize]
          refine lineCode_of_seize ?_ (Or.inl ?_) <;> rw [stateB] <;> rcases late with state | state <;> rw [state] <;> nofun
        · exact stands (receiveChange_of_clearing viewB (stateB.trans clearing))
      case answer =>
        have requestB : (b.at k).outgoing = some o := by rw [record]; exact request
        have untoldB : (b.at k).outdialDone = false := by rw [record]; exact untold
        have shortB : b.clc.tx.length ≤ 21 := by rw [found.clc]; exact short
        have own : ownNumber b = s.cfu.station.val := by rw [ownNumber, found.cfu]
        have line : lineCode k code b = answered k b := by
          rw [answer]
          exact lineCode_of_answered (by rw [stateB]; exact early)
        have told := callAnswered_answered requestB untoldB shortB (by rw [own]; exact elsewhere)
        have plain := answered_of_plain requestB untoldB
        have data := fun lo hi => answered_of_data (lo := lo) (hi := hi) requestB untoldB
        have play := fun home h => answered_of_play (home := home) (h := h) requestB untoldB shortB
        have fax := fun home h => answered_of_faxSend (home := home) (h := h) requestB untoldB shortB
        have notClearing : (b.at k).state ≠ .clearing := fun clearing => by
          rw [stateB.symm.trans clearing] at early
          revert early
          decide
        have effect := receiveChange_of_holder viewB notClearing (by rw [line, State.entry, told.tcm]; exact viewB)
        rw [effect, line] at acts
        generalize answered k b = u at told plain data play fax acts
        have quietU : (changePassed later u).Quiet := told.notices.trans quiet
        rw [settle_quiet quietU] at acts
        obtain ⟨y, mem, cell⟩ := told.cell
        have fetched {home h n : Nat} (asked : u.fetch k = some (askedFetch home h n)) :
            ∃ f, (changePassed later u).fetch k = some f ∧ f.state = .opening ∧ f.home = home ∧ f.handle = some h := by
          refine ⟨_, (fetch_changePassed later u k).trans (congrArg _ asked), rfl, rfl, rfl⟩
        refine ⟨changePassed later u, acts, fun j other => (told.others j other).trans (found.ctx j), told.state, told.txCode, told.timer,
          told.dgn, told.told, ⟨y, mem, cell.trans (found.claim_eq ..)⟩, plain, fun home h purpose => ?_, fun home h purpose => ?_,
          fun lo hi purpose => ?_⟩
        · obtain ⟨⟨z, atK⟩, n, asked⟩ := play home h purpose (by rw [own]; exact elsewhere home h (Or.inl purpose))
          rw [at_changePassed, atK]
          exact ⟨rfl, rfl, rfl, fetched asked⟩
        · obtain ⟨⟨z, atK⟩, n, asked⟩ := fax home h purpose (by rw [own]; exact elsewhere home h (Or.inr purpose))
          rw [at_changePassed, atK]
          exact ⟨rfl, rfl, fetched asked⟩
        · obtain ⟨z, atK⟩ := data lo hi purpose
          rw [at_changePassed, atK]
          exact ⟨rfl, rfl, rfl⟩
      case glare =>
        let v := b.modCtx k glared
        have requestB : (b.at k).outgoing = some o := by rw [record]; exact request
        have line : lineCode k code b = retryElsewhere k o v := by
          rw [seize]
          exact (lineCode_of_glare (stateB.trans seized)).trans (glare_of_request requestB (by rw [config']; exact digits))
        have atK : v.at k = glared (b.at k) := at_modCtx ..
        have elsewhere (j : ContextId) (other : j ≠ k) : v.at j = b.at j := at_modCtx_ne _ _ _ _ other
        have busyV : (v.at k).state ≠ .free := by rw [atK]; nofun
        have met := glared_retryElsewhere (k := k) o busyV
        have notClearing : (b.at k).state ≠ .clearing := by rw [stateB, seized]; nofun
        have viewV : (v.entry ch).view = .self k := viewB
        have viewU : ((retryElsewhere k o v).entry ch).view = .self k := by rw [State.entry, met.map]; exact viewV
        have effect := receiveChange_of_holder viewB notClearing (by rw [line]; exact viewU)
        have notFree (i : ContextId) (busy : (s.at i).state ≠ .free) : (v.at i).state ≠ .free := by
          by_cases same : i = k
          · rw [same]
            exact busyV
          · rw [elsewhere i same, found.state_eq]
            exact busy
        have told : (o.glareRetried = true ∨ ∀ j, (s.at j).state ≠ .free) → retryElsewhere k o v = glareTold k o.tag v := by
          rintro (spent | busy)
          · exact retryElsewhere_of_nobody (Or.inl spent)
          · exact retryElsewhere_of_nobody (Or.inr (freeContext?_eq_none fun i => notFree i (busy i)))
        have chosen (j : ContextId) (first : o.glareRetried = false) (reset : s.at j = Context.reset)
            (lowest : ∀ i, i < j → (s.at i).state ≠ .free) : j ≠ k ∧ v.at j = Context.reset ∧ freeContext? v = some j := by
          have other : j ≠ k := fun same => by
            have seizedK : (s.at k).state = .seized := seized
            rw [← same, reset] at seizedK
            cases seizedK
          have atJ : v.at j = Context.reset := by
            rw [elsewhere j other, found.ctx, reset]
            rfl
          exact ⟨other, atJ, freeContext?_of_lowest (by rw [atJ]; rfl) fun i below => notFree i (lowest i below)⟩
        have takes (j : ContextId) (reset : v.at j = Context.reset) (other : j ≠ k) (c : Channel) : canTake (carrying j o v) c = true
            ↔ inSet g.outdialSet c = true ∧ (s.entry c).view = .free ∧ (s.entry c).rx.settled = .idle ∧ claimerOf s c = none
              ∧ clearerOf s c = none := by
          have free : (b.at j).state = .free := by rw [← elsewhere j other, reset]; rfl
          rw [canTake_carrying o c (stateB.trans seized) free, canTake_iff, config', (found.views c).1, found.claimer_eq, found.clearer_eq,
            found.aligned, aligned]
          by_cases own : c = ch
          · subst own
            simp [view]
          · rw [found.others c own]
            simp
        rw [effect, line] at acts
        have quietU : (changePassed later (retryElsewhere k o v)).Quiet := (congrArg Rau.notices met.rau).trans quiet
        rw [settle_quiet quietU] at acts
        obtain ⟨y, recordU⟩ := met.record
        refine ⟨changePassed later (retryElsewhere k o v), acts, ?_, ?_, ?_, ?_, ?_, view_changePassed distinct viewU, fun spent => ?_,
          fun j first reset lowest => ⟨fun c can below room => ?_, fun nothing => ?_⟩⟩
        · rw [at_changePassed, recordU, atK]
          rfl
        · rw [at_changePassed, recordU, atK]
          rfl
        · rw [at_changePassed, recordU, atK]
          rfl
        · rw [at_changePassed, recordU, atK]
          rfl
        · rw [at_changePassed, recordU, atK]
          rfl
        · rw [told spent]
          refine ⟨fun j other => ?_, ?_⟩
          · have same : (glareTold k o.tag v).at j = v.at j := by rw [glareTold, at_modCtx_ne _ _ _ _ other, at_sendEvent]
            exact same.trans ((elsewhere j other).trans (found.ctx j))
          · exact (sendEvent_congr (k := some k) (e := .outdialDone codeGlare o.tag) (s := v) (t := s) found.clc found.cfu).1
        · obtain ⟨other, atJ, free⟩ := chosen j first reset lowest
          have claimed := glareClaimed_retryElsewhere (k := k) first free (find_canTake ((takes j atJ other c).mpr can) fun d lower =>
            Bool.eq_false_iff.mpr fun can' => below d lower ((takes j atJ other d).mp can')) (claim := outgoingClaim s c)
            (found.claim_eq ..) (by rw [show v.clc = s.clc from found.clc]; exact room)
          have same := claimed.passed later
          rw [show v.clc = s.clc from found.clc] at same
          exact ⟨same.state, same.direction, same.outgoing, same.requestTag, same.bid, same.tx⟩
        · obtain ⟨other, atJ, free⟩ := chosen j first reset lowest
          have failed := retryElsewhere_of_none (k := k) first free (by rw [atJ]; rfl) fun c => Bool.eq_false_iff.mpr fun can =>
            nothing c ((takes j atJ other c).mp can)
          rw [at_changePassed, changePassed_clc, failed]
          exact ⟨at_freeContext .., sendEvent_tx_congr (s := carrying j o v) (t := s) (some j) _ (congrArg Clc.tx found.clc)
            (congrArg Cfu.station found.cfu)⟩

end Sys2Proof.Machine
end

section
/-! PROOFS. The third good frame word: the entry to ALIGNED and the return of the held calls (R8, R11, R17, R101, R135, R150). -/
namespace Sys2Proof.Machine

/-- R101: the codec of a context that goes on, when its decoder waits for a block that has come. -/
def resumedDecoder (v : Vcd) : Vcd := match v.mark, v.current with
  | .underrun, some (b, _) => match v.buffer.find b with
    | .ready _ block => { v with
        decPredictor := headerPredictor block, decIndex := headerIndex block, current := some (b, 0), mark := .playing }
    | _ => v
  | _, _ => v

theorem resumeDecoder_of_going {s : State} {k : ContextId} (going : (s.at k).held = false) :
    resumeDecoder k s = s.modVcd k resumedDecoder := by
  have changed (v : Vcd) (same : resumedDecoder (s.at k).vcd = v) : s.modVcd k resumedDecoder = s.modVcd k fun _ => v :=
    modCtx_congr (congrArg (fun v => { s.at k with vcd := v }) same)
  have stands : s.modVcd k (fun _ => (s.at k).vcd) = s := modCtx_self rfl
  cases waits : decide ((s.at k).vcd.mark = .underrun) with
  | false =>
    have mark := of_decide_eq_false waits
    rw [changed (s.at k).vcd (by simp [resumedDecoder, mark]), stands]
    simp [resumeDecoder, mark]
  | true =>
    have mark := of_decide_eq_true waits
    cases current : (s.at k).vcd.current with
    | none =>
      rw [changed (s.at k).vcd (by simp only [resumedDecoder, mark, current]), stands]
      simp only [resumeDecoder, going, mark, current]
    | some p =>
      obtain ⟨b, n⟩ := p
      cases slot : (s.at k).vcd.buffer.find b with
      | ready j block =>
        rw [changed (decodingFrom b block (s.at k).vcd) (by simp only [resumedDecoder, mark, current, slot]; rfl)]
        simp only [resumeDecoder, going, mark, current, slot]
        exact modCtx_congr rfl
      | _ =>
        rw [changed (s.at k).vcd (by simp only [resumedDecoder, mark, current, slot]), stands]
        simp only [resumeDecoder, going, mark, current, slot]

/-- R135: nothing is left to ask for: no slot is EMPTY, or the message has no further block. -/
theorem fillBuffer_of_asked {k : ContextId} {source : Source} {blocks needed : Nat} {b : Buffer} (s : State)
    (asked : b.hasRoom = false ∨ blocks ≤ b.next needed) : fillBuffer k source blocks needed b s = (s, b) := by
  have stands : askNext k source blocks needed b s = (s, b) := by
    have none_asked : (b.hasRoom && b.next needed < blocks) = false := by
      rcases asked with full | past
      · rw [full, Bool.false_and]
      · rw [decide_eq_false (Nat.not_lt.mpr past), Bool.and_false]
    simp only [askNext, none_asked, Bool.false_eq_true, if_false]
  rw [fillBuffer, stands, stands]

/-- R97: a fetch that has no block left to ask for. -/
def nothingToAsk (source : Option Source) (b : Buffer) (blocks needed : Nat) : Prop :=
  source = some .fetched → b.hasRoom = false ∨ blocks ≤ b.next needed

theorem resumeFax_of_asked {s : State} {k : ContextId} (notSending : (s.at k).fax.phase ≠ .sending)
    (asked : nothingToAsk (s.at k).fax.source (s.at k).fax.buffer (s.at k).fax.blocks (faxNeeds (s.at k).fax)) :
    resumeFax k s = s := by
  have fed : feed k s = s := by
    have pageStands : feedPage k ((s.at k).fax.blocks + 1) s = s := by simp [feedPage, notSending]
    rw [feed, pageStands, ite_self]
  cases source : (s.at k).fax.source with
  | none => simp only [resumeFax, source]
  | some which =>
    cases which with
    | here h => simp only [resumeFax, source]
    | fetched =>
      simp only [resumeFax, source, fillBuffer_of_asked s (asked source)]
      exact (congrArg (feed k) (modCtx_self rfl)).trans fed

theorem resumePlayback_of_asked {s : State} {k : ContextId} (going : (s.at k).held = false)
    (asked : ∀ b n, (s.at k).vcd.current = some (b, n) → nothingToAsk (s.at k).vcd.source (s.at k).vcd.buffer (s.at k).vcd.blocks b) :
    resumePlayback k s = s.modVcd k resumedDecoder := by
  have refilled (b n : Nat) (current : (s.at k).vcd.current = some (b, n)) (fetched : (s.at k).vcd.source = some .fetched) :
      refillPlayback k b s = s := by
    simp only [refillPlayback, fetched, fillBuffer_of_asked s (asked b n current fetched)]
    exact modCtx_self rfl
  rw [← resumeDecoder_of_going going]
  unfold resumePlayback
  dsimp only
  split
  next b n fetched current => rw [refilled b n current fetched]
  next => rfl

theorem resumeContext_of_asked {s : State} {k : ContextId} (going : (s.at k).held = false) (notData : (s.at k).session ≠ .data)
    (notSending : (s.at k).fax.phase ≠ .sending)
    (faxAsked : nothingToAsk (s.at k).fax.source (s.at k).fax.buffer (s.at k).fax.blocks (faxNeeds (s.at k).fax))
    (asked : ∀ b n, (s.at k).vcd.current = some (b, n) → nothingToAsk (s.at k).vcd.source (s.at k).vcd.buffer (s.at k).vcd.blocks b) :
    resumeContext k s = s.modVcd k resumedDecoder := by
  have record : (s.modVcd k resumedDecoder).at k = { s.at k with vcd := resumedDecoder (s.at k).vcd } := at_modCtx ..
  have data : ((s.at k).state = .connected && (s.at k).session = .data) = false := by simp [notData]
  simp only [resumeContext, data, Bool.false_eq_true, if_false, resumePlayback_of_asked going asked]
  refine resumeFax_of_asked ?_ ?_ <;> rw [record]
  · exact notSending
  · exact faxAsked

/-! ### The return (R8, R17) -/

/-- The highway after the entry to ALIGNED at a position. -/
def alignedHighway (p counter : Nat) (h : Hwi) : Hwi := { h with
  bitCounter := counter, align := .aligned p, errors := 0, lastAligned := some p
  tickCount := none, prevTiming := none, localCount := 0, hold := none
  channels := h.channels.map fun c => { c with enable := c.enable || c.aside, aside := false } }

/-- R8: the report of the entry to ALIGNED. -/
def alignReport (p : Nat) (s : State) : Event := .highway (if boundaryMoved p s then 2 else 1)

/-- R17: the return of the held contexts, the enables restored already. -/
def returned (held : List ContextId) (s : State) : State :=
  forEach held resumeContext (forEach held (fun k t => t.modCtx k fun x => { x with held := false }) s)

/-- R8: the entry to ALIGNED in a station that is not STARTING, with no data session to train again. -/
theorem enterAligned_of_no_data {s u : State} {p counter : Nat} (notStarting : s.cfu.state ≠ .starting)
    (effect : returned (contextIds.filter fun k => (s.at k).held)
      { sendEvent none (alignReport p s) s with hwi := alignedHighway p counter s.hwi, ctx := s.ctx } = u)
    (state : u.cfu.state = s.cfu.state) (notData : ∀ k, (u.at k).session ≠ .data) :
    enterAligned p (s.modHwi fun h => { h with bitCounter := counter }) = u := by
  let v := alignAt p (s.modHwi fun h => { h with bitCounter := counter })
  have sent : sendEvent none (alignReport p s) v = { sendEvent none (alignReport p s) s with hwi := v.hwi, ctx := s.ctx } :=
    sendEvent_off none (alignReport p s) s v.hwi s.ctx
  have resumed : resumeHeld (sendEvent none (alignReport p s) v) = u := by
    rw [sent]
    exact effect
  have moved : (if boundaryMoved p s then retrainAll .timing u else u) = u := by
    rw [retrainAll_of_no_data .timing notData, ite_self]
  have noted : noteAlignment u = u := by simp only [noteAlignment, state, notStarting, if_false]
  have left : leaveStarting u = u := by simp [leaveStarting, state, notStarting]
  have whole : enterAligned p (s.modHwi fun h => { h with bitCounter := counter })
      = leaveStarting (noteAlignment (if boundaryMoved p s then retrainAll .timing (resumeHeld (sendEvent none (alignReport p s) v))
        else resumeHeld (sendEvent none (alignReport p s) v))) := rfl
  rw [whole, resumed, moved, noted, left]

theorem boundaryMoved_iff (p : Nat) (s : State) : boundaryMoved p s = true ↔ s.hwi.lastAligned.isSome ∧ s.hwi.lastAligned ≠ some p := by
  unfold boundaryMoved
  cases last : s.hwi.lastAligned <;> simp

theorem alignReport_eq (p : Nat) (s : State) :
    alignReport p s = .highway (if s.hwi.lastAligned.isSome ∧ s.hwi.lastAligned ≠ some p then 2 else 1) := by
  rw [alignReport, ← if_congr (boundaryMoved_iff p s) rfl rfl]

/-- R17: the record of a context after the return, when its transfers have nothing left to ask for. -/
def resumedRecord (x : Context) : Context := { x with held := false, vcd := resumedDecoder x.vcd }

/-- R135: every held context that may be asked for nothing more, and sends no fax page. -/
def Rests (s : State) : Prop := ∀ k, (s.at k).held = true → (s.at k).fax.phase ≠ .sending
  ∧ nothingToAsk (s.at k).fax.source (s.at k).fax.buffer (s.at k).fax.blocks (faxNeeds (s.at k).fax)
  ∧ ∀ b n, (s.at k).vcd.current = some (b, n) → nothingToAsk (s.at k).vcd.source (s.at k).vcd.buffer (s.at k).vcd.blocks b

theorem returned_of_rests {s : State} (u : State) (rests : Rests s) (notData : ∀ k, (s.at k).session ≠ .data) :
    returned (contextIds.filter fun k => (s.at k).held) { u with ctx := s.ctx }
      = { u with ctx := s.ctx.map fun x => if x.held then resumedRecord x else x } := by
  have distinct : (contextIds.filter fun k => (s.at k).held).Nodup := contextIds_nodup.filter _
  have held {k : ContextId} : k ∈ contextIds.filter (fun k => (s.at k).held) ↔ (s.at k).held = true :=
    List.mem_filter.trans (and_iff_right (mem_contextIds k))
  let freed := changeEach (contextIds.filter fun k => (s.at k).held) (fun _ x => { x with held := false }) s.ctx
  have released : forEach (contextIds.filter fun k => (s.at k).held) (fun k t => t.modCtx k fun x => { x with held := false })
      { u with ctx := s.ctx } = { u with ctx := freed } :=
    forEach_changes (fun b => { u with ctx := b }) s.ctx distinct fun _ _ _ _ => rfl
  have record {k : ContextId} (isHeld : (s.at k).held = true) : freed.get k = { s.at k with held := false } :=
    (get_changeEach _ _ _ distinct).trans (if_pos (held.mpr isHeld))
  have resumed : forEach (contextIds.filter fun k => (s.at k).held) resumeContext { u with ctx := freed }
      = { u with ctx := changeEach (contextIds.filter fun k => (s.at k).held) (fun _ x => { x with vcd := resumedDecoder x.vcd }) freed } := by
    refine forEach_changes (fun b => { u with ctx := b }) freed distinct fun k mem b same => ?_
    obtain ⟨notSending, faxAsked, asked⟩ := rests k (held.mp mem)
    have before : ({ u with ctx := b } : State).at k = { s.at k with held := false } := same.trans (record (held.mp mem))
    refine resumeContext_of_asked ?_ ?_ ?_ ?_ ?_ <;> rw [before]
    · exact notData k
    · exact notSending
    · exact faxAsked
    · exact asked
  rw [returned, released, resumed]
  refine congrArg (fun b => { u with ctx := b }) (Bank.ext_get fun k => ?_)
  rw [get_changeEach _ _ _ distinct, get_changeEach _ _ _ distinct, Bank.get_map, if_congr held rfl rfl, if_congr held rfl rfl]
  change _ = if (s.at k).held = true then resumedRecord (s.at k) else s.at k
  split <;> rfl

/-- A playback of which one context alone is held, with the first of its two blocks in its decoder and none asked for. -/
structure HeldPlayback (k : ContextId) (r : Fetch) (b : Nat) (s : State) : Prop where
  held : (s.at k).held = true
  alone : ∀ j, j ≠ k → (s.at j).held = false
  notFax : (s.at k).fax.source = none
  fetched : (s.at k).vcd.source = some .fetched
  current : ∃ n, (s.at k).vcd.current = some (b, n)
  waits : (s.at k).vcd.mark = .underrun
  buffer : (s.at k).vcd.buffer = Buffer.reset
  more : b + 1 < (s.at k).vcd.blocks
  fetch : s.fetch k = some r
  first : r.pending = []

/-- The record of a playback that has asked for its two blocks on the return. -/
def askedRecord (b : Nat) (x : Context) : Context :=
  { x with held := false, vcd := { x.vcd with buffer := { a := .requested b, b := .requested (b + 1) } } }

theorem heldContexts_of_alone {s : State} {k : ContextId} (held : (s.at k).held = true) (alone : ∀ j, j ≠ k → (s.at j).held = false) :
    contextIds.filter (fun j => (s.at j).held) = [k] := by
  have only : (fun j => (s.at j).held) = fun j => j == k := by
    funext j
    by_cases same : j = k
    · rw [same, held, beq_self_eq_true]
    · rw [alone j same, beq_false_of_ne same]
  have single : ∀ k : ContextId, contextIds.filter (fun j => j == k) = [k] := by decide
  rw [only, single]

theorem returned_of_heldPlayback {s u : State} {k : ContextId} {r : Fetch} {b : Nat} (h : HeldPlayback k r b s) (ctx : u.ctx = s.ctx)
    (rau : u.rau = s.rau) (notData : (s.at k).session ≠ .data) (room : u.clc.tx.length ≤ 22) :
    returned (contextIds.filter fun j => (s.at j).held) u = (enqueue (blockAsk u k r (b + 1)) r.serial (enqueue (blockAsk u k r b) r.serial
      (u.setFetch k (some { r with pending := [b, b + 1], timer := some 2000, keepalive := 5000 })))).modCtx k (askedRecord b) := by
  obtain ⟨n, current⟩ := h.current
  let v := u.modCtx k fun x => { x with held := false }
  have record : v.at k = { s.at k with held := false } := (at_modCtx ..).trans (congrArg (fun b : Bank 4 Context => { b.get k with held := false }) ctx)
  have fetch : v.fetch k = some r := (congrArg (fun x : Rau => x.fetches.get k) rau).trans h.fetch
  have asks := twoAsked (s := v) b fetch h.first room
  have refilled : refillPlayback k b v = (fetchAsk k (b + 1) (fetchAsk k b v)).modVcd k fun x => { x with
      buffer := { a := .requested b, b := .requested (b + 1) } } := by
    have fills := fillBuffer_of_going (s := v) (k := k) b h.more (by rw [record])
    simp only [refillPlayback, record, h.fetched, h.buffer, fills]
  have played : resumePlayback k v = refillPlayback k b v := by
    have standing : (refillPlayback k b v).at k = askedRecord b (s.at k) := by
      rw [refilled, State.modVcd, at_modCtx, at_fetchAsk, at_fetchAsk, record]
      rfl
    have decoder : resumeDecoder k (refillPlayback k b v) = refillPlayback k b v := by
      have slot : (askedRecord b (s.at k)).vcd.buffer.find b = .requested b := find_of_first rfl
      have decodes : resumedDecoder (askedRecord b (s.at k)).vcd = (askedRecord b (s.at k)).vcd := by
        have mark : (askedRecord b (s.at k)).vcd.mark = .underrun := h.waits
        have place : (askedRecord b (s.at k)).vcd.current = some (b, n) := current
        simp only [resumedDecoder, mark, place, slot]
      rw [resumeDecoder_of_going (by rw [standing]; rfl)]
      exact modCtx_self (by rw [standing, decodes])
    simp only [resumePlayback, record, h.fetched, current]
    exact decoder
  have noFax : resumeFax k (refillPlayback k b v) = refillPlayback k b v := by
    have source : ((refillPlayback k b v).at k).fax.source = none := by
      rw [refilled, State.modVcd, at_modCtx, at_fetchAsk, at_fetchAsk, record]
      exact h.notFax
    simp only [resumeFax, source]
  have resumed : resumeContext k v = refillPlayback k b v := by
    have data : ((v.at k).state = .connected && (v.at k).session = .data) = false := by rw [record]; simp [notData]
    simp only [resumeContext, data, Bool.false_eq_true, if_false, played, noFax]
  have whole : returned [k] u = resumeContext k v := rfl
  rw [heldContexts_of_alone h.held h.alone, whole, resumed, refilled, asks]
  exact State.eq_of_blocks rfl rfl rfl rfl (bank_modify_modify u.ctx k (fun x => { x with held := false })
    fun x => { x with vcd := { x.vcd with buffer := { a := .requested b, b := .requested (b + 1) } } }) rfl rfl rfl rfl

/-- Settles O13: the third good word resumes the held contexts one by one; each goes on from what stands in its own record. -/
theorem alignmentResumesHeldCalls : Obligations.AlignmentResumesHeldCalls := by
  intro w s p n f q place third word notStarting notData moved resumed aligned reported asked
  have event : sendEvent none (alignReport p s) s = reported := by rw [alignReport_eq]
  have begun := exec_frameWordVerify_of_verify w place
  rw [verifyWindow_of_third word third] at begun
  have storeOnly := storeOnly_sendEvent none (.highway (if moved then 2 else 1)) s
  have state : reported.cfu.state = s.cfu.state := by
    rw [storeOnly.cfu]
  have station : reported.cfu.station = s.cfu.station := by
    rw [storeOnly.cfu]
  have entered (u : State) (quiet : u.Quiet) (effect : returned (contextIds.filter fun k => (s.at k).held)
      { reported with hwi := aligned, ctx := s.ctx } = u) (state : u.cfu.state = s.cfu.state) (noData : ∀ k, (u.at k).session ≠ .data) :
      exec (.frameWordVerify w) s = .next u := by
    rw [begun, enterAligned_of_no_data notStarting (by rw [event]; exact effect) state noData]
    exact next_settle quiet rfl
  refine ⟨fun rests => ?_, fun k r h b n held alone notFax fetched current waits buffer more fetch handle first room => ?_⟩
  · refine entered _ (storeOnly.quiet q) ?_ ?_ fun k => ?_
    · exact returned_of_rests { reported with hwi := aligned } rests notData
    · exact state
    · change Context.session (Bank.get (s.ctx.map _) k) ≠ _
      rw [Bank.get_map]
      split <;> exact notData k
  · let u : State := { reported with hwi := aligned, ctx := s.ctx }
    have asks (i : Nat) : blockAsk u k r i = ownCell s 4 (homeAddress r.home) kindFetchBlock (tagOf k) (be2 h ++ be2 i) := by
      rw [blockAsk, handle]
      exact ownCell_congr station ..
    have shorter : u.clc.tx.length ≤ 22 := (length_sendEvent_le none (.highway (if moved then 2 else 1)) s).trans (Nat.succ_le_succ room)
    have playback : HeldPlayback k r b s := ⟨held, alone, notFax, fetched, ⟨n, current⟩, waits, buffer, more, fetch, first⟩
    have same : reported.rau = s.rau := sendEvent_rau ..
    have effect := returned_of_heldPlayback (u := u) playback rfl same (notData k) shorter
    rw [asks, asks] at effect
    refine entered _ q (effect.trans ?_) state fun j => ?_
    · exact State.eq_of_blocks rfl rfl rfl rfl rfl rfl (congrArg (fun x : Rau => { x with
        fetches := x.fetches.set k (some { r with pending := [b, b + 1], timer := some 2000, keepalive := 5000 }) }) same) rfl rfl
    · by_cases same : j = k
      · rw [same]
        exact fun data => notData k ((congrArg Context.session (at_modCtx u k (askedRecord b))).symm.trans data)
      · exact fun data => notData j ((congrArg Context.session (at_modCtx_ne u k j (askedRecord b) same)).symm.trans data)

end Sys2Proof.Machine
end

section
/-! PROOFS. A frame of the highway in a station that records nothing and plays nothing: the samples sent, the read-back, the codes
and the detectors (R2, R9, R14, R71, R81, R85, R89, R139). -/
namespace Sys2Proof.Machine

/-! ### The samples sent (R71, R81, R89, R139) -/

/-- R89: a tone's next sample, from phases that stand while it lasts. -/
def ToneSends (x y : Context) (tone : List ToneLine) : Prop := y.tone.sent = x.tone.sent + 1
  ∧ (x.tone.sent ≠ 0 → y.tone.phase = x.tone.phase)
  ∧ y.txSample ∈ roundings (toneWave (Config.tonePhase y.tone.phase) tone x.tone.sent)

/-- The record of a context after it has supplied a sample for a frame. -/
structure Supplied (x y : Context) : Prop where
  only : y = { x with txSample := y.txSample, tone := y.tone }
  beep : x.state = .discriminating → x.voice.activity = .beeping → ToneSends x y beepTone
  dial : x.state = .dialling → x.dgn.phase = .tone → ToneSends x y (dialTone x.dgn)

/-- A change of one context's record and of the count of free values. -/
def recordAndFree (k : ContextId) (x : Context) (n : Nat) (s : State) : State := { s with ctx := s.ctx.set k x, free := n }

theorem takeToneSample_sends (k : ContextId) (tone : List ToneLine) (s : State) : ∃ x n,
    (takeToneSample k tone s).1.modCtx k (fun x => { x with txSample := (takeToneSample k tone s).2 }) = recordAndFree k x n s
      ∧ x = { s.at k with txSample := x.txSample, tone := x.tone } ∧ ToneSends (s.at k) x tone := by
  obtain ⟨phase, stands, effect, sample⟩ := takeToneSample_spec k tone s
  let toned : Context := { s.at k with tone := { phase, sent := (s.at k).tone.sent + 1 } }
  refine ⟨{ toned with txSample := (takeToneSample k tone s).2 }, s.free + 1, ?_, rfl, rfl, stands, sample⟩
  generalize (takeToneSample k tone s).2 = byte
  rw [effect]
  refine State.eq_of_blocks rfl rfl rfl rfl ?_ rfl rfl rfl rfl
  exact (bank_modify_modify s.ctx k (fun x => { x with tone := { phase, sent := (s.at k).tone.sent + 1 } })
    fun x => { x with txSample := byte }).trans rfl

theorem supplySample_supplies {s : State} {k : ContextId} (session : Bool) (quiet : (s.at k).voice.activity ≠ .playing) : ∃ x n,
    (supplySample k session s).1.modCtx k (fun x => { x with txSample := (supplySample k session s).2 }) = recordAndFree k x n s
      ∧ Supplied (s.at k) x := by
  have silent (n : Nat) (byte : Byte) (noBeep : ¬((s.at k).state = .discriminating ∧ (s.at k).voice.activity = .beeping))
      (noTone : ¬((s.at k).state = .dialling ∧ (s.at k).dgn.phase = .tone)) (r : State × Byte) (eq : r = ({ s with free := n }, byte)) :
      ∃ x n, r.1.modCtx k (fun x => { x with txSample := r.2 }) = recordAndFree k x n s ∧ Supplied (s.at k) x := by
    subst eq
    exact ⟨{ s.at k with txSample := byte }, n, rfl, rfl, fun state beep => absurd ⟨state, beep⟩ noBeep,
      fun state tone => absurd ⟨state, tone⟩ noTone⟩
  have pumped (sends : Bool) (noBeep : (s.at k).state ≠ .discriminating) (noTone : (s.at k).state ≠ .dialling) (r : State × Byte)
      (eq : r = takePumpSample sends s) :
      ∃ x n, r.1.modCtx k (fun x => { x with txSample := r.2 }) = recordAndFree k x n s ∧ Supplied (s.at k) x := by
    cases sends with
    | true => exact silent (s.free + 1) (Config.pumpSample s.free) (fun h => noBeep h.1) (fun h => noTone h.1) r eq
    | false => exact silent s.free 0x80 (fun h => noBeep h.1) (fun h => noTone h.1) r eq
  cases state : (s.at k).state with
  | dialling =>
    by_cases tone : (s.at k).dgn.phase = .tone
    · obtain ⟨x, n, effect, only, sends⟩ := takeToneSample_sends k (dialTone (s.at k).dgn) s
      simp only [supplySample, state, tone, if_true]
      exact ⟨x, n, effect, only, fun other => absurd (state.symm.trans other) nofun, fun _ _ => sends⟩
    · refine silent s.free 0x80 (by rw [state]; nofun) (fun h => tone h.2) _ ?_
      simp only [supplySample, state, tone, if_false]
  | discriminating =>
    by_cases beep : (s.at k).voice.activity = .beeping
    · obtain ⟨x, n, effect, only, sends⟩ := takeToneSample_sends k beepTone s
      simp only [supplySample, state, beep]
      exact ⟨x, n, effect, only, fun _ _ => sends, fun other => absurd (state.symm.trans other) nofun⟩
    · refine silent s.free 0x80 (fun h => beep h.2) (by rw [state]; nofun) _ ?_
      simp only [supplySample, state]
  | connected =>
    cases kind : (s.at k).session with
    | voice =>
      refine silent s.free 0x80 (by rw [state]; nofun) (by rw [state]; nofun) _ ?_
      simp [supplySample, state, kind, quiet]
    | fax => exact pumped (faxPumpSends (s.at k)) (by rw [state]; nofun) (by rw [state]; nofun) _ (by simp only [supplySample, state, kind])
    | data => exact pumped ((s.at k).pump.state != .off) (by rw [state]; nofun) (by rw [state]; nofun) _ (by simp only [supplySample, state, kind])
    | none => exact silent s.free 0x80 (by rw [state]; nofun) (by rw [state]; nofun) _ (by simp only [supplySample, state, kind])
  | _ => exact silent s.free 0x80 (by rw [state]; nofun) (by rw [state]; nofun) _ (by simp only [supplySample, state])

/-- The record of a context after the samples of a frame have been sent: only one that holds its channel and is not held sends. -/
structure Transmits (active : Bool) (x y : Context) : Prop where
  only : y = { x with txSample := y.txSample, tone := y.tone }
  sends : active = true → Supplied x y

theorem transmitFrame_transmits {s : State} {k : ContextId} (session : Bool) (quiet : (s.at k).voice.activity ≠ .playing) :
    ∃ x n, transmitFrame session k s = recordAndFree k x n s ∧ Transmits (holdsAny s k && !(s.at k).held) (s.at k) x := by
  cases active : holdsAny s k && !(s.at k).held with
  | true =>
    obtain ⟨x, n, effect, supplied⟩ := supplySample_supplies session quiet
    simp only [transmitFrame, active, if_true]
    exact ⟨x, n, effect, supplied.only, fun _ => supplied⟩
  | false =>
    simp only [transmitFrame, active, Bool.false_eq_true, if_false]
    exact ⟨s.at k, s.free, State.eq_of_blocks rfl rfl rfl rfl (Bank.set_get _ k).symm rfl rfl rfl rfl, rfl, nofun⟩

/-- Steps of which each changes one context's record and the count of free values. -/
theorem forEach_records {xs : List ContextId} {step : ContextId → State → State} {R : ContextId → Context → Prop} (u : State)
    (before : Bank 4 Context) (distinct : xs.Nodup)
    (each : ∀ k ∈ xs, ∀ b n, b.get k = before.get k → ∃ x m, step k { u with ctx := b, free := n } =
      recordAndFree k x m { u with ctx := b, free := n } ∧ R k x) (n : Nat) :
    ∃ b m, forEach xs step { u with ctx := before, free := n } = { u with ctx := b, free := m } ∧ (∀ k ∈ xs, R k (b.get k)) := by
  have general : ∀ b n, (∀ k ∈ xs, b.get k = before.get k) → ∃ b' m, forEach xs step { u with ctx := b, free := n }
      = { u with ctx := b', free := m } ∧ (∀ k ∈ xs, R k (b'.get k)) ∧ ∀ k, k ∉ xs → b'.get k = b.get k := by
    induction xs with
    | nil => exact fun b n _ => ⟨b, n, rfl, nofun, fun _ _ => rfl⟩
    | cons k xs ih =>
      intro b n fresh
      obtain ⟨new, distinct⟩ := List.nodup_cons.mp distinct
      obtain ⟨x, m, first, holds⟩ := each k List.mem_cons_self b n (fresh k List.mem_cons_self)
      have later : ∀ j ∈ xs, (b.set k x).get j = before.get j := fun j mem =>
        (Bank.get_set_ne _ _ _ _ (ne_of_mem_of_not_mem mem new)).trans (fresh j (List.mem_cons_of_mem _ mem))
      obtain ⟨b', m', rest, every, others⟩ := ih distinct (fun j mem => each j (List.mem_cons_of_mem _ mem)) (b.set k x) m later
      refine ⟨b', m', (congrArg (forEach xs step) first).trans rest, fun j mem => ?_, fun j out => ?_⟩
      · rcases List.mem_cons.mp mem with rfl | mem
        · rw [others j new, Bank.get_set]
          exact holds
        · exact every j mem
      · obtain ⟨other, out⟩ := not_or.mp (mt List.mem_cons.mpr out)
        exact (others j out).trans (Bank.get_set_ne _ _ _ _ other)
  obtain ⟨b, m, effect, every, _⟩ := general before n fun _ _ => rfl
  exact ⟨b, m, effect, every⟩

theorem forEach_transmitFrame {s : State} (session : Bool) (quiet : ∀ k, (s.at k).voice.activity ≠ .playing) :
    ∃ b m, forEach contextIds (transmitFrame session) s = { s with ctx := b, free := m }
      ∧ ∀ k, Transmits (holdsAny s k && !(s.at k).held) (s.at k) (b.get k) := by
  have each (k : ContextId) (b : Bank 4 Context) (n : Nat) (same : b.get k = s.ctx.get k) : ∃ x m,
      transmitFrame session k { s with ctx := b, free := n } = recordAndFree k x m { s with ctx := b, free := n }
        ∧ Transmits (holdsAny s k && !(s.at k).held) (s.at k) x := by
    have record : ({ s with ctx := b, free := n } : State).at k = s.at k := same
    have holding : holdsAny { s with ctx := b, free := n } k = holdsAny s k := by
      rw [holdsAny, holdsAny, record]
      rfl
    obtain ⟨x, m, effect, transmits⟩ := transmitFrame_transmits (s := { s with ctx := b, free := n }) session
      (by rw [record]; exact quiet k)
    rw [holding, record] at transmits
    exact ⟨x, m, effect, transmits⟩
  obtain ⟨b, m, effect, every⟩ := forEach_records (R := fun k => Transmits (holdsAny s k && !(s.at k).held) (s.at k)) s s.ctx
    contextIds_nodup (fun k _ => each k) s.free
  exact ⟨b, m, effect, fun k => every k (mem_contextIds k)⟩

/-! ### The read-back and the codes (R2, R9, R14) -/

/-- R14: whether the sample or the code of a channel comes back otherwise than its holder sent it. -/
def misread (f : Fin 8) (back : List Byte) (backSig : Byte) (s : State) (c : Channel) : Bool :=
  match holderOf s c with
  | none => false
  | some k => back.getD c.val 0 != (s.at k).txSample || (c.val / 4 == f.val && codeField backSig c != (s.at k).txCode)

/-- R14: the count of a channel after its read-back. -/
def countMisread (misread : Bool) (h : HwiChannel) : HwiChannel :=
  { h with mismatches := h.mismatches + if h.driving && misread then 1 else 0 }

theorem readBack_eq (f : Fin 8) (back : List Byte) (backSig : Byte) (c : Channel) (s : State) :
    readBack f back backSig c s = s.modChannel c (countMisread (misread f back backSig s c)) := by
  have counted (d : Bool) : (fun h : HwiChannel => if h.driving && d then { h with mismatches := h.mismatches + 1 } else h)
      = countMisread d := by
    funext h
    rw [countMisread]
    split <;> rfl
  cases holder : holderOf s c with
  | none =>
    have stands : countMisread false = id := by
      funext h
      rw [countMisread, Bool.and_false]
      rfl
    simp only [readBack, misread, holder, stands]
    exact (congrArg (fun b => { s with hwi := { s.hwi with channels := b } }) (Bank.set_get s.hwi.channels c)).symm
  | some k =>
    simp only [readBack, misread, holder]
    exact congrArg (fun g => s.modChannel c g) (counted _)

/-- A highway whose channels have been read back. -/
def channelsRead (b : Bank 32 HwiChannel) (s : State) : State := { s with hwi := { s.hwi with channels := b } }

theorem forEach_readBack (f : Fin 8) (back : List Byte) (backSig : Byte) (s : State) :
    forEach channelIds (readBack f back backSig) s
      = channelsRead (changeEach channelIds (fun c => countMisread (misread f back backSig s c)) s.hwi.channels) s :=
  forEach_changes (fun b => channelsRead b s) s.hwi.channels channelIds_nodup fun c _ b _ => readBack_eq f back backSig c (channelsRead b s)

/-- A highway whose codes have been read. -/
def codesRead (rx tx : Bank 32 LineCode) (s : State) : State := s.modHwi fun h => { h with rxCodes := rx, txCodes := tx }

/-- The channels whose field a frame carries (R2). -/
def fieldsOf (f : Fin 8) : List Channel := channelIds.filter fun c => c.val / 4 == f.val

theorem mem_fieldsOf (f : Fin 8) (c : Channel) : c ∈ fieldsOf f ↔ c.val / 4 = f.val := by
  rw [fieldsOf, List.mem_filter, beq_iff_eq]
  exact and_iff_right (mem_channelIds c)

theorem readCodes_eq (f : Fin 8) (rxSig backSig : Byte) (s : State) : readCodes f rxSig backSig s
    = codesRead (changeEach (fieldsOf f) (fun c _ => codeField rxSig c) s.hwi.rxCodes)
        (changeEach (fieldsOf f) (fun c _ => codeField backSig c) s.hwi.txCodes) s := by
  have sweep : ∀ (xs : List Channel) (rx tx : Bank 32 LineCode), forEach xs (fun c t => t.modHwi fun h => { h with
      rxCodes := h.rxCodes.set c (codeField rxSig c), txCodes := h.txCodes.set c (codeField backSig c) }) (codesRead rx tx s)
      = codesRead (changeEach xs (fun c _ => codeField rxSig c) rx) (changeEach xs (fun c _ => codeField backSig c) tx) s := by
    intro xs
    induction xs with
    | nil => exact fun _ _ => rfl
    | cons c xs ih => exact fun rx tx => ih (rx.set c (codeField rxSig c)) (tx.set c (codeField backSig c))
  exact sweep (fieldsOf f) s.hwi.rxCodes s.hwi.txCodes

/-- R2: the field of a channel in a signalling slot, counted from its upper end. -/
theorem codeField_eq (slot : Byte) (c : Channel) :
    codeField slot c = LineCode.ofBits (BitVec.ofNat 2 (slot.toNat / 4 ^ (3 - c.val % 4))) := by
  have place : 2 ^ (6 - 2 * (c.val % 4)) = 4 ^ (3 - c.val % 4) := by
    rw [show (4 : Nat) = 2 ^ 2 from rfl, ← pow_mul]
    congr 1
    omega
  refine congrArg LineCode.ofBits (BitVec.eq_of_toNat_eq ?_)
  rw [BitVec.extractLsb'_toNat, Nat.shiftRight_eq_div_pow, place, BitVec.toNat_ofNat]

theorem readFields_eq (f : Fin 8) (rxSig : Byte) (back : List Byte) (backSig : Byte) (s : State) :
    readCodes f rxSig backSig (forEach channelIds (readBack f back backSig) s)
      = codesRead (changeEach (fieldsOf f) (fun c _ => codeField rxSig c) s.hwi.rxCodes)
          (changeEach (fieldsOf f) (fun c _ => codeField backSig c) s.hwi.txCodes)
          (channelsRead (changeEach channelIds (fun c => countMisread (misread f back backSig s c)) s.hwi.channels) s) := by
  rw [forEach_readBack, readCodes_eq, channelsRead]

/-! ### What a frame leaves at the contexts (R9) -/

theorem settleDecoder_of_quiet {s : State} {k : ContextId} (session : Bool) (quiet : (s.at k).voice.activity ≠ .playing) :
    settleDecoder session k s = s := by
  simp [settleDecoder, quiet]

theorem encodeFrame_of_quiet {s : State} {k : ContextId} (sample : Byte) (quiet : (s.at k).vcd.recording = false) :
    encodeFrame k sample s = s := by
  rw [encodeFrame, quiet, if_neg Bool.false_ne_true]

/-- The sample of a context's channel. -/
def sampleOf (rx : List Byte) (x : Context) : Byte := (x.channel.map fun c => rx.getD c.val 0).getD 0

/-- R9, R85: an active detector takes the sample. -/
def gathers (rx : List Byte) (active : Bool) (x : Context) : Context :=
  if active then { x with detector := { x.detector with gathered := x.detector.gathered ++ [sampleOf rx x] } } else x

theorem receiveFrame_of_quiet {s : State} {k : ContextId} (session : Bool) (rx : List Byte) (quiet : (s.at k).vcd.recording = false) :
    receiveFrame session rx k s = s.modCtx k (gathers rx (detectorActive s k)) := by
  have encoded (byte : Byte) (t : State) (same : (t.at k).vcd = (s.at k).vcd) :
      (if session then encodeFrame k byte t else t) = t := by
    rw [encodeFrame_of_quiet byte (by rw [same]; exact quiet), ite_self]
  have stands (idle : detectorActive s k = false) : s.modCtx k (gathers rx (detectorActive s k)) = s := by
    rw [idle]
    exact modCtx_self rfl
  cases channel : (s.at k).channel with
  | none =>
    rw [stands (by simp [detectorActive, holdsAny, channel])]
    simp only [receiveFrame, channel]
  | some c =>
    cases active : detectorActive s k with
    | true =>
      have going : (holds s k c && !(s.at k).held) = true := by
        have all := active
        simp only [detectorActive, holdsAny, channel, Bool.and_eq_true] at all
        obtain ⟨⟨⟨hold, _⟩, notHeld⟩, _⟩ := all
        rw [hold, notHeld]
        rfl
      simp only [receiveFrame, channel, going, active, if_true]
      refine (encoded _ _ ?_).trans (modCtx_congr ?_)
      · rw [State.modDetector, at_modCtx]
      · rw [gathers, if_pos rfl, sampleOf, channel]
        rfl
    | false =>
      rw [← active, stands active]
      simp only [receiveFrame, channel, active, Bool.false_eq_true, if_false]
      split
      · exact encoded _ _ rfl
      · rfl

/-- What the frame has left before its samples are received: the codes and the counts of the highway, and what was sent. -/
structure FrameRead (f : Fin 8) (rxSig : Byte) (back : List Byte) (backSig : Byte) (s u : State) : Prop where
  rest : u = { s with hwi := { s.hwi with rxCodes := u.hwi.rxCodes, txCodes := u.hwi.txCodes, channels := u.hwi.channels }
                      ctx := u.ctx, free := u.free }
  record : ∀ k, Transmits (holdsAny s k && !(s.at k).held) (s.at k) (u.at k)
  rxCodes : ∀ c, u.hwi.rxCodes.get c = if c.val / 4 = f.val then codeField rxSig c else s.hwi.rxCodes.get c
  txCodes : ∀ c, u.hwi.txCodes.get c = if c.val / 4 = f.val then codeField backSig c else s.hwi.txCodes.get c
  channels : ∀ c, u.hwi.channels.get c = countMisread (misread f back backSig u c) (s.hwi.channels.get c)

theorem Transmits.vcd {a : Bool} {x y : Context} (h : Transmits a x y) : y.vcd = x.vcd := by rw [h.only]
theorem Transmits.voice {a : Bool} {x y : Context} (h : Transmits a x y) : y.voice = x.voice := by rw [h.only]

theorem Transmits.active {a : Bool} {s u : State} {k : ContextId} (h : Transmits a (s.at k) (u.at k)) (tcm : u.tcm = s.tcm) :
    detectorActive u k = detectorActive s k := by
  have channel : (u.at k).channel = (s.at k).channel := by rw [h.only]
  have call : inCall (u.at k) = inCall (s.at k) := by rw [inCall, h.only, inCall]
  have held : (u.at k).held = (s.at k).held := by rw [h.only]
  have detector : (u.at k).detector = (s.at k).detector := by rw [h.only]
  have holding : holdsAny u k = holdsAny s k := by
    simp only [holdsAny, channel, holds, State.entry, tcm]
  simp only [detectorActive, holding, call, held, detector]

/-- The first half of a frame: the samples sent, the read-back and the codes. -/
theorem frameRead_of_quiet {s : State} (f : Fin 8) (rxSig : Byte) (back : List Byte) (backSig : Byte)
    (quiet : ∀ k, (s.at k).voice.activity ≠ .playing) : FrameRead f rxSig back backSig s
      (readCodes f rxSig backSig (forEach channelIds (readBack f back backSig) (forEach contextIds (transmitFrame (givesSessionTime s)) s))) := by
  obtain ⟨b, n, sent, record⟩ := forEach_transmitFrame (s := s) (givesSessionTime s) quiet
  have distinct : (fieldsOf f).Nodup := channelIds_nodup.filter _
  have codes (sig : Byte) (before : Bank 32 LineCode) (c : Channel) :
      (changeEach (fieldsOf f) (fun c _ => codeField sig c) before).get c = if c.val / 4 = f.val then codeField sig c else before.get c :=
    (get_changeEach _ _ _ distinct).trans (if_congr (mem_fieldsOf f c) rfl rfl)
  let w : State := { s with ctx := b, free := n }
  have rx := codes rxSig s.hwi.rxCodes
  have tx := codes backSig s.hwi.txCodes
  have counted (c : Channel) : (changeEach channelIds (fun c => countMisread (misread f back backSig w c)) s.hwi.channels).get c
      = countMisread (misread f back backSig w c) (s.hwi.channels.get c) :=
    (get_changeEach _ _ _ channelIds_nodup).trans (if_pos (mem_channelIds c))
  rw [sent, readFields_eq]
  change FrameRead f rxSig back backSig s (codesRead (changeEach (fieldsOf f) (fun c _ => codeField rxSig c) s.hwi.rxCodes)
    (changeEach (fieldsOf f) (fun c _ => codeField backSig c) s.hwi.txCodes)
    (channelsRead (changeEach channelIds (fun c => countMisread (misread f back backSig w c)) s.hwi.channels) w))
  generalize changeEach (fieldsOf f) (fun c _ => codeField rxSig c) s.hwi.rxCodes = rxCodes at rx
  generalize changeEach (fieldsOf f) (fun c _ => codeField backSig c) s.hwi.txCodes = txCodes at tx
  generalize changeEach channelIds (fun c => countMisread (misread f back backSig w c)) s.hwi.channels = channels at counted
  exact ⟨rfl, record, rx, tx, counted⟩

theorem afterFrame_of_aligned {s : State} {p : Nat} (f : Fin 8) (place : s.hwi.align = .aligned p) :
    afterFrame f s = s.modHwi fun h => { h with bitCounter := (p + 272 * (f.val + 1)) % 2176 } := by
  simp only [afterFrame, place]

/-- The second half of a frame: the samples received. -/
theorem forEach_receiveFrame {s u : State} (session : Bool) (rx : List Byte) (tcm : u.tcm = s.tcm)
    (record : ∀ k, ∃ a, Transmits a (s.at k) (u.at k)) (quiet : ∀ k, (s.at k).vcd.recording = false) :
    forEach contextIds (receiveFrame session rx) u
      = { u with ctx := changeEach contextIds (fun k => gathers rx (detectorActive s k)) u.ctx } := by
  refine forEach_changes (fun b => { u with ctx := b }) u.ctx contextIds_nodup fun k _ b same => ?_
  obtain ⟨a, transmits⟩ := record k
  have recordB : ({ u with ctx := b } : State).at k = u.at k := same
  rw [← recordB] at transmits
  have heard := receiveFrame_of_quiet session rx (by rw [transmits.vcd]; exact quiet k)
  rw [transmits.active tcm] at heard
  exact heard

theorem highwayFrame_of_quiet {s : State} {p : Nat} (f : Fin 8) (rx : List Byte) (rxSig : Byte) (back : List Byte) (backSig : Byte)
    (place : s.hwi.align = .aligned p) (quiet : ∀ k, (s.at k).vcd.recording = false ∧ (s.at k).voice.activity ≠ .playing) :
    ∃ u, FrameRead f rxSig back backSig s u ∧ highwayFrame f rx rxSig back backSig s = { u with
      hwi := { u.hwi with bitCounter := (p + 272 * (f.val + 1)) % 2176 }
      ctx := changeEach contextIds (fun k => gathers rx (detectorActive s k)) u.ctx } := by
  have read := frameRead_of_quiet f rxSig back backSig fun k => (quiet k).2
  have whole : highwayFrame f rx rxSig back backSig s = afterFrame f (forEach contextIds (receiveFrame (givesSessionTime s) rx)
      (forEach contextIds (settleDecoder (givesSessionTime s)) (readCodes f rxSig backSig (forEach channelIds (readBack f back backSig)
        (forEach contextIds (transmitFrame (givesSessionTime s)) s))))) := rfl
  rw [whole]
  generalize readCodes f rxSig backSig _ = u at read
  refine ⟨u, read, ?_⟩
  have settled : forEach contextIds (settleDecoder (givesSessionTime s)) u = u := by
    refine forEach_of_standing fun k _ => settleDecoder_of_quiet _ ?_
    rw [(read.record k).voice]
    exact (quiet k).2
  have tcm : u.tcm = s.tcm := by rw [read.rest]
  have align : u.hwi.align = .aligned p := by rw [read.rest]; exact place
  rw [settled, forEach_receiveFrame _ rx tcm (fun k => ⟨_, read.record k⟩) fun k => (quiet k).1]
  exact afterFrame_of_aligned (s := { u with ctx := _ }) f align

theorem exec_highwayFrame_of_aligned {s : State} {p : Nat} (f : Fin 8) (rx : List Byte) (rxSig : Byte) (back : List Byte) (backSig : Byte)
    (place : s.hwi.align = .aligned p) :
    exec (.highwayFrame f rx rxSig back backSig) s = .next (settle (highwayFrame f rx rxSig back backSig s)) := by
  have aligned : isAligned s = true := by simp only [isAligned, place]
  have acts : exec (.highwayFrame f rx rxSig back backSig) s = act (isAligned s) (highwayFrame f rx rxSig back backSig s) s := rfl
  rw [acts, aligned, act_of_true]

/-- R81: the tone of a dialled key, by its row and its column. -/
theorem dialTone_of_key (i j : Fin 4) (d : Dgn) (key : d.dial[d.pos]? = (([[0x31, 0x32, 0x33, 0x41], [0x34, 0x35, 0x36, 0x42],
    [0x37, 0x38, 0x39, 0x43], [0x2A, 0x30, 0x23, 0x44]] : List (List Byte)).getD i.val []).getD j.val 0) :
    dialTone d = [{ freq := [6970, 7700, 8520, 9410].getD i.val 0, level := -80 },
      { freq := [12090, 13360, 14770, 16330].getD j.val 0, level := -60 }] := by
  rw [dialTone, key]
  clear key
  revert i j
  decide

/-- The record of a context after a frame: only its detector, its sample and its tone may have moved. -/
theorem gathers_only (rx : List Byte) (active : Bool) (x : Context) :
    gathers rx active x = { x with detector := (gathers rx active x).detector } := by
  unfold gathers
  split <;> rfl

theorem countMisread_of_iff {misread : Bool} {p : Prop} [Decidable p] (h : HwiChannel)
    (same : (h.driving = true ∧ misread = true) ↔ p) :
    countMisread misread h = { h with mismatches := h.mismatches + if p then 1 else 0 } := by
  have meets : (h.driving && misread) = true ↔ p := Bool.and_eq_true_iff.trans same
  rw [countMisread, if_congr meets rfl rfl]

/-- Settles O15: the sweeps of a frame one after another, each over records that the others leave. -/
theorem frameReadsCodesAndSamples : Obligations.FrameReadsCodesAndSamples := by
  intro f rx rxSig back backSig s p q place quiet field
  obtain ⟨u, read, effect⟩ := highwayFrame_of_quiet f rx rxSig back backSig place quiet
  have fields (slot : Byte) (c : Channel) : codeField slot c = field slot c := codeField_eq slot c
  have tcm : u.tcm = s.tcm := by rw [read.rest]
  have rau : u.rau = s.rau := by rw [read.rest]
  let heard := changeEach contextIds (fun k => gathers rx (detectorActive s k)) u.ctx
  have record (k : ContextId) : heard.get k = gathers rx (detectorActive s k) (u.at k) :=
    (get_changeEach _ _ _ contextIds_nodup).trans (if_pos (mem_contextIds k))
  change highwayFrame f rx rxSig back backSig s
    = { u with hwi := { u.hwi with bitCounter := (p + 272 * (f.val + 1)) % 2176 }, ctx := heard } at effect
  have acts := exec_highwayFrame_of_aligned f rx rxSig back backSig place
  have quietAfter : (highwayFrame f rx rxSig back backSig s).Quiet := by
    rw [effect]
    exact (congrArg Rau.notices rau).trans q
  rw [settle_quiet quietAfter, effect] at acts
  generalize heard = after at record acts
  have only (k : ContextId) := (read.record k).only
  have stood (k : ContextId) : (after.get k).txSample = (u.at k).txSample ∧ (after.get k).tone = (u.at k).tone := by
    rw [record k, gathers_only]
    exact ⟨rfl, rfl⟩
  refine ⟨_, acts, fun c => ?rxCodes, fun c => ?txCodes, ?align, rfl, fun k c active channel => ?gathered, fun k idle => ?standing,
    fun k => ?rest, fun k c channel view going => ?sent, fun c => ?count, ?others⟩
  case rxCodes => exact (read.rxCodes c).trans (by rw [fields])
  case txCodes => exact (read.txCodes c).trans (by rw [fields])
  case align =>
    change u.hwi.align = _
    rw [read.rest]
  case gathered =>
    change (after.get k).detector.gathered = _
    rw [record k, active, only k, gathers, if_pos rfl, sampleOf, channel]
    rfl
  case standing =>
    change (after.get k).detector = _
    rw [record k, idle, only k]
    rfl
  case rest =>
    change after.get k = { s.at k with detector := (after.get k).detector, txSample := (after.get k).txSample, tone := (after.get k).tone }
    rw [record k, gathers_only, only k]
  case sent =>
    intro x sends
    have holding : (holdsAny s k && !(s.at k).held) = true := by simp [holdsAny, channel, holds, view, going]
    obtain ⟨_, beeps, dials⟩ := (read.record k).sends holding
    have whole (tone : List ToneLine) (h : ToneSends x (u.at k) tone) : sends tone := by
      obtain ⟨sample, tones⟩ := stood k
      change (after.get k).tone.sent = _ ∧ (_ → (after.get k).tone.phase = _)
        ∧ (after.get k).txSample ∈ roundings (toneWave (Config.tonePhase (after.get k).tone.phase) tone x.tone.sent)
      rw [sample, tones]
      exact h
    refine ⟨fun state beep => whole _ (beeps state beep), fun i j state tone key => whole _ ?_⟩
    have same := dials state tone
    rw [dialTone_of_key i j _ key] at same
    exact same
  case count =>
    change u.hwi.channels.get c = { s.hwi.channels.get c with mismatches := (s.hwi.channels.get c).mismatches
      + (if ∃ k, (s.entry c).view = .self k ∧ (s.hwi.channels.get c).driving = true ∧ (back.getD c.val 0 ≠ (after.get k).txSample
          ∨ (c.val / 4 = f.val ∧ field backSig c ≠ (s.at k).txCode)) then 1 else 0) }
    rw [read.channels c]
    refine countMisread_of_iff _ ?_
    have holder : holderOf u c = holderOf s c := by rw [holderOf, State.entry, tcm, holderOf, State.entry]
    have code (k : ContextId) : (u.at k).txCode = (s.at k).txCode := by rw [only k]
    cases view : (s.entry c).view with
    | self k =>
      have holds' : holderOf s c = some k := by simp only [holderOf, view]
      have sample : (after.get k).txSample = (u.at k).txSample := (stood k).1
      simp only [misread, holder, holds', code, fields, Bool.or_eq_true, bne_iff_ne, Bool.and_eq_true, beq_iff_eq]
      refine ⟨fun ⟨driving, differs⟩ => ⟨k, rfl, driving, ?_⟩, fun ⟨j, same, driving, differs⟩ => ⟨driving, ?_⟩⟩
      · rw [sample]
        exact differs
      · obtain rfl : k = j := View.self.inj same
        rw [← sample]
        exact differs
    | _ =>
      have nobody : holderOf s c = none := by simp only [holderOf, view]
      simp only [misread, holder, nobody]
      exact ⟨fun ⟨_, wrong⟩ => absurd wrong Bool.false_ne_true, fun ⟨_, same, _⟩ => nomatch same⟩
  case others =>
    conv_lhs => rw [read.rest]

end Sys2Proof.Machine
end

section
/-! PROOFS. The arithmetic of the Voice Codec and the blocks of its encoder (R89 to R96). -/
namespace Sys2Proof.Machine

/-! ### Code bytes and codes (R89 to R92) -/

theorem compress_expand : ∀ b : Byte, compress (expand b) = (if b = 0x80 then 0 else b) ∧ (expand b).natAbs ≤ 8031 := by
  decide +kernel

theorem clampPredictor_eq (p : Int) : clampPredictor p = max (-8191) (min 8191 p) := by
  unfold clampPredictor
  split_ifs <;> omega

theorem clampIndex_eq (i : Int) : clampIndex i = (max 0 (min 47 i)).toNat := by
  unfold clampIndex
  split_ifs <;> omega

/-- R92: the bits of a code, by its value. -/
theorem code_bits : ∀ code : BitVec 4, code.getLsbD 3 = decide (8 ≤ code.toNat) ∧ code.getLsbD 2 = decide (code.toNat / 4 % 2 = 1)
    ∧ code.getLsbD 1 = decide (code.toNat / 2 % 2 = 1) ∧ code.getLsbD 0 = decide (code.toNat % 2 = 1)
    ∧ (code.extractLsb' 0 3).toNat = code.toNat % 8 := by
  decide

theorem adjust_eq : ∀ k : Fin 8, adjust k.val = ([-1, -1, 0, 1, 2, 3, 5, 7] : List Int).getD k.val 0 := by decide

theorem applyCode_eq (p : Int) (i : Nat) (code : BitVec 4) :
    let q := (16 + 2 * (i % 8)) * 2 ^ (i / 8)
    let c := code.toNat
    let delta : Int := q / 8 + (if c / 4 % 2 = 1 then q else 0) + (if c / 2 % 2 = 1 then q / 2 else 0)
      + (if c % 2 = 1 then q / 4 else 0)
    let shift : Int := [-1, -1, 0, 1, 2, 3, 5, 7].getD (c % 8) 0
    applyCode p i code = (max (-8191) (min 8191 (if 8 ≤ c then p - delta else p + delta)),
      (max 0 (min 47 ((i : Int) + shift))).toNat) := by
  intro q c delta shift
  obtain ⟨top, two, one, zero, low⟩ := code_bits code
  have step : stepSize i = q := rfl
  have shifted : adjust (code.toNat % 8) = shift := adjust_eq ⟨code.toNat % 8, Nat.mod_lt _ (by decide)⟩
  have moved : ((stepSize i / 8 + (if code.getLsbD 2 then stepSize i else 0) + (if code.getLsbD 1 then stepSize i / 2 else 0)
      + (if code.getLsbD 0 then stepSize i / 4 else 0) : Nat) : Int) = delta := by
    simp only [two, one, zero, decide_eq_true_eq, step, delta, c]
    push_cast
    rfl
  simp only [applyCode, moved, low, shifted, top, decide_eq_true_eq, clampPredictor_eq, clampIndex_eq]
  rfl

/-- R92: the bits of a code, put together. -/
theorem code_of_bits (a b c d : Prop) [Decidable a] [Decidable b] [Decidable c] [Decidable d] :
    ((if a then 8 else 0) ||| (if b then 4 else 0) ||| (if c then 2 else 0) ||| (if d then 1 else 0) : BitVec 4)
      = BitVec.ofNat 4 ((if a then 8 else 0) + 4 * (if b then 1 else 0) + 2 * (if c then 1 else 0) + (if d then 1 else 0)) := by
  by_cases a <;> by_cases b <;> by_cases c <;> by_cases d <;> simp [*]

theorem codeFor_eq (p : Int) (i : Nat) (x : Int) :
    let q := (16 + 2 * (i % 8)) * 2 ^ (i / 8)
    let d := x - p
    let b2 := if q ≤ d.natAbs then 1 else 0
    let m := d.natAbs - b2 * q
    let b1 := if q / 2 ≤ m then 1 else 0
    let b0 := if q / 4 ≤ m - b1 * (q / 2) then 1 else 0
    codeFor p i x = BitVec.ofNat 4 ((if d < 0 then 8 else 0) + 4 * b2 + 2 * b1 + b0) := by
  intro q d b2 m b1 b0
  have less (a r : Nat) (b : Prop) [Decidable b] : (if b then a - r else a) = a - (if b then 1 else 0) * r := by
    split <;> simp
  have step : stepSize i = q := rfl
  simp only [codeFor, step, less]
  exact code_of_bits ..

/-! ### The encoder (R94, R95) -/

/-- R94: a block in build starts from the state of the coder. -/
def Vcd.begun (v : Vcd) : Vcd := if v.built = 0 then
    { v with startPredictor := v.encPredictor, startIndex := v.encIndex, largest := v.encIndex }
  else v

/-- R92, R94: the codec after the code of one sample, a finished block apart. -/
def Vcd.coded (v : Vcd) (sample : Byte) : Vcd :=
  let v := v.begun
  let code := codeFor v.encPredictor v.encIndex (expand sample)
  let next := applyCode v.encPredictor v.encIndex code
  let v := { v with encPredictor := next.1, encIndex := next.2, largest := max v.largest next.2 }
  match v.pendingNibble with
  | none => { v with pendingNibble := some code }
  | some high => { v with build := v.build ++ [high ++ code], pendingNibble := none }

theorem encode_eq (v : Vcd) (threshold : Nat) (sample : Byte) : v.encode threshold sample =
    if 1016 ≤ (v.coded sample).built then (((v.coded sample).finish threshold).1, some ((v.coded sample).finish threshold).2)
    else (v.coded sample, none) := rfl

theorem begun_of_empty {v : Vcd} (empty : v.built = 0) :
    v.begun = { v with startPredictor := v.encPredictor, startIndex := v.encIndex, largest := v.encIndex } := if_pos empty
theorem begun_of_some {v : Vcd} (some_samples : v.built ≠ 0) : v.begun = v := if_neg some_samples

theorem begun_same (v : Vcd) : v.begun.encPredictor = v.encPredictor ∧ v.begun.encIndex = v.encIndex ∧ v.begun.build = v.build
    ∧ v.begun.pendingNibble = v.pendingNibble := by
  unfold Vcd.begun
  split <;> exact ⟨rfl, rfl, rfl, rfl⟩

theorem coded_of_none {v : Vcd} (sample : Byte) (first : v.pendingNibble = none) :
    let code := codeFor v.encPredictor v.encIndex (expand sample)
    let next := applyCode v.encPredictor v.encIndex code
    v.coded sample = { v.begun with
      encPredictor := next.1, encIndex := next.2, largest := max v.begun.largest next.2, pendingNibble := some code } := by
  obtain ⟨predictor, index, _, nibble⟩ := begun_same v
  simp only [Vcd.coded, predictor, index, nibble, first]

theorem coded_of_some {v : Vcd} {high : BitVec 4} (sample : Byte) (second : v.pendingNibble = some high) :
    let code := codeFor v.encPredictor v.encIndex (expand sample)
    let next := applyCode v.encPredictor v.encIndex code
    v.coded sample = { v.begun with
      encPredictor := next.1, encIndex := next.2, largest := max v.begun.largest next.2
      build := v.build ++ [high ++ code], pendingNibble := none } := by
  obtain ⟨predictor, index, build, nibble⟩ := begun_same v
  simp only [Vcd.coded, predictor, index, build, nibble, second]

theorem built_coded (v : Vcd) (sample : Byte) : (v.coded sample).built = v.built + 1 := by
  cases nibble : v.pendingNibble with
  | none =>
    rw [coded_of_none sample nibble]
    simp [Vcd.built, nibble, (begun_same v).2.2.1]
  | some high =>
    rw [coded_of_some sample nibble]
    simp only [Vcd.built, nibble, List.length_append, List.length_singleton, Option.isSome_some, Option.isSome_none]
    simp
    omega

theorem nibbles_append : ∀ high code : BitVec 4, (high ++ code : BitVec 8) = BitVec.ofNat 8 (16 * high.toNat + code.toNat) := by
  decide

/-- R94: what the next sample of a block leaves. -/
theorem encode_of_short {v : Vcd} {threshold : Nat} {sample : Byte} (short : v.built + 1 < 1016) :
    v.encode threshold sample = (v.coded sample, none) := by
  rw [encode_eq, built_coded, if_neg (by omega)]

/-- R94, R95: what the last sample of a block leaves. -/
theorem encode_of_last {v : Vcd} (threshold : Nat) (sample : Byte) (last : v.built = 1015) :
    v.encode threshold sample = (((v.coded sample).finish threshold).1, some ((v.coded sample).finish threshold).2) := by
  rw [encode_eq, built_coded, if_pos (by omega)]

theorem coded_state (v : Vcd) (sample : Byte) : ((v.coded sample).encPredictor, (v.coded sample).encIndex)
      = applyCode v.encPredictor v.encIndex (codeFor v.encPredictor v.encIndex (expand sample))
    ∧ (v.coded sample).startPredictor = v.begun.startPredictor ∧ (v.coded sample).startIndex = v.begun.startIndex
    ∧ (v.coded sample).largest = max v.begun.largest (v.coded sample).encIndex := by
  cases nibble : v.pendingNibble with
  | none =>
    rw [coded_of_none sample nibble]
    exact ⟨rfl, rfl, rfl, rfl⟩
  | some high =>
    rw [coded_of_some sample nibble]
    exact ⟨rfl, rfl, rfl, rfl⟩

/-- The codes of a block in build, the last half byte filled with 0 (R96). -/
def partlyBuilt (v : Vcd) : List Byte := v.build ++ (v.pendingNibble.map fun n => BitVec.ofNat 8 (16 * n.toNat)).toList

theorem length_partlyBuilt_le {v : Vcd} (short : v.built ≤ 1016) : (partlyBuilt v).length ≤ 508 := by
  rw [Vcd.built] at short
  rw [partlyBuilt]
  cases nibble : v.pendingNibble with
  | none =>
    simp only [nibble, Option.map_none, Option.toList_none, List.append_nil] at short ⊢
    omega
  | some high =>
    simp only [nibble, Option.isSome_some, if_true, Option.map_some, Option.toList_some, List.length_append, List.length_singleton] at short ⊢
    omega

/-- R94: the header of a block, its quiet flag alone. -/
def blockHeader (predictor : Int) (index : Nat) (quiet : Bool) : List Byte :=
  [(BitVec.ofInt 16 predictor).extractLsb' 8 8, (BitVec.ofInt 16 predictor).extractLsb' 0 8, BitVec.ofNat 8 index,
    if quiet then 0x80 else 0]

theorem voiceHeader_eq (predictor : Int) (index : Nat) (quiet : Bool) :
    voiceHeader predictor index quiet false = blockHeader predictor index quiet := by
  cases quiet <;> rfl

theorem finish_eq {v : Vcd} (threshold : Nat) (short : v.built ≤ 1016) : v.finish threshold =
    ({ v with build := [], pendingNibble := none, sequence := v.sequence + 1 },
      { sequence := v.sequence, samples := v.built, quiet := decide (v.largest ≤ threshold)
        block := blockHeader v.startPredictor v.startIndex (decide (v.largest ≤ threshold)) ++ partlyBuilt v
          ++ List.replicate (508 - (partlyBuilt v).length) 0 }) := by
  have filled : (v.pendingNibble.map fun n => n ++ (0 : BitVec 4)) = v.pendingNibble.map fun n => BitVec.ofNat 8 (16 * n.toNat) :=
    congrArg (fun g => v.pendingNibble.map g) (funext fun n => (nibbles_append n 0).trans rfl)
  have codes : fitTo 508 0 (partlyBuilt v) = partlyBuilt v ++ List.replicate (508 - (partlyBuilt v).length) 0 := by
    rw [fitTo, List.take_of_length_le (length_partlyBuilt_le short)]
  rw [List.append_assoc, ← codes, ← voiceHeader_eq, partlyBuilt, ← filled]
  rfl

end Sys2Proof.Machine
end

section
/-! PROOFS. A block of a recording here: its append and the ends that it brings (R111, R113, R144, R145). -/
namespace Sys2Proof.Machine

/-! ### The close of a VOICE message (R113, R114) -/

theorem keptCount_le_of_voice {s : State} {m : Msg} (reason : Byte) (voice : m.kind = .voice) : keptCount s m reason ≤ m.count := by
  have notFax : m.kind ≠ .fax := by rw [voice]; nofun
  simp only [keptCount, notFax, if_false]
  split_ifs <;> omega

/-- What a close leaves of a VOICE message: nothing when it keeps no block, and else the record, CLOSED. -/
theorem closeMessage_of_voice {s : State} {h : Nat} {m : Msg} (reason : Byte) (record : s.msgAt h = some m) (voice : m.kind = .voice) :
    StoreOnly s (closeMessage h reason s).1 ∧ (closeMessage h reason s).1.msgAt h
      = if keptCount s m reason = 0 then none else some (closedRecord s m (keptCount s m reason) reason) := by
  by_cases empty : keptCount s m reason = 0
  · have gone := discarded_discardMessage record
    rw [closeMessage_of_empty record empty, if_pos empty]
    exact ⟨gone.only, gone.record⟩
  · have le := keptCount_le_of_voice (s := s) reason voice
    have trim := trimmed_of_le reason record empty le
    have filed : fileMessage h (keptRecord m (keptCount s m reason) reason) (trimmed h m (keptCount s m reason) reason s)
        = modMailbox m.mailbox (fileIn h m.kind) (trimmed h m (keptCount s m reason) reason s) :=
      fileMessage_of_list _ (by rw [keptRecord, voice]; nofun)
    have stored := stored_closeMessage record rfl empty le (by rw [filed]; exact storeOnly_modMsc ..) (by rw [filed]; rfl)
    rw [if_neg empty]
    exact ⟨stored.only, stored.record⟩

theorem closed_of_closeMessage {s : State} {h : Nat} {m : Msg} (reason : Byte) (record : s.msgAt h = some m) (voice : m.kind = .voice) :
    ∀ x, (closeMessage h reason s).1.msgAt h = some x → x.state = .closed
      ∧ (trims reason = false → x.count = m.count ∧ x.truncated = (m.truncated || truncates .voice reason)) := by
  intro x found
  rw [(closeMessage_of_voice reason record voice).2] at found
  split at found
  · cases found
  · obtain rfl := Option.some.inj found
    refine ⟨rfl, fun whole => ⟨?_, ?_⟩⟩
    · exact keptCount_of_untrimmed (by rw [voice]; nofun) whole
    · rw [closedRecord, voice]

theorem exists_of_closeMessage {s : State} {h : Nat} {m : Msg} (reason : Byte) (record : s.msgAt h = some m) (voice : m.kind = .voice)
    (whole : trims reason = false) (some_blocks : m.count ≠ 0) : ∃ x, (closeMessage h reason s).1.msgAt h = some x := by
  have kept : keptCount s m reason ≠ 0 := by
    rw [keptCount_of_untrimmed (by rw [voice]; nofun) whole]
    exact some_blocks
  rw [(closeMessage_of_voice reason record voice).2, if_neg kept]
  exact ⟨_, rfl⟩

/-! ### The end of a recording that nobody's script follows (R145, R147) -/

/-- A recording that has ended of itself in a voice session: the context waits. -/
structure RecordingOver (k : ContextId) (s t : State) : Prop where
  hwi : t.hwi = s.hwi
  rau : t.rau = s.rau
  activity : (t.at k).voice.activity = .waiting
  idle : (t.at k).voice.idle = some 20000
  target : (t.at k).voice.recTarget = none
  off : (t.at k).vcd.recording = false

/-- R145, R146: the close told of, and the recording at its end. -/
def closeTold (k : ContextId) (h : Nat) (result : Byte) (report : CloseReport) (s : State) : State :=
  recordingOver k (dropRecording k (reportClose k h result report s))

theorem closeTold_over {s c : State} {k : ContextId} (h : Nat) (result : Byte) (report : CloseReport) (only : StoreOnly s c)
    (script : (s.at k).voice.script = .none) :
    RecordingOver k s (closeTold k h result report c) ∧ (closeTold k h result report c).msc = c.msc := by
  let u := dropRecording k (reportClose k h result report c)
  have reported : StoreOnly s (reportClose k h result report c) := only.trans (storeOnly_sendEvent ..)
  have dropped : u.at k = recordingDropped (s.at k) := (at_dropRecording ..).trans (congrArg recordingDropped (reported.at k))
  have waits : closeTold k h result report c = u.modVoice k waiting := by
    have noScript : ¬ (u.at k).voice.script = .answer := by
      rw [dropped]
      exact fun answer => absurd (script.symm.trans answer) nofun
    exact if_neg noScript
  have record : (closeTold k h result report c).at k
      = { recordingDropped (s.at k) with voice := waiting (recordingDropped (s.at k)).voice } := by
    rw [waits, State.modVoice, at_modCtx, dropped]
  rw [waits] at record ⊢
  exact ⟨⟨reported.hwi, reported.rau, by rw [record]; rfl, by rw [record]; rfl, by rw [record]; rfl, by rw [record]; rfl⟩,
    sendEvent_msc ..⟩

/-- R145: a recording here ends at a whole block. -/
theorem finishRecording_of_here {s : State} {k : ContextId} {h : Nat} {m : Msg} (reason : Byte) (whole : (s.at k).vcd.built = 0)
    (target : (s.at k).voice.recTarget = some (.here h)) (under : openUnder s h (.here k) = some m) :
    finishRecording k reason s = dropRecording k (reportClose k h
      (closeMessage h reason (s.modVcd k fun _ => { (s.at k).vcd with recording := false })).2.result
      (closeMessage h reason (s.modVcd k fun _ => { (s.at k).vcd with recording := false })).2
      (closeMessage h reason (s.modVcd k fun _ => { (s.at k).vcd with recording := false })).1) := by
  let u := s.modVcd k fun _ => { (s.at k).vcd with recording := false }
  have stops : (s.at k).vcd.stopRecording (configOf s).quietThreshold = ({ (s.at k).vcd with recording := false }, none) := if_pos whole
  have target' : (u.at k).voice.recTarget = some (.here h) := (congrArg (·.voice.recTarget) (at_modCtx ..)).trans target
  have under' : openUnder u h (.here k) = some m := under
  have closes (last : Option (Nat × Nat)) : closeRecording k reason last u
      = reportClose k h (closeMessage h reason u).2.result (closeMessage h reason u).2 (closeMessage h reason u).1 := by
    simp only [closeRecording, target', closeBy, under']
  simp only [finishRecording, stops]
  exact congrArg (dropRecording k) (closes _)

/-! ### A finished block (R94, R144, R145) -/

/-- R94: the block that a sample has finished, and the codec with nothing in build. -/
theorem finished_of_encode {v : Vcd} {threshold : Nat} {sample : Byte} {fin : Finished}
    (finished : (v.encode threshold sample).2 = some fin) : (v.encode threshold sample).1.built = 0
      ∧ (v.encode threshold sample).1.recording = v.recording ∧ fin.block.length = 512 := by
  have recording : (v.coded sample).recording = v.recording := by
    have begun : v.begun.recording = v.recording := by unfold Vcd.begun; split <;> rfl
    cases nibble : v.pendingNibble with
    | none => rw [coded_of_none sample nibble]; exact begun
    | some high => rw [coded_of_some sample nibble]; exact begun
  rw [encode_eq] at finished ⊢
  by_cases last : 1016 ≤ (v.coded sample).built
  · rw [if_pos last] at finished ⊢
    obtain rfl := Option.some.inj finished
    refine ⟨rfl, recording, ?_⟩
    rw [Vcd.finish, List.length_append, length_fitTo]
    rfl
  · rw [if_neg last] at finished
    cases finished

/-- R144: the record of a context whose block has been handed on. -/
def blockCounted (w : Vcd) (quiet : Bool) (x : Context) : Context := { x with vcd := w, voice := x.voice.countBlock quiet }

/-- R111: a recording here that runs, with a block that the sample finishes. -/
structure FinishesBlock (k : ContextId) (h : Nat) (m : Msg) (g : ConfigRecord) (sample : Byte) (fin : Finished) (s : State) : Prop where
  config : s.cfu.config = some g
  script : (s.at k).voice.script = .none
  recording : (s.at k).vcd.recording = true
  target : (s.at k).voice.recTarget = some (.here h)
  under : openUnder s h (.here k) = some m
  voice : m.kind = .voice
  finished : ((s.at k).vcd.encode g.quietThreshold sample).2 = some fin

/-- The state in which the block is handed on. -/
def blockReady (k : ContextId) (g : ConfigRecord) (sample : Byte) (fin : Finished) (s : State) : State :=
  s.modCtx k (blockCounted ((s.at k).vcd.encode g.quietThreshold sample).1 fin.quiet)

section
variable {k : ContextId} {h : Nat} {m : Msg} {g : ConfigRecord} {sample : Byte} {fin : Finished} {s : State}

theorem at_blockReady : (blockReady k g sample fin s).at k
    = blockCounted ((s.at k).vcd.encode g.quietThreshold sample).1 fin.quiet (s.at k) := at_modCtx ..

theorem handOn_of_here {u a : State} {r : AppendResult} (target : (u.at k).voice.recTarget = some (.here h))
    (appended : appendBlock h (.here k) fin.block fin.samples (u.modVoice k fun v => v.countBlock fin.quiet) = (a, r)) :
    (r = .taken → handOn k fin u = (a, none)) ∧ (∀ report, r = .storeFull report → handOn k fin u = (a, some (h, report))) := by
  refine ⟨fun result => ?_, fun report result => ?_⟩ <;> subst result <;> simp only [handOn, target, appended]

/-- R145: the reason that a recording ends with at a finished block, if it does. -/
def endAtBlock (g : ConfigRecord) (v : Voice) : Option Byte :=
  if g.silenceBlocks ≤ v.quietRun then some reasonSilence
  else if v.maxBlocks ≤ v.handedOn then some reasonMaxLength
  else none

theorem FinishesBlock.appends (f : FinishesBlock k h m g sample fin s) {a : State} {r : AppendResult}
    (appended : appendBlock h (.here k) fin.block fin.samples (blockReady k g sample fin s) = (a, r)) :
    (r = .taken → handOn k fin (s.modVcd k fun _ => ((s.at k).vcd.encode g.quietThreshold sample).1) = (a, none))
      ∧ (∀ report, r = .storeFull report →
          handOn k fin (s.modVcd k fun _ => ((s.at k).vcd.encode g.quietThreshold sample).1) = (a, some (h, report))) := by
  let u := s.modVcd k fun _ => ((s.at k).vcd.encode g.quietThreshold sample).1
  have ready : u.modVoice k (fun v => v.countBlock fin.quiet) = blockReady k g sample fin s := (modCtx_modCtx ..).trans rfl
  have target : (u.at k).voice.recTarget = some (.here h) := (congrArg (·.voice.recTarget) (at_modCtx ..)).trans f.target
  exact handOn_of_here target ((congrArg (appendBlock h (.here k) fin.block fin.samples) ready).trans appended)

theorem encodeFrame_of_taken (f : FinishesBlock k h m g sample fin s) {a : State}
    (appended : appendBlock h (.here k) fin.block fin.samples (blockReady k g sample fin s) = (a, .taken)) (config : a.cfu.config = some g) :
    (endAtBlock g (a.at k).voice = none → encodeFrame k sample s = a)
      ∧ (∀ reason, endAtBlock g (a.at k).voice = some reason → encodeFrame k sample s = recordingOver k (finishRecording k reason a)) := by
  have handed := (f.appends appended).1 rfl
  have effect : encodeFrame k sample s = if g.silenceBlocks ≤ (a.at k).voice.quietRun then recordingOver k (finishRecording k reasonSilence a)
      else if (a.at k).voice.maxBlocks ≤ (a.at k).voice.handedOn then recordingOver k (finishRecording k reasonMaxLength a) else a := by
    simp only [encodeFrame, f.recording, configOf_eq f.config, f.finished, handed, configOf_eq config, if_true]
  rw [effect, endAtBlock]
  refine ⟨fun goes => ?_, fun reason ends => ?_⟩
  · split_ifs at goes ⊢
    rfl
  · split_ifs at ends ⊢ <;> cases ends <;> rfl

theorem encodeFrame_of_full (f : FinishesBlock k h m g sample fin s) {a : State} {report : CloseReport}
    (appended : appendBlock h (.here k) fin.block fin.samples (blockReady k g sample fin s) = (a, .storeFull report)) :
    encodeFrame k sample s = closeTold k h codeStoreFull report a := by
  have handed := (f.appends appended).2 report rfl
  simp only [encodeFrame, f.recording, configOf_eq f.config, f.finished, handed, if_true]
  rfl

/-- What a frame leaves of a recording here when the store is full: the message is closed by the store. -/
theorem encodeFrame_of_no_block (f : FinishesBlock k h m g sample fin s) (empty : s.msc.freeList = []) :
    RecordingOver k s (encodeFrame k sample s) ∧ ∀ x, (encodeFrame k sample s).msgAt h = some x → x.state = .closed
      ∧ x.count = m.count ∧ x.truncated = true := by
  let u := blockReady k g sample fin s
  have under : openUnder u h (.here k) = some m := f.under
  have appended : appendBlock h (.here k) fin.block fin.samples u
      = ((closeMessage h reasonStoreFull u).1, .storeFull (closeMessage h reasonStoreFull u).2) := by
    have none_free : u.msc.freeList = [] := empty
    simp only [appendBlock, under, none_free]
  have script : (u.at k).voice.script = .none := (congrArg (·.voice.script) at_blockReady).trans f.script
  have record : u.msgAt h = some m := msgAt_of_openUnder under
  obtain ⟨only, _⟩ := closeMessage_of_voice reasonStoreFull record f.voice
  obtain ⟨told, msc⟩ := closeTold_over h codeStoreFull (closeMessage h reasonStoreFull u).2 only script
  rw [encodeFrame_of_full f appended]
  refine ⟨⟨told.hwi, told.rau, told.activity, told.idle, told.target, told.off⟩, fun x found => ?_⟩
  rw [msgAt_congr (congrArg Msc.msgs msc)] at found
  obtain ⟨closed, whole⟩ := closed_of_closeMessage reasonStoreFull record f.voice x found
  obtain ⟨count, truncated⟩ := whole rfl
  exact ⟨closed, count, truncated.trans (Bool.or_true _)⟩

/-- What a frame leaves of a recording here when its block is appended. -/
theorem encodeFrame_of_block (f : FinishesBlock k h m g sample fin s) {b : Nat} {rest : List Nat} (free : s.msc.freeList = b :: rest) :
    (endAtBlock g ((s.at k).voice.countBlock fin.quiet) = none →
      (encodeFrame k sample s).at k = blockCounted ((s.at k).vcd.encode g.quietThreshold sample).1 fin.quiet (s.at k)
      ∧ (encodeFrame k sample s).hwi = s.hwi ∧ (encodeFrame k sample s).rau = s.rau
      ∧ (encodeFrame k sample s).msgAt h = some (appendRecord m b fin.block fin.samples)
      ∧ (encodeFrame k sample s).msc.mem = Memory.writeBlock b fin.block s.msc.mem)
    ∧ (∀ reason, endAtBlock g ((s.at k).voice.countBlock fin.quiet) = some reason → RecordingOver k s (encodeFrame k sample s)
      ∧ (trims reason = false → ∃ x, (encodeFrame k sample s).msgAt h = some x)
      ∧ ∀ x, (encodeFrame k sample s).msgAt h = some x → x.state = .closed
        ∧ (trims reason = false → x.count = m.count + 1 ∧ x.truncated = (m.truncated || truncates .voice reason))) := by
  let u := blockReady k g sample fin s
  let a := (appendBlock h (.here k) fin.block fin.samples u).1
  have under : openUnder u h (.here k) = some m := f.under
  have wrote : Appended h m b rest fin.block fin.samples u a := appended_appendBlock fin.block fin.samples under free
  have taken := appendBlock_of_free (s := u) fin.block fin.samples under free
  have appended : appendBlock h (.here k) fin.block fin.samples u = (a, .taken) := by
    have second := congrArg Prod.snd taken
    exact Prod.ext rfl second
  have state : a.msc.state = .ready := (appendBlock_state _ _ under free).trans (standing_of_openUnder under).1
  have counted : a.at k = blockCounted ((s.at k).vcd.encode g.quietThreshold sample).1 fin.quiet (s.at k) :=
    (wrote.only.at k).trans at_blockReady
  have voice : (a.at k).voice = (s.at k).voice.countBlock fin.quiet := congrArg Context.voice counted
  have config : a.cfu.config = some g := by
    rw [wrote.only.cfu]
    exact f.config
  obtain ⟨goes, ends⟩ := encodeFrame_of_taken f appended config
  rw [voice] at goes ends
  have built : (a.at k).vcd.built = 0 := (congrArg (·.vcd.built) counted).trans (finished_of_encode f.finished).1
  have target : (a.at k).voice.recTarget = some (.here h) := (congrArg (·.voice.recTarget) counted).trans f.target
  have script : (a.at k).voice.script = .none := (congrArg (·.voice.script) counted).trans f.script
  obtain ⟨_, opened, writer⟩ := standing_of_openUnder under
  have underA : openUnder a h (.here k) = some (appendRecord m b fin.block fin.samples) :=
    openUnder_of_opened wrote.record state opened writer
  obtain ⟨hwi, rau, record, mem⟩ : a.hwi = s.hwi ∧ a.rau = s.rau ∧ a.msgAt h = some (appendRecord m b fin.block fin.samples)
      ∧ a.msc.mem = Memory.writeBlock b fin.block s.msc.mem := ⟨wrote.only.hwi, wrote.only.rau, wrote.record, wrote.mem⟩
  generalize a = a at *
  refine ⟨fun going => ?_, fun reason ending => ?_⟩
  · rw [goes going]
    exact ⟨counted, hwi, rau, record, mem⟩
  · let w := a.modVcd k fun _ => { (a.at k).vcd with recording := false }
    obtain ⟨only, _⟩ := closeMessage_of_voice reason (s := w) record f.voice
    have scriptW : (w.at k).voice.script = .none := (congrArg (·.voice.script) (at_modCtx ..)).trans script
    obtain ⟨told, msc⟩ := closeTold_over h (closeMessage h reason w).2.result (closeMessage h reason w).2 only scriptW
    have effect : encodeFrame k sample s = closeTold k h (closeMessage h reason w).2.result (closeMessage h reason w).2 (closeMessage h reason w).1 :=
      (ends reason ending).trans (congrArg (recordingOver k) (finishRecording_of_here reason built target underA))
    rw [effect]
    refine ⟨⟨told.hwi.trans hwi, told.rau.trans rau, told.activity, told.idle, told.target, told.off⟩, fun whole => ?_, fun x found => ?_⟩
    · rw [msgAt_congr (congrArg Msc.msgs msc)]
      exact exists_of_closeMessage reason (s := w) record f.voice whole (Nat.succ_ne_zero _)
    · rw [msgAt_congr (congrArg Msc.msgs msc)] at found
      exact closed_of_closeMessage reason (s := w) record f.voice x found

/-- A finished block moves neither the highway nor the records of the Remote Access Unit, whatever becomes of it. -/
theorem encodeFrame_frame (f : FinishesBlock k h m g sample fin s) :
    (encodeFrame k sample s).hwi = s.hwi ∧ (encodeFrame k sample s).rau = s.rau := by
  cases free : s.msc.freeList with
  | nil =>
    obtain ⟨told, _⟩ := encodeFrame_of_no_block f free
    exact ⟨told.hwi, told.rau⟩
  | cons b rest =>
    obtain ⟨goes, ends⟩ := encodeFrame_of_block f free
    cases ending : endAtBlock g ((s.at k).voice.countBlock fin.quiet) with
    | none =>
      obtain ⟨_, hwi, rau, _⟩ := goes ending
      exact ⟨hwi, rau⟩
    | some reason =>
      obtain ⟨told, _⟩ := ends reason ending
      exact ⟨told.hwi, told.rau⟩

end
end Sys2Proof.Machine
end

section
/-! PROOFS. A frame with one context on the highway, and the voice codec (R9, R89 to R98, R145). -/
namespace Sys2Proof.Machine

/-! ### A frame with one context that holds a channel (R9) -/

/-- A sweep in which one context alone acts. -/
theorem forEach_only {step : ContextId → State → State} {s : State} (k : ContextId)
    (stands : ∀ j, j ≠ k → ∀ u, u = s ∨ u = step k s → step j u = u) : forEach contextIds step s = step k s := by
  have four (u : State) : forEach contextIds step u = step 3 (step 2 (step 1 (step 0 u))) := rfl
  have before (j : ContextId) (other : j ≠ k) : step j s = s := stands j other s (Or.inl rfl)
  have after (j : ContextId) (other : j ≠ k) : step j (step k s) = step k s := stands j other _ (Or.inr rfl)
  rw [four]
  obtain rfl | rfl | rfl | rfl : k = 0 ∨ k = 1 ∨ k = 2 ∨ k = 3 := by simpa [contextIds] using mem_contextIds k
  · rw [after 1 (by decide), after 2 (by decide), after 3 (by decide)]
  · rw [before 0 (by decide), after 2 (by decide), after 3 (by decide)]
  · rw [before 0 (by decide), before 1 (by decide), after 3 (by decide)]
  · rw [before 0 (by decide), before 1 (by decide), before 2 (by decide)]

theorem transmitFrame_of_absent {s : State} {j : ContextId} (session : Bool) (absent : (s.at j).channel = none) :
    transmitFrame session j s = s := by
  simp [transmitFrame, holdsAny, absent]

theorem settleDecoder_of_absent {s : State} {j : ContextId} (session : Bool) (absent : (s.at j).channel = none) :
    settleDecoder session j s = s := by
  simp [settleDecoder, holdsAny, absent]

theorem receiveFrame_of_absent {s : State} {j : ContextId} (session : Bool) (rx : List Byte) (absent : (s.at j).channel = none) :
    receiveFrame session rx j s = s := by
  simp only [receiveFrame, absent]

/-- The read-back and the codes move the highway alone, and not its alignment. -/
theorem readFields_hwi (f : Fin 8) (rxSig : Byte) (back : List Byte) (backSig : Byte) (s : State) :
    ∃ h, readCodes f rxSig backSig (forEach channelIds (readBack f back backSig) s) = { s with hwi := h } ∧ h.align = s.hwi.align := by
  rw [readFields_eq]
  generalize changeEach channelIds _ s.hwi.channels = channels
  generalize changeEach (fieldsOf f) _ s.hwi.rxCodes = rxCodes
  generalize changeEach (fieldsOf f) _ s.hwi.txCodes = txCodes
  exact ⟨_, rfl, rfl⟩

theorem aligned_of_session {s : State} (session : givesSessionTime s = true) : ∃ p, s.hwi.align = .aligned p := by
  have aligned : isAligned s = true := (Bool.and_eq_true_iff.mp session).1
  rw [isAligned] at aligned
  split at aligned
  next p place => exact ⟨p, place⟩
  next => cases aligned

/-- The state of a frame after its read-back and codes, its samples to be received. -/
def withHighway (h : Hwi) (s : State) : State := { s with hwi := h }

/-- R9, R85: the active detector of a context takes the sample of its channel. -/
def detectorFed (k : ContextId) (rx : List Byte) (s : State) : State := s.modCtx k (gathers rx (detectorActive s k))

theorem receiveFrame_of_holder {s : State} {k : ContextId} {c : Channel} (rx : List Byte) (channel : (s.at k).channel = some c)
    (view : holds s k c = true) (going : (s.at k).held = false) :
    receiveFrame true rx k s = encodeFrame k (rx.getD c.val 0) (detectorFed k rx s) := by
  have takes : (holds s k c && !(s.at k).held) = true := by rw [view, going]; rfl
  cases active : detectorActive s k with
  | true =>
    have fed : s.modDetector k (fun d => { d with gathered := d.gathered ++ [rx.getD c.val 0] }) = detectorFed k rx s := by
      refine modCtx_congr ?_
      rw [active, gathers, if_pos rfl, sampleOf, channel]
      rfl
    simp only [receiveFrame, channel, takes, active, if_true, fed]
  | false =>
    have fed : s = detectorFed k rx s := by
      rw [detectorFed, active]
      exact (modCtx_self rfl).symm
    rw [← fed]
    simp only [receiveFrame, channel, takes, active, Bool.false_eq_true, if_false, if_true]

/-- A frame of session time with one context on the highway whose decoder has nothing to settle. -/
theorem exec_highwayFrame_of_alone {s u : State} {k : ContextId} {c : Channel} {f : Fin 8} {rx back : List Byte} {rxSig backSig : Byte}
    (session : givesSessionTime s = true) (alone : ∀ j, j ≠ k → (s.at j).channel = none)
    (sent : transmitFrame true k s = u) (hwi : u.hwi = s.hwi) (others : ∀ j, j ≠ k → u.at j = s.at j)
    (stands : ∀ h, settleDecoder true k (withHighway h u) = withHighway h u)
    (channel : (u.at k).channel = some c) (view : holds u k c = true) (going : (u.at k).held = false)
    (ends : ∀ h, (encodeFrame k (rx.getD c.val 0) (detectorFed k rx (withHighway h u))).hwi = h
      ∧ (encodeFrame k (rx.getD c.val 0) (detectorFed k rx (withHighway h u))).Quiet) :
    ∃ h t, exec (.highwayFrame f rx rxSig back backSig) s = .next t
      ∧ t.ctx = (encodeFrame k (rx.getD c.val 0) (detectorFed k rx (withHighway h u))).ctx
      ∧ t.msc = (encodeFrame k (rx.getD c.val 0) (detectorFed k rx (withHighway h u))).msc := by
  obtain ⟨p, place⟩ := aligned_of_session session
  have aloneU (j : ContextId) (other : j ≠ k) : (u.at j).channel = none := by
    rw [others j other]
    exact alone j other
  have sweep1 : forEach contextIds (transmitFrame true) s = u := by
    rw [← sent]
    refine forEach_only k fun j other x which => transmitFrame_of_absent true ?_
    rcases which with rfl | rfl
    · exact alone j other
    · rw [sent]
      exact aloneU j other
  obtain ⟨h, read, align⟩ := readFields_hwi f rxSig back backSig u
  change _ = withHighway h u at read
  obtain ⟨hwiEnds, quiet⟩ := ends h
  have sweep2 : forEach contextIds (settleDecoder true) (withHighway h u) = withHighway h u := by
    refine forEach_of_standing fun j _ => ?_
    by_cases same : j = k
    · rw [same]
      exact stands h
    · exact settleDecoder_of_absent true (aloneU j same)
  have received := receiveFrame_of_holder (s := withHighway h u) rx channel view going
  have sweep3 : forEach contextIds (receiveFrame true rx) (withHighway h u)
      = encodeFrame k (rx.getD c.val 0) (detectorFed k rx (withHighway h u)) := by
    rw [← received]
    refine forEach_only k fun j other x which => receiveFrame_of_absent true rx ?_
    rcases which with rfl | rfl
    · exact aloneU j other
    · have apart : Apart k (withHighway h u) (detectorFed k rx (withHighway h u)) := (Apart.refl k _).modCtx
      rw [received, (apart_encodeFrame apart).ctx j other]
      exact aloneU j other
  have whole : highwayFrame f rx rxSig back backSig s = afterFrame f (forEach contextIds (receiveFrame (givesSessionTime s) rx)
      (forEach contextIds (settleDecoder (givesSessionTime s)) (readCodes f rxSig backSig (forEach channelIds (readBack f back backSig)
        (forEach contextIds (transmitFrame (givesSessionTime s)) s))))) := rfl
  rw [session, sweep1, read, sweep2, sweep3] at whole
  obtain ⟨w, left⟩ : ∃ w, encodeFrame k (rx.getD c.val 0) (detectorFed k rx (withHighway h u)) = w := ⟨_, rfl⟩
  rw [left] at hwiEnds quiet whole
  have place' : w.hwi.align = .aligned p := by rw [hwiEnds, align, hwi, place]
  rw [afterFrame_of_aligned f place'] at whole
  have acts := exec_highwayFrame_of_aligned f rx rxSig back backSig place
  rw [whole] at acts
  exact ⟨h, _, acts.trans (next_settle (t := w.modHwi _) quiet rfl), by rw [left]; rfl, by rw [left]; rfl⟩

/-! ### A frame of a playback and of a recording -/

/-- R93, R98: the codec after one code of a block. -/
def codeTaken (b n : Nat) (code : BitVec 4) (v : Vcd) : Vcd := { v with
  decPredictor := (applyCode v.decPredictor v.decIndex code).1, decIndex := (applyCode v.decPredictor v.decIndex code).2
  current := some (b, n + 1), position := v.position + 1 }

theorem codeAt_eq (block : List Byte) (n : Nat) : codeAt block n
    = BitVec.ofNat 4 (if n % 2 = 0 then (byteAt block (4 + n / 2)).toNat / 16 else (byteAt block (4 + n / 2)).toNat) := by
  refine BitVec.eq_of_toNat_eq ?_
  simp only [codeAt]
  split <;> simp [BitVec.extractLsb'_toNat, Nat.shiftRight_eq_div_pow]

/-- R98: a context that plays a READY block short of its end and of the message's. -/
structure PlaysBlock (k : ContextId) (b n : Nat) (block : List Byte) (x : Context) : Prop where
  state : x.state = .connected
  session : x.session = .voice
  activity : x.voice.activity = .playing
  going : x.held = false
  recording : x.vcd.recording = false
  mark : x.vcd.mark = .playing
  current : x.vcd.current = some (b, n)
  ready : x.vcd.buffer.find b = .ready b block
  inBlock : n + 1 < 1016
  inMessage : x.vcd.position + 1 < x.vcd.length

/-- The record of a playback after a frame. -/
def codePlayed (b n : Nat) (code : BitVec 4) (x : Context) : Context := { x with
  vcd := codeTaken b n code x.vcd, txSample := compress (applyCode x.vcd.decPredictor x.vcd.decIndex code).1 }

theorem transmitFrame_of_playing {s : State} {k : ContextId} {b n : Nat} {block : List Byte} (plays : PlaysBlock k b n block (s.at k))
    (holding : holdsAny s k = true) : transmitFrame true k s = s.modCtx k (codePlayed b n (codeAt block n)) := by
  have block' : currentBlock (s.at k).vcd = some (b, n, block) := by simp only [currentBlock, plays.current, plays.ready]
  have decoded : decodeFrame k s = (s.modVcd k (codeTaken b n (codeAt block n)),
      compress (applyCode (s.at k).vcd.decPredictor (s.at k).vcd.decIndex (codeAt block n)).1) := by
    simp only [decodeFrame, plays.mark, block']
    exact Prod.ext (modCtx_congr rfl) rfl
  have supplied : supplySample k true s = decodeFrame k s := by
    simp [supplySample, plays.state, plays.session, plays.activity]
  simp only [transmitFrame, holding, plays.going, Bool.not_false, Bool.and_self, if_true, supplied, decoded]
  exact (modCtx_modCtx ..).trans (modCtx_congr rfl)

theorem settleDecoder_of_playing {s : State} {k : ContextId} {b n : Nat} (mark : (s.at k).vcd.mark = .playing)
    (current : (s.at k).vcd.current = some (b, n)) (inBlock : n < 1016) (inMessage : (s.at k).vcd.position < (s.at k).vcd.length)
    (session : Bool) : settleDecoder session k s = s := by
  have stands : afterDecode k s = s := by
    simp only [afterDecode, mark, current, Nat.not_le.mpr inBlock, Nat.not_le.mpr inMessage, if_false]
  simp only [settleDecoder, stands, ite_self]

theorem transmitFrame_of_recording {s : State} {k : ContextId} (state : (s.at k).state = .connected) (session : (s.at k).session = .voice)
    (activity : (s.at k).voice.activity = .recording) (holding : holdsAny s k = true) (going : (s.at k).held = false) :
    transmitFrame true k s = s.modCtx k fun x => { x with txSample := 0x80 } := by
  have supplied : supplySample k true s = (s, 0x80) := by simp [supplySample, state, session, activity]
  simp only [transmitFrame, holding, going, Bool.not_false, Bool.and_self, if_true, supplied]

theorem gathers_same (rx : List Byte) (active : Bool) (x : Context) : (gathers rx active x).vcd = x.vcd
    ∧ (gathers rx active x).voice = x.voice ∧ (gathers rx active x).txSample = x.txSample := by
  unfold gathers
  split <;> exact ⟨rfl, rfl, rfl⟩

theorem at_detectorFed (k : ContextId) (rx : List Byte) (s : State) :
    (detectorFed k rx s).at k = gathers rx (detectorActive s k) (s.at k) := at_modCtx ..

/-- R98: a frame of a playback, alone on the highway. -/
theorem exec_highwayFrame_of_playing {s : State} {k : ContextId} {c : Channel} {b n : Nat} {block : List Byte} (f : Fin 8)
    (rx : List Byte) (rxSig : Byte) (back : List Byte) (backSig : Byte) (q : s.Quiet) (session : givesSessionTime s = true)
    (alone : ∀ j, j ≠ k → (s.at j).channel = none) (plays : PlaysBlock k b n block (s.at k)) (channel : (s.at k).channel = some c)
    (view : holds s k c = true) : ∃ t, exec (.highwayFrame f rx rxSig back backSig) s = .next t
      ∧ (t.at k).vcd = codeTaken b n (codeAt block n) (s.at k).vcd
      ∧ (t.at k).txSample = compress (applyCode (s.at k).vcd.decPredictor (s.at k).vcd.decIndex (codeAt block n)).1 := by
  let u := s.modCtx k (codePlayed b n (codeAt block n))
  have record : u.at k = codePlayed b n (codeAt block n) (s.at k) := at_modCtx ..
  have holding : holdsAny s k = true := by simp only [holdsAny, channel, view]
  have stands (h : Hwi) : encodeFrame k (rx.getD c.val 0) (detectorFed k rx (withHighway h u)) = detectorFed k rx (withHighway h u) := by
    refine encodeFrame_of_quiet _ ?_
    rw [at_detectorFed, (gathers_same ..).1]
    exact (congrArg (·.vcd.recording) record).trans plays.recording
  have same (h : Hwi) : (withHighway h u).at k = codePlayed b n (codeAt block n) (s.at k) := record
  have settles (h : Hwi) : settleDecoder true k (withHighway h u) = withHighway h u := by
    refine settleDecoder_of_playing (b := b) (n := n + 1) ?_ ?_ plays.inBlock ?_ true <;> rw [same]
    · exact plays.mark
    · rfl
    · exact plays.inMessage
  obtain ⟨h, t, next, ctx, _⟩ := exec_highwayFrame_of_alone (u := u) (c := c) (f := f) (rx := rx) (back := back) (rxSig := rxSig)
    (backSig := backSig) session alone (transmitFrame_of_playing plays holding) rfl (fun j other => at_modCtx_ne _ _ _ _ other) settles
    (by rw [record]; exact channel) view (by rw [record]; exact plays.going) (fun h => by rw [stands h]; exact ⟨rfl, q⟩)
  have whole : t.at k = (detectorFed k rx (withHighway h u)).at k := by rw [State.at, ctx, stands h, State.at]
  obtain ⟨vcd, _, sample⟩ := gathers_same rx (detectorActive (withHighway h u) k) (codePlayed b n (codeAt block n) (s.at k))
  refine ⟨t, next, ?_, ?_⟩ <;> rw [whole, at_detectorFed, same]
  · exact vcd
  · exact sample

/-- R94, R111: a frame of a recording here, alone on the highway, that finishes a block. -/
theorem exec_highwayFrame_of_recording {s : State} {k : ContextId} {c : Channel} {h : Nat} {m : Msg} {g : ConfigRecord} {fin : Finished}
    (f : Fin 8) (rx : List Byte) (rxSig : Byte) (back : List Byte) (backSig : Byte) (q : s.Quiet) (session : givesSessionTime s = true)
    (alone : ∀ j, j ≠ k → (s.at j).channel = none) (state : (s.at k).state = .connected) (voice : (s.at k).session = .voice)
    (activity : (s.at k).voice.activity = .recording) (going : (s.at k).held = false) (channel : (s.at k).channel = some c)
    (view : holds s k c = true) (finishes : FinishesBlock k h m g (rx.getD c.val 0) fin s) :
    ∃ u t, exec (.highwayFrame f rx rxSig back backSig) s = .next t ∧ FinishesBlock k h m g (rx.getD c.val 0) fin u
      ∧ u.msc = s.msc ∧ (u.at k).vcd = (s.at k).vcd ∧ (u.at k).voice = (s.at k).voice
      ∧ t.ctx = (encodeFrame k (rx.getD c.val 0) u).ctx ∧ t.msc = (encodeFrame k (rx.getD c.val 0) u).msc := by
  let v := s.modCtx k fun x => { x with txSample := 0x80 }
  have record : v.at k = { s.at k with txSample := 0x80 } := at_modCtx ..
  have holding : holdsAny s k = true := by simp only [holdsAny, channel, view]
  have kept (p : Hwi) : ((detectorFed k rx (withHighway p v)).at k).vcd = (s.at k).vcd
      ∧ ((detectorFed k rx (withHighway p v)).at k).voice = (s.at k).voice := by
    obtain ⟨vcd, voice, _⟩ := gathers_same rx (detectorActive (withHighway p v) k) ((withHighway p v).at k)
    have same : (withHighway p v).at k = { s.at k with txSample := 0x80 } := record
    rw [at_detectorFed, vcd, voice, same]
    exact ⟨rfl, rfl⟩
  have still (p : Hwi) : FinishesBlock k h m g (rx.getD c.val 0) fin (detectorFed k rx (withHighway p v)) := by
    obtain ⟨vcd, voice⟩ := kept p
    exact ⟨finishes.config, by rw [voice]; exact finishes.script, by rw [vcd]; exact finishes.recording,
      by rw [voice]; exact finishes.target, finishes.under, finishes.voice, by rw [vcd]; exact finishes.finished⟩
  have stands (p : Hwi) : settleDecoder true k (withHighway p v) = withHighway p v := by
    refine settleDecoder_of_quiet true ?_
    have same : ((withHighway p v).at k).voice.activity = .recording := (congrArg (·.voice.activity) record).trans activity
    rw [same]
    nofun
  have ends (p : Hwi) : (encodeFrame k (rx.getD c.val 0) (detectorFed k rx (withHighway p v))).hwi = p
      ∧ (encodeFrame k (rx.getD c.val 0) (detectorFed k rx (withHighway p v))).Quiet := by
    obtain ⟨hwi, rau⟩ := encodeFrame_frame (still p)
    exact ⟨hwi, (congrArg Rau.notices rau).trans q⟩
  obtain ⟨p, t, next, ctx, msc⟩ := exec_highwayFrame_of_alone (u := v) (c := c) (f := f) (rx := rx) (back := back) (rxSig := rxSig)
    (backSig := backSig) session alone (transmitFrame_of_recording state voice activity holding going) rfl
    (fun j other => at_modCtx_ne _ _ _ _ other) stands (by rw [record]; exact channel) view (by rw [record]; exact going) ends
  exact ⟨detectorFed k rx (withHighway p v), t, next, still p, rfl, (kept p).1, (kept p).2, ctx, msc⟩

/-- R94, R95: what the last sample of a block finishes. -/
theorem encode_last {v : Vcd} (threshold : Nat) (sample : Byte) (last : v.built = 1015) : ∃ byte, v.encode threshold sample = ({ v with
      encPredictor := (v.encode threshold sample).1.encPredictor, encIndex := (v.encode threshold sample).1.encIndex
      largest := max v.largest (v.encode threshold sample).1.encIndex, build := [], pendingNibble := none, sequence := v.sequence + 1 },
    some { sequence := v.sequence, samples := 1016
           quiet := decide (max v.largest (v.encode threshold sample).1.encIndex ≤ threshold)
           block := blockHeader v.startPredictor v.startIndex (decide (max v.largest (v.encode threshold sample).1.encIndex ≤ threshold))
             ++ v.build ++ [byte] }) := by
  have some_samples : v.built ≠ 0 := by omega
  obtain ⟨high, nibble⟩ : ∃ high, v.pendingNibble = some high := by
    cases nibble : v.pendingNibble with
    | none =>
      simp only [Vcd.built, nibble, Option.isSome_none, Bool.false_eq_true, if_false] at last
      omega
    | some high => exact ⟨high, rfl⟩
  have size : v.build.length = 507 := by
    simp only [Vcd.built, nibble, Option.isSome_some, if_true] at last
    omega
  let code := codeFor v.encPredictor v.encIndex (expand sample)
  have coded := coded_of_some sample nibble
  rw [begun_of_some some_samples] at coded
  have short : (v.coded sample).built ≤ 1016 := by rw [built_coded]; omega
  have whole : partlyBuilt (v.coded sample) = v.build ++ [high ++ code] := by
    rw [coded]
    exact List.append_nil _
  have full : 508 - (partlyBuilt (v.coded sample)).length = 0 := by
    rw [whole, List.length_append, size]
    rfl
  refine ⟨high ++ code, ?_⟩
  have samples : (v.coded sample).built = 1016 := by rw [built_coded, last]
  have encoded := encode_of_last threshold sample last
  rw [finish_eq threshold short, full, whole, samples, List.replicate_zero, List.append_nil, ← List.append_assoc, coded] at encoded
  rw [encoded]

/-- Settles O16: the arithmetic of the codec in closed form; then a frame in which one context alone acts. -/
theorem voiceCodesMoveThePredictor : Obligations.VoiceCodesMoveThePredictor := by
  refine ⟨compress_expand, applyCode_eq, fun v threshold sample short => ?sample, fun v threshold => ?block,
    fun f rx rxSig back backSig s k c h b rest m g fin q config session alone state voice activity script going channel view recording target
      under kind finished => ?recording,
    fun f rx rxSig back backSig s k c b n block q session alone state voice activity going channel view recording mark current ready inBlock
      inMessage => ?playing⟩
  case playing =>
    have plays : PlaysBlock k b n block (s.at k) := ⟨state, voice, activity, going, recording, mark, current, ready, inBlock, inMessage⟩
    have played := exec_highwayFrame_of_playing f rx rxSig back backSig q session alone plays channel view
    rw [codeAt_eq] at played
    exact played
  case sample =>
    intro q d b2 m b1 b0 code w
    have coded := encode_of_short (threshold := threshold) (sample := sample) short
    have made : codeFor v.encPredictor v.encIndex (expand sample) = code := codeFor_eq ..
    have same : w = v.coded sample := congrArg Prod.fst coded
    obtain ⟨state, startPredictor, startIndex, largest⟩ := coded_state v sample
    rw [same]
    refine ⟨by rw [state, made], congrArg Prod.snd coded, fun empty => ?_, fun some_samples => ?_, fun first => ?_, fun high second => ?_⟩
    · rw [startPredictor, startIndex, largest, begun_of_empty empty]
      exact ⟨rfl, rfl, rfl⟩
    · rw [startPredictor, startIndex, largest, begun_of_some some_samples]
      exact ⟨rfl, rfl, rfl⟩
    · rw [coded_of_none sample first, ← made]
      exact ⟨(begun_same v).2.2.1, rfl⟩
    · rw [coded_of_some sample second, ← made, ← nibbles_append]
      exact ⟨rfl, rfl⟩
  case block =>
    intro header partly
    refine ⟨fun sample last => encode_last threshold sample last, fun empty => if_pos empty, fun some_samples short => ?_⟩
    have stops : v.stopRecording threshold = ((({ v with recording := false } : Vcd).finish threshold).1,
        some (({ v with recording := false } : Vcd).finish threshold).2) := if_neg (by exact some_samples.ne')
    have finished := finish_eq (v := { v with recording := false }) threshold (Nat.le_succ_of_le short)
    rw [stops, finished]
    rfl
  case recording =>
    intro v quiet handed ended
    have finishes : FinishesBlock k h m g (rx.getD c.val 0) fin s := ⟨config, script, recording, target, under, kind, finished⟩
    obtain ⟨u, t, next, still, mscU, vcdU, voiceU, ctx, msc⟩ := exec_highwayFrame_of_recording f rx rxSig back backSig q session alone
      state voice activity going channel view finishes
    have record : t.at k = (encodeFrame k (rx.getD c.val 0) u).at k := congrArg (fun b : Bank 4 Context => b.get k) ctx
    have message (j : Nat) : t.msgAt j = (encodeFrame k (rx.getD c.val 0) u).msgAt j := msgAt_congr (congrArg Msc.msgs msc) j
    have counted : (u.at k).voice.countBlock fin.quiet = { v with quietRun := quiet, handedOn := handed } := by
      rw [voiceU]
      rfl
    have overs (told : RecordingOver k u (encodeFrame k (rx.getD c.val 0) u)) (closed : ∀ x, t.msgAt h = some x → x.state = .closed) : ended t := by
      refine ⟨?_, ?_, ?_, ?_, fun x found => by rw [closed x found]; nofun⟩ <;> rw [record]
      · exact told.activity
      · exact told.idle
      · exact told.target
      · exact told.off
    refine ⟨fun free _ => ?_, fun empty => ?_⟩
    · have free' : u.msc.freeList = b :: rest := by rw [mscU]; exact free
      obtain ⟨goes, ends⟩ := encodeFrame_of_block still free'
      rw [counted] at goes ends
      refine ⟨fun quieter fewer => ?_, fun silent => ?_, fun quieter most => ?_⟩
      · have going' : endAtBlock g { v with quietRun := quiet, handedOn := handed } = none := by
          rw [endAtBlock, if_neg (by exact Nat.not_le.mpr quieter), if_neg (by exact Nat.not_le.mpr fewer)]
        obtain ⟨atK, _, _, appended, mem⟩ := goes going'
        obtain ⟨_, recordingW, size⟩ := finished_of_encode still.finished
        refine ⟨t, next, ?_, ?_, ?_, _, (message h).trans appended, (standing_of_openUnder under).2.1, rfl, rfl, ?_⟩
        · rw [record, atK]
          exact counted
        · rw [record, atK]
          exact recordingW.trans still.recording
        · rw [blockAt, msc, mem]
          exact readBlock_writeBlock b _ size
        · rw [appendRecord, lengthAfter, kind]
          rfl
      · have ending : endAtBlock g { v with quietRun := quiet, handedOn := handed } = some reasonSilence := if_pos silent
        obtain ⟨told, _, closed⟩ := ends _ ending
        exact ⟨t, next, overs told fun x found => (closed x ((message h).symm.trans found)).1⟩
      · have ending : endAtBlock g { v with quietRun := quiet, handedOn := handed } = some reasonMaxLength := by
          rw [endAtBlock, if_neg (by exact Nat.not_le.mpr quieter), if_pos (by exact most)]
        obtain ⟨told, stored, closed⟩ := ends _ ending
        obtain ⟨x, found⟩ := stored rfl
        obtain ⟨state', whole⟩ := closed x found
        obtain ⟨count, truncated⟩ := whole rfl
        exact ⟨t, next, overs told fun x found => (closed x ((message h).symm.trans found)).1, x, (message h).trans found, state', count,
          truncated.trans (Bool.or_false _)⟩
    · have empty' : u.msc.freeList = [] := by rw [mscU]; exact empty
      obtain ⟨told, closed⟩ := encodeFrame_of_no_block still empty'
      refine ⟨t, next, overs told fun x found => (closed x ((message h).symm.trans found)).1, fun x found => ?_⟩
      obtain ⟨_, count, truncated⟩ := closed x ((message h).symm.trans found)
      exact ⟨truncated, count⟩

end Sys2Proof.Machine
end

section
/-! PROOFS. The start-up scan over the message table: what it may change, and a table with no record or with one (R119). -/
namespace Sys2Proof.Machine

/-! ### What the walk of the records may change (R46, R119) -/

/-- A transmit queue to which events may have been added. -/
structure EventsAdded (before after : List TxCell) : Prop where
  sending : after.filter (·.sending) = before.filter (·.sending)
  waiting : ∀ x ∈ after, x.sending = false → x ∈ before ∨ (x.cell.kind = kindEvent ∧ x.orphan = false)

theorem EventsAdded.refl (q : List TxCell) : EventsAdded q q := ⟨rfl, fun _ mem _ => Or.inl mem⟩

theorem EventsAdded.trans {p q r : List TxCell} (a : EventsAdded p q) (b : EventsAdded q r) : EventsAdded p r := by
  refine ⟨b.sending.trans a.sending, fun x mem idle => ?_⟩
  rcases b.waiting x mem idle with before | new
  · exact a.waiting x before idle
  · exact Or.inr new

theorem filter_insertByPriority {x : TxCell} (q : List TxCell) (idle : x.sending = false) :
    (insertByPriority x q).filter (·.sending) = q.filter (·.sending) := by
  induction q with
  | nil => simp [insertByPriority, idle]
  | cons y ys ih =>
    rw [insertByPriority]
    split
    · rw [List.filter_cons, List.filter_cons, ih]
    · rw [List.filter_cons, idle, if_neg Bool.false_ne_true]

theorem eventsAdded_sendEvent (k : Option ContextId) (e : Event) (s : State) : EventsAdded s.clc.tx (sendEvent k e s).clc.tx := by
  rw [sendEvent_eq]
  split
  · refine ⟨filter_insertByPriority _ rfl, fun x mem _ => ?_⟩
    rcases (mem_insertByPriority ..).mp mem with rfl | before
    · exact Or.inr ⟨rfl, rfl⟩
    · exact Or.inl before
  · exact .refl _

/-- What a step of the walk of the records may change: records go, blocks are claimed, and faults are written and told. -/
structure Scans (s t : State) : Prop where
  hwi : t.hwi = s.hwi
  tcm : t.tcm = s.tcm
  ctx : t.ctx = s.ctx
  rau : t.rau = s.rau
  free : t.free = s.free
  pending : t.pending = s.pending
  clc : t.clc = { s.clc with tx := t.clc.tx }
  tx : EventsAdded s.clc.tx t.clc.tx
  cfu : t.cfu = { s.cfu with faults := t.cfu.faults, overflow := t.cfu.overflow, lostReports := t.cfu.lostReports }
  faults : s.cfu.faults <+: t.cfu.faults
  msc : t.msc = { s.msc with msgs := t.msc.msgs, claimed := t.msc.claimed }
  records : ∀ h m, t.msgAt h = some m → s.msgAt h = some m

theorem Scans.refl (s : State) : Scans s s :=
  ⟨rfl, rfl, rfl, rfl, rfl, rfl, rfl, .refl _, rfl, List.prefix_refl _, rfl, fun _ _ e => e⟩

theorem Scans.trans {s t u : State} (a : Scans s t) (b : Scans t u) : Scans s u :=
  ⟨b.hwi.trans a.hwi, b.tcm.trans a.tcm, b.ctx.trans a.ctx, b.rau.trans a.rau, b.free.trans a.free, b.pending.trans a.pending, by rw [b.clc, a.clc], a.tx.trans b.tx, by rw [b.cfu, a.cfu],
    a.faults.trans b.faults, by rw [b.msc, a.msc], fun h m e => a.records h m (b.records h m e)⟩

theorem scans_setMsgAt_none (h : Nat) (s : State) : Scans s (s.setMsgAt h none) := by
  have written := setMsgAt_eq h none s
  have gone : ∀ j m, (s.setMsgAt h none).msgAt j = some m → s.msgAt j = some m := by
    intro j m found
    have lt := lt_of_msgAt found
    by_cases same : j = h
    · subst same
      rw [msgAt_setMsgAt lt] at found
      cases found
    · rwa [msgAt_setMsgAt_ne same] at found
  generalize s.setMsgAt h none = t at *
  refine ⟨by rw [written], by rw [written], by rw [written], by rw [written], by rw [written], by rw [written], by rw [written], ?_, by rw [written], ?_, by rw [written], gone⟩
  · rw [written]
    exact .refl _
  · rw [written]

theorem scans_sendEvent (k : Option ContextId) (e : Event) (s : State) : Scans s (sendEvent k e s) := by
  have added := eventsAdded_sendEvent k e s
  rw [sendEvent_eq] at added ⊢
  by_cases room : s.clc.tx.length < 24
  · rw [if_pos room] at added ⊢
    exact ⟨rfl, rfl, rfl, rfl, rfl, rfl, rfl, added, rfl, List.prefix_refl _, rfl, fun _ _ e => e⟩
  · rw [if_neg room] at added ⊢
    exact ⟨rfl, rfl, rfl, rfl, rfl, rfl, rfl, added, rfl, List.prefix_refl _, rfl, fun _ _ e => e⟩

theorem scans_writeFault (kind : FaultKind) (subject : Nat) (s : State) : Scans s (writeFault kind subject s) := by
  rw [writeFault]
  split
  · have entered (entry : FaultEntry) : Scans s (s.modCfu fun u => { u with faults := u.faults ++ [entry] }) :=
      ⟨rfl, rfl, rfl, rfl, rfl, rfl, rfl, .refl _, rfl, List.prefix_append _ _, rfl, fun _ _ e => e⟩
    exact (entered _).trans (scans_sendEvent ..)
  · exact ⟨rfl, rfl, rfl, rfl, rfl, rfl, rfl, .refl _, rfl, List.prefix_refl _, rfl, fun _ _ e => e⟩

theorem scans_scanRecord (h : Nat) (s : State) : Scans s (scanRecord h s) := by
  have discarded (subject : Nat) : Scans s (writeFault .storeInconsistent subject (s.setMsgAt h none)) :=
    (scans_setMsgAt_none h s).trans (scans_writeFault ..)
  unfold scanRecord
  split
  next => exact .refl s
  next =>
    split
    · split
      next => exact discarded _
      next =>
        split
        · exact discarded _
        · split
          next => exact ⟨rfl, rfl, rfl, rfl, rfl, rfl, rfl, .refl _, rfl, List.prefix_refl _, rfl, fun _ _ e => e⟩
          next => exact discarded _
    · exact scans_setMsgAt_none h s

/-- R119: a record that stands after its own part of the walk is CLOSED. -/
theorem closed_of_scanRecord {s : State} {h : Nat} {m : Msg} (record : (scanRecord h s).msgAt h = some m) : m.state = .closed := by
  have before := (scans_scanRecord h s).records h m record
  by_contra other
  have gone : scanRecord h s = s.setMsgAt h none := by
    simp only [scanRecord, before, other, if_false]
  rw [gone, msgAt_setMsgAt (lt_of_msgAt before)] at record
  cases record

theorem scans_forEach (xs : List Nat) (s : State) : Scans s (forEach xs scanRecord s)
    ∧ ∀ h ∈ xs, ∀ m, (forEach xs scanRecord s).msgAt h = some m → m.state = .closed := by
  induction xs generalizing s with
  | nil => exact ⟨.refl s, nofun⟩
  | cons x xs ih =>
    obtain ⟨rest, closed⟩ := ih (scanRecord x s)
    refine ⟨(scans_scanRecord x s).trans rest, fun h mem m found => ?_⟩
    rcases List.mem_cons.mp mem with rfl | later
    · exact closed_of_scanRecord (rest.records h m found)
    · exact closed h later m found

/-! ### Entry to SCANNING (R119, R121) -/

/-- R119: the record of a message on entry to SCANNING. -/
def unread (m : Msg) : Msg := { m with readers := [] }

theorem msgAt_enterScanning (h : Nat) (s : State) : (enterScanning s).msgAt h = (s.msgAt h).map unread := by
  rcases Nat.lt_or_ge h 512 with lt | above
  · rw [msgAt_of_lt lt, msgAt_of_lt lt]
    exact Bank.get_map ..
  · rw [msgAt_of_above above, msgAt_of_above above]
    rfl

/-- What the entry to SCANNING and the walk of the records leave. -/
structure ScanBegun (s t : State) : Prop where
  hwi : t.hwi = s.hwi
  tcm : t.tcm = s.tcm
  ctx : t.ctx = s.ctx
  rau : t.rau = s.rau
  free : t.free = s.free
  pending : t.pending = s.pending
  clc : t.clc = { s.clc with tx := t.clc.tx }
  tx : EventsAdded s.clc.tx t.clc.tx
  cfu : t.cfu = { s.cfu with faults := t.cfu.faults, overflow := t.cfu.overflow, lostReports := t.cfu.lostReports }
  faults : s.cfu.faults <+: t.cfu.faults
  msc : t.msc = { s.msc with state := .scanning, freeList := [], lowMark := false, msgs := t.msc.msgs, claimed := t.msc.claimed }
  records : ∀ h m, t.msg h = some m → m.state = .closed ∧ ∃ m0, s.msg h = some m0 ∧ m = unread m0

theorem scanBegun_beginScan (s : State) : ScanBegun s (beginScan s) := by
  obtain ⟨scans, closed⟩ := scans_forEach (List.range 512) (enterScanning s)
  rw [beginScan]
  generalize forEach (List.range 512) scanRecord (enterScanning s) = t at *
  refine ⟨scans.hwi, scans.tcm, scans.ctx, scans.rau, scans.free, scans.pending, scans.clc, scans.tx, scans.cfu, scans.faults, scans.msc, fun h m found => ?_⟩
  rw [← msgAt_of_lt h.isLt] at found
  have before := scans.records h m found
  rw [msgAt_enterScanning, msgAt_of_lt h.isLt] at before
  obtain ⟨m0, record, same⟩ := Option.map_eq_some_iff.mp before
  exact ⟨closed h (List.mem_range.mpr h.isLt) m found, m0, record, same.symm⟩

theorem scanRecord_of_free {s : State} {h : Nat} (free : s.msgAt h = none) : scanRecord h s = s := by
  simp only [scanRecord, free]

/-- R119: a message table with no record leaves nothing to walk. -/
theorem beginScan_of_no_record {s : State} (free : ∀ h, s.msg h = none) : beginScan s = enterScanning s := by
  rw [beginScan]
  refine forEach_of_standing fun h mem => scanRecord_of_free ?_
  have lt := List.mem_range.mp mem
  rw [msgAt_enterScanning, msgAt_of_lt lt, free]
  rfl

end Sys2Proof.Machine
end

section
/-! PROOFS. RESTART (R19, R36, R42). -/
namespace Sys2Proof.Machine

/-- R42: the ANSWER of an accepted RESTART. -/
def restartAnswer (c : Cell) (s : State) : Cell :=
  ownCell s 3 c.src kindAnswer c.tag [c.kind, codeOk, codeRestart, BitVec.ofNat 8 (holdingContexts s)]

/-- R29, R42: the queue with the ANSWER, when it has room. -/
def answerQueued (c : Cell) (s : State) : List TxCell :=
  if s.clc.tx.length < 24 then insertByPriority (freshTx (restartAnswer c s) 0) s.clc.tx else s.clc.tx

/-- R23, R36: a queue whose head begins its transmission when a FREE line comes between. -/
def headStarted (between : Bool) (line : LineState) (q : List TxCell) : List TxCell :=
  if between = true ∧ line ≠ .joining ∧ ∀ x ∈ q, x.sending = false then
    (q.take 1).map (fun x => { x with sending := true }) ++ q.drop 1 else q

/-- R36: the cells that a restart leaves on the line, to be told of to nobody. -/
def keptOnLine (q : List TxCell) : List TxCell := (q.filter (·.sending)).map fun x => { x with orphan := true }

theorem headGoesOut_eq (s : State) :
    headGoesOut s = s.modClc fun l => { l with tx := headStarted true s.clc.line s.clc.tx } := by
  have stands (same : headStarted true s.clc.line s.clc.tx = s.clc.tx) :
      s = s.modClc fun l => { l with tx := headStarted true s.clc.line s.clc.tx } := by
    rw [same]
    rfl
  cases queue : s.clc.tx with
  | nil =>
    have nothing : headStarted true s.clc.line s.clc.tx = s.clc.tx := by
      rw [headStarted, queue]
      split <;> rfl
    simp only [headGoesOut, queue]
    rw [← queue]
    exact stands nothing
  | cons y rest =>
    have idle : (inTransmission s).isNone = true ↔ ∀ x ∈ s.clc.tx, x.sending = false := by
      rw [inTransmission, Option.isNone_iff_eq_none, List.find?_eq_none]
      simp
    have due : (s.clc.line != .joining && (inTransmission s).isNone) = true ↔ s.clc.line ≠ .joining ∧ ∀ x ∈ s.clc.tx, x.sending = false := by
      rw [Bool.and_eq_true, bne_iff_ne, idle]
    by_cases goes : s.clc.line ≠ .joining ∧ ∀ x ∈ s.clc.tx, x.sending = false
    · have started : headStarted true s.clc.line s.clc.tx = { y with sending := true } :: rest := by
        rw [headStarted, if_pos ⟨rfl, goes⟩, queue]
        rfl
      simp only [headGoesOut, queue, due.mpr goes, if_true]
      rw [← queue, started]
    · have same : headStarted true s.clc.line s.clc.tx = s.clc.tx := if_neg fun h => goes h.2
      simp only [headGoesOut, queue, mt due.mp goes, Bool.false_eq_true, if_false]
      rw [← queue]
      exact stands same

theorem headStarted_of_not (line : LineState) (q : List TxCell) : headStarted false line q = q := if_neg fun h => Bool.false_ne_true h.1

theorem headGoesOut_if (between : Bool) (s : State) :
    (if between then headGoesOut s else s) = s.modClc fun l => { l with tx := headStarted between s.clc.line s.clc.tx } := by
  cases between with
  | true => rw [if_pos rfl, headGoesOut_eq]
  | false =>
    rw [if_neg Bool.false_ne_true, headStarted_of_not]
    rfl

/-- The state that the entry to SCANNING of a RESTART takes over. -/
def restarted (between : Bool) (c : Cell) (s : State) : State := { s with
  hwi := { s.hwi with channels := .replicate 32 .reset, prevTiming := none, hold := none }
  clc := { Clc.reset with tx := keptOnLine (headStarted between s.clc.line (answerQueued c s)) }
  cfu := if s.clc.tx.length < 24 then s.cfu else { s.cfu with lostReports := min 255 (s.cfu.lostReports + 1) }
  ctx := .replicate 4 .reset
  tcm := .reset
  rau := .reset }

theorem restart_of_own (between : Bool) {c : Cell} (own : c.dst ≠ allStations) (s : State) : restart c between (popCell s)
    = (beginScan (restarted between c s)).modCfu fun u => { u with
        state := .starting, alignSeen := isAligned (beginScan (restarted between c s)) } := by
  let a := sendAnswerWith c codeOk codeRestart (BitVec.ofNat 8 (holdingContexts (popCell s))) (popCell s)
  have takes : queueTakes s.clc.tx (restartAnswer c s) = decide (s.clc.tx.length < 24) :=
    queueTakes_of_plain_kind _ (by decide : isStreamKind kindAnswer = false) (by decide : kindAnswer ≠ kindClaim)
  have clc : a.clc = { s.clc with rx := (popCell s).clc.rx, tx := answerQueued c s } := by
    have effect : a.clc = if queueTakes s.clc.tx (restartAnswer c s) = true
        then { (popCell s).clc with tx := insertByPriority (freshTx (restartAnswer c s) 0) s.clc.tx } else (popCell s).clc := offerReport_clc ..
    rw [effect, takes, answerQueued]
    by_cases room : s.clc.tx.length < 24 <;> simp only [room, decide_true, decide_false, if_true, if_false, Bool.false_eq_true] <;> rfl
  have cfu : a.cfu = (restarted between c s).cfu := by
    have effect : a.cfu = if queueTakes s.clc.tx (restartAnswer c s) = true then s.cfu
        else { s.cfu with lostReports := min 255 (s.cfu.lostReports + 1) } := offerReport_cfu ..
    rw [effect, takes, restarted]
    by_cases room : s.clc.tx.length < 24 <;> simp only [room, decide_true, decide_false, if_true, if_false, Bool.false_eq_true]
  have only : StoreOnly (popCell s) a := storeOnly_offerReport ..
  have msc : a.msc = s.msc := offerReport_msc ..
  have ready : restartHighway { flushLine (if between then headGoesOut a else a) with ctx := .replicate 4 .reset, tcm := .reset, rau := .reset }
      = restarted between c s := by
    rw [headGoesOut_if]
    refine State.eq_of_blocks ?_ ?_ cfu rfl rfl msc rfl only.free only.pending
    · exact congrArg (fun h : Hwi => { h with channels := .replicate 32 .reset, prevTiming := none, hold := none }) only.hwi
    · change { Clc.reset with tx := keptOnLine (headStarted between a.clc.line a.clc.tx) } = _
      rw [clc]
      rfl
  have whole : restart c between (popCell s) = restartStation (if between then headGoesOut a else a) := if_neg own
  rw [whole, ← ready]
  rfl

theorem mem_keptOnLine {x : TxCell} {q : List TxCell} (mem : x ∈ keptOnLine q) : x.sending = true ∧ x.orphan = true := by
  obtain ⟨y, kept, rfl⟩ := List.mem_map.mp mem
  exact ⟨(List.mem_filter.mp kept).2, rfl⟩

theorem filter_keptOnLine (q : List TxCell) : (keptOnLine q).filter (·.sending) = keptOnLine q :=
  List.filter_eq_self.mpr fun _ mem => (mem_keptOnLine mem).1

/-- Settles O10: the state that the entry to SCANNING takes over, and what the walk of the records may add to it. -/
theorem restartKeepsAlignmentAndMemory : Obligations.RestartKeepsAlignmentAndMemory := by
  intro b s c q asked
  refine ⟨fun all => ?_, fun own => ?_⟩
  · exact handRequest_eq asked (if_pos all) (sendAnswer_quiet c codeBadField q)
  · have begun := scanBegun_beginScan (restarted b c s)
    have none_left : (∀ h, s.msg h = none) → beginScan (restarted b c s) = enterScanning (restarted b c s) :=
      fun free => beginScan_of_no_record (s := restarted b c s) free
    have effect := restart_of_own b own s
    generalize beginScan (restarted b c s) = z at *
    have quiet : (z.modCfu fun u => { u with state := .starting, alignSeen := isAligned z }).Quiet := congrArg Rau.notices begun.rau
    have hwi : z.hwi = { s.hwi with channels := .replicate 32 .reset, prevTiming := none, hold := none } := begun.hwi
    have aligned : isAligned z = isAligned s := by rw [isAligned, hwi, isAligned]
    have config : (restarted b c s).cfu = { s.cfu with lostReports := (restarted b c s).cfu.lostReports } := by
      rw [restarted]
      split <;> rfl
    have cfu := begun.cfu
    rw [config] at cfu
    have kind : c.kind = kindRestart := asked.1.2.1
    have kept := begun.tx
    refine ⟨_, handRequest_eq asked effect quiet, hwi, begun.tcm, fun k => ?contexts, begun.rau, ?line, ?queue, ?unit, ?store, ?records⟩
    case contexts =>
      have ctx : z.ctx = .replicate 4 .reset := begun.ctx
      exact (congrArg (fun b : Bank 4 Context => b.get k) ctx).trans (Bank.get_replicate ..)
    case line =>
      have clc : z.clc = { Clc.reset with tx := z.clc.tx } := begun.clc
      have orphans : ∀ x ∈ z.clc.tx, x.sending = true → x.orphan = true := fun x mem sending => by
        have stands : x ∈ z.clc.tx.filter (·.sending) := List.mem_filter.mpr ⟨mem, sending⟩
        rw [kept.sending] at stands
        exact (mem_keptOnLine (List.mem_of_mem_filter stands)).2
      change z.clc.rx = [] ∧ z.clc.line = .joining ∧ z.clc.run = 0 ∧ z.clc.badCheck = 0 ∧ z.clc.undelivered = 0 ∧ z.clc.held = []
        ∧ ∀ x ∈ z.clc.tx, x.sending = true → x.orphan = true
      refine ⟨?_, ?_, ?_, ?_, ?_, ?_, orphans⟩ <;> rw [clc] <;> rfl
    case queue =>
      intro answer queued started kept'
      have same : answer = restartAnswer c s := by rw [restartAnswer, kind]; rfl
      have asKept : kept' = keptOnLine (headStarted b s.clc.line (answerQueued c s)) := by
        rw [answerQueued, ← same]
        rfl
      rw [asKept]
      refine ⟨kept.sending.trans (filter_keptOnLine _), fun x mem idle => ?_, fun free => ?_⟩
      · rcases kept.waiting x mem idle with before | event
        · exact absurd ((mem_keptOnLine before).1.symm.trans idle) nofun
        · exact event
      · have nothing := none_left free
        subst nothing
        refine ⟨rfl, ?_, ?_, ?_⟩
        · exact (congrArg Cfu.faults config).trans rfl
        · exact (congrArg Cfu.overflow config).trans rfl
        · change (restarted b c s).cfu.lostReports = _
          rw [restarted]
          split <;> rfl
    case unit =>
      have fields : z.cfu = { s.cfu with
        faults := z.cfu.faults, overflow := z.cfu.overflow, lostReports := z.cfu.lostReports } := cfu
      have before : s.cfu.faults <+: z.cfu.faults := by
        have prior : (restarted b c s).cfu.faults = s.cfu.faults := by rw [config]
        rw [← prior]
        exact begun.faults
      change StationState.starting = .starting ∧ isAligned z = isAligned s ∧ z.cfu.config = s.cfu.config ∧ z.cfu.minute = s.cfu.minute
        ∧ z.cfu.subMinute = s.cfu.subMinute ∧ z.cfu.clockSet = s.cfu.clockSet ∧ z.cfu.stationTime = s.cfu.stationTime
        ∧ s.cfu.faults <+: z.cfu.faults
      refine ⟨rfl, aligned, ?_, ?_, ?_, ?_, ?_, before⟩ <;> rw [fields]
    case store =>
      have msc : z.msc = { s.msc with state := .scanning, freeList := [], lowMark := false, msgs := z.msc.msgs, claimed := z.msc.claimed } :=
        begun.msc
      change z.msc.state = .scanning ∧ z.msc.freeList = [] ∧ z.msc.lowMark = false ∧ z.msc.mem = s.msc.mem ∧ z.msc.links = s.msc.links
        ∧ z.msc.mbxs = s.msc.mbxs
      refine ⟨?_, ?_, ?_, ?_, ?_, ?_⟩ <;> rw [msc]
    case records => exact begun.records

end Sys2Proof.Machine
end

section
/-! PROOFS. The walk of one chain of the start-up scan: it is whole for a chain, and breaks where the chain does (R119). -/
namespace Sys2Proof.Machine

/-- Each block of a path but the last leads to the next by its link entry, and the last to END. -/
def Leads (links : List (Nat × Nat)) (path : List Nat) : Prop := ∀ i b, path[i]? = some b → Links.next links b = path[i + 1]?

/-- A part of a chain that a walk has passed, with the block that it leads to. -/
structure Passed (links : List (Nat × Nat)) (size : Nat) (good : List Nat) (b : Nat) : Prop where
  distinct : good.Nodup
  inStore : ∀ a ∈ good, 80 ≤ a ∧ a < size
  leads : ∀ i a, good[i]? = some a → Links.next links a = (good ++ [b])[i + 1]?

theorem Passed.nil (links : List (Nat × Nat)) (size b : Nat) : Passed links size [] b := ⟨List.nodup_nil, nofun, nofun⟩

theorem Passed.snoc {links : List (Nat × Nat)} {size : Nat} {good : List Nat} {b next : Nat} (h : Passed links size good b)
    (low : 80 ≤ b) (high : b < size) (new : b ∉ good) (leads : Links.next links b = some next) : Passed links size (good ++ [b]) next := by
  refine ⟨List.nodup_append.mpr ⟨h.distinct, List.nodup_singleton b, ?_⟩, fun a mem => ?_, fun i a found => ?_⟩
  · intro x mem y last same
    rw [List.mem_singleton.mp last] at same
    exact new (same ▸ mem)
  · rcases List.mem_append.mp mem with before | last
    · exact h.inStore a before
    · rw [List.mem_singleton.mp last]
      exact ⟨low, high⟩
  · rcases Nat.lt_trichotomy i good.length with inside | last | past
    · rw [List.getElem?_append_left inside] at found
      have short : i + 1 < (good ++ [b]).length := by rw [List.length_append, List.length_singleton]; omega
      exact (h.leads i a found).trans (List.getElem?_append_left short).symm
    · subst last
      rw [List.getElem?_concat_length] at found
      obtain rfl := Option.some.inj found
      rw [leads]
      have place : good.length + 1 = (good ++ [b]).length := by rw [List.length_append, List.length_singleton]
      rw [place, List.getElem?_concat_length]
    · rw [List.getElem?_eq_none (by rw [List.length_append, List.length_singleton]; omega)] at found
      cases found

/-- What the walk has found out when it ends. -/
def WalkEnds (links : List (Nat × Nat)) (size : Nat) (first last : Option Nat) (count : Nat) : Walk × List Nat → Prop
  | (.whole, mine) => mine.length = count ∧ mine.reverse.head? = first ∧ mine.head? = last ∧ mine.reverse.Nodup
      ∧ (∀ b ∈ mine, 80 ≤ b ∧ b < size) ∧ Leads links mine.reverse
  | (.broken b, _) => ∃ good, Passed links size good b ∧ (good ++ [b]).head? = first ∧ good.length < count
      ∧ (b < 80 ∨ size ≤ b ∨ b ∈ good
        ∨ if good.length + 1 = count then last ≠ some b ∨ Links.next links b ≠ none else Links.next links b = none)

theorem Passed.leads_to_end {links : List (Nat × Nat)} {size : Nat} {good : List Nat} {b : Nat} (h : Passed links size good b)
    (ends : Links.next links b = none) : Leads links (good ++ [b]) := by
  intro i a found
  rcases Nat.lt_trichotomy i good.length with inside | last | past
  · rw [List.getElem?_append_left inside] at found
    exact h.leads i a found
  · subst last
    rw [List.getElem?_concat_length] at found
    obtain rfl := Option.some.inj found
    rw [ends, List.getElem?_eq_none (by rw [List.length_append, List.length_singleton])]
  · rw [List.getElem?_eq_none (by rw [List.length_append, List.length_singleton]; omega)] at found
    cases found

section
variable {links : List (Nat × Nat)} {size : Nat} {last : Option Nat} {b : Nat} {mine : List Nat}

theorem walkChain_of_bad (n : Nat) (bad : b < 80 ∨ size ≤ b ∨ b ∈ mine) : walkChain links size last [] (n + 1) b mine = (.broken b, mine) := by
  have stops : (b < 80 || size ≤ b || b ∈ ([] : List Nat) || b ∈ mine) = true := by simpa [or_assoc] using bad
  unfold walkChain
  rw [if_pos stops]

theorem walkChain_of_last (fine : ¬(b < 80 ∨ size ≤ b ∨ b ∈ mine)) : walkChain links size last [] 1 b mine
    = if last = some b ∧ Links.next links b = none then (.whole, b :: mine) else (.broken b, b :: mine) := by
  have goes : (b < 80 || size ≤ b || b ∈ ([] : List Nat) || b ∈ mine) = false := by
    simpa [not_or, and_assoc] using fine
  simp only [walkChain, goes, Bool.false_eq_true, if_false, Bool.and_eq_true, decide_eq_true_eq, Option.isNone_iff_eq_none]

theorem walkChain_of_more (n : Nat) (fine : ¬(b < 80 ∨ size ≤ b ∨ b ∈ mine)) :
    (Links.next links b = none → walkChain links size last [] (n + 2) b mine = (.broken b, b :: mine))
      ∧ ∀ next, Links.next links b = some next →
        walkChain links size last [] (n + 2) b mine = walkChain links size last [] (n + 1) next (b :: mine) := by
  have goes : (b < 80 || size ≤ b || b ∈ ([] : List Nat) || b ∈ mine) = false := by
    simpa [not_or, and_assoc] using fine
  refine ⟨fun ends => ?_, fun next leads => ?_⟩
  · unfold walkChain
    simp only [goes, ends, Bool.false_eq_true, if_false]
  · conv_lhs => unfold walkChain
    simp only [goes, leads, Bool.false_eq_true, if_false]

end

/-- R119: how a walk ends that has passed a part of a chain, with the rest of its count to go. -/
theorem walkEnds_walkChain {links : List (Nat × Nat)} {size : Nat} {first last : Option Nat} {count : Nat} (n b : Nat) (mine : List Nat)
    (passed : Passed links size mine.reverse b) (head : (mine.reverse ++ [b]).head? = first) (left : mine.length + (n + 1) = count) :
    WalkEnds links size first last count (walkChain links size last [] (n + 1) b mine) := by
  induction n generalizing b mine with
  | zero =>
    have short : mine.reverse.length < count := by rw [List.length_reverse]; omega
    have isLast : mine.reverse.length + 1 = count := by rw [List.length_reverse]; omega
    by_cases bad : b < 80 ∨ size ≤ b ∨ b ∈ mine
    · rw [walkChain_of_bad 0 bad]
      exact ⟨mine.reverse, passed, head, short, bad.imp_right (Or.imp_right fun mem => Or.inl (List.mem_reverse.mpr mem))⟩
    · rw [walkChain_of_last bad]
      split
      next ends =>
        obtain ⟨named, ends⟩ := ends
        obtain ⟨low, bad⟩ := not_or.mp bad
        obtain ⟨high, new⟩ := not_or.mp bad
        refine ⟨left, by rw [List.reverse_cons]; exact head, named.symm, ?_, ?_, ?_⟩
        · rw [List.reverse_cons]
          exact List.nodup_append.mpr ⟨passed.distinct, List.nodup_singleton b,
            fun x mem y last same => new (List.mem_reverse.mp ((same.trans (List.mem_singleton.mp last)) ▸ mem))⟩
        · intro a mem
          rcases List.mem_cons.mp mem with rfl | before
          · exact ⟨Nat.le_of_not_lt low, Nat.lt_of_not_le high⟩
          · exact passed.inStore a (List.mem_reverse.mpr before)
        · rw [List.reverse_cons]
          exact passed.leads_to_end ends
      next wrong =>
        refine ⟨mine.reverse, passed, head, short, Or.inr (Or.inr (Or.inr ?_))⟩
        rw [if_pos isLast]
        exact not_and_or.mp wrong
  | succ n ih =>
    have short : mine.reverse.length < count := by rw [List.length_reverse]; omega
    have more : mine.reverse.length + 1 ≠ count := by rw [List.length_reverse]; omega
    by_cases bad : b < 80 ∨ size ≤ b ∨ b ∈ mine
    · rw [walkChain_of_bad (n + 1) bad]
      exact ⟨mine.reverse, passed, head, short, bad.imp_right (Or.imp_right fun mem => Or.inl (List.mem_reverse.mpr mem))⟩
    · obtain ⟨stops, goes⟩ := walkChain_of_more (last := last) (links := links) n bad
      cases follows : Links.next links b with
      | none =>
        rw [stops follows]
        refine ⟨mine.reverse, passed, head, short, Or.inr (Or.inr (Or.inr ?_))⟩
        rw [if_neg more]
        exact follows
      | some next =>
        obtain ⟨low, bad⟩ := not_or.mp bad
        obtain ⟨high, new⟩ := not_or.mp bad
        rw [goes next follows]
        refine ih next (b :: mine) ?_ ?_ (by rw [List.length_cons]; omega) <;> rw [List.reverse_cons]
        case refine_2 => rwa [List.head?_append_of_ne_nil _ (by simp)]
        exact passed.snoc (Nat.le_of_not_lt low) (Nat.lt_of_not_le high) (mt List.mem_reverse.mp new) follows

/-- R119: a walk along a chain is whole. -/
theorem walkChain_of_chain {links : List (Nat × Nat)} {size : Nat} {last : Option Nat} (n b : Nat) (mine rest : List Nat)
    (length : rest.length = n) (distinct : (mine.reverse ++ b :: rest).Nodup) (inStore : ∀ a ∈ b :: rest, 80 ≤ a ∧ a < size)
    (named : (b :: rest).getLast? = last) (leads : Leads links (b :: rest)) :
    walkChain links size last [] (n + 1) b mine = (.whole, rest.reverse ++ b :: mine) := by
  obtain ⟨low, high⟩ := inStore b List.mem_cons_self
  have new : b ∉ mine := by
    intro mem
    exact (List.nodup_append.mp distinct).2.2 b (List.mem_reverse.mpr mem) b List.mem_cons_self rfl
  have fine : ¬(b < 80 ∨ size ≤ b ∨ b ∈ mine) := by
    rintro (less | more | again)
    · omega
    · omega
    · exact new again
  induction rest generalizing n b mine with
  | nil =>
    subst length
    have ends : Links.next links b = none := leads 0 b rfl
    rw [List.length_nil, walkChain_of_last fine, if_pos ⟨named.symm, ends⟩]
    rfl
  | cons c rest ih =>
    subst length
    have follows : Links.next links b = some c := leads 0 b rfl
    obtain ⟨low', high'⟩ := inStore c (List.mem_cons_of_mem _ List.mem_cons_self)
    have distinct' : ((b :: mine).reverse ++ c :: rest).Nodup := by
      rw [List.reverse_cons, List.append_assoc]
      exact distinct
    have new' : c ∉ b :: mine := by
      intro mem
      exact (List.nodup_append.mp distinct').2.2 c (List.mem_reverse.mpr mem) c List.mem_cons_self rfl
    have fine' : ¬(c < 80 ∨ size ≤ c ∨ c ∈ b :: mine) := by
      rintro (less | more | again)
      · omega
      · omega
      · exact new' again
    rw [List.length_cons, (walkChain_of_more rest.length fine).2 c follows,
      ih rest.length c (b :: mine) rfl distinct' (fun a mem => inStore a (List.mem_cons_of_mem _ mem)) ((List.getLast?_cons_cons ..).symm.trans named)
        (fun i a found => leads (i + 1) a found) low' high' new' fine', List.reverse_cons, List.append_assoc]
    rfl

/-! ### One record alone in the message table (R119) -/

/-- R119: a chain of a record through data blocks of a store. -/
def IsChain (links : List (Nat × Nat)) (size : Nat) (m : Msg) (path : List Nat) : Prop :=
  path ≠ [] ∧ path.length = m.count
  ∧ path.head? = m.first ∧ path.getLast? = m.last ∧ path.Nodup ∧ (∀ b ∈ path, 80 ≤ b ∧ b < size) ∧ Leads links path

/-- R119: the block at which a record has no chain. -/
def BreaksAt (links : List (Nat × Nat)) (size : Nat) (m : Msg) (b : Nat) : Prop :=
  ∃ good : List Nat, (good ++ [b]).head? = m.first
  ∧ good.Nodup ∧ (∀ a ∈ good, 80 ≤ a ∧ a < size) ∧ (∀ i a, good[i]? = some a → Links.next links a = (good ++ [b])[i + 1]?)
  ∧ (m.count = 0 ∧ good = [] ∨ good.length < m.count
    ∧ (b < 80 ∨ size ≤ b ∨ b ∈ good
      ∨ if good.length + 1 = m.count then m.last ≠ some b ∨ Links.next links b ≠ none else Links.next links b = none))

theorem scanRecord_of_chain {s : State} {h : Nat} {m : Msg} {path : List Nat} (record : s.msgAt h = some m) (closed : m.state = .closed)
    (fresh : s.msc.claimed = []) (chain : IsChain s.msc.links (storeBlocks s) m path) :
    scanRecord h s = s.modMsc fun x => { x with claimed := path.reverse ++ x.claimed } := by
  obtain ⟨some_blocks, length, head, last, distinct, inStore, leads⟩ := chain
  obtain ⟨b, rest, rfl⟩ := List.exists_cons_of_ne_nil some_blocks
  have first : m.first = some b := head.symm
  have count : m.count = rest.length + 1 := length.symm
  have walk := walkChain_of_chain (links := s.msc.links) rest.length b [] rest rfl distinct inStore last leads
  simp only [scanRecord, record, closed, first, count, fresh, Nat.succ_ne_zero, if_true, if_false, walk, List.reverse_cons]

theorem scanRecord_of_broken {s : State} {h : Nat} {m : Msg} (record : s.msgAt h = some m) (closed : m.state = .closed)
    (fresh : s.msc.claimed = []) (broken : ∀ path, ¬ IsChain s.msc.links (storeBlocks s) m path) :
    ∃ subject, (if m.first = none then subject = 0 else BreaksAt s.msc.links (storeBlocks s) m subject)
      ∧ scanRecord h s = writeFault .storeInconsistent subject (s.setMsgAt h none) := by
  cases first : m.first with
  | none =>
    refine ⟨0, by rw [if_pos rfl], ?_⟩
    simp only [scanRecord, record, closed, first, if_true]
  | some b =>
    have named : ¬ some b = none := nofun
    simp only [named, if_false]
    cases count : m.count with
    | zero =>
      refine ⟨b, ⟨[], first.symm, List.nodup_nil, nofun, nofun, Or.inl ⟨count, rfl⟩⟩, ?_⟩
      simp only [scanRecord, record, closed, first, count, if_true]
    | succ n =>
      have ends := walkEnds_walkChain (links := s.msc.links) (size := storeBlocks s) (first := m.first) (last := m.last) (count := m.count)
        n b [] (.nil ..) first.symm (by rw [count, List.length_nil, Nat.zero_add])
      cases walk : walkChain s.msc.links (storeBlocks s) m.last [] (n + 1) b [] with
      | mk outcome mine =>
        rw [walk] at ends
        cases outcome with
        | whole =>
          obtain ⟨length, head, last, distinct, inStore, leads⟩ := ends
          refine absurd ⟨?_, ?_, head, ?_, distinct, fun a mem => inStore a (List.mem_reverse.mp mem), leads⟩ (broken mine.reverse)
          · intro empty
            rw [List.reverse_eq_nil_iff.mp empty, count] at length
            cases length
          · rw [List.length_reverse, length]
          · rw [List.getLast?_reverse, last]
        | broken x =>
          obtain ⟨good, passed, head, short, why⟩ := ends
          refine ⟨x, ⟨good, head, passed.distinct, passed.inStore, passed.leads, Or.inr ⟨short, why⟩⟩, ?_⟩
          simp only [scanRecord, record, closed, first, count, fresh, Nat.succ_ne_zero, if_true, if_false, walk]

/-- A sweep of which one step alone acts. -/
theorem forEach_acts_once {α : Type} {step : α → State → State} {s : State} {xs : List α} {x : α} (mem : x ∈ xs) (distinct : xs.Nodup)
    (before : ∀ y ∈ xs, y ≠ x → step y s = s) (after : ∀ y ∈ xs, y ≠ x → step y (step x s) = step x s) :
    forEach xs step s = step x s := by
  induction xs with
  | nil => cases mem
  | cons y ys ih =>
    obtain ⟨new, distinct⟩ := List.nodup_cons.mp distinct
    by_cases same : y = x
    · subst same
      exact forEach_of_standing fun z later => after z (List.mem_cons_of_mem _ later) (ne_of_mem_of_not_mem later new)
    · have stands : step y s = s := before y List.mem_cons_self same
      have rest := ih ((List.mem_cons.mp mem).resolve_left (Ne.symm same)) distinct (fun z later => before z (List.mem_cons_of_mem _ later))
        fun z later => after z (List.mem_cons_of_mem _ later)
      exact (congrArg (forEach ys step) stands).trans rest

/-- R119: the walk over a message table with one record alone. -/
theorem beginScan_of_one {s : State} {h : Handle} (alone : ∀ j, j ≠ h → s.msg j = none) :
    beginScan s = scanRecord h.val (enterScanning s) := by
  have free {j : Nat} (mem : j ∈ List.range 512) (other : j ≠ h.val) : (enterScanning s).msgAt j = none := by
    have lt := List.mem_range.mp mem
    rw [msgAt_enterScanning, msgAt_of_lt lt, alone ⟨j, lt⟩ (fun same => other (congrArg Fin.val same))]
    rfl
  rw [beginScan]
  refine forEach_acts_once (List.mem_range.mpr h.isLt) List.nodup_range (fun j mem other => scanRecord_of_free (free mem other))
    fun j mem other => scanRecord_of_free ?_
  by_contra found
  obtain ⟨m, record⟩ := Option.ne_none_iff_exists'.mp found
  exact absurd ((scans_scanRecord h.val _).records j m record) (by rw [free mem other]; nofun)

end Sys2Proof.Machine
end

section
/-! PROOFS. A loss of power before the first write of the store, and within an append, a delete or the close of a greeting
(R102). -/
namespace Sys2Proof.Machine

/-! ### What POWER_ON takes over (R43) -/

/-- The state that the entry to SCANNING of a POWER_ON takes over. -/
def poweredUp (station : Fin 8) (storeSize : Fin 4) (s : State) : State := { State.reset with
  cfu := .reset station storeSize
  msc := { Msc.reset with links := s.msc.links, msgs := s.msc.msgs, mbxs := s.msc.mbxs, mem := s.msc.mem }
  free := s.free
  pending := s.pending }

theorem powerOn_eq (station : Fin 8) (storeSize : Fin 4) (s : State) :
    powerOn station storeSize s = beginScan (poweredUp station storeSize s) := rfl

/-- Two stations with the same message memory but for the readers, which do not outlast the power. -/
structure SameMemory (s t : State) : Prop where
  links : t.msc.links = s.msc.links
  mbxs : t.msc.mbxs = s.msc.mbxs
  mem : t.msc.mem = s.msc.mem
  free : t.free = s.free
  pending : t.pending = s.pending
  records : ∀ h, (t.msgAt h).map unread = (s.msgAt h).map unread

namespace SameMemory

variable {station : Fin 8} {storeSize : Fin 4}

theorem refl (s : State) : SameMemory s s := ⟨rfl, rfl, rfl, rfl, rfl, fun _ => rfl⟩

theorem trans {s t u : State} (a : SameMemory s t) (b : SameMemory t u) : SameMemory s u :=
  ⟨b.links.trans a.links, b.mbxs.trans a.mbxs, b.mem.trans a.mem, b.free.trans a.free, b.pending.trans a.pending,
    fun h => (b.records h).trans (a.records h)⟩

/-- The working state of the store is not of its memory. -/
theorem of_working {s t : State} (only : StoreOnly s t)
    (msc : t.msc = { s.msc with freeList := t.msc.freeList, lowMark := t.msc.lowMark, claimed := t.msc.claimed }) : SameMemory s t :=
  ⟨by rw [msc], by rw [msc], by rw [msc], only.free, only.pending, fun h => congrArg _ (msgAt_congr (by rw [msc]) h)⟩

theorem enterScanning (s : State) : SameMemory s (enterScanning s) :=
  ⟨rfl, rfl, rfl, rfl, rfl, fun h => by
    rw [msgAt_enterScanning]
    cases s.msgAt h <;> rfl⟩

theorem scanned {s t : State} (a : SameMemory s t) : Machine.enterScanning (poweredUp station storeSize t)
    = Machine.enterScanning (poweredUp station storeSize s) := by
  have msgs : t.msc.msgs.map (Option.map unread) = s.msc.msgs.map (Option.map unread) := by
    refine Bank.ext_get fun h => ?_
    have record := a.records h.val
    rw [msgAt_of_lt h.isLt, msgAt_of_lt h.isLt] at record
    rw [Bank.get_map, Bank.get_map]
    exact record
  change { poweredUp station storeSize t with msc := { Msc.reset with
      state := .scanning, freeList := [], lowMark := false, claimed := []
      links := t.msc.links, msgs := t.msc.msgs.map (Option.map unread), mbxs := t.msc.mbxs, mem := t.msc.mem } } = _
  rw [poweredUp, a.links, a.mbxs, a.mem, a.free, a.pending, msgs]
  rfl

/-- R43, R119: POWER_ON reads no more than the message memory. -/
theorem powerOn {s t : State} (a : SameMemory s t) : Machine.powerOn station storeSize t = Machine.powerOn station storeSize s := by
  rw [powerOn_eq, powerOn_eq, beginScan, beginScan, a.scanned]

end SameMemory

/-! ### A loss of power before the first write (R102) -/

/-- R46: a fault leaves the store. -/
theorem writeFault_msc (kind : FaultKind) (subject : Nat) (s : State) : (writeFault kind subject s).msc = s.msc := by
  unfold writeFault
  split <;> simp

theorem sameMemory_freeBlocks (bs : List Nat) (s : State) : SameMemory s (freeBlocks bs s) :=
  .of_working (storeOnly_freeBlocks bs s) (by rw [freeBlocks_msc])

theorem sameMemory_takeFreeBlock (s : State) : SameMemory s (takeFreeBlock s) := by
  refine .of_working ((storeOnly_modMsc _ s).trans (storeOnly_examineLevel _)) ?_
  rw [takeFreeBlock, examineLevel_msc]
  rfl

theorem msgAt_discarded (h subject : Nat) (s : State) :
    (writeFault .storeInconsistent subject (s.setMsgAt h none)).msgAt h = none := by
  refine Option.eq_none_iff_forall_ne_some.mpr fun m found => ?_
  have before := (scans_writeFault ..).records h m found
  rw [msgAt_setMsgAt (lt_of_msgAt before)] at before
  cases before

/-- R119: a record that stands has at most had its blocks claimed. -/
theorem sameMemory_scanRecord {h : Nat} {s : State} (same : (scanRecord h s).msgAt h = s.msgAt h) : SameMemory s (scanRecord h s) := by
  have discarded {m : Msg} (record : s.msgAt h = some m) (subject : Nat)
      (same : (writeFault .storeInconsistent subject (s.setMsgAt h none)).msgAt h = s.msgAt h) :
      SameMemory s (writeFault .storeInconsistent subject (s.setMsgAt h none)) := by
    rw [msgAt_discarded, record] at same
    cases same
  revert same
  unfold scanRecord
  split
  next => exact fun _ => .refl s
  next m record =>
    split
    · split
      next => exact discarded record _
      next =>
        split
        · exact discarded record _
        · split
          next => exact fun _ => .of_working (storeOnly_modMsc _ s) rfl
          next => exact discarded record _
    · intro same
      rw [msgAt_setMsgAt (lt_of_msgAt record), record] at same
      cases same

/-- A station whose power goes before the next write, after no write. -/
structure Unwritten (s : State) (c : Cut) : Prop where
  left : c.left = 0
  memory : SameMemory s c.s

namespace Unwritten

variable {s : State} {c : Cut}

theorem write (a : Unwritten s c) (w : State → State) : Unwritten s (c.write w) := by
  rw [Cut.write, a.left]
  exact a

theorem work (a : Unwritten s c) {w : State → State} (same : SameMemory c.s (w c.s)) : Unwritten s (c.work w) :=
  ⟨a.left, a.memory.trans same⟩

theorem cutEach {α : Type} {f : α → Cut → Cut} (step : ∀ x c, Unwritten s c → Unwritten s (f x c)) (xs : List α) (a : Unwritten s c) :
    Unwritten s (cutEach xs f c) := by
  induction xs generalizing c with
  | nil => exact a
  | cons x xs ih => exact ih (step x c a)

theorem cutDelete (h : Nat) (a : Unwritten s c) : Unwritten s (cutDelete h c) := by
  unfold Machine.cutDelete
  split
  · exact a
  · exact (a.write _).write _

theorem cutRemove (number : Nat) (a : Unwritten s c) : Unwritten s (cutRemove number c) := by
  unfold Machine.cutRemove
  split
  · exact a
  · exact (Unwritten.cutEach (fun h _ => cutDelete h) _ a).write _

theorem cutOpen (mailbox : Nat) (kind : Option MsgKind) (w : Writer) (a : Unwritten s c) : Unwritten s (cutOpen mailbox kind w c) := by
  unfold Machine.cutOpen
  split
  · exact (a.write _).write _
  · exact a

theorem cutShorten (h n : Nat) (a : Unwritten s c) : Unwritten s (cutShorten h n c) := by
  unfold Machine.cutShorten
  split
  · exact a
  · dsimp only
    refine work ?_ (sameMemory_freeBlocks ..)
    split
    · exact (a.write _).write _
    · exact a.write _

theorem cutFile (h : Nat) (m : Msg) (a : Unwritten s c) : Unwritten s (cutFile h m c) := by
  unfold Machine.cutFile
  refine write ?_ _
  split
  · split
    · exact a.cutDelete _
    · exact a
  · exact a

theorem cutClose (h : Nat) (reason : Byte) (a : Unwritten s c) : Unwritten s (cutClose h reason c) := by
  unfold Machine.cutClose
  split
  · exact a
  next m _ =>
    have kept : Unwritten s (if keptRecord m (keptCount c.s m reason) reason = m then c
        else c.write fun s => s.setMsgAt h (some (keptRecord m (keptCount c.s m reason) reason))) := by
      split
      · exact a
      · exact a.write _
    dsimp only
    split
    · exact (a.write _).write _
    · refine write (cutFile _ _ ?_) _
      split
      · exact kept.cutShorten _ _
      · exact kept

theorem cutAppend (h : Nat) (block : List Byte) (samples : Nat) (a : Unwritten s c) : Unwritten s (cutAppend h block samples c) := by
  unfold Machine.cutAppend
  split
  · exact a
  · exact a.cutClose _ _
  · refine write ?_ _
    have linked := ((a.work (sameMemory_takeFreeBlock c.s)).write (writeData ‹_› block)).write (setLink ‹_› none)
    split
    · exact linked.write _
    · exact linked

theorem cutScanRecord (h : Nat) (a : Unwritten s c) : Unwritten s (cutScanRecord h c) := by
  unfold Machine.cutScanRecord
  split
  next same => exact a.work (sameMemory_scanRecord same)
  · exact a.write _

theorem cutScanMailbox (number : Nat) (a : Unwritten s c) : Unwritten s (cutScanMailbox number c) := by
  unfold Machine.cutScanMailbox
  split
  · split
    · exact a
    · exact a.write _
  · exact a

theorem cutScan (a : Unwritten s c) : Unwritten s (cutScan c) := by
  unfold Machine.cutScan
  exact cutEach (fun n _ => cutScanMailbox n) _ (cutEach (fun h _ => cutScanRecord h) _ (a.work (SameMemory.enterScanning c.s)))

theorem cutOp (op : StoreOp) (a : Unwritten s c) : Unwritten s (cutOp op c) := by
  unfold Machine.cutOp
  split
  next =>
    split
    · exact a.write _
    · exact a
  next =>
    split
    · exact a.cutRemove _
    · exact a
  next => exact a.cutOpen _ _ _
  next => exact a.cutAppend _ _ _
  next =>
    split
    · exact a.write _
    · exact a
  next =>
    unfold cutRollBack
    split
    · split
      · exact a.cutShorten _ _
      · exact a
    · exact a
  next =>
    split
    · exact a.cutClose _ _
    · exact a
  next =>
    unfold cutMark
    split
    · split
      · exact a.cutDelete _
      · exact a.write _
    · exact a
  next => exact a.write _
  next => exact a.cutScan

end Unwritten

/-- R102: a loss of power with no write done leaves the message memory. -/
theorem sameMemory_interrupted {loss : PowerLoss} (none_done : loss.ops = [] ∨ loss.writes = 0) (s : State) :
    SameMemory s (interrupted loss s) := by
  rcases none_done with no_ops | no_writes
  · rw [interrupted, no_ops]
    exact .refl s
  · exact (Unwritten.cutEach (fun op _ => Unwritten.cutOp op) loss.ops ⟨no_writes, .refl s⟩).memory

/-! ### Within one operation (R111, R114, R117) -/

theorem interrupted_of_one {loss : PowerLoss} {op : StoreOp} (only : loss.ops = [op]) (s : State) :
    interrupted loss s = (cutOp op ⟨loss.writes, s⟩).s := by
  rw [interrupted, only]
  rfl

theorem openRecord_of_opened {s : State} {h : Nat} {m : Msg} {w : Writer} (ready : s.msc.state = .ready) (record : s.msgAt h = some m)
    (opened : m.state = .opened) (writer : m.writer = some w) : openRecord s h = some (m, w) := by
  rw [openRecord, record, Option.bind_some, writer, Option.bind_some, openUnder_of_opened record ready opened writer]
  rfl

/-- R111: a loss of power within an append: the block, its link entry, the link entry of the last block, then the record. -/
structure AppendCut (h : Nat) (b l writes : Nat) (block : List Byte) (s u : State) : Prop where
  record : ∀ m, u.msgAt h = some m → m.state = .opened
  mbxs : u.msc.mbxs = s.msc.mbxs
  mem : u.msc.mem = if writes = 0 then s.msc.mem else Memory.writeBlock b block s.msc.mem
  links : u.msc.links = if writes ≤ 1 then s.msc.links else if writes = 2 then Links.set b none s.msc.links
    else Links.set l (some b) (Links.set b none s.msc.links)

theorem appendCut_cutAppend {s : State} {h b l : Nat} {rest : List Nat} {m : Msg} {w : Writer} (ready : s.msc.state = .ready)
    (record : s.msgAt h = some m) (opened : m.state = .opened) (writer : m.writer = some w) (free : s.msc.freeList = b :: rest)
    (last : m.last = some l) (block : List Byte) (samples writes : Nat) :
    AppendCut h b l writes block s (cutAppend h block samples ⟨writes, s⟩).s := by
  have found := openRecord_of_opened ready record opened writer
  have taken : SameMemory s (takeFreeBlock s) := sameMemory_takeFreeBlock s
  have msgs : (takeFreeBlock s).msc.msgs = s.msc.msgs := by
    rw [takeFreeBlock, examineLevel_msc]
    rfl
  simp only [cutAppend, found, free, last]
  have still (x : Msg) (f : Msc → Msc) (msgs : (f (takeFreeBlock s).msc).msgs = s.msc.msgs)
      (there : ((takeFreeBlock s).modMsc f).msgAt h = some x) : x.state = .opened := by
    rw [msgAt_congr msgs, record] at there
    obtain rfl := Option.some.inj there
    exact opened
  have mem : Memory.writeBlock b block (takeFreeBlock s).msc.mem = Memory.writeBlock b block s.msc.mem := congrArg _ taken.mem
  have ended : Links.set b none (takeFreeBlock s).msc.links = Links.set b none s.msc.links := congrArg _ taken.links
  have linked : Links.set l (some b) (Links.set b none (takeFreeBlock s).msc.links) = Links.set l (some b) (Links.set b none s.msc.links) :=
    congrArg _ ended
  match writes with
  | 0 => exact ⟨fun x => still x id msgs, taken.mbxs, taken.mem, taken.links⟩
  | 1 => exact ⟨fun x => still x (fun y => { y with mem := Memory.writeBlock b block y.mem }) msgs, taken.mbxs, mem, taken.links⟩
  | 2 =>
    exact ⟨fun x => still x (fun y => { y with mem := Memory.writeBlock b block y.mem, links := Links.set b none y.links }) msgs,
      taken.mbxs, mem, ended⟩
  | 3 =>
    exact ⟨fun x => still x (fun y => { y with
      mem := Memory.writeBlock b block y.mem, links := Links.set l (some b) (Links.set b none y.links) }) msgs, taken.mbxs, mem, linked⟩
  | n + 4 =>
    have written := setMsgAt_msc h (some (appendRecord m b block samples))
      (setLink l (some b) (setLink b none (writeData b block (takeFreeBlock s))))
    refine ⟨fun x there => ?_, (congrArg Msc.mbxs written).trans taken.mbxs,
      (congrArg Msc.mem written).trans (mem.trans (if_neg (Nat.succ_ne_zero _)).symm),
      (congrArg Msc.links written).trans (linked.trans ?_)⟩
    · obtain rfl := Option.some.inj (there.symm.trans (msgAt_setMsgAt (lt_of_msgAt record) ..))
      exact opened
    · rw [if_neg (by omega), if_neg (by omega)]

/-- R117: a loss of power within a delete: the record, then the mailbox. -/
theorem cutDelete_of_record {s : State} {h : Nat} {m : Msg} (record : s.msgAt h = some m) (n : Nat) :
    cutDelete h ⟨1, s⟩ = ⟨0, deleteRecord h s⟩ ∧ cutDelete h ⟨n + 2, s⟩ = ⟨n, deleteMessage h s⟩ := by
  simp only [cutDelete, record, deleteMessage_eq record]
  exact ⟨rfl, rfl⟩

/-- What a delete leaves of a message without readers, with its mailbox's entry or without. -/
structure DeleteCut (h : Nat) (mbxs : List Mbx) (s u : State) : Prop where
  record : u.msgAt h = none
  others : ∀ j, j ≠ h → u.msgAt j = s.msgAt j
  mbxs : u.msc.mbxs = mbxs
  mem : u.msc.mem = s.msc.mem
  links : u.msc.links = s.msc.links
  only : StoreOnly s u

theorem deleteCut_deleteRecord {s : State} {h : Nat} {m : Msg} (record : s.msgAt h = some m) (unused : m.readers = []) :
    DeleteCut h s.msc.mbxs s (deleteRecord h s) := by
  have gone : deletedRecord m = none := if_pos unused
  have msc := deleteRecord_msc record
  have msgs : (deleteRecord h s).msc.msgs = (s.setMsgAt h none).msc.msgs := by rw [msc, gone]
  refine ⟨?_, fun j other => ?_, by rw [msc], by rw [msc], by rw [msc], storeOnly_deleteRecord h s⟩
  · rw [msgAt_congr msgs, msgAt_setMsgAt (lt_of_msgAt record)]
  · rw [msgAt_congr msgs, msgAt_setMsgAt_ne other]

theorem deleteCut_deleteMessage {s : State} {h : Nat} {m : Msg} (record : s.msgAt h = some m) (unused : m.readers = []) :
    DeleteCut h (s.msc.mbxs.map (unlisted m.mailbox h)) s (deleteMessage h s) := by
  have msc := deleteMessage_msc record
  refine ⟨?_, fun j other => msgAt_deleteMessage_ne other s, by rw [msc], by rw [msc], by rw [msc], storeOnly_deleteMessage h s⟩
  rw [msgAt_deleteMessage record]
  exact if_pos unused

theorem deleteCut_cutDelete {s : State} {h : Nat} {m : Msg} (record : s.msgAt h = some m) (unused : m.readers = []) (n : Nat) :
    DeleteCut h (if n + 1 = 1 then s.msc.mbxs else s.msc.mbxs.map (unlisted m.mailbox h)) s (cutDelete h ⟨n + 1, s⟩).s := by
  cases n with
  | zero =>
    rw [(cutDelete_of_record record 0).1]
    exact deleteCut_deleteRecord record unused
  | succ n =>
    rw [(cutDelete_of_record record n).2]
    exact deleteCut_deleteMessage record unused

/-- R117: a mark DELETE that is taken is a delete. -/
theorem cutMark_of_delete {s : State} {h : Handle} {m : Msg} (record : s.msgAt h.val = some m) (ready : s.msc.state = .ready)
    (configured : s.cfu.config.isSome = true) (closed : m.state = .closed) (writes : Nat) :
    cutMark h.val (some .delete) ⟨writes, s⟩ = cutDelete h.val ⟨writes, s⟩ := by
  have taken : (markMessage h.val (some .delete) s).2 = codeOk := by
    have named : ¬ 511 < h.val := by omega
    have config : s.cfu.config.isNone = false := by rw [Option.isNone_eq_false_iff]; exact configured
    simp only [markMessage, named, ready, config, record, closed, reduceCtorEq, if_false, Bool.false_eq_true]
  simp only [cutMark, taken, if_true]

/-- R113, R114: a close of a GREETING that neither trims nor truncates leaves the record to its last write. -/
theorem cutClose_of_greeting {s : State} {h old : Nat} {m : Msg} {box : Mbx} {reason : Byte} (record : s.msgAt h = some m)
    (kind : m.kind = .greeting) (some_blocks : 0 < m.count) (plain : trims reason = false ∧ truncates .greeting reason = false)
    (mailbox : mailbox? s m.mailbox = some box) (greeting : box.greeting = some old) (writes : Nat) :
    cutClose h reason ⟨writes, s⟩
      = ((cutDelete old ⟨writes, s⟩).write (modMailbox m.mailbox (fileIn h .greeting))).write (closeRecord h) := by
  obtain ⟨untrimmed, untruncated⟩ := plain
  have keep : keptCount s m reason = m.count := keptCount_of_untrimmed (by rw [kind]; nofun) untrimmed
  have same : keptRecord m m.count reason = m := by
    simp only [keptRecord, kind, untruncated, Nat.lt_irrefl, decide_false, Bool.and_false, Bool.false_eq_true, if_false, Bool.or_false]
    rw [← kind]
  simp only [cutClose, record, keep, same, Nat.pos_iff_ne_zero.mp some_blocks, Nat.lt_irrefl, cutFile, kind, mailbox, Option.bind_some,
    greeting, if_true, if_false]

/-- R114: a mailbox record that has taken a greeting. -/
def greeted (mailbox h : Nat) (b : Mbx) : Mbx := if b.number = mailbox then { b with greeting := some h, greetingOpen := false } else b

/-- R114: a loss of power within the close of a GREETING, from its first write on: the old greeting's delete, the mailbox, then the
record. -/
structure GreetingCut (h old writes : Nat) (m : Msg) (s u : State) : Prop where
  replaced : u.msgAt old = none
  record : u.msgAt h = if writes ≤ 3 then some m
    else some { m with state := .closed, stamp := some s.cfu.minute, writer := none }
  mem : u.msc.mem = s.msc.mem
  links : u.msc.links = s.msc.links
  mbxs : u.msc.mbxs = if writes = 1 then s.msc.mbxs else if writes = 2 then s.msc.mbxs.map (unlisted m.mailbox old)
    else (s.msc.mbxs.map (unlisted m.mailbox old)).map (greeted m.mailbox h)

theorem greetingCut_of_cutDelete {s : State} {h old : Nat} {m o : Msg} (record : s.msgAt h = some m) (other : old ≠ h)
    (oldRecord : s.msgAt old = some o) (unused : o.readers = []) (mailbox : o.mailbox = m.mailbox) (n : Nat) :
    GreetingCut h old (n + 1) m s
      (((cutDelete old ⟨n + 1, s⟩).write (modMailbox m.mailbox (fileIn h .greeting))).write (closeRecord h)).s := by
  have one := deleteCut_deleteRecord oldRecord unused
  have two := deleteCut_deleteMessage oldRecord unused
  rw [mailbox] at two
  have stands := (two.others h (Ne.symm other)).trans record
  match n with
  | 0 =>
    rw [(cutDelete_of_record oldRecord 0).1]
    exact ⟨one.record, (one.others h (Ne.symm other)).trans record, one.mem, one.links, one.mbxs⟩
  | 1 =>
    rw [(cutDelete_of_record oldRecord 0).2]
    exact ⟨two.record, stands, two.mem, two.links, two.mbxs⟩
  | 2 =>
    rw [(cutDelete_of_record oldRecord 1).2]
    exact ⟨two.record, stands, two.mem, two.links, congrArg (List.map (greeted m.mailbox h)) two.mbxs⟩
  | n + 3 =>
    rw [(cutDelete_of_record oldRecord (n + 2)).2]
    generalize deleteMessage old s = v at *
    let t := modMailbox m.mailbox (fileIn h .greeting) v
    have filed : t.msgAt h = some m := stands
    have closed : closeRecord h t = t.setMsgAt h (some { m with state := .closed, stamp := some v.cfu.minute, writer := none }) := by
      simp only [closeRecord, filed]
      rfl
    have minute : v.cfu.minute = s.cfu.minute := by rw [two.only.cfu]
    have written := setMsgAt_msc h (some { m with state := .closed, stamp := some v.cfu.minute, writer := none }) t
    change GreetingCut h old (n + 4) m s (closeRecord h t)
    rw [closed]
    refine ⟨(msgAt_setMsgAt_ne other ..).trans two.record, (msgAt_setMsgAt (lt_of_msgAt record) ..).trans ?_,
      (congrArg Msc.mem written).trans two.mem, (congrArg Msc.links written).trans two.links, (congrArg Msc.mbxs written).trans ?_⟩
    · rw [if_neg (by omega), minute]
    · rw [if_neg (by omega), if_neg (by omega)]
      exact congrArg (List.map (greeted m.mailbox h)) two.mbxs

end Sys2Proof.Machine
end

section
/-! PROOFS. POWER_ON (R19, R36, R43, R69, R70, R102, R119). -/
namespace Sys2Proof.Machine

section
variable {station : Fin 8} {storeSize : Fin 4} {u : State} {h : Handle} {m : Msg}

theorem record_poweredUp (record : u.msg h = some m) :
    (enterScanning (poweredUp station storeSize u)).msgAt h.val = some (unread m) := by
  rw [msgAt_enterScanning, msgAt_of_lt h.isLt]
  exact congrArg (Option.map unread) record

/-- R119: a record alone in the table with a chain is kept. -/
theorem powerOn_of_chain (alone : ∀ j, j ≠ h → u.msg j = none) (record : u.msg h = some m) (closed : m.state = .closed) {path : List Nat}
    (chain : IsChain u.msc.links (1024 * 2 ^ storeSize.val) m path) :
    powerOn station storeSize u
      = (enterScanning (poweredUp station storeSize u)).modMsc fun x => { x with claimed := path.reverse ++ x.claimed } := by
  rw [powerOn_eq, beginScan_of_one (s := poweredUp station storeSize u) alone]
  exact scanRecord_of_chain (record_poweredUp record) closed rfl chain

/-- R119: a record alone in the table without a chain is discarded, with a fault. -/
theorem powerOn_of_broken (alone : ∀ j, j ≠ h → u.msg j = none) (record : u.msg h = some m) (closed : m.state = .closed)
    (broken : ∀ path, ¬ IsChain u.msc.links (1024 * 2 ^ storeSize.val) m path) :
    ∃ subject, (if m.first = none then subject = 0 else BreaksAt u.msc.links (1024 * 2 ^ storeSize.val) m subject)
      ∧ powerOn station storeSize u
        = writeFault .storeInconsistent subject ((enterScanning (poweredUp station storeSize u)).setMsgAt h.val none) := by
  rw [powerOn_eq, beginScan_of_one (s := poweredUp station storeSize u) alone]
  exact scanRecord_of_broken (record_poweredUp record) closed rfl broken

end

/-- R119: no record stands after the walk whose message is not CLOSED. -/
theorem ScanBegun.gone {s t : State} (begun : ScanBegun s t) {h : Handle} (unfinished : ∀ m, s.msg h = some m → m.state ≠ .closed) :
    t.msg h = none := by
  refine Option.eq_none_iff_forall_ne_some.mpr fun m found => ?_
  obtain ⟨closed, m0, before, same⟩ := begun.records h m found
  rw [same] at closed
  exact unfinished m0 before closed

/-- What POWER_ON leaves in the blocks other than the store, and of the store's working state. -/
structure PoweredOn (station : Fin 8) (storeSize : Fin 4) (u t : State) : Prop where
  hwi : t.hwi = .reset
  clc : t.clc = { Clc.reset with tx := t.clc.tx }
  cfu : t.cfu = { Cfu.reset station storeSize with
    faults := t.cfu.faults, overflow := t.cfu.overflow, lostReports := t.cfu.lostReports }
  tcm : t.tcm = .reset
  ctx : t.ctx = .replicate 4 .reset
  rau : t.rau = .reset
  msc : t.msc = { Msc.reset with
    state := .scanning, freeList := [], lowMark := false, links := u.msc.links, mbxs := u.msc.mbxs, mem := u.msc.mem
    msgs := t.msc.msgs, claimed := t.msc.claimed }

theorem poweredOn_powerOn (station : Fin 8) (storeSize : Fin 4) (u : State) :
    PoweredOn station storeSize u (powerOn station storeSize u) := by
  rw [powerOn_eq]
  have begun := scanBegun_beginScan (poweredUp station storeSize u)
  generalize beginScan (poweredUp station storeSize u) = t at *
  exact ⟨begun.hwi, begun.clc, begun.cfu, begun.tcm, begun.ctx, begun.rau, begun.msc⟩

/-- R43, R119: what a POWER_ON finds of one message alone in the table. -/
theorem one_record_of_powerOn {station : Fin 8} {storeSize : Fin 4} {u : State} {h : Handle} {m : Msg} (alone : ∀ j, j ≠ h → u.msg j = none)
    (record : u.msg h = some m) (closed : m.state = .closed) :
    (∀ path, IsChain u.msc.links (1024 * 2 ^ storeSize.val) m path → (powerOn station storeSize u).msg h = some (unread m)
      ∧ (powerOn station storeSize u).cfu.faults = [] ∧ (powerOn station storeSize u).clc.tx = []
      ∧ ∀ b, b ∈ (powerOn station storeSize u).msc.claimed ↔ b ∈ path)
    ∧ ((∀ path, ¬ IsChain u.msc.links (1024 * 2 ^ storeSize.val) m path) → (powerOn station storeSize u).msg h = none
      ∧ (powerOn station storeSize u).msc.claimed = []
      ∧ ∃ subject, (if m.first = none then subject = 0 else BreaksAt u.msc.links (1024 * 2 ^ storeSize.val) m subject)
        ∧ (powerOn station storeSize u).cfu.faults = [{ kind := .storeInconsistent, subject, stamp := 0, clockSet := false }]) := by
  refine ⟨fun path chain => ?_, fun broken => ?_⟩
  · rw [powerOn_of_chain alone record closed chain]
    have kept := record_poweredUp (station := station) (storeSize := storeSize) record
    rw [msgAt_of_lt h.isLt] at kept
    refine ⟨kept, rfl, rfl, fun b => ?_⟩
    change b ∈ path.reverse ++ [] ↔ b ∈ path
    rw [List.append_nil, List.mem_reverse]
  · obtain ⟨subject, why, effect⟩ := powerOn_of_broken (station := station) alone record closed broken
    have gone := msgAt_discarded h.val subject (enterScanning (poweredUp station storeSize u))
    rw [msgAt_of_lt h.isLt] at gone
    have cfu : ((enterScanning (poweredUp station storeSize u)).setMsgAt h.val none).cfu = .reset station storeSize := by
      rw [setMsgAt_eq]
      rfl
    have claimed : ((enterScanning (poweredUp station storeSize u)).setMsgAt h.val none).msc.claimed = [] := by
      rw [setMsgAt_eq]
      rfl
    have faults := writeFault_faults .storeInconsistent subject (s := (enterScanning (poweredUp station storeSize u)).setMsgAt h.val none)
      (by rw [cfu]; exact Nat.zero_lt_succ 7)
    rw [cfu] at faults
    rw [effect]
    exact ⟨gone, (congrArg Msc.claimed (writeFault_msc ..)).trans claimed, subject, why, faults⟩

theorem unlisted_eq (mailbox h : Nat) : unlisted mailbox h = fun x => if x.number = mailbox then { x with
    list := x.list.filter (· ≠ h), greeting := x.greeting.filter (· ≠ h) } else x := by
  have same : (fun x : Nat => x != h) = fun x => decide (x ≠ h) := by
    funext x
    by_cases e : x = h <;> simp [e]
  funext x
  rw [unlisted, same]

/-- Settles O9: the state that the entry to SCANNING takes over, the walk over one record alone, and the store's operations write by
write. -/
theorem powerOnSetsEveryBlock : Obligations.PowerOnSetsEveryBlock := by
  intro station storeSize loss s u
  have begun := scanBegun_beginScan (poweredUp station storeSize u)
  rw [← powerOn_eq] at begun
  have on := poweredOn_powerOn station storeSize u
  have none_left (free : ∀ h, u.msg h = none) : powerOn station storeSize u = enterScanning (poweredUp station storeSize u) :=
    beginScan_of_no_record (s := poweredUp station storeSize u) free
  have entry (c : Channel) : (powerOn station storeSize u).entry c
      = { view := .unknown, blockTimer := none, rx := .reset, tx := .reset, stale := 0 } := by
    rw [State.entry, on.tcm]
    exact Bank.get_replicate ..
  have links : (powerOn station storeSize u).msc.links = u.msc.links := by rw [on.msc]
  have mbxs : (powerOn station storeSize u).msc.mbxs = u.msc.mbxs := by rw [on.msc]
  have mem : (powerOn station storeSize u).msc.mem = u.msc.mem := by rw [on.msc]
  refine ⟨powerOn station storeSize u, rfl, ?highway, ?channels, ?line, ?unit, ?views, ?codes, ?contexts, ?services, ?store, begun.records,
    ?empty,
    fun h m alone record closed => one_record_of_powerOn alone record closed, ?unwritten, fun ready h m record => ⟨?append, ?delete, ?greeting⟩⟩
  case highway =>
    rw [on.hwi]
    exact ⟨rfl, rfl, rfl, rfl, rfl, rfl, rfl, rfl⟩
  case channels =>
    intro c
    have channel : (powerOn station storeSize u).hwi.channels.get c = .reset := by
      rw [on.hwi]
      exact Bank.get_replicate ..
    rw [channel]
    exact ⟨rfl, rfl, rfl⟩
  case line =>
    rw [on.clc]
    exact ⟨rfl, rfl, rfl, rfl, rfl, rfl⟩
  case unit =>
    rw [on.cfu]
    exact ⟨rfl, rfl, rfl, rfl, rfl, rfl, rfl, rfl⟩
  case views => exact entry
  case codes =>
    intro c
    rw [entry c]
    exact ⟨rfl, rfl, rfl, rfl, rfl, rfl⟩
  case contexts =>
    intro k
    rw [State.at, State.bid, State.outbound, State.fetch, on.ctx, on.tcm, on.rau]
    exact ⟨Bank.get_replicate .., Bank.get_replicate .., Bank.get_replicate .., Bank.get_replicate ..⟩
  case services =>
    rw [on.rau]
    exact ⟨rfl, rfl⟩
  case store =>
    rw [on.msc]
    exact ⟨rfl, rfl, rfl, rfl, rfl, rfl⟩
  case empty =>
    intro free
    rw [none_left free]
    exact ⟨rfl, rfl, rfl, rfl⟩
  case unwritten =>
    intro none_done
    rw [exec_powerOn, exec_powerOn, (sameMemory_interrupted none_done s).powerOn]
    rfl
  case append =>
    intro block samples b rest l w only opened writer free last
    have part := appendCut_cutAppend ready ((msgAt_of_lt h.isLt s).trans record) opened writer free last block samples loss.writes
    have same : u = (cutAppend h.val block samples ⟨loss.writes, s⟩).s := interrupted_of_one only s
    rw [← same] at part
    exact ⟨begun.gone fun x found => by rw [part.record x ((msgAt_of_lt h.isLt u).trans found)]; nofun,
      mbxs.trans part.mbxs, mem.trans part.mem, links.trans part.links⟩
  case delete =>
    intro only configured closed unused written
    have there := (msgAt_of_lt h.isLt s).trans record
    obtain ⟨n, count⟩ := Nat.exists_eq_succ_of_ne_zero (Nat.pos_iff_ne_zero.mp written)
    have same : u = (cutDelete h.val ⟨n + 1, s⟩).s := by
      rw [← cutMark_of_delete there ready configured closed, ← Nat.succ_eq_add_one, ← count]
      exact interrupted_of_one only s
    have part := deleteCut_cutDelete there unused n
    rw [← same] at part
    rw [count, ← unlisted_eq]
    exact ⟨begun.gone fun x found => absurd ((msgAt_of_lt h.isLt u).trans found) (by rw [part.record]; nofun),
      mem.trans part.mem, links.trans part.links, mbxs.trans part.mbxs⟩
  case greeting =>
    intro reason w box old o only plain opened writer kind some_blocks boxed greeting other oldRecord closed unused
      mailbox written _
    have there := (msgAt_of_lt h.isLt s).trans record
    have oldThere := (msgAt_of_lt old.isLt s).trans oldRecord
    have apart : old.val ≠ h.val := fun e => other (Fin.ext e)
    obtain ⟨n, count⟩ := Nat.exists_eq_succ_of_ne_zero (Nat.pos_iff_ne_zero.mp written)
    have whole : trims reason = false ∧ truncates .greeting reason = false := by
      simp only [List.mem_cons, List.not_mem_nil, or_false, not_or] at plain
      simp [trims, truncates, plain]
    have mailboxFound : mailbox? s m.mailbox = some box := by
      rw [mailbox?, ← boxed]
      congr
    have same : u = (cutClose h.val reason ⟨n + 1, s⟩).s := by
      have asked : (openRecord s h.val).isSome = true := by rw [openRecord_of_opened ready there opened writer]; rfl
      rw [← Nat.succ_eq_add_one, ← count]
      exact (interrupted_of_one only s).trans (congrArg Cut.s (if_pos asked))
    have part := greetingCut_of_cutDelete there apart oldThere unused mailbox n
    rw [← cutClose_of_greeting there kind some_blocks whole mailboxFound greeting (n + 1), ← same] at part
    have stands := (msgAt_of_lt h.isLt u).symm.trans part.record
    rw [count]
    refine ⟨begun.gone fun x found => absurd ((msgAt_of_lt old.isLt u).trans found) (by rw [part.replaced]; nofun), mem.trans part.mem,
      links.trans part.links, fun early => begun.gone fun x found => ?_, fun late => ?_, ?_⟩
    · obtain rfl := Option.some.inj (found.symm.trans (stands.trans (if_pos early)))
      rw [opened]
      nofun
    · exact stands.trans (if_neg (by omega))
    · rw [mbxs, part.mbxs, unlisted_eq]
      rfl

end Sys2Proof.Machine
end
